-- ==== Sys2Proof/Word.lean ====
section
/-! DEFINITION. Words and bytes (spec/00_scope.md, R1): 64-bit register values, 48-bit code addresses, bytes. -/
namespace Sys2Proof

/-- A 64-bit register value or record word. -/
abbrev Word := BitVec 64

/-- A byte of memory. -/
abbrev Byte := BitVec 8

/-- A 48-bit code address (spec/02 R21). -/
abbrev CodeAddr := BitVec 48

/-- A 32-bit lane mask, bit n for lane n. -/
abbrev LaneMask := BitVec 32

/-- The number of lanes of a wave (spec/00 glossary). -/
abbrev lanesPerWave : Nat := 32

end Sys2Proof
end

