-- ==== Sys2Proof/Syntax.lean ====
section
/-! DEFINITION. The instructions of Isaerbin and the events of the P8 as data: one constructor of `Instr` for each row of
spec/opcode_table.json. A word's operands are held as decoded fields (spec/02 Tables 2-1 to 2-10); an event's arguments
are the choices that the spec leaves to the device's timing, to Bishop, to the host or to the outside world (log 9). -/
namespace Sys2Proof

/-! ### Operand codes of spec/02 -/

/-- Table 2-3, type codes in code order. -/
inductive Ty where
  | s64 | z64 | s32x2 | z32x2 | s16x4 | z16x4 | s8x8 | z8x8
  | f64 | f32x2 | f16x4 | bf16x4 | e4m3x8 | e5m2x8 | e2m1x16 | s4x16
  deriving DecidableEq, Repr

/-- Table 2-4, rounding codes. -/
inductive Rnd where
  | rne | rtz | rdn | rup | rna | sr
  deriving DecidableEq, Repr

/-- Table 2-5, comparison codes. -/
inductive Cmp where
  | eq | ne | lt | le | gt | ge | num | nan
  deriving DecidableEq, Repr

/-- Table 2-7, memory widths. -/
inductive Width where
  | b8 | b16 | b32 | b64 | b128 | b256
  deriving DecidableEq, Repr

/-- Table 2-8, ordering codes; `acqrel` is code 10. -/
inductive Ord where
  | plain | rlx | acqrel | sc
  deriving DecidableEq, Repr

/-- Table 2-8, scope codes. -/
inductive Scope where
  | wav | core | die | dev | dom | sys
  deriving DecidableEq, Repr

/-- Table 13-3, eviction priorities. -/
inductive Evict where
  | mru | ef | el | na | ns
  deriving DecidableEq, Repr

/-- Table 2-7b, atomic operations. -/
inductive AOp where
  | add | min | max | minu | maxu | and | or | xor | exch | cas | fadd | fmin | fmax
  deriving DecidableEq, Repr

/-- Table 2-7a, WID: an atomic acts on 32 or 64 bits. -/
inductive AWid where
  | w32 | w64
  deriving DecidableEq, Repr

/-- Table 10-1, modes of LSHF. -/
inductive Shf where
  | dn | up | bfly | wrap
  deriving DecidableEq, Repr

/-- Table 10-1, operations of LRED and LSCAN. -/
inductive RedOp where
  | add | min | max | and | or | xor
  deriving DecidableEq, Repr

/-- Table 8-3, the kinds of VOTE. -/
inductive Vote where
  | ballot | any | all
  deriving DecidableEq, Repr

/-- R31, branch hints. -/
inductive Hint where
  | none | likely | unlikely
  deriving DecidableEq, Repr

/-- R29, the source that HOLD names. -/
inductive Hold where
  | none | a | b | c
  deriving DecidableEq, Repr

/-- A guard field (Table 2-1): negate and predicate index. -/
structure Guard where
  neg : Bool
  idx : Nat
  deriving DecidableEq, Repr

/-- The guard that is always true, 0b0000. -/
def Guard.always : Guard := ⟨false, 0⟩

/-- The fields every full word has in the same place (R23). -/
structure Ctl where
  ga : Guard
  gb : Guard
  hold : Hold
  yld : Bool
  stall : Nat
  deriving DecidableEq, Repr

/-- A register operand that is a vector register or, with SB or SCAL, a scalar one (R26, R153). -/
inductive VS where
  | v (r : Nat)
  | s (r : Nat)
  deriving DecidableEq, Repr

/-- Table 8-2, the special registers in number order. -/
inductive Spec where
  | laneid | waveid | corepl | diepl | quad | mode | role | link | time | fstat | mstat | loss
  | trcause | trpc | trmask | traddr | rngctr | hangcnt | hanglim | cntld | cntst | cntcp | cnttl | tofs
  deriving DecidableEq, Repr

/-- Table 2-11, half opcodes 0x00 to 0x17. -/
inductive HalfOp where
  | nop | mov | iadd | isub | and | or | xor | shl | shr | sar | imin | imax
  | iaddi | shli | shri | andi | fadd | fmul | ffma | fmax | fmin | smov | sadd | saddi
  deriving DecidableEq, Repr

/-- One half of a pair word (Table 2-10). -/
structure Half where
  op : HalfOp
  g : Guard
  d : Nat
  s : Nat
  x : Nat
  deriving DecidableEq, Repr

/-! ### Arguments of the events -/

/-- Table 7-1, kinds of place, in code order. -/
inductive PlaceKind where
  | core | bank | frame | tset | lane | queue | chan | quota
  deriving DecidableEq, Repr

/-- The causes an instruction fetch can raise (spec/13 R225). -/
inductive FetchCause where
  | tmiss | perm | owner
  deriving DecidableEq, Repr

/-- The registers a `vfRegisterWrite` may name: the writable and read-only fields of Table 5-1, the plain fields of
Table 24-4, the hypervisor's per-tenant registers (R75) and the host's claim mask (R81). -/
inductive VfReg where
  | reslim | svcth | svchold | cmodt | cmodn | qdepth | evlost | crwait | nextsub | evcons | evprod | evbase
  | evsize | crsize | crcons | crprod | crbase | cwbase
  | nonce (i : Nat) | report | clid | cslot | go | status
  | pfReslim | pfSvcth | pfSvchold | pfClaim
  deriving DecidableEq, Repr

/-- The path of a fence marker (spec/19 R313): a slice octet of the wave's die, a bridge of it (R256), or a device behind the link. -/
inductive Path where
  | octet (n : Nat)
  | bridge (j : Nat)
  | link (dev : Nat)
  deriving DecidableEq, Repr

/-- An entry of a die's remote ownership table (spec/15 R260). -/
structure RotEntry where
  valid : Bool
  dev : Nat
  tenant : Nat
  mfn : Nat
  count : Nat
  rd : Bool
  wr : Bool
  atom : Bool
  deriving DecidableEq, Repr

/-- The thermal limits of a configuration image, in degrees Celsius (spec/27 R390, R393): the clock steps down from `down` on and up again
below `up`, and the die stops at `stop`. -/
structure ThermalLimits where
  down : Nat
  up : Nat
  stop : Nat
  deriving DecidableEq, Repr

/-- The configuration image (spec/27 R390), the same in the eight flashes: the domain id, the failed bridges and the substitution of bridge
10, the cores and pool banks that fail their tests, Bishop's claim mask, the PUF helper data, HBM training parameters and the thermal limits; with it for each
die whether its flash passes the signature check, and whether the PUF correction succeeds (log 59). -/
structure BootImage where
  dieOk : List Bool
  devid : Nat
  failedBridges : List (Nat × Nat)
  spareBridges : List (Nat × Nat)
  badCores : List Nat
  badBanks : List Nat
  claim : BitVec 16
  pufOk : Bool
  puf : List (BitVec 8)
  hbmTraining : List (BitVec 64)
  thermal : ThermalLimits
  deriving DecidableEq, Repr

/-- The device to which a tenant migrates (spec/23 R364 to R367): its DEVID, the elapsed time that the hypervisor supplies, its device time at the
restore, and its defective cores and pool banks. -/
structure MigrationTarget where
  devid : Nat
  elapsed : Nat
  time : Nat
  badCores : List Nat
  badBanks : List Nat
  deriving DecidableEq, Repr

/-- What a remote device asks of a home slice (spec/15 R260). A write is plain, or strong with its release scope if it is a release; an
atomic is strong (R298, R303). -/
inductive RemoteReq where
  | read (n : Nat)
  | write (data : List Byte) (order : Option (Option Nat))
  | atomic (op : AOp) (w : AWid) (b c : Word) (rel : Option Nat)
  deriving DecidableEq, Repr

/-- What Bishop gives a tenant it binds (spec/07 Table 7-5, spec/05 R75, spec/06 R91, spec/08 R144). -/
structure BindArgs where
  salt : Word
  cwbase : Nat
  revTfn : Nat
  lossTfn : Nat
  repoTfn : Nat
  repoFrames : Nat
  bindTfn : Nat
  svcTfn : Nat
  revMin : Nat
  quota : Nat
  deriving DecidableEq, Repr

/-- The rows of spec/opcode_table.json. -/
inductive Instr where
  -- control, 0x000-0x017
  | nop (c : Ctl)
  | bra (c : Ctl) (off : Int) (h : Hint)
  | brx (c : Ctl) (a : Nat)
  | call (c : Ctl) (off : Int) (h : Hint)
  | ret (c : Ctl)
  | brau (c : Ctl) (off : Int) (h : Hint)
  | rcv (c : Ctl)
  | exit (c : Ctl)
  | yield (c : Ctl)
  | wait (c : Ctl) (ld st cp tl : Nat)
  | sleep (c : Ctl) (n : Nat)
  | phint (c : Ctl) (imm : Nat)
  | vote (c : Ctl) (d pa : Nat) (k : Vote)
  | elect (c : Ctl) (d : Nat)
  | mfs (c : Ctl) (d : VS) (n : Spec)
  | mts (c : Ctl) (a : VS) (n : Spec)
  | launch (c : Ctl) (d a : Nat)
  | trap (c : Ctl) (code : Nat)
  | svc (c : Ctl) (d a cls code : Nat)
  | svcrep (c : Ctl) (d a b : Nat)
  | rte (c : Ctl) (a : Nat)
  | bkpt (c : Ctl) (code : Nat)
  | rand (c : Ctl) (d : Nat)
  | perfrd (c : Ctl) (d n : Nat)
  -- registers and recipes, 0x020-0x025
  | acqx (c : Ctl) (d n : Nat)
  | relx (c : Ctl) (d n : Nat)
  | rcpdef (c : Ctl) (d a id idx : Nat)
  | rcptag (c : Ctl) (d id : Nat)
  | rcpclr (c : Ctl) (a n : Nat)
  | rcpq (c : Ctl) (d a : Nat)
  -- vector integer, 0x030-0x04E
  | mov (c : Ctl) (d a : Nat)
  | movi (c : Ctl) (d : Nat) (imm : Int)
  | movk (c : Ctl) (d imm h : Nat)
  | sel (c : Ctl) (d a : Nat) (b : VS) (pc : Nat)
  | iadd (c : Ctl) (d a : Nat) (b : VS) (t : Ty) (sat : Bool)
  | isub (c : Ctl) (d a : Nat) (b : VS) (t : Ty) (sat : Bool)
  | imul (c : Ctl) (d a : Nat) (b : VS) (t : Ty) (sat : Bool)
  | imulh (c : Ctl) (d a : Nat) (b : VS) (t : Ty)
  | imad (c : Ctl) (d a : Nat) (b : VS) (e : Nat) (t : Ty) (sat : Bool)
  | imin (c : Ctl) (d a : Nat) (b : VS) (t : Ty)
  | imax (c : Ctl) (d a : Nat) (b : VS) (t : Ty)
  | iabs (c : Ctl) (d a : Nat) (t : Ty) (sat : Bool)
  | ineg (c : Ctl) (d a : Nat) (t : Ty) (sat : Bool)
  | and (c : Ctl) (d a : Nat) (b : VS)
  | or (c : Ctl) (d a : Nat) (b : VS)
  | xor (c : Ctl) (d a : Nat) (b : VS)
  | not (c : Ctl) (d a : Nat)
  | shl (c : Ctl) (d a : Nat) (b : VS) (t : Ty) (uni : Bool)
  | shr (c : Ctl) (d a : Nat) (b : VS) (t : Ty) (uni : Bool)
  | sar (c : Ctl) (d a : Nat) (b : VS) (t : Ty) (uni : Bool)
  | rot (c : Ctl) (d a : Nat) (b : VS) (t : Ty) (uni : Bool)
  | bfx (c : Ctl) (d a : Nat) (b : VS) (t : Ty)
  | bfi (c : Ctl) (d a : Nat) (b : VS) (e : Nat)
  | popc (c : Ctl) (d a : Nat) (t : Ty)
  | clz (c : Ctl) (d a : Nat) (t : Ty)
  | brev (c : Ctl) (d a : Nat) (t : Ty)
  | lea (c : Ctl) (d a : Nat) (b : VS) (t : Ty) (sh : Nat)
  | isetp (c : Ctl) (d a : Nat) (b : VS) (t : Ty) (k : Cmp) (any : Bool)
  | iaddi (c : Ctl) (d a : Nat) (imm : Int)
  | idot (c : Ctl) (d a : Nat) (b : VS) (e : Nat) (ta tb : Ty) (sat : Bool)
  | plop (c : Ctl) (d pa pb lut : Nat)
  -- cross-lane, 0x050-0x056
  | lshf (c : Ctl) (d a : Nat) (b : VS) (k : Shf)
  | lbcast (c : Ctl) (d a b : Nat) (t : Ty)
  | lred (c : Ctl) (d a : Nat) (t : Ty) (op : RedOp)
  | lscan (c : Ctl) (d a : Nat) (t : Ty) (op : RedOp) (excl : Bool)
  | lperm (c : Ctl) (d a b : Nat) (t : Ty)
  | rdlane (c : Ctl) (d a b : Nat) (t : Ty)
  | wrlane (c : Ctl) (d a b : Nat) (t : Ty)
  -- scalar, 0x060-0x06F
  | smov (c : Ctl) (d a : Nat)
  | smovi (c : Ctl) (d : Nat) (imm : Int)
  | smovk (c : Ctl) (d imm h : Nat)
  | sadd (c : Ctl) (d a b : Nat)
  | ssub (c : Ctl) (d a b : Nat)
  | smul (c : Ctl) (d a b : Nat)
  | smad (c : Ctl) (d a b e : Nat)
  | sand (c : Ctl) (d a b : Nat)
  | sor (c : Ctl) (d a b : Nat)
  | sxor (c : Ctl) (d a b : Nat)
  | sshl (c : Ctl) (d a b : Nat)
  | sshr (c : Ctl) (d a b : Nat)
  | ssar (c : Ctl) (d a b : Nat)
  | ssetq (c : Ctl) (d a b : Nat) (k : Cmp) (u : Bool)
  | smin (c : Ctl) (d a b : Nat) (u : Bool)
  | smax (c : Ctl) (d a b : Nat) (u : Bool)
  -- vector float, 0x080-0x095
  | fadd (c : Ctl) (d a : Nat) (b : VS) (t : Ty) (r : Rnd)
  | fsub (c : Ctl) (d a : Nat) (b : VS) (t : Ty) (r : Rnd)
  | fmul (c : Ctl) (d a : Nat) (b : VS) (t : Ty) (r : Rnd)
  | ffma (c : Ctl) (d a : Nat) (b : VS) (e : Nat) (t : Ty) (r : Rnd)
  | fmin (c : Ctl) (d a : Nat) (b : VS) (t : Ty)
  | fmax (c : Ctl) (d a : Nat) (b : VS) (t : Ty)
  | fsetp (c : Ctl) (d a : Nat) (b : VS) (t : Ty) (k : Cmp) (any : Bool)
  | fcvt (c : Ctl) (d a : Nat) (td ts : Ty) (r : Rnd)
  | frnd (c : Ctl) (d a : Nat) (t : Ty) (r : Rnd)
  | i2f (c : Ctl) (d a : Nat) (td ts : Ty) (r : Rnd)
  | f2i (c : Ctl) (d a : Nat) (td ts : Ty) (r : Rnd)
  | frcp (c : Ctl) (d a : Nat) (t : Ty) (r : Rnd)
  | frsq (c : Ctl) (d a : Nat) (t : Ty)
  | fsqrt (c : Ctl) (d a : Nat) (t : Ty) (r : Rnd)
  | fexp2 (c : Ctl) (d a : Nat) (t : Ty)
  | fexp2Fs (c : Ctl) (d a : Nat) (b : VS) (e : Nat) (t : Ty)
  | flog2 (c : Ctl) (d a : Nat) (t : Ty)
  | fsin (c : Ctl) (d a : Nat) (t : Ty)
  | fcos (c : Ctl) (d a : Nat) (t : Ty)
  | ftanh (c : Ctl) (d a : Nat) (t : Ty)
  | fdot (c : Ctl) (d a : Nat) (b : VS) (e : Nat) (ta tb : Ty) (r : Rnd)
  | fclass (c : Ctl) (d a : Nat) (t : Ty)
  | fscale (c : Ctl) (d a : Nat) (b : VS) (t : Ty) (r : Rnd)
  -- memory and atomics, 0x0A0-0x0AC
  | ldg (c : Ctl) (d a : Nat) (off : Int) (w : Width) (o : Ord) (sc : Scope) (ev : Evict)
  | stg (c : Ctl) (d a : Nat) (off : Int) (w : Width) (o : Ord) (sc : Scope) (ev : Evict)
  | ldp (c : Ctl) (d a : Nat) (off : Int) (w : Width) (o : Ord) (sc : Scope)
  | stp (c : Ctl) (d a : Nat) (off : Int) (w : Width) (o : Ord) (sc : Scope)
  | ldk (c : Ctl) (d a : Nat) (off : Int) (w : Width) (ev : Evict)
  | pref (c : Ctl) (a : Nat) (off : Int) (ev : Evict)
  | cinv (c : Ctl) (a : Nat) (off : Int)
  | pqry (c : Ctl) (d a : Nat)
  | fence (c : Ctl) (o : Ord) (sc : Scope)
  | atom (c : Ctl) (d a b e : Nat) (op : AOp) (o : Ord) (sc : Scope) (w : AWid)
  | atomp (c : Ctl) (d a b e : Nat) (op : AOp) (o : Ord) (sc : Scope) (w : AWid)
  | red (c : Ctl) (a b : Nat) (op : AOp) (o : Ord) (sc : Scope) (w : AWid)
  | hgath (c : Ctl) (d a b : Nat) (o : Ord) (sc : Scope) (ev : Evict)
  -- translation, bindings and reuse, 0x0B0-0x0B8
  | tbld (c : Ctl) (d a b e arr way : Nat)
  | tbrd (c : Ctl) (d a arr way : Nat)
  | tbinv (c : Ctl) (d a arr : Nat) (all : Bool)
  | frq (c : Ctl) (d a : Nat)
  | bndq (c : Ctl) (d a : Nat)
  | revack (c : Ctl) (d a b : Nat)
  | lossack (c : Ctl) (d a : Nat)
  | rtq (c : Ctl) (d a : Nat)
  | rtinv (c : Ctl) (d a b : Nat)
  -- engines, 0x0C0-0x0C5
  | cpy (c : Ctl) (a b e : Nat) (dp sp : Bool) (q : Nat)
  | cpyx (c : Ctl) (a b e : Nat) (dp sp : Bool) (q : Nat)
  | cpym (c : Ctl) (a b e : Nat) (dp : Bool) (q : Nat)
  | cpyd (c : Ctl) (a b e : Nat) (dp sp : Bool) (q : Nat)
  | srarv (c : Ctl) (ring a : Nat)
  | srwt (c : Ctl) (ring a : Nat) (ph : Bool)
  -- matrix, 0x0D0-0x0DA
  | obres (c : Ctl) (d a : Nat)
  | obrel (c : Ctl) (d a : Nat)
  | obld (c : Ctl) (a b : Nat)
  | acca (c : Ctl) (d a b : Nat)
  | accf (c : Ctl) (d a : Nat)
  | accz (c : Ctl) (a b : Nat)
  | mma (c : Ctl) (a : Nat)
  | mmas (c : Ctl) (a : Nat)
  | accrd (c : Ctl) (d a : Nat)
  | accwr (c : Ctl) (d a : Nat)
  | drain (c : Ctl) (a : Nat)
  -- synchronisation, 0x0E0-0x0E6
  | bar (c : Ctl) (g : Nat)
  | bara (c : Ctl) (g : Nat)
  | barw (c : Ctl) (g : Nat)
  | grpq (c : Ctl) (d a : Nat)
  | chsend (c : Ctl) (ch a : Nat)
  | chrecv (c : Ctl) (d ch : Nat)
  | chq (c : Ctl) (d ch item : Nat)
  -- pair words
  | pairWord (h0 h1 : Half) (stall1 : Bool)
  -- submission, admission and retirement (05, 06, 24, 27)
  | readyWordStore (t slot : Nat) (value : Word)
  | pendingSlotQueued (t : Nat)
  | keyUnsealDone (slot : Nat)
  | keywaitTimeout (l : Nat)
  | reuseLookup (l : Nat)
  | digestCacheFill (l region : Nat)
  | reuseHitCopyDone (l : Nat)
  | launchAdmitted (l : Nat) (slots : List Nat) (save : Nat)
  | reservationTimeout (l : Nat)
  | launchRetire (l : Nat) (killed : Bool)
  | completionRecordWrite (t : Nat)
  | eventRecordWrite (t : Nat)
  | completionInterruptTimer (t : Nat)
  | vfRegisterWrite (t : Nat) (r : VfReg) (v : Word)
  | functionLevelReset (t : Nat)
  | cxlMemRead (ma : Nat)
  | cxlMemWrite (ma : Nat) (data : List Byte)
  -- service calls and traps (21)
  | serviceBatchComplete (t cls slot : Nat)
  | class1Service (t slot : Nat)
  | upcallPost (t : Nat)
  | trapTaken (core slot : Nat)
  | homeSliceRefusal (core slot : Nat)
  | linkRefusal (core slot : Nat)
  -- completion of accesses, jobs and tile operations (13, 16, 17, 19)
  | loadComplete (core slot op : Nat) (part : Option Nat) (l1 : Bool)
  | storeAccepted (core slot op : Nat) (part : Option Nat)
  | atomicPerformed (core slot op : Nat) (part : Option Nat)
  | copyJobQueued (core job : Nat)
  | copyEngineBurst (core job burst : Nat)
  | copyJobComplete (core job : Nat)
  | tileOpComplete (core op : Nat)
  | spmetaFault (core op : Nat)
  -- cores and waves (08, 09)
  | acqxResolve (core l : Nat)
  | granuleWaitServed (core l : Nat)
  | hangDetect (core slot : Nat)
  | sleepTimeout (core slot : Nat)
  | fenceMarkerAck (core slot : Nat) (p : Path)
  -- network (15)
  | sliceTokenRefill (die : Nat)
  | sliceRetry (core slot op : Nat)
  | netTokenRefill (die : Nat)
  | controlBudgetRefill (die : Nat)
  | linkFlitReplay (die tag : Nat)
  | remoteOwnershipUpdate (die idx : Nat) (e : RotEntry)
  | waymaskChange (die t : Nat) (waymask : BitVec 16) (slbw netbw : BitVec 8) (netwt : BitVec 32)
  -- bindings and revocation (06, 07)
  | scrubberPass (die : Nat)
  | writeClockWrap
  | revocationPost (t : Nat) (k : PlaceKind) (count : Nat) (target : Option Nat) (deadline reqid : Nat)
  | abortEngineSeize (t reqid : Nat)
  | frameHandover (t tfn : Nat) (toHost : Bool)
  | leaseChange (core t : Nat)
  -- Castle and migration (23)
  | stopRequest (l : Nat) (cores : List Nat) (forced : Bool)
  | graceExpiry (l : Nat)
  | svcParkTimeout (l : Nat)
  | castleSave (l place : Nat)
  | castleRestore (l place : Nat) (slots : List Nat)
  | tenantSuspend (t : Nat)
  | bindingChange (t : Nat) (k : PlaceKind) (place phys : Nat) (prot : Option Nat)
  | dirtyHarvest (t : Nat)
  | tenantMigrate (t : Nat) (remap : List (PlaceKind × Nat × Nat)) (device : Option MigrationTarget)
  -- attestation (24)
  | certCommit (slot len : Nat) (body : List Byte)
  | challengeStart (t : Nat)
  | challengeDone (t : Nat)
  -- power, bring-up and failures (27)
  | powerOn (img : BootImage)
  | functionReady (idx count : Nat)
  | functionFail (idx : Nat)
  | thermalStep (die : Nat) (up : Bool)
  | thermalStop (die : Nat)
  -- what an issue becomes when the word is no instruction or cannot be fetched (02 R39, R40; 13 R225)
  | reservedEncoding (w : Word)
  | instructionFetchFault (k : FetchCause)
  | memoryError (ma : Nat) (corrected : Bool)
  | powerOff
  | remoteAccessAtTarget (dev t ma : Nat) (req : RemoteReq)
  | tenantResume (t : Nat)
  | tenantBind (t : Nat) (args : BindArgs)
  deriving DecidableEq, Repr

end Sys2Proof
end

