-- ==== Sys2Proof/Machine/Codes.lean ====
section
/-! DEFINITION. The code of each operand name in an encoding, and the name of each code (spec/02 Tables 2-3 to 2-11,
spec/08 Table 8-2, spec/10 Table 10-1, spec/13 Table 13-3). Where a table reserves a code, the inverse answers the first
name; the decoder refuses such a code before it asks. -/
namespace Sys2Proof

/-- Table 2-3. -/
def Ty.code : Ty → Nat
  | .s64 => 0 | .z64 => 1 | .s32x2 => 2 | .z32x2 => 3 | .s16x4 => 4 | .z16x4 => 5 | .s8x8 => 6 | .z8x8 => 7
  | .f64 => 8 | .f32x2 => 9 | .f16x4 => 10 | .bf16x4 => 11 | .e4m3x8 => 12 | .e5m2x8 => 13 | .e2m1x16 => 14 | .s4x16 => 15

/-- The type of a code (Table 2-3). -/
def Ty.ofCode : Nat → Ty
  | 1 => .z64 | 2 => .s32x2 | 3 => .z32x2 | 4 => .s16x4 | 5 => .z16x4 | 6 => .s8x8 | 7 => .z8x8
  | 8 => .f64 | 9 => .f32x2 | 10 => .f16x4 | 11 => .bf16x4 | 12 => .e4m3x8 | 13 => .e5m2x8 | 14 => .e2m1x16 | 15 => .s4x16
  | _ => .s64

theorem Ty.ofCode_code (t : Ty) : Ty.ofCode t.code = t := by cases t <;> rfl

/-- Element width in bits (Table 2-3). -/
def Ty.bits : Ty → Nat
  | .s64 | .z64 | .f64 => 64
  | .s32x2 | .z32x2 | .f32x2 => 32
  | .s16x4 | .z16x4 | .f16x4 | .bf16x4 => 16
  | .s8x8 | .z8x8 | .e4m3x8 | .e5m2x8 => 8
  | .e2m1x16 | .s4x16 => 4

/-- Elements in a 64-bit register (R2). -/
def Ty.count (t : Ty) : Nat := 64 / t.bits

/-- Types with a signed integer element. -/
def Ty.signed : Ty → Bool
  | .s64 | .s32x2 | .s16x4 | .s8x8 | .s4x16 => true
  | _ => false

/-- Column I of Table 10-2: codes 0-7 and 15. -/
def Ty.isInt (t : Ty) : Bool := t.code < 8 || t.code == 15

/-- Group Sg of Table 10-2. -/
def Ty.isSigned (t : Ty) : Bool := t.signed

/-- Group Fw of Table 12-1: codes 8-11. -/
def Ty.isFw (t : Ty) : Bool := 8 ≤ t.code && t.code ≤ 11

/-- Group Fn of Table 12-1: codes 9-11. -/
def Ty.isFn (t : Ty) : Bool := 9 ≤ t.code && t.code ≤ 11

/-- Group F of Table 12-1: codes 8-14. -/
def Ty.isF (t : Ty) : Bool := 8 ≤ t.code && t.code ≤ 14

/-- R185: the type pairs of IDOT. -/
def Ty.idotPair (a b : Ty) : Bool :=
  ((a == .s8x8 || a == .z8x8) && (b == .s8x8 || b == .z8x8)) || (a == .s4x16 && b == .s4x16)

/-- R216: the type pairs of FDOT. -/
def Ty.fdotPair (a b : Ty) : Bool :=
  ((a == .f16x4 || a == .bf16x4) && (b == .f16x4 || b == .bf16x4)) ||
  ((a == .e4m3x8 || a == .e5m2x8) && (b == .e4m3x8 || b == .e5m2x8)) || (a == .e2m1x16 && b == .e2m1x16)

/-- Table 2-4. -/
def Rnd.code : Rnd → Nat
  | .rne => 0 | .rtz => 1 | .rdn => 2 | .rup => 3 | .rna => 4 | .sr => 5

/-- The rounding of a code (Table 2-4; 6 and 7 are reserved). -/
def Rnd.ofCode : Nat → Rnd
  | 1 => .rtz | 2 => .rdn | 3 => .rup | 4 => .rna | 5 => .sr | _ => .rne

theorem Rnd.ofCode_code (r : Rnd) : Rnd.ofCode r.code = r := by cases r <;> rfl

/-- Table 2-5. -/
def Cmp.code : Cmp → Nat
  | .eq => 0 | .ne => 1 | .lt => 2 | .le => 3 | .gt => 4 | .ge => 5 | .num => 6 | .nan => 7

/-- The comparison of a code (Table 2-5). -/
def Cmp.ofCode : Nat → Cmp
  | 1 => .ne | 2 => .lt | 3 => .le | 4 => .gt | 5 => .ge | 6 => .num | 7 => .nan | _ => .eq

theorem Cmp.ofCode_code (k : Cmp) : Cmp.ofCode k.code = k := by cases k <;> rfl

/-- Table 2-7. -/
def Width.code : Width → Nat
  | .b8 => 0 | .b16 => 1 | .b32 => 2 | .b64 => 3 | .b128 => 4 | .b256 => 5

/-- The width of a code (Table 2-7; 6 to 15 are reserved). -/
def Width.ofCode : Nat → Width
  | 1 => .b16 | 2 => .b32 | 3 => .b64 | 4 => .b128 | 5 => .b256 | _ => .b8

theorem Width.ofCode_code (w : Width) : Width.ofCode w.code = w := by cases w <;> rfl

/-- Width in bytes (Table 2-7). -/
def Width.bytes : Width → Nat
  | .b8 => 1 | .b16 => 2 | .b32 => 4 | .b64 => 8 | .b128 => 16 | .b256 => 32

/-- Registers a width covers (R32: V, V2 or V4). -/
def Width.regs : Width → Nat
  | .b128 => 2 | .b256 => 4 | _ => 1

/-- Table 2-8. -/
def Ord.code : Ord → Nat
  | .plain => 0 | .rlx => 1 | .acqrel => 2 | .sc => 3

/-- The ordering of a code (Table 2-8). -/
def Ord.ofCode : Nat → Ord
  | 1 => .rlx | 2 => .acqrel | 3 => .sc | _ => .plain

theorem Ord.ofCode_code (o : Ord) : Ord.ofCode o.code = o := by cases o <;> rfl

/-- Table 2-8. -/
def Scope.code : Scope → Nat
  | .wav => 0 | .core => 1 | .die => 2 | .dev => 3 | .dom => 4 | .sys => 5

/-- The scope of a code (Table 2-8; 6 and 7 are reserved). -/
def Scope.ofCode : Nat → Scope
  | 1 => .core | 2 => .die | 3 => .dev | 4 => .dom | 5 => .sys | _ => .wav

theorem Scope.ofCode_code (s : Scope) : Scope.ofCode s.code = s := by cases s <;> rfl

/-- Table 13-3. -/
def Evict.code : Evict → Nat
  | .mru => 0 | .ef => 1 | .el => 2 | .na => 3 | .ns => 4

/-- The eviction priority of a code (Table 13-3; 5 to 7 are reserved). -/
def Evict.ofCode : Nat → Evict
  | 1 => .ef | 2 => .el | 3 => .na | 4 => .ns | _ => .mru

theorem Evict.ofCode_code (e : Evict) : Evict.ofCode e.code = e := by cases e <;> rfl

/-- Table 2-7b. -/
def AOp.code : AOp → Nat
  | .add => 0 | .min => 1 | .max => 2 | .minu => 3 | .maxu => 4 | .and => 5 | .or => 6 | .xor => 7
  | .exch => 8 | .cas => 9 | .fadd => 10 | .fmin => 11 | .fmax => 12

/-- The atomic operation of a code (Table 2-7b; 13 to 15 are reserved). -/
def AOp.ofCode : Nat → AOp
  | 1 => .min | 2 => .max | 3 => .minu | 4 => .maxu | 5 => .and | 6 => .or | 7 => .xor
  | 8 => .exch | 9 => .cas | 10 => .fadd | 11 => .fmin | 12 => .fmax | _ => .add

theorem AOp.ofCode_code (o : AOp) : AOp.ofCode o.code = o := by cases o <;> rfl

/-- Table 2-7a: WID 2 is 32 bits and WID 3 is 64. -/
def AWid.code : AWid → Nat
  | .w32 => 2 | .w64 => 3

/-- The width of a WID code. -/
def AWid.ofCode : Nat → AWid
  | 3 => .w64 | _ => .w32

theorem AWid.ofCode_code (w : AWid) : AWid.ofCode w.code = w := by cases w <;> rfl

/-- Bytes of an atomic's operand (R316). -/
def AWid.bytes : AWid → Nat
  | .w32 => 4 | .w64 => 8

/-- Table 10-1, LSHF. -/
def Shf.code : Shf → Nat
  | .dn => 0 | .up => 1 | .bfly => 2 | .wrap => 3

/-- The LSHF mode of a code (4 to 7 are ILLEGAL). -/
def Shf.ofCode : Nat → Shf
  | 1 => .up | 2 => .bfly | 3 => .wrap | _ => .dn

theorem Shf.ofCode_code (k : Shf) : Shf.ofCode k.code = k := by cases k <;> rfl

/-- Table 10-1, LRED and LSCAN. -/
def RedOp.code : RedOp → Nat
  | .add => 0 | .min => 1 | .max => 2 | .and => 3 | .or => 4 | .xor => 5

/-- The reduction of a code (Table 10-1). -/
def RedOp.ofCode : Nat → RedOp
  | 1 => .min | 2 => .max | 3 => .and | 4 => .or | 5 => .xor | _ => .add

theorem RedOp.ofCode_code (o : RedOp) : RedOp.ofCode o.code = o := by cases o <;> rfl

/-- Table 8-3, VOTE. -/
def Vote.code : Vote → Nat
  | .ballot => 0 | .any => 1 | .all => 2

/-- The VOTE of a code (3 is ILLEGAL). -/
def Vote.ofCode : Nat → Vote
  | 1 => .any | 2 => .all | _ => .ballot

theorem Vote.ofCode_code (k : Vote) : Vote.ofCode k.code = k := by cases k <;> rfl

/-- R31. -/
def Hint.code : Hint → Nat
  | .none => 0 | .likely => 1 | .unlikely => 2

/-- The hint of a code (3 is ILLEGAL). -/
def Hint.ofCode : Nat → Hint
  | 1 => .likely | 2 => .unlikely | _ => .none

theorem Hint.ofCode_code (h : Hint) : Hint.ofCode h.code = h := by cases h <;> rfl

/-- R23, HOLD. -/
def Hold.code : Hold → Nat
  | .none => 0 | .a => 1 | .b => 2 | .c => 3

/-- The HOLD of a code. -/
def Hold.ofCode : Nat → Hold
  | 1 => .a | 2 => .b | 3 => .c | _ => .none

theorem Hold.ofCode_code (h : Hold) : Hold.ofCode h.code = h := by cases h <;> rfl

/-- Table 8-2, numbers. -/
def Spec.code : Spec → Nat
  | .laneid => 0 | .waveid => 1 | .corepl => 2 | .diepl => 3 | .quad => 4 | .mode => 5 | .role => 6 | .link => 7
  | .time => 8 | .fstat => 9 | .mstat => 10 | .loss => 11 | .trcause => 12 | .trpc => 13 | .trmask => 14 | .traddr => 15
  | .rngctr => 16 | .hangcnt => 17 | .hanglim => 18 | .cntld => 19 | .cntst => 20 | .cntcp => 21 | .cnttl => 22 | .tofs => 23

/-- The special register of a number (Table 8-2; 0x18 to 0xFF are reserved). -/
def Spec.ofCode : Nat → Spec
  | 1 => .waveid | 2 => .corepl | 3 => .diepl | 4 => .quad | 5 => .mode | 6 => .role | 7 => .link
  | 8 => .time | 9 => .fstat | 10 => .mstat | 11 => .loss | 12 => .trcause | 13 => .trpc | 14 => .trmask | 15 => .traddr
  | 16 => .rngctr | 17 => .hangcnt | 18 => .hanglim | 19 => .cntld | 20 => .cntst | 21 => .cntcp | 22 => .cnttl | 23 => .tofs
  | _ => .laneid

theorem Spec.ofCode_code (n : Spec) : Spec.ofCode n.code = n := by cases n <;> rfl

/-- Table 2-11, half opcodes. -/
def HalfOp.code : HalfOp → Nat
  | .nop => 0 | .mov => 1 | .iadd => 2 | .isub => 3 | .and => 4 | .or => 5 | .xor => 6 | .shl => 7 | .shr => 8 | .sar => 9
  | .imin => 10 | .imax => 11 | .iaddi => 12 | .shli => 13 | .shri => 14 | .andi => 15 | .fadd => 16 | .fmul => 17
  | .ffma => 18 | .fmax => 19 | .fmin => 20 | .smov => 21 | .sadd => 22 | .saddi => 23

/-- The half operation of a code (0x18 to 0x3F are reserved). -/
def HalfOp.ofCode : Nat → HalfOp
  | 1 => .mov | 2 => .iadd | 3 => .isub | 4 => .and | 5 => .or | 6 => .xor | 7 => .shl | 8 => .shr | 9 => .sar
  | 10 => .imin | 11 => .imax | 12 => .iaddi | 13 => .shli | 14 => .shri | 15 => .andi | 16 => .fadd | 17 => .fmul
  | 18 => .ffma | 19 => .fmax | 20 => .fmin | 21 => .smov | 22 => .sadd | 23 => .saddi | _ => .nop

theorem HalfOp.ofCode_code (o : HalfOp) : HalfOp.ofCode o.code = o := by cases o <;> rfl

/-- Scalar halves (R36): guarded by a scalar predicate, operands of kind S. -/
def HalfOp.scalar : HalfOp → Bool
  | .smov | .sadd | .saddi => true
  | _ => false

/-- Halves whose X field names a register (Table 2-11). -/
def HalfOp.xReg : HalfOp → Bool
  | .iadd | .isub | .and | .or | .xor | .shl | .shr | .sar | .imin | .imax | .fadd | .fmul | .ffma | .fmax | .fmin | .sadd => true
  | _ => false

/-- Table 7-1, kind codes. -/
def PlaceKind.code : PlaceKind → Nat
  | .core => 0 | .bank => 1 | .frame => 2 | .tset => 3 | .lane => 4 | .queue => 5 | .chan => 6 | .quota => 7

/-- The kind of a code, if it is one (Table 7-1). -/
def PlaceKind.ofCode : Nat → Option PlaceKind
  | 0 => some .core | 1 => some .bank | 2 => some .frame | 3 => some .tset
  | 4 => some .lane | 5 => some .queue | 6 => some .chan | 7 => some .quota | _ => none

/-- The four-bit code of a guard (Table 2-1). -/
def Guard.code (g : Guard) : Nat := (if g.neg then 8 else 0) + g.idx

/-- The guard of a code. -/
def Guard.ofCode (n : Nat) : Guard := ⟨decide (8 ≤ n), n % 8⟩

/-- The types an `n`-element address block register count (R190): registers of LPERM's B operand. -/
def Ty.permRegs (t : Ty) : Nat := if t.count ≤ 4 then 1 else t.count / 4

/-- The least value of an integer type (R175). -/
def Ty.lo (t : Ty) : Int := if t.signed then -(2 ^ (t.bits - 1)) else 0

/-- The greatest value of an integer type (R175). -/
def Ty.hi (t : Ty) : Int := if t.signed then 2 ^ (t.bits - 1) - 1 else 2 ^ t.bits - 1

/-- The SB or SCAL bit of an operand (R26, R153). -/
def VS.sb : VS → Nat
  | .v _ => 0 | .s _ => 1

/-- The register number of an operand. -/
def VS.num : VS → Nat
  | .v r => r | .s r => r

end Sys2Proof
end

