-- ==== Sys2Proof/Machine/Bits.lean ====
section
/-! DEFINITION. The pseudocode helpers of spec/00 Table 0-2 and the placing of elements in a register (R2). -/
namespace Sys2Proof.Machine

/-- `bits(x, hi, lo)` of Table 0-2. -/
def bits (x hi lo : Nat) : Nat := x / 2 ^ lo % 2 ^ (hi + 1 - lo)

/-- `sext(x, n)` of Table 0-2. -/
def sext (x n : Nat) : Int :=
  let y := x % 2 ^ n
  if n = 0 then 0 else if y < 2 ^ (n - 1) then y else (y : Int) - 2 ^ n

/-- `wrap(x, n)` of Table 0-2. -/
def wrap (x : Int) (n : Nat) : Nat := (x % 2 ^ n).toNat

/-- `sat(x, lo, hi)` of Table 0-2. -/
def sat (x lo hi : Int) : Int := if x < lo then lo else if hi < x then hi else x

/-- `rotl(x, k)` of Table 0-2. -/
def rotl (x k : Nat) : Nat :=
  let y := x % 2 ^ 64
  let j := k % 64
  (y * 2 ^ j + y / 2 ^ (64 - j)) % 2 ^ 64

/-- `rotr(x, k)` of Table 0-2. -/
def rotr (x k : Nat) : Nat := rotl x (64 - k % 64)

/-- Element `i` of width `n`, as its bits (R2). -/
def elemBits (v : Word) (n i : Nat) : Nat := v.toNat / 2 ^ (n * i) % 2 ^ n

/-- `elem(v, t, i)` for an integer type. -/
def elemInt (v : Word) (t : Ty) (i : Nat) : Int :=
  if t.signed then sext (elemBits v t.bits i) t.bits else elemBits v t.bits i

/-- The number whose `n`-bit digits are the list, the first the least significant. -/
def digits (n : Nat) : List Nat → Nat
  | [] => 0
  | x :: l => x % 2 ^ n + 2 ^ n * digits n l

/-- A register whose elements of width `n` are the list, element 0 first (R2). -/
def pack (n : Nat) (l : List Nat) : Word := BitVec.ofNat 64 (digits n l)

/-- A register built element by element. -/
def build (t : Ty) (f : Nat → Nat) : Word := pack t.bits ((List.range t.count).map f)

/-- `setelem(v, t, i, x)` with x as bits. -/
def setElem (v : Word) (t : Ty) (i x : Nat) : Word :=
  build t (fun j => if j = i then x else elemBits v t.bits j)

/-- The number of 1 bits among the low `n`. -/
def popCount : Nat → Nat → Nat
  | 0, _ => 0
  | n + 1, x => x % 2 + popCount n (x / 2)

/-- The bit order of the low `n` bits reversed. -/
def revBits : Nat → Nat → Nat
  | 0, _ => 0
  | n + 1, x => x % 2 * 2 ^ n + revBits n (x / 2)

/-- Leading 0 bits of an `n`-bit value; `n` for zero (R181). -/
def leadZeros (n x : Nat) : Nat := if x = 0 then n else n - 1 - Nat.log2 x

/-- The lane numbers of a mask, ascending. -/
def lanesOf (m : LaneMask) : List Nat := (List.range 32).filter (fun i => m.getLsbD i)

/-- The mask of the lanes that satisfy a predicate. -/
def maskOf (p : Nat → Bool) : LaneMask :=
  BitVec.ofNat 32 (digits 1 ((List.range 32).map (fun i => (p i).toNat)))

/-- Ceiling of a quotient. -/
def ceilDiv (a b : Nat) : Nat := (a + b - 1) / b

end Sys2Proof.Machine
end

