-- ==== Sys2Proof/Machine/Cells.lean ====
section
/-! DEFINITION. Sparse maps in one canonical form: keys strictly rising, and no entry equal to what an unlisted key reads
as. Equal maps are equal data. Memory, register files and every other indexed store of the state are held so. -/
namespace Sys2Proof.Machine

/-- A sparse map from numbers. -/
abbrev Cells (α : Type) := List (Nat × α)

/-- The value at a key, `d` where none is listed. -/
def cellGet {α : Type} (d : α) : Cells α → Nat → α
  | [], _ => d
  | (k, v) :: l, i => if i = k then v else cellGet d l i

/-- An entry put before the first that has a higher key. -/
def cellInsert {α : Type} (i : Nat) (x : α) : Cells α → Cells α
  | [] => [(i, x)]
  | (k, v) :: l => if i < k then (i, x) :: (k, v) :: l else (k, v) :: cellInsert i x l

/-- The map without a key. -/
def cellErase {α : Type} (c : Cells α) (i : Nat) : Cells α := c.filter (fun p => p.1 != i)

/-- The map with one value changed; writing `d` removes the entry. -/
def cellSet {α : Type} [DecidableEq α] (d : α) (c : Cells α) (i : Nat) (x : α) : Cells α :=
  if x = d then cellErase c i else cellInsert i x (cellErase c i)

/-- The canonical form, with every key at least `lo`. -/
def cellWfFrom {α : Type} [DecidableEq α] (d : α) : Nat → Cells α → Bool
  | _, [] => true
  | lo, (k, v) :: l => decide (lo ≤ k) && decide (v ≠ d) && cellWfFrom d (k + 1) l

/-- The canonical form. -/
def cellWf {α : Type} [DecidableEq α] (d : α) (c : Cells α) : Bool := cellWfFrom d 0 c

/-- Consecutive values written from a key on. -/
def cellSetMany {α : Type} [DecidableEq α] (d : α) (c : Cells α) (i : Nat) : List α → Cells α
  | [] => c
  | x :: l => cellSetMany d (cellSet d c i x) (i + 1) l

/-- `n` consecutive values from a key on. -/
def cellGetMany {α : Type} (d : α) (c : Cells α) (i n : Nat) : List α := (List.range n).map (fun k => cellGet d c (i + k))

/-- Every element that satisfies `p` changed by `f`. -/
def updWhere {α : Type} (p : α → Bool) (f : α → α) (l : List α) : List α := l.map (fun x => if p x then f x else x)

/-- An element put before the first of a sorted list that it comes before. -/
def insertBy {α : Type} (before : α → α → Bool) (x : α) : List α → List α
  | [] => [x]
  | y :: l => if before x y then x :: y :: l else y :: insertBy before x l

/-- A list sorted. -/
def sortBy {α : Type} (before : α → α → Bool) : List α → List α
  | [] => []
  | x :: l => insertBy before x (sortBy before l)

/-- The bytes of a number, the least significant first (R1). -/
def bytesOf : Nat → Nat → List Byte
  | 0, _ => []
  | n + 1, v => BitVec.ofNat 8 v :: bytesOf n (v / 256)

/-- The number of a list of bytes, the first the least significant (R1). -/
def natOfBytes : List Byte → Nat
  | [] => 0
  | b :: l => b.toNat + 256 * natOfBytes l

/-- The 64-bit words of a list of bytes. -/
def wordsOf : Nat → List Byte → List Word
  | 0, _ => []
  | n + 1, l => BitVec.ofNat 64 (natOfBytes (l.take 8)) :: wordsOf n (l.drop 8)

end Sys2Proof.Machine
end

