-- ==== Sys2Proof/Machine/Aes.lean ====
section
/-! DEFINITION. AES-256, XTS over a 32-byte sector and the GCM tag with empty plaintext (spec/24 R373, R374). The cipher and
the modes are those of the standards the spec names (log 13). -/
namespace Sys2Proof.Machine

/-- The S-box, entry n in byte n. -/
def sboxTable : Nat := 0x16bb54b00f2d99416842e6bf0d89a18cdf2855cee9871e9b948ed9691198f8e19e1dc186b95735610ef6034866b53e708a8bbd4b1f74dde8c6b4a61c2e2578ba08ae7a65eaf4566ca94ed58d6d37c8e779e4959162acd3c25c2406490a3a32e0db0b5ede14b8ee4688902a22dc4f816073195d643d7ea7c41744975fec130ccdd2f3ff1021dab6bcf5389d928f40a351a89f3c507f02f94585334d43fbaaefd0cf584c4a39becb6a5bb1fc20ed00d153842fe329b3d63b52a05a6e1b1a2c830975b227ebe28012079a059618c323c7041531d871f1e5a534ccf73f362693fdb7c072a49cafa2d4adf04759fa7dc982ca76abd7fe2b670130c56f6bf27b777c63

/-- The inverse S-box, entry n in byte n. -/
def invSboxTable : Nat := 0x7d0c2155631469e126d677ba7e042b17619953833cbbebc8b0f52aae4d3be0a0ef9cc9939f7ae52d0d4ab519a97f51605fec8027591012b131c7078833a8dd1ff45acd78fec0db9a2079d2c64b3e56fc1bbe18aa0e62b76f89c5291d711af1476edf751ce837f9e28535ade72274ac9673e6b4f0cecff297eadc674f4111913a6b8a130103bdafc1020f3fca8f1e2cd00645b3b80558e4f70ad3bc8c00abd890849d8da75746155edab9edfd5048706c92b6655dcc5ca4d41698688664f6f87225d18b6d49a25b76b224d92866a12e084ec3fa420b954cee3d23c2a632947b54cbe9dec444438e3487ff2f9b8239e37cfbd7f3819ea340bf38a53630d56a0952

/-- One S-box look-up. -/
def sbox (x : Nat) : Nat := sboxTable / 256 ^ x % 256

/-- One inverse S-box look-up. -/
def invSbox (x : Nat) : Nat := invSboxTable / 256 ^ x % 256

/-- Multiplication by x in the field of 256 elements. -/
def xtime (x : Nat) : Nat := if x < 128 then 2 * x else (2 * x - 256) ^^^ 0x1B

/-- Multiplication in that field, `n` bits of the second factor. -/
def gmul : Nat → Nat → Nat → Nat
  | 0, _, _ => 0
  | n + 1, a, b => (if b % 2 = 1 then a else 0) ^^^ gmul n (xtime a) (b / 2)

/-- Bytewise exclusive or. -/
def xorBytes (a b : List Nat) : List Nat := List.zipWith (fun x y => x ^^^ y) a b

/-- Key expansion: further words of four bytes, newest first, from index `i`. -/
def expandKey : Nat → Nat → Nat → List (List Nat) → List (List Nat)
  | 0, _, _, ws => ws
  | n + 1, i, rcon, ws =>
    let prev := ws.headD []
    let t :=
      if i % 8 = 0 then xorBytes ((prev.drop 1 ++ prev.take 1).map sbox) [rcon, 0, 0, 0]
      else if i % 8 = 4 then prev.map sbox
      else prev
    expandKey n (i + 1) (if i % 8 = 0 then xtime rcon else rcon) (xorBytes t (ws.getD 7 []) :: ws)

/-- Four bytes at a time. -/
def chunks4 : Nat → List Nat → List (List Nat)
  | 0, _ => []
  | n + 1, l => l.take 4 :: chunks4 n (l.drop 4)

/-- Sixteen bytes at a time. -/
def chunks16 : Nat → List Nat → List (List Nat)
  | 0, _ => []
  | n + 1, l => l.take 16 :: chunks16 n (l.drop 16)

/-- The 15 round keys of a 32-byte key. -/
def roundKeys (key : List Nat) : List (List Nat) :=
  chunks16 15 ((expandKey 52 8 1 ((chunks4 8 key).reverse)).reverse.flatten)

/-- Row shift of the state held column by column. -/
def shiftRows (k : Nat) (b : List Nat) : List Nat := (List.range 16).map (fun i => b.getD ((i + k * (4 * (i % 4))) % 16) 0)

/-- Mixing of one column with a row of coefficients. -/
def mixCol (m : List Nat) (c : List Nat) : List Nat :=
  (List.range 4).map (fun i => (List.range 4).foldl (fun acc j => acc ^^^ gmul 8 (c.getD j 0) (m.getD ((j + 4 - i) % 4) 0)) 0)

/-- Mixing of all columns. -/
def mixCols (m : List Nat) (b : List Nat) : List Nat := (chunks4 4 b).flatMap (mixCol m)

/-- AES-256 encryption of a block. -/
def aesEnc (key block : List Nat) : List Nat :=
  let ks := roundKeys key
  let st := ((ks.drop 1).take 13).foldl
    (fun b k => xorBytes (mixCols [2, 3, 1, 1] (shiftRows 1 (b.map sbox))) k) (xorBytes block (ks.headD []))
  xorBytes (shiftRows 1 (st.map sbox)) (ks.getD 14 [])

/-- AES-256 decryption of a block. -/
def aesDec (key block : List Nat) : List Nat :=
  let ks := roundKeys key
  let st := ((ks.drop 1).take 13).reverse.foldl
    (fun b k => mixCols [14, 11, 13, 9] (xorBytes ((shiftRows 3 b).map invSbox) k)) (xorBytes block (ks.getD 14 []))
  xorBytes ((shiftRows 3 st).map invSbox) (ks.headD [])

/-- A number as bytes, least significant first. -/
def leBytes (n v : Nat) : List Nat := (List.range n).map (fun i => v / 256 ^ i % 256)

/-- The number of a list of bytes, least significant first. -/
def leNat (l : List Nat) : Nat := l.foldr (fun b n => b + 256 * n) 0

/-- The number of a list of bytes, most significant first. -/
def beNat (l : List Nat) : Nat := l.foldl (fun n b => 256 * n + b) 0

/-- A number as bytes, most significant first. -/
def beBytes (n v : Nat) : List Nat := (leBytes n v).reverse

/-- XTS: the tweak of the next block. -/
def xtsNext (t : List Nat) : List Nat :=
  let v := 2 * leNat t
  leBytes 16 (if v < 2 ^ 128 then v else (v - 2 ^ 128) ^^^ 0x87)

/-- XTS over the blocks of a sector; `f` is the block cipher under the first half of the key. -/
def xtsBlocks (f : List Nat → List Nat) : List (List Nat) → List Nat → List Nat
  | [], _ => []
  | b :: l, t => xorBytes (f (xorBytes b t)) t ++ xtsBlocks f l (xtsNext t)

/-- AES-256-XTS of a 32-byte sector (R373); the key is 64 bytes, its second half the tweak's. -/
def xtsEnc (key : List Nat) (tweak : Nat) (sector : List Nat) : List Nat :=
  xtsBlocks (aesEnc (key.take 32)) (chunks16 2 sector) (aesEnc (key.drop 32) (leBytes 16 tweak))

/-- Its inverse. -/
def xtsDec (key : List Nat) (tweak : Nat) (sector : List Nat) : List Nat :=
  xtsBlocks (aesDec (key.take 32)) (chunks16 2 sector) (aesEnc (key.drop 32) (leBytes 16 tweak))

/-- Multiplication in GHASH's field; bit 0 is the most significant. -/
def ghashMul : Nat → Nat → Nat → Nat → Nat
  | 0, _, _, z => z
  | n + 1, x, v, z =>
    ghashMul n (2 * x % 2 ^ 128) (if v % 2 = 1 then (v / 2) ^^^ (0xE1 * 2 ^ 120) else v / 2)
      (if 2 ^ 127 ≤ x then z ^^^ v else z)

/-- GHASH over blocks. -/
def ghash (h : Nat) (blocks : List (List Nat)) : Nat :=
  blocks.foldl (fun y b => ghashMul 128 (y ^^^ beNat b) h 0) 0

/-- The first 8 bytes of the AES-256-GCM tag of 512 bytes of additional data (R374). -/
def gcmTag8 (key iv aad : List Nat) : List Nat :=
  let h := beNat (aesEnc key (List.replicate 16 0))
  let s := ghash h (chunks16 32 aad ++ [beBytes 8 4096 ++ beBytes 8 0])
  (xorBytes (beBytes 16 s) (aesEnc key (iv ++ [0, 0, 0, 1]))).take 8

end Sys2Proof.Machine
end

