-- ==== Sys2Proof/Machine/Hash.lean ====
section
/-! DEFINITION. OX-128 (spec/06 R91), SHA-512, RSAES-OAEP and RSASSA-PKCS1-v1_5 (spec/24 R369, R380). OX-128 is the spec's
own; the others are those of the standards it names (log 13). -/
namespace Sys2Proof.Machine

/-- The two running halves of OX-128 over 64-bit words. -/
def oxWords : List Nat → Nat → Nat → Nat × Nat
  | [], a, b => (a, b)
  | w :: l, a, b =>
    oxWords l (rotl (a ^^^ w) 27 * 0x9C4F2E8B6D13A5F7 % 2 ^ 64) (rotl ((b + w) % 2 ^ 64) 41 * 0xE3A57B91C60D2F4B % 2 ^ 64)

/-- The bytes as 64-bit little-endian words, zero-filled at the end; `n` bounds their number. -/
def oxSplit : Nat → List Nat → List Nat
  | 0, _ => []
  | n + 1, l => leNat (l.take 8) :: oxSplit n (l.drop 8)

/-- R91, OX-128: the digest a × 2^64 + b. -/
def ox128 (bytes : List Nat) (salt : Nat) : Nat :=
  let n := bytes.length
  let p := oxWords (oxSplit (ceilDiv n 8) bytes ++ [n]) salt (salt ^^^ 0x6A3D91C4E25B07F8)
  let a := p.1 ^^^ (p.2 / 2 ^ 29)
  let b := p.2 ^^^ (a / 2 ^ 31)
  (a * 0xE3A57B91C60D2F4B % 2 ^ 64) * 2 ^ 64 + b * 0x9C4F2E8B6D13A5F7 % 2 ^ 64

/-- A digest inside a byte string: the 8 bytes of b, then those of a (R91). -/
def oxBytes (d : Nat) : List Nat := leBytes 8 (d % 2 ^ 64) ++ leBytes 8 (d / 2 ^ 64)

/-- SHA-512 round constants, constant n in word n. -/
def shaK : Nat := 0x6c44198c4a4758175fcb6fab3ad6faec597f299cfc657e2a4cc5d4becb3e42b6431d67c49c100d4c3c9ebe0a15c9bebc32caab7b40c7249328db77f523047d841b710b35131c471b113f9804bef90dae0a637dc5a2c898a606f067aa72176fbaf57d4f7fee6ed178eada7dd6cde0eb1ed186b8c721c0c207ca273eceea26619cc67178f2e372532bbef9a3f7b2c67915a4506cebde82bde990befffa23631e288cc702081a6439ec84c87814a1f0ab7278a5636f43172f60748f82ee5defb2fc682e6ff3d6b2b8a35b9cca4f7763e3734ed8aa4ae3418acb391c0cb3c5c95a6334b0bcb5e19b48a82748774cdf8eeb991e376c085141ab5319a4c116b8d2d0c8106aa07032bbd1b8f40e35855771202ad69906245565a910d192e819d6ef5218c76c51a30654be30c24b8b70d0f89791a81a664bbc423001a2bfe8a14cf1036492722c851482353b81c2c92e47edaee6766a0abb3c77b2a8650a73548baf63de53380d139d95b3df4d2c6dfc5ac42aed2e1b21385c26c92627b70a8546d22ffc142929670a0e6e7006ca6351e003826fd5a79147930aa725c6e00bf33da88fc2bf597fc7beef0ee4b00327c898fb213fa831c66d2db43210983e5152ee66dfab76f988da831153b55cb0a9dcbd41fbd44a7484aa6ea6e4832de92c6f592b0275240ca1cc77ac9c650fc19dc68b8cd5b5efbe4786384f25e3e49b69c19ef14ad2c19bf174cf6926949bdc06a725c7123580deb1fe3b1696b172be5d74f27b896f550c7dc3d5ffb4e2243185be4ee4b28c12835b0145706fbed807aa98a3030242ab1c5ed5da6d8118923f82a4af194f9b59f111f1b605d0193956c25bf348b538e9b5dba58189dbbcb5c0fbcfec4d3b2f7137449123ef65cd428a2f98d728ae22

/-- SHA-512 initial values, value n in word n. -/
def shaH : Nat := 0x5be0cd19137e21791f83d9abfb41bd6b9b05688c2b3e6c1f510e527fade682d1a54ff53a5f1d36f13c6ef372fe94f82bbb67ae8584caa73b6a09e667f3bcc908

/-- The eight working words. -/
abbrev ShaState := List Nat

/-- Message schedule: words newest first. -/
def shaSchedule : Nat → List Nat → List Nat
  | 0, ws => ws
  | n + 1, ws =>
    let w15 := ws.getD 14 0
    let w2 := ws.getD 1 0
    let s0 := rotr w15 1 ^^^ rotr w15 8 ^^^ (w15 / 2 ^ 7)
    let s1 := rotr w2 19 ^^^ rotr w2 61 ^^^ (w2 / 2 ^ 6)
    shaSchedule n ((ws.getD 15 0 + s0 + ws.getD 6 0 + s1) % 2 ^ 64 :: ws)

/-- The rounds over the schedule, from round `i`. -/
def shaRounds : List Nat → Nat → ShaState → ShaState
  | [], _, st => st
  | w :: l, i, st =>
    let e := st.getD 4 0
    let a := st.getD 0 0
    let ch := (e &&& st.getD 5 0) ^^^ ((2 ^ 64 - 1 - e) &&& st.getD 6 0)
    let t1 := st.getD 7 0 + (rotr e 14 ^^^ rotr e 18 ^^^ rotr e 41) + ch + shaK / 2 ^ (64 * i) % 2 ^ 64 + w
    let maj := (a &&& st.getD 1 0) ^^^ (a &&& st.getD 2 0) ^^^ (st.getD 1 0 &&& st.getD 2 0)
    let t2 := (rotr a 28 ^^^ rotr a 34 ^^^ rotr a 39) + maj
    shaRounds l (i + 1)
      [(t1 + t2) % 2 ^ 64, a, st.getD 1 0, st.getD 2 0, (st.getD 3 0 + t1) % 2 ^ 64, e, st.getD 5 0, st.getD 6 0]

/-- One block of 128 bytes. -/
def shaBlock (st : ShaState) (block : List Nat) : ShaState :=
  let ws := (List.range 16).map (fun i => beNat ((block.drop (8 * i)).take 8))
  List.zipWith (fun x y => (x + y) % 2 ^ 64) st (shaRounds (shaSchedule 64 ws.reverse).reverse 0 st)

/-- All blocks. -/
def shaBlocks : Nat → List Nat → ShaState → ShaState
  | 0, _, st => st
  | n + 1, l, st => shaBlocks n (l.drop 128) (shaBlock st (l.take 128))

/-- SHA-512 of a byte string, 64 bytes. -/
def sha512 (msg : List Nat) : List Nat :=
  let n := msg.length
  let z := (128 - (n + 17) % 128) % 128
  let m := msg ++ [0x80] ++ List.replicate z 0 ++ beBytes 16 (8 * n)
  (shaBlocks ((n + 17 + z) / 128) m ((List.range 8).map (fun i => shaH / 2 ^ (64 * i) % 2 ^ 64))).flatMap (beBytes 8)

/-- Modular exponentiation over `n` bits of the exponent. -/
def powMod : Nat → Nat → Nat → Nat → Nat
  | 0, _, _, _ => 1
  | n + 1, b, e, m => (if e % 2 = 1 then b else 1) * powMod n (b * b % m) (e / 2) m % m

/-- MGF1 with SHA-512 of a length of at most 512 bytes. -/
def mgf1 (seed : List Nat) (len : Nat) : List Nat :=
  ((List.range 8).flatMap (fun i => sha512 (seed ++ beBytes 4 i))).take len

/-- RSAES-OAEP decryption of 512 bytes with SHA-512 and an empty label; none on failure. -/
def oaepDecrypt (modulus exponent : Nat) (c : List Nat) : Option (List Nat) :=
  if modulus ≤ beNat c then none
  else
    let em := beBytes 512 (powMod 4096 (beNat c) exponent modulus)
    let maskedSeed := (em.drop 1).take 64
    let maskedDb := em.drop 65
    let seed := xorBytes maskedSeed (mgf1 maskedDb 64)
    let db := xorBytes maskedDb (mgf1 seed 447)
    let rest := (db.drop 64).dropWhile (fun x => x == 0)
    if em.headD 1 = 0 ∧ db.take 64 = sha512 [] ∧ rest.headD 0 = 1 then some (rest.drop 1) else none

/-- The DigestInfo prefix of SHA-512. -/
def sha512Info : List Nat :=
  [0x30, 0x51, 0x30, 0x0D, 0x06, 0x09, 0x60, 0x86, 0x48, 0x01, 0x65, 0x03, 0x04, 0x02, 0x03, 0x05, 0x00, 0x04, 0x40]

/-- RSASSA-PKCS1-v1_5 signature of 512 bytes with SHA-512 (R380). -/
def rsaSign (modulus exponent : Nat) (msg : List Nat) : List Nat :=
  let em := [0, 1] ++ List.replicate 426 0xFF ++ [0] ++ sha512Info ++ sha512 msg
  beBytes 512 (powMod 4096 (beNat em) exponent modulus)

end Sys2Proof.Machine
end

