-- ==== Sys2Proof/Machine/Exact.lean ====
section
/-! DEFINITION. The number formats, exact values and rounding of spec/11 (R193 to R197). A finite value is a sign, a
natural mantissa and a power of two, so that every sum and product is exact; a quotient or a root that no such value
equals carries the bit `sticky`, which says that the magnitude lies strictly above the mantissa by less than one unit. -/
namespace Sys2Proof.Machine

/-- Which special encodings a format has (Table 11-1). -/
inductive Specials where
  | ieee | nanOnly | none
  deriving DecidableEq, Repr

/-- A floating-point format (Table 11-1). -/
structure Fmt where
  ebits : Nat
  mbits : Nat
  spec : Specials
  deriving DecidableEq, Repr

/-- FP64. -/
def fp64 : Fmt := ⟨11, 52, .ieee⟩
/-- FP32. -/
def fp32 : Fmt := ⟨8, 23, .ieee⟩
/-- FP16. -/
def fp16 : Fmt := ⟨5, 10, .ieee⟩
/-- BF16. -/
def bf16 : Fmt := ⟨8, 7, .ieee⟩
/-- FP8 E5M2. -/
def e5m2 : Fmt := ⟨5, 2, .ieee⟩
/-- FP8 E4M3. -/
def e4m3 : Fmt := ⟨4, 3, .nanOnly⟩
/-- FP4 E2M1. -/
def e2m1 : Fmt := ⟨2, 1, .none⟩

/-- The format of a type code; integer types are not asked. -/
def fmtOf : Ty → Fmt
  | .f64 => fp64 | .f32x2 => fp32 | .f16x4 => fp16 | .bf16x4 => bf16 | .e5m2x8 => e5m2 | .e4m3x8 => e4m3 | _ => e2m1

namespace Fmt

/-- Exponent bias. -/
def bias (f : Fmt) : Int := 2 ^ (f.ebits - 1) - 1

/-- Exponent of the least normal. -/
def emin (f : Fmt) : Int := 1 - f.bias

/-- Exponent of the least subnormal. -/
def lsb (f : Fmt) : Int := f.emin - f.mbits

/-- Exponent of the largest finite value. -/
def emax (f : Fmt) : Int :=
  match f.spec with
  | .ieee => 2 ^ f.ebits - 2 - f.bias
  | _ => 2 ^ f.ebits - 1 - f.bias

/-- Exponent of the spacing at the largest finite value. -/
def qmax (f : Fmt) : Int := f.emax - f.mbits

/-- Mantissa of the largest finite value, in units of `qmax`. -/
def maxMant (f : Fmt) : Nat :=
  match f.spec with
  | .nanOnly => 2 ^ (f.mbits + 1) - 2
  | _ => 2 ^ (f.mbits + 1) - 1

/-- Bits of infinity, sign 0. -/
def infBits (f : Fmt) : Nat := (2 ^ f.ebits - 1) * 2 ^ f.mbits

/-- Bits of the largest finite value, sign 0. -/
def maxBits (f : Fmt) : Nat := ((f.qmax - f.lsb).toNat) * 2 ^ f.mbits + f.maxMant

/-- Bits of the default NaN (Table 11-1); E2M1 has none and writes +0 (R197 step 1). -/
def nanBits (f : Fmt) : Nat :=
  match f.spec with
  | .ieee => f.infBits + 2 ^ (f.mbits - 1)
  | .nanOnly => 2 ^ (f.ebits + f.mbits) - 1
  | .none => 0

/-- The sign bit in place. -/
def sign (f : Fmt) (neg : Bool) : Nat := neg.toNat * 2 ^ (f.ebits + f.mbits)

end Fmt

/-- A value read from a format (R193, R194). -/
inductive FVal where
  | nan
  | inf (neg : Bool)
  | fin (neg : Bool) (m : Nat) (e : Int)
  deriving DecidableEq, Repr

/-- The value of an encoding (R193). -/
def Fmt.read (f : Fmt) (x : Nat) : FVal :=
  let neg := x.testBit (f.ebits + f.mbits)
  let E := x / 2 ^ f.mbits % 2 ^ f.ebits
  let F := x % 2 ^ f.mbits
  let top := 2 ^ f.ebits - 1
  if f.spec = .ieee ∧ E = top then (if F = 0 then .inf neg else .nan)
  else if f.spec = .nanOnly ∧ E = top ∧ F = 2 ^ f.mbits - 1 then .nan
  else if E = 0 then .fin neg F f.lsb
  else .fin neg (2 ^ f.mbits + F) (f.lsb + E - 1)

/-- The float flags by name (Table 11-3). -/
abbrev Flags := BitVec 8
/-- Invalid operation. -/
def flagNV : Flags := 0x01
/-- Division by zero. -/
def flagDZ : Flags := 0x02
/-- Overflow. -/
def flagOF : Flags := 0x04
/-- Underflow. -/
def flagUF : Flags := 0x08
/-- Inexact. -/
def flagPE : Flags := 0x10
/-- Accumulator flush. -/
def flagAUF : Flags := 0x20
/-- Replaced by the largest finite value. -/
def flagXS : Flags := 0x40

/-- An element's bits with the flags of forming it. -/
structure Res where
  bits : Nat
  flags : Flags
  deriving DecidableEq, Repr

/-- R197 step 3: whether `a` is chosen over `t`. The magnitude is num/den in units of the spacing, and a `sticky` part
above it smaller than one in `den`. -/
def roundsAway (r : Rnd) (u : Nat) (neg : Bool) (t num den : Nat) (sticky : Bool) : Bool :=
  let rem := num - t * den
  if rem = 0 ∧ sticky = false then false
  else match r with
    | .rtz => false
    | .rdn => neg
    | .rup => !neg
    | .rne => decide (den < 2 * rem) || (decide (2 * rem = den) && (sticky || t % 2 == 1))
    | .rna => decide (den ≤ 2 * rem)
    | .sr => decide (2 ^ 16 ≤ rem * 2 ^ 16 / den + u)

/-- A finite non-zero magnitude that a rounding acts on: mantissa, exponent and sticky part. -/
structure Mag where
  m : Nat
  e : Int
  sticky : Bool
  deriving DecidableEq, Repr

/-- Exponent of the leading bit. -/
def Mag.top (x : Mag) : Int := x.e + Nat.log2 x.m

/-- A magnitude far outside a format's range is replaced by one that rounds alike in every mode. -/
def Mag.clamp (f : Fmt) (x : Mag) : Mag :=
  if f.emax + 4 < x.top then ⟨1, f.emax + 4, false⟩
  else if x.top < f.lsb - 40 then ⟨1, f.lsb - 40, false⟩
  else x

/-- The magnitude in units of 2^q, as a quotient. -/
def Mag.over (x : Mag) (q : Int) : Nat × Nat :=
  if q ≤ x.e then (x.m * 2 ^ (x.e - q).toNat, 1) else (x.m, 2 ^ (q - x.e).toNat)

/-- The mantissa after rounding in units of 2^q, truncated at `cap`, and whether it differs from the magnitude. -/
def Mag.quantize (x : Mag) (r : Rnd) (u : Nat) (neg : Bool) (q : Int) (cap : Option Nat) : Nat × Bool :=
  let nd := x.over q
  let t0 := nd.1 / nd.2
  let t := match cap with | some c => min t0 c | none => t0
  (t + (roundsAway r u neg t nd.1 nd.2 x.sticky).toNat, x.sticky || nd.1 != t * nd.2)

/-- R197, UF's second condition: rounded with an unbounded exponent, the magnitude is below the least normal. -/
def Mag.tiny (x : Mag) (f : Fmt) (r : Rnd) (u : Nat) (neg : Bool) : Bool :=
  decide (x.top < f.emin - 1) ||
    (decide (x.top = f.emin - 1) && decide ((x.quantize r u neg (x.top - f.mbits) none).1 < 2 ^ (f.mbits + 1)))

/-- R197 steps 3 to 5 on a finite value; an exact zero keeps the sign given. -/
def rndFin (f : Fmt) (r : Rnd) (u : Nat) (neg : Bool) (m : Nat) (e : Int) (sticky : Bool) : Res :=
  if m = 0 then ⟨f.sign neg, 0⟩
  else
    let x := Mag.clamp f ⟨m, e, sticky⟩
    let q := min (max (x.top - f.mbits) f.lsb) f.qmax
    let p := x.quantize r u neg q (if q = f.qmax then some f.maxMant else none)
    if q = f.qmax ∧ f.maxMant < p.1 then
      (match f.spec with
       | .ieee => ⟨f.sign neg + f.infBits, flagOF ||| flagPE⟩
       | _ => ⟨f.sign neg + f.maxBits, flagXS ||| flagPE⟩)
    else
      ⟨f.sign neg + (q - f.lsb).toNat * 2 ^ f.mbits + p.1,
        if p.2 then (if x.tiny f r u neg then flagPE ||| flagUF else flagPE) else 0⟩

/-- R197 on any value. -/
def rnd (f : Fmt) (r : Rnd) (u : Nat) : FVal → Res
  | .nan => ⟨f.nanBits, if f.spec = .none then flagNV else 0⟩
  | .inf neg =>
    (match f.spec with
     | .ieee => ⟨f.sign neg + f.infBits, 0⟩
     | _ => ⟨f.sign neg + f.maxBits, flagXS ||| flagPE⟩)
  | .fin neg m e => rndFin f r u neg m e false

/-- A signed dyadic number. -/
structure Dy where
  m : Int
  e : Int
  deriving DecidableEq, Repr

/-- The exact number of a finite value. -/
def FVal.dy : FVal → Dy
  | .fin neg m e => ⟨if neg then -(m : Int) else m, e⟩
  | _ => ⟨0, 0⟩

/-- Mantissa at a smaller exponent. -/
def Dy.at (x : Dy) (e : Int) : Int := x.m * 2 ^ (x.e - e).toNat

/-- Exact sum. -/
def Dy.add (x y : Dy) : Dy :=
  let e := min x.e y.e
  ⟨x.at e + y.at e, e⟩

/-- Exact product. -/
def Dy.mul (x y : Dy) : Dy := ⟨x.m * y.m, x.e + y.e⟩

/-- Exact comparison. -/
def Dy.lt (x y : Dy) : Bool := let e := min x.e y.e; decide (x.at e < y.at e)

/-- The value of a dyadic number, with the sign a zero gets. -/
def Dy.val (x : Dy) (zeroNeg : Bool) : FVal := .fin (if x.m = 0 then zeroNeg else decide (x.m < 0)) x.m.natAbs x.e

end Sys2Proof.Machine
end

