-- ==== Sys2Proof/Machine/Float.lean ====
section
/-! DEFINITION. What the vector float instructions compute on one element (spec/12 R207 to R217) and the sums of FDOT and
of the matrix unit (R201, R216). -/
namespace Sys2Proof.Machine

/-- An exact result before rounding, with the flags its operands raise. -/
structure Pre where
  v : FVal
  flags : Flags
  deriving DecidableEq, Repr

namespace FVal

/-- The value is a NaN. -/
def isNan : FVal → Bool
  | .nan => true
  | _ => false

/-- The value is infinite. -/
def isInf : FVal → Bool
  | .inf _ => true
  | _ => false

/-- The value is a zero. -/
def isZero : FVal → Bool
  | .fin _ 0 _ => true
  | _ => false

/-- Sign bit. -/
def neg? : FVal → Bool
  | .nan => false
  | .inf s => s
  | .fin s _ _ => s

/-- Negation. -/
def negate : FVal → FVal
  | .nan => .nan
  | .inf s => .inf (!s)
  | .fin s m e => .fin (!s) m e

/-- Exact product with the special cases of Table 12-2. -/
def mul (a b : FVal) : Pre :=
  if (a.isZero && b.isInf) || (a.isInf && b.isZero) then ⟨.nan, flagNV⟩
  else match a, b with
    | .nan, _ => ⟨.nan, 0⟩
    | _, .nan => ⟨.nan, 0⟩
    | .fin s m e, .fin t n k => ⟨.fin (s != t) (m * n) (e + k), 0⟩
    | _, _ => ⟨.inf (a.neg? != b.neg?), 0⟩

/-- Exact sum with the special cases of Table 12-2 and the zero rule of R197 step 5. -/
def add (r : Rnd) (a b : FVal) : Pre :=
  match a, b with
  | .nan, _ => ⟨.nan, 0⟩
  | _, .nan => ⟨.nan, 0⟩
  | .inf s, .inf t => if s = t then ⟨.inf s, 0⟩ else ⟨.nan, flagNV⟩
  | .inf s, _ => ⟨.inf s, 0⟩
  | _, .inf t => ⟨.inf t, 0⟩
  | .fin s _ _, .fin t _ _ => ⟨(a.dy.add b.dy).val (if s = t then s else r == .rdn), 0⟩

/-- Order of two values that are not NaN, zeros equal. -/
def lt (a b : FVal) : Bool :=
  match a, b with
  | .inf s, .inf t => s && !t
  | .inf s, _ => s
  | _, .inf t => !t
  | _, _ => a.dy.lt b.dy

/-- Order with −0 below +0 (R208). -/
def ltZ (a b : FVal) : Bool := a.lt b || (a.isZero && b.isZero && a.neg? && !b.neg?)

end FVal

/-- Rounding of an exact result, its flags kept. -/
def rndPre (f : Fmt) (r : Rnd) (u : Nat) (p : Pre) : Res :=
  let x := rnd f r u p.v
  ⟨x.bits, x.flags ||| p.flags⟩

/-- R207, FADD. -/
def faddElem (f : Fmt) (r : Rnd) (u a b : Nat) : Res := rndPre f r u ((f.read a).add r (f.read b))

/-- R207, FSUB. -/
def fsubElem (f : Fmt) (r : Rnd) (u a b : Nat) : Res := rndPre f r u ((f.read a).add r (f.read b).negate)

/-- R207, FMUL. -/
def fmulElem (f : Fmt) (r : Rnd) (u a b : Nat) : Res := rndPre f r u ((f.read a).mul (f.read b))

/-- R207, FFMA. -/
def ffmaElem (f : Fmt) (r : Rnd) (u a b c : Nat) : Res :=
  let p := (f.read a).mul (f.read b)
  if p.flags = 0 then rndPre f r u (p.v.add r (f.read c)) else rndPre f r u p

/-- R208, FMIN and FMAX: `less x y` says that x is to be returned before y. -/
def fpick (f : Fmt) (less : FVal → FVal → Bool) (a b : Nat) : Nat :=
  let x := f.read a
  let y := f.read b
  if x.isNan && y.isNan then f.nanBits
  else if x.isNan then b
  else if y.isNan then a
  else if less y x then b else a

/-- R208, FMIN. -/
def fminElem (f : Fmt) (a b : Nat) : Nat := fpick f FVal.ltZ a b

/-- R208, FMAX. -/
def fmaxElem (f : Fmt) (a b : Nat) : Nat := fpick f (fun x y => y.ltZ x) a b

/-- R209 and Table 2-5 on one element pair. -/
def fcompare (f : Fmt) (k : Cmp) (a b : Nat) : Bool :=
  let x := f.read a
  let y := f.read b
  if x.isNan || y.isNan then k == .ne || k == .nan
  else match k with
    | .eq => !x.lt y && !y.lt x
    | .ne => x.lt y || y.lt x
    | .lt => x.lt y
    | .le => !y.lt x
    | .gt => y.lt x
    | .ge => !x.lt y
    | .num => true
    | .nan => false

/-- A finite magnitude rounded to an integer under mode r (R210, R212), and whether it changed. -/
def roundInt (r : Rnd) (u : Nat) (neg : Bool) (m : Nat) (e : Int) : Nat × Bool :=
  if m = 0 then (0, false) else Mag.quantize (if e < -70 - Nat.log2 m then ⟨1, -70, false⟩ else ⟨m, e, false⟩) r u neg 0 none

/-- R210, FRND. -/
def frndElem (f : Fmt) (r : Rnd) (a : Nat) : Nat :=
  match f.read a with
  | .nan => f.nanBits
  | .inf _ => a
  | .fin neg m e => if 0 ≤ e ∨ m = 0 then a else (rndFin f .rne 0 neg (roundInt r 0 neg m e).1 0 false).bits

/-- R211, FSCALE: k is clamped where the result no longer depends on it. -/
def fscaleElem (f : Fmt) (r : Rnd) (u a : Nat) (k : Int) : Res :=
  match f.read a with
  | .nan => ⟨f.nanBits, 0⟩
  | .inf _ => ⟨a, 0⟩
  | .fin neg m e => if m = 0 then ⟨a, 0⟩ else rndFin f r u neg m (e + sat k (-8192) 8192) false

/-- R212, FCVT. -/
def fcvtElem (fd fs : Fmt) (r : Rnd) (u a : Nat) : Res := rnd fd r u (fs.read a)

/-- R212, I2F. -/
def i2fElem (f : Fmt) (r : Rnd) (u : Nat) (x : Int) : Res := rnd f r u (.fin (decide (x < 0)) x.natAbs 0)

/-- R212, F2I: the integer's bits. -/
def f2iElem (f : Fmt) (t : Ty) (r : Rnd) (u a : Nat) : Res :=
  match f.read a with
  | .nan => ⟨0, flagNV⟩
  | .inf neg => ⟨wrap (if neg then t.lo else t.hi) t.bits, flagNV⟩
  | .fin neg m e =>
    let p := roundInt r u neg m e
    let x : Int := if neg then -(p.1 : Int) else p.1
    if x < t.lo ∨ t.hi < x then ⟨wrap (sat x t.lo t.hi) t.bits, flagNV⟩
    else ⟨wrap x t.bits, if p.2 then flagPE else 0⟩

/-- R213, R214, FRCP. -/
def frcpElem (f : Fmt) (r : Rnd) (a : Nat) : Res :=
  match f.read a with
  | .nan => ⟨f.nanBits, 0⟩
  | .inf neg => ⟨f.sign neg, 0⟩
  | .fin neg m e =>
    if m = 0 then ⟨f.sign neg + f.infBits, flagDZ⟩
    else
      let k := Nat.log2 m + f.mbits + 6
      rndFin f r 0 neg (2 ^ k / m) (-e - k) (2 ^ k % m != 0)

/-- Integer square root by digits: the greatest `r` with r * r ≤ n, for n below 4 ^ i. -/
def isqrtFrom (n : Nat) : Nat → Nat → Nat
  | 0, r => r
  | i + 1, r => isqrtFrom n i (if (r + 2 ^ i) * (r + 2 ^ i) ≤ n then r + 2 ^ i else r)

/-- Integer square root. -/
def isqrt (n : Nat) : Nat := isqrtFrom n (Nat.log2 n / 2 + 1) 0

/-- R213, R214, FSQRT. -/
def fsqrtElem (f : Fmt) (r : Rnd) (a : Nat) : Res :=
  match f.read a with
  | .nan => ⟨f.nanBits, 0⟩
  | .inf neg => if neg then ⟨f.nanBits, flagNV⟩ else ⟨f.infBits, 0⟩
  | .fin neg m e =>
    if m = 0 then ⟨a, 0⟩
    else if neg then ⟨f.nanBits, flagNV⟩
    else
      let k := 2 * (f.mbits + 5) + (e % 2).toNat
      let n := m * 2 ^ k
      let s := isqrt n
      rndFin f r 0 false s ((e - k) / 2) (s * s != n)

/-- Table 12-5, FCLASS. -/
def fclassElem (f : Fmt) (a : Nat) : Nat :=
  match f.read a with
  | .nan => 8
  | .inf neg => if neg then 0 else 7
  | .fin neg m _ =>
    if m = 0 then (if neg then 3 else 4)
    else if m < 2 ^ f.mbits then (if neg then 2 else 5)
    else if neg then 1 else 6

/-- The value 2^(s−127) of an E8M0 code, if it is one (R196). -/
def e8m0 (s : Nat) : FVal := if s = 255 then .nan else .fin false 1 (s - 127)

/-- A product of two elements with their block scales (R201, R216); a block whose scale is NaN reads as NaNs (R202), so its products
are NaN without a flag. -/
def scaledProd (a b sa sb : FVal) : Pre :=
  let p := a.mul b
  if sa.isNan || sb.isNan then ⟨.nan, 0⟩ else ⟨((p.v.mul sa).v.mul sb).v, p.flags⟩

/-- Exact sum of finite values. -/
def dySum : List FVal → Dy
  | [] => ⟨0, 0⟩
  | [x] => x.dy
  | x :: l => x.dy.add (dySum l)

/-- The exact sum of an accumulator and products (R201, R216): a product 0 × ∞, or infinities of both signs, give NaN with
NV whatever else the sum holds; then any NaN gives NaN. -/
def sumExact (r : Rnd) (acc : FVal) (ps : List Pre) : Pre :=
  let vs := acc :: ps.map Pre.v
  let posInf := vs.any (fun v => v.isInf && !v.neg?)
  let negInf := vs.any (fun v => v.isInf && v.neg?)
  if ps.any (fun p => p.flags != 0) || (posInf && negInf) then ⟨.nan, flagNV⟩
  else if vs.any FVal.isNan then ⟨.nan, 0⟩
  else if posInf || negInf then ⟨.inf negInf, 0⟩
  else ⟨(dySum vs).val (if vs.all FVal.neg? then true else if vs.all (fun v => !v.neg?) then false else r == .rdn), 0⟩

end Sys2Proof.Machine
end

