-- ==== Sys2Proof/Config.lean ====
section
/-! DEFINITION. What the spec leaves open (logs 2, 7, 8, 10): constants without a body, so that no proof sees a value. -/
namespace Sys2Proof

/-- A fresh free value; State.fresh counts those taken (log 2). -/
opaque Config.freeValue : Nat → BitVec 64

/-- The value an approximation would return on these operands, kept only when it lies within the bound of Table 12-3;
the same operands give the same value, as R213 asks (log 7). -/
opaque Config.approxChoice : Nat → List Nat → BitVec 32

/-- The device's identity modulus (2,048 bits at least), which the PUF gives (spec/24 R377; log 10). -/
opaque Config.identityModulus : Nat

/-- The device's identity private exponent (log 10). -/
opaque Config.identityExponent : Nat

/-- The device's sealing modulus (spec/24 R370, R377; log 10). -/
opaque Config.sealingModulus : Nat

/-- The device's sealing private exponent (log 10). -/
opaque Config.sealingExponent : Nat

/-- The CRC of a link flit over its header and what it carries (spec/15 R257; log 58). -/
opaque Config.linkCrc : List Nat → BitVec 64

end Sys2Proof
end

