-- ==== Sys2Proof/Machine/WaveState.lean ====
section
/-! DEFINITION. The state of a wave: lanes, registers, special registers, recipe tags, trap state, outstanding operations and
what the issue rules keep (spec/04 R71, spec/08, spec/09, spec/13 R236, spec/19, spec/20 R321, spec/21, spec/23). -/
namespace Sys2Proof.Machine

/-- The states of R131; a parked lane keeps the cause and address of its park record (R334). -/
inductive LaneSt where
  | ready
  | parked (cause : Nat) (addr : Word)
  | service
  | exited
  deriving DecidableEq, Repr

/-- One lane: state, PC, LINK, and whether it is held at an RCV (R131, R148, R149). -/
structure Lane where
  st : LaneSt
  pc : CodeAddr
  link : CodeAddr
  atRcv : Bool
  deriving DecidableEq, Repr

/-- A recipe tag of a register (R166). -/
structure RTag where
  reg : Nat
  id : Nat
  full : Bool
  deriving DecidableEq, Repr

/-- The four kinds of register HAZARD names (R159), in code order. -/
inductive PKind where
  | vec | scal | lpred | spred
  deriving DecidableEq, Repr

/-- When a pending result is ready: at a cycle, or when an outstanding operation is done (R139, R236). -/
inductive Due where
  | at (cycle : Nat)
  | op (id : Nat)
  deriving DecidableEq, Repr

/-- A register whose newest write is not ready; `old` holds what each lane's register held before (R159). -/
structure Pend where
  kind : PKind
  idx : Nat
  due : Due
  old : List (Nat × Word)
  clob : Bool
  deriving DecidableEq, Repr

/-- Where an access goes. -/
inductive Loc where
  | mem (ma : Nat)
  | remote (dev ma : Nat)
  | pad (core off : Nat)
  deriving DecidableEq, Repr

/-- Who made a strong write (R301, R303): a wave where it stood, with the mark that tells a wave-scope release (log 14); this device
outside its waves; another device; or the host. -/
inductive Party where
  | wave (die core mark : Nat)
  | device
  | other (dev : Nat)
  | host
  deriving DecidableEq, Repr

/-- The tag a strong write leaves on a byte (R303): the writer, and its release scope if it is a release. -/
structure WTag where
  party : Party
  scope : Option Nat
  deriving DecidableEq, Repr

/-- The 16-byte header of a link flit (R257): the source device, the tenant, the virtual channel (0 VC-Q, 1 VC-D, 2 VC-W, 3 VC-B), the
sequence tag, and the CRC over header and payload. -/
structure FlitHeader where
  devid : Nat
  tenant : Nat
  vc : Nat
  seq : Nat
  crc : Word
  deriving DecidableEq, Repr

/-- A link flit that carries an access: its electrical lane and its header (R257). -/
structure Flit where
  lane : Nat
  head : FlitHeader
  deriving DecidableEq, Repr

/-- One single-copy atomic part of one lane's access (R230). `via` is the link flit in which a remote one travels (R257, R259); it has none
where the port refused it. -/
structure Part where
  lane : Nat
  k : Nat
  va : Word
  loc : Loc
  size : Nat
  attr : Nat
  val : Word
  cmp : Word
  done : Bool
  via : Option Flit
  deriving DecidableEq, Repr

/-- What an outstanding operation does when it is performed. -/
inductive OpAct where
  | load
  | store
  | atom (op : AOp) (w : AWid)
  | red (op : AOp) (w : AWid)
  | gather
  | grpq (l : List (Nat × Word))
  | chq (ch item : Nat) (l : List Nat)
  | pqry (l : List (Nat × Nat × Nat))
  | accrd (l : List (Nat × Nat × Nat × Nat))
  | accwr (l : List (Nat × Nat × Nat × Nat × Word))
  deriving DecidableEq, Repr

/-- An outstanding memory word (R236): `ld` says which counter it holds; `acq` that it has the acquire side of R310; `relScope` is the
scope of the FENCEs before it (R302); `merging` holds the sectors of a PROT frame that its stores have read and not yet written (R228);
`fenced` says that a FENCE at wave scope has completed since, with the access still open (R303, R312); `born` is the cycle of its issue, by
which requests keep their order (R252). -/
structure MemOp where
  id : Nat
  ld : Bool
  act : OpAct
  reg : Nat
  width : Nat
  parts : List Part
  strong : Bool
  acq : Bool
  rel : Bool
  scope : Nat
  evict : Nat
  relScope : Option Nat
  merging : Cells (List Byte)
  fenced : Bool
  born : Nat
  deriving DecidableEq, Repr

/-- A refusal the wave has learnt of and not yet taken at a boundary (R115, R261, R292). -/
structure Refused where
  lane : Nat
  cause : Nat
  addr : Word
  deriving DecidableEq, Repr

/-- What holds a wave at its word (R136); the word is tried again at the wave's next issue. A WAIT keeps its limits (R150), by which
the cycles of the hold are counted (R154). -/
inductive Held where
  | wait (ld st cp tl : Nat) | sleep | acqx | remat | bar | line | ring | jobs | count | chan | release | slot | reserve | watch | hazard
  deriving DecidableEq, Repr

/-- The handler in progress (R338); `held` is what holds a word of its own, beside the suspended hold of its wave. -/
structure Handler where
  pc : CodeAddr
  mode : Nat
  lane : Nat
  trapped : LaneMask
  svc : Bool
  held : Option Held
  deriving DecidableEq, Repr

/-- A group record of a wave (R321). -/
structure GroupRec where
  gid : Nat
  arr : Bool
  tepoch : Nat
  deriving DecidableEq, Repr

/-- A wave in a slot of a core (R11: 0 to 47). A wave that has ended with accesses outstanding (R134) keeps a number from 48 on, which
is no slot, until they are performed (R387). `heldAt` is the word that holds the wave, `triedAt` the cycle in which it last did; `pinned` the granules that word has had filled
again; `hwAt` the cycle of the last sticky bits that hardware set, `hwF` and `hwM` those bits (R153); `adj` what steward software has
added to a register that mirrors the machine (R144); `relTags` the releases that its strong reads have met, each with its scope and the
least scope that joined the two parties at the read (R301, R303). -/
structure Wave where
  core : Nat
  slot : Nat
  launch : Nat
  tenant : Nat
  wid : Nat
  corepl : Nat
  diepl : Nat
  mode : Nat
  role : Nat
  lanes : List Lane
  vregs : Cells Word
  base : Nat
  ext : Nat
  dropped : List Nat
  written : List Nat
  sregs : Cells Word
  preds : Cells LaneMask
  qpreds : Cells Bool
  tags : List RTag
  fstat : BitVec 8
  mstat : BitVec 8
  hwAt : Nat
  hwF : BitVec 8
  hwM : BitVec 8
  adj : Cells Nat
  trcause : BitVec 8
  trpc : CodeAddr
  trmask : LaneMask
  traddr : Word
  rngctr : Word
  hangcnt : Nat
  hangArmed : Bool
  ops : List MemOp
  nextOp : Nat
  cpWords : List Nat
  tlWords : List Nat
  tlFlags : List (Nat × BitVec 8)
  wake : Bool
  sleepSince : Option Nat
  held : Option Held
  heldAt : Option CodeAddr
  triedAt : Nat
  pinned : List Nat
  acqxDone : Option Word
  barHold : Option Nat
  groups : List GroupRec
  perf : Cells Word
  hnd : Option Handler
  pend : List Pend
  nextIssue : Nat
  lastIssue : Nat
  bornAt : Nat
  paths : List Path
  markers : List Path
  relTags : List (Nat × Nat)
  relScope : Option Nat
  refusals : List Refused
  stopAsked : Bool
  stopped : Option (Option Nat)
  deriving DecidableEq, Repr

end Sys2Proof.Machine
end

