-- ==== Sys2Proof/Machine/LaunchState.lean ====
section
/-! DEFINITION. The state of launches and tenants: launch records and phases, groups, channels, what a launch holds on a core,
place tables, translation entries, revocation, status pages (spec/04 to spec/07, spec/16, spec/17, spec/20, spec/23). -/
namespace Sys2Proof.Machine

/-- A group-table entry (Table 20-1) with its members in order (R62). -/
structure Group where
  gid : Nat
  members : List Nat
  epoch : Nat
  live : Nat
  pend : Nat
  deriving DecidableEq, Repr

/-- A declared channel (R67, R327): full slots oldest first, each the values of the lanes. -/
structure Channel where
  id : Nat
  slots : Nat
  sendg : Nat
  recvg : Nat
  full : List (List Word)
  sends : Nat
  recvs : Nat
  deriving DecidableEq, Repr

/-- How a launch ended (R79, R387). -/
structure EndInfo where
  status : Nat
  reason : Nat
  detail : Word
  deriving DecidableEq, Repr

/-- Where a launch stands (R84 to R86, R97 to R99, R370, R387). -/
inductive Phase where
  | queued
  | keyWaiting (slot : Nat)
  | keywait (since : Nat)
  | digesting (todo : List Nat) (found : List Nat)
  | copying (todo : List (Nat × Nat))
  | ready
  | running
  | ending
  | retired
  deriving DecidableEq, Repr

/-- One wave-table entry as read (Table 4-3). -/
structure WaveEntry where
  core : Nat
  rtmode : Bool
  role : Nat
  groups : List Nat
  raw : Word
  deriving DecidableEq, Repr

/-- An accumulator allocation (R280); elements by index; `order` numbers a core's allocations as they were made (R361). -/
structure Alloc where
  rows : Nat
  cols : Nat
  group : Nat
  noband : Bool
  owner : Nat
  order : Nat
  banks : List Nat
  elems : Cells (BitVec 32)
  deriving DecidableEq, Repr

/-- An entry of the handle table (R280). -/
structure HandleEntry where
  seq : Nat
  alloc : Option Alloc
  deriving DecidableEq, Repr

/-- An operand-buffer reservation (R277, R278). -/
structure Reservation where
  rid : Nat
  desc : Word
  base : Nat
  rows : Cells Byte
  deriving DecidableEq, Repr

/-- The kinds of copy job (R274). -/
inductive JobKind where
  | cpy | cpyx | cpym | cpyd
  deriving DecidableEq, Repr

/-- The states of a card (Table 16-1). -/
inductive JobState where
  | waiting | queued | running | complete
  deriving DecidableEq, Repr

/-- One end of a copy job: a scratchpad place or the page translations taken at issue (page base, page size, location of the page's first byte, attributes). -/
structure JobEnd where
  pad : Option Nat
  addr : Nat
  pages : List (Nat × Nat × Loc × Nat)
  prot : Bool
  deriving DecidableEq, Repr

/-- A job card (Table 16-1): `queue` is the queue place, `phys` the physical queue; `todo` the bursts left to move, or single sectors of
one (R268); `got` what a CPYD has read, by sector. -/
structure Card where
  id : Nat
  slot : Nat
  word : Nat
  lane : Nat
  kind : JobKind
  queue : Nat
  src : JobEnd
  dst : JobEnd
  rowBytes : Nat
  rows : Nat
  srcPitch : Nat
  dstPitch : Nat
  pattern : Word
  edges : List Nat
  state : JobState
  todo : List Nat
  refused : Bool
  absent : List Nat
  entered : Nat
  phys : Nat
  got : Cells (List Byte)
  deriving DecidableEq, Repr

/-- The tile operations (R282) with what they read at issue. -/
inductive TileKind where
  | obld (srcCore srcOff nrow row rid : Nat) (targets : List Nat)
  | accz (handle row n : Nat)
  | mma (sparse : Bool) (block : List Word)
  | drain (block : List Word) (dst sdst : JobEnd) (n : Nat)
  deriving DecidableEq, Repr

/-- A tile operation in flight on a core: the reservations it names, each by its core and RID, and the handles; of a DRAIN the rows it has
stored, the stores of the next row that have gone, and the flags of the rows (R295). -/
structure TileOp where
  id : Nat
  slot : Nat
  word : Nat
  lane : Nat
  kind : TileKind
  rids : List (Nat × Nat)
  handles : List Nat
  rowsDone : Nat
  sent : Nat
  flags : BitVec 8
  deriving DecidableEq, Repr

/-- A wait for granule storage (R161, R169): a wave in ACQX, or one waiting to re-materialise a register. -/
structure GranWait where
  slot : Nat
  n : Nat
  remat : Option Nat
  deriving DecidableEq, Repr

/-- What a launch holds on one core (R71, R163, R231, R265, R277 to R284). -/
structure Ctx where
  launch : Nat
  core : Nat
  place : Nat
  pad : Cells Byte
  padTags : Cells (Option WTag)
  absent : List Nat
  rings : Cells Nat
  recipes : List (Nat × List Word)
  handles : Cells HandleEntry
  resv : List Reservation
  cards : List Card
  nextCard : Nat
  tiles : List TileOp
  nextTile : Nat
  waits : List GranWait
  deriving DecidableEq, Repr

/-- A core image of a stopped launch (R355, R361). -/
structure Image where
  place : Nat
  fromCore : Nat
  ctx : Ctx
  waves : List Wave
  deriving DecidableEq, Repr

/-- A reuse-table entry (R100), most recently used first in its list. -/
structure Reuse where
  tenant : Nat
  key : Nat
  slot : Option Nat
  keyh : Word
  outs : List (Nat × Nat)
  epoch : Nat
  stamps : List Nat
  deriving DecidableEq, Repr

/-- A launch known to a tenant's scheduler. `tabWords` are the words of its wave and channel tables read so far, none where one could not
be read (R69, R70); `readySince` is the tenant time from which it waits for resources (R86); `endCycle` the cycle of its first terminating
event (R389); `awaits` the units seized from under it (R127); `old` says that it was queued before the last function-level reset (R84, R388). -/
structure Launch where
  uid : Nat
  tenant : Nat
  record : List Word
  subno : Nat
  srcLaunch : Bool
  phase : Phase
  waves : List WaveEntry
  wavesRead : Bool
  chans : List Channel
  chanWords : List Nat
  groups : List Group
  ended : List Nat
  eligibleAt : Option Nat
  reserving : Bool
  slotHeld : Option Nat
  v0 : List Nat
  key : Nat
  unkeyed : Bool
  looked : Bool
  hitEntry : Option Reuse
  missed : Bool
  preempted : Bool
  migrated : Bool
  preemptSat : Bool
  hang : Bool
  purity : Bool
  reused : Bool
  tstart : Nat
  endInfo : Option EndInfo
  saveArea : Nat
  images : List Image
  parkedOff : Bool
  shareSince : Option Nat
  tabWords : List (Option Word)
  readySince : Option Nat
  endCycle : Option Nat
  awaits : List (PlaceKind × Nat)
  old : Bool
  deriving DecidableEq, Repr

/-- A place a tenant holds (R108). -/
structure PlaceEntry where
  kind : PlaceKind
  place : Nat
  phys : Nat
  revoking : Bool
  deriving DecidableEq, Repr

/-- A translation entry (R117), held once for every die of the grant. -/
structure Tlb where
  arr : Nat
  set : Nat
  way : Nat
  page : Nat
  tfn : Nat
  mfn : Nat
  attr : Nat
  deriving DecidableEq, Repr

/-- A pending revocation request (Table 7-6) and the tenant time of its posting; a satisfied kind-7 request has yielded place 0 (R125). -/
structure RevReq where
  reqid : Nat
  kind : PlaceKind
  count : Nat
  target : Option Nat
  deadline : Nat
  yielded : List Nat
  posted : Nat
  deriving DecidableEq, Repr

/-- A loss entry not yet acknowledged (R129, R130). -/
structure LossEnt where
  seq : Nat
  kind : Nat
  deriving DecidableEq, Repr

/-- A record waiting for ring space (R78, R80). -/
structure WaitRec where
  words : List Word
  deriving DecidableEq, Repr

/-- An upcall waiting for a slot of the class-0 ring (R350). -/
structure Upcall where
  seq : Nat
  code : Nat
  lid : Nat
  wid : Nat
  deriving DecidableEq, Repr

/-- A challenge as it stood when GO was written (R379, R381): the launch it names, the certificate slot and its GEN, the report's place, the nonce. -/
structure Challenge where
  uid : Nat
  cslot : Nat
  gen : Nat
  report : Nat
  nonce : List Word
  deriving DecidableEq, Repr

/-- A tenant bound by Bishop. -/
structure Tenant where
  id : Nat
  places : List PlaceEntry
  diePlaces : List (Nat × Nat)
  grants : List (Nat × Nat)
  yielded : List Nat
  tlb : List Tlb
  epoch : Nat
  salt : Word
  quota : Nat
  hits : Nat
  misses : Nat
  inserts : Nat
  stales : Nat
  tofs : Nat
  hanglim : Nat
  loss : BitVec 8
  losses : List LossEnt
  lossCount : Nat
  lossDropped : Nat
  repOff : Nat
  revTfn : Nat
  lossTfn : Nat
  repoTfn : Nat
  repoFrames : Nat
  bindTfn : Nat
  svcTfn : Nat
  revmin : Nat
  bindCount : Nat
  revCount : Nat
  requests : List RevReq
  reslim : Nat
  svcth : Nat
  svchold : Nat
  cmodt : Nat
  cmodn : Nat
  evlost : Bool
  crwait : Bool
  nextsub : Nat
  evcons : Nat
  evprod : Nat
  evbase : Nat
  evsize : Nat
  crsize : Nat
  crcons : Nat
  crprod : Nat
  crbase : Nat
  cwbase : Nat
  records : List WaitRec
  events : List WaitRec
  unsignalled : Nat
  oldestUnsignalled : Option Nat
  upcalls : List Upcall
  suspended : Bool
  suspendedAt : Nat
  waymask : Cells Nat
  slbw : Cells Nat
  netbw : Cells Nat
  goBit : Bool
  cslot : Nat
  chStatus : Nat
  chLid : Nat
  chReport : Nat
  chNonce : List Word
  asked : Challenge
  harvest : Option (List Nat)
  frozen : Bool
  deriving DecidableEq, Repr

end Sys2Proof.Machine
end

