-- ==== Sys2Proof/Machine/DeviceState.lean ====
section
/-! DEFINITION. The state of the memory system and of the device's own units: frame table, caches, network, watch records,
reuse table, key slots, certificates, readiness (spec/06, spec/07, spec/13, spec/15, spec/19, spec/24, spec/27). -/
namespace Sys2Proof.Machine

/-- A frame-table entry (R113) with the frame's write stamp (R94), the increments since the scrubber's last pass (R112)
and the tag run of a PROT frame (R374). -/
structure Frame where
  owner : Nat
  gen : Nat
  incs : Nat
  host : Bool
  prot : Bool
  revoking : Bool
  tagRun : Nat
  stamp : Nat
  deriving DecidableEq, Repr

/-- The entry of a frame that nothing has bound. -/
def Frame.free : Frame := ⟨0, 0, 0, false, false, false, 0, 0⟩

/-- The binding of a core resource beside its tenant (R110 to R112): the current generation, and its increments since the scrubber's last
pass. -/
structure UnitGen where
  gen : Nat
  incs : Nat
  deriving DecidableEq, Repr

/-- A line of an L1 (R226), tagged by its address and generation: its valid sectors, 0 to 3, with their data as filled and the
synchronisation tags that came with the data (R303). -/
structure L1Line where
  core : Nat
  line : Nat
  gen : Nat
  secs : Cells (List Byte)
  tags : Cells (List (Option WTag))
  deriving DecidableEq, Repr

/-- Who makes a request of a slice: a part of a wave's operation, a copy job, the fetch of a wave's next word, a prefetch, or a tile
operation. -/
inductive Requester where
  | op (core slot id k : Nat)
  | job (core id : Nat)
  | fetch (core slot pc : Nat)
  | pref (id : Nat)
  | tile (core id : Nat)
  deriving DecidableEq, Repr

/-- A prefetch under way (R237): a request like others, which waits for its tokens (R249, R255). -/
structure Prefetch where
  id : Nat
  core : Nat
  tenant : Nat
  ma : Nat
  evict : Nat
  deriving DecidableEq, Repr

/-- A request that found no token (R249): its stop, its slice of the package, its tenant, and the cycle of the refusal. -/
structure Retry where
  stop : Nat
  slice : Nat
  tenant : Nat
  who : Requester
  since : Nat
  deriving DecidableEq, Repr

/-- An L2 line (R245, R246, R229, R375): which line a way holds; its bytes are those of memory, the slice being the home. -/
structure L2Line where
  line : Nat
  tenant : Nat
  gen : Nat
  retain : Bool
  dirty : Bool
  slots : List Nat
  age : Nat
  deriving DecidableEq, Repr

/-- A copy of a translation entry in a core's translation cache (R222). -/
structure TcEntry where
  core : Nat
  tenant : Nat
  entry : Tlb
  deriving DecidableEq, Repr

/-- A write record of a watched sector (R318). -/
structure Watch where
  sector : Nat
  launch : Nat
  wid : Nat
  epochs : List (Nat × Nat)
  deriving DecidableEq, Repr

/-- An entry of the operand latch (R158). -/
structure LatchEnt where
  slot : Nat
  reg : Nat
  vals : List Word
  uses : Nat
  deriving DecidableEq, Repr

/-- A quadrant's issue state (R137, R139, R157, R158): the wave that held it last by slot, launch and WAVEID, and the cycles of its run. -/
structure Quad where
  last : Option (Nat × Nat × Nat)
  yielded : Bool
  run : Nat
  busyUntil : Nat
  latch : List LatchEnt
  deriving DecidableEq, Repr

/-- A quadrant that has issued nothing. -/
def Quad.idle : Quad := ⟨none, false, 0, 0, []⟩

/-- A digest-cache entry (R96). -/
structure Digest where
  die : Nat
  tenant : Nat
  va : Nat
  len : Nat
  epoch : Nat
  stamps : List Nat
  slot : Option Nat
  digest : Nat
  deriving DecidableEq, Repr

/-- The states of a key slot (Table 24-1). -/
inductive KeyState where
  | free | unsealing | active | retiring
  deriving DecidableEq, Repr

/-- A key slot (R368); keys as byte strings. -/
structure KeySlot where
  state : KeyState
  tenant : Nat
  kid : Word
  xts : List Byte
  mac : List Byte
  holders : List Nat
  unsealer : Nat
  waiters : List Nat
  deriving DecidableEq, Repr

/-- A free key slot. -/
def KeySlot.empty : KeySlot := ⟨.free, 0, 0, [], [], [], 0, []⟩

/-- A certificate slot (R378): LEN, GEN, the body as the hypervisor last stored it, and the committed certificate. -/
structure Cert where
  len : Nat
  gen : Nat
  body : List Byte
  cert : List Byte
  deriving DecidableEq, Repr

/-- An outstanding service batch: where it stands and who waits for it (R345, R346). -/
structure Batch where
  tenant : Nat
  cls : Nat
  slot : Nat
  launch : Nat
  wid : Nat
  reg : Nat
  lanes : List Nat
  hnd : Bool
  upcall : Bool
  answered : Option Nat
  deriving DecidableEq, Repr

/-- A stop request (R354). -/
structure StopReq where
  launch : Nat
  places : List Nat
  forced : Bool
  madeAt : Nat
  deriving DecidableEq, Repr

/-- What moves next (log 1): an event, an issue by a quadrant, or the passing of cycles. -/
inductive Move where
  | event (i : Instr)
  | issue (core quad : Nat)
  | elapse (n : Nat)
  deriving DecidableEq, Repr

/-- The wave slot of a core at which the next issue by default takes place (log 1). -/
structure Focus where
  core : Nat
  quad : Nat
  slot : Nat
  deriving DecidableEq, Repr

/-- A message-signalled interrupt sent (R82). -/
structure Msix where
  tenant : Nat
  vector : Nat
  deriving DecidableEq, Repr

/-- What the host sees of its last access (R74): the 64 bytes, poison, or a write's acceptance. -/
inductive HostResp where
  | none | data (l : List Byte) | poison | written | dropped
  deriving DecidableEq, Repr

/-- What a remote device sees of its last access (R260, R261). -/
inductive LinkResp where
  | none | data (l : List Byte) | done | refused
  deriving DecidableEq, Repr

/-- Time, the order of moves and the model's own counters. -/
structure Control where
  power : Bool
  booted : List Nat
  cycle : Nat
  seq : Nat
  fresh : Nat
  focus : Focus
  agenda : List Move
  deriving DecidableEq, Repr

/-- Memory, its tables, the caches and the network. `retries` holds the requests refused for want of a token, `refills` the 64-cycle period
of each bucket's last refill (R249), `ctlBudget` what each output port has left for VC-F and VC-S (R254), `linkSent` the flits a tenant has
sent at a port and `flits` the last header of each electrical lane (R257), `prefs` the prefetches that wait (R237). -/
structure MemSys where
  bytes : List Host.Cell
  wtags : Cells (Option WTag)
  frames : Cells Frame
  wclock : List Nat
  tcache : List TcEntry
  l1 : List L1Line
  l2 : Cells (Option L2Line)
  l2tick : Nat
  sliceTok : Cells Nat
  netTok : Cells Nat
  retries : List Retry
  refills : Cells Nat
  ctlBudget : Cells Nat
  netwt : Cells (BitVec 32)
  failedBridges : List (Nat × Nat)
  spareBridges : List (Nat × Nat)
  linkTags : Cells Nat
  linkSent : Cells Nat
  flits : Cells (Option FlitHeader)
  replays : Nat
  remote : Cells (Option RotEntry)
  watch : List Watch
  prefs : List Prefetch
  deriving DecidableEq, Repr

/-- Waves, what launches hold on cores, quadrants, leases, the queue that each copy engine served last, plus one (R264), and the generations
of cores, pool banks and operand-buffer rows (R111). -/
structure Cores where
  waves : List Wave
  ctxs : List Ctx
  quads : Cells Quad
  leases : Cells Nat
  leased : List Nat
  served : Cells Nat
  gens : Cells UnitGen
  deriving DecidableEq, Repr

/-- Tenants, launches and the units that serve them; `vfs` holds the pages of virtual functions whose tenant is not bound (R75). -/
structure Tasks where
  tenants : List Tenant
  launches : List Launch
  digests : List Digest
  reuse : List Reuse
  keySlots : Cells KeySlot
  keyQueue : List Nat
  batches : List Batch
  stops : List StopReq
  vfs : List Tenant
  deriving DecidableEq, Repr

/-- The device's registers outside the cores, the cores and pool banks that fail their bring-up tests (R10, R64), and what the device last sent out (log 5). -/
structure Device where
  readiness : Cells Word
  refusedReqs : Nat
  devid : Nat
  badCores : List Nat
  badBanks : List Nat
  claimBishop : BitVec 16
  claimHost : BitVec 16
  pufOk : Bool
  puf : List Byte
  hbmTraining : List Word
  thermal : ThermalLimits
  certs : Cells Cert
  clockMHz : Cells Nat
  msix : List Msix
  hostResp : HostResp
  linkResp : LinkResp
  mapOut : List Bool
  reports : Nat
  deriving DecidableEq, Repr

end Sys2Proof.Machine
end

