-- ==== Sys2Proof/Machine/State.lean ====
section
/-! DEFINITION. The state of the machine as plain data, the reasons a step can stop, and the state right after power is
applied and before the configuration image is read (spec/27 R390). -/
namespace Sys2Proof.Machine

/-- The whole machine. -/
structure State where
  ctl : Control
  mem : MemSys
  cores : Cores
  tasks : Tasks
  dev : Device
  deriving DecidableEq, Repr

/-- The machine's faults. -/
inductive Fault where
  /-- Power has been removed: no state is left and nothing moves before the next power-on (R390). Raised by `step` alone;
  safe, since the spec says that all state is lost at power-off. -/
  | powerOff
  deriving DecidableEq, Repr

/-- Why the model gives an instruction no meaning. -/
inductive Refusal where
  /-- The instruction is not modelled yet; raised by the arms of `exec` only. Safe. -/
  | notModelled (mnemonic : String)
  deriving DecidableEq, Repr

/-- Control at reset: powered, no die's image read, cycle 0, SEQ 1 (R83); focus, agenda and the counter of free values are
the model's own (logs 1, 2). -/
def Control.reset : Control := ⟨true, [], 0, 1, 0, ⟨0, 0, 0⟩, []⟩

/-- The memory system at reset (log 3): nothing listed; write clocks at 1; port budgets at 4 (R254). -/
def MemSys.reset : MemSys :=
  ⟨[], [], [], List.replicate 8 1, [], [], [], 0, [], [], [], [], [], [], [], [], [], [], [], 0, [], [], []⟩

/-- No wave, no launch on a core, idle quadrants, no lease, every generation 0. -/
def Cores.reset : Cores := ⟨[], [], [], [], [], [], []⟩

/-- No tenant and no launch; all key slots free. -/
def Tasks.reset : Tasks := ⟨[], [], [], [], [], [], [], [], []⟩

/-- The device's registers at reset: readiness page 0 (R391); claim masks 0 and no helper data or training parameters until they are given
(log 3); the thermal limits of R393. -/
def Device.reset : Device := ⟨[], 0, 0, [], [], 0, 0, false, [], [], ⟨95, 90, 105⟩, [], [], [], .none, .none, [], 0⟩

/-- The machine right after reset. -/
def State.reset : State := ⟨Control.reset, MemSys.reset, Cores.reset, Tasks.reset, Device.reset⟩

end Sys2Proof.Machine
end

