-- ==== Sys2Proof/Machine/Ops.lean ====
section
/-! DEFINITION. The named operations over the state: finding and replacing its parts, registers, lanes and memory bytes;
parking a lane, taking a trap and returning from the handler (spec/02 R25, spec/08 R131 to R133, spec/21 R334 to R341). -/
namespace Sys2Proof.Machine

/-! ### Blank records, read where nothing is there -/

/-- A lane that has exited. -/
def Lane.gone : Lane := ⟨.exited, 0, 0, false⟩

/-- A wave with nothing in it. -/
def Wave.blank : Wave :=
  ⟨0, 0, 0, 0, 0, 0, 0, 0, 0, [], [], 0, 0, [], [], [], [], [], [], 0, 0, 0, 0, 0, [], 0, 0, 0, 0, 0, 0, false, [], 0, [], [], [],
   false, none, none, none, 0, [], none, none, [], [], none, [], 0, 0, 0, [], [], [], none, [], false, none⟩

/-- What a launch holds on a core at dispatch (R66, R71, R232): rings at phase 0, every line present. -/
def Ctx.fresh (launch core place : Nat) : Ctx := ⟨launch, core, place, [], [], [], [], [], [], [], [], 0, [], 0, []⟩

/-- A launch record never queued. -/
def Launch.blank : Launch :=
  ⟨0, 0, [], 0, false, .retired, [], false, [], [], [], [], none, false, none, [], 0, false, false, none, false, false,
   false, false, false, false, false, 0, none, 0, [], false, none, [], none, none, [], false⟩

/-- A tenant never bound. -/
def Tenant.blank : Tenant :=
  ⟨0, [], [], [(0, 0), (0, 0), (0, 0)], [], [], 0, 0, 0, 0, 0, 0, 0, 0, 0, 0, [], 0, 0, 0, 0, 0, 0, 0, 0, 0, 0, 0, 0, [],
   0, 0, 0, 0, 0, false, false, 1, 0, 0, 0, 0, 0, 0, 0, 0, 0, [], [], 0, none, [], false, 0, [], [], [], false, 0, 0, 0, 0,
   [], ⟨0, 0, 0, 0, []⟩, none, false⟩

/-- A pending kind-7 request that a number of reuse entries meets, and that nothing has met before (R125). -/
def RevReq.metBy (r : RevReq) (held : Nat) : Bool := r.kind == .quota && r.yielded.isEmpty && decide (held ≤ r.count)

/-- A tenant whose kind-7 requests its holdings have come to meet: the quota becomes the count asked for, once (R125). -/
def Tenant.settleQuota (t : Tenant) (held : Nat) : Tenant :=
  match (t.requests.filter (fun r => r.metBy held)).getLast? with
  | some r => { t with quota := r.count, requests := updWhere (fun q => q.metBy held) (fun q => { q with yielded := [0] }) t.requests }
  | none => t

/-! ### Core resources by number, as their generations are kept (R111) -/

/-- A pool bank, by its physical number (Table 7-1). -/
def bankUnit (phys : Nat) : Nat := phys
/-- A row of a core's operand buffer. -/
def rowUnit (core row : Nat) : Nat := 2 ^ 16 + 1024 * core + row
/-- A core. -/
def coreUnit (core : Nat) : Nat := 2 ^ 24 + core

/-! ### Parts of the state -/

namespace State

/-- The wave in a slot. -/
def wave? (s : State) (core slot : Nat) : Option Wave :=
  s.cores.waves.find? (fun w => w.core == core && w.slot == slot)

/-- The waves replaced. -/
def setWaves (s : State) (l : List Wave) : State := { s with cores := { s.cores with waves := l } }

/-- The wave of the same core and slot replaced. -/
def setWave (s : State) (w : Wave) : State :=
  s.setWaves (updWhere (fun v => v.core == w.core && v.slot == w.slot) (fun _ => w) s.cores.waves)

/-- Memory and its tables replaced. -/
def setMem (s : State) (m : MemSys) : State := { s with mem := m }

/-- The machine addresses' bytes replaced. -/
def setBytes (s : State) (b : List Host.Cell) : State := s.setMem { s.mem with bytes := b }

/-- Control replaced. -/
def setCtl (s : State) (c : Control) : State := { s with ctl := c }

/-- Tasks replaced. -/
def setTasks (s : State) (t : Tasks) : State := { s with tasks := t }

/-- Device registers replaced. -/
def setDev (s : State) (d : Device) : State := { s with dev := d }

/-- The launch with a number. -/
def launch (s : State) (uid : Nat) : Launch := (s.tasks.launches.find? (fun l => l.uid == uid)).getD Launch.blank

/-- One launch replaced. -/
def setLaunch (s : State) (l : Launch) : State :=
  s.setTasks { s.tasks with launches := updWhere (fun k => k.uid == l.uid) (fun _ => l) s.tasks.launches }

/-- The tenant with an id. -/
def tenant (s : State) (t : Nat) : Tenant := (s.tasks.tenants.find? (fun k => k.id == t)).getD Tenant.blank

/-- Whether a tenant is bound. -/
def bound (s : State) (t : Nat) : Bool := s.tasks.tenants.any (fun k => k.id == t)

/-- One tenant replaced. -/
def setTenant (s : State) (t : Tenant) : State :=
  s.setTasks { s.tasks with tenants := updWhere (fun k => k.id == t.id) (fun _ => t) s.tasks.tenants }

/-- The reuse table replaced; the holdings of a tenant may have come to meet a request. -/
def setReuse (s : State) (l : List Reuse) : State :=
  s.setTasks { s.tasks with
    reuse := l, tenants := s.tasks.tenants.map (fun t => t.settleQuota (l.filter (fun e => e.tenant == t.id)).length) }

/-- What a launch holds on a core, if it is there. -/
def ctx? (s : State) (launch core : Nat) : Option Ctx :=
  s.cores.ctxs.find? (fun c => c.launch == launch && c.core == core)

/-- The same, blank where it is not there. -/
def ctx (s : State) (launch core : Nat) : Ctx := (s.ctx? launch core).getD (Ctx.fresh launch core 0)

/-- One launch's holdings on one core replaced. -/
def setCtx (s : State) (c : Ctx) : State :=
  { s with cores := { s.cores with ctxs := updWhere (fun k => k.launch == c.launch && k.core == c.core) (fun _ => c) s.cores.ctxs } }

/-- A quadrant's issue state, keyed 4 × core + quadrant. -/
def quad (s : State) (core q : Nat) : Quad := cellGet Quad.idle s.cores.quads (4 * core + q)

/-- A quadrant's issue state replaced. -/
def setQuad (s : State) (core q : Nat) (v : Quad) : State :=
  { s with cores := { s.cores with quads := cellSet Quad.idle s.cores.quads (4 * core + q) v } }

/-- The generation of a core resource (R111). -/
def unitGen (s : State) (u : Nat) : UnitGen := cellGet ⟨0, 0⟩ s.cores.gens u

/-- A unit may be bound: it has taken fewer than 255 increments since the scrubber last passed it (R112). -/
def unitMay (s : State) (u : Nat) : Bool := decide ((s.unitGen u).incs < 255)

/-- Units released: each generation is incremented (R111). -/
def bumpUnits (s : State) (l : List Nat) : State :=
  { s with cores := { s.cores with gens := l.foldl (fun g u =>
      let v := cellGet (⟨0, 0⟩ : UnitGen) g u
      cellSet ⟨0, 0⟩ g u ⟨(v.gen + 1) % 256, v.incs + 1⟩) s.cores.gens } }

/-- The pool bank that a tenant's core place has under a number; on the place's core the same number where it holds none (R64, R108). -/
def bankAt (s : State) (t place core b : Nat) : Nat :=
  bankUnit ((((s.tenant t).places.find? (fun e => e.kind == .bank && e.place == 32 * place + b)).map PlaceEntry.phys).getD (32 * core + b))

/-- A free value taken (log 2). -/
def tickFresh (s : State) : State := s.setCtl { s.ctl with fresh := s.ctl.fresh + 1 }

/-- The `k`-th free value of this step. -/
def free (s : State) (k : Nat) : Word := Config.freeValue (s.ctl.fresh * 2 ^ 20 + k)

/-- A device sequence number taken (R83): a counter of 64 bits. -/
def takeSeq (s : State) : State := s.setCtl { s.ctl with seq := (s.ctl.seq + 1) % 2 ^ 64 }

/-- Device time in ns (R145): 1 GHz beside the 1.3 GHz core cycle (R1). -/
def ns (s : State) : Nat := s.ctl.cycle * 10 / 13

/-- Tenant time (R145). -/
def time (s : State) (t : Nat) : Nat := (s.ns + (s.tenant t).tofs) % 2 ^ 64

/-- Device time in µs. -/
def us (s : State) : Nat := s.ns / 1000

/-- The tenant time in ns that has passed since a moment; tenant time goes on over suspension and migration (R145, R367). -/
def elapsed (s : State) (t since : Nat) : Nat := (s.time t + 2 ^ 64 - since) % 2 ^ 64

end State

/-! ### Launch records (Table 4-1) -/

namespace Launch

/-- Word `n` of the record. -/
def word (l : Launch) (n : Nat) : Nat := (l.record.getD n 0).toNat

/-- A field of the record by its bits. -/
def field (l : Launch) (hi lo : Nat) : Nat := bits (l.word (lo / 64)) (hi - lo / 64 * 64) (lo % 64)

/-- PURE. -/
def pure (l : Launch) : Bool := l.field 64 64 == 1
/-- PURETRAP. -/
def puretrap (l : Launch) : Bool := l.field 65 65 == 1
/-- PROT. -/
def prot (l : Launch) : Bool := l.field 66 66 == 1
/-- DEBUG. -/
def debug (l : Launch) : Bool := l.field 67 67 == 1
/-- HANGTRAP. -/
def hangtrap (l : Launch) : Bool := l.field 68 68 == 1
/-- RTWAVE. -/
def rtwave (l : Launch) : Bool := l.field 69 69 == 1
/-- PRIO. -/
def prio (l : Launch) : Nat := l.field 71 70
/-- LID. -/
def lid (l : Launch) : Nat := l.field 127 96
/-- ENTRY. -/
def entry (l : Launch) : Nat := l.field 175 128
/-- CODEOBJ. -/
def codeobj (l : Launch) : Nat := l.field 239 192
/-- HANDLER. -/
def handler (l : Launch) : Nat := l.field 303 256
/-- NWAVE. -/
def nwave (l : Launch) : Nat := l.field 336 320
/-- BASEREG. -/
def basereg (l : Launch) : Nat := l.field 341 337
/-- WPC. -/
def wpc (l : Launch) : Nat := l.field 347 342
/-- CBASE. -/
def cbase (l : Launch) : Nat := l.field 362 352
/-- PART. -/
def part (l : Launch) : Nat := l.word 6
/-- WTAB. -/
def wtab (l : Launch) : Nat := l.field 495 448
/-- CTAB. -/
def ctab (l : Launch) : Nat := l.field 559 512
/-- NCHAN. -/
def nchan (l : Launch) : Nat := l.field 566 560
/-- RINGV. -/
def ringv (l : Launch) : Nat := l.field 591 576
/-- CHBASE. -/
def chbase (l : Launch) : Nat := l.field 607 592
/-- NIN. -/
def nin (l : Launch) : Nat := l.field 611 608
/-- NOUT. -/
def nout (l : Launch) : Nat := l.field 614 612
/-- NSCR. -/
def nscr (l : Launch) : Nat := l.field 615 615
/-- RINGSZ field of a ring; the stage count is one more. -/
def ringsz (l : Launch) (n : Nat) : Nat := bits (l.word 10) (4 * n + 3) (4 * n)
/-- KCBASE. -/
def kcbase (l : Launch) : Nat := l.field 751 704
/-- KCSIZE. -/
def kcsize (l : Launch) : Nat := l.field 767 752
/-- PREDn. -/
def pred (l : Launch) (n : Nat) : Nat := l.field (799 + 32 * n) (768 + 32 * n)
/-- KEYH. -/
def keyh (l : Launch) : Word := l.record.getD 14 0
/-- KEYLIM. -/
def keylim (l : Launch) : Nat := l.field 991 960
/-- GRACE. -/
def grace (l : Launch) : Nat := l.field 1039 1024
/-- SVCTH. -/
def svcth (l : Launch) : Nat := l.field 1045 1040
/-- SVCHOLD. -/
def svchold (l : Launch) : Nat := l.field 1071 1056
/-- TAG. -/
def tag (l : Launch) : Word := l.record.getD 17 0
/-- A region entry by its first word: first byte and length (Table 4-2). -/
def region (l : Launch) (w : Nat) : Nat × Nat := (bits (l.word w) 47 0, bits (l.word (w + 1)) 39 0)
/-- Input region `n`. -/
def inRegion (l : Launch) (n : Nat) : Nat × Nat := l.region (18 + 2 * n)
/-- Output region `n`. -/
def outRegion (l : Launch) (n : Nat) : Nat × Nat := l.region (34 + 2 * n)
/-- The scratch region. -/
def scrRegion (l : Launch) : Nat × Nat := l.region 42
/-- Argument word `i`. -/
def arg (l : Launch) (i : Nat) : Word := l.record.getD (48 + i) 0
/-- The code of a pool bank in PART (R64). -/
def bankCode (l : Launch) (b : Nat) : Nat := bits l.part (2 * b + 1) (2 * b)

end Launch

/-! ### Registers of a wave -/

namespace Wave

/-- A vector register's value in a lane. -/
def vreg (w : Wave) (r lane : Nat) : Word := cellGet 0 w.vregs (32 * r + lane)

/-- A vector register written in a lane. -/
def setVreg (w : Wave) (r lane : Nat) (v : Word) : Wave := { w with vregs := cellSet 0 w.vregs (32 * r + lane) v }

/-- A scalar register. -/
def sreg (w : Wave) (r : Nat) : Word := cellGet 0 w.sregs r

/-- A scalar register written. -/
def setSreg (w : Wave) (r : Nat) (v : Word) : Wave := { w with sregs := cellSet 0 w.sregs r v }

/-- A lane predicate as a mask; p0 reads 1 everywhere (R25). -/
def predMask (w : Wave) (p : Nat) : LaneMask := if p = 0 then BitVec.allOnes 32 else cellGet 0 w.preds p

/-- A lane predicate in a lane. -/
def pred (w : Wave) (p lane : Nat) : Bool := (w.predMask p).getLsbD lane

/-- A lane predicate written in a lane; a write to p0 is discarded (R25). -/
def setPred (w : Wave) (p lane : Nat) (b : Bool) : Wave :=
  let m := if b then w.predMask p ||| (1#32 <<< lane) else w.predMask p &&& ~~~(1#32 <<< lane)
  if p = 0 then w else { w with preds := cellSet 0 w.preds p m }

/-- A scalar predicate; q0 reads 1 (R25). -/
def qpred (w : Wave) (q : Nat) : Bool := if q = 0 then true else cellGet false w.qpreds q

/-- A scalar predicate written; a write to q0 is discarded (R25). -/
def setQpred (w : Wave) (q : Nat) (b : Bool) : Wave :=
  if q = 0 then w else { w with qpreds := cellSet false w.qpreds q b }

/-- A lane. -/
def lane (w : Wave) (i : Nat) : Lane := w.lanes.getD i Lane.gone

/-- A lane replaced. -/
def setLane (w : Wave) (i : Nat) (l : Lane) : Wave := { w with lanes := w.lanes.set i l }

/-- Several lanes changed alike. -/
def mapLanes (w : Wave) (p : Nat → Bool) (f : Lane → Lane) : Wave :=
  { w with lanes := w.lanes.mapIdx (fun i l => if p i then f l else l) }

/-- `ready(lane)` of Table 0-2. -/
def ready (w : Wave) (i : Nat) : Bool := (w.lane i).st == .ready && !(w.lane i).atRcv

/-- The lanes for which `ready(lane)` holds. -/
def readyLanes (w : Wave) : List Nat := (List.range 32).filter w.ready

/-- A guard in a lane (R24). -/
def guardAt (w : Wave) (g : Guard) (i : Nat) : Bool := w.pred g.idx i != g.neg

/-- A scalar guard (R24). -/
def qguard (w : Wave) (g : Guard) : Bool := w.qpred g.idx != g.neg

/-- The issue address (R132): the least PC among the ready lanes. -/
def issueAddr (w : Wave) : Option CodeAddr :=
  (w.readyLanes.map (fun i => (w.lane i).pc.toNat)).min?.map (BitVec.ofNat 48)

/-- The active set at an address (R132). -/
def activeAt (w : Wave) (pc : CodeAddr) : List Nat := w.readyLanes.filter (fun i => (w.lane i).pc == pc)

/-- The address of the wave's own next word: the word that holds it (R136) while a ready lane stands there, else the issue address. -/
def ownPc (w : Wave) : Option CodeAddr :=
  match w.heldAt with
  | some pc => if w.activeAt pc = [] then w.issueAddr else some pc
  | none => w.issueAddr

/-- The address the wave's next word stands at: the handler's, the word that holds it, or the issue address (R132, R136, R338). -/
def nextPc (w : Wave) : Option CodeAddr :=
  match w.hnd with
  | some h => some h.pc
  | none => w.ownPc

/-- The wave has a slot of its core (R11). -/
def resident (w : Wave) : Bool := decide (w.slot < 48)

/-- The quadrant of the wave's slot: 12 slots a quadrant (R11). -/
def quad (w : Wave) : Nat := w.slot / 12

/-- The die of the wave's core (Table 7-1). -/
def die (w : Wave) : Nat := w.core / 192

/-- The number of allocated vector registers (R155). -/
def vcount (w : Wave) : Nat := 8 * (w.base + w.ext)

/-- A performance counter raised (R154). -/
def bump (w : Wave) (k n : Nat) : Wave := { w with perf := cellSet 0 w.perf k (cellGet 0 w.perf k + BitVec.ofNat 64 n) }

/-- Whether every lane has exited (R134). -/
def allExited (w : Wave) : Bool := w.lanes.all (fun l => l.st == .exited)

/-- Outstanding loads (R146, R236). -/
def cntld (w : Wave) : Nat := (w.ops.filter (fun o => o.ld)).length

/-- Outstanding stores (R146, R236). -/
def cntst (w : Wave) : Nat := (w.ops.filter (fun o => !o.ld)).length

/-- Outstanding copy words (R270). -/
def cntcp (w : Wave) : Nat := w.cpWords.length

/-- Outstanding tile words (R282). -/
def cnttl (w : Wave) : Nat := w.tlWords.length

/-- A lane parked with its cause and address; only a ready lane can be parked (R334). -/
def park (w : Wave) (i cause : Nat) (addr : Word) : Wave :=
  if (w.lane i).st = .ready then w.setLane i { w.lane i with st := .parked cause addr, atRcv := false } else w

/-- Several lanes parked. -/
def parkAll (w : Wave) : List (Nat × Nat × Word) → Wave
  | [] => w
  | (i, c, a) :: l => (w.park i c a).parkAll l

/-- A lane is parked. -/
def isParked (w : Wave) (i : Nat) : Bool :=
  match (w.lane i).st with
  | .parked _ _ => true
  | _ => false

/-- The parked lanes. -/
def parkedLanes (w : Wave) : List Nat := (List.range 32).filter w.isParked

/-- The cause of a lane's park record. -/
def parkCause (w : Wave) (i : Nat) : Nat :=
  match (w.lane i).st with
  | .parked c _ => c
  | _ => 0

/-- The address of a lane's park record. -/
def parkAddr (w : Wave) (i : Nat) : Word :=
  match (w.lane i).st with
  | .parked _ a => a
  | _ => 0

end Wave

/-! ### Trap causes (Table 21-2) -/

/-- ILLEGAL. -/
def cILLEGAL : Nat := 0x01
/-- PAIRBANK. -/
def cPAIRBANK : Nat := 0x02
/-- PRIV. -/
def cPRIV : Nat := 0x03
/-- TMISS. -/
def cTMISS : Nat := 0x04
/-- PERM. -/
def cPERM : Nat := 0x05
/-- OWNER. -/
def cOWNER : Nat := 0x06
/-- ALIGN. -/
def cALIGN : Nat := 0x07
/-- RANGE. -/
def cRANGE : Nat := 0x08
/-- RECIPE. -/
def cRECIPE : Nat := 0x09
/-- RACE. -/
def cRACE : Nat := 0x0A
/-- SPMETA. -/
def cSPMETA : Nat := 0x0B
/-- INTEG. -/
def cINTEG : Nat := 0x0C
/-- BAND. -/
def cBAND : Nat := 0x0D
/-- HAZARD. -/
def cHAZARD : Nat := 0x0E
/-- BKPT. -/
def cBKPT : Nat := 0x0F
/-- SWTRAP. -/
def cSWTRAP : Nat := 0x10
/-- HANG. -/
def cHANG : Nat := 0x11
/-- CHAN. -/
def cCHAN : Nat := 0x12
/-- ROLE. -/
def cROLE : Nat := 0x13
/-- LINK. -/
def cLINK : Nat := 0x14

/-! ### Ending a launch, taking a trap, returning from the handler -/

/-- The first terminating event of a launch (R387, R388): later ones change nothing. -/
def State.endLaunch (s : State) (uid : Nat) (e : EndInfo) : State :=
  let l := s.launch uid
  match l.endInfo with
  | some _ => s
  | none => s.setLaunch { l with endInfo := some e, phase := .ending, endCycle := some s.ctl.cycle }

/-- DETAIL of a TRAPPED completion (Table 5-2): TRPC in [55:8], TRCAUSE in [7:0]. -/
def trapDetail (pc : CodeAddr) (cause : Nat) : Word := BitVec.ofNat 64 (pc.toNat * 256 + cause % 256)

/-- The launch ends TRAPPED (R339, R341). -/
def State.trapped (s : State) (uid : Nat) (pc : CodeAddr) (cause : Nat) : State :=
  s.endLaunch uid ⟨2, 0, trapDetail pc cause⟩

/-- The lanes trapped together (R336): those parked at the least parked PC with the cause of the lowest of them. -/
def Wave.trapSet (w : Wave) : List Nat :=
  match (w.parkedLanes.map (fun i => (w.lane i).pc.toNat)).min? with
  | none => []
  | some pc =>
    let here := w.parkedLanes.filter (fun i => (w.lane i).pc.toNat == pc)
    match here.head? with
    | none => []
    | some i0 => here.filter (fun i => w.parkCause i == w.parkCause i0)

/-- The counts of a wave are at or below limits (R150). -/
def Wave.countsAt (w : Wave) (ld st cp tl : Nat) : Bool :=
  decide (w.cntld ≤ ld ∧ w.cntst ≤ st ∧ w.cntcp ≤ cp ∧ w.cnttl ≤ tl)

/-- A word of the wave has held it in this cycle, and nothing has come since that ends the hold. -/
def Wave.heldNow (w : Wave) (now : Nat) : Bool :=
  w.triedAt == now && (match w.held with
    | none => false
    | some (.wait ld st cp tl) => !w.countsAt ld st cp tl
    | some .sleep => !w.wake
    | some .acqx => w.acqxDone.isNone
    | some _ => true)

/-- A wave whose trap waits only for its ready lanes (R335). -/
def Wave.trapWaits (w : Wave) : Bool := w.hnd.isNone && !w.parkedLanes.isEmpty

/-- No lane satisfies ready(lane), or a BAR holds the wave: no word has to be tried to see that none can issue (R335). -/
def Wave.noneReady (w : Wave) : Bool := w.readyLanes.isEmpty || w.barHold.isSome

/-- A trap is due (R335): no ready lane of the wave can issue, each being held at an RCV or with the whole wave. -/
def State.trapDue (s : State) (w : Wave) : Bool := w.trapWaits && (w.noneReady || w.heldNow s.ctl.cycle)

/-- The trap registers written at trap taking (R336, Table 21-1). -/
def Wave.writeTrap (w : Wave) (t : List Nat) : Wave :=
  let i0 := t.headD 0
  { w with
    trcause := BitVec.ofNat 8 (w.parkCause i0), trpc := (w.lane i0).pc,
    trmask := maskOf (fun i => t.contains i), traddr := w.parkAddr i0 }

/-- Operand-latch entries of a wave slot discarded (R158). -/
def State.dropLatch (s : State) (core slot : Nat) (p : Nat → Bool) : State :=
  let q := s.quad core (slot / 12)
  if q.latch.any (fun e => e.slot == slot && p e.reg) then
    s.setQuad core (slot / 12) { q with latch := q.latch.filter (fun e => !(e.slot == slot && p e.reg)) }
  else s

/-- The cycles of its last word's STALL or bubble that a wave has not passed (R139). -/
def State.stallLeft (s : State) (w : Wave) : Nat :=
  let q := s.quad w.core (w.slot / 12)
  w.nextIssue - (if q.last = some (w.slot, w.launch, w.wid) then max s.ctl.cycle q.busyUntil else s.ctl.cycle)

/-- A wave whose stall a trap or a stop cuts short: counter 4 holds the cycles that were passed (R154). -/
def State.unstall (s : State) (w : Wave) : Wave :=
  { w with perf := cellSet 0 w.perf 4 (cellGet 0 w.perf 4 - BitVec.ofNat 64 (s.stallLeft w)) }

/-- TAKING A TRAP (R336, R338, R341): the trap registers are written; with a handler and a cause other than INTEG the mode is
saved and becomes runtime and the handler starts at HANDLER; otherwise the launch ends TRAPPED. -/
def State.takeTrap (s : State) (w : Wave) : State :=
  let t := w.trapSet
  let w1 := w.writeTrap t
  let l := s.launch w.launch
  if l.handler = 0 ∨ w1.trcause.toNat = cINTEG then
    (s.setWave w1).trapped w.launch w1.trpc w1.trcause.toNat
  else
    (s.dropLatch w.core w.slot (fun _ => true)).setWave
      { (s.unstall w1) with mode := 1, hnd := some ⟨BitVec.ofNat 48 l.handler, w.mode, t.headD 0, w1.trmask, false, none⟩, nextIssue := s.ctl.cycle }

/-- The lanes RTE acts on (R340): set in TRMASK and trapped. -/
def Wave.rteSet (w : Wave) (h : Handler) : List Nat :=
  (List.range 32).filter (fun i => w.trmask.getLsbD i && h.trapped.getLsbD i && w.isParked i)

/-- The PC that RTE gives the lanes of T (R340): TRPC to retry, TRPC + 8 to skip. Every PC is a multiple of 8 (R21), and the spec gives
no outcome for a TRPC that software has made something else: its bits [2:0] are then dropped (log 50, DEDUCED). -/
def Wave.rtePc (w : Wave) (action : Nat) : CodeAddr := (if action = 0 then w.trpc else w.trpc + 8) &&& 0xFFFFFFFFFFF8#48

/-- RETURNING FROM THE HANDLER (R340), actions 0 to 2: the lanes of T retry, skip or exit, the saved mode comes back and lanes
held at an RCV are released. -/
def Wave.leaveHandler (w : Wave) (h : Handler) (action : Nat) : Wave :=
  let t := w.rteSet h
  let w1 := w.mapLanes (fun i => t.contains i) (fun l =>
    if action = 2 then { l with st := .exited, atRcv := false }
    else { l with st := .ready, pc := w.rtePc action })
  let w2 := w1.mapLanes (fun _ => true) (fun l => { l with atRcv := false })
  { w2 with mode := h.mode, hnd := none, hangcnt := if action = 2 ∧ t ≠ [] then 0 else w2.hangcnt }

/-! ### Memory bytes -/

namespace State

/-- A byte of main memory; a byte that nothing has written reads 0 (log 4). -/
def byte (s : State) (ma : Nat) : Byte := cellGet 0 s.mem.bytes ma

/-- `n` bytes of main memory. -/
def readMem (s : State) (ma n : Nat) : List Byte := cellGetMany 0 s.mem.bytes ma n

/-- Bytes of main memory written. -/
def writeMem (s : State) (ma : Nat) (l : List Byte) : State := s.setBytes (cellSetMany 0 s.mem.bytes ma l)

/-- A frame-table entry (R113). -/
def frame (s : State) (mfn : Nat) : Frame := cellGet Frame.free s.mem.frames mfn

/-- A frame-table entry replaced. -/
def setFrame (s : State) (mfn : Nat) (f : Frame) : State :=
  s.setMem { s.mem with frames := cellSet Frame.free s.mem.frames mfn f }

/-- The write clock of a die (R94). -/
def clock (s : State) (die : Nat) : Nat := s.mem.wclock.getD die 1

/-- A write accepted at a frame's home slice sets its stamp to the die's clock (R94). -/
def stampFrame (s : State) (mfn : Nat) : State :=
  s.setFrame mfn { s.frame mfn with stamp := s.clock (mfn / 2 ^ 21) }

/-- A word of 64 bits in main memory. -/
def readWord (s : State) (ma : Nat) : Word := BitVec.ofNat 64 (natOfBytes (s.readMem ma 8))

end State

end Sys2Proof.Machine
end

