-- ==== Sys2Proof/Machine/Mesh.lean ====
section
/-! DEFINITION. The die mesh, the bridges and the link (spec/01 R12; spec/15 R244, R250, R251, R254, R256, R257, R259): where each stop
lies, the way of a packet, which bridge or port it crosses, and which stops inject its flits. Only the arrival of packets is a step of
the machine: the times of segments and the arbitration among virtual channels are outside it (log 11). -/
namespace Sys2Proof.Machine

/-! ### Stops -/

/-- A place in the mesh of a die, 14 rows by 16 columns (R12). -/
structure Stop where
  row : Nat
  col : Nat
  deriving DecidableEq, Repr

/-- The stop of a core of a die (R12). -/
def coreStop (c : Nat) : Stop := ⟨1 + c / 16, c % 16⟩

/-- The core stop that hosts a slice (R12, R243). -/
def sliceCore (slice : Nat) : Nat := slice / 2

/-- The memory stop of a channel of a stack (R244). -/
def memStop (stack channel : Nat) : Stop := ⟨13 * stack, 2 * (channel / 4)⟩

/-- The stop of a bridge, 0 to 10 (Table 15-2). -/
def bridgeStop (j : Nat) : Stop :=
  [⟨0, 1⟩, ⟨0, 5⟩, ⟨0, 7⟩, ⟨0, 9⟩, ⟨0, 13⟩, ⟨13, 1⟩, ⟨13, 5⟩, ⟨13, 9⟩, ⟨13, 13⟩, ⟨13, 15⟩, ⟨0, 15⟩].getD j ⟨0, 15⟩

/-- The stop of a copy engine of a die (Table 15-2). -/
def engineStop (e : Nat) : Stop := [⟨0, 3⟩, ⟨0, 11⟩, ⟨13, 3⟩, ⟨13, 11⟩].getD e ⟨0, 3⟩

/-- The stop of the Plynalid Link port (Table 15-2). -/
def linkStop : Stop := ⟨13, 7⟩

/-- The host stop of die 0 (Table 15-2). -/
def hostStop : Stop := ⟨0, 15⟩

/-- The steps between two numbers. -/
def hopsOf (a b : Nat) : List Nat :=
  if a ≤ b then (List.range (b - a)).map (fun i => a + i + 1) else (List.range (a - b)).map (fun i => a - i - 1)

/-- The stops a packet passes after the first (R251): along its row, then along the column of its destination. -/
def routeOf (a b : Stop) : List Stop := (hopsOf a.col b.col).map (fun c => ⟨a.row, c⟩) ++ (hopsOf a.row b.row).map (fun r => ⟨r, b.col⟩)

/-- The segments of an uncontended route (R251): each ends at a turn or at its eighth router. -/
def segmentsOf (a b : Stop) : Nat := ((hopsOf a.col b.col).length + 7) / 8 + ((hopsOf a.row b.row).length + 7) / 8

/-- The cycles of an uncontended route (R251). -/
def routeCycles (a b : Stop) : Nat := 2 + 2 * segmentsOf a b

/-! ### Stops that inject (R255), by number: cores from 0, engines from 1,536, bridges from 1,568, link ports from 1,656, the host -/

/-- The number of a bridge's stop. -/
def bridgeNo (die j : Nat) : Nat := 1568 + 11 * die + j

/-- The number of a link port's stop. -/
def linkNo (die : Nat) : Nat := 1656 + die

/-- The number of the host stop. -/
def hostNo : Nat := 1664

/-- The die of an injection stop. -/
def stopDie (stop : Nat) : Nat :=
  if stop < 1536 then stop / 192
  else if stop < 1568 then (stop - 1536) / 4
  else if stop < 1656 then (stop - 1568) / 11
  else if stop < 1664 then stop - 1656
  else 0

/-- The bridges of a die: die 0 has no bridge 10, its host stop standing there (R12, R256). -/
def bridgesOn (die : Nat) : List Nat := List.range (if die = 0 then 10 else 11)

/-- The injection stops of a die. -/
def stopsOn (die : Nat) : List Nat :=
  (List.range 192).map (fun i => die * 192 + i) ++ (List.range 4).map (fun i => 1536 + die * 4 + i) ++
    (bridgesOn die).map (bridgeNo die) ++ [linkNo die] ++ (if die = 0 then [hostNo] else [])

/-! ### Bridges (R256) -/

/-- The die and bridge at the far end of bridges 0 to 9. -/
def bridgeEnd (d j : Nat) : Nat × Nat :=
  if j ≤ 6 then ((d + j + 1) % 8, 6 - j)
  else if j = 7 then ((d + 1) % 8, 8)
  else if j = 8 then ((d + 7) % 8, 7)
  else (d ^^^ 4, 9)

/-- A bridge that the configuration image may replace by the spare of its two dies (R256): it has failed, is none of die 0, and neither die's
spare is in use. -/
def spareFits (failed used : List (Nat × Nat)) (b : Nat × Nat) : Bool :=
  let e := bridgeEnd b.1 b.2
  decide (b.2 ≤ 9 ∧ 1 ≤ b.1 ∧ b.1 ≤ 7 ∧ 1 ≤ e.1) && (failed.contains b || failed.contains e) &&
    used.all (fun u => u.1 != b.1 && u.1 != e.1 && (bridgeEnd u.1 u.2).1 != b.1 && (bridgeEnd u.1 u.2).1 != e.1)

/-- The substitutions of an image that R256 allows, in its order. -/
def sparesOf (failed spares : List (Nat × Nat)) : List (Nat × Nat) :=
  spares.foldl (fun l b => if spareFits failed l b then l ++ [b] else l) []

/-- The bridges that join two dies, the lower number first. -/
def bridgesTo (a b : Nat) : List Nat := (List.range 10).filter (fun j => (bridgeEnd a j).1 == b)

/-- The bridge of two dies for an address, both ends working: the lower-numbered one where MA[7] is 0, the higher one otherwise. -/
def bridgeFor (a b ma : Nat) : Nat :=
  let l := bridgesTo a b
  if ma / 128 % 2 = 0 then l.headD 0 else l.getLastD 0

namespace State

/-- A list of bridges names a bridge by either of its ends. -/
def namesBridge (l : List (Nat × Nat)) (d j : Nat) : Bool := l.contains (d, j) || l.contains (bridgeEnd d j)

/-- The bridge that carries an address's traffic from a die to another without a relay: its own, or bridge 10 where the configuration image
has put the spare in its place; none where it has failed. -/
def bridge? (s : State) (a b ma : Nat) : Option Nat :=
  let j := bridgeFor a b ma
  if namesBridge s.mem.spareBridges a j then some 10
  else if namesBridge s.mem.failedBridges a j then none
  else some j

/-- The third die that relays between two dies: the lowest-numbered one whose bridges to both are working. -/
def relay (s : State) (a b ma : Nat) : Option Nat :=
  (List.range 8).find? (fun d => d != a && d != b && (s.bridge? a d ma).isSome && (s.bridge? d b ma).isSome)

/-- The bridges crossed from a die to another: each by its near die, its number there, and its far end's die and number. -/
def bridgesOf (s : State) (a b ma : Nat) : List (Nat × Nat × Nat × Nat) :=
  let cross := fun (c d : Nat) => ((s.bridge? c d ma).map (fun j => (c, j, d, if j = 10 then 10 else (bridgeEnd c j).2))).toList
  if a = b then []
  else if (s.bridge? a b ma).isSome then cross a b
  else match s.relay a b ma with
    | some d => cross a d ++ cross d b
    | none => []

/-! ### The link (R257, R259) -/

/-- The lanes that a tenant holds at a die's port, in order: 18 lanes a port. -/
def lanesAt (s : State) (t die : Nat) : List Nat :=
  (List.range 18).map (fun i => 18 * die + i) |>.filter (fun p => (s.tenant t).places.any (fun e => e.kind == .lane && e.phys == p))

/-- The die by whose port a remote access leaves: the issuing one where the tenant holds a lane there, else that of its lowest die place
with a lane. -/
def linkDie (s : State) (t die : Nat) : Option Nat :=
  if s.lanesAt t die != [] then some die
  else
    let l := (s.tenant t).diePlaces.filter (fun p => s.lanesAt t p.2 != [])
    ((l.map Prod.fst).min?).bind (fun m => (l.find? (fun p => p.1 == m)).map Prod.snd)

/-- The key of a tenant's count of flits at a port. -/
def linkKey (die t : Nat) : Nat := die * 64 + t

/-- A function is ready (R391). -/
def isReady (s : State) (i : Nat) : Bool := (cellGet 0 s.dev.readiness i : Word).getLsbD 63

/-- A function has failed (R391). -/
def hasFailed (s : State) (i : Nat) : Bool := (cellGet 0 s.dev.readiness i : Word).getLsbD 62

/-- The port by which a remote access from a die leaves, where it lets it: the tenant holds a lane there, and the port is ready (R259, R392). -/
def port? (s : State) (t die : Nat) : Option Nat := (s.linkDie t die).filter (fun d => s.isReady (25 + d))

/-- The lane of a tenant's next flit from a die: round robin over the lanes it holds at the port (R257). -/
def nextLane (s : State) (t die : Nat) : Option Nat :=
  (s.port? t die).bind (fun d =>
    let l := s.lanesAt t d
    l[cellGet 0 s.mem.linkSent (linkKey d t) % l.length]?)

/-- A flit sent from a die on a channel (R257): the lane and the header it leaves with; none where the port refuses it. `load` is what it
carries, over which its CRC goes. -/
def sendFlit (s : State) (t die vc : Nat) (load : List Nat) : State × Option Flit :=
  match s.port? t die, s.nextLane t die with
  | some d, some lane =>
    let seq := cellGet 0 s.mem.linkSent (linkKey d t)
    let h : FlitHeader := ⟨s.dev.devid, t, vc, seq, Config.linkCrc ([s.dev.devid, t, vc, seq] ++ load)⟩
    (s.setMem { s.mem with
      linkSent := cellSet 0 s.mem.linkSent (linkKey d t) (seq + 1), flits := cellSet none s.mem.flits lane (some h) }, some ⟨lane, h⟩)
  | _, _ => (s, none)

end State

/-- The device reaches another one for a tenant (R259, R392): the tenant holds a lane at a port that is ready. -/
def State.holdsLane (s : State) (t : Nat) : Bool :=
  (List.range 8).any (fun d => s.lanesAt t d != [] && s.isReady (25 + d))

/-- Flits as the receiver gives them on: in the order of their sequence tags, whatever lanes and replays did to it (R257). -/
def restoreOrder (l : List FlitHeader) : List FlitHeader := sortBy (fun a b => decide (a.seq ≤ b.seq)) l

/-! ### Output ports (R254) -/

/-- The side of a router by which a packet to a stop leaves: along its row to the destination's column first, then along that column, else to
the stop itself (R251). -/
def outSide (a b : Stop) : Nat :=
  if a.col < b.col then 0 else if b.col < a.col then 1 else if a.row < b.row then 2 else if b.row < a.row then 3 else 4

/-- The number of an output port of a core's router. -/
def portNo (core side : Nat) : Nat := 5 * core + side

/-- A flit of VC-F or VC-S from a core to a stop of its die takes a unit of the budget of the output port by which it leaves, while there is
one (R254). -/
def State.spendCtl (s : State) (core : Nat) (b : Stop) : State :=
  let k := portNo core (outSide (coreStop (core % 192)) b)
  s.setMem { s.mem with ctlBudget := cellSet 4 s.mem.ctlBudget k (cellGet 4 s.mem.ctlBudget k - 1) }

end Sys2Proof.Machine
end

