-- ==== Sys2Proof/Machine/Slices.lean ====
section
/-! DEFINITION. The home slices (spec/15 R243 to R249, R254 to R256): which slice and set hold an address, the lines an L2
set holds, tenants' occupancy, the token buckets, and the path an access takes. -/
namespace Sys2Proof.Machine

/-- The die of a machine address (Table 13-2). -/
def dieOf (ma : Nat) : Nat := ma / 2 ^ 37 % 8

/-- The frame of a machine address (R220). -/
def mfnOf (ma : Nat) : Nat := ma / 2 ^ 16

/-- The colour of a frame (R243). -/
def colourOf (mfn : Nat) : Nat := mfn % 2 ^ 20 / 8 % 192

/-- The slice octet (R243). -/
def octetOf (ma : Nat) : Nat := colourOf (mfnOf ma) / 4

/-- The slice of an address on its die (R243). -/
def sliceOf (ma : Nat) : Nat := 8 * octetOf ma + (bits ma 9 7 ^^^ bits ma 12 10)

/-- The set of an address in its slice (R243). -/
def l2SetOf (ma : Nat) : Nat := 16 * (colourOf (mfnOf ma) % 4) + bits ma 13 10

/-- The channel of an address (R243). -/
def channelOf (ma : Nat) : Nat := 4 * (mfnOf ma % 8) + bits ma 8 7

/-- The key of way 0 of the set that an address maps to. -/
def l2Key (ma : Nat) : Nat := ((dieOf ma * 384 + sliceOf ma) * 64 + l2SetOf ma) * 16

namespace State

/-- The line in a way. -/
def l2Way (s : State) (key way : Nat) : Option L2Line := cellGet none s.mem.l2 (key + way)

/-- A way replaced. -/
def setL2 (s : State) (key way : Nat) (l : Option L2Line) : State :=
  s.setMem { s.mem with l2 := cellSet none s.mem.l2 (key + way) l }

/-- The way that holds an address's line under its frame's generation (R246: any way of the set hits). -/
def l2Hit (s : State) (ma : Nat) : Option Nat :=
  (List.range 16).find? (fun w => match s.l2Way (l2Key ma) w with
    | some l => l.line == ma / 128 && l.gen == (s.frame (mfnOf ma)).gen
    | none => false)

/-- A tenant's way mask on a die; every way where Bishop has set none (log 3). -/
def waymask (s : State) (t die : Nat) : Nat := if t = 0 then 65535 else cellGet 65535 (s.tenant t).waymask die

/-- NETWT of a die (R254), each weight 1 where Bishop has set none (log 3). -/
def netwt (s : State) (die : Nat) : BitVec 32 := cellGet 0x01010101 s.mem.netwt die

/-- The number of lines held by a tenant in one slice (R245). -/
def occupancy (s : State) (t die slice : Nat) : Nat :=
  (s.mem.l2.filter (fun p => p.1 / 16 / 64 == die * 384 + slice && (p.2.any (fun l => l.tenant == t)))).length

/-- The same over a die (R248). -/
def dieOccupancy (s : State) (t die : Nat) : Nat :=
  (s.mem.l2.filter (fun p => p.1 / 16 / 64 / 384 == die && (p.2.any (fun l => l.tenant == t)))).length

/-- The victim of a fill (R246): an invalid way, else a stale line, else the least recently used, passing over retained
lines while a line without the bit remains (R229). -/
def l2Victim (s : State) (ma mask : Nat) : Option Nat :=
  let key := l2Key ma
  let ways := (List.range 16).filter (fun w => mask.testBit w)
  match ways.find? (fun w => (s.l2Way key w).isNone) with
  | some w => some w
  | none =>
    match ways.find? (fun w => match s.l2Way key w with
      | some l => l.gen != (s.frame (l.line / 512)).gen
      | none => true) with
    | some w => some w
    | none =>
      let free := ways.filter (fun w => (s.l2Way key w).all (fun l => !l.retain))
      let pool := if free.isEmpty then ways else free
      let age := fun w => ((s.l2Way key w).map L2Line.age).getD 0
      match (pool.map age).min? with
      | some a => pool.find? (fun w => age w == a)
      | none => none

/-- How many lines a tenant retains in a set (R229: at most 8). -/
def retained (s : State) (ma t : Nat) : Nat :=
  ((List.range 16).filter (fun w => match s.l2Way (l2Key ma) w with
    | some l => l.tenant == t && l.retain
    | none => false)).length

/-- An access at the home slice as the L2 sees it (R229, R245, R246): a hit refreshes the line, a miss may fill one, and the
slot whose key verified the line is recorded (R375). `evict` is the code of Table 13-3. -/
def l2Access (s : State) (ma evict : Nat) (dirty : Bool) (slot : Option Nat) : State :=
  let f := s.frame (mfnOf ma)
  let key := l2Key ma
  let tick := s.mem.l2tick + 1
  let s1 := s.setMem { s.mem with l2tick := tick }
  let age := if evict = 1 ∨ evict = 4 then 0 else tick
  let keep := decide (evict = 2 ∧ s.retained ma f.owner < 8)
  match s.l2Hit ma with
  | some w =>
    match s.l2Way key w with
    | some l =>
      s1.setL2 key w (some { l with
        age := age, dirty := l.dirty || dirty, retain := decide (evict = 2) && (l.retain || keep),
        slots := match slot with | some k => if l.slots.contains k then l.slots else l.slots ++ [k] | none => l.slots })
    | none => s1
  | none =>
    match s.l2Victim ma (s.waymask f.owner (dieOf ma)) with
    | some w => s1.setL2 key w (some ⟨ma / 128, f.owner, f.gen, keep, dirty, slot.toList, age⟩)
    | none => s1

/-- Whether the line of an address is held and verified under a key slot (R375). -/
def l2Verified (s : State) (ma slot : Nat) : Bool :=
  match s.l2Hit ma with
  | some w => match s.l2Way (l2Key ma) w with
    | some l => l.slots.contains slot
    | none => false
  | none => false

/-- The L2 lines of a frame changed (handover, R114; key retirement). -/
def l2Frame (s : State) (mfn : Nat) (f : L2Line → L2Line) : State :=
  s.setMem { s.mem with l2 := s.mem.l2.map (fun p => (p.1, p.2.map (fun l => if l.line / 512 = mfn then f l else l))) }

/-- The key of a tenant's bucket at a slice. -/
def sliceKey (ma t : Nat) : Nat := (dieOf ma * 384 + sliceOf ma) * 64 + t

/-- The key of a tenant's bucket at an injection stop. -/
def stopKey (stop t : Nat) : Nat := stop * 64 + t

/-- The stops that inject the flits of a request to an address and the `n` flits of its answer (R255): the source's, the far ends of the
bridges that the request crosses, the core stop of the home slice, and the ends that the answer comes out of. -/
def stopsFor (s : State) (stop ma : Nat) (n : Nat := 1) : List Nat :=
  let home := dieOf ma
  let way := s.bridgesOf (stopDie stop) home ma
  [stop] ++ way.map (fun x => bridgeNo x.2.2.1 x.2.2.2) ++
    (List.replicate n ([home * 192 + sliceCore (sliceOf ma)] ++ way.map (fun x => bridgeNo x.1 x.2.1))).flatten

/-- The stops that inject the flits of an access to a pool of the die and of its answer (R231, R255): none where the pool is the stop's own. -/
def stopsPad (stop core : Nat) : List Nat := if stop = core then [] else [stop, core]

/-- A tenant's flits at a stop have a limit (R255). -/
def limited (s : State) (t stop : Nat) : Bool := cellGet 0 (s.tenant t).netbw (stopDie stop) != 0

/-- The stops that inject the flits of an access to an address of another device and of its answer (R255, R256, R259): the source's, the far
ends of the bridges to the port's die, the port, and the ends that the answer comes out of. -/
def stopsOut (s : State) (stop t ma : Nat) : List Nat :=
  match s.linkDie t (stopDie stop) with
  | none => []
  | some d =>
    let way := s.bridgesOf (stopDie stop) d ma
    [stop] ++ way.map (fun x => bridgeNo x.2.2.1 x.2.2.2) ++ [linkNo d] ++ way.map (fun x => bridgeNo x.1 x.2.1)

/-- A token of a tenant for a flit at each of some stops (R255); none when a bucket has too few. Flits that need more than a bucket ever holds
go when it is full (log 11). Tenant 0 takes none. -/
def takeStops (s : State) (t : Nat) (stops : List Nat) : Option State :=
  let l := stops.filter (s.limited t)
  if t = 0 then some s
  else if l.any (fun k => decide (cellGet 0 s.mem.netTok (stopKey k t) < min (l.count k) (2 * cellGet 0 (s.tenant t).netbw (stopDie k)))) then none
  else some (s.setMem { s.mem with netTok := l.foldl (fun c k => cellSet 0 c (stopKey k t) (cellGet 0 c (stopKey k t) - 1)) s.mem.netTok })

/-- The token of a tenant for a request at its slice (R249); none when the bucket is empty. -/
def takeSlice (s : State) (t ma : Nat) : Option State :=
  let n := cellGet 0 s.mem.sliceTok (sliceKey ma t)
  if t = 0 ∨ cellGet 0 (s.tenant t).slbw (dieOf ma) = 0 then some s
  else if n = 0 then none
  else some (s.setMem { s.mem with sliceTok := cellSet 0 s.mem.sliceTok (sliceKey ma t) (n - 1) })

/-! ### Retries (R249) -/

/-- Whoever made a request still wants it. -/
def Requester.live (s : State) : Requester → Bool
  | .op core slot id k => (s.wave? core slot).any (fun w => w.ops.any (fun o => o.id == id && (o.parts[k]?).any (fun p => !p.done)))
  | .job core id => s.cores.ctxs.any (fun c => c.core == core && c.cards.any (fun x => x.id == id))
  | .fetch core slot pc => (s.wave? core slot).any (fun w => w.nextPc.any (fun a => a.toNat == pc))
  | .pref id => s.mem.prefs.any (fun x => x.id == id)
  | .tile core id => s.cores.ctxs.any (fun c => c.core == core && c.tiles.any (fun x => x.id == id))

/-- The number of an address's slice in the package. -/
def sliceNo (ma : Nat) : Nat := dieOf ma * 384 + sliceOf ma

/-- A request is held back (R249): its own retry is not due, or another request of its tenant from its stop to its slice waits for one. -/
def retryHolds (s : State) (stop t ma : Nat) (who : Requester) : Bool :=
  s.mem.retries.any (fun r => r.stop == stop && r.slice == sliceNo ma && r.tenant == t && Requester.live s r.who &&
    (r.who != who || decide (s.ctl.cycle < r.since + 64)))

/-- A request that found no token is noted: its source issues it again 64 cycles later. -/
def noteRetry (s : State) (stop t ma : Nat) (who : Requester) : State :=
  s.setMem { s.mem with retries := s.mem.retries.filter (fun r => r.who != who) ++ [⟨stop, sliceNo ma, t, who, s.ctl.cycle⟩] }

/-- A request accepted: no retry of it is left. -/
def dropRetry (s : State) (who : Requester) : State :=
  if s.mem.retries.any (fun r => r.who == who) then s.setMem { s.mem with retries := s.mem.retries.filter (fun r => r.who != who) } else s

/-- A request of a tenant leaves for the home slice of an address and is accepted there, or it waits (R249, R255): its retry is not due,
another of its tenant's is awaited there, a bucket on its way is empty, or the slice's is, which its source notes. `n` flits answer it. -/
def request (s : State) (stop tenant ma : Nat) (who : Requester) (n : Nat := 1) : Except State State :=
  if s.retryHolds stop tenant ma who then .error s
  else match s.takeStops tenant (s.stopsFor stop ma n) with
    | none => .error s
    | some s1 => match s1.takeSlice tenant ma with
      | none => .error (s1.noteRetry stop tenant ma who)
      | some s2 => .ok (s2.dropRetry who)

end State

/-- The paths of an access from a die (R313): an octet of its own die, the first bridge to another, or for another device the bridge to the
port's die, if there is one, and the link. -/
def State.pathsOf (s : State) (t die : Nat) : Loc → List Path
  | .mem ma => if dieOf ma = die then [.octet (octetOf ma)] else (s.bridgesOf die (dieOf ma) ma).head?.toList.map (fun x => .bridge x.2.1)
  | .remote dev ma => (match s.linkDie t die with
      | some d => (s.bridgesOf die d ma).head?.toList.map (fun x => Path.bridge x.2.1)
      | none => []) ++ [.link dev]
  | .pad _ _ => []

/-- The stop of its die to which the fence marker of a path goes (R313): a core stop of the octet, the bridge, or the link port. -/
def State.pathStop (s : State) (t die : Nat) : Path → Stop
  | .octet o => coreStop (sliceCore (8 * o))
  | .bridge j => bridgeStop j
  | .link _ => match s.linkDie t die with
      | some d => if d = die then linkStop else (s.bridgesOf die d 0).head?.elim linkStop (fun x => bridgeStop x.2.1)
      | none => linkStop

/-- The stop of a die to which a flit for an address goes first: the core stop of its slice, or the bridge to its die. -/
def State.towards (s : State) (die ma : Nat) : Stop :=
  ((s.bridgesOf die (dieOf ma) ma).head?).elim (coreStop (sliceCore (sliceOf ma))) (fun x => bridgeStop x.2.1)

end Sys2Proof.Machine
end

