-- ==== Sys2Proof/Machine/Memory.lean ====
section
/-! DEFINITION. Translation and the checks of an address (spec/13 R221 to R223, R231, R235; spec/06 R89), the protected
frames' sectors and tags (spec/24 R373 to R375), the L1 (spec/13 R226), and one access as its home slice or pool performs it
(spec/07 R115, spec/19 R300, R303, R316). -/
namespace Sys2Proof.Machine

/-! ### Translation -/

/-- The address a memory form names (R221, R231, R235); the offset counts in units of the width (R32). -/
def vaOf (a : Word) (off : Int) (w : Nat) : Word := BitVec.ofInt 64 (a.toNat + off * w)

/-- Page size of an array (R116). -/
def pageSize (arr : Nat) : Nat := if arr = 0 then 2 ^ 16 else if arr = 1 then 2 ^ 21 else 2 ^ 25

/-- The set hash of a page number (R223). -/
def setHash (pn : Nat) : Nat := (pn ^^^ (pn / 2 ^ 11) ^^^ (pn / 2 ^ 22)) % 2 ^ 11

/-- Base and size of a tenant's grant in an array (R116). -/
def Tenant.grant (t : Tenant) (arr : Nat) : Nat × Nat := t.grants.getD arr (0, 0)

/-- The set of a VA in an array (R117, R223). -/
def Tenant.setOf (t : Tenant) (arr va : Nat) : Nat := (t.grant arr).1 + setHash (va / pageSize arr) % (t.grant arr).2

/-- The entry maps the VA. -/
def Tlb.covers (e : Tlb) (va : Nat) : Bool := va / pageSize e.arr == e.page

/-- A matching way of one array (R222). -/
def Tenant.inArray (t : Tenant) (arr va : Nat) : Option Tlb :=
  if (t.grant arr).2 = 0 then none
  else t.tlb.find? (fun e => e.arr == arr && e.set == t.setOf arr va && e.covers va)

/-- The three arrays, the smallest page first (R222, steps 2 and 3). -/
def Tenant.inArrays (t : Tenant) (va : Nat) : Option Tlb :=
  (t.inArray 0 va).or ((t.inArray 1 va).or (t.inArray 2 va))

/-- A copy in the core's translation cache (R222, step 1), the smallest page first. -/
def State.inCache (s : State) (core t va : Nat) : Option Tlb :=
  let l := (s.mem.tcache.filter (fun c => c.core == core && c.tenant == t && c.entry.covers va)).map TcEntry.entry
  ((l.find? (fun e => e.arr == 0)).or (l.find? (fun e => e.arr == 1))).or (l.find? (fun e => e.arr == 2))

/-- R222: a copy in the core's cache serves unless the arrays map the address by a smaller page, which a cached copy of a larger one never
hides. -/
def State.translate (s : State) (core t va : Nat) : Option Tlb :=
  match s.inCache core t va, (s.tenant t).inArrays va with
  | some e, some a => if a.arr < e.arr then some a else some e
  | some e, none => some e
  | none, a => a

/-- The core's translation cache refilled with an entry (R222); it holds 256, and the one entered first
leaves a full cache (log 33). -/
def State.cacheTlb (s : State) (core t : Nat) (e : Tlb) : State :=
  let c : TcEntry := ⟨core, t, e⟩
  if s.mem.tcache.contains c then s
  else
    let mine := (c :: s.mem.tcache.filter (fun x => x.core == core)).take 256
    s.setMem { s.mem with tcache := mine ++ s.mem.tcache.filter (fun x => x.core != core) }

/-- Where an entry puts a VA (R222, R258). -/
def Tlb.loc (e : Tlb) (va : Nat) : Loc :=
  if e.mfn < 2 ^ 24 then .mem (e.mfn * 2 ^ 16 + va % pageSize e.arr)
  else .remote (e.mfn / 2 ^ 24 - 1) (e.mfn % 2 ^ 24 * 2 ^ 16 + va % pageSize e.arr)

/-- A location some bytes on. -/
def Loc.plus (l : Loc) (n : Nat) : Loc :=
  match l with
  | .mem a => .mem (a + n)
  | .remote d a => .remote d (a + n)
  | .pad c a => .pad c (a + n)

/-- Attribute masks of Table 7-3. -/
def aRD : Nat := 1
/-- WR. -/
def aWR : Nat := 2
/-- EX. -/
def aEX : Nat := 4
/-- Whether attributes hold WATCH. -/
def isWatch (attr : Nat) : Bool := attr.testBit 3
/-- Whether attributes hold PROT. -/
def isProt (attr : Nat) : Bool := attr.testBit 4

/-- R221: the checks of a global access in their order; `need` are the attributes it must have. -/
def State.checkVa (s : State) (w : Wave) (va : Word) (width need : Nat) : Except (Nat × Word) Tlb :=
  if 2 ^ 48 ≤ va.toNat then .error (cRANGE, va)
  else if va.toNat % width ≠ 0 then .error (cALIGN, va)
  else match s.translate w.core w.tenant va.toNat with
    | none => .error (cTMISS, va)
    | some e =>
      if e.attr &&& need ≠ need ∨ (isProt e.attr ∧ (s.launch w.launch).slotHeld = none) then .error (cPERM, va)
      else .ok e

/-! ### Footprints of pure launches (R89) -/

/-- The bytes from `va` up to `stop` lie in some regions together, which may adjoin or overlap (R60, R89); `n` bounds how many are needed. -/
def coveredTo (rs : List (Nat × Nat)) (stop : Nat) : Nat → Nat → Bool
  | 0, va => decide (stop ≤ va)
  | n + 1, va =>
    if stop ≤ va then true
    else match ((rs.filter (fun r => decide (r.1 ≤ va ∧ va < r.1 + r.2))).map (fun r => r.1 + r.2)).max? with
      | none => false
      | some e => coveredTo rs stop n e

/-- Every byte of `[va, va + n)` lies in a region. -/
def inside (rs : List (Nat × Nat)) (va n : Nat) : Bool := coveredTo rs (va + n) (rs.length + 1) va

/-- Whether a pure launch may load or store there. -/
def Launch.footprint (l : Launch) (va n : Nat) (store : Bool) : Bool :=
  let outs := ((List.range l.nout).map l.outRegion) ++ (if l.nscr = 1 then [l.scrRegion] else [])
  let ins := (List.range l.nin).map l.inRegion
  inside (if store then outs else ins ++ outs) va n

/-- `[va, va + n)` lies in the input regions: where a pure launch's LDK may read. -/
def Launch.inInputs (l : Launch) (va n : Nat) : Bool := inside ((List.range l.nin).map l.inRegion) va n

/-! ### Scratchpad -/

/-- The place a scratchpad address names, as a physical core: 0 is the issuing core (Table 13-4). -/
def State.padCore (s : State) (w : Wave) (a : Nat) : Option Nat :=
  let p := a / 2 ^ 48
  if p = 0 then some w.core
  else ((s.tenant w.tenant).places.find? (fun e => e.kind == .core && e.place == p - 1)).map PlaceEntry.phys

/-- R231 without the bank and alignment tests: the owning core. -/
def State.padHome (s : State) (w : Wave) (a : Word) : Option Nat :=
  if bits a.toNat 47 20 ≠ 0 then none
  else match s.padCore w a.toNat with
    | none => none
    | some c => if c / 192 = w.die ∧ (s.ctx? w.launch c).isSome then some c else none

/-- R231: the owning core and offset, or the fault. -/
def State.checkPad (s : State) (w : Wave) (a : Word) (width : Nat) : Except (Nat × Word) (Nat × Nat) :=
  let off := a.toNat % 2 ^ 20
  match s.padHome w a with
  | none => .error (cRANGE, a)
  | some c =>
    if (s.launch w.launch).bankCode (off / 2 ^ 15) ≠ 2 then .error (cRANGE, a)
    else if a.toNat % width ≠ 0 then .error (cALIGN, a)
    else .ok (c, off)

/-- A range of scratchpad lies in banks coded 10 (R271, R288). -/
def Launch.padRange (l : Launch) (off n : Nat) : Bool :=
  decide (off + n ≤ 2 ^ 20) && (List.range 32).all (fun b => decide (off + n ≤ b * 2 ^ 15) || decide ((b + 1) * 2 ^ 15 ≤ off) || l.bankCode b == 2)

/-- A byte range of a launch's scratchpad touches no absent line (R232). -/
def State.padPresent (s : State) (launch core off n : Nat) : Bool :=
  (s.ctx launch core).absent.all (fun l => decide ((l + 1) * 128 ≤ off) || decide (off + n ≤ l * 128))

/-- Scratchpad bytes. -/
def State.readPad (s : State) (launch core off n : Nat) : List Byte := cellGetMany 0 (s.ctx launch core).pad off n

/-- Scratchpad bytes written, and what a write leaves on them (R303): nothing where it is plain. -/
def State.writePad (s : State) (launch core off : Nat) (l : List Byte) (tag : Option WTag := none) : State :=
  let c := s.ctx launch core
  s.setCtx { c with pad := cellSetMany 0 c.pad off l, padTags := cellSetMany none c.padTags off (List.replicate l.length tag) }

/-- The tags on scratchpad bytes (R303). -/
def State.padTagsAt (s : State) (launch core off n : Nat) : List WTag := (cellGetMany none (s.ctx launch core).padTags off n).filterMap id

/-! ### Protected frames (R373 to R375) -/

/-- The key slot a launch holds. -/
def State.keySlot (s : State) (k : Nat) : KeySlot := cellGet KeySlot.empty s.tasks.keySlots k

/-- Bytes as numbers. -/
def nats (l : List Byte) : List Nat := l.map BitVec.toNat

/-- Numbers as bytes. -/
def bytes8 (l : List Nat) : List Byte := l.map (BitVec.ofNat 8)

/-- The tweak of a sector (R373). -/
def tweakOf (ma gen : Nat) : Nat := ma / 32 + 2 ^ 64 * gen

/-- A sector decrypted (R373). -/
def State.decrypt (s : State) (slot ma : Nat) (c : List Byte) : List Byte :=
  bytes8 (xtsDec (nats (s.keySlot slot).xts) (tweakOf ma (s.frame (mfnOf ma)).gen) (nats c))

/-- A sector encrypted (R373). -/
def State.encrypt (s : State) (slot ma : Nat) (p : List Byte) : List Byte :=
  bytes8 (xtsEnc (nats (s.keySlot slot).xts) (tweakOf ma (s.frame (mfnOf ma)).gen) (nats p))

/-- The tag of an address's MAC block under a key slot (R374). -/
def State.macTag (s : State) (slot ma : Nat) : List Byte :=
  let g := (s.frame (mfnOf ma)).gen
  bytes8 (gcmTag8 (nats (s.keySlot slot).mac) (leBytes 8 (ma / 512 + 2 ^ 40 * g) ++ [0, 0, 0, 0])
    (nats (s.readMem (ma / 512 * 512) 512)))

/-- Where the tag of an address's MAC block lies (R374). -/
def State.tagAddr (s : State) (ma : Nat) : Nat := (s.frame (mfnOf ma)).tagRun + 8 * (ma % 2 ^ 16 / 512)

/-- Whether the access may use the line: already verified under its slot, or the block verifies now (R375). -/
def State.macOk (s : State) (slot ma : Nat) : Bool :=
  s.l2Verified ma slot || s.readMem (s.tagAddr ma) 8 == s.macTag slot ma

/-- Plain bytes within one sector of a PROT frame. -/
def State.protRead (s : State) (slot ma n : Nat) : List Byte :=
  let base := ma / 32 * 32
  ((s.decrypt slot base (s.readMem base 32)).drop (ma - base)).take n

/-- Two byte strings combined bit by bit. -/
def byteXor (a b : List Byte) : List Byte := List.zipWith (· ^^^ ·) a b

/-- Bytes of one sector replaced and the sector encrypted anew (R228); the block's stored tag takes the difference that the sector's old and
new ciphertext make, GHASH being linear, so that a block that did not match before does not match after (R375). The tag's frame is written
too (R94). -/
def State.protWrite (s : State) (slot ma : Nat) (l : List Byte) : State :=
  let base := ma / 32 * 32
  let old := s.decrypt slot base (s.readMem base 32)
  let new := old.take (ma - base) ++ l ++ old.drop (ma - base + l.length)
  let s1 := s.writeMem base (s.encrypt slot base new)
  let tag := byteXor (byteXor (s.readMem (s.tagAddr ma) 8) (s.macTag slot ma)) (s1.macTag slot ma)
  (s1.writeMem (s.tagAddr ma) tag).stampFrame (mfnOf (s.tagAddr ma))

/-! ### The L1 (R226) -/

/-- A core's line of an address. -/
def State.l1Line (s : State) (core ma : Nat) : Option L1Line := s.mem.l1.find? (fun e => e.core == core && e.line == ma / 128)

/-- The number of an address's sector in its line. -/
def secOf (ma : Nat) : Nat := ma / 32 % 4

/-- A valid sector of a core, with the generation of its tag. -/
def State.l1Find (s : State) (core ma : Nat) : Option (Nat × List Byte) :=
  (s.l1Line core ma).bind (fun e => let d := cellGet [] e.secs (secOf ma); if d = [] then none else some (e.gen, d))

/-- The tags that a core's valid sector holds for `n` bytes of it. -/
def State.l1Tags (s : State) (core ma n : Nat) : List WTag :=
  (((((s.l1Line core ma).map (fun e => cellGet [] e.tags (secOf ma))).getD []).drop (ma % 32)).take n).filterMap id

/-- The bytes a sector shows: those of the frame's generation, else zero (R111). -/
def State.l1Data (s : State) (ma : Nat) (e : Nat × List Byte) : List Byte :=
  if e.1 = (s.frame (mfnOf ma)).gen then e.2 else List.replicate 32 0

/-- Bytes `k` to `k + n − 1` of a list replaced. -/
def patch (d : List α) (k : Nat) (l : List α) : List α := d.take k ++ l ++ d.drop (k + l.length)

/-- A sector filled from memory, in a line allocated or already there (R226, R229); the L1 holds 1,024 lines a core. A line of another
generation is replaced whole. EVICT 3 and 4 allocate nothing, and a valid sector is refreshed. -/
def State.l1Fill (s : State) (core ma evict : Nat) : State :=
  let gen := (s.frame (mfnOf ma)).gen
  let base := ma / 32 * 32
  let old := ((s.l1Line core ma).filter (fun e => e.gen == gen)).getD ⟨core, ma / 128, gen, [], []⟩
  let e : L1Line := { old with
    secs := cellSet [] old.secs (secOf ma) (s.readMem base 32), tags := cellSet [] old.tags (secOf ma) (cellGetMany none s.mem.wtags base 32) }
  let mine := s.mem.l1.filter (fun x => x.core == core && x.line != ma / 128)
  let others := s.mem.l1.filter (fun x => x.core != core)
  if 3 ≤ evict ∧ cellGet [] old.secs (secOf ma) = [] then s
  else s.setMem { s.mem with l1 := (if evict = 1 then mine.take 1023 ++ [e] else e :: mine.take 1023) ++ others }

/-- A core's own store updates the bytes it has stored in a valid sector of the frame's generation, and no others (R226); a line of an older
generation goes. -/
def State.l1Store (s : State) (core ma n : Nat) : State :=
  match s.l1Line core ma with
  | none => s
  | some e =>
    let d := cellGet [] e.secs (secOf ma)
    if e.gen ≠ (s.frame (mfnOf ma)).gen then s.setMem { s.mem with l1 := s.mem.l1.filter (fun x => x != e) }
    else if d = [] then s
    else
      let t := cellGet [] e.tags (secOf ma)
      s.setMem { s.mem with l1 := updWhere (fun x => x == e) (fun _ => { e with
        secs := cellSet [] e.secs (secOf ma) (patch d (ma % 32) (s.readMem ma n)),
        tags := cellSet [] e.tags (secOf ma) (patch t (ma % 32) (cellGetMany none s.mem.wtags ma n)) }) s.mem.l1 }

/-- Lines of a core dropped (R310 acquire, CINV). -/
def State.l1DropLines (s : State) (core : Nat) (p : Nat → Bool) : State :=
  s.setMem { s.mem with l1 := s.mem.l1.filter (fun x => !(x.core == core && p x.line)) }

/-- The sector of an address dropped from a core's L1 (R262, R263, R315; what the core's own copy jobs write, R305). -/
def State.l1Drop (s : State) (core ma : Nat) : State :=
  if (s.l1Find core ma).isNone then s
  else s.setMem { s.mem with l1 := (updWhere (fun x => x.core == core && x.line == ma / 128)
    (fun x => { x with secs := x.secs.filter (fun c => c.1 != secOf ma), tags := x.tags.filter (fun c => c.1 != secOf ma) }) s.mem.l1).filter (fun x => x.secs != []) }

/-! ### Synchronisation tags (R301 to R303) -/

/-- The number that tells a wave in a tag. -/
def Wave.mark (w : Wave) : Nat := w.launch * 2 ^ 16 + w.wid

/-- The least scope that joins the writer and a wave where it stands (Table 19-1). -/
def WTag.needed (t : WTag) (w : Wave) : Nat :=
  match t.party with
  | .host => 5
  | .other _ => 4
  | .device => 3
  | .wave die core mark => if mark = w.mark then 0 else if core = w.core then 1 else if die = w.die then 2 else 3

/-- R301, R303: a release of a scope was read, the parties are joined by a least scope, and they do not agree. -/
def disagree (rel need acq : Nat) : Bool := decide (rel < need ∨ acq < need)

/-- What a strong read keeps of a tag: a release's scope and the least scope that joins the parties now (R301). -/
def WTag.met (t : WTag) (w : Wave) : Option (Nat × Nat) := t.scope.map (fun r => (r, t.needed w))

/-- The tags on bytes. -/
def State.tagsAt (s : State) (ma n : Nat) : List WTag := (cellGetMany none s.mem.wtags ma n).filterMap id

/-- The tags on bytes replaced by the next write (R303). -/
def State.setTags (s : State) (ma n : Nat) (t : Option WTag) : State :=
  s.setMem { s.mem with wtags := cellSetMany none s.mem.wtags ma (List.replicate n t) }

/-- The tag a write of an operation leaves (R302, R303): none when it is plain; the FENCEs issued before the word count. -/
def MemOp.tag (o : MemOp) (w : Wave) : Option WTag :=
  if !o.strong then none
  else some ⟨.wave w.die w.core w.mark, if o.rel then some (max o.scope (o.relScope.getD 0)) else o.relScope⟩

/-- The tag of a release that a wave makes as part of another word. -/
def Wave.releaseTag (w : Wave) (scope : Nat) : WTag := ⟨.wave w.die w.core w.mark, some scope⟩

/-! ### Records that the device writes (R3) -/

/-- The machine address of a tenant's frame. -/
def State.tfnAddr (s : State) (t tfn : Nat) : Option Nat :=
  ((s.tenant t).places.find? (fun p => p.kind == .frame && p.place == tfn)).map (fun p => p.phys * 2 ^ 16)

/-- The HDM offset of a service slot (R344). -/
def slotAddr (ten : Tenant) (cls k : Nat) : Nat := ten.cwbase + 0x10000 * (cls + 1) + 0x800 * k

/-- An address lies in a range. -/
def within (a base n : Nat) : Bool := decide (base ≤ a ∧ a < base + n)

/-- An address lies in a record of a tenant that the device writes and whose fields are RO: a completion record (Table 5-2), a revocation
request (Table 7-6), a loss entry (Table 7-8), or the header of a service batch (Table 21-4). -/
def State.recordOf (s : State) (t : Tenant) (ma : Nat) : Bool :=
  (decide (6 ≤ t.crsize ∧ t.crsize ≤ 16) && within ma (t.crbase % 2 ^ 40) (64 * 2 ^ t.crsize)) ||
  (s.tfnAddr t.id t.revTfn).any (fun a => within ma a (64 * 64)) || (s.tfnAddr t.id t.lossTfn).any (fun a => within ma a (32 * 256)) ||
  (within ma (slotAddr t 0 0) 0x30000 && decide ((ma - slotAddr t 0 0) % 0x800 < 64))

/-- An address lies in such a record, in a frame of its tenant. -/
def State.inRecord (s : State) (ma : Nat) : Bool :=
  s.tasks.tenants.any (fun t => (s.frame (mfnOf ma)).owner == t.id && s.recordOf t ma)

/-- The bytes that a software store leaves: it is ignored in the device's records (R3). -/
def State.keepRecords (s : State) (ma : Nat) (l : List Byte) : List Byte :=
  l.mapIdx (fun i b => if s.inRecord (ma + i) then s.byte (ma + i) else b)

/-! ### One access at its home -/

/-- What an access meets: it waits for a token, it is refused with a cause, or it is performed. -/
inductive Home where
  | wait (s : State)
  | refuse (cause : Nat)
  | done (s : State) (old : List Byte)

/-- The watch record of a sector replaced, or cleared (R318). -/
def State.setWatch (s : State) (ma : Nat) (r : Option Watch) : State :=
  let sec := ma / 32
  let l := r.toList ++ s.mem.watch.filter (fun x => x.sector != sec)
  let mine := (l.filter (fun x => x.sector / 2 ^ 32 == dieOf ma)).take 65536
  s.setMem { s.mem with watch := mine ++ l.filter (fun x => x.sector / 2 ^ 32 != dieOf ma) }

/-- The slot of a PROT access, none for a plain frame. -/
def State.slotFor (s : State) (w : Wave) (attr : Nat) : Option Nat :=
  if isProt attr then (s.launch w.launch).slotHeld else none

/-- Bytes as the access sees them. -/
def State.homeBytes (s : State) (slot : Option Nat) (ma n : Nat) : List Byte :=
  match slot with
  | some k => s.protRead k ma n
  | none => s.readMem ma n

/-- Bytes written as the access writes them, with the frame's stamp (R94). -/
def State.homeWrite (s : State) (slot : Option Nat) (ma : Nat) (l : List Byte) : State :=
  ((match slot with
    | some k => s.protWrite k ma l
    | none => s.writeMem ma l).stampFrame (mfnOf ma))

/-- The watch records of the sectors of a range cleared (R318). -/
def State.clearWatch (s : State) (ma n : Nat) : State :=
  (List.range ((ma % 32 + n + 31) / 32)).foldl (fun t i => t.setWatch (ma + 32 * i) none) s

/-- What writes leave on bytes: on each range a tag, or none where the write is plain (R303); a strong write clears the watch record
(R318). -/
def State.leaveTags (s : State) (l : List (Nat × Nat × Option WTag)) : State :=
  l.foldl (fun t p => let u := t.setTags p.1 p.2.1 p.2.2; if p.2.2.isSome then u.clearWatch p.1 p.2.1 else u) s

/-- An access of a tenant as the home slice performs it (R115, R375): the check of the frame table, the integrity check; then
`new` says what the bytes become, from what they were, but for the device's own records (R3). `tags` names the ranges written, each with what
the write leaves; these the core's L1 takes too (R226), and of a PROT frame the sector. -/
def State.homeDo (s : State) (core tenant : Nat) (slot : Option Nat) (evict ma n : Nat) (tags : List (Nat × Nat × Option WTag))
    (new : List Byte → Option (List Byte)) : Home :=
  if (s.frame (mfnOf ma)).owner ≠ tenant then .refuse cOWNER
  else if slot.any (fun k => !s.macOk k ma) then .refuse cINTEG
  else
    let old := s.homeBytes slot ma n
    match new old with
    | none => .done (s.l2Access ma evict false slot) old
    | some l =>
      let s1 := ((s.l2Access ma evict true slot).homeWrite slot ma (if slot.isSome then l else s.keepRecords ma l)).leaveTags tags
      .done (if slot.isSome then s1.l1Store core (ma / 32 * 32) 32 else tags.foldl (fun t p => t.l1Store core p.1 p.2.1) s1) old

/-- The same for the request of a sector, which takes its tokens first, or waits for them (R249, R255). -/
def State.homeAccess (s : State) (stop tenant : Nat) (who : Requester) (slot : Option Nat) (evict ma n : Nat)
    (tags : List (Nat × Nat × Option WTag)) (new : List Byte → Option (List Byte)) : Home :=
  if (s.frame (mfnOf ma)).owner ≠ tenant then .refuse cOWNER
  else match s.request stop tenant (ma / 32 * 32) who with
    | .error s1 => .wait s1
    | .ok s1 => s1.homeDo stop tenant slot evict ma n tags new

/-- Bytes that nothing says anything about: what another device holds at an address (log 52). -/
def State.freeBytes (s : State) (ma n : Nat) : List Byte :=
  (List.range n).map (fun i => (s.free (2 ^ 18 + (ma + i) / 8 % 2 ^ 17) >>> (8 * ((ma + i) % 8))).setWidth 8)

/-- The tag that a strong read meets on another device's bytes: nothing says which (log 52). -/
def State.freeTag (s : State) (dev : Nat) : WTag :=
  let f := (s.free (2 ^ 17)).toNat % 8
  ⟨.other dev, if f < 6 then some f else none⟩

/-! ### Atomic operations (R316) -/

/-- The float format of an atomic's width. -/
def awidFmt : AWid → Fmt
  | .w32 => fp32 | .w64 => fp64

/-- The new value of an atomic, all as bits of the width (R316): `b` and `c` are the operands. -/
def atomNew (op : AOp) (wd : AWid) (old b c : Nat) : Nat :=
  let n := 8 * wd.bytes
  let b := b % 2 ^ n
  let c := c % 2 ^ n
  match op with
  | .add => (old + b) % 2 ^ n
  | .min => if sext old n ≤ sext b n then old else b
  | .max => if sext b n ≤ sext old n then old else b
  | .minu => min old b
  | .maxu => max old b
  | .and => old &&& b
  | .or => old ||| b
  | .xor => old ^^^ b
  | .exch => b
  | .cas => if old = c then b else old
  | .fadd => (faddElem (awidFmt wd) .rne 0 old b).bits
  | .fmin => fminElem (awidFmt wd) old b
  | .fmax => fmaxElem (awidFmt wd) old b

end Sys2Proof.Machine
end

