-- ==== Sys2Proof/Machine/Groups.lean ====
section
/-! DEFINITION. Group barriers and dataflow channels (spec/20), accumulator handles (spec/17 R280, R281, R293). -/
namespace Sys2Proof.Machine

/-- The value that means none in GRPQ and CHQ. -/
def allOnes64 : Word := BitVec.allOnes 64

/-! ### Groups -/

/-- A group's entry; a group nothing lists has no member (R62). -/
def Launch.group (l : Launch) (g : Nat) : Group := (l.groups.find? (fun x => x.gid == g)).getD ⟨g, [], 0, 0, 0⟩

/-- A group's entry replaced. -/
def Launch.setGroup (l : Launch) (x : Group) : Launch := { l with groups := updWhere (fun y => y.gid == x.gid) (fun _ => x) l.groups }

/-- A wave's record of a group (R321). -/
def Wave.grec (w : Wave) (g : Nat) : Option GroupRec := w.groups.find? (fun r => r.gid == g)

/-- A wave's record replaced. -/
def Wave.setGrec (w : Wave) (r : GroupRec) : Wave := { w with groups := updWhere (fun x => x.gid == r.gid) (fun _ => r) w.groups }

/-- A progress event (R142). -/
def Wave.progress (w : Wave) : Wave := { w with hangcnt := 0 }

/-- Every wave of a launch changed, resident or saved. -/
def State.mapWaves (s : State) (uid : Nat) (f : Wave → Wave) : State :=
  let s1 := s.setWaves (updWhere (fun w => w.launch == uid) f s.cores.waves)
  let l := s1.launch uid
  s1.setLaunch { l with images := l.images.map (fun i => { i with waves := i.waves.map f }) }

/-- R322, completion: PEND 0 starts the next epoch; it is a progress event for every member. -/
def State.settleGroup (s : State) (uid g : Nat) : State :=
  let l := s.launch uid
  let x := l.group g
  if x.pend = 0 ∧ x.live ≠ 0 then
    (s.setLaunch (l.setGroup { x with epoch := (x.epoch + 1) % 2 ^ 48, pend := x.live })).mapWaves uid
      (fun w => if (w.grec g).isSome then w.progress else w)
  else if x.pend = 0 ∧ x.members ≠ [] then s.setLaunch (l.setGroup { x with epoch := (x.epoch + 1) % 2 ^ 48 })
  else s

/-- R322, arrival of a wave. -/
def State.arrive (s : State) (w : Wave) (g : Nat) : State :=
  let l := s.launch w.launch
  let x := l.group g
  ((s.setWave (w.setGrec ⟨g, true, x.epoch⟩)).setLaunch (l.setGroup { x with pend := x.pend - 1 })).settleGroup w.launch g

/-- R322, the end of a member. -/
def State.endMember (s : State) (w : Wave) (r : GroupRec) : State :=
  let l := s.launch w.launch
  let x := l.group r.gid
  let arrived := r.arr && r.tepoch == x.epoch
  (s.setLaunch (l.setGroup { x with live := x.live - 1, pend := if arrived then x.pend else x.pend - 1 })).settleGroup w.launch r.gid

/-- The arrival of a record is complete (R321). -/
def State.arrived (s : State) (uid : Nat) (r : GroupRec) : Bool := ((s.launch uid).group r.gid).epoch != r.tepoch

/-- The acquire side of R310 at a scope on a core: at scope 2 and above its L1 sectors are discarded. -/
def State.acquire (s : State) (core scope : Nat) : State := if 2 ≤ scope then s.l1DropLines core (fun _ => true) else s

/-- R322, R323: a completion consumed, with the acquire side at device scope. -/
def State.consume (s : State) (w : Wave) (r : GroupRec) : State :=
  (s.setWave (w.setGrec { r with arr := false })).acquire w.core 3

/-- Position of a wave among a group's members (R62). -/
def Group.position (x : Group) (wid : Nat) : Option Nat := x.members.findIdx? (fun m => m == wid)

/-- Table 20-3. -/
def grpqVal (l : Launch) (w : Wave) (a : Word) : Word :=
  let g := bits a.toNat 7 0
  let x := l.group g
  let n := fun (k : Nat) => BitVec.ofNat 64 k
  if bits a.toNat 15 12 ≠ 0 then allOnes64
  else match bits a.toNat 11 8 with
    | 0 => n x.members.length
    | 1 => n x.live
    | 2 => n (x.live - x.pend)
    | 3 => n x.epoch
    | 4 => match x.position w.wid with
      | some q => n q
      | none => allOnes64
    | 5 => if bits a.toNat 63 16 < x.members.length then n (x.members.getD (bits a.toNat 63 16) 0) else allOnes64
    | 6 => match w.grec g with
      | some r => if r.arr then 1 else 0
      | none => 0
    | _ => allOnes64

/-! ### Channels -/

/-- A declared channel. -/
def Launch.chan? (l : Launch) (i : Nat) : Option Channel := if i < l.nchan then l.chans.find? (fun c => c.id == i) else none

/-- A channel replaced. -/
def Launch.setChan (l : Launch) (c : Channel) : Launch := { l with chans := updWhere (fun x => x.id == c.id) (fun _ => c) l.chans }

/-- Table 20-5. -/
def chqVal (l : Launch) (ch item : Nat) : Word :=
  match l.chan? ch with
  | none => allOnes64
  | some c =>
    let n := fun (k : Nat) => BitVec.ofNat 64 k
    match item with
    | 0 => n c.full.length
    | 1 => n (c.slots - c.full.length)
    | 2 => n c.slots
    | 3 => n c.sends
    | 4 => n c.recvs
    | 5 => n (l.group c.sendg).live
    | 6 => n (l.group c.recvg).live
    | _ => allOnes64

/-! ### Accumulators -/

/-- The allocation a handle names; none when it is stale (R280). -/
def Ctx.alloc? (c : Ctx) (h : Nat) : Option Alloc :=
  let e := cellGet ⟨0, none⟩ c.handles (h % 32)
  if 2 ^ 16 ≤ h ∨ bits h 7 5 ≠ 0 ∨ e.seq ≠ bits h 15 8 then none else e.alloc

/-- The allocation of a handle replaced. -/
def Ctx.setAlloc (c : Ctx) (h : Nat) (a : Alloc) : Ctx :=
  let e := cellGet ⟨0, none⟩ c.handles (h % 32)
  { c with handles := cellSet ⟨0, none⟩ c.handles (h % 32) { e with alloc := some a } }

/-- The number of a core's next allocation. -/
def Ctx.nextOrder (c : Ctx) : Nat := (c.handles.filterMap (fun h => h.2.alloc.map Alloc.order)).foldl max 0 + 1

/-- The pitch of an allocation (R280). -/
def Alloc.pitch (a : Alloc) : Nat := ceilDiv a.cols 16 * 16

/-- Element (r, c) of an allocation. -/
def Alloc.elem (a : Alloc) (r c : Nat) : BitVec 32 := cellGet 0 a.elems (r * a.pitch + c)

/-- Element (r, c) written. -/
def Alloc.setElem (a : Alloc) (r c : Nat) (v : BitVec 32) : Alloc := { a with elems := cellSet 0 a.elems (r * a.pitch + c) v }

/-- R281: whether a wave may access rows `r` to `r + n − 1`. -/
def Launch.mayRow (l : Launch) (a : Alloc) (wid r n : Nat) : Bool :=
  let x := l.group a.group
  let b := a.rows / x.members.length
  a.owner == wid || (!a.noband && match x.position wid with
    | some q => decide (q * b ≤ r ∧ r + n ≤ q * b + b)
    | none => false)

/-- The presence mask of PQRY (R238) from a line of a core's pool. -/
def presenceMask (s : State) (uid core line : Nat) : Word :=
  let c := s.ctx uid core
  let l := s.launch uid
  pack 1 ((List.range 64).map (fun i =>
    (decide (line + i < 8192) && l.bankCode ((line + i) / 256) == 2 && !c.absent.contains (line + i)).toNat))

/-! ### Outstanding operations -/

/-- An operation of the wave. -/
def Wave.op? (w : Wave) (id : Nat) : Option MemOp := w.ops.find? (fun o => o.id == id)

/-- The lanes that an operation without parts brings a register to. -/
def OpAct.lanes : OpAct → List Nat
  | .grpq l => l.map Prod.fst
  | .chq _ _ l => l
  | .pqry l => l.map Prod.fst
  | .accrd l => l.map Prod.fst
  | _ => []

/-- Whether an operation has brought register `k` of its destination to a lane; none where it brings that lane nothing. -/
def MemOp.brought (o : MemOp) (k lane : Nat) : Option Bool :=
  if o.parts = [] then (if o.act.lanes.contains lane then some false else none)
  else (o.parts.find? (fun p => p.lane == lane && p.k == k)).map Part.done

end Sys2Proof.Machine
end

