-- ==== Sys2Proof/WellFormed.lean ====
section
/-! DEFINITION. Which instructions an encoding can hold (spec/02 R24-R40 with each instruction's own entry), and which
arguments an event can have. `checks i` names every condition; `wellFormed i` says that all hold. A pair that breaks a bank
rule is well formed: it decodes, and raises PAIRBANK when it is executed (R38, R39). -/
namespace Sys2Proof

/-- What a check is about: the field of the encoding, or the argument of the event. -/
inductive Ill where
  | guard | stall | hold | reg | srcB | type | modifier | imm | offset | order | half | arg
  deriving DecidableEq, Repr

namespace WF

/-- Guards name p0-p7 or q0-q7, and STALL is 0-7 (R23, R24). -/
def ctl (c : Ctl) : List (Bool × Ill) :=
  [(c.ga.idx < 8, .guard), (c.gb.idx < 8, .guard), (c.stall < 8, .stall)]

/-- R29: HOLD is none or names a source the instruction reads as kind V. -/
def hold (c : Ctl) (a b e : Bool) : Bool × Ill :=
  (match c.hold with
   | .none => true
   | .a => a
   | .b => b
   | .c => e, .hold)

/-- Kind V (Table 2-2). -/
def v (r : Nat) : Bool × Ill := (r < 128, .reg)

/-- Kind V2. -/
def v2 (r : Nat) : Bool × Ill := (r < 128 && r % 2 == 0, .reg)

/-- Kind V4. -/
def v4 (r : Nat) : Bool × Ill := (r < 128 && r % 4 == 0, .reg)

/-- Kind S. -/
def s (r : Nat) : Bool × Ill := (r < 64, .reg)

/-- Kinds P and Q. -/
def p (r : Nat) : Bool × Ill := (r < 8, .reg)

/-- Field B of kind V, or S with SB (R26). -/
def vs : VS → Bool × Ill
  | .v r => (r < 128, .srcB)
  | .s r => (r < 64, .srcB)

/-- Whether a B operand is of kind V. -/
def isV : VS → Bool
  | .v _ => true
  | .s _ => false

/-- A type the row accepts. -/
def ty (b : Bool) : Bool × Ill := (b, .type)

/-- An operation modifier the row accepts. -/
def md (b : Bool) : Bool × Ill := (b, .modifier)

/-- A signed immediate of 22 bits (R30). -/
def simm (i : Int) : Bool × Ill := (decide (-2097152 ≤ i ∧ i < 2097152), .imm)

/-- An unsigned immediate below a bound. -/
def uimm (i bound : Nat) : Bool × Ill := (i < bound, .imm)

/-- A word offset of 28 bits (R31). -/
def broff (i : Int) : Bool × Ill := (decide (-134217728 ≤ i ∧ i < 134217728), .offset)

/-- A memory offset of 14 bits (R32). -/
def moff (i : Int) : Bool × Ill := (decide (-8192 ≤ i ∧ i < 8192), .offset)

/-- The data register of a memory word: V, V2 or V4 by width (R32). -/
def dataReg (r : Nat) (w : Width) : Bool × Ill := (r < 128 && r % w.regs == 0, .reg)

/-- ORD and SCOPE values a row accepts. -/
def os (b : Bool) : Bool × Ill := (b, .order)

/-- Rounding codes 0-4, for rows that refuse SR. -/
def noSr (r : Rnd) : Bool := r != .sr

/-- Scopes 0-2 (Tables 13-5 and 19-3). -/
def poolScope (sc : Scope) : Bool := sc.code ≤ 2

/-- A half's own checks (R35-R37, R40). -/
def half (h : Half) : List (Bool × Ill) :=
  [(h.g.idx < 8, .guard),
   (match h.op with
    | .nop => h.g.neg == false && h.g.idx == 0 && h.d == 0 && h.s == 0 && h.x == 0
    | .mov => h.d < 128 && h.s < 128 && h.x == 0
    | .shli | .shri => h.d < 128 && h.s < 128 && h.x < 32
    | .smov => h.d < 64 && h.s < 64 && h.x == 0
    | .sadd => h.d < 64 && h.s < 64 && h.x < 64
    | .saddi => h.d < 64 && h.s < 64 && h.x < 128
    | _ => h.d < 128 && h.s < 128 && h.x < 128, .half)]

/-- An event argument in its range. -/
def arg (b : Bool) : Bool × Ill := (b, .arg)

/-- COUNT of a readiness function (Table 27-2), or 0 where nothing of it works; of a die's cores the machine counts itself. -/
def countOk (i n : Nat) : Bool :=
  if i = 0 then n == 0 || n == 8 || n == 16 else if i < 9 then true else if i < 25 then n ≤ 32 else if i < 33 then n ≤ 18 else n == 1

/-- Tenant ids 1-63 (spec/05 R73). -/
def ten (t : Nat) : Bool × Ill := arg (1 ≤ t && t < 64)

/-- Die numbers. -/
def die (d : Nat) : Bool × Ill := arg (d < 8)

/-- A wave slot of a core. -/
def slot (core s : Nat) : List (Bool × Ill) := [arg (core < 1536), arg (s < 48)]

end WF

open WF in
/-- Every condition an instruction's fields must meet, each with what it is about. -/
def checks : Instr → List (Bool × Ill)
  | .nop c | .ret c | .rcv c | .exit c | .yield c => ctl c ++ [hold c false false false]
  | .bra c off _ | .call c off _ | .brau c off _ => ctl c ++ [hold c false false false, broff off]
  | .brx c a => ctl c ++ [hold c false false false, v a]
  | .wait c ld st cp tl =>
    ctl c ++ [hold c false false false, uimm ld 64, uimm st 64, uimm cp 64, uimm tl 16]
  | .sleep c n | .phint c n => ctl c ++ [hold c false false false, uimm n 4194304]
  | .vote c d pa _ => ctl c ++ [hold c false false false, v d, p pa]
  | .elect c d => ctl c ++ [hold c false false false, p d]
  | .mfs c d _ | .mts c d _ => ctl c ++ [hold c false false false, vs d]
  | .launch c d a => ctl c ++ [hold c false false false, v d, v a]
  | .trap c code | .bkpt c code => ctl c ++ [hold c false false false, uimm code 65536]
  | .svc c d a cls code =>
    ctl c ++ [hold c false false false, v2 d, v4 a, uimm cls 3, uimm code 65536]
  | .svcrep c d a b => ctl c ++ [hold c false false false, s d, s a, s b]
  | .rte c a => ctl c ++ [hold c false false false, s a]
  | .rand c d => ctl c ++ [hold c false false false, v d]
  | .perfrd c d n => ctl c ++ [hold c false false false, v d, uimm n 8]
  | .acqx c d n | .relx c d n => ctl c ++ [hold c false false false, s d, uimm n 15, (0 < n, .imm)]
  | .rcpdef c d a id idx => ctl c ++ [hold c false false false, s d, s a, uimm id 64, uimm idx 65536]
  | .rcptag c d id => ctl c ++ [hold c false false false, v d, uimm id 64]
  | .rcpclr c a n => ctl c ++ [hold c false false false, v a, uimm n 129, (0 < n, .imm)]
  | .rcpq c d a => ctl c ++ [hold c false false false, s d, s a]
  | .mov c d a | .not c d a => ctl c ++ [hold c true false false, v d, v a]
  | .movi c d imm => ctl c ++ [hold c false false false, v d, simm imm]
  | .movk c d imm h => ctl c ++ [hold c false false false, v d, uimm imm 65536, uimm h 4]
  | .sel c d a b pc => ctl c ++ [hold c true (isV b) false, v d, v a, vs b, p pc]
  | .iadd c d a b t _ | .isub c d a b t _ | .imul c d a b t _ | .imulh c d a b t | .imin c d a b t | .imax c d a b t
  | .shl c d a b t _ | .shr c d a b t _ | .sar c d a b t _ | .rot c d a b t _ =>
    ctl c ++ [hold c true (isV b) false, v d, v a, vs b, ty t.isInt]
  | .imad c d a b e t _ => ctl c ++ [hold c true (isV b) true, v d, v a, vs b, v e, ty t.isInt]
  | .iabs c d a t _ | .ineg c d a t _ => ctl c ++ [hold c true false false, v d, v a, ty t.isSigned]
  | .and c d a b | .or c d a b | .xor c d a b => ctl c ++ [hold c true (isV b) false, v d, v a, vs b]
  | .bfx c d a b t => ctl c ++ [hold c true (isV b) false, v d, v a, vs b, ty (t == .s64 || t == .z64)]
  | .bfi c d a b e => ctl c ++ [hold c true (isV b) true, v d, v a, vs b, v e]
  | .popc c d a t | .clz c d a t | .brev c d a t => ctl c ++ [hold c true false false, v d, v a, ty t.isInt]
  | .lea c d a b t sh =>
    ctl c ++ [hold c true (isV b) false, v d, v a, vs b, ty (t == .s64 || t == .s32x2 || t == .z32x2), uimm sh 8]
  | .isetp c d a b t k _ =>
    ctl c ++ [hold c true (isV b) false, p d, v a, vs b, ty t.isInt, md (k != .num && k != .nan)]
  | .iaddi c d a imm => ctl c ++ [hold c true false false, v d, v a, simm imm]
  | .idot c d a b e ta tb _ => ctl c ++ [hold c true (isV b) true, v d, v a, vs b, v e, ty (Ty.idotPair ta tb)]
  | .plop c d pa pb lut => ctl c ++ [hold c false false false, p d, p pa, p pb, uimm lut 16]
  | .lshf c d a b _ => ctl c ++ [hold c true (isV b) false, v d, v a, vs b]
  | .lbcast c d a b t => ctl c ++ [hold c true false false, v d, v a, s b, ty (t != .s4x16)]
  | .lred c d a t op | .lscan c d a t op _ =>
    ctl c ++ [hold c true false false, v d, v a, ty (t.isInt || t.isFw),
      md (t.isInt || op == .add || op == .min || op == .max)]
  | .lperm c d a b t =>
    ctl c ++ [hold c true (t.permRegs == 1) false, v d, v a, (b < 128 && b % t.permRegs == 0, .reg), ty (t != .s4x16)]
  | .rdlane c d a b t => ctl c ++ [hold c true false false, s d, v a, s b, ty (t != .s4x16)]
  | .wrlane c d a b t => ctl c ++ [hold c false false false, v d, s a, s b, ty (t != .s4x16)]
  | .smov c d a => ctl c ++ [hold c false false false, s d, s a]
  | .smovi c d imm => ctl c ++ [hold c false false false, s d, simm imm]
  | .smovk c d imm h => ctl c ++ [hold c false false false, s d, uimm imm 65536, uimm h 4]
  | .sadd c d a b | .ssub c d a b | .smul c d a b | .sand c d a b | .sor c d a b | .sxor c d a b | .sshl c d a b
  | .sshr c d a b | .ssar c d a b | .smin c d a b _ | .smax c d a b _ =>
    ctl c ++ [hold c false false false, s d, s a, s b]
  | .smad c d a b e => ctl c ++ [hold c false false false, s d, s a, s b, s e]
  | .ssetq c d a b k _ => ctl c ++ [hold c false false false, p d, s a, s b, md (k != .num && k != .nan)]
  | .fadd c d a b t _ | .fsub c d a b t _ | .fmul c d a b t _ | .fmin c d a b t | .fmax c d a b t | .fscale c d a b t _ =>
    ctl c ++ [hold c true (isV b) false, v d, v a, vs b, ty t.isFw]
  | .ffma c d a b e t _ => ctl c ++ [hold c true (isV b) true, v d, v a, vs b, v e, ty t.isFw]
  | .fsetp c d a b t _ _ => ctl c ++ [hold c true (isV b) false, p d, v a, vs b, ty t.isFw]
  | .fcvt c d a td ts _ => ctl c ++ [hold c true false false, v d, v a, ty (td.isF && ts.isF)]
  | .frnd c d a t r => ctl c ++ [hold c true false false, v d, v a, ty t.isFw, md (noSr r)]
  | .i2f c d a td ts _ => ctl c ++ [hold c true false false, v d, v a, ty (td.isFw && ts.isInt)]
  | .f2i c d a td ts _ => ctl c ++ [hold c true false false, v d, v a, ty (td.isInt && ts.isFw)]
  | .frcp c d a t r | .fsqrt c d a t r => ctl c ++ [hold c true false false, v d, v a, ty t.isFn, md (noSr r)]
  | .frsq c d a t | .fexp2 c d a t | .flog2 c d a t | .fsin c d a t | .fcos c d a t | .ftanh c d a t =>
    ctl c ++ [hold c true false false, v d, v a, ty t.isFn]
  | .fexp2Fs c d a b e t => ctl c ++ [hold c true (isV b) true, v d, v a, vs b, v e, ty t.isFn]
  | .fdot c d a b e ta tb _ => ctl c ++ [hold c true (isV b) false, v d, v a, vs b, v2 e, ty (Ty.fdotPair ta tb)]
  | .fclass c d a t => ctl c ++ [hold c true false false, v d, v a, ty t.isF]
  | .ldg c d a off w _ _ _ | .stg c d a off w _ _ _ =>
    ctl c ++ [hold c false false false, dataReg d w, v a, moff off]
  | .ldp c d a off w _ sc | .stp c d a off w _ sc =>
    ctl c ++ [hold c false false false, dataReg d w, v a, moff off, os (poolScope sc)]
  | .ldk c d a off w _ => ctl c ++ [hold c false false false, dataReg d w, v a, moff off]
  | .pref c a off _ | .cinv c a off => ctl c ++ [hold c false false false, v a, moff off]
  | .pqry c d a => ctl c ++ [hold c false false false, v d, v a]
  | .fence c o _ => ctl c ++ [hold c false false false, os (o == .acqrel || o == .sc)]
  | .atom c d a b e op o _ _ =>
    ctl c ++ [hold c true true (op == .cas), v d, v a, v b, v e, (op == .cas || e == 0, .reg), os (o != .plain)]
  | .atomp c d a b e op o sc _ =>
    ctl c ++ [hold c true true (op == .cas), v d, v a, v b, v e, (op == .cas || e == 0, .reg), os (o != .plain && poolScope sc)]
  | .red c a b op o _ _ =>
    ctl c ++ [hold c true true false, v a, v b, md (op != .exch && op != .cas), os (o != .plain)]
  | .hgath c d a b o _ _ => ctl c ++ [hold c true true false, v4 d, v a, v b, os (o == .plain || o == .rlx)]
  | .tbld c d a b e arr way => ctl c ++ [hold c false false false, s d, s a, s b, s e, uimm arr 3, uimm way 8]
  | .tbrd c d a arr way => ctl c ++ [hold c false false false, s d, s a, uimm arr 3, uimm way 8]
  | .tbinv c d a arr _ => ctl c ++ [hold c false false false, s d, s a, uimm arr 3]
  | .frq c d a | .bndq c d a | .lossack c d a | .rtq c d a | .obres c d a | .obrel c d a | .accf c d a =>
    ctl c ++ [hold c false false false, s d, s a]
  | .revack c d a b | .rtinv c d a b | .acca c d a b => ctl c ++ [hold c false false false, s d, s a, s b]
  | .cpy c a b e _ _ q | .cpyd c a b e _ _ q | .cpym c a b e _ q =>
    ctl c ++ [hold c true true true, v a, v b, v e, uimm q 64]
  | .cpyx c a b e _ _ q => ctl c ++ [hold c true true false, v a, v b, v2 e, uimm q 64]
  | .srarv c ring a | .srwt c ring a _ => ctl c ++ [hold c false false false, uimm ring 16, s a]
  | .obld c a b => ctl c ++ [hold c true true false, v a, v b]
  | .accz c a b => ctl c ++ [hold c false false false, s a, s b]
  | .mma c a | .mmas c a | .drain c a => ctl c ++ [hold c true false false, v a]
  | .accrd c d a | .accwr c d a | .grpq c d a => ctl c ++ [hold c true false false, v d, v a]
  | .bar c g | .bara c g | .barw c g => ctl c ++ [hold c false false false, uimm g 256]
  | .chsend c ch a => ctl c ++ [hold c false false false, uimm ch 64, v a]
  | .chrecv c d ch => ctl c ++ [hold c false false false, v d, uimm ch 64]
  | .chq c d ch item => ctl c ++ [hold c false false false, v d, uimm ch 64, uimm item 16]
  | .pairWord h0 h1 _ => half h0 ++ half h1
  | .readyWordStore t k _ => [ten t, arg (k < 128)]
  | .pendingSlotQueued t | .completionRecordWrite t | .eventRecordWrite t | .completionInterruptTimer t
  | .functionLevelReset t | .upcallPost t | .tenantSuspend t | .dirtyHarvest t | .challengeStart t | .challengeDone t
  | .tenantResume t | .abortEngineSeize t _ | .frameHandover t _ _ | .tenantMigrate t _ _ | .vfRegisterWrite t _ _
  | .bindingChange t _ _ _ _ => [ten t]
  | .keyUnsealDone k => [arg (k < 64)]
  | .keywaitTimeout _ | .reuseLookup _ | .reuseHitCopyDone _ | .reservationTimeout _ | .launchRetire _ _ | .graceExpiry _
  | .svcParkTimeout _ | .castleSave _ _ | .writeClockWrap | .powerOff => []
  | .digestCacheFill _ r => [arg (r < 8)]
  | .launchAdmitted _ slots _ | .castleRestore _ _ slots => [arg (slots.all (· < 48))]
  | .cxlMemRead ma => [arg (ma < 2 ^ 40 && ma % 64 == 0)]
  | .cxlMemWrite ma data => [arg (ma < 2 ^ 40 && ma % 64 == 0), arg (data.length == 64)]
  | .serviceBatchComplete t cls k => [ten t, arg (cls < 3), arg (k < 32)]
  | .class1Service t k => [ten t, arg (k < 32)]
  | .trapTaken co k | .hangDetect co k | .sleepTimeout co k => slot co k
  | .homeSliceRefusal co _ | .linkRefusal co _ | .loadComplete co _ _ _ _ | .storeAccepted co _ _ _ | .atomicPerformed co _ _ _
  | .fenceMarkerAck co _ _ | .sliceRetry co _ _ | .copyJobQueued co _ | .copyEngineBurst co _ _ | .copyJobComplete co _ | .tileOpComplete co _ | .spmetaFault co _
  | .acqxResolve co _ | .granuleWaitServed co _ => [arg (co < 1536)]
  | .sliceTokenRefill d | .netTokenRefill d | .controlBudgetRefill d | .linkFlitReplay d _ | .scrubberPass d
  | .thermalStep d _ | .thermalStop d => [die d]
  | .remoteOwnershipUpdate d i _ => [die d, arg (i < 4096)]
  | .waymaskChange d t _ _ _ _ => [die d, ten t]
  | .revocationPost t _ count _ _ reqid => [ten t, arg (count < 65536), arg (reqid < 65536)]
  | .leaseChange co t => [arg (co < 1536), arg (t < 64)]
  | .stopRequest _ cores _ => [arg (cores.all (· < 2048))]
  | .certCommit k _ _ => [arg (k < 8)]
  | .powerOn img => [arg (img.dieOk.length == 8), arg (img.devid < 1024)]
  | .functionReady i n => [arg (i < 34), arg (countOk i n)]
  | .functionFail i => [arg (i < 34)]
  | .reservedEncoding _ | .instructionFetchFault _ => []
  | .memoryError ma _ => [arg (ma < 2 ^ 40)]
  | .remoteAccessAtTarget dev t ma _ => [arg (dev < 1024), arg (t < 64), arg (ma < 2 ^ 40)]
  | .tenantBind t a => [ten t, arg (20 ≤ a.revMin)]

/-- An instruction whose fields an encoding can hold, or an event whose arguments are in range. -/
def wellFormed (i : Instr) : Bool := (checks i).all Prod.fst

end Sys2Proof
end

