-- ==== Sys2Proof/Decode.lean ====
section
/-! DEFINITION. The encodings of spec/02 in both directions. `encode` gives the word of an instruction from the forms and
opcode map; `decode` reads the fields of a word into the instruction its opcode names and accepts it only when the fields
meet that instruction's own checks and the word is the one that encodes it, so that every reserved code and every non-zero
unused field is refused (R40). -/
namespace Sys2Proof

/-- Why a word is no instruction (Table 2-12). Each reason raises ILLEGAL. -/
inductive Reject where
  /-- The opcode is reserved (Table 2-13). -/
  | opcode
  /-- A field holds a value that the instruction's entry does not accept. -/
  | field (what : Ill)
  /-- A code is reserved, or a field that must be zero is not. -/
  | encoding
  /-- Fewer than eight bytes. -/
  | short
  deriving DecidableEq, Repr

/-- The fields of a full word (Table 2-1), without bit 63. -/
structure Fields where
  opc : Nat
  ga : Nat
  gb : Nat
  d : Nat
  a : Nat
  b : Nat
  c : Nat
  m : Nat
  hold : Nat
  yld : Nat
  stall : Nat
  x : Nat
  deriving DecidableEq, Repr

/-- The fields of the full word `w` (Table 2-1). -/
def Fields.ofWord (w : Nat) : Fields where
  opc := w / 2 ^ 54 % 512
  ga := w / 2 ^ 50 % 16
  gb := w / 2 ^ 46 % 16
  d := w / 2 ^ 39 % 128
  a := w / 2 ^ 32 % 128
  b := w / 2 ^ 25 % 128
  c := w / 2 ^ 18 % 128
  m := w / 2 ^ 10 % 256
  hold := w / 2 ^ 8 % 4
  yld := w / 2 ^ 7 % 2
  stall := w / 2 ^ 4 % 8
  x := w % 16

/-- The full word with these fields. -/
def Fields.word (f : Fields) : Nat :=
  f.opc * 2 ^ 54 + f.ga * 2 ^ 50 + f.gb * 2 ^ 46 + f.d * 2 ^ 39 + f.a * 2 ^ 32 + f.b * 2 ^ 25 + f.c * 2 ^ 18 +
    f.m * 2 ^ 10 + f.hold * 2 ^ 8 + f.yld * 2 ^ 7 + f.stall * 2 ^ 4 + f.x

/-- The low `n` bits of a signed value. -/
def toBits (n : Nat) (i : Int) : Nat := (i % 2 ^ n).toNat

/-- The signed value of `n` bits (sext of spec/00). -/
def ofBits (n k : Nat) : Int := if k < 2 ^ (n - 1) then k else (k : Int) - 2 ^ n

namespace Fields

/-- IMM22, bits [31:10] (R30). -/
def imm (f : Fields) : Nat := f.b * 2 ^ 15 + f.c * 2 ^ 8 + f.m

/-- IMM22 read as signed. -/
def simm (f : Fields) : Int := ofBits 22 f.imm

/-- The branch form's word offset, bits [45:18] (R31). -/
def off28 (f : Fields) : Int := ofBits 28 (f.d * 2 ^ 21 + f.a * 2 ^ 14 + f.b * 2 ^ 7 + f.c)

/-- The memory form's offset, bits [31:18] (Table 2-6). -/
def off14 (f : Fields) : Int := ofBits 14 (f.b * 2 ^ 7 + f.c)

/-- The fields every full word has. -/
def ctl (f : Fields) : Ctl := ⟨.ofCode f.ga, .ofCode f.gb, .ofCode f.hold, f.yld == 1, f.stall⟩

/-- Register form (Table 2-1). -/
def reg (k : Ctl) (opc d a b c m x : Nat) : Fields :=
  ⟨opc, k.ga.code, k.gb.code, d, a, b, c, m, k.hold.code, k.yld.toNat, k.stall, x⟩

/-- Immediate form (R30). -/
def ofImm (k : Ctl) (opc d a i : Nat) : Fields := reg k opc d a (i / 2 ^ 15) (i / 2 ^ 8 % 128) (i % 256) 0

/-- Branch form (R31). -/
def br (k : Ctl) (opc : Nat) (off : Int) (h : Nat) : Fields :=
  let o := toBits 28 off
  reg k opc (o / 2 ^ 21) (o / 2 ^ 14 % 128) (o / 2 ^ 7 % 128) (o % 128) h 0

/-- Memory form (R32). -/
def mem (k : Ctl) (opc d a : Nat) (off : Int) (m x : Nat) : Fields :=
  let o := toBits 14 off
  reg k opc d a (o / 2 ^ 7) (o % 128) m x

end Fields

/-- An operand that SB or SCAL makes scalar. -/
def vsOf (sb r : Nat) : VS := if sb = 1 then .s r else .v r

open Fields in
/-- The fields of a full word's instruction; none for a pair and for an event (spec/02 Table 2-13 and each entry's own
table of encodings). -/
def fieldsOf : Instr → Option Fields
  | .nop c => some (reg c 0x000 0 0 0 0 0 0)
  | .bra c off h => some (br c 0x001 off h.code)
  | .brx c a => some (reg c 0x002 0 a 0 0 0 0)
  | .call c off h => some (br c 0x003 off h.code)
  | .ret c => some (reg c 0x004 0 0 0 0 0 0)
  | .brau c off h => some (br c 0x005 off h.code)
  | .rcv c => some (reg c 0x006 0 0 0 0 0 0)
  | .exit c => some (reg c 0x007 0 0 0 0 0 0)
  | .yield c => some (reg c 0x008 0 0 0 0 0 0)
  | .wait c ld st cp tl => some (ofImm c 0x009 0 0 (ld + 64 * st + 4096 * cp + 262144 * tl))
  | .sleep c n => some (ofImm c 0x00A 0 0 n)
  | .phint c n => some (ofImm c 0x00B 0 0 n)
  | .vote c d pa k => some (reg c 0x00C d pa 0 0 k.code 0)
  | .elect c d => some (reg c 0x00D d 0 0 0 0 0)
  | .mfs c d n => some (ofImm c 0x00E d.num 0 (n.code + 256 * d.sb))
  | .mts c a n => some (ofImm c 0x00F 0 a.num (n.code + 256 * a.sb))
  | .launch c d a => some (reg c 0x010 d a 0 0 0 0)
  | .trap c k => some (ofImm c 0x011 0 0 k)
  | .svc c d a k n => some (ofImm c 0x012 d a (n + 1048576 * k))
  | .svcrep c d a b => some (reg c 0x013 d a b 0 0 0)
  | .rte c a => some (reg c 0x014 0 a 0 0 0 0)
  | .bkpt c k => some (ofImm c 0x015 0 0 k)
  | .rand c d => some (reg c 0x016 d 0 0 0 0 0)
  | .perfrd c d n => some (ofImm c 0x017 d 0 n)
  | .acqx c d n => some (ofImm c 0x020 d 0 n)
  | .relx c d n => some (ofImm c 0x021 d 0 n)
  | .rcpdef c d a k n => some (ofImm c 0x022 d a (k + 64 * n))
  | .rcptag c d k => some (ofImm c 0x023 d 0 k)
  | .rcpclr c a n => some (reg c 0x024 0 a 0 0 (n - 1) 0)
  | .rcpq c d a => some (reg c 0x025 d a 0 0 0 0)
  | .mov c d a => some (reg c 0x030 d a 0 0 0 0)
  | .movi c d i => some (ofImm c 0x031 d 0 (toBits 22 i))
  | .movk c d n h => some (ofImm c 0x032 d 0 (n + 65536 * h))
  | .sel c d a b p => some (reg c 0x033 d a b.num p (128 * b.sb) 0)
  | .iadd c d a b t sat => some (reg c 0x034 d a b.num 0 (128 * b.sb + 8 * t.code + sat.toNat) 0)
  | .isub c d a b t sat => some (reg c 0x035 d a b.num 0 (128 * b.sb + 8 * t.code + sat.toNat) 0)
  | .imul c d a b t sat => some (reg c 0x036 d a b.num 0 (128 * b.sb + 8 * t.code + sat.toNat) 0)
  | .imulh c d a b t => some (reg c 0x037 d a b.num 0 (128 * b.sb + 8 * t.code) 0)
  | .imad c d a b e t sat => some (reg c 0x038 d a b.num e (128 * b.sb + 8 * t.code + sat.toNat) 0)
  | .imin c d a b t => some (reg c 0x039 d a b.num 0 (128 * b.sb + 8 * t.code) 0)
  | .imax c d a b t => some (reg c 0x03A d a b.num 0 (128 * b.sb + 8 * t.code) 0)
  | .iabs c d a t sat => some (reg c 0x03B d a 0 0 (8 * t.code + sat.toNat) 0)
  | .ineg c d a t sat => some (reg c 0x03C d a 0 0 (8 * t.code + sat.toNat) 0)
  | .and c d a b => some (reg c 0x03D d a b.num 0 (128 * b.sb) 0)
  | .or c d a b => some (reg c 0x03E d a b.num 0 (128 * b.sb) 0)
  | .xor c d a b => some (reg c 0x03F d a b.num 0 (128 * b.sb) 0)
  | .not c d a => some (reg c 0x040 d a 0 0 0 0)
  | .shl c d a b t sat => some (reg c 0x041 d a b.num 0 (128 * b.sb + 8 * t.code + sat.toNat) 0)
  | .shr c d a b t sat => some (reg c 0x042 d a b.num 0 (128 * b.sb + 8 * t.code + sat.toNat) 0)
  | .sar c d a b t sat => some (reg c 0x043 d a b.num 0 (128 * b.sb + 8 * t.code + sat.toNat) 0)
  | .rot c d a b t sat => some (reg c 0x044 d a b.num 0 (128 * b.sb + 8 * t.code + sat.toNat) 0)
  | .bfx c d a b t => some (reg c 0x045 d a b.num 0 (128 * b.sb + 8 * t.code) 0)
  | .bfi c d a b e => some (reg c 0x046 d a b.num e (128 * b.sb) 0)
  | .popc c d a t => some (reg c 0x047 d a 0 0 (8 * t.code) 0)
  | .clz c d a t => some (reg c 0x048 d a 0 0 (8 * t.code) 0)
  | .brev c d a t => some (reg c 0x049 d a 0 0 (8 * t.code) 0)
  | .lea c d a b t sh => some (reg c 0x04A d a b.num 0 (128 * b.sb + 8 * t.code + sh) 0)
  | .isetp c d a b t k any => some (reg c 0x04B d a b.num 0 (128 * b.sb + 8 * t.code + k.code) any.toNat)
  | .iaddi c d a i => some (ofImm c 0x04C d a (toBits 22 i))
  | .idot c d a b e ta tb sat => some (reg c 0x04D d a b.num e (128 * b.sb + 8 * ta.code + sat.toNat) tb.code)
  | .plop c d pa pb lut => some (reg c 0x04E d pa pb 0 0 lut)
  | .lshf c d a b k => some (reg c 0x050 d a b.num 0 (128 * b.sb + k.code) 0)
  | .lbcast c d a b t => some (reg c 0x051 d a b 0 (8 * t.code) 0)
  | .lred c d a t op => some (reg c 0x052 d a 0 0 (8 * t.code + op.code) 0)
  | .lscan c d a t op ex => some (reg c 0x053 d a 0 0 (8 * t.code + op.code) ex.toNat)
  | .lperm c d a b t => some (reg c 0x054 d a b 0 (8 * t.code) 0)
  | .rdlane c d a b t => some (reg c 0x055 d a b 0 (8 * t.code) 0)
  | .wrlane c d a b t => some (reg c 0x056 d a b 0 (8 * t.code) 0)
  | .smov c d a => some (reg c 0x060 d a 0 0 0 0)
  | .smovi c d i => some (ofImm c 0x061 d 0 (toBits 22 i))
  | .smovk c d n h => some (ofImm c 0x062 d 0 (n + 65536 * h))
  | .sadd c d a b => some (reg c 0x063 d a b 0 0 0)
  | .ssub c d a b => some (reg c 0x064 d a b 0 0 0)
  | .smul c d a b => some (reg c 0x065 d a b 0 0 0)
  | .smad c d a b e => some (reg c 0x066 d a b e 0 0)
  | .sand c d a b => some (reg c 0x067 d a b 0 0 0)
  | .sor c d a b => some (reg c 0x068 d a b 0 0 0)
  | .sxor c d a b => some (reg c 0x069 d a b 0 0 0)
  | .sshl c d a b => some (reg c 0x06A d a b 0 0 0)
  | .sshr c d a b => some (reg c 0x06B d a b 0 0 0)
  | .ssar c d a b => some (reg c 0x06C d a b 0 0 0)
  | .ssetq c d a b k u => some (reg c 0x06D d a b 0 (k.code + 8 * u.toNat) 0)
  | .smin c d a b u => some (reg c 0x06E d a b 0 (8 * u.toNat) 0)
  | .smax c d a b u => some (reg c 0x06F d a b 0 (8 * u.toNat) 0)
  | .fadd c d a b t r => some (reg c 0x080 d a b.num 0 (128 * b.sb + 8 * t.code + r.code) 0)
  | .fsub c d a b t r => some (reg c 0x081 d a b.num 0 (128 * b.sb + 8 * t.code + r.code) 0)
  | .fmul c d a b t r => some (reg c 0x082 d a b.num 0 (128 * b.sb + 8 * t.code + r.code) 0)
  | .ffma c d a b e t r => some (reg c 0x083 d a b.num e (128 * b.sb + 8 * t.code + r.code) 0)
  | .fmin c d a b t => some (reg c 0x084 d a b.num 0 (128 * b.sb + 8 * t.code) 0)
  | .fmax c d a b t => some (reg c 0x085 d a b.num 0 (128 * b.sb + 8 * t.code) 0)
  | .fsetp c d a b t k any => some (reg c 0x086 d a b.num 0 (128 * b.sb + 8 * t.code + k.code) any.toNat)
  | .fcvt c d a td ts r => some (reg c 0x087 d a 0 0 (8 * td.code + r.code) ts.code)
  | .frnd c d a t r => some (reg c 0x088 d a 0 0 (8 * t.code + r.code) 0)
  | .i2f c d a td ts r => some (reg c 0x089 d a 0 0 (8 * td.code + r.code) ts.code)
  | .f2i c d a td ts r => some (reg c 0x08A d a 0 0 (8 * td.code + r.code) ts.code)
  | .frcp c d a t r => some (reg c 0x08B d a 0 0 (8 * t.code + r.code) 0)
  | .frsq c d a t => some (reg c 0x08C d a 0 0 (8 * t.code) 0)
  | .fsqrt c d a t r => some (reg c 0x08D d a 0 0 (8 * t.code + r.code) 0)
  | .fexp2 c d a t => some (reg c 0x08E d a 0 0 (8 * t.code) 0)
  | .fexp2Fs c d a b e t => some (reg c 0x08E d a b.num e (128 * b.sb + 8 * t.code + 1) 0)
  | .flog2 c d a t => some (reg c 0x08F d a 0 0 (8 * t.code) 0)
  | .fsin c d a t => some (reg c 0x090 d a 0 0 (8 * t.code) 0)
  | .fcos c d a t => some (reg c 0x091 d a 0 0 (8 * t.code) 0)
  | .ftanh c d a t => some (reg c 0x092 d a 0 0 (8 * t.code) 0)
  | .fdot c d a b e ta tb r => some (reg c 0x093 d a b.num e (128 * b.sb + 8 * ta.code + r.code) tb.code)
  | .fclass c d a t => some (reg c 0x094 d a 0 0 (8 * t.code) 0)
  | .fscale c d a b t r => some (reg c 0x095 d a b.num 0 (128 * b.sb + 8 * t.code + r.code) 0)
  | .ldg c d a off w o sc ev => some (mem c 0x0A0 d a off (64 * o.code + 8 * sc.code + ev.code) w.code)
  | .stg c d a off w o sc ev => some (mem c 0x0A1 d a off (64 * o.code + 8 * sc.code + ev.code) w.code)
  | .ldp c d a off w o sc => some (mem c 0x0A2 d a off (64 * o.code + 8 * sc.code) w.code)
  | .stp c d a off w o sc => some (mem c 0x0A3 d a off (64 * o.code + 8 * sc.code) w.code)
  | .ldk c d a off w ev => some (mem c 0x0A4 d a off ev.code w.code)
  | .pref c a off ev => some (mem c 0x0A5 0 a off ev.code 0)
  | .cinv c a off => some (mem c 0x0A6 0 a off 0 0)
  | .pqry c d a => some (reg c 0x0A7 d a 0 0 0 0)
  | .fence c o sc => some (reg c 0x0A8 0 0 0 0 (64 * o.code + 8 * sc.code) 0)
  | .atom c d a b e op o sc w => some (reg c 0x0A9 d a b e (64 * o.code + 8 * sc.code + op.code % 8) (op.code / 8 * 8 + w.code))
  | .atomp c d a b e op o sc w => some (reg c 0x0AA d a b e (64 * o.code + 8 * sc.code + op.code % 8) (op.code / 8 * 8 + w.code))
  | .red c a b op o sc w => some (reg c 0x0AB 0 a b 0 (64 * o.code + 8 * sc.code + op.code % 8) (op.code / 8 * 8 + w.code))
  | .hgath c d a b o sc ev => some (reg c 0x0AC d a b 0 (64 * o.code + 8 * sc.code + ev.code) 0)
  | .tbld c d a b e arr way => some (reg c 0x0B0 d a b e (arr + 4 * way) 0)
  | .tbrd c d a arr way => some (reg c 0x0B1 d a 0 0 (arr + 4 * way) 0)
  | .tbinv c d a arr all => some (reg c 0x0B2 d a 0 0 (arr + 32 * all.toNat) 0)
  | .frq c d a => some (reg c 0x0B3 d a 0 0 0 0)
  | .bndq c d a => some (reg c 0x0B4 d a 0 0 0 0)
  | .revack c d a b => some (reg c 0x0B5 d a b 0 0 0)
  | .lossack c d a => some (reg c 0x0B6 d a 0 0 0 0)
  | .rtq c d a => some (reg c 0x0B7 d a 0 0 0 0)
  | .rtinv c d a b => some (reg c 0x0B8 d a b 0 0 0)
  | .cpy c a b e dp sp q => some (reg c 0x0C0 0 a b e (128 * dp.toNat + 64 * sp.toNat + q) 0)
  | .cpyx c a b e dp sp q => some (reg c 0x0C1 0 a b e (128 * dp.toNat + 64 * sp.toNat + q) 0)
  | .cpym c a b e dp q => some (reg c 0x0C2 0 a b e (128 * dp.toNat + q) 0)
  | .cpyd c a b e dp sp q => some (reg c 0x0C3 0 a b e (128 * dp.toNat + 64 * sp.toNat + q) 0)
  | .srarv c ring a => some (reg c 0x0C4 0 a 0 0 ring 0)
  | .srwt c ring a ph => some (reg c 0x0C5 0 a 0 0 ring ph.toNat)
  | .obres c d a => some (reg c 0x0D0 d a 0 0 0 0)
  | .obrel c d a => some (reg c 0x0D1 d a 0 0 0 0)
  | .obld c a b => some (reg c 0x0D2 0 a b 0 0 0)
  | .acca c d a b => some (reg c 0x0D3 d a b 0 0 0)
  | .accf c d a => some (reg c 0x0D4 d a 0 0 0 0)
  | .accz c a b => some (reg c 0x0D5 0 a b 0 0 0)
  | .mma c a => some (reg c 0x0D6 0 a 0 0 0 0)
  | .mmas c a => some (reg c 0x0D7 0 a 0 0 0 0)
  | .accrd c d a => some (reg c 0x0D8 d a 0 0 0 0)
  | .accwr c d a => some (reg c 0x0D9 d a 0 0 0 0)
  | .drain c a => some (reg c 0x0DA 0 a 0 0 0 0)
  | .bar c g => some (ofImm c 0x0E0 0 0 g)
  | .bara c g => some (ofImm c 0x0E1 0 0 g)
  | .barw c g => some (ofImm c 0x0E2 0 0 g)
  | .grpq c d a => some (reg c 0x0E3 d a 0 0 0 0)
  | .chsend c ch a => some (ofImm c 0x0E4 0 a ch)
  | .chrecv c d ch => some (ofImm c 0x0E5 d 0 ch)
  | .chq c d ch n => some (ofImm c 0x0E6 d 0 (ch + 64 * n))
  | .pairWord _ _ _ => none
  | .readyWordStore _ _ _ | .pendingSlotQueued _ | .keyUnsealDone _ | .keywaitTimeout _ | .reuseLookup _
  | .digestCacheFill _ _ | .reuseHitCopyDone _ | .launchAdmitted _ _ _ | .reservationTimeout _ | .launchRetire _ _
  | .completionRecordWrite _ | .eventRecordWrite _ | .completionInterruptTimer _ | .vfRegisterWrite _ _ _
  | .functionLevelReset _ | .cxlMemRead _ | .cxlMemWrite _ _ | .serviceBatchComplete _ _ _ | .class1Service _ _
  | .upcallPost _ | .trapTaken _ _ | .homeSliceRefusal _ _ | .linkRefusal _ _ | .loadComplete _ _ _ _ _
  | .storeAccepted _ _ _ _ | .atomicPerformed _ _ _ _ | .copyJobQueued _ _ | .copyEngineBurst _ _ _
  | .copyJobComplete _ _ | .tileOpComplete _ _ | .spmetaFault _ _ | .acqxResolve _ _ | .granuleWaitServed _ _
  | .hangDetect _ _ | .sleepTimeout _ _ | .fenceMarkerAck _ _ _ | .sliceTokenRefill _ | .sliceRetry _ _ _
  | .netTokenRefill _ | .controlBudgetRefill _ | .linkFlitReplay _ _ | .remoteOwnershipUpdate _ _ _
  | .waymaskChange _ _ _ _ _ _ | .scrubberPass _ | .writeClockWrap | .revocationPost _ _ _ _ _ _
  | .abortEngineSeize _ _ | .frameHandover _ _ _ | .leaseChange _ _ | .stopRequest _ _ _ | .graceExpiry _
  | .svcParkTimeout _ | .castleSave _ _ | .castleRestore _ _ _ | .tenantSuspend _ | .bindingChange _ _ _ _ _
  | .dirtyHarvest _ | .tenantMigrate _ _ _ | .certCommit _ _ _ | .challengeStart _ | .challengeDone _
  | .powerOn _ | .functionReady _ _ | .functionFail _ | .thermalStep _ _ | .thermalStop _ | .reservedEncoding _
  | .instructionFetchFault _ | .memoryError _ _ | .powerOff | .remoteAccessAtTarget _ _ _ _ | .tenantResume _
  | .tenantBind _ _ => none

/-- The instruction an opcode names, with its operands read from the fields; none for a reserved opcode (Table 2-13). A
reserved code is read as some name here, and `decode` refuses the word then. -/
def ofFields (f : Fields) : Option Instr :=
  match f.opc with
  | 0x000 => some (.nop f.ctl)
  | 0x001 => some (.bra f.ctl f.off28 (.ofCode (f.m % 4)))
  | 0x002 => some (.brx f.ctl f.a)
  | 0x003 => some (.call f.ctl f.off28 (.ofCode (f.m % 4)))
  | 0x004 => some (.ret f.ctl)
  | 0x005 => some (.brau f.ctl f.off28 (.ofCode (f.m % 4)))
  | 0x006 => some (.rcv f.ctl)
  | 0x007 => some (.exit f.ctl)
  | 0x008 => some (.yield f.ctl)
  | 0x009 => some (.wait f.ctl (f.imm % 64) (f.imm / 64 % 64) (f.imm / 4096 % 64) (f.imm / 262144))
  | 0x00A => some (.sleep f.ctl f.imm)
  | 0x00B => some (.phint f.ctl f.imm)
  | 0x00C => some (.vote f.ctl f.d f.a (.ofCode (f.m % 4)))
  | 0x00D => some (.elect f.ctl f.d)
  | 0x00E => some (.mfs f.ctl (vsOf (f.imm / 256 % 2) f.d) (.ofCode (f.imm % 256)))
  | 0x00F => some (.mts f.ctl (vsOf (f.imm / 256 % 2) f.a) (.ofCode (f.imm % 256)))
  | 0x010 => some (.launch f.ctl f.d f.a)
  | 0x011 => some (.trap f.ctl f.imm)
  | 0x012 => some (.svc f.ctl f.d f.a (f.imm / 1048576) (f.imm % 1048576))
  | 0x013 => some (.svcrep f.ctl f.d f.a f.b)
  | 0x014 => some (.rte f.ctl f.a)
  | 0x015 => some (.bkpt f.ctl f.imm)
  | 0x016 => some (.rand f.ctl f.d)
  | 0x017 => some (.perfrd f.ctl f.d f.imm)
  | 0x020 => some (.acqx f.ctl f.d f.imm)
  | 0x021 => some (.relx f.ctl f.d f.imm)
  | 0x022 => some (.rcpdef f.ctl f.d f.a (f.imm % 64) (f.imm / 64))
  | 0x023 => some (.rcptag f.ctl f.d f.imm)
  | 0x024 => some (.rcpclr f.ctl f.a (f.m + 1))
  | 0x025 => some (.rcpq f.ctl f.d f.a)
  | 0x030 => some (.mov f.ctl f.d f.a)
  | 0x031 => some (.movi f.ctl f.d f.simm)
  | 0x032 => some (.movk f.ctl f.d (f.imm % 65536) (f.imm / 65536))
  | 0x033 => some (.sel f.ctl f.d f.a (vsOf (f.m / 128) f.b) f.c)
  | 0x034 => some (.iadd f.ctl f.d f.a (vsOf (f.m / 128) f.b) (.ofCode (f.m / 8 % 16)) (f.m % 8 == 1))
  | 0x035 => some (.isub f.ctl f.d f.a (vsOf (f.m / 128) f.b) (.ofCode (f.m / 8 % 16)) (f.m % 8 == 1))
  | 0x036 => some (.imul f.ctl f.d f.a (vsOf (f.m / 128) f.b) (.ofCode (f.m / 8 % 16)) (f.m % 8 == 1))
  | 0x037 => some (.imulh f.ctl f.d f.a (vsOf (f.m / 128) f.b) (.ofCode (f.m / 8 % 16)))
  | 0x038 => some (.imad f.ctl f.d f.a (vsOf (f.m / 128) f.b) f.c (.ofCode (f.m / 8 % 16)) (f.m % 8 == 1))
  | 0x039 => some (.imin f.ctl f.d f.a (vsOf (f.m / 128) f.b) (.ofCode (f.m / 8 % 16)))
  | 0x03A => some (.imax f.ctl f.d f.a (vsOf (f.m / 128) f.b) (.ofCode (f.m / 8 % 16)))
  | 0x03B => some (.iabs f.ctl f.d f.a (.ofCode (f.m / 8 % 16)) (f.m % 8 == 1))
  | 0x03C => some (.ineg f.ctl f.d f.a (.ofCode (f.m / 8 % 16)) (f.m % 8 == 1))
  | 0x03D => some (.and f.ctl f.d f.a (vsOf (f.m / 128) f.b))
  | 0x03E => some (.or f.ctl f.d f.a (vsOf (f.m / 128) f.b))
  | 0x03F => some (.xor f.ctl f.d f.a (vsOf (f.m / 128) f.b))
  | 0x040 => some (.not f.ctl f.d f.a)
  | 0x041 => some (.shl f.ctl f.d f.a (vsOf (f.m / 128) f.b) (.ofCode (f.m / 8 % 16)) (f.m % 8 == 1))
  | 0x042 => some (.shr f.ctl f.d f.a (vsOf (f.m / 128) f.b) (.ofCode (f.m / 8 % 16)) (f.m % 8 == 1))
  | 0x043 => some (.sar f.ctl f.d f.a (vsOf (f.m / 128) f.b) (.ofCode (f.m / 8 % 16)) (f.m % 8 == 1))
  | 0x044 => some (.rot f.ctl f.d f.a (vsOf (f.m / 128) f.b) (.ofCode (f.m / 8 % 16)) (f.m % 8 == 1))
  | 0x045 => some (.bfx f.ctl f.d f.a (vsOf (f.m / 128) f.b) (.ofCode (f.m / 8 % 16)))
  | 0x046 => some (.bfi f.ctl f.d f.a (vsOf (f.m / 128) f.b) f.c)
  | 0x047 => some (.popc f.ctl f.d f.a (.ofCode (f.m / 8 % 16)))
  | 0x048 => some (.clz f.ctl f.d f.a (.ofCode (f.m / 8 % 16)))
  | 0x049 => some (.brev f.ctl f.d f.a (.ofCode (f.m / 8 % 16)))
  | 0x04A => some (.lea f.ctl f.d f.a (vsOf (f.m / 128) f.b) (.ofCode (f.m / 8 % 16)) (f.m % 8))
  | 0x04B => some (.isetp f.ctl f.d f.a (vsOf (f.m / 128) f.b) (.ofCode (f.m / 8 % 16)) (.ofCode (f.m % 8)) (f.x == 1))
  | 0x04C => some (.iaddi f.ctl f.d f.a f.simm)
  | 0x04D => some (.idot f.ctl f.d f.a (vsOf (f.m / 128) f.b) f.c (.ofCode (f.m / 8 % 16)) (.ofCode f.x) (f.m % 8 == 1))
  | 0x04E => some (.plop f.ctl f.d f.a f.b f.x)
  | 0x050 => some (.lshf f.ctl f.d f.a (vsOf (f.m / 128) f.b) (.ofCode (f.m % 8)))
  | 0x051 => some (.lbcast f.ctl f.d f.a f.b (.ofCode (f.m / 8 % 16)))
  | 0x052 => some (.lred f.ctl f.d f.a (.ofCode (f.m / 8 % 16)) (.ofCode (f.m % 8)))
  | 0x053 => some (.lscan f.ctl f.d f.a (.ofCode (f.m / 8 % 16)) (.ofCode (f.m % 8)) (f.x == 1))
  | 0x054 => some (.lperm f.ctl f.d f.a f.b (.ofCode (f.m / 8 % 16)))
  | 0x055 => some (.rdlane f.ctl f.d f.a f.b (.ofCode (f.m / 8 % 16)))
  | 0x056 => some (.wrlane f.ctl f.d f.a f.b (.ofCode (f.m / 8 % 16)))
  | 0x060 => some (.smov f.ctl f.d f.a)
  | 0x061 => some (.smovi f.ctl f.d f.simm)
  | 0x062 => some (.smovk f.ctl f.d (f.imm % 65536) (f.imm / 65536))
  | 0x063 => some (.sadd f.ctl f.d f.a f.b)
  | 0x064 => some (.ssub f.ctl f.d f.a f.b)
  | 0x065 => some (.smul f.ctl f.d f.a f.b)
  | 0x066 => some (.smad f.ctl f.d f.a f.b f.c)
  | 0x067 => some (.sand f.ctl f.d f.a f.b)
  | 0x068 => some (.sor f.ctl f.d f.a f.b)
  | 0x069 => some (.sxor f.ctl f.d f.a f.b)
  | 0x06A => some (.sshl f.ctl f.d f.a f.b)
  | 0x06B => some (.sshr f.ctl f.d f.a f.b)
  | 0x06C => some (.ssar f.ctl f.d f.a f.b)
  | 0x06D => some (.ssetq f.ctl f.d f.a f.b (.ofCode (f.m % 8)) (f.m / 8 == 1))
  | 0x06E => some (.smin f.ctl f.d f.a f.b (f.m == 8))
  | 0x06F => some (.smax f.ctl f.d f.a f.b (f.m == 8))
  | 0x080 => some (.fadd f.ctl f.d f.a (vsOf (f.m / 128) f.b) (.ofCode (f.m / 8 % 16)) (.ofCode (f.m % 8)))
  | 0x081 => some (.fsub f.ctl f.d f.a (vsOf (f.m / 128) f.b) (.ofCode (f.m / 8 % 16)) (.ofCode (f.m % 8)))
  | 0x082 => some (.fmul f.ctl f.d f.a (vsOf (f.m / 128) f.b) (.ofCode (f.m / 8 % 16)) (.ofCode (f.m % 8)))
  | 0x083 => some (.ffma f.ctl f.d f.a (vsOf (f.m / 128) f.b) f.c (.ofCode (f.m / 8 % 16)) (.ofCode (f.m % 8)))
  | 0x084 => some (.fmin f.ctl f.d f.a (vsOf (f.m / 128) f.b) (.ofCode (f.m / 8 % 16)))
  | 0x085 => some (.fmax f.ctl f.d f.a (vsOf (f.m / 128) f.b) (.ofCode (f.m / 8 % 16)))
  | 0x086 => some (.fsetp f.ctl f.d f.a (vsOf (f.m / 128) f.b) (.ofCode (f.m / 8 % 16)) (.ofCode (f.m % 8)) (f.x == 1))
  | 0x087 => some (.fcvt f.ctl f.d f.a (.ofCode (f.m / 8 % 16)) (.ofCode f.x) (.ofCode (f.m % 8)))
  | 0x088 => some (.frnd f.ctl f.d f.a (.ofCode (f.m / 8 % 16)) (.ofCode (f.m % 8)))
  | 0x089 => some (.i2f f.ctl f.d f.a (.ofCode (f.m / 8 % 16)) (.ofCode f.x) (.ofCode (f.m % 8)))
  | 0x08A => some (.f2i f.ctl f.d f.a (.ofCode (f.m / 8 % 16)) (.ofCode f.x) (.ofCode (f.m % 8)))
  | 0x08B => some (.frcp f.ctl f.d f.a (.ofCode (f.m / 8 % 16)) (.ofCode (f.m % 8)))
  | 0x08C => some (.frsq f.ctl f.d f.a (.ofCode (f.m / 8 % 16)))
  | 0x08D => some (.fsqrt f.ctl f.d f.a (.ofCode (f.m / 8 % 16)) (.ofCode (f.m % 8)))
  | 0x08E => some (if f.m % 8 = 1 then .fexp2Fs f.ctl f.d f.a (vsOf (f.m / 128) f.b) f.c (.ofCode (f.m / 8 % 16))
      else .fexp2 f.ctl f.d f.a (.ofCode (f.m / 8 % 16)))
  | 0x08F => some (.flog2 f.ctl f.d f.a (.ofCode (f.m / 8 % 16)))
  | 0x090 => some (.fsin f.ctl f.d f.a (.ofCode (f.m / 8 % 16)))
  | 0x091 => some (.fcos f.ctl f.d f.a (.ofCode (f.m / 8 % 16)))
  | 0x092 => some (.ftanh f.ctl f.d f.a (.ofCode (f.m / 8 % 16)))
  | 0x093 => some (.fdot f.ctl f.d f.a (vsOf (f.m / 128) f.b) f.c (.ofCode (f.m / 8 % 16)) (.ofCode f.x) (.ofCode (f.m % 8)))
  | 0x094 => some (.fclass f.ctl f.d f.a (.ofCode (f.m / 8 % 16)))
  | 0x095 => some (.fscale f.ctl f.d f.a (vsOf (f.m / 128) f.b) (.ofCode (f.m / 8 % 16)) (.ofCode (f.m % 8)))
  | 0x0A0 => some (.ldg f.ctl f.d f.a f.off14 (.ofCode f.x) (.ofCode (f.m / 64)) (.ofCode (f.m / 8 % 8)) (.ofCode (f.m % 8)))
  | 0x0A1 => some (.stg f.ctl f.d f.a f.off14 (.ofCode f.x) (.ofCode (f.m / 64)) (.ofCode (f.m / 8 % 8)) (.ofCode (f.m % 8)))
  | 0x0A2 => some (.ldp f.ctl f.d f.a f.off14 (.ofCode f.x) (.ofCode (f.m / 64)) (.ofCode (f.m / 8 % 8)))
  | 0x0A3 => some (.stp f.ctl f.d f.a f.off14 (.ofCode f.x) (.ofCode (f.m / 64)) (.ofCode (f.m / 8 % 8)))
  | 0x0A4 => some (.ldk f.ctl f.d f.a f.off14 (.ofCode f.x) (.ofCode (f.m % 8)))
  | 0x0A5 => some (.pref f.ctl f.a f.off14 (.ofCode (f.m % 8)))
  | 0x0A6 => some (.cinv f.ctl f.a f.off14)
  | 0x0A7 => some (.pqry f.ctl f.d f.a)
  | 0x0A8 => some (.fence f.ctl (.ofCode (f.m / 64)) (.ofCode (f.m / 8 % 8)))
  | 0x0A9 => some (.atom f.ctl f.d f.a f.b f.c (.ofCode (f.x / 8 * 8 + f.m % 8)) (.ofCode (f.m / 64)) (.ofCode (f.m / 8 % 8)) (.ofCode (f.x % 8)))
  | 0x0AA => some (.atomp f.ctl f.d f.a f.b f.c (.ofCode (f.x / 8 * 8 + f.m % 8)) (.ofCode (f.m / 64)) (.ofCode (f.m / 8 % 8)) (.ofCode (f.x % 8)))
  | 0x0AB => some (.red f.ctl f.a f.b (.ofCode (f.x / 8 * 8 + f.m % 8)) (.ofCode (f.m / 64)) (.ofCode (f.m / 8 % 8)) (.ofCode (f.x % 8)))
  | 0x0AC => some (.hgath f.ctl f.d f.a f.b (.ofCode (f.m / 64)) (.ofCode (f.m / 8 % 8)) (.ofCode (f.m % 8)))
  | 0x0B0 => some (.tbld f.ctl f.d f.a f.b f.c (f.m % 4) (f.m / 4))
  | 0x0B1 => some (.tbrd f.ctl f.d f.a (f.m % 4) (f.m / 4))
  | 0x0B2 => some (.tbinv f.ctl f.d f.a (f.m % 4) (f.m / 32 == 1))
  | 0x0B3 => some (.frq f.ctl f.d f.a)
  | 0x0B4 => some (.bndq f.ctl f.d f.a)
  | 0x0B5 => some (.revack f.ctl f.d f.a f.b)
  | 0x0B6 => some (.lossack f.ctl f.d f.a)
  | 0x0B7 => some (.rtq f.ctl f.d f.a)
  | 0x0B8 => some (.rtinv f.ctl f.d f.a f.b)
  | 0x0C0 => some (.cpy f.ctl f.a f.b f.c (f.m / 128 == 1) (f.m / 64 % 2 == 1) (f.m % 64))
  | 0x0C1 => some (.cpyx f.ctl f.a f.b f.c (f.m / 128 == 1) (f.m / 64 % 2 == 1) (f.m % 64))
  | 0x0C2 => some (.cpym f.ctl f.a f.b f.c (f.m / 128 == 1) (f.m % 64))
  | 0x0C3 => some (.cpyd f.ctl f.a f.b f.c (f.m / 128 == 1) (f.m / 64 % 2 == 1) (f.m % 64))
  | 0x0C4 => some (.srarv f.ctl f.m f.a)
  | 0x0C5 => some (.srwt f.ctl f.m f.a (f.x == 1))
  | 0x0D0 => some (.obres f.ctl f.d f.a)
  | 0x0D1 => some (.obrel f.ctl f.d f.a)
  | 0x0D2 => some (.obld f.ctl f.a f.b)
  | 0x0D3 => some (.acca f.ctl f.d f.a f.b)
  | 0x0D4 => some (.accf f.ctl f.d f.a)
  | 0x0D5 => some (.accz f.ctl f.a f.b)
  | 0x0D6 => some (.mma f.ctl f.a)
  | 0x0D7 => some (.mmas f.ctl f.a)
  | 0x0D8 => some (.accrd f.ctl f.d f.a)
  | 0x0D9 => some (.accwr f.ctl f.d f.a)
  | 0x0DA => some (.drain f.ctl f.a)
  | 0x0E0 => some (.bar f.ctl f.imm)
  | 0x0E1 => some (.bara f.ctl f.imm)
  | 0x0E2 => some (.barw f.ctl f.imm)
  | 0x0E3 => some (.grpq f.ctl f.d f.a)
  | 0x0E4 => some (.chsend f.ctl f.imm f.a)
  | 0x0E5 => some (.chrecv f.ctl f.d f.imm)
  | 0x0E6 => some (.chq f.ctl f.d (f.imm % 64) (f.imm / 64))
  | _ => none

/-- The 31 bits of a half (Table 2-10). -/
def Half.word (h : Half) : Nat := h.op.code * 2 ^ 25 + h.g.code * 2 ^ 21 + h.d * 2 ^ 14 + h.s * 2 ^ 7 + h.x

/-- The half of 31 bits. -/
def Half.ofWord (w : Nat) : Half :=
  ⟨.ofCode (w / 2 ^ 25 % 64), .ofCode (w / 2 ^ 21 % 16), w / 2 ^ 14 % 128, w / 2 ^ 7 % 128, w % 128⟩

/-- The word of an instruction (R22); none for an event. -/
def encode : Instr → Option Nat
  | .pairWord h0 h1 st => some (2 ^ 63 + h0.word * 2 ^ 32 + h1.word * 2 + st.toNat)
  | i => (fieldsOf i).map Fields.word

/-- The instruction a word would be if its fields are accepted. -/
def candidate (w : Nat) : Option Instr :=
  if w / 2 ^ 63 % 2 = 1 then some (.pairWord (.ofWord (w / 2 ^ 32)) (.ofWord (w / 2)) (w % 2 == 1))
  else ofFields (.ofWord w)

/-- Decoding of one word (R39, R40). -/
def decode (w : Word) : Except Reject Instr :=
  match candidate w.toNat with
  | none => .error .opcode
  | some i =>
    match (checks i).find? (fun p => !p.1) with
    | some (_, what) => .error (.field what)
    | none => if encode i = some w.toNat then .ok i else .error .encoding

/-- The word of eight bytes, the first the least significant (R1). -/
def wordOfBytes (l : List Byte) : Word := BitVec.ofNat 64 (l.foldr (fun b n => b.toNat + 256 * n) 0)

/-- Decoding of bytes as they stand in memory (R21): eight bytes and the rest. -/
def decodeBytes (l : List Byte) : Except Reject (Instr × List Byte) :=
  if l.length < 8 then .error .short
  else match decode (wordOfBytes (l.take 8)) with
    | .ok i => .ok (i, l.drop 8)
    | .error r => .error r

/-- The decoder's reading of a word given by its bits; every instruction is one 64-bit word (R21). -/
def decodeTableWord (_nbits w : Nat) : Option Instr :=
  match decode (BitVec.ofNat 64 w) with
  | .ok i => some i
  | .error _ => none

end Sys2Proof
end

