-- ==== Sys2Proof/Machine/Flags.lean ====
section
/-! DEFINITION. The sticky flags of a wave (spec/11 R200 Table 11-3; spec/19 R304): how a word's events reach FSTAT and how
software clears them, and the flags of a register computed element by element. -/
namespace Sys2Proof.Machine

/-- The OR of the events of live elements (R200). -/
def orFlags (l : List Flags) : Flags := l.foldl (fun a b => a ||| b) 0

/-- FSTAT after events (R200). -/
def Wave.setFlags (w : Wave) (f : Flags) : Wave := { w with fstat := w.fstat ||| f }

/-- Sticky bits that hardware sets outside a word, at a cycle: an MTS of the same cycle leaves them set (R153). -/
def Wave.hwSticky (w : Wave) (now : Nat) (f m : BitVec 8) : Wave :=
  if f = 0 ∧ m = 0 then w
  else { w with
    fstat := w.fstat ||| f, mstat := w.mstat ||| m, hwAt := now, hwF := if w.hwAt = now then w.hwF ||| f else f,
    hwM := if w.hwAt = now then w.hwM ||| m else m }

/-- A write of an RWS register clears each bit that is 0 in the source (R153). -/
def rwsWrite (old : BitVec 8) (src : Word) : BitVec 8 := old &&& src.setWidth 8

/-- A register of `n` elements of a type, with the events of all of them. -/
structure VRes where
  val : Word
  fl : Flags
  deriving DecidableEq, Repr

/-- Every element of a type computed by its index. -/
def vres (t : Ty) (f : Nat → Res) : VRes :=
  let l := (List.range t.count).map f
  ⟨pack t.bits (l.map Res.bits), orFlags (l.map Res.flags)⟩

/-- A float element function of one register (R205). -/
def fvec1 (t : Ty) (f : Nat → Nat → Res) (a : Word) : VRes := vres t (fun i => f i (elemBits a t.bits i))

/-- Of two registers. -/
def fvec2 (t : Ty) (f : Nat → Nat → Nat → Res) (a b : Word) : VRes :=
  vres t (fun i => f i (elemBits a t.bits i) (elemBits b t.bits i))

/-- Of three registers. -/
def fvec3 (t : Ty) (f : Nat → Nat → Nat → Nat → Res) (a b c : Word) : VRes :=
  vres t (fun i => f i (elemBits a t.bits i) (elemBits b t.bits i) (elemBits c t.bits i))

/-- A conversion between types of different counts (R212): elements past the lesser count are zero and not live. -/
def fconv (td ts : Ty) (f : Nat → Nat → Res) (a : Word) : VRes :=
  vres td (fun i => if i < min td.count ts.count then f i (elemBits a ts.bits i) else ⟨0, 0⟩)

end Sys2Proof.Machine
end

