-- ==== Sys2Proof/Machine/Integer.lean ====
section
/-! DEFINITION. What the vector integer and scalar instructions compute on register values (spec/10 R175 to R186), as
functions of the values alone. -/
namespace Sys2Proof.Machine

/-- `Ty.lo` and `Ty.hi` applied as SAT asks (R175). -/
def narrow (t : Ty) (sat' : Bool) (x : Int) : Nat := wrap (if sat' then sat x t.lo t.hi else x) t.bits

/-- The common shape of Table 10-2: one exact function of the two elements. -/
def int2 (t : Ty) (s : Bool) (f : Int → Int → Int) (a b : Word) : Word :=
  build t (fun i => narrow t s (f (elemInt a t i) (elemInt b t i)))

/-- The same with three operands. -/
def int3 (t : Ty) (s : Bool) (f : Int → Int → Int → Int) (a b c : Word) : Word :=
  build t (fun i => narrow t s (f (elemInt a t i) (elemInt b t i) (elemInt c t i)))

/-- The same with one operand. -/
def int1 (t : Ty) (s : Bool) (f : Int → Int) (a : Word) : Word :=
  build t (fun i => narrow t s (f (elemInt a t i)))

/-- A function of the bits of one element. -/
def bits1 (t : Ty) (f : Nat → Nat) (a : Word) : Word := build t (fun i => f (elemBits a t.bits i))

/-- The shift count of element `i` (R179). -/
def shiftCount (t : Ty) (uni : Bool) (b : Word) (i : Nat) : Nat :=
  elemBits b t.bits (if uni then 0 else i) % t.bits

/-- SHL, SHR, SAR and ROT: `f` takes the element's bits and the count (R179). -/
def shiftWith (t : Ty) (uni : Bool) (f : Nat → Nat → Nat) (a b : Word) : Word :=
  build t (fun i => f (elemBits a t.bits i) (shiftCount t uni b i) % 2 ^ t.bits)

/-- R179, SHL. -/
def shlBits (_n : Nat) (a k : Nat) : Nat := a * 2 ^ k

/-- R179, SHR. -/
def shrBits (_n : Nat) (a k : Nat) : Nat := a / 2 ^ k

/-- R179, SAR. -/
def sarBits (n : Nat) (a k : Nat) : Nat := wrap (sext a n / 2 ^ k) n

/-- R179, ROT. -/
def rotBits (n : Nat) (a k : Nat) : Nat := a * 2 ^ k + a / 2 ^ (n - k)

/-- R178, MOVK and SMOVK. -/
def movkVal (v : Word) (imm h : Nat) : Word :=
  pack 16 ((List.range 4).map (fun i => if i = h then imm else elemBits v 16 i))

/-- The position and length that BFX and BFI take from bv (R180). -/
def fieldOf (bv : Word) : Nat × Nat :=
  let pos := bits bv.toNat 5 0
  (pos, min (bits bv.toNat 14 8) (64 - pos))

/-- R180, BFX. -/
def bfxVal (t : Ty) (a bv : Word) : Word :=
  let p := fieldOf bv
  let f := a.toNat / 2 ^ p.1 % 2 ^ p.2
  if t.signed then BitVec.ofInt 64 (sext f p.2) else BitVec.ofNat 64 f

/-- R180, BFI. -/
def bfiVal (a bv c : Word) : Word :=
  let p := fieldOf bv
  let lowC := c.toNat % 2 ^ p.1
  let highC := c.toNat / 2 ^ (p.1 + p.2)
  BitVec.ofNat 64 (lowC + 2 ^ p.1 * (a.toNat % 2 ^ p.2) + 2 ^ (p.1 + p.2) * highC)

/-- R182, LEA. -/
def leaVal (t : Ty) (sh : Nat) (a bv : Word) : Word :=
  let idx : Int := match t with
    | .s32x2 => sext (bits bv.toNat 31 0) 32
    | .z32x2 => bits bv.toNat 31 0
    | _ => bv.toNat
  BitVec.ofInt 64 (a.toNat + idx * 2 ^ sh)

/-- Table 2-5 on two integers; NUM and NAN are refused by decode. -/
def compareInt (k : Cmp) (a b : Int) : Bool :=
  match k with
  | .eq => a == b | .ne => a != b | .lt => a < b | .le => a ≤ b | .gt => b < a | .ge => b ≤ a | .num | .nan => false

/-- R183: the comparisons of a lane's elements as one predicate. -/
def combine (any : Bool) (l : List Bool) : Bool := if any then l.any id else l.all id

/-- R183, ISETP. -/
def isetpVal (t : Ty) (k : Cmp) (any : Bool) (a b : Word) : Bool :=
  combine any ((List.range t.count).map (fun i => compareInt k (elemInt a t i) (elemInt b t i)))

/-- R185, IDOT. -/
def idotVal (ta tb : Ty) (s : Bool) (a b c : Word) : Word :=
  let g := if ta.bits = 8 then 4 else 8
  build .s32x2 (fun h =>
    narrow .s32x2 s
      (((List.range g).map (fun j => elemInt a ta (g * h + j) * elemInt b tb (g * h + j))).sum + elemInt c .s32x2 h))

/-- R184, PLOP. -/
def plopVal (lut : Nat) (a b : Bool) : Bool := lut.testBit (a.toNat + 2 * b.toNat)

/-- A scalar read as Table 10-3's U asks. -/
def scalarInt (u : Bool) (a : Word) : Int := if u then (a.toNat : Int) else a.toInt

/-- R187: the lane of a lane-element address. -/
def leaLane (a : Nat) : Nat := bits a 8 4

/-- R187: the element of a lane-element address, for a type of `n` elements. -/
def leaElem (a n : Nat) : Nat := bits a 3 0 % n

/-- R189: the source lane of LSHF, if it is one. -/
def lshfSource (k : Shf) (lane n : Nat) : Option Nat :=
  match k with
  | .dn => if lane + n < 32 then some (lane + n) else none
  | .up => if n ≤ lane then some (lane - n) else none
  | .bfly => some ((lane ^^^ n) % 32)
  | .wrap => some ((lane + n) % 32)

/-- R190: 16-bit slot `i` of LPERM's address block. -/
def permSlot (block : List Word) (i : Nat) : Nat := bits (elemBits (block.getD (i / 4) 0) 16 (i % 4)) 8 0

/-- R191 on integer elements, as bits. -/
def redInt (t : Ty) (op : RedOp) (a b : Nat) : Nat :=
  let v := fun x => if t.signed then sext x t.bits else (x : Int)
  match op with
  | .add => (a + b) % 2 ^ t.bits
  | .min => if v b < v a then b else a
  | .max => if v a < v b then b else a
  | .and => a &&& b
  | .or => a ||| b
  | .xor => a ^^^ b

/-- R191: the identity of an integer reduction. -/
def redIntId (t : Ty) (op : RedOp) : Nat :=
  match op with
  | .add | .or | .xor => 0
  | .min => wrap t.hi t.bits
  | .max => wrap t.lo t.bits
  | .and => 2 ^ t.bits - 1

/-- One level of the reduction tree (R191): neighbours are combined, the lower lanes on the left. -/
def treeLevel {α : Type} (f : α → α → α) : List (Option α) → List (Option α)
  | x :: y :: l =>
    (match x, y with
     | some a, some b => some (f a b)
     | some a, none => some a
     | none, y => y) :: treeLevel f l
  | l => l

/-- R191: the fixed tree over 32 leaves, five levels. -/
def treeOf {α : Type} (f : α → α → α) (leaves : List (Option α)) : Option α :=
  (treeLevel f (treeLevel f (treeLevel f (treeLevel f (treeLevel f leaves))))).head?.join

end Sys2Proof.Machine
end

