-- ==== Sys2Proof/Machine/Philox.lean ====
section
/-! DEFINITION. The generator Philox-4x32-10 and the draws of a rounding word (spec/11 R198, R199; spec/12 R218). -/
namespace Sys2Proof.Machine

/-- The four counter words. -/
structure PhiloxBlock where
  c0 : Nat
  c1 : Nat
  c2 : Nat
  c3 : Nat
  deriving DecidableEq, Repr

/-- One round (R198). -/
def philoxRound (b : PhiloxBlock) (k0 k1 : Nat) : PhiloxBlock :=
  let p := b.c0 * 0xD2511F53
  let q := b.c2 * 0xCD9E8D57
  ⟨((q / 2 ^ 32) ^^^ b.c1 ^^^ k0) % 2 ^ 32, q % 2 ^ 32, ((p / 2 ^ 32) ^^^ b.c3 ^^^ k1) % 2 ^ 32, p % 2 ^ 32⟩

/-- `n` rounds with the key schedule (R198). -/
def philoxRounds : Nat → PhiloxBlock → Nat → Nat → PhiloxBlock
  | 0, b, _, _ => b
  | n + 1, b, k0, k1 =>
    philoxRounds n (philoxRound b k0 k1) ((k0 + 0x9E3779B9) % 2 ^ 32) ((k1 + 0xBB67AE85) % 2 ^ 32)

/-- R198. -/
def philox (b : PhiloxBlock) (k0 k1 : Nat) : PhiloxBlock := philoxRounds 10 b k0 k1

/-- The block of a lane (R199): n is RNGCTR, j the block index. -/
def rngBlock (lid wid n lane j : Nat) : PhiloxBlock := philox ⟨lane, n % 2 ^ 32, n / 2 ^ 32, j⟩ lid wid

/-- Output word `k` of a block. -/
def PhiloxBlock.word (b : PhiloxBlock) (k : Nat) : Nat :=
  if k = 0 then b.c0 else if k = 1 then b.c1 else if k = 2 then b.c2 else b.c3

/-- The 16-bit draw u[i] (R199). -/
def draw16 (lid wid n lane i : Nat) : Nat :=
  let w := (rngBlock lid wid n lane (i / 8)).word (i % 8 / 2)
  if i % 2 = 0 then bits w 15 0 else bits w 31 16

/-- R218, RAND. -/
def rand64 (lid wid n lane : Nat) : Word :=
  let b := rngBlock lid wid n lane 0
  BitVec.ofNat 64 (b.c0 + 2 ^ 32 * b.c1)

end Sys2Proof.Machine
end

