-- ==== Sys2Proof/Machine/Operands.lean ====
section
/-! DEFINITION. Operand forms (spec/02 R24 to R26, R32, R37; spec/09 R157): registers a form names, broadcast operands,
register spans, bank conflicts, and the values of the words and halves a recipe may hold (Table 9-2). -/
namespace Sys2Proof.Machine

/-- The vector registers an operand names. -/
def vsV : VS → List Nat
  | .v r => [r]
  | .s _ => []

/-- The scalar registers an operand names. -/
def vsS : VS → List Nat
  | .v _ => []
  | .s r => [r]

/-- An operand's value: a vector register's, or the scalar's broadcast (R26). -/
def vsVal (v sc : Nat → Word) : VS → Word
  | .v r => v r
  | .s r => sc r

/-- The registers of an operand of kind V2 or V4. -/
def span (r n : Nat) : List Nat := (List.range n).map (fun k => r + k)

/-- The extra issue cycles of a word that reads registers (R157): over its most crowded bank. -/
def bankExtra (l : List Nat) : Nat :=
  let count := fun (b : Nat) => (l.dedup.filter (fun r => r % 4 == b)).length
  max (max (count 0) (count 1)) (max (count 2) (count 3)) - 1

/-! ### Values of the vector integer words (Table 10-2) -/

/-- MOVI (R178). -/
def moviVal (imm : Int) : Word := BitVec.ofInt 64 imm
/-- IADDI (R178). -/
def iaddiVal (a : Word) (imm : Int) : Word := a + BitVec.ofInt 64 imm
/-- IADD. -/
def iaddVal (t : Ty) (s : Bool) (a b : Word) : Word := int2 t s (fun x y => x + y) a b
/-- ISUB. -/
def isubVal (t : Ty) (s : Bool) (a b : Word) : Word := int2 t s (fun x y => x - y) a b
/-- IMUL. -/
def imulVal (t : Ty) (s : Bool) (a b : Word) : Word := int2 t s (fun x y => x * y) a b
/-- IMULH: the quotient is a floor. -/
def imulhVal (t : Ty) (a b : Word) : Word := int2 t false (fun x y => x * y / 2 ^ t.bits) a b
/-- IMAD. -/
def imadVal (t : Ty) (s : Bool) (a b c : Word) : Word := int3 t s (fun x y z => x * y + z) a b c
/-- IMIN. -/
def iminVal (t : Ty) (a b : Word) : Word := int2 t false min a b
/-- IMAX. -/
def imaxVal (t : Ty) (a b : Word) : Word := int2 t false max a b
/-- IABS. -/
def iabsVal (t : Ty) (s : Bool) (a : Word) : Word := int1 t s (fun x => |x|) a
/-- INEG. -/
def inegVal (t : Ty) (s : Bool) (a : Word) : Word := int1 t s (fun x => -x) a
/-- SHL (R179). -/
def shlVal (t : Ty) (u : Bool) (a b : Word) : Word := shiftWith t u (shlBits t.bits) a b
/-- SHR (R179). -/
def shrVal (t : Ty) (u : Bool) (a b : Word) : Word := shiftWith t u (shrBits t.bits) a b
/-- SAR (R179). -/
def sarVal (t : Ty) (u : Bool) (a b : Word) : Word := shiftWith t u (sarBits t.bits) a b
/-- ROT (R179). -/
def rotVal (t : Ty) (u : Bool) (a b : Word) : Word := shiftWith t u (rotBits t.bits) a b
/-- POPC (R181). -/
def popcVal (t : Ty) (a : Word) : Word := bits1 t (popCount t.bits) a
/-- CLZ (R181). -/
def clzVal (t : Ty) (a : Word) : Word := bits1 t (leadZeros t.bits) a
/-- BREV (R181). -/
def brevVal (t : Ty) (a : Word) : Word := bits1 t (revBits t.bits) a

/-! ### Values of the float words (R207) -/

/-- FADD. -/
def faddVal (t : Ty) (r : Rnd) (u : Nat → Nat) (a b : Word) : VRes := fvec2 t (fun i => faddElem (fmtOf t) r (u i)) a b
/-- FSUB. -/
def fsubVal (t : Ty) (r : Rnd) (u : Nat → Nat) (a b : Word) : VRes := fvec2 t (fun i => fsubElem (fmtOf t) r (u i)) a b
/-- FMUL. -/
def fmulVal (t : Ty) (r : Rnd) (u : Nat → Nat) (a b : Word) : VRes := fvec2 t (fun i => fmulElem (fmtOf t) r (u i)) a b
/-- FFMA. -/
def ffmaVal (t : Ty) (r : Rnd) (u : Nat → Nat) (a b c : Word) : VRes := fvec3 t (fun i => ffmaElem (fmtOf t) r (u i)) a b c
/-- FMIN (R208). -/
def fminVal (t : Ty) (a b : Word) : Word := build t (fun i => fminElem (fmtOf t) (elemBits a t.bits i) (elemBits b t.bits i))
/-- FMAX (R208). -/
def fmaxVal (t : Ty) (a b : Word) : Word := build t (fun i => fmaxElem (fmtOf t) (elemBits a t.bits i) (elemBits b t.bits i))

/-! ### Halves of a pair (Table 2-11) -/

/-- `sext(imm7, 7)` of a half. -/
def halfImm (h : Half) : Int := sext h.x 7

/-- The registers a half reads, all of one kind (R36); FFMA reads its D (R38). -/
def halfReads (h : Half) : List Nat :=
  if h.op = .nop then [] else
  [h.s] ++ (if h.op.xReg then [h.x] else []) ++ (if h.op = .ffma then [h.d] else [])

/-- The registers a half writes. -/
def halfWrites (h : Half) : List Nat := if h.op = .nop then [] else [h.d]

/-- What a half computes from its S, X and D registers (R37). -/
def halfVal (h : Half) (s x d : Word) : VRes :=
  let sh := BitVec.ofNat 64 (h.x * (2 ^ 32 + 1))
  let z := fun (_ : Nat) => 0
  match h.op with
  | .nop => ⟨0, 0⟩
  | .mov | .smov => ⟨s, 0⟩
  | .iadd => ⟨iaddVal .s32x2 false s x, 0⟩
  | .isub => ⟨isubVal .s32x2 false s x, 0⟩
  | .and => ⟨s &&& x, 0⟩
  | .or => ⟨s ||| x, 0⟩
  | .xor => ⟨s ^^^ x, 0⟩
  | .shl => ⟨shlVal .s32x2 false s x, 0⟩
  | .shr => ⟨shrVal .s32x2 false s x, 0⟩
  | .sar => ⟨sarVal .s32x2 false s x, 0⟩
  | .imin => ⟨iminVal .s32x2 s x, 0⟩
  | .imax => ⟨imaxVal .s32x2 s x, 0⟩
  | .iaddi => ⟨int1 .s32x2 false (fun a => a + halfImm h) s, 0⟩
  | .shli => ⟨shlVal .s32x2 false s sh, 0⟩
  | .shri => ⟨shrVal .s32x2 false s sh, 0⟩
  | .andi => ⟨bits1 .s32x2 (fun a => a &&& wrap (halfImm h) 32) s, 0⟩
  | .fadd => faddVal .f32x2 .rne z s x
  | .fmul => fmulVal .f32x2 .rne z s x
  | .ffma => ffmaVal .f32x2 .rne z s x d
  | .fmax => ⟨fmaxVal .f32x2 s x, 0⟩
  | .fmin => ⟨fminVal .f32x2 s x, 0⟩
  | .sadd => ⟨s + x, 0⟩
  | .saddi => ⟨s + BitVec.ofInt 64 (halfImm h), 0⟩

/-- The latency of a half's class (Table 8-1). -/
def halfLat (h : Half) : Nat :=
  match h.op with
  | .fadd | .fmul | .ffma | .fmax | .fmin => 5
  | .smov | .sadd | .saddi => 3
  | _ => 4

end Sys2Proof.Machine
end

