-- ==== Sys2Proof/Machine/WordReads.lean ====
section
/-! DEFINITION. Words read at a tenant's addresses by its waves and by the device (spec/13 R221, spec/06 R115), and the sections of
a code object (spec/03 R51, R52; spec/05 R89). -/
namespace Sys2Proof.Machine

/-! ### Reading words at virtual addresses -/

/-- What a read of words meets: a fault of R221, a refusal at the home slice (R115, R341), or the words. -/
inductive Words where
  | fault (cause : Nat) (addr : Word)
  | refused (cause : Nat) (addr : Word)
  | ok (l : List Word)

/-- One aligned word through a translation entry, read under a key slot (R375); `out` says that a link port lets the access leave (R259, R392). -/
def State.readWordAt (s : State) (tenant : Nat) (slot : Option Nat) (out : Bool) (e : Tlb) (va : Nat) : Words :=
  match e.loc va with
  | .mem ma =>
    if (s.frame (mfnOf ma)).owner ≠ tenant then .refused cOWNER (BitVec.ofNat 64 va)
    else
      let k := if isProt e.attr then slot else none
      if k.any (fun k => !s.macOk k ma) then .refused cINTEG (BitVec.ofNat 64 va)
      else .ok [BitVec.ofNat 64 (natOfBytes (s.homeBytes k ma 8))]
  | .remote _ ma =>
    if out then .ok [BitVec.ofNat 64 (natOfBytes (s.freeBytes ma 8))] else .refused cLINK (BitVec.ofNat 64 va)
  | .pad _ _ => .refused cOWNER (BitVec.ofNat 64 va)

/-- Consecutive words, each read by `f`; the first that fails decides. -/
def readWordsBy (f : Nat → Words) : Nat → Nat → Words
  | 0, _ => .ok []
  | n + 1, va =>
    match f va with
    | .ok l => match readWordsBy f n (va + 8) with
      | .ok m => .ok (l ++ m)
      | r => r
    | r => r

/-- `n` words that a wave reads as a load does (R221). -/
def State.readWords (s : State) (w : Wave) (va : Word) (n : Nat) : Words :=
  readWordsBy (fun a => match s.checkVa w (BitVec.ofNat 64 a) 8 aRD with
    | .error e => .fault e.1 e.2
    | .ok e => s.readWordAt w.tenant (s.launch w.launch).slotHeld (s.port? w.tenant w.die).isSome e a) n va.toNat

/-- A word the device reads for a tenant through its translation entries; the width need not be aligned. -/
def State.tenantEntry (s : State) (t va need : Nat) : Option Tlb :=
  ((s.tenant t).inArrays va).filter (fun e => e.attr &&& need == need &&
    (match e.loc va with
      | .mem ma => (s.frame (mfnOf ma)).owner == t
      | .remote _ _ => true
      | .pad _ _ => false))

/-- `n` words that the device reads for a tenant; none where some is not mapped, owned and readable, or its page's check fails (log 54). -/
def State.tenantWords (s : State) (t : Nat) (slot : Option Nat) (va n : Nat) : Option (List Word) :=
  match readWordsBy (fun a => match s.tenantEntry t a aRD with
      | none => .fault cTMISS (BitVec.ofNat 64 a)
      | some e => s.readWordAt t slot (s.holdsLane t) e a) n va with
  | .ok l => some l
  | _ => none

/-! ### Sections of a code object (R51) -/

/-- The loaded address and size of a section of a kind. -/
def State.sectionOf (s : State) (t : Nat) (slot : Option Nat) (codeobj kind : Nat) : Option (Nat × Nat) :=
  match s.tenantWords t slot codeobj 2 with
  | some [m, off] =>
    let n := min 16 (bits m.toNat 63 48)
    match s.tenantWords t slot (codeobj + off.toNat) (4 * n) with
    | some table =>
      ((List.range n).find? (fun i => bits (table.getD (4 * i) 0).toNat 7 0 == kind)).map
        (fun i => (codeobj + (table.getD (4 * i + 1) 0).toNat, (table.getD (4 * i + 2) 0).toNat))
    | none => none
  | _ => none

/-- Where a pure launch's code object ends (R89): behind its header and its last loaded section, of kinds 1 to 6 (Table 3-4). None
where no header can be read. -/
def State.codeEnd (s : State) (l : Launch) : Option Nat :=
  match s.tenantWords l.tenant l.slotHeld l.codeobj 2 with
  | some [m, off] =>
    some ((List.range (min 16 (bits m.toNat 63 48))).foldl (fun hi i =>
      match s.tenantWords l.tenant l.slotHeld (l.codeobj + off.toNat + 32 * i) 3 with
      | some [k, o, n] => if 1 ≤ bits k.toNat 7 0 ∧ bits k.toNat 7 0 ≤ 6 then max hi (l.codeobj + o.toNat + n.toNat) else hi
      | _ => hi) (l.codeobj + 64))
  | _ => none

/-- A pure launch fetches outside its code object (R89, R102). -/
def State.strayFetch (s : State) (l : Launch) (pc : CodeAddr) : Bool :=
  l.pure && (match s.codeEnd l with
    | some hi => decide (pc.toNat < l.codeobj ∨ hi < pc.toNat + 8)
    | none => false)

end Sys2Proof.Machine
end

