-- ==== Sys2Proof/Machine/Recipes.lean ====
section
/-! DEFINITION. Recompute recipes (spec/09 R163 to R172): what a body may hold, its read set, what a read of a pending register gives
(R159), replay, dropped granules and their storage. -/
namespace Sys2Proof.Machine

/-- R235: the checks of an LDK; the entry that maps KCBASE + a, and that address. -/
def State.checkLdk (s : State) (w : Wave) (a : Word) (off : Int) (wd : Nat) : Except (Nat × Word) (Tlb × Word) :=
  let l := s.launch w.launch
  let o := vaOf a off wd
  let va := BitVec.ofNat 64 (l.kcbase + o.toNat)
  if l.kcsize * 4096 < o.toNat + wd then .error (cRANGE, va)
  else if o.toNat % wd ≠ 0 then .error (cALIGN, va)
  else match s.checkVa w va wd aRD with
    | .error e => .error e
    | .ok e => .ok (e, va)

/-- Registers a body word reads and writes; none outside Table 9-2. -/
structure BodyUse where
  dst : List Nat
  vr : List Nat
  sr : List Nat
  deriving DecidableEq, Repr

/-- The word's fields that every body word must have (R164): guards 0b0000 and HOLD 00. -/
def bodyCtl (c : Ctl) : Bool := c.ga == Guard.always && c.gb == Guard.always && c.hold == .none

/-- Table 9-2, by word. -/
def bodyUse : Instr → Option BodyUse
  | .mov c d a | .not c d a | .iaddi c d a _ => if bodyCtl c then some ⟨[d], [a], []⟩ else none
  | .movi c d _ => if bodyCtl c then some ⟨[d], [], []⟩ else none
  | .movk c d _ _ => if bodyCtl c then some ⟨[d], [d], []⟩ else none
  | .iadd c d a b _ _ | .isub c d a b _ _ | .imul c d a b _ _ | .shl c d a b _ _ | .shr c d a b _ _ | .sar c d a b _ _
  | .rot c d a b _ _ | .lea c d a b _ _ => if bodyCtl c then some ⟨[d], a :: vsV b, vsS b⟩ else none
  | .imulh c d a b _ | .imin c d a b _ | .imax c d a b _ | .bfx c d a b _ =>
    if bodyCtl c then some ⟨[d], a :: vsV b, vsS b⟩ else none
  | .and c d a b | .or c d a b | .xor c d a b => if bodyCtl c then some ⟨[d], a :: vsV b, vsS b⟩ else none
  | .imad c d a b e _ _ | .bfi c d a b e => if bodyCtl c then some ⟨[d], a :: e :: vsV b, vsS b⟩ else none
  | .iabs c d a _ _ | .ineg c d a _ _ | .popc c d a _ | .clz c d a _ | .brev c d a _ =>
    if bodyCtl c then some ⟨[d], [a], []⟩ else none
  | .fadd c d a b t r | .fsub c d a b t r | .fmul c d a b t r =>
    if bodyCtl c && (t == .f64 || t == .f32x2) && r != .sr then some ⟨[d], a :: vsV b, vsS b⟩ else none
  | .ffma c d a b e t r =>
    if bodyCtl c && (t == .f64 || t == .f32x2) && r != .sr then some ⟨[d], a :: e :: vsV b, vsS b⟩ else none
  | .ldk c d a _ w _ => if bodyCtl c && decide (w.code ≤ 3) then some ⟨[d], [a], []⟩ else none
  | .mfs c (.v d) n => if bodyCtl c && (n == .laneid || n == .waveid || n == .corepl || n == .diepl) then some ⟨[d], [], []⟩ else none
  | .pairWord h0 h1 _ =>
    if h0.g == Guard.always && h1.g == Guard.always && decide (h0.op.code ≤ 18) && decide (h1.op.code ≤ 18) then
      some ⟨halfWrites h0 ++ halfWrites h1, halfReads h0 ++ halfReads h1, []⟩
    else none
  | _ => none

/-- The body of a record (R55): the header's count of words, the rest zero. -/
def bodyWords (record : List Word) : Option (List Word) :=
  let n := (record.headD 0).toNat
  if n = 0 ∨ 4 < n ∨ (record.drop (n + 1)).any (fun x => x != 0) then none else some ((record.drop 1).take n)

/-- A body's words as instructions. -/
def bodyInstrs (body : List Word) : List (Option Instr) :=
  body.map (fun x => match decode x with
    | .ok i => some i
    | .error _ => none)

/-- A full word of a body, and no pair. -/
def isPair : Option Instr → Bool
  | some (.pairWord _ _ _) => true
  | _ => false

/-- The registers read before any body word writes them (R163): vector, then scalar. -/
def readSet : List (Option Instr) → List Nat → List Nat × List Nat
  | [], _ => ([], [])
  | i :: l, written =>
    match i.bind bodyUse with
    | none => readSet l written
    | some u =>
      let r := readSet l (written ++ u.dst)
      (u.vr.filter (fun x => !written.contains x) ++ r.1, u.sr ++ r.2)

/-- R164: the body may be defined for a launch with base block `b`. -/
def bodyOk (body : List Word) (b : Nat) : Bool :=
  let is := bodyInstrs body
  is.all (fun i => (i.bind bodyUse).isSome) && !isPair (is.getLastD none) &&
    (readSet is []).1.all (fun r => decide (r < 8 * b))

/-! ### Reading a register whose newest write is not ready (R159) -/

/-- A pending result is ready (R139): at its cycle; that of an outstanding operation by a WAIT, which takes its mark away (R236, log 53). -/
def Pend.ready (s : State) (p : Pend) : Bool :=
  match p.due with
  | .at c => decide (c ≤ s.ctl.cycle)
  | .op _ => false

/-- One bit of a free value for each element of `n` bits, spread over the element. -/
def elemMask (n : Nat) (m : Word) : Word := BitVec.ofNat 64 (digits n ((List.range (64 / n)).map (fun e => if m.getLsbD e then 2 ^ n - 1 else 0)))

/-- Each element of `n` bits from one of two values, as a free value says (R159, log 8). -/
def mix (n : Nat) (m old new : Word) : Word := (old &&& elemMask n m) ||| (new &&& ~~~(elemMask n m))

/-- The key of a free value for a register. -/
def Pend.freeKey (p : Pend) (lane : Nat) : Nat :=
  (match p.kind with
    | .vec => 0 | .scal => 1 | .lpred => 2 | .spred => 3) * 2 ^ 13 + p.idx * 32 + lane

/-- The value before a pending write, in a lane. -/
def Pend.was (p : Pend) (lane : Nat) (cur : Word) : Word :=
  match p.old.find? (fun x => x.1 == lane) with
  | some x => x.2
  | none => cur

/-- What a read gives of a value `cur` whose newest write is pending: old or new. Of an outstanding operation a lane's new value is not
known until it has landed. -/
def Pend.seen (s : State) (w : Wave) (p : Pend) (n lane : Nat) (cur : Word) : Word :=
  let k := p.freeKey lane
  let landed := mix n (s.free k) (p.was lane cur) cur
  match p.due with
  | .at _ => landed
  | .op id => match w.op? id with
    | none => landed
    | some o => match o.brought (p.idx - o.reg) lane with
      | none => cur
      | some true => landed
      | some false => mix n (s.free k) cur (s.free (k + 2 ^ 15))

/-- The wave with one pending register as a read by elements of `n` bits finds it; a lane's predicate is one element. -/
def Wave.seePend (s : State) (n : Nat) (w : Wave) (p : Pend) : Wave :=
  match p.kind with
  | .vec => (List.range 32).foldl (fun v i => v.setVreg p.idx i (p.seen s w n i (w.vreg p.idx i))) w
  | .scal => w.setSreg p.idx (p.seen s w n 0 (w.sreg p.idx))
  | .lpred => { w with preds := cellSet 0 w.preds p.idx ((p.seen s w 1 0 ((cellGet 0 w.preds p.idx).setWidth 64)).setWidth 32) }
  | .spred => w.setQpred p.idx ((p.seen s w 1 0 (if w.qpred p.idx then 1 else 0)).getLsbD 0)

/-- The width of the elements by which a body word reads its registers. -/
def bodyBits : Instr → Nat
  | .iadd _ _ _ _ t _ | .isub _ _ _ _ t _ | .imul _ _ _ _ t _ | .imulh _ _ _ _ t | .imad _ _ _ _ _ t _ | .imin _ _ _ _ t
  | .imax _ _ _ _ t | .iabs _ _ _ t _ | .ineg _ _ _ t _ | .shl _ _ _ _ t _ | .shr _ _ _ _ t _ | .sar _ _ _ _ t _
  | .rot _ _ _ _ t _ | .bfx _ _ _ _ t | .popc _ _ _ t | .clz _ _ _ t | .brev _ _ _ t | .lea _ _ _ _ t _ | .fadd _ _ _ _ t _
  | .fsub _ _ _ _ t _ | .fmul _ _ _ _ t _ | .ffma _ _ _ _ _ t _ => t.bits
  | .pairWord _ _ _ => 32
  | _ => 64

/-- The width of the elements by which a body reads a register: the greatest, where its words differ (log 8). -/
def readBits (body : List (Option Instr)) (k : PKind) (r : Nat) : Nat :=
  (body.map (fun i => match i.bind bodyUse, i with
    | some u, some j => if (k == .vec && u.vr.contains r) || (k == .scal && u.sr.contains r) then bodyBits j else 0
    | _, _ => 0)).foldl max 1

/-- The wave as a body reads it: a register of its read set whose newest write is pending may be old or new (R159). -/
def State.seeBody (s : State) (w : Wave) (body : List (Option Instr)) : Wave :=
  let r := readSet body []
  (w.pend.filter (fun p => !p.ready s && ((p.kind == .vec && r.1.contains p.idx) || (p.kind == .scal && r.2.contains p.idx)))).foldl
    (fun v p => v.seePend s (readBits body p.kind p.idx) p) w

/-- The value of a word's registers in replay: temporaries first. -/
abbrev Temps := List (Nat × Word)

/-- A special of R164. -/
def stableSpec (w : Wave) (lane : Nat) : Spec → Word
  | .laneid => BitVec.ofNat 64 lane
  | .waveid => BitVec.ofNat 64 w.wid
  | .corepl => BitVec.ofNat 64 w.corepl
  | .diepl => BitVec.ofNat 64 w.diepl
  | _ => 0

/-- What a body word computes in a lane; none when an LDK would fault (R169) or be refused (log 27). -/
def bodyEval (s : State) (w : Wave) (lane : Nat) (v sc : Nat → Word) : Instr → Option Temps
  | .mov _ d a => some [(d, v a)]
  | .not _ d a => some [(d, ~~~(v a))]
  | .iaddi _ d a imm => some [(d, iaddiVal (v a) imm)]
  | .movi _ d imm => some [(d, moviVal imm)]
  | .movk _ d imm h => some [(d, movkVal (v d) imm h)]
  | .iadd _ d a b t x => some [(d, iaddVal t x (v a) (vsVal v sc b))]
  | .isub _ d a b t x => some [(d, isubVal t x (v a) (vsVal v sc b))]
  | .imul _ d a b t x => some [(d, imulVal t x (v a) (vsVal v sc b))]
  | .imulh _ d a b t => some [(d, imulhVal t (v a) (vsVal v sc b))]
  | .imad _ d a b e t x => some [(d, imadVal t x (v a) (vsVal v sc b) (v e))]
  | .imin _ d a b t => some [(d, iminVal t (v a) (vsVal v sc b))]
  | .imax _ d a b t => some [(d, imaxVal t (v a) (vsVal v sc b))]
  | .iabs _ d a t x => some [(d, iabsVal t x (v a))]
  | .ineg _ d a t x => some [(d, inegVal t x (v a))]
  | .and _ d a b => some [(d, v a &&& vsVal v sc b)]
  | .or _ d a b => some [(d, v a ||| vsVal v sc b)]
  | .xor _ d a b => some [(d, v a ^^^ vsVal v sc b)]
  | .shl _ d a b t u => some [(d, shlVal t u (v a) (vsVal v sc b))]
  | .shr _ d a b t u => some [(d, shrVal t u (v a) (vsVal v sc b))]
  | .sar _ d a b t u => some [(d, sarVal t u (v a) (vsVal v sc b))]
  | .rot _ d a b t u => some [(d, rotVal t u (v a) (vsVal v sc b))]
  | .bfx _ d a b t => some [(d, bfxVal t (v a) (vsVal v sc b))]
  | .bfi _ d a b e => some [(d, bfiVal (v a) (vsVal v sc b) (v e))]
  | .popc _ d a t => some [(d, popcVal t (v a))]
  | .clz _ d a t => some [(d, clzVal t (v a))]
  | .brev _ d a t => some [(d, brevVal t (v a))]
  | .lea _ d a b t sh => some [(d, leaVal t sh (v a) (vsVal v sc b))]
  | .fadd _ d a b t r => some [(d, (faddVal t r (fun _ => 0) (v a) (vsVal v sc b)).val)]
  | .fsub _ d a b t r => some [(d, (fsubVal t r (fun _ => 0) (v a) (vsVal v sc b)).val)]
  | .fmul _ d a b t r => some [(d, (fmulVal t r (fun _ => 0) (v a) (vsVal v sc b)).val)]
  | .ffma _ d a b e t r => some [(d, (ffmaVal t r (fun _ => 0) (v a) (vsVal v sc b) (v e)).val)]
  | .mfs _ (.v d) n => some [(d, stableSpec w lane n)]
  | .ldk _ d a off wd _ =>
    match s.checkLdk w (v a) off wd.bytes with
    | .error _ => none
    | .ok (e, va) => match e.loc va.toNat with
      | .mem ma =>
        let slot := s.slotFor w e.attr
        if (s.frame (mfnOf ma)).owner = w.tenant ∧ slot.all (fun k => s.macOk k ma) then
          some [(d, BitVec.ofNat 64 (natOfBytes (s.homeBytes slot ma wd.bytes)))]
        else none
      | .remote _ ma => if (s.port? w.tenant w.die).isSome then some [(d, BitVec.ofNat 64 (natOfBytes (s.freeBytes ma wd.bytes)))] else none
      | .pad _ _ => none
  | .pairWord h0 h1 _ =>
    let one := fun (h : Half) => (halfWrites h).map (fun d => (d, (halfVal h (v h.s) (v h.x) (v h.d)).val))
    some (one h0 ++ one h1)
  | _ => none

/-- A body run in a lane from some temporaries; the last word's result (R164). -/
def runBody (s : State) (w : Wave) (lane : Nat) : List (Option Instr) → Temps → Option Word
  | [], t => some ((t.head?.map Prod.snd).getD 0)
  | i :: l, t =>
    let v := fun r => match t.find? (fun x => x.1 == r) with
      | some x => x.2
      | none => w.vreg r lane
    match i.bind (bodyEval s w lane v w.sreg) with
    | none => none
    | some new => runBody s w lane l (new ++ t)

/-- The body a launch's core holds under an id. -/
def State.recipe (s : State) (w : Wave) (id : Nat) : Option (List Word) :=
  ((s.ctx w.launch w.core).recipes.find? (fun x => x.1 == id)).map Prod.snd

/-- Replay of a recipe in a lane (R169). -/
def State.replay (s : State) (w : Wave) (id lane : Nat) : Option Word :=
  match s.recipe w id with
  | none => none
  | some body => runBody s (s.seeBody w (bodyInstrs body)) lane (bodyInstrs body) []

/-- The first address at which a body's LDK in a lane reads outside a pure launch's input regions (R89). -/
def strayLdk (s : State) (w : Wave) (lane : Nat) : List (Option Instr) → Temps → Option Word
  | [], _ => none
  | i :: l, t =>
    let v := fun r => match t.find? (fun x => x.1 == r) with
      | some x => x.2
      | none => w.vreg r lane
    let stray := match i with
      | some (.ldk _ _ a off wd _) => match s.checkLdk w (v a) off wd.bytes with
        | .ok (_, va) => if (s.launch w.launch).inInputs va.toNat wd.bytes then none else some va
        | .error _ => none
      | _ => none
    if stray.isSome then stray
    else match i.bind (bodyEval s w lane v w.sreg) with
      | none => none
      | some new => strayLdk s w lane l (new ++ t)

/-- The same for a recipe. -/
def State.replayStray (s : State) (w : Wave) (id lane : Nat) : Option Word :=
  (s.recipe w id).bind (fun body => strayLdk s (s.seeBody w (bodyInstrs body)) lane (bodyInstrs body) [])

/-! ### Granules -/

/-- The extended granule of a register, none for the base block. -/
def Wave.granule (w : Wave) (r : Nat) : Option Nat := if r < 8 * w.base then none else some ((r - 8 * w.base) / 8)

/-- A register lies in a dropped granule. -/
def Wave.isDropped (w : Wave) (r : Nat) : Bool :=
  match w.granule r with
  | none => false
  | some k => w.dropped.contains k

/-- A register's tag. -/
def Wave.tag? (w : Wave) (r : Nat) : Option RTag := w.tags.find? (fun t => t.reg == r)

/-- The registers of an extended granule. -/
def Wave.granRegs (w : Wave) (k : Nat) : List Nat := (List.range 8).map (fun i => 8 * w.base + 8 * k + i)

/-- R168: every register of the granule is fully tagged or unwritten since it was granted. A granule filled again for the word that
holds the wave is kept for it (log 27). -/
def Wave.droppable (w : Wave) (k : Nat) : Bool :=
  decide (k < w.ext) && !w.dropped.contains k && !w.pinned.contains k && (w.granRegs k).all (fun r => !w.written.contains r || (match w.tag? r with
    | some t => t.full
    | none => false))

/-- Resident waves of a launch on a core. -/
def State.wavesOn (s : State) (uid core : Nat) : List Wave :=
  s.cores.waves.filter (fun w => w.launch == uid && w.core == core && w.resident)

/-- Granules a launch may hold on a core (R161): 16 r − n b. -/
def State.capacity (s : State) (uid core : Nat) : Nat :=
  let l := s.launch uid
  let r := ((List.range 32).filter (fun b => l.bankCode b == 1)).length
  16 * r - (s.wavesOn uid core).length * l.basereg

/-- Free granules of a launch on a core (R161). -/
def State.freeGranules (s : State) (uid core : Nat) : Nat :=
  s.capacity uid core - ((s.wavesOn uid core).map (fun w => w.ext - w.dropped.length)).sum

/-- The tag by which a dropped register is replayed; one that was not written since its granule was granted reads zero (R169). -/
def Wave.replayTag (w : Wave) (r : Nat) : Option RTag := if w.written.contains r then w.tag? r else none

/-- R169: a granule's registers filled, each tagged one by replay in every lane, each other with zero; the replays held the wave (R154,
counter 7). -/
def State.refill (s : State) (w : Wave) (k : Nat) : Except (Nat × Nat) Wave :=
  let lanes := List.range 32
  let bad := (w.granRegs k).find? (fun r => match w.replayTag r with
    | some t => lanes.any (fun i => (s.replay w t.id i).isNone)
    | none => false)
  match bad with
  | some r => .error (r, ((w.tag? r).map RTag.id).getD 0)
  | none =>
    .ok (((w.granRegs k).foldl (fun (v : Wave) r => lanes.foldl (fun (u : Wave) i => u.setVreg r i (match w.replayTag r with
      | some t => (s.replay w t.id i).getD 0
      | none => 0)) v) { w with dropped := w.dropped.filter (fun x => x != k), pinned := w.pinned ++ [k] }).bump 7
        ((w.granRegs k).filterMap w.replayTag).length)

/-- The address a RECIPE fault records (R169). -/
def recipeAddr (reg id : Nat) : Word := BitVec.ofNat 64 (reg + 256 * id)

end Sys2Proof.Machine
end

