-- ==== Sys2Proof/Machine/Issue.lean ====
section
/-! DEFINITION. What every word does besides its own effect (spec/02 R24, R39; spec/08 R132 to R143, R154; spec/09 R156 to
R159, R166 to R169; spec/10 R173; spec/06 R102, R103; spec/21 R338, R339): who executes it, the checks before it, what it
reads where a result is pending or a register dropped, and the bookkeeping after it. Each meaning gives its `Use` and its
own effect, and `pWord` or `qWord` does the rest. -/
namespace Sys2Proof.Machine

/-- What a word names and asks for. `ebits` is the width of the elements it reads (R159), `widths` that of registers it reads by others;
`counted` is the number of lanes it counts where that is not the number it executes in (R154); `named` are registers that the word names and
neither reads nor writes (R156); `yields` says that it counts as YLD = 1 where it executes (R147). -/
structure Use where
  q : Bool := false
  mode : Nat := 0
  roles : List Nat := [0, 1, 2, 3]
  vr : List Nat := []
  vw : List Nat := []
  sr : List Nat := []
  sw : List Nat := []
  pr : List Nat := []
  pw : List Nat := []
  qr : List Nat := []
  qw : List Nat := []
  lat : Nat := 4
  lats : List (PKind × Nat × Nat) := []
  hok : Bool := false
  bubble : Bool := false
  impure : Bool := false
  illegal : Bool := false
  badBank : Bool := false
  pair : Bool := false
  touch : List Nat := []
  named : List Nat := []
  hold : Option Nat := none
  ebits : Nat := 64
  widths : List (PKind × Nat × Nat) := []
  yields : Bool := false
  counted : Option Nat := none

/-- The context of a word: `w` is the wave as the word reads it, `active` and `lanes` the active and the executing lanes. -/
structure Ex where
  s : State
  w : Wave
  pc : CodeAddr
  active : List Nat
  lanes : List Nat
  hnd : Bool

/-- What a word leaves besides the registers it wrote in `s`. -/
structure Done where
  faults : List (Nat × Nat × Word) := []
  pcs : List (Nat × CodeAddr) := []
  stay : List Nat := []
  progress : Bool := false
  count : Option Nat := none
  hang : Option Nat := none

/-- A word holds its wave, or it is done. -/
inductive Out where
  | hold (s : State) (k : Held)
  | done (s : State) (r : Done)

/-- The wave of a context as the state holds it. -/
def Ex.wave (x : Ex) : Wave := (x.s.wave? x.w.core x.w.slot).getD x.w

/-- A vector register as the word reads it. -/
def Ex.v (x : Ex) (r lane : Nat) : Word := x.w.vreg r lane

/-- A scalar register as the word reads it. -/
def Ex.sc (x : Ex) (r : Nat) : Word := x.w.sreg r

/-- An operand of kind V or broadcast (R26). -/
def Ex.b (x : Ex) (o : VS) (lane : Nat) : Word := vsVal (fun r => x.v r lane) x.sc o

/-- The launch of the wave. -/
def Ex.l (x : Ex) : Launch := x.s.launch x.w.launch

/-- The lowest executing lane. -/
def Ex.first (x : Ex) : Nat := x.lanes.headD 0

/-! ### What a word names, and what it reads (R159) -/

/-- A word names the register. -/
def Use.names (u : Use) (p : Pend) (write : Bool) : Bool :=
  match p.kind with
  | .vec => u.vr.contains p.idx || (write && u.vw.contains p.idx)
  | .scal => u.sr.contains p.idx || (write && u.sw.contains p.idx)
  | .lpred => u.pr.contains p.idx || (write && u.pw.contains p.idx)
  | .spred => u.qr.contains p.idx || (write && u.qw.contains p.idx)

/-- Pending registers the word names, guards among them. -/
def State.pendOf (s : State) (w : Wave) (u : Use) (write : Bool) : List Pend :=
  w.pend.filter (fun p => u.names p write && !p.ready s)

/-- The wave with the entries of the operand latch that serve a full word (R158). -/
def State.seeLatch (s : State) (w : Wave) (u : Use) : Wave :=
  if u.pair then w
  else ((s.quad w.core w.quad).latch.filter (fun e => e.slot == w.slot && u.vr.contains e.reg && !w.isDropped e.reg)).foldl
    (fun v e => (List.range 32).foldl (fun x i => x.setVreg e.reg i (e.vals.getD i 0)) v) w

/-- Dropped registers a word reads that are replayed, each with its tag (R169). -/
def Wave.replayed (w : Wave) (u : Use) : List RTag := (u.vr.dedup.filter w.isDropped).filterMap w.replayTag

/-- The wave with the dropped registers a word reads replayed; an unwritten one reads zero (R169). -/
def State.seeReplay (s : State) (w : Wave) (u : Use) : Wave :=
  (u.vr.dedup.filter w.isDropped).foldl (fun v r => (List.range 32).foldl (fun x i => x.setVreg r i (match w.replayTag r with
    | some t => (s.replay w t.id i).getD 0
    | none => 0)) v) w

/-- The width of the elements by which a word reads a register: the greatest, where it reads it twice (log 8). -/
def Use.bitsOf (u : Use) (k : PKind) (r : Nat) : Nat :=
  ((u.widths.filter (fun x => x.1 == k && x.2.1 == r)).map (fun x => x.2.2)).max?.getD u.ebits

/-- The wave as a word reads it. -/
def State.view (s : State) (w : Wave) (u : Use) : Wave :=
  (s.pendOf w u false).foldl (fun v p => v.seePend s (u.bitsOf p.kind p.idx) p) (s.seeReplay (s.seeLatch w u) u)

/-! ### Checks before the effect -/

/-- Registers of the word that the wave does not hold (R156). -/
def Wave.outOfBlock (w : Wave) (u : Use) : Option Nat := ((u.vr ++ u.vw ++ u.touch ++ u.named).filter (fun r => decide (w.vcount ≤ r))).min?

/-- The read sets of the tags of a wave. -/
def State.tagReads (s : State) (w : Wave) (t : RTag) : List Nat × List Nat :=
  match s.recipe w t.id with
  | some body => readSet (bodyInstrs body) []
  | none => ([], [])

/-- Tags that a word ends by what it writes (R167). -/
def State.endedTags (s : State) (w : Wave) (u : Use) : List RTag :=
  w.tags.filter (fun t => u.vw.contains t.reg || u.touch.contains t.reg ||
    (let r := s.tagReads w t
     u.vw.any (fun x => r.1.contains x) || u.sw.any (fun x => r.2.contains x)))

/-- A register of a dropped granule that the word must first re-materialise (R169). -/
def State.rematReg (s : State) (w : Wave) (u : Use) : Option Nat :=
  if w.dropped.isEmpty then none
  else ((u.vw ++ u.touch ++ ((s.endedTags w u).map RTag.reg)).filter w.isDropped).head?

/-- The register being written when the word re-materialises `r` (R162): `r` itself, or one of the read set of its recipe. -/
def State.writtenFor (s : State) (w : Wave) (u : Use) (r : Nat) : Nat :=
  if u.vw.contains r ∨ u.touch.contains r then r
  else match w.tag? r with
    | some t =>
      let reads := s.tagReads w t
      (u.vw.filter reads.1.contains ++ u.sw.filter reads.2.contains).headD r
    | none => r

/-- A wait for storage queued once (R161). -/
def State.queueWait (s : State) (w : Wave) (n : Nat) (remat : Option Nat) : State :=
  let c := s.ctx w.launch w.core
  if c.waits.any (fun x => x.slot == w.slot && x.remat.isSome == remat.isSome) then s
  else s.setCtx { c with waits := c.waits ++ [⟨w.slot, n, remat⟩] }

/-- A wave's waits taken back. -/
def State.dropWait (s : State) (w : Wave) : State :=
  let c := s.ctx w.launch w.core
  if c.waits.any (fun x => x.slot == w.slot) then s.setCtx { c with waits := c.waits.filter (fun x => x.slot != w.slot) } else s

/-- A wave's wait in re-materialisation taken back: it is served, or abandoned (R169). -/
def State.dropRemat (s : State) (w : Wave) : State :=
  let c := s.ctx w.launch w.core
  let mine := fun (x : GranWait) => x.slot == w.slot && x.remat.isSome
  if c.waits.any mine then s.setCtx { c with waits := c.waits.filter (fun x => !mine x) } else s

/-- The order in which waits are served (R161): re-materialisation first, each kind in order of arrival. -/
def Ctx.waitOrder (c : Ctx) : List GranWait := c.waits.filter (fun x => x.remat.isSome) ++ c.waits.filter (fun x => x.remat.isNone)

/-- A wave's request may be served now: the granules are free and no wait comes before it. -/
def State.canServe (s : State) (w : Wave) (n : Nat) (remat : Bool) : Bool :=
  let c := s.ctx w.launch w.core
  let q := if remat then c.waits.filter (fun x => x.remat.isSome) else c.waitOrder
  decide (n ≤ s.freeGranules w.launch w.core) && (match q.head? with
    | some x => x.slot == w.slot
    | none => true)

/-- The result of the checks and the effect. -/
inductive Att where
  | zero
  | fault (cause : Nat) (addr : Word) (lanes : List Nat)
  | out (o : Out) (w : Wave) (lanes : List Nat)

/-- The address of a HAZARD fault (R159). -/
def Pend.addr (p : Pend) : Word :=
  BitVec.ofNat 64 (p.idx + 256 * (match p.kind with
    | .vec => 0 | .scal => 1 | .lpred => 2 | .spred => 3))

/-- What comes of filling granules again (R169): the word may go on, it waits for one granule to write a register, or a replay failed. -/
inductive Remat where
  | ready (w : Wave)
  | waits (w : Wave) (reg : Nat)
  | fails (reg id : Nat)

/-- Granules filled again one by one until none is left that the word needs; what is filled stays so while the word waits for the next.
`n` bounds their number. -/
def rematerialise (u : Use) : Nat → State → Wave → Remat
  | 0, _, w => .ready w
  | n + 1, s, w =>
    match s.rematReg w u with
    | none => .ready w
    | some r =>
      match w.granule r with
      | none => .ready w
      | some k =>
        if !s.canServe w 1 true then .waits w (s.writtenFor w u r)
        else match s.refill w k with
          | .error e => .fails e.1 e.2
          | .ok w1 => rematerialise u n (s.setWave w1) w1

/-- The state with the granules that the word has had filled again. -/
def State.refilled (s : State) (w w1 : Wave) : State := if w1 = w then s else (s.dropRemat w).setWave w1

/-- A purity violation noted (R102, R103). -/
def State.impure (s : State) (uid : Nat) : State :=
  let l := s.launch uid
  if l.purity then s else s.setLaunch { l with purity := true }

/-- A fetch outside the code object by a lane that executes is noted (R89, R102). -/
def State.fetched (s : State) (w : Wave) (pc : CodeAddr) (lanes : List Nat) : State :=
  if !w.hangArmed && lanes != [] && s.strayFetch (s.launch w.launch) pc then s.impure w.launch else s

/-- The tags of the granules of a wave that are dropped no more: by replay of these they were filled (R169). -/
def Wave.filledSince (old new : Wave) : List RTag :=
  ((old.dropped.filter (fun k => !new.dropped.contains k)).flatMap old.granRegs).filterMap old.replayTag

/-- The executing lanes of a pure launch in which a replay's LDK reads outside the inputs, each with the address (R89, R102). -/
def State.strayLanes (s : State) (w : Wave) (tags : List RTag) (lanes : List Nat) : List (Nat × Word) :=
  if tags = [] ∨ !(s.launch w.launch).pure then []
  else lanes.filterMap (fun i => (tags.findSome? (fun t => s.replayStray w t.id i)).map (fun a => (i, a)))

/-- The effect of a word whose checks are passed, with the dropped sources replayed (R169) and purity checked (R102). -/
def runBody' (u : Use) (body : Ex → Out) (s0 : State) (w : Wave) (filled : List RTag) (pc : CodeAddr) (active lanes targets : List Nat)
    (hnd : Bool) : Att :=
  let l := s0.launch w.launch
  let tags := w.replayed u
  let stray := s0.strayLanes w (tags ++ filled) lanes
  let s := if stray = [] then s0 else s0.impure w.launch
  let failing := lanes.filterMap (fun i => (tags.find? (fun t => (s.replay w t.id i).isNone)).map (fun t => (i, t)))
  let bad := failing.map (fun x => (x.1, cRECIPE, recipeAddr x.2.reg x.2.id)) ++
    (if l.puretrap then (stray.filter (fun x => !failing.any (fun y => y.1 == x.1))).map (fun x => (x.1, cPERM, x.2)) else [])
  let good := lanes.filter (fun i => !bad.any (fun x => x.1 == i))
  let faults := bad
  if u.impure ∧ l.pure ∧ l.puretrap then .out (.done (s.impure w.launch) { faults := targets.map (fun i => (i, cPERM, 0)) }) w lanes
  else
    let s1 := if u.impure ∧ l.pure then s.impure w.launch else s
    if good = [] ∧ faults ≠ [] then .out (.done s1 { faults := faults }) w lanes
    else match body ⟨s1, s.view w u, pc, active, good, hnd⟩ with
      | .hold s2 k => .out (.hold s2 k) w lanes
      | .done s2 r => .out (.done s2 { r with faults := faults ++ r.faults }) w lanes

/-- The checks of a word in their order, then its effect. -/
def attempt (u : Use) (body : Ex → Out) (s : State) (w : Wave) (pc : CodeAddr) (active lanes : List Nat) (hnd : Bool) : Att :=
  let l := s.launch w.launch
  let targets := if u.q then active else lanes
  let hz := s.pendOf w u true
  if w.hangArmed then .fault cHANG 0 active
  else if lanes = [] then .zero
  else if s.strayFetch l pc ∧ l.puretrap then .fault cPERM (pc.setWidth 64) targets
  else if u.illegal then .fault cILLEGAL 0 targets
  else if w.mode < u.mode then .fault cPRIV 0 targets
  else if !u.roles.contains w.role then .fault cROLE 0 targets
  else if u.badBank then .fault cPAIRBANK 0 targets
  else match w.outOfBlock u with
    | some r => .fault cRANGE (BitVec.ofNat 64 r) targets
    | none =>
      if l.debug ∧ hz ≠ [] then .fault cHAZARD ((hz.head?.map Pend.addr).getD 0) targets
      else match rematerialise u 20 s w with
        | .waits w1 r => .out (.hold ((s.refilled w w1).queueWait w 1 (some r)) .remat) w lanes
        | .fails r id => .fault cRECIPE (recipeAddr r id) targets
        | .ready w1 => runBody' u body (s.refilled w w1) w1 (w.filledSince w1) pc active lanes targets hnd

/-- R167, R169: what values that land in registers after their word do first: granules dropped meanwhile are filled again, tags end. None
while storage for that is awaited; where a replay fails there is no word to fault, and the tags end all the same (log 27). -/
def State.landing (s : State) (w : Wave) (regs : List Nat) : Option Wave :=
  let held := regs.filter (fun r => decide (r < w.vcount))
  let u : Use := { vw := held }
  let gone := s.endedTags w u
  let done := fun (v : Wave) => { v with
    perf := w.perf, pinned := w.pinned, tags := if gone = [] then v.tags else v.tags.filter (fun t => !gone.contains t),
    written := if v.ext = 0 then v.written else v.written ++ held.filter (fun r => !v.written.contains r) }
  match rematerialise u 20 s w with
  | .ready v => some (done v)
  | .waits _ _ => none
  | .fails _ _ => some (done w)

/-! ### Ending a wave (R134, R322, R387) -/

/-- Nothing of the wave is outstanding. -/
def Wave.drained (w : Wave) : Bool := w.ops.isEmpty && w.cpWords.isEmpty && w.tlWords.isEmpty

/-- The number, past every slot, that a wave keeps while what it has outstanding is performed after its end (R134, R387). -/
def State.restNumber (s : State) (core : Nat) : Nat := ((s.cores.waves.filter (fun v => v.core == core)).map (fun v => v.slot + 1)).foldl max 48

/-- A wave moved out of its slot, and what it has queued on its core with it. -/
def State.moveOut (s : State) (w : Wave) (n : Nat) : State :=
  let c := s.ctx w.launch w.core
  let go := fun (k : Nat) => if k = w.slot then n else k
  (s.setCtx { c with cards := c.cards.map (fun k => { k with slot := go k.slot }), tiles := c.tiles.map (fun t => { t with slot := go t.slot }) }).setWaves
    (updWhere (fun v => v.core == w.core && v.slot == w.slot) (fun v => { v with slot := n }) s.cores.waves)

/-- A wave gone, with nothing outstanding: its groups are told (R322). -/
def State.leaveWave (s : State) (w : Wave) : State :=
  let s1 := w.groups.foldl (fun t r => t.endMember w r) s
  s1.setWaves (s1.cores.waves.filter (fun v => !(v.core == w.core && v.slot == w.slot)))

/-- A wave all of whose lanes have exited ends (R134): its slot and granules are free, and the launch completes with its last wave. Its
groups are told once its accesses are performed (R322), until when it keeps its record outside the slots. -/
def State.endWave (s : State) (core slot : Nat) : State :=
  match s.wave? core slot with
  | none => s
  | some w =>
    if !w.allExited then s
    else if w.resident then
      let s1 := (s.dropWait w).dropLatch core slot (fun _ => true)
      let s2 := if w.drained then s1.leaveWave w else s1.moveOut w (s.restNumber core)
      let l := s2.launch w.launch
      let s3 := s2.setLaunch { l with ended := l.ended ++ [w.wid] }
      if l.nwave ≤ l.ended.length + 1 then s3.endLaunch w.launch ⟨0, 0, 0⟩ else s3
    else if w.drained then s.leaveWave w
    else s

/-! ### Bookkeeping after a word -/

/-- Issue cycles after the word, by STALL and the branch bubble (R139). -/
def stallOf (c : Ctl) (u : Use) : Nat := max c.stall u.bubble.toNat

/-- The latency of a written register: the halves of a pair may have latencies of their own (R36). -/
def Use.latOf (u : Use) (k : PKind) (r : Nat) : Nat :=
  match u.lats.find? (fun x => x.1 == k && x.2.1 == r) with
  | some x => x.2.2
  | none => u.lat

/-- The old values of the registers a word writes, for R159; latencies count from `base`. A write of p0 or q0 is discarded (R25) and
leaves nothing pending. -/
def Wave.oldPends (w : Wave) (u : Use) (base : Nat) : List Pend :=
  u.vw.map (fun r => ⟨.vec, r, .at (base + u.latOf .vec r), (List.range 32).map (fun i => (i, w.vreg r i)), false⟩) ++
  u.sw.map (fun r => ⟨.scal, r, .at (base + u.latOf .scal r), [(0, w.sreg r)], false⟩) ++
  (u.pw.filter (fun p => p != 0)).map (fun p => ⟨.lpred, p, .at (base + u.lat), [(0, (cellGet 0 w.preds p).setWidth 64)], false⟩) ++
  (u.qw.filter (fun p => p != 0)).map (fun p => ⟨.spred, p, .at (base + u.lat), [(0, if w.qpred p then 1 else 0)], false⟩)

/-- Two writes of one register ordered by broken timing (R159): where the earlier one has a fixed latency, each lane keeps one
of the two values, as a free value says; where it is an outstanding operation, the choice falls when that ends. -/
def State.clash (s : State) (old new : Wave) (u : Use) : Wave :=
  let hz := s.pendOf old { u with vr := u.vw, sr := u.sw, pr := [], qr := [] } false
  let w1 := hz.foldl (fun (v : Wave) p => match p.kind, p.due with
    | .vec, .at _ => (List.range 32).foldl (fun x i =>
        if (s.free (p.freeKey i)).getLsbD 0 then x.setVreg p.idx i (old.vreg p.idx i) else x) v
    | .scal, .at _ => if (s.free (p.freeKey 0)).getLsbD 0 then v.setSreg p.idx (old.sreg p.idx) else v
    | _, _ => v) new
  { w1 with pend := w1.pend.map (fun p => match p.due with
      | .op _ => if u.vw.contains p.idx && p.kind == .vec && hz.contains p then { p with clob := true } else p
      | .at _ => p) }

/-- Pending writes of the word, tags it ends and registers it has written (R139, R159, R167, R168). -/
def State.bookWrites (s : State) (old new : Wave) (u : Use) (lanes : List Nat) (base : Nat) : Wave :=
  if lanes = [] then new
  else
    let w1 := s.clash old new u
    let gone := s.endedTags old u
    let fixed := if u.lat = 0 then [] else old.oldPends u base
    { w1 with
      pend := w1.pend.filter (fun p => !p.ready s && !(match p.due with
        | .at _ => fixed.any (fun f => f.kind == p.kind && f.idx == p.idx)
        | .op id => p.kind == .vec && u.vw.contains p.idx && decide (id < old.nextOp) && (old.op? id).isNone)) ++ fixed,
      tags := if gone = [] then w1.tags else w1.tags.filter (fun t => !gone.contains t || u.touch.contains t.reg),
      written := if w1.ext = 0 then w1.written else (w1.written ++ u.vw.filter (fun r => !w1.written.contains r)) }

/-- The operand latch after a word (R158): what it serves is used up, what it writes leaves, and what HOLD names enters. -/
def State.latchAfter (s : State) (w : Wave) (u : Use) : List LatchEnt :=
  let latch := (s.quad w.core w.quad).latch
  let served : List LatchEnt := if u.pair then latch
    else (latch.map (fun e => if e.slot == w.slot && u.vr.contains e.reg then { e with uses := e.uses - 1 } else e)).filter
      (fun e => e.uses != 0)
  let kept : List LatchEnt := served.filter (fun e => !(e.slot == w.slot && u.vw.contains e.reg))
  match u.hold with
  | none => kept
  | some r =>
    if u.vw.contains r then kept
    else
      let e : LatchEnt := ⟨w.slot, r, (List.range 32).map (fun i => (s.view w u).vreg r i), 2⟩
      if kept.any (fun x => x.slot == w.slot && x.reg == r) then kept.map (fun x => if x.slot == w.slot && x.reg == r then e else x)
      else if kept.length < 3 then kept ++ [e] else kept.drop 1 ++ [e]

/-- The operand latch kept. -/
def State.bookLatch (s : State) (w : Wave) (u : Use) : State :=
  let q := s.quad w.core w.quad
  let l := s.latchAfter w u
  if l = q.latch then s else s.setQuad w.core w.quad { q with latch := l }

/-- An upcall queued for the tenant's runtime wave (R350). -/
def State.upcall (s : State) (t code lid wid : Nat) : State :=
  let ten := s.tenant t
  (s.setTenant { ten with upcalls := ten.upcalls ++ [⟨s.ctl.seq, code, lid, wid⟩] }).takeSeq

/-- HANGCNT after a word (R142, R143): 0 after a progress event; an MTS's value stands, since hardware acts before it (R153). -/
def State.bookHang (s : State) (w : Wave) (progress : Option Nat) : State :=
  let n := min (w.hangcnt + 1) (2 ^ 48 - 1)
  let lim := (s.tenant w.tenant).hanglim
  let l := s.launch w.launch
  match progress with
  | some v => s.setWave { w with hangcnt := v }
  | none =>
  if lim = 0 ∨ n ≤ lim then s.setWave { w with hangcnt := n }
  else if l.hangtrap then s.setWave { w with hangcnt := n, hangArmed := true }
  else ((s.setWave { w with hangcnt := 0 }).setLaunch { l with hang := true }).upcall w.tenant 0xFF01 l.lid w.wid

/-- How a quadrant knows the wave that held it last (R137). -/
def Wave.holder (w : Wave) : Nat × Nat × Nat := (w.slot, w.launch, w.wid)

/-- The quadrant after an issue (R137): who holds it, the cycles of its run, and until which cycle. -/
def State.bookQuad (s : State) (w : Wave) (yld : Bool) (extra : Nat) : State :=
  let q := s.quad w.core w.quad
  s.setQuad w.core w.quad { q with
    last := some w.holder, yielded := yld, run := (if q.last = some w.holder then q.run else 0) + 1 + extra, busyUntil := s.ctl.cycle + 1 + extra }

/-- The counters of a word issued (R154, counters 1, 2, 4, 5 and 7); counters 3 and 6 are told by what passes cycles. -/
def Wave.bookPerf (w : Wave) (lanes stall extra replays : Nat) : Wave :=
  ((((w.bump 1 1).bump 2 lanes).bump 4 stall).bump 5 extra).bump 7 replays

/-- Where a lane goes after a word: to a target, or to the next word. -/
def Done.nextPc (r : Done) (pc : CodeAddr) (i : Nat) : CodeAddr :=
  match r.pcs.find? (fun x => x.1 == i) with
  | some x => x.2
  | none => pc + 8

/-- One lane advances unless it faulted or stays. -/
def Wave.moveLane (pc : CodeAddr) (bad : List Nat) (r : Done) (v : Wave) (i : Nat) : Wave :=
  if bad.contains i ∨ r.stay.contains i then v else v.setLane i { v.lane i with pc := r.nextPc pc i }

/-- The lanes of the active set advance (R133): to a target, not at all, or to the next word; a faulting lane stays. -/
def Wave.advance (w : Wave) (pc : CodeAddr) (active bad : List Nat) (r : Done) : Wave := active.foldl (Wave.moveLane pc bad r) w

/-- The handler advances (R338, R339); a word that waits for its reply keeps it where it is. -/
def Wave.handlerNext (w : Wave) (h : Handler) (r : Done) : Wave :=
  { w with hnd := w.hnd.map (fun g =>
      if r.stay = [] then { g with pc := (r.pcs.head?.map Prod.snd).getD (h.pc + 8) } else g) }

/-- The hold of a word that is over (R136): the handler's own, or the wave's. `old` is the wave before the word, so that RTE leaves the
hold of the wave it returns to (R343). -/
def Wave.released (w old : Wave) : Wave :=
  match old.hnd with
  | some _ => { w with hnd := w.hnd.map (fun h => { h with held := none }), pinned := [] }
  | none => { w with held := none, heldAt := none, pinned := [], sleepSince := none }

/-- The times and counters of a word issued at cycle `t` (R139, R154). -/
def Wave.stamped (w : Wave) (next t lanes stall extra replays : Nat) : Wave :=
  ({ w with nextIssue := next, lastIssue := t }).bookPerf lanes stall extra replays

/-- Everything after a word of a wave: lanes park or advance (R8, R133), then the bookkeeping. `old` is the wave before the
word, `n` the number of executing lanes. -/
def finish (c : Ctl) (u : Use) (s : State) (old : Wave) (pc : CodeAddr) (active lanes : List Nat) (r : Done) : State :=
  let n := lanes.length
  let bad := r.faults.map Prod.fst
  let extra := if u.pair ∨ n = 0 then 0
    else bankExtra (u.vr.filter (fun x => !(s.quad old.core old.quad).latch.any (fun e => e.slot == old.slot && e.reg == x)))
  let t := s.ctl.cycle
  match s.wave? old.core old.slot with
  | none => s
  | some w0 =>
    let w1 := s.bookWrites old w0 u (lanes.filter (fun i => !bad.contains i)) (t + extra)
    let w2 : Wave := match old.hnd with
      | some h => w1.handlerNext h r
      | none => (w1.parkAll r.faults).advance pc active bad r
    let w3 := (w2.released old).stamped (t + 1 + extra + stallOf c u) t (r.count.getD (if u.q then 0 else n)) (stallOf c u) extra
      (if n = 0 then 0 else (old.replayed u).length)
    let s1 := if n = 0 then s else s.bookLatch old u
    let s2 := (s1.bookHang w3 (if r.progress then some 0 else r.hang)).bookQuad w3 (c.yld || (u.yields && n != 0)) extra
    (if s.pendOf old u true = [] then s2 else s2.tickFresh).endWave old.core old.slot

/-- A word that is turned away before it is issued (R39, R43): the lanes park at it, and no part of it takes effect. It is counted
nowhere and no PC moves; the attempt takes the quadrant's cycle. -/
def turnedAway (s : State) (w : Wave) (faults : List (Nat × Nat × Word)) : State :=
  let v : Wave := { w.parkAll faults with
    held := none, heldAt := none, pinned := [], sleepSince := none, nextIssue := s.ctl.cycle + 1 }
  (s.setWave v).bookQuad v false 0

/-- The causes raised at decode (R39), and PERM for a fetch that a pure launch may not make (R89, R103). -/
def beforeIssue (cause : Nat) : Bool := [cPERM, cILLEGAL, cPRIV, cROLE, cPAIRBANK].contains cause

/-- A word whose lanes fault before its effect: turned away at decode or by a HANG that was due (R143), or issued with those lanes
parked, which count as executing lanes (R154). -/
def faulted (c : Ctl) (u : Use) (s : State) (w : Wave) (pc : CodeAddr) (active : List Nat) (cause : Nat) (addr : Word)
    (lanes : List Nat) : State :=
  let faults := lanes.map (fun i => (i, cause, addr))
  if cause = cHANG then turnedAway s { w with hangArmed := false, hangcnt := 0 } faults
  else if beforeIssue cause then turnedAway s w faults
  else finish c u s w pc active [] { faults := faults, count := some (u.counted.getD (if u.q then 0 else lanes.length)) }

/-- A word that holds its wave (R136): nothing issues; the wave stays at the word, which is tried again. A word of the handler holds the
handler (R338). -/
def held (s : State) (w : Wave) (pc : CodeAddr) (k : Held) : State :=
  match s.wave? w.core w.slot with
  | none => s
  | some v => s.setWave (match v.hnd with
    | some h => { v with hnd := some { h with held := some k } }
    | none => { v with held := some k, heldAt := some pc, triedAt := s.ctl.cycle })

/-- The guards of a word as what it reads (R24). -/
def guardsOf (c : Ctl) (q : Bool) : Use := if q then { qr := [c.ga.idx, c.gb.idx] } else { pr := [c.ga.idx, c.gb.idx] }

/-- What a word names, its guards among it. -/
def Use.guarded (u : Use) (c : Ctl) : Use :=
  if u.q then { u with qr := c.ga.idx :: c.gb.idx :: u.qr } else { u with pr := c.ga.idx :: c.gb.idx :: u.pr }

/-- The lanes that execute a word (R24, R133): the active lanes whose guards hold, or all of them where the scalar guards hold. -/
def execLanes (c : Ctl) (q : Bool) (g : Wave) (active : List Nat) : List Nat :=
  if q then (if g.qguard c.ga && g.qguard c.gb then active else [])
  else active.filter (fun i => g.guardAt c.ga i && g.guardAt c.gb i)

/-- A word of the wave's lanes. -/
def issueWord (c : Ctl) (u : Use) (body : Ex → Out) (s : State) (w : Wave) (pc : CodeAddr) : State :=
  let active := w.activeAt pc
  let lanes := execLanes c u.q (s.view w (guardsOf c u.q)) active
  let u1 := u.guarded c
  let t := s.fetched w pc lanes
  match attempt u1 body t w pc active lanes false with
  | .zero => finish c u1 s w pc active [] {}
  | .fault cause addr l => faulted c u1 (t.dropWait w) w pc active cause addr l
  | .out (.hold s1 k) _ _ => held s1 w pc k
  | .out (.done s1 r) w1 l => finish c u1 s1 w1 pc active l r

/-- A nested fault (R339): no part of the handler word takes effect, but that it broke purity stays noted (R103). -/
def nestedFault (s after : State) (w : Wave) (h : Handler) (cause : Nat) : State :=
  (if (after.launch w.launch).purity then s.impure w.launch else s).trapped w.launch h.pc cause

/-- A word of the handler (R338, R339): it executes once; a fault, or a word the handler may not issue, ends the launch. -/
def handlerWord (c : Ctl) (u : Use) (body : Ex → Out) (s : State) (w : Wave) (h : Handler) : State :=
  let g := s.view w (guardsOf c u.q)
  let runs := if u.q then g.qguard c.ga && g.qguard c.gb else g.guardAt c.ga h.lane && g.guardAt c.gb h.lane
  let u1 := u.guarded c
  let t := s.fetched w h.pc (if runs then [h.lane] else [])
  match attempt u1 body t w h.pc [h.lane] (if runs then [h.lane] else []) true with
  | .fault cause _ _ => nestedFault s t w h cause
  | .zero => if u.hok then finish c u1 s w h.pc [h.lane] [] {} else nestedFault s s w h cILLEGAL
  | .out (.hold s1 k) _ _ => if u.hok then held s1 w h.pc k else nestedFault s s1 w h cILLEGAL
  | .out (.done s1 r) w1 l =>
    match r.faults.head? with
    | some f => nestedFault s s1 w h f.2.1
    | none => if u.hok then finish c u1 s1 w1 h.pc [h.lane] l r else nestedFault s s1 w h cILLEGAL

/-- A word of the wave at the focus (log 1): in its handler, at the word that holds it, or at its issue address. -/
def word (c : Ctl) (u : Use) (body : Ex → Out) (s : State) : Host.Outcome State Fault Refusal :=
  .next (match s.wave? s.ctl.focus.core s.ctl.focus.slot with
    | none => s
    | some w => match w.hnd with
      | some h => if h.svc then s else handlerWord c u body s w h
      | none => match w.ownPc with
        | none => s
        | some pc => issueWord c u body s w pc)

/-- A p-guarded word. -/
def pWord (c : Ctl) (u : Use) (body : Ex → Out) (s : State) : Host.Outcome State Fault Refusal := word c { u with q := false } body s

/-- A q-guarded word. -/
def qWord (c : Ctl) (u : Use) (body : Ex → Out) (s : State) : Host.Outcome State Fault Refusal := word c { u with q := true } body s

/-! ### Shapes of effects -/

/-- What a word does in one lane: registers and predicates written, flags, or a fault. -/
structure LaneRes where
  vw : List (Nat × Word) := []
  pw : List (Nat × Bool) := []
  fl : Flags := 0
  fault : Option (Nat × Word) := none

/-- One lane's results written. -/
def Wave.applyLane (w : Wave) (i : Nat) (r : LaneRes) : Wave :=
  match r.fault with
  | some _ => w
  | none => r.pw.foldl (fun v x => v.setPred x.1 i x.2) (r.vw.foldl (fun v x => v.setVreg x.1 i x.2) w)

/-- The flags of the lanes that did not fault. -/
def laneFlags (l : List LaneRes) : Flags := orFlags (l.map (fun r => if r.fault.isSome then 0 else r.fl))

/-- A word that does one thing in each executing lane. -/
def laneBody (f : Ex → Nat → LaneRes) (x : Ex) : Out :=
  let rs := x.lanes.map (fun i => (i, f x i))
  let w := (rs.foldl (fun v p => v.applyLane p.1 p.2) x.wave).setFlags (laneFlags (rs.map Prod.snd))
  .done (x.s.setWave w) { faults := rs.filterMap (fun p => p.2.fault.map (fun e => (p.1, e.1, e.2))) }

/-- A word that writes one vector register in each executing lane. -/
def vBody (d : Nat) (f : Ex → Nat → Word) : Ex → Out := laneBody (fun x i => { vw := [(d, f x i)] })

/-- The same, with flags. -/
def fBody (d : Nat) (f : Ex → Nat → VRes) : Ex → Out :=
  laneBody (fun x i => let r := f x i; { vw := [(d, r.val)], fl := r.fl })

/-- A word that writes one lane predicate in each executing lane. -/
def pBody (d : Nat) (f : Ex → Nat → Bool) : Ex → Out := laneBody (fun x i => { pw := [(d, f x i)] })

/-- A word that changes the wave once. -/
def waveBody (f : Ex → Wave → Wave) (x : Ex) : Out := .done (x.s.setWave (f x x.wave)) {}

/-- A word that writes one scalar register once. -/
def sBody (d : Nat) (f : Ex → Word) : Ex → Out := waveBody (fun x w => w.setSreg d (f x))

/-- Every executing lane faults alike. -/
def faultAll (x : Ex) (cause : Nat) (addr : Word) : Out := .done x.s { faults := x.lanes.map (fun i => (i, cause, addr)) }

/-- The register that HOLD names (R29). -/
def holdReg (c : Ctl) (a b e : Option Nat) : Option Nat :=
  match c.hold with
  | .none => none
  | .a => a
  | .b => b
  | .c => e

end Sys2Proof.Machine
end

