-- ==== Sys2Proof/Machine/Records.lean ====
section
/-! DEFINITION. Records the device writes (spec/05 R78 to R83): host events and the words of the two rings; stores of the
device into a tenant's frames; HDM offsets. -/
namespace Sys2Proof.Machine

/-- A field placed at its first bit. -/
def fieldAt (lo v : Nat) : Nat := v * 2 ^ lo

/-- The eight words of a record of 512 bits. -/
def recordWords (v : Nat) : List Word := (List.range 8).map (fun i => BitVec.ofNat 64 (v / 2 ^ (64 * i)))

/-- A ring of 2^size records may take one more (R78, R80). -/
def ringOpen (size prod cons : Nat) : Bool :=
  decide (6 ≤ size ∧ size ≤ 16) && decide ((prod + 2 ^ 32 - cons) % 2 ^ 32 < 2 ^ size)

/-- An event waits for its ring, and EVLOST is set while the ring can take none (R80): PHASE is put in when it is written. HANDLED says that Bishop handles it (R81). -/
def State.hostEvent (s : State) (t kind : Nat) (detail : Word) : State :=
  let b := s.dev.claimBishop.getLsbD kind
  let h := s.dev.claimHost.getLsbD kind
  if !h then s
  else
    let r : WaitRec := ⟨recordWords (fieldAt 0 s.ctl.seq + fieldAt 64 detail.toNat + fieldAt 431 b.toNat + fieldAt 432 kind)⟩
    let ten := s.tenant t
    (s.setTenant { ten with
      events := ten.events ++ [r], evlost := ten.evlost || !ringOpen ten.evsize ten.evprod ten.evcons }).takeSeq

/-- Bytes of a word list. -/
def wordBytes (l : List Word) : List Byte := l.flatMap (fun w => bytesOf 8 w.toNat)

/-- Bytes the device writes, as stores accepted at the home slice (R94), and the tag they leave where they are a release (R303). They are no
wave's: the watch records of their sectors go (R318). -/
def State.deviceStore (s : State) (ma : Nat) (l : List Byte) (tag : Option WTag := none) : State :=
  (((s.l2Access ma 0 true none).homeWrite none ma l).setTags ma l.length tag).clearWatch ma l.length

/-- The tag of a release that the device makes outside its waves (R303). -/
def deviceRelease (scope : Nat) : Option WTag := some ⟨.device, some scope⟩

end Sys2Proof.Machine
end

