-- ==== Sys2Proof/Machine/Queueing.lean ====
section
/-! DEFINITION. Launch records as they are queued (spec/04 R59, R60, R69, R70; spec/05 R76, R84, R88). -/
namespace Sys2Proof.Machine

/-! ### The queueing pass (R69) -/

/-- Reserved bit ranges of Table 4-1 and of the region entries (Table 4-2). -/
def reservedFields : List (Nat × Nat) :=
  [(3071, 2816), (1087, 1072), (1055, 1046), (1023, 992), (639, 616), (575, 567), (511, 496), (383, 363), (351, 348),
   (319, 304), (255, 240), (191, 176), (95, 72)] ++
  (List.range 13).flatMap (fun i => [(1215 + 128 * i, 1200 + 128 * i), (1279 + 128 * i, 1256 + 128 * i)])

/-- A field that may cross words: all its words' parts are zero. -/
def Launch.zeroField (l : Launch) (r : Nat × Nat) : Bool :=
  (List.range 64).all (fun n =>
    if r.1 < 64 * n ∨ 64 * n + 63 < r.2 then true
    else bits (l.word n) (min r.1 (64 * n + 63) - 64 * n) (max r.2 (64 * n) - 64 * n) == 0)

/-- Two regions overlap. -/
def overlaps (a b : Nat × Nat) : Bool := decide (a.1 < b.1 + b.2 ∧ b.1 < a.1 + a.2)

/-- Every two regions of a list overlap nowhere. -/
def disjoint : List (Nat × Nat) → Bool
  | [] => true
  | r :: l => l.all (fun q => !overlaps r q) && disjoint l

/-- The declared input regions. -/
def Launch.ins (l : Launch) : List (Nat × Nat) := (List.range l.nin).map l.inRegion

/-- The declared output regions. -/
def Launch.outs (l : Launch) : List (Nat × Nat) := (List.range l.nout).map l.outRegion

/-- The declared scratch region. -/
def Launch.scrs (l : Launch) : List (Nat × Nat) := if l.nscr = 1 then [l.scrRegion] else []

/-- R60. -/
def Launch.regionsOk (l : Launch) : Bool :=
  let used := l.ins ++ l.outs ++ l.scrs
  let idle := ((List.range 8).filter (fun i => decide (l.nin ≤ i))).map l.inRegion ++
    ((List.range 4).filter (fun i => decide (l.nout ≤ i))).map l.outRegion ++ (if l.nscr = 1 then [] else [l.scrRegion])
  decide (l.nin ≤ 8 ∧ l.nout ≤ 4) && idle.all (fun r => r == (0, 0)) &&
  used.all (fun r => r.1 % 32 == 0 && r.2 % 32 == 0 && decide (32 ≤ r.2)) &&
  disjoint (l.outs ++ l.scrs) && l.ins.all (fun i => (l.outs ++ l.scrs).all (fun o => !overlaps i o)) &&
  (l.pure || used.isEmpty)

/-- Undeclared rings have RINGSZ 0 (reason 8). -/
def Launch.ringsOk (l : Launch) : Bool := (List.range 16).all (fun n => l.ringv.testBit n || l.ringsz n == 0)

/-- The first reason of the queueing pass that fails (R69, Table 4-5). RTMODE is a wave-table field: its part of reason 2 is
checked with the tables (log 17). -/
def Launch.queueReason (l : Launch) : Option Nat :=
  if !reservedFields.all l.zeroField then some 1
  else if l.lid = 0 ∨ l.nwave = 0 ∨ 65536 < l.nwave ∨ l.basereg < 2 ∨ 16 < l.basereg ∨ 48 < l.wpc ∨ (l.rtwave ∧ l.nwave ≠ 1) then some 2
  else if l.entry % 8 ≠ 0 ∨ l.handler % 8 ≠ 0 ∨ l.codeobj % 64 ≠ 0 then some 3
  else if (List.range 32).all (fun b => l.bankCode b != 1) then some 6
  else if !l.ringsOk then some 8
  else if 64 < l.nchan then some 9
  else if !l.regionsOk then some 10
  else if (l.prot ∧ l.keyh = 0) ∨ (!l.prot ∧ (l.keyh ≠ 0 ∨ l.keylim ≠ 0)) then some 11
  else none

/-! ### The queue -/

/-- Launches queued and not yet admitted (QDEPTH, R75). -/
def Launch.waiting (l : Launch) : Bool :=
  match l.phase with
  | .queued | .keyWaiting _ | .keywait _ | .digesting _ _ | .copying _ | .ready => true
  | .running | .ending | .retired => false

/-- QDEPTH. -/
def State.qdepth (s : State) (t : Nat) : Nat := (s.tasks.launches.filter (fun l => l.tenant == t && l.waiting)).length

/-- The next launch number. -/
def State.nextUid (s : State) : Nat := (s.tasks.launches.map Launch.uid).foldl max 0 + 1

/-- A record queued (R69, R70): the queueing pass is made at once. -/
def State.queueLaunch (s : State) (t : Nat) (rec : List Word) (sub : Nat) (src : Bool) : State :=
  let l0 : Launch := { Launch.blank with uid := s.nextUid, tenant := t, record := rec, subno := sub, srcLaunch := src, phase := .queued }
  let s1 := s.setTasks { s.tasks with launches := s.tasks.launches ++ [l0] }
  match l0.queueReason with
  | some r => s1.endLaunch l0.uid ⟨1, r, 0⟩
  | none => s1

/-- How a launch ends by a function-level reset: no status, since it gets no record (R388). -/
def endedByReset : EndInfo := ⟨255, 0, 0⟩

/-- The launches that a launch's predecessor fields name: for each non-zero PREDn the latest queued earlier and since the last
function-level reset (R84, R388). -/
def State.preds (s : State) (l : Launch) : List Launch :=
  let before := s.tasks.launches.filter (fun k => k.tenant == l.tenant && decide (k.uid < l.uid) && k.old == l.old)
  (List.range 4).filterMap (fun n => if l.pred n = 0 then none else (before.filter (fun k => k.lid == l.pred n)).getLast?)

/-- R84: every predecessor has completed. -/
def State.eligible (s : State) (l : Launch) : Bool := (s.preds l).all (fun k => k.phase == .retired)

/-- Some predecessor ended with a status other than OK (R84). -/
def State.predFailed (s : State) (l : Launch) : Bool := (s.preds l).any (fun k => k.endInfo.any (fun e => e.status != 0))

/-- The 64 words of a record in a tenant's memory. -/
def wordsAt (s : State) (ma n : Nat) : List Word := wordsOf n (s.readMem ma (8 * n))

end Sys2Proof.Machine
end

