-- ==== Sys2Proof/Machine/VectorInt.lean ====
section
/-! DEFINITION. The vector integer words (spec/10 R175 to R185, Table 10-2). -/
namespace Sys2Proof.Machine

/-- An outcome of a step. -/
abbrev Res1 := Host.Outcome State Fault Refusal

/-- Registers of a word with sources A and perhaps B (V or broadcast), C. -/
def useABC (c : Ctl) (d a : Nat) (b : Option VS) (e : Option Nat) (ebits : Nat := 64) : Use :=
  { ebits := ebits, vr := a :: ((b.map vsV).getD [] ++ e.toList), sr := (b.map vsS).getD [], vw := [d],
    hold := holdReg c (some a) (b.bind (fun o => (vsV o).head?)) e }

/-- The widths by which a dot product reads its factors (R185, R216). -/
def dotWidths (a : Nat) (b : VS) (ta tb : Ty) : List (PKind × Nat × Nat) :=
  (.vec, a, ta.bits) :: ((vsV b).map (fun r => (.vec, r, tb.bits)) ++ (vsS b).map (fun r => (.scal, r, tb.bits)))

/-- R178 and Table 10-2, MOV. -/
def execMov (c : Ctl) (d a : Nat) (s : State) : Res1 := pWord c (useABC c d a none none) (vBody d (fun x i => x.v a i)) s
/-- R178, MOVI. -/
def execMovi (c : Ctl) (d : Nat) (imm : Int) (s : State) : Res1 := pWord c { vw := [d] } (vBody d (fun _ _ => moviVal imm)) s
/-- R178, MOVK: reads vD. -/
def execMovk (c : Ctl) (d imm h : Nat) (s : State) : Res1 :=
  pWord c { vr := [d], vw := [d] } (vBody d (fun x i => movkVal (x.v d i) imm h)) s
/-- R178, SEL. -/
def execSel (c : Ctl) (d a : Nat) (b : VS) (p : Nat) (s : State) : Res1 :=
  pWord c { useABC c d a (some b) none with pr := [p] } (vBody d (fun x i => if x.w.pred p i then x.v a i else x.b b i)) s
/-- IADD. -/
def execIadd (c : Ctl) (d a : Nat) (b : VS) (t : Ty) (z : Bool) (s : State) : Res1 :=
  pWord c (useABC c d a (some b) none t.bits) (vBody d (fun x i => iaddVal t z (x.v a i) (x.b b i))) s
/-- ISUB. -/
def execIsub (c : Ctl) (d a : Nat) (b : VS) (t : Ty) (z : Bool) (s : State) : Res1 :=
  pWord c (useABC c d a (some b) none t.bits) (vBody d (fun x i => isubVal t z (x.v a i) (x.b b i))) s
/-- IMUL. -/
def execImul (c : Ctl) (d a : Nat) (b : VS) (t : Ty) (z : Bool) (s : State) : Res1 :=
  pWord c (useABC c d a (some b) none t.bits) (vBody d (fun x i => imulVal t z (x.v a i) (x.b b i))) s
/-- IMULH. -/
def execImulh (c : Ctl) (d a : Nat) (b : VS) (t : Ty) (s : State) : Res1 :=
  pWord c (useABC c d a (some b) none t.bits) (vBody d (fun x i => imulhVal t (x.v a i) (x.b b i))) s
/-- IMAD. -/
def execImad (c : Ctl) (d a : Nat) (b : VS) (e : Nat) (t : Ty) (z : Bool) (s : State) : Res1 :=
  pWord c (useABC c d a (some b) (some e) t.bits) (vBody d (fun x i => imadVal t z (x.v a i) (x.b b i) (x.v e i))) s
/-- IMIN. -/
def execImin (c : Ctl) (d a : Nat) (b : VS) (t : Ty) (s : State) : Res1 :=
  pWord c (useABC c d a (some b) none t.bits) (vBody d (fun x i => iminVal t (x.v a i) (x.b b i))) s
/-- IMAX. -/
def execImax (c : Ctl) (d a : Nat) (b : VS) (t : Ty) (s : State) : Res1 :=
  pWord c (useABC c d a (some b) none t.bits) (vBody d (fun x i => imaxVal t (x.v a i) (x.b b i))) s
/-- IABS. -/
def execIabs (c : Ctl) (d a : Nat) (t : Ty) (z : Bool) (s : State) : Res1 :=
  pWord c (useABC c d a none none t.bits) (vBody d (fun x i => iabsVal t z (x.v a i))) s
/-- INEG. -/
def execIneg (c : Ctl) (d a : Nat) (t : Ty) (z : Bool) (s : State) : Res1 :=
  pWord c (useABC c d a none none t.bits) (vBody d (fun x i => inegVal t z (x.v a i))) s
/-- AND. -/
def execAnd (c : Ctl) (d a : Nat) (b : VS) (s : State) : Res1 :=
  pWord c (useABC c d a (some b) none) (vBody d (fun x i => x.v a i &&& x.b b i)) s
/-- OR. -/
def execOr (c : Ctl) (d a : Nat) (b : VS) (s : State) : Res1 :=
  pWord c (useABC c d a (some b) none) (vBody d (fun x i => x.v a i ||| x.b b i)) s
/-- XOR. -/
def execXor (c : Ctl) (d a : Nat) (b : VS) (s : State) : Res1 :=
  pWord c (useABC c d a (some b) none) (vBody d (fun x i => x.v a i ^^^ x.b b i)) s
/-- NOT. -/
def execNot (c : Ctl) (d a : Nat) (s : State) : Res1 := pWord c (useABC c d a none none) (vBody d (fun x i => ~~~(x.v a i))) s
/-- SHL (R179). -/
def execShl (c : Ctl) (d a : Nat) (b : VS) (t : Ty) (u : Bool) (s : State) : Res1 :=
  pWord c (useABC c d a (some b) none t.bits) (vBody d (fun x i => shlVal t u (x.v a i) (x.b b i))) s
/-- SHR (R179). -/
def execShr (c : Ctl) (d a : Nat) (b : VS) (t : Ty) (u : Bool) (s : State) : Res1 :=
  pWord c (useABC c d a (some b) none t.bits) (vBody d (fun x i => shrVal t u (x.v a i) (x.b b i))) s
/-- SAR (R179). -/
def execSar (c : Ctl) (d a : Nat) (b : VS) (t : Ty) (u : Bool) (s : State) : Res1 :=
  pWord c (useABC c d a (some b) none t.bits) (vBody d (fun x i => sarVal t u (x.v a i) (x.b b i))) s
/-- ROT (R179). -/
def execRot (c : Ctl) (d a : Nat) (b : VS) (t : Ty) (u : Bool) (s : State) : Res1 :=
  pWord c (useABC c d a (some b) none t.bits) (vBody d (fun x i => rotVal t u (x.v a i) (x.b b i))) s
/-- BFX (R180). -/
def execBfx (c : Ctl) (d a : Nat) (b : VS) (t : Ty) (s : State) : Res1 :=
  pWord c (useABC c d a (some b) none t.bits) (vBody d (fun x i => bfxVal t (x.v a i) (x.b b i))) s
/-- BFI (R180). -/
def execBfi (c : Ctl) (d a : Nat) (b : VS) (e : Nat) (s : State) : Res1 :=
  pWord c (useABC c d a (some b) (some e)) (vBody d (fun x i => bfiVal (x.v a i) (x.b b i) (x.v e i))) s
/-- POPC (R181). -/
def execPopc (c : Ctl) (d a : Nat) (t : Ty) (s : State) : Res1 :=
  pWord c (useABC c d a none none t.bits) (vBody d (fun x i => popcVal t (x.v a i))) s
/-- CLZ (R181). -/
def execClz (c : Ctl) (d a : Nat) (t : Ty) (s : State) : Res1 :=
  pWord c (useABC c d a none none t.bits) (vBody d (fun x i => clzVal t (x.v a i))) s
/-- BREV (R181). -/
def execBrev (c : Ctl) (d a : Nat) (t : Ty) (s : State) : Res1 :=
  pWord c (useABC c d a none none t.bits) (vBody d (fun x i => brevVal t (x.v a i))) s
/-- LEA (R182). -/
def execLea (c : Ctl) (d a : Nat) (b : VS) (t : Ty) (sh : Nat) (s : State) : Res1 :=
  pWord c (useABC c d a (some b) none t.bits) (vBody d (fun x i => leaVal t sh (x.v a i) (x.b b i))) s
/-- ISETP (R183). -/
def execIsetp (c : Ctl) (d a : Nat) (b : VS) (t : Ty) (k : Cmp) (any : Bool) (s : State) : Res1 :=
  pWord c { useABC c d a (some b) none t.bits with vw := [], pw := [d] } (pBody d (fun x i => isetpVal t k any (x.v a i) (x.b b i))) s
/-- IADDI (R178). -/
def execIaddi (c : Ctl) (d a : Nat) (imm : Int) (s : State) : Res1 :=
  pWord c (useABC c d a none none) (vBody d (fun x i => iaddiVal (x.v a i) imm)) s
/-- IDOT (R185): latency 5. -/
def execIdot (c : Ctl) (d a : Nat) (b : VS) (e : Nat) (ta tb : Ty) (z : Bool) (s : State) : Res1 :=
  pWord c { useABC c d a (some b) (some e) with lat := 5, widths := dotWidths a b ta tb ++ [(.vec, e, 32)] } (vBody d (fun x i => idotVal ta tb z (x.v a i) (x.b b i) (x.v e i))) s
/-- PLOP (R184). -/
def execPlop (c : Ctl) (d pa pb lut : Nat) (s : State) : Res1 :=
  pWord c { pr := [pa, pb], pw := [d] } (pBody d (fun x i => plopVal lut (x.w.pred pa i) (x.w.pred pb i))) s

end Sys2Proof.Machine
end

