-- ==== Sys2Proof/Machine/Keys.lean ====
section
/-! DEFINITION. Key slots (spec/24 R368 to R371, R105) and the moment a queued launch becomes eligible (spec/05 R84). -/
namespace Sys2Proof.Machine

/-- A key slot replaced. -/
def State.setKey (s : State) (k : Nat) (v : KeySlot) : State :=
  s.setTasks { s.tasks with keySlots := cellSet KeySlot.empty s.tasks.keySlots k v }

/-- The 64 slots. -/
def slotNumbers : List Nat := List.range 64

/-- The lowest free slot. -/
def State.freeKey (s : State) : Option Nat := slotNumbers.find? (fun k => (s.keySlot k).state == .free)

/-- A slot that holds a tenant's key of a KID and is not free (R368). -/
def State.keyOf (s : State) (t : Nat) (kid : Word) : Option Nat :=
  slotNumbers.find? (fun k => let v := s.keySlot k; v.state != .free && v.tenant == t && v.kid == kid)

/-- A launch whose turn for admission may come: from here on it waits for resources (R86). -/
def State.toReady (s : State) (l : Launch) : Launch := { l with phase := .ready, readySince := some (s.time l.tenant) }

/-- A launch becomes a holder and goes on to its lookup or to admission (R370); one that has ended does not (R388). -/
def State.holdKey (s : State) (k uid : Nat) : State :=
  let v := s.keySlot k
  let l := { s.launch uid with slotHeld := some k }
  if l.endInfo.isSome then s
  else (s.setKey k { v with holders := v.holders ++ [uid] }).setLaunch (if l.pure then { l with phase := .queued } else s.toReady l)

/-- The procedure by which a protected launch takes its slot (R370); one that has ended takes none (R388). -/
def State.keyTake (s : State) (uid : Nat) : State :=
  let l := s.launch uid
  if l.endInfo.isSome then s
  else match (if l.keyh.toNat % 64 = 0 ∧ l.keyh.toNat < 2 ^ 48 then s.tenantWords l.tenant none l.keyh.toNat 8 else none) with
  | none => s.endLaunch uid ⟨1, 11, 0⟩
  | some w =>
    let kid := w.getD 0 0
    match s.keyOf l.tenant kid with
    | some k =>
      let v := s.keySlot k
      if v.state = .active then s.holdKey k uid
      else (s.setKey k { v with waiters := v.waiters ++ [uid] }).setLaunch { l with phase := .keyWaiting k }
    | none => match s.freeKey with
      | some k =>
        (s.setKey k { KeySlot.empty with state := .unsealing, tenant := l.tenant, kid := kid, unsealer := uid, waiters := [uid] }).setLaunch
          { l with phase := .keyWaiting k }
      | none =>
        (s.setTasks { s.tasks with keyQueue := s.tasks.keyQueue ++ [uid] }).setLaunch { l with phase := .keywait (s.time l.tenant) }

/-- Free slots granted to the launches in KEYWAIT in the order they entered it (R370); `n` bounds their number. -/
def grantKeys : Nat → State → State
  | 0, s => s
  | n + 1, s =>
    match s.tasks.keyQueue, s.freeKey with
    | uid :: rest, some _ => grantKeys n ((s.setTasks { s.tasks with keyQueue := rest }).keyTake uid)
    | _, _ => s

/-- KEYWAIT served as far as slots are free. -/
def State.grantFree (s : State) : State := grantKeys s.tasks.keyQueue.length s

/-- R371, R105: what is tagged with the slot is invalidated, its keys are zeroed, and it is granted again. -/
def State.retireKey (s : State) (k : Nat) : State :=
  let s1 := (s.setTasks { s.tasks with digests := s.tasks.digests.filter (fun e => e.slot != some k) }).setReuse
    (s.tasks.reuse.filter (fun e => e.slot != some k))
  let s2 := s1.setMem { s1.mem with l2 := s1.mem.l2.map (fun p =>
    (p.1, p.2.map (fun l => { l with slots := l.slots.filter (fun x => x != k) }))) }
  let waiters := (s2.keySlot k).waiters
  (waiters.foldl State.keyTake (s2.setKey k KeySlot.empty)).grantFree

/-- A launch's hold on its slot released (R371). -/
def State.releaseKey (s : State) (uid : Nat) : State :=
  let l := s.launch uid
  match l.slotHeld with
  | none => s
  | some k =>
    let v := s.keySlot k
    let rest := v.holders.filter (fun x => x != uid)
    let s1 := (s.setLaunch { l with slotHeld := none }).setKey k { v with holders := rest }
    if rest = [] then s1.retireKey k else s1

/-- A launch no longer waits for a key, wherever it did. -/
def State.dropKeyWait (s : State) (uid : Nat) : State :=
  s.setTasks { s.tasks with
    keyQueue := s.tasks.keyQueue.filter (fun x => x != uid),
    keySlots := s.tasks.keySlots.map (fun p => (p.1, { p.2 with waiters := p.2.waiters.filter (fun x => x != uid) })) }

/-- A sealed blob opened (R369, R370): the XTS and MAC keys. The KID is the one that the slot was taken for. -/
def State.unseal (s : State) (t : Nat) (kid keyh : Word) : Option (List Byte × List Byte) :=
  match s.tenantWords t none keyh.toNat 72 with
  | none => none
  | some l =>
    let b := nats (wordBytes l)
    match oaepDecrypt Config.sealingModulus Config.sealingExponent (b.drop 64) with
    | none => none
    | some m =>
      if s.isReady 33 ∧ (b.drop 9).take 55 = List.replicate 55 0 ∧ kid ≠ 0 ∧ b.getD 8 0 = t ∧
          m.length = 104 ∧ m.drop 96 = nats (wordBytes [kid]) then some (bytes8 (m.take 64), bytes8 ((m.drop 64).take 32))
      else none

/-- KEY_UNSEAL_DONE (R370): the slot becomes ACTIVE and its waiters holders; or the unsealing launch completes BADRECORD and the
others start again. -/
def execKeyUnsealDone (slot : Nat) (s : State) : Res1 :=
  .next (
    let v := s.keySlot slot
    if v.state ≠ .unsealing then s
    else match s.unseal v.tenant v.kid (s.launch v.unsealer).keyh with
      | some (x, m) =>
        let s1 := s.setKey slot { v with state := .active, xts := x, mac := m, waiters := [] }
        let s2 := v.waiters.foldl (fun t uid => t.holdKey slot uid) s1
        if (s2.keySlot slot).holders = [] then s2.retireKey slot else s2
      | none =>
        let s1 := (s.setKey slot KeySlot.empty).endLaunch v.unsealer ⟨1, 11, 0⟩
        ((v.waiters.filter (fun u => u != v.unsealer)).foldl State.keyTake s1).grantFree)

/-- KEYWAIT_TIMEOUT (R370): KEYLIM is over and no slot is free. -/
def execKeywaitTimeout (uid : Nat) (s : State) : Res1 :=
  .next (
    let l := s.launch uid
    match l.phase with
    | .keywait since =>
      if l.keylim ≠ 0 ∧ 1000 * l.keylim ≤ s.elapsed l.tenant since ∧ s.freeKey = none then (s.dropKeyWait uid).endLaunch uid ⟨4, 0, 0⟩ else s
    | _ => s)

/-! ### Becoming eligible (R84) -/

/-- One queued launch looked at: PREDFAILED, or eligible now. -/
def State.settleOne (s : State) (uid : Nat) : State :=
  let l := s.launch uid
  if l.phase ≠ .queued ∨ l.eligibleAt.isSome ∨ l.endInfo.isSome ∨ !s.eligible l then s
  else if s.predFailed l then s.endLaunch uid ⟨3, 0, 0⟩
  else
    let l1 := { l with eligibleAt := some (s.time l.tenant) }
    let s1 := s.setLaunch (if l.pure ∨ l.prot then l1 else s.toReady l1)
    if l.prot then s1.keyTake uid else s1

/-- Every queued launch looked at, in the order queued. -/
def State.settleEligible (s : State) : State := (s.tasks.launches.map Launch.uid).foldl State.settleOne s

end Sys2Proof.Machine
end

