-- ==== Sys2Proof/Machine/Perform.lean ====
section
/-! DEFINITION. Performing the outstanding accesses of a wave (spec/13 R227 to R230, R236; spec/15 R259, R261; spec/19 R298 to R303, R310,
R316, R317):
which parts may be performed now, and what performing one does. -/
namespace Sys2Proof.Machine

/-- A part that is not there. -/
def Part.blank : Part := ⟨0, 0, 0, .mem 0, 0, 0, 0, 0, true, none⟩

/-- A part of an operation. -/
def MemOp.part (o : MemOp) (k : Nat) : Part := o.parts.getD k Part.blank

/-- The address in its space. -/
def Loc.addr : Loc → Nat
  | .mem a | .remote _ a | .pad _ a => a

/-- Two locations lie in one aligned unit of `n` bytes. -/
def Loc.near (n : Nat) : Loc → Loc → Bool
  | .mem a, .mem b => a / n == b / n
  | .remote d a, .remote e b => d == e && a / n == b / n
  | .pad c a, .pad d b => c == d && a / n == b / n
  | _, _ => false

/-- Two byte ranges meet. -/
def Loc.meets : Loc → Nat → Loc → Nat → Bool
  | .mem a, n, .mem b, m => decide (a < b + m ∧ b < a + n)
  | .remote d a, n, .remote e b, m => d == e && decide (a < b + m ∧ b < a + n)
  | .pad c a, n, .pad d b, m => c == d && decide (a < b + m ∧ b < a + n)
  | _, _, _, _ => false

/-- What a load reaches at once: a sector of global memory (R227), an aligned word of a pool (R230). -/
def Loc.unit : Loc → Nat
  | .pad _ _ => 8
  | _ => 32

/-- A part meets an unperformed part. -/
def Part.blocks (q p : Part) : Bool := !q.done && q.loc.meets q.size p.loc p.size

/-- A part of an earlier operation that one of a later operation waits for: to a common byte (R299), or for two stores to a common sector of
a PROT frame, whose merges would else lose bytes of the wave's own (R228). -/
def MemOp.blocks (e o : MemOp) (q p : Part) : Bool :=
  q.blocks p || (!q.done && e.act == .store && o.act == .store && isProt p.attr && q.loc.near 32 p.loc)

/-- The access is a read without a write: its parts in one unit are bound together (R227, R230). -/
def OpAct.isLoad : OpAct → Bool
  | .load | .gather => true
  | _ => false

/-- Some part is still to be performed. -/
def MemOp.open' (o : MemOp) : Bool := o.parts.any (fun p => !p.done)

/-- The operation is a store. -/
def OpAct.isStore : OpAct → Bool
  | .store => true
  | _ => false

/-- A part lies in a pool. -/
def Loc.isPad : Loc → Bool
  | .pad _ _ => true
  | _ => false

/-- Parts performed with part `k`, by one request (R227): those of a load in its sector or word of a pool (R230), those of a store in its
sector. -/
def MemOp.batch (o : MemOp) (k : Nat) : List Nat :=
  let p := o.part k
  (List.range o.parts.length).filter (fun j =>
    let q := o.part j
    !q.done && (j == k || (o.act.isLoad && q.loc.near p.loc.unit p.loc) || (o.act.isStore && !p.loc.isPad && q.loc.near 32 p.loc)))

/-- A wave's accesses that were issued before an operation. -/
def Wave.before (w : Wave) (id : Nat) : List MemOp := w.ops.filter (fun o => decide (o.id < id))

/-- An acquire of the wave issued before is not performed yet: nothing issued after it may be (R310). -/
def Wave.acqOpen (w : Wave) (id : Nat) : Bool := (w.before id).any (fun e => e.acq && e.open')

/-- R299, R310, R316: what is performed with part `k` waits for no earlier acquire, for no earlier access of the wave to the same bytes, and
in a word that writes for no lower lane's. -/
def Wave.mayPerform (w : Wave) (o : MemOp) (k : Nat) : Bool :=
  let js := o.batch k
  !(o.part k).done && !w.acqOpen o.id &&
    (w.before o.id).all (fun e => js.all (fun j => e.parts.all (fun q => !e.blocks o q (o.part j)))) &&
    (o.act.isLoad || js.all (fun j => (List.range j).all (fun i => js.contains i || !(o.part i).blocks (o.part j))))

/-- An operation replaced. -/
def Wave.setOp (w : Wave) (o : MemOp) : Wave := { w with ops := updWhere (fun x => x.id == o.id) (fun _ => o) w.ops }

/-- Parts marked as performed. -/
def MemOp.mark (o : MemOp) (p : Nat → Part → Bool) : MemOp :=
  { o with parts := o.parts.mapIdx (fun j q => if p j q then { q with done := true } else q) }

/-- A register of a wave written by an operation that ends: a pending write the program overtook lands or not, as a free value
says (R159); a register no longer held takes nothing. -/
def State.landReg (s : State) (w : Wave) (id reg lane : Nat) (v : Word) : Wave :=
  let clob := w.pend.any (fun p => p.kind == .vec && p.idx == reg && p.due == .op id && p.clob)
  if w.vcount ≤ reg ∨ (clob ∧ (s.free (32 * reg + lane)).getLsbD 0) then w else w.setVreg reg lane v

/-- The registers that performing part `k`, or an operation without parts, brings. -/
def MemOp.brings (o : MemOp) (k : Nat) : List Nat :=
  match o.act with
  | .load | .gather => ((o.batch k).map (fun j => o.reg + (o.part j).k)).dedup
  | .atom _ _ | .grpq _ | .chq _ _ _ | .pqry _ | .accrd _ => [o.reg]
  | .store | .red _ _ | .accwr _ => []

/-- R301, R303: what a strong read's tags do in the reading wave: the releases met are kept for a later FENCE, and an acquire that does
not agree with one sets SCOPEMIS; so does a read that a FENCE at wave scope has passed while it was open, with that scope. -/
def Wave.readTags (w : Wave) (now : Nat) (o : MemOp) (tags : List WTag) : Wave :=
  if !o.strong then w
  else
    let met := tags.filterMap (fun t => t.met w)
    let v := if o.fenced then w else { w with relTags := w.relTags ++ (met.filter (fun m => !w.relTags.contains m)).dedup }
    if (o.acq && met.any (fun m => disagree m.1 m.2 o.scope)) || (o.fenced && met.any (fun m => disagree m.1 m.2 0)) then v.hwSticky now 0 1
    else v

/-- The acquire side of a read, once its value is bound (R310). -/
def State.acquireOf (s : State) (w : Wave) (o : MemOp) : State := if o.acq then s.acquire w.core o.scope else s

/-- R115, R261, R341: the lanes of some parts refused, each with the address of its own; nothing more of them is performed. -/
def Wave.refuse (w : Wave) (o : MemOp) (ks : List Nat) (cause : Nat) : Wave :=
  let lanes := (ks.map (fun j => (o.part j).lane)).dedup
  { w.setOp (o.mark (fun _ q => lanes.contains q.lane)) with
    refusals := w.refusals ++ lanes.map (fun i =>
      ⟨i, cause, ((ks.find? (fun j => (o.part j).lane == i)).map (fun j => (o.part j).va)).getD 0⟩) }

/-- The bytes of a part out of those of a range that starts at `base`. -/
def Part.cut (p : Part) (base : Nat) (l : List Byte) : Word := BitVec.ofNat 64 (natOfBytes ((l.drop (p.loc.addr - base)).take p.size))

/-- A batch of a load is bound to bytes that start at `base`. -/
def State.bindLoad (s : State) (w : Wave) (o : MemOp) (js : List Nat) (base : Nat) (l : List Byte) : State :=
  let w1 := js.foldl (fun v j => let p := o.part j
    s.landReg v o.id (o.reg + p.k) p.lane (p.cut base l)) w
  s.tickFresh.setWave (w1.setOp (o.mark (fun j _ => js.contains j)))

/-- Who makes the request of a part (R249). -/
def Wave.asker (w : Wave) (o : MemOp) (k : Nat) : Requester := .op w.core w.slot o.id k

/-- The tags of a batch, by those on the bytes of each part. -/
def MemOp.tagsBy (o : MemOp) (js : List Nat) (f : Nat → Nat → List WTag) : List WTag :=
  js.flatMap (fun j => f (o.part j).loc.addr (o.part j).size)

/-- An access to another device (R257 to R261): refused at the source where the port let it not leave; else it goes as the stops' tokens
allow, and what `f` says is done. -/
def State.sendRemote (s : State) (w : Wave) (o : MemOp) (js : List Nat) (p : Part) (f : State → State) : State :=
  if p.via.isNone then s.setWave (w.refuse o js cLINK)
  else match s.takeStops w.tenant (s.stopsOut w.core w.tenant p.loc.addr) with
    | none => s
    | some s1 => f s1

/-- An access to a pool of the die, which crosses the mesh where the pool is another core's (R231, R255). -/
def State.sendPad (s : State) (w : Wave) (core : Nat) (f : State → State) : State :=
  match s.takeStops w.tenant (State.stopsPad w.core core) with
  | none => s
  | some s1 => f s1

/-! ### Requests keep their order (R252) -/

/-- The virtual channel of an operation's requests (R253): write data and RED operands on VC-W, the others on VC-Q. -/
def OpAct.vc : OpAct → Nat
  | .store | .red _ _ => 2
  | _ => 0

/-- The stop that a request to a place goes to: the core stop of the home slice or of the pool; past every stop of the die the port, by the
device beyond it. -/
def Loc.stop : Loc → Nat
  | .mem a => dieOf a * 192 + sliceCore (sliceOf a)
  | .pad c _ => c
  | .remote d _ => 2048 + d

/-- Where a core's L1 serves a part of a load, what it holds (R226). -/
def State.l1Serves (s : State) (w : Wave) (o : MemOp) (p : Part) (l1 : Bool) : Option (Nat × List Byte) :=
  match p.loc with
  | .mem a => if l1 && decide (o.scope ≤ 1) && o.act == .load && !isWatch p.attr then s.l1Find w.core a else none
  | _ => none

/-- One operation was issued before another one of the same core: in its wave, or in an earlier cycle. -/
def Wave.issuedBefore (v w : Wave) (e o : MemOp) : Bool := if v.slot = w.slot then decide (e.id < o.id) else decide (e.born < o.born)

/-- R252: a request of the same tenant's, from the same stop to the same one on the same channel and sent before, that has not arrived: it
could be performed now, and its values can land. Link flits say by their sequence tags which was sent before (R257). -/
def State.behind (s : State) (w : Wave) (o : MemOp) (k : Nat) : Bool :=
  let p := o.part k
  p.loc.stop != w.core && s.cores.waves.any (fun v => v.core == w.core && v.tenant == w.tenant && v.ops.any (fun e =>
    e.act.vc == o.act.vc && (List.range e.parts.length).any (fun j =>
      let q := e.part j
      !q.done && q.loc.stop == p.loc.stop && (match q.via, p.via with
        | some f, some g => decide (f.head.seq < g.head.seq)
        | _, _ => v.issuedBefore w e o) && v.mayPerform e j && (s.landing v (e.brings j)).isSome)))

/-- A load's batch at its home: from the L1 where the event says so and R226 allows it, else at the home slice. What another device
holds is free (log 52). -/
def State.performLoad (s : State) (w : Wave) (o : MemOp) (k : Nat) (l1 : Bool) : State :=
  let p := o.part k
  let js := o.batch k
  let now := s.ctl.cycle
  match p.loc with
  | .pad c off =>
    s.sendPad w c (fun s1 =>
      (s1.acquireOf w o).bindLoad (w.readTags now o (o.tagsBy js (s.padTagsAt w.launch c))) o js (off / 8 * 8) (s.readPad w.launch c (off / 8 * 8) 8))
  | .remote dev a => s.sendRemote w o js p (fun s1 =>
      (s1.acquireOf w o).bindLoad (w.readTags now o [s.freeTag dev]) o js (a / 32 * 32) (s.freeBytes (a / 32 * 32) 32))
  | .mem a =>
    let base := a / 32 * 32
    let slot := s.slotFor w p.attr
    match s.l1Serves w o p l1 with
    | some e =>
      let data := match slot with
        | some key => if e.1 = (s.frame (mfnOf a)).gen then s.decrypt key base e.2 else s.l1Data a e
        | none => s.l1Data a e
      (s.acquireOf w o).bindLoad (w.readTags now o (o.tagsBy js (s.l1Tags w.core))) o js base data
    | none =>
      match s.homeAccess w.core w.tenant (w.asker o k) slot o.evict base 32 [] (fun _ => none) with
      | .wait s1 => s1
      | .refuse c => s.setWave (w.refuse o js c)
      | .done s1 old =>
        let s2 := s1.acquireOf w o
        let s3 := if o.act = .gather then s2.l1Drop w.core base else s2.l1Fill w.core a (if o.scope ≤ 1 then o.evict else 3)
        s3.bindLoad (w.readTags now o (o.tagsBy js s.tagsAt)) o js base old

/-- The bytes of a sector with those of some parts put in, a higher lane's after a lower one's (R230). -/
def MemOp.merged (o : MemOp) (js : List Nat) (old : List Byte) : List Byte :=
  js.foldl (fun d j => patch d ((o.part j).loc.addr % 32) (bytesOf (o.part j).size (o.part j).val.toNat)) old

/-- Some parts write every byte of a sector. -/
def MemOp.fills (o : MemOp) (js : List Nat) : Bool :=
  (List.range 32).all (fun i => js.any (fun j => let p := o.part j; decide (p.loc.addr % 32 ≤ i ∧ i < p.loc.addr % 32 + p.size)))

/-- The ranges that some parts of a store write, each with what the write leaves (R303). -/
def MemOp.ranges (o : MemOp) (js : List Nat) (w : Wave) : List (Nat × Nat × Option WTag) :=
  js.map (fun j => ((o.part j).loc.addr, (o.part j).size, o.tag w))

/-- A store's parts in a sector of a PROT frame (R228): where they write all of it, or it has been read, the sector is written whole; else it
is read first, so that another wave's write between the two is lost. -/
def State.performProt (s : State) (w : Wave) (o : MemOp) (k a : Nat) : State :=
  let js := o.batch k
  let base := a / 32 * 32
  let old := cellGet [] o.merging (a / 32)
  let slot := s.slotFor w (o.part k).attr
  if !o.fills js && old = [] then
    match s.homeAccess w.core w.tenant (w.asker o k) slot o.evict base 32 [] (fun _ => none) with
    | .wait s1 => s1
    | .refuse c => s.setWave (w.refuse o js c)
    | .done s1 d => s1.setWave (w.setOp { o with merging := cellSet [] o.merging (a / 32) d })
  else
    match s.homeAccess w.core w.tenant (w.asker o k) slot o.evict base 32
        (o.ranges js w) (fun _ => some (o.merged js (if old = [] then List.replicate 32 0 else old))) with
    | .wait s1 => s1
    | .refuse c => s.setWave (w.refuse o js c)
    | .done s1 _ => (s1.acquireOf w o).setWave (w.setOp (o.mark (fun j _ => js.contains j)))

/-- A store's batch at its home (R227): its parts in a sector go by one request, and of the sector's bytes only theirs change. -/
def State.performStore (s : State) (w : Wave) (o : MemOp) (k : Nat) : State :=
  let p := o.part k
  let js := o.batch k
  let w1 := w.setOp (o.mark (fun j _ => js.contains j))
  match p.loc with
  | .pad c off => s.sendPad w c (fun s1 => ((s1.acquireOf w o).writePad w.launch c off (bytesOf p.size p.val.toNat) (o.tag w)).setWave w1)
  | .remote _ _ => s.sendRemote w o js p (fun s1 => (s1.acquireOf w o).setWave w1)
  | .mem a =>
    if (s.slotFor w p.attr).isSome then s.performProt w o k a
    else match s.homeAccess w.core w.tenant (w.asker o k) none o.evict (a / 32 * 32) 32 (o.ranges js w) (fun l => some (o.merged js l)) with
      | .wait s1 => s1
      | .refuse c => s.setWave (w.refuse o js c)
      | .done s1 _ => (s1.acquireOf w o).setWave w1

/-- One part of an atomic or RED at its home (R316, R262); `ret` says whether the old value goes to vD. -/
def State.performAtom (s : State) (w : Wave) (o : MemOp) (k : Nat) (op : AOp) (wd : AWid) (ret : Bool) : State :=
  let p := o.part k
  let new := fun (l : List Byte) => bytesOf wd.bytes (atomNew op wd (natOfBytes l) p.val.toNat p.cmp.toNat)
  let finish := fun (t : State) (tags : List WTag) (old : List Byte) =>
    let w1 := w.readTags s.ctl.cycle o tags
    let v := if ret then s.landReg w1 o.id o.reg p.lane (BitVec.ofNat 64 (natOfBytes old)) else w1
    (t.acquireOf w o).tickFresh.setWave (v.setOp (o.mark (fun j _ => j == k)))
  match p.loc with
  | .pad c off =>
    let old := s.readPad w.launch c off wd.bytes
    s.sendPad w c (fun s1 => finish (s1.writePad w.launch c off (new old) (o.tag w)) (s.padTagsAt w.launch c off wd.bytes) old)
  | .remote dev a => s.sendRemote w o [k] p (fun s1 => finish s1 [s.freeTag dev] (s.freeBytes a wd.bytes))
  | .mem a =>
    match s.homeAccess w.core w.tenant (w.asker o k) none o.evict a wd.bytes [(a, wd.bytes, o.tag w)] (fun l => some (new l)) with
    | .wait s1 => s1
    | .refuse c => s.setWave (w.refuse o [k] c)
    | .done s1 old => finish (s1.l1Drop w.core a) (s.tagsAt a wd.bytes) old

/-- Tile operations of the wave that were issued before and name a handle (R282). -/
def State.tilesOn (s : State) (w : Wave) (id h : Nat) : Bool :=
  (s.ctx w.launch w.core).tiles.any (fun t => t.slot == w.slot && decide (t.word < id) && t.handles.contains h)

/-- ACCRD and ACCWR on a handle issued before by the wave (R282). -/
def Wave.accBefore (w : Wave) (id h : Nat) : Bool :=
  (w.before id).any (fun o => match o.act with
    | .accrd l => l.any (fun x => x.2.1 == h)
    | .accwr l => l.any (fun x => x.2.1 == h)
    | _ => false)

/-- R293, ACCRD: a stale handle reads as two +0. -/
def accPair (c : Ctx) (h r col : Nat) : Word :=
  match c.alloc? h with
  | none => 0
  | some a => BitVec.ofNat 64 ((a.elem r col).toNat + 2 ^ 32 * (a.elem r (col + 1)).toNat)

/-- The registers of lanes written with values taken at one instant, and the operation over. -/
def State.bindAll (s : State) (w : Wave) (o : MemOp) (l : List (Nat × Word)) : State :=
  let w1 := l.foldl (fun v x => s.landReg v o.id o.reg x.1 x.2) w
  s.tickFresh.setWave { w1 with ops := w1.ops.filter (fun x => x.id != o.id) }

/-- One part performed, or the whole of an operation that has no parts. -/
def State.performPart (s : State) (w : Wave) (o : MemOp) (k : Nat) (l1 : Bool) : State :=
  let c := s.ctx w.launch w.core
  match o.act with
  | .load | .gather => s.performLoad w o k l1
  | .store => s.performStore w o k
  | .atom op wd => s.performAtom w o k op wd true
  | .red op wd => s.performAtom w o k op wd false
  | .grpq l => s.bindAll w o (l.map (fun x => (x.1, grpqVal (s.launch w.launch) w x.2)))
  | .chq ch item l => s.bindAll w o (l.map (fun i => (i, chqVal (s.launch w.launch) ch item)))
  | .pqry l => s.bindAll w o (l.map (fun x => (x.1, presenceMask s w.launch x.2.1 x.2.2)))
  | .accrd l =>
    if l.any (fun x => s.tilesOn w o.id x.2.1 || w.accBefore o.id x.2.1) then s
    else s.bindAll w o (l.map (fun x => (x.1, accPair c x.2.1 x.2.2.1 x.2.2.2)))
  | .accwr l =>
    if l.any (fun x => s.tilesOn w o.id x.2.1 || w.accBefore o.id x.2.1) then s
    else
      let c1 := l.foldl (fun d x => match d.alloc? x.2.1 with
        | none => d
        | some a => d.setAlloc x.2.1 ((a.setElem x.2.2.1 x.2.2.2.1 (x.2.2.2.2.setWidth 32)).setElem x.2.2.1 (x.2.2.2.1 + 1)
            ((x.2.2.2.2 >>> 32).setWidth 32))) c
      (s.setCtx c1).bindAll w o []

/-- A finished operation leaves: its counter falls (R236, R317). -/
def Wave.retireOps (w : Wave) : Wave :=
  let gone := (w.ops.filter (fun o => o.parts != [] && !o.open')).map MemOp.id
  if gone = [] then w else { w with ops := w.ops.filter (fun o => !gone.contains o.id) }

/-- What a WAIT that is over makes ready: the registers of the operations that are done (R236, log 53). -/
def Wave.readyOps (w : Wave) : Wave :=
  { w with pend := w.pend.filter (fun p => match p.due with
      | .op id => (w.op? id).isSome
      | .at _ => true) }

/-- One step of an operation: part `k` if it may be performed now, in its turn unless the L1 serves it (R252); an operation without parts
waits for the wave's earlier acquires. -/
def State.performAt (s : State) (core slot id k : Nat) (l1 : Bool) : State :=
  match s.wave? core slot with
  | none => s
  | some w => match w.op? id with
    | none => s
    | some o =>
      if (o.parts = [] ∧ !w.acqOpen id) ∨ (w.mayPerform o k ∧ ((s.l1Serves w o (o.part k) l1).isSome ∨ !s.behind w o k)) then
        match s.landing w (o.brings k) with
        | none => s
        | some v => s.performPart v o k l1
      else s

/-- An event that performs a part, or all that may be performed in order; then what is finished leaves. -/
def State.performOp (s : State) (core slot id : Nat) (part : Option Nat) (l1 : Bool) : State :=
  let n := match (s.wave? core slot).bind (fun w => w.op? id) with
    | some o => max 1 o.parts.length
    | none => 0
  let ks := match part with
    | some k => if k < n then [k] else []
    | none => List.range n
  let s1 := ks.foldl (fun t k => t.performAt core slot id k l1) s
  match s1.wave? core slot with
  | none => s1
  | some w => s1.setWave w.retireOps

end Sys2Proof.Machine
end

