-- ==== Sys2Proof/Machine/Accesses.lean ====
section
/-! DEFINITION. Shared steps of the words that access memory (spec/13 R221, R231 to R236; spec/16 R269; spec/19 R310, R313,
R318, R319): the checks of each lane, the release side, the checks of job cards and of watched sectors, and the outstanding
operation a word leaves. -/
namespace Sys2Proof.Machine

/-- A lane's access that passed its checks; `impure` is the address at which it breaks purity (R102). -/
structure Acc where
  lane : Nat
  va : Word
  loc : Loc
  attr : Nat
  tlb : Option Tlb
  impure : Option Word
  deriving DecidableEq, Repr

/-- What the ORD, SCOPE and EVICT of a word ask. -/
structure Order where
  ord : Ord
  scope : Nat
  evict : Nat
  deriving DecidableEq, Repr

/-- The word's accesses are strong (R298). -/
def Order.strong (o : Order) : Bool := o.ord != .plain

/-- The lane's checks of a global access of `n` bytes (R221), then of purity (R89, R102, R103): `never` marks a word that
always breaks it, `noProt` one that a PROT frame refuses. -/
def globalAcc (x : Ex) (o : Order) (n need : Nat) (store never noProt : Bool) (lane : Nat) (va : Word) : Except (Nat × Word) Acc :=
  match x.s.checkVa x.w va n need with
  | .error e => .error e
  | .ok e =>
    let l := x.l
    let bad := l.pure && (never || decide (4 ≤ o.scope) || !l.footprint va.toNat n store)
    if noProt ∧ isProt e.attr then .error (cPERM, va)
    else .ok ⟨lane, va, e.loc va.toNat, e.attr, some e, if bad then some va else none⟩

/-- The lane's checks of a scratchpad access (R231). -/
def padAcc (x : Ex) (n : Nat) (lane : Nat) (a : Word) : Except (Nat × Word) Acc :=
  match x.s.checkPad x.w a n with
  | .error e => .error e
  | .ok (c, off) => .ok ⟨lane, a, .pad c off, 0, none, none⟩

/-- The lanes that fault, with their causes. -/
def badLanes (l : List (Nat × Except (Nat × Word) Acc)) : List (Nat × Nat × Word) :=
  l.filterMap (fun p => match p.2 with
    | .error e => some (p.1, e.1, e.2)
    | .ok _ => none)

/-- The lanes that access. -/
def okLanes (l : List (Nat × Except (Nat × Word) Acc)) : List Acc :=
  l.filterMap (fun p => match p.2 with
    | .error _ => none
    | .ok a => some a)

/-- Some lane that passed the checks of R221 breaks purity. -/
def anyImpure (l : List Acc) : Bool := l.any (fun a => a.impure.isSome)

/-- A lane that breaks purity faults under PURETRAP (R103). -/
def trapPure (x : Ex) (p : Nat × Except (Nat × Word) Acc) : Nat × Except (Nat × Word) Acc :=
  match p.2 with
  | .error _ => p
  | .ok a => match a.impure with
    | some v => if x.l.puretrap then (p.1, .error (cPERM, v)) else p
    | none => p

/-! ### The release side (R310, R313) -/

/-- Every access the wave has issued is performed: its operations, copy jobs and tile operations. -/
def Wave.quiet (w : Wave) : Bool := w.drained

/-- The release side at a scope: none when it is complete, else the state in which the word holds; markers go out on every path
used since the last release. -/
def releaseSide (s : State) (w : Wave) (scope : Nat) : Option State :=
  if scope = 0 then none
  else if scope = 1 then (if w.quiet then none else some s)
  else if w.paths ≠ [] then
    let s1 := w.paths.foldl (fun t p => t.spendCtl w.core (t.pathStop w.tenant w.die p)) s
    some (s1.setWave { w with paths := [], markers := w.markers ++ w.paths })
  else if w.markers ≠ [] ∨ !w.quiet then some s
  else none

/-- The paths of a wave after accesses to some places (R313): for the link, past 16 devices, every device on which the tenant holds a
frame. -/
def Wave.usePaths (s : State) (w : Wave) (l : List Loc) : Wave :=
  let new := (l.flatMap (s.pathsOf w.tenant w.die)).dedup.filter (fun p => !w.paths.contains p)
  let all := w.paths ++ new
  let devs := all.filter (fun p => match p with
    | .link _ => true
    | _ => false)
  let extra := if devs.length ≤ 16 then [] else
    (((s.tenant w.tenant).places.filter (fun p => p.kind == .frame && decide (2 ^ 24 ≤ p.phys))).map
      (fun p => Path.link (p.phys / 2 ^ 24 - 1))).dedup.filter (fun p => !all.contains p)
  if new = [] then w else { w with paths := all ++ extra }

/-! ### Job cards (R266, R269) -/

/-- Some row of a shape meets a byte range of `n` bytes, `n` not 0: of the rows that begin before the range ends, the last reaches
furthest. -/
def rowsMeet (base pitch rb rows va n : Nat) : Bool :=
  let r := if pitch = 0 then 0 else min (rows - 1) ((va + n - 1 - base) / pitch)
  decide (0 < rows ∧ base < va + n ∧ va < base + pitch * r + rb)

/-- The exact read footprint of a card meets a range of VAs. -/
def Card.readMeets (c : Card) (va n : Nat) : Bool :=
  c.kind != .cpym && c.src.pad.isNone && rowsMeet c.src.addr c.srcPitch c.rowBytes c.rows va n

/-- The exact write footprint of a card meets a range of VAs. -/
def Card.writeMeets (c : Card) (va n : Nat) : Bool :=
  c.dst.pad.isNone && (if c.kind = .cpyd then rowsMeet c.dst.addr 0 16 1 va n
    else rowsMeet c.dst.addr c.dstPitch c.rowBytes c.rows va n)

/-- R269: a plain LDG or STG meets a card not yet complete. -/
def cardRace (x : Ex) (va : Word) (n : Nat) (store : Bool) : Bool :=
  (x.s.ctx x.w.launch x.w.core).cards.any (fun c =>
    c.state != .complete && (c.writeMeets va.toNat n || (store && c.readMeets va.toNat n)))

/-! ### Watched frames (R318, R319) -/

/-- The groups and epochs a write record keeps: four at most. -/
def watchEpochs (l : Launch) (w : Wave) : List (Nat × Nat) := (w.groups.take 4).map (fun r => (r.gid, (l.group r.gid).epoch))

/-- R322: epoch `e` is above a recorded one. -/
def epochAbove (e r : Nat) : Bool := let d := (e + 2 ^ 48 - r) % 2 ^ 48; decide (1 ≤ d ∧ d ≤ 2 ^ 47)

/-- R319: the sector holds another wave's record that no common barrier has passed. -/
def watchRace (s : State) (w : Wave) (ma : Nat) : Bool :=
  match s.mem.watch.find? (fun r => r.sector == ma / 32) with
  | none => false
  | some r =>
    let l := s.launch w.launch
    if r.launch = w.launch ∧ r.wid = w.wid then false
    else !(decide (r.launch = w.launch) && r.epochs.any (fun p =>
      (l.group p.1).members.contains w.wid && epochAbove (l.group p.1).epoch p.2))

/-- The access is a plain one to a watched frame of this device. -/
def Acc.watched (a : Acc) (o : Order) : Bool :=
  !o.strong && isWatch a.attr && (match a.loc with
    | .mem _ => true
    | _ => false)

/-- The lane's checks of cards and of watched sectors, after R221 has passed; `at'` are the places its parts lie at. -/
def raceCheck (x : Ex) (o : Order) (n : Nat) (store cards : Bool) (at' : Acc → List (Word × Loc)) (p : Nat × Except (Nat × Word) Acc) :
    Nat × Except (Nat × Word) Acc :=
  match p.2 with
  | .error _ => p
  | .ok a =>
    if !o.strong && cards && cardRace x a.va n store then (p.1, .error (cRACE, a.va))
    else match (if a.watched o then (at' a).find? (fun q => match q.2 with
        | .mem ma => watchRace x.s x.w ma
        | _ => false) else none) with
      | some q => (p.1, .error (cRACE, q.1))
      | none => p

/-! ### The outstanding operation -/

/-- The parts of a lane's access: aligned words of 8 bytes at most (R230). `val` gives the word stored. -/
def partsOf (a : Acc) (n : Nat) (val cmp : Nat → Word) : List Part :=
  (List.range (max 1 (n / 8))).map (fun k =>
    ⟨a.lane, k, a.va, a.loc.plus (8 * k), min n 8, a.attr, val k, cmp k, false, none⟩)

/-- Registers whose value an operation will bring, with what they held before (R159, R236). -/
def opPends (w : Wave) (regs : List Nat) (id : Nat) : List Pend :=
  regs.map (fun r => ⟨.vec, r, .op id, (List.range 32).map (fun i => (i, w.vreg r i)), false⟩)

/-- A part leaves its core: one to another device on the next of the tenant's lanes (R257, R259), or in the flit of an earlier part of its
sector (R227), which an atomic never shares. -/
def State.sendPart (w : Wave) (act : OpAct) (q : State × List Part) (p : Part) : State × List Part :=
  match p.loc with
  | .remote dev a =>
    match (if act.isLoad || act.isStore then q.2.find? (fun r => r.loc.near 32 p.loc) else none) with
    | some r => (q.1, q.2 ++ [{ p with via := r.via }])
    | none =>
      let r := q.1.sendFlit w.tenant w.die act.vc [dev, a, p.val.toNat]
      (r.1, q.2 ++ [{ p with via := r.2 }])
  | _ => (q.1, q.2 ++ [p])

/-- What the word leaves behind: the operation, its pending registers, its paths, cached translations and purity. -/
def startOp (x : Ex) (act : OpAct) (ld : Bool) (reg : Nat) (regs : List Nat) (width : Nat) (o : Order) (acq rel : Bool)
    (accs : List Acc) (parts : List Part) : State :=
  let w := x.wave
  let sent := parts.foldl (State.sendPart w act) (x.s, [])
  let op : MemOp := ⟨w.nextOp, ld, act, reg, width, sent.2, o.strong, acq, rel, o.scope, o.evict, w.relScope, [], false, x.s.ctl.cycle⟩
  let w1 := { w with ops := w.ops ++ [op], nextOp := w.nextOp + 1, pend := w.pend ++ opPends w regs w.nextOp }
  let s1 := sent.1.setWave (w1.usePaths x.s (parts.map Part.loc))
  let s2 := accs.foldl (fun s a => match a.tlb with
    | some e => s.cacheTlb w.core w.tenant e
    | none => s) s1
  if anyImpure accs then s2.impure w.launch else s2

/-- The parts of plain accesses to watched frames are performed before the wave goes on (R319), twice over since a PROT frame's sector is
first read (R228), and a plain write leaves its record (R318). -/
def settleWatch (s : State) (w : Wave) (id : Nat) (o : Order) (store : Bool) (accs : List Acc) : State :=
  let hot := accs.filter (fun a => a.watched o)
  if hot = [] then s
  else
    let s1 := match (s.wave? w.core w.slot).bind (fun v => v.op? id) with
      | none => s
      | some op => (List.range op.parts.length ++ List.range op.parts.length).foldl (fun t k =>
          if hot.any (fun a => a.lane == (op.part k).lane) then t.performAt w.core w.slot id k false else t) s
    let s2 := match s1.wave? w.core w.slot with
      | some v => s1.setWave v.retireOps
      | none => s1
    if !store then s2
    else hot.foldl (fun t a => match a.loc with
      | .mem ma => if (t.frame (mfnOf ma)).owner = w.tenant then
          t.setWatch ma (some ⟨ma / 32, w.launch, w.wid, watchEpochs (t.launch w.launch) w⟩) else t
      | _ => t) s2

/-- Some plain access to a watched frame is not performed yet: the word holds its wave until it is (R299, R310, R319). -/
def watchBusy (s : State) (w : Wave) (id : Nat) (o : Order) (accs : List Acc) : Bool :=
  ((s.wave? w.core w.slot).bind (fun v => v.op? id)).any (fun op =>
    op.parts.any (fun q => !q.done && accs.any (fun a => a.watched o && a.lane == q.lane)))

/-- The steps of a word that accesses memory: the release side where `rel` asks, the lanes' checks, the holds, then the
operation. `mk` makes the parts of a lane. -/
def accessWord (x : Ex) (o : Order) (act : OpAct) (ld store cards acq rel : Bool) (n reg : Nat) (regs : List Nat)
    (lanes : List (Nat × Except (Nat × Word) Acc)) (mk : Acc → List Part) : Out :=
  let w := x.wave
  match (if rel then releaseSide x.s w o.scope else none) with
  | some s => .hold s .release
  | none =>
    let y : Ex := if x.l.puretrap ∧ anyImpure (okLanes lanes) then { x with s := x.s.impure w.launch } else x
    let l := lanes.map (fun p => raceCheck x o n store cards (fun a => (mk a).map (fun q => (q.va, q.loc))) (trapPure x p))
    let ok := okLanes l
    let absent := ok.any (fun a => match a.loc with
      | .pad c off => !x.s.padPresent w.launch c off n
      | _ => false)
    if ok = [] then .done y.s { faults := badLanes l }
    else if absent then .hold x.s .line
    else if 63 ≤ (if ld then w.cntld else w.cntst) then .hold x.s .count
    else
      let s1 := settleWatch (startOp y act ld reg regs n o acq rel ok (ok.flatMap mk)) w w.nextOp o store ok
      if watchBusy s1 w w.nextOp o ok then .hold (x.s.setMem { x.s.mem with retries := s1.mem.retries }) .watch
      else .done s1 { faults := badLanes l, progress := store }

end Sys2Proof.Machine
end

