-- ==== Sys2Proof/Machine/MemoryWords.lean ====
section
/-! DEFINITION. The memory words and atomics (spec/13 R233 to R239; spec/15 R262, R263; spec/19 R312 to R317). -/
namespace Sys2Proof.Machine

/-- ORD and SCOPE of a memory form (R233); EVICT as its code. -/
def order (o : Ord) (sc : Scope) (ev : Evict) : Order := ⟨o, sc.code, ev.code⟩

/-- The acquire side (R310): ORD 10 on a load or atomic, ORD 11 on any word. -/
def Order.acq (o : Order) (reads : Bool) : Bool := o.ord == .sc || (reads && o.ord == .acqrel)

/-- The release side (R310): ORD 10 on a store or atomic, ORD 11 on any word. -/
def Order.rel (o : Order) (writes : Bool) : Bool := o.ord == .sc || (writes && o.ord == .acqrel)

/-- The parts of a load. -/
def loadParts (n : Nat) (a : Acc) : List Part := partsOf a n (fun _ => 0) (fun _ => 0)

/-- The use of a word that loads registers; they are ready when its count falls (R236). -/
def useLoad (d n : Nat) (reads : List Nat) : Use := { vr := reads, vw := span d n, lat := 0 }

/-- LDG (R234). -/
def execLdg (c : Ctl) (d a : Nat) (off : Int) (w : Width) (o : Ord) (sc : Scope) (ev : Evict) (s : State) : Res1 :=
  pWord c (useLoad d w.regs [a]) (fun x =>
    let od := order o sc ev
    accessWord x od .load true false true (od.acq true) (od.rel false) w.bytes d (span d w.regs)
      (x.lanes.map (fun i => (i, globalAcc x od w.bytes aRD false false false i (vaOf (x.v a i) off w.bytes))))
      (loadParts w.bytes)) s

/-- STG (R234). -/
def execStg (c : Ctl) (d a : Nat) (off : Int) (w : Width) (o : Ord) (sc : Scope) (ev : Evict) (s : State) : Res1 :=
  pWord c { vr := a :: span d w.regs } (fun x =>
    let od := order o sc ev
    accessWord x od .store false true true (od.acq false) (od.rel true) w.bytes d []
      (x.lanes.map (fun i => (i, globalAcc x od w.bytes aWR true false false i (vaOf (x.v a i) off w.bytes))))
      (fun q => partsOf q w.bytes (fun k => x.v (d + k) q.lane) (fun _ => 0))) s

/-- LDP (R231, R232, R234). -/
def execLdp (c : Ctl) (d a : Nat) (off : Int) (w : Width) (o : Ord) (sc : Scope) (s : State) : Res1 :=
  pWord c (useLoad d w.regs [a]) (fun x =>
    let od := order o sc .mru
    accessWord x od .load true false false (od.acq true) (od.rel false) w.bytes d (span d w.regs)
      (x.lanes.map (fun i => (i, padAcc x w.bytes i (vaOf (x.v a i) off w.bytes)))) (loadParts w.bytes)) s

/-- STP (R231, R232, R234). -/
def execStp (c : Ctl) (d a : Nat) (off : Int) (w : Width) (o : Ord) (sc : Scope) (s : State) : Res1 :=
  pWord c { vr := a :: span d w.regs } (fun x =>
    let od := order o sc .mru
    accessWord x od .store false true false (od.acq false) (od.rel true) w.bytes d []
      (x.lanes.map (fun i => (i, padAcc x w.bytes i (vaOf (x.v a i) off w.bytes))))
      (fun q => partsOf q w.bytes (fun k => x.v (d + k) q.lane) (fun _ => 0))) s

/-- The lane's checks of an LDK (R235), then of purity (R89). -/
def ldkAcc (x : Ex) (n : Nat) (off : Int) (lane : Nat) (a : Word) : Except (Nat × Word) Acc :=
  match x.s.checkLdk x.w a off n with
  | .error e => .error e
  | .ok (e, va) =>
    let bad := x.l.pure && !x.l.inInputs va.toNat n
    .ok ⟨lane, va, e.loc va.toNat, e.attr, some e, if bad then some va else none⟩

/-- LDK (R235). -/
def execLdk (c : Ctl) (d a : Nat) (off : Int) (w : Width) (ev : Evict) (s : State) : Res1 :=
  pWord c (useLoad d w.regs [a]) (fun x =>
    accessWord x (order .plain .wav ev) .load true false false false false w.bytes d (span d w.regs)
      (x.lanes.map (fun i => (i, ldkAcc x w.bytes off i (x.v a i)))) (loadParts w.bytes)) s

/-- The machine addresses that the lanes' lines lie at, where R221 passes (R237); whose the frame is, is seen on arrival (R115). -/
def Ex.linesAt (x : Ex) (a : Nat) (off : Int) : List Nat :=
  x.lanes.filterMap (fun i =>
    let va := vaOf (x.v a i) off 1
    match x.s.checkVa x.w va 1 aRD with
    | .error _ => none
    | .ok e => match e.loc va.toNat with
      | .mem ma => some ma
      | _ => none)

/-- A prefetch tried (R237): like other requests it waits for its tokens (R249, R255), of which a line that goes to the L1 takes two for its
answer (R251); a refusal at the home slice is dropped. -/
def State.tryPref (s : State) (x : Prefetch) : State :=
  let gone := fun (t : State) => t.setMem { t.mem with prefs := t.mem.prefs.filter (fun y => y.id != x.id) }
  if (s.frame (mfnOf x.ma)).owner ≠ x.tenant then gone (s.dropRetry (.pref x.id))
  else match s.request x.core x.tenant x.ma (.pref x.id) (if x.evict ≤ 2 then 2 else 1) with
    | .error s1 => s1
    | .ok s1 =>
      let s2 := gone (s1.l2Access x.ma x.evict false none)
      if x.evict ≤ 2 then (List.range 4).foldl (fun u k => u.l1Fill x.core (x.ma / 128 * 128 + 32 * k) x.evict) s2 else s2

/-- Every prefetch that waits tried again, in order. -/
def State.tryPrefs (s : State) : State := s.mem.prefs.foldl State.tryPref s

/-- One line prefetched: the request leaves, behind those of its core and tenant that wait. -/
def State.prefetch (s : State) (w : Wave) (ev ma : Nat) : State :=
  let x : Prefetch := ⟨(s.mem.prefs.map (fun y => y.id + 1)).foldl max 0, w.core, w.tenant, ma, ev⟩
  let s1 := s.setMem { s.mem with prefs := s.mem.prefs ++ [x] }
  if s.mem.prefs.any (fun y => y.core == w.core && y.tenant == w.tenant) then s1 else s1.tryPref x

/-- PREF (R237): into the L2 always, into the L1 unless EVICT is 3 or 4. -/
def execPref (c : Ctl) (a : Nat) (off : Int) (ev : Evict) (s : State) : Res1 :=
  pWord c { vr := [a] } (fun x => .done ((x.linesAt a off).foldl (fun t ma => t.prefetch x.w ev.code ma) x.s) {}) s

/-- CINV (R237). -/
def execCinv (c : Ctl) (a : Nat) (off : Int) (s : State) : Res1 :=
  pWord c { vr := [a] } (fun x =>
    .done ((x.linesAt a off).foldl (fun t ma => t.l1DropLines x.w.core (fun l => l == ma / 128)) x.s) {}) s

/-- PQRY (R238): the checks of R231 without the bank test. -/
def execPqry (c : Ctl) (d a : Nat) (s : State) : Res1 :=
  pWord c (useLoad d 1 [a]) (fun x =>
    let w := x.wave
    let l := x.lanes.map (fun i => (i, x.s.padHome x.w (x.v a i)))
    let bad := l.filterMap (fun p => if p.2.isNone then some (p.1, cRANGE, x.v a p.1) else none)
    let ok := l.filterMap (fun p => p.2.map (fun k => (p.1, k, bits (x.v a p.1).toNat 19 7)))
    if ok = [] then .done x.s { faults := bad }
    else if 63 ≤ w.cntld then .hold x.s .count
    else .done (startOp x (.pqry ok) true d [d] 8 (order .plain .wav .mru) false false [] []) { faults := bad }) s

/-- FENCE (R312): the release side, then the acquire side; strong reads before it are judged now, and one still open at a fence of wave
scope when it is bound (R303). -/
def execFence (c : Ctl) (_o : Ord) (sc : Scope) (s : State) : Res1 :=
  pWord c { impure := decide (4 ≤ sc.code) } (fun x =>
    let w := x.wave
    match releaseSide x.s w sc.code with
    | some t => .hold t .release
    | none =>
      let bad := w.relTags.any (fun m => disagree m.1 m.2 sc.code)
      let v : Wave := { w with
        relTags := [], relScope := some (max sc.code (w.relScope.getD 0)), ops := w.ops.map (fun o => { o with fenced := o.fenced || o.open' }) }
      .done ((x.s.acquire w.core sc.code).setWave (v.hwSticky x.s.ctl.cycle 0 (if bad then 1 else 0))) {}) s

/-- The parts of an atomic: one, with its operands. -/
def atomParts (x : Ex) (b e n : Nat) (a : Acc) : List Part := partsOf a n (fun _ => x.v b a.lane) (fun _ => x.v e a.lane)

/-- The registers an atomic reads; C only for CAS. -/
def atomUse (c : Ctl) (d a b e : Nat) (op : AOp) : Use :=
  { vr := [a, b] ++ (if op = .cas then [e] else []), vw := [d], lat := 0,
    hold := holdReg c (some a) (some b) (if op = .cas then some e else none) }

/-- ATOM (R315 to R317). -/
def execAtom (c : Ctl) (d a b e : Nat) (op : AOp) (o : Ord) (sc : Scope) (wd : AWid) (s : State) : Res1 :=
  pWord c (atomUse c d a b e op) (fun x =>
    let od := order o sc .mru
    accessWord x od (.atom op wd) true true false (od.acq true) (od.rel true) wd.bytes d [d]
      (x.lanes.map (fun i => (i, globalAcc x od wd.bytes (aRD + aWR) true true true i (x.v a i)))) (atomParts x b e wd.bytes)) s

/-- ATOMP (R315 to R317). -/
def execAtomp (c : Ctl) (d a b e : Nat) (op : AOp) (o : Ord) (sc : Scope) (wd : AWid) (s : State) : Res1 :=
  pWord c (atomUse c d a b e op) (fun x =>
    let od := order o sc .mru
    accessWord x od (.atom op wd) true true false (od.acq true) (od.rel true) wd.bytes d [d]
      (x.lanes.map (fun i => (i, padAcc x wd.bytes i (x.v a i)))) (atomParts x b e wd.bytes)) s

/-- RED (R262). -/
def execRed (c : Ctl) (a b : Nat) (op : AOp) (o : Ord) (sc : Scope) (wd : AWid) (s : State) : Res1 :=
  pWord c { vr := [a, b], hold := holdReg c (some a) (some b) none } (fun x =>
    let od := order o sc .mru
    accessWord x od (.red op wd) false true false (od.acq true) (od.rel true) wd.bytes 0 []
      (x.lanes.map (fun i => (i, globalAcc x od wd.bytes aWR true true true i (x.v a i)))) (atomParts x b b wd.bytes)) s

/-- The four addresses of a lane's HGATH (R263). -/
def gathAddr (base idx : Word) (j : Nat) : Word := base + BitVec.ofNat 64 (8 * elemBits idx 16 j)

/-- The lane's checks of an HGATH (R263): those of the base, then every word in the base's 64 KiB and in the footprint. -/
def gathAcc (x : Ex) (o : Order) (lane : Nat) (base idx : Word) : Except (Nat × Word) Acc :=
  match globalAcc x o 8 aRD false false true lane base with
  | .error e => .error e
  | .ok a =>
    match (List.range 4).find? (fun j => (gathAddr base idx j).toNat / 2 ^ 16 != base.toNat / 2 ^ 16) with
    | some j => .error (cRANGE, gathAddr base idx j)
    | none =>
      let out := (List.range 4).filter (fun j => !x.l.footprint (gathAddr base idx j).toNat 8 false)
      if x.l.pure ∧ a.impure.isNone then .ok { a with impure := out.head?.map (gathAddr base idx) }
      else .ok a

/-- The four parts of a lane's HGATH. -/
def gathParts (x : Ex) (b : Nat) (a : Acc) : List Part :=
  (List.range 4).map (fun j =>
    let m := gathAddr a.va (x.v b a.lane) j
    let up := m.toNat % 2 ^ 16
    let loc : Loc := match a.loc with
      | .mem n => .mem (n / 2 ^ 16 * 2 ^ 16 + up)
      | .remote v n => .remote v (n / 2 ^ 16 * 2 ^ 16 + up)
      | .pad k n => .pad k n
    ⟨a.lane, j, m, loc, 8, a.attr, 0, 0, false, none⟩)

/-- HGATH (R263). -/
def execHgath (c : Ctl) (d a b : Nat) (o : Ord) (sc : Scope) (ev : Evict) (s : State) : Res1 :=
  pWord c { useLoad d 4 [a, b] with hold := holdReg c (some a) (some b) none } (fun x =>
    let od := order o sc ev
    accessWord x od .gather true false false false false 8 d (span d 4)
      (x.lanes.map (fun i => (i, gathAcc x od i (x.v a i) (x.v b i)))) (gathParts x b)) s

end Sys2Proof.Machine
end

