-- ==== Sys2Proof/Machine/Services.lean ====
section
/-! DEFINITION. PHINT (spec/23 R356), LAUNCH (spec/05 R88) and service calls (spec/21 R344 to R348, R350). -/
namespace Sys2Proof.Machine

/-- PHINT (R356): with a cooperative request pending the wave stops after the word, when every lane that has not exited is
ready and executes it. -/
def execPhint (c : Ctl) (imm : Nat) (s : State) : Res1 :=
  pWord c {} (fun x =>
    let w := x.wave
    if w.stopAsked && (List.range 32).all (fun i => (w.lane i).st == .exited || x.lanes.contains i) then
      .done ((x.s.dropLatch w.core w.slot (fun _ => true)).setWave { w with stopped := some (some imm), stopAsked := false }) {}
    else .done x.s {}) s

/-- LAUNCH in one lane (R88): its record is read and queued; 1 says that the queue is full. -/
def launchLane (x : Ex) (d a : Nat) (p : State × List (Nat × Nat × Word)) (i : Nat) : State × List (Nat × Nat × Word) :=
  let s := p.1
  let w := (s.wave? x.w.core x.w.slot).getD x.w
  match s.readWords w (x.v a i) 64 with
  | .fault c m => (s, p.2 ++ [(i, c, m)])
  | .refused c m => (s.setWave { w with refusals := w.refusals ++ [⟨i, c, m⟩] }, p.2)
  | .ok rec =>
    if 4096 ≤ s.qdepth w.tenant then (s.setWave (w.setVreg d i 1), p.2)
    else (((s.queueLaunch w.tenant rec 0 true).settleEligible).setWave (w.setVreg d i 0), p.2)

/-- LAUNCH (R88): a release at device scope, then the lanes in ascending order. -/
def execLaunch (c : Ctl) (d a : Nat) (s : State) : Res1 :=
  pWord c { vr := [a], vw := [d], lat := 0, impure := true } (fun x =>
    match releaseSide x.s x.wave 3 with
    | some t => .hold t .release
    | none =>
      let r := x.lanes.foldl (launchLane x d a) (x.s, [])
      .done r.1 { faults := r.2 }) s

/-! ### Service areas -/

/-- Slot `k` of a ring holds a batch. -/
def State.batch? (s : State) (t cls k : Nat) : Option Batch :=
  s.tasks.batches.find? (fun b => b.tenant == t && b.cls == cls && b.slot == k)

/-- The lowest free slot of a ring of 32 (log 18). -/
def State.freeSlot (s : State) (t cls : Nat) : Option Nat := (List.range 32).find? (fun k => (s.batch? t cls k).isNone)

/-- A wake event of the tenant's runtime wave (R151). -/
def State.wakeRuntime (s : State) (t : Nat) : State :=
  (s.tasks.launches.filter (fun l => l.tenant == t && l.rtwave && l.phase == .running)).foldl
    (fun u l => u.mapWaves l.uid (fun w => { w with wake := true })) s

/-- The batch header (Table 21-4) but for VALID. -/
def batchHeader (seq lid wid code n cls hnd upcall lanes corepl pc time : Nat) : Nat :=
  fieldAt 0 seq + fieldAt 96 lid + fieldAt 176 wid + fieldAt 192 code + fieldAt 208 n + fieldAt 214 cls + fieldAt 216 hnd +
    fieldAt 217 upcall + fieldAt 224 lanes + fieldAt 256 corepl + fieldAt 288 pc + fieldAt 384 time

/-- A batch written: arguments, reply word 0, reserved bytes 0 (R4), header, VALID last with the tag of the call's release (R345). -/
def State.writeBatch (s : State) (t cls k hdr : Nat) (args : List (List Word)) (tag : Option WTag) : State :=
  let ma := slotAddr (s.tenant t) cls k
  let s1 := (args.zipIdx).foldl (fun u p => u.deviceStore (ma + 0x40 + 32 * p.2) (wordBytes p.1)) s
  ((s1.deviceStore (ma + 0x640) (List.replicate 448 0)).deviceStore ma (bytesOf 64 hdr)).deviceStore (ma + 56) (bytesOf 8 1) tag

/-- The release scope of a class (R345). -/
def svcScope (cls : Nat) : Nat := if cls = 2 then 5 else 3

/-- The batch posted (R345): class 0 wakes the runtime wave, class 2 sends vector 1, class 1 goes to Bishop. Its message is a flit of VC-S
(R253, R254). -/
def State.postBatch (s : State) (w : Wave) (cls k : Nat) : State :=
  let s1 := s.spendCtl w.core (s.towards w.die (slotAddr (s.tenant w.tenant) cls k))
  match cls with
  | 0 => s1.wakeRuntime w.tenant
  | 2 => s1.setDev { s1.dev with msix := s1.dev.msix ++ [⟨w.tenant, 1⟩] }
  | _ => s1

/-- SVC (R345). -/
def execSvc (c : Ctl) (d a cls code : Nat) (s : State) : Res1 :=
  pWord c { vr := span a 4, vw := span d 2, lat := 0, impure := true, hok := true } (fun x =>
    let w := x.wave
    let t := w.tenant
    match x.s.freeSlot t cls with
    | none => .hold x.s .slot
    | some k =>
      match releaseSide x.s w (svcScope cls) with
      | some u => .hold u .release
      | none =>
        let lanes := (maskOf (fun i => x.lanes.contains i)).toNat
        let hdr := batchHeader x.s.ctl.seq x.l.lid w.wid code x.lanes.length cls x.hnd.toNat 0 lanes w.corepl x.pc.toNat (x.s.time t)
        let s1 := (x.s.writeBatch t cls k hdr (x.lanes.map (fun i => (span a 4).map (fun r => x.v r i)))
          (some (w.releaseTag (svcScope cls)))).takeSeq
        let s2 := s1.setTasks { s1.tasks with batches := s1.tasks.batches ++ [⟨t, cls, k, w.launch, w.wid, d, x.lanes, x.hnd, false, none⟩] }
        let w1 : Wave := if x.hnd then { w with hnd := w.hnd.map (fun h => { h with svc := true }) }
          else w.mapLanes (fun i => x.lanes.contains i) (fun l => { l with st := .service })
        .done ((s2.setWave w1).postBatch w cls k) { stay := x.lanes }) s

/-- A batch's reply word has become non-zero by a store that the P8 acts on (R344, R346): SVCREP's, Bishop's, or the host's to class 2. The
number tells the order in which replies came. -/
def State.answer (s : State) (t cls k : Nat) : State :=
  let n := (s.tasks.batches.filterMap Batch.answered).foldl max 0 + 1
  s.setTasks { s.tasks with
    batches := updWhere (fun b => b.tenant == t && b.cls == cls && b.slot == k && b.answered.isNone) (fun b => { b with answered := some n })
      s.tasks.batches }

/-- SVCREP (R347): the reply word is stored with release at device scope; SERVICE_BATCH_COMPLETE follows. -/
def execSvcrep (c : Ctl) (d a b : Nat) (s : State) : Res1 :=
  qWord c { mode := 1, sr := [a, b], sw := [d], lat := 3, hok := true } (fun x =>
    let w := x.wave
    let cls := bits (x.sc a).toNat 6 5
    let k := bits (x.sc a).toNat 4 0
    let ma := slotAddr (x.s.tenant w.tenant) cls k
    let put := fun (s : State) (v : Nat) => Out.done (s.setWave (((s.wave? w.core w.slot).getD w).setSreg d (BitVec.ofNat 64 v))) {}
    if bits (x.sc a).toNat 63 7 ≠ 0 ∨ cls = 3 ∨ (w.tenant ≠ 0 ∧ cls ≠ 0) then put x.s 3
    else if x.sc b = 0 then put x.s 2
    else if (x.s.batch? w.tenant cls k).isNone ∨ x.s.readWord (ma + 0x640) ≠ 0 then put x.s 1
    else match releaseSide x.s w 3 with
      | some u => .hold u .release
      | none =>
        put ((x.s.deviceStore (ma + 0x640) (bytesOf 8 (x.sc b).toNat) (some (w.releaseTag 3))).answer w.tenant cls k) 0) s

/-- A resident or saved wave of a launch changed. -/
def State.mapWave (s : State) (uid wid : Nat) (f : Wave → Wave) : State := s.mapWaves uid (fun w => if w.wid = wid then f w else w)

/-- A lane's replies in the two registers of its call; one that the wave has given back takes nothing (R155). -/
def Wave.takeReply (w : Wave) (r lane : Nat) (x y : Word) : Wave :=
  let put := fun (v : Wave) (r : Nat) (z : Word) => if w.vcount ≤ r then v else v.setVreg r lane z
  put (put w r x) (r + 1) y

/-- A lane takes its replies and goes on after its SVC (R346). -/
def wakeLane (r lane : Nat) (x y : Word) (w : Wave) : Wave :=
  let w1 := w.takeReply r lane x y
  w1.setLane lane { w1.lane lane with st := .ready, pc := (w1.lane lane).pc + 8 }

/-- A handler's batch: the handler lane takes its replies and the handler goes on (R346). -/
def wakeHandler (r lane : Nat) (x y : Word) (w : Wave) : Wave :=
  let w1 := w.takeReply r lane x y
  { w1 with hnd := w1.hnd.map (fun h => { h with svc := false, pc := h.pc + 8 }) }

/-- What a batch does to its wave (R346): replies, progress, wake. `get j` gives the replies of entry j. -/
def Batch.apply (b : Batch) (get : Nat → Word × Word) (w : Wave) : Wave :=
  let w1 := (b.lanes.zipIdx).foldl (fun v p =>
    let r := get p.2
    if b.hnd then (if v.hnd.any (fun h => h.svc) then wakeHandler b.reg p.1 r.1 r.2 v else v)
    else if (v.lane p.1).st = .service then wakeLane b.reg p.1 r.1 r.2 v else v) w
  { w1 with wake := true, hangcnt := if b.lanes = [] then w1.hangcnt else 0 }

/-- The registers that a batch's replies land in (R346). -/
def Batch.regs (b : Batch) : List Nat := if b.lanes = [] then [] else span b.reg 2

/-- A saved wave with the granules that its replies need filled again, and the tags ended that they end (R167, R169), by what its image holds:
none while the image's granules leave no room for that. -/
def State.landSaved (s : State) (i : Image) (w : Wave) (regs : List Nat) : Option Wave :=
  State.landing { s with cores := { s.cores with waves := i.waves, ctxs := [i.ctx] } } w regs

/-- A saved wave of a launch, with its image. -/
def Launch.savedWave? (l : Launch) (wid : Nat) : Option (Image × Wave) :=
  l.images.findSome? (fun i => (i.waves.find? (fun w => w.wid == wid)).map (fun w => (i, w)))

/-- The replies of a batch given to its wave, on its core or saved (R346, R362): none while a register they land in waits for storage (R169). -/
def State.deliver (s : State) (b : Batch) (get : Nat → Word × Word) : Option State :=
  match s.cores.waves.find? (fun w => w.launch == b.launch && w.wid == b.wid) with
  | some w => (s.landing w b.regs).map (fun v => (s.setWave v).mapWave b.launch b.wid (b.apply get))
  | none => match (s.launch b.launch).savedWave? b.wid with
    | none => some s
    | some (i, w) => (s.landSaved i w b.regs).map (fun v => s.mapWave b.launch b.wid (fun _ => b.apply get v))

/-- No other batch of the same wave was answered before (R346). -/
def State.firstAnswered (s : State) (b : Batch) : Bool :=
  s.tasks.batches.all (fun x => x == b || x.upcall || x.launch != b.launch || x.wid != b.wid ||
    !x.answered.any (fun n => b.answered.any (fun m => decide (n < m))))

/-- SERVICE_BATCH_COMPLETE (R346): a batch whose reply word has become non-zero, those of one wave in that order. A reply to a launch that
has ended is read and discarded (R388). -/
def execServiceBatchComplete (t cls slot : Nat) (s : State) : Res1 :=
  .next (match s.batch? t cls slot with
    | none => s
    | some b =>
      let ma := slotAddr (s.tenant t) cls slot
      if b.answered.isNone || !s.firstAnswered b then s
      else
        let get := fun (j : Nat) => (s.readWord (ma + 0x440 + 16 * j), s.readWord (ma + 0x448 + 16 * j))
        let live := (s.launch b.launch).endInfo.isNone
        match (if b.upcall ∨ !live then some s else s.deliver b get) with
        | none => s
        | some s1 =>
          let s2 := match (s1.cores.waves.find? (fun w => w.launch == b.launch && w.wid == b.wid)) with
            | some w => if live then s1.acquire w.core (svcScope cls) else s1
            | none => s1
          let s3 := (s2.deviceStore (ma + 0x640) (bytesOf 8 0)).deviceStore (ma + 56) (bytesOf 8 0)
          s3.setTasks { s3.tasks with batches := s3.tasks.batches.filter (fun x => x != b) })

/-- UPCALL_POST (R350): the oldest waiting upcall of a tenant is posted when its class-0 ring has a free slot. -/
def execUpcallPost (t : Nat) (s : State) : Res1 :=
  .next (
    let ten := s.tenant t
    match ten.upcalls, s.freeSlot t 0 with
    | u :: rest, some k =>
      let hdr := batchHeader u.seq u.lid u.wid u.code 0 0 0 1 0 0 0 (s.time t)
      let s1 := (s.setTenant { ten with upcalls := rest }).writeBatch t 0 k hdr [] (deviceRelease 3)
      let s2 := s1.setTasks { s1.tasks with batches := s1.tasks.batches ++ [⟨t, 0, k, 0, 0, 0, [], false, true, none⟩] }
      s2.wakeRuntime t
    | _, _ => s)

end Sys2Proof.Machine
end

