-- ==== Sys2Proof/Machine/Jobs.lean ====
section
/-! DEFINITION. Copy jobs (spec/16 R264 to R274): the checks at issue, footprints and edges, queues, the sectors an engine
moves, completion. -/
namespace Sys2Proof.Machine

/-! ### Requests and their checks -/

/-- What one lane of a copy word asks for: spaces, addresses and shape. -/
structure JobReq where
  kind : JobKind
  sp : Bool
  dp : Bool
  src : Word
  dst : Word
  vc : Word
  rb : Nat
  rows : Nat
  spitch : Nat
  dpitch : Nat
  shapeOk : Bool
  aligned : Bool
  pattern : Word

/-- The shape of CPY, CPYM and CPYD (Table 16-4). -/
def jobLinear (k : JobKind) (sp dp : Bool) (a b c : Word) : JobReq :=
  let len := bits c.toNat 31 0
  { kind := k, sp := sp, dp := dp, src := a, dst := b, vc := c, rb := len, rows := 1, spitch := 0, dpitch := len,
    shapeOk := bits c.toNat 63 32 == 0 && decide (32 ≤ len ∧ len ≤ 2 ^ 32 - 32), aligned := len % 32 == 0, pattern := a }

/-- The shape of CPYX (Table 16-4). -/
def jobRows (sp dp : Bool) (a b c c1 : Word) : JobReq :=
  let rows := bits c.toNat 47 32
  let rb := bits c.toNat 19 0
  let d := bits c1.toNat 63 32
  let p := bits c1.toNat 31 0
  { kind := .cpyx, sp := sp, dp := dp, src := a, dst := b, vc := c, rb := rb, rows := rows, spitch := p, dpitch := d,
    shapeOk := bits c.toNat 63 48 == 0 && decide (1 ≤ rows) && bits c.toNat 31 20 == 0 && decide (32 ≤ rb ∧ rb ≤ d),
    aligned := rb % 32 == 0 && d % 32 == 0 && p % 32 == 0, pattern := 0 }

/-- The bytes of a bounding interval (R266). -/
def boundLen (rb rows pitch : Nat) : Nat := pitch * (rows - 1) + rb

/-- Length of the source's bounding interval; 0 for CPYM, which reads nothing. -/
def JobReq.srcLen (j : JobReq) : Nat := if j.kind = .cpym then 0 else boundLen j.rb j.rows j.spitch

/-- Length of the destination's bounding interval (Table 16-2). -/
def JobReq.dstLen (j : JobReq) : Nat := if j.kind = .cpyd then 16 else boundLen j.rb j.rows j.dpitch

/-- The first address of a global region that breaks R221 step 1. -/
def globalRange (a : Word) (n : Nat) : Option Word :=
  if 2 ^ 48 ≤ a.toNat then some a else if 2 ^ 48 < a.toNat + n then some (BitVec.ofNat 64 (2 ^ 48)) else none

/-- The first address of a scratchpad region that breaks R231 or leaves the launch's scratchpad banks (R271). -/
def padRangeBad (s : State) (w : Wave) (a : Word) (n : Nat) : Option Word :=
  let off := a.toNat % 2 ^ 20
  match s.padHome w a with
  | none => some a
  | some _ =>
    match (List.range 33).find? (fun b => decide (b * 2 ^ 15 < off + n ∧ off < (b + 1) * 2 ^ 15) &&
        (b == 32 || (s.launch w.launch).bankCode b != 2)) with
    | some b => some (a + BitVec.ofNat 64 (b * 2 ^ 15 - off))
    | none => none

/-- Step 1 of R271 for one region. -/
def regionBad (s : State) (w : Wave) (pad : Bool) (a : Word) (n : Nat) : Option Word :=
  if n = 0 then none else if pad then padRangeBad s w a n else globalRange a n

/-- Step 4 of R271: the pages of a region, at most 16; `fuel` counts those still allowed. -/
def walkPages (s : State) (w : Wave) (need stop : Nat) : Nat → Nat → Except (Nat × Word) (List (Nat × Nat × Loc × Nat))
  | fuel, va =>
    if stop ≤ va then .ok []
    else match fuel with
      | 0 => .error (cRANGE, BitVec.ofNat 64 va)
      | fuel + 1 =>
        match s.checkVa w (BitVec.ofNat 64 va) 1 need with
        | .error e => .error e
        | .ok e =>
          let size := pageSize e.arr
          let base := va / size * size
          match walkPages s w need stop fuel (base + size) with
          | .error e => .error e
          | .ok l => .ok ((base, size, e.loc base, e.attr) :: l)

/-- One end of a job: a scratchpad place, or the pages taken at issue. -/
def jobEnd (s : State) (w : Wave) (pad : Bool) (a : Word) (n need : Nat) : Except (Nat × Word) JobEnd :=
  if n = 0 then .ok ⟨none, 0, [], false⟩
  else if pad then .ok ⟨s.padHome w a, a.toNat % 2 ^ 20, [], false⟩
  else match walkPages s w need (a.toNat + n) 16 a.toNat with
    | .error e => .error e
    | .ok l => .ok ⟨none, a.toNat, l, l.any (fun p => isProt p.2.2.2)⟩

/-- The address that OWNER records for a queue (R271). -/
def queueAddr (q : Nat) : Word := BitVec.ofNat 64 (2 ^ 63 + q)

/-- Step 3 of R271: the queue place is held, is not REVOKING and lies on the wave's die. -/
def queueOk (s : State) (w : Wave) (q : Nat) : Bool :=
  (s.tenant w.tenant).places.any (fun e => e.kind == .queue && e.place == q && !e.revoking && e.phys / 64 == w.die)

/-- Steps 1 to 4 of R271. -/
def jobCheck (s : State) (w : Wave) (j : JobReq) (q : Nat) : Except (Nat × Word) (JobEnd × JobEnd) :=
  if !j.shapeOk then .error (cRANGE, j.vc)
  else match (regionBad s w j.sp j.src j.srcLen).or (regionBad s w j.dp j.dst j.dstLen) with
    | some a => .error (cRANGE, a)
    | none =>
      if j.srcLen ≠ 0 ∧ j.src.toNat % 32 ≠ 0 then .error (cALIGN, j.src)
      else if j.dst.toNat % 32 ≠ 0 then .error (cALIGN, j.dst)
      else if !j.aligned then .error (cALIGN, j.vc)
      else if !queueOk s w q then .error (cOWNER, queueAddr q)
      else match jobEnd s w j.sp j.src j.srcLen aRD with
        | .error e => .error e
        | .ok a => match jobEnd s w j.dp j.dst j.dstLen aWR with
          | .error e => .error e
          | .ok b => .ok (a, b)

/-- Every row of a global region lies in a pure launch's footprint (R89, R102). -/
def rowsInside (l : Launch) (base rb rows pitch : Nat) (store : Bool) : Bool :=
  (List.range rows).all (fun r => l.footprint (base + pitch * r) rb store)

/-- The first region of a job that lies outside a pure launch's footprint (R102). -/
def JobReq.stray (j : JobReq) (l : Launch) : Option Word :=
  if !l.pure then none
  else if j.srcLen ≠ 0 ∧ !j.sp ∧ !rowsInside l j.src.toNat j.rb j.rows j.spitch false then some j.src
  else if !j.dp ∧ !(if j.kind = .cpyd then l.footprint j.dst.toNat 16 true
      else rowsInside l j.dst.toNat j.rb j.rows j.dpitch true) then some j.dst
  else none

/-! ### Cards -/

/-- The lines of the pool that a byte range of a scratchpad touches. -/
def padLines (off n : Nat) : List Nat := (List.range (ceilDiv (off % 128 + n) 128)).map (fun i => off / 128 + i)

/-- The lines a job writes in scratchpad, row by row. -/
def rowLines (off rb rows pitch : Nat) : List Nat := ((List.range rows).flatMap (fun r => padLines (off + pitch * r) rb)).dedup

/-- A footprint's bounding interval: the core of a scratchpad or none for VAs, and first and past-last byte (R266). -/
abbrev Interval := Option Nat × Nat × Nat

/-- Two intervals meet. -/
def ivMeet (a b : Option Interval) : Bool :=
  match a, b with
  | some x, some y => x.1 == y.1 && decide (x.2.1 < y.2.2 ∧ y.2.1 < x.2.2)
  | _, _ => false

/-- The read footprint of a card. -/
def Card.readIv (c : Card) : Option Interval :=
  if c.kind = .cpym then none else some (c.src.pad, c.src.addr, c.src.addr + boundLen c.rowBytes c.rows c.srcPitch)

/-- The write footprint of a card. -/
def Card.writeIv (c : Card) : Option Interval :=
  some (c.dst.pad, c.dst.addr, c.dst.addr + (if c.kind = .cpyd then 16 else boundLen c.rowBytes c.rows c.dstPitch))

/-- R267: an earlier card that a new one waits for. -/
def Card.edgeTo (old new : Card) : Bool :=
  old.state != .complete &&
    (ivMeet old.writeIv new.readIv || ivMeet old.readIv new.writeIv || ivMeet old.writeIv new.writeIv)

/-- The number of the last step of a CPYD, which writes the digest of what it has read. -/
def digestUnit : Nat := 2 ^ 41

/-- What a job is to move: its 128-byte bursts (R264), and for a CPYD then its digest. -/
def JobReq.bursts (j : JobReq) : List Nat := List.range (ceilDiv (j.rb * j.rows) 128) ++ (if j.kind = .cpyd then [digestUnit] else [])

/-- The physical queue of a tenant's queue place. -/
def State.physQueue (s : State) (t q : Nat) : Nat := (((s.tenant t).places.find? (fun e => e.kind == .queue && e.place == q)).map PlaceEntry.phys).getD 0

/-- The cards on a core (R265). -/
def State.cardsOn (s : State) (core : Nat) : List Card := (s.cores.ctxs.filter (fun c => c.core == core)).flatMap Ctx.cards

/-- The next card number on a core. -/
def State.nextCardOn (s : State) (core : Nat) : Nat :=
  ((s.cores.ctxs.filter (fun c => c.core == core)).map Ctx.nextCard).foldl max 0

/-- A job's card kept, with its edges; the presence bits of its scratchpad destination are cleared (R232, R271). -/
def State.addCard (s : State) (w : Wave) (word lane q : Nat) (j : JobReq) (a b : JobEnd) : State :=
  let c := s.ctx w.launch w.core
  let id := s.nextCardOn w.core
  let lines := match b.pad with
    | some _ => rowLines b.addr (if j.kind = .cpyd then 16 else j.rb) (if j.kind = .cpyd then 1 else j.rows) j.dpitch
    | none => []
  let card : Card := ⟨id, w.slot, word, lane, j.kind, q, a, b, j.rb, j.rows, j.spitch, j.dpitch, j.pattern, [], .waiting, j.bursts,
    false, lines, 0, s.physQueue w.tenant q, []⟩
  let s1 := s.setCtx { c with
    cards := c.cards ++ [{ card with edges := (c.cards.filter (fun k => k.edgeTo card)).map Card.id }], nextCard := id + 1 }
  match b.pad with
  | some core =>
    let h := s1.ctx w.launch core
    s1.setCtx { h with absent := h.absent ++ lines.filter (fun l => !h.absent.contains l) }
  | none => s1

/-- One lane of a copy word: its job, or its fault. -/
def jobLane (q word : Nat) (req : Nat → JobReq) (x : Ex) (p : State × List (Nat × Nat × Word) × Bool) (i : Nat) :
    State × List (Nat × Nat × Word) × Bool :=
  let s := p.1
  let w := (s.wave? x.w.core x.w.slot).getD x.w
  let j := req i
  match jobCheck s w j q with
  | .error e => (s, p.2.1 ++ [(i, e.1, e.2)], p.2.2)
  | .ok (a, b) =>
    match j.stray x.l with
    | some v =>
      if x.l.puretrap then (s.impure w.launch, p.2.1 ++ [(i, cPERM, v)], p.2.2)
      else ((s.impure w.launch).addCard w word i q j a b, p.2.1, true)
    | none => (s.addCard w word i q j a b, p.2.1, true)

/-- A copy word (R265, R270, R271): held for cards, and for CNTCP where some lane's job passes its checks (R146); its lanes issue in
ascending order. -/
def copyBody (q : Nat) (req : Ex → Nat → JobReq) (x : Ex) : Out :=
  let w := x.wave
  if 64 < (x.s.cardsOn w.core).length + x.lanes.length then .hold x.s .jobs
  else
    let r := x.lanes.foldl (jobLane q w.nextOp (req x) x) (x.s, [], false)
    if r.2.2 ∧ 63 ≤ w.cntcp then .hold x.s .count
    else
    let s1 := if r.2.2 then
        let v := (r.1.wave? w.core w.slot).getD w
        r.1.setWave { v with cpWords := v.cpWords ++ [w.nextOp], nextOp := w.nextOp + 1 }
      else r.1
    .done s1 { faults := r.2.1, progress := r.2.2 }

/-- The use of a copy word (Table 2-14: roles C and A). -/
def copyUse (c : Ctl) (a b : Nat) (e : List Nat) : Use :=
  { roles := [1, 3], vr := a :: b :: e, hold := holdReg c (some a) (some b) e.head? }

/-- CPY (R274). -/
def execCpy (c : Ctl) (a b e : Nat) (dp sp : Bool) (q : Nat) (s : State) : Res1 :=
  pWord c (copyUse c a b [e]) (copyBody q (fun x i => jobLinear .cpy sp dp (x.v a i) (x.v b i) (x.v e i))) s

/-- CPYX (R274). -/
def execCpyx (c : Ctl) (a b e : Nat) (dp sp : Bool) (q : Nat) (s : State) : Res1 :=
  pWord c (copyUse c a b [e, e + 1]) (copyBody q (fun x i => jobRows sp dp (x.v a i) (x.v b i) (x.v e i) (x.v (e + 1) i))) s

/-- CPYM (R274). -/
def execCpym (c : Ctl) (a b e : Nat) (dp : Bool) (q : Nat) (s : State) : Res1 :=
  pWord c (copyUse c a b [e]) (copyBody q (fun x i => jobLinear .cpym false dp (x.v a i) (x.v b i) (x.v e i))) s

/-- CPYD (R274). -/
def execCpyd (c : Ctl) (a b e : Nat) (dp sp : Bool) (q : Nat) (s : State) : Res1 :=
  pWord c (copyUse c a b [e]) (copyBody q (fun x i => jobLinear .cpyd sp dp (x.v a i) (x.v b i) (x.v e i))) s

/-! ### Engines -/

/-- A card on a core by its number, with what its launch holds there. -/
def State.card? (s : State) (core id : Nat) : Option (Ctx × Card) :=
  (s.cores.ctxs.find? (fun c => c.core == core && c.cards.any (fun k => k.id == id))).bind
    (fun c => (c.cards.find? (fun k => k.id == id)).map (fun k => (c, k)))

/-- A card replaced. -/
def State.setCard (s : State) (c : Ctx) (k : Card) : State :=
  let c := s.ctx c.launch c.core
  s.setCtx { c with cards := updWhere (fun x => x.id == k.id) (fun _ => k) c.cards }

/-- COPY_JOB_QUEUED (R264, R267): a card whose edges are all complete enters its queue. -/
def execCopyJobQueued (core job : Nat) (s : State) : Res1 :=
  .next (match s.card? core job with
    | none => s
    | some (c, k) =>
      if k.state ≠ .waiting ∨ k.edges ≠ [] then s
      else
        let n := (s.cores.ctxs.flatMap (fun d => d.cards.map Card.entered)).foldl max 0
        s.setCard c { k with state := .queued, entered := n + 1 })

/-- A queue starts its jobs in the order they entered it (R264): no queued job of the same physical queue entered earlier. -/
def State.mayStart (s : State) (k : Card) : Bool :=
  s.cores.ctxs.all (fun d => d.cards.all (fun x => !(x.state == .queued && x.phys == k.phys && decide (x.entered < k.entered))))

/-- What the issuing wave did before a job is over as far as the job's accesses come after it: no acquire is open (R310), and no access of
the issuing lane (R305). The stores of other lanes the job may overtake (R268, log 19). -/
def State.jobFree (s : State) (c : Ctx) (k : Card) : Bool :=
  (s.wave? c.core k.slot).all (fun w => !w.acqOpen k.word &&
    (w.before k.word).all (fun o => o.parts.all (fun p => p.done || p.lane != k.lane)))

/-- A card that its queue may serve: it has started, or may start, and something is left to move. -/
def State.served (s : State) (c : Ctx) (k : Card) : Bool :=
  (k.state == .running || (k.state == .queued && s.mayStart k)) && k.todo != [] && s.jobFree c k

/-- The engine of a physical queue (R264). -/
def engineOf (phys : Nat) : Nat := phys / 16

/-- The queue whose turn it is at an engine (R264): of those with a card to serve, the next after the one served last. -/
def State.turnOf (s : State) (engine : Nat) : Option Nat :=
  let ready := (s.cores.ctxs.flatMap (fun c => (c.cards.filter (s.served c)).map Card.phys)).filter (fun q => engineOf q == engine)
  let last := cellGet 0 s.cores.served engine
  ((List.range 16).map (fun i => 16 * engine + (last + i) % 16)).find? ready.contains

/-- A queue has been served: the engine's turn passes to those after it, or stays with it while a burst of 128 bytes is not whole (R264). -/
def State.passTurn (s : State) (phys : Nat) (whole : Bool) : State :=
  { s with cores := { s.cores with served := cellSet 0 s.cores.served (engineOf phys) (phys % 16 + whole.toNat) } }

/-- What a sector of a job meets. -/
inductive Sector where
  | wait (s : State)
  | refuse (cause : Nat) (va : Word)
  | ok (s : State) (l : List Byte)

/-- The page of an end that holds a VA. -/
def JobEnd.pageAt (e : JobEnd) (va : Nat) : Option (Nat × Nat × Loc × Nat) := e.pages.find? (fun p => decide (p.1 ≤ va ∧ va < p.1 + p.2.1))

/-- The stop of a card's engine, by which its requests leave. -/
def Card.stop (k : Card) : Nat := 1536 + engineOf k.phys

/-- A sector of global memory as a job reads it, or writes `new` (R268, R272): checked as a wave's plain access where the frame is watched,
a write noted as the issuing wave's (R318, R319); what the issuing core's L1 holds of a sector written goes (R305). -/
def memSector (s : State) (c : Ctx) (k : Card) (ma attr va n : Nat) (new : Option (List Byte)) : Sector :=
  let la := s.launch c.launch
  let w := (s.wave? c.core k.slot).getD Wave.blank
  if isWatch attr ∧ watchRace s w ma then .refuse cRACE (BitVec.ofNat 64 va)
  else match s.homeAccess k.stop la.tenant (.job c.core k.id) (if isProt attr then la.slotHeld else none) 0 ma n
      (if new.isSome then [(ma, n, none)] else []) (fun _ => new) with
    | .wait s1 => .wait s1
    | .refuse cause => .refuse cause (BitVec.ofNat 64 va)
    | .done s1 old =>
      let s2 := if new.isSome then s1.l1Drop c.core ma else s1
      .ok (if new.isSome && isWatch attr then s2.setWatch ma (some ⟨ma / 32, w.launch, w.wid, watchEpochs la w⟩) else s2) old

/-- A sector of another device as an engine or the matrix unit reads or writes it from a stop (R257 to R261): the port refuses it, or its flit
goes as the stops' tokens allow. What it reads is free, and so is whether the target refuses it (log 52). -/
def remoteSector (s : State) (stop t vc dev ma va n : Nat) (new : Option (List Byte)) : Sector :=
  match s.sendFlit t (stopDie stop) vc (dev :: ma :: (new.getD []).map BitVec.toNat) with
  | (_, none) => .refuse cLINK (BitVec.ofNat 64 va)
  | (s1, some _) =>
    match s1.takeStops t (s1.stopsOut stop t ma) with
    | none => .wait s
    | some s2 =>
      if (s.free (2 ^ 18 + 2 ^ 17 + ma / 32 % 2 ^ 17)).getLsbD 0 then .refuse cLINK (BitVec.ofNat 64 va) else .ok s2 (new.getD (s.freeBytes ma n))

/-- `n` bytes of one sector at an offset of an end read, or replaced by `new` (R268); an access to a pool crosses the mesh on VC-B (R255,
R264). -/
def sectorAt (s : State) (c : Ctx) (k : Card) (e : JobEnd) (up n : Nat) (new : Option (List Byte)) : Sector :=
  let t := (s.launch c.launch).tenant
  match e.pad with
  | some core =>
    match s.takeStops t (State.stopsPad k.stop core), new with
    | none, _ => .wait s
    | some s1, none => .ok s1 (s1.readPad c.launch core (e.addr + up) n)
    | some s1, some l => .ok (s1.writePad c.launch core (e.addr + up) l) l
  | none =>
    let va := e.addr + up
    match e.pageAt va with
    | none => .ok s (List.replicate n 0)
    | some (base, _, loc, attr) =>
      match loc.plus (va - base) with
      | .mem ma => memSector s c k ma attr va n new
      | .remote dev ma => remoteSector s k.stop t 3 dev ma va n new
      | .pad _ _ => .ok s (List.replicate n 0)

/-- Offsets of the `i`-th sector of a job in source and destination. -/
def Card.sector (k : Card) (i : Nat) : Nat × Nat :=
  let r := 32 * i / k.rowBytes
  let col := 32 * i % k.rowBytes
  (k.srcPitch * r + col, k.dstPitch * r + col)

/-- A job so far: what its last sector met, and what a CPYD has read. -/
abbrev Moved := Sector × Cells (List Byte)

/-- One sector moved (R268); of a CPYD, read (R274). -/
def moveSector (c : Ctx) (k : Card) (r : Moved) (i : Nat) : Moved :=
  match r.1 with
  | .ok s _ =>
    let o := k.sector i
    match k.kind with
    | .cpym =>
      let p := bytesOf 8 k.pattern.toNat
      (sectorAt s c k k.dst o.2 32 (some (p ++ p ++ p ++ p)), r.2)
    | .cpyd => match sectorAt s c k k.src o.1 32 none with
      | .ok s1 l => (.ok s1 l, cellSet [] r.2 i l)
      | q => (q, r.2)
    | .cpy | .cpyx => match sectorAt s c k k.src o.1 32 none with
      | .ok s1 l => (sectorAt s1 c k k.dst o.2 32 (some l), r.2)
      | q => (q, r.2)
  | _ => r

/-- The digest of a CPYD written (R91, R274). -/
def writeDigest (s : State) (c : Ctx) (k : Card) : Sector :=
  let src := (List.range (k.rowBytes / 32)).flatMap (fun i => cellGet [] k.got i)
  sectorAt s c k k.dst 0 16 (some (bytes8 (oxBytes (ox128 (nats src) 0))))

/-- A unit of a job's list that is one sector of a burst (R268: sectors move in any order). -/
def oneSector (u : Nat) : Option Nat := if 2 ^ 40 ≤ u ∧ u < digestUnit then some (u - 2 ^ 40) else none

/-- The sectors of a unit: a burst's, or one. -/
def Card.sectorsOf (k : Card) (u : Nat) : List Nat :=
  match oneSector u with
  | some i => [i]
  | none => if u = digestUnit then [] else
    ((List.range 4).map (fun i => 4 * u + i)).filter (fun i => decide (32 * i < k.rowBytes * k.rows))

/-- The list of a card once a unit is to move: a burst of which one sector is named falls into its sectors. None where the unit is not left,
or is a digest whose source is not read yet. -/
def Card.take (k : Card) (u : Nat) : Option (List Nat) :=
  let split := match oneSector u with
    | some i => k.todo.flatMap (fun b => if b = i / 4 then (k.sectorsOf b).map (fun j => 2 ^ 40 + j) else [b])
    | none => k.todo
  if u = digestUnit then (if k.todo = [u] then some [] else none)
  else if split.contains u then some (split.filter (fun b => b != u)) else none

/-- The scratchpad lines a unit writes. -/
def Card.linesOf (k : Card) (u : Nat) : List Nat :=
  if k.dst.pad.isNone then []
  else if k.kind = .cpyd then (if u = digestUnit then padLines k.dst.addr 16 else [])
  else ((k.sectorsOf u).map (fun i => (k.dst.addr + (k.sector i).2) / 128)).dedup

/-- Lines of a pool set present (R232). -/
def State.present (s : State) (launch : Nat) (core : Option Nat) (lines : List Nat) : State :=
  match core with
  | none => s
  | some k =>
    let h := s.ctx launch k
    s.setCtx { h with absent := h.absent.filter (fun l => !lines.contains l) }

/-- The launch's wave that issued a card told of a refusal (R115, R271). -/
def State.refuseLane (s : State) (c : Ctx) (slot lane cause : Nat) (va : Word) : State :=
  match s.wave? c.core slot with
  | none => s
  | some w => if w.launch = c.launch then s.setWave { w with refusals := w.refusals ++ [⟨lane, cause, va⟩] } else s

/-- A job ends at a refusal (R271): it counts as complete, its absent lines are present and its lane is told. -/
def State.refuseJob (s : State) (c : Ctx) (k : Card) (cause : Nat) (va : Word) : State :=
  ((s.setCard c { k with state := .running, todo := [], refused := true, absent := [] }).present c.launch k.dst.pad k.absent).refuseLane
    c k.slot k.lane cause va

/-- The tenant holds a card's queue (R110). -/
def State.queueHeld (s : State) (c : Ctx) (k : Card) : Bool :=
  (s.tenant (s.launch c.launch).tenant).places.any (fun e => e.kind == .queue && e.place == k.queue && e.phys == k.phys)

/-- One unit of a job moved. -/
def moveUnit (s : State) (c : Ctx) (k : Card) (u : Nat) (todo : List Nat) : State :=
  let r : Moved := if u = digestUnit then (writeDigest s c k, k.got) else (k.sectorsOf u).foldl (moveSector c k) (.ok s [], k.got)
  match r.1 with
  | .wait s1 => (s.setMem { s.mem with retries := s1.mem.retries }).setCard c { k with state := .running }
  | .refuse cause va => s.refuseJob c k cause va
  | .ok s1 _ =>
    let lines := (k.linesOf u).filter (fun l => !todo.any (fun b => (k.linesOf b).contains l))
    ((s1.setCard c { k with state := .running, todo := todo, absent := k.absent.filter (fun l => !lines.contains l), got := r.2 }).present
      c.launch k.dst.pad lines).tickFresh

/-- What is left of a card's list holds no sector of a unit's burst: the burst is whole. -/
def wholeBurst (u : Nat) (todo : List Nat) : Bool :=
  match oneSector u with
  | none => true
  | some i => !todo.any (fun b => match oneSector b with
      | some j => j / 4 == i / 4
      | none => false)

/-- COPY_ENGINE_BURST (R264, R268, R271, R272): one burst, or one sector of it, of a job that has started or that its queue may start, in its
queue's turn; the engine's grant needs the queue held (R110). -/
def execCopyEngineBurst (core job burst : Nat) (s : State) : Res1 :=
  .next (match s.card? core job with
    | none => s
    | some (c, k) =>
      match (if s.served c k && s.turnOf (engineOf k.phys) == some k.phys then k.take burst else none) with
      | none => s
      | some todo =>
        if !s.queueHeld c k then (s.refuseJob c k cOWNER (queueAddr k.queue)).passTurn k.phys true
        else (moveUnit s c k burst todo).passTurn k.phys (wholeBurst burst todo))

/-- Copy words leave CNTCP in issue order, each when none of its cards is left (R270). -/
def dropDone (live : Nat → Bool) : List Nat → List Nat
  | [] => []
  | x :: l => if live x then x :: l else dropDone live l

/-- COPY_JOB_COMPLETE (R267, R268, R270). -/
def execCopyJobComplete (core job : Nat) (s : State) : Res1 :=
  .next (match s.card? core job with
    | none => s
    | some (c, k) =>
      if k.state ≠ .running ∨ k.todo ≠ [] then s
      else
        let cards := (c.cards.filter (fun x => x.id != job)).map (fun x => { x with edges := x.edges.filter (fun e => e != job) })
        let s1 := (s.setCtx { c with cards := cards }).present c.launch k.dst.pad k.absent
        match s1.wave? core k.slot with
        | none => s1
        | some w =>
          (s1.setWave { w with cpWords := dropDone (fun word => cards.any (fun x => x.slot == k.slot && x.word == word)) w.cpWords }).endWave
            core k.slot)

end Sys2Proof.Machine
end

