-- ==== Sys2Proof/Machine/MatrixData.lean ====
section
/-! DEFINITION. Stored matrices and their products (spec/17 R277 to R281, R289 to R292; spec/11 R201; spec/24 R376). -/
namespace Sys2Proof.Machine

/-! ### Reservations (R278, R279) -/

/-- SOFF. -/
def dSOFF (d : Word) : Nat := bits d.toNat 47 32
/-- ROWS. -/
def dROWS (d : Word) : Nat := bits d.toNat 31 16
/-- BLK. -/
def dBLK (d : Word) : Nat := bits d.toNat 10 9
/-- FMT. -/
def dFMT (d : Word) : Nat := bits d.toNat 8 5

/-- Table 17-1. -/
def descOk (d : Word) : Bool :=
  bits d.toNat 63 48 == 0 && bits d.toNat 15 11 == 0 && decide (1 ≤ dROWS d ∧ dROWS d ≤ 1024) &&
  [6, 10, 11, 12, 13, 14].contains (dFMT d) &&
  (if dBLK d = 0 then dSOFF d == 0 else dBLK d == 1 && decide (1 ≤ dSOFF d ∧ dSOFF d < dROWS d))

/-- The type of a reservation's elements. -/
def Reservation.ty (r : Reservation) : Ty := Ty.ofCode (dFMT r.desc)

/-- It has block scales. -/
def Reservation.scaled (r : Reservation) : Bool := dBLK r.desc == 1

/-- Its data rows (R278). -/
def Reservation.dataRows (r : Reservation) : Nat := if r.scaled then dSOFF r.desc else dROWS r.desc

/-- The elements its data rows hold. -/
def Reservation.capacity (r : Reservation) : Nat := r.dataRows * 1024 / r.ty.bits

/-- The bytes of its scale rows. -/
def Reservation.scaleBytes (r : Reservation) : Nat := if r.scaled then (dROWS r.desc - dSOFF r.desc) * 128 else 0

/-- A byte of it. -/
def Reservation.byte (r : Reservation) (i : Nat) : Nat := (cellGet 0 r.rows i : Byte).toNat

/-- The bits of element `e` (R279). -/
def Reservation.elemBits (r : Reservation) (e : Nat) : Nat :=
  match r.ty.bits with
  | 4 => r.byte (e / 2) / 2 ^ (4 * (e % 2)) % 16
  | 8 => r.byte e
  | _ => r.byte (2 * e) + 256 * r.byte (2 * e + 1)

/-- The value of element `e` without its scale (R279, R202). -/
def Reservation.elem (r : Reservation) (e : Nat) : FVal :=
  let x := r.elemBits e
  match r.ty with
  | .s8x8 =>
    let v := sext x 8
    .fin (decide (v < 0)) v.natAbs (if r.scaled then -6 else 0)
  | t => (fmtOf t).read x

/-- The scale of element `e`; 1 where there is none (R279). -/
def Reservation.scale (r : Reservation) (e : Nat) : FVal :=
  if r.scaled then e8m0 (r.byte (dSOFF r.desc * 128 + e / 32)) else .fin false 1 0

/-- A reservation of a launch on a core. -/
def Ctx.resv? (c : Ctx) (rid : Nat) : Option Reservation := c.resv.find? (fun r => r.rid == rid)

/-- The reservations on a core, of every launch. -/
def State.resvOn (s : State) (core : Nat) : List Reservation := (s.cores.ctxs.filter (fun c => c.core == core)).flatMap Ctx.resv

/-- R277: the lowest row from which `n` rows are free and none is barred. -/
def freeRows (l : List Reservation) (barred : List Nat) (n : Nat) : Option Nat :=
  (sortBy (fun a b => decide (a ≤ b)) (0 :: l.map (fun r => r.base + dROWS r.desc) ++ barred.map (· + 1))).find? (fun b =>
    decide (b + n ≤ 1024) && l.all (fun r => decide (b + n ≤ r.base ∨ r.base + dROWS r.desc ≤ b)) &&
      barred.all (fun r => decide (r < b ∨ b + n ≤ r)))

/-- The rows of a core's buffer that may not be bound before a scrub (R112). -/
def State.barredRows (s : State) (core : Nat) : List Nat :=
  (s.cores.gens.filter (fun p => decide (255 ≤ p.2.incs) && p.1 / 1024 == 64 + core)).map (fun p => p.1 % 1024)

/-- The rows of a reservation on a core, as units. -/
def rowUnits (core : Nat) (r : Reservation) : List Nat := (List.range (dROWS r.desc)).map (fun i => rowUnit core (r.base + i))

/-! ### Parameter blocks (R289) -/

/-- The fields of Table 17-4. -/
structure MmaBlock where
  tb : Bool
  ta : Bool
  acc : Bool
  k : Nat
  n : Nat
  m : Nat
  handle : Nat
  ridb : Nat
  rida : Nat
  col0 : Nat
  row0 : Nat
  boff : Nat
  aoff : Nat
  ldb : Nat
  lda : Nat
  mdat : Word
  mpitch : Nat

/-- A parameter block of eight words. -/
def MmaBlock.ofWords (l : List Word) : MmaBlock :=
  let f := fun (i hi lo : Nat) => bits (l.getD i 0).toNat hi lo
  { tb := f 0 50 50 == 1, ta := f 0 49 49 == 1, acc := f 0 48 48 == 1, k := f 0 47 32, n := f 0 31 16, m := f 0 15 0,
    handle := f 1 47 32, ridb := f 1 12 8, rida := f 1 4 0, col0 := f 2 31 16, row0 := f 2 15 0, boff := f 3 63 32, aoff := f 3 31 0,
    ldb := f 4 31 16, lda := f 4 15 0, mdat := l.getD 5 0, mpitch := f 6 15 0 }

/-- The reserved fields of Table 17-4 are zero. -/
def mmaReserved (l : List Word) : Bool :=
  let z := fun (i hi lo : Nat) => bits (l.getD i 0).toNat hi lo == 0
  z 0 63 51 && z 1 63 48 && z 1 31 13 && z 1 7 5 && z 2 63 32 && z 4 63 32 && z 6 63 16 && z 7 63 0

/-- The chunk of R201 by element width. -/
def chunkOf (t : Ty) : Nat := if t.bits = 16 then 16 else if t.bits = 8 then 32 else 64

/-- The format pairs of R290; MMAS takes the first three kinds. -/
def pairOk (a b : Ty) (sparse : Bool) : Bool :=
  let fp8 := fun (t : Ty) => t == .e4m3x8 || t == .e5m2x8
  (a == .bf16x4 && b == .bf16x4) || (a == .f16x4 && b == .f16x4) || (fp8 a && fp8 b) ||
  (!sparse && ((a == .e2m1x16 && b == .e2m1x16) || (a == .s8x8 && b == .s8x8)))

/-- The row length of a stored operand, and the greatest index that `rows` rows of `len` read. -/
def lastIndex (off rows ld len : Nat) : Nat := off + (rows - 1) * ld + len - 1

/-- The conditions of R290 on one stored operand: its rows, their length, its leading dimension. -/
def operandOk (r : Reservation) (off rows ld len : Nat) (kContiguous : Bool) : Bool :=
  let last := lastIndex off rows ld len
  decide (last < r.capacity) && decide (len ≤ ld) &&
  (!r.scaled || (decide (last / 32 < r.scaleBytes) && kContiguous && ld % 32 == 0))

/-- Kept elements of a row of A (R292), or its K. -/
def MmaBlock.keep (b : MmaBlock) (sparse : Bool) : Nat := if sparse then b.k / 2 else b.k

/-- Positions that one metadata block of a PROT launch covers (Table 24-3). -/
def protPositions (t : Ty) : Nat := if t.bits = 16 then 448 else 768

/-- First and past-last reserved byte of a metadata block, from the metadata's first byte (R376). -/
def protReserved (t : Ty) : Nat × Nat := if t.bits = 16 then (56, 64) else (96, 128)

/-- The length of the metadata tile that the checks and the operation read. -/
def MmaBlock.metaLen (b : MmaBlock) (prot : Bool) (t : Ty) : Nat :=
  b.mpitch * (b.m - 1) + (if prot then (protReserved t).2 else ceilDiv b.k 8)

/-- R290, all but the block's address: whether the operation may be issued. -/
def mmaOk (s : State) (w : Wave) (sparse : Bool) (l : List Word) : Bool :=
  let b := MmaBlock.ofWords l
  let c := s.ctx w.launch w.core
  let prot := (s.launch w.launch).prot
  match c.resv? b.rida, c.resv? b.ridb, c.alloc? b.handle with
  | some ra, some rb, some al =>
    let chunk := if sparse then 2 * chunkOf ra.ty else chunkOf ra.ty
    mmaReserved l && decide (16 ≤ b.k ∧ b.k ≤ 4096 ∧ 16 ≤ b.n ∧ b.n ≤ 4096 ∧ 16 ≤ b.m ∧ b.m ≤ 4096) &&
    b.n % 16 == 0 && b.m % 16 == 0 && decide (b.row0 + b.m ≤ al.rows ∧ b.col0 + b.n ≤ al.pitch) &&
    pairOk ra.ty rb.ty sparse && b.k % chunk == 0 &&
    (if b.ta then operandOk ra b.aoff b.k b.lda b.m false else operandOk ra b.aoff b.m b.lda (b.keep sparse) true) &&
    (if b.tb then operandOk rb b.boff b.n b.ldb b.k true else operandOk rb b.boff b.k b.ldb b.n false) &&
    (if sparse then
      !b.ta && b.mdat.toNat % 256 == 0 && b.mpitch % 32 == 0 &&
      (!prot || (b.mpitch == 512 && decide (b.k ≤ protPositions ra.ty))) &&
      (padRangeBad s w b.mdat (b.metaLen prot ra.ty)).isNone
    else b.mdat == 0 && b.mpitch == 0)
  | _, _, _ => false

/-! ### Products (R291, R292, R201) -/

/-- One step of R201: a chunk's products added to an accumulator element with one rounding. -/
def chunkStep (acc : Nat × Flags) (ps : List Pre) : Nat × Flags :=
  let r := rndPre fp32 .rne 0 (sumExact .rne (fp32.read acc.1) ps)
  let kept := r.flags &&& (flagNV ||| flagOF)
  let low := r.bits % 2 ^ 31
  if low ≠ 0 ∧ low < 2 ^ 23 then (r.bits / 2 ^ 31 * 2 ^ 31, acc.2 ||| kept ||| flagAUF) else (r.bits, acc.2 ||| kept)

/-- A list cut into chunks. -/
def chunks {α : Type} (n : Nat) : Nat → List α → List (List α)
  | 0, _ => []
  | k + 1, l => l.take n :: chunks n k (l.drop n)

/-- The stored index of A(i, k), or of kept element k of row i. -/
def MmaBlock.aIndex (b : MmaBlock) (i k : Nat) : Nat := if b.ta then b.aoff + k * b.lda + i else b.aoff + i * b.lda + k

/-- The stored index of B(k, j). -/
def MmaBlock.bIndex (b : MmaBlock) (k j : Nat) : Nat := if b.tb then b.boff + j * b.ldb + k else b.boff + k * b.ldb + j

/-- The metadata nibble of row i and group g (R292): i0 and i1. -/
def nibble (bytes : Nat → Nat) (mpitch i g : Nat) : Nat × Nat :=
  let x := bytes (i * mpitch + g / 2) / 2 ^ (4 * (g % 2)) % 16
  (x % 4, x / 4)

/-- The position of K of kept element t of row i. -/
def keptPos (bytes : Nat → Nat) (mpitch i t : Nat) : Nat :=
  let n := nibble bytes mpitch i (t / 2)
  4 * (t / 2) + (if t % 2 = 0 then n.1 else n.2)

/-- One element of the result (R291). -/
def mmaElem (b : MmaBlock) (ra rb : Reservation) (sparse : Bool) (bytes : Nat → Nat) (old : BitVec 32) (i j : Nat) : Nat × Flags :=
  let n := b.keep sparse
  let prod := fun (t : Nat) =>
    let pos := if sparse then keptPos bytes b.mpitch i t else t
    let x := b.aIndex i t
    let y := b.bIndex pos j
    scaledProd (ra.elem x) (rb.elem y) (ra.scale x) (rb.scale y)
  let c := chunkOf ra.ty
  (chunks c (n / c) ((List.range n).map prod)).foldl chunkStep (if b.acc then old.toNat else 0, 0)

/-- The whole product on an allocation (R291), with its flags. -/
def mmaRun (b : MmaBlock) (ra rb : Reservation) (sparse : Bool) (bytes : Nat → Nat) (al : Alloc) : Alloc × Flags :=
  (List.range (b.m * b.n)).foldl (fun p x =>
    let i := x / b.n
    let j := x % b.n
    let r := mmaElem b ra rb sparse bytes (al.elem (b.row0 + i) (b.col0 + j)) i j
    (p.1.setElem (b.row0 + i) (b.col0 + j) (BitVec.ofNat 32 r.1), p.2 ||| r.2)) (al, 0)

/-- The first metadata byte that fails, in row-major order (R292, R376). -/
def metaBad (b : MmaBlock) (prot : Bool) (t : Ty) (bytes : Nat → Nat) : Option Nat :=
  ((List.range b.m).flatMap (fun i =>
    ((List.range (ceilDiv b.k 8)).filter (fun q =>
      [2 * q, 2 * q + 1].any (fun g => decide (4 * g < b.k) && (let n := nibble bytes b.mpitch i g; decide (n.2 ≤ n.1))))).map
        (fun q => i * b.mpitch + q) ++
    (if prot then (((List.range (protReserved t).2).filter (fun q => decide ((protReserved t).1 ≤ q) &&
      bytes (i * b.mpitch + q) != 0)).map (fun q => i * b.mpitch + q)) else []))).head?

end Sys2Proof.Machine
end

