-- ==== Sys2Proof/Machine/Bindings.lean ====
section
/-! DEFINITION. Translation, binding and reuse words (spec/07 R118 to R126, R130; spec/06 R106, R107), and the release of a
binding (R108, R111, R126, R382). -/
namespace Sys2Proof.Machine

/-! ### Places -/

/-- A place of kinds 0 to 2 and 4 to 6 that a tenant holds. -/
def Tenant.place? (t : Tenant) (k : PlaceKind) (p : Nat) : Option PlaceEntry :=
  t.places.find? (fun e => e.kind == k && e.place == p)

/-- The set places a tenant holds (Table 7-1, R382). -/
def Tenant.setPlaces (t : Tenant) : List Nat :=
  ((List.range 3).flatMap (fun a => (List.range (t.grant a).2).map (fun i => 2 ^ 30 * a + i))).filter (fun p => !t.yielded.contains p)

/-- A set place is held. -/
def Tenant.holdsSet (t : Tenant) (p : Nat) : Bool :=
  decide (p / 2 ^ 30 < 3 ∧ p % 2 ^ 30 < (t.grant (p / 2 ^ 30)).2) && !t.yielded.contains p

/-- A pending request names the place as its target (R125). -/
def Tenant.targeted (t : Tenant) (k : PlaceKind) (p : Nat) : Bool := t.requests.any (fun r => r.kind == k && r.target == some p)

/-- A place is held. -/
def Tenant.holds (t : Tenant) (k : PlaceKind) (p : Nat) : Bool :=
  match k with
  | .tset => t.holdsSet p
  | .quota => p == 0
  | _ => (t.place? k p).isSome

/-- The places of a kind. -/
def Tenant.placesOf (t : Tenant) (k : PlaceKind) : List Nat :=
  match k with
  | .tset => t.setPlaces
  | .quota => []
  | _ => (t.places.filter (fun e => e.kind == k)).map PlaceEntry.place

/-- The infrastructure frames of a tenant (R127). -/
def Tenant.infra (t : Tenant) (tfn : Nat) : Bool :=
  tfn == t.revTfn || tfn == t.lossTfn || tfn == t.bindTfn || decide (t.repoTfn ≤ tfn ∧ tfn < t.repoTfn + t.repoFrames) ||
  decide (t.svcTfn ≤ tfn ∧ tfn < t.svcTfn + 3) || (t.place? .frame tfn).any (fun e => e.phys == t.cwbase / 2 ^ 16)

/-- Translation entries removed, from the arrays and every core's cache; the map epoch counts it (R95). -/
def State.dropTlb (s : State) (t : Nat) (p : Tlb → Bool) : State :=
  let ten := s.tenant t
  if ten.tlb.any p then
    let s1 := s.setTenant { ten with tlb := ten.tlb.filter (fun e => !p e), epoch := (ten.epoch + 1) % 2 ^ 32 }
    s1.setMem { s1.mem with tcache := s1.mem.tcache.filter (fun c => !(c.tenant == t && p c.entry)) }
  else s

/-- A page of an entry reaches a frame place. -/
def Tlb.names (e : Tlb) (tfn : Nat) : Bool := decide (e.tfn ≤ tfn ∧ tfn < e.tfn + pageSize e.arr / 2 ^ 16)

/-- The entries that name a frame place removed; the map epoch counts it, whether or not there was one (R114, Table 7-7). -/
def State.dropFrameTlb (s : State) (t tfn : Nat) : State :=
  let ten := s.tenant t
  if ten.tlb.any (fun e => e.names tfn) then s.dropTlb t (fun e => e.names tfn)
  else s.setTenant { ten with epoch := (ten.epoch + 1) % 2 ^ 32 }

/-- Die places as the cores and frames held call for (R108): a die no longer needed leaves a hole; a new one takes the lowest
number free. -/
def Tenant.settleDies (t : Tenant) : Tenant :=
  let need := fun (d : Nat) => t.places.any (fun e => (e.kind == .core && e.phys / 192 == d) ||
    (e.kind == .frame && decide (e.phys < 2 ^ 24) && e.phys / 2 ^ 21 == d))
  let kept := t.diePlaces.filter (fun p => need p.2)
  { t with diePlaces := (List.range 8).foldl (fun l d =>
      if need d && !l.any (fun p => p.2 == d) then
        l ++ [(((List.range 8).find? (fun n => !l.any (fun p => p.1 == n))).getD 8, d)]
      else l) kept }

/-- HOST of an integrity frame: set while a frame it covers has HOST (R374). -/
def State.settleRun (s : State) (m : Nat) : State :=
  s.setFrame m { s.frame m with host := s.mem.frames.any (fun p => p.2.prot && p.2.host && p.2.tagRun / 2 ^ 16 == m) }

/-- A frame's binding released (R111): every byte reads as zero under the next generation. -/
def State.releaseFrame (s : State) (mfn : Nat) : State :=
  let f := s.frame mfn
  let keep := fun (a : Nat) => a / 2 ^ 16 != mfn
  let u := (s.setMem { s.mem with
    bytes := s.mem.bytes.filter (fun c => keep c.1),
    wtags := s.mem.wtags.filter (fun c => keep c.1),
    watch := s.mem.watch.filter (fun r => keep (32 * r.sector)) }).setFrame mfn
    { Frame.free with gen := (f.gen + 1) % 256, incs := f.incs + 1, stamp := f.stamp }
  if f.prot then u.settleRun (f.tagRun / 2 ^ 16) else u

/-- A place taken from a tenant and its binding released (R111, R126, R127). -/
def State.releasePlace (s : State) (t : Nat) (k : PlaceKind) (p : Nat) : State :=
  match k with
  | .tset =>
    let ten := s.tenant t
    let set := (ten.grant (p / 2 ^ 30)).1 + p % 2 ^ 30
    let s1 := s.dropTlb t (fun e => e.arr == p / 2 ^ 30 && e.set == set)
    s1.setTenant { s1.tenant t with yielded := ten.yielded ++ [p] }
  | .quota => s
  | _ =>
    let s1 := match k, (s.tenant t).place? k p with
      | .frame, some e => if e.phys < 2 ^ 24 then s.releaseFrame e.phys else s
      | .core, some e => s.bumpUnits [coreUnit e.phys]
      | .bank, some e => s.bumpUnits [bankUnit e.phys]
      | _, _ => s
    let ten := s1.tenant t
    s1.setTenant (Tenant.settleDies { ten with places := ten.places.filter (fun e => !(e.kind == k && e.place == p)) })

/-- A request leaves; a kind-3 request takes its whole grant with it (R382), a kind-7 one sets the quota unless it has been met before
(R125). -/
def State.retireRequest (s : State) (t : Nat) (r : RevReq) : State :=
  let ten := s.tenant t
  let t1 := { ten with requests := ten.requests.filter (fun q => q.reqid != r.reqid) }
  match r.kind with
  | .tset =>
    let a := r.target.getD 0 / 2 ^ 30
    s.setTenant { t1 with grants := ten.grants.set a (0, 0), yielded := ten.yielded.filter (fun p => p / 2 ^ 30 != a) }
  | .quota => s.setTenant (if r.yielded = [] then { t1 with quota := r.count } else t1)
  | _ => s.setTenant t1

/-! ### TBLD, TBRD, TBINV -/

/-- The frame places of a run, with their numbers. -/
def Tenant.run (t : Tenant) (tfn n : Nat) : List (Option PlaceEntry) := (List.range n).map (fun i => t.place? .frame (tfn + i))

/-- The status of TBLD and the entry it loads (R118). -/
def tbldCheck (s : State) (t : Tenant) (va tfn attr arr way : Nat) : Nat × Option Tlb :=
  let ps := pageSize arr
  let n := ps / 2 ^ 16
  let size := (t.grant arr).2
  if va % ps ≠ 0 ∨ 2 ^ 48 ≤ va ∨ tfn % n ≠ 0 then (3, none)
  else if attr / 32 ≠ 0 ∨ attr % 8 = 0 ∨ (attr.testBit 1 ∧ attr.testBit 2) then (5, none)
  else if size = 0 ∨ t.tlb.any (fun e => e.arr == arr && e.set == t.setOf arr va && e.way != way && e.page == va / ps) then (2, none)
  else
    let run := t.run tfn n
    let mfn := ((run.headD none).map PlaceEntry.phys).getD 0
    let prot := fun (e : PlaceEntry) => (s.frame e.phys).prot
    let set := 2 ^ 30 * arr + setHash (va / ps) % size
    if run.any (fun o => match o with
        | none => true
        | some e => decide (e.phys < 2 ^ 24 ∧ (s.frame e.phys).owner ≠ t.id)) then (1, none)
    else if mfn % n ≠ 0 ∨ run.zipIdx.any (fun p => p.1.any (fun e => e.phys != mfn + p.2)) then (3, none)
    else if run.any (fun o => o.any (fun e => prot e != attr.testBit 4)) then (5, none)
    else if run.any (fun o => o.any (fun e => e.revoking)) ∨ t.targeted .tset set ∨ t.yielded.contains set then (4, none)
    else (0, some ⟨arr, t.setOf arr va, way, va / ps, tfn, mfn, attr⟩)

/-- An entry loaded (R118): the epoch moves when it replaces a valid one that differs; copies of the old entry, and of any that
maps a part of the page, leave the core caches. -/
def State.loadTlb (s : State) (t : Nat) (e : Tlb) : State :=
  let ten := s.tenant t
  let old := ten.tlb.find? (fun x => x.arr == e.arr && x.set == e.set && x.way == e.way)
  let lo := e.page * pageSize e.arr
  let hi := lo + pageSize e.arr
  let hit := fun (x : Tlb) => some x == old || decide (x.page * pageSize x.arr < hi ∧ lo < (x.page + 1) * pageSize x.arr)
  let s1 := s.setTenant { ten with
    tlb := ten.tlb.filter (fun x => !(x.arr == e.arr && x.set == e.set && x.way == e.way)) ++ [e],
    epoch := if old.isSome ∧ old ≠ some e then (ten.epoch + 1) % 2 ^ 32 else ten.epoch }
  s1.setMem { s1.mem with tcache := s1.mem.tcache.filter (fun c => !(c.tenant == t && hit c.entry)) }

/-- A q-guarded word that writes a status that is ready at the next issue (R140). -/
def statusWord (c : Ctl) (u : Use) (d : Nat) (f : Ex → State × Word) (s : State) : Res1 :=
  qWord c { u with sw := [d], lat := 0, hok := true } (fun x =>
    let r := f x
    .done (r.1.setWave (((r.1.wave? x.w.core x.w.slot).getD x.w).setSreg d r.2)) {}) s

/-- TBLD (R118). -/
def execTbld (c : Ctl) (d a b e arr way : Nat) (s : State) : Res1 :=
  statusWord c { mode := 1, sr := [a, b, e] } d (fun x =>
    let r := tbldCheck x.s (x.s.tenant x.w.tenant) (x.sc a).toNat (x.sc b).toNat (x.sc e).toNat arr way
    (match r.2 with
      | some t => x.s.loadTlb x.w.tenant t
      | none => x.s, BitVec.ofNat 64 r.1)) s

/-- The value TBRD gives of an entry (R120). -/
def tbrdVal (e : Tlb) (va : Nat) : Word :=
  BitVec.ofNat 64 (2 ^ 63 + fieldAt 62 (e.covers va).toNat + fieldAt 48 e.attr + e.tfn % 2 ^ 24)

/-- TBRD (R120). -/
def execTbrd (c : Ctl) (d a arr way : Nat) (s : State) : Res1 :=
  statusWord c { mode := 1, sr := [a] } d (fun x =>
    let t := x.s.tenant x.w.tenant
    let va := (x.sc a).toNat
    (x.s, if (t.grant arr).2 = 0 then 0
      else match t.tlb.find? (fun e => e.arr == arr && e.set == t.setOf arr va && e.way == way) with
        | some e => tbrdVal e va
        | none => 0)) s

/-- TBINV (R121). -/
def execTbinv (c : Ctl) (d a arr : Nat) (all : Bool) (s : State) : Res1 :=
  statusWord c { mode := 1, sr := [a] } d (fun x =>
    let p := fun (e : Tlb) => e.arr == arr && (all || e.covers (x.sc a).toNat)
    (x.s.dropTlb x.w.tenant p, BitVec.ofNat 64 (((x.s.tenant x.w.tenant).tlb.filter p).length))) s

/-! ### FRQ, BNDQ -/

/-- R122. -/
def frqVal (s : State) (t : Tenant) (tfn : Nat) : Word :=
  match t.place? .frame tfn with
  | none => 0
  | some e =>
    let m := e.phys % 2 ^ 24
    let remote := decide (2 ^ 24 ≤ e.phys)
    let f := s.frame e.phys
    let die := if remote then m / 2 ^ 21 else ((t.diePlaces.find? (fun p => p.2 == m / 2 ^ 21)).map Prod.fst).getD 0
    BitVec.ofNat 64 (2 ^ 63 + fieldAt 62 e.revoking.toNat + fieldAt 61 (!remote && f.prot).toNat + fieldAt 60 (!remote && f.host).toNat +
      fieldAt 59 remote.toNat + fieldAt 48 (if remote then e.phys / 2 ^ 24 - 1 else 0) + fieldAt 40 (colourOf m) + fieldAt 37 die +
      fieldAt 36 (m / 2 ^ 20 % 2) + fieldAt 32 (m % 8) + m)

/-- FRQ (R122). -/
def execFrq (c : Ctl) (d a : Nat) (s : State) : Res1 :=
  statusWord c { sr := [a] } d (fun x => (x.s, frqVal x.s (x.s.tenant x.w.tenant) (x.sc a).toNat)) s

/-- Table 7-5. -/
def bndqItem (t : Tenant) (n : Nat) : Word :=
  let v := fun (k : Nat) => BitVec.ofNat 64 k
  match n with
  | 0 => v t.revTfn
  | 1 => v t.lossTfn
  | 2 => v t.repoTfn
  | 3 => v t.repoFrames
  | 4 => v t.revmin
  | 5 => v t.bindTfn
  | 6 => v t.bindCount
  | 7 => v t.revCount
  | 8 => v t.lossCount
  | 9 => v t.repOff
  | 10 => v t.lossDropped
  | 11 => t.loss.setWidth 64
  | _ => allOnes64

/-- What BNDQ gives of a place (R123). -/
def bndqPlace (t : Tenant) (k : PlaceKind) (p : Nat) : Word :=
  let val := fun (rev : Bool) (phys : Nat) => BitVec.ofNat 64 (2 ^ 63 + fieldAt 62 rev.toNat + phys)
  match k with
  | .tset => if t.holdsSet p then val (t.targeted .tset p) ((t.grant (p / 2 ^ 30)).1 + p % 2 ^ 30) else 0
  | .quota => if p = 0 then val false 0 else 0
  | _ => match t.place? k p with
    | some e => val e.revoking e.phys
    | none => 0

/-- BNDQ's value (R123). -/
def bndqVal (t : Tenant) (a : Nat) : Word :=
  if bits a 63 40 ≠ 0 then allOnes64
  else if bits a 3 0 = 15 then bndqItem t (bits a 15 8)
  else match PlaceKind.ofCode (bits a 3 0) with
    | none => allOnes64
    | some k =>
      let p := bits a 39 8
      if p = 0xFFFFFFFF then BitVec.ofNat 64 (if k = .quota then t.quota else (t.placesOf k).length)
      else if p = 0xFFFFFFFE ∧ k ≠ .quota then BitVec.ofNat 64 (((t.placesOf k).max?.map (fun m => m + 1)).getD 0)
      else bndqPlace t k p

/-- BNDQ (R123). -/
def execBndq (c : Ctl) (d a : Nat) (s : State) : Res1 :=
  statusWord c { sr := [a] } d (fun x => (x.s, bndqVal (x.s.tenant x.w.tenant) (x.sc a).toNat)) s

/-! ### REVACK, LOSSACK -/

/-- The reuse entries that tenants' quotas leave (R104). -/
def State.quotaLeft (s : State) (t : Nat) : Nat :=
  16384 - ((s.tasks.tenants.filter (fun k => k.id != t)).map Tenant.quota).sum

/-- Entries a tenant holds in the reuse table. -/
def State.reuseCount (s : State) (t : Nat) : Nat := (s.tasks.reuse.filter (fun e => e.tenant == t)).length

/-- A remote access of the tenant is outstanding on a link lane (Table 7-1, kind 4). -/
def State.laneBusy (s : State) (t phys : Nat) : Bool :=
  s.cores.waves.any (fun w => w.tenant == t && w.ops.any (fun o => o.parts.any (fun p => p.via.map Flit.lane == some phys && !p.done)))

/-- A copy job of a launch is queued or running on a queue place. -/
def Ctx.onQueue (c : Ctx) (q : Nat) : Bool :=
  c.cards.any (fun k => (k.state == .queued || k.state == .running) && k.queue == q)

/-- A copy job of a launch that is not over names a queue place: one that waits on an edge will use it too (R127, R273). -/
def Ctx.needsQueue (c : Ctx) (q : Nat) : Bool := c.cards.any (fun k => k.state != .complete && k.queue == q)

/-- A copy job of the tenant is queued or running on a queue (Table 7-1, kind 5). -/
def State.queueBusy (s : State) (t q : Nat) : Bool :=
  s.cores.ctxs.any (fun c => (s.launch c.launch).tenant == t && c.onQueue q)

/-- Table 7-1, last column: a yield of the place is refused now. -/
def State.inUse (s : State) (t : Nat) (k : PlaceKind) (p : Nat) : Bool :=
  let ten := s.tenant t
  let admitted := fun (f : Launch → Ctx → Bool) => s.cores.ctxs.any (fun c => let l := s.launch c.launch; l.tenant == t && f l c)
  match k with
  | .core => (ten.place? .core p).any (fun e => s.cores.waves.any (fun w => w.tenant == t && w.core == e.phys && w.resident))
  | .bank => admitted (fun l c => c.place == p / 32 && l.bankCode (p % 32) != 0)
  | .frame => ten.tlb.any (fun e => e.names p) || ten.infra p
  | .tset => false
  | .lane => (ten.place? .lane p).any (fun e => s.laneBusy t e.phys)
  | .queue => s.queueBusy t p
  | .chan => admitted (fun l _ => l.chans.any (fun ch => l.chbase + ch.id == p))
  | .quota => false

/-- The status of REVACK and the state it leaves (R126). Past its DEADLINE a request is the abort engine's, which has taken what remained
(R127). -/
def revack (s : State) (t reqid p : Nat) : State × Nat :=
  let ten := s.tenant t
  match ten.requests.find? (fun r => r.reqid == reqid && decide (s.time t ≤ r.deadline)) with
  | none => (s, 2)
  | some r =>
    if r.kind = .quota then
      if p ≠ 0 then (s, 3) else if r.yielded ≠ [] ∨ s.reuseCount t ≤ r.count then (s.retireRequest t r, 1) else (s, 4)
    else if !ten.holds r.kind p then (s, 3)
    else if r.kind = .tset ∧ r.target.any (fun x => x / 2 ^ 30 != p / 2 ^ 30) then (s, 6)
    else if s.inUse t r.kind p then (s, 4)
    else if r.target.any (fun x => !r.yielded.contains x && x != p) ∧ r.count ≤ r.yielded.length + 1 then (s, 5)
    else
      let r1 := { r with yielded := r.yielded ++ [p] }
      let s1 := s.releasePlace t r.kind p
      if r.count ≤ r1.yielded.length then (s1.retireRequest t r1, 1)
      else
        let ten1 := s1.tenant t
        (s1.setTenant { ten1 with requests := updWhere (fun q => q.reqid == reqid) (fun _ => r1) ten1.requests }, 0)

/-- REVACK (R126). -/
def execRevack (c : Ctl) (d a b : Nat) (s : State) : Res1 :=
  statusWord c { mode := 1, sr := [a, b] } d (fun x =>
    if 2 ^ 16 ≤ (x.sc a).toNat then (x.s, 2)
    else
      let r := revack x.s x.w.tenant (x.sc a).toNat (x.sc b).toNat
      (r.1, BitVec.ofNat 64 r.2)) s

/-- A tenant after its loss entries up to a SEQ are acknowledged (R130). -/
def Tenant.lossAck (t : Tenant) (seq : Nat) : Tenant :=
  let left := t.losses.filter (fun e => decide (seq < e.seq))
  { t with
    losses := left,
    loss := t.loss &&& BitVec.ofNat 8 (digits 1 ((List.range 8).map (fun k => (left.any (fun e => e.kind == k)).toNat))),
    repOff := if left = [] then 0 else t.repOff }

/-- LOSSACK (R130). -/
def execLossack (c : Ctl) (d a : Nat) (s : State) : Res1 :=
  statusWord c { mode := 1, sr := [a] } d (fun x =>
    let t := (x.s.tenant x.w.tenant).lossAck (x.sc a).toNat
    (x.s.setTenant t, t.loss.setWidth 64)) s

/-! ### RTQ, RTINV -/

/-- R106. -/
def rtqVal (s : State) (t : Tenant) (n : Nat) : Word :=
  let v := fun (k : Nat) => BitVec.ofNat 64 k
  match n with
  | 0 => v (s.reuseCount t.id)
  | 1 => v t.quota
  | 2 => v t.hits
  | 3 => v t.misses
  | 4 => v t.inserts
  | 5 => v t.stales
  | 6 => v t.epoch
  | _ => allOnes64

/-- RTQ (R106). -/
def execRtq (c : Ctl) (d a : Nat) (s : State) : Res1 :=
  qWord c { sr := [a], sw := [d], lat := 3, hok := true }
    (sBody d (fun x => rtqVal x.s (x.s.tenant x.w.tenant) (bits (x.sc a).toNat 7 0))) s

/-- A range of VAs, in one part or two (R107). -/
def rtRange (a b : Nat) : List (Nat × Nat) :=
  if b = 0 ∨ 2 ^ 48 ≤ b then [(0, 2 ^ 48)]
  else
    let lo := a % 2 ^ 48
    if lo + b ≤ 2 ^ 48 then [(lo, b)] else [(lo, 2 ^ 48 - lo), (0, lo + b - 2 ^ 48)]

/-- RTINV (R107). -/
def execRtinv (c : Ctl) (d a b : Nat) (s : State) : Res1 :=
  qWord c { mode := 1, sr := [a, b], sw := [d], lat := 3, hok := true } (fun x =>
    let rs := rtRange (x.sc a).toNat (x.sc b).toNat
    let meets := fun (r : Nat × Nat) => rs.any (overlaps r)
    let hit := fun (e : Reuse) => e.tenant == x.w.tenant && e.outs.any meets
    let t := x.s.tasks
    let s1 := (x.s.setTasks { t with digests := t.digests.filter (fun g => !(g.tenant == x.w.tenant && meets (g.va, g.len))) }).setReuse
      (t.reuse.filter (fun e => !hit e))
    .done (s1.setWave (x.wave.setSreg d (BitVec.ofNat 64 (t.reuse.filter hit).length))) {}) s

end Sys2Proof.Machine
end

