-- ==== Sys2Proof/Machine/Tables.lean ====
section
/-! DEFINITION. The wave and channel tables of a launch as they are read, and the table pass over them (spec/04 R61, R62, R65,
R67, R69, R70). -/
namespace Sys2Proof.Machine

/-- What the table pass leaves: waves, channels, the channel table's words, and the groups with their members. -/
structure Tables where
  waves : List WaveEntry
  chans : List Channel
  chanWords : List Nat
  groups : List Group

/-- One wave-table entry (Table 4-3); its core place by R61. -/
def waveEntry (l : Launch) (n : Nat) (x : Word) : WaveEntry :=
  let v := x.toNat
  { core := if l.wpc = 0 then bits v 50 40 else l.cbase + n / l.wpc, rtmode := v.testBit 39, role := bits v 38 37,
    groups := ((List.range 4).filter (fun k => v.testBit (32 + k))).map (fun k => bits v (8 * k + 7) (8 * k)), raw := x }

/-- Reserved bits of a wave-table entry are zero. -/
def waveReserved (x : Word) : Bool := bits x.toNat 63 51 == 0 && !x.toNat.testBit 36

/-- Reserved bits of a channel-table entry are zero. -/
def chanReserved (v : Nat) : Bool := bits v 31 23 == 0

/-- Channel entry `i` where it is declared. -/
def chanEntry (i v : Nat) : Option Channel :=
  if v.testBit 22 then some ⟨i, bits v 21 16 + 1, bits v 7 0, bits v 15 8, [], 0, 0⟩ else none

/-- A clear GVALID bit has its Gn zero, and the ids are distinct (reason 7). -/
def groupsOk (x : Word) : Bool :=
  let v := x.toNat
  let ids := ((List.range 4).filter (fun k => v.testBit (32 + k))).map (fun k => bits v (8 * k + 7) (8 * k))
  (List.range 4).all (fun k => v.testBit (32 + k) || bits v (8 * k + 7) (8 * k) == 0) && ids.dedup.length == ids.length

/-- The groups of a launch with their members in order (R62); each starts at epoch 0 with all its members awaited. -/
def groupsOf (l : List WaveEntry) : List Group :=
  (sortBy (fun a b => decide (a ≤ b)) (l.flatMap WaveEntry.groups).dedup).map (fun g =>
    let m := (List.range l.length).filter (fun i => (l[i]?).any (fun e => e.groups.contains g))
    ⟨g, m, 0, m.length, m.length⟩)

/-- Waves placed on a core place. -/
def wavesAt (l : List WaveEntry) (place : Nat) : Nat := (l.filter (fun e => e.core == place)).length

/-- The core places of a launch. -/
def placesAt (l : List WaveEntry) : List Nat := (l.map WaveEntry.core).dedup

/-- R65 on a core. -/
def coreFits (l : Launch) (n : Nat) : Bool :=
  let r := ((List.range 32).filter (fun b => l.bankCode b == 1)).length
  decide (n ≤ 48 ∧ n * l.basereg ≤ 16 * r)

/-- The addresses of the words of a launch's tables: the wave table's, then those that hold the channel table (log 54). -/
def Launch.tableAddrs (l : Launch) : List Nat :=
  (List.range l.nwave).map (fun i => l.wtab + 8 * i) ++
    (if l.nchan = 0 then [] else (List.range ((l.nchan + l.ctab % 8 / 4 + 1) / 2)).map (fun i => l.ctab / 8 * 8 + 8 * i))

/-- Every word of a launch's tables has been read. -/
def Launch.tablesIn (l : Launch) : Bool := decide (l.tableAddrs.length ≤ l.tabWords.length)

/-- A launch with the next word of its tables read; each is single-copy atomic, and others may write between them (R70). -/
def State.readTable (s : State) (l : Launch) : Launch :=
  match l.tableAddrs[l.tabWords.length]? with
  | some a => { l with tabWords := l.tabWords ++ [(s.tenantWords l.tenant l.slotHeld a 1).bind List.head?] }
  | none => l

/-- The channel table's entries of 4 bytes, as read. -/
def Launch.chanRead (l : Launch) : List (Option Nat) :=
  ((((l.tabWords.drop l.nwave).flatMap (fun o => [o.map (fun w => w.toNat % 2 ^ 32), o.map (fun w => w.toNat / 2 ^ 32)])).drop
    (l.ctab % 8 / 4))).take l.nchan

/-- Every page of a VA range is mapped for a tenant with the given attributes, and its frame owned. -/
def State.rangeMapped (s : State) (t need va n : Nat) : Bool :=
  n == 0 || (List.range ((va + n - 1) / 2 ^ 16 - va / 2 ^ 16 + 1)).all (fun i =>
    (s.tenantEntry t (max va ((va / 2 ^ 16 + i) * 2 ^ 16)) need).isSome)

/-- The table pass (R69) over the words read: the tables, or the first reason that fails. The reserved bits of every entry that could be
read come before a table that could not. -/
def State.tablePass (s : State) (l : Launch) : Except Nat Tables :=
  let wt := l.tabWords.take l.nwave
  let ws := wt.filterMap id
  let cs := l.chanRead.filterMap id
  let ten := s.tenant l.tenant
  if ws.any (fun x => !waveReserved x) ∨ cs.any (fun x => !chanReserved x) then .error 1
  else if l.rtwave ∧ ws.any (fun x => !x.toNat.testBit 39) then .error 2
  else if wt.any Option.isNone ∨ l.chanRead.any Option.isNone ∨ !s.rangeMapped l.tenant 0 l.kcbase (l.kcsize * 4096) then .error 4
  else
    let es := ws.mapIdx (waveEntry l)
    let gs := groupsOf es
    if es.any (fun e => (ten.place? .core e.core).isNone) ∨ (l.wpc ≠ 0 ∧ ws.any (fun x => bits x.toNat 50 40 != 0)) ∨
        (placesAt es).any (fun p => !coreFits l (wavesAt es p)) then .error 5
    else if ws.any (fun x => !groupsOk x) then .error 7
    else if (cs.mapIdx (fun i v => (i, v))).any (fun p => match chanEntry p.1 p.2 with
        | none => p.2 != 0
        | some c => !(gs.any (fun g => g.gid == c.sendg)) || !(gs.any (fun g => g.gid == c.recvg)) ||
            (ten.place? .chan (l.chbase + p.1)).isNone) then .error 9
    else .ok ⟨es, (cs.mapIdx chanEntry).filterMap id, cs, gs⟩

/-- The tables kept with the launch (R70). -/
def Launch.withTables (l : Launch) (t : Tables) : Launch :=
  { l with waves := t.waves, wavesRead := true, chans := t.chans, chanWords := t.chanWords, groups := t.groups }

end Sys2Proof.Machine
end

