-- ==== Sys2Proof/Machine/Reuse.lean ====
section
/-! DEFINITION. Pure launches and the reuse table (spec/06 R91 to R101): record events and stamps, digests of regions, the key,
lookup, the copy of a hit, insertion. -/
namespace Sys2Proof.Machine

/-! ### Write clocks (R94) -/

/-- Every reuse and digest entry invalidated, the clocks at 1 and the stamps at 0 again (R94); a tenant's next harvest has every frame, so that
none that was written is missed (R364). -/
def State.wrapClocks (s : State) : State :=
  let s1 := (s.setTasks { s.tasks with digests := [], tenants := s.tasks.tenants.map (fun t => { t with harvest := none }) }).setReuse []
  s1.setMem { s1.mem with
    wclock := List.replicate 8 1,
    frames := (s1.mem.frames.map (fun p => (p.1, { p.2 with stamp := 0 }))).filter (fun p => p.2 != Frame.free) }

/-- Some die's clock stands at its last value. -/
def State.clockFull (s : State) : Bool := (List.range 8).any (fun d => s.clock d == 2 ^ 48 - 1)

/-- A record event: the clocks rise, and their new values are its stamp vector (R94). -/
def State.recordEvent (s : State) : State × List Nat :=
  let s1 := if s.clockFull then s.wrapClocks else s
  let v := (List.range 8).map (fun d => s1.clock d + 1)
  (s1.setMem { s1.mem with wclock := v }, v)

/-- A frame was written since a stamp vector (R94). -/
def State.writtenSince (s : State) (v : List Nat) (mfn : Nat) : Bool := decide (v.getD (mfn / 2 ^ 21) 0 ≤ (s.frame mfn).stamp)

/-- WRITE_CLOCK_WRAP (R94): when some clock can rise no more. -/
def execWriteClockWrap (s : State) : Res1 := .next (if s.clockFull then s.wrapClocks else s)

/-! ### Regions -/

/-- The frames of a VA range, each page mapped with the given attributes and owned; a page of another device is none (log 20). -/
def State.regionFrames (s : State) (t need : Nat) (r : Nat × Nat) : Option (List Nat) :=
  (List.range ((r.1 + r.2 - 1) / 2 ^ 16 - r.1 / 2 ^ 16 + 1)).mapM (fun i =>
    let va := max r.1 ((r.1 / 2 ^ 16 + i) * 2 ^ 16)
    (s.tenantEntry t va need).bind (fun e => match e.loc va with
      | .mem ma => some (mfnOf ma)
      | _ => none))

/-- No frame of a region was written since a stamp vector; false where a page is not there. -/
def State.unwritten (s : State) (t : Nat) (v : List Nat) (r : Nat × Nat) : Bool :=
  match s.regionFrames t 0 r with
  | some l => l.all (fun m => !s.writtenSince v m)
  | none => false

/-- One sector that an engine of the device reads for a tenant (R96); none where it may not. -/
def State.engineRead (s : State) (t : Nat) (slot : Option Nat) (va : Nat) : Option (State × List Byte) :=
  match s.tenantEntry t va aRD with
  | none => none
  | some e =>
    if isProt e.attr ∧ slot = none then none
    else match e.loc va with
      | .mem ma => match s.homeDo 1536 t (if isProt e.attr then slot else none) 0 ma 32 [] (fun _ => none) with
        | .done s1 l => some (s1, l)
        | _ => none
      | _ => none

/-- One sector that an engine writes for a tenant; none where it may not. -/
def State.engineWrite (s : State) (t : Nat) (slot : Option Nat) (va : Nat) (l : List Byte) : Option State :=
  match s.tenantEntry t va aWR with
  | none => none
  | some e =>
    if isProt e.attr ∧ slot = none then none
    else match e.loc va with
      | .mem ma => match s.homeDo 1536 t (if isProt e.attr then slot else none) 0 ma 32 [(ma, 32, none)] (fun _ => some l) with
        | .done s1 _ => some s1
        | _ => none
      | _ => none

/-- A region streamed sector by sector. -/
def streamRegion (t : Nat) (slot : Option Nat) : Nat → Nat → State → List Byte → Option (State × List Byte)
  | 0, _, s, acc => some (s, acc)
  | n + 1, va, s, acc =>
    match s.engineRead t slot va with
    | none => none
    | some (s1, l) => streamRegion t slot n (va + 32) s1 (acc ++ l)

/-! ### The digest cache (R96) -/

/-- The home die of a region's first byte. -/
def State.regionDie (s : State) (t : Nat) (r : Nat × Nat) : Nat :=
  match s.regionFrames t 0 (r.1, 1) with
  | some (m :: _) => m / 2 ^ 21
  | _ => 0

/-- A cached digest that a lookup may use. -/
def State.cachedDigest (s : State) (l : Launch) (r : Nat × Nat) : Option Digest :=
  s.tasks.digests.find? (fun d => d.die == s.regionDie l.tenant r && d.tenant == l.tenant && d.va == r.1 && d.len == r.2 &&
    d.epoch == (s.tenant l.tenant).epoch && d.slot == l.slotHeld && s.unwritten l.tenant d.stamps r)

/-- An entry used or filled stands first; a die keeps 4,096. -/
def State.keepDigest (s : State) (d : Digest) : State :=
  let same := fun (x : Digest) => x.die == d.die && x.tenant == d.tenant && x.va == d.va && x.len == d.len && x.slot == d.slot
  let l := d :: s.tasks.digests.filter (fun x => !same x)
  s.setTasks { s.tasks with
    digests := (l.filter (fun x => x.die == d.die)).take 4096 ++ l.filter (fun x => x.die != d.die) }

/-! ### The key (R92, R93) -/

/-- The bytes of a word list as numbers. -/
def wordNats (l : List Word) : List Nat := nats (wordBytes l)

/-- Table 6-1, as words. -/
def Launch.shape (l : Launch) (salt : Nat) : List Word :=
  let hi := fun (b : List Nat) => BitVec.ofNat 64 (ox128 b salt / 2 ^ 64)
  [l.record.getD 5 0, l.record.getD 6 0, BitVec.ofNat 64 l.entry, BitVec.ofNat 64 (l.handler + 2 ^ 48 * l.kcsize),
   BitVec.ofNat 64 (l.kcbase + 2 ^ 48 * l.ringv), l.record.getD 10 0,
   hi (l.waves.flatMap (fun e => leBytes 8 (e.raw &&& ~~~(7#64 <<< 37)).toNat) ++ l.chanWords.flatMap (leBytes 4)),
   hi (l.waves.map (fun e => e.role + 4 * e.rtmode.toNat))]

/-- The key of a pure launch (R93) from the code-object digest and the digests of its input regions. -/
def Launch.keyOf (l : Launch) (salt : Nat) (digests : List Nat) : Nat :=
  ox128 (oxBytes (digests.headD 0) ++ wordNats (l.shape salt) ++ wordNats ((List.range 16).map l.arg) ++
    digests.tail.flatMap oxBytes) salt

/-! ### Lookup (R97 to R99) -/

/-- An entry that a launch's lookup may match. -/
def Reuse.fits (e : Reuse) (l : Launch) (key : Nat) : Bool :=
  e.tenant == l.tenant && e.key == key && (if l.prot then e.slot == l.slotHeld && e.keyh == l.keyh else e.slot == none)

/-- A reuse entry dropped. -/
def State.dropReuse (s : State) (e : Reuse) : State := s.setReuse (s.tasks.reuse.filter (fun x => x != e))

/-- A miss: the launch goes on to admission (R100). -/
def State.missed (s : State) (uid : Nat) (unkeyed : Bool) : State :=
  let l := s.launch uid
  let t := s.tenant l.tenant
  (s.setLaunch (s.toReady { l with looked := true, missed := true, unkeyed := unkeyed, hitEntry := none })).setTenant
    { t with misses := (t.misses + 1) % 2 ^ 64 }

/-- A hit completes the launch; its entry, if it is still there, is the most recently used (R99). -/
def State.completeHit (s : State) (uid : Nat) (e : Reuse) : State :=
  let l := s.launch uid
  let t := s.tenant l.tenant
  let s1 := if s.tasks.reuse.contains e then s.setTasks { s.tasks with reuse := e :: s.tasks.reuse.filter (fun x => x != e) } else s
  ((s1.setLaunch { l with reused := true, looked := true }).setTenant { t with hits := (t.hits + 1) % 2 ^ 64 }).endLaunch uid ⟨0, 0, 0⟩

/-- The search with the key known (R97, R98). -/
def State.search (s : State) (uid key : Nat) : State :=
  let l := { s.launch uid with key := key }
  let s0 := s.setLaunch l
  let t := s0.tenant l.tenant
  match s0.tasks.reuse.find? (fun e => e.fits l key) with
  | none => s0.missed uid false
  | some e =>
    if e.epoch ≠ t.epoch ∨ e.outs.any (fun r => !s0.unwritten l.tenant e.stamps r) then
      let s1 := s0.dropReuse e
      (s1.setTenant { s1.tenant l.tenant with stales := (t.stales + 1) % 2 ^ 64 }).missed uid false
    else if e.outs.map Prod.snd ≠ l.outs.map Prod.snd then s0.missed uid false
    else if e.outs.map Prod.fst = l.outs.map Prod.fst then s0.completeHit uid e
    else s0.setLaunch { l with looked := true, hitEntry := some e, phase := .copying ((e.outs.map Prod.fst).zip (l.outs.map Prod.fst)) }

/-- Digests of the regions still to do, taken from the cache while it has them; then the search. -/
def digestOn (uid : Nat) : List Nat → State → List Nat → State
  | [], s, found =>
    let l := s.launch uid
    s.search uid (l.keyOf (s.tenant l.tenant).salt.toNat found)
  | i :: rest, s, found =>
    let l := s.launch uid
    match s.cachedDigest l (l.inRegion i) with
    | some d => digestOn uid rest (s.keepDigest d) (found ++ [d.digest])
    | none => s.setLaunch { l with phase := .digesting (i :: rest) found }

/-- REUSE_LOOKUP (R97): once, when the launch is eligible and holds its key slot if it needs one. The record event comes first, then the
words of the tables one by one (R70), then the rest of the lookup. -/
def execReuseLookup (uid : Nat) (s : State) : Res1 :=
  .next (
    let l := s.launch uid
    if l.phase ≠ .queued ∨ l.eligibleAt.isNone ∨ !l.pure ∨ l.looked ∨ (l.prot ∧ l.slotHeld.isNone) then s
    else if l.v0 = [] then let r := s.recordEvent; r.1.setLaunch { l with v0 := r.2 }
    else if !l.tablesIn then s.setLaunch (s.readTable l)
    else
      match s.tablePass l with
      | .error n => (s.setLaunch { l with looked := true }).endLaunch uid ⟨1, n, 0⟩
      | .ok tb =>
        let s1 := s.setLaunch { l.withTables tb with looked := true }
        match s1.tenantWords l.tenant l.slotHeld l.codeobj 8 with
        | none => s1.missed uid true
        | some h =>
          if (l.ins ++ l.outs ++ l.scrs).any (fun i => (s1.regionFrames l.tenant aRD i).isNone) then s1.missed uid true
          else digestOn uid (List.range l.nin) s1 [(h.getD 6 0).toNat + 2 ^ 64 * (h.getD 7 0).toNat])

/-- DIGEST_CACHE_FILL (R96): the next region that the lookup lacks is streamed; its record event comes first. -/
def execDigestCacheFill (uid region : Nat) (s : State) : Res1 :=
  .next (
    let l := s.launch uid
    match l.phase with
    | .digesting (i :: rest) found =>
      if i ≠ region then s
      else
        let r := s.recordEvent
        let (va, n) := l.inRegion i
        match streamRegion l.tenant l.slotHeld (n / 32) va r.1 [] with
        | none => r.1.missed uid true
        | some (s1, b) =>
          let t := s1.tenant l.tenant
          let d : Digest := ⟨s1.regionDie l.tenant (va, n), l.tenant, va, n, t.epoch, r.2, l.slotHeld, ox128 (nats b) t.salt.toNat⟩
          digestOn uid rest (s1.keepDigest d) (found ++ [d.digest])
    | _ => s)

/-- How the copy of a hit ends. -/
inductive HitCopy where
  | ok (s : State)
  | badSource (s : State)
  | badDest (s : State)

/-- One region of a hit copied sector by sector (R99): the source's frame must not be written since the entry's stamps. -/
def hitCopy (t : Nat) (slot : Option Nat) (stamps : List Nat) : Nat → Nat → Nat → State → HitCopy
  | 0, _, _, s => .ok s
  | n + 1, a, b, s =>
    if !s.unwritten t stamps (a, 32) then .badSource s
    else match s.engineRead t slot a with
      | none => .badSource s
      | some (s1, l) => match s1.engineWrite t slot b l with
        | none => .badDest s1
        | some s2 => hitCopy t slot stamps n (a + 32) (b + 32) s2

/-- The regions of a hit, one after another; a region that stays in place is not copied. -/
def hitCopies (t : Nat) (slot : Option Nat) (stamps : List Nat) : List (Nat × Nat × Nat) → State → HitCopy
  | [], s => .ok s
  | (a, b, n) :: rest, s =>
    if a = b then hitCopies t slot stamps rest s
    else match hitCopy t slot stamps (n / 32) a b s with
      | .ok s1 => hitCopies t slot stamps rest s1
      | r => r

/-- REUSE_HIT_COPY_DONE (R99): the copy is made of the entry that was found, whatever the table holds by now. -/
def execReuseHitCopyDone (uid : Nat) (s : State) : Res1 :=
  .next (
    let l := s.launch uid
    match l.phase with
    | .copying todo =>
      match l.hitEntry with
      | none => s.missed uid false
      | some e =>
        match hitCopies l.tenant l.slotHeld e.stamps ((todo.zip (l.outs.map Prod.snd)).map (fun p => (p.1.1, p.1.2, p.2))) s with
        | .ok s1 => s1.completeHit uid e
        | .badSource s1 => (s1.dropReuse e).missed uid false
        | .badDest s1 => s1.missed uid false
    | _ => s)

/-! ### Insertion (R100) -/

/-- The least recently used entries of a tenant dropped until it holds at most `n`. -/
def trimReuse (t n : Nat) (l : List Reuse) : List Reuse :=
  let mine := (l.filter (fun e => e.tenant == t)).take n
  l.filter (fun e => e.tenant != t || mine.contains e)

/-- REUSE_INSERT (R100): a pure launch that ran and completed OK. -/
def State.reuseInsert (s : State) (uid : Nat) : State :=
  let l := s.launch uid
  let t := s.tenant l.tenant
  if !l.pure ∨ !l.missed ∨ l.unkeyed ∨ l.purity ∨ (l.endInfo.map EndInfo.status) ≠ some 0 ∨ t.quota = 0 then s
  else if l.ins.any (fun r => !s.unwritten l.tenant l.v0 r) ∨ l.outs.any (fun r => !s.rangeMapped l.tenant aRD r.1 r.2) then s
  else
    let r := s.recordEvent
    let e : Reuse := ⟨l.tenant, l.key, if l.prot then l.slotHeld else none, if l.prot then l.keyh else 0, l.outs, t.epoch, r.2⟩
    let rest := r.1.tasks.reuse.filter (fun x => !(x.tenant == l.tenant && x.key == l.key))
    let s1 := r.1.setReuse (trimReuse l.tenant t.quota (e :: rest))
    s1.setTenant { s1.tenant l.tenant with inserts := (t.inserts + 1) % 2 ^ 64 }

end Sys2Proof.Machine
end

