-- ==== Sys2Proof/Machine/Admission.lean ====
section
/-! DEFINITION. Queueing from the command window, admission and dispatch (spec/04 R71, spec/05 R76, R77, R84 to R87; spec/07
R110; spec/27 R392). -/
namespace Sys2Proof.Machine

/-! ### The command window (R76) -/

/-- The host may access a frame: HOST is set, its HBM stack is ready, and its owner is not frozen for a final copy (R74, R114,
R364, R392). -/
def State.hostMay (s : State) (mfn : Nat) : Bool :=
  let f := s.frame mfn
  f.host && s.isReady (9 + mfn / 2 ^ 20) && !(s.tenant f.owner).frozen

/-- The HDM offset of a slot's ready word. -/
def cwSlot (t : Tenant) (k : Nat) : Nat := t.cwbase + 512 * k

/-- A submission number after another: mod 2^64, skipping 0. -/
def nextSub (n : Nat) : Nat := if n + 1 = 2 ^ 64 then 1 else n + 1

/-- The watcher: the lowest slot whose ready word is NEXTSUB is queued (R76, R69, R70). -/
def State.watchWindow (s : State) (t : Nat) : State :=
  let k := s.tenant t
  if k.crsize < 6 ∨ 16 < k.crsize ∨ 4096 ≤ s.qdepth t ∨ !s.bound t then s
  else match (List.range 128).find? (fun i => (s.readWord (cwSlot k i)).toNat == k.nextsub) with
    | none => s
    | some i =>
      let s1 := s.queueLaunch t (wordsAt s (cwSlot k i) 64) k.nextsub false
      ((s1.setTenant { s1.tenant t with nextsub := nextSub k.nextsub }).deviceStore (cwSlot k i) (bytesOf 8 0)).settleEligible

/-- READY_WORD_STORE (R76, R77): the host's store to a ready word, seen by the watcher. The window's frames grant host access
(R114), else the store is dropped (R74). -/
def execReadyWordStore (t slot : Nat) (value : Word) (s : State) : Res1 :=
  .next (
    let ma := cwSlot (s.tenant t) slot
    if !s.bound t ∨ 128 ≤ slot then s
    else if !s.hostMay (mfnOf ma) then s.setDev { s.dev with refusedReqs := s.dev.refusedReqs + 1, hostResp := .dropped }
    else
      let s1 := ((s.l2Access ma 0 true none).homeWrite none ma (bytesOf 8 value.toNat)).setTags ma 8 (some ⟨.host, some 5⟩)
      ((s1.setWatch ma none).setDev { s1.dev with hostResp := .written }).watchWindow t)

/-- PENDING_SLOT_QUEUED (R76). -/
def execPendingSlotQueued (t : Nat) (s : State) : Res1 := .next (s.watchWindow t)

/-! ### What a launch needs of its cores (R85 to R87, R110) -/

/-- A core passes its bring-up tests (R10). -/
def State.coreWorks (s : State) (core : Nat) : Bool := decide (core < 1536) && !s.dev.badCores.contains core

/-- Bishop's core of a die: the lowest-numbered that passes its bring-up tests (R10). -/
def State.bishopCore (s : State) (die : Nat) : Option Nat := ((List.range 192).map (fun i => 192 * die + i)).find? s.coreWorks

/-- A core that tenants may be given: a working one, and not Bishop's (R10). -/
def State.coreForTenants (s : State) (core : Nat) : Bool := s.coreWorks core && s.bishopCore (core / 192) != some core

/-- The physical core of a core place. -/
def State.coreOf (s : State) (t place : Nat) : Option Nat := ((s.tenant t).place? .core place).map PlaceEntry.phys

/-- A core the tenant may use now: ready (R392), and its lease held where leases apply, with the last lessee's launches saved
(R87). -/
def State.coreUsable (s : State) (t core : Nat) : Bool :=
  s.isReady (1 + core / 192) && (!s.cores.leased.contains core ||
    (cellGet 0 s.cores.leases core == t && s.cores.ctxs.all (fun c => c.core != core || (s.launch c.launch).tenant == t)))

/-- Every bank that a launch codes non-zero is a place the tenant holds, on a bank of the core whose generation may still move (R112), and no
other launch on the core codes it (R64, R85, R110). -/
def State.banksFree (s : State) (l : Launch) (place core : Nat) : Bool :=
  (List.range 32).all (fun b => l.bankCode b == 0 ||
    (((s.tenant l.tenant).place? .bank (32 * place + b)).any (fun e => e.phys / 32 == core && s.unitMay (bankUnit e.phys)) &&
      s.cores.ctxs.all (fun c => c.core != core || c.launch == l.uid || (s.launch c.launch).bankCode b == 0)))

/-- The channels a launch declares are places of its tenant. -/
def State.chansHeld (s : State) (l : Launch) : Bool :=
  l.chans.all (fun c => ((s.tenant l.tenant).place? .chan (l.chbase + c.id)).isSome)

/-- The free wave slots of a core. -/
def State.slotsFree (s : State) (core : Nat) : Nat := 48 - (s.cores.waves.filter (fun w => w.core == core && w.resident)).length

/-- Frames of a save area of so many cores: 4 MiB for each core image and for the launch section (log 21). -/
def saveFrames (cores : Nat) : Nat := 64 * (cores + 1)

/-- A frame lies in a launch's save area (R360). -/
def State.inSaveArea (s : State) (mfn : Nat) : Bool :=
  s.tasks.launches.any (fun l => l.tstart != 0 && l.phase != .retired && decide (l.saveArea / 2 ^ 16 ≤ mfn ∧
    mfn < l.saveArea / 2 ^ 16 + saveFrames (placesAt l.waves).length))

/-- A frame that Bishop holds for itself: it has tag runs (R374), or a launch's save area (R360). -/
def State.reservedFrame (s : State) (mfn : Nat) : Bool :=
  s.mem.frames.any (fun p => p.2.prot && p.2.tagRun / 2 ^ 16 == mfn) || s.inSaveArea mfn

/-- The save area lies in frames of tenant 0 that the host may not access and that serve nothing else (R360). -/
def State.saveOk (s : State) (save cores : Nat) : Bool :=
  save % 2 ^ 16 == 0 && decide (save / 2 ^ 16 + saveFrames cores ≤ 2 ^ 24) &&
  (List.range (saveFrames cores)).all (fun i => let f := s.frame (save / 2 ^ 16 + i); f.owner == 0 && !f.host && !s.reservedFrame (save / 2 ^ 16 + i))

/-- The die place of a core for a tenant (Table 7-1). -/
def State.diePlace (s : State) (t core : Nat) : Nat :=
  (((s.tenant t).diePlaces.find? (fun p => p.2 == core / 192)).map Prod.fst).getD 0

/-! ### The end of a launch's part of a core (R111, R387) -/

/-- The pool banks that a launch codes non-zero, as its tenant's core place has them. -/
def State.bankUnits (s : State) (l : Launch) (place core : Nat) : List Nat :=
  ((List.range 32).filter (fun b => l.bankCode b != 0)).map (s.bankAt l.tenant place core)

/-- What a launch holds on a core is released by generation (R111, R387): its banks and its operand-buffer rows. -/
def State.releaseCtx (s : State) (c : Ctx) : State :=
  s.bumpUnits (s.bankUnits (s.launch c.launch) c.place c.core ++ c.resv.flatMap (rowUnits c.core))

end Sys2Proof.Machine
end

