-- ==== Sys2Proof/Machine/Registers.lean ====
section
/-! DEFINITION. Granules and recipes as words (spec/09 R160 to R171), the events that serve and resolve waits for storage
(R161, R162). -/
namespace Sys2Proof.Machine

/-- Granules added to a wave; their registers read zero and are unwritten (R155, R168). -/
def Wave.grow (w : Wave) (n : Nat) : Wave :=
  let first := w.vcount
  let new := (List.range (8 * n)).map (fun i => first + i)
  { w with
    vregs := new.foldl (fun c r => (List.range 32).foldl (fun d i => cellSet 0 d (32 * r + i) 0) c) w.vregs,
    written := w.written.filter (fun r => decide (r < first)),
    ext := w.ext + n }

/-- The status LIMIT of ACQX (R161). -/
def acqxLimit : Word := BitVec.ofNat 64 (2 ^ 63 + 1)
/-- The status DEADLOCK of ACQX (R161, R162). -/
def acqxDeadlock : Word := BitVec.ofNat 64 (2 ^ 63 + 2)

/-- ACQX (R161). -/
def execAcqx (c : Ctl) (d n : Nat) (s : State) : Res1 :=
  qWord c { sw := [d], lat := 3 } (fun x =>
    let w := x.wave
    let put := fun (t : State) (v : Wave) (r : Word) => Out.done (t.setWave (v.setSreg d r)) {}
    match w.acqxDone with
    | some r => put x.s { w with acqxDone := none } r
    | none =>
      if 16 < w.base + w.ext + n ∨ x.s.capacity w.launch w.core < (w.ext - w.dropped.length) + n then put (x.s.dropWait w) w acqxLimit
      else if x.s.canServe w n false then
        let v := w.grow n
        put (x.s.dropWait w) v (BitVec.ofNat 64 v.ext)
      else .hold (x.s.queueWait w n none) .acqx) s

/-- An operation whose registers from `left` on are released: what it brings them lands nowhere, whatever later bears their numbers. -/
def MemOp.lose (left : Nat) (o : MemOp) : MemOp :=
  if left ≤ o.reg then { o with reg := o.reg + 256 }
  else { o with parts := o.parts.map (fun p => if left ≤ o.reg + p.k then { p with k := p.k + 256 } else p) }

/-- The `k` highest extended granules gone (R161): tags and contents lost, with what is pending for their registers. -/
def Wave.shrink (w : Wave) (k : Nat) : Wave :=
  let left := 8 * (w.base + w.ext - k)
  { w with
    pend := w.pend.filter (fun p => !(p.kind == .vec && decide (left ≤ p.idx))), ops := w.ops.map (MemOp.lose left),
    vregs := w.vregs.filter (fun p => decide (p.1 < 32 * left)),
    tags := w.tags.filter (fun t => decide (t.reg < left)),
    written := w.written.filter (fun r => decide (r < left)),
    dropped := w.dropped.filter (fun g => decide (g < w.ext - k)),
    ext := w.ext - k }

/-- RELX (R161); the operand latch keeps nothing of what is released (R158). -/
def execRelx (c : Ctl) (d n : Nat) (s : State) : Res1 :=
  qWord c { sw := [d], lat := 3 } (fun x =>
    let v := x.wave.shrink (min n x.wave.ext)
    .done ((x.s.dropLatch v.core v.slot (fun r => decide (v.vcount ≤ r))).setWave (v.setSreg d (BitVec.ofNat 64 v.ext))) {}) s

/-- A pure launch reads a recipe record outside its code object's .recipe section (R89, R165). -/
def Ex.strayRecipe (x : Ex) (va : Nat) : Bool :=
  x.l.pure && !(match x.s.sectionOf x.w.tenant x.l.slotHeld x.l.codeobj 4 with
    | some r => inside [r] va 64
    | none => false)

/-- The physical recipe entries in use on a core (R163). -/
def State.recipesOn (s : State) (core : Nat) : Nat :=
  ((s.cores.ctxs.filter (fun c => c.core == core)).map (fun c => c.recipes.length)).sum

/-- The status of RCPDEF and the new definition (R165). -/
def Ex.rcpdef (x : Ex) (id : Nat) (r : Words) : Nat × Option (List Word) :=
  match r with
  | .ok rec =>
    match bodyWords rec with
    | none => (2, none)
    | some body =>
      let ctx := x.s.ctx x.w.launch x.w.core
      let defined := ctx.recipes.any (fun p => p.1 == id)
      if !bodyOk body x.w.base then (2, none)
      else if (x.s.wavesOn x.w.launch x.w.core).any (fun w => w.tags.any (fun t => t.id == id)) then (3, none)
      else if !defined ∧ 64 ≤ x.s.recipesOn x.w.core then (1, none)
      else (0, some body)
  | _ => (4, none)

/-- RCPDEF (R165). -/
def execRcpdef (c : Ctl) (d a id idx : Nat) (s : State) : Res1 :=
  qWord c { sr := [a], sw := [d], lat := 3, hok := true } (fun x =>
    let va := x.sc a + BitVec.ofNat 64 (64 * idx)
    let w := x.wave
    let stray := x.strayRecipe va.toNat
    if stray ∧ x.l.puretrap then .done (x.s.impure w.launch) { faults := x.lanes.map (fun i => (i, cPERM, va)) }
    else
      let s0 := if stray then x.s.impure w.launch else x.s
      let read := if (x.sc a).toNat % 64 ≠ 0 then .fault cALIGN va else x.s.readWords w va 8
      match read with
      | .refused k m =>
        if k = cOWNER then .done (s0.setWave (w.setSreg d 4)) {}
        else .done (s0.setWave { w with refusals := w.refusals ++ x.lanes.map (fun i => ⟨i, k, m⟩) }) {}
      | _ =>
        let r := x.rcpdef id read
        let ctx := s0.ctx w.launch w.core
        let s1 := match r.2 with
          | none => s0
          | some body => s0.setCtx { ctx with recipes := ctx.recipes.filter (fun (p : Nat × List Word) => p.1 != id) ++ [(id, body)] }
        .done (s1.setWave (w.setSreg d (BitVec.ofNat 64 r.1))) {}) s

/-- What RCPTAG names (R166): it touches vD only where it is to make a tag. -/
def rcptagUse (s : State) (d id : Nat) : Use :=
  match s.wave? s.ctl.focus.core s.ctl.focus.slot with
  | none => { touch := [d] }
  | some w => match s.recipe w id with
    | some body => if (readSet (bodyInstrs body) []).1.contains d then { named := [d] } else { touch := [d] }
    | none => { named := [d] }

/-- RCPTAG (R166). -/
def execRcptag (c : Ctl) (d id : Nat) (s : State) : Res1 :=
  pWord c (rcptagUse s d id) (fun x =>
    match x.s.recipe x.w id with
    | none => faultAll x cRANGE (BitVec.ofNat 64 (2 ^ 63 + id))
    | some body =>
      let w := x.wave
      if (readSet (bodyInstrs body) []).1.contains d then .done x.s {}
      else .done (x.s.setWave { w with tags := w.tags.filter (fun t => t.reg != d) ++ [⟨d, id, x.lanes.length == 32⟩] }) {}) s

/-- RCPCLR (R170). -/
def execRcpclr (c : Ctl) (a n : Nat) (s : State) : Res1 :=
  pWord c { touch := span a n } (waveBody (fun _ w => { w with tags := w.tags.filter (fun t => decide (t.reg < a ∨ a + n ≤ t.reg)) })) s

/-- Table 9-3. -/
def rcpqVal (s : State) (w : Wave) (item : Nat) : Word :=
  let mask := fun (p : Nat → Bool) => pack 1 ((List.range 64).map (fun i => (p (64 * (item % 2) + i)).toNat))
  match item with
  | 0 | 1 => mask (fun r => decide (r < w.vcount) && w.isDropped r)
  | 2 | 3 => mask (fun r => w.tags.any (fun t => t.reg == r && t.full))
  | 4 | 5 => mask (fun r => w.tags.any (fun t => t.reg == r && !t.full))
  | 6 => BitVec.ofNat 64 w.ext
  | 7 => BitVec.ofNat 64 (s.freeGranules w.launch w.core)
  | _ => allOnes64

/-- RCPQ (R171). -/
def execRcpq (c : Ctl) (d a : Nat) (s : State) : Res1 :=
  qWord c { sr := [a], sw := [d], lat := 3, hok := true } (sBody d (fun x => rcpqVal x.s x.wave (bits (x.sc a).toNat 7 0))) s

/-! ### Waits for storage (R161, R162) -/

/-- The oldest wait served: an ACQX is granted; a re-materialisation goes on when its word is tried again. -/
def State.serveWait (s : State) (core uid : Nat) : State :=
  match (s.ctx uid core).waitOrder.head? with
  | none => s
  | some g =>
    match s.wave? core g.slot with
    | none => s
    | some w =>
      if s.freeGranules uid core < g.n then s
      else match g.remat with
        | some _ => s.setWave (match w.hnd with
          | some h => { w with hnd := some { h with held := none } }
          | none => { w with held := none })
        | none =>
          let v := w.grow g.n
          (s.dropWait w).setWave { v with held := if v.held = some .acqx then none else v.held, acqxDone := some (BitVec.ofNat 64 v.ext) }

/-- GRANULE_WAIT_SERVED (R161). -/
def execGranuleWaitServed (core l : Nat) (s : State) : Res1 := .next (s.serveWait core l)

/-- A wave is held in ACQX or in re-materialisation (R162); in its handler only by a word of the handler (R338). -/
def Wave.waitsForStorage (w : Wave) : Bool :=
  match w.hnd with
  | none => w.held == some .acqx || w.held == some .remat
  | some h => h.held == some .remat

/-- Every resident wave of the launch on the core is held in ACQX or in re-materialisation (R162). -/
def State.allWaiting (s : State) (core uid : Nat) : Bool :=
  let ws := s.wavesOn uid core
  !ws.isEmpty && ws.all Wave.waitsForStorage

/-- The youngest of some waves: the highest WAVEID (R162). -/
def youngest (l : List Wave) : Option Wave := ((l.map Wave.wid).max?).bind (fun m => l.find? (fun w => w.wid == m))

/-- The highest droppable granule of a wave. -/
def Wave.topDroppable (w : Wave) : Option Nat := ((List.range w.ext).filter w.droppable).getLast?

/-- Some wait may be served from the free granules. -/
def State.canServeOldest (s : State) (core uid : Nat) : Bool :=
  (s.ctx uid core).waitOrder.head?.any (fun g => decide (g.n ≤ s.freeGranules uid core))

/-- The waves that wait, by kind; an ACQX of a wave in its handler is not one (R338). -/
def State.waiters (s : State) (core uid : Nat) (remat : Bool) : List Wave :=
  (s.wavesOn uid core).filter (fun w => (remat || w.hnd.isNone) &&
    (s.ctx uid core).waits.any (fun g => g.slot == w.slot && g.remat.isSome == remat))

/-- Step 4 of R162: RECIPE in every ready lane of the active set, with the register being written; in the handler a nested fault (R339). -/
def State.failRemat (s : State) (core uid : Nat) (w : Wave) : State :=
  let reg := (((s.ctx uid core).waits.find? (fun g => g.slot == w.slot && g.remat.isSome)).bind GranWait.remat).getD 0
  let lanes := (w.ownPc.map w.activeAt).getD []
  match w.hnd with
  | some h => s.trapped w.launch h.pc cRECIPE
  | none => (s.dropWait w).setWave { w.parkAll (lanes.map (fun i => (i, cRECIPE, BitVec.ofNat 64 reg))) with
      held := none, heldAt := none, pinned := [] }

/-- ACQX_RESOLVE (R162): the first step that applies. -/
def execAcqxResolve (core l : Nat) (s : State) : Res1 :=
  .next (
    if !s.allWaiting core l then s
    else if s.canServeOldest core l then s.serveWait core l
    else match youngest ((s.wavesOn l core).filter (fun w => w.topDroppable.isSome)) with
      | some w => s.setWave { w with dropped := w.dropped ++ w.topDroppable.toList }
      | none => match youngest (s.waiters core l false) with
        | some w => (s.dropWait w).setWave { w with held := none, acqxDone := some acqxDeadlock }
        | none => match youngest (s.waiters core l true) with
          | some w => s.failRemat core l w
          | none => s)

end Sys2Proof.Machine
end

