-- ==== Sys2Proof/Machine/Approx.lean ====
section
/-! DEFINITION. The six approximations of spec/12 R213 to R215. The exact function is enclosed in an interval of units
2^-256; the value returned is the free choice of Config when it lies within the bound of Table 12-3, and the nearest value
otherwise (log 7). -/
namespace Sys2Proof.Machine

/-- The six approximations. -/
inductive Approx where
  | rsq | exp2 | log2 | sin | cos | tanh
  deriving DecidableEq, Repr

/-- Operation number given to the free choice. -/
def Approx.num : Approx → Nat
  | .rsq => 0 | .exp2 => 1 | .log2 => 2 | .sin => 3 | .cos => 4 | .tanh => 5

/-- An interval in units of 2^-256. -/
structure Encl where
  lo : Int
  hi : Int
  deriving DecidableEq, Repr

/-- 2π in units of 2^-400. -/
def twoPi400 : Nat := 16224754493461942477724542702601789038322303200358530407182382075230461810747980997491046721853633630855133559454655152472

/-- ln 2 in units of 2^-256. -/
def ln2x256 : Nat := 80260960185991308862233904206310070533990667611589946606122867505419956976171

/-- log2 e in units of 2^-256. -/
def log2e256 : Nat := 167052672916848388242985626561247531987276682633131050150846402744536260568207

/-- A finite FP32 value in units of 2^-256. -/
def fix256 (v : FVal) : Int := v.dy.at (-256)

/-- Terms x^k/k! from `k`, in units of 2^-128. -/
def expTerms : Nat → Nat → Nat → Nat → Nat
  | 0, _, _, _ => 0
  | n + 1, k, t, x => t + expTerms n (k + 1) (t * x / 2 ^ 128 / (k + 1)) x

/-- 2^y enclosed, for y in units of 2^-300 and |y| below 2^12. -/
def exp2Encl (y : Int) : Encl :=
  let n := y / 2 ^ 300
  let r := (y % 2 ^ 300).toNat
  let e : Int := expTerms 42 0 (2 ^ 128) (r * ln2x256 / 2 ^ 428)
  let scale : Int → Int := fun z => if 0 ≤ n + 128 then z * 2 ^ (n + 128).toNat else z / 2 ^ (-(n + 128)).toNat
  ⟨scale (e - 256), scale (e + 256) + 1⟩

/-- Alternating terms of the sine or cosine series from term `t` with index `k`, in units of 2^-128. -/
def trigTerms : Nat → Nat → Int → Int → Int
  | 0, _, _, _ => 0
  | n + 1, k, t, x2 => t + trigTerms n (k + 2) (-(t * x2 / 2 ^ 128) / ((k + 1) * (k + 2))) x2

/-- The argument reduced to [−π, π], in units of 2^-128. -/
def reduceArg (a : Int) : Int :=
  let x : Int := a * 2 ^ 144
  let k : Int := (2 * x + (twoPi400 : Int)) / (2 * (twoPi400 : Int))
  (x - k * (twoPi400 : Int)) / 2 ^ 272

/-- sin enclosed. -/
def sinEncl (a : Int) : Encl :=
  let x := reduceArg a
  let s := trigTerms 28 1 x (x * x / 2 ^ 128)
  ⟨(s - 1024) * 2 ^ 128, (s + 1024) * 2 ^ 128⟩

/-- cos enclosed. -/
def cosEncl (a : Int) : Encl :=
  let x := reduceArg a
  let s := trigTerms 28 0 (2 ^ 128) (x * x / 2 ^ 128)
  ⟨(s - 1024) * 2 ^ 128, (s + 1024) * 2 ^ 128⟩

/-- Binary digits of log2 y by repeated squaring, y in [1, 2) in units of 2^-256. -/
def log2Digits : Nat → Nat → Nat → Nat
  | 0, _, acc => acc
  | n + 1, y, acc =>
    let z := y * y / 2 ^ 256
    if 2 ^ 257 ≤ z then log2Digits n (z / 2) (2 * acc + 1) else log2Digits n z (2 * acc)

/-- log2 of m·2^e enclosed. -/
def log2Encl (m : Nat) (e : Int) : Encl :=
  let k := Nat.log2 m
  let d : Int := log2Digits 80 (m * 2 ^ 256 / 2 ^ k) 0
  let v := (e + k) * 2 ^ 80 + d
  ⟨(v - 1) * 2 ^ 176, (v + 2) * 2 ^ 176⟩

/-- 1/√(m·2^e) enclosed. -/
def rsqEncl (m : Nat) (e : Int) : Encl :=
  let s : Int := isqrt (2 ^ (512 - e).toNat / m)
  ⟨s, s + 1⟩

/-- tanh of a magnitude enclosed. -/
def tanhEncl (a : Nat) : Encl :=
  let y : Int := ((2 * a * 2 ^ 44 * log2e256 / 2 ^ 256 : Nat) : Int)
  let w := exp2Encl y
  let f := fun z : Int => 2 ^ 256 - 2 * 2 ^ 512 / (z + 2 ^ 256)
  ⟨f w.lo - 2 ^ 130, f w.hi + 2 ^ 130⟩

/-- Table 12-3: the bound on the distance of a value whose spacing is 2^q, in units of 2^-256. -/
def Approx.bound (o : Approx) (q : Int) : Int :=
  let ulp : Int := 2 ^ (q + 256).toNat
  match o with
  | .rsq => ulp
  | .exp2 => 2 * ulp
  | .log2 => max (2 * ulp) (2 ^ 234)
  | .sin | .cos | .tanh => 2 ^ 234

/-- Whether an FP32 encoding is within the bound of Table 12-3 of the exact value, wherever in its enclosure that lies; FSIN, FCOS
and FTANH stay in [−1, 1]. -/
def Approx.allows (o : Approx) (f : Encl) (x : Nat) : Bool :=
  match fp32.read x with
  | .fin s m e =>
    let v := fix256 (.fin s m e)
    decide (f.hi - o.bound e ≤ v) && decide (v ≤ f.lo + o.bound e) &&
      (match o with
       | .sin | .cos | .tanh => decide (v.natAbs ≤ 2 ^ 256)
       | _ => true)
  | _ => false

/-- The FP32 value nearest to the middle of an interval. -/
def nearest (f : Encl) : Nat :=
  let mid := (f.lo + f.hi) / 2
  (rndFin fp32 .rne 0 (decide (mid < 0)) mid.natAbs (-256) false).bits

/-- The FP32 value returned: the free choice where it is within the bound, the nearest value elsewhere. -/
def Approx.pick (o : Approx) (operands : List Nat) (f : Encl) : Nat :=
  let c := (Config.approxChoice o.num operands).toNat
  if o.allows f c then c else nearest f

/-- The element's result from the FP32 result (R213): rounded once more for a 16-bit type, PE unless the case is exact. -/
def approxRes (f : Fmt) (x : Nat) (exact : Bool) : Res :=
  let r := rnd f .rne 0 (fp32.read x)
  if exact then r
  else
    let small := decide (r.bits % 2 ^ (f.ebits + f.mbits) < 2 ^ f.mbits)
    ⟨r.bits, r.flags ||| flagPE ||| (if small then flagUF else 0)⟩

/-- An exact power of two, or zero, as an FP32 encoding; used where it is representable. -/
def pow2Bits (neg : Bool) (k : Int) : Nat := (rndFin fp32 .rne 0 neg 1 k false).bits

/-- The exponent of a power of two, if the mantissa is one. -/
def pow2Exp (m : Nat) (e : Int) : Option Int := if m = 2 ^ Nat.log2 m then some (e + Nat.log2 m) else none

/-- FRSQ (R213, R214). -/
def frsqElem (f : Fmt) (a : Nat) : Res :=
  match f.read a with
  | .nan => ⟨f.nanBits, 0⟩
  | .inf neg => if neg then ⟨f.nanBits, flagNV⟩ else ⟨0, 0⟩
  | .fin neg m e =>
    if m = 0 then ⟨f.sign neg + f.infBits, flagDZ⟩
    else if neg then ⟨f.nanBits, flagNV⟩
    else match pow2Exp m e with
      | some k =>
        if k % 2 = 0 then approxRes f (pow2Bits false (-(k / 2))) true
        else approxRes f (Approx.rsq.pick [(rnd fp32 .rne 0 (f.read a)).bits] (rsqEncl m e)) false
      | none => approxRes f (Approx.rsq.pick [(rnd fp32 .rne 0 (f.read a)).bits] (rsqEncl m e)) false

/-- FLOG2 (R213, R214). -/
def flog2Elem (f : Fmt) (a : Nat) : Res :=
  match f.read a with
  | .nan => ⟨f.nanBits, 0⟩
  | .inf neg => if neg then ⟨f.nanBits, flagNV⟩ else ⟨f.infBits, 0⟩
  | .fin neg m e =>
    if m = 0 then ⟨f.sign true + f.infBits, flagDZ⟩
    else if neg then ⟨f.nanBits, flagNV⟩
    else match pow2Exp m e with
      | some k => approxRes f (rndFin fp32 .rne 0 (decide (k < 0)) k.natAbs 0 false).bits true
      | none => approxRes f (Approx.log2.pick [(rnd fp32 .rne 0 (f.read a)).bits] (log2Encl m e)) false

/-- FSIN and FCOS (R213, R214). -/
def ftrigElem (o : Approx) (f : Fmt) (a : Nat) : Res :=
  match f.read a with
  | .nan => ⟨f.nanBits, 0⟩
  | .inf _ => ⟨f.nanBits, flagNV⟩
  | .fin neg m e =>
    if m = 0 then (if o = .cos then ⟨(rnd f .rne 0 (.fin false 1 0)).bits, 0⟩ else ⟨f.sign neg, 0⟩)
    else
      let v := fix256 (.fin neg m e)
      approxRes f (o.pick [(rnd fp32 .rne 0 (f.read a)).bits] (if o = .cos then cosEncl v else sinEncl v)) false

/-- FTANH (R213, R214). -/
def ftanhElem (f : Fmt) (a : Nat) : Res :=
  match f.read a with
  | .nan => ⟨f.nanBits, 0⟩
  | .inf neg => ⟨(rnd f .rne 0 (.fin neg 1 0)).bits, 0⟩
  | .fin neg m e =>
    if m = 0 then ⟨f.sign neg, 0⟩
    else
      let v := fix256 (.fin false m e)
      if 9 * 2 ^ 256 ≤ v then ⟨(rnd f .rne 0 (.fin neg 1 0)).bits, 0⟩
      else
        let t := tanhEncl v.toNat
        let t' : Encl := if neg then ⟨-t.hi, -t.lo⟩ else t
        approxRes f (Approx.tanh.pick [(rnd fp32 .rne 0 (f.read a)).bits] t') false

/-- 2^y for an exact dyadic y (R214, R215): Table 12-4's limits are those of the element's format. -/
def exp2Dy (f : Fmt) (operands : List Nat) (y : Dy) : Res :=
  let v := y.at (min y.e (-300))
  let den : Int := 2 ^ (-(min y.e (-300))).toNat
  if (f.emax + 1) * den ≤ v then ⟨f.infBits, flagOF ||| flagPE⟩
  else if v < (f.lsb - 1) * den then ⟨0, flagUF ||| flagPE⟩
  else if v % den = 0 ∧ fp32.lsb ≤ v / den then approxRes f (pow2Bits false (v / den)) true
  else
    let w := exp2Encl (v / 2 ^ (-(min y.e (-300)) - 300).toNat)
    if f.maxMant * 2 ^ (f.qmax + 256).toNat < w.lo then ⟨f.infBits, flagOF ||| flagPE⟩
    else approxRes f (Approx.exp2.pick operands w) false

/-- FEXP2, plain form (R215). -/
def fexp2Elem (f : Fmt) (a : Nat) : Res :=
  match f.read a with
  | .nan => ⟨f.nanBits, 0⟩
  | .inf neg => if neg then ⟨0, 0⟩ else ⟨f.infBits, 0⟩
  | .fin neg m e => exp2Dy f [(rnd fp32 .rne 0 (f.read a)).bits] (FVal.fin neg m e).dy

/-- FEXP2, FS form: 2^((a − c) × b), with the invalid cases of R215 in their order. -/
def fexp2FsElem (f : Fmt) (a b c : Nat) : Res :=
  let d := (f.read a).add .rne (f.read c).negate
  if d.flags != 0 then ⟨f.nanBits, flagNV⟩
  else
    let y := d.v.mul (f.read b)
    if d.v.isNan || (f.read b).isNan then ⟨f.nanBits, 0⟩
    else match y.v with
      | .nan => ⟨f.nanBits, flagNV⟩
      | .inf neg => if neg then ⟨0, 0⟩ else ⟨f.infBits, 0⟩
      | .fin neg m e =>
        exp2Dy f [(rnd fp32 .rne 0 (f.read a)).bits, (rnd fp32 .rne 0 (f.read b)).bits, (rnd fp32 .rne 0 (f.read c)).bits]
          (FVal.fin neg m e).dy

end Sys2Proof.Machine
end

