-- ==== Sys2Proof/Machine/VectorFloat.lean ====
section
/-! DEFINITION. The vector float words and RAND (spec/12; spec/11 R199, R200). -/
namespace Sys2Proof.Machine

/-- The draws of a lane at a rounding code (R199); other codes draw nothing. -/
def Ex.draw (x : Ex) (r : Rnd) (lane i : Nat) : Nat :=
  if r = .sr then draw16 x.l.lid x.w.wid x.w.rngctr.toNat lane i else 0

/-- RNGCTR after a word that draws (R199, R218). -/
def Wave.advanceRng (w : Wave) (b : Bool) : Wave := if b then { w with rngctr := w.rngctr + 1 } else w

/-- A float word: one register with flags in each executing lane, and the draw counted (R199, R205). -/
def rBody (d : Nat) (r : Rnd) (f : Ex → Nat → VRes) (x : Ex) : Out :=
  match fBody d f x with
  | .done s q => .done (match s.wave? x.w.core x.w.slot with
      | some w => s.setWave (w.advanceRng (r == .sr))
      | none => s) q
  | o => o

/-- The latency of a float word (R205). -/
def flat (ts : List Ty) : Nat := if ts.contains .f64 then 9 else 5

/-- The use of a float word; the last of its types is the one it reads by. -/
def useF (c : Ctl) (d a : Nat) (b : Option VS) (e : Option Nat) (ts : List Ty) (r : Rnd) : Use :=
  { useABC c d a b e ((ts.map Ty.bits).getLastD 64) with lat := flat ts, impure := r == .sr }

/-- FADD (R207). -/
def execFadd (c : Ctl) (d a : Nat) (b : VS) (t : Ty) (r : Rnd) (s : State) : Res1 :=
  pWord c (useF c d a (some b) none [t] r) (rBody d r (fun x i => faddVal t r (x.draw r i) (x.v a i) (x.b b i))) s
/-- FSUB (R207). -/
def execFsub (c : Ctl) (d a : Nat) (b : VS) (t : Ty) (r : Rnd) (s : State) : Res1 :=
  pWord c (useF c d a (some b) none [t] r) (rBody d r (fun x i => fsubVal t r (x.draw r i) (x.v a i) (x.b b i))) s
/-- FMUL (R207). -/
def execFmul (c : Ctl) (d a : Nat) (b : VS) (t : Ty) (r : Rnd) (s : State) : Res1 :=
  pWord c (useF c d a (some b) none [t] r) (rBody d r (fun x i => fmulVal t r (x.draw r i) (x.v a i) (x.b b i))) s
/-- FFMA (R207). -/
def execFfma (c : Ctl) (d a : Nat) (b : VS) (e : Nat) (t : Ty) (r : Rnd) (s : State) : Res1 :=
  pWord c (useF c d a (some b) (some e) [t] r)
    (rBody d r (fun x i => ffmaVal t r (x.draw r i) (x.v a i) (x.b b i) (x.v e i))) s
/-- FMIN (R208). -/
def execFmin (c : Ctl) (d a : Nat) (b : VS) (t : Ty) (s : State) : Res1 :=
  pWord c (useF c d a (some b) none [t] .rne) (vBody d (fun x i => fminVal t (x.v a i) (x.b b i))) s
/-- FMAX (R208). -/
def execFmax (c : Ctl) (d a : Nat) (b : VS) (t : Ty) (s : State) : Res1 :=
  pWord c (useF c d a (some b) none [t] .rne) (vBody d (fun x i => fmaxVal t (x.v a i) (x.b b i))) s
/-- FSETP (R209). -/
def execFsetp (c : Ctl) (d a : Nat) (b : VS) (t : Ty) (k : Cmp) (any : Bool) (s : State) : Res1 :=
  pWord c { useF c d a (some b) none [t] .rne with vw := [], pw := [d] }
    (pBody d (fun x i => combine any ((List.range t.count).map (fun j =>
      fcompare (fmtOf t) k (elemBits (x.v a i) t.bits j) (elemBits (x.b b i) t.bits j))))) s
/-- FCVT (R212). -/
def execFcvt (c : Ctl) (d a : Nat) (td ts : Ty) (r : Rnd) (s : State) : Res1 :=
  pWord c (useF c d a none none [td, ts] r)
    (rBody d r (fun x i => fconv td ts (fun j y => fcvtElem (fmtOf td) (fmtOf ts) r (x.draw r i j) y) (x.v a i))) s
/-- FRND (R210). -/
def execFrnd (c : Ctl) (d a : Nat) (t : Ty) (r : Rnd) (s : State) : Res1 :=
  pWord c (useF c d a none none [t] .rne) (vBody d (fun x i => build t (fun j => frndElem (fmtOf t) r (elemBits (x.v a i) t.bits j)))) s
/-- I2F (R212). -/
def execI2f (c : Ctl) (d a : Nat) (td ts : Ty) (r : Rnd) (s : State) : Res1 :=
  pWord c (useF c d a none none [td, ts] r)
    (rBody d r (fun x i => fconv td ts (fun j _ => i2fElem (fmtOf td) r (x.draw r i j) (elemInt (x.v a i) ts j)) (x.v a i))) s
/-- F2I (R212). -/
def execF2i (c : Ctl) (d a : Nat) (td ts : Ty) (r : Rnd) (s : State) : Res1 :=
  pWord c (useF c d a none none [td, ts] r)
    (rBody d r (fun x i => fconv td ts (fun j y => f2iElem (fmtOf ts) td r (x.draw r i j) y) (x.v a i))) s
/-- FRCP (R213, R214). -/
def execFrcp (c : Ctl) (d a : Nat) (t : Ty) (r : Rnd) (s : State) : Res1 :=
  pWord c { useABC c d a none none t.bits with lat := 12 } (fBody d (fun x i => fvec1 t (fun _ => frcpElem (fmtOf t) r) (x.v a i))) s
/-- FRSQ (R213, R214). -/
def execFrsq (c : Ctl) (d a : Nat) (t : Ty) (s : State) : Res1 :=
  pWord c { useABC c d a none none t.bits with lat := 12 } (fBody d (fun x i => fvec1 t (fun _ => frsqElem (fmtOf t)) (x.v a i))) s
/-- FSQRT (R213, R214). -/
def execFsqrt (c : Ctl) (d a : Nat) (t : Ty) (r : Rnd) (s : State) : Res1 :=
  pWord c { useABC c d a none none t.bits with lat := 12 } (fBody d (fun x i => fvec1 t (fun _ => fsqrtElem (fmtOf t) r) (x.v a i))) s
/-- FEXP2, plain form (R215). -/
def execFexp2 (c : Ctl) (d a : Nat) (t : Ty) (s : State) : Res1 :=
  pWord c { useABC c d a none none t.bits with lat := 12 } (fBody d (fun x i => fvec1 t (fun _ => fexp2Elem (fmtOf t)) (x.v a i))) s
/-- FEXP2, FS form (R215). -/
def execFexp2Fs (c : Ctl) (d a : Nat) (b : VS) (e : Nat) (t : Ty) (s : State) : Res1 :=
  pWord c { useABC c d a (some b) (some e) t.bits with lat := 12 }
    (fBody d (fun x i => fvec3 t (fun _ => fexp2FsElem (fmtOf t)) (x.v a i) (x.b b i) (x.v e i))) s
/-- FLOG2 (R213, R214). -/
def execFlog2 (c : Ctl) (d a : Nat) (t : Ty) (s : State) : Res1 :=
  pWord c { useABC c d a none none t.bits with lat := 12 } (fBody d (fun x i => fvec1 t (fun _ => flog2Elem (fmtOf t)) (x.v a i))) s
/-- FSIN (R213, R214). -/
def execFsin (c : Ctl) (d a : Nat) (t : Ty) (s : State) : Res1 :=
  pWord c { useABC c d a none none t.bits with lat := 12 } (fBody d (fun x i => fvec1 t (fun _ => ftrigElem .sin (fmtOf t)) (x.v a i))) s
/-- FCOS (R213, R214). -/
def execFcos (c : Ctl) (d a : Nat) (t : Ty) (s : State) : Res1 :=
  pWord c { useABC c d a none none t.bits with lat := 12 } (fBody d (fun x i => fvec1 t (fun _ => ftrigElem .cos (fmtOf t)) (x.v a i))) s
/-- FTANH (R213, R214). -/
def execFtanh (c : Ctl) (d a : Nat) (t : Ty) (s : State) : Res1 :=
  pWord c { useABC c d a none none t.bits with lat := 12 } (fBody d (fun x i => fvec1 t (fun _ => ftanhElem (fmtOf t)) (x.v a i))) s

/-- R216: both halves of the product with their block scales, rounded once. -/
def fdotVal (ta tb : Ty) (r : Rnd) (u : Nat → Nat) (a b acc sc : Word) : VRes :=
  let g := ta.count / 2
  vres .f32x2 (fun h =>
    let sa := e8m0 (elemBits sc 8 h)
    let sb := e8m0 (elemBits sc 8 (2 + h))
    let ps := (List.range g).map (fun j =>
      scaledProd ((fmtOf ta).read (elemBits a ta.bits (g * h + j))) ((fmtOf tb).read (elemBits b tb.bits (g * h + j))) sa sb)
    rndPre fp32 r (u h) (sumExact r (fp32.read (elemBits acc 32 h)) ps))

/-- FDOT (R216); vC + 1 is the scale word. -/
def execFdot (c : Ctl) (d a : Nat) (b : VS) (e : Nat) (ta tb : Ty) (r : Rnd) (s : State) : Res1 :=
  pWord c { useF c d a (some b) none [ta, tb] r with
      vr := [a, e, e + 1] ++ vsV b, widths := dotWidths a b ta tb ++ [(.vec, e, 32), (.vec, e + 1, 8)] }
    (rBody d r (fun x i => fdotVal ta tb r (x.draw r i) (x.v a i) (x.b b i) (x.v e i) (x.v (e + 1) i))) s
/-- FCLASS (R217). -/
def execFclass (c : Ctl) (d a : Nat) (t : Ty) (s : State) : Res1 :=
  pWord c (useF c d a none none [t] .rne) (vBody d (fun x i => build t (fun j => fclassElem (fmtOf t) (elemBits (x.v a i) t.bits j)))) s
/-- FSCALE (R211): k is the element of bv as a signed integer. -/
def execFscale (c : Ctl) (d a : Nat) (b : VS) (t : Ty) (r : Rnd) (s : State) : Res1 :=
  pWord c (useF c d a (some b) none [t] r)
    (rBody d r (fun x i => fvec2 t (fun j y k => fscaleElem (fmtOf t) r (x.draw r i j) y (sext k t.bits)) (x.v a i) (x.b b i))) s
/-- RAND (R218): latency 4. -/
def execRand (c : Ctl) (d : Nat) (s : State) : Res1 :=
  pWord c { vw := [d], impure := true }
    (rBody d .sr (fun x i => ⟨rand64 x.l.lid x.w.wid x.w.rngctr.toNat i, 0⟩)) s

end Sys2Proof.Machine
end

