-- ==== Sys2Proof/Machine/Matrix.lean ====
section
/-! DEFINITION. The matrix words and tile operations (spec/17 R282 to R295; spec/11 R199 to R202). -/
namespace Sys2Proof.Machine

/-! ### Reservations and accumulators -/

/-- The code of an outcome that is not OK (R286, R287). -/
def codeWord (n : Nat) : Word := BitVec.ofNat 64 (2 ^ 63 + n)

/-- One scalar register written, and the word over. -/
def setS (x : Ex) (s : State) (d : Nat) (v : Word) : Out := .done (s.setWave ((x.wave).setSreg d v)) {}

/-- The use of a matrix word of scalar operands (R140, Table 2-14). -/
def useMat (sr sw : List Nat) : Use := { roles := [2, 3], sr := sr, sw := sw, lat := 3 }

/-- OBRES (R286). -/
def execObres (c : Ctl) (d a : Nat) (s : State) : Res1 :=
  pWord c (useMat [a] [d]) (fun x =>
    let desc := x.sc a
    let k := x.s.ctx x.w.launch x.w.core
    let rid := bits desc.toNat 4 0
    if !descOk desc then setS x x.s d (codeWord 1)
    else if (k.resv? rid).isSome then setS x x.s d (codeWord 2)
    else match freeRows (x.s.resvOn x.w.core) (x.s.barredRows x.w.core) (dROWS desc) with
      | none => setS x x.s d (codeWord 3)
      | some b => setS x (x.s.setCtx { k with resv := k.resv ++ [⟨rid, desc, b, []⟩] }) d 0) s

/-- Some tile operation of the launch names a reservation (R286). -/
def State.ridBusy (s : State) (launch core rid : Nat) : Bool :=
  s.cores.ctxs.any (fun c => c.launch == launch && c.tiles.any (fun t => t.rids.contains (core, rid)))

/-- OBREL (R286): the rows are released by generation (R111). -/
def execObrel (c : Ctl) (d a : Nat) (s : State) : Res1 :=
  pWord c (useMat [a] [d]) (fun x =>
    let k := x.s.ctx x.w.launch x.w.core
    let rid := bits (x.sc a).toNat 4 0
    if (k.resv? rid).isNone ∨ bits (x.sc a).toNat 63 5 ≠ 0 then setS x x.s d 1
    else if x.s.ridBusy x.w.launch x.w.core rid then .hold x.s .reserve
    else setS x ((x.s.setCtx { k with resv := k.resv.filter (fun r => r.rid != rid) }).bumpUnits
      ((k.resv.filter (fun r => r.rid == rid)).flatMap (rowUnits x.w.core))) d 0) s

/-- The banks an allocation of `rows` rows and `cols` columns takes (R280). -/
def banksFor (rows cols : Nat) : Nat := ceilDiv (4 * rows * (ceilDiv cols 16 * 16)) 32768

/-- The banks coded 11 that no allocation holds (R280) and that may be bound (R112). -/
def State.freeAccBanks (s : State) (c : Ctx) (l : Launch) : List Nat :=
  let used := c.handles.flatMap (fun h => (h.2.alloc.map Alloc.banks).getD [])
  (List.range 32).filter (fun b => l.bankCode b == 3 && !used.contains b && s.unitMay (s.bankAt l.tenant c.place c.core b))

/-- The limits of ACCA's operands (R281, R287). -/
def accaOk (l : Launch) (a b : Word) : Bool :=
  let rows := bits a.toNat 15 0
  let cols := bits a.toNat 31 16
  let m := (l.group (bits b.toNat 7 0)).members.length
  bits a.toNat 63 32 == 0 && bits b.toNat 63 9 == 0 && decide (16 ≤ rows ∧ rows ≤ 4096) && rows % 16 == 0 &&
  decide (1 ≤ cols ∧ cols ≤ 4096) &&
  (bits b.toNat 8 8 == 1 || (m != 0 && rows % m == 0 && rows / m % 16 == 0))

/-- ACCA (R280, R281, R287). -/
def execAcca (c : Ctl) (d a b : Nat) (s : State) : Res1 :=
  pWord c (useMat [a, b] [d]) (fun x =>
    let k := x.s.ctx x.w.launch x.w.core
    let p := x.sc a
    let q := x.sc b
    let rows := bits p.toNat 15 0
    let cols := bits p.toNat 31 16
    let need := banksFor rows cols
    let free := x.s.freeAccBanks k x.l
    let entry := (List.range 32).find? (fun e => (cellGet ⟨0, none⟩ k.handles e : HandleEntry).alloc.isNone)
    if !accaOk x.l p q then setS x x.s d (codeWord 1)
    else match (if free.length < need then none else entry) with
      | none => setS x x.s d (codeWord 2)
      | some e =>
        let seq := (cellGet ⟨0, none⟩ k.handles e : HandleEntry).seq
        let al : Alloc := ⟨rows, cols, bits q.toNat 7 0, bits q.toNat 8 8 == 1, x.w.wid, k.nextOrder, free.take need, []⟩
        setS x (x.s.setCtx { k with handles := cellSet ⟨0, none⟩ k.handles e ⟨seq, some al⟩ }) d (BitVec.ofNat 64 (e + 256 * seq))) s

/-- Some tile operation, ACCRD or ACCWR of the launch on the core names a handle (R287). -/
def State.handleBusy (s : State) (launch core h : Nat) : Bool :=
  (s.ctx launch core).tiles.any (fun t => t.handles.contains h) ||
  s.cores.waves.any (fun v => v.launch == launch && v.core == core && v.accBefore v.nextOp h)

/-- ACCF (R280, R287): the banks are released by generation (R111). -/
def execAccf (c : Ctl) (d a : Nat) (s : State) : Res1 :=
  pWord c (useMat [a] [d]) (fun x =>
    let k := x.s.ctx x.w.launch x.w.core
    let h := (x.sc a).toNat
    if 2 ^ 16 ≤ h ∨ (k.alloc? h).isNone then setS x x.s d 1
    else if x.s.handleBusy x.w.launch x.w.core h then .hold x.s .reserve
    else
      let e := cellGet ⟨0, none⟩ k.handles (h % 32)
      setS x ((x.s.setCtx { k with handles := cellSet ⟨0, none⟩ k.handles (h % 32) ⟨(e.seq + 1) % 256, none⟩ }).bumpUnits
        (((e.alloc.map Alloc.banks).getD []).map (x.s.bankAt x.l.tenant k.place k.core))) d 0) s

/-! ### Issuing tile operations (R282) -/

/-- A lane's tile operation as its checks leave it. -/
structure Tile where
  kind : TileKind
  rids : List (Nat × Nat)
  handles : List Nat
  impure : Bool

/-- The next tile operation number on a core. -/
def State.nextTileOn (s : State) (core : Nat) : Nat :=
  ((s.cores.ctxs.filter (fun c => c.core == core)).map Ctx.nextTile).foldl max 0

/-- A tile operation kept. -/
def State.addTile (s : State) (w : Wave) (word lane : Nat) (t : Tile) : State :=
  let c := s.ctx w.launch w.core
  let id := s.nextTileOn w.core
  let s1 := s.setCtx { c with tiles := c.tiles ++ [⟨id, w.slot, word, lane, t.kind, t.rids, t.handles, 0, 0, 0⟩], nextTile := id + 1 }
  if t.impure then s1.impure w.launch else s1

/-- A tile word (R282): held while a lane's lines are absent, while ACCF or OBREL do not, and while CNTTL is full (R146); one
count for the lanes that do not fault. -/
def tileWord (x : Ex) (absent : Bool) (lanes : List (Nat × Except (Nat × Word) Tile)) : Out :=
  let w := x.wave
  let ok := lanes.filterMap (fun p => match p.2 with
    | .ok t => some (p.1, t)
    | .error _ => none)
  let bad := lanes.filterMap (fun p => match p.2 with
    | .error e => some (p.1, e.1, e.2)
    | .ok _ => none)
  if absent then .hold x.s .line
  else if ok = [] then .done x.s { faults := bad }
  else if 15 ≤ w.cnttl then .hold x.s .count
  else
    let s1 := ok.foldl (fun t p => t.addTile w w.nextOp p.1 p.2) (x.s.setWave { w with tlWords := w.tlWords ++ [w.nextOp], nextOp := w.nextOp + 1 })
    .done s1 { faults := bad }

/-- ACCZ (R287): one operation for the wave. -/
def execAccz (c : Ctl) (a b : Nat) (s : State) : Res1 :=
  pWord c (useMat [a, b] []) (fun x =>
    let k := x.s.ctx x.w.launch x.w.core
    let h := (x.sc a).toNat
    let q := x.sc b
    let r := bits q.toNat 15 0
    let n := bits q.toNat 31 16
    match (if 2 ^ 16 ≤ h then none else k.alloc? h) with
    | none => faultAll x cRANGE q
    | some al =>
      if n = 0 ∨ al.rows < r + n ∨ bits q.toNat 63 32 ≠ 0 then faultAll x cRANGE q
      else if !x.l.mayRow al x.w.wid r n then faultAll x cBAND q
      else tileWord x false [(x.first, .ok ⟨.accz h r n, [], [h], false⟩)]) s

/-- NROW, ROW, MC, GID and RID of an OBLD descriptor (Table 17-3). -/
def oNROW (d : Word) : Nat := bits d.toNat 58 48
/-- ROW. -/
def oROW (d : Word) : Nat := bits d.toNat 41 32
/-- MC. -/
def oMC (d : Word) : Bool := bits d.toNat 16 16 == 1
/-- GID. -/
def oGID (d : Word) : Nat := bits d.toNat 15 8
/-- RID. -/
def oRID (d : Word) : Nat := bits d.toNat 4 0

/-- The reserved fields of Table 17-3, NROW's limits, and GID 0 without MC. -/
def oldOk (d : Word) : Bool :=
  bits d.toNat 63 59 == 0 && bits d.toNat 47 42 == 0 && bits d.toNat 31 17 == 0 && bits d.toNat 7 5 == 0 &&
  decide (1 ≤ oNROW d ∧ oNROW d ≤ 1024) && (oMC d || oGID d == 0)

/-- The target cores of an OBLD (R288): those that hold a member of the group; a launch's core is its core place's. -/
def Ex.targets (x : Ex) (d : Word) : List Nat :=
  if !oMC d then [x.w.core]
  else
    let m := (x.l.group (oGID d)).members
    let places := m.filterMap (fun i => (x.l.waves[i]?).map WaveEntry.core)
    (x.s.cores.ctxs.filter (fun c => c.launch == x.w.launch && places.contains c.place)).map Ctx.core

/-- One lane of OBLD: its checks (R288). -/
def obldLane (x : Ex) (a d : Word) : Except (Nat × Word) Tile :=
  match x.s.checkPad x.w a 128 with
  | .error e => .error e
  | .ok (core, off) =>
    let n := oNROW d
    let ks := x.targets d
    if !oldOk d ∨ ks = [] ∨ !x.l.padRange off (128 * n) then .error (cRANGE, d)
    else if ks.any (fun k => match (x.s.ctx x.w.launch k).resv? (oRID d) with
        | none => true
        | some r => decide (dROWS r.desc < oROW d + n)) then .error (cRANGE, d)
    else .ok ⟨.obld core off n (oROW d) (oRID d) ks, ks.map (fun k => (k, oRID d)), [], false⟩

/-- The source lines of a lane that passed its checks are absent (R232). -/
def tileAbsent (x : Ex) (t : Except (Nat × Word) Tile) : Bool :=
  match t with
  | .ok ⟨.obld core off n _ _ _, _, _, _⟩ => !x.s.padPresent x.w.launch core off (128 * n)
  | _ => false

/-- OBLD (R288). -/
def execObld (c : Ctl) (a b : Nat) (s : State) : Res1 :=
  pWord c { roles := [1, 2, 3], vr := [a, b], hold := holdReg c (some a) (some b) none } (fun x =>
    let l := x.lanes.map (fun i => (i, obldLane x (x.v a i) (x.v b i)))
    tileWord x (l.any (fun p => tileAbsent x p.2)) l) s

/-- A block may not be read yet: an access of the wave to its bytes is outstanding (R299), or an acquire is (R310). -/
def Ex.blockBusy (x : Ex) (core off : Nat) : Bool :=
  x.w.acqOpen x.w.nextOp || x.w.ops.any (fun o => o.parts.any (fun p => !p.done && p.loc.meets p.size (.pad core off) 64))

/-- A 64-byte block in scratchpad (R289, R294): its check, whether its line is absent, and its words. -/
def Ex.block (x : Ex) (a : Word) : Except (Nat × Word) (Bool × List Word) :=
  match x.s.checkPad x.w a 64 with
  | .error e => .error e
  | .ok (core, off) => .ok (!x.s.padPresent x.w.launch core off 64 || x.blockBusy core off, wordsOf 8 (x.s.readPad x.w.launch core off 64))

/-- A word whose lanes read blocks: held while one is absent, or not yet to be read. -/
def blockWord (x : Ex) (a : Nat) (f : Nat → Word → List Word → Except (Nat × Word) Tile) : Out :=
  let l := x.lanes.map (fun i => (i, x.block (x.v a i)))
  tileWord x (l.any (fun p => match p.2 with
      | .ok b => b.1
      | .error _ => false))
    (l.map (fun p => (p.1, match p.2 with
      | .error e => .error e
      | .ok b => f p.1 (x.v a p.1) b.2)))

/-- One lane of MMA or MMAS (R289, R290). -/
def mmaLane (x : Ex) (sparse : Bool) (va : Word) (l : List Word) : Except (Nat × Word) Tile :=
  let b := MmaBlock.ofWords l
  if mmaOk x.s x.w sparse l then
    .ok ⟨.mma sparse l, [(x.w.core, b.rida), (x.w.core, b.ridb)], [b.handle], false⟩
  else .error (cRANGE, va)

/-- The use of MMA and MMAS. -/
def useMma (c : Ctl) (a : Nat) : Use := { roles := [2, 3], vr := [a], hold := holdReg c (some a) none none }

/-- MMA (R289 to R291). -/
def execMma (c : Ctl) (a : Nat) (s : State) : Res1 :=
  pWord c (useMma c a) (fun x => blockWord x a (fun _ va l => mmaLane x false va l)) s

/-- MMAS (R289, R290, R292). -/
def execMmas (c : Ctl) (a : Nat) (s : State) : Res1 :=
  pWord c (useMma c a) (fun x => blockWord x a (fun _ va l => mmaLane x true va l)) s

/-! ### Moving elements (R293) -/

/-- HANDLE, ROW and COL of an accumulator address. -/
def aHANDLE (a : Word) : Nat := bits a.toNat 47 32
/-- ROW. -/
def aROW (a : Word) : Nat := bits a.toNat 31 16
/-- COL. -/
def aCOL (a : Word) : Nat := bits a.toNat 15 0

/-- R293, steps 1 to 5; a stale handle passes, and the answer says so. -/
def accCheck (x : Ex) (a : Word) : Except (Nat × Word) Bool :=
  if bits a.toNat 63 48 ≠ 0 then .error (cRANGE, a)
  else match (x.s.ctx x.w.launch x.w.core).alloc? (aHANDLE a) with
    | none => .ok true
    | some al =>
      if aCOL a % 2 = 1 then .error (cALIGN, a)
      else if al.rows ≤ aROW a ∨ al.pitch ≤ aCOL a + 1 then .error (cRANGE, a)
      else if !x.l.mayRow al x.w.wid (aROW a) 1 then .error (cBAND, a)
      else .ok false

/-- The lanes of ACCRD and ACCWR, checked. -/
def accLanes (x : Ex) (a : Nat) : List (Nat × Except (Nat × Word) Bool) := x.lanes.map (fun i => (i, accCheck x (x.v a i)))

/-- Lanes that fault. -/
def accBad (l : List (Nat × Except (Nat × Word) Bool)) : List (Nat × Nat × Word) :=
  l.filterMap (fun p => match p.2 with
    | .error e => some (p.1, e.1, e.2)
    | .ok _ => none)

/-- Lanes that pass, and whether their handle is stale. -/
def accOk (l : List (Nat × Except (Nat × Word) Bool)) : List (Nat × Bool) :=
  l.filterMap (fun p => match p.2 with
    | .error _ => none
    | .ok b => some (p.1, b))

/-- ACCRD (R293): a handle stale at issue stays so, named by a number that no handle has. -/
def execAccrd (c : Ctl) (d a : Nat) (s : State) : Res1 :=
  pWord c { useLoad d 1 [a] with roles := [0, 2, 3], hold := holdReg c (some a) none none } (fun x =>
    let l := accLanes x a
    let ok := accOk l
    if ok = [] then .done x.s { faults := accBad l }
    else if 63 ≤ x.wave.cntld then .hold x.s .count
    else .done (startOp x (.accrd (ok.map (fun p =>
      let v := x.v a p.1
      (p.1, if p.2 then 2 ^ 16 else aHANDLE v, aROW v, aCOL v)))) true d [d] 8 (order .plain .wav .mru) false false [] [])
      { faults := accBad l }) s

/-- ACCWR (R293). -/
def execAccwr (c : Ctl) (d a : Nat) (s : State) : Res1 :=
  pWord c { roles := [0, 2, 3], vr := [d, a], hold := holdReg c (some a) none none } (fun x =>
    let l := accLanes x a
    let ok := accOk l
    if ok = [] then .done x.s { faults := accBad l }
    else if 63 ≤ x.wave.cntst then .hold x.s .count
    else .done (startOp x (.accwr ((ok.filter (fun p => !p.2)).map (fun p =>
      let v := x.v a p.1
      (p.1, aHANDLE v, aROW v, aCOL v, x.v d p.1)))) false 0 [] 8 (order .plain .wav .mru) false false [] [])
      { faults := accBad l }) s

/-! ### DRAIN (R294, R295) -/

/-- The fields of Table 17-5. -/
structure DrainBlock where
  col0 : Nat
  row0 : Nat
  handle : Nat
  zero : Bool
  ssp : Bool
  esp : Bool
  mx : Bool
  rndCode : Nat
  fmt : Nat
  cols : Nat
  rows : Nat
  edst : Word
  spitch : Nat
  epitch : Nat
  sdst : Word

/-- A drain block of eight words. -/
def DrainBlock.ofWords (l : List Word) : DrainBlock :=
  let f := fun (i hi lo : Nat) => bits (l.getD i 0).toNat hi lo
  { col0 := f 0 47 32, row0 := f 0 31 16, handle := f 0 15 0, zero := f 1 42 42 == 1, ssp := f 1 41 41 == 1, esp := f 1 40 40 == 1,
    mx := f 1 39 39 == 1, rndCode := f 1 38 36, fmt := f 1 35 32, cols := f 1 31 16, rows := f 1 15 0, edst := l.getD 2 0,
    spitch := f 3 63 32, epitch := f 3 31 0, sdst := l.getD 4 0 }

namespace DrainBlock

/-- The destination type. -/
def ty (b : DrainBlock) : Ty := Ty.ofCode b.fmt

/-- The rounding mode. -/
def rnd (b : DrainBlock) : Rnd := Rnd.ofCode b.rndCode

/-- Bytes of a row of elements. -/
def rowBytes (b : DrainBlock) : Nat := b.cols * b.ty.bits / 8

/-- Bytes of a row of scales. -/
def scaleRow (b : DrainBlock) : Nat := if b.mx then ceilDiv b.cols 32 else 0

end DrainBlock

/-- Table 17-5 and the RANGE conditions of R295. -/
def drainOk (k : Ctx) (l : List Word) : Bool :=
  let b := DrainBlock.ofWords l
  let z := fun (i hi lo : Nat) => bits (l.getD i 0).toNat hi lo == 0
  match k.alloc? b.handle with
  | none => false
  | some al =>
    z 0 63 48 && z 1 63 43 && z 5 63 0 && z 6 63 0 && z 7 63 0 && decide (b.rndCode ≤ 5) &&
    (if b.mx then [6, 12, 13, 14].contains b.fmt else [9, 10, 11, 12, 13, 14].contains b.fmt) &&
    decide (1 ≤ b.rows ∧ 1 ≤ b.cols) && b.edst.toNat % 32 == 0 && b.epitch % 32 == 0 &&
    (b.mx || (b.spitch == 0 && b.sdst == 0)) && decide (b.row0 + b.rows ≤ al.rows ∧ b.col0 + b.cols ≤ al.pitch) &&
    b.cols * b.ty.bits % 8 == 0 && decide (b.rowBytes ≤ b.epitch) && decide (b.scaleRow ≤ b.spitch)

/-- The first destination that lies outside a pure launch's footprint, or the draw of an SR rounding (R102). -/
def drainStray (l : Launch) (b : DrainBlock) : Option Word :=
  if !l.pure then none
  else if !b.esp ∧ !rowsInside l b.edst.toNat b.rowBytes b.rows b.epitch true then some b.edst
  else if b.mx ∧ !b.ssp ∧ !rowsInside l b.sdst.toNat b.scaleRow b.rows b.spitch true then some b.sdst
  else if b.rndCode = 5 then some 0
  else none

/-- One lane of DRAIN: its checks (R295, R271, R103). -/
def drainLane (x : Ex) (va : Word) (l : List Word) : Except (Nat × Word) Tile :=
  let b := DrainBlock.ofWords l
  let k := x.s.ctx x.w.launch x.w.core
  let en := boundLen b.rowBytes b.rows b.epitch
  let sn := if b.mx then boundLen b.scaleRow b.rows b.spitch else 0
  if !drainOk k l then .error (cRANGE, va)
  else if !((k.alloc? b.handle).any (fun al => x.l.mayRow al x.w.wid b.row0 b.rows)) then .error (cBAND, va)
  else match (regionBad x.s x.w b.esp b.edst en).or (regionBad x.s x.w b.ssp b.sdst sn) with
    | some a => .error (cRANGE, a)
    | none =>
      if b.mx ∧ b.sdst.toNat % 32 ≠ 0 then .error (cALIGN, b.sdst)
      else match jobEnd x.s x.w b.esp b.edst en aWR with
        | .error e => .error e
        | .ok e => match jobEnd x.s x.w b.ssp b.sdst sn aWR with
          | .error f => .error f
          | .ok f =>
            match drainStray x.l b with
            | some v => if x.l.puretrap then .error (cPERM, v) else .ok ⟨.drain l e f x.w.rngctr.toNat, [], [b.handle], true⟩
            | none => .ok ⟨.drain l e f x.w.rngctr.toNat, [], [b.handle], false⟩

/-- DRAIN (R294, R295): RNGCTR advances once for a word some lane of which draws (R199); a purity fault is noted too (R103). -/
def execDrain (c : Ctl) (a : Nat) (s : State) : Res1 :=
  pWord c { roles := [0, 2, 3], vr := [a], hold := holdReg c (some a) none none } (fun x =>
    match blockWord x a (fun _ va l => drainLane x va l) with
    | .hold s1 k => .hold s1 k
    | .done s1 r =>
      let draws := x.lanes.any (fun i => !(r.faults.any (fun p => p.1 == i)) && (match x.block (x.v a i) with
        | .ok b => (DrainBlock.ofWords b.2).rndCode == 5
        | .error _ => false))
      let stray := x.l.pure && x.l.puretrap && r.faults.any (fun p => match x.block (x.v a p.1) with
        | .ok b => p.2.1 == cPERM && (drainStray x.l (DrainBlock.ofWords b.2)) == some p.2.2
        | .error _ => false)
      let s2 := match s1.wave? x.w.core x.w.slot with
        | some w => s1.setWave (w.advanceRng draws)
        | none => s1
      .done (if stray then s2.impure x.w.launch else s2) r) s

/-- An element of an MX block (R202): a value past the largest finite one gives that one with XS. -/
def mxElem (t : Ty) (r : Rnd) (u : Nat) (e : Int) (v : FVal) : Res :=
  match v with
  | .fin neg m x =>
    match t with
    | .s8x8 =>
      let q := roundInt r u neg m (x - e + 6)
      let lim := if neg then 128 else 127
      let over' := decide (lim < q.1)
      let n := min q.1 lim
      ⟨(if neg then 256 - n else n) % 256, if over' then flagXS ||| flagPE else if q.2 then flagPE else 0⟩
    | _ =>
      let f := fmtOf t
      if (f.read f.maxBits).lt (.fin false m (x - e)) then ⟨f.sign neg + f.maxBits, flagXS ||| flagPE⟩
      else rnd f r u (.fin neg m (x - e))
  | _ => ⟨0, 0⟩

/-- One block requantised (R202): its scale byte and its elements. `u` draws by place in the block. -/
def requantise (t : Ty) (r : Rnd) (u : Nat → Nat) (vs : List FVal) : Nat × List Res × Flags :=
  if vs.any (fun v => v.isNan || v.isInf) then
    let d := match t with
      | .e2m1x16 | .s8x8 => 0
      | t => (fmtOf t).nanBits
    (255, vs.map (fun _ => ⟨d, 0⟩), flagNV)
  else
    let emax : Int := match t with
      | .e4m3x8 => 8
      | .e5m2x8 => 15
      | .e2m1x16 => 2
      | _ => 0
    let tops := vs.filterMap (fun v => match v with
      | .fin _ m e => if m = 0 then none else some (e + (Nat.log2 m : Int))
      | _ => none)
    let x : Int := match tops.max? with
      | none => -127
      | some k => max (-127) (min 127 (k - emax))
    ((x + 127).toNat, vs.mapIdx (fun i v => mxElem t r (u i) x v), 0)

/-- What a row drains to: its scale bytes, its elements' bits, and the flags. -/
def drainRow (b : DrainBlock) (u : Nat → Nat) (row : List (BitVec 32)) : List Nat × List Nat × Flags :=
  if b.mx then
    let bs := (chunks 32 (ceilDiv b.cols 32) row).mapIdx (fun k vs =>
      requantise b.ty b.rnd (fun i => u (32 * k + i)) (vs.map (fun v => fp32.read v.toNat)))
    (bs.map (fun p => p.1), bs.flatMap (fun p => p.2.1.map Res.bits),
      orFlags (bs.flatMap (fun p => p.2.2 :: p.2.1.map Res.flags)))
  else
    let rs := row.mapIdx (fun i v => if b.fmt = 9 then (⟨v.toNat, 0⟩ : Res) else rnd (fmtOf b.ty) b.rnd (u i) (fp32.read v.toNat))
    ([], rs.map Res.bits, orFlags (rs.map Res.flags))

/-- Elements of a type packed into bytes (R2). -/
def packBytes (t : Ty) (l : List Nat) : List Byte :=
  if t.bits = 4 then (chunks 2 ((l.length + 1) / 2) l).map (fun p => BitVec.ofNat 8 (p.getD 0 0 + 16 * p.getD 1 0))
  else l.flatMap (fun x => bytesOf (t.bits / 8) x)

/-- Bytes stored at an offset of an end (R295), within a sector: a store of the wave's core, which waits for its tokens as others do; in a
watched frame it is noted as the issuing wave's (R318). -/
def drainWrite (c : Ctx) (t : TileOp) (w : Wave) (slot : Option Nat) (s : State) (e : JobEnd) (up : Nat) (l : List Byte) : Sector :=
  let la := s.launch c.launch
  match e.pad with
  | some core => match s.takeStops la.tenant (State.stopsPad c.core core) with
    | none => .wait s
    | some s1 => .ok (s1.writePad c.launch core (e.addr + up) l) l
  | none =>
    let va := e.addr + up
    match e.pageAt va with
    | none => .ok s l
    | some (base, _, loc, attr) => match loc.plus (va - base) with
      | .mem ma =>
        match s.homeAccess c.core la.tenant (.tile c.core t.id) (if isProt attr then slot else none) 0 ma l.length
            [(ma, l.length, none)] (fun _ => some l) with
        | .wait s1 => .wait s1
        | .refuse k => .refuse k (BitVec.ofNat 64 va)
        | .done s1 _ => .ok (if isWatch attr then s1.setWatch ma (some ⟨ma / 32, w.launch, w.wid, watchEpochs la w⟩) else s1) l
      | .remote dev ma => remoteSector s c.core la.tenant 2 dev ma va l.length (some l)
      | .pad _ _ => .ok s l

/-- Bytes from an offset of an end, cut where sectors end: each piece with its offset. -/
def cutSectors (e : JobEnd) (up : Nat) (l : List Byte) : List (Nat × List Byte) :=
  let k := (e.addr + up) % 32
  if l = [] then []
  else (List.range (ceilDiv (k + l.length) 32)).map (fun i =>
    let lo := 32 * i - k
    (up + lo, (l.drop lo).take (32 * (i + 1) - k - lo)))

/-- The stores of a drained row (R295): its scale bytes one by one, then its elements by sectors, each by its end, offset and bytes. -/
def drainStores (b : DrainBlock) (dst sdst : JobEnd) (r : Nat) (q : List Nat × List Nat × Flags) : List (JobEnd × Nat × List Byte) :=
  q.1.mapIdx (fun i v => (sdst, r * b.spitch + i, [BitVec.ofNat 8 v])) ++
  ((cutSectors dst (r * b.epitch) (packBytes b.ty q.2.1)).map (fun p => (dst, p)))

/-- How a run of a tile operation ends: it is over, a refusal ends it, or a store waits, some rows and some stores of the next being done. -/
inductive TileEnd where
  | over
  | refused (cause : Nat) (va : Word)
  | waits (rows sent : Nat)

/-- What a run of a tile operation leaves: the state, the flags so far, and how it ends. -/
structure TileRes where
  s : State
  fl : Flags
  out : TileEnd

/-- Stores made in order: the state, how many were made, and what stopped them, a refusal or a wait. -/
def drainSend (c : Ctx) (t : TileOp) (w : Wave) (slot : Option Nat) :
    List (JobEnd × Nat × List Byte) → State → State × Nat × Option (Option (Nat × Word))
  | [], s => (s, 0, none)
  | x :: l, s =>
    match drainWrite c t w slot s x.1 x.2.1 x.2.2 with
    | .wait s1 => (s1, 0, some none)
    | .refuse k va => (s, 0, some (some (k, va)))
    | .ok s1 _ => let r := drainSend c t w slot l s1; (r.1, r.2.1 + 1, r.2.2)

/-- The `n` rows of a drain from row `r` on, of the first of which `k` stores are made: written sector by sector, then zeroed (R295). -/
def drainRows (c : Ctx) (t : TileOp) (w : Wave) (b : DrainBlock) (slot : Option Nat) (dst sdst : JobEnd) (draw : Nat → Nat) :
    Nat → Nat → Nat → State → Flags → TileRes
  | 0, _, _, s, fl => ⟨s, fl, .over⟩
  | n + 1, r, k, s, fl =>
    match (s.ctx c.launch c.core).alloc? b.handle with
    | none => ⟨s, fl, .over⟩
    | some al =>
      let row := (List.range b.cols).map (fun j => al.elem (b.row0 + r) (b.col0 + j))
      let q := drainRow b (fun i => draw (r * b.cols + i)) row
      match drainSend c t w slot ((drainStores b dst sdst r q).drop k) s with
      | (s1, m, some none) => ⟨s1, fl, .waits r (k + m)⟩
      | (s1, _, some (some e)) => ⟨s1, fl, .refused e.1 e.2⟩
      | (s1, _, none) =>
        let s2 := if b.zero then s1.setCtx ((s1.ctx c.launch c.core).setAlloc b.handle
            ((List.range b.cols).foldl (fun a j => a.setElem (b.row0 + r) (b.col0 + j) 0) al)) else s1
        drainRows c t w b slot dst sdst draw n (r + 1) 0 s2 (fl ||| q.2.2)

/-! ### Performing tile operations (R282, R283) -/

/-- A tile operation on a core by its number, with what its launch holds there. -/
def State.tile? (s : State) (core id : Nat) : Option (Ctx × TileOp) :=
  (s.cores.ctxs.find? (fun c => c.core == core && c.tiles.any (fun t => t.id == id))).bind
    (fun c => (c.tiles.find? (fun t => t.id == id)).map (fun t => (c, t)))

/-- No operation of the wave issued before it and sharing a reservation or a handle is still to be performed (R282), no acquire of the wave
before it is open (R310), and no access of the issuing lane (R305). -/
def State.tileFree (s : State) (c : Ctx) (t : TileOp) : Bool :=
  c.tiles.all (fun u => !(u.slot == t.slot && decide (u.id < t.id) &&
    (u.rids.any (fun r => t.rids.contains r) || u.handles.any (fun h => t.handles.contains h)))) &&
  ((s.wave? c.core t.slot).all (fun w => !(t.handles.any (fun h => w.accBefore t.word h)) && !w.acqOpen t.word &&
    (w.before t.word).all (fun o => o.parts.all (fun p => p.done || p.lane != t.lane))))

/-- The bytes of an MMAS's metadata tile; none for an MMA. -/
def State.metaBytes (s : State) (c : Ctx) (w : Wave) (b : MmaBlock) (sparse : Bool) (n : Nat) : Cells Byte :=
  let off := b.mdat.toNat % 2 ^ 20
  let core := (s.padHome w b.mdat).getD c.core
  if sparse then (s.ctx c.launch core).pad.filter (fun p => decide (off ≤ p.1 ∧ p.1 < off + n)) else []

/-- A byte of a metadata tile. -/
def metaByte (b : MmaBlock) (m : Cells Byte) (i : Nat) : Nat := (cellGet 0 m (b.mdat.toNat % 2 ^ 20 + i) : Byte).toNat

/-- The address of the first metadata byte that fails, if the operation is an MMAS and one does (R292, R376). -/
def State.tileBad (s : State) (c : Ctx) (t : TileOp) : Option Word :=
  match t.kind, s.wave? c.core t.slot with
  | .mma true l, some w =>
    let b := MmaBlock.ofWords l
    let prot := (s.launch c.launch).prot
    match c.resv? b.rida with
    | none => none
    | some r =>
      let m := s.metaBytes c w b true (b.metaLen prot r.ty)
      (metaBad b prot r.ty (metaByte b m)).map (fun i => b.mdat + BitVec.ofNat 64 i)
  | _, _ => none

/-- Rows of a reservation written. -/
def Ctx.loadRows (c : Ctx) (rid row : Nat) (l : List Byte) : Ctx :=
  { c with resv := updWhere (fun r => r.rid == rid) (fun r => { r with rows := cellSetMany 0 r.rows (128 * row) l }) c.resv }

/-- What a tile operation does. -/
def State.doTile (s : State) (c : Ctx) (t : TileOp) : TileRes :=
  match t.kind with
  | .obld core off n row rid ks =>
    let l := s.readPad c.launch core off (128 * n)
    ⟨ks.foldl (fun u k => u.setCtx ((u.ctx c.launch k).loadRows rid row l)) s, 0, .over⟩
  | .accz h r n =>
    match c.alloc? h with
    | none => ⟨s, 0, .over⟩
    | some al => ⟨s.setCtx (c.setAlloc h ((List.range (n * al.pitch)).foldl (fun a i =>
        a.setElem (r + i / al.pitch) (i % al.pitch) 0) al)), 0, .over⟩
  | .mma sparse l =>
    let b := MmaBlock.ofWords l
    match c.resv? b.rida, c.resv? b.ridb, c.alloc? b.handle with
    | some ra, some rb, some al =>
      let m := match s.wave? c.core t.slot with
        | some w => s.metaBytes c w b sparse (b.metaLen (s.launch c.launch).prot ra.ty)
        | none => []
      let p := mmaRun b ra rb sparse (metaByte b m) al
      ⟨s.setCtx (c.setAlloc b.handle p.1), p.2, .over⟩
    | _, _, _ => ⟨s, 0, .over⟩
  | .drain l dst sdst n =>
    let b := DrainBlock.ofWords l
    let la := s.launch c.launch
    let w := (s.wave? c.core t.slot).getD Wave.blank
    let draw := fun i => if b.rndCode = 5 then draw16 la.lid w.wid n t.lane i else 0
    let r := drainRows c t w b la.slotHeld dst sdst draw (b.rows - t.rowsDone) t.rowsDone t.sent s t.flags
    { r with s := (match r.out with
        | .waits n k => if n = t.rowsDone ∧ k = t.sent then r.s else r.s.tickFresh
        | _ => r.s.tickFresh) }

/-- A tile operation over: its flags kept, and the words of the wave that leave CNTTL in order, each giving its flags to FSTAT
(R282, R283). -/
def State.endTile (s : State) (c : Ctx) (t : TileOp) (fl : Flags) : State :=
  let k := s.ctx c.launch c.core
  let tiles := k.tiles.filter (fun u => u.id != t.id)
  let s1 := s.setCtx { k with tiles := tiles }
  match s1.wave? c.core t.slot with
  | none => s1
  | some w =>
    let left := dropDone (fun word => tiles.any (fun u => u.slot == t.slot && u.word == word)) w.tlWords
    let flags := w.tlFlags ++ [(t.word, fl)]
    let gone := flags.filter (fun p => !left.contains p.1)
    let v : Wave := { w with tlWords := left, tlFlags := flags.filter (fun p => left.contains p.1) }
    (s1.setWave (v.hwSticky s.ctl.cycle (orFlags (gone.map Prod.snd)) 0)).endWave c.core t.slot

/-- A tile operation replaced. -/
def State.setTile (s : State) (c : Ctx) (t : TileOp) : State :=
  let k := s.ctx c.launch c.core
  s.setCtx { k with tiles := updWhere (fun u => u.id == t.id) (fun _ => t) k.tiles }

/-- TILE_OP_COMPLETE (R282 to R284, R288, R291, R295): an operation that is refused gives no flag (R200), and a DRAIN whose store waits for its
token goes on from there at the next such event (R249, R255). -/
def execTileOpComplete (core op : Nat) (s : State) : Res1 :=
  .next (match s.tile? core op with
    | none => s
    | some (c, t) =>
      if !s.tileFree c t ∨ (s.tileBad c t).isSome then s
      else
        let r := s.doTile c t
        match r.out with
        | .over => r.s.endTile c t r.fl
        | .refused k va => (r.s.refuseLane c t.slot t.lane k va).endTile c t 0
        | .waits n k => r.s.setTile c { t with rowsDone := n, sent := k, flags := r.fl })

/-- SPMETA_FAULT (R292): nothing is written, no flag is set, the lane parks at the wave's next boundary. -/
def execSpmetaFault (core op : Nat) (s : State) : Res1 :=
  .next (match s.tile? core op with
    | none => s
    | some (c, t) =>
      match (if s.tileFree c t then s.tileBad c t else none) with
      | none => s
      | some a => (s.refuseLane c t.slot t.lane cSPMETA a).endTile c t 0)

end Sys2Proof.Machine
end

