-- ==== Sys2Proof/Machine/Sync.lean ====
section
/-! DEFINITION. Group barriers and dataflow channels as words (spec/20 R322 to R333). -/
namespace Sys2Proof.Machine

/-! ### Barriers -/

/-- The arrival of a record is consumed first: none where it is not complete yet (R324). -/
def takeArrival (s : State) (w : Wave) (r : GroupRec) : Option State :=
  if !r.arr then some s else if s.arrived w.launch r then some (s.consume w r) else none

/-- BAR and BARA (R324): consume, release at device scope, arrive; `wait` says whether the next issue is held. -/
def arriveBody (g : Nat) (wait : Bool) (x : Ex) : Out :=
  let w := x.wave
  match w.grec g with
  | none => faultAll x cRANGE (BitVec.ofNat 64 g)
  | some r =>
    match takeArrival x.s w r with
    | none => .hold x.s .bar
    | some s1 =>
      let w1 := (s1.wave? w.core w.slot).getD w
      match releaseSide s1 w1 3 with
      | some t => .hold t .release
      | none =>
        let s2 := s1.arrive w1 g
        let done := ((s2.launch w.launch).group g).epoch != ((s1.launch w.launch).group g).epoch
        let w2 := (s2.wave? w.core w.slot).getD w1
        .done (if wait then s2.setWave { w2 with barHold := some g } else s2) { progress := done }

/-- BAR (R324): the next issue waits for the arrival's completion. -/
def execBar (c : Ctl) (g : Nat) (s : State) : Res1 := pWord c {} (arriveBody g true) s

/-- BARA (R324). -/
def execBara (c : Ctl) (g : Nat) (s : State) : Res1 := pWord c {} (arriveBody g false) s

/-- BARW (R324). -/
def execBarw (c : Ctl) (g : Nat) (s : State) : Res1 :=
  pWord c {} (fun x =>
    match x.wave.grec g with
    | none => faultAll x cRANGE (BitVec.ofNat 64 g)
    | some r => match takeArrival x.s x.wave r with
      | none => .hold x.s .bar
      | some s1 => .done s1 {}) s

/-- The hold after a BAR ends: its arrival is complete and is consumed (R324, R325). A hold that a handler suspends goes on after it
(R338, R340). -/
def State.passBar (s : State) (w : Wave) : State :=
  match w.barHold with
  | none => s
  | some g =>
    if w.hnd.isSome then s
    else match w.grec g with
    | none => s.setWave { w with barHold := none }
    | some r => if s.arrived w.launch r then s.consume { w with barHold := none } r else s

/-- GRPQ (R326). -/
def execGrpq (c : Ctl) (d a : Nat) (s : State) : Res1 :=
  pWord c { useLoad d 1 [a] with hold := holdReg c (some a) none none } (fun x =>
    if 63 ≤ x.wave.cntld then .hold x.s .count
    else .done (startOp x (.grpq (x.lanes.map (fun i => (i, x.v a i)))) true d [d] 8 (order .plain .wav .mru) false false [] []) {}) s

/-! ### Channels -/

/-- The address a CHAN fault records (R330). -/
def chanAddr (ch reason : Nat) : Word := BitVec.ofNat 64 (ch + 256 * reason)

/-- R330: the first failing condition of CHSEND (`send`) or CHRECV. -/
def chanFault (s : State) (w : Wave) (ch : Nat) (send : Bool) : Option Nat :=
  let l := s.launch w.launch
  match l.chan? ch with
  | none => some 0
  | some k =>
    let mine := if send then k.sendg else k.recvg
    let other := if send then k.recvg else k.sendg
    if !(l.group mine).members.contains w.wid then some 1
    else if !(s.tenant w.tenant).places.any (fun p => p.kind == .chan && p.place == l.chbase + ch) then some 2
    else if (l.group other).live = 0 ∧ (send ∨ k.full = []) then some 3
    else none

/-- CHSEND (R329): the slot takes every lane's value, zero where the lane does not execute. -/
def execChsend (c : Ctl) (ch a : Nat) (s : State) : Res1 :=
  pWord c { vr := [a] } (fun x =>
    let w := x.wave
    let l := x.l
    match chanFault x.s w ch true with
    | some r => faultAll x cCHAN (chanAddr ch r)
    | none => match l.chan? ch with
      | none => .done x.s {}
      | some k =>
        if k.slots ≤ k.full.length then .hold x.s .chan
        else match releaseSide x.s w 3 with
          | some t => .hold t .release
          | none =>
            let item := (List.range 32).map (fun i => if x.lanes.contains i then x.v a i else 0)
            .done (x.s.setLaunch (l.setChan { k with full := k.full ++ [item], sends := (k.sends + 1) % 2 ^ 64 })) { progress := true }) s

/-- CHRECV (R329): the oldest full slot, with the acquire side at device scope. -/
def execChrecv (c : Ctl) (d ch : Nat) (s : State) : Res1 :=
  pWord c { vw := [d], lat := 0 } (fun x =>
    let w := x.wave
    let l := x.l
    match chanFault x.s w ch false with
    | some r => faultAll x cCHAN (chanAddr ch r)
    | none => match l.chan? ch with
      | none => .done x.s {}
      | some k => match k.full with
        | [] => .hold x.s .chan
        | item :: rest =>
          let w1 := x.lanes.foldl (fun v i => v.setVreg d i (item.getD i 0)) w
          let s1 := x.s.setLaunch (l.setChan { k with full := rest, recvs := (k.recvs + 1) % 2 ^ 64 })
          .done ((s1.setWave w1).acquire w.core 3) { progress := true }) s

/-- CHQ (R333). -/
def execChq (c : Ctl) (d ch item : Nat) (s : State) : Res1 :=
  pWord c (useLoad d 1 []) (fun x =>
    if 63 ≤ x.wave.cntld then .hold x.s .count
    else .done (startOp x (.chq ch item x.lanes) true d [d] 8 (order .plain .wav .mru) false false [] []) {}) s

end Sys2Proof.Machine
end

