-- ==== Sys2Proof/Machine/Completions.lean ====
section
/-! DEFINITION. Events of a wave outside its words: accesses performed (spec/13 R236, spec/19 R316), refusals learnt of (spec/07
R115, spec/15 R261), traps taken (spec/21 R335, R336), timeouts and fence markers (spec/08 R143, R151; spec/19 R313). -/
namespace Sys2Proof.Machine

/-- An operation of a wave performed, whole or one part, when `kind` says that it is of the event's kind; a wave whose lanes
have exited ends with its last operation (R134). -/
def State.performEvent (s : State) (core slot op : Nat) (part : Option Nat) (l1 : Bool) (kind : MemOp → Bool) : State :=
  match (s.wave? core slot).bind (fun w => w.op? op) with
  | none => s
  | some o => if kind o then (s.performOp core slot op part l1).endWave core slot else s

/-- An operation that performs an atomic function at its home. -/
def MemOp.isAtomic (o : MemOp) : Bool :=
  match o.act with
  | .atom _ _ | .red _ _ => true
  | _ => false

/-- LOAD_COMPLETE (R236): the registers of the lanes are written, and CNTLD falls with the last part. -/
def execLoadComplete (core slot op : Nat) (part : Option Nat) (l1 : Bool) (s : State) : Res1 :=
  .next (s.performEvent core slot op part l1 (fun o => o.ld && !o.isAtomic))

/-- STORE_ACCEPTED (R236). -/
def execStoreAccepted (core slot op : Nat) (part : Option Nat) (s : State) : Res1 :=
  .next (s.performEvent core slot op part false (fun o => !o.ld && !o.isAtomic))

/-- ATOMIC_PERFORMED (R316, R262). -/
def execAtomicPerformed (core slot op : Nat) (part : Option Nat) (s : State) : Res1 :=
  .next (s.performEvent core slot op part false MemOp.isAtomic)

/-- SLICE_RETRY (R249): a request that found no token is issued again. -/
def execSliceRetry (core slot op : Nat) (s : State) : Res1 := .next (s.performEvent core slot op none false (fun _ => true))

/-- Refusals of chosen causes park their lanes at the wave's boundary (R115, R261): TRPC will be the lane's PC there. -/
def Wave.takeRefusals (w : Wave) (p : Nat → Bool) : Wave :=
  let take := fun (r : Refused) => p r.cause && (w.lane r.lane).st != .service
  { (w.parkAll ((w.refusals.filter take).map (fun r => (r.lane, r.cause, r.addr)))) with
    refusals := w.refusals.filter (fun r => !take r) }

/-- The refusals taken in the state. -/
def State.takeRefusals (s : State) (core slot : Nat) (p : Nat → Bool) : State :=
  match s.wave? core slot with
  | none => s
  | some w => s.setWave (w.takeRefusals p)

/-- HOME_SLICE_REFUSAL (R115; INTEG by R375 and SPMETA by R292 reach the wave alike). -/
def execHomeSliceRefusal (core slot : Nat) (s : State) : Res1 := .next (s.takeRefusals core slot (fun c => c != cLINK))

/-- An unperformed part that has left for another device. -/
def Part.away (p : Part) : Bool := !p.done && p.via.isSome && (match p.loc with
  | .remote _ _ => true
  | _ => false)

/-- The target refuses the oldest access of the wave that is under way to another device (R260, R261). -/
def Wave.refuseAway (w : Wave) : Wave :=
  match w.ops.find? (fun o => o.parts.any Part.away) with
  | none => w
  | some o => match o.parts.findIdx? Part.away with
    | none => w
    | some k => (w.refuse o (o.batch k) cLINK).retireOps

/-- LINK_REFUSAL (R261): the refusals known are taken; where none is known, the target refuses what is under way. -/
def execLinkRefusal (core slot : Nat) (s : State) : Res1 :=
  .next (match s.wave? core slot with
    | none => s
    | some w =>
      let v := if w.refusals.any (fun r => r.cause == cLINK) then w else w.refuseAway
      ((s.setWave v).takeRefusals core slot (fun c => c == cLINK)).endWave core slot)

/-- TRAP_TAKEN (R335, R336): taken when it is due, after a barrier that has completed has let the wave go on. -/
def execTrapTaken (core slot : Nat) (s : State) : Res1 :=
  .next (match s.wave? core slot with
    | none => s
    | some w =>
      let s1 := s.passBar w
      match s1.wave? core slot with
      | none => s1
      | some v => if s1.trapDue v then s1.takeTrap v else s1)

/-- HANG_DETECT (R143): a wave whose HANGCNT stands above a non-zero HANGLIM, of a launch that has not ended (R388). -/
def execHangDetect (core slot : Nat) (s : State) : Res1 :=
  .next (match s.wave? core slot with
    | none => s
    | some w =>
      let lim := (s.tenant w.tenant).hanglim
      let l := s.launch w.launch
      if lim = 0 ∨ w.hangcnt ≤ lim ∨ w.hangArmed ∨ l.endInfo.isSome then s
      else if l.hangtrap then s.setWave { w with hangArmed := true }
      else ((s.setWave { w with hangcnt := 0 }).setLaunch { l with hang := true }).upcall w.tenant 0xFF01 l.lid w.wid)

/-- SLEEP_TIMEOUT (R151): the wave held at a SLEEP whose time is over is held no more. -/
def execSleepTimeout (core slot : Nat) (s : State) : Res1 :=
  .next (match s.wave? core slot with
    | none => s
    | some w =>
      if w.held = some .sleep ∧ w.sleepSince.any (fun d => decide (d ≤ s.ctl.cycle)) then s.setWave { w with held := none } else s)

/-- Every access of the wave down a path is performed. -/
def State.pathClear (s : State) (w : Wave) (p : Path) : Bool :=
  w.ops.all (fun o => o.parts.all (fun q => q.done || !(s.pathsOf w.tenant w.die q.loc).contains p))

/-- FENCE_MARKER_ACK (R313). -/
def execFenceMarkerAck (core slot : Nat) (p : Path) (s : State) : Res1 :=
  .next (match s.wave? core slot with
    | none => s
    | some w => if w.markers.contains p ∧ s.pathClear w p then s.setWave { w with markers := w.markers.filter (fun q => q != p) } else s)

end Sys2Proof.Machine
end

