-- ==== Sys2Proof/Machine/Network.lean ====
section
/-! DEFINITION. Events of the network and of the slices (spec/15 R247 to R249, R254, R255, R257 to R261). -/
namespace Sys2Proof.Machine

/-- A bucket after a refill (R249): `rate` tokens more, twice the rate at most. -/
def refilled (rate old : Nat) : Nat := min (2 * rate) (old + rate)

/-- Buckets at the given keys refilled `n` times. -/
def refillKeys (rate n : Nat) (keys : List Nat) (c : Cells Nat) : Cells Nat :=
  keys.foldl (fun d k => cellSet 0 d k ((refilled rate)^[n] (cellGet 0 d k))) c

/-- The number of a refill in `refills`: 0 of a die's slices, 1 of its stops, 2 of its control budgets. -/
def refillKey (kind die : Nat) : Nat := 8 * kind + die

/-- The boundaries of 64 cycles that have passed since a refill was made last (R249, R254). -/
def State.refillPeriods (s : State) (kind die : Nat) : Nat := s.ctl.cycle / 64 - cellGet 0 s.mem.refills (refillKey kind die)

/-- A refill made at the boundaries that have passed, upon which the prefetches that wait are tried again (R237); nothing changes before the
next. -/
def State.refillAt (s : State) (kind die : Nat) (f : Nat → MemSys) : State :=
  if s.refillPeriods kind die = 0 then s
  else (s.setMem { f (s.refillPeriods kind die) with
    refills := cellSet 0 s.mem.refills (refillKey kind die) (s.ctl.cycle / 64) }).tryPrefs

/-- SLICE_TOKEN_REFILL (R249): every bucket of the die's 384 slices. More than two refills are as two. -/
def execSliceTokenRefill (die : Nat) (s : State) : Res1 :=
  .next (s.refillAt 0 die (fun n => { s.mem with sliceTok := s.tasks.tenants.foldl (fun c t =>
    let r := cellGet 0 t.slbw die
    if r = 0 then c else refillKeys r (min n 2) ((List.range 384).map (fun i => (die * 384 + i) * 64 + t.id)) c) s.mem.sliceTok }))

/-- NET_TOKEN_REFILL (R255): every injection stop of the die. -/
def execNetTokenRefill (die : Nat) (s : State) : Res1 :=
  .next (s.refillAt 1 die (fun n => { s.mem with netTok := s.tasks.tenants.foldl (fun c t =>
    let r := cellGet 0 t.netbw die
    if r = 0 then c else refillKeys r (min n 2) ((stopsOn die).map (fun k => State.stopKey k t.id)) c) s.mem.netTok }))

/-- CONTROL_BUDGET_REFILL (R254): back to 4. -/
def execControlBudgetRefill (die : Nat) (s : State) : Res1 :=
  .next (s.refillAt 2 die (fun _ => { s.mem with ctlBudget := s.mem.ctlBudget.filter (fun p => p.1 / portNo 192 0 != die) }))

/-- LINK_FLIT_REPLAY (R257): the flit of a tag is sent again, which no program sees. -/
def execLinkFlitReplay (die tag : Nat) (s : State) : Res1 :=
  .next (s.setMem { s.mem with replays := s.mem.replays + 1, linkTags := cellSet 0 s.mem.linkTags die tag })

/-- REMOTE_OWNERSHIP_UPDATE (R260): one of a die's 4,096 entries. -/
def execRemoteOwnershipUpdate (die idx : Nat) (e : RotEntry) (s : State) : Res1 :=
  .next (if die < 8 ∧ idx < 4096 then s.setMem { s.mem with remote := cellSet none s.mem.remote (die * 4096 + idx) (some e) } else s)

/-- The four weights of a die are 1 to 255 (R254). -/
def weightsOk (w : BitVec 32) : Bool := (List.range 4).all (fun i => bits w.toNat (8 * i + 7) (8 * i) != 0)

/-- WAYMASK_CHANGE (R247, R254): the tenant's mask and rates on a die, and the die's weights; no counter changes. -/
def execWaymaskChange (die t : Nat) (mask : BitVec 16) (slbw netbw : BitVec 8) (netwt : BitVec 32) (s : State) : Res1 :=
  .next (if !s.bound t ∨ 8 ≤ die ∨ !weightsOk netwt then s
    else
      let k := s.tenant t
      let s1 := s.setTenant { k with
        waymask := cellSet 65535 k.waymask die mask.toNat, slbw := cellSet 0 k.slbw die slbw.toNat,
        netbw := cellSet 0 k.netbw die netbw.toNat }
      s1.setMem { s1.mem with netwt := cellSet 0x01010101 s1.mem.netwt die netwt })

/-- The right of the table that a request needs (R260). -/
def rotGrants (e : RotEntry) (r : RemoteReq) : Bool :=
  match r with
  | .read _ => e.rd
  | .write _ _ => e.wr
  | .atomic _ _ _ _ _ => e.atom

/-- Some valid entry of the address's die grants a remote request (R260). -/
def State.remoteGrant (s : State) (dev t ma : Nat) (r : RemoteReq) : Bool :=
  s.mem.remote.any (fun p => p.1 / 4096 == dieOf ma && (match p.2 with
    | some e => e.valid && e.dev == dev && e.tenant == t && decide (e.mfn ≤ mfnOf ma ∧ mfnOf ma < e.mfn + e.count) && rotGrants e r
    | none => false))

/-- The bytes a remote request touches. -/
def remoteSize (r : RemoteReq) : Nat :=
  match r with
  | .read n => n
  | .write l _ => l.length
  | .atomic _ w _ _ _ => w.bytes

/-- What a remote request makes of the bytes it finds. -/
def remoteNew (r : RemoteReq) (old : List Byte) : Option (List Byte) :=
  match r with
  | .read _ => none
  | .write l _ => some l
  | .atomic op w b c _ => some (bytesOf w.bytes (atomNew op w (natOfBytes old) b.toNat c.toNat))

/-- The tag that a remote request's write leaves (R303): none where it is plain. -/
def remoteTag (dev : Nat) (r : RemoteReq) : Option WTag :=
  match r with
  | .read _ => none
  | .write _ o => o.map (fun rel => ⟨.other dev, rel⟩)
  | .atomic _ _ _ _ rel => some ⟨.other dev, rel⟩

/-- The answer of the link port noted (log 5). -/
def State.linkAnswer (s : State) (r : LinkResp) : State := s.setDev { s.dev with linkResp := r }

/-- REMOTE_ACCESS_AT_TARGET (R260, R261): a frame granted remotely has owner 0. -/
def execRemoteAccessAtTarget (dev t ma : Nat) (req : RemoteReq) (s : State) : Res1 :=
  .next (if 2 ^ 40 ≤ ma ∨ 2 ^ 16 < ma % 2 ^ 16 + remoteSize req ∨ !s.remoteGrant dev t ma req then s.linkAnswer .refused
    else match s.homeDo (linkNo (dieOf ma)) 0 none 0 ma (remoteSize req) [(ma, remoteSize req, remoteTag dev req)] (remoteNew req) with
      | .wait s1 => s1
      | .refuse _ => s.linkAnswer .refused
      | .done s1 old => s1.linkAnswer (match req with
        | .write _ _ => .done
        | _ => .data old))

end Sys2Proof.Machine
end

