-- ==== Sys2Proof/Machine/Retire.lean ====
section
/-! DEFINITION. Retirement, the two rings, and the registers of a virtual function (spec/05 R75, R78 to R82; spec/27 R387 to
R389; spec/24 Table 24-4). -/
namespace Sys2Proof.Machine

/-! ### Retirement -/

/-- The launch's copy jobs and tile operations are over, and its stores and atomics accepted (R387, step 2). -/
def State.launchQuiet (s : State) (uid : Nat) : Bool :=
  s.cores.waves.all (fun w => w.launch != uid || w.ops.all (fun o => o.ld && !o.isAtomic)) &&
  s.cores.ctxs.all (fun c => c.launch != uid || (c.cards.isEmpty && c.tiles.isEmpty))

/-- Everything a launch holds on the cores is released; its save area's frames too (R387, step 3). -/
def State.releaseCores (s : State) (uid : Nat) : State :=
  let l := s.launch uid
  let s0 := (s.cores.ctxs.filter (fun c => c.launch == uid)).foldl State.releaseCtx s
  let s1 := (s0.cores.waves.filter (fun w => w.launch == uid)).foldl (fun t w => t.dropLatch w.core w.slot (fun _ => true)) s0
  let s2 := { s1 with cores := { s1.cores with
    waves := s1.cores.waves.filter (fun w => w.launch != uid), ctxs := s1.cores.ctxs.filter (fun c => c.launch != uid) } }
  let s3 := s2.setLaunch { l with images := [], chans := l.chans.map (fun c => { c with full := [] }) }
  if l.tstart = 0 then s3
  else (List.range (saveFrames (placesAt l.waves).length)).foldl (fun t i => t.releaseFrame (l.saveArea / 2 ^ 16 + i)) s3

/-- The completion record but for PHASE (Table 5-2). -/
def completionOf (l : Launch) (e : EndInfo) (seq tend : Nat) : WaitRec :=
  ⟨recordWords (fieldAt 0 seq + fieldAt 64 l.tag.toNat + fieldAt 128 l.subno + fieldAt 192 (if l.reused then 0 else l.tstart) +
    fieldAt 256 tend + fieldAt 320 e.detail.toNat + fieldAt 384 l.reused.toNat + fieldAt 385 l.purity.toNat +
    fieldAt 386 l.hang.toNat + fieldAt 387 l.preempted.toNat + fieldAt 388 l.migrated.toNat + fieldAt 389 l.srcLaunch.toNat +
    fieldAt 390 l.preemptSat.toNat + fieldAt 400 e.reason + fieldAt 408 e.status + fieldAt 416 l.lid)⟩

/-- A completion record waits for its ring; CRWAIT is set while the ring can take none (R78). -/
def State.complete (s : State) (uid : Nat) (e : EndInfo) : State :=
  let l := s.launch uid
  let t := s.tenant l.tenant
  (s.setTenant { t with
    records := t.records ++ [completionOf l e s.ctl.seq (s.time l.tenant)],
    crwait := t.crwait || !ringOpen t.crsize t.crprod t.crcons }).takeSeq

/-- A launch that the tenant's runtime or Bishop kills: the kill is its terminating event, unless another came first (R79, R387). -/
def State.killed (s : State) (uid : Nat) (kill : Bool) : State :=
  if kill && s.tasks.launches.any (fun l => l.uid == uid) then s.endLaunch uid ⟨5, 0, 0⟩ else s

/-- LAUNCH_RETIRE (R387 to R389): a launch that has ended, or is killed now, once what it issued is over. One that a function-level
reset ended gets no record. -/
def execLaunchRetire (uid : Nat) (kill : Bool) (was : State) : Res1 :=
  .next (
    let s := was.killed uid kill
    let l := s.launch uid
    match l.phase, l.endInfo with
    | .ending, some e =>
      if !s.launchQuiet uid then s
      else
        let pending := s.tasks.stops.any (fun r => r.launch == uid)
        let s0 := s.setLaunch { l with preemptSat := l.preemptSat || pending, reserving := false }
        let s1 := s0.setTasks { s0.tasks with stops := s0.tasks.stops.filter (fun r => r.launch != uid) }
        let s2 := ((((s1.releaseCores uid).reuseInsert uid).dropKeyWait uid).releaseKey uid)
        let s3 := if e = endedByReset then s2 else s2.complete uid e
        (s3.setLaunch { s3.launch uid with phase := .retired }).settleEligible
    | _, _ => s)

/-! ### Rings (R78, R80, R82) -/

/-- A record written at its index under the values of the moment, its last word last and a release at system scope (R78, R80),
wherever the base says (log 61). -/
def State.writeRecord (s : State) (base size prod : Nat) (l : List Word) : State :=
  let ma := (base + 64 * (prod % 2 ^ size)) % 2 ^ 40
  let phase := (prod / 2 ^ size + 1) % 2
  (s.deviceStore ma (wordBytes (l.take 7))).deviceStore (ma + 56) (bytesOf 8 ((l.getD 7 0).toNat + phase)) (deviceRelease 5)

/-- A message-signalled interrupt sent (R82). -/
def State.signal (s : State) (t vector : Nat) : State := s.setDev { s.dev with msix := s.dev.msix ++ [⟨t, vector⟩] }

/-- Vector 0 fires, and the count starts again (R82). -/
def State.signal0 (s : State) (t : Nat) : State :=
  (s.setTenant { s.tenant t with unsignalled := 0, oldestUnsignalled := none }).signal t 0

/-- COMPLETION_RECORD_WRITE (R78, R82). -/
def execCompletionRecordWrite (t : Nat) (s : State) : Res1 :=
  .next (
    let k := s.tenant t
    match k.records with
    | [] => s
    | r :: rest =>
      if !ringOpen k.crsize k.crprod k.crcons then s.setTenant { k with crwait := true }
      else
        let s1 := s.writeRecord k.crbase k.crsize k.crprod r.words
        let s2 := s1.setTenant { s1.tenant t with
          records := rest, crprod := (k.crprod + 1) % 2 ^ 32, unsignalled := k.unsignalled + 1,
          oldestUnsignalled := k.oldestUnsignalled.or (some (s.time t)) }
        if k.cmodn ≠ 0 ∧ k.cmodn ≤ k.unsignalled + 1 then s2.signal0 t else s2)

/-- EVENT_RECORD_WRITE (R80, R82). -/
def execEventRecordWrite (t : Nat) (s : State) : Res1 :=
  .next (
    let k := s.tenant t
    match k.events with
    | [] => s
    | r :: rest =>
      if !ringOpen k.evsize k.evprod k.evcons then s.setTenant { k with evlost := true }
      else
        let s1 := s.writeRecord k.evbase k.evsize k.evprod r.words
        (s1.setTenant { s1.tenant t with events := rest, evprod := (k.evprod + 1) % 2 ^ 32 }).signal t 2)

/-- COMPLETION_INTERRUPT_TIMER (R82). -/
def execCompletionInterruptTimer (t : Nat) (s : State) : Res1 :=
  .next (
    let k := s.tenant t
    if k.cmodn ≠ 0 ∧ k.oldestUnsignalled.any (fun o => decide (1000 * k.cmodt ≤ s.elapsed t o)) then s.signal0 t else s)

/-! ### Registers of a virtual function (Tables 5-1, 24-4) -/

/-- A register of the tenant's pages written by its access code (R3, R4). -/
def Tenant.write (t : Tenant) (r : VfReg) (v : Word) : Tenant :=
  let n := fun (hi : Nat) => bits v.toNat hi 0
  match r with
  | .cmodt => { t with cmodt := n 15 }
  | .cmodn => { t with cmodn := n 15 }
  | .evlost => { t with evlost := t.evlost && !v.getLsbD 0 }
  | .crwait => { t with crwait := t.crwait && !v.getLsbD 0 }
  | .evcons => { t with evcons := n 31 }
  | .evbase => { t with evbase := n 63 }
  | .evsize => { t with evsize := n 7 }
  | .crsize => { t with crsize := n 7 }
  | .crcons => { t with crcons := n 31 }
  | .crbase => { t with crbase := n 63 }
  | .nonce i => if i < 4 then { t with chNonce := ((List.range 4).map (fun j => t.chNonce.getD j 0)).set i v } else t
  | .report => { t with chReport := n 63 }
  | .clid => { t with chLid := n 31 }
  | .cslot => { t with cslot := n 2 }
  | .pfReslim => { t with reslim := n 31 }
  | .pfSvcth => { t with svcth := n 5 }
  | .pfSvchold => { t with svchold := n 15 }
  | .reslim | .svcth | .svchold | .qdepth | .nextsub | .evprod | .crprod | .cwbase | .status | .go | .pfClaim => t

/-- The page of a virtual function: its tenant's, or the one kept while no tenant is bound to it (R75). -/
def State.page (s : State) (t : Nat) : Tenant :=
  if s.bound t then s.tenant t else (s.tasks.vfs.find? (fun k => k.id == t)).getD { Tenant.blank with id := t }

/-- The page of a virtual function replaced; there are 63 of them. -/
def State.setPage (s : State) (k : Tenant) : State :=
  if s.bound k.id then s.setTenant k
  else if k.id = 0 ∨ 64 ≤ k.id then s
  else s.setTasks { s.tasks with vfs := s.tasks.vfs.filter (fun x => x.id != k.id) ++ [k] }

/-- The status page as the host reads it, word by word (Table 5-1); reading it changes nothing. -/
def State.statusPage (s : State) (t : Nat) : List Word :=
  let k := s.page t
  let v := fieldAt 0 k.cwbase + fieldAt 64 k.crbase + fieldAt 128 k.crprod + fieldAt 160 k.crcons + fieldAt 192 k.crsize +
    fieldAt 200 k.evsize + fieldAt 256 k.evbase + fieldAt 320 k.evprod + fieldAt 352 k.evcons + fieldAt 384 k.nextsub +
    fieldAt 448 k.crwait.toNat + fieldAt 449 k.evlost.toNat + fieldAt 464 (s.qdepth t) + fieldAt 480 k.cmodn + fieldAt 496 k.cmodt +
    fieldAt 512 k.svchold + fieldAt 538 k.svcth + fieldAt 544 k.reslim
  (List.range 16).map (fun i => BitVec.ofNat 64 (v / 2 ^ (64 * i)))

/-- The challenge window as the host reads it (Table 24-4). -/
def State.challengeWindow (s : State) (t : Nat) : List Word :=
  let k := s.page t
  (List.range 4).map (fun i => k.chNonce.getD i 0) ++ (List.range 4).map (fun i =>
    BitVec.ofNat 64 ((fieldAt 0 k.chReport + fieldAt 64 k.chLid + fieldAt 128 k.chStatus + fieldAt 136 k.cslot + fieldAt 192 k.goBit.toNat) /
      2 ^ (64 * i)))

/-- A CMODN written at or below the count reached lets vector 0 fire (R82). -/
def State.countDue (s : State) (t : Nat) : State :=
  let k := s.tenant t
  if s.bound t ∧ k.cmodn ≠ 0 ∧ k.oldestUnsignalled.isSome ∧ k.cmodn ≤ k.unsignalled then s.signal0 t else s

/-- The status page and the challenge window at their Reset values (R75, R5); the counters of RTQ start again (R106). -/
def Tenant.flr (t : Tenant) : Tenant :=
  { t with
    reslim := 0, svcth := 0, svchold := 0, cmodt := 0, cmodn := 0, evlost := false, crwait := false, nextsub := 1, evcons := 0,
    evprod := 0, evbase := 0, evsize := 0, crsize := 0, crcons := 0, crprod := 0, crbase := 0, hits := 0, misses := 0,
    inserts := 0, stales := 0, goBit := false, cslot := 0, chStatus := 0, chLid := 0, chReport := 0, chNonce := [0, 0, 0, 0] }

/-- VALID of every class's slots reset and the batches in them gone (R5, Table 21-4). -/
def State.resetSlots (s : State) (t : Nat) : State :=
  let mine := s.tasks.batches.filter (fun b => b.tenant == t)
  let s1 := mine.foldl (fun u b => u.deviceStore (slotAddr (s.tenant t) b.cls b.slot + 56) (bytesOf 8 0)) s
  s1.setTasks { s1.tasks with batches := s1.tasks.batches.filter (fun b => b.tenant != t) }

/-- A launch as a function-level reset leaves it: one that is queued or running ends without a record; one whose first terminating event
has come keeps it, and its record (R75, R388). -/
def Launch.flr (l : Launch) : Launch :=
  if l.endInfo.isSome then { l with old := true } else { l with old := true, endInfo := some endedByReset, phase := .ending }

/-- FUNCTION_LEVEL_RESET (R75, R388): the page at its Reset values, the service slots empty, the launches ended; those that have retired
are forgotten. -/
def execFunctionLevelReset (t : Nat) (s : State) : Res1 :=
  .next (if !s.bound t then s.setPage { (s.page t).flr with id := t }
    else
      let live := (s.tasks.launches.filter (fun l => l.tenant == t && l.phase != .retired)).map Launch.uid
      let s1 := (live.foldl State.dropKeyWait (s.setTenant (s.tenant t).flr)).resetSlots t
      s1.setTasks { s1.tasks with
        launches := (s1.tasks.launches.filter (fun l => !(l.tenant == t && l.phase == .retired))).map (fun l =>
          if l.tenant = t then l.flr else l) })

end Sys2Proof.Machine
end

