-- ==== Sys2Proof/Machine/HostAccess.lean ====
section
/-! DEFINITION. The host's accesses to memory (spec/05 R74), memory errors (R80), and the calls that Bishop serves (spec/21 R349). -/
namespace Sys2Proof.Machine

/-- A frame is some tenant's class-0 or class-1 service frame, which the host may only read (R74, R344). -/
def State.serviceOnly (s : State) (mfn : Nat) : Bool :=
  s.tasks.tenants.any (fun t => mfn == t.cwbase / 2 ^ 16 + 1 || mfn == t.cwbase / 2 ^ 16 + 2)

/-- The host's answer noted; a refused request is counted (R74). -/
def State.hostAnswer (s : State) (r : HostResp) : State :=
  s.setDev { s.dev with
    hostResp := r, refusedReqs := if r = .poison ∨ r = .dropped then s.dev.refusedReqs + 1 else s.dev.refusedReqs }

/-- CXL_MEM_READ (R74): 64 bytes as they stand, ciphertext in a PROT frame; poisoned when it is refused. -/
def execCxlMemRead (ma : Nat) (s : State) : Res1 :=
  .next (if s.hostMay (mfnOf ma) then (s.l2Access ma 0 false none).hostAnswer (.data (s.readMem ma 64)) else s.hostAnswer .poison)

/-- The class-2 batches whose reply word lies in bytes that the host has stored and is not zero now are answered (R346). -/
def State.hostReplies (s : State) (ma n : Nat) : State :=
  let word := fun (b : Batch) => slotAddr (s.tenant b.tenant) 2 b.slot + 0x640
  (s.tasks.batches.filter (fun b => b.cls == 2 && decide (ma ≤ word b ∧ word b + 8 ≤ ma + n) && s.readWord (word b) != 0)).foldl
    (fun u b => u.answer b.tenant 2 b.slot) s

/-- CXL_MEM_WRITE (R74): a strong write of the host (R303); the class-0 and class-1 service frames refuse it, and the device's own records take
nothing from it (R3). -/
def execCxlMemWrite (ma : Nat) (data : List Byte) (s : State) : Res1 :=
  .next (if s.hostMay (mfnOf ma) ∧ !s.serviceOnly (mfnOf ma) then
      let s1 := ((s.l2Access ma 0 true none).homeWrite none ma (s.keepRecords ma data)).setTags ma data.length (some ⟨.host, some 5⟩)
      ((s1.clearWatch ma data.length).hostReplies ma data.length).hostAnswer .written
    else s.hostAnswer .dropped)

/-- A host event whose DETAIL the spec does not give (log 2). -/
def State.hostEventFree (s : State) (t kind : Nat) : State := (s.hostEvent t kind (s.free kind)).tickFresh

/-- MEMORY_ERROR (R80): a KIND 1 or KIND 2 event for the owner of the frame; a frame of tenant 0 has no event ring. -/
def execMemoryError (ma : Nat) (corrected : Bool) (s : State) : Res1 :=
  .next (
    let t := (s.frame (mfnOf ma)).owner
    if t ≠ 0 ∧ s.bound t then s.hostEventFree t (if corrected then 1 else 2) else s)

/-! ### Handover (R114) -/

/-- HOST of a frame set or cleared; the integrity frame of a PROT frame follows (R374). -/
def State.shareFrame (s : State) (mfn : Nat) (b : Bool) : State :=
  let f := s.frame mfn
  let s1 := s.setFrame mfn { f with host := b }
  if f.prot then s1.settleRun (f.tagRun / 2 ^ 16) else s1

/-- The frames of a ring of a tenant: 64 bytes a record (R75). -/
def ringFrames (base size : Nat) : List Nat :=
  let a := base % 2 ^ 40
  if size < 6 ∨ 16 < size then [] else (List.range (mfnOf (a + 64 * 2 ^ size - 1) + 1 - mfnOf a)).map (fun i => mfnOf a + i)

/-- The frames for which Bishop sets HOST unasked: a tenant's command window, its service area and its two rings (R114, R344). -/
def Tenant.hostShares (t : Tenant) (mfn : Nat) : Bool :=
  decide (t.cwbase / 2 ^ 16 ≤ mfn ∧ mfn ≤ t.cwbase / 2 ^ 16 + 3) || (ringFrames t.crbase t.crsize).contains mfn ||
  (ringFrames t.evbase t.evsize).contains mfn

/-- HOST set for the rings of a tenant as they stand now, in the frames that are its own (R114). -/
def State.shareRings (s : State) (t : Nat) : State :=
  let k := s.tenant t
  (ringFrames k.crbase k.crsize ++ ringFrames k.evbase k.evsize).foldl
    (fun u m => if (u.frame m).owner = t ∧ !(u.frame m).host then u.shareFrame m true else u) s

/-- A frame flipped between a tenant and the host with its contents kept (R114): L1 sectors keep their old tag; the L2 lines of its
generation go on, and older ones stay stale. The write stamp stays, and a frame handed back has HOST clear (log 41). -/
def State.flip (s : State) (t tfn mfn : Nat) (toHost : Bool) : State :=
  let f := s.frame mfn
  let g := (f.gen + 1) % 256
  let s1 := (s.setFrame mfn { f with owner := if toHost then 0 else t, host := toHost, gen := g, incs := f.incs + 1 }).l2Frame mfn
    (fun l => if l.gen = f.gen then { l with gen := g, tenant := if toHost then 0 else t } else l)
  s1.dropFrameTlb t tfn

/-- FRAME_HANDOVER (R114): never of a PROT frame (R373) or of one whose generation may not move before a scrub (R112). -/
def execFrameHandover (t tfn : Nat) (toHost : Bool) (s : State) : Res1 :=
  .next (match (s.tenant t).place? .frame tfn with
    | none => s
    | some e =>
      let f := s.frame e.phys
      if 2 ^ 24 ≤ e.phys ∨ f.prot ∨ 255 ≤ f.incs then s
      else if toHost then (if f.owner = t then s.flip t tfn e.phys true else s)
      else if f.owner = 0 ∧ f.host then s.flip t tfn e.phys false
      else s)

/-! ### Class-1 calls (R349) -/

/-- Table 15-1. -/
def callot (t : Tenant) (die : Nat) : Word :=
  BitVec.ofNat 64 (fieldAt 48 (cellGet 0 t.netbw die) + fieldAt 40 (cellGet 0 t.slbw die) + cellGet 65535 t.waymask die)

/-- A word of a tenant's cache page of a die (R248). -/
def State.cachePage (s : State) (t die w : Nat) : Word :=
  if w = 0 then callot (s.tenant t) die
  else if w = 1 then BitVec.ofNat 64 (s.dieOccupancy t die)
  else if w < 386 then BitVec.ofNat 64 (s.occupancy t die (w - 2))
  else if w = 386 then (s.netwt die).setWidth 64
  else 0

/-- What the host reads at BAR 0 offset 0x1000 × (d + 1) of a tenant's function: the cache page of the die at a die place (R248). Reading a
page changes nothing. -/
def State.readCachePage (s : State) (t place w : Nat) : Option Word :=
  ((s.tenant t).diePlaces.find? (fun p => p.1 == place)).map (fun p => s.cachePage t p.2 w)

/-- A frame of a tenant that its calls may name: its own, on this device. -/
def State.callFrame (s : State) (t tfn : Nat) : Option Nat :=
  ((s.tenant t).place? .frame tfn).bind (fun e => if e.phys < 2 ^ 24 ∧ (s.frame e.phys).owner = t then some e.phys else none)

/-- One class-1 call (Table 21-5): the state, the status and the value. -/
def State.class1 (s : State) (t code a b : Nat) : State × Nat × Word :=
  if code = 1 then (s, 0, BitVec.ofNat 64 (s.tenant t).svcTfn)
  else if code = 0x10 then match s.callFrame t a with
    | some m => (s.shareFrame m true, 0, 0)
    | none => (s, 2, 0)
  else if code = 0x11 then match s.callFrame t a with
    | some m => if (s.frame m).host ∧ !(s.tenant t).infra a then (s.shareFrame m false, 0, 0) else (s, 2, 0)
    | none => (s, 2, 0)
  else if code = 0x20 then match (s.tenant t).diePlaces.find? (fun p => p.1 == a) with
    | some p => (s, 0, s.cachePage t p.2 b)
    | none => (s, 2, 0)
  else (s, 1, 0)

/-- The entries of a batch served in order, each reply stored in its place (Table 21-3): the status, then the value
(R349; for code 0x20 R248 has the word in reply word 0, log 43). -/
def serveEntries (t code ma : Nat) : Nat → Nat → State → State
  | 0, _, s => s
  | n + 1, j, s =>
    let r := s.class1 t code (s.readWord (ma + 0x40 + 32 * j)).toNat (s.readWord (ma + 0x48 + 32 * j)).toNat
    let s1 := r.1.deviceStore (ma + 0x440 + 16 * j) (wordBytes [BitVec.ofNat 64 r.2.1, r.2.2])
    serveEntries t code ma n (j + 1) s1

/-- CLASS1_SERVICE (R349): Bishop serves a class-1 batch and then stores its reply word, which SERVICE_BATCH_COMPLETE sees. -/
def execClass1Service (t slot : Nat) (s : State) : Res1 :=
  .next (match s.batch? t 1 slot with
    | none => s
    | some b =>
      let ma := slotAddr (s.tenant t) 1 slot
      if s.readWord (ma + 0x640) ≠ 0 then s
      else
        let code := bits (s.readWord (ma + 24)).toNat 15 0
        ((serveEntries t code ma b.lanes.length 0 s).deviceStore (ma + 0x640) (bytesOf 8 1) (deviceRelease 3)).answer t 1 slot)

/-! ### The scrubber (R112) -/

/-- An L1 line whose tag is its frame's current generation. -/
def State.l1Fresh (s : State) (x : L1Line) : Bool := x.gen == (s.frame (x.line / 512)).gen

/-- An L2 line whose tag is its frame's current generation. -/
def State.l2Fresh (s : State) (l : L2Line) : Bool := l.gen == (s.frame (l.line / 512)).gen

/-- The core resource of a unit number lies on a die. -/
def unitOnDie (die u : Nat) : Bool :=
  if u < 2 ^ 16 then u / 32 / 192 == die else if u < 2 ^ 24 then (u - 2 ^ 16) / 1024 / 192 == die else (u - 2 ^ 24) / 192 == die

/-- SCRUBBER_PASS (R112): the stale entries of the die's frames and of its caches are zeroed, which leaves them empty; its frames and core
resources may take 255 more increments. -/
def execScrubberPass (die : Nat) (s : State) : Res1 :=
  .next (
    let here := fun (line : Nat) => decide (line / 2 ^ 30 % 8 = die)
    let s1 := s.setMem { s.mem with
      frames := (s.mem.frames.map (fun p => if p.1 / 2 ^ 21 = die then (p.1, { p.2 with incs := 0 }) else p)).filter
        (fun p => p.2 != Frame.free),
      l1 := s.mem.l1.filter (fun x => s.l1Fresh x || !(here x.line || x.core / 192 == die)),
      l2 := s.mem.l2.filter (fun p => !p.2.any (fun l => here l.line && !s.l2Fresh l)) }
    { s1 with cores := { s1.cores with
      gens := (s1.cores.gens.map (fun p => if unitOnDie die p.1 then (p.1, { p.2 with incs := 0 }) else p)).filter
        (fun p => p.2 != ⟨0, 0⟩) } })

end Sys2Proof.Machine
end

