-- ==== Sys2Proof/Machine/Stops.lean ====
section
/-! DEFINITION. Stop requests and what a stop leaves of a wave (spec/23 R354 to R358; spec/05 R72, R87; spec/21 R351). -/
namespace Sys2Proof.Machine

/-- A launch takes no stop once it has ended (R388), and none before it runs. -/
def Launch.stoppable (l : Launch) : Bool := l.phase == .running && l.endInfo.isNone

/-- A wave sleeps: a SLEEP holds it, or held it until its time was over. A handler suspends the hold and does not end it (R338). -/
def Wave.sleeps (w : Wave) : Bool := w.held == some .sleep || w.sleepSince.isSome

/-- A sleep ended by a stop: the lanes at the SLEEP go on past it (R151), under a handler too. -/
def Wave.endSleep (w : Wave) : Wave :=
  let w1 := { w with sleepSince := none, held := none, heldAt := none }
  match w.heldAt with
  | some a => w1.mapLanes (fun i => (w.activeAt a).contains i) (fun l => { l with pc := l.pc + 8 })
  | none => w1

/-- A wave stopped at its boundary by force (R358): a word that holds it stays to be issued afresh; a sleep ends (R151); it waits
for storage no more (R161); its entries of the operand latch are discarded (R158). -/
def State.haltWave (s : State) (w : Wave) : State :=
  if w.stopped.isSome || !w.resident then s
  else
    let w1 := if w.sleeps then w.endSleep else { w with held := none, heldAt := none }
    ((s.dropWait w).dropLatch w.core w.slot (fun _ => true)).setWave { w1 with
      hnd := w1.hnd.map (fun h => { h with held := none }), pinned := [], stopped := some none, stopAsked := false, pend := [] }

/-- The resident waves of a launch on the core of a place. -/
def State.wavesOf (s : State) (uid place : Nat) : List Wave :=
  s.cores.waves.filter (fun w => w.launch == uid && w.corepl == place && w.resident)

/-- Every wave of a launch on some places stopped by force. -/
def State.haltPlaces (s : State) (uid : Nat) (places : List Nat) : State :=
  (s.cores.waves.filter (fun w => w.launch == uid && places.contains w.corepl)).foldl State.haltWave s

/-- Every wave that a forced request names stopped (R358): as the cycle of the request ends, so that a last EXIT in that cycle wins (R389). -/
def State.haltDue (s : State) : State :=
  (s.tasks.stops.filter StopReq.forced).foldl (fun t r => t.haltPlaces r.launch r.places) s

/-- The core places on which a launch is resident. -/
def State.residentPlaces (s : State) (uid : Nat) : List Nat := ((s.cores.ctxs.filter (fun c => c.launch == uid)).map Ctx.place).dedup

/-- Pending requests replaced. -/
def State.setStops (s : State) (l : List StopReq) : State := s.setTasks { s.tasks with stops := l }

/-- The launch's last EXIT came in this cycle (R389). -/
def Launch.justEnded (l : Launch) (now : Nat) : Bool := l.phase == .ending && l.endInfo == some ⟨0, 0, 0⟩ && l.endCycle == some now

/-- A stop request (R354): a forced one overrides; a cooperative one is added for the places that no pending request names, and is forced at
once where GRACE is 0. One in the cycle of the launch's last EXIT is satisfied by that (R389). -/
def State.stop (s : State) (uid : Nat) (places : List Nat) (forced : Bool) : State :=
  let l := s.launch uid
  let here := places.filter (fun p => (s.residentPlaces uid).contains p)
  if here = [] then s
  else if !l.stoppable then (if l.justEnded s.ctl.cycle then s.setLaunch { l with preemptSat := true } else s)
  else if forced ∨ l.grace = 0 then
    let left := (s.tasks.stops.map (fun r =>
      if r.launch = uid then { r with places := r.places.filter (fun p => !here.contains p) } else r)).filter (fun r => r.places != [])
    s.setStops (left ++ [⟨uid, here, true, s.ctl.cycle⟩])
  else
    let named := (s.tasks.stops.filter (fun r => r.launch == uid)).flatMap StopReq.places
    let new := here.filter (fun p => !named.contains p)
    if new = [] then s
    else (s.setStops (s.tasks.stops ++ [⟨uid, new, false, s.ctl.cycle⟩])).setWaves
      (updWhere (fun w => w.launch == uid && new.contains w.corepl && w.resident && w.stopped.isNone) (fun w => { w with stopAsked := true }) s.cores.waves)

/-- STOP_REQUEST (R354): Bishop's. -/
def execStopRequest (uid : Nat) (places : List Nat) (forced : Bool) (s : State) : Res1 := .next (s.stop uid places forced)

/-- GRACE_EXPIRY (R354, R72): 1,024 × GRACE cycles after a cooperative request its remaining waves stop by force. -/
def execGraceExpiry (uid : Nat) (s : State) : Res1 :=
  .next (
    let late := fun (r : StopReq) => r.launch == uid && !r.forced && decide (r.madeAt + 1024 * (s.launch uid).grace ≤ s.ctl.cycle)
    s.setStops (updWhere late (fun r => { r with forced := true }) s.tasks.stops))

/-- The launches resident on a core that a predicate picks are stopped there by force. -/
def State.stopOnCore (s : State) (core : Nat) (p : Launch → Bool) : State :=
  (s.cores.ctxs.filter (fun c => c.core == core && p (s.launch c.launch))).foldl (fun t c => t.stop c.launch [c.place] true) s

/-- LEASE_CHANGE (R87): the lease of a core ends, or passes to a tenant; the other tenants' waves there stop by force. The end and
the start each write a KIND 5 event for their tenant. Bishop's own core is never leased (R10). -/
def execLeaseChange (core t : Nat) (s : State) : Res1 :=
  .next (
    let old := if s.cores.leased.contains core then cellGet 0 s.cores.leases core else 0
    if !s.coreForTenants core ∨ (old = t ∧ s.cores.leased.contains core) then s
    else
      let s1 : State := { s with cores := { s.cores with
        leases := cellSet 0 s.cores.leases core t,
        leased := if s.cores.leased.contains core then s.cores.leased else s.cores.leased ++ [core] } }
      let s2 := s1.stopOnCore core (fun l => l.tenant != t)
      let s3 := if old ≠ 0 ∧ s2.bound old then s2.hostEventFree old 5 else s2
      if t ≠ 0 ∧ s3.bound t then s3.hostEventFree t 5 else s3)

/-! ### Parking on service waits (R351) -/

/-- A wave in service-wait: no lane in the ready state, one held at an RCV included (R131), and a service-waiting one. -/
def Wave.inService (w : Wave) : Bool := !w.lanes.any (fun l => l.st == .ready) && w.lanes.any (fun l => l.st == .service)

/-- The waves of a launch not ended, resident or saved. -/
def State.liveWaves (s : State) (uid : Nat) : List Wave :=
  s.cores.waves.filter (fun w => w.launch == uid && w.resident) ++ (s.launch uid).images.flatMap Image.waves

/-- SVCTH of a launch, or its tenant's. -/
def State.shareLimit (s : State) (l : Launch) : Nat := if l.svcth = 0 then (s.tenant l.tenant).svcth else l.svcth

/-- SVCHOLD of a launch, or its tenant's. -/
def State.shareHold (s : State) (l : Launch) : Nat := if l.svchold = 0 then (s.tenant l.tenant).svchold else l.svchold

/-- A reply of the wave is written and not yet applied: it wakes the wave (R346, R351). -/
def State.answered (s : State) (w : Wave) : Bool :=
  s.tasks.batches.any (fun b => !b.upcall && b.launch == w.launch && b.wid == w.wid && b.answered.isSome)

/-- w × 64 > S × v, woken waves counted as not waiting. -/
def State.shareAbove (s : State) (l : Launch) : Bool :=
  let ws := s.liveWaves l.uid
  decide (s.shareLimit l * ws.length < (ws.filter (fun w => w.inService && !s.answered w)).length * 64)

/-- Since when, in tenant time, the share of each running launch has been above its limit. -/
def State.noteShares (s : State) : State :=
  let now := fun (l : Launch) => if l.stoppable && s.shareLimit l != 0 && s.shareAbove l then l.shareSince.or (some (s.time l.tenant)) else none
  if s.tasks.launches.any (fun l => l.shareSince != now l) then
    s.setTasks { s.tasks with launches := s.tasks.launches.map (fun l => { l with shareSince := now l }) }
  else s

/-- SVC_PARK_TIMEOUT (R351). -/
def execSvcParkTimeout (uid : Nat) (s : State) : Res1 :=
  .next (
    let l := s.launch uid
    if l.rtwave ∨ s.shareLimit l = 0 ∨ !s.shareAbove l ∨ !l.shareSince.any (fun t => decide (1000 * s.shareHold l ≤ s.elapsed l.tenant t)) then s
    else (s.setLaunch { l with parkedOff := true }).stop uid (s.residentPlaces uid) true)

end Sys2Proof.Machine
end

