-- ==== Sys2Proof/Machine/Revocation.lean ====
section
/-! DEFINITION. Revocation requests and the abort engine (spec/07 R124 to R129; spec/25 R382). -/
namespace Sys2Proof.Machine

/-- The revocation record but for PHASE (Table 7-6). -/
def revRecord (seq reqid kind count deadline : Nat) (target : Option Nat) : Nat :=
  fieldAt 0 seq + fieldAt 64 reqid + fieldAt 80 kind + fieldAt 96 count + fieldAt 128 deadline + fieldAt 192 (target.getD 0) +
    fieldAt 224 target.isSome.toNat

/-- What Bishop may ask (R124, R125, R127, R382): a deadline far enough off, an id not pending, a place to name that is held and no
infrastructure frame; of kind 3 the whole grant; of kind 7 a quota within what the other tenants leave (R104). -/
def State.mayPost (s : State) (t : Nat) (k : PlaceKind) (count : Nat) (target : Option Nat) (deadline reqid : Nat) : Bool :=
  let ten := s.tenant t
  s.bound t && decide (ten.requests.length < 64) && !ten.requests.any (fun r => r.reqid == reqid) &&
  decide (s.time t + 1000 * ten.revmin ≤ deadline) && (k == .quota || decide (0 < count)) &&
  target.all (fun p => ten.holds k p && decide (p < 2 ^ 32) && !(k == .frame && ten.infra p)) &&
  (match k with
    | .tset => target.any (fun p => (ten.grant (p / 2 ^ 30)).2 == count)
    | .quota => target.isNone && decide (count ≤ s.quotaLeft t)
    | _ => true)

/-- A place marked REVOKING (R125): TBLD and BNDQ see it. -/
def State.markRevoking (s : State) (t : Nat) (k : PlaceKind) (p : Nat) : State :=
  let ten := s.tenant t
  let s1 := s.setTenant { ten with
    places := updWhere (fun e => e.kind == k && e.place == p) (fun e => { e with revoking := true }) ten.places }
  match k, ten.place? k p with
  | .frame, some e => if e.phys < 2 ^ 24 then s1.setFrame e.phys { s1.frame e.phys with revoking := true } else s1
  | _, _ => s1

/-- REVOCATION_POST (R124, R125): the record at index item 7 mod 64, its last word last; the target is marked; the post is an upcall. -/
def execRevocationPost (t : Nat) (k : PlaceKind) (count : Nat) (target : Option Nat) (deadline reqid : Nat) (s : State) : Res1 :=
  .next (
    let ten := s.tenant t
    if !s.mayPost t k count target deadline reqid then s
    else
      let words := recordWords (revRecord s.ctl.seq reqid k.code count deadline target)
      let phase := (ten.revCount / 64 + 1) % 2
      let s1 := match s.tfnAddr t ten.revTfn with
        | some ma =>
          let a := ma + 64 * (ten.revCount % 64)
          (s.deviceStore a (wordBytes (words.take 7))).deviceStore (a + 56) (bytesOf 8 phase)
        | none => s
      let s2 := s1.setTenant { s1.tenant t with
        revCount := (ten.revCount + 1) % 2 ^ 64, requests := ten.requests ++ [⟨reqid, k, count, target, deadline, [], s.time t⟩] }
      let s3 := match target with
        | some p => s2.markRevoking t k p
        | none => if k == PlaceKind.quota then s2.setReuse s2.tasks.reuse else s2
      ((s3.takeSeq).upcall t 0xFF02 0 0).wakeRuntime t)

/-! ### The abort engine -/

/-- The launches that use a place and must be stopped first (R127, Table 7-7): each with its core places there. -/
def State.usersOf (s : State) (t : Nat) (k : PlaceKind) (p : Nat) : List (Nat × Nat) :=
  let ten := s.tenant t
  (s.cores.ctxs.filter (fun c =>
    let l := s.launch c.launch
    l.tenant == t && (match k with
      | .core => c.place == p
      | .bank => c.place == p / 32 && l.bankCode (p % 32) != 0
      | .queue => (ten.place? .queue p).isSome && c.needsQueue p
      | .chan => l.chans.any (fun ch => l.chbase + ch.id == p)
      | .frame | .tset | .lane | .quota => false))).map (fun c => (c.launch, c.place))

/-- The places to seize (R127, R382): TARGET first where it is not yielded, then the highest-numbered held; infrastructure frames
are passed over. A kind-3 request takes its own grant's sets. -/
def State.toSeize (s : State) (t : Nat) (r : RevReq) : List Nat :=
  let ten := s.tenant t
  let held := (ten.placesOf r.kind).filter (fun p => !(r.kind == .frame && ten.infra p) &&
    !(r.kind == .tset && r.target.any (fun x => x / 2 ^ 30 != p / 2 ^ 30)))
  let first := r.target.toList.filter (fun p => !r.yielded.contains p && held.contains p)
  (first ++ (sortBy (fun a b => decide (b ≤ a)) held).filter (fun p => !first.contains p)).take (r.count - r.yielded.length)

/-- Bytes stored into the repossession area, 128 at a time (R128): each piece lies in one frame. -/
def repoWrite (t : Nat) : Nat → Nat → List Byte → State → State
  | 0, _, _, s => s
  | n + 1, off, l, s =>
    let ten := s.tenant t
    let s1 := match s.tfnAddr t (ten.repoTfn + off / 2 ^ 16) with
      | some ma => s.deviceStore (ma + off % 2 ^ 16) (l.take 128)
      | none => s
    repoWrite t n (off + 128) (l.drop 128) s1

/-- Contents saved at the write offset, which advances; nothing where they would pass the area's end (R128). -/
def State.repossess (s : State) (t : Nat) (l : List Byte) : Option State :=
  let ten := s.tenant t
  if ten.repoFrames * 2 ^ 16 < ten.repOff + l.length then none
  else
    let s1 := repoWrite t (l.length / 128) ten.repOff l s
    some (s1.setTenant { s1.tenant t with repOff := ten.repOff + l.length })

/-- The loss-log entry but for PHASE (Table 7-8). -/
def lossEntry (seq kind place len off : Nat) (nosave : Bool) : Nat :=
  fieldAt 0 seq + fieldAt 64 kind + fieldAt 72 nosave.toNat + fieldAt 96 place + fieldAt 128 off + fieldAt 192 len

/-- A seizure noted (R129): LOSS, and an entry while fewer than 256 are unacknowledged, its last word last. -/
def State.noteLoss (s : State) (t : Nat) (k : PlaceKind) (place len off : Nat) (nosave : Bool) : State :=
  let ten := s.tenant t
  let t1 := { ten with loss := ten.loss ||| (1#8 <<< k.code) }
  if 256 ≤ ten.losses.length then s.setTenant { t1 with lossDropped := ten.lossDropped + 1 }
  else
    let v := lossEntry s.ctl.seq k.code place len off nosave + fieldAt 255 ((ten.lossCount / 256 + 1) % 2)
    let s1 := match s.tfnAddr t ten.lossTfn with
      | some ma =>
        let a := ma + 32 * (ten.lossCount % 256)
        (s.deviceStore a (bytesOf 24 v)).deviceStore (a + 24) (bytesOf 8 (v / 2 ^ 192))
      | none => s
    (s1.setTenant { t1 with lossCount := (ten.lossCount + 1) % 2 ^ 64, losses := ten.losses ++ [⟨s.ctl.seq, k.code⟩] }).takeSeq

/-- The contents of a translation set (Table 7-7): per way, the TBRD value, then the VA. -/
def setContents (ten : Tenant) (p : Nat) : List Byte :=
  let arr := p / 2 ^ 30
  let set := (ten.grant arr).1 + p % 2 ^ 30
  wordBytes ((List.range 8).flatMap (fun w => match ten.tlb.find? (fun e => e.arr == arr && e.set == set && e.way == w) with
    | some e => [tbrdVal e (e.page * pageSize arr), BitVec.ofNat 64 (e.page * pageSize arr)]
    | none => [0, 0]))

/-- What a seizure saves: none where the row of Table 7-7 names nothing; `some none` where it may not be saved (R127, PROT). -/
def State.contentsOf (s : State) (t : Nat) (k : PlaceKind) (p : Nat) : Option (Option (List Byte)) :=
  let ten := s.tenant t
  match k, ten.place? k p with
  | .frame, some e =>
    if 2 ^ 24 ≤ e.phys ∨ (s.frame e.phys).prot then some none else some (some (s.readMem (e.phys * 2 ^ 16) (2 ^ 16)))
  | .tset, _ => some (some (setContents ten p))
  | _, _ => none

/-- The tenant's least recently used entries invalidated down to a number (R104); the table lists the most recent first. -/
def State.shrinkReuse (s : State) (t n : Nat) : State :=
  let keep := (s.tasks.reuse.filter (fun e => e.tenant == t)).take n
  s.setReuse (s.tasks.reuse.filter (fun e => e.tenant != t || keep.contains e))

/-- One place seized (R127 to R129). -/
def State.seize (s : State) (t : Nat) (k : PlaceKind) (p : Nat) : State :=
  let off := (s.tenant t).repOff
  let drop := fun (u : State) => match k with
    | .frame => (u.dropFrameTlb t p).releasePlace t k p
    | _ => u.releasePlace t k p
  match s.contentsOf t k p with
  | none => (drop s).noteLoss t k p 0 0 false
  | some none => (drop s).noteLoss t k p 0 0 true
  | some (some l) => match s.repossess t l with
    | some s1 => (drop s1).noteLoss t k p l.length off false
    | none => (drop s).noteLoss t k p 0 0 true

/-- Launches stopped for what is seized from under them wait for it: they resume only when it is held again (R127). -/
def State.awaitUnit (s : State) (uid : Nat) (k : PlaceKind) (p : Nat) : State :=
  let l := s.launch uid
  if l.awaits.contains (k, p) then s else s.setLaunch { l with awaits := l.awaits ++ [(k, p)] }

/-- ABORT_ENGINE_SEIZE (R127): at the deadline of an unsatisfied request. Launches that use a place to be seized are stopped by
force first, and the engine acts once they are saved. A suspended tenant's deadlines do not run (R125). -/
def execAbortEngineSeize (t reqid : Nat) (s : State) : Res1 :=
  .next (
    let ten := s.tenant t
    match ten.requests.find? (fun r => r.reqid == reqid) with
    | none => s
    | some r =>
      if ten.suspended ∨ s.time t < r.deadline then s
      else if r.kind = .quota then
        let n := s.reuseCount t - r.count
        if r.yielded ≠ [] ∨ n = 0 then s.retireRequest t r else ((s.shrinkReuse t r.count).noteLoss t .quota 0 n 0 false).retireRequest t r
      else
        let ps := s.toSeize t r
        let users := ps.flatMap (fun p => (s.usersOf t r.kind p).map (fun x => (x, p)))
        if users ≠ [] then users.foldl (fun u x => (u.stop x.1.1 [x.1.2] true).awaitUnit x.1.1 r.kind x.2) s
        else (ps.foldl (fun u p => u.seize t r.kind p) s).retireRequest t r)

end Sys2Proof.Machine
end

