-- ==== Sys2Proof/Machine/Castle.lean ====
section
/-! DEFINITION. Castle's save and restore (spec/23 R355, R357 to R363; spec/09 R168, R172; spec/17 R284). The image that a restore
brings back is kept as data; what the save area's bytes show of it is written beside it. -/
namespace Sys2Proof.Machine

/-! ### Liveness records (R357, R54) -/

/-- What a well-formed record keeps: vector registers, scalar registers, lane predicates, scalar predicates, scratchpad ranges. -/
structure Live where
  v : Nat
  s : Nat
  p : Nat
  q : Nat
  ranges : List (Nat × Nat)

/-- A record's twelve words, or none where it is malformed (R357, Table 3-5). -/
def liveOf (l : List Word) : Option Live :=
  let w := fun (i : Nat) => (l.getD i 0).toNat
  let n := bits (w 3) 27 24
  let r := fun (i : Nat) => w (4 + i)
  let range := fun (i : Nat) => (bits (r i) 19 0, 128 * bits (r i) 33 20)
  if l.length ≠ 12 ∨ bits (w 3) 63 28 ≠ 0 ∨ bits (w 3) 7 0 ≠ 0 ∨ 8 < n then none
  else if !((List.range 8).all (fun i => if i < n then
      bits (r i) 63 34 == 0 && decide ((range i).1 % 128 = 0 ∧ 0 < (range i).2 ∧ (range i).2 ≤ 2 ^ 20 ∧ (range i).1 + (range i).2 ≤ 2 ^ 20)
    else r i == 0)) then none
  else some ⟨w 0 + 2 ^ 64 * w 1, w 2, bits (w 3) 15 8, bits (w 3) 23 16, (List.range n).map range⟩

/-- The record of a wave's cooperative stop; none for a forced stop or a malformed record (R357). -/
def State.liveRecord (s : State) (w : Wave) : Option Live :=
  let l := s.launch w.launch
  match w.stopped with
  | some (some imm) =>
    match s.sectionOf l.tenant l.slotHeld l.codeobj 5 with
    | some (a, _) => match s.tenantWords l.tenant l.slotHeld (a + 8 * imm) 12 with
      | some x => liveOf x
      | none => none
    | none => none
  | _ => none

/-! ### What a save keeps -/

/-- Every droppable extended granule dropped (R168, R358). -/
def Wave.dropAll (w : Wave) : Wave :=
  let ks := (List.range w.ext).filter w.droppable
  let gone := ks.flatMap w.granRegs
  { w with dropped := w.dropped ++ ks, vregs := w.vregs.filter (fun c => !gone.contains (c.1 / 32)) }

/-- The registers and predicates that a record does not mark read as zero after restore (R359). -/
def Wave.onlyLive (w : Wave) (l : Live) : Wave :=
  { w with
    vregs := w.vregs.filter (fun c => l.v.testBit (c.1 / 32)), sregs := w.sregs.filter (fun c => l.s.testBit c.1),
    preds := w.preds.filter (fun c => l.p.testBit c.1), qpreds := w.qpreds.filter (fun c => l.q.testBit c.1) }

/-- A wave as its record keeps it (R359, R362): its refusals parked, its droppable granules dropped, its counter 0 brought up to
now, and what it has not passed of a stall not counted (R154). -/
def State.savedWave (s : State) (w : Wave) : Wave :=
  let w1 := ((s.unstall w).takeRefusals (fun _ => true)).dropAll
  let w2 := { w1 with
    held := none, heldAt := none, pinned := [], pend := [], paths := [], markers := [], stopAsked := false, sleepSince := none,
    perf := cellSet 0 w1.perf 0 (cellGet 0 w1.perf 0 + BitVec.ofNat 64 (s.ctl.cycle - w1.bornAt)), bornAt := s.ctl.cycle }
  match s.liveRecord w with
  | some l => w2.onlyLive l
  | none => w2

/-- The scratchpad lines that a save keeps (R359): the union of the records' ranges where every wave stopped cooperatively. -/
def State.savedLines (s : State) (uid place : Nat) (line : Nat) : Bool :=
  (s.launch uid).bankCode (line / 256) == 2 &&
  (let ws := s.wavesOf uid place
  if ws.all (fun w => (s.liveRecord w).isSome) then
    ws.any (fun w => (s.liveRecord w).any (fun l => l.ranges.any (fun r => decide (r.1 ≤ 128 * line ∧ 128 * line + 128 ≤ r.1 + r.2))))
  else true)

/-- What the launch holds on the core as its image keeps it (R359, R273, R284): every line present, no wait for storage. -/
def State.savedCtx (s : State) (uid place : Nat) (c : Ctx) : Ctx :=
  { c with pad := c.pad.filter (fun b => s.savedLines uid place (b.1 / 128)), absent := [], waits := [] }

/-! ### The save area's bytes (Tables 23-2 to 23-4) -/

/-- A number as bytes. -/
def le (n v : Nat) : List Byte := bytesOf n v

/-- A list of bytes filled with zeros, or cut, to a length. -/
def padTo (n : Nat) (l : List Byte) : List Byte := l.take n ++ List.replicate (n - l.length) 0

/-- Table 23-3. -/
def saveHeader (w : Wave) (coop : Bool) : Nat :=
  fieldAt 0 w.wid + fieldAt 18 w.role + fieldAt 20 w.mode + fieldAt 22 ((w.hnd.map Handler.mode).getD 0) + fieldAt 24 w.ext +
    fieldAt 28 coop.toNat + fieldAt 29 w.hnd.isSome.toNat + fieldAt 30 w.wake.toNat + fieldAt 31 w.barHold.isSome.toNat +
    fieldAt 32 (w.barHold.getD 0)

/-- The code of a lane's state. -/
def LaneSt.code : LaneSt → Nat
  | .ready => 0 | .parked _ _ => 1 | .service => 2 | .exited => 3

/-- The saved vector registers of a wave as kept. -/
def Wave.savedRegs (w : Wave) (l : Option Live) : List Nat :=
  (List.range (min w.vcount 128)).filter (fun r => !w.isDropped r && l.all (fun l => l.v.testBit r))

/-- Table 23-2. -/
def waveBytes (w : Wave) (l : Option Live) : List Byte :=
  let lanes := List.range 32
  let regs := w.savedRegs l
  let q := digits 1 ((List.range 8).map (fun n => (decide (n ≠ 0) && w.qpred n).toNat))
  let states := digits 2 (lanes.map (fun i => (w.lane i).st.code))
  let head := le 8 (saveHeader w l.isSome) ++ le 8 ((w.hnd.map (fun h => h.pc.toNat)).getD 0) ++ le 8 w.rngctr.toNat ++ le 8 w.hangcnt ++
    le 8 (w.fstat.toNat + 256 * w.mstat.toNat) ++ le 8 w.trcause.toNat ++ le 8 w.trpc.toNat ++ le 8 w.trmask.toNat ++ le 8 w.traddr.toNat ++
    (List.range 7).flatMap (fun n => le 4 (w.predMask (n + 1)).toNat) ++ le 4 q
  let perf := padTo 0x70 head ++ (List.range 8).flatMap (fun n => le 8 (cellGet 0 w.perf n : Word).toNat)
  let tagByte := fun (n : Nat) => match w.tag? n with
    | some t => 128 + 64 * t.full.toNat + t.id % 64
    | none => 0
  let fixed := padTo 0xB0 perf ++ le 8 states ++ le 8 (maskOf (fun i => (w.lane i).atRcv)).toNat ++
    lanes.flatMap (fun i => le 8 (w.lane i).pc.toNat) ++ lanes.flatMap (fun i => le 8 (w.lane i).link.toNat) ++
    lanes.flatMap (fun i => le 8 (w.parkCause i) ++ le 8 (w.parkAddr i).toNat) ++
    (List.range 64).flatMap (fun n => le 8 (w.sreg n).toNat)
  let groups := padTo 64 (w.groups.flatMap (fun g => le 16 (fieldAt 0 g.gid + fieldAt 8 g.arr.toNat + fieldAt 64 g.tepoch)))
  let tail := fixed ++ groups ++ (List.range 128).flatMap (fun n => le 1 (tagByte n)) ++
    le 8 (digits 1 ((List.range 16).map (fun g => (w.dropped.contains g).toNat)))
  let map := padTo 0x790 tail ++ le 16 (digits 1 ((List.range 128).map (fun n => (regs.contains n).toNat)))
  let top := (regs.map (· + 1)).foldl max 0
  padTo 0x800 map ++ (List.range top).flatMap (fun n =>
    if regs.contains n then lanes.flatMap (fun i => le 8 (w.vreg n i).toNat) else List.replicate 256 0)

/-- The core image's sections (Table 23-4), from what is kept. -/
def coreBytes (l : Launch) (place : Nat) (c : Ctx) (lines : List Nat) (ws : List (List Byte)) : List Byte :=
  let recipe := fun (id : Nat) => match c.recipes.find? (fun p => p.1 == id) with
    | some p => le 1 1 ++ padTo 64 (le 8 p.2.length ++ wordBytes p.2)
    | none => List.replicate 65 0
  let entry := fun (i : Nat) => let e := cellGet (⟨0, none⟩ : HandleEntry) c.handles i
    match e.alloc with
    | some a => padTo 16 (le 2 e.seq ++ le 2 a.rows ++ le 2 a.cols ++ le 1 a.group ++ le 1 a.noband.toNat ++ le 2 a.banks.length)
    | none => padTo 16 (le 2 e.seq)
  let resv := fun (i : Nat) => match c.resv.find? (fun r => r.rid == i) with
    | some r => le 8 r.desc.toNat ++ cellGetMany 0 r.rows 0 (128 * dROWS r.desc)
    | none => le 8 0
  let accs := sortBy (fun (a b : Alloc) => decide (a.order ≤ b.order))
    ((List.range 32).filterMap (fun i => (cellGet (⟨0, none⟩ : HandleEntry) c.handles i).alloc))
  let bank := fun (a : Alloc) => padTo (32768 * a.banks.length) ((List.range (a.rows * a.pitch)).flatMap (fun i =>
    le 4 (cellGet 0 a.elems i : BitVec 32).toNat))
  let bitmap := (List.range 32).flatMap (fun b => le 64 (digits 1 ((List.range 256).map (fun i => (lines.contains (256 * b + i)).toNat))))
  padTo 64 (le 8 place ++ le 8 ws.length ++ le 8 l.part) ++ (List.range 16).flatMap (fun r => le 2 (cellGet 0 c.rings r)) ++
    (List.range 64).flatMap recipe ++ (List.range 32).flatMap entry ++ (List.range 32).flatMap resv ++
    accs.flatMap bank ++ bitmap ++ lines.flatMap (fun i => cellGetMany 0 c.pad (128 * i) 128) ++ ws.flatten

/-- The slot that holds a channel's oldest item: they are filled in turn, from slot 0. -/
def Channel.head (c : Channel) : Nat := c.recvs % c.slots

/-- What a channel's slots hold, in slot order; zeros where one is empty. -/
def Channel.inSlots (c : Channel) : List (List Word) :=
  (List.range c.slots).map (fun i => (c.full[(i + c.slots - c.head) % c.slots]?).getD (List.replicate 32 0))

/-- The launch section (Table 23-4). -/
def launchBytes (l : Launch) : List Byte :=
  (List.range 256).flatMap (fun g => match l.groups.find? (fun x => x.gid == g) with
    | some x => le 16 (fieldAt 0 x.pend + fieldAt 32 x.live + fieldAt 64 x.epoch)
    | none => List.replicate 16 0) ++
  (List.range 64).flatMap (fun i => match l.chans.find? (fun c => c.id == i) with
    | some c => le 8 c.full.length ++ le 8 c.head ++ le 8 c.sends ++ le 8 c.recvs
    | none => List.replicate 32 0) ++
  l.chans.flatMap (fun c => c.inSlots.flatMap wordBytes)

/-- Bytes encrypted sector by sector under a slot (R360). -/
def encryptAt (s : State) (slot : Nat) : Nat → Nat → List Byte → List Byte
  | 0, _, _ => []
  | n + 1, ma, l => s.encrypt slot ma (padTo 32 (l.take 32)) ++ encryptAt s slot n (ma + 32) (l.drop 32)

/-- Bytes stored into a launch's save area: as ciphertext for a protected launch (R360); every frame they reach is stamped (R94). -/
def State.saveStore (s : State) (l : Launch) (ma : Nat) (b : List Byte) : State :=
  let bytes := match l.slotHeld with
    | some k => if l.prot then encryptAt s k ((b.length + 31) / 32) ma b else b
    | none => b
  (List.range ((ma + bytes.length - 1) / 2 ^ 16 + 1 - mfnOf ma)).foldl (fun t i => t.stampFrame (mfnOf ma + i)) (s.writeMem ma bytes)

/-! ### Saving -/

/-- An end of a copy job lies in the scratchpad of a core. -/
def JobEnd.inPad (e : JobEnd) (core : Nat) : Bool := e.pad == some core

/-- A tile operation reads or writes what its launch holds on a core (R284, R288). -/
def TileOp.touches (t : TileOp) (core : Nat) : Bool :=
  t.rids.any (fun r => r.1 == core) || (match t.kind with
    | .obld src _ _ _ _ _ => src == core
    | .drain _ dst sdst _ => dst.inPad core || sdst.inPad core
    | .accz _ _ _ | .mma _ _ => false)

/-- Nothing that the launch's other cores have under way, a tile operation, a copy job or an access, goes to what it holds on this core. -/
def State.untouched (s : State) (uid core : Nat) : Bool :=
  s.cores.ctxs.all (fun c => c.launch != uid || c.core == core ||
    (c.tiles.all (fun t => !t.touches core) && c.cards.all (fun k => !(k.src.inPad core || k.dst.inPad core)))) &&
  s.cores.waves.all (fun w => w.launch != uid || w.ops.all (fun o => o.parts.all (fun p => p.done || (match p.loc with
    | .pad k _ => k != core
    | _ => true))))

/-- The waves of a launch on a place have all stopped, and what they and the launch issued there is over, by waves that have ended too (R358);
so is what its other cores send there (R284). -/
def State.readyToSave (s : State) (uid place core : Nat) : Bool :=
  s.cores.waves.all (fun w => !(w.launch == uid && w.corepl == place) || (w.resident && w.stopped.isSome && w.drained)) &&
  (s.ctx uid core).cards.isEmpty && (s.ctx uid core).tiles.isEmpty && s.untouched uid core &&
  s.tasks.stops.any (fun r => r.launch == uid && r.places.contains place)

/-- Where a place's core image lies in the save area: 4 MiB each, the launch section before them (log 21). -/
def imageAt (l : Launch) (place : Nat) : Nat :=
  l.saveArea + 2 ^ 22 * (1 + ((placesAt l.waves).findIdx (fun p => p == place)))

/-- The core image of a place, and its bytes. -/
def State.imageOf (s : State) (uid place core : Nat) : Image × List Byte :=
  let ws := sortBy (fun a b => decide (a.wid ≤ b.wid)) (s.wavesOf uid place)
  let kept := ws.map (fun w => (s.savedWave w, s.liveRecord w))
  let c := s.savedCtx uid place (s.ctx uid core)
  let lines := (List.range 8192).filter (s.savedLines uid place)
  (⟨place, core, c, kept.map Prod.fst⟩, coreBytes (s.launch uid) place c lines (kept.map (fun p => waveBytes p.1 p.2)))

/-- The place named by no request of the launch any more. -/
def dropStop (uid place : Nat) (l : List StopReq) : List StopReq :=
  (l.map (fun r => if r.launch = uid then { r with places := r.places.filter (fun p => p != place) } else r)).filter
    (fun r => r.places != [])

/-- The core's part of a launch gone into its image: waves, holdings and operand-latch entries; what it held is released by generation
(R111). -/
def State.unload (s : State) (uid place core : Nat) : State :=
  let s0 := s.releaseCtx (s.ctx uid core)
  let s1 := (s.wavesOf uid place).foldl (fun t w => t.dropLatch w.core w.slot (fun _ => true)) s0
  { s1 with cores := { s1.cores with
    waves := s1.cores.waves.filter (fun w => !(w.launch == uid && w.corepl == place)),
    ctxs := s1.cores.ctxs.filter (fun c => !(c.launch == uid && c.core == core)) } }

/-- CASTLE_SAVE (R355, R358 to R361): the core image of one place of a stopped launch; the launch section when no
wave of it is resident any more. -/
def execCastleSave (uid place : Nat) (s : State) : Res1 :=
  .next (
    let l := s.launch uid
    match s.cores.ctxs.find? (fun c => c.launch == uid && c.place == place) with
    | none => s
    | some c =>
      if !l.stoppable ∨ !s.readyToSave uid place c.core then s
      else
        let i := s.imageOf uid place c.core
        let s1 := ((s.saveStore l (imageAt l place) i.2).unload uid place c.core).setLaunch
          { l with images := l.images ++ [i.1], preempted := true }
        let s2 := s1.setStops (dropStop uid place s1.tasks.stops)
        if s2.cores.waves.all (fun w => w.launch != uid || !w.resident) then s2.saveStore l l.saveArea (launchBytes l) else s2)

/-! ### Restoring (R362) -/

/-- Reservations at fresh base rows beside those of the core, in the order they were made (R277, R284). -/
def placeRows (barred : List Nat) : List Reservation → List Reservation → Option (List Reservation)
  | _, [] => some []
  | used, r :: l =>
    match freeRows used barred (dROWS r.desc) with
    | none => none
    | some b => (placeRows barred ({ r with base := b } :: used) l).map (fun m => { r with base := b } :: m)

/-- Accumulators in fresh banks coded 11, in handle order; handles are unchanged (R284). -/
def placeBanks : List Nat → Cells HandleEntry → Cells HandleEntry
  | _, [] => []
  | free, (h, e) :: l =>
    match e.alloc with
    | some a => (h, { e with alloc := some { a with banks := free.take a.banks.length } }) :: placeBanks (free.drop a.banks.length) l
    | none => (h, e) :: placeBanks free l

/-- What was seized from under a launch, and the channels it declares, are held again (R127). -/
def State.heldAgain (s : State) (l : Launch) : Bool :=
  s.chansHeld l && l.awaits.all (fun p => (s.tenant l.tenant).holds p.1 p.2)

/-- A core image fits on a core now (R362) but for its wave slots, with its reservations placed. -/
def State.imageFits (s : State) (l : Launch) (i : Image) (core : Nat) : Option (List Reservation) :=
  if s.coreUsable l.tenant core ∧ s.banksFree l i.place core ∧ s.heldAgain l ∧ (s.ctx? l.uid core).isNone ∧
      s.recipesOn core + i.ctx.recipes.length ≤ 64 then placeRows (s.barredRows core) (s.resvOn core) i.ctx.resv
  else none

/-- The same with the wave slots chosen. -/
def State.restoreFits (s : State) (l : Launch) (i : Image) (core : Nat) (slots : List Nat) : Option (List Reservation) :=
  if slots.length = i.waves.length ∧ slots.Nodup ∧ (slots.all (fun k => decide (k < 48) && (s.wave? core k).isNone)) then
    s.imageFits l i core
  else none

/-- A wave back on a core: a fresh slot, its state as saved (R362); a stop that found it is over. -/
def State.backWave (s : State) (core slot : Nat) (w : Wave) : Wave :=
  { w with
    core := core, slot := slot, diepl := s.diePlace w.tenant core, stopped := none, nextIssue := s.ctl.cycle, bornAt := s.ctl.cycle,
    lastIssue := s.ctl.cycle }

end Sys2Proof.Machine
end

