-- ==== Sys2Proof/Machine/Tenancy.lean ====
section
/-! DEFINITION. Binding tenants and units, suspension, harvests and migration (spec/07 R108, R109, R116; spec/08 R144; spec/23 R364
to R367). -/
namespace Sys2Proof.Machine

/-! ### Binding and suspension -/

/-- TENANT_BIND (R144, R91, R75): a tenant with its salt, HANGLIM 0, the frames its logs and areas will have, and a quota within what the
others leave (R104); its function's page as it stands. Its places come by BINDING_CHANGE. -/
def execTenantBind (t : Nat) (a : BindArgs) (s : State) : Res1 :=
  .next (if t = 0 ∨ 64 ≤ t ∨ s.bound t ∨ a.cwbase % 2 ^ 16 ≠ 0 ∨ s.quotaLeft t < a.quota then s
    else s.setTasks { s.tasks with
      vfs := s.tasks.vfs.filter (fun k => k.id != t),
      tenants := s.tasks.tenants ++ [{ s.page t with
        id := t, salt := a.salt, hanglim := 0, cwbase := a.cwbase, revTfn := a.revTfn, lossTfn := a.lossTfn, repoTfn := a.repoTfn,
        repoFrames := a.repoFrames, bindTfn := a.bindTfn, svcTfn := a.svcTfn, revmin := a.revMin, quota := a.quota }] })

/-- No wave of a tenant is on a core. -/
def State.offCores (s : State) (t : Nat) : Bool := s.cores.waves.all (fun w => w.tenant != t) &&
  s.cores.ctxs.all (fun c => (s.launch c.launch).tenant != t)

/-- TENANT_SUSPEND (R109): once none of its waves is resident. -/
def execTenantSuspend (t : Nat) (s : State) : Res1 :=
  .next (
    let k := s.tenant t
    if s.bound t ∧ !k.suspended ∧ s.offCores t then s.setTenant { k with suspended := true, suspendedAt := s.time t } else s)

/-- TENANT_RESUME (R109, R125): deadlines are extended by the tenant time spent suspended, a request posted meanwhile by what of it came
after the post; a migration in progress is over. -/
def execTenantResume (t : Nat) (s : State) : Res1 :=
  .next (
    let k := s.tenant t
    if s.bound t ∧ k.suspended then s.setTenant { k with
      suspended := false, harvest := none, frozen := false,
      requests := k.requests.map (fun r => { r with deadline := r.deadline + min (s.elapsed t k.suspendedAt) (s.elapsed t r.posted) }) }
    else s)

/-! ### Binding changes (R109) -/

/-- A binding-change record at index item 6 mod 256. -/
def State.logBinding (s : State) (t kind place : Nat) (old new : Nat) (colour : Bool) : State :=
  let k := s.tenant t
  let v := fieldAt 0 s.ctl.seq + fieldAt 64 kind + fieldAt 72 colour.toNat + fieldAt 96 place + fieldAt 128 old + fieldAt 192 new
  let s1 := match s.tfnAddr t k.bindTfn with
    | some ma => s.deviceStore (ma + 32 * (k.bindCount % 256)) (bytesOf 32 v)
    | none => s
  (s1.setTenant { s1.tenant t with bindCount := (k.bindCount + 1) % 2 ^ 64 }).takeSeq

/-- The old physical number of an added place. -/
def noUnit : Nat := 2 ^ 64 - 1

/-- Bishop numbers a new place with the lowest number not held, banks with their composite number (R108). -/
def Tenant.newPlace (t : Tenant) (k : PlaceKind) (p : Nat) : Bool :=
  if k = .bank then (t.place? .core (p / 32)).isSome
  else (List.range p).all (fun q => (t.place? k q).isSome)

/-- A core, or the core of a pool bank, that is leased. -/
def State.leasedUnit (s : State) (k : PlaceKind) (phys : Nat) : Bool :=
  (k == .core && s.cores.leased.contains phys) || (k == .bank && s.cores.leased.contains (phys / 32))

/-- No place holds the unit; a leased core and its banks may be places of several tenants, one of each (R87, R108). -/
def State.unitFree (s : State) (t : Nat) (k : PlaceKind) (phys : Nat) : Bool :=
  s.tasks.tenants.all (fun x => (s.leasedUnit k phys && x.id != t) || !x.places.any (fun e => e.kind == k && e.phys == phys))

/-- A tag run that a PROT frame of a tenant may have: 1 KiB aligned, in a frame of tenant 0 on its stack that is no place of a tenant and no
part of a save area, beside runs of the same tenant alone, and used by no other frame (R374). -/
def State.tagRunOk (s : State) (t mfn a : Nat) : Bool :=
  let m := mfnOf a
  a % 1024 == 0 && m / 2 ^ 20 == mfn / 2 ^ 20 && (s.frame m).owner == 0 && m != mfn && !s.inSaveArea m &&
  s.tasks.tenants.all (fun k => !k.places.any (fun e => e.kind == .frame && e.phys == m)) &&
  s.mem.frames.all (fun p => !p.2.prot || p.2.tagRun / 2 ^ 16 != m || (p.2.owner == t && p.2.tagRun != a))

/-- A pool bank may stand at a bank place: its number within the core is the place's, but on a core with defective banks, where it may be any
that works (R64, R108). -/
def State.bankMaps (s : State) (p phys : Nat) : Bool :=
  !s.dev.badBanks.contains phys && (phys % 32 == p % 32 || s.dev.badBanks.any (fun b => b / 32 == phys / 32))

/-- Every pool bank of a core works (R365). -/
def State.coreWhole (s : State) (core : Nat) : Bool := s.dev.badBanks.all (fun b => b / 32 != core)

/-- A unit is one that may be bound as that place (Table 7-1, R112): of a die's cores the working ones but Bishop's (R10), of the frames of
other devices those of the domain's 1,024 (R16, R258). -/
def State.unitOk (s : State) (t : Nat) (k : PlaceKind) (p phys : Nat) : Bool :=
  match k with
  | .core => s.coreForTenants phys && !s.hasFailed (1 + phys / 192) && s.unitMay (coreUnit phys)
  | .bank => ((s.tenant t).place? .core (p / 32)).any (fun e => e.phys == phys / 32) && s.bankMaps p phys && s.unitMay (bankUnit phys)
  | .frame =>
    if 2 ^ 24 ≤ phys then decide (phys < 2 ^ 24 * 1025 ∧ phys / 2 ^ 24 - 1 ≠ s.dev.devid)
    else let f := s.frame phys; f.owner == 0 && !f.host && decide (f.incs < 255) && !s.reservedFrame phys
  | .lane => decide (phys < 144)
  | .queue => decide (phys < 512)
  | .chan => decide (phys < 2 ^ 48)
  | .tset | .quota => false

/-- A frame bound to a tenant: HOST for the command window, the service area and the rings (R114, R344), PROT with its tag run, whose frame
follows (R113, R374). Binding it counts as a write (R94). -/
def State.bindFrame (s : State) (t mfn : Nat) (prot : Option Nat) : State :=
  let u := (s.setFrame mfn { s.frame mfn with
    owner := t, host := (s.tenant t).hostShares mfn, prot := prot.isSome, revoking := false, tagRun := prot.getD 0 }).stampFrame mfn
  match prot with
  | some a => u.settleRun (mfnOf a)
  | none => u

/-- A frame's contents moved to another frame of the device, whose old one is released (R109: what a program computes is unchanged). A frame
that stands handed over to the host stays so. -/
def State.moveFrame (s : State) (t old new : Nat) : State :=
  let f := s.frame old
  let bytes := s.readMem (old * 2 ^ 16) (2 ^ 16)
  let s1 := s.bindFrame t new none
  let s2 := (s1.setFrame new { s1.frame new with
    owner := f.owner, host := f.host || (s1.frame new).host, revoking := f.revoking }).writeMem (new * 2 ^ 16) bytes
  s2.releaseFrame old

/-- Bishop writes the MFN of every entry afresh (R365); copies in the cores go. -/
def State.refreshTlb (s : State) (t : Nat) : State :=
  let k := s.tenant t
  let mfn := fun (e : Tlb) => ((k.place? .frame e.tfn).map PlaceEntry.phys).getD e.mfn
  let s1 := s.setTenant { k with tlb := k.tlb.map (fun e => { e with mfn := mfn e }) }
  s1.setMem { s1.mem with tcache := s1.mem.tcache.filter (fun c => c.tenant != t) }

/-- Every entry that maps a run of frames finds the run's places on one run of frames (R113): a change that would break a mapped run, and
so change what a program computes, is none that Bishop makes (R109, R119). -/
def Tenant.runsWhole (t : Tenant) : Bool :=
  t.tlb.all (fun e =>
    let n := pageSize e.arr / 2 ^ 16
    n == 1 || (match t.place? .frame e.tfn with
      | none => true
      | some x => x.phys % n == 0 && (t.run e.tfn n).zipIdx.all (fun p => p.1.any (fun y => y.phys == x.phys + p.2))))

/-- A held place put on another unit (R109): the old binding released, the entries that name it written afresh, a record written. -/
def State.repoint (s : State) (t : Nat) (e : PlaceEntry) (phys : Nat) : State :=
  let s1 := match e.kind with
    | .frame => s.moveFrame t e.phys phys
    | .core => s.bumpUnits [coreUnit e.phys]
    | .bank => s.bumpUnits [bankUnit e.phys]
    | _ => s
  let t1 := s1.tenant t
  let s2 := s1.setTenant (Tenant.settleDies { t1 with
    places := updWhere (fun x => x.kind == e.kind && x.place == e.place) (fun x => { x with phys := phys }) t1.places })
  (s2.refreshTlb t).logBinding t e.kind.code e.place e.phys phys (e.kind == .frame && colourOf e.phys != colourOf phys)

/-- A held place may go to another unit: a frame is not protected, and both its units lie on this device (R364, R365); a core takes its pool
banks along, each to the bank of its number, and the new core has them all (R365); from a die that heat has stopped it goes to a ready core of
another die that no tenant holds (R393). -/
def State.mayRepoint (s : State) (t : Nat) (e : PlaceEntry) (phys : Nat) : Bool :=
  match e.kind with
  | .frame => decide (e.phys < 2 ^ 24 ∧ phys < 2 ^ 24) && !(s.frame e.phys).prot
  | .core =>
    s.coreWhole phys && (List.range 32).all (fun b => ((s.tenant t).place? .bank (32 * e.place + b)).isNone ||
      (s.unitFree t .bank (32 * phys + b) && s.unitMay (bankUnit (32 * phys + b)))) &&
    (!s.hasFailed (1 + e.phys / 192) || (decide (phys / 192 ≠ e.phys / 192) && s.isReady (1 + phys / 192) &&
      s.tasks.tenants.all (fun k => !k.places.any (fun x => x.kind == .core && x.phys == phys))))
  | _ => true

/-- The pool banks of a core place. -/
def Tenant.banksOf (t : Tenant) (p : Nat) : List PlaceEntry := t.places.filter (fun e => e.kind == .bank && e.place / 32 == p)

/-- A place added to a tenant, or its unit changed; none where it may not be. -/
def State.bindUnit (s : State) (t : Nat) (k : PlaceKind) (p phys : Nat) (prot : Option Nat) : Option State :=
  let ten := s.tenant t
  if !s.unitOk t k p phys ∨ !s.unitFree t k phys ∨ (k ≠ .frame ∧ prot.isSome) ∨ !prot.all (s.tagRunOk t phys) then none
  else match ten.place? k p with
    | none =>
      if !ten.newPlace k p then none
      else
        let s1 := if k = .frame ∧ phys < 2 ^ 24 then s.bindFrame t phys prot else s
        let t1 := s1.tenant t
        some ((s1.setTenant (Tenant.settleDies { t1 with places := t1.places ++ [⟨k, p, phys, false⟩] })).logBinding t k.code p noUnit phys false)
    | some e =>
      if !s.mayRepoint t e phys then none
      else
        let banks := if k = .core then ten.banksOf p else []
        some (banks.foldl (fun u b => u.repoint t b (32 * phys + b.place % 32)) (s.repoint t e phys))

/-- The same where every mapped run stays whole. -/
def State.bindWhole (s : State) (t : Nat) (k : PlaceKind) (p phys : Nat) (prot : Option Nat) : Option State :=
  (s.bindUnit t k p phys prot).filter (fun u => (u.tenant t).runsWhole)

/-- Sets of an array of a die (R116). -/
def setsOf (arr : Nat) : Nat := if arr = 2 then 2048 else 1024

/-- A grant may be given: a power of two of sets, no fewer than there are, inside the array, apart from the other tenants' (R116); sets are taken
back only by a request for the whole grant, which keeps its base and size while that is pending (R382). -/
def State.grantOk (s : State) (t arr base n : Nat) : Bool :=
  decide (arr < 3 ∧ base + n ≤ setsOf arr ∧ ((s.tenant t).grant arr).2 ≤ n) &&
  !(s.tenant t).requests.any (fun r => r.kind == .tset && r.target.any (fun p => p / 2 ^ 30 == arr)) && ((List.range 12).any (fun i => n == 2 ^ i)) &&
  s.tasks.tenants.all (fun k => k.id == t || (let g := k.grant arr; decide (g.1 + g.2 ≤ base ∨ base + n ≤ g.1) || g.2 == 0))

/-- A whole grant given or moved (R116, R365): its entries keep their set places; a grant of another size starts empty. One record
for each set place that is added or changed (R109). -/
def State.bindGrant (s : State) (t arr base n : Nat) : Option State :=
  let ten := s.tenant t
  let old := ten.grant arr
  if !s.grantOk t arr base n then none
  else
    let s1 := if old.2 = n then s else s.dropTlb t (fun e => e.arr == arr)
    let t1 := s1.tenant t
    let s2 := s1.setTenant { t1 with
      grants := t1.grants.set arr (base, n), yielded := t1.yielded.filter (fun p => p / 2 ^ 30 != arr),
      tlb := t1.tlb.map (fun e => if e.arr = arr then { e with set := e.set - old.1 + base } else e) }
    let was := fun (i : Nat) => if ten.holdsSet (2 ^ 30 * arr + i) then old.1 + i else noUnit
    some (((List.range n).filter (fun i => was i != base + i)).foldl (fun u i =>
      u.logBinding t 3 (2 ^ 30 * arr + i) (was i) (base + i) false) (s2.refreshTlb t))

/-- BINDING_CHANGE (R109): only while the tenant is suspended. For translation sets the place is 2^30 × array + the grant's size and
the unit its base; for the quota the unit is the new quota. -/
def execBindingChange (t : Nat) (k : PlaceKind) (place phys : Nat) (prot : Option Nat) (s : State) : Res1 :=
  .next (
    let ten := s.tenant t
    if !s.bound t ∨ !ten.suspended then s
    else match k with
      | .tset => (s.bindGrant t (place / 2 ^ 30) phys (place % 2 ^ 30)).getD s
      | .quota =>
        if place = 0 ∧ phys ≤ s.quotaLeft t ∧ s.reuseCount t ≤ phys then
          (s.setTenant { ten with quota := phys }).logBinding t 7 0 ten.quota phys false
        else s
      | _ => (s.bindWhole t k place phys prot).getD s)

/-! ### Harvests and migration -/

/-- The frame places of a tenant on this device, in ascending order, with their frames. -/
def Tenant.localFrames (t : Tenant) : List (Nat × Nat) :=
  sortBy (fun a b => decide (a.1 ≤ b.1))
    ((t.places.filter (fun e => e.kind == .frame && decide (e.phys < 2 ^ 24))).map (fun e => (e.place, e.phys)))

/-- DIRTY_HARVEST (R364): a record event; the map of the frames written since the last harvest, every frame at the first. With no
wave of a suspended tenant resident its frames refuse the host from here on. -/
def execDirtyHarvest (t : Nat) (s : State) : Res1 :=
  .next (if !s.bound t then s
    else
      let r := s.recordEvent
      let k := r.1.tenant t
      let map := k.localFrames.map (fun p => match k.harvest with
        | none => true
        | some v => r.1.writtenSince v p.2)
      let s1 := r.1.setTenant { k with harvest := some r.2, frozen := k.suspended && r.1.offCores t }
      s1.setDev { s1.dev with mapOut := map })

/-- What migration does not carry (R366): reuse and digest entries, cached translations, L1 and L2 contents. -/
def State.dropCarried (s : State) (t : Nat) : State :=
  let s1 := (s.setTasks { s.tasks with digests := s.tasks.digests.filter (fun e => e.tenant != t) }).setReuse
    (s.tasks.reuse.filter (fun e => e.tenant != t))
  let mine := fun (ma : Nat) => (s.frame (mfnOf ma)).owner == t
  s1.setMem { s1.mem with
    tcache := s1.mem.tcache.filter (fun c => c.tenant != t), l1 := s1.mem.l1.filter (fun x => !mine (x.line * 128)),
    l2 := s1.mem.l2.filter (fun p => !p.2.any (fun l => l.tenant == t)) }

/-- A held place remapped: a translation grant as a whole, named as BINDING_CHANGE names it and of the size it has (R365). -/
def State.remap (s : State) (t : Nat) (k : PlaceKind) (p phys : Nat) : Option State :=
  if k = .tset then (if ((s.tenant t).grant (p / 2 ^ 30)).2 = p % 2 ^ 30 then s.bindGrant t (p / 2 ^ 30) phys (p % 2 ^ 30) else none)
  else if ((s.tenant t).place? k p).isNone then none
  else s.bindUnit t k p phys none

/-- The places remapped in order; none where one does not fit. -/
def remapAll (t : Nat) : List (PlaceKind × Nat × Nat) → State → Option State
  | [], s => some s
  | (k, p, phys) :: l, s => (s.remap t k p phys).bind (remapAll t l)

/-- What the tenant's places call for is there (R365): whole mapped runs, cores that work with all their banks, and on each core room for the
recipes and reservations of every image that is to come back to it (R362). -/
def State.fitsThere (s : State) (t : Nat) : Bool :=
  (s.tenant t).runsWhole &&
  (s.tenant t).places.all (fun e => e.kind != .core || (s.coreForTenants e.phys && s.coreWhole e.phys)) &&
  s.tasks.launches.all (fun l => l.tenant != t || l.images.all (fun i => (s.coreOf t i.place).any (fun c =>
    decide (s.recipesOn c + i.ctx.recipes.length ≤ 64) && (placeRows (s.barredRows c) (s.resvOn c) i.ctx.resv).isSome)))

/-- A tenant that may not leave the device: it holds a PROT frame or a key slot (R365). -/
def State.staysHere (s : State) (t : Nat) : Bool :=
  (s.tenant t).places.any (fun e => e.kind == .frame && decide (e.phys < 2 ^ 24) && (s.frame e.phys).prot) ||
  s.tasks.launches.any (fun l => l.tenant == t && l.slotHeld.isSome)

/-- The frames that go with a tenant: those of its places on this device, and the save areas of its launches (R364). -/
def State.travels (s : State) (t mfn : Nat) : Bool :=
  (s.tenant t).places.any (fun e => e.kind == .frame && e.phys == mfn) ||
  State.inSaveArea (s.setTasks { s.tasks with launches := s.tasks.launches.filter (fun l => l.tenant == t) }) mfn

/-- The tenant as it stands on another device: the machine is from here on that device, with this tenant alone and what of its memory it brings
(R366, R367; log 60). -/
def State.elsewhere (s : State) (t : Nat) (x : MigrationTarget) : State :=
  let k := s.tenant t
  let time := s.time t
  let s1 := s.setTasks { s.tasks with
    tenants := [{ k with tofs := (time + max 1 x.elapsed + 2 ^ 64 - x.time % 2 ^ 64) % 2 ^ 64 }],
    launches := (s.tasks.launches.filter (fun l => l.tenant == t)).map (fun l =>
      { l with images := l.images.map (fun i => { i with fromCore := 1536 }) }),
    reuse := [], digests := [], keySlots := [], keyQueue := [], stops := [],
    batches := s.tasks.batches.filter (fun b => b.tenant == t), vfs := [] }
  let s2 := s1.setMem { s1.mem with
    bytes := s.mem.bytes.filter (fun c => s.travels t (mfnOf c.1)), wtags := s.mem.wtags.filter (fun c => s.travels t (mfnOf c.1)),
    frames := s.mem.frames.filter (fun c => s.travels t c.1), watch := s.mem.watch.filter (fun r => s.travels t (mfnOf (32 * r.sector))),
    tcache := [], l1 := [], l2 := [], retries := [], prefs := [], remote := [] }
  let s3 : State := { s2 with cores := Cores.reset }
  (s3.setDev { s3.dev with devid := x.devid, badCores := x.badCores, badBanks := x.badBanks }).setCtl
    { s3.ctl with cycle := (13 * x.time + 9) / 10 }

/-- Where a migration's places are remapped: this device, or the other one, of the domain's 1,024, for a tenant that may leave. -/
def State.migrationStart (s : State) (t : Nat) (device : Option MigrationTarget) : Option State :=
  match device with
  | none => some (s.dropCarried t)
  | some x => if s.staysHere t ∨ 1024 ≤ x.devid ∨ x.devid = s.dev.devid then none else some (s.elsewhere t x)

/-- TENANT_MIGRATE (R364 to R367): the places of a suspended tenant moved to other units, all or none, of this device or of another one. A
move that does not fit changes nothing and is reported. -/
def execTenantMigrate (t : Nat) (remap : List (PlaceKind × Nat × Nat)) (device : Option MigrationTarget) (s : State) : Res1 :=
  .next (if !s.bound t ∨ !(s.tenant t).suspended ∨ !s.offCores t then s
    else match ((s.migrationStart t device).bind (remapAll t remap)).filter (fun u => u.fitsThere t) with
      | none => s.setDev { s.dev with reports := s.dev.reports + 1 }
      | some u => u.setTenant { u.tenant t with harvest := none, frozen := false })

end Sys2Proof.Machine
end

