-- ==== Sys2Proof/Machine/Attest.lean ====
section
/-! DEFINITION. Certificates, challenges and reports (spec/24 R377 to R381). -/
namespace Sys2Proof.Machine

/-- An empty certificate slot. -/
def Cert.empty : Cert := ⟨0, 0, [], []⟩

/-- A certificate slot. -/
def State.cert (s : State) (c : Nat) : Cert := cellGet Cert.empty s.dev.certs c

/-- CERT_COMMIT (R378): the hypervisor stores `body` from the start of the slot's body on, then LEN. The rest of the body stands as it was; a
LEN above 0xFFC0 is ignored, and the bytes stored stay. -/
def execCertCommit (c len : Nat) (body : List Byte) (s : State) : Res1 :=
  .next (
    let v := s.cert c
    let b := body.take 0xFFC0 ++ v.body.drop (min body.length 0xFFC0)
    if 8 ≤ c then s
    else
      let new : Cert := if 0xFFC0 < len then { v with body := b } else ⟨len, (v.gen + 1) % 2 ^ 64, b, padTo len b⟩
      s.setDev { s.dev with certs := cellSet Cert.empty s.dev.certs c new })

/-- The launch a challenge names (R379): the tenant's latest with the LID that has been dispatched and has not completed. -/
def State.challenged (s : State) (t : Nat) : Option Launch :=
  (s.tasks.launches.filter (fun l => l.tenant == t && l.lid == (s.tenant t).chLid && l.tstart != 0 &&
    (l.phase == .running || l.phase == .ending))).getLast?

/-- The report's kilobyte lies in frames of the tenant with HOST set (R379). -/
def State.reportOk (s : State) (t a : Nat) : Bool :=
  let f := s.frame (mfnOf a)
  a % 1024 == 0 && decide (a < 2 ^ 40) && f.owner == t && f.host

/-- The status with which a challenge ends at once, in the order of R379; none where it goes on. -/
def State.challengeCheck (s : State) (t : Nat) : Option Nat :=
  if !s.isReady 33 then some 7
  else if (s.challenged t).isNone then some 3
  else if (s.cert (s.tenant t).cslot).len = 0 then some 4
  else if !s.reportOk t (s.tenant t).chReport then some 6
  else none

/-- The request of a challenge as it stands (R379, R381). -/
def State.ask (s : State) (t : Nat) : Challenge :=
  let k := s.tenant t
  ⟨((s.challenged t).map Launch.uid).getD 0, k.cslot, (s.cert k.cslot).gen, k.chReport, k.chNonce⟩

/-- GO = 1 written (R379, R381): the request checked, and sampled with GEN. While GO is 1 it is ignored. A function without a tenant has no
launch to challenge. -/
def State.startChallenge (s : State) (t : Nat) : State :=
  let k := s.page t
  if k.goBit then s
  else match (if s.bound t then s.challengeCheck t else some (if s.isReady 33 then 3 else 7)) with
    | some n => s.setPage { k with id := t, chStatus := n }
    | none => s.setTenant { k with goBit := true, chStatus := 1, asked := s.ask t }

/-- CHALLENGE_START (R379): the host's write of GO = 1. -/
def execChallengeStart (t : Nat) (s : State) : Res1 := .next (if !s.bound t then s else s.startChallenge t)

/-- VF_REGISTER_WRITE (R3): the page of any virtual function, whether or not a tenant is bound to it; the physical function's claim mask
stands outside the tenants. Bishop shares the rings where they are set up (R114). GO takes what is written; a challenge begun goes on when it is written 0 (log 55). -/
def execVfRegisterWrite (t : Nat) (r : VfReg) (v : Word) (s : State) : Res1 :=
  .next (match r with
    | .pfClaim => s.setDev { s.dev with claimHost := v.setWidth 16 }
    | .go => if v.getLsbD 0 then s.startChallenge t else s.setPage { s.page t with goBit := false }
    | .cmodn => (s.setPage ((s.page t).write r v)).countDue t
    | .crbase | .crsize | .evbase | .evsize =>
      let u := s.setPage ((s.page t).write r v)
      if s.bound t then u.shareRings t else u
    | _ => s.setPage ((s.page t).write r v))

/-- Bytes at a tenant's address of any alignment. -/
def State.tenantBytes (s : State) (t : Nat) (slot : Option Nat) (va n : Nat) : List Byte :=
  let skip := va % 8
  ((wordBytes ((s.tenantWords t slot (va - skip) ((n + skip + 7) / 8)).getD [])).drop skip).take n

/-- The bytes that R92 digests: the loaded sections of kinds 1 to 5 in table order. -/
def State.codeBytes (s : State) (l : Launch) : List Byte :=
  let rd := fun (a n : Nat) => (s.tenantWords l.tenant l.slotHeld a n).getD []
  let head := rd l.codeobj 2
  let n := min 16 (bits (head.getD 0 0).toNat 63 48)
  let table := rd (l.codeobj + (head.getD 1 0).toNat) (4 * n)
  (List.range n).flatMap (fun i =>
    let kind := bits (table.getD (4 * i) 0).toNat 7 0
    if 1 ≤ kind ∧ kind ≤ 5 then
      s.tenantBytes l.tenant l.slotHeld (l.codeobj + (table.getD (4 * i + 1) 0).toNat) (table.getD (4 * i + 2) 0).toNat
    else [])

/-- Table 24-5 before the signature. -/
def State.reportBody (s : State) (t : Nat) (l : Launch) : List Byte :=
  let k := (s.tenant t).asked
  let c := s.cert k.cslot
  let kid := if l.prot then ((l.slotHeld.map (fun i => (s.keySlot i).kid)).getD 0).toNat else 0
  let saved := !(s.cores.ctxs.any (fun x => x.launch == l.uid))
  let rec' := wordBytes (l.record.set 0 0)
  let h := fun (b : List Byte) => bytes8 (sha512 (nats b))
  let ids := le 8 1 ++ le 8 s.ctl.seq ++ le 2 s.dev.devid ++ le 1 t
  let who := padTo 0x18 ids ++ le 4 l.lid ++ le 1 (if saved then 2 else 1)
  let slot := padTo 0x20 who ++ le 8 kid ++ le 1 k.cslot
  let fixed := padTo 0x30 slot ++ le 8 c.gen ++ le 8 (s.time t) ++ wordBytes ((List.range 4).map (fun i => k.nonce.getD i 0))
  padTo 512 (padTo 0x60 fixed ++ h (s.codeBytes l) ++ h rec' ++ h c.cert)

/-- The whole report (R380). -/
def State.report (s : State) (t : Nat) (l : Launch) : List Byte :=
  let b := s.reportBody t l
  b ++ bytes8 (rsaSign Config.identityModulus Config.identityExponent (nats b))

/-- A challenge over, with its STATUS. -/
def State.endChallenge (s : State) (t st : Nat) : State := s.setTenant { s.tenant t with goBit := false, chStatus := st }

/-- CHALLENGE_DONE (R381): a challenge that is PENDING ends as it was asked. SLOTCHANGED where GEN differs from the sample; else the report and
then STATUS, with no commit between. A launch that has completed meanwhile gives NOLAUNCH, a report's frame that is none any more BADDEST
(log 42). -/
def execChallengeDone (t : Nat) (s : State) : Res1 :=
  .next (
    let k := s.tenant t
    let l := s.launch k.asked.uid
    if k.chStatus ≠ 1 then s
    else if (s.cert k.asked.cslot).gen ≠ k.asked.gen then s.endChallenge t 5
    else if l.phase ≠ .running ∧ l.phase ≠ .ending then s.endChallenge t 3
    else if !s.reportOk t k.asked.report then s.endChallenge t 6
    else (((s.deviceStore k.asked.report (s.report t l)).takeSeq)).endChallenge t 2)

end Sys2Proof.Machine
end

