-- ==== Sys2Proof/Machine/Control.lean ====
section
/-! DEFINITION. The control words (spec/08 R147 to R154; spec/21 R340, R343). -/
namespace Sys2Proof.Machine

/-- Nothing but the word itself. -/
def nothing (x : Ex) : Out := .done x.s {}

/-- NOP (R147). -/
def execNop (c : Ctl) (s : State) : Res1 := pWord c { hok := true } nothing s

/-- The target of a branch form (R31). -/
def targetOf (pc : CodeAddr) (off : Int) : CodeAddr := pc + BitVec.ofInt 48 (off * 8)

/-- BRA (R148). -/
def execBra (c : Ctl) (off : Int) (_h : Hint) (s : State) : Res1 :=
  pWord c { bubble := true, hok := true } (fun x => .done x.s { pcs := x.lanes.map (fun i => (i, targetOf x.pc off)) }) s

/-- Branches to addresses of the lanes: one that is not a multiple of 8 faults with ALIGN (R21, R148). -/
def branchTo (x : Ex) (l : List (Nat × CodeAddr)) : Out :=
  .done x.s {
    faults := (l.filter (fun p => p.2.toNat % 8 != 0)).map (fun p => (p.1, cALIGN, p.2.setWidth 64)),
    pcs := l.filter (fun p => p.2.toNat % 8 == 0) }

/-- BRX (R148). -/
def execBrx (c : Ctl) (a : Nat) (s : State) : Res1 :=
  pWord c { vr := [a], bubble := true } (fun x => branchTo x (x.lanes.map (fun i => (i, (x.v a i).setWidth 48)))) s

/-- CALL (R148). -/
def execCall (c : Ctl) (off : Int) (_h : Hint) (s : State) : Res1 :=
  pWord c { bubble := true } (fun x =>
    .done (x.s.setWave (x.wave.mapLanes (fun i => x.lanes.contains i) (fun l => { l with link := x.pc + 8 })))
      { pcs := x.lanes.map (fun i => (i, targetOf x.pc off)) }) s

/-- RET (R148). -/
def execRet (c : Ctl) (s : State) : Res1 :=
  pWord c { bubble := true } (fun x => branchTo x (x.lanes.map (fun i => (i, (x.wave.lane i).link)))) s

/-- BRAU (R148): the whole active set goes. -/
def execBrau (c : Ctl) (off : Int) (_h : Hint) (s : State) : Res1 :=
  pWord c { bubble := true, hok := true } (fun x => .done x.s { pcs := x.active.map (fun i => (i, targetOf x.pc off)) }) s

/-- RCV (R149): NOP without a parked lane, else its lanes are held there; a progress event (R142). -/
def execRcv (c : Ctl) (s : State) : Res1 :=
  pWord c {} (fun x =>
    if x.wave.parkedLanes.isEmpty then .done x.s { progress := true }
    else .done (x.s.setWave (x.wave.mapLanes (fun i => x.lanes.contains i) (fun l => { l with atRcv := true })))
      { stay := x.lanes, progress := true }) s

/-- EXIT (R149). -/
def execExit (c : Ctl) (s : State) : Res1 :=
  pWord c { bubble := true } (fun x =>
    .done (x.s.setWave (x.wave.mapLanes (fun i => x.lanes.contains i) (fun l => { l with st := .exited }))) { progress := true }) s

/-- YIELD (R147): the word counts as YLD = 1 where some lane executes it (R173). -/
def execYield (c : Ctl) (s : State) : Res1 := pWord c { hok := true, yields := true } nothing s

/-- WAIT (R150); the registers of what is done by then are ready (R236). -/
def execWait (c : Ctl) (ld st cp tl : Nat) (s : State) : Res1 :=
  pWord c {} (fun x => if x.wave.countsAt ld st cp tl then .done (x.s.setWave x.wave.readyOps) {} else .hold x.s (.wait ld st cp tl)) s

/-- SLEEP (R151): the wake latch ends it, or its deadline. -/
def execSleep (c : Ctl) (n : Nat) (s : State) : Res1 :=
  pWord c {} (fun x =>
    let w := x.wave
    let late := w.sleepSince.any (fun d => decide (d ≤ x.s.ctl.cycle))
    if w.wake || late then .done (x.s.setWave { w with wake := false, sleepSince := none }) {}
    else if w.held = some .sleep then .hold x.s .sleep
    else .hold (x.s.setWave { w with sleepSince := if n = 0 then none else some (x.s.ctl.cycle + n * 1024) }) .sleep) s

/-- The ballot of the executing lanes (R152). -/
def Ex.ballot (x : Ex) (p : Nat) : Word := (maskOf (fun i => x.lanes.contains i && x.w.pred p i)).setWidth 64

/-- VOTE (R152). -/
def execVote (c : Ctl) (d pa : Nat) (k : Vote) (s : State) : Res1 :=
  pWord c { pr := [pa], vw := [d] } (vBody d (fun x _ => match k with
    | .ballot => x.ballot pa
    | .any => if x.ballot pa = 0 then 0 else 1
    | .all => if x.lanes.all (x.w.pred pa) then 1 else 0)) s

/-- ELECT (R152). -/
def execElect (c : Ctl) (d : Nat) (s : State) : Res1 := pWord c { pw := [d] } (pBody d (fun x i => i == x.first)) s

/-- What steward software has added to a register of `n` bits that mirrors the machine (R144). -/
def Wave.adjusted (w : Wave) (key n v : Nat) : Word := BitVec.ofNat 64 ((v + cellGet 0 w.adj key) % 2 ^ n)

/-- A special register's value in a lane (Table 8-2). -/
def specVal (s : State) (w : Wave) (lane : Nat) : Spec → Word
  | .laneid => w.adjusted lane 5 lane
  | .waveid => BitVec.ofNat 64 w.wid
  | .corepl => BitVec.ofNat 64 w.corepl
  | .diepl => BitVec.ofNat 64 w.diepl
  | .quad => w.adjusted 32 2 w.quad
  | .mode => BitVec.ofNat 64 w.mode
  | .role => BitVec.ofNat 64 w.role
  | .link => (w.lane lane).link.setWidth 64
  | .time => BitVec.ofNat 64 (s.time w.tenant)
  | .fstat => w.fstat.setWidth 64
  | .mstat => w.mstat.setWidth 64
  | .loss => (s.tenant w.tenant).loss.setWidth 64
  | .trcause => w.trcause.setWidth 64
  | .trpc => w.trpc.setWidth 64
  | .trmask => w.trmask.setWidth 64
  | .traddr => w.traddr
  | .rngctr => w.rngctr
  | .hangcnt => BitVec.ofNat 64 w.hangcnt
  | .hanglim => BitVec.ofNat 64 (s.tenant w.tenant).hanglim
  | .cntld => w.adjusted 33 6 w.cntld
  | .cntst => w.adjusted 34 6 w.cntst
  | .cntcp => w.adjusted 35 6 w.cntcp
  | .cnttl => w.adjusted 36 4 w.cnttl
  | .tofs => BitVec.ofNat 64 (s.tenant w.tenant).tofs

/-- The least mode that may name a special register (Table 8-2). -/
def specMode : Spec → Nat
  | .trcause | .trpc | .trmask | .traddr => 1
  | .tofs => 2
  | _ => 0

/-- Reads that break purity (R102). -/
def specImpure : Spec → Bool
  | .time | .cntld | .cntst | .cntcp | .cnttl | .hangcnt => true
  | _ => false

/-- MFS (R153). -/
def execMfs (c : Ctl) (d : VS) (n : Spec) (s : State) : Res1 :=
  match d with
  | .v r => pWord c { vw := [r], mode := specMode n, impure := specImpure n } (vBody r (fun x i => specVal x.s x.wave i n)) s
  | .s r => pWord c { sw := [r], mode := specMode n, impure := specImpure n, hok := true }
      (sBody r (fun x => specVal x.s x.wave x.first n)) s

/-- A write of an RWS register (R153): each bit that is 0 in the source is cleared, but a bit that hardware set in the same cycle. In
steward mode it is a plain write (R144) of the bits in `have'`; the others are reserved and ignore it (R4). -/
def Wave.stickyWrite (s : State) (w : Wave) (have' old new : BitVec 8) (v : Word) : BitVec 8 :=
  let keep := if w.hwAt = s.ctl.cycle then new else 0
  if w.mode = 2 then (v.setWidth 8 &&& have') ||| (old &&& keep) else rwsWrite old (v ||| keep.setWidth 64)

/-- The flags of FSTAT (Table 11-3). -/
def fstatBits : BitVec 8 := 0x7F
/-- The bit of MSTAT (Table 19-2). -/
def mstatBits : BitVec 8 := 0x01

/-- The adjustment by which a register that mirrors `v` in `n` bits reads as software has written it. -/
def Wave.adjust (w : Wave) (key n v : Nat) (x : Word) : Wave :=
  { w with adj := cellSet 0 w.adj key ((x.toNat % 2 ^ n + 2 ^ n - v % 2 ^ n) % 2 ^ n) }

/-- A write by steward software of a register that other modes may only read (R144): registers that the state holds are replaced, TIME by
way of TOFS (R145), and a register that mirrors the machine reads as written and goes on from there (log 51). -/
def stewardWrite (s : State) (w : Wave) (n : Spec) (v : Word) : State :=
  match n with
  | .waveid => s.setWave { w with wid := bits v.toNat 15 0 }
  | .corepl => s.setWave { w with corepl := bits v.toNat 10 0 }
  | .diepl => s.setWave { w with diepl := bits v.toNat 2 0 }
  | .mode => s.setWave { w with mode := bits v.toNat 1 0 }
  | .role => s.setWave { w with role := bits v.toNat 1 0 }
  | .quad => s.setWave (w.adjust 32 2 w.quad v)
  | .time => s.setTenant { s.tenant w.tenant with tofs := (v.toNat + 2 ^ 64 - s.ns % 2 ^ 64) % 2 ^ 64 }
  | .loss => s.setTenant { s.tenant w.tenant with loss := v.setWidth 8 }
  | .cntld => s.setWave (w.adjust 33 6 w.cntld v)
  | .cntst => s.setWave (w.adjust 34 6 w.cntst v)
  | .cntcp => s.setWave (w.adjust 35 6 w.cntcp v)
  | .cnttl => s.setWave (w.adjust 36 4 w.cnttl v)
  | _ => s

/-- A write of a special register of the wave or the tenant (R144, R153); one that the mode may only read is ignored. -/
def writeSpec (s : State) (w : Wave) (n : Spec) (v : Word) : State :=
  match n with
  | .fstat => s.setWave { w with fstat := w.stickyWrite s fstatBits w.fstat w.hwF v }
  | .mstat => s.setWave { w with mstat := w.stickyWrite s mstatBits w.mstat w.hwM v }
  | .trcause => s.setWave { w with trcause := v.setWidth 8 }
  | .trpc => s.setWave { w with trpc := v.setWidth 48 }
  | .trmask => s.setWave { w with trmask := v.setWidth 32 }
  | .traddr => s.setWave { w with traddr := v }
  | .rngctr => s.setWave { w with rngctr := v }
  | .hanglim => if w.mode = 0 then s else s.setTenant { s.tenant w.tenant with hanglim := bits v.toNat 47 0 }
  | .tofs => s.setTenant { s.tenant w.tenant with tofs := v.toNat }
  | n => if w.mode = 2 then stewardWrite s w n v else s

/-- MTS once for the wave, or a register of lane scope in each executing lane (R153). `val` gives the source in a lane. -/
def mtsBody (n : Spec) (val : Ex → Nat → Word) (x : Ex) : Out :=
  match n with
  | .link => .done (x.s.setWave (x.lanes.foldl (fun w i => w.setLane i { w.lane i with link := (val x i).setWidth 48 }) x.wave)) {}
  | .laneid =>
    if x.w.mode = 2 then .done (x.s.setWave (x.lanes.foldl (fun w i => w.adjust i 5 i (val x i)) x.wave)) {} else .done x.s {}
  | .hangcnt => if x.w.mode = 0 then .done x.s {} else .done x.s { hang := some (bits (val x x.first).toNat 47 0) }
  | _ => .done (writeSpec x.s x.wave n (val x x.first)) {}

/-- MTS (R153). -/
def execMts (c : Ctl) (a : VS) (n : Spec) (s : State) : Res1 :=
  match a with
  | .v r => pWord c { vr := [r], mode := specMode n } (mtsBody n (fun x i => x.v r i)) s
  | .s r => pWord c { sr := [r], mode := specMode n, hok := true } (mtsBody n (fun x _ => x.sc r)) s

/-- A performance counter as it reads (Table 8-4); counter 0 counts the cycles of residence. -/
def perfVal (s : State) (w : Wave) (n : Nat) : Word :=
  cellGet 0 w.perf n + (if n = 0 then BitVec.ofNat 64 (s.ctl.cycle - w.bornAt) else 0)

/-- PERFRD (R154). -/
def execPerfrd (c : Ctl) (d n : Nat) (s : State) : Res1 :=
  pWord c { vw := [d], impure := true } (vBody d (fun x _ => perfVal x.s x.wave n)) s

/-- TRAP (R343). -/
def execTrap (c : Ctl) (code : Nat) (s : State) : Res1 := pWord c {} (fun x => faultAll x cSWTRAP (BitVec.ofNat 64 code)) s

/-- BKPT (R343): NOP without DEBUG. -/
def execBkpt (c : Ctl) (code : Nat) (s : State) : Res1 :=
  pWord c {} (fun x => if x.l.debug then faultAll x cBKPT (BitVec.ofNat 64 code) else .done x.s {}) s

/-- RTE (R340): the handler ends; FATAL ends the launch with an event of KIND 6, whose DETAIL is TRPC and
TRCAUSE (log 39). -/
def execRte (c : Ctl) (a : Nat) (s : State) : Res1 :=
  qWord c { mode := 1, sr := [a], hok := true } (fun x =>
    let w := x.wave
    match w.hnd with
    | none => faultAll x cRANGE 0
    | some h =>
      let act := bits (x.sc a).toNat 1 0
      if act = 3 then
        .done ((x.s.trapped w.launch w.trpc w.trcause.toNat).hostEvent w.tenant 6 (trapDetail w.trpc w.trcause.toNat)) {}
      else .done (x.s.setWave (w.leaveHandler h act)) { progress := act == 2 && w.rteSet h != [] }) s

end Sys2Proof.Machine
end

