-- ==== Sys2Proof/Machine/CrossLane.lean ====
section
/-! DEFINITION. The cross-lane words (spec/10 R187 to R192). They read other lanes as they stand (R188). -/
namespace Sys2Proof.Machine

/-- LSHF (R189). -/
def execLshf (c : Ctl) (d a : Nat) (b : VS) (k : Shf) (s : State) : Res1 :=
  pWord c { useABC c d a (some b) none with lat := 8 }
    (vBody d (fun x i => match lshfSource k i (bits (x.b b i).toNat 4 0) with
      | some j => x.v a j
      | none => x.v a i)) s

/-- The bits of the element at a lane-element address of a register (R187). -/
def Ex.at (x : Ex) (r : Nat) (t : Ty) (addr : Nat) : Nat := elemBits (x.v r (leaLane addr)) t.bits (leaElem addr t.count)

/-- LBCAST (R190). -/
def execLbcast (c : Ctl) (d a b : Nat) (t : Ty) (s : State) : Res1 :=
  pWord c { useABC c d a none none t.bits with sr := [b], lat := 8, widths := [(.scal, b, 64)] }
    (vBody d (fun x _ => build t (fun _ => x.at a t (x.sc b).toNat))) s

/-- One combination of the reduction tree (R191) on elements with their events. -/
def redStep (t : Ty) (op : RedOp) (a b : Res) : Res :=
  let join := a.flags ||| b.flags
  if t.isInt then ⟨redInt t op a.bits b.bits, join⟩
  else match op with
    | .add => let r := faddElem (fmtOf t) .rne 0 a.bits b.bits; ⟨r.bits, join ||| r.flags⟩
    | .min => ⟨fminElem (fmtOf t) a.bits b.bits, join⟩
    | _ => ⟨fmaxElem (fmtOf t) a.bits b.bits, join⟩

/-- The identity of a reduction (R191). -/
def redId (t : Ty) (op : RedOp) : Nat :=
  if t.isInt then redIntId t op
  else match op with
    | .min => (fmtOf t).infBits
    | .max => (fmtOf t).infBits + (fmtOf t).sign true
    | _ => 0

/-- A lane's element as the tree takes it: every float result that is a NaN is the default NaN (R194), also where only one lane is
present. -/
def redLeaf (t : Ty) (bits : Nat) : Nat := if t.isInt then bits else if ((fmtOf t).read bits).isNan then (fmtOf t).nanBits else bits

/-- The reduction of vA over a set of lanes, element by element. -/
def Ex.reduce (x : Ex) (a : Nat) (t : Ty) (op : RedOp) (set : List Nat) : VRes :=
  vres t (fun e => (treeOf (redStep t op)
    ((List.range 32).map (fun i => if set.contains i then some ⟨redLeaf t (elemBits (x.v a i) t.bits e), 0⟩ else none))).getD ⟨redId t op, 0⟩)

/-- The latency of a reduction is that of its class (Table 8-1). -/
def execLred (c : Ctl) (d a : Nat) (t : Ty) (op : RedOp) (s : State) : Res1 :=
  pWord c { useABC c d a none none t.bits with lat := 8 } (fBody d (fun x _ => x.reduce a t op x.lanes)) s

/-- LSCAN (R191): lane L receives the tree over the executing lanes up to L, or below L with EXCL. -/
def execLscan (c : Ctl) (d a : Nat) (t : Ty) (op : RedOp) (excl : Bool) (s : State) : Res1 :=
  pWord c { useABC c d a none none t.bits with lat := 8 }
    (fBody d (fun x i => x.reduce a t op (x.lanes.filter (fun j => if excl then decide (j < i) else decide (j ≤ i))))) s

/-- LPERM (R190). -/
def execLperm (c : Ctl) (d a b : Nat) (t : Ty) (s : State) : Res1 :=
  pWord c { vr := a :: span b t.permRegs, vw := [d], lat := 8, hold := holdReg c (some a) (some b) none, ebits := 16, widths := [(PKind.vec, a, t.bits)] }
    (vBody d (fun x i => build t (fun e => x.at a t (permSlot ((span b t.permRegs).map (fun r => x.v r i)) e)))) s

/-- RDLANE (R192). -/
def execRdlane (c : Ctl) (d a b : Nat) (t : Ty) (s : State) : Res1 :=
  pWord c { vr := [a], sr := [b], sw := [d], lat := 8, hok := true, hold := holdReg c (some a) none none, ebits := t.bits, widths := [(PKind.scal, b, 64)] }
    (sBody d (fun x => BitVec.ofNat 64 (x.at a t (x.sc b).toNat))) s

/-- WRLANE (R192): one element of one lane, whatever that lane's state. -/
def execWrlane (c : Ctl) (d a b : Nat) (t : Ty) (s : State) : Res1 :=
  pWord c { sr := [a, b], vw := [d], lat := 8, hok := true }
    (waveBody (fun x w =>
      let i := leaLane (x.sc b).toNat
      w.setVreg d i (setElem (w.vreg d i) t (leaElem (x.sc b).toNat t.count) ((x.sc a).toNat % 2 ^ t.bits)))) s

end Sys2Proof.Machine
end

