-- ==== Sys2Proof/Machine/Scalar.lean ====
section
/-! DEFINITION. The scalar words (spec/10 R186, Table 10-3) and the pair words (spec/02 R36 to R38). -/
namespace Sys2Proof.Machine

/-- The use of a scalar word (R186). -/
def useS (d : Nat) (reads : List Nat) : Use := { sr := reads, sw := [d], lat := 3, hok := true }

/-- SMOV. -/
def execSmov (c : Ctl) (d a : Nat) (s : State) : Res1 := qWord c (useS d [a]) (sBody d (fun x => x.sc a)) s
/-- SMOVI. -/
def execSmovi (c : Ctl) (d : Nat) (imm : Int) (s : State) : Res1 := qWord c (useS d []) (sBody d (fun _ => moviVal imm)) s
/-- SMOVK, as MOVK (R178). -/
def execSmovk (c : Ctl) (d imm h : Nat) (s : State) : Res1 := qWord c (useS d [d]) (sBody d (fun x => movkVal (x.sc d) imm h)) s
/-- SADD. -/
def execSadd (c : Ctl) (d a b : Nat) (s : State) : Res1 := qWord c (useS d [a, b]) (sBody d (fun x => x.sc a + x.sc b)) s
/-- SSUB. -/
def execSsub (c : Ctl) (d a b : Nat) (s : State) : Res1 := qWord c (useS d [a, b]) (sBody d (fun x => x.sc a - x.sc b)) s
/-- SMUL. -/
def execSmul (c : Ctl) (d a b : Nat) (s : State) : Res1 := qWord c (useS d [a, b]) (sBody d (fun x => x.sc a * x.sc b)) s
/-- SMAD. -/
def execSmad (c : Ctl) (d a b e : Nat) (s : State) : Res1 :=
  qWord c (useS d [a, b, e]) (sBody d (fun x => x.sc a * x.sc b + x.sc e)) s
/-- SAND. -/
def execSand (c : Ctl) (d a b : Nat) (s : State) : Res1 := qWord c (useS d [a, b]) (sBody d (fun x => x.sc a &&& x.sc b)) s
/-- SOR. -/
def execSor (c : Ctl) (d a b : Nat) (s : State) : Res1 := qWord c (useS d [a, b]) (sBody d (fun x => x.sc a ||| x.sc b)) s
/-- SXOR. -/
def execSxor (c : Ctl) (d a b : Nat) (s : State) : Res1 := qWord c (useS d [a, b]) (sBody d (fun x => x.sc a ^^^ x.sc b)) s
/-- SSHL. -/
def execSshl (c : Ctl) (d a b : Nat) (s : State) : Res1 :=
  qWord c (useS d [a, b]) (sBody d (fun x => shlVal .s64 false (x.sc a) (x.sc b))) s
/-- SSHR. -/
def execSshr (c : Ctl) (d a b : Nat) (s : State) : Res1 :=
  qWord c (useS d [a, b]) (sBody d (fun x => shrVal .s64 false (x.sc a) (x.sc b))) s
/-- SSAR. -/
def execSsar (c : Ctl) (d a b : Nat) (s : State) : Res1 :=
  qWord c (useS d [a, b]) (sBody d (fun x => sarVal .s64 false (x.sc a) (x.sc b))) s
/-- SSETQ. -/
def execSsetq (c : Ctl) (d a b : Nat) (k : Cmp) (u : Bool) (s : State) : Res1 :=
  qWord c { sr := [a, b], qw := [d], lat := 3, hok := true }
    (waveBody (fun x w => w.setQpred d (compareInt k (scalarInt u (x.sc a)) (scalarInt u (x.sc b))))) s
/-- SMIN. -/
def execSmin (c : Ctl) (d a b : Nat) (u : Bool) (s : State) : Res1 :=
  qWord c (useS d [a, b]) (sBody d (fun x => if scalarInt u (x.sc b) < scalarInt u (x.sc a) then x.sc b else x.sc a)) s
/-- SMAX. -/
def execSmax (c : Ctl) (d a b : Nat) (u : Bool) (s : State) : Res1 :=
  qWord c (useS d [a, b]) (sBody d (fun x => if scalarInt u (x.sc a) < scalarInt u (x.sc b) then x.sc b else x.sc a)) s

/-! ### Pair words -/

/-- A half's vector registers. -/
def halfV (l : Half → List Nat) (h : Half) : List Nat := if h.op.scalar then [] else l h
/-- A half's scalar registers. -/
def halfS (l : Half → List Nat) (h : Half) : List Nat := if h.op.scalar then l h else []

/-- R38: two registers of a list, each counted once, share a bank. -/
def shareBank (l : List Nat) : Bool := !(l.dedup.map (fun r => r % 4)).Nodup

/-- R38: the pair breaks a bank rule. -/
def pairBadBank (h0 h1 : Half) : Bool :=
  shareBank (halfV halfReads h0 ++ halfV halfReads h1) ||
  (halfV halfWrites h0 ++ halfV halfWrites h1).length == 2 && decide (h0.d % 4 = h1.d % 4) ||
  (halfS halfWrites h0 ++ halfS halfWrites h1).length == 2 && decide (h0.d = h1.d)

/-- A half executes somewhere (R36): a scalar half where its G is true, a vector half in some active lane. -/
def halfRuns (h : Half) (w : Wave) (active : List Nat) : Bool := if h.op.scalar then w.qguard h.g else active.any (w.guardAt h.g)

/-- Some of the halves. -/
def halvesIf (a b : Bool) (h0 h1 : Half) : List Half := (if a then [h0] else []) ++ (if b then [h1] else [])

/-- The pair's registers; it is q-guarded when some scalar half's G is true (R39), which `q` says. A half that executes nowhere, as `a` and
`b` say, reads and writes nothing; its registers are named (R156). -/
def pairUse (h0 h1 : Half) (q a b : Bool) : Use :=
  let hs := halvesIf a b h0 h1
  { q := q, pair := true, badBank := pairBadBank h0 h1, ebits := 32,
    widths := hs.flatMap (fun h => ((halfS halfReads h).map (fun r => (.scal, r, 64))) ++
      (if h.op == .mov then (halfV halfReads h).map (fun r => (.vec, r, 64)) else [])),
    lats := ([h0, h1].filter (fun h => h.op != .nop)).map (fun h => (if h.op.scalar then .scal else .vec, h.d, halfLat h)),
    hok := (h0.op == .nop || h0.op.scalar) && (h1.op == .nop || h1.op.scalar),
    vr := hs.flatMap (halfV halfReads), vw := hs.flatMap (halfV halfWrites),
    sr := hs.flatMap (halfS halfReads), sw := hs.flatMap (halfS halfWrites),
    named := halfV halfReads h0 ++ halfV halfReads h1 ++ halfV halfWrites h0 ++ halfV halfWrites h1,
    pr := (if h0.op.scalar then [] else [h0.g.idx]) ++ (if h1.op.scalar then [] else [h1.g.idx]),
    qr := (if h0.op.scalar then [h0.g.idx] else []) ++ (if h1.op.scalar then [h1.g.idx] else []) }

/-- What the guards of a pair read. -/
def pairGuards (h0 h1 : Half) : Use := pairUse h0 h1 false false false

/-- A vector half in a lane: its result where the lane executes it (R36). -/
def halfLane (h : Half) (x : Ex) (i : Nat) : LaneRes :=
  if !h.op.scalar && h.op != .nop && x.w.guardAt h.g i then
    let r := halfVal h (x.v h.s i) (x.v h.x i) (x.v h.d i)
    { vw := [(h.d, r.val)], fl := r.fl }
  else {}

/-- A scalar half once for the wave. -/
def halfWave (h : Half) (x : Ex) (w : Wave) : Wave :=
  if h.op.scalar && x.w.qguard h.g then w.setSreg h.d (halfVal h (x.sc h.s) (x.sc h.x) 0).val else w

/-- The lanes of a pair: a half that is no scalar half counts, NOP halves too (R39). -/
def pairLanes (h0 h1 : Half) (w : Wave) (active : List Nat) : List Nat :=
  active.filter (fun i => (!h0.op.scalar && w.guardAt h0.g i) || (!h1.op.scalar && w.guardAt h1.g i))

/-- Both halves: they read what stood before the pair, and all writes take effect together (R36). -/
def pairBody (h0 h1 : Half) (x : Ex) : Out :=
  let one := fun (i : Nat) => let a := halfLane h0 x i; let b := halfLane h1 x i
    ({ vw := a.vw ++ b.vw, fl := a.fl ||| b.fl } : LaneRes)
  let rs := x.lanes.map (fun i => (i, one i))
  let w := (rs.foldl (fun v p => v.applyLane p.1 p.2) x.wave).setFlags (laneFlags (rs.map Prod.snd))
  .done (x.s.setWave (halfWave h1 x (halfWave h0 x w))) { count := some (pairLanes h0 h1 x.w x.lanes).length }

/-- Some scalar half's G is true. -/
def pairScalar (h0 h1 : Half) (w : Wave) : Bool := (h0.op.scalar && w.qguard h0.g) || (h1.op.scalar && w.qguard h1.g)

/-- A pair at the wave's issue address; `ill` says that it is no instruction (R39). -/
def issuePair (ill : Bool) (h0 h1 : Half) (c : Ctl) (s : State) (w : Wave) (pc : CodeAddr) : State :=
  let active := w.activeAt pc
  let g := s.view w (pairGuards h0 h1)
  let q := pairScalar h0 h1 g
  let u := { pairUse h0 h1 q (halfRuns h0 g active) (halfRuns h1 g active) with
    illegal := ill, counted := some (pairLanes h0 h1 g active).length }
  let lanes := if q then active else pairLanes h0 h1 g active
  let t := s.fetched w pc lanes
  match attempt u (pairBody h0 h1) t w pc active lanes false with
  | .zero => finish c u s w pc active [] {}
  | .fault cause addr l => faulted c u (t.dropWait w) w pc active cause addr l
  | .out (.hold s1 k) _ _ => held s1 w pc k
  | .out (.done s1 r) w1 _ => finish c u s1 w1 pc active (if q then active else lanes) r

/-- A pair of the wave at the focus, in its handler or at its issue address; `ill` says that it is no instruction (R39). -/
def pairStep (ill : Bool) (h0 h1 : Half) (stall1 : Bool) (s : State) : Res1 :=
  let c : Ctl := ⟨Guard.always, Guard.always, .none, false, stall1.toNat⟩
  .next (match s.wave? s.ctl.focus.core s.ctl.focus.slot with
    | none => s
    | some w => match w.hnd with
      | some h =>
        let g := s.view w (pairGuards h0 h1)
        let u := { pairUse h0 h1 (pairScalar h0 h1 g) (halfRuns h0 g [h.lane]) (halfRuns h1 g [h.lane]) with
          illegal := ill, hok := !ill && (pairGuards h0 h1).hok }
        let runs := pairScalar h0 h1 g || pairLanes h0 h1 g [h.lane] != []
        if h.svc then s else handlerWord { c with ga := ⟨!runs, 0⟩ } u (pairBody h0 h1) s w h
      | none => match w.ownPc with
        | none => s
        | some pc => issuePair ill h0 h1 c s w pc)

/-- R36: a pair is one instruction; STALL1 is its STALL. -/
def execPairWord (h0 h1 : Half) (stall1 : Bool) (s : State) : Res1 := pairStep false h0 h1 stall1 s

end Sys2Proof.Machine
end

