-- ==== Sys2Proof/Machine/Fetch.lean ====
section
/-! DEFINITION. Fetching the word a wave issues next (spec/13 R225, spec/03 R58) and what the issue becomes when the word is
no instruction (spec/02 R39, R40) or cannot be fetched. -/
namespace Sys2Proof.Machine

/-- The word that a core's L1 holds of a code address, where it is not the one at home: a launch that runs while its code is rewritten may
fetch it (R58, R226). -/
def State.oldWord (s : State) (core ma : Nat) : Option Word :=
  (s.l1Find core ma).bind (fun e =>
    let x := wordOfBytes ((e.2.drop (ma % 32)).take 8)
    if e.1 = (s.frame (mfnOf ma)).gen ∧ x ≠ wordOfBytes (s.readMem ma 8) then some x else none)

/-- Such a word is the one fetched (log 25). -/
def State.takesOld (s : State) : Bool := (s.free (2 ^ 19)).getLsbD 0

/-- R225: the word at a code address of a wave, or the fault of its fetch. A word behind the link comes from another device,
whose memory is not in this machine (log 16). -/
def State.fetch (s : State) (w : Wave) (pc : CodeAddr) : Except FetchCause Word :=
  match s.translate w.core w.tenant pc.toNat with
  | none => .error .tmiss
  | some e =>
    if e.attr &&& aEX ≠ aEX ∨ isProt e.attr then .error .perm
    else match e.loc pc.toNat with
      | .mem ma => if (s.frame (mfnOf ma)).owner = w.tenant then
          .ok (match s.oldWord w.core ma with
            | some x => if s.takesOld then x else wordOfBytes (s.readMem ma 8)
            | none => wordOfBytes (s.readMem ma 8))
        else .error .owner
      | .remote _ _ => if (s.port? w.tenant w.die).isSome then .ok (s.free 0) else .error .owner
      | .pad _ _ => .error .owner

/-- The address whose sector a fetch needs from its home slice: none where it faults, leaves the device, or the L1 serves it (R226). -/
def State.fetchFrom (s : State) (w : Wave) (pc : CodeAddr) : Option Nat :=
  match s.fetch w pc, s.translate w.core w.tenant pc.toNat with
  | .ok _, some e => match e.loc pc.toNat with
    | .mem ma => match s.oldWord w.core ma with
      | some _ => if s.takesOld then none else some ma
      | none => if (s.l1Find w.core ma).any (fun x => x.1 == (s.frame (mfnOf ma)).gen) then none else some ma
    | _ => none
  | _, _ => none

/-- What the fetch takes on its way: the tokens of a request to the home slice, or of one to another device and its flit (R249, R255, R257); the
wave waits where it finds none. -/
def State.fetchGoes (s : State) (w : Wave) (pc : CodeAddr) : Except State State :=
  match s.fetchFrom w pc with
  | some ma => s.request w.core w.tenant (ma / 32 * 32) (.fetch w.core w.slot pc.toNat)
  | none => match s.fetch w pc, (s.translate w.core w.tenant pc.toNat).map (fun e => e.loc pc.toNat) with
    | .ok _, some (Loc.remote dev ma) =>
      match s.takeStops w.tenant (s.stopsOut w.core w.tenant ma) with
      | some t => .ok (t.sendFlit w.tenant w.die 0 [dev, ma]).1
      | none => .error s
    | _, _ => .ok s

/-- What a fetch leaves in the caches: its translation (R222), and the sector of a word that the L1 did not serve, in the L1 and at the home
slice (R226, R245; Table 13-1). -/
def State.fetchFills (s : State) (w : Wave) (pc : CodeAddr) : State :=
  match s.fetch w pc, s.translate w.core w.tenant pc.toNat with
  | .ok _, some e =>
    let s1 := s.cacheTlb w.core w.tenant e
    let s2 := match s.fetchFrom w pc with
      | some ma => (s1.l2Access ma 0 false none).l1Fill w.core ma 0
      | none => s1
    match e.loc pc.toNat with
    | .mem ma => if (s.oldWord w.core ma).isSome then s2.tickFresh else s2
    | _ => s2
  | _, _ => s

/-- The trap cause of a fetch fault. -/
def fetchCause : FetchCause → Nat
  | .tmiss => cTMISS
  | .perm => cPERM
  | .owner => cOWNER

/-- INSTRUCTION_FETCH_FAULT (R225): every lane whose PC is the issue address parks; in the handler the fault is nested (R339). -/
def execInstructionFetchFault (k : FetchCause) (s : State) : Res1 :=
  .next (match s.wave? s.ctl.focus.core s.ctl.focus.slot with
    | none => s
    | some w => match w.nextPc with
      | none => s
      | some pc => match s.fetch w pc with
        | .ok _ => s
        | .error k' =>
          if k ≠ k' then s
          else match w.hnd with
            | some _ => s.trapped w.launch pc (fetchCause k)
            | none => turnedAway (s.dropWait w) w ((w.activeAt pc).map (fun i => (i, fetchCause k, pc.setWidth 64))))

/-- The opcodes with q guards (Table 2-14). -/
def qOpcode (n : Nat) : Bool :=
  (0x060 ≤ n && n ≤ 0x06F) || (0x0B0 ≤ n && n ≤ 0x0B8) || [0x013, 0x014, 0x020, 0x021, 0x022, 0x025].contains n

/-- RESERVED_ENCODING (R39, R40): ILLEGAL in every lane that would execute the word; a reserved opcode is read with p guards. -/
def execReservedEncoding (x : Word) (s : State) : Res1 :=
  match decode x with
  | .ok _ => .next s
  | .error _ =>
    let n := x.toNat
    if n / 2 ^ 63 = 1 then pairStep true (.ofWord (n / 2 ^ 32)) (.ofWord (n / 2)) (n % 2 == 1) s
    else
      let f := Fields.ofWord n
      word f.ctl { q := qOpcode f.opc, illegal := true } nothingDone s
where
  /-- No effect. -/
  nothingDone (x : Ex) : Out := .done x.s {}

end Sys2Proof.Machine
end

