-- ==== Sys2Proof/Machine/Power.lean ====
section
/-! DEFINITION. Power-on, readiness, failures and heat (spec/27 R390 to R393). -/
namespace Sys2Proof.Machine

/-- The functions of a die (Table 27-2): its Bishop and cores, its two HBM stacks, its link port, and on die 0 the host link. -/
def functionsOf (die : Nat) : List Nat := [1 + die, 9 + 2 * die, 10 + 2 * die, 25 + die] ++ (if die = 0 then [0] else [])

/-- The die of a function; the keys are served by whichever die started. -/
def functionDie (i : Nat) : Option Nat :=
  if i = 0 then some 0 else if i < 9 then some (i - 1) else if i < 25 then some ((i - 9) / 2) else if i < 33 then some (i - 25) else none

/-- COUNT of a function (Table 27-2): of a die's cores those that work, Bishop's included; of the others what their training found. -/
def State.unitCount (s : State) (i count : Nat) : Nat :=
  if 1 ≤ i ∧ i ≤ 8 then ((List.range 192).filter (fun j => s.coreWorks (192 * (i - 1) + j))).length else count

/-- A readiness word (Table 27-1). -/
def readyWord (ready fail : Bool) (count us : Nat) : Word :=
  BitVec.ofNat 64 (fieldAt 63 ready.toNat + fieldAt 62 fail.toNat + fieldAt 32 (count % 2 ^ 16) + us % 2 ^ 32)

/-- A readiness word written. -/
def State.setReady (s : State) (i : Nat) (v : Word) : State := s.setDev { s.dev with readiness := cellSet 0 s.dev.readiness i v }

/-- A host event for every tenant that a predicate picks, each with a record of its own (log 23). -/
def State.eventAll (s : State) (p : Tenant → Bool) (f : State → Nat → State) : State :=
  ((s.tasks.tenants.filter p).map Tenant.id).foldl f s

/-- The tenant holds a core or a frame of a die. -/
def Tenant.onDie (t : Tenant) (die : Nat) : Bool := t.diePlaces.any (fun p => p.2 == die)

/-- The machine with power just applied; the agenda, the focus and the count of free values are the model's own. -/
def State.fresh (s : State) : State :=
  State.reset.setCtl { Control.reset with agenda := s.ctl.agenda, focus := s.ctl.focus, fresh := s.ctl.fresh }

/-- FAIL set on a function (R392): with its TREADY; KIND 7 for every tenant. -/
def State.fail (s : State) (i : Nat) : State :=
  let s1 := s.setReady i (readyWord false true (bits (cellGet 0 s.dev.readiness i : Word).toNat 47 32) s.us)
  s1.eventAll (fun _ => true) (fun u t => u.hostEvent t 7 (BitVec.ofNat 64 i))

/-- POWER_ON (R390): each die checks its flash; one whose check fails starts no Bishop and its functions report FAIL. Once per power-on. What
the image carries comes from its dies (log 59). -/
def execPowerOn (img : BootImage) (s : State) : Res1 :=
  .next (if s.ctl.power ∧ (s.ctl.booted ≠ [] ∨ s.dev.readiness ≠ []) then s
    else
      let s0 := s.fresh
      let good := (List.range 8).filter (fun d => img.dieOk.getD d false)
      let bad := (List.range 8).filter (fun d => !good.contains d)
      let s1 := (s0.setCtl { s0.ctl with booted := good }).setMem { s0.mem with
        failedBridges := img.failedBridges, spareBridges := sparesOf img.failedBridges img.spareBridges }
      let s2 := s1.setDev { s1.dev with
        devid := img.devid % 1024, badCores := img.badCores, badBanks := img.badBanks, claimBishop := img.claim,
        pufOk := img.pufOk && good != [], puf := img.puf, hbmTraining := img.hbmTraining, thermal := img.thermal }
      (bad.flatMap functionsOf).foldl State.fail s2)

/-- FUNCTION_READY (R391): a function of a started die, neither ready nor failed, becomes ready; with no working unit it fails. The
keys never become ready where the PUF correction failed (R377). -/
def execFunctionReady (i count : Nat) (s : State) : Res1 :=
  .next (
    let started := match functionDie i with
      | some d => s.ctl.booted.contains d
      | none => s.dev.pufOk
    if 34 ≤ i ∨ !started ∨ s.isReady i ∨ s.hasFailed i then s
    else if s.unitCount i count = 0 then s.fail i
    else s.setReady i (readyWord true false (s.unitCount i count) s.us))

/-- FUNCTION_FAIL (R392): a ready function fails; a link port writes a KIND 4 event too. -/
def execFunctionFail (i : Nat) (s : State) : Res1 :=
  .next (if !s.isReady i then s
    else
      let s1 := s.fail i
      if 25 ≤ i ∧ i < 33 then s1.eventAll (fun _ => true) (fun u t => u.hostEventFree t 4) else s1)

/-- The arithmetic clock of a die in MHz. -/
def State.clockOf (s : State) (die : Nat) : Nat := cellGet 1300 s.dev.clockMHz die

/-- THERMAL_STEP (R393): a step of 100 MHz down, to 700 at least, or up again; each writes a KIND 3 event. -/
def execThermalStep (die : Nat) (up : Bool) (s : State) : Res1 :=
  .next (
    let c := s.clockOf die
    if (up ∧ 1300 ≤ c) ∨ (!up ∧ c ≤ 700) then s
    else (s.setDev { s.dev with clockMHz := cellSet 1300 s.dev.clockMHz die (if up then c + 100 else c - 100) }).eventAll
      (fun t => t.onDie die) (fun u t => u.hostEventFree t 3))

/-- THERMAL_STOP (R393): the die's cores stop by force, and its cores' function fails. -/
def execThermalStop (die : Nat) (s : State) : Res1 :=
  .next (
    let here := s.cores.ctxs.filter (fun c => c.core / 192 == die)
    let s1 := here.foldl (fun u c => u.stop c.launch [c.place] true) s
    if s1.hasFailed (1 + die) then s1
    else (s1.eventAll (fun t => t.onDie die) (fun u t => u.hostEventFree t 3)).fail (1 + die))

/-- POWER_OFF (R390): all state is lost. -/
def execPowerOff (s : State) : Res1 := .next (let s0 := s.fresh; s0.setCtl { s0.ctl with power := false })

end Sys2Proof.Machine
end

