-- ==== Sys2Proof/Machine/Rings.lean ====
section
/-! DEFINITION. Stage rings (spec/16 R275, R276). -/
namespace Sys2Proof.Machine

/-- The address a RANGE of a ring word records (R275). -/
def ringAddr (ring stage : Nat) : Word := BitVec.ofNat 64 (2 ^ 62 + 16 * stage + ring)

/-- The ring is undeclared, or the stage is not below its count (R275). -/
def ringBad (l : Launch) (ring stage : Nat) : Bool := !l.ringv.testBit ring || decide (l.ringsz ring < stage)

/-- The phases of a ring on a core, a bit a stage. -/
def Ctx.ring (c : Ctx) (ring : Nat) : Nat := cellGet 0 c.rings ring

/-- SRARV (R275, R276): held until the four counts are 0; then it flips the phase, a release at core scope. -/
def execSrarv (c : Ctl) (ring a : Nat) (s : State) : Res1 :=
  pWord c { roles := [0, 1, 2], sr := [a] } (fun x =>
    let w := x.wave
    let stage := (x.sc a).toNat % 16
    if ringBad x.l ring stage then faultAll x cRANGE (ringAddr ring stage)
    else if !w.drained then .hold x.s .ring
    else
      let k := x.s.ctx w.launch w.core
      .done (x.s.setCtx { k with rings := cellSet 0 k.rings ring (k.ring ring ^^^ 2 ^ stage) }) {}) s

/-- SRWT (R275, R276): held until the stage has the phase; an acquire at core scope. -/
def execSrwt (c : Ctl) (ring a : Nat) (ph : Bool) (s : State) : Res1 :=
  pWord c { roles := [0, 1, 2], sr := [a] } (fun x =>
    let w := x.wave
    let stage := (x.sc a).toNat % 16
    if ringBad x.l ring stage then faultAll x cRANGE (ringAddr ring stage)
    else if ((x.s.ctx w.launch w.core).ring ring).testBit stage != ph then .hold x.s .ring
    else .done (x.s.acquire w.core 1) {}) s

end Sys2Proof.Machine
end

