-- ==== Sys2Proof/Machine/Turns.lean ====
section
/-! DEFINITION. Admission, dispatch and restore (spec/04 R71, spec/05 R85 to R87; spec/21 R351; spec/23 R362): the turn of a launch among
its tenant's, and what takes it onto its cores. -/
namespace Sys2Proof.Machine

/-! ### The turn of a launch (R85, R86, R351) -/

/-- The core places of a launch as far as they are known: those of its wave table, or before it is read those that WPC and CBASE give (R61). -/
def Launch.knownPlaces (l : Launch) : List Nat :=
  if l.wavesRead then placesAt l.waves
  else if l.wpc = 0 then []
  else (List.range ((l.nwave + l.wpc - 1) / l.wpc)).map (fun i => l.cbase + i)

/-- A launch parked on service waits and wholly saved that may come back, or that is coming back (R351): it is readmitted by R85. -/
def State.returning (s : State) (l : Launch) : Bool :=
  l.parkedOff && l.stoppable && l.images != [] && !s.tasks.stops.any (fun r => r.launch == l.uid) &&
  (!(s.residentPlaces l.uid).isEmpty || !s.shareAbove l)

/-- Images of another launch are still to come back onto the core, others being back: all of its waves return, or none (R85). -/
def State.awaited (s : State) (l : Launch) (core : Nat) : Bool :=
  s.tasks.launches.any (fun k => k.uid != l.uid && s.returning k && !(s.residentPlaces k.uid).isEmpty &&
    k.images.any (fun i => s.coreOf k.tenant i.place == some core))

/-- A reservation of a higher level of the same tenant names the core (R86), or a launch on its way back needs it. -/
def State.reservedFor (s : State) (l : Launch) (core : Nat) : Bool :=
  s.awaited l core ||
  s.tasks.launches.any (fun k => k.tenant == l.tenant && k.reserving && decide (l.prio < k.prio) && k.uid != l.uid &&
    k.knownPlaces.any (fun p => s.coreOf l.tenant p == some core))

/-- The launch fits on its cores now (R85 to R87). -/
def State.fitsNow (s : State) (l : Launch) : Bool :=
  (placesAt l.waves).all (fun p => match s.coreOf l.tenant p with
    | none => false
    | some c => s.coreUsable l.tenant c && s.banksFree l p c && !s.reservedFor l c && decide (wavesAt l.waves p ≤ s.slotsFree c))

/-- The saved images of a launch fit on their cores now (R85, R86, R362). -/
def State.imagesFit (s : State) (l : Launch) : Bool :=
  l.images.all (fun i => match s.coreOf l.tenant i.place with
    | none => false
    | some c => !s.reservedFor l c && decide (i.waves.length ≤ s.slotsFree c) && (s.imageFits l i c).isSome)

/-- An eligible launch that waits for admission or for what must come before it, KEYWAIT apart (R85, R370), or to be readmitted (R351). -/
def State.inLine (s : State) (l : Launch) : Bool :=
  s.returning l || (l.eligibleAt.isSome && l.endInfo.isNone && l.waiting && (match l.phase with
    | .keywait _ => false
    | _ => true))

/-- A launch in line could be taken now; one whose tables have not been read is looked at first. -/
def State.couldGo (s : State) (l : Launch) : Bool :=
  if s.returning l then s.imagesFit l else l.phase == .ready && (!l.wavesRead || s.fitsNow l)

/-- No launch of the tenant comes before this one (R85): none earlier of its level in line, none of a higher level that could be
admitted. -/
def State.turn (s : State) (l : Launch) : Bool :=
  let ks := s.tasks.launches.filter (fun k => k.tenant == l.tenant && k.uid != l.uid && s.inLine k)
  ks.all (fun k => !(k.prio == l.prio && decide (k.uid < l.uid))) &&
  ks.all (fun k => !(decide (l.prio < k.prio) && s.couldGo k && !(ks.any (fun j => j.prio == k.prio && decide (j.uid < k.uid)))))

/-! ### Dispatch (R71) -/

/-- The slots chosen for the waves are free and distinct on each core. -/
def State.slotsOk (s : State) (l : Launch) (slots : List Nat) : Bool :=
  let ps := (l.waves.zip slots).map (fun p => (s.coreOf l.tenant p.1.core, p.2))
  slots.length == l.waves.length && ps.dedup.length == ps.length &&
  ps.all (fun p => decide (p.2 < 48) && (match p.1 with
    | some c => (s.wave? c p.2).isNone
    | none => false))

/-- A wave as it is dispatched (R71). -/
def State.newWave (s : State) (l : Launch) (n : Nat) (e : WaveEntry) (core slot : Nat) : Wave :=
  { Wave.blank with
    core := core, slot := slot, launch := l.uid, tenant := l.tenant, wid := n, corepl := e.core, diepl := s.diePlace l.tenant core,
    mode := e.rtmode.toNat, role := e.role, lanes := List.replicate 32 ⟨.ready, BitVec.ofNat 48 l.entry, 0, false⟩,
    base := l.basereg, sregs := (List.range 16).foldl (fun c i => cellSet 0 c i (l.arg i)) [],
    groups := e.groups.map (fun g => ⟨g, false, 0⟩), nextIssue := s.ctl.cycle, bornAt := s.ctl.cycle }

/-- Every wave of a launch dispatched (R71, R85); the dispatch is an acquire for its cores (R58, R88). -/
def State.dispatchWaves (s : State) (l : Launch) (slots : List Nat) : State :=
  let here := (l.waves.zip slots).mapIdx (fun n p => (n, p.1, (s.coreOf l.tenant p.1.core).getD 0, p.2))
  let ctxs := (placesAt l.waves).map (fun p => Ctx.fresh l.uid ((s.coreOf l.tenant p).getD 0) p)
  let s1 := { s with cores := { s.cores with
    waves := s.cores.waves ++ here.map (fun p => s.newWave l p.1 p.2.1 p.2.2.1 p.2.2.2), ctxs := s.cores.ctxs ++ ctxs } }
  ctxs.foldl (fun t c => t.l1DropLines c.core (fun _ => true)) s1

/-- LAUNCH_ADMITTED (R85): when the launch's turn has come, its tables are read word by word (R70) and checked (R69); it keeps them. When it
fits, all its waves are dispatched into the slots that the cores chose. -/
def execLaunchAdmitted (uid : Nat) (slots : List Nat) (save : Nat) (s : State) : Res1 :=
  .next (
    let l := s.launch uid
    if l.phase ≠ .ready ∨ l.endInfo.isSome ∨ (s.tenant l.tenant).suspended ∨ !s.turn l then s
    else if !l.wavesRead then
      (if !l.tablesIn then s.setLaunch (s.readTable l)
      else match s.tablePass l with
        | .error n => s.endLaunch uid ⟨1, n, 0⟩
        | .ok t => s.setLaunch (l.withTables t))
    else if s.fitsNow l ∧ s.slotsOk l slots ∧ s.saveOk save (placesAt l.waves).length then
      (s.setLaunch { l with
        phase := .running, reserving := false, saveArea := save,
        tstart := if l.tstart = 0 then s.time l.tenant else l.tstart }).dispatchWaves l slots
    else s)

/-- RESERVATION_TIMEOUT (R86). -/
def execReservationTimeout (uid : Nat) (s : State) : Res1 :=
  .next (
    let l := s.launch uid
    let lim := (s.tenant l.tenant).reslim
    if l.phase = .ready ∧ lim ≠ 0 ∧ l.readySince.any (fun e => decide (1000 * lim < s.elapsed l.tenant e)) then
      s.setLaunch { l with reserving := true } else s)

/-! ### Restoring (R362) -/

/-- A saved launch may come back onto a core now: one parked on service waits in its turn, when all that is saved of it fits (R85, R86,
R351). -/
def State.mayReturn (s : State) (l : Launch) (core : Nat) : Bool :=
  !s.awaited l core && (!l.parkedOff || (s.returning l && s.turn l && s.imagesFit l))

/-- CASTLE_RESTORE (R362): one core image, onto the core that its place maps to, into the slots chosen. -/
def execCastleRestore (uid place : Nat) (slots : List Nat) (s : State) : Res1 :=
  .next (
    let l := s.launch uid
    match l.images.find? (fun i => i.place == place), s.coreOf l.tenant place with
    | some i, some core =>
      if !l.stoppable ∨ (s.tenant l.tenant).suspended ∨ !s.mayReturn l core then s
      else match s.restoreFits l i core slots with
        | none => s
        | some rs =>
          let c := { i.ctx with
            core := core, place := place, resv := rs, handles := placeBanks ((List.range 32).filter (fun b => l.bankCode b == 3)) i.ctx.handles }
          let left := l.images.filter (fun j => j.place != place)
          let s1 := s.setLaunch { l with
            images := left, migrated := l.migrated || i.fromCore != core, parkedOff := l.parkedOff && left != [],
            awaits := if left = [] then [] else l.awaits }
          let s2 := { s1 with cores := { s1.cores with
            waves := s1.cores.waves ++ (i.waves.zip slots).map (fun (p : Wave × Nat) => s.backWave core p.2 p.1), ctxs := s1.cores.ctxs ++ [c] } }
          s2.acquire core 5
    | _, _ => s)

end Sys2Proof.Machine
end

