-- ==== Sys2Proof/Machine/Dispatch.lean ====
section
/-! DEFINITION. The dispatch of the meanings: one arm for each constructor of `Instr`. -/
namespace Sys2Proof.Machine

/-- What an instruction, or an event, does. -/
def exec (i : Instr) (s : State) : Host.Outcome State Fault Refusal :=
  match i with
  | .nop c => Sys2Proof.Machine.execNop c s
  | .bra c off h => Sys2Proof.Machine.execBra c off h s
  | .brx c a => Sys2Proof.Machine.execBrx c a s
  | .call c off h => Sys2Proof.Machine.execCall c off h s
  | .ret c => Sys2Proof.Machine.execRet c s
  | .brau c off h => Sys2Proof.Machine.execBrau c off h s
  | .rcv c => Sys2Proof.Machine.execRcv c s
  | .exit c => Sys2Proof.Machine.execExit c s
  | .yield c => Sys2Proof.Machine.execYield c s
  | .wait c ld st cp tl => Sys2Proof.Machine.execWait c ld st cp tl s
  | .sleep c n => Sys2Proof.Machine.execSleep c n s
  | .phint c imm => Sys2Proof.Machine.execPhint c imm s
  | .vote c d pa k => Sys2Proof.Machine.execVote c d pa k s
  | .elect c d => Sys2Proof.Machine.execElect c d s
  | .mfs c d n => Sys2Proof.Machine.execMfs c d n s
  | .mts c a n => Sys2Proof.Machine.execMts c a n s
  | .launch c d a => Sys2Proof.Machine.execLaunch c d a s
  | .trap c code => Sys2Proof.Machine.execTrap c code s
  | .svc c d a cls code => Sys2Proof.Machine.execSvc c d a cls code s
  | .svcrep c d a b => Sys2Proof.Machine.execSvcrep c d a b s
  | .rte c a => Sys2Proof.Machine.execRte c a s
  | .bkpt c code => Sys2Proof.Machine.execBkpt c code s
  | .rand c d => Sys2Proof.Machine.execRand c d s
  | .perfrd c d n => Sys2Proof.Machine.execPerfrd c d n s
  | .acqx c d n => Sys2Proof.Machine.execAcqx c d n s
  | .relx c d n => Sys2Proof.Machine.execRelx c d n s
  | .rcpdef c d a id idx => Sys2Proof.Machine.execRcpdef c d a id idx s
  | .rcptag c d id => Sys2Proof.Machine.execRcptag c d id s
  | .rcpclr c a n => Sys2Proof.Machine.execRcpclr c a n s
  | .rcpq c d a => Sys2Proof.Machine.execRcpq c d a s
  | .mov c d a => Sys2Proof.Machine.execMov c d a s
  | .movi c d imm => Sys2Proof.Machine.execMovi c d imm s
  | .movk c d imm h => Sys2Proof.Machine.execMovk c d imm h s
  | .sel c d a b pc => Sys2Proof.Machine.execSel c d a b pc s
  | .iadd c d a b t sat => Sys2Proof.Machine.execIadd c d a b t sat s
  | .isub c d a b t sat => Sys2Proof.Machine.execIsub c d a b t sat s
  | .imul c d a b t sat => Sys2Proof.Machine.execImul c d a b t sat s
  | .imulh c d a b t => Sys2Proof.Machine.execImulh c d a b t s
  | .imad c d a b e t sat => Sys2Proof.Machine.execImad c d a b e t sat s
  | .imin c d a b t => Sys2Proof.Machine.execImin c d a b t s
  | .imax c d a b t => Sys2Proof.Machine.execImax c d a b t s
  | .iabs c d a t sat => Sys2Proof.Machine.execIabs c d a t sat s
  | .ineg c d a t sat => Sys2Proof.Machine.execIneg c d a t sat s
  | .and c d a b => Sys2Proof.Machine.execAnd c d a b s
  | .or c d a b => Sys2Proof.Machine.execOr c d a b s
  | .xor c d a b => Sys2Proof.Machine.execXor c d a b s
  | .not c d a => Sys2Proof.Machine.execNot c d a s
  | .shl c d a b t uni => Sys2Proof.Machine.execShl c d a b t uni s
  | .shr c d a b t uni => Sys2Proof.Machine.execShr c d a b t uni s
  | .sar c d a b t uni => Sys2Proof.Machine.execSar c d a b t uni s
  | .rot c d a b t uni => Sys2Proof.Machine.execRot c d a b t uni s
  | .bfx c d a b t => Sys2Proof.Machine.execBfx c d a b t s
  | .bfi c d a b e => Sys2Proof.Machine.execBfi c d a b e s
  | .popc c d a t => Sys2Proof.Machine.execPopc c d a t s
  | .clz c d a t => Sys2Proof.Machine.execClz c d a t s
  | .brev c d a t => Sys2Proof.Machine.execBrev c d a t s
  | .lea c d a b t sh => Sys2Proof.Machine.execLea c d a b t sh s
  | .isetp c d a b t k any => Sys2Proof.Machine.execIsetp c d a b t k any s
  | .iaddi c d a imm => Sys2Proof.Machine.execIaddi c d a imm s
  | .idot c d a b e ta tb sat => Sys2Proof.Machine.execIdot c d a b e ta tb sat s
  | .plop c d pa pb lut => Sys2Proof.Machine.execPlop c d pa pb lut s
  | .lshf c d a b k => Sys2Proof.Machine.execLshf c d a b k s
  | .lbcast c d a b t => Sys2Proof.Machine.execLbcast c d a b t s
  | .lred c d a t op => Sys2Proof.Machine.execLred c d a t op s
  | .lscan c d a t op excl => Sys2Proof.Machine.execLscan c d a t op excl s
  | .lperm c d a b t => Sys2Proof.Machine.execLperm c d a b t s
  | .rdlane c d a b t => Sys2Proof.Machine.execRdlane c d a b t s
  | .wrlane c d a b t => Sys2Proof.Machine.execWrlane c d a b t s
  | .smov c d a => Sys2Proof.Machine.execSmov c d a s
  | .smovi c d imm => Sys2Proof.Machine.execSmovi c d imm s
  | .smovk c d imm h => Sys2Proof.Machine.execSmovk c d imm h s
  | .sadd c d a b => Sys2Proof.Machine.execSadd c d a b s
  | .ssub c d a b => Sys2Proof.Machine.execSsub c d a b s
  | .smul c d a b => Sys2Proof.Machine.execSmul c d a b s
  | .smad c d a b e => Sys2Proof.Machine.execSmad c d a b e s
  | .sand c d a b => Sys2Proof.Machine.execSand c d a b s
  | .sor c d a b => Sys2Proof.Machine.execSor c d a b s
  | .sxor c d a b => Sys2Proof.Machine.execSxor c d a b s
  | .sshl c d a b => Sys2Proof.Machine.execSshl c d a b s
  | .sshr c d a b => Sys2Proof.Machine.execSshr c d a b s
  | .ssar c d a b => Sys2Proof.Machine.execSsar c d a b s
  | .ssetq c d a b k u => Sys2Proof.Machine.execSsetq c d a b k u s
  | .smin c d a b u => Sys2Proof.Machine.execSmin c d a b u s
  | .smax c d a b u => Sys2Proof.Machine.execSmax c d a b u s
  | .fadd c d a b t r => Sys2Proof.Machine.execFadd c d a b t r s
  | .fsub c d a b t r => Sys2Proof.Machine.execFsub c d a b t r s
  | .fmul c d a b t r => Sys2Proof.Machine.execFmul c d a b t r s
  | .ffma c d a b e t r => Sys2Proof.Machine.execFfma c d a b e t r s
  | .fmin c d a b t => Sys2Proof.Machine.execFmin c d a b t s
  | .fmax c d a b t => Sys2Proof.Machine.execFmax c d a b t s
  | .fsetp c d a b t k any => Sys2Proof.Machine.execFsetp c d a b t k any s
  | .fcvt c d a td ts r => Sys2Proof.Machine.execFcvt c d a td ts r s
  | .frnd c d a t r => Sys2Proof.Machine.execFrnd c d a t r s
  | .i2f c d a td ts r => Sys2Proof.Machine.execI2f c d a td ts r s
  | .f2i c d a td ts r => Sys2Proof.Machine.execF2i c d a td ts r s
  | .frcp c d a t r => Sys2Proof.Machine.execFrcp c d a t r s
  | .frsq c d a t => Sys2Proof.Machine.execFrsq c d a t s
  | .fsqrt c d a t r => Sys2Proof.Machine.execFsqrt c d a t r s
  | .fexp2 c d a t => Sys2Proof.Machine.execFexp2 c d a t s
  | .fexp2Fs c d a b e t => Sys2Proof.Machine.execFexp2Fs c d a b e t s
  | .flog2 c d a t => Sys2Proof.Machine.execFlog2 c d a t s
  | .fsin c d a t => Sys2Proof.Machine.execFsin c d a t s
  | .fcos c d a t => Sys2Proof.Machine.execFcos c d a t s
  | .ftanh c d a t => Sys2Proof.Machine.execFtanh c d a t s
  | .fdot c d a b e ta tb r => Sys2Proof.Machine.execFdot c d a b e ta tb r s
  | .fclass c d a t => Sys2Proof.Machine.execFclass c d a t s
  | .fscale c d a b t r => Sys2Proof.Machine.execFscale c d a b t r s
  | .ldg c d a off w o sc ev => Sys2Proof.Machine.execLdg c d a off w o sc ev s
  | .stg c d a off w o sc ev => Sys2Proof.Machine.execStg c d a off w o sc ev s
  | .ldp c d a off w o sc => Sys2Proof.Machine.execLdp c d a off w o sc s
  | .stp c d a off w o sc => Sys2Proof.Machine.execStp c d a off w o sc s
  | .ldk c d a off w ev => Sys2Proof.Machine.execLdk c d a off w ev s
  | .pref c a off ev => Sys2Proof.Machine.execPref c a off ev s
  | .cinv c a off => Sys2Proof.Machine.execCinv c a off s
  | .pqry c d a => Sys2Proof.Machine.execPqry c d a s
  | .fence c o sc => Sys2Proof.Machine.execFence c o sc s
  | .atom c d a b e op o sc w => Sys2Proof.Machine.execAtom c d a b e op o sc w s
  | .atomp c d a b e op o sc w => Sys2Proof.Machine.execAtomp c d a b e op o sc w s
  | .red c a b op o sc w => Sys2Proof.Machine.execRed c a b op o sc w s
  | .hgath c d a b o sc ev => Sys2Proof.Machine.execHgath c d a b o sc ev s
  | .tbld c d a b e arr way => Sys2Proof.Machine.execTbld c d a b e arr way s
  | .tbrd c d a arr way => Sys2Proof.Machine.execTbrd c d a arr way s
  | .tbinv c d a arr all => Sys2Proof.Machine.execTbinv c d a arr all s
  | .frq c d a => Sys2Proof.Machine.execFrq c d a s
  | .bndq c d a => Sys2Proof.Machine.execBndq c d a s
  | .revack c d a b => Sys2Proof.Machine.execRevack c d a b s
  | .lossack c d a => Sys2Proof.Machine.execLossack c d a s
  | .rtq c d a => Sys2Proof.Machine.execRtq c d a s
  | .rtinv c d a b => Sys2Proof.Machine.execRtinv c d a b s
  | .cpy c a b e dp sp q => Sys2Proof.Machine.execCpy c a b e dp sp q s
  | .cpyx c a b e dp sp q => Sys2Proof.Machine.execCpyx c a b e dp sp q s
  | .cpym c a b e dp q => Sys2Proof.Machine.execCpym c a b e dp q s
  | .cpyd c a b e dp sp q => Sys2Proof.Machine.execCpyd c a b e dp sp q s
  | .srarv c ring a => Sys2Proof.Machine.execSrarv c ring a s
  | .srwt c ring a ph => Sys2Proof.Machine.execSrwt c ring a ph s
  | .obres c d a => Sys2Proof.Machine.execObres c d a s
  | .obrel c d a => Sys2Proof.Machine.execObrel c d a s
  | .obld c a b => Sys2Proof.Machine.execObld c a b s
  | .acca c d a b => Sys2Proof.Machine.execAcca c d a b s
  | .accf c d a => Sys2Proof.Machine.execAccf c d a s
  | .accz c a b => Sys2Proof.Machine.execAccz c a b s
  | .mma c a => Sys2Proof.Machine.execMma c a s
  | .mmas c a => Sys2Proof.Machine.execMmas c a s
  | .accrd c d a => Sys2Proof.Machine.execAccrd c d a s
  | .accwr c d a => Sys2Proof.Machine.execAccwr c d a s
  | .drain c a => Sys2Proof.Machine.execDrain c a s
  | .bar c g => Sys2Proof.Machine.execBar c g s
  | .bara c g => Sys2Proof.Machine.execBara c g s
  | .barw c g => Sys2Proof.Machine.execBarw c g s
  | .grpq c d a => Sys2Proof.Machine.execGrpq c d a s
  | .chsend c ch a => Sys2Proof.Machine.execChsend c ch a s
  | .chrecv c d ch => Sys2Proof.Machine.execChrecv c d ch s
  | .chq c d ch item => Sys2Proof.Machine.execChq c d ch item s
  | .pairWord h0 h1 stall1 => Sys2Proof.Machine.execPairWord h0 h1 stall1 s
  | .readyWordStore t slot value => Sys2Proof.Machine.execReadyWordStore t slot value s
  | .pendingSlotQueued t => Sys2Proof.Machine.execPendingSlotQueued t s
  | .keyUnsealDone slot => Sys2Proof.Machine.execKeyUnsealDone slot s
  | .keywaitTimeout l => Sys2Proof.Machine.execKeywaitTimeout l s
  | .reuseLookup l => Sys2Proof.Machine.execReuseLookup l s
  | .digestCacheFill l region => Sys2Proof.Machine.execDigestCacheFill l region s
  | .reuseHitCopyDone l => Sys2Proof.Machine.execReuseHitCopyDone l s
  | .launchAdmitted l slots save => Sys2Proof.Machine.execLaunchAdmitted l slots save s
  | .reservationTimeout l => Sys2Proof.Machine.execReservationTimeout l s
  | .launchRetire l killed => Sys2Proof.Machine.execLaunchRetire l killed s
  | .completionRecordWrite t => Sys2Proof.Machine.execCompletionRecordWrite t s
  | .eventRecordWrite t => Sys2Proof.Machine.execEventRecordWrite t s
  | .completionInterruptTimer t => Sys2Proof.Machine.execCompletionInterruptTimer t s
  | .vfRegisterWrite t r v => Sys2Proof.Machine.execVfRegisterWrite t r v s
  | .functionLevelReset t => Sys2Proof.Machine.execFunctionLevelReset t s
  | .cxlMemRead ma => Sys2Proof.Machine.execCxlMemRead ma s
  | .cxlMemWrite ma data => Sys2Proof.Machine.execCxlMemWrite ma data s
  | .serviceBatchComplete t cls slot => Sys2Proof.Machine.execServiceBatchComplete t cls slot s
  | .class1Service t slot => Sys2Proof.Machine.execClass1Service t slot s
  | .upcallPost t => Sys2Proof.Machine.execUpcallPost t s
  | .trapTaken core slot => Sys2Proof.Machine.execTrapTaken core slot s
  | .homeSliceRefusal core slot => Sys2Proof.Machine.execHomeSliceRefusal core slot s
  | .linkRefusal core slot => Sys2Proof.Machine.execLinkRefusal core slot s
  | .loadComplete core slot op part l1 => Sys2Proof.Machine.execLoadComplete core slot op part l1 s
  | .storeAccepted core slot op part => Sys2Proof.Machine.execStoreAccepted core slot op part s
  | .atomicPerformed core slot op part => Sys2Proof.Machine.execAtomicPerformed core slot op part s
  | .copyJobQueued core job => Sys2Proof.Machine.execCopyJobQueued core job s
  | .copyEngineBurst core job burst => Sys2Proof.Machine.execCopyEngineBurst core job burst s
  | .copyJobComplete core job => Sys2Proof.Machine.execCopyJobComplete core job s
  | .tileOpComplete core op => Sys2Proof.Machine.execTileOpComplete core op s
  | .spmetaFault core op => Sys2Proof.Machine.execSpmetaFault core op s
  | .acqxResolve core l => Sys2Proof.Machine.execAcqxResolve core l s
  | .granuleWaitServed core l => Sys2Proof.Machine.execGranuleWaitServed core l s
  | .hangDetect core slot => Sys2Proof.Machine.execHangDetect core slot s
  | .sleepTimeout core slot => Sys2Proof.Machine.execSleepTimeout core slot s
  | .fenceMarkerAck core slot p => Sys2Proof.Machine.execFenceMarkerAck core slot p s
  | .sliceTokenRefill die => Sys2Proof.Machine.execSliceTokenRefill die s
  | .sliceRetry core slot op => Sys2Proof.Machine.execSliceRetry core slot op s
  | .netTokenRefill die => Sys2Proof.Machine.execNetTokenRefill die s
  | .controlBudgetRefill die => Sys2Proof.Machine.execControlBudgetRefill die s
  | .linkFlitReplay die tag => Sys2Proof.Machine.execLinkFlitReplay die tag s
  | .remoteOwnershipUpdate die idx e => Sys2Proof.Machine.execRemoteOwnershipUpdate die idx e s
  | .waymaskChange die t waymask slbw netbw netwt => Sys2Proof.Machine.execWaymaskChange die t waymask slbw netbw netwt s
  | .scrubberPass die => Sys2Proof.Machine.execScrubberPass die s
  | .writeClockWrap => Sys2Proof.Machine.execWriteClockWrap s
  | .revocationPost t k count target deadline reqid => Sys2Proof.Machine.execRevocationPost t k count target deadline reqid s
  | .abortEngineSeize t reqid => Sys2Proof.Machine.execAbortEngineSeize t reqid s
  | .frameHandover t tfn toHost => Sys2Proof.Machine.execFrameHandover t tfn toHost s
  | .leaseChange core t => Sys2Proof.Machine.execLeaseChange core t s
  | .stopRequest l cores forced => Sys2Proof.Machine.execStopRequest l cores forced s
  | .graceExpiry l => Sys2Proof.Machine.execGraceExpiry l s
  | .svcParkTimeout l => Sys2Proof.Machine.execSvcParkTimeout l s
  | .castleSave l place => Sys2Proof.Machine.execCastleSave l place s
  | .castleRestore l place slots => Sys2Proof.Machine.execCastleRestore l place slots s
  | .tenantSuspend t => Sys2Proof.Machine.execTenantSuspend t s
  | .bindingChange t k place phys prot => Sys2Proof.Machine.execBindingChange t k place phys prot s
  | .dirtyHarvest t => Sys2Proof.Machine.execDirtyHarvest t s
  | .tenantMigrate t remap device => Sys2Proof.Machine.execTenantMigrate t remap device s
  | .certCommit slot len body => Sys2Proof.Machine.execCertCommit slot len body s
  | .challengeStart t => Sys2Proof.Machine.execChallengeStart t s
  | .challengeDone t => Sys2Proof.Machine.execChallengeDone t s
  | .powerOn img => Sys2Proof.Machine.execPowerOn img s
  | .functionReady idx count => Sys2Proof.Machine.execFunctionReady idx count s
  | .functionFail idx => Sys2Proof.Machine.execFunctionFail idx s
  | .thermalStep die up => Sys2Proof.Machine.execThermalStep die up s
  | .thermalStop die => Sys2Proof.Machine.execThermalStop die s
  | .reservedEncoding w => Sys2Proof.Machine.execReservedEncoding w s
  | .instructionFetchFault k => Sys2Proof.Machine.execInstructionFetchFault k s
  | .memoryError ma corrected => Sys2Proof.Machine.execMemoryError ma corrected s
  | .powerOff => Sys2Proof.Machine.execPowerOff s
  | .remoteAccessAtTarget dev t ma req => Sys2Proof.Machine.execRemoteAccessAtTarget dev t ma req s
  | .tenantResume t => Sys2Proof.Machine.execTenantResume t s
  | .tenantBind t args => Sys2Proof.Machine.execTenantBind t args s

end Sys2Proof.Machine
end

