-- ==== Sys2Proof/Machine/Schedule.lean ====
section
/-! DEFINITION. What moves next (log 1): the choice of a wave by its quadrant (spec/08 R136, R137), the word it issues (R132), the
events that take their turn, and time (R1, R145). -/
namespace Sys2Proof.Machine

/-- The focus set on a wave slot. -/
def State.setFocus (s : State) (core slot : Nat) : State := s.setCtl { s.ctl with focus := ⟨core, slot / 12, slot⟩ }

/-- The agenda replaced. -/
def State.setAgenda (s : State) (l : List Move) : State := s.setCtl { s.ctl with agenda := l }

/-! ### The word a wave issues -/

/-- What stands at a wave's next address: an instruction, a word that is none, or a word that cannot be fetched. -/
def State.nextInstr (s : State) (w : Wave) (pc : CodeAddr) : Instr :=
  match s.fetch w pc with
  | .error k => .instructionFetchFault k
  | .ok x => match decode x with
    | .ok i => i
    | .error _ => .reservedEncoding x

/-- The wave in a slot fetches its next word, once the fetch goes (R249, R255), and issues it or is held at it. -/
def State.issueAt (s : State) (core slot : Nat) : Res1 :=
  match s.wave? core slot with
  | none => .next s
  | some w => match w.nextPc with
    | none => .next s
    | some pc => match s.fetchGoes w pc with
      | .error t => .next t
      | .ok t => exec (s.nextInstr w pc) ((t.fetchFills w pc).setFocus core slot)

/-- A word was issued between two states: its quadrant is taken for this cycle, or the launch has ended with it. -/
def issuedNow (w : Wave) (t : State) : Bool :=
  decide (t.ctl.cycle < (t.quad w.core w.quad).busyUntil) || (t.launch w.launch).endInfo.isSome

/-! ### Before an issue -/

/-- A wave may issue as far as its launch and its own holds of R136 go: its launch runs, it is not stopped, its reply is not awaited,
its BAR has passed or is suspended by a handler (R338), and its stall is over. -/
def State.mayTry (s : State) (w : Wave) : Bool :=
  (s.launch w.launch).stoppable && w.stopped.isNone && (w.barHold.isNone || w.hnd.isSome) && !(w.hnd.any Handler.svc) &&
  w.nextPc.isSome && decide (w.nextIssue ≤ s.ctl.cycle)

/-- A trap taken where it is due (R335). A word that held the wave before is tried afresh: a hold that is over is no hold, and a wave
still in its stall is held by nothing else. -/
def State.trapIfDue (s : State) (w : Wave) : State :=
  if !w.trapWaits then s
  else if w.noneReady then s.takeTrap w
  else if w.held.isSome && s.mayTry w then
    match s.issueAt w.core w.slot with
    | .next t => match t.wave? w.core w.slot with
      | some v => if t.trapDue v then t.takeTrap v else s
      | none => s
    | _ => s
  else s

/-- A word that held the wave is given up when no ready lane is left at it, with what it had asked for (R136, R161). -/
def State.settleHold (s : State) (core slot : Nat) : State :=
  match s.wave? core slot with
  | none => s
  | some w => match w.heldAt with
    | none => s
    | some pc => if w.activeAt pc != [] then s
      else (s.dropWait w).setWave { w with held := none, heldAt := none, pinned := [], sleepSince := none }

/-- A wave at an instruction boundary: its BAR passes when its arrival is complete, refusals it has learnt of park their lanes
(R115), and its trap is taken when it is due (R335). -/
def State.boundary (s : State) (core slot : Nat) : State :=
  match s.wave? core slot with
  | none => s
  | some w =>
    if !(s.launch w.launch).stoppable ∨ w.stopped.isSome then s
    else
      let s1 := s.passBar w
      let s2 := (if w.refusals = [] ∨ w.acqxDone.isSome then s1 else s1.takeRefusals core slot (fun _ => true)).settleHold core slot
      match s2.wave? core slot with
      | some v => s2.trapIfDue v
      | none => s2

/-- The slots of a quadrant (R11). -/
def slotsOf (quad : Nat) : List Nat := (List.range 12).map (fun i => 12 * quad + i)

/-- The wave slots of a quadrant in use. -/
def State.slotsIn (s : State) (core quad : Nat) : List Nat := (slotsOf quad).filter (fun k => (s.wave? core k).isSome)

/-- Every wave of a quadrant at its boundary. -/
def State.boundaries (s : State) (core quad : Nat) : State := (s.slotsIn core quad).foldl (fun t k => t.boundary core k) s

/-! ### The choice (R137) -/

/-- The wave that held the quadrant last goes first while its run is short and its word had no YLD. -/
def State.keeps (s : State) (core quad : Nat) (w : Wave) : Bool :=
  let q := s.quad core quad
  q.last == some w.holder && !q.yielded && decide (q.run < 16)

/-- Since when a wave has waited: its last issue, or its dispatch. -/
def Wave.since (w : Wave) : Nat := max w.lastIssue w.bornAt

/-- The waves of a quadrant that may issue, in the order in which they are chosen. -/
def State.candidates (s : State) (core quad : Nat) : List Wave :=
  let l := ((slotsOf quad).filterMap (s.wave? core)).filter s.mayTry
  l.filter (s.keeps core quad) ++
    sortBy (fun a b => decide (a.since ≤ b.since)) (l.filter (fun w => !s.keeps core quad w))

/-- Whether a wave's word would issue. -/
def State.wouldIssue (s : State) (w : Wave) : Bool :=
  s.mayTry w && (match s.issueAt w.core w.slot with
  | .next t => issuedNow w t
  | _ => false)

/-- The state as it would be at a cycle, with a quadrant free. -/
def State.freeAt (s : State) (core quad cycle : Nat) : State :=
  (s.setQuad core quad { s.quad core quad with busyUntil := 0 }).setCtl { s.ctl with cycle := cycle }

/-- The cycles of a word's issue, its extra bank cycles among them, in which another wave of the quadrant was eligible and not chosen
(R154, counter 3): in the first by the state before the word, in a later one by the state after it. -/
def State.passOver (before : State) (s : State) (w : Wave) : State :=
  match s.wave? w.core w.slot with
  | none => s
  | some v =>
    let first := (before.wouldIssue w).toNat
    let rest := ((List.range ((s.quad w.core w.quad).busyUntil - s.ctl.cycle)).drop 1).filter
      (fun k => (s.freeAt w.core w.quad (s.ctl.cycle + k)).wouldIssue v)
    s.setWave (v.bump 3 (first + rest.length))

/-- The other resident waves of a quadrant. -/
def State.othersIn (s : State) (w : Wave) : List Wave :=
  ((slotsOf w.quad).filterMap (s.wave? w.core)).filter (fun v => v.slot != w.slot)

/-- The first candidate whose word issues; one that is held stays so. The others that could have issued are told. -/
def choose : List Wave → State → Res1
  | [], s => .next s
  | w :: rest, s =>
    match s.issueAt w.core w.slot with
    | .next t => if issuedNow w t then .next ((s.othersIn w).foldl (State.passOver s) t) else choose rest t
    | r => r

/-- One issue of a quadrant. -/
def State.issueQuad (s : State) (core quad : Nat) : Res1 :=
  let s1 := s.boundaries core quad
  if s1.ctl.cycle < (s1.quad core quad).busyUntil then .next s1 else choose (s1.candidates core quad) s1

/-! ### Events and time -/

/-- An event of the machine, not a word of a wave: it has no encoding. -/
def isEvent (i : Instr) : Bool :=
  wellFormed i && (encode i).isNone && (match i with
    | .reservedEncoding _ | .instructionFetchFault _ => false
    | _ => true)

/-- A wave whose next word is a WAIT that holds it (R150), tried or not: a wave in its stall is not there yet, and one in a handler is not
held (R338). -/
def State.atWait (s : State) (w : Wave) : Bool :=
  w.hnd.isNone && s.mayTry w && (match s.issueAt w.core w.slot with
    | .next t => (t.wave? w.core w.slot).any (fun v => match v.held with
      | some (.wait _ _ _ _) => true
      | _ => false)
    | _ => false)

/-- Of the next `n` cycles those in which waves are held at WAIT are counted (R154, counter 6). -/
def State.countWaits (s : State) (n : Nat) : State :=
  let at' := fun (w : Wave) => (s.setCtl { s.ctl with cycle := max s.ctl.cycle w.nextIssue }).atWait w
  if s.cores.waves.any at' then
    s.setWaves (updWhere at' (fun w => w.bump 6 (n - (w.nextIssue - s.ctl.cycle))) s.cores.waves)
  else s

/-- Cycles pass (R1): what is to stop by force stops as the first of them ends (R389), and the shares of R351 are noted. -/
def State.elapse (s : State) (n : Nat) : State :=
  let t := s.haltDue.noteShares.countWaits n
  t.setCtl { t.ctl with cycle := t.ctl.cycle + n }

/-- What an outstanding operation ends by. -/
def opEvent (w : Wave) (o : MemOp) : Instr :=
  if o.isAtomic then .atomicPerformed w.core w.slot o.id none
  else if o.ld then .loadComplete w.core w.slot o.id none true
  else .storeAccepted w.core w.slot o.id none

/-- What a card of the core is waiting for. -/
def cardEvent (core : Nat) (k : Card) : Option Instr :=
  match k.state with
  | .waiting => some (.copyJobQueued core k.id)
  | .queued | .running => match k.todo with
    | b :: _ => some (.copyEngineBurst core k.id b)
    | [] => some (.copyJobComplete core k.id)
  | .complete => some (.copyJobComplete core k.id)

/-- The work outstanding for a wave, in the order the model lets it end when nothing else is said: its accesses, its fence markers,
the copy jobs and tile operations of its launch on the core, a sleep that is over. -/
def State.waveEvents (s : State) (core slot : Nat) : List Instr :=
  match s.wave? core slot with
  | none => []
  | some w =>
    let c := s.ctx w.launch core
    w.ops.map (opEvent w) ++ w.markers.map (fun p => .fenceMarkerAck core slot p) ++ c.cards.filterMap (cardEvent core) ++
    c.tiles.map (fun t => .tileOpComplete core t.id) ++ [.sleepTimeout core slot]

/-- The same with what waves of the core that have ended left outstanding (R134, R387), and with what the schedulers have to do: launches that
have ended, and their tenants' records and upcalls. -/
def State.pendingEvents (s : State) (core slot : Nat) : List Instr :=
  s.waveEvents core slot ++
  (s.cores.waves.filter (fun w => w.core == core && !w.resident)).flatMap (fun w => s.waveEvents core w.slot) ++
  (s.tasks.launches.filter (fun l => l.phase == .ending)).map (fun l => .launchRetire l.uid false) ++
  s.tasks.tenants.flatMap (fun t => [.completionRecordWrite t.id, .eventRecordWrite t.id, .upcallPost t.id])

/-- The first event of a list that changes anything. -/
def firstThat (s : State) : List Instr → Option State
  | [] => none
  | i :: l => match exec i s with
    | .next t => if t = s then firstThat s l else some t
    | _ => firstThat s l

/-- With nothing on the agenda: the quadrant at the focus issues; if it issues nothing, something that is waited for ends; else a
cycle passes. -/
def State.idle (s : State) : Res1 :=
  let f := s.ctl.focus
  match s.issueQuad f.core f.quad with
  | .next t =>
    if (s.quad f.core f.quad).busyUntil ≤ s.ctl.cycle ∧ s.ctl.cycle < (t.quad f.core f.quad).busyUntil then .next t
    else match firstThat t (t.pendingEvents f.core f.slot) with
      | some u => .next u
      | none => .next (t.elapse 1)
  | r => r

/-- One move of the agenda. -/
def State.move (s : State) (m : Move) : Res1 :=
  match m with
  | .event i => if isEvent i then exec i s else .next s
  | .issue core quad => s.issueQuad core quad
  | .elapse n => .next (s.elapse n)

/-- The next move taken, and gone from the agenda. -/
def State.advance (s : State) : Res1 :=
  match s.ctl.agenda with
  | [] => s.idle
  | m :: l => (s.setAgenda l).move m

/-! ### A word placed for the next issue (log 22) -/

/-- The frame, the page and the core of a placed word. -/
def placedFrame : Nat := 16
/-- Its virtual address. -/
def placedVa : Nat := 2 ^ 16
/-- Its core. -/
def placedCore : Nat := 1

/-- The tenant that runs a placed word: one core place with its banks, one frame place, one translation entry in array 0. -/
def placedTenant : Tenant :=
  Tenant.flr { Tenant.blank with
    id := 1, places := ⟨.core, 0, placedCore, false⟩ :: ⟨.frame, 0, placedFrame, false⟩ ::
      (List.range 32).map (fun b => ⟨.bank, b, 32 * placedCore + b, false⟩), diePlaces := [(0, 0)],
    grants := [(0, 1), (0, 0), (0, 0)], tlb := [⟨0, 0, 0, 1, 0, placedFrame, 5⟩] }

/-- The record of its launch: LID 1, one wave of 16 granules, bank 0 for registers, banks 1 to 15 scratchpad, the others
accumulators. -/
def placedRecord : List Word :=
  ((((List.replicate 64 0).set 1 (BitVec.ofNat 64 (2 ^ 32))).set 2 (BitVec.ofNat 64 placedVa)).set 5
    (BitVec.ofNat 64 (1 + 16 * 2 ^ 17))).set 6 0xFFFFFFFFAAAAAAA9#64

/-- Its launch, running. -/
def placedLaunch (uid : Nat) : Launch :=
  { Launch.blank with
    uid := uid, tenant := 1, record := placedRecord, phase := .running, waves := [⟨0, true, 3, [], 0⟩], wavesRead := true, tstart := 1 }

/-- Its wave, at the word: runtime mode, and a role that may issue it (Table 2-14). -/
def placedWave (uid now w : Nat) : Wave :=
  { Wave.blank with
    core := placedCore, launch := uid, tenant := 1, mode := 1, role := if 0x0C4 ≤ w / 2 ^ 54 ∧ w / 2 ^ 54 ≤ 0x0C5 then 2 else 3,
    lanes := List.replicate 32 ⟨.ready, BitVec.ofNat 48 placedVa, 0, false⟩, base := 16, nextIssue := now, bornAt := now }

/-- The state with a word of 64 bits where the quadrant at the focus fetches next. -/
def State.place (s : State) (w : Nat) : State :=
  let uid := s.nextUid
  let s1 := (s.setFrame placedFrame { s.frame placedFrame with owner := 1 }).writeMem (placedFrame * 2 ^ 16) (bytesOf 8 w)
  let s2 := s1.setMem { s1.mem with tcache := s1.mem.tcache.filter (fun c => c.tenant != 1) }
  let s3 := s2.setTasks { s2.tasks with
    tenants := placedTenant :: s2.tasks.tenants.filter (fun t => t.id != 1), launches := s2.tasks.launches ++ [placedLaunch uid] }
  let s4 : State := { s3 with cores := { s3.cores with
    waves := placedWave uid s.ctl.cycle w :: s3.cores.waves.filter (fun v => !(v.core == placedCore && v.slot / 12 == 0)),
    ctxs := Ctx.fresh uid placedCore 0 :: s3.cores.ctxs } }
  (s4.setQuad placedCore 0 Quad.idle).setCtl { s4.ctl with power := true, focus := ⟨placedCore, 0, 0⟩, agenda := [] }

/-- The next move applies power (R390). -/
def State.poweringOn (s : State) : Bool :=
  match s.ctl.agenda with
  | .event (.powerOn _) :: _ => true
  | _ => false

end Sys2Proof.Machine
end

