-- ==== Sys2Proof/Machine/Step.lean ====
section
/-! DEFINITION. One step of the machine (log 1), and the machine with one word placed for its next issue. -/
namespace Sys2Proof.Machine

/-- ONE STEP: without power nothing moves before power-on (R390); else the next move. -/
def step (s : State) : Host.Outcome State Fault Refusal :=
  if !s.ctl.power && !s.poweringOn then .fault .powerOff else s.advance

/-- The state with the instruction of an opcode-table row where the next step fetches (log 22): every instruction is one word of 64
bits, the least significant byte first (R21). -/
def State.withFetchWord (s : State) (_nbits w : Nat) : State := s.place w

end Sys2Proof.Machine
end

