-- ==== Sys2Proof/Safety.lean ====
section
/-! DEFINITION. The terms claims use: a run that goes on; when a word of a wave meets no obstacle; what a word that ends leaves
as it was. -/
namespace Sys2Proof.Safety
open Sys2Proof.Machine

/-- A step neither faults nor refuses. -/
def Goes (s : State) : Prop := ∃ t, step s = .next t

/-- A run of `n` steps that goes on. -/
def Runs (n : Nat) (s : State) : Prop := ∃ t, Sys2Proof.core.run n s = .next t

/-- Main memory is in its one canonical form. -/
def Memory.wf (m : List Host.Cell) : Bool := cellWf 0 m

/-! ### A word that meets no obstacle -/

/-- The wave at the focus stands at `pc` of its own program: at the word that holds it, or at its issue address (R132, R136); it is in no
handler (R338). -/
structure At (s : State) (w : Wave) (pc : CodeAddr) : Prop where
  here : s.wave? s.ctl.focus.core s.ctl.focus.slot = some w
  own : w.hnd = none
  addr : w.ownPc = some pc

/-- A word that names what `u` names passes every check that stands before its effect: some lane executes it, HANG is not due
(R143), mode and role allow it (R39), its registers are the wave's (R156), nothing it names has a result pending (R159) or needs
a recipe (R169), the operand latch tells the truth (R158), and nothing of it breaks purity (R102). -/
structure Clear (c : Ctl) (u : Use) (s : State) (w : Wave) (pc : CodeAddr) : Prop where
  pos : At s w pc
  some : execLanes c u.q w (w.activeAt pc) ≠ []
  hang : w.hangArmed = false
  legal : u.illegal = false ∧ u.badBank = false
  mode : u.mode ≤ w.mode
  role : w.role ∈ u.roles
  block : ∀ r ∈ u.vr ++ u.vw ++ u.touch ++ u.named, r < w.vcount
  settled : s.pendOf w (u.guarded c) true = []
  kept : (∀ r ∈ u.vr, w.isDropped r = false) ∧ s.rematReg w (u.guarded c) = none
  latch : ∀ e ∈ (s.quad w.core w.quad).latch, e.slot = w.slot → ∀ i < 32, e.vals.getD i 0 = w.vreg e.reg i
  pure : (s.launch w.launch).pure = false ∨ (u.impure = false ∧ s.strayFetch (s.launch w.launch) pc = false)

/-! ### What a word leaves -/

/-- The word is over: its wave is `v` in `t`, and every active lane stands at the next word, whether or not it executed this one
(R133). -/
structure Went (s : State) (w : Wave) (pc : CodeAddr) (t : State) (v : Wave) : Prop where
  wave : t.wave? w.core w.slot = some v
  lanes : ∀ i < 32, v.lane i = if i ∈ w.activeAt pc then { w.lane i with pc := pc + 8 } else w.lane i

/-- Vector registers are unchanged but for the given ones in the given lanes. -/
def VecKept (w v : Wave) (but : Nat → Nat → Prop) : Prop := ∀ r, ∀ i < 32, ¬ but r i → v.vreg r i = w.vreg r i

/-- Scalar registers are unchanged but for the given ones. -/
def ScalKept (w v : Wave) (but : Nat → Prop) : Prop := ∀ r, ¬ but r → v.sreg r = w.sreg r

/-- Lane and scalar predicates are unchanged. -/
def PredKept (w v : Wave) : Prop := v.preds = w.preds ∧ v.qpreds = w.qpreds

/-- The registers of Table 8-2 that belong to a wave, its groups, granules and outstanding work are unchanged, FSTAT and RNGCTR apart;
HANGCNT and the counters of R154 count every word, and with a word of the wave a SLEEP's deadline is over. -/
structure SpecialKept (w v : Wave) : Prop where
  mode : v.mode = w.mode
  role : v.role = w.role
  mstat : v.mstat = w.mstat
  trap : v.trcause = w.trcause ∧ v.trpc = w.trpc ∧ v.trmask = w.trmask ∧ v.traddr = w.traddr
  hnd : v.hnd = w.hnd
  groups : v.groups = w.groups
  granules : v.base = w.base ∧ v.ext = w.ext ∧ v.dropped = w.dropped
  work : v.ops = w.ops ∧ v.nextOp = w.nextOp ∧ v.cpWords = w.cpWords ∧ v.tlWords = w.tlWords ∧ v.tlFlags = w.tlFlags
  names : v.launch = w.launch ∧ v.tenant = w.tenant ∧ v.wid = w.wid ∧ v.corepl = w.corepl ∧ v.diepl = w.diepl
  waits : v.wake = w.wake ∧ (v.sleepSince = w.sleepSince ∨ v.sleepSince = none) ∧ v.barHold = w.barHold ∧ v.acqxDone = w.acqxDone
  added : v.adj = w.adj
  order : v.paths = w.paths ∧ v.markers = w.markers ∧ v.relTags = w.relTags ∧ v.relScope = w.relScope ∧ v.refusals = w.refusals
  stop : v.stopAsked = w.stopAsked ∧ v.stopped = w.stopped

/-- FSTAT and RNGCTR are unchanged. -/
def FlagsKept (w v : Wave) : Prop := v.fstat = w.fstat ∧ v.rngctr = w.rngctr

/-- No HANG becomes due by one more word without progress (R142, R143). -/
def Calm (s : State) (w : Wave) : Prop :=
  (s.tenant w.tenant).hanglim = 0 ∨ w.hangcnt + 1 ≤ (s.tenant w.tenant).hanglim

/-- Everything outside the wave that an instruction without a memory or service effect could reach is unchanged: memory and its
tables, what launches hold on cores, every other wave, the device's registers, and, where no HANG becomes due, tenants with their registers, launches, time and SEQ. -/
structure RestKept (s t : State) (w : Wave) : Prop where
  calm : Calm s w → t.tasks = s.tasks ∧ t.ctl = s.ctl
  mem : t.mem = s.mem
  ctxs : t.cores.ctxs = s.cores.ctxs
  dev : t.dev = s.dev
  waves : ∀ c k, ¬(c = w.core ∧ k = w.slot) → t.wave? c k = s.wave? c k

/-- A word is over with the effect that leaves the state `s1` and its wave `w1`: in `t` the wave is `v`, each active lane `i` is what
`go i` makes of it, and nothing else differs from `s1` and `w1` but what the booking of a word keeps: pending results and tags
(R139, R159, R167), HANGCNT and the counters (R142, R154), the quadrant with its operand latch (R137, R158). -/
structure Ends (s1 : State) (w1 w : Wave) (pc : CodeAddr) (go : Nat → Lane → Lane) (t : State) (v : Wave) : Prop where
  wave : t.wave? w.core w.slot = some v
  lanes : ∀ i < 32, v.lane i = if i ∈ w.activeAt pc then go i (w1.lane i) else w1.lane i
  regs : v.vregs = w1.vregs ∧ v.sregs = w1.sregs ∧ v.preds = w1.preds ∧ v.qpreds = w1.qpreds
  flags : FlagsKept w1 v
  special : SpecialKept w1 v
  calm : Calm s1 w1 → t.tasks = s1.tasks ∧ t.ctl = s1.ctl
  mem : t.mem = s1.mem
  ctxs : t.cores.ctxs = s1.cores.ctxs
  dev : t.dev = s1.dev
  waves : ∀ c k, ¬(c = w.core ∧ k = w.slot) → t.wave? c k = s1.wave? c k

/-- The same where every active lane goes on to the next word (R133). -/
abbrev Over (s1 : State) (w1 w : Wave) (pc : CodeAddr) (t : State) (v : Wave) : Prop :=
  Ends s1 w1 w pc (fun _ l => { l with pc := pc + 8 }) t v

/-- A word is over that wrote the vector register `d` in `lanes` with `x`, raised the events `fl` of FSTAT and, where `draw` says so,
counted one draw (R199): nothing else is changed. -/
structure WroteVec (s : State) (w : Wave) (pc : CodeAddr) (lanes : List Nat) (d : Nat) (x : Nat → Word) (fl : Flags) (draw : Bool)
    (t : State) (v : Wave) : Prop where
  went : Went s w pc t v
  rest : RestKept s t w
  value : ∀ i ∈ lanes, v.vreg d i = x i
  vec : VecKept w v (fun r i => r = d ∧ i ∈ lanes)
  scal : ScalKept w v (fun _ => False)
  pred : PredKept w v
  special : SpecialKept w v
  flags : v.fstat = w.fstat ||| fl
  drawn : v.rngctr = if draw then w.rngctr + 1 else w.rngctr

/-- A word is over that wrote the scalar register `d` with `x`: nothing else is changed. -/
structure WroteScal (s : State) (w : Wave) (pc : CodeAddr) (d : Nat) (x : Word) (t : State) (v : Wave) : Prop where
  went : Went s w pc t v
  rest : RestKept s t w
  value : v.sreg d = x
  vec : VecKept w v (fun _ _ => False)
  scal : ScalKept w v (fun r => r = d)
  pred : PredKept w v
  special : SpecialKept w v
  flags : FlagsKept w v

/-- The control fields of a word without guards, HOLD, YLD or STALL. -/
def plainCtl : Ctl := ⟨Guard.always, Guard.always, .none, false, 0⟩

/-- The integer types of Table 2-3. -/
def intTypes : List Ty := [.s64, .z64, .s32x2, .z32x2, .s16x4, .z16x4, .s8x8, .z8x8, .s4x16]

/-- The float types of Table 2-3. -/
def floatTypes : List Ty := [.f64, .f32x2, .f16x4, .bf16x4, .e4m3x8, .e5m2x8, .e2m1x16]

/-- The context of a clear word: the wave with its active and executing lanes. -/
def context (c : Ctl) (u : Use) (s : State) (w : Wave) (pc : CodeAddr) : Ex :=
  ⟨s, w, pc, w.activeAt pc, execLanes c u.q w (w.activeAt pc), false⟩

/-! ### What words compute, by shape: control fields, what the word names, destination, and the result from the state, the wave and
the executing lanes -/

/-- What a word leaves in a lane. -/
abbrev InLane (α : Type) := State → Wave → List Nat → Nat → α

/-- An operand of kind V or broadcast in a lane (R26). -/
def operand (w : Wave) (o : VS) (i : Nat) : Word := vsVal (fun r => w.vreg r i) w.sreg o

/-- The ballot of some lanes (R152). -/
def ballot (w : Wave) (lanes : List Nat) (p : Nat) : Word := (maskOf (fun i => lanes.contains i && w.pred p i)).setWidth 64

/-- Words that write one vector register in each executing lane and raise no event of FSTAT. -/
def vecWord : Instr → Option (Ctl × Use × Nat × InLane Word)
  | .mov c d a => some (c, useABC c d a none none, d, fun _ w _ i => w.vreg a i)
  | .movi c d n => some (c, { vw := [d] }, d, fun _ _ _ _ => moviVal n)
  | .movk c d n h => some (c, { vr := [d], vw := [d] }, d, fun _ w _ i => movkVal (w.vreg d i) n h)
  | .sel c d a b p =>
    some (c, { useABC c d a (some b) none with pr := [p] }, d, fun _ w _ i => if w.pred p i then w.vreg a i else operand w b i)
  | .iadd c d a b t z => some (c, useABC c d a (some b) none t.bits, d, fun _ w _ i => iaddVal t z (w.vreg a i) (operand w b i))
  | .isub c d a b t z => some (c, useABC c d a (some b) none t.bits, d, fun _ w _ i => isubVal t z (w.vreg a i) (operand w b i))
  | .imul c d a b t z => some (c, useABC c d a (some b) none t.bits, d, fun _ w _ i => imulVal t z (w.vreg a i) (operand w b i))
  | .imulh c d a b t => some (c, useABC c d a (some b) none t.bits, d, fun _ w _ i => imulhVal t (w.vreg a i) (operand w b i))
  | .imad c d a b e t z =>
    some (c, useABC c d a (some b) (some e) t.bits, d, fun _ w _ i => imadVal t z (w.vreg a i) (operand w b i) (w.vreg e i))
  | .imin c d a b t => some (c, useABC c d a (some b) none t.bits, d, fun _ w _ i => iminVal t (w.vreg a i) (operand w b i))
  | .imax c d a b t => some (c, useABC c d a (some b) none t.bits, d, fun _ w _ i => imaxVal t (w.vreg a i) (operand w b i))
  | .iabs c d a t z => some (c, useABC c d a none none t.bits, d, fun _ w _ i => iabsVal t z (w.vreg a i))
  | .ineg c d a t z => some (c, useABC c d a none none t.bits, d, fun _ w _ i => inegVal t z (w.vreg a i))
  | .and c d a b => some (c, useABC c d a (some b) none, d, fun _ w _ i => w.vreg a i &&& operand w b i)
  | .or c d a b => some (c, useABC c d a (some b) none, d, fun _ w _ i => w.vreg a i ||| operand w b i)
  | .xor c d a b => some (c, useABC c d a (some b) none, d, fun _ w _ i => w.vreg a i ^^^ operand w b i)
  | .not c d a => some (c, useABC c d a none none, d, fun _ w _ i => ~~~(w.vreg a i))
  | .shl c d a b t u => some (c, useABC c d a (some b) none t.bits, d, fun _ w _ i => shlVal t u (w.vreg a i) (operand w b i))
  | .shr c d a b t u => some (c, useABC c d a (some b) none t.bits, d, fun _ w _ i => shrVal t u (w.vreg a i) (operand w b i))
  | .sar c d a b t u => some (c, useABC c d a (some b) none t.bits, d, fun _ w _ i => sarVal t u (w.vreg a i) (operand w b i))
  | .rot c d a b t u => some (c, useABC c d a (some b) none t.bits, d, fun _ w _ i => rotVal t u (w.vreg a i) (operand w b i))
  | .bfx c d a b t => some (c, useABC c d a (some b) none t.bits, d, fun _ w _ i => bfxVal t (w.vreg a i) (operand w b i))
  | .bfi c d a b e => some (c, useABC c d a (some b) (some e), d, fun _ w _ i => bfiVal (w.vreg a i) (operand w b i) (w.vreg e i))
  | .popc c d a t => some (c, useABC c d a none none t.bits, d, fun _ w _ i => popcVal t (w.vreg a i))
  | .clz c d a t => some (c, useABC c d a none none t.bits, d, fun _ w _ i => clzVal t (w.vreg a i))
  | .brev c d a t => some (c, useABC c d a none none t.bits, d, fun _ w _ i => brevVal t (w.vreg a i))
  | .lea c d a b t sh => some (c, useABC c d a (some b) none t.bits, d, fun _ w _ i => leaVal t sh (w.vreg a i) (operand w b i))
  | .iaddi c d a n => some (c, useABC c d a none none, d, fun _ w _ i => iaddiVal (w.vreg a i) n)
  | .idot c d a b e ta tb z =>
    some (c, { useABC c d a (some b) (some e) (min ta.bits tb.bits) with lat := 5 }, d,
      fun _ w _ i => idotVal ta tb z (w.vreg a i) (operand w b i) (w.vreg e i))
  | .vote c d p k =>
    some (c, { pr := [p], vw := [d] }, d, fun _ w lanes _ => match k with
      | .ballot => ballot w lanes p
      | .any => if ballot w lanes p = 0 then 0 else 1
      | .all => if lanes.all (w.pred p) then 1 else 0)
  | .lshf c d a b k =>
    some (c, { useABC c d a (some b) none with lat := 8 }, d,
      fun _ w _ i => match lshfSource k i (bits (operand w b i).toNat 4 0) with
      | some j => w.vreg a j
      | none => w.vreg a i)
  | .lbcast c d a b t =>
    some (c, { useABC c d a none none t.bits with sr := [b], lat := 8 }, d, fun _ w _ _ => build t (fun _ =>
      elemBits (w.vreg a (leaLane (w.sreg b).toNat)) t.bits (leaElem (w.sreg b).toNat t.count)))
  | .lperm c d a b t =>
    some (c, { vr := a :: span b t.permRegs, vw := [d], lat := 8, hold := holdReg c (some a) (some b) none, ebits := t.bits }, d,
      fun _ w _ i => build t (fun e =>
        let m := permSlot ((span b t.permRegs).map (fun r => w.vreg r i)) e
        elemBits (w.vreg a (leaLane m)) t.bits (leaElem m t.count)))
  | .fmin c d a b t => some (c, useF c d a (some b) none [t] .rne, d, fun _ w _ i => fminVal t (w.vreg a i) (operand w b i))
  | .fmax c d a b t => some (c, useF c d a (some b) none [t] .rne, d, fun _ w _ i => fmaxVal t (w.vreg a i) (operand w b i))
  | .frnd c d a t r =>
    some (c, useF c d a none none [t] .rne, d,
      fun _ w _ i => build t (fun j => frndElem (fmtOf t) r (elemBits (w.vreg a i) t.bits j)))
  | .fclass c d a t =>
    some (c, useF c d a none none [t] .rne, d,
      fun _ w _ i => build t (fun j => fclassElem (fmtOf t) (elemBits (w.vreg a i) t.bits j)))
  | .mfs c (.v d) n => some (c, { vw := [d], mode := specMode n, impure := specImpure n }, d, fun s w _ i => specVal s w i n)
  | .perfrd c d n => some (c, { vw := [d], impure := true }, d, fun s w _ _ => perfVal s w n)
  | _ => none

/-- Words that write one lane predicate in each executing lane. -/
def predWord : Instr → Option (Ctl × Use × Nat × InLane Bool)
  | .elect c d => some (c, { pw := [d] }, d, fun _ _ lanes i => i == lanes.headD 0)
  | .isetp c d a b t k any =>
    some (c, { useABC c d a (some b) none t.bits with vw := [], pw := [d] }, d,
      fun _ w _ i => isetpVal t k any (w.vreg a i) (operand w b i))
  | .plop c d p q n => some (c, { pr := [p, q], pw := [d] }, d, fun _ w _ i => plopVal n (w.pred p i) (w.pred q i))
  | .fsetp c d a b t k any =>
    some (c, { useF c d a (some b) none [t] .rne with vw := [], pw := [d] }, d,
      fun _ w _ i => combine any ((List.range t.count).map (fun j =>
        fcompare (fmtOf t) k (elemBits (w.vreg a i) t.bits j) (elemBits (operand w b i) t.bits j))))
  | _ => none

/-- What a lane draws for stochastic rounding (R199). -/
def draws (s : State) (w : Wave) (r : Rnd) (lane j : Nat) : Nat :=
  if r = .sr then draw16 (s.launch w.launch).lid w.wid w.rngctr.toNat lane j else 0

/-- The reduction of a register over some lanes (R191). -/
def reduction (w : Wave) (a : Nat) (t : Ty) (op : RedOp) (lanes : List Nat) : VRes :=
  vres t (fun e => (treeOf (redStep t op)
    ((List.range 32).map (fun i => if lanes.contains i then some ⟨redLeaf t (elemBits (w.vreg a i) t.bits e), 0⟩ else none))).getD ⟨redId t op, 0⟩)

/-- Words that write one vector register in each executing lane with events of FSTAT; the last `Bool` says whether the word draws
(R199). -/
def floatWord : Instr → Option (Ctl × Use × Nat × Bool × InLane VRes)
  | .fadd c d a b t r =>
    some (c, useF c d a (some b) none [t] r, d, r == .sr, fun s w _ i => faddVal t r (draws s w r i) (w.vreg a i) (operand w b i))
  | .fsub c d a b t r =>
    some (c, useF c d a (some b) none [t] r, d, r == .sr, fun s w _ i => fsubVal t r (draws s w r i) (w.vreg a i) (operand w b i))
  | .fmul c d a b t r =>
    some (c, useF c d a (some b) none [t] r, d, r == .sr, fun s w _ i => fmulVal t r (draws s w r i) (w.vreg a i) (operand w b i))
  | .ffma c d a b e t r =>
    some (c, useF c d a (some b) (some e) [t] r, d, r == .sr,
      fun s w _ i => ffmaVal t r (draws s w r i) (w.vreg a i) (operand w b i) (w.vreg e i))
  | .fcvt c d a td ts r =>
    some (c, useF c d a none none [td, ts] r, d, r == .sr,
      fun s w _ i => fconv td ts (fun j y => fcvtElem (fmtOf td) (fmtOf ts) r (draws s w r i j) y) (w.vreg a i))
  | .i2f c d a td ts r =>
    some (c, useF c d a none none [td, ts] r, d, r == .sr,
      fun s w _ i => fconv td ts (fun j _ => i2fElem (fmtOf td) r (draws s w r i j) (elemInt (w.vreg a i) ts j)) (w.vreg a i))
  | .f2i c d a td ts r =>
    some (c, useF c d a none none [td, ts] r, d, r == .sr,
      fun s w _ i => fconv td ts (fun j y => f2iElem (fmtOf ts) td r (draws s w r i j) y) (w.vreg a i))
  | .fscale c d a b t r =>
    some (c, useF c d a (some b) none [t] r, d, r == .sr,
      fun s w _ i => fvec2 t (fun j y k => fscaleElem (fmtOf t) r (draws s w r i j) y (sext k t.bits)) (w.vreg a i) (operand w b i))
  | .fdot c d a b e ta tb r =>
    some (c, { useF c d a (some b) none [ta, tb] r with vr := [a, e, e + 1] ++ vsV b }, d, r == .sr,
      fun s w _ i => fdotVal ta tb r (draws s w r i) (w.vreg a i) (operand w b i) (w.vreg e i) (w.vreg (e + 1) i))
  | .rand c d =>
    some (c, { vw := [d], impure := true }, d, true,
      fun s w _ i => ⟨rand64 (s.launch w.launch).lid w.wid w.rngctr.toNat i, 0⟩)
  | .frcp c d a t r =>
    some (c, { useABC c d a none none t.bits with lat := 12 }, d, false, fun _ w _ i => fvec1 t (fun _ => frcpElem (fmtOf t) r) (w.vreg a i))
  | .frsq c d a t =>
    some (c, { useABC c d a none none t.bits with lat := 12 }, d, false, fun _ w _ i => fvec1 t (fun _ => frsqElem (fmtOf t)) (w.vreg a i))
  | .fsqrt c d a t r =>
    some (c, { useABC c d a none none t.bits with lat := 12 }, d, false, fun _ w _ i => fvec1 t (fun _ => fsqrtElem (fmtOf t) r) (w.vreg a i))
  | .fexp2 c d a t =>
    some (c, { useABC c d a none none t.bits with lat := 12 }, d, false, fun _ w _ i => fvec1 t (fun _ => fexp2Elem (fmtOf t)) (w.vreg a i))
  | .fexp2Fs c d a b e t =>
    some (c, { useABC c d a (some b) (some e) t.bits with lat := 12 }, d, false,
      fun _ w _ i => fvec3 t (fun _ => fexp2FsElem (fmtOf t)) (w.vreg a i) (operand w b i) (w.vreg e i))
  | .flog2 c d a t =>
    some (c, { useABC c d a none none t.bits with lat := 12 }, d, false, fun _ w _ i => fvec1 t (fun _ => flog2Elem (fmtOf t)) (w.vreg a i))
  | .fsin c d a t =>
    some (c, { useABC c d a none none t.bits with lat := 12 }, d, false,
      fun _ w _ i => fvec1 t (fun _ => ftrigElem .sin (fmtOf t)) (w.vreg a i))
  | .fcos c d a t =>
    some (c, { useABC c d a none none t.bits with lat := 12 }, d, false,
      fun _ w _ i => fvec1 t (fun _ => ftrigElem .cos (fmtOf t)) (w.vreg a i))
  | .ftanh c d a t =>
    some (c, { useABC c d a none none t.bits with lat := 12 }, d, false, fun _ w _ i => fvec1 t (fun _ => ftanhElem (fmtOf t)) (w.vreg a i))
  | .lred c d a t op =>
    some (c, { useABC c d a none none t.bits with lat := 8 }, d, false, fun _ w lanes _ => reduction w a t op lanes)
  | .lscan c d a t op ex =>
    some (c, { useABC c d a none none t.bits with lat := 8 }, d, false,
      fun _ w lanes i => reduction w a t op (lanes.filter (fun j => if ex then decide (j < i) else decide (j ≤ i))))
  | _ => none

/-- Words that write one scalar register and nothing else. -/
def scalWord : Instr → Option (Ctl × Use × Nat × (State → Wave → List Nat → Word))
  | .smov c d a => some (c, { useS d [a] with q := true }, d, fun _ w _ => w.sreg a)
  | .smovi c d n => some (c, { useS d [] with q := true }, d, fun _ _ _ => moviVal n)
  | .smovk c d n h => some (c, { useS d [d] with q := true }, d, fun _ w _ => movkVal (w.sreg d) n h)
  | .sadd c d a b => some (c, { useS d [a, b] with q := true }, d, fun _ w _ => w.sreg a + w.sreg b)
  | .ssub c d a b => some (c, { useS d [a, b] with q := true }, d, fun _ w _ => w.sreg a - w.sreg b)
  | .smul c d a b => some (c, { useS d [a, b] with q := true }, d, fun _ w _ => w.sreg a * w.sreg b)
  | .smad c d a b e => some (c, { useS d [a, b, e] with q := true }, d, fun _ w _ => w.sreg a * w.sreg b + w.sreg e)
  | .sand c d a b => some (c, { useS d [a, b] with q := true }, d, fun _ w _ => w.sreg a &&& w.sreg b)
  | .sor c d a b => some (c, { useS d [a, b] with q := true }, d, fun _ w _ => w.sreg a ||| w.sreg b)
  | .sxor c d a b => some (c, { useS d [a, b] with q := true }, d, fun _ w _ => w.sreg a ^^^ w.sreg b)
  | .sshl c d a b => some (c, { useS d [a, b] with q := true }, d, fun _ w _ => shlVal .s64 false (w.sreg a) (w.sreg b))
  | .sshr c d a b => some (c, { useS d [a, b] with q := true }, d, fun _ w _ => shrVal .s64 false (w.sreg a) (w.sreg b))
  | .ssar c d a b => some (c, { useS d [a, b] with q := true }, d, fun _ w _ => sarVal .s64 false (w.sreg a) (w.sreg b))
  | .smin c d a b u =>
    some (c, { useS d [a, b] with q := true }, d,
      fun _ w _ => if scalarInt u (w.sreg b) < scalarInt u (w.sreg a) then w.sreg b else w.sreg a)
  | .smax c d a b u =>
    some (c, { useS d [a, b] with q := true }, d,
      fun _ w _ => if scalarInt u (w.sreg a) < scalarInt u (w.sreg b) then w.sreg b else w.sreg a)
  | .rdlane c d a b t =>
    some (c, { vr := [a], sr := [b], sw := [d], lat := 8, hok := true, hold := holdReg c (some a) none none, ebits := t.bits }, d,
      fun _ w _ => BitVec.ofNat 64 (elemBits (w.vreg a (leaLane (w.sreg b).toNat)) t.bits (leaElem (w.sreg b).toNat t.count)))
  | .mfs c (.s d) n =>
    some (c, { sw := [d], mode := specMode n, impure := specImpure n, hok := true }, d, fun s w lanes => specVal s w (lanes.headD 0) n)
  | .rcpq c d a =>
    some (c, { sr := [a], sw := [d], lat := 3, hok := true, q := true }, d, fun s w _ => rcpqVal s w (bits (w.sreg a).toNat 7 0))
  | .rtq c d a =>
    some (c, { sr := [a], sw := [d], lat := 3, hok := true, q := true }, d,
      fun s w _ => rtqVal s (s.tenant w.tenant) (bits (w.sreg a).toNat 7 0))
  | .tbrd c d a arr way =>
    some (c, { mode := 1, sr := [a], sw := [d], lat := 0, hok := true, q := true }, d, fun s w _ =>
      let t := s.tenant w.tenant
      if (t.grant arr).2 = 0 then 0
      else match t.tlb.find? (fun e => e.arr == arr && e.set == t.setOf arr (w.sreg a).toNat && e.way == way) with
        | some e => tbrdVal e (w.sreg a).toNat
        | none => 0)
  | .frq c d a =>
    some (c, { sr := [a], sw := [d], lat := 0, hok := true, q := true }, d,
      fun s w _ => frqVal s (s.tenant w.tenant) (w.sreg a).toNat)
  | .bndq c d a =>
    some (c, { sr := [a], sw := [d], lat := 0, hok := true, q := true }, d,
      fun s w _ => bndqVal (s.tenant w.tenant) (w.sreg a).toNat)
  | _ => none

/-! ### Words with an effect beside their registers, by table: what stands where the word has its effect; none where it does not
have it -/

/-- What a word leaves of the state and of its wave, from the issue address and the executing lanes. -/
abbrev Effect := State → Wave → CodeAddr → List Nat → Option (State × Wave)

/-- A clear word of a table that has its effect ends with it, and every active lane goes on. -/
def HasEffect (tab : Instr → Option (Ctl × Use × Effect)) : Prop :=
  ∀ i c u f s w pc s1 w1, tab i = some (c, u, f) → Clear c u s w pc → f s w pc (execLanes c u.q w (w.activeAt pc)) = some (s1, w1) →
    ∃ t v, exec i s = .next t ∧ Over s1 w1 w pc t v

/-- A clear word of a table that is held: its wave waits at it, no lane moves and no quadrant is taken (R136). -/
def IsHeld (tab : Instr → Option (Ctl × Use × (State → Wave → CodeAddr → List Nat → Option (State × Held)))) : Prop :=
  ∀ i c u f s w pc s1 k, tab i = some (c, u, f) → Clear c u s w pc → f s w pc (execLanes c u.q w (w.activeAt pc)) = some (s1, k) →
    ∃ t v x, exec i s = .next t ∧ s1.wave? w.core w.slot = some x ∧ t.wave? w.core w.slot = some v ∧
      v = { x with held := some k, heldAt := some pc, triedAt := s1.ctl.cycle } ∧
      (∀ a b, ¬(a = w.core ∧ b = w.slot) → t.wave? a b = s1.wave? a b) ∧
      t.mem = s1.mem ∧ t.tasks = s1.tasks ∧ t.dev = s1.dev ∧ t.ctl = s1.ctl ∧ t.cores.quads = s1.cores.quads ∧ t.cores.ctxs = s1.cores.ctxs

/-- Every lane that has not exited executes the word. -/
def allLeft (w : Wave) (lanes : List Nat) : Bool := (List.range 32).all (fun i => (w.lane i).st == .exited || lanes.contains i)

/-- The sleep of a wave is over: its wake latch, or its deadline (R151). -/
def sleepOver (s : State) (w : Wave) : Bool := w.wake || w.sleepSince.any (fun d => decide (d ≤ s.ctl.cycle))

/-- Words that go on without a register of their own (R147, R149 to R151, R343, R356). -/
def stillWord : Instr → Option (Ctl × Use × Effect)
  | .nop c => some (c, { hok := true }, fun s w _ _ => some (s, w))
  | .yield c => some (c, { hok := true, yields := true }, fun s w _ _ => some (s, w))
  | .bkpt c _ => some (c, {}, fun s w _ _ => if (s.launch w.launch).debug then none else some (s, w))
  | .wait c ld st cp tl => some (c, {}, fun s w _ _ => if w.countsAt ld st cp tl then some (s, w) else none)
  | .rcv c => some (c, {}, fun s w _ _ => if w.parkedLanes = [] then some (s, w) else none)
  | .sleep c _ => some (c, {}, fun s w _ _ => if sleepOver s w then some (s, { w with wake := false, sleepSince := none }) else none)
  | .phint c imm =>
    some (c, {}, fun s w _ lanes =>
      some (if w.stopAsked && allLeft w lanes then
        (s.dropLatch w.core w.slot (fun _ => true), { w with stopped := some (some imm), stopAsked := false }) else (s, w)))
  | _ => none

/-- MTS of every register but HANGCNT: LINK, and LANEID where the mode may write it, in each executing lane; any other once with the lowest
executing lane's value (R153). -/
def mtsWord : Instr → Option (Ctl × Use × Effect)
  | .mts c a n =>
    some (c, { vr := vsV a, sr := vsS a, mode := specMode n, hok := (vsV a).isEmpty }, fun s w _ lanes =>
      match n with
      | .hangcnt => none
      | .link => some (s, lanes.foldl (fun v i => v.setLane i { v.lane i with link := (operand w a i).setWidth 48 }) w)
      | .laneid => some (s, if w.mode = 2 then lanes.foldl (fun v i => v.adjust i 5 i (operand w a i)) w else w)
      | _ =>
        let t := writeSpec s w n (operand w a (lanes.headD 0))
        some (t, (t.wave? w.core w.slot).getD w))
  | _ => none

/-! ### Words that move lanes -/

/-- A lane that faults parks with its cause and address (R8, R334). -/
def parked (cause : Nat) (addr : Word) (l : Lane) : Lane := { l with st := .parked cause addr, atRcv := false }

/-- A lane sent to an address: one that is not a multiple of 8 faults with ALIGN (R21, R148). -/
def sent (a : CodeAddr) (l : Lane) : Lane := if a.toNat % 8 = 0 then { l with pc := a } else parked cALIGN (a.setWidth 64) l

/-- What control words make of a lane: `f` where it executes, the next word elsewhere; none where the word does not act so. -/
abbrev Moves := State → Wave → CodeAddr → List Nat → Option (Nat → Lane → Lane)

/-- Executing lanes do one thing, the others go on (R133). -/
def only (pc : CodeAddr) (lanes : List Nat) (f : Nat → Lane → Lane) : Option (Nat → Lane → Lane) :=
  some (fun i l => if i ∈ lanes then f i l else { l with pc := pc + 8 })

/-- The words that move lanes (R148, R149, R340, R343): a lane that a word faults stays at it, parked. -/
def goWord : Instr → Option (Ctl × Use × Moves)
  | .bra c off _ => some (c, { bubble := true, hok := true }, fun _ _ pc lanes => only pc lanes (fun _ l => { l with pc := targetOf pc off }))
  | .brau c off _ => some (c, { bubble := true, hok := true }, fun _ _ pc _ => some (fun _ l => { l with pc := targetOf pc off }))
  | .call c off _ =>
    some (c, { bubble := true }, fun _ _ pc lanes => only pc lanes (fun _ l => { l with pc := targetOf pc off, link := pc + 8 }))
  | .brx c a => some (c, { vr := [a], bubble := true }, fun _ w pc lanes => only pc lanes (fun i l => sent ((w.vreg a i).setWidth 48) l))
  | .ret c => some (c, { bubble := true }, fun _ _ pc lanes => only pc lanes (fun _ l => sent l.link l))
  | .rcv c => some (c, {}, fun _ w pc lanes => if w.parkedLanes = [] then none else only pc lanes (fun _ l => { l with atRcv := true }))
  | .exit c =>
    some (c, { bubble := true }, fun _ w pc lanes =>
      if allLeft w lanes then none else only pc lanes (fun _ l => { l with st := .exited, pc := pc + 8 }))
  | .trap c code => some (c, {}, fun _ _ pc lanes => only pc lanes (fun _ l => parked cSWTRAP (BitVec.ofNat 64 code) l))
  | .bkpt c code =>
    some (c, {}, fun s w pc lanes =>
      if (s.launch w.launch).debug then only pc lanes (fun _ l => parked cBKPT (BitVec.ofNat 64 code) l) else none)
  | .rte c a => some (c, { q := true, mode := 1, sr := [a], hok := true }, fun _ _ pc lanes => only pc lanes (fun _ l => parked cRANGE 0 l))
  | _ => none

/-! ### Words over granules and recipes (spec/09) -/

/-- The context of a word as its effect sees it. -/
def seen (s : State) (w : Wave) (pc : CodeAddr) (lanes : List Nat) : Ex := ⟨s, w, pc, w.activeAt pc, lanes, false⟩

/-- ACQX, RELX, RCPDEF, RCPTAG and RCPCLR (R161, R165, R166, R170). -/
def granuleWord : Instr → Option (Ctl × Use × Effect)
  | .acqx c d n =>
    some (c, { sw := [d], lat := 3, q := true }, fun s w _ _ =>
      match w.acqxDone with
      | some r => some (s, ({ w with acqxDone := none } : Wave).setSreg d r)
      | none =>
        if 16 < w.base + w.ext + n ∨ s.capacity w.launch w.core < w.ext - w.dropped.length + n then some (s.dropWait w, w.setSreg d acqxLimit)
        else if s.canServe w n false then some (s.dropWait w, (w.grow n).setSreg d (BitVec.ofNat 64 (w.ext + n)))
        else none)
  | .relx c d n =>
    some (c, { sw := [d], lat := 3, q := true }, fun s w _ _ =>
      some (s, (w.shrink (min n w.ext)).setSreg d (BitVec.ofNat 64 (w.ext - min n w.ext))))
  | .rcpdef c d a id idx =>
    some (c, { sr := [a], sw := [d], lat := 3, hok := true, q := true }, fun s w pc lanes =>
      let x := seen s w pc lanes
      let va := w.sreg a + BitVec.ofNat 64 (64 * idx)
      if x.strayRecipe va.toNat then none
      else if (w.sreg a).toNat % 64 ≠ 0 then some (s, w.setSreg d 4)
      else match s.readWords w va 8 with
        | .ok rec =>
          let r := x.rcpdef id (.ok rec)
          let k := s.ctx w.launch w.core
          some (match r.2 with
            | none => s
            | some body => s.setCtx { k with recipes := k.recipes.filter (fun p => p.1 != id) ++ [(id, body)] },
            w.setSreg d (BitVec.ofNat 64 r.1))
        | .fault _ _ => some (s, w.setSreg d 4)
        | .refused cause _ => if cause = cOWNER then some (s, w.setSreg d 4) else none)
  | .rcptag c d id =>
    some (c, { touch := [d] }, fun s w _ lanes =>
      match s.recipe w id with
      | none => none
      | some body =>
        if (readSet (bodyInstrs body) []).1.contains d then some (s, w)
        else some (s, { w with tags := w.tags.filter (fun t => t.reg != d) ++ [⟨d, id, lanes.length == 32⟩] }))
  | .rcpclr c a n =>
    some (c, { touch := span a n }, fun s w _ _ =>
      some (s, { w with tags := w.tags.filter (fun t => decide (t.reg < a ∨ a + n ≤ t.reg)) }))
  | _ => none

/-! ### Words over bindings and the reuse table (spec/06, spec/07) -/

/-- TBLD, TBINV, REVACK, LOSSACK and RTINV (R107, R118, R121, R126, R130). -/
def bindingWord : Instr → Option (Ctl × Use × Effect)
  | .tbld c d a b e arr way =>
    some (c, { mode := 1, sr := [a, b, e], sw := [d], lat := 0, hok := true, q := true }, fun s w _ _ =>
      match tbldCheck s (s.tenant w.tenant) (w.sreg a).toNat (w.sreg b).toNat (w.sreg e).toNat arr way with
      | (0, some t) => some (s.loadTlb w.tenant t, w.setSreg d 0)
      | (n, none) => some (s, w.setSreg d (BitVec.ofNat 64 n))
      | _ => none)
  | .tbinv c d a arr all =>
    some (c, { mode := 1, sr := [a], sw := [d], lat := 0, hok := true, q := true }, fun s w _ _ =>
      let p := fun (e : Tlb) => e.arr == arr && (all || e.covers (w.sreg a).toNat)
      some (s.dropTlb w.tenant p, w.setSreg d (BitVec.ofNat 64 (((s.tenant w.tenant).tlb.filter p).length))))
  | .revack c d a b =>
    some (c, { mode := 1, sr := [a, b], sw := [d], lat := 0, hok := true, q := true }, fun s w _ _ =>
      if 2 ^ 16 ≤ (w.sreg a).toNat then some (s, w.setSreg d 2)
      else
        let r := revack s w.tenant (w.sreg a).toNat (w.sreg b).toNat
        some (r.1, w.setSreg d (BitVec.ofNat 64 r.2)))
  | .lossack c d a =>
    some (c, { mode := 1, sr := [a], sw := [d], lat := 0, hok := true, q := true }, fun s w _ _ =>
      let t := (s.tenant w.tenant).lossAck (w.sreg a).toNat
      some (s.setTenant t, w.setSreg d (t.loss.setWidth 64)))
  | .rtinv c d a b =>
    some (c, { mode := 1, sr := [a, b], sw := [d], lat := 3, hok := true, q := true }, fun s w _ _ =>
      let meets := fun (r : Nat × Nat) => (rtRange (w.sreg a).toNat (w.sreg b).toNat).any (overlaps r)
      let hit := fun (e : Reuse) => e.tenant == w.tenant && e.outs.any meets
      some ((s.setTasks { s.tasks with
          digests := s.tasks.digests.filter (fun g => !(g.tenant == w.tenant && meets (g.va, g.len))) }).setReuse
            (s.tasks.reuse.filter (fun e => !hit e)),
        w.setSreg d (BitVec.ofNat 64 (s.tasks.reuse.filter hit).length)))
  | _ => none

/-! ### Words that access memory (spec/13, spec/15, spec/19) -/

/-- A memory form: what it names, its order, what it does, the counter it holds, its sides (R310), whether it meets job cards (R269),
its width, the registers it loads, the checks of a lane and the parts of a lane that passes. -/
structure MemForm where
  c : Ctl
  u : Use
  od : Order
  act : OpAct
  ld : Bool
  store : Bool
  cards : Bool
  acq : Bool
  rel : Bool
  n : Nat
  reg : Nat
  regs : List Nat
  check : Ex → Nat → Except (Nat × Word) Acc
  parts : Ex → Acc → List Part

/-- The memory forms (R233 to R236, R262, R263, R315). -/
def memWord : Instr → Option MemForm
  | .ldg c d a off w o sc ev =>
    let od := order o sc ev
    some ⟨c, useLoad d w.regs [a], od, .load, true, false, true, od.acq true, od.rel false, w.bytes, d, span d w.regs,
      fun x i => globalAcc x od w.bytes aRD false false false i (vaOf (x.v a i) off w.bytes), fun _ => loadParts w.bytes⟩
  | .stg c d a off w o sc ev =>
    let od := order o sc ev
    some ⟨c, { vr := a :: span d w.regs }, od, .store, false, true, true, od.acq false, od.rel true, w.bytes, d, [],
      fun x i => globalAcc x od w.bytes aWR true false false i (vaOf (x.v a i) off w.bytes),
      fun x q => partsOf q w.bytes (fun k => x.v (d + k) q.lane) (fun _ => 0)⟩
  | .ldp c d a off w o sc =>
    let od := order o sc .mru
    some ⟨c, useLoad d w.regs [a], od, .load, true, false, false, od.acq true, od.rel false, w.bytes, d, span d w.regs,
      fun x i => padAcc x w.bytes i (vaOf (x.v a i) off w.bytes), fun _ => loadParts w.bytes⟩
  | .stp c d a off w o sc =>
    let od := order o sc .mru
    some ⟨c, { vr := a :: span d w.regs }, od, .store, false, true, false, od.acq false, od.rel true, w.bytes, d, [],
      fun x i => padAcc x w.bytes i (vaOf (x.v a i) off w.bytes),
      fun x q => partsOf q w.bytes (fun k => x.v (d + k) q.lane) (fun _ => 0)⟩
  | .ldk c d a off w ev =>
    some ⟨c, useLoad d w.regs [a], order .plain .wav ev, .load, true, false, false, false, false, w.bytes, d, span d w.regs,
      fun x i => ldkAcc x w.bytes off i (x.v a i), fun _ => loadParts w.bytes⟩
  | .atom c d a b e op o sc wd =>
    let od := order o sc .mru
    some ⟨c, atomUse c d a b e op, od, .atom op wd, true, true, false, od.acq true, od.rel true, wd.bytes, d, [d],
      fun x i => globalAcc x od wd.bytes (aRD + aWR) true true true i (x.v a i), fun x => atomParts x b e wd.bytes⟩
  | .atomp c d a b e op o sc wd =>
    let od := order o sc .mru
    some ⟨c, atomUse c d a b e op, od, .atom op wd, true, true, false, od.acq true, od.rel true, wd.bytes, d, [d],
      fun x i => padAcc x wd.bytes i (x.v a i), fun x => atomParts x b e wd.bytes⟩
  | .red c a b op o sc wd =>
    let od := order o sc .mru
    some ⟨c, { vr := [a, b], hold := holdReg c (some a) (some b) none }, od, .red op wd, false, true, false, od.acq true, od.rel true,
      wd.bytes, 0, [], fun x i => globalAcc x od wd.bytes aWR true true true i (x.v a i), fun x => atomParts x b b wd.bytes⟩
  | .hgath c d a b o sc ev =>
    let od := order o sc ev
    some ⟨c, { useLoad d 4 [a, b] with hold := holdReg c (some a) (some b) none }, od, .gather, true, false, false, false, false, 8, d,
      span d 4, fun x i => gathAcc x od i (x.v a i) (x.v b i), fun x => gathParts x b⟩
  | _ => none

/-- The parts of a memory form as they leave the core: those to another device on the tenant's lanes in turn (R257, R259). -/
def MemForm.sent (m : MemForm) (x : Ex) (accs : List Acc) : State × List Part :=
  (accs.flatMap (m.parts x)).foldl (State.sendPart x.w m.act) (x.s, [])

/-- The operation that a memory form leaves outstanding for the accesses of its lanes (R236), after the FENCEs before it (R302). -/
def MemForm.op (m : MemForm) (x : Ex) (accs : List Acc) : MemOp :=
  ⟨x.w.nextOp, m.ld, m.act, m.reg, m.n, (m.sent x accs).2, m.od.strong, m.acq, m.rel, m.od.scope, m.od.evict, x.w.relScope, [], false, x.s.ctl.cycle⟩

/-- A memory form has its effect on some accesses: every executing lane passed its checks without breaking purity (R102), the release
side is complete (R310), nothing races (R269, R319), its lines are present (R232) and its counter has room (R146). -/
structure Accesses (m : MemForm) (x : Ex) (accs : List Acc) : Prop where
  ok : x.lanes.map (m.check x) = accs.map .ok
  pure : ∀ a ∈ accs, a.impure = none
  release : m.rel = true → releaseSide x.s x.w m.od.scope = none
  race : ∀ a ∈ accs, (m.od.strong = true ∨ m.cards = false ∨ cardRace x a.va m.n m.store = false) ∧ a.watched m.od = false
  present : ∀ a ∈ accs, ∀ core off, a.loc = .pad core off → x.s.padPresent x.w.launch core off m.n = true
  room : (if m.ld then x.w.cntld else x.w.cntst) < 63

/-- A wave with one more operation that brings registers (R236), beside a state. -/
def begun (s : State) (w : Wave) (pc : CodeAddr) (lanes : List Nat) (act : OpAct) (ld : Bool) (reg : Nat) (regs : List Nat) :
    Option (State × Wave) :=
  if 63 ≤ (if ld then w.cntld else w.cntst) then none
  else
    let t := startOp (seen s w pc lanes) act ld reg regs 8 (order .plain .wav .mru) false false [] []
    some (t, (t.wave? w.core w.slot).getD w)

/-- The words that leave an operation without parts: what they read is bound when it is over (R238, R293, R326, R333). -/
def queryWord : Instr → Option (Ctl × Use × Effect)
  | .grpq c d a =>
    some (c, { useLoad d 1 [a] with hold := holdReg c (some a) none none }, fun s w pc lanes =>
      begun s w pc lanes (.grpq (lanes.map (fun i => (i, w.vreg a i)))) true d [d])
  | .chq c d ch item => some (c, useLoad d 1 [], fun s w pc lanes => begun s w pc lanes (.chq ch item lanes) true d [d])
  | .pqry c d a =>
    some (c, useLoad d 1 [a], fun s w pc lanes =>
      if lanes.any (fun i => (s.padHome w (w.vreg a i)).isNone) then none
      else begun s w pc lanes
        (.pqry (lanes.map (fun i => (i, (s.padHome w (w.vreg a i)).getD 0, bits (w.vreg a i).toNat 19 7)))) true d [d])
  | .accrd c d a =>
    some (c, { useLoad d 1 [a] with roles := [0, 2, 3], hold := holdReg c (some a) none none }, fun s w pc lanes =>
      let x := seen s w pc lanes
      if lanes.any (fun i => accCheck x (w.vreg a i) matches .error _) then none
      else begun s w pc lanes (.accrd (lanes.map (fun i =>
        let v := w.vreg a i
        (i, if accCheck x v matches .ok true then 2 ^ 16 else aHANDLE v, aROW v, aCOL v)))) true d [d])
  | .accwr c d a =>
    some (c, { roles := [0, 2, 3], vr := [d, a], hold := holdReg c (some a) none none }, fun s w pc lanes =>
      let x := seen s w pc lanes
      if lanes.any (fun i => accCheck x (w.vreg a i) matches .error _) then none
      else begun s w pc lanes (.accwr ((lanes.filter (fun i => accCheck x (w.vreg a i) matches .ok false)).map (fun i =>
        let v := w.vreg a i
        (i, aHANDLE v, aROW v, aCOL v, w.vreg d i)))) false 0 [])
  | _ => none

/-- FENCE once its release side is complete: the acquire side; strong reads before it judged, and one still open marked for it (R303, R312). -/
def fenceWord : Instr → Option (Ctl × Use × Effect)
  | .fence c _ sc =>
    some (c, { impure := decide (4 ≤ sc.code) }, fun s w _ _ =>
      if (releaseSide s w sc.code).isSome then none
      else
        let v : Wave := { w with
          relTags := [], relScope := some (max sc.code (w.relScope.getD 0)), ops := w.ops.map (fun o => { o with fenced := o.fenced || o.open' }) }
        some (s.acquire w.core sc.code, v.hwSticky s.ctl.cycle 0 (if w.relTags.any (fun m => disagree m.1 m.2 sc.code) then 1 else 0)))
  | _ => none

/-! ### Rings, barriers and channels (spec/16, spec/20) -/

/-- SRARV and SRWT (R275, R276). -/
def ringWord : Instr → Option (Ctl × Use × Effect)
  | .srarv c ring a =>
    some (c, { roles := [0, 1, 2], sr := [a] }, fun s w _ _ =>
      let stage := (w.sreg a).toNat % 16
      let k := s.ctx w.launch w.core
      if ringBad (s.launch w.launch) ring stage ∨ w.ops ≠ [] ∨ w.cpWords ≠ [] ∨ w.tlWords ≠ [] then none
      else some (s.setCtx { k with rings := cellSet 0 k.rings ring (k.ring ring ^^^ 2 ^ stage) }, w))
  | .srwt c ring a ph =>
    some (c, { roles := [0, 1, 2], sr := [a] }, fun s w _ _ =>
      let stage := (w.sreg a).toNat % 16
      if ringBad (s.launch w.launch) ring stage ∨ ((s.ctx w.launch w.core).ring ring).testBit stage ≠ ph then none else some (s, w))
  | _ => none

/-- A wave's arrival at a group (R322, R324): an earlier arrival is consumed first, and the release side must be complete. -/
def arrival (s : State) (w : Wave) (g : Nat) : Option (State × Wave) :=
  match w.grec g with
  | none => none
  | some r =>
    if r.arr ∧ s.arrived w.launch r = false then none
    else
      let w1 := if r.arr then w.setGrec { r with arr := false } else w
      let s1 := if r.arr then (s.setWave w1).acquire w.core 3 else s
      if (releaseSide s1 w1 3).isSome then none
      else some (s1.arrive w1 g, ((s1.arrive w1 g).wave? w.core w.slot).getD w1)

/-- BAR, BARA and BARW (R324). -/
def barrierWord : Instr → Option (Ctl × Use × Effect)
  | .bar c g => some (c, {}, fun s w _ _ => (arrival s w g).map (fun p => (p.1, { p.2 with barHold := some g })))
  | .bara c g => some (c, {}, fun s w _ _ => arrival s w g)
  | .barw c g =>
    some (c, {}, fun s w _ _ => match w.grec g with
      | none => none
      | some r =>
        if !r.arr then some (s, w)
        else if s.arrived w.launch r then some (s.acquire w.core 3, w.setGrec { r with arr := false })
        else none)
  | _ => none

/-- CHSEND and CHRECV (R329). -/
def channelWord : Instr → Option (Ctl × Use × Effect)
  | .chsend c ch a =>
    some (c, { vr := [a] }, fun s w _ lanes =>
      let l := s.launch w.launch
      match l.chan? ch with
      | none => none
      | some k =>
        if (chanFault s w ch true).isSome ∨ k.slots ≤ k.full.length ∨ (releaseSide s w 3).isSome then none
        else some (s.setLaunch (l.setChan { k with
          full := k.full ++ [(List.range 32).map (fun i => if i ∈ lanes then w.vreg a i else 0)], sends := (k.sends + 1) % 2 ^ 64 }), w))
  | .chrecv c d ch =>
    some (c, { vw := [d], lat := 0 }, fun s w _ lanes =>
      let l := s.launch w.launch
      match l.chan? ch with
      | none => none
      | some k => match k.full with
        | [] => none
        | item :: rest =>
          if (chanFault s w ch false).isSome then none
          else some ((s.setLaunch (l.setChan { k with full := rest, recvs := (k.recvs + 1) % 2 ^ 64 })).acquire w.core 3,
            lanes.foldl (fun v i => v.setVreg d i (item.getD i 0)) w))
  | _ => none

/-! ### Matrix words (spec/17) -/

/-- OBRES, OBREL, ACCA and ACCF (R286, R287). -/
def reserveWord : Instr → Option (Ctl × Use × Effect)
  | .obres c d a =>
    some (c, useMat [a] [d], fun s w _ _ =>
      let desc := w.sreg a
      let k := s.ctx w.launch w.core
      if !descOk desc then some (s, w.setSreg d (codeWord 1))
      else if (k.resv? (bits desc.toNat 4 0)).isSome then some (s, w.setSreg d (codeWord 2))
      else match freeRows (s.resvOn w.core) (s.barredRows w.core) (dROWS desc) with
        | none => some (s, w.setSreg d (codeWord 3))
        | some b => some (s.setCtx { k with resv := k.resv ++ [⟨bits desc.toNat 4 0, desc, b, []⟩] }, w.setSreg d 0))
  | .obrel c d a =>
    some (c, useMat [a] [d], fun s w _ _ =>
      let k := s.ctx w.launch w.core
      let rid := bits (w.sreg a).toNat 4 0
      if (k.resv? rid).isNone ∨ bits (w.sreg a).toNat 63 5 ≠ 0 then some (s, w.setSreg d 1)
      else if s.ridBusy w.launch w.core rid then none
      else some ((s.setCtx { k with resv := k.resv.filter (fun r => r.rid != rid) }).bumpUnits
        ((k.resv.filter (fun r => r.rid == rid)).flatMap (rowUnits w.core)), w.setSreg d 0))
  | .acca c d a b =>
    some (c, useMat [a, b] [d], fun s w _ _ =>
      let k := s.ctx w.launch w.core
      let l := s.launch w.launch
      let rows := bits (w.sreg a).toNat 15 0
      let cols := bits (w.sreg a).toNat 31 16
      let free := s.freeAccBanks k l
      if !accaOk l (w.sreg a) (w.sreg b) then some (s, w.setSreg d (codeWord 1))
      else if free.length < banksFor rows cols then some (s, w.setSreg d (codeWord 2))
      else match (List.range 32).find? (fun e => (cellGet ⟨0, none⟩ k.handles e : HandleEntry).alloc.isNone) with
        | none => some (s, w.setSreg d (codeWord 2))
        | some e =>
          let seq := (cellGet ⟨0, none⟩ k.handles e : HandleEntry).seq
          let al : Alloc := ⟨rows, cols, bits (w.sreg b).toNat 7 0, bits (w.sreg b).toNat 8 8 == 1, w.wid, k.nextOrder, free.take (banksFor rows cols), []⟩
          some (s.setCtx { k with handles := cellSet ⟨0, none⟩ k.handles e ⟨seq, some al⟩ }, w.setSreg d (BitVec.ofNat 64 (e + 256 * seq))))
  | .accf c d a =>
    some (c, useMat [a] [d], fun s w _ _ =>
      let k := s.ctx w.launch w.core
      let h := (w.sreg a).toNat
      if 2 ^ 16 ≤ h ∨ (k.alloc? h).isNone then some (s, w.setSreg d 1)
      else if s.handleBusy w.launch w.core h then none
      else
        let e := cellGet ⟨0, none⟩ k.handles (h % 32)
        some ((s.setCtx { k with handles := cellSet ⟨0, none⟩ k.handles (h % 32) ⟨(e.seq + 1) % 256, none⟩ }).bumpUnits
          (((e.alloc.map Alloc.banks).getD []).map (s.bankAt (s.launch w.launch).tenant k.place k.core)), w.setSreg d 0))
  | _ => none

/-- A tile form: what it names, each lane's operation or fault, whether a lane's source is absent (R232), and whether the word draws
(R199). -/
structure TileForm where
  c : Ctl
  u : Use
  once : Bool
  tile : Ex → Nat → Except (Nat × Word) Tile
  absent : Ex → Nat → Bool
  draws : Ex → Bool

/-- A lane of a word that reads a block (R289, R294). -/
def blockTile (f : Ex → Word → List Word → Except (Nat × Word) Tile) (a : Nat) (x : Ex) (i : Nat) : Except (Nat × Word) Tile :=
  match x.block (x.v a i) with
  | .error e => .error e
  | .ok b => f x (x.v a i) b.2

/-- Whether a lane's block is absent. -/
def blockAbsent (a : Nat) (x : Ex) (i : Nat) : Bool :=
  match x.block (x.v a i) with
  | .error _ => false
  | .ok b => b.1

/-- The tile forms (R282): ACCZ one operation for the wave, the others one in each executing lane. -/
def tileForm : Instr → Option TileForm
  | .accz c a b =>
    some ⟨c, useMat [a, b] [], true, fun x _ =>
      let h := (x.sc a).toNat
      let q := x.sc b
      let r := bits q.toNat 15 0
      let n := bits q.toNat 31 16
      match (if 2 ^ 16 ≤ h then none else (x.s.ctx x.w.launch x.w.core).alloc? h) with
      | none => .error (cRANGE, q)
      | some al =>
        if n = 0 ∨ al.rows < r + n ∨ bits q.toNat 63 32 ≠ 0 then .error (cRANGE, q)
        else if !x.l.mayRow al x.w.wid r n then .error (cBAND, q)
        else .ok ⟨.accz h r n, [], [h], false⟩, fun _ _ => false, fun _ => false⟩
  | .obld c a b =>
    some ⟨c, { roles := [1, 2, 3], vr := [a, b], hold := holdReg c (some a) (some b) none }, false,
      fun x i => obldLane x (x.v a i) (x.v b i), fun x i => tileAbsent x (obldLane x (x.v a i) (x.v b i)), fun _ => false⟩
  | .mma c a => some ⟨c, useMma c a, false, blockTile (fun x => mmaLane x false) a, blockAbsent a, fun _ => false⟩
  | .mmas c a => some ⟨c, useMma c a, false, blockTile (fun x => mmaLane x true) a, blockAbsent a, fun _ => false⟩
  | .drain c a =>
    some ⟨c, { roles := [0, 2, 3], vr := [a], hold := holdReg c (some a) none none }, false, blockTile drainLane a, blockAbsent a,
      fun x => x.lanes.any (fun i => match x.block (x.v a i) with
        | .ok b => (DrainBlock.ofWords b.2).rndCode == 5
        | .error _ => false)⟩
  | _ => none

/-! ### Copy words (spec/16) -/

/-- The copy words: what they name, the queue place and a lane's request (R274). -/
def copyWord : Instr → Option (Ctl × Use × Nat × (Wave → Nat → JobReq))
  | .cpy c a b e dp sp q => some (c, copyUse c a b [e], q, fun w i => jobLinear .cpy sp dp (w.vreg a i) (w.vreg b i) (w.vreg e i))
  | .cpyx c a b e dp sp q =>
    some (c, copyUse c a b [e, e + 1], q, fun w i => jobRows sp dp (w.vreg a i) (w.vreg b i) (w.vreg e i) (w.vreg (e + 1) i))
  | .cpym c a b e dp q => some (c, copyUse c a b [e], q, fun w i => jobLinear .cpym false dp (w.vreg a i) (w.vreg b i) (w.vreg e i))
  | .cpyd c a b e dp sp q => some (c, copyUse c a b [e], q, fun w i => jobLinear .cpyd sp dp (w.vreg a i) (w.vreg b i) (w.vreg e i))
  | _ => none

/-! ### Services (spec/21) -/

/-- SVCREP (R347). -/
def replyWord : Instr → Option (Ctl × Use × Effect)
  | .svcrep c d a b =>
    some (c, { mode := 1, sr := [a, b], sw := [d], lat := 3, hok := true, q := true }, fun s w _ _ =>
      let cls := bits (w.sreg a).toNat 6 5
      let k := bits (w.sreg a).toNat 4 0
      let ma := slotAddr (s.tenant w.tenant) cls k
      if bits (w.sreg a).toNat 63 7 ≠ 0 ∨ cls = 3 ∨ (w.tenant ≠ 0 ∧ cls ≠ 0) then some (s, w.setSreg d 3)
      else if w.sreg b = 0 then some (s, w.setSreg d 2)
      else if (s.batch? w.tenant cls k).isNone ∨ s.readWord (ma + 0x640) ≠ 0 then some (s, w.setSreg d 1)
      else if (releaseSide s w 3).isSome then none
      else some ((s.deviceStore (ma + 0x640) (bytesOf 8 (w.sreg b).toNat) (some (w.releaseTag 3))).answer w.tenant cls k, w.setSreg d 0))
  | _ => none

/-- LAUNCH where one lane executes it (R88): the record queued, or 1 where the queue is full. -/
def launchWord : Instr → Option (Ctl × Use × Effect)
  | .launch c d a =>
    some (c, { vr := [a], vw := [d], lat := 0, impure := true }, fun s w _ lanes =>
      match lanes with
      | [i] =>
        if (releaseSide s w 3).isSome then none
        else match s.readWords w (w.vreg a i) 64 with
          | .ok rec =>
            if 4096 ≤ s.qdepth w.tenant then some (s, w.setVreg d i 1)
            else some ((s.queueLaunch w.tenant rec 0 true).settleEligible, w.setVreg d i 0)
          | _ => none
      | _ => none)
  | _ => none

/-! ### Words that hold their wave (R136) -/

/-- Where a word waits, and for what; the state it leaves beside the hold. -/
def heldWord : Instr → Option (Ctl × Use × (State → Wave → CodeAddr → List Nat → Option (State × Held)))
  | .wait c ld st cp tl => some (c, {}, fun s w _ _ => if w.countsAt ld st cp tl then none else some (s, .wait ld st cp tl))
  | .sleep c n =>
    some (c, {}, fun s w _ _ =>
      if sleepOver s w then none
      else if w.held = some .sleep then some (s, .sleep)
      else some (s.setWave { w with sleepSince := if n = 0 then none else some (s.ctl.cycle + n * 1024) }, .sleep))
  | .acqx c d n =>
    some (c, { sw := [d], lat := 3, q := true }, fun s w _ _ =>
      if w.acqxDone.isSome ∨ 16 < w.base + w.ext + n ∨ s.capacity w.launch w.core < w.ext - w.dropped.length + n ∨ s.canServe w n false then
        none
      else some (s.queueWait w n none, .acqx))
  | .bar c g | .bara c g =>
    some (c, {}, fun s w _ _ => match w.grec g with
      | some r =>
        if r.arr then (if s.arrived w.launch r then none else some (s, .bar)) else (releaseSide s w 3).map (fun t => (t, .release))
      | none => none)
  | .barw c g =>
    some (c, {}, fun s w _ _ => match w.grec g with
      | some r => if r.arr ∧ s.arrived w.launch r = false then some (s, .bar) else none
      | none => none)
  | .chsend c ch a =>
    some (c, { vr := [a] }, fun s w _ _ => match (s.launch w.launch).chan? ch with
      | some k =>
        if (chanFault s w ch true).isSome then none
        else if k.slots ≤ k.full.length then some (s, .chan) else (releaseSide s w 3).map (fun t => (t, .release))
      | none => none)
  | .chrecv c d ch =>
    some (c, { vw := [d], lat := 0 }, fun s w _ _ => match (s.launch w.launch).chan? ch with
      | some k => if k.full = [] ∧ chanFault s w ch false = none then some (s, .chan) else none
      | none => none)
  | .svc c d a cls _ =>
    some (c, { vr := span a 4, vw := span d 2, lat := 0, impure := true, hok := true }, fun s w _ _ =>
      if s.freeSlot w.tenant cls = none then some (s, .slot) else none)
  | .fence c _ sc =>
    some (c, { impure := decide (4 ≤ sc.code) }, fun s w _ _ => (releaseSide s w sc.code).map (fun t => (t, .release)))
  | .srwt c ring a ph =>
    some (c, { roles := [0, 1, 2], sr := [a] }, fun s w _ _ =>
      let stage := (w.sreg a).toNat % 16
      if ringBad (s.launch w.launch) ring stage = false ∧ ((s.ctx w.launch w.core).ring ring).testBit stage ≠ ph then some (s, .ring) else none)
  | _ => none

/-! ### What a word names, for all tables -/

/-- What the words of the tables that compute name and ask for. -/
def useOf (i : Instr) : Option (Ctl × Use) :=
  ((vecWord i).map (fun x => (x.1, x.2.1))).or (((predWord i).map (fun x => (x.1, x.2.1))).or (((floatWord i).map (fun x => (x.1, x.2.1))).or
    (((scalWord i).map (fun x => (x.1, x.2.1))).or (((bindingWord i).map (fun x => (x.1, x.2.1))).or
      (((ringWord i).map (fun x => (x.1, x.2.1))).or (((reserveWord i).map (fun x => (x.1, x.2.1))).or
        (((tileForm i).map (fun x => (x.c, x.u))).or (((copyWord i).map (fun x => (x.1, x.2.1))).or
          ((mtsWord i).map (fun x => (x.1, x.2.1)))))))))))

/-- A word faces its checks: some lane executes it, HANG is not due and its guards are settled; the launch is not pure. -/
structure Faces (c : Ctl) (u : Use) (s : State) (w : Wave) (pc : CodeAddr) : Prop where
  pos : At s w pc
  some : execLanes c u.q w (w.activeAt pc) ≠ []
  hang : w.hangArmed = false
  guards : s.pendOf w (guardsOf c u.q) true = []
  pure : (s.launch w.launch).pure = false

/-- The lanes that a word turned away parks (R39, Table 21-3): those that execute it, and of a scalar-guarded word the whole active
set. -/
def targets (c : Ctl) (u : Use) (w : Wave) (pc : CodeAddr) : List Nat :=
  if u.q then w.activeAt pc else execLanes c u.q w (w.activeAt pc)

/-- Lanes of a wave park at their word, and nothing else takes effect: no PC moves, no register changes, nothing is counted (R39, R43). -/
structure Parks (s : State) (w : Wave) (lanes : List Nat) (cause : Nat) (addr : Word) (t : State) (v : Wave) : Prop where
  wave : t.wave? w.core w.slot = some v
  lanes : ∀ i < 32, v.lane i = if i ∈ lanes then parked cause addr (w.lane i) else w.lane i
  regs : v.vregs = w.vregs ∧ v.sregs = w.sregs ∧ v.preds = w.preds ∧ v.qpreds = w.qpreds
  flags : FlagsKept w v
  special : SpecialKept w v
  rest : t.tasks = s.tasks ∧ t.ctl = s.ctl ∧ t.mem = s.mem ∧ t.dev = s.dev ∧ t.cores.ctxs = (s.dropWait w).cores.ctxs
  waves : ∀ c k, ¬(c = w.core ∧ k = w.slot) → t.wave? c k = s.wave? c k

/-! ### Outstanding operations (R236) -/

/-- A wave has an operation of one part that may be performed now (R299, R310), and no request sent before it has still to arrive (R252). -/
structure OnePart (s : State) (w : Wave) (id : Nat) (o : MemOp) (p : Part) : Prop where
  here : s.wave? w.core w.slot = some w
  live : w.allExited = false
  op : w.op? id = some o
  parts : o.parts = [p]
  may : w.mayPerform o 0 = true
  first : s.behind w o 0 = false
  lane : p.k = 0 ∧ p.lane < 32
  size : p.size ∈ [1, 2, 4, 8]

/-- The part lies at `a` of an unprotected frame of the wave's tenant, and the request of its sector leaves and is accepted: no retry holds it,
and its stops and its home slice have their tokens (R115, R249, R255). -/
structure AtHome (s : State) (w : Wave) (o : MemOp) (p : Part) (a : Nat) : Prop where
  loc : p.loc = .mem a
  plain : isProt p.attr = false
  aligned : a % p.size = 0
  owner : (s.frame (mfnOf a)).owner = w.tenant
  accepted : (s.request w.core w.tenant (a / 32 * 32) (w.asker o 0)).isOk = true

/-- The part lies at `off` of the launch's scratchpad on core `c`, to which its flits may go (R255). -/
structure AtPad (s : State) (w : Wave) (p : Part) (c off : Nat) : Prop where
  loc : p.loc = .pad c off
  aligned : off % p.size = 0
  there : (s.ctx? w.launch c).isSome = true
  goes : (s.takeStops w.tenant (State.stopsPad w.core c)).isSome = true

/-- The register of an operation is the wave's, none of its granules is dropped (R169), and no later word has overtaken it (R159). -/
def Lands (w : Wave) (o : MemOp) : Prop := o.reg < w.vcount ∧ w.dropped = [] ∧ ∀ q ∈ w.pend, q.due = .op o.id → q.clob = false

/-- A byte of a launch's scratchpad on a core. -/
def padByte (s : State) (launch core off : Nat) : Byte := cellGet 0 (s.ctx launch core).pad off

/-! ### What copies and tile operations move (spec/16, spec/17) -/

/-- A place: the core of a pool, or none for main memory, and the address there. -/
abbrev Place := Option Nat × Nat

/-- Where an offset of a job's end lies; none behind the link, in a PROT frame, or on no page. -/
def endPlace (e : JobEnd) (up : Nat) : Option Place :=
  match e.pad with
  | some core => some (some core, e.addr + up)
  | none => (e.pageAt (e.addr + up)).bind (fun p => match p.2.2.1.plus (e.addr + up - p.1) with
      | .mem ma => if isProt p.2.2.2 then none else some (none, ma)
      | _ => none)

/-- The `n`-th byte from a place on, in main memory or in a launch's scratchpad. -/
def placeByte (s : State) (launch : Nat) (p : Place) (n : Nat) : Byte :=
  match p.1 with
  | some core => padByte s launch core (p.2 + n)
  | none => s.byte (p.2 + n)

/-- What a software store leaves at the `n`-th byte from a place on: a byte of the device's own records stays (R3). -/
def storedByte (s : State) (launch : Nat) (p : Place) (n : Nat) (new : Byte) : Byte :=
  if p.1 = none ∧ s.inRecord (p.2 + n) = true then placeByte s launch p n else new

/-- Ranges of `n` bytes at two places do not meet. -/
def Apart (p q : Place) (n : Nat) : Prop := p.1 ≠ q.1 ∨ p.2 + n ≤ q.2 ∨ q.2 + n ≤ p.2

/-- A launch has a pool where a place lies. -/
def Reachable (s : State) (launch : Nat) (p : Place) : Prop := ∀ core, p.1 = some core → (s.ctx? launch core).isSome = true

/-- Between two states no byte of main memory and of scratchpads changes but in ranges of `n` bytes from some places of a launch on. -/
structure OnlyAt (s t : State) (launch n : Nat) (ps : List Place) : Prop where
  mem : ∀ m, (∀ p ∈ ps, p.1 = none → m < p.2 ∨ p.2 + n ≤ m) → t.byte m = s.byte m
  pad : ∀ q core m, (q = launch → ∀ p ∈ ps, p.1 = some core → m < p.2 ∨ p.2 + n ≤ m) → padByte t q core m = padByte s q core m

/-- Two stores, each a place and the bytes stored there, do not meet. -/
abbrev StoresApart (x y : Place × List Byte) : Prop := x.1.1 ≠ y.1.1 ∨ x.1.2 + x.2.length ≤ y.1.2 ∨ y.1.2 + y.2.length ≤ x.1.2

/-- Between two states some stores have been made, and no other byte of main memory and of scratchpads has changed. -/
structure Stored (s t : State) (launch : Nat) (l : List (Place × List Byte)) : Prop where
  written : ∀ x ∈ l, ∀ n < x.2.length, placeByte t launch x.1 n = storedByte s launch x.1 n (x.2.getD n 0)
  mem : ∀ m, (∀ x ∈ l, x.1.1 = none → m < x.1.2 ∨ x.1.2 + x.2.length ≤ m) → t.byte m = s.byte m
  pad : ∀ q core m, (q = launch → ∀ x ∈ l, x.1.1 = some core → m < x.1.2 ∨ x.1.2 + x.2.length ≤ m) →
    padByte t q core m = padByte s q core m

/-- A unit of a card may be moved now (R110, R264): its queue has its turn and is held, and `todo` is what is left after it. -/
structure MayMove (s : State) (c : Ctx) (k : Card) (unit : Nat) (todo : List Nat) : Prop where
  served : s.served c k = true
  turn : s.turnOf (engineOf k.phys) = some k.phys
  held : s.queueHeld c k = true
  left : k.take unit = some todo

/-- A tile operation is over (R282): it is gone, and where it was the last of the oldest word of its wave the word leaves CNTTL with its flags
in FSTAT (R200, R283). -/
structure TileOver (s : State) (c : Ctx) (u : TileOp) (fl : Flags) (t : State) : Prop where
  gone : ∀ x ∈ (t.ctx c.launch c.core).tiles, x.id ≠ u.id
  flags : ∀ w, s.wave? c.core u.slot = some w → w.allExited = false → w.tlWords = [u.word] → w.tlFlags = [] →
    (∀ x ∈ c.tiles, x.id ≠ u.id → ¬(x.slot = u.slot ∧ x.word = u.word)) →
    ∃ v, t.wave? c.core u.slot = some v ∧ v.tlWords = [] ∧ v.fstat = w.fstat ||| fl ∧ v.vregs = w.vregs

/-- What row `r` of a drain gives: its scale bytes, its elements' bits and its flags (R202, R295). -/
def drainedRow (s : State) (c : Ctx) (u : TileOp) (wid n : Nat) (b : DrainBlock) (al : Alloc) (r : Nat) : List Nat × List Nat × Flags :=
  drainRow b (fun i => if b.rndCode = 5 then draw16 (s.launch c.launch).lid wid n u.lane (r * b.cols + i) else 0)
    ((List.range b.cols).map (fun j => al.elem (b.row0 + r) (b.col0 + j)))

/-- An element of the rows and columns that a drain reads. -/
def inDrain (b : DrainBlock) (i j : Nat) : Bool := decide (b.row0 ≤ i ∧ i < b.row0 + b.rows ∧ b.col0 ≤ j ∧ j < b.col0 + b.cols)

/-! ### Pair words (R36 to R39) -/

/-- A half acts in a lane: a vector half whose G holds there. -/
def halfActs (h : Half) (w : Wave) (i : Nat) : Bool := !h.op.scalar && h.op != .nop && w.guardAt h.g i

/-- A half acts for the wave: a scalar half whose G holds. -/
def halfActsOnce (h : Half) (w : Wave) : Bool := h.op.scalar && w.qguard h.g

/-- What a half computes in a lane from what stood before the pair. -/
def halfInLane (h : Half) (w : Wave) (i : Nat) : VRes := halfVal h (w.vreg h.s i) (w.vreg h.x i) (w.vreg h.d i)

/-- What a scalar half computes. -/
def halfOnce (h : Half) (w : Wave) : Word := (halfVal h (w.sreg h.s) (w.sreg h.x) 0).val

/-- What a pair names, a half that executes nowhere writing nothing (R36). -/
def pairOf (h0 h1 : Half) (w : Wave) (pc : CodeAddr) : Use :=
  pairUse h0 h1 (pairScalar h0 h1 w) (halfRuns h0 w (w.activeAt pc)) (halfRuns h1 w (w.activeAt pc))

/-- A pair that passes every check that stands before its effect; `Clear` says of which. -/
structure PairClear (h0 h1 : Half) (s : State) (w : Wave) (pc : CodeAddr) : Prop where
  pos : At s w pc
  role : w.role ≤ 3
  some : pairScalar h0 h1 w = true ∨ pairLanes h0 h1 w (w.activeAt pc) ≠ []
  lane : w.activeAt pc ≠ []
  hang : w.hangArmed = false
  bank : pairBadBank h0 h1 = false
  block : ∀ r ∈ (pairOf h0 h1 w pc).vr ++ (pairOf h0 h1 w pc).vw ++ (pairOf h0 h1 w pc).named, r < w.vcount
  settled : s.pendOf w (pairOf h0 h1 w pc) true = []
  kept : (∀ r ∈ (pairOf h0 h1 w pc).vr, w.isDropped r = false) ∧ s.rematReg w (pairOf h0 h1 w pc) = none
  pure : (s.launch w.launch).pure = false

/-! ### Handlers (R338 to R341) -/

/-- A word of a handler that meets no obstacle: the wave's handler stands at it, its guards hold, and it passes every check. -/
structure HClear (c : Ctl) (u : Use) (s : State) (w : Wave) (h : Handler) : Prop where
  here : s.wave? s.ctl.focus.core s.ctl.focus.slot = some w
  own : w.hnd = some h
  free : h.svc = false
  live : w.allExited = false
  runs : if u.q then w.qguard c.ga = true ∧ w.qguard c.gb = true else w.guardAt c.ga h.lane = true ∧ w.guardAt c.gb h.lane = true
  lane : h.lane < 32
  hang : w.hangArmed = false
  legal : u.illegal = false ∧ u.badBank = false
  mode : u.mode ≤ w.mode
  role : w.role ∈ u.roles
  block : ∀ r ∈ u.vr ++ u.vw ++ u.touch ++ u.named, r < w.vcount
  settled : s.pendOf w (u.guarded c) true = []
  kept : (∀ r ∈ u.vr, w.isDropped r = false) ∧ s.rematReg w (u.guarded c) = none
  latch : ∀ e ∈ (s.quad w.core w.quad).latch, e.slot = w.slot → ∀ i < 32, e.vals.getD i 0 = w.vreg e.reg i
  pure : (s.launch w.launch).pure = false

/-- The launch with a number is there. -/
def Known (s : State) (uid : Nat) : Prop := ∃ l ∈ s.tasks.launches, l.uid = uid

/-! ### Stops and the records of the two rings -/

/-- A wave stopped at its boundary by force (R358): a sleep is over, a word that holds it is issued afresh, its registers stand. -/
def halted (w : Wave) : Wave :=
  let v := if w.sleeps then w.endSleep else { w with held := none, heldAt := none }
  { v with hnd := v.hnd.map (fun h => { h with held := none }), pinned := [], stopped := some none, stopAsked := false, pend := [] }

/-- The one wave of a launch on some core places, not yet stopped. -/
structure OnlyWave (s : State) (uid : Nat) (places : List Nat) (w : Wave) : Prop where
  only : s.cores.waves.filter (fun x => x.launch == uid && places.contains x.corepl) = [w]
  here : s.wave? w.core w.slot = some w
  slot : w.resident = true
  goes : w.stopped = none

/-- The wave is `v` in `t`; every other slot and quadrant, memory, control and the device's registers are as they were. -/
structure WaveTo (s : State) (w v : Wave) (t : State) : Prop where
  wave : t.wave? w.core w.slot = some v
  waves : ∀ c k, ¬(c = w.core ∧ k = w.slot) → t.wave? c k = s.wave? c k
  mem : t.mem = s.mem
  ctl : t.ctl = s.ctl
  dev : t.dev = s.dev
  quads : ∀ c q, ¬(c = w.core ∧ q = w.quad) → t.quad c q = s.quad c q

/-- A wave is stopped by force: it is `halted`, its entries of the operand latch are gone and no others (R158), and it waits for storage no
more (R161). -/
def Halts (s : State) (w : Wave) (t : State) : Prop :=
  WaveTo s w (halted w) t ∧ (∀ e, e ∈ (t.quad w.core w.quad).latch ↔ e ∈ (s.quad w.core w.quad).latch ∧ e.slot ≠ w.slot) ∧
    t.cores.ctxs = (s.dropWait w).cores.ctxs

/-- A host event of a kind with its detail and SEQ, before its PHASE (R80, R81, R83). -/
def eventOf (s : State) (kind : Nat) (detail : Word) : WaitRec :=
  ⟨recordWords (fieldAt 0 s.ctl.seq + fieldAt 64 detail.toNat + fieldAt 431 (s.dev.claimBishop.getLsbD kind).toNat + fieldAt 432 kind)⟩

/-- The bytes of main memory outside a range are as they were. -/
def BytesKept (s t : State) (a n : Nat) : Prop := ∀ m, m < a ∨ a + n ≤ m → t.byte m = s.byte m

/-- A record of eight words stands at an address of a ring, under a phase bit (R78, R80). -/
def RecordAt (t : State) (a : Nat) (l : List Word) (phase : Nat) : Prop :=
  (∀ i < 7, t.readWord (a + 8 * i) = l.getD i 0) ∧ t.readWord (a + 56) = BitVec.ofNat 64 ((l.getD 7 0).toNat + phase)

/-- Two states differ in no tenant but one. -/
def TenantsKept (s t : State) (but : Nat) : Prop := ∀ k, k ≠ but → t.tenant k = s.tenant k

end Sys2Proof.Safety
end

