-- ==== Sys2Proof/Certificates/Slice0/Obligations.lean ====
section
/-! DEFINITION. What is claimed of this machine, for the provers. -/

section
open Sys2Proof Sys2Proof.Machine Sys2Proof.Safety

/-! ### Words and their decoding -/

/-- The word of a well-formed instruction decodes to it, with every operand at every value its encoding admits (R22 to R38). -/
def Obligations.EncodedInstructionDecodes : Prop :=
  ∀ (i : Instr) (x : Nat), wellFormed i = true → encode i = some x → x < 2 ^ 64 ∧ decode (BitVec.ofNat 64 x) = .ok i

/-- A word that decodes is the one encoding of its instruction: two words never mean the same (R22, R40). -/
def Obligations.DecodedWordIsItsEncoding : Prop :=
  (∀ (x : Word) (i : Instr), decode x = .ok i → wellFormed i = true ∧ encode i = some x.toNat) ∧
  ∀ (x y : Word) (i : Instr), decode x = .ok i → decode y = .ok i → x = y

/-- The spec's own example words decode to the instructions they are given for. -/
def Obligations.ExampleWordsDecode : Prop :=
  decode 0x0040_3FFF_FFA0_0000 = .ok (.bra plainCtl (-24) .none) ∧
  decode 0x0440_0000_0000_4800 = .ok (.trap plainCtl 0x12) ∧
  decode 0x0500_003B_0000_0000 = .ok (.rte plainCtl 59) ∧
  decode 0x0D00_0286_0602_8400 = .ok (.iadd plainCtl 5 6 (.s 3) .s16x4 true) ∧
  decode 0x1B40_0104_0A00_2800 = .ok (.ssetq plainCtl 2 4 5 .lt true) ∧
  decode 0x282C_0302_000A_6002 = .ok (.ldg { plainCtl with ga := ⟨true, 3⟩ } 6 2 2 .b32 .acqrel .dev .mru) ∧
  decode 0x3580_0006_0000_0000 = .ok (.mma plainCtl 6) ∧
  decode 0x3900_000C_0000_1400 = .ok (.chsend plainCtl 5 12) ∧
  decode 0x8401_C286_4804_030C = .ok (.pairWord ⟨.iadd, Guard.always, 7, 5, 6⟩ ⟨.ffma, Guard.always, 8, 3, 6⟩ false)

/-- A full word of an opcode that Table 2-14 does not assign is no instruction, and no pair with a reserved half opcode is one. -/
def Obligations.UnassignedOpcodesRefused : Prop :=
  (∀ x : Word, x.toNat < 2 ^ 63 →
    (∀ r ∈ [(0x000, 0x017), (0x020, 0x025), (0x030, 0x04E), (0x050, 0x056), (0x060, 0x06F), (0x080, 0x095), (0x0A0, 0x0AC),
        (0x0B0, 0x0B8), (0x0C0, 0x0C5), (0x0D0, 0x0DA), (0x0E0, 0x0E6)],
      ¬(r.1 ≤ x.toNat / 2 ^ 54 ∧ x.toNat / 2 ^ 54 ≤ r.2)) → ∃ r, decode x = .error r) ∧
  ∀ x : Word, 2 ^ 63 ≤ x.toNat → (0x18 ≤ x.toNat / 2 ^ 57 % 2 ^ 6 ∨ 0x18 ≤ x.toNat / 2 ^ 26 % 2 ^ 6) → ∃ r, decode x = .error r

/-! ### One step -/

/-- A STEP RUNS THE DECODED INSTRUCTION. When the next move is an issue of a quadrant that is free, and the first wave that may issue
there stands at a word that decodes, the step is `exec` of its instruction with that wave at the focus. What the step adds: the move
leaves the agenda, waves stand at their boundaries before (R115, R335), the fetch takes the tokens of its request (R249, R255) and leaves its
translation and its line in the caches (R222, R226); after a word that issued the other waves of the quadrant are told whether they were passed
over (R154), and after one that is held the next wave is tried (R136, R137). The second clause says the same with nothing on the agenda, for the
quadrant at the focus. The third says that where the fetch finds no token its wave waits and the next wave is tried (log 11: a fetch waits like
any request). -/
def Obligations.StepRunsDecodedInstruction : Prop :=
  (∀ (s s1 g : State) (core quad : Nat) (rest : List Move) (w : Wave) (others : List Wave) (pc : CodeAddr) (x : Word) (i : Instr),
    s.ctl.power = true → s.ctl.agenda = .issue core quad :: rest → (s.setAgenda rest).boundaries core quad = s1 →
    (s1.quad core quad).busyUntil ≤ s1.ctl.cycle → s1.candidates core quad = w :: others → w.nextPc = some pc →
    s1.fetch w pc = .ok x → s1.fetchGoes w pc = .ok g → decode x = .ok i →
    step s = match exec i ((g.fetchFills w pc).setFocus w.core w.slot) with
      | .next t => if issuedNow w t then .next ((s1.othersIn w).foldl (State.passOver s1) t) else choose others t
      | r => r) ∧
  (∀ (s s1 g t : State) (w : Wave) (others : List Wave) (pc : CodeAddr) (x : Word) (i : Instr),
    s.ctl.power = true → s.ctl.agenda = [] → s.boundaries s.ctl.focus.core s.ctl.focus.quad = s1 →
    (s.quad s.ctl.focus.core s.ctl.focus.quad).busyUntil ≤ s.ctl.cycle →
    (s1.quad s.ctl.focus.core s.ctl.focus.quad).busyUntil ≤ s1.ctl.cycle →
    s1.candidates s.ctl.focus.core s.ctl.focus.quad = w :: others → w.nextPc = some pc → s1.fetch w pc = .ok x →
    s1.fetchGoes w pc = .ok g → decode x = .ok i → exec i ((g.fetchFills w pc).setFocus w.core w.slot) = .next t → issuedNow w t = true →
    s.ctl.cycle < (t.quad s.ctl.focus.core s.ctl.focus.quad).busyUntil →
    step s = .next ((s1.othersIn w).foldl (State.passOver s1) t)) ∧
  ∀ (s s1 g : State) (core quad : Nat) (rest : List Move) (w : Wave) (others : List Wave) (pc : CodeAddr),
    s.ctl.power = true → s.ctl.agenda = .issue core quad :: rest → (s.setAgenda rest).boundaries core quad = s1 →
    (s1.quad core quad).busyUntil ≤ s1.ctl.cycle → s1.candidates core quad = w :: others → w.nextPc = some pc →
    s1.fetchGoes w pc = .error g → step s = choose others g

/-- An event of the agenda is its instruction's meaning on the state without it. A passing of cycles adds them to the cycle count (R1, R145);
waves that a forced request names have stopped as the first of them ends (R389, log 41), and the cycles that a wave is held at a WAIT are added to
its counter (R154). Without power nothing moves until power comes on (R390). -/
def Obligations.StepRunsEvent : Prop :=
  (∀ (s : State) (i : Instr) (rest : List Move), s.ctl.power = true ∨ s.poweringOn = true → s.ctl.agenda = .event i :: rest →
    isEvent i = true → step s = exec i (s.setAgenda rest)) ∧
  (∀ (s u : State) (n : Nat) (rest : List Move), s.ctl.power = true → s.ctl.agenda = .elapse n :: rest →
    (s.setAgenda rest).haltDue.noteShares = u →
    (∃ t, step s = .next t ∧ t.ctl = { s.ctl with cycle := s.ctl.cycle + n, agenda := rest } ∧ t.mem = s.mem ∧ t.dev = s.dev ∧
      t.cores = { u.cores with waves := u.cores.waves.map (fun w =>
        if (u.setCtl { u.ctl with cycle := max s.ctl.cycle w.nextIssue }).atWait w then w.bump 6 (n - (w.nextIssue - s.ctl.cycle)) else w) }) ∧
    ((∀ r ∈ s.tasks.stops, r.forced = false) → u.cores = s.cores)) ∧
  ∀ s : State, s.ctl.power = false → (∀ l rest, s.ctl.agenda ≠ .event (.powerOn l) :: rest) → step s = .fault .powerOff

/-- Main memory and the frame table keep their canonical form through every step, whatever runs. -/
def Obligations.StepKeepsMemoryForm : Prop :=
  ∀ s t : State, Memory.wf s.mem.bytes = true → cellWf Frame.free s.mem.frames = true → step s = .next t →
    Memory.wf t.mem.bytes = true ∧ cellWf Frame.free t.mem.frames = true

/-- What reset leaves. The spec's: SEQ 1 (R83), device time 0 (R145), every word of the readiness page 0 (R391). The model's own choice, where
the spec gives no reset value (logs 3, 4 and 22): no wave, no tenant and no launch, and memory and the frame table in their canonical form,
which every step keeps. -/
def Obligations.ResetState : Prop :=
  State.reset.ctl.seq = 1 ∧ State.reset.ns = 0 ∧ (∀ n, cellGet 0 State.reset.dev.readiness n = (0 : Word)) ∧
  State.reset.cores.waves = [] ∧ State.reset.tasks.tenants = [] ∧ State.reset.tasks.launches = [] ∧
  Memory.wf State.reset.mem.bytes = true ∧ cellWf Frame.free State.reset.mem.frames = true

/-! ### Words over registers -/

/-- The words of the table `vecWord` end with their result in the destination register of each executing lane: every other register,
flag, special register and byte of memory is unchanged, and every active lane goes on. -/
def Obligations.VectorWords : Prop :=
  ∀ i c u d f s w pc, vecWord i = some (c, u, d, f) → Clear c u s w pc →
    ∃ t v, exec i s = .next t ∧
      WroteVec s w pc (execLanes c u.q w (w.activeAt pc)) d (f s w (execLanes c u.q w (w.activeAt pc))) 0 false t v

/-- The words of the table `predWord` write their lane predicate in each executing lane; p0 takes nothing (R25). Nothing else changes. -/
def Obligations.PredicateWords : Prop :=
  ∀ i c u d f s w pc, predWord i = some (c, u, d, f) → Clear c u s w pc →
    ∃ t v, exec i s = .next t ∧ Went s w pc t v ∧ RestKept s t w ∧
      (∀ q, ∀ k < 32, v.pred q k =
        if q = d ∧ d ≠ 0 ∧ k ∈ execLanes c u.q w (w.activeAt pc) then f s w (execLanes c u.q w (w.activeAt pc)) k else w.pred q k) ∧
      VecKept w v (fun _ _ => False) ∧ ScalKept w v (fun _ => False) ∧ v.qpreds = w.qpreds ∧ SpecialKept w v ∧ FlagsKept w v

/-- The words of the table `floatWord` end with their result in the destination register, with the events of the executing lanes
together in FSTAT (R197), and with RNGCTR counted where the word draws (R199). Nothing else changes. -/
def Obligations.FloatWords : Prop :=
  ∀ i c u d b f s w pc, floatWord i = some (c, u, d, b, f) → Clear c u s w pc →
    ∃ t v, exec i s = .next t ∧
      WroteVec s w pc (execLanes c u.q w (w.activeAt pc)) d (fun k => (f s w (execLanes c u.q w (w.activeAt pc)) k).val)
        (orFlags ((execLanes c u.q w (w.activeAt pc)).map (fun k => (f s w (execLanes c u.q w (w.activeAt pc)) k).fl))) b t v

/-- The words of the table `scalWord` write one scalar register once for the wave. Nothing else changes. -/
def Obligations.ScalarWords : Prop :=
  ∀ i c u d f s w pc, scalWord i = some (c, u, d, f) → Clear c u s w pc →
    ∃ t v, exec i s = .next t ∧ WroteScal s w pc d (f s w (execLanes c u.q w (w.activeAt pc))) t v

/-- SSETQ writes its scalar predicate with the comparison of its scalars, signed or unsigned (R186); q0 takes nothing (R25). WRLANE
writes one element of one lane of its register, whatever that lane's state (R187, R192). -/
def Obligations.ScalarPredicateAndLaneWrite : Prop :=
  (∀ c d a b k u s w pc, Clear c { sr := [a, b], qw := [d], lat := 3, hok := true, q := true } s w pc →
    ∃ t v, exec (.ssetq c d a b k u) s = .next t ∧ Went s w pc t v ∧ RestKept s t w ∧
      (∀ q, v.qpred q = if q = d ∧ d ≠ 0 then compareInt k (scalarInt u (w.sreg a)) (scalarInt u (w.sreg b)) else w.qpred q) ∧
      VecKept w v (fun _ _ => False) ∧ ScalKept w v (fun _ => False) ∧ v.preds = w.preds ∧ SpecialKept w v ∧ FlagsKept w v) ∧
  ∀ c d a b t s w pc, Clear c { sr := [a, b], vw := [d], lat := 8, hok := true } s w pc →
    ∃ s1 v, exec (.wrlane c d a b t) s = .next s1 ∧
      WroteVec s w pc [leaLane (w.sreg b).toNat] d
        (fun i => setElem (w.vreg d i) t (leaElem (w.sreg b).toNat t.count) ((w.sreg a).toNat % 2 ^ t.bits)) 0 false s1 v

/-! ### What words compute, in the spec's own terms -/

/-- IADD, ISUB, IMUL and IMAD compute each element exactly and then wrap it to the element's width; with SAT the exact value is first
clamped to the type's range (R175). -/
def Obligations.IntegerElements : Prop :=
  ∀ t ∈ intTypes, ∀ z c d a b e s w pc, Clear c (useABC c d a (some b) none) s w pc →
    (∀ op ∈ [(Instr.iadd c d a b t z, fun x y : Int => x + y), (.isub c d a b t z, fun x y => x - y), (.imul c d a b t z, fun x y => x * y)],
      ∃ s1 v, exec op.1 s = .next s1 ∧ s1.wave? w.core w.slot = some v ∧
        ∀ i ∈ execLanes c false w (w.activeAt pc), ∀ j < t.count,
          let x := op.2 (elemInt (w.vreg a i) t j) (elemInt (operand w b i) t j)
          elemBits (v.vreg d i) t.bits j = wrap (if z then (if x < t.lo then t.lo else if t.hi < x then t.hi else x) else x) t.bits) ∧
    (Clear c (useABC c d a (some b) (some e)) s w pc →
      ∃ s1 v, exec (.imad c d a b e t z) s = .next s1 ∧ s1.wave? w.core w.slot = some v ∧
        ∀ i ∈ execLanes c false w (w.activeAt pc), ∀ j < t.count,
          let x := elemInt (w.vreg a i) t j * elemInt (operand w b i) t j + elemInt (w.vreg e i) t j
          elemBits (v.vreg d i) t.bits j = wrap (if z then (if x < t.lo then t.lo else if t.hi < x then t.hi else x) else x) t.bits)

/-- SHL, SHR, SAR and ROT move each element by its count taken mod the element's width, or by the count of element 0 with UNI (R179). -/
def Obligations.ShiftElements : Prop :=
  ∀ t ∈ intTypes, ∀ u c d a b s w pc, Clear c (useABC c d a (some b) none) s w pc →
    ∀ op ∈ [(Instr.shl c d a b t u, fun x k : Nat => x * 2 ^ k % 2 ^ t.bits), (.shr c d a b t u, fun x k => x / 2 ^ k),
        (.sar c d a b t u, fun x k => wrap (sext x t.bits / 2 ^ k) t.bits),
        (.rot c d a b t u, fun x k => (x * 2 ^ k + x / 2 ^ (t.bits - k)) % 2 ^ t.bits)],
      ∃ s1 v, exec op.1 s = .next s1 ∧ s1.wave? w.core w.slot = some v ∧
        ∀ i ∈ execLanes c false w (w.activeAt pc), ∀ j < t.count,
          elemBits (v.vreg d i) t.bits j =
            op.2 (elemBits (w.vreg a i) t.bits j) (elemBits (operand w b i) t.bits (if u then 0 else j) % t.bits)

/-- POPC writes the number of 1 bits of each element, CLZ the number of its leading 0 bits, which is its width for a zero element, and
BREV its bits in reverse order (R181). -/
def Obligations.CountAndReverseElements : Prop :=
  ∀ t ∈ intTypes, ∀ c d a s w pc, Clear c (useABC c d a none none) s w pc →
    ∀ op ∈ [(Instr.popc c d a t, fun x y : Nat => y = ((List.range t.bits).filter x.testBit).length),
        (.clz c d a t, fun x y => y ≤ t.bits ∧ x < 2 ^ (t.bits - y) ∧ (y < t.bits → x.testBit (t.bits - 1 - y) = true)),
        (.brev c d a t, fun x y => ∀ k < t.bits, y.testBit k = x.testBit (t.bits - 1 - k))],
      ∃ s1 v, exec op.1 s = .next s1 ∧ s1.wave? w.core w.slot = some v ∧
        ∀ i ∈ execLanes c false w (w.activeAt pc), ∀ j < t.count, op.2 (elemBits (w.vreg a i) t.bits j) (elemBits (v.vreg d i) t.bits j)

/-- LEA adds to a base an index, the whole of bv or its low word extended with or without its sign, times a power of two (R182). -/
def Obligations.LeaAddress : Prop :=
  ∀ t ∈ [Ty.s64, .s32x2, .z32x2], ∀ sh c d a b s w pc, Clear c (useABC c d a (some b) none) s w pc →
    ∃ s1 v, exec (.lea c d a b t sh) s = .next s1 ∧ s1.wave? w.core w.slot = some v ∧
      ∀ i ∈ execLanes c false w (w.activeAt pc),
        let bv := operand w b i
        let idx : Int := match t with
          | .s32x2 => sext (bits bv.toNat 31 0) 32
          | .z32x2 => ((bits bv.toNat 31 0 : Nat) : Int)
          | _ => bv.toInt
        (v.vreg d i).toNat = wrap ((w.vreg a i).toNat + idx * 2 ^ sh) 64

/-- LSHF gives each executing lane its source lane's register where there is such a lane, else its own (R189). -/
def Obligations.LaneShift : Prop :=
  ∀ k c d a b s w pc, Clear c { useABC c d a (some b) none with lat := 8 } s w pc →
    ∃ s1 v, exec (.lshf c d a b k) s = .next s1 ∧ s1.wave? w.core w.slot = some v ∧
      ∀ i ∈ execLanes c false w (w.activeAt pc),
        let n := (operand w b i).toNat % 32
        let src : Int := match k with
          | .dn => (i : Int) + n
          | .up => (i : Int) - n
          | .bfly => ((i ^^^ n : Nat) : Int)
          | .wrap => (((i + n) % 32 : Nat) : Int)
        v.vreg d i = if 0 ≤ src ∧ src ≤ 31 then w.vreg a src.toNat else w.vreg a i

/-- PLOP writes the bit of its table that its two predicates select (R184); a word that is PLOP has M zero. -/
def Obligations.PredicateTable : Prop :=
  (∀ c d p q n s w pc, Clear c { pr := [p, q], pw := [d] } s w pc →
    ∃ s1 v, exec (.plop c d p q n) s = .next s1 ∧ s1.wave? w.core w.slot = some v ∧
      ∀ i ∈ execLanes c false w (w.activeAt pc), d ≠ 0 → v.pred d i = n.testBit ((w.pred p i).toNat + 2 * (w.pred q i).toNat)) ∧
  ∀ (x : Word) c d p q n, decode x = .ok (.plop c d p q n) → x.toNat / 2 ^ 10 % 2 ^ 8 = 0

/-- FMIN and FMAX return one operand bit for bit: the other one where exactly one is NaN, the default NaN where both are, else the
lesser or the greater with −0 below +0. They set no flag (R208). -/
def Obligations.FloatMinMax : Prop :=
  ∀ t ∈ floatTypes, ∀ c d a b s w pc, Clear c (useF c d a (some b) none [t] .rne) s w pc →
    ∀ op ∈ [(Instr.fmin c d a b t, fun x y : FVal => x.ltZ y), (.fmax c d a b t, fun x y => y.ltZ x)],
      ∃ s1 v, exec op.1 s = .next s1 ∧ s1.wave? w.core w.slot = some v ∧ v.fstat = w.fstat ∧
        ∀ i ∈ execLanes c false w (w.activeAt pc), ∀ j < t.count,
          let x := elemBits (w.vreg a i) t.bits j
          let y := elemBits (operand w b i) t.bits j
          let r := elemBits (v.vreg d i) t.bits j
          let p := (fmtOf t).read x
          let q := (fmtOf t).read y
          (p.isNan = true → q.isNan = true → r = (fmtOf t).nanBits) ∧ (p.isNan = true → q.isNan = false → r = y) ∧
          (p.isNan = false → q.isNan = true → r = x) ∧
          (p.isNan = false → q.isNan = false → (op.2 p q = true → r = x) ∧ (op.2 q p = true → r = y) ∧ (r = x ∨ r = y))

/-- A pair word: each half acts in the lanes, or for the wave, where its guard holds, from what stood before the pair, and all its
writes stand together (R36, R37). FSTAT takes the events of the vector halves that act; nothing else changes. -/
def Obligations.PairWord : Prop :=
  ∀ h0 h1 st s w pc, PairClear h0 h1 s w pc →
    ∃ t v, exec (.pairWord h0 h1 st) s = .next t ∧ Went s w pc t v ∧ RestKept s t w ∧
      (∀ h ∈ [h0, h1], ∀ i ∈ w.activeAt pc, halfActs h w i = true → v.vreg h.d i = (halfInLane h w i).val) ∧
      (∀ h ∈ [h0, h1], halfActsOnce h w = true → v.sreg h.d = halfOnce h w) ∧
      VecKept w v (fun r i => ∃ h ∈ [h0, h1], h.d = r ∧ halfActs h w i = true ∧ i ∈ w.activeAt pc) ∧
      ScalKept w v (fun r => ∃ h ∈ [h0, h1], h.d = r ∧ halfActsOnce h w = true) ∧ PredKept w v ∧ SpecialKept w v ∧ v.rngctr = w.rngctr ∧
      v.fstat = w.fstat ||| orFlags ((w.activeAt pc).map (fun i =>
        (if halfActs h0 w i then (halfInLane h0 w i).fl else 0) ||| (if halfActs h1 w i then (halfInLane h1 w i).fl else 0)))

/-! ### Control words -/

/-- NOP does nothing; YIELD is the same word with YLD set (R147). -/
def Obligations.NopAndYield : Prop :=
  ∀ c s w pc, Clear c { hok := true } s w pc →
    (∃ t v, exec (.nop c) s = .next t ∧ Over s w w pc t v ∧ (t.quad w.core w.quad).yielded = c.yld) ∧
    ∃ t v, exec (.yield c) s = .next t ∧ Over s w w pc t v ∧ (t.quad w.core w.quad).yielded = true ∧
      exec (.nop { c with yld := true }) s = .next t

/-- NOP, YIELD, BKPT without DEBUG, WAIT whose counts are reached, RCV with no lane parked, SLEEP once it is over and PHINT go on with no
register changed (R147, R149 to R151, R343, R356). A word that must wait leaves its wave at it: no lane moves, and the quadrant is free for
another wave (R136). -/
def Obligations.StillAndHeldWords : Prop := HasEffect stillWord ∧ IsHeld heldWord

/-- Branches, calls and returns, RCV beside parked lanes, EXIT, TRAP, BKPT with DEBUG and RTE outside a handler take each executing lane
where their entries say; the other active lanes go on, and nothing else changes (R133, R148, R149, R340, R343). -/
def Obligations.LaneWords : Prop :=
  ∀ i c u f s w pc go, goWord i = some (c, u, f) → Clear c u s w pc → f s w pc (execLanes c u.q w (w.activeAt pc)) = some go →
    ∃ t v, exec i s = .next t ∧ Ends s w w pc go t v

/-- An EXIT of the last lanes of a wave without outstanding work ends it: its slot is free, and the launch completes with its last wave
(R134). Memory and the device's registers stay. -/
def Obligations.LastExitEndsWave : Prop :=
  ∀ c s w pc, Clear c { bubble := true } s w pc →
    (∀ i < w.lanes.length, (w.lane i).st = .exited ∨ i ∈ execLanes c false w (w.activeAt pc)) → w.drained = true → w.resident = true →
    Known s w.launch →
    ∃ t, exec (.exit c) s = .next t ∧ t.wave? w.core w.slot = none ∧ (t.launch w.launch).ended = (s.launch w.launch).ended ++ [w.wid] ∧
      ((s.launch w.launch).endInfo = none → (t.launch w.launch).endInfo =
        if (s.launch w.launch).nwave ≤ (s.launch w.launch).ended.length + 1 then some ⟨0, 0, 0⟩ else none) ∧
      t.mem = s.mem ∧ t.dev = s.dev

/-- MTS completes for every register of Table 8-2 and both source forms, and writes by access code and mode (R144, R153): LINK takes each
executing lane's value, any other register the lowest executing lane's; TRCAUSE, TRPC, TRMASK, TRADDR and RNGCTR take it, FSTAT and MSTAT lose
the bits that are 0 in it unless hardware set a bit of them this cycle, HANGCNT and HANGLIM take it where the mode may write them, TOFS where
the form may run, and a write that the mode may not make is ignored. Reserved bits of FSTAT and MSTAT ignore writes in every mode (R4). What is
not named stays. What steward software makes of the registers
that other modes only read is the model's choice (log 51), and so is that the value written to HANGCNT stands after the word, of which R142
also says that the count returns to 0 at it (log 29). -/
def Obligations.SpecialWrites : Prop :=
  HasEffect mtsWord ∧
  (∀ c a s w pc, Clear c { vr := vsV a, sr := vsS a, hok := (vsV a).isEmpty } s w pc → 1 ≤ w.mode →
    ∃ t v, exec (.mts c a .hangcnt) s = .next t ∧ Went s w pc t v ∧ t.mem = s.mem ∧ t.dev = s.dev ∧
      v.hangcnt = bits (operand w a ((execLanes c false w (w.activeAt pc)).headD 0)).toNat 47 0 ∧
      VecKept w v (fun _ _ => False) ∧ ScalKept w v (fun _ => False) ∧ PredKept w v ∧ SpecialKept w v ∧ FlagsKept w v) ∧
  ∀ c a n s w pc, Clear c { vr := vsV a, sr := vsS a, mode := specMode n, hok := (vsV a).isEmpty } s w pc →
    let lanes := execLanes c false w (w.activeAt pc)
    let x := operand w a (lanes.headD 0)
    ∃ t v, exec (.mts c a n) s = .next t ∧ t.wave? w.core w.slot = some v ∧ t.mem = s.mem ∧ t.dev = s.dev ∧
      (∀ i < 32, v.lane i =
        let l := if n = .link ∧ i ∈ lanes then { w.lane i with link := (operand w a i).setWidth 48 } else w.lane i
        if i ∈ w.activeAt pc then { l with pc := pc + 8 } else l) ∧
      VecKept w v (fun _ _ => False) ∧ ScalKept w v (fun _ => False) ∧ PredKept w v ∧
      v.trcause = (if n = .trcause then x.setWidth 8 else w.trcause) ∧ v.trpc = (if n = .trpc then x.setWidth 48 else w.trpc) ∧
      v.trmask = (if n = .trmask then x.setWidth 32 else w.trmask) ∧ v.traddr = (if n = .traddr then x else w.traddr) ∧
      v.rngctr = (if n = .rngctr then x else w.rngctr) ∧
      (n ≠ .fstat → v.fstat = w.fstat) ∧ (n ≠ .mstat → v.mstat = w.mstat) ∧
      (w.mode ≠ 2 → w.hwAt ≠ s.ctl.cycle →
        (n = .fstat → v.fstat = w.fstat &&& x.setWidth 8) ∧ (n = .mstat → v.mstat = w.mstat &&& x.setWidth 8)) ∧
      (w.mode = 2 → w.hwAt ≠ s.ctl.cycle →
        (n = .fstat → v.fstat = x.setWidth 8 &&& 0x7F) ∧ (n = .mstat → v.mstat = x.setWidth 8 &&& 1)) ∧
      (w.mode ≠ 2 → v.mode = w.mode ∧ v.role = w.role ∧ v.wid = w.wid ∧ v.corepl = w.corepl ∧ v.diepl = w.diepl ∧ v.adj = w.adj) ∧
      (n = .hangcnt → 1 ≤ w.mode → v.hangcnt = bits x.toNat 47 0) ∧
      (n ≠ .hanglim → ¬(n = .hangcnt ∧ 1 ≤ w.mode) → Calm s w → v.hangcnt = min (w.hangcnt + 1) (2 ^ 48 - 1)) ∧
      (s.bound w.tenant = true → (s.tenant w.tenant).id = w.tenant →
        (t.tenant w.tenant).hanglim = (if n = .hanglim ∧ 1 ≤ w.mode then bits x.toNat 47 0 else (s.tenant w.tenant).hanglim) ∧
        (n = .tofs → (t.tenant w.tenant).tofs = x.toNat) ∧
        (n ≠ .tofs → n ≠ .time → (t.tenant w.tenant).tofs = (s.tenant w.tenant).tofs))

/-! ### Words turned away, traps and handlers -/

/-- A word that decode refuses parks the lanes it would act in, and no part of it takes effect: PRIV before ROLE (R39), and HANG, which is
due before any word, parks every active lane (R143). A word that names a register the wave does not hold faults with RANGE in the lanes
that execute it, and the others go on (R156). The model's reading (log 24): HANG comes before PRIV and ROLE, lanes with a false guard stay at a
word that is refused, and RANGE is a fault of a word that has been issued. -/
def Obligations.WordsTurnedAway : Prop :=
  ∀ i c u s w pc, useOf i = some (c, u) → At s w pc → (s.launch w.launch).pure = false →
    (w.hangArmed = true → ∃ t v, exec i s = .next t ∧ Parks s w (w.activeAt pc) cHANG 0 t v ∧ v.hangArmed = false ∧ v.hangcnt = 0) ∧
    (Faces c u s w pc → w.mode < u.mode → ∃ t v, exec i s = .next t ∧ Parks s w (targets c u w pc) cPRIV 0 t v) ∧
    (Faces c u s w pc → u.mode ≤ w.mode → w.role ∉ u.roles → ∃ t v, exec i s = .next t ∧ Parks s w (targets c u w pc) cROLE 0 t v) ∧
    (∀ r, Faces c u s w pc → u.mode ≤ w.mode → w.role ∈ u.roles → s.pendOf w (u.guarded c) true = [] → r ∈ u.vr ++ u.vw ++ u.touch ++ u.named →
      w.vcount ≤ r → (∀ q ∈ u.vr ++ u.vw ++ u.touch ++ u.named, w.vcount ≤ q → r ≤ q) → ∃ t v, exec i s = .next t ∧
        Ends (s.dropWait w) w w pc (fun k l => if k ∈ targets c u w pc then parked cRANGE (BitVec.ofNat 64 r) l else { l with pc := pc + 8 }) t v)

/-- A word that is no instruction raises ILLEGAL in every lane that would execute it, a full word by its guards and a pair by its halves
(R39, R40); a pair that breaks a bank rule raises PAIRBANK (R38). A word that cannot be fetched parks every lane at the issue address with
the fault's cause and the fetch address (R21, R225). No part of any of them takes effect. The model's reading: lanes with a false guard stay
at such a word (log 24), and a fetch that fails does so before a HANG that is armed (log 25). -/
def Obligations.WordsThatCannotRun : Prop :=
  (∀ k s w pc, At s w pc → s.fetch w pc = .error k →
    ∃ t v, exec (.instructionFetchFault k) s = .next t ∧ Parks s w (w.activeAt pc) (fetchCause k) (pc.setWidth 64) t v) ∧
  (∀ x s w pc, (∀ i, decode x ≠ .ok i) → x.toNat < 2 ^ 63 →
    Faces (Fields.ofWord x.toNat).ctl { q := qOpcode (Fields.ofWord x.toNat).opc, illegal := true } s w pc →
    ∃ t v, exec (.reservedEncoding x) s = .next t ∧
      Parks s w (execLanes (Fields.ofWord x.toNat).ctl (qOpcode (Fields.ofWord x.toNat).opc) w (w.activeAt pc)) cILLEGAL 0 t v) ∧
  ∀ h0 h1 s w pc, At s w pc → w.hangArmed = false → (s.launch w.launch).pure = false → s.pendOf w (pairGuards h0 h1) true = [] →
    (if pairScalar h0 h1 w then w.activeAt pc else pairLanes h0 h1 w (w.activeAt pc)) ≠ [] →
    (∀ x, (∀ i, decode x ≠ .ok i) → 2 ^ 63 ≤ x.toNat → Half.ofWord (x.toNat / 2 ^ 32) = h0 → Half.ofWord (x.toNat / 2) = h1 →
      ∃ t v, exec (.reservedEncoding x) s = .next t ∧
        Parks s w (if pairScalar h0 h1 w then w.activeAt pc else pairLanes h0 h1 w (w.activeAt pc)) cILLEGAL 0 t v) ∧
    ∀ st, w.role ≤ 3 → pairBadBank h0 h1 = true → ∃ t v, exec (.pairWord h0 h1 st) s = .next t ∧
      Parks s w (if pairScalar h0 h1 w then w.activeAt pc else pairLanes h0 h1 w (w.activeAt pc)) cPAIRBANK 0 t v

/-- TAKING A TRAP. When it is due, the lanes parked at the least parked PC with the cause of the lowest of them are trapped, and TRCAUSE,
TRPC, TRMASK and TRADDR say so (R336). With a handler, and a cause other than INTEG, the mode is saved and becomes runtime and the handler
starts at HANDLER in the lowest trapped lane (R338); otherwise the launch ends TRAPPED with TRPC and TRCAUSE in DETAIL (R341). -/
def Obligations.TrapTaking : Prop :=
  ∀ core slot s w, s.wave? core slot = some w → s.trapDue w = true → s.passBar w = s →
    ∃ t v i0, exec (.trapTaken core slot) s = .next t ∧ t.wave? core slot = some v ∧ i0 < 32 ∧ w.isParked i0 = true ∧
      (∀ j < 32, w.isParked j = true → (w.lane i0).pc.toNat ≤ (w.lane j).pc.toNat) ∧
      (∀ j < i0, w.isParked j = true → (w.lane j).pc ≠ (w.lane i0).pc) ∧
      v.trpc = (w.lane i0).pc ∧ v.trcause = BitVec.ofNat 8 (w.parkCause i0) ∧ v.traddr = w.parkAddr i0 ∧
      (∀ j < 32, v.trmask.getLsbD j =
        (w.isParked j && (w.lane j).pc == (w.lane i0).pc && w.parkCause j == w.parkCause i0)) ∧
      v.lanes = w.lanes ∧ v.vregs = w.vregs ∧ v.sregs = w.sregs ∧ PredKept w v ∧ FlagsKept w v ∧ v.ops = w.ops ∧ t.mem = s.mem ∧
      t.dev = s.dev ∧ t.ctl = s.ctl ∧ (∀ a b, ¬(a = core ∧ b = slot) → t.wave? a b = s.wave? a b) ∧
      (if (s.launch w.launch).handler = 0 ∨ v.trcause.toNat = cINTEG then
        v.mode = w.mode ∧ v.hnd = w.hnd ∧
        (Known s w.launch → (s.launch w.launch).endInfo = none →
          (t.launch w.launch).endInfo = some ⟨2, 0, BitVec.ofNat 64 (v.trpc.toNat * 256 + v.trcause.toNat)⟩)
      else
        v.mode = 1 ∧ v.hnd = some ⟨BitVec.ofNat 48 (s.launch w.launch).handler, w.mode, i0, v.trmask, false, none⟩ ∧ t.tasks = s.tasks)

/-- RETURNING FROM A HANDLER. RTE with action 0 to 2 lets the trapped lanes of TRMASK retry at TRPC, go on behind it, or exit; other parked
lanes keep their records, lanes held at an RCV are free, and the saved mode comes back (R340). Action 3 ends the launch TRAPPED. -/
def Obligations.TrapReturn : Prop :=
  ∀ c a s w h, HClear c { q := true, mode := 1, sr := [a], hok := true } s w h →
    let act := bits (w.sreg a).toNat 1 0
    (act ≠ 3 → (w.leaveHandler h act).allExited = false →
      ∃ t v, exec (.rte c a) s = .next t ∧ t.wave? w.core w.slot = some v ∧ v.hnd = none ∧ v.mode = h.mode ∧
        (∀ i < w.lanes.length, v.lane i =
          if i ∈ w.rteSet h then
            (if act = 2 then { w.lane i with st := .exited, atRcv := false }
             else { w.lane i with st := .ready, atRcv := false, pc := w.rtePc act })
          else { w.lane i with atRcv := false }) ∧
        (w.trpc.toNat % 8 = 0 → w.rtePc 0 = w.trpc ∧ w.rtePc 1 = w.trpc + 8) ∧
        v.vregs = w.vregs ∧ v.sregs = w.sregs ∧ PredKept w v ∧ FlagsKept w v ∧ SpecialKept { w with mode := h.mode, hnd := none } v ∧
        t.mem = s.mem ∧ t.dev = s.dev ∧ (∀ x y, ¬(x = w.core ∧ y = w.slot) → t.wave? x y = s.wave? x y)) ∧
    (act = 3 → Known s w.launch → (s.launch w.launch).endInfo = none →
      ∃ t, exec (.rte c a) s = .next t ∧ t.mem = s.mem ∧ (t.launch w.launch).endInfo = some ⟨2, 0, trapDetail w.trpc w.trcause.toNat⟩)

/-- In a handler a scalar word runs once for the handler lane: its scalar register is written and the handler goes on, while no lane of the
wave moves (R338). A word that a handler may not issue ends the launch TRAPPED with ILLEGAL at the handler's PC (R339). -/
def Obligations.HandlerWords : Prop :=
  (∀ i c u d f s w h, scalWord i = some (c, u, d, f) → u.hok = true → HClear c u s w h →
    ∃ t v, exec i s = .next t ∧ t.wave? w.core w.slot = some v ∧ v.sreg d = f s w [h.lane] ∧
      v.hnd = some { h with pc := h.pc + 8, held := none } ∧ v.lanes = w.lanes ∧ VecKept w v (fun _ _ => False) ∧ ScalKept w v (fun r => r = d) ∧
      PredKept w v ∧ FlagsKept w v ∧ SpecialKept { w with hnd := v.hnd } v ∧ RestKept s t w) ∧
  ∀ i c u d f s w h, vecWord i = some (c, u, d, f) → HClear c u s w h →
    ∃ t, exec i s = .next t ∧ t.mem = s.mem ∧ t.cores = s.cores ∧ t.dev = s.dev ∧
      (Known s w.launch → (s.launch w.launch).endInfo = none →
        (t.launch w.launch).endInfo = some ⟨2, 0, trapDetail h.pc cILLEGAL⟩)

/-- What reaches a wave from outside its words: HANG becomes due in a wave of a live launch whose count stands above the limit (R143, R388); a SLEEP whose time is
over holds no more (R151); a fence marker whose path is clear comes back (R313); refusals learnt of park the lanes they name, with their
cause and address (R115, R261). Nothing else changes. -/
def Obligations.WaveEvents : Prop :=
  ∀ core slot s w, s.wave? core slot = some w →
    (let lim := (s.tenant w.tenant).hanglim
     lim ≠ 0 → lim < w.hangcnt → w.hangArmed = false → (s.launch w.launch).endInfo = none →
      ((s.launch w.launch).hangtrap = true → ∃ t, exec (.hangDetect core slot) s = .next t ∧ t = s.setWave { w with hangArmed := true }) ∧
      ((s.launch w.launch).hangtrap = false → Known s w.launch → s.bound w.tenant = true →
        ∃ t v, exec (.hangDetect core slot) s = .next t ∧ t.wave? core slot = some v ∧ v = { w with hangcnt := 0 } ∧
          t.launch w.launch = { s.launch w.launch with hang := true } ∧ t.ctl.seq = (s.ctl.seq + 1) % 2 ^ 64 ∧ t.mem = s.mem ∧ t.dev = s.dev ∧
          (t.tenant w.tenant).upcalls =
            (s.tenant w.tenant).upcalls ++ [⟨s.ctl.seq, 0xFF01, (s.launch w.launch).lid, w.wid⟩])) ∧
    (w.held = some .sleep → w.sleepSince.any (fun d => decide (d ≤ s.ctl.cycle)) = true →
      ∃ t, exec (.sleepTimeout core slot) s = .next t ∧ t = s.setWave { w with held := none }) ∧
    (∀ p ∈ w.markers, s.pathClear w p = true →
      ∃ t, exec (.fenceMarkerAck core slot p) s = .next t ∧ t = s.setWave { w with markers := w.markers.filter (fun q => q != p) }) ∧
    ∀ e ∈ [(Instr.homeSliceRefusal core slot, fun k : Nat => k != cLINK), (.linkRefusal core slot, fun k => k == cLINK)],
      (e.1 = .linkRefusal core slot → w.allExited = false ∧ w.refusals.any (fun r => r.cause == cLINK) = true) → ∃ t v, exec e.1 s = .next t ∧ t = s.setWave v ∧
        v = { w with lanes := v.lanes, refusals := w.refusals.filter (fun r => !(e.2 r.cause && (w.lane r.lane).st != .service)) } ∧
        ∀ j < 32, v.lane j =
          if (w.lane j).st = .ready then
            (match w.refusals.find? (fun r => e.2 r.cause && r.lane == j) with
             | some r => parked r.cause r.addr (w.lane j)
             | none => w.lane j)
          else w.lane j

/-! ### Services -/

/-- SVC with a slot free and its release side complete posts a batch: the executing lanes wait at the word, the other active lanes go on;
the slot holds the lanes' arguments, a zero reply word and VALID, and no byte outside the slot changes (R345). -/
def Obligations.ServiceCall : Prop :=
  ∀ c d a cls code s w pc k, Clear c { vr := span a 4, vw := span d 2, lat := 0, impure := true, hok := true } s w pc →
    s.freeSlot w.tenant cls = some k → releaseSide s w (svcScope cls) = none → cls ≤ 2 →
    let lanes := execLanes c false w (w.activeAt pc)
    let ma := slotAddr (s.tenant w.tenant) cls k
    ∃ t v, exec (.svc c d a cls code) s = .next t ∧ t.wave? w.core w.slot = some v ∧
      (∀ i < 32, v.lane i = if i ∈ lanes then { w.lane i with st := .service }
        else if i ∈ w.activeAt pc then { w.lane i with pc := pc + 8 } else w.lane i) ∧
      v.vregs = w.vregs ∧ v.sregs = w.sregs ∧ PredKept w v ∧ FlagsKept w v ∧ SpecialKept { w with wake := v.wake } v ∧
      (Calm s w → t.tasks.batches = s.tasks.batches ++ [⟨w.tenant, cls, k, w.launch, w.wid, d, lanes, false, false, none⟩] ∧
        t.ctl.seq = (s.ctl.seq + 1) % 2 ^ 64) ∧
      t.readWord (ma + 56) = 1 ∧ t.readWord (ma + 0x640) = 0 ∧
      (∀ j n, n < 4 → ∀ i, lanes[j]? = some i → t.readWord (ma + 0x40 + 32 * j + 8 * n) = w.vreg (a + n) i) ∧
      ∀ m, m < ma ∨ ma + 0x800 ≤ m → t.byte m = s.byte m

/-- A batch whose reply has come, and no other of its wave before it, is over: each lane that waits takes its two replies, in the registers that
its wave still holds (R155), and goes on behind its SVC, the wave's wake latch is set, and the slot is free with a zero reply word and VALID 0
(R346). A waiting upcall takes the lowest free slot of its ring (R352, read with R350: log 18). -/
def Obligations.ServiceEvents : Prop :=
  (∀ t cls slot s b w, s.batch? t cls slot = some b → cls ≤ 2 → slot < 32 → b.answered.isSome = true → s.firstAnswered b = true →
    b.upcall = false → b.hnd = false → b.lanes.Nodup → (∀ i ∈ b.lanes, i < 32 ∧ i < w.lanes.length) →
    (s.launch b.launch).endInfo = none →
    s.cores.waves.find? (fun x => x.launch == b.launch && x.wid == b.wid) = some w → w.dropped = [] → s.wave? w.core w.slot = some w →
    let ma := slotAddr (s.tenant t) cls slot
    ∃ u v, exec (.serviceBatchComplete t cls slot) s = .next u ∧ u.wave? w.core w.slot = some v ∧ v.wake = true ∧
      (∀ j i, b.lanes[j]? = some i → (w.lane i).st = .service →
        v.lane i = { w.lane i with st := .ready, pc := (w.lane i).pc + 8 } ∧
        (b.reg < w.vcount → v.vreg b.reg i = s.readWord (ma + 0x440 + 16 * j)) ∧
        (b.reg + 1 < w.vcount → v.vreg (b.reg + 1) i = s.readWord (ma + 0x448 + 16 * j))) ∧
      VecKept w v (fun r i => (r = b.reg ∨ r = b.reg + 1) ∧ r < w.vcount ∧ i ∈ b.lanes) ∧ (∀ i < 32, i ∉ b.lanes → v.lane i = w.lane i) ∧
      v.sregs = w.sregs ∧ PredKept w v ∧ FlagsKept w v ∧ b ∉ u.tasks.batches ∧ u.readWord (ma + 0x640) = 0 ∧ u.readWord (ma + 56) = 0 ∧
      ∀ m, m < ma ∨ ma + 0x800 ≤ m → u.byte m = s.byte m) ∧
  ∀ t s p rest k, s.bound t = true → (s.tenant t).id = t → (s.tenant t).upcalls = p :: rest → s.freeSlot t 0 = some k →
    let ma := slotAddr (s.tenant t) 0 k
    ∃ u, exec (.upcallPost t) s = .next u ∧ (u.tenant t).upcalls = rest ∧
      u.tasks.batches = s.tasks.batches ++ [⟨t, 0, k, 0, 0, 0, [], false, true, none⟩] ∧ u.readWord (ma + 56) = 1 ∧ u.readWord (ma + 0x640) = 0 ∧
      ∀ m, m < ma ∨ ma + 0x800 ≤ m → u.byte m = s.byte m

/-! ### Granules, recipes, bindings -/

/-- ACQX, RELX, RCPDEF, RCPTAG and RCPCLR have the effect their entries give (R161, R165, R166, R170); and a tag that RCPTAG sets is the only
one of its register, while RCPCLR leaves none in its range. -/
def Obligations.GranuleWords : Prop :=
  HasEffect granuleWord ∧
  (∀ c d id body s w pc, Clear c { touch := [d] } s w pc → s.recipe w id = some body → d ∉ (readSet (bodyInstrs body) []).1 →
    ∃ t v, exec (.rcptag c d id) s = .next t ∧ t.wave? w.core w.slot = some v ∧
      ∀ g, g ∈ v.tags ∧ g.reg = d ↔ g = ⟨d, id, (execLanes c false w (w.activeAt pc)).length == 32⟩) ∧
  ∀ c a n s w pc, Clear c { touch := span a n } s w pc →
    ∃ t v, exec (.rcpclr c a n) s = .next t ∧ t.wave? w.core w.slot = some v ∧ ∀ g ∈ v.tags, g.reg < a ∨ a + n ≤ g.reg

/-- A wait for granules that may be served is: the oldest ACQX is granted its granules and its wave holds no more (R161). Where every wave of
a launch on a core waits and none may be served, the highest droppable granule of the youngest wave that has one is dropped, else the
youngest ACQX is refused with DEADLOCK, else a re-materialisation faults with RECIPE and the register
being written (R162), in a handler as a nested fault (R339). -/
def Obligations.GranuleWaits : Prop :=
  (∀ core l s g w, (s.ctx l core).waitOrder.head? = some g → s.wave? core g.slot = some w → w.launch = l → g.remat = none →
    g.n ≤ s.freeGranules l core → (s.ctx? l core).isSome = true →
    ∃ t v, exec (.granuleWaitServed core l) s = .next t ∧ t.wave? core g.slot = some v ∧
      v = { w.grow g.n with held := if w.held = some .acqx then none else w.held, acqxDone := some (BitVec.ofNat 64 (w.ext + g.n)) } ∧
      (∀ x ∈ (t.ctx l core).waits, x.slot ≠ g.slot) ∧ t.mem = s.mem ∧ t.tasks = s.tasks ∧ t.dev = s.dev) ∧
  ∀ core l s, s.allWaiting core l = true → s.canServeOldest core l = false →
    (∀ w k, youngest ((s.wavesOn l core).filter (fun x => x.topDroppable.isSome)) = some w → w.topDroppable = some k →
      ∃ t, exec (.acqxResolve core l) s = .next t ∧ t = s.setWave { w with dropped := w.dropped ++ [k] }) ∧
    (∀ w, youngest ((s.wavesOn l core).filter (fun x => x.topDroppable.isSome)) = none → youngest (s.waiters core l false) = some w →
      ∃ t, exec (.acqxResolve core l) s = .next t ∧
        t = (s.dropWait w).setWave { w with held := none, acqxDone := some (BitVec.ofNat 64 (2 ^ 63 + 2)) }) ∧
    ∀ w, youngest ((s.wavesOn l core).filter (fun x => x.topDroppable.isSome)) = none → youngest (s.waiters core l false) = none →
      youngest (s.waiters core l true) = some w →
      (∀ h, w.hnd = some h → ∃ t, exec (.acqxResolve core l) s = .next t ∧ t = s.trapped w.launch h.pc cRECIPE) ∧
      ∀ pc, w.hnd = none → w.ownPc = some pc →
        ∃ t v, exec (.acqxResolve core l) s = .next t ∧ t = (s.dropWait w).setWave v ∧ v.held = none ∧
          ∀ i ∈ w.activeAt pc, v.lane i = parked cRECIPE (BitVec.ofNat 64
            ((((s.ctx l core).waits.find? (fun g => g.slot == w.slot && g.remat.isSome)).bind GranWait.remat).getD 0)) (w.lane i)

/-- TBLD, TBINV, REVACK, LOSSACK and RTINV write their status or count and have the effect their entries give (R107, R118, R121, R126,
R130). SVCREP gives its status, and where that is OK stores the reply word (R347). LAUNCH queues the record its lane names, or gives 1 where
the queue is full (R88). -/
def Obligations.BindingAndServiceWords : Prop := HasEffect bindingWord ∧ HasEffect replyWord ∧ HasEffect launchWord


/-! ### Memory -/

/-- A memory word whose executing lanes pass their checks, outside watched frames, leaves one operation outstanding with the parts of its
lanes, and the paths they take (R233 to R236, R262, R263, R313, R315): no byte, no register and no flag is changed yet.
Parts to another device leave on the tenant's lanes in turn (R257, R259). -/
def Obligations.MemoryWords : Prop :=
  ∀ i m s w pc accs, memWord i = some m → Clear m.c m.u s w pc → Accesses m (context m.c m.u s w pc) accs →
    let x := context m.c m.u s w pc
    ∃ t v, exec i s = .next t ∧
      Over { (m.sent x accs).1 with mem := { (m.sent x accs).1.mem with tcache := t.mem.tcache } }
        { w with ops := w.ops ++ [m.op x accs], nextOp := w.nextOp + 1, paths := v.paths } w pc t v ∧
      ∀ q ∈ (m.op x accs).parts, ∀ p ∈ s.pathsOf w.tenant w.die q.loc, p ∈ v.paths

/-- A global address is checked in this order: RANGE at or above 2^48, ALIGN off its width, TMISS without an entry, PERM without an
attribute (R221). A lane whose access fails parks with the first failing cause and its address, and where every lane fails nothing else
takes effect (R8, R239). -/
def Obligations.AccessFaultsPark : Prop :=
  (∀ (s : State) (w : Wave) (va : Word) (n need : Nat),
    (2 ^ 48 ≤ va.toNat → s.checkVa w va n need = .error (cRANGE, va)) ∧
    (va.toNat < 2 ^ 48 → va.toNat % n ≠ 0 → s.checkVa w va n need = .error (cALIGN, va)) ∧
    (va.toNat < 2 ^ 48 → va.toNat % n = 0 →
      (s.translate w.core w.tenant va.toNat = none → s.checkVa w va n need = .error (cTMISS, va)) ∧
      ∀ e, s.translate w.core w.tenant va.toNat = some e →
        (e.attr &&& need ≠ need → s.checkVa w va n need = .error (cPERM, va)) ∧
        (e.attr &&& need = need → isProt e.attr = false → s.checkVa w va n need = .ok e))) ∧
  ∀ i m s w pc, memWord i = some m → Clear m.c m.u s w pc → (m.rel = true → releaseSide s w m.od.scope = none) →
    (∀ k ∈ execLanes m.c m.u.q w (w.activeAt pc), ∃ e, m.check (context m.c m.u s w pc) k = .error e) →
    ∃ t v, exec i s = .next t ∧
      Ends s w w pc (fun k l => if k ∈ execLanes m.c m.u.q w (w.activeAt pc) then
        (match m.check (context m.c m.u s w pc) k with
         | .error e => parked e.1 e.2 l
         | .ok _ => l) else { l with pc := pc + 8 }) t v

/-- A load performed brings the bytes at its home, or in the scratchpad, to its lane's register with zeros above, and its count falls; no
byte of memory changes (R230, R236). SLICE_RETRY performs a load that found no token before (R249). -/
def Obligations.LoadPerformed : Prop :=
  ∀ s w id o p, OnePart s w id o p → o.act = .load → o.ld = true → Lands w o →
    ∀ e ∈ [Instr.loadComplete w.core w.slot id none false, .loadComplete w.core w.slot id (some 0) false, .sliceRetry w.core w.slot id],
      (∀ a, AtHome s w o p a → ∃ t v, exec e s = .next t ∧ t.wave? w.core w.slot = some v ∧
        v.vreg o.reg p.lane = BitVec.ofNat 64 (natOfBytes (s.readMem a p.size)) ∧ v.op? id = none ∧
        VecKept w v (fun r i => r = o.reg ∧ i = p.lane) ∧ v.sregs = w.sregs ∧ v.lanes = w.lanes ∧ t.mem.bytes = s.mem.bytes) ∧
      ∀ c off, AtPad s w p c off → ∃ t v, exec e s = .next t ∧ t.wave? w.core w.slot = some v ∧
        v.vreg o.reg p.lane = BitVec.ofNat 64 (natOfBytes (s.readPad w.launch c off p.size)) ∧ v.op? id = none ∧
        VecKept w v (fun r i => r = o.reg ∧ i = p.lane) ∧ t.mem.bytes = s.mem.bytes ∧
        ∀ q k m, padByte t q k m = padByte s q k m

/-- A store performed puts its bytes at its place, and no other byte changes (R230, R236, R300); it is ignored in the device's own records
(R3). -/
def Obligations.StorePerformed : Prop :=
  ∀ s w id o p, OnePart s w id o p → o.act = .store → o.ld = false →
    ∀ e ∈ [Instr.storeAccepted w.core w.slot id none, .storeAccepted w.core w.slot id (some 0), .sliceRetry w.core w.slot id],
      (∀ a, AtHome s w o p a → ∃ t v, exec e s = .next t ∧ t.wave? w.core w.slot = some v ∧ v.op? id = none ∧
        (∀ n < p.size, t.byte (a + n) = if s.inRecord (a + n) then s.byte (a + n) else p.val.extractLsb' (8 * n) 8) ∧
        (∀ m, m < a ∨ a + p.size ≤ m → t.byte m = s.byte m) ∧
        v.vregs = w.vregs ∧ v.sregs = w.sregs ∧ v.lanes = w.lanes) ∧
      ∀ c off, AtPad s w p c off → ∃ t v, exec e s = .next t ∧ t.wave? w.core w.slot = some v ∧ v.op? id = none ∧
        (∀ n < p.size, padByte t w.launch c (off + n) = p.val.extractLsb' (8 * n) 8) ∧
        (∀ q k m, ¬(q = w.launch ∧ k = c ∧ off ≤ m ∧ m < off + p.size) → padByte t q k m = padByte s q k m) ∧
        t.mem.bytes = s.mem.bytes ∧ v.vregs = w.vregs ∧ v.sregs = w.sregs ∧ v.lanes = w.lanes

/-- An atomic performed at its home replaces the bytes by what its operation makes of them and its operands, and brings the old value to
its lane's register; a RED brings none (R262, R316, R317). No other byte changes, and none of the device's own records (R3). -/
def Obligations.AtomicPerformed : Prop :=
  ∀ s w id o p op wd a, OnePart s w id o p → o.act = .atom op wd ∨ o.act = .red op wd → p.size = wd.bytes → Lands w o → AtHome s w o p a →
    ∀ e ∈ [Instr.atomicPerformed w.core w.slot id none, .atomicPerformed w.core w.slot id (some 0), .sliceRetry w.core w.slot id],
      let old := natOfBytes (s.readMem a wd.bytes)
      ∃ t v, exec e s = .next t ∧ t.wave? w.core w.slot = some v ∧ v.op? id = none ∧
        (∀ n < wd.bytes, t.byte (a + n) = if s.inRecord (a + n) then s.byte (a + n)
          else BitVec.ofNat 8 (atomNew op wd old p.val.toNat p.cmp.toNat / 256 ^ n)) ∧
        (∀ m, m < a ∨ a + wd.bytes ≤ m → t.byte m = s.byte m) ∧
        (o.act = .atom op wd → v.vreg o.reg p.lane = BitVec.ofNat 64 old ∧ VecKept w v (fun r i => r = o.reg ∧ i = p.lane)) ∧
        (o.act = .red op wd → v.vregs = w.vregs) ∧ v.sregs = w.sregs ∧ v.lanes = w.lanes

/-- GRPQ, CHQ, PQRY, ACCRD and ACCWR leave an operation that is over at one later instant, with what each lane's address names then (R238, R293,
R326, R333): the queries and ACCRD bring their lanes' values to their register, a stale handle's reads as zero, and ACCWR writes two elements
for each lane and no other. That the state is read at the step that performs the operation is log 36. -/
def Obligations.QueryWords : Prop :=
  HasEffect queryWord ∧
  (∀ s w id o, s.wave? w.core w.slot = some w → w.allExited = false → w.op? id = some o → o.parts = [] → w.acqOpen id = false →
    o.ld = true → Lands w o →
    (∀ l : List (Nat × Word), o.act = .grpq l → (l.map Prod.fst).Nodup → (∀ x ∈ l, x.1 < 32) →
      ∃ t v, exec (.loadComplete w.core w.slot id none false) s = .next t ∧ t.wave? w.core w.slot = some v ∧ v.op? id = none ∧
        (∀ x ∈ l, v.vreg o.reg x.1 = grpqVal (s.launch w.launch) w x.2) ∧ t.mem = s.mem) ∧
    (∀ ch item l, o.act = .chq ch item l → (∀ i ∈ l, i < 32) →
      ∃ t v, exec (.loadComplete w.core w.slot id none false) s = .next t ∧ t.wave? w.core w.slot = some v ∧ v.op? id = none ∧
        (∀ i ∈ l, v.vreg o.reg i = chqVal (s.launch w.launch) ch item) ∧ t.mem = s.mem) ∧
    (∀ l : List (Nat × Nat × Nat), o.act = .pqry l → (l.map Prod.fst).Nodup → (∀ x ∈ l, x.1 < 32) →
      ∃ t v, exec (.loadComplete w.core w.slot id none false) s = .next t ∧ t.wave? w.core w.slot = some v ∧ v.op? id = none ∧
        (∀ x ∈ l, ∀ k < 64, (v.vreg o.reg x.1).getLsbD k = (decide (x.2.2 + k < 8192) &&
          (s.launch w.launch).bankCode ((x.2.2 + k) / 256) == 2 && !(s.ctx w.launch x.2.1).absent.contains (x.2.2 + k))) ∧ t.mem = s.mem) ∧
    ∀ l : List (Nat × Nat × Nat × Nat), o.act = .accrd l → (l.map Prod.fst).Nodup → (∀ x ∈ l, x.1 < 32) →
      (∀ x ∈ l, s.tilesOn w id x.2.1 = false ∧ w.accBefore id x.2.1 = false) →
      ∃ t v, exec (.loadComplete w.core w.slot id none false) s = .next t ∧ t.wave? w.core w.slot = some v ∧ v.op? id = none ∧
        (∀ x ∈ l, v.vreg o.reg x.1 = match (s.ctx w.launch w.core).alloc? x.2.1 with
          | none => 0
          | some al => (al.elem x.2.2.1 (x.2.2.2 + 1)) ++ (al.elem x.2.2.1 x.2.2.2)) ∧ t.mem = s.mem) ∧
  ∀ s w id o c (l : List (Nat × Nat × Nat × Nat × Word)), s.wave? w.core w.slot = some w → w.allExited = false → w.op? id = some o →
    o.parts = [] → w.acqOpen id = false → o.ld = false → o.act = .accwr l → s.ctx? w.launch w.core = some c →
    (∀ x ∈ l, s.tilesOn w id x.2.1 = false ∧ w.accBefore id x.2.1 = false) →
    (∀ x ∈ l, ∀ al, c.alloc? x.2.1 = some al → x.2.2.2.1 + 1 < al.pitch) →
    ∃ t v, exec (.storeAccepted w.core w.slot id none) s = .next t ∧ t.wave? w.core w.slot = some v ∧ v.op? id = none ∧
      v.vregs = w.vregs ∧ t.mem = s.mem ∧
      ∀ h al, c.alloc? h = some al → ∃ al', (t.ctx w.launch w.core).alloc? h = some al' ∧
        (∀ x ∈ l, x.2.1 = h → (∀ y ∈ l, y.2.1 = h → y.2.2.1 = x.2.2.1 → y.2.2.2.1 < x.2.2.2.1 + 2 → x.2.2.2.1 < y.2.2.2.1 + 2 → y = x) →
          al'.elem x.2.2.1 x.2.2.2.1 = x.2.2.2.2.extractLsb' 0 32 ∧ al'.elem x.2.2.1 (x.2.2.2.1 + 1) = x.2.2.2.2.extractLsb' 32 32) ∧
        ∀ i j, j < al.pitch → (∀ x ∈ l, x.2.1 = h → x.2.2.1 = i → j ≠ x.2.2.2.1 ∧ j ≠ x.2.2.2.1 + 1) → al'.elem i j = al.elem i j

/-- PREF changes only what the caches hold, the tokens it takes and what waits for one; CINV drops from the wave's own L1 its lanes' lines and no
others (R237). FENCE with its release side complete drops what its scope's acquire side asks, judges the strong reads before it, and changes
nothing else (R303, R312). That it leaves the widest scope of the FENCEs so far for later writes, keeps no release met before it, and marks
reads still open at wave scope is the model's reading (log 32). -/
def Obligations.CacheWords : Prop :=
  (∀ c a off ev s w pc, Clear c { vr := [a] } s w pc →
    ∃ t v, exec (.pref c a off ev) s = .next t ∧
      Over { s with mem := { s.mem with
          l1 := t.mem.l1, l2 := t.mem.l2, l2tick := t.mem.l2tick, sliceTok := t.mem.sliceTok, netTok := t.mem.netTok,
          retries := t.mem.retries, prefs := t.mem.prefs } } w w pc t v) ∧
  (∀ c a off s w pc, Clear c { vr := [a] } s w pc →
    ∃ t v, exec (.cinv c a off) s = .next t ∧ Over { s with mem := { s.mem with l1 := t.mem.l1 } } w w pc t v ∧
      ∀ e, e ∈ t.mem.l1 ↔ e ∈ s.mem.l1 ∧ ¬(e.core = w.core ∧ ∃ i ∈ execLanes c false w (w.activeAt pc), ∃ x ma,
        s.checkVa w (vaOf (w.vreg a i) off 1) 1 aRD = .ok x ∧ x.loc (vaOf (w.vreg a i) off 1).toNat = .mem ma ∧
        e.line = ma / 128)) ∧
  HasEffect fenceWord

/-! ### Copies, rings, matrices -/

/-- A copy word whose lanes pass the checks of R271 leaves one card for each executing lane and one count of CNTCP for the word (R265,
R270, R274). -/
def Obligations.CopyWords : Prop :=
  ∀ i c u q f s w pc es, copyWord i = some (c, u, q, f) → Clear c u s w pc →
    let lanes := execLanes c u.q w (w.activeAt pc)
    lanes.map (fun k => jobCheck s w (f w k) q) = es.map .ok → (∀ k ∈ lanes, (f w k).stray (s.launch w.launch) = none) →
    (s.cardsOn w.core).length + lanes.length ≤ 64 → w.cntcp < 63 →
    ∃ t v, exec i s = .next t ∧
      Over ((lanes.zip es).foldl (fun u p => u.addCard w w.nextOp p.1 q (f w p.1) p.2.1 p.2.2) s)
        { w with cpWords := w.cpWords ++ [w.nextOp], nextOp := w.nextOp + 1 } w pc t v

/-- A waiting card without edges enters its queue behind every card (R264, R267). A unit of a card whose queue has its turn, a burst or one
sector of it, whose accesses are all accepted: of a CPY or CPYX it stores at each of its sectors' destinations what stood at the source, of a
CPYM its pattern (R268, R274), and no other byte changes; of a CPYD it keeps what it reads, and the last one stores the digest (R91, R274). A card
whose units are done is over: it is gone with every edge to it, its lines are present, and its word leaves CNTCP (R232, R267, R270). -/
def Obligations.CopyEvents : Prop :=
  ∀ core job s c k, s.card? core job = some (c, k) → s.ctx? c.launch c.core = some c →
    (k.state = .waiting → k.edges = [] → ∃ t n, exec (.copyJobQueued core job) s = .next t ∧
      t = s.setCard c { k with state := .queued, entered := n } ∧ ∀ d ∈ s.cores.ctxs, ∀ x ∈ d.cards, x.entered < n) ∧
    (∀ b todo s1 l got (sp dp : Nat → Place), MayMove s c k b todo → b ≠ digestUnit → k.kind ≠ .cpyd →
      (k.sectorsOf b).foldl (moveSector c k) (.ok s [], k.got) = (.ok s1 l, got) →
      (∀ i ∈ k.sectorsOf b, (k.kind ≠ .cpym → endPlace k.src (k.sector i).1 = some (sp i)) ∧ endPlace k.dst (k.sector i).2 = some (dp i) ∧
        Reachable s c.launch (dp i)) →
      (∀ i ∈ k.sectorsOf b, ∀ j ∈ k.sectorsOf b, (i ≠ j → Apart (dp i) (dp j) 32) ∧ (k.kind ≠ .cpym → Apart (sp i) (dp j) 32)) →
      ∃ t c' k', exec (.copyEngineBurst core job b) s = .next t ∧ t.card? core job = some (c', k') ∧ k'.todo = todo ∧ k'.state = .running ∧
        (∀ i ∈ k.sectorsOf b, ∀ n < 32, placeByte t c.launch (dp i) n = storedByte s c.launch (dp i) n
          (if k.kind = .cpym then k.pattern.extractLsb' (8 * (n % 8)) 8 else placeByte s c.launch (sp i) n)) ∧
        OnlyAt s t c.launch 32 ((k.sectorsOf b).map dp)) ∧
    (∀ b todo s1 l got (sp : Nat → Place), MayMove s c k b todo → b ≠ digestUnit → k.kind = .cpyd →
      (k.sectorsOf b).foldl (moveSector c k) (.ok s [], k.got) = (.ok s1 l, got) →
      (∀ i ∈ k.sectorsOf b, endPlace k.src (k.sector i).1 = some (sp i)) →
      ∃ t c' k', exec (.copyEngineBurst core job b) s = .next t ∧ t.card? core job = some (c', k') ∧ k'.todo = todo ∧
        (∀ i ∈ k.sectorsOf b, ∀ n < 32, (cellGet [] k'.got i).getD n 0 = placeByte s c.launch (sp i) n) ∧ OnlyAt s t c.launch 32 []) ∧
    (∀ s1 l dp, MayMove s c k digestUnit [] → writeDigest s c k = .ok s1 l → endPlace k.dst 0 = some dp → Reachable s c.launch dp →
      ∃ t c' k', exec (.copyEngineBurst core job digestUnit) s = .next t ∧ t.card? core job = some (c', k') ∧ k'.todo = [] ∧
        (∀ n < 16, placeByte t c.launch dp n = storedByte s c.launch dp n
          ((bytes8 (oxBytes (ox128 (nats ((List.range (k.rowBytes / 32)).flatMap (fun i => cellGet [] k.got i))) 0))).getD n 0)) ∧
        OnlyAt s t c.launch 16 [dp]) ∧
    (∀ w, k.state = .running → k.todo = [] → s.wave? core k.slot = some w → w.allExited = false → w.cpWords = [k.word] →
      (∀ x ∈ c.cards, x.id ≠ job → ¬(x.slot = k.slot ∧ x.word = k.word)) →
      ∃ t v, exec (.copyJobComplete core job) s = .next t ∧ (∀ x ∈ (t.ctx c.launch c.core).cards, x.id ≠ job ∧ job ∉ x.edges) ∧
        (∀ pc, k.dst.pad = some pc → (s.ctx? c.launch pc).isSome = true → ∀ l ∈ k.absent, l ∉ (t.ctx c.launch pc).absent) ∧
        t.wave? core k.slot = some v ∧ v.cpWords = [] ∧ v.vregs = w.vregs ∧ t.mem = s.mem ∧ t.tasks = s.tasks)

/-- A tile word whose lanes pass their checks leaves one tile operation for each (for ACCZ one for the wave) and one count of CNTTL; a DRAIN
that draws counts RNGCTR (R199, R282). -/
def Obligations.TileWords : Prop :=
  ∀ i f s w pc ts, tileForm i = some f → Clear f.c f.u s w pc →
    let x := context f.c f.u s w pc
    let lanes := if f.once then [x.first] else x.lanes
    lanes.map (f.tile x) = ts.map .ok → (∀ k ∈ lanes, f.absent x k = false) → w.cnttl < 15 →
    ∃ t v, exec i s = .next t ∧
      Over ((lanes.zip ts).foldl (fun u p => u.addTile w w.nextOp p.1 p.2) s)
        { w with tlWords := w.tlWords ++ [w.nextOp], nextOp := w.nextOp + 1, rngctr := if f.draws x then w.rngctr + 1 else w.rngctr }
        w pc t v

/-- A tile operation performed. An ACCZ makes the rows it names zero and no others (R287). An OBLD puts its source's bytes into the rows it names
of its reservation on each target core, and no other byte of it (R288). An MMA or MMAS whose metadata passes makes each element of its rows and
columns the product of R291 and no other element (R292). A DRAIN whose stores are all accepted stores its rows, converted, with their scales, to
scratchpad or memory, and zeroes them where it says so (R202, R295). An MMAS whose metadata fails writes nothing: its lane learns of SPMETA with
the address of the first bad byte (R292). Each is over then, with its flags (R200, R283). -/
def Obligations.TileEvents : Prop :=
  ∀ core op s c u, s.tile? core op = some (c, u) → s.ctx? c.launch c.core = some c → s.tileFree c u = true →
    (∀ h r n al, u.kind = .accz h r n → c.alloc? h = some al →
      ∃ t al', exec (.tileOpComplete core op) s = .next t ∧ (t.ctx c.launch c.core).alloc? h = some al' ∧
        (∀ i j, j < al.pitch → al'.elem i j = if r ≤ i ∧ i < r + n then 0 else al.elem i j) ∧ TileOver s c u 0 t ∧ t.mem = s.mem) ∧
    (∀ src off n row rid ks, u.kind = .obld src off n row rid ks →
      ∃ t, exec (.tileOpComplete core op) s = .next t ∧ TileOver s c u 0 t ∧ t.mem = s.mem ∧ OnlyAt s t c.launch 0 [] ∧
        (∀ k ∈ ks, ∀ d x, s.ctx? c.launch k = some d → d.resv? rid = some x →
          ∃ y, (t.ctx c.launch k).resv? rid = some y ∧ y.desc = x.desc ∧ ∀ m, y.byte m =
            if 128 * row ≤ m ∧ m < 128 * (row + n) then (padByte s c.launch src (off + (m - 128 * row))).toNat else x.byte m) ∧
        ∀ q k rid', ¬(q = c.launch ∧ k ∈ ks ∧ rid' = rid) → (t.ctx q k).resv? rid' = (s.ctx q k).resv? rid') ∧
    (∀ sparse l ra rb al w, u.kind = .mma sparse l → s.tileBad c u = none →
      let b := MmaBlock.ofWords l
      c.resv? b.rida = some ra → c.resv? b.ridb = some rb → c.alloc? b.handle = some al → b.col0 + b.n ≤ al.pitch →
      s.wave? c.core u.slot = some w →
      let bytes := metaByte b (s.metaBytes c w b sparse (b.metaLen (s.launch c.launch).prot ra.ty))
      let e := fun i j => mmaElem b ra rb sparse bytes (al.elem (b.row0 + i) (b.col0 + j)) i j
      ∃ t al', exec (.tileOpComplete core op) s = .next t ∧ (t.ctx c.launch c.core).alloc? b.handle = some al' ∧
        (∀ i j, j < al.pitch → al'.elem i j =
          if b.row0 ≤ i ∧ i < b.row0 + b.m ∧ b.col0 ≤ j ∧ j < b.col0 + b.n then BitVec.ofNat 32 (e (i - b.row0) (j - b.col0)).1
          else al.elem i j) ∧
        TileOver s c u (orFlags ((List.range (b.m * b.n)).map (fun x => (e (x / b.n) (x % b.n)).2))) t ∧ t.mem = s.mem) ∧
    (∀ l dst sdst n al w s1 fl, u.kind = .drain l dst sdst n → u.rowsDone = 0 → u.sent = 0 → u.flags = 0 →
      s.doTile c u = ⟨s1, fl, .over⟩ → s.wave? c.core u.slot = some w →
      let b := DrainBlock.ofWords l
      c.alloc? b.handle = some al → b.col0 + b.cols ≤ al.pitch → b.cols * b.ty.bits % 8 = 0 → b.rowBytes ≤ b.epitch →
      let row := drainedRow s c u w.wid n b al
      (∀ pc qc, dst.pad = some pc → (s.ctx? c.launch pc).isSome = true →
        (b.mx = true → sdst.pad = some qc ∧ (s.ctx? c.launch qc).isSome = true ∧ b.scaleRow ≤ b.spitch ∧
          (pc ≠ qc ∨ dst.addr + b.rows * b.epitch ≤ sdst.addr ∨ sdst.addr + b.rows * b.spitch ≤ dst.addr)) →
        ∃ t, exec (.tileOpComplete core op) s = .next t ∧ t.mem.bytes = s.mem.bytes ∧
          (∀ r < b.rows, ∀ k < b.rowBytes, padByte t c.launch pc (dst.addr + r * b.epitch + k) = (packBytes b.ty (row r).2.1).getD k 0) ∧
          (b.mx = true → ∀ r < b.rows, ∀ k < b.scaleRow,
            padByte t c.launch qc (sdst.addr + r * b.spitch + k) = BitVec.ofNat 8 ((row r).1.getD k 0)) ∧
          ∀ q x m, ¬(q = c.launch ∧ ((x = pc ∧ ∃ r < b.rows, dst.addr + r * b.epitch ≤ m ∧ m < dst.addr + r * b.epitch + b.rowBytes) ∨
              (b.mx = true ∧ x = qc ∧ ∃ r < b.rows, sdst.addr + r * b.spitch ≤ m ∧ m < sdst.addr + r * b.spitch + b.scaleRow))) →
            padByte t q x m = padByte s q x m) ∧
      (∀ ps : List Place,
        let st := (List.range b.rows).flatMap (fun r => drainStores b dst sdst r (row r))
        st.map (fun x => endPlace x.1 x.2.1) = ps.map some → (∀ p ∈ ps, Reachable s c.launch p) →
        let stores := ps.zip (st.map (fun x => x.2.2))
        stores.Pairwise StoresApart → ∃ t, exec (.tileOpComplete core op) s = .next t ∧ Stored s t c.launch stores) ∧
      ∃ t al', exec (.tileOpComplete core op) s = .next t ∧ (t.ctx c.launch c.core).alloc? b.handle = some al' ∧
        (∀ i j, j < al.pitch → al'.elem i j = if b.zero = true ∧ inDrain b i j = true then 0 else al.elem i j) ∧
        TileOver s c u (orFlags ((List.range b.rows).map (fun r => (row r).2.2))) t) ∧
    ∀ a w, s.tileBad c u = some a → s.wave? c.core u.slot = some w → w.launch = c.launch → w.allExited = false →
      ∃ t v, exec (.spmetaFault core op) s = .next t ∧ t.wave? c.core u.slot = some v ∧
        v.refusals = w.refusals ++ [⟨u.lane, cSPMETA, a⟩] ∧ (t.ctx c.launch c.core).handles = c.handles ∧
        (t.ctx c.launch c.core).resv = c.resv ∧ (∀ x ∈ (t.ctx c.launch c.core).tiles, x.id ≠ op) ∧ t.mem = s.mem

/-- BAR, BARA and BARW arrive at a group or consume an arrival (R322, R324). An arrival takes one from PEND; the last one starts the next
epoch with every live member pending (R322). -/
def Obligations.BarrierWords : Prop :=
  HasEffect barrierWord ∧
  ∀ (s : State) (w : Wave) (g : Nat) (x : Group), Known s w.launch → (s.launch w.launch).groups.find? (fun y => y.gid == g) = some x →
    x.live ≠ 0 → ((s.arrive w g).launch w.launch).group g =
      if x.pend ≤ 1 then { x with epoch := (x.epoch + 1) % 2 ^ 48, pend := x.live } else { x with pend := x.pend - 1 }

/-- CHSEND fills a slot with every lane's value, zero where the lane does not execute; CHRECV takes the oldest (R329). SRARV flips its
stage's phase once the wave has nothing outstanding; SRWT goes on where the stage has the phase it waits for (R275, R276). OBRES, OBREL, ACCA
and ACCF give their outcome, and where it is OK reserve or free what they name (R280, R286, R287). -/
def Obligations.ChannelRingAndReservationWords : Prop := HasEffect channelWord ∧ HasEffect ringWord ∧ HasEffect reserveWord

/-! ### The host, launches and their records -/

/-- The host reads and writes 64 bytes where HOST allows it, and is refused elsewhere (R74); a byte of the device's own records takes no write
(R3), and a class-2 batch whose reply word it has made non-zero is answered (R346). A memory error writes its event (R80). Bishop serves
class 1 (R349). A frame changes hands with its contents, its generation and its entries' copies counted (R114). The scrubber leaves no
stale entry of its die and renews the increments of its frames and core resources (R112). -/
def Obligations.HostEvents : Prop :=
  (∀ s ma, ∃ t, exec (.cxlMemRead ma) s = .next t ∧ t =
    if s.hostMay (mfnOf ma) then
      { s with mem := { s.mem with l2 := t.mem.l2, l2tick := t.mem.l2tick }, dev := { s.dev with hostResp := .data (s.readMem ma 64) } }
    else { s with dev := { s.dev with hostResp := .poison, refusedReqs := s.dev.refusedReqs + 1 } }) ∧
  (∀ s ma data, ∃ t, exec (.cxlMemWrite ma data) s = .next t ∧
    if s.hostMay (mfnOf ma) = true ∧ s.serviceOnly (mfnOf ma) = false then
      t = { s with
        mem := t.mem, tasks := { s.tasks with batches := t.tasks.batches }, dev := { s.dev with hostResp := .written } } ∧
      (∀ n < data.length, t.byte (ma + n) = storedByte s 0 (none, ma) n (data.getD n 0)) ∧
      (∀ n c k b, s.batch? n c k = some b → ∃ a, t.batch? n c k = some { b with answered := a } ∧ (b.answered.isSome = true → a = b.answered) ∧
        let word := slotAddr (s.tenant n) 2 k + 0x640
        a.isSome = (b.answered.isSome ||
          (c == 2 && decide (ma ≤ word ∧ word + 8 ≤ ma + data.length) && t.readWord word != 0))) ∧
      BytesKept s t ma data.length ∧ t.frame (mfnOf ma) = { s.frame (mfnOf ma) with stamp := s.clock (mfnOf ma / 2 ^ 21) } ∧
      (∀ m, m ≠ mfnOf ma → t.frame m = s.frame m) ∧ t.mem.l1 = s.mem.l1 ∧ t.mem.tcache = s.mem.tcache
    else t = { s with dev := { s.dev with hostResp := .dropped, refusedReqs := s.dev.refusedReqs + 1 } }) ∧
  (∀ s ma corrected, let o := (s.frame (mfnOf ma)).owner
    let kind := if corrected then 1 else 2
    o ≠ 0 → s.bound o = true → s.dev.claimHost.getLsbD kind = true →
    ∃ t x, exec (.memoryError ma corrected) s = .next t ∧ (t.tenant o).events = (s.tenant o).events ++ [eventOf s kind x] ∧
      t.ctl = { s.ctl with seq := (s.ctl.seq + 1) % 2 ^ 64, fresh := s.ctl.fresh + 1 } ∧ t.mem = s.mem ∧ t.cores = s.cores ∧ t.dev = s.dev ∧
      t.tasks.launches = s.tasks.launches ∧ TenantsKept s t o) ∧
  (∀ s t slot b, s.batch? t 1 slot = some b → b.lanes.length ≤ 32 →
    let ma := slotAddr (s.tenant t) 1 slot
    s.readWord (ma + 0x640) = 0 → bits (s.readWord (ma + 24)).toNat 15 0 = 1 →
    ∃ u, exec (.class1Service t slot) s = .next u ∧
      u = { s with mem := u.mem, tasks := { s.tasks with batches := u.tasks.batches } } ∧ u.readWord (ma + 0x640) = 1 ∧
      (∃ n, u.batch? t 1 slot = some { b with answered := b.answered.or (some n) }) ∧
      (∀ j < b.lanes.length, u.readWord (ma + 0x440 + 16 * j) = 0 ∧
        u.readWord (ma + 0x448 + 16 * j) = BitVec.ofNat 64 (s.tenant t).svcTfn) ∧ BytesKept s u (ma + 0x440) 0x208) ∧
  (∀ s t tfn e, (s.tenant t).place? .frame tfn = some e → e.phys < 2 ^ 24 → (s.frame e.phys).prot = false → (s.frame e.phys).incs < 255 →
    ∀ h ∈ [true, false], (if h then (s.frame e.phys).owner = t else (s.frame e.phys).owner = 0 ∧ (s.frame e.phys).host = true) →
    ∃ u, exec (.frameHandover t tfn h) s = .next u ∧ u.frame e.phys = { s.frame e.phys with
        owner := if h then 0 else t, host := h, gen := ((s.frame e.phys).gen + 1) % 256, incs := (s.frame e.phys).incs + 1 } ∧
      (∀ m, m ≠ e.phys → u.frame m = s.frame m) ∧ u.mem.bytes = s.mem.bytes ∧ u.mem.l1 = s.mem.l1 ∧
      (∀ x ∈ (u.tenant t).tlb, x ∈ (s.tenant t).tlb ∧ x.names tfn = false) ∧
      (u.tenant t).epoch = ((s.tenant t).epoch + 1) % 2 ^ 32 ∧ TenantsKept s u t ∧ u.cores = s.cores ∧ u.dev = s.dev ∧ u.ctl = s.ctl) ∧
  ∀ s die, cellWf Frame.free s.mem.frames = true → cellWf (⟨0, 0⟩ : UnitGen) s.cores.gens = true →
    ∃ t, exec (.scrubberPass die) s = .next t ∧
      t = { s with
        mem := { s.mem with frames := t.mem.frames, l1 := t.mem.l1, l2 := t.mem.l2 }, cores := { s.cores with gens := t.cores.gens } } ∧
      (∀ m, t.frame m = if m / 2 ^ 21 = die then { s.frame m with incs := 0 } else s.frame m) ∧
      (∀ n, cellGet (⟨0, 0⟩ : UnitGen) t.cores.gens n =
        if unitOnDie die n then { cellGet (⟨0, 0⟩ : UnitGen) s.cores.gens n with incs := 0 } else cellGet ⟨0, 0⟩ s.cores.gens n) ∧
      ∀ e, e ∈ t.mem.l1 ↔ e ∈ s.mem.l1 ∧ (s.l1Fresh e = true ∨ ¬(e.line / 2 ^ 30 % 8 = die ∨ e.core / 192 = die))

/-- A ready word is stored, and the watcher then looks at the window: it queues the record of the lowest slot that holds NEXTSUB, clears that
word and goes on to the next number (R76, R77). A launch whose turn has come has its tables read; one whose tables fail ends BADRECORD (R69,
R70), and one that fits is admitted with all its waves, each in the state of R71, and on each of its cores a scratchpad that reads as zero and
no accumulator (R71, R85). RESLIM over, it reserves its cores (R86); KEYLIM over without a slot, it ends KEYWAIT (R370). A slot opens with its
waiters its holders, or the launch that unsealed it ends BADRECORD (R370). The model's reading, log 38: the tables are read word by word at
events of their own, and RESLIM counts from when the launch became ready. -/
def Obligations.AdmissionEvents : Prop :=
  (∀ s t slot v, s.bound t = true → slot < 128 → s.hostMay (mfnOf (cwSlot (s.tenant t) slot)) = true →
    ∃ u w, exec (.readyWordStore t slot v) s = .next w ∧ exec (.pendingSlotQueued t) u = .next w ∧
      u = { s with mem := u.mem, dev := { s.dev with hostResp := .written } } ∧
      u.readWord (cwSlot (s.tenant t) slot) = v ∧ BytesKept s u (cwSlot (s.tenant t) slot) 8 ∧
      ((s.tenant t).crsize < 6 ∨ 16 < (s.tenant t).crsize ∨ 4096 ≤ s.qdepth t → w = u)) ∧
  (∀ s t i, s.bound t = true → 6 ≤ (s.tenant t).crsize → (s.tenant t).crsize ≤ 16 → s.qdepth t < 4096 → i < 128 →
    (s.readWord (cwSlot (s.tenant t) i)).toNat = (s.tenant t).nextsub →
    (∀ j < i, (s.readWord (cwSlot (s.tenant t) j)).toNat ≠ (s.tenant t).nextsub) →
    ∃ u, exec (.pendingSlotQueued t) s = .next u ∧
      (u.tenant t).nextsub = (if (s.tenant t).nextsub + 1 = 2 ^ 64 then 1 else (s.tenant t).nextsub + 1) ∧
      u.readWord (cwSlot (s.tenant t) i) = 0 ∧ BytesKept s u (cwSlot (s.tenant t) i) 8 ∧
      (u.launch s.nextUid).record = wordsAt s (cwSlot (s.tenant t) i) 64 ∧ (u.launch s.nextUid).tenant = t ∧
      (u.launch s.nextUid).subno = (s.tenant t).nextsub ∧ (u.launch s.nextUid).srcLaunch = false ∧ u.cores = s.cores ∧ u.dev = s.dev) ∧
  (∀ s uid slots save, (s.launch uid).phase = .ready → (s.launch uid).endInfo = none →
    (s.tenant (s.launch uid).tenant).suspended = false → s.turn (s.launch uid) = true →
    let l := s.launch uid
    (l.wavesRead = false → l.tablesIn = false → exec (.launchAdmitted uid slots save) s = .next (s.setLaunch (s.readTable l))) ∧
    (∀ n, l.wavesRead = false → l.tablesIn = true → s.tablePass l = .error n →
      exec (.launchAdmitted uid slots save) s = .next (s.setLaunch { l with
        endInfo := some ⟨1, n, 0⟩, phase := .ending, endCycle := some s.ctl.cycle })) ∧
    (∀ tb, l.wavesRead = false → l.tablesIn = true → s.tablePass l = .ok tb →
      exec (.launchAdmitted uid slots save) s = .next (s.setLaunch (l.withTables tb))) ∧
    (l.wavesRead = true → s.fitsNow l = true → s.slotsOk l slots = true → s.saveOk save (placesAt l.waves).length = true →
      ∃ u, exec (.launchAdmitted uid slots save) s = .next u ∧ (u.launch uid).phase = .running ∧ (u.launch uid).waves = l.waves ∧
        (u.launch uid).saveArea = save ∧ (l.tstart = 0 → (u.launch uid).tstart = s.time l.tenant) ∧
        (∃ ws : List Wave, u.cores.waves = s.cores.waves ++ ws ∧ ws.length = l.waves.length ∧
          ∀ n (e : WaveEntry) k (w : Wave), l.waves[n]? = some e → slots[n]? = some k → ws[n]? = some w →
            w.wid = n ∧ s.coreOf l.tenant e.core = some w.core ∧ w.slot = k ∧ w.corepl = e.core ∧ w.launch = uid ∧ w.role = e.role ∧
            w.mode = e.rtmode.toNat ∧ w.base = l.basereg ∧ (∀ i < 32, w.lane i = ⟨.ready, BitVec.ofNat 48 l.entry, 0, false⟩) ∧
            (∀ i, w.sreg i = if i < 16 then l.arg i else 0) ∧ (∀ r i, w.vreg r i = 0) ∧
            (∀ p, p ≠ 0 → (∀ i, w.pred p i = false) ∧ w.qpred p = false) ∧ w.fstat = 0 ∧ w.mstat = 0 ∧
            w.ops = [] ∧ w.cpWords = [] ∧ w.tlWords = [] ∧ w.hangcnt = 0 ∧ w.ext = 0 ∧ w.tags = []) ∧
        (∃ cs : List Ctx, u.cores.ctxs = s.cores.ctxs ++ cs ∧ cs.map Ctx.place = placesAt l.waves ∧
          ∀ c ∈ cs, c.launch = uid ∧ s.coreOf l.tenant c.place = some c.core ∧ c.pad = [] ∧ c.handles = [] ∧ c.resv = []) ∧
        u.mem.bytes = s.mem.bytes ∧ u.mem.frames = s.mem.frames ∧ u.ctl = s.ctl ∧ u.dev = s.dev ∧ u.tasks.tenants = s.tasks.tenants)) ∧
  (∀ s uid e, let l := s.launch uid
    l.phase = .ready → (s.tenant l.tenant).reslim ≠ 0 → l.readySince = some e → 1000 * (s.tenant l.tenant).reslim < s.elapsed l.tenant e →
    ∃ u, exec (.reservationTimeout uid) s = .next u ∧ u = s.setLaunch { l with reserving := true }) ∧
  (∀ s uid since, let l := s.launch uid
    l.phase = .keywait since → l.keylim ≠ 0 → 1000 * l.keylim ≤ s.elapsed l.tenant since → s.freeKey = none → l.endInfo = none →
    ∃ u, exec (.keywaitTimeout uid) s = .next u ∧ (u.launch uid).endInfo = some ⟨4, 0, 0⟩ ∧ (u.launch uid).phase = .ending ∧
      uid ∉ u.tasks.keyQueue ∧ (∀ k, uid ∉ (u.keySlot k).waiters) ∧ u = { s with
        tasks := { s.tasks with keyQueue := u.tasks.keyQueue, keySlots := u.tasks.keySlots, launches := u.tasks.launches } }) ∧
  ∀ s k uid, (s.keySlot k).state = .unsealing → (s.keySlot k).unsealer = uid → (s.keySlot k).waiters = [uid] → Known s uid →
    (s.launch uid).endInfo = none → s.tasks.keyQueue = [] →
    ∃ u, exec (.keyUnsealDone k) s = .next u ∧
      u = { s with tasks := { s.tasks with keySlots := u.tasks.keySlots, launches := u.tasks.launches } } ∧
      match s.unseal (s.keySlot k).tenant (s.keySlot k).kid (s.launch uid).keyh with
      | some (x, m) => u.keySlot k = { s.keySlot k with
          state := .active, xts := x, mac := m, waiters := [], holders := (s.keySlot k).holders ++ [uid] } ∧
        (u.launch uid).slotHeld = some k ∧ (u.launch uid).phase = if (s.launch uid).pure then .queued else .ready
      | none => u.keySlot k = KeySlot.empty ∧ (u.launch uid).endInfo = some ⟨1, 11, 0⟩

/-- A lookup begins with a record event that stamps the launch (R94, R97) and reads its tables (R70); it misses without an entry and goes on
to admission (R100), and it hits an entry of its key, current in epoch and writes, with no output to copy (R98, R99). A region streamed leaves
its digest (R96). A hit's copy leaves the found entry's bytes at the launch's output (R99). Clocks that can rise no more start again with
nothing reused (R94). The model's choice: a launch is unkeyed also where a region lies on another device (log 20); the copy is of the entry
that was found, and the counters count as log 37 says. -/
def Obligations.ReuseEvents : Prop :=
  (∀ s uid, let k := s.launch uid
    k.phase = .queued → k.eligibleAt.isSome = true → k.pure = true → k.looked = false → k.prot = false → k.endInfo = none →
    (k.v0 = [] → exec (.reuseLookup uid) s = .next (s.recordEvent.1.setLaunch { k with v0 := s.recordEvent.2 })) ∧
    (k.v0 ≠ [] → k.tablesIn = false → exec (.reuseLookup uid) s = .next (s.setLaunch (s.readTable k))) ∧
    (∀ n, k.v0 ≠ [] → k.tablesIn = true → s.tablePass k = .error n →
      ∃ u, exec (.reuseLookup uid) s = .next u ∧ (u.launch uid).endInfo = some ⟨1, n, 0⟩ ∧ u.cores = s.cores ∧ u.mem = s.mem) ∧
    ∀ tb, k.v0 ≠ [] → k.tablesIn = true → s.tablePass k = .ok tb → k.nin = 0 →
      let l := { k.withTables tb with looked := true }
      let head := (s.setLaunch l).tenantWords l.tenant l.slotHeld l.codeobj 8
      let gone := (l.outs ++ l.scrs).any (fun r => ((s.setLaunch l).regionFrames l.tenant aRD r).isNone)
      (s.tasks.reuse = [] →
        ∃ u, exec (.reuseLookup uid) s = .next u ∧ (u.launch uid).phase = .ready ∧ (u.launch uid).looked = true ∧
          (u.launch uid).missed = true ∧ (u.launch uid).unkeyed = (head.isNone || gone) ∧ (u.launch uid).v0 = k.v0 ∧
          (u.launch uid).waves = tb.waves ∧
          (s.bound l.tenant = true → (u.tenant l.tenant).misses = ((s.tenant l.tenant).misses + 1) % 2 ^ 64) ∧
          u.mem = s.mem ∧ u.cores = s.cores ∧ u.ctl = s.ctl ∧ u.dev = s.dev) ∧
      ∀ e h, head = some h → gone = false → s.tasks.reuse = [e] →
        e.fits l (l.keyOf (s.tenant l.tenant).salt.toNat [(h.getD 6 0).toNat + 2 ^ 64 * (h.getD 7 0).toNat]) = true →
        e.epoch = (s.tenant l.tenant).epoch → e.outs = [] → l.nout = 0 →
        ∃ u, exec (.reuseLookup uid) s = .next u ∧ (u.launch uid).reused = true ∧ (u.launch uid).endInfo = some ⟨0, 0, 0⟩ ∧
          (u.launch uid).phase = .ending ∧ (s.bound l.tenant = true → (u.tenant l.tenant).hits = ((s.tenant l.tenant).hits + 1) % 2 ^ 64) ∧
          u.mem = s.mem ∧ u.cores = s.cores) ∧
  (∀ s uid r found, (s.launch uid).phase = .digesting [r] found → s.recordEvent.1.tasks.reuse = [] →
    let l := s.launch uid
    ∃ u, exec (.digestCacheFill uid r) s = .next u ∧ (u.launch uid).phase = .ready ∧ (u.launch uid).missed = true ∧
      u.mem.wclock = s.recordEvent.2 ∧ u.mem.bytes = s.mem.bytes ∧ u.cores = s.cores ∧ u.ctl = s.ctl ∧
      match streamRegion l.tenant l.slotHeld ((l.inRegion r).2 / 32) (l.inRegion r).1 s.recordEvent.1 [] with
      | none => (u.launch uid).unkeyed = true
      | some (_, b) => (u.launch uid).unkeyed = false ∧ ∃ d, u.tasks.digests.head? = some d ∧ d.tenant = l.tenant ∧ d.va = (l.inRegion r).1 ∧
          d.len = (l.inRegion r).2 ∧ d.stamps = s.recordEvent.2 ∧ d.epoch = (s.tenant l.tenant).epoch ∧
          d.digest = ox128 (nats b) (s.tenant l.tenant).salt.toNat) ∧
  (∀ s uid e a b ea eb ma mb, (s.launch uid).phase = .copying [(a, b)] → (s.launch uid).endInfo = none → (s.launch uid).outs = [(b, 32)] →
    (s.launch uid).hitEntry = some e → a ≠ b →
    s.unwritten (s.launch uid).tenant e.stamps (a, 32) = true →
    s.tenantEntry (s.launch uid).tenant a aRD = some ea → isProt ea.attr = false → ea.loc a = .mem ma →
    s.tenantEntry (s.launch uid).tenant b aWR = some eb → isProt eb.attr = false → eb.loc b = .mem mb →
    ∃ u, exec (.reuseHitCopyDone uid) s = .next u ∧ (∀ n < 32, u.byte (mb + n) = storedByte s 0 (none, mb) n (s.byte (ma + n))) ∧
      BytesKept s u mb 32 ∧
      (u.launch uid).reused = true ∧ (u.launch uid).endInfo = some ⟨0, 0, 0⟩ ∧ (u.launch uid).phase = .ending ∧
      (∀ x, x ∈ u.tasks.reuse ↔ x ∈ s.tasks.reuse) ∧ u.cores = s.cores ∧ u.ctl = s.ctl ∧ u.dev = s.dev) ∧
  ∀ s, s.clockFull = true → cellWf Frame.free s.mem.frames = true →
    ∃ t, exec .writeClockWrap s = .next t ∧ t = { s with
        mem := { s.mem with wclock := List.replicate 8 1, frames := t.mem.frames }, tasks := { s.tasks with
          reuse := [], digests := [], tenants := t.tasks.tenants } } ∧
      ((∀ k ∈ s.tasks.tenants, ∀ r ∈ k.requests, r.kind ≠ .quota) →
        t.tasks.tenants = s.tasks.tenants.map (fun k => { k with harvest := none })) ∧
      ∀ m, t.frame m = { s.frame m with stamp := 0 }

/-- A launch that has ended retires once what it issued is over: its cores are free and its completion record waits (R78, R387 to R389).
Killed before any other end, it ends KILLED and so retires (R79, R387).
The two rings take their records word by word, the last word last, with PHASE, and signal their vectors (R78, R80, R82); a full ring takes
none and says so. A register of a function's pages takes the host's value by its access code, whether or not a tenant is bound to it (R3, R75); a
function-level reset empties its service slots and ends every launch that has not ended yet without a record (R5, R75, R388). The model's
reading: the kill comes as an argument of the retirement (log 44), GO written 0 leaves a challenge under way (log 55), and what a function-level
reset keeps is as log 43 says; HOST of the rings that a register names is Bishop's (R114, log 41). -/
def Obligations.RetirementEvents : Prop :=
  (∀ s uid killed e, (s.launch uid).phase = .ending → (s.launch uid).endInfo = some e → e ≠ endedByReset → s.launchQuiet uid = true →
    (s.launch uid).pure = false → (s.launch uid).slotHeld = none → s.bound (s.launch uid).tenant = true →
    let l := s.launch uid
    ∃ u, exec (.launchRetire uid killed) s = .next u ∧ (u.launch uid).phase = .retired ∧
      u.cores.waves = s.cores.waves.filter (fun w => w.launch != uid) ∧ u.cores.ctxs = s.cores.ctxs.filter (fun c => c.launch != uid) ∧
      (u.tenant l.tenant).records = (s.tenant l.tenant).records ++ [completionOf
        { l with preemptSat := l.preemptSat || s.tasks.stops.any (fun r => r.launch == uid) } e s.ctl.seq (s.time l.tenant)] ∧
      u.tasks.stops = s.tasks.stops.filter (fun r => r.launch != uid) ∧ u.ctl = { s.ctl with seq := (s.ctl.seq + 1) % 2 ^ 64 } ∧ u.dev = s.dev ∧
      TenantsKept s u l.tenant ∧
      ∀ m, l.tstart = 0 ∨ m / 2 ^ 16 < l.saveArea / 2 ^ 16 ∨ l.saveArea / 2 ^ 16 + saveFrames (placesAt l.waves).length ≤ m / 2 ^ 16 →
        u.byte m = s.byte m) ∧
  (∀ s uid, s.tasks.launches.any (fun l => l.uid == uid) = true → (s.launch uid).endInfo = none →
    exec (.launchRetire uid true) s =
      exec (.launchRetire uid false) (s.setLaunch { s.launch uid with
        phase := .ending, endInfo := some ⟨5, 0, 0⟩, endCycle := some s.ctl.cycle })) ∧
  (∀ s t r rest, (s.tenant t).records = r :: rest → r.words.length = 8 →
    let k := s.tenant t
    let ma := (k.crbase + 64 * (k.crprod % 2 ^ k.crsize)) % 2 ^ 40
    let due := k.cmodn ≠ 0 ∧ k.cmodn ≤ k.unsignalled + 1
    ∃ u, exec (.completionRecordWrite t) s = .next u ∧
      if ringOpen k.crsize k.crprod k.crcons then
        RecordAt u ma r.words ((k.crprod / 2 ^ k.crsize + 1) % 2) ∧ BytesKept s u ma 64 ∧
        u.tenant t = { k with
          records := rest, crprod := (k.crprod + 1) % 2 ^ 32, unsignalled := if due then 0 else k.unsignalled + 1,
          oldestUnsignalled := if due then none else k.oldestUnsignalled.or (some (s.time t)) } ∧
        u.dev = { s.dev with msix := if due then s.dev.msix ++ [⟨t, 0⟩] else s.dev.msix } ∧ TenantsKept s u t ∧ u.cores = s.cores ∧
        u.ctl = s.ctl
      else u = s.setTenant { k with crwait := true }) ∧
  (∀ s t r rest, (s.tenant t).events = r :: rest → r.words.length = 8 →
    let k := s.tenant t
    let ma := (k.evbase + 64 * (k.evprod % 2 ^ k.evsize)) % 2 ^ 40
    ∃ u, exec (.eventRecordWrite t) s = .next u ∧
      if ringOpen k.evsize k.evprod k.evcons then
        RecordAt u ma r.words ((k.evprod / 2 ^ k.evsize + 1) % 2) ∧ BytesKept s u ma 64 ∧
        u.tenant t = { k with events := rest, evprod := (k.evprod + 1) % 2 ^ 32 } ∧
        u.dev = { s.dev with msix := s.dev.msix ++ [⟨t, 2⟩] } ∧ TenantsKept s u t ∧ u.cores = s.cores ∧ u.ctl = s.ctl
      else u = s.setTenant { k with evlost := true }) ∧
  (∀ s t o, (s.tenant t).cmodn ≠ 0 → (s.tenant t).oldestUnsignalled = some o →
    1000 * (s.tenant t).cmodt ≤ s.elapsed t o →
    ∃ u, exec (.completionInterruptTimer t) s = .next u ∧
      u.tenant t = { s.tenant t with unsignalled := 0, oldestUnsignalled := none } ∧ TenantsKept s u t ∧
      u = { s with tasks := { s.tasks with tenants := u.tasks.tenants }, dev := { s.dev with msix := s.dev.msix ++ [⟨t, 0⟩] } }) ∧
  (∀ s t v, ∃ u, exec (.vfRegisterWrite t .pfClaim v) s = .next u ∧ u = { s with dev := { s.dev with claimHost := v.setWidth 16 } }) ∧
  (∀ s t r v, s.bound t = true → r ∉ [VfReg.pfClaim, .go, .cmodn] →
    ∃ u, exec (.vfRegisterWrite t r v) s = .next u ∧
      u = { s with mem := { s.mem with frames := u.mem.frames }, tasks := { s.tasks with tenants := u.tasks.tenants } } ∧
      (r ∉ [VfReg.crbase, .crsize, .evbase, .evsize] → u.mem = s.mem) ∧
      (r ∈ [VfReg.crbase, .crsize, .evbase, .evsize] → (∀ m, (s.frame m).prot = false) →
        let k := u.tenant t
        ∀ m, u.frame m = if (s.frame m).owner = t ∧ m ∈ ringFrames k.crbase k.crsize ++ ringFrames k.evbase k.evsize then
          { s.frame m with host := true } else s.frame m) ∧
      TenantsKept s u t ∧ u.tenant t = (s.tenant t).write r v ∧
      (∀ p ∈ [(VfReg.cmodt, Tenant.cmodt, 15), (.cmodn, Tenant.cmodn, 15), (.evcons, Tenant.evcons, 31), (.evbase, Tenant.evbase, 63),
          (.evsize, Tenant.evsize, 7), (.crsize, Tenant.crsize, 7), (.crcons, Tenant.crcons, 31), (.crbase, Tenant.crbase, 63)],
        p.2.1 (u.tenant t) = if r = p.1 then bits v.toNat p.2.2 0 else p.2.1 (s.tenant t)) ∧
      ((u.tenant t).evlost = if r = .evlost then (s.tenant t).evlost && !v.getLsbD 0 else (s.tenant t).evlost) ∧
      (r ∈ [VfReg.reslim, .svcth, .svchold, .qdepth, .nextsub, .evprod, .crprod, .cwbase, .status] → u.tenant t = s.tenant t)) ∧
  (∀ s t v, s.bound t = true →
    let k := { s.tenant t with cmodn := bits v.toNat 15 0 }
    let due := k.cmodn ≠ 0 ∧ k.oldestUnsignalled.isSome = true ∧ k.cmodn ≤ k.unsignalled
    (∃ u, exec (.vfRegisterWrite t .cmodn v) s = .next u ∧ TenantsKept s u t ∧
      u.tenant t = (if due then { k with unsignalled := 0, oldestUnsignalled := none } else k) ∧
      u = { s with
        tasks := { s.tasks with tenants := u.tasks.tenants },
        dev := { s.dev with msix := if due then s.dev.msix ++ [⟨t, 0⟩] else s.dev.msix } }) ∧
    (v.getLsbD 0 = true → exec (.vfRegisterWrite t .go v) s = exec (.challengeStart t) s) ∧
    (v.getLsbD 0 = false → ∃ u, exec (.vfRegisterWrite t .go v) s = .next u ∧ u = s.setTenant { s.tenant t with goBit := false })) ∧
  (∀ s t r v, s.bound t = false → 0 < t → t < 64 → r ∉ [VfReg.pfClaim, .go, .cmodn] →
    ∃ u, exec (.vfRegisterWrite t r v) s = .next u ∧ u.page t = (s.page t).write r v ∧
      u = { s with tasks := { s.tasks with vfs := u.tasks.vfs } }) ∧
  (∀ s t, s.bound t = true →
    ∃ u, exec (.functionLevelReset t) s = .next u ∧ u.cores = s.cores ∧ u.dev = s.dev ∧ u.ctl = s.ctl ∧
      u.tenant t = (s.tenant t).flr ∧ TenantsKept s u t ∧ u.tasks.batches = s.tasks.batches.filter (fun b => b.tenant != t) ∧
      (∀ b ∈ s.tasks.batches, b.tenant = t → u.readWord (slotAddr (s.tenant t) b.cls b.slot + 56) = 0) ∧
      (∀ m, (∀ b ∈ s.tasks.batches, b.tenant = t →
        let a := slotAddr (s.tenant t) b.cls b.slot + 56
        m < a ∨ a + 8 ≤ m) → u.byte m = s.byte m) ∧
      u.tasks.launches = (s.tasks.launches.filter (fun l => !(l.tenant == t && l.phase == .retired))).map (fun l =>
        if l.tenant = t then l.flr else l)) ∧
  ∀ s t, s.bound t = false → 0 < t → t < 64 →
    ∃ u, exec (.functionLevelReset t) s = .next u ∧ u.page t = { (s.page t).flr with id := t } ∧
      u = { s with tasks := { s.tasks with vfs := u.tasks.vfs } }

/-! ### The network -/

/-- Buckets rise by their rate at each boundary of 64 cycles, to twice the rate at most (R249, R255), and port budgets come back (R254); the
prefetches that waited for a token are then tried again (R237). A flit is sent again (R257); the remote table, the masks and rates take
Bishop's values (R247, R254, R260). A remote request that the table grants is performed at its home, and one that it does not grant is refused
(R260, R261). -/
def Obligations.NetworkEvents : Prop :=
  (∀ s die, (s.tasks.tenants.map Tenant.id).Nodup → (∀ k ∈ s.tasks.tenants, k.id < 64) →
    (s.refillPeriods 0 die = 0 → exec (.sliceTokenRefill die) s = .next s) ∧
    (s.refillPeriods 1 die = 0 → exec (.netTokenRefill die) s = .next s) ∧
    (0 < s.refillPeriods 0 die →
      ∃ t : State, exec (.sliceTokenRefill die) s = .next t.tryPrefs ∧ t.refillPeriods 0 die = 0 ∧
        t = { s with mem := { s.mem with sliceTok := t.mem.sliceTok, refills := t.mem.refills } } ∧
        ∀ k ∈ s.tasks.tenants, ∀ i < 384,
          let n := (die * 384 + i) * 64 + k.id
          let r := cellGet 0 k.slbw die
          cellGet 0 t.mem.sliceTok n =
            if r = 0 then cellGet 0 s.mem.sliceTok n else min (2 * r) (cellGet 0 s.mem.sliceTok n + s.refillPeriods 0 die * r)) ∧
    (die < 8 → 0 < s.refillPeriods 1 die →
      ∃ t : State, exec (.netTokenRefill die) s = .next t.tryPrefs ∧ t.refillPeriods 1 die = 0 ∧
        t = { s with mem := { s.mem with netTok := t.mem.netTok, refills := t.mem.refills } } ∧
        ∀ k ∈ s.tasks.tenants, ∀ stop ∈ stopsOn die,
          let n := State.stopKey stop k.id
          let r := cellGet 0 k.netbw die
          cellGet 0 t.mem.netTok n =
            if r = 0 then cellGet 0 s.mem.netTok n else min (2 * r) (cellGet 0 s.mem.netTok n + s.refillPeriods 1 die * r))) ∧
  (∀ s die, (s.refillPeriods 2 die = 0 → exec (.controlBudgetRefill die) s = .next s) ∧
    (0 < s.refillPeriods 2 die →
      ∃ t : State, exec (.controlBudgetRefill die) s = .next t.tryPrefs ∧ t.refillPeriods 2 die = 0 ∧
        t = { s with mem := { s.mem with ctlBudget := t.mem.ctlBudget, refills := t.mem.refills } } ∧
        ∀ port, cellGet 4 t.mem.ctlBudget port = if port / portNo 192 0 = die then 4 else cellGet 4 s.mem.ctlBudget port)) ∧
  (∀ s die tag, ∃ t, exec (.linkFlitReplay die tag) s = .next t ∧
    t = { s with mem := { s.mem with replays := s.mem.replays + 1, linkTags := t.mem.linkTags } } ∧
    ∀ d, cellGet 0 t.mem.linkTags d = if d = die then tag else cellGet 0 s.mem.linkTags d) ∧
  (∀ s die idx e, die < 8 → idx < 4096 →
    ∃ t, exec (.remoteOwnershipUpdate die idx e) s = .next t ∧ t = { s with mem := { s.mem with remote := t.mem.remote } } ∧
      ∀ n, cellGet none t.mem.remote n = if n = die * 4096 + idx then some e else cellGet none s.mem.remote n) ∧
  (∀ s die t mask sl nb wt, s.bound t = true → die < 8 → weightsOk wt = true →
    ∃ u, exec (.waymaskChange die t mask sl nb wt) s = .next u ∧
      u = { s with tasks := { s.tasks with tenants := u.tasks.tenants }, mem := { s.mem with netwt := u.mem.netwt } } ∧
      TenantsKept s u t ∧ u.tenant t = { s.tenant t with
        waymask := (u.tenant t).waymask, slbw := (u.tenant t).slbw, netbw := (u.tenant t).netbw } ∧
      ∀ d, cellGet 65535 (u.tenant t).waymask d = (if d = die then mask.toNat else cellGet 65535 (s.tenant t).waymask d) ∧
        cellGet 0 (u.tenant t).slbw d = (if d = die then sl.toNat else cellGet 0 (s.tenant t).slbw d) ∧
        cellGet 0 (u.tenant t).netbw d = (if d = die then nb.toNat else cellGet 0 (s.tenant t).netbw d) ∧
        u.netwt d = if d = die then wt else s.netwt d) ∧
  ∀ s dev t ma req, ∃ u, exec (.remoteAccessAtTarget dev t ma req) s = .next u ∧
    (s.remoteGrant dev t ma req = false → u = { s with dev := { s.dev with linkResp := .refused } }) ∧
    (ma < 2 ^ 40 → ma % 2 ^ 16 + remoteSize req ≤ 2 ^ 16 → s.remoteGrant dev t ma req = true → (s.frame (mfnOf ma)).owner = 0 →
      u = { s with mem := u.mem, dev := { s.dev with linkResp := u.dev.linkResp } } ∧
      match req with
      | .read n => u.dev.linkResp = .data (s.readMem ma n) ∧ u.mem.bytes = s.mem.bytes
      | .write l _ => u.dev.linkResp = .done ∧ BytesKept s u ma l.length ∧
        ∀ n < l.length, u.byte (ma + n) = storedByte s 0 (none, ma) n (l.getD n 0)
      | .atomic op w b c _ => u.dev.linkResp = .data (s.readMem ma w.bytes) ∧ BytesKept s u ma w.bytes ∧
        ∀ n < w.bytes, u.byte (ma + n) = storedByte s 0 (none, ma) n
          ((bytesOf w.bytes (atomNew op w (natOfBytes (s.readMem ma w.bytes)) b.toNat c.toNat)).getD n 0))

/-! ### Revocation, stops, save and restore -/

/-- A revocation is posted with its record and an upcall, and a quota that the holdings already meet changes at once (R124, R125); at its deadline
the engine seizes what no launch uses, and LOSS says so (R127, R129). -/
def Obligations.RevocationEvents : Prop :=
  (∀ s t k count target deadline reqid ma, s.mayPost t k count target deadline reqid = true → s.tfnAddr t (s.tenant t).revTfn = some ma →
    let ten := s.tenant t
    let a := ma + 64 * (ten.revCount % 64)
    ∃ u, exec (.revocationPost t k count target deadline reqid) s = .next u ∧
      RecordAt u a ((recordWords (revRecord s.ctl.seq reqid k.code count deadline target)).take 7) ((ten.revCount / 64 + 1) % 2) ∧
      BytesKept s u a 64 ∧ (u.tenant t).revCount = (ten.revCount + 1) % 2 ^ 64 ∧
      (u.tenant t).upcalls = ten.upcalls ++ [⟨(s.ctl.seq + 1) % 2 ^ 64, 0xFF02, 0, 0⟩] ∧
      u.ctl = { s.ctl with seq := (s.ctl.seq + 2) % 2 ^ 64 } ∧ u.dev = s.dev ∧
      (k ≠ .quota → TenantsKept s u t ∧
        (u.tenant t).requests = ten.requests ++ [⟨reqid, k, count, target, deadline, [], s.time t⟩]) ∧
      (k = .quota → s.reuseCount t ≤ count → (u.tenant t).quota = count) ∧ (∀ p e, k = .queue → target = some p → ten.place? k p = some e →
        (u.tenant t).place? k p = some { e with revoking := true }) ∧
      ∀ c i w, s.wave? c i = some w → ∃ b, u.wave? c i = some { w with wake := b }) ∧
  ∀ s t reqid r p, (s.tenant t).requests.find? (fun q => q.reqid == reqid) = some r → (s.tenant t).suspended = false →
    r.deadline ≤ s.time t → r.kind ∈ [PlaceKind.core, .bank, .lane, .queue, .chan] → s.toSeize t r = [p] → s.usersOf t r.kind p = [] →
    (s.tenant t).losses.length < 256 →
    ∃ u, exec (.abortEngineSeize t reqid) s = .next u ∧ (u.tenant t).place? r.kind p = none ∧
      (∀ k q, ¬(k = r.kind ∧ q = p) → (u.tenant t).place? k q = (s.tenant t).place? k q) ∧
      (u.tenant t).loss = (s.tenant t).loss ||| (1#8 <<< r.kind.code) ∧
      (u.tenant t).losses = (s.tenant t).losses ++ [⟨s.ctl.seq, r.kind.code⟩] ∧ (∀ q ∈ (u.tenant t).requests, q.reqid ≠ reqid) ∧
      (∀ m, (∀ ma, s.tfnAddr t (s.tenant t).lossTfn = some ma →
        m < ma + 32 * ((s.tenant t).lossCount % 256) ∨ ma + 32 * ((s.tenant t).lossCount % 256) + 32 ≤ m) → u.byte m = s.byte m) ∧
      u.cores = { s.cores with gens := u.cores.gens } ∧ u.dev = s.dev ∧ TenantsKept s u t

/-- A stop is requested by force by Bishop (R354), by a grace that is over (R354), by a lease that passes on (R87), by waits for services
(R351); as the cycle ends, the waves that a forced request names halt at their boundary with their registers as they stand (R358, by R389 and
log 41 after the words of that cycle). A cooperative one only asks its waves (R354). A request that comes in the cycle of the launch's last
EXIT is satisfied by that (R389). -/
def Obligations.StopEvents : Prop :=
  (∀ s uid places w, (s.launch uid).stoppable = true →
    let here := places.filter (fun p => (s.residentPlaces uid).contains p)
    here ≠ [] →
    (∃ t, exec (.stopRequest uid places true) s = .next t ∧ t = s.setStops t.tasks.stops ∧
      ⟨uid, here, true, s.ctl.cycle⟩ ∈ t.tasks.stops ∧
      (∀ r ∈ t.tasks.stops, r = ⟨uid, here, true, s.ctl.cycle⟩ ∨ (r.launch = uid → ∀ p ∈ here, p ∉ r.places)) ∧
      ∀ r ∈ s.tasks.stops, r.launch ≠ uid → r.places ≠ [] → r ∈ t.tasks.stops) ∧
    ((s.launch uid).grace ≠ 0 → s.tasks.stops = [] → OnlyWave s uid here w →
      ∃ t, exec (.stopRequest uid places false) s = .next t ∧ WaveTo s w { w with stopAsked := true } t ∧
        t.cores.quads = s.cores.quads ∧ t.tasks = { s.tasks with stops := [⟨uid, here, false, s.ctl.cycle⟩] } ∧ t.cores.ctxs = s.cores.ctxs)) ∧
  (∀ s uid places forced, (s.launch uid).justEnded s.ctl.cycle = true → (places.filter (fun p => (s.residentPlaces uid).contains p)) ≠ [] →
    exec (.stopRequest uid places forced) s = .next (s.setLaunch { s.launch uid with preemptSat := true })) ∧
  (∀ s uid r, s.tasks.stops = [r] → r.launch = uid → r.forced = false → r.madeAt + 1024 * (s.launch uid).grace ≤ s.ctl.cycle →
    exec (.graceExpiry uid) s = .next (s.setStops [{ r with forced := true }])) ∧
  (∀ s r w, s.tasks.stops = [r] → r.forced = true → OnlyWave s r.launch r.places w →
    Halts s w s.haltDue ∧ s.haltDue.tasks = s.tasks) ∧
  (∀ s core t, s.dev.claimHost.getLsbD 5 = true → t ≠ 0 → s.bound t = true → s.coreForTenants core = true → core ∉ s.cores.leased →
    (∀ c ∈ s.cores.ctxs, c.core = core → (s.launch c.launch).tenant = t) →
    ∃ u x, exec (.leaseChange core t) s = .next u ∧ core ∈ u.cores.leased ∧ cellGet 0 u.cores.leases core = t ∧
      (∀ c, c ≠ core → cellGet 0 u.cores.leases c = cellGet 0 s.cores.leases c) ∧ u.cores.waves = s.cores.waves ∧
      u.cores.ctxs = s.cores.ctxs ∧ (u.tenant t).events = (s.tenant t).events ++ [eventOf s 5 x] ∧ TenantsKept s u t ∧ u.mem = s.mem ∧
      u.dev = s.dev) ∧
  (∀ s core t, s.coreForTenants core = false → exec (.leaseChange core t) s = .next s) ∧
  (∀ s core t c, s.dev.claimHost.getLsbD 5 = false → s.coreForTenants core = true → core ∉ s.cores.leased →
    s.cores.ctxs.filter (fun x => x.core == core && (s.launch x.launch).tenant != t) = [c] → (s.launch c.launch).stoppable = true →
    ∃ u, exec (.leaseChange core t) s = .next u ∧ u.cores.waves = s.cores.waves ∧ u.mem = s.mem ∧ u.dev = s.dev ∧
      u.tasks.tenants = s.tasks.tenants ∧ cellGet 0 u.cores.leases core = t ∧ ⟨c.launch, [c.place], true, s.ctl.cycle⟩ ∈ u.tasks.stops) ∧
  ∀ s uid p e, (s.launch uid).stoppable = true → (s.launch uid).rtwave = false → s.shareLimit (s.launch uid) ≠ 0 →
    s.shareAbove (s.launch uid) = true → (s.launch uid).shareSince = some e → 1000 * s.shareHold (s.launch uid) ≤ s.elapsed (s.launch uid).tenant e →
    s.residentPlaces uid = [p] →
    ∃ t, exec (.svcParkTimeout uid) s = .next t ∧ t.launch uid = { s.launch uid with parkedOff := true } ∧
      t = { s with tasks := { s.tasks with launches := t.tasks.launches, stops := t.tasks.stops } } ∧
      ⟨uid, [p], true, s.ctl.cycle⟩ ∈ t.tasks.stops

/-- A stopped launch leaves a core with an image of what it held there; of a wave stopped by force and without droppable granules every
register, predicate and lane is in it (R355, R358, R359). A core image comes back into fresh slots with all of it (R362). The model's choice:
where a core image and the launch section lie in the save area (`imageAt` and `saveArea`, log 21), and that a saved wave has no path set and
no marker left (log 41). -/
def Obligations.CastleEvents : Prop :=
  (∀ s uid place c, s.cores.ctxs.find? (fun x => x.launch == uid && x.place == place) = some c → (s.launch uid).stoppable = true →
    s.readyToSave uid place c.core = true → (s.launch uid).prot = false →
    let l := s.launch uid
    let i := s.imageOf uid place c.core
    ∃ t, exec (.castleSave uid place) s = .next t ∧
      t.cores.waves = s.cores.waves.filter (fun w => !(w.launch == uid && w.corepl == place)) ∧
      t.cores.ctxs = s.cores.ctxs.filter (fun x => !(x.launch == uid && x.core == c.core)) ∧
      t.launch uid = { l with images := l.images ++ [i.1], preempted := true } ∧ i.1.place = place ∧ i.1.fromCore = c.core ∧
      (∀ w, s.wavesOf uid place = [w] → w.stopped = some none → (∀ k < w.ext, w.droppable k = false) → w.refusals = [] →
        ∃ v, i.1.waves = [v] ∧ v.vregs = w.vregs ∧ v.sregs = w.sregs ∧ PredKept w v ∧ FlagsKept w v ∧ v.lanes = w.lanes ∧ v.hnd = w.hnd ∧
          v.mode = w.mode ∧ v.trcause = w.trcause ∧ v.trpc = w.trpc ∧ v.trmask = w.trmask ∧ v.traddr = w.traddr ∧
          v.paths = [] ∧ v.markers = []) ∧
      (∀ m, m < imageAt l place ∨ imageAt l place + i.2.length ≤ m → m < l.saveArea ∨ l.saveArea + (launchBytes l).length ≤ m →
        t.byte m = s.byte m) ∧ t.dev = s.dev ∧ t.ctl = s.ctl ∧ t.tasks.tenants = s.tasks.tenants) ∧
  ∀ s uid place (i : Image) core (slots : List Nat) rs, (s.launch uid).images.find? (fun x => x.place == place) = some i →
    s.coreOf (s.launch uid).tenant place = some core → (s.launch uid).stoppable = true →
    (s.tenant (s.launch uid).tenant).suspended = false → s.mayReturn (s.launch uid) core = true →
    s.restoreFits (s.launch uid) i core slots = some rs →
    ∃ t, exec (.castleRestore uid place slots) s = .next t ∧
      (∃ ws : List Wave, t.cores.waves = s.cores.waves ++ ws ∧ ws.length = i.waves.length ∧
        ∀ (n : Nat) (w : Wave) k (v : Wave), i.waves[n]? = some w → slots[n]? = some k → ws[n]? = some v → v.core = core ∧ v.slot = k ∧ v.stopped = none ∧
          v.vregs = w.vregs ∧ v.sregs = w.sregs ∧ PredKept w v ∧ FlagsKept w v ∧ v.lanes = w.lanes ∧ v.hnd = w.hnd ∧ v.mode = w.mode ∧
          v.trcause = w.trcause ∧ v.trpc = w.trpc ∧ v.trmask = w.trmask ∧ v.traddr = w.traddr) ∧
      (∃ c, t.cores.ctxs = s.cores.ctxs ++ [c] ∧ c.launch = i.ctx.launch ∧ c.core = core ∧ c.pad = i.ctx.pad ∧ c.rings = i.ctx.rings ∧
        c.recipes = i.ctx.recipes ∧ c.resv = rs) ∧
      (t.launch uid).images = (s.launch uid).images.filter (fun x => x.place != place) ∧
      (t.launch uid).migrated = ((s.launch uid).migrated || i.fromCore != core) ∧ t.mem.bytes = s.mem.bytes ∧
      (∀ e ∈ t.mem.l1, e ∈ s.mem.l1 ∧ e.core ≠ core) ∧ t.dev = s.dev ∧ t.ctl = s.ctl

/-! ### Tenants -/

/-- A tenant is bound with what Bishop gives it (R75, R91, R144); it is suspended with no wave on a core and resumed with its deadlines moved
(R109, R125). While it is suspended its places, grants and quota change, each with a record (R109, R116). A harvest maps the frames
written since the last (R364); a migration moves places where they fit (R365), and to another device the tenant's time goes on with what of
memory it brings (R366, R367). The model's choice: that no other launch, no function page, no cache line and no remote grant stands on the
target device is its own picture of that device (log 60), and that every mapped run of frames stays whole is log 56. -/
def Obligations.TenantEvents : Prop :=
  (∀ s t a, t ≠ 0 → t < 64 → s.bound t = false → a.cwbase % 2 ^ 16 = 0 → a.quota ≤ s.quotaLeft t →
    ∃ u, exec (.tenantBind t a) s = .next u ∧
      u = { s with tasks := { s.tasks with tenants := u.tasks.tenants, vfs := s.tasks.vfs.filter (fun k => k.id != t) } } ∧
      u.bound t = true ∧ TenantsKept s u t ∧
      let k := u.tenant t
      k.salt = a.salt ∧ k.hanglim = 0 ∧ k.cwbase = a.cwbase ∧ k.quota = a.quota ∧ k.revmin = a.revMin ∧
        k.crbase = (s.page t).crbase ∧ k.crsize = (s.page t).crsize ∧ k.evbase = (s.page t).evbase ∧ k.cmodn = (s.page t).cmodn ∧
        ((∀ x ∈ s.tasks.vfs, x.id ≠ t) → k.nextsub = 1 ∧ k.places = [] ∧ k.tlb = [] ∧ k.crsize = 0 ∧ k.crprod = 0 ∧ k.suspended = false)) ∧
  (∀ s t, s.bound t = true → (s.tenant t).suspended = false → s.offCores t = true →
    ∃ u, exec (.tenantSuspend t) s = .next u ∧ u = s.setTenant { s.tenant t with suspended := true, suspendedAt := s.time t }) ∧
  (∀ s t, s.bound t = true → (s.tenant t).suspended = true →
    ∃ u, exec (.tenantResume t) s = .next u ∧ u = s.setTenant { s.tenant t with
      suspended := false, harvest := none, frozen := false,
      requests := (s.tenant t).requests.map (fun r => { r with
        deadline := r.deadline + min (s.elapsed t (s.tenant t).suspendedAt) (s.elapsed t r.posted) }) }) ∧
  (∀ s t k p phys, s.bound t = true → (s.tenant t).suspended = true → k ∈ [PlaceKind.core, .bank, .frame, .lane, .queue, .chan] →
    (s.tenant t).place? k p = none → s.unitOk t k p phys = true → s.unitFree t k phys = true → (s.tenant t).newPlace k p = true →
    ({ s.tenant t with places := (s.tenant t).places ++ [⟨k, p, phys, false⟩] } : Tenant).runsWhole = true →
    ∃ u, exec (.bindingChange t k p phys none) s = .next u ∧ (u.tenant t).place? k p = some ⟨k, p, phys, false⟩ ∧
      (∀ j q, ¬(j = k ∧ q = p) → (u.tenant t).place? j q = (s.tenant t).place? j q) ∧
      (u.tenant t).bindCount = ((s.tenant t).bindCount + 1) % 2 ^ 64 ∧ u.ctl = { s.ctl with seq := (s.ctl.seq + 1) % 2 ^ 64 } ∧
      (k = .frame → phys < 2 ^ 24 → (u.frame phys).owner = t ∧ (u.frame phys).prot = false) ∧
      (∀ ma, u.tfnAddr t (s.tenant t).bindTfn = some ma → BytesKept s u (ma + 32 * ((s.tenant t).bindCount % 256)) 32 ∧
        u.readWord (ma + 32 * ((s.tenant t).bindCount % 256)) = BitVec.ofNat 64 s.ctl.seq) ∧ TenantsKept s u t ∧ u.cores = s.cores) ∧
  (∀ s t arr base n, s.bound t = true → (s.tenant t).suspended = true → s.grantOk t arr base n = true → n < 2 ^ 30 →
    (s.tenant t).grants.length = 3 →
    ∃ u, exec (.bindingChange t .tset (2 ^ 30 * arr + n) base none) s = .next u ∧ (u.tenant t).grant arr = (base, n) ∧
      (∀ j, j ≠ arr → (u.tenant t).grant j = (s.tenant t).grant j) ∧
      let same := fun (i : Nat) => (s.tenant t).holdsSet (2 ^ 30 * arr + i) && ((s.tenant t).grant arr).1 == base
      let changed := ((List.range n).filter (fun i => !same i)).length
      (u.tenant t).bindCount = ((s.tenant t).bindCount + changed) % 2 ^ 64 ∧ u.ctl = { s.ctl with seq := (s.ctl.seq + changed) % 2 ^ 64 } ∧
      TenantsKept s u t ∧ u.cores = s.cores) ∧
  (∀ s t q, s.bound t = true → (s.tenant t).suspended = true → q ≤ s.quotaLeft t → s.reuseCount t ≤ q →
    ∃ u, exec (.bindingChange t .quota 0 q none) s = .next u ∧ (u.tenant t).quota = q ∧ TenantsKept s u t ∧ u.cores = s.cores ∧
      u.tasks.reuse = s.tasks.reuse ∧ u.ctl = { s.ctl with seq := (s.ctl.seq + 1) % 2 ^ 64 }) ∧
  (∀ s t, s.bound t = true →
    ∃ u, exec (.dirtyHarvest t) s = .next u ∧ (u.tenant t).harvest = some s.recordEvent.2 ∧
      u.dev = { s.dev with mapOut := (s.tenant t).localFrames.map (fun p => match (s.recordEvent.1.tenant t).harvest with
        | none => true
        | some v => s.recordEvent.1.writtenSince v p.2) } ∧
      (u.tenant t).frozen = ((s.tenant t).suspended && s.offCores t) ∧ u.mem = s.recordEvent.1.mem ∧ u.mem.bytes = s.mem.bytes ∧
      u.cores = s.cores ∧ TenantsKept s.recordEvent.1 u t) ∧
  (∀ s t p phys e, s.bound t = true → (s.tenant t).suspended = true → s.offCores t = true → (s.tenant t).place? .queue p = some e →
    s.unitOk t .queue p phys = true → s.unitFree t .queue phys = true → s.fitsThere t = true →
    ∃ u, exec (.tenantMigrate t [(.queue, p, phys)] none) s = .next u ∧ (u.tenant t).place? .queue p = some { e with phys := phys } ∧
      (∀ j q, ¬(j = .queue ∧ q = p) → (u.tenant t).place? j q = (s.tenant t).place? j q) ∧
      (∀ x ∈ u.tasks.reuse, x ∈ s.tasks.reuse ∧ x.tenant ≠ t) ∧ u.cores = s.cores ∧ TenantsKept (s.dropCarried t) u t) ∧
  (∀ s t (x : MigrationTarget), s.bound t = true → (s.tenant t).suspended = true → s.offCores t = true → s.staysHere t = false →
    x.devid < 1024 → x.devid ≠ s.dev.devid → (s.elsewhere t x).fitsThere t = true →
    ∃ u, exec (.tenantMigrate t [] (some x)) s = .next u ∧ u.dev.devid = x.devid ∧ u.ns = x.time ∧
      u.dev.badCores = x.badCores ∧ u.dev.badBanks = x.badBanks ∧ u.time t = (s.time t + max 1 x.elapsed) % 2 ^ 64 ∧
      (u.tenant t).places = (s.tenant t).places ∧ (∀ m, u.byte m = if s.travels t (mfnOf m) then s.byte m else 0) ∧
      u.tasks.reuse = [] ∧ u.tasks.digests = [] ∧ u.cores = Cores.reset ∧ u.mem.l1 = [] ∧ u.mem.l2 = [] ∧ u.mem.tcache = [] ∧
      u.mem.remote = [] ∧ u.tasks.vfs = [] ∧ ∀ l ∈ u.tasks.launches, l.tenant = t) ∧
  ∀ s t remap x, s.bound t = true → (s.tenant t).suspended = true → s.offCores t = true →
    ((s.migrationStart t x).bind (remapAll t remap)).filter (fun u => u.fitsThere t) = none →
    ∃ u, exec (.tenantMigrate t remap x) s = .next u ∧ u = { s with dev := { s.dev with reports := s.dev.reports + 1 } }

/-! ### The device -/

/-- A certificate is committed with its GEN over the body as it is stored (R378); a challenge starts, sampled with GEN and its fields, or ends at
once (R379), and ends as it was asked: with SLOTCHANGED or its report (R380, R381); with NOLAUNCH where the launch has completed meanwhile, and
with BADDEST where the report's frame is none any more, which are the model's choice (log 42). Power comes on with what each die's
image allows (R390); functions become ready or fail (R391, R392); heat lowers the clock by steps and at last asks a die's launches to stop
(R393); at power-off all state is lost (R390). Which tenants are told of a failure is
log 23, that waves run on after one is log 45, and what the boot image holds is log 59. -/
def Obligations.DeviceEvents : Prop :=
  (∀ s c len body, c < 8 →
    let b := body.take 0xFFC0 ++ (s.cert c).body.drop (min body.length 0xFFC0)
    ∃ t, exec (.certCommit c len body) s = .next t ∧ t = { s with dev := { s.dev with certs := t.dev.certs } } ∧
      (t.cert c).body = b ∧ (∀ k, k ≠ c → t.cert k = s.cert k) ∧
      if len ≤ 0xFFC0 then
        (t.cert c).len = len ∧ (t.cert c).gen = ((s.cert c).gen + 1) % 2 ^ 64 ∧
        (t.cert c).cert = b.take len ++ List.replicate (len - b.length) 0
      else (t.cert c).len = (s.cert c).len ∧ (t.cert c).gen = (s.cert c).gen ∧ (t.cert c).cert = (s.cert c).cert) ∧
  (∀ s t, s.bound t = true → (s.tenant t).goBit = false →
    ∃ u, exec (.challengeStart t) s = .next u ∧ u = s.setTenant
      (if s.isReady 33 = false then { s.tenant t with chStatus := 7 }
       else if s.challenged t = none then { s.tenant t with chStatus := 3 }
       else if (s.cert (s.tenant t).cslot).len = 0 then { s.tenant t with chStatus := 4 }
       else if s.reportOk t (s.tenant t).chReport = false then { s.tenant t with chStatus := 6 }
       else { s.tenant t with
         goBit := true, chStatus := 1, asked := ⟨((s.challenged t).map Launch.uid).getD 0, (s.tenant t).cslot,
           (s.cert (s.tenant t).cslot).gen, (s.tenant t).chReport, (s.tenant t).chNonce⟩ })) ∧
  (∀ s t, (s.tenant t).chStatus = 1 →
    let a := (s.tenant t).asked
    let l := s.launch a.uid
    ∃ u, exec (.challengeDone t) s = .next u ∧
      if (s.cert a.cslot).gen ≠ a.gen then u = s.setTenant { s.tenant t with goBit := false, chStatus := 5 }
      else if l.phase ≠ .running ∧ l.phase ≠ .ending then u = s.setTenant { s.tenant t with goBit := false, chStatus := 3 }
      else if s.reportOk t a.report = false then u = s.setTenant { s.tenant t with goBit := false, chStatus := 6 }
      else
        u.readMem a.report (s.report t l).length = s.report t l ∧ BytesKept s u a.report (s.report t l).length ∧
        u.tenant t = { s.tenant t with goBit := false, chStatus := 2 } ∧ TenantsKept s u t ∧
        u.ctl = { s.ctl with seq := (s.ctl.seq + 1) % 2 ^ 64 } ∧ u.cores = s.cores ∧ u.dev = s.dev) ∧
  (∀ s img, s.ctl.power = false ∨ s.ctl.booted = [] ∧ s.dev.readiness = [] →
    ∃ t, exec (.powerOn img) s = .next t ∧ t.ctl.power = true ∧ t.ctl.seq = 1 ∧ t.ctl.cycle = 0 ∧ t.cores = Cores.reset ∧
      t.tasks = Tasks.reset ∧ t.mem.bytes = [] ∧ t.mem.frames = [] ∧ t.dev.devid = img.devid % 1024 ∧ t.dev.badCores = img.badCores ∧
      t.dev.badBanks = img.badBanks ∧ t.dev.puf = img.puf ∧ t.dev.hbmTraining = img.hbmTraining ∧ t.dev.thermal = img.thermal ∧
      t.mem.failedBridges = img.failedBridges ∧ t.mem.spareBridges = sparesOf img.failedBridges img.spareBridges ∧
      t.dev.claimBishop = img.claim ∧
      ∀ d < 8, (d ∈ t.ctl.booted ↔ img.dieOk.getD d false = true) ∧
        ∀ i ∈ functionsOf d, t.isReady i = false ∧ t.hasFailed i = !img.dieOk.getD d false) ∧
  (∀ s i count, i < 34 → (match functionDie i with
      | some d => s.ctl.booted.contains d
      | none => s.dev.pufOk) = true → s.isReady i = false → s.hasFailed i = false → 0 < s.unitCount i count → s.unitCount i count < 2 ^ 16 →
    ∃ t, exec (.functionReady i count) s = .next t ∧ t = { s with dev := { s.dev with readiness := t.dev.readiness } } ∧
      t.isReady i = true ∧ t.hasFailed i = false ∧ bits (cellGet 0 t.dev.readiness i : Word).toNat 47 32 = s.unitCount i count ∧
      (1 ≤ i → i ≤ 8 → s.unitCount i count = ((List.range 192).filter (fun j => s.coreWorks (192 * (i - 1) + j))).length) ∧
      bits (cellGet 0 t.dev.readiness i : Word).toNat 31 0 = s.us % 2 ^ 32 ∧
      ∀ j, j ≠ i → (cellGet 0 t.dev.readiness j : Word) = cellGet 0 s.dev.readiness j) ∧
  (∀ s i k, s.isReady i = true → i < 25 → s.tasks.tenants = [k] → s.dev.claimHost.getLsbD 7 = true →
    ∃ t, exec (.functionFail i) s = .next t ∧ t.isReady i = false ∧ t.hasFailed i = true ∧
      (∀ j, j ≠ i → (cellGet 0 t.dev.readiness j : Word) = cellGet 0 s.dev.readiness j) ∧
      (t.tenant k.id).events = k.events ++ [eventOf s 7 (BitVec.ofNat 64 i)] ∧ t.mem = s.mem ∧ t.cores = s.cores) ∧
  (∀ s die up, (if up then s.clockOf die < 1300 else 700 < s.clockOf die) →
    ∃ t, exec (.thermalStep die up) s = .next t ∧ t.clockOf die = (if up then s.clockOf die + 100 else s.clockOf die - 100) ∧
      (∀ d, d ≠ die → t.clockOf d = s.clockOf d) ∧ t.mem = s.mem ∧ t.cores = s.cores ∧ t.tasks.launches = s.tasks.launches) ∧
  (∀ s die, s.hasFailed (1 + die) = false →
    (s.cores.ctxs.filter (fun c => c.core / 192 == die) = [] →
      ∃ t, exec (.thermalStop die) s = .next t ∧ t.hasFailed (1 + die) = true ∧ t.isReady (1 + die) = false ∧ t.cores = s.cores ∧
        t.mem = s.mem) ∧
    ∀ c, s.cores.ctxs.filter (fun c => c.core / 192 == die) = [c] → (s.launch c.launch).stoppable = true →
      ∃ t, exec (.thermalStop die) s = .next t ∧ t.hasFailed (1 + die) = true ∧ t.cores = s.cores ∧ t.mem = s.mem ∧
        ⟨c.launch, [c.place], true, s.ctl.cycle⟩ ∈ t.tasks.stops) ∧
  ∀ s, ∃ t, exec .powerOff s = .next t ∧ t.ctl.power = false ∧ t.mem = State.reset.mem ∧ t.cores = State.reset.cores ∧
    t.tasks = State.reset.tasks ∧ t.dev = State.reset.dev

end
end

