-- ==== Sys2Proof/Laws/Cells.lean ====
section
/-! SUPPORT. Sparse maps: reading after writing, for any list; every operation keeps the canonical form. -/
namespace Sys2Proof.Machine

variable {α : Type}

/-! ### Reading after writing -/

theorem cellGet_cellInsert_self (d : α) (i : Nat) (x : α) (c : Cells α) (h : ∀ p ∈ c, p.1 ≠ i) :
    cellGet d (cellInsert i x c) i = x := by
  induction c with
  | nil => simp [cellInsert, cellGet]
  | cons p l ih =>
    have hp : i ≠ p.1 := fun e => h p (by simp) e.symm
    have hl := ih (fun q hq => h q (by simp [hq]))
    by_cases hlt : i < p.1 <;> simp [cellInsert, cellGet, hlt, hp, hl]

theorem cellGet_cellInsert_ne (d : α) {i j : Nat} (x : α) (c : Cells α) (h : j ≠ i) :
    cellGet d (cellInsert i x c) j = cellGet d c j := by
  induction c with
  | nil => simp [cellInsert, cellGet, h]
  | cons p l ih => by_cases hlt : i < p.1 <;> simp [cellInsert, cellGet, hlt, h, ih]

theorem cellErase_cons (p : Nat × α) (c : Cells α) (i : Nat) :
    cellErase (p :: c) i = if p.1 = i then cellErase c i else p :: cellErase c i := by
  by_cases h : p.1 = i <;> simp [cellErase, h]

theorem cellGet_cellErase_self (d : α) (c : Cells α) (i : Nat) : cellGet d (cellErase c i) i = d := by
  induction c with
  | nil => rfl
  | cons p l ih =>
    rw [cellErase_cons]
    split
    · exact ih
    · rename_i h; simp [cellGet, ih, Ne.symm h]

theorem cellGet_cellErase_ne (d : α) (c : Cells α) {i j : Nat} (h : j ≠ i) :
    cellGet d (cellErase c i) j = cellGet d c j := by
  induction c with
  | nil => rfl
  | cons p l ih =>
    rw [cellErase_cons]
    by_cases hp : p.1 = i
    · simp [cellGet, hp, h, ih]
    · simp [cellGet, hp, ih]

theorem mem_cellErase {c : Cells α} {i : Nat} {p : Nat × α} (h : p ∈ cellErase c i) : p ∈ c ∧ p.1 ≠ i := by
  simpa [cellErase] using h

variable [DecidableEq α]

/-- A read after a write of the same key gives what was written. -/
@[simp] theorem cellGet_cellSet_self (d : α) (c : Cells α) (i : Nat) (x : α) : cellGet d (cellSet d c i x) i = x := by
  unfold cellSet
  split
  · rename_i h; rw [cellGet_cellErase_self, h]
  · exact cellGet_cellInsert_self d i x _ (fun p hp => (mem_cellErase hp).2)

/-- A write leaves every other key alone. -/
theorem cellGet_cellSet_ne (d : α) (c : Cells α) {i j : Nat} (x : α) (h : j ≠ i) :
    cellGet d (cellSet d c i x) j = cellGet d c j := by
  unfold cellSet
  split
  · exact cellGet_cellErase_ne d c h
  · rw [cellGet_cellInsert_ne d x _ h, cellGet_cellErase_ne d c h]

/-- A read after a write. -/
theorem cellGet_cellSet (d : α) (c : Cells α) (i j : Nat) (x : α) :
    cellGet d (cellSet d c i x) j = if j = i then x else cellGet d c j := by
  by_cases h : j = i
  · simp [h]
  · simp [h, cellGet_cellSet_ne d c x h]

/-- A read after consecutive writes. -/
theorem cellGet_cellSetMany (d : α) (l : List α) : ∀ (c : Cells α) (i j : Nat),
    cellGet d (cellSetMany d c i l) j = if i ≤ j ∧ j < i + l.length then l.getD (j - i) d else cellGet d c j := by
  induction l with
  | nil => intro c i j; simp [cellSetMany]
  | cons x l ih =>
    intro c i j
    rw [cellSetMany, ih, cellGet_cellSet]
    by_cases h0 : j = i
    · subst h0; simp
    · by_cases h1 : i + 1 ≤ j ∧ j < i + 1 + l.length
      · have h2 : i ≤ j ∧ j < i + (x :: l).length := by simp; omega
        have h3 : j - i = (j - (i + 1)) + 1 := by omega
        rw [if_pos h1, if_pos h2, h3, List.getD_cons_succ]
      · have h2 : ¬(i ≤ j ∧ j < i + (x :: l).length) := by simp; omega
        rw [if_neg h1, if_neg h2, if_neg h0]

/-- Consecutive writes leave every key outside their range alone. -/
theorem cellGet_cellSetMany_out (d : α) (l : List α) (c : Cells α) {i j : Nat} (h : j < i ∨ i + l.length ≤ j) :
    cellGet d (cellSetMany d c i l) j = cellGet d c j := by
  rw [cellGet_cellSetMany, if_neg (by omega)]

/-! ### The canonical form -/

theorem cellWfFrom_mono {d : α} {lo lo' : Nat} {c : Cells α} (h : cellWfFrom d lo c = true) (hle : lo' ≤ lo) :
    cellWfFrom d lo' c = true := by
  cases c with
  | nil => rfl
  | cons p l => simp [cellWfFrom] at h ⊢; exact ⟨⟨by omega, h.1.2⟩, h.2⟩

theorem cellWfFrom_filter {d : α} (p : Nat × α → Bool) : ∀ {lo : Nat} {c : Cells α},
    cellWfFrom d lo c = true → cellWfFrom d lo (c.filter p) = true := by
  intro lo c
  induction c generalizing lo with
  | nil => simp [cellWfFrom]
  | cons q l ih =>
    intro h
    obtain ⟨k, v⟩ := q
    simp only [cellWfFrom, Bool.and_eq_true, decide_eq_true_eq] at h
    by_cases hp : p (k, v)
    · simp [hp, cellWfFrom, h.1, ih h.2]
    · simp only [hp, Bool.false_eq_true, not_false_eq_true, List.filter_cons_of_neg]
      exact cellWfFrom_mono (ih h.2) (by omega)

theorem cellWfFrom_cellInsert {d : α} {i : Nat} {x : α} (hx : x ≠ d) : ∀ {lo : Nat} {c : Cells α},
    lo ≤ i → (∀ p ∈ c, p.1 ≠ i) → cellWfFrom d lo c = true → cellWfFrom d lo (cellInsert i x c) = true := by
  intro lo c
  induction c generalizing lo with
  | nil => intro hlo _ _; simp [cellInsert, cellWfFrom, hlo, hx]
  | cons q l ih =>
    intro hlo hne h
    obtain ⟨k, v⟩ := q
    have hk : k ≠ i := hne (k, v) (by simp)
    simp only [cellWfFrom, Bool.and_eq_true, decide_eq_true_eq] at h
    by_cases hlt : i < k
    · simp only [cellInsert, hlt, if_true, cellWfFrom, Bool.and_eq_true, decide_eq_true_eq]
      exact ⟨⟨hlo, hx⟩, ⟨by omega, h.1.2⟩, h.2⟩
    · simp only [cellInsert, hlt, if_false, cellWfFrom, Bool.and_eq_true, decide_eq_true_eq]
      exact ⟨h.1, ih (by omega) (fun p hp => hne p (by simp [hp])) h.2⟩

/-- Entries dropped keep the canonical form. -/
theorem cellWf_filter {d : α} {c : Cells α} (p : Nat × α → Bool) (h : cellWf d c = true) : cellWf d (c.filter p) = true :=
  cellWfFrom_filter p h

/-- A write keeps the canonical form. -/
theorem cellWf_cellSet {d : α} {c : Cells α} (i : Nat) (x : α) (h : cellWf d c = true) : cellWf d (cellSet d c i x) = true := by
  unfold cellSet
  split
  · exact cellWf_filter _ h
  · rename_i hx
    exact cellWfFrom_cellInsert hx (Nat.zero_le _) (fun p hp => (mem_cellErase hp).2) (cellWf_filter _ h)

/-- Consecutive writes keep the canonical form. -/
theorem cellWf_cellSetMany {d : α} (l : List α) : ∀ {c : Cells α} (i : Nat),
    cellWf d c = true → cellWf d (cellSetMany d c i l) = true := by
  induction l with
  | nil => exact fun _ h => h
  | cons x l ih => exact fun i h => ih (i + 1) (cellWf_cellSet i x h)

/-! ### Elements replaced -/

theorem mem_updWhere {p : α → Bool} {f : α → α} {l : List α} {x : α} (h : x ∈ updWhere p f l) :
    x ∈ l ∨ ∃ y ∈ l, p y = true ∧ x = f y := by
  simp only [updWhere, List.mem_map] at h
  obtain ⟨y, hy, e⟩ := h
  by_cases hp : p y = true
  · exact .inr ⟨y, hy, hp, by simp [← e, hp]⟩
  · exact .inl (by simpa [← e, hp] using hy)

/-- Finding an element where the elements of the searched kind have been replaced by one of that kind. -/
theorem find?_updWhere_self (p : α → Bool) (y : α) (hy : p y = true) : ∀ {l : List α} {x : α},
    l.find? p = some x → (updWhere p (fun _ => y) l).find? p = some y := by
  intro l
  induction l with
  | nil => intro x h; simp at h
  | cons z l ih =>
    intro x h
    by_cases hz : p z = true
    · simp [updWhere, hz, hy]
    · simp only [Bool.not_eq_true] at hz
      have := ih (x := x) (by simpa [hz] using h)
      simpa [updWhere, hz] using this

/-- Finding an element of another kind is not touched. -/
theorem find?_updWhere_other (p q : α → Bool) (f : α → α) (hq : ∀ z, p z = true → q z = false ∧ q (f z) = false) :
    ∀ l : List α, (updWhere p f l).find? q = l.find? q := by
  intro l
  induction l with
  | nil => rfl
  | cons z l ih =>
    by_cases hz : p z = true
    · have := hq z hz
      simpa [updWhere, hz, this.1, this.2] using ih
    · simp only [Bool.not_eq_true] at hz
      by_cases hqz : q z = true
      · simp [updWhere, hz, hqz]
      · simp only [Bool.not_eq_true] at hqz
        simpa [updWhere, hz, hqz] using ih

end Sys2Proof.Machine
end

