-- ==== Sys2Proof/Laws/Checks.lean ====
section
/-! SUPPORT. The hypotheses of the claims as checks that compute, each with the proof that it implies them: with these a concrete
state is shown to meet a claim's hypotheses by evaluation. -/
namespace Sys2Proof.Machine
open Sys2Proof.Safety

/-- The wave at the focus. -/
def State.cur (s : State) : Wave := (s.wave? s.ctl.focus.core s.ctl.focus.slot).getD Wave.blank

/-- Where its own program stands. -/
def State.curPc (s : State) : CodeAddr := s.cur.ownPc.getD 0

/-- The lanes of the wave at the focus that execute a word. -/
def State.curLanes (s : State) (c : Ctl) (u : Use) : List Nat := execLanes c u.q s.cur (s.cur.activeAt s.curPc)

theorem wave?_cur {s : State} (h : (s.wave? s.ctl.focus.core s.ctl.focus.slot).isSome = true) :
    s.wave? s.ctl.focus.core s.ctl.focus.slot = some s.cur := by
  obtain ⟨w, e⟩ := Option.isSome_iff_exists.1 h
  simp [State.cur, e]

theorem ownPc_cur {s : State} (h : s.cur.ownPc.isSome = true) : s.cur.ownPc = some s.curPc := by
  obtain ⟨w, e⟩ := Option.isSome_iff_exists.1 h
  simp [State.curPc, e]

/-- `At` by evaluation. -/
def atB (s : State) : Bool :=
  (s.wave? s.ctl.focus.core s.ctl.focus.slot).isSome && s.cur.hnd.isNone && s.cur.ownPc.isSome

theorem at_of {s : State} (h : atB s = true) : At s s.cur s.curPc := by
  simp only [atB, Bool.and_eq_true, Option.isNone_iff_eq_none] at h
  exact ⟨wave?_cur h.1.1, h.1.2, ownPc_cur h.2⟩

/-- What `Clear` and `HClear` ask of registers and purity. -/
def freeB (c : Ctl) (u : Use) (s : State) : Bool :=
  let w := s.cur
  !w.hangArmed && !u.illegal && !u.badBank && decide (u.mode ≤ w.mode) && u.roles.contains w.role &&
  (u.vr ++ u.vw ++ u.touch ++ u.named).all (fun r => decide (r < w.vcount)) && (s.pendOf w (u.guarded c) true).isEmpty &&
  u.vr.all (fun r => !w.isDropped r) && (s.rematReg w (u.guarded c)).isNone && (s.quad w.core w.quad).latch.isEmpty &&
  !(s.launch w.launch).pure

/-- `Clear` by evaluation. -/
def clearB (c : Ctl) (u : Use) (s : State) : Bool := atB s && !(s.curLanes c u).isEmpty && freeB c u s

theorem clear_of {c : Ctl} {u : Use} {s : State} (h : clearB c u s = true) : Clear c u s s.cur s.curPc := by
  simp only [clearB, freeB, Bool.and_eq_true, Bool.not_eq_true', List.isEmpty_iff, Option.isNone_iff_eq_none, decide_eq_true_eq,
    List.all_eq_true, List.contains_iff_mem, List.isEmpty_eq_false_iff] at h
  obtain ⟨⟨h1, h2⟩, ⟨⟨⟨⟨⟨⟨⟨⟨⟨⟨a, b⟩, c⟩, d⟩, e⟩, f⟩, g⟩, i⟩, j⟩, k⟩, l⟩⟩ := h
  exact ⟨at_of h1, h2, a, ⟨b, c⟩, d, e, f, g, ⟨i, j⟩, by rw [k]; simp, .inl l⟩

/-- `Faces` by evaluation. -/
def facesB (c : Ctl) (u : Use) (s : State) : Bool :=
  atB s && !(s.curLanes c u).isEmpty && !s.cur.hangArmed && (s.pendOf s.cur (guardsOf c u.q) true).isEmpty && !(s.launch s.cur.launch).pure

theorem faces_of {c : Ctl} {u : Use} {s : State} (h : facesB c u s = true) : Faces c u s s.cur s.curPc := by
  simp only [facesB, Bool.and_eq_true, Bool.not_eq_true', List.isEmpty_iff, List.isEmpty_eq_false_iff] at h
  obtain ⟨⟨⟨⟨h1, h2⟩, a⟩, b⟩, c⟩ := h
  exact ⟨at_of h1, h2, a, b, c⟩

/-- The handler of the wave at the focus. -/
def State.curHnd (s : State) : Handler := s.cur.hnd.getD ⟨0, 0, 0, 0, false, none⟩

/-- `HClear` by evaluation. -/
def hclearB (c : Ctl) (u : Use) (s : State) : Bool :=
  (s.wave? s.ctl.focus.core s.ctl.focus.slot).isSome && s.cur.hnd.isSome && !s.curHnd.svc && !s.cur.allExited &&
  (if u.q then s.cur.qguard c.ga && s.cur.qguard c.gb else s.cur.guardAt c.ga s.curHnd.lane && s.cur.guardAt c.gb s.curHnd.lane) &&
  decide (s.curHnd.lane < 32) && freeB c u s

theorem hclear_of {c : Ctl} {u : Use} {s : State} (h : hclearB c u s = true) : HClear c u s s.cur s.curHnd := by
  simp only [hclearB, freeB, Bool.and_eq_true, Bool.not_eq_true', List.isEmpty_iff, Option.isNone_iff_eq_none, decide_eq_true_eq,
    List.all_eq_true, List.contains_iff_mem] at h
  obtain ⟨⟨⟨⟨⟨⟨h1, h2⟩, h3⟩, h4⟩, h5⟩, h6⟩, ⟨⟨⟨⟨⟨⟨⟨⟨⟨⟨a, b⟩, c⟩, d⟩, e⟩, f⟩, g⟩, i⟩, j⟩, k⟩, l⟩⟩ := h
  refine ⟨wave?_cur h1, ?_, h3, h4, ?_, h6, a, ⟨b, c⟩, d, e, f, g, ⟨i, j⟩, by rw [k]; simp, l⟩
  · obtain ⟨x, e⟩ := Option.isSome_iff_exists.1 h2
    simp [State.curHnd, e]
  · split at h5 <;> simp_all

/-- `PairClear` by evaluation. -/
def pairClearB (h0 h1 : Half) (s : State) : Bool :=
  let w := s.cur
  let u := pairOf h0 h1 w s.curPc
  atB s && decide (w.role ≤ 3) && (pairScalar h0 h1 w || !(pairLanes h0 h1 w (w.activeAt s.curPc)).isEmpty) &&
  !(w.activeAt s.curPc).isEmpty && !w.hangArmed && !pairBadBank h0 h1 && (u.vr ++ u.vw ++ u.named).all (fun r => decide (r < w.vcount)) &&
  (s.pendOf w u true).isEmpty && u.vr.all (fun r => !w.isDropped r) && (s.rematReg w u).isNone && !(s.launch w.launch).pure

theorem pairClear_of {h0 h1 : Half} {s : State} (h : pairClearB h0 h1 s = true) : PairClear h0 h1 s s.cur s.curPc := by
  simp only [pairClearB, Bool.and_eq_true, Bool.or_eq_true, Bool.not_eq_true', List.isEmpty_iff, Option.isNone_iff_eq_none,
    decide_eq_true_eq, List.all_eq_true, List.isEmpty_eq_false_iff] at h
  obtain ⟨⟨⟨⟨⟨⟨⟨⟨⟨⟨a, b⟩, c⟩, d⟩, e⟩, f⟩, g⟩, i⟩, j⟩, k⟩, l⟩ := h
  exact ⟨at_of a, b, c, d, e, f, g, i, ⟨j, k⟩, l⟩

/-- A word of a table meets every obstacle's check at the focus. -/
def clearAtB (t : Option (Ctl × Use)) (s : State) : Bool :=
  match t with
  | some x => clearB x.1 x.2 s
  | none => false

theorem clearAt_of {t : Option (Ctl × Use)} {s : State} (h : clearAtB t s = true) :
    ∃ c u, t = some (c, u) ∧ Clear c u s s.cur s.curPc := by
  cases t with
  | none => cases h
  | some x => exact ⟨x.1, x.2, rfl, clear_of h⟩

/-- A word of a table of effects has its effect at the focus. -/
def effectB {α : Type} (t : Option (Ctl × Use × (State → Wave → CodeAddr → List Nat → Option α))) (s : State) : Bool :=
  match t with
  | some x => clearB x.1 x.2.1 s && (x.2.2 s s.cur s.curPc (s.curLanes x.1 x.2.1)).isSome
  | none => false

/-- At a state, a word of a table of effects meets the hypotheses of `HasEffect`, or of `IsHeld`. -/
def EffectAt {α : Type} (tab : Instr → Option (Ctl × Use × (State → Wave → CodeAddr → List Nat → Option α))) (i : Instr) (s : State) :
    Prop :=
  ∃ c u f w pc r, tab i = some (c, u, f) ∧ Clear c u s w pc ∧ f s w pc (execLanes c u.q w (w.activeAt pc)) = some r

theorem effectAt_of {α : Type} {tab : Instr → Option (Ctl × Use × (State → Wave → CodeAddr → List Nat → Option α))} {i : Instr} {s : State}
    (h : effectB (tab i) s = true) : EffectAt tab i s := by
  unfold EffectAt
  cases e : tab i with
  | none => rw [e] at h; cases h
  | some x =>
    rw [e] at h
    simp only [effectB, Bool.and_eq_true] at h
    obtain ⟨r, hr⟩ := Option.isSome_iff_exists.1 h.2
    exact ⟨x.1, x.2.1, x.2.2, s.cur, s.curPc, r, rfl, clear_of h.1, hr⟩

theorem effectsAt_of {α : Type} {tab : Instr → Option (Ctl × Use × (State → Wave → CodeAddr → List Nat → Option α))}
    {l : List (Instr × State)} (h : l.all (fun x => effectB (tab x.1) x.2) = true) : ∀ x ∈ l, EffectAt tab x.1 x.2 :=
  fun x hx => effectAt_of (List.all_eq_true.1 h x hx)

/-- A list of results none of which failed. -/
theorem map_ok_of {α ε β : Type} {f : α → Except ε β} (l : List α) (h : l.all (fun a => (f a).isOk) = true) :
    ∃ r : List β, l.map f = r.map .ok := by
  induction l with
  | nil => exact ⟨[], rfl⟩
  | cons a l ih =>
    simp only [List.all_cons, Bool.and_eq_true] at h
    obtain ⟨r, e⟩ := ih h.2
    cases hf : f a with
    | error x => rw [hf] at h; cases h.1
    | ok b => exact ⟨b :: r, by simp [hf, e]⟩

/-- The results of checks that all pass. -/
def okOf {α ε β : Type} (f : α → Except ε β) (l : List α) : List β := l.filterMap (fun a => (f a).toOption)

theorem map_okOf {α ε β : Type} {f : α → Except ε β} (l : List α) (h : l.all (fun a => (f a).isOk) = true) :
    l.map f = (okOf f l).map .ok := by
  induction l with
  | nil => rfl
  | cons a l ih =>
    simp only [List.all_cons, Bool.and_eq_true] at h
    cases hf : f a with
    | error x => rw [hf] at h; cases h.1
    | ok b => simp [okOf, hf, Except.toOption, ih h.2]

/-- `Accesses` by evaluation. -/
def accessesB (m : MemForm) (x : Ex) : Bool :=
  x.lanes.all (fun i => (m.check x i).isOk) && (!m.rel || (releaseSide x.s x.w m.od.scope).isNone) &&
  decide ((if m.ld then x.w.cntld else x.w.cntst) < 63) &&
  (okOf (m.check x) x.lanes).all (fun a => a.impure.isNone && (m.od.strong || !m.cards || !cardRace x a.va m.n m.store) &&
    !a.watched m.od && (match a.loc with
      | .pad core off => x.s.padPresent x.w.launch core off m.n
      | _ => true))

theorem accesses_of {m : MemForm} {x : Ex} (h : accessesB m x = true) : Accesses m x (okOf (m.check x) x.lanes) := by
  simp only [accessesB, Bool.and_eq_true, Bool.or_eq_true, Bool.not_eq_true', Option.isNone_iff_eq_none, decide_eq_true_eq,
    List.all_eq_true] at h
  obtain ⟨⟨⟨h1, h2⟩, h3⟩, h4⟩ := h
  refine ⟨map_okOf _ (List.all_eq_true.2 h1), fun a ha => (h4 a ha).1.1.1, fun hr => ?_, fun a ha => ⟨?_, (h4 a ha).1.2⟩, fun a ha core off e => ?_, h3⟩
  · rcases h2 with h2 | h2
    · rw [h2] at hr; cases hr
    · exact h2
  · rcases (h4 a ha).1.1.2 with (h | h) | h <;> simp [h]
  · have := (h4 a ha).2
    rwa [e] at this

/-- A memory form has its effect at the focus. -/
def memB (i : Instr) (s : State) : Bool :=
  match memWord i with
  | some m => clearB m.c m.u s && accessesB m (context m.c m.u s s.cur s.curPc)
  | none => false

theorem mem_of {i : Instr} {s : State} (h : memB i s = true) : ∃ m w pc accs, memWord i = some m ∧ Clear m.c m.u s w pc ∧
    Accesses m (context m.c m.u s w pc) accs := by
  unfold memB at h
  split at h
  · rename_i m e
    simp only [Bool.and_eq_true] at h
    exact ⟨m, _, _, _, e, clear_of h.1, accesses_of h.2⟩
  · cases h

/-- Every lane of a memory form fails its checks at the focus. -/
def memFailB (i : Instr) (s : State) : Bool :=
  match memWord i with
  | some m => clearB m.c m.u s && (!m.rel || (releaseSide s s.cur m.od.scope).isNone) &&
      (s.curLanes m.c m.u).all (fun k => !(m.check (context m.c m.u s s.cur s.curPc) k).isOk)
  | none => false

theorem memFail_of {i : Instr} {s : State} (h : memFailB i s = true) : ∃ m w pc, memWord i = some m ∧ Clear m.c m.u s w pc ∧
    (m.rel = true → releaseSide s w m.od.scope = none) ∧
    ∀ k ∈ execLanes m.c m.u.q w (w.activeAt pc), ∃ e, m.check (context m.c m.u s w pc) k = .error e := by
  unfold memFailB at h
  split at h
  · rename_i m e
    simp only [Bool.and_eq_true, Bool.or_eq_true, Bool.not_eq_true', Option.isNone_iff_eq_none] at h
    refine ⟨m, _, _, e, clear_of h.1.1, fun hr => ?_, fun k hk => ?_⟩
    · rcases h.1.2 with h2 | h2
      · rw [h2] at hr; cases hr
      · exact h2
    · have := List.all_eq_true.1 h.2 k hk
      cases hc : m.check (context m.c m.u s s.cur s.curPc) k with
      | error x => exact ⟨x, rfl⟩
      | ok b => rw [hc] at this; cases this
  · cases h

end Sys2Proof.Machine
end

