-- ==== Sys2Proof/Laws/Encoding.lean ====
section
/-! SUPPORT. The fields of a word and the word of fields: what fits reads back (spec/02 Tables 2-1 to 2-10). -/
namespace Sys2Proof

/-- Every field fits its place (Table 2-1). -/
structure Fields.Fits (f : Fields) : Prop where
  opc : f.opc < 512
  ga : f.ga < 16
  gb : f.gb < 16
  d : f.d < 128
  a : f.a < 128
  b : f.b < 128
  c : f.c < 128
  m : f.m < 256
  hold : f.hold < 4
  yld : f.yld < 2
  stall : f.stall < 8
  x : f.x < 16

/-- The fields of the word of fields that fit. -/
theorem ofWord_word {f : Fields} (h : f.Fits) : Fields.ofWord f.word = f := by
  obtain ⟨h1, h2, h3, h4, h5, h6, h7, h8, h9, h10, h11, h12⟩ := h
  obtain ⟨opc, ga, gb, d, a, b, c, m, hold, yld, stall, x⟩ := f
  simp only at *
  simp only [Fields.ofWord, Fields.word, Fields.mk.injEq]
  refine ⟨?_, ?_, ?_, ?_, ?_, ?_, ?_, ?_, ?_, ?_, ?_, ?_⟩ <;> omega

/-- A full word has bit 63 clear. -/
theorem word_lt {f : Fields} (h : f.Fits) : f.word < 2 ^ 63 := by
  obtain ⟨h1, h2, h3, h4, h5, h6, h7, h8, h9, h10, h11, h12⟩ := h
  simp only [Fields.word]
  omega

/-- What a full word would be is what its fields say. -/
theorem candidate_word {f : Fields} (h : f.Fits) : candidate f.word = ofFields f := by
  have := word_lt h
  unfold candidate
  rw [if_neg (by omega), ofWord_word h]

theorem Guard.code_lt {g : Guard} (h : g.idx < 8) : g.code < 16 := by
  unfold Guard.code
  split <;> omega

theorem Guard.ofCode_code {g : Guard} (h : g.idx < 8) : Guard.ofCode g.code = g := by
  obtain ⟨n, i⟩ := g
  simp only at h
  cases n <;> simp [Guard.ofCode, Guard.code] <;> omega

theorem Hold.code_lt (h : Hold) : h.code < 4 := by cases h <;> decide
theorem Ty.code_lt (t : Ty) : t.code < 16 := by cases t <;> decide
theorem Rnd.code_lt (r : Rnd) : r.code < 8 := by cases r <;> decide
theorem Cmp.code_lt (k : Cmp) : k.code < 8 := by cases k <;> decide
theorem Width.code_lt (w : Width) : w.code < 16 := by cases w <;> decide
theorem Ord.code_lt (o : Ord) : o.code < 4 := by cases o <;> decide
theorem Scope.code_lt (s : Scope) : s.code < 8 := by cases s <;> decide
theorem Evict.code_lt (e : Evict) : e.code < 8 := by cases e <;> decide
theorem AOp.code_lt (o : AOp) : o.code < 16 := by cases o <;> decide
theorem AWid.code_lt (w : AWid) : w.code < 8 := by cases w <;> decide
theorem Shf.code_lt (k : Shf) : k.code < 8 := by cases k <;> decide
theorem RedOp.code_lt (o : RedOp) : o.code < 8 := by cases o <;> decide
theorem Vote.code_lt (k : Vote) : k.code < 4 := by cases k <;> decide
theorem Hint.code_lt (h : Hint) : h.code < 4 := by cases h <;> decide
theorem Spec.code_lt (n : Spec) : n.code < 256 := by cases n <;> decide
theorem HalfOp.code_lt (o : HalfOp) : o.code < 64 := by cases o <;> decide
theorem VS.sb_lt (b : VS) : b.sb < 2 := by cases b <;> simp [VS.sb]

theorem vsOf_num (b : VS) : vsOf b.sb b.num = b := by cases b <;> rfl

theorem VS.num_lt {b : VS} (h : (WF.vs b).1 = true) : b.num < 128 := by
  cases b <;> simp [WF.vs, VS.num] at * <;> omega

/-- An M field of SB, TYPE and a modifier. -/
theorem mod_sb (b : VS) (t : Ty) {k : Nat} (h : k < 8) : (128 * b.sb + 8 * t.code + k) / 128 = b.sb ∧
    (128 * b.sb + 8 * t.code + k) / 8 % 16 = t.code ∧ (128 * b.sb + 8 * t.code + k) % 8 = k := by
  have h1 := b.sb_lt
  have h2 := t.code_lt
  refine ⟨?_, ?_, ?_⟩ <;> omega

/-- An M field of ORD, SCOPE and EVICT. -/
theorem mod_ord (o : Ord) (s : Scope) {k : Nat} (h : k < 8) : (64 * o.code + 8 * s.code + k) / 64 = o.code ∧
    (64 * o.code + 8 * s.code + k) / 8 % 8 = s.code ∧ (64 * o.code + 8 * s.code + k) % 8 = k := by
  have h1 := o.code_lt
  have h2 := s.code_lt
  refine ⟨?_, ?_, ?_⟩ <;> omega

theorem bool_beq_one (b : Bool) : (b.toNat == 1) = b := by cases b <;> rfl
theorem bool_lt (b : Bool) : b.toNat < 2 := by cases b <;> decide

/-- A signed value of few bits, as bits and back. -/
theorem ofBits_toBits {n : Nat} (hn : 0 < n) {i : Int} (h : -(2 : Int) ^ (n - 1) ≤ i ∧ i < 2 ^ (n - 1)) : ofBits n (toBits n i) = i := by
  have hp : (2 : Int) ^ n = 2 * 2 ^ (n - 1) := by rw [← pow_succ']; congr 1; omega
  have hq : ((2 ^ (n - 1) : Nat) : Int) = 2 ^ (n - 1) := by simp
  have hpos : (0 : Int) < 2 ^ (n - 1) := by positivity
  unfold ofBits toBits
  generalize hP : (2 : Int) ^ (n - 1) = P at *
  have e : ((i % 2 ^ n).toNat : Int) = i % (2 * P) := by rw [hp, Int.toNat_of_nonneg (Int.emod_nonneg _ (by omega))]
  by_cases hi : 0 ≤ i
  · have : i % (2 * P) = i := Int.emod_eq_of_lt hi (by omega)
    rw [if_pos (by zify; omega)]
    omega
  · have : i % (2 * P) = i + 2 * P := by
      rw [← Int.add_mul_emod_self_left i (2 * P) 1, Int.emod_eq_of_lt] <;> omega
    rw [if_neg (by zify; omega), hp]
    omega

theorem toBits_lt (n : Nat) (i : Int) : toBits n i < 2 ^ n := by
  unfold toBits
  have : (0 : Int) < 2 ^ n := by positivity
  have h1 := Int.emod_lt_of_pos i this
  have h2 := Int.emod_nonneg i (Int.ne_of_gt this)
  zify
  rw [Int.toNat_of_nonneg h2]
  exact h1

/-- What R23's common fields allow. -/
structure CtlFits (k : Ctl) : Prop where
  ga : k.ga.idx < 8
  gb : k.gb.idx < 8
  stall : k.stall < 8

namespace Fields

theorem ctl_reg {k : Ctl} (h : CtlFits k) (opc d a b c m x : Nat) : (reg k opc d a b c m x).ctl = k := by
  obtain ⟨ga, gb, ho, yl, st⟩ := k
  simp [ctl, reg, Guard.ofCode_code h.ga, Guard.ofCode_code h.gb, Hold.ofCode_code, bool_beq_one]

theorem fits_reg {k : Ctl} (h : CtlFits k) {opc d a b c m x : Nat} (h0 : opc < 512) (h1 : d < 128) (h2 : a < 128) (h3 : b < 128)
    (h4 : c < 128) (h5 : m < 256) (h6 : x < 16) : (reg k opc d a b c m x).Fits :=
  ⟨h0, Guard.code_lt h.ga, Guard.code_lt h.gb, h1, h2, h3, h4, h5, Hold.code_lt _, bool_lt _, h.stall, h6⟩

theorem ctl_ofImm {k : Ctl} (h : CtlFits k) (opc d a i : Nat) : (ofImm k opc d a i).ctl = k := ctl_reg h ..

theorem fits_ofImm {k : Ctl} (h : CtlFits k) {opc d a i : Nat} (h0 : opc < 512) (h1 : d < 128) (h2 : a < 128) (h3 : i < 2 ^ 22) :
    (ofImm k opc d a i).Fits := fits_reg h h0 h1 h2 (by omega) (by omega) (by omega) (by omega)

theorem imm_ofImm (k : Ctl) (opc d a : Nat) {i : Nat} (h : i < 2 ^ 22) : (ofImm k opc d a i).imm = i := by
  simp only [imm, ofImm, reg]
  omega

theorem ctl_br {k : Ctl} (h : CtlFits k) (opc : Nat) (off : Int) (m : Nat) : (br k opc off m).ctl = k := ctl_reg h ..

theorem fits_br {k : Ctl} (h : CtlFits k) {opc : Nat} (off : Int) {m : Nat} (h0 : opc < 512) (h1 : m < 256) : (br k opc off m).Fits := by
  have := toBits_lt 28 off
  exact fits_reg h h0 (by omega) (by omega) (by omega) (by omega) h1 (by omega)

theorem off28_br (k : Ctl) (opc : Nat) {off : Int} (m : Nat) (h : -134217728 ≤ off ∧ off < 134217728) : (br k opc off m).off28 = off := by
  have h1 := toBits_lt 28 off
  simp only [off28, br, reg]
  rw [show toBits 28 off / 2 ^ 21 * 2 ^ 21 + toBits 28 off / 2 ^ 14 % 128 * 2 ^ 14 + toBits 28 off / 2 ^ 7 % 128 * 2 ^ 7 +
    toBits 28 off % 128 = toBits 28 off by omega]
  exact ofBits_toBits (by decide) (by omega)

theorem ctl_mem {k : Ctl} (h : CtlFits k) (opc d a : Nat) (off : Int) (m x : Nat) : (mem k opc d a off m x).ctl = k := ctl_reg h ..

theorem fits_mem {k : Ctl} (h : CtlFits k) {opc d a : Nat} (off : Int) {m x : Nat} (h0 : opc < 512) (h1 : d < 128) (h2 : a < 128)
    (h3 : m < 256) (h4 : x < 16) : (mem k opc d a off m x).Fits := by
  have := toBits_lt 14 off
  exact fits_reg h h0 h1 h2 (by omega) (by omega) h3 h4

theorem off14_mem (k : Ctl) (opc d a : Nat) {off : Int} (m x : Nat) (h : -8192 ≤ off ∧ off < 8192) : (mem k opc d a off m x).off14 = off := by
  have h1 := toBits_lt 14 off
  simp only [off14, mem, reg]
  rw [show toBits 14 off / 2 ^ 7 * 2 ^ 7 + toBits 14 off % 128 = toBits 14 off by omega]
  exact ofBits_toBits (by decide) (by omega)

end Fields

/-- The checks of R23's common fields. -/
theorem ctlFits_of {c : Ctl} {l : List (Bool × Ill)} (h : (WF.ctl c ++ l).all Prod.fst = true) : CtlFits c ∧ l.all Prod.fst = true := by
  simp only [WF.ctl, List.cons_append, List.nil_append, List.all_cons, Bool.and_eq_true, decide_eq_true_eq] at h
  exact ⟨⟨h.1, h.2.1, h.2.2.1⟩, h.2.2.2⟩

/-- A half reads back (Table 2-10). -/
theorem half_word {h : Half} (hw : (WF.half h).all Prod.fst = true) : h.word < 2 ^ 31 ∧ ∀ n, Half.ofWord (h.word + 2 ^ 31 * n) = h := by
  obtain ⟨op, g, d, s, x⟩ := h
  have hg : g.idx < 8 := by simp [WF.half] at hw; exact hw.1
  have hb : d < 128 ∧ s < 128 ∧ x < 128 := by
    simp only [WF.half, List.all_cons, List.all_nil, Bool.and_true, Bool.and_eq_true, decide_eq_true_eq] at hw
    cases op <;> simp at hw <;> omega
  have h1 := op.code_lt
  have h2 := Guard.code_lt hg
  obtain ⟨h3, h4, h5⟩ := hb
  simp only [Half.word]
  refine ⟨by omega, fun n => ?_⟩
  simp only [Half.ofWord, Half.mk.injEq]
  refine ⟨?_, ?_, by omega, by omega, by omega⟩
  · rw [show (op.code * 2 ^ 25 + g.code * 2 ^ 21 + d * 2 ^ 14 + s * 2 ^ 7 + x + 2 ^ 31 * n) / 2 ^ 25 % 64 = op.code by omega]
    exact HalfOp.ofCode_code op
  · rw [show (op.code * 2 ^ 25 + g.code * 2 ^ 21 + d * 2 ^ 14 + s * 2 ^ 7 + x + 2 ^ 31 * n) / 2 ^ 21 % 16 = g.code by omega]
    exact Guard.ofCode_code hg

/-- A pair reads back (R35). -/
theorem candidate_pair {h0 h1 : Half} {st : Bool} (w0 : (WF.half h0).all Prod.fst = true) (w1 : (WF.half h1).all Prod.fst = true) :
    candidate (2 ^ 63 + h0.word * 2 ^ 32 + h1.word * 2 + st.toNat) = some (.pairWord h0 h1 st) := by
  obtain ⟨a0, b0⟩ := half_word w0
  obtain ⟨a1, b1⟩ := half_word w1
  have hs := bool_lt st
  unfold candidate
  rw [if_pos (by omega), show (2 ^ 63 + h0.word * 2 ^ 32 + h1.word * 2 + st.toNat) / 2 ^ 32 = h0.word + 2 ^ 31 * 1 by omega,
    show (2 ^ 63 + h0.word * 2 ^ 32 + h1.word * 2 + st.toNat) / 2 = h1.word + 2 ^ 31 * (2 ^ 31 + h0.word) by omega,
    show (2 ^ 63 + h0.word * 2 ^ 32 + h1.word * 2 + st.toNat) % 2 = st.toNat by omega, b0, b1, bool_beq_one]

end Sys2Proof
end

