-- ==== Sys2Proof/Laws/State.lean ====
section
/-! SUPPORT. What each named update of the state, of its records and of a wave leaves unchanged, and what it writes. -/
namespace Sys2Proof.Machine

/-! ### The five parts of the state -/

@[simp] theorem State.setWaves_ctl (s : State) (l : List Wave) : (s.setWaves l).ctl = s.ctl := rfl
@[simp] theorem State.setWaves_mem (s : State) (l : List Wave) : (s.setWaves l).mem = s.mem := rfl
@[simp] theorem State.setWaves_tasks (s : State) (l : List Wave) : (s.setWaves l).tasks = s.tasks := rfl
@[simp] theorem State.setWaves_dev (s : State) (l : List Wave) : (s.setWaves l).dev = s.dev := rfl
@[simp] theorem State.setWave_ctl (s : State) (w : Wave) : (s.setWave w).ctl = s.ctl := rfl
@[simp] theorem State.setWave_mem (s : State) (w : Wave) : (s.setWave w).mem = s.mem := rfl
@[simp] theorem State.setWave_tasks (s : State) (w : Wave) : (s.setWave w).tasks = s.tasks := rfl
@[simp] theorem State.setWave_dev (s : State) (w : Wave) : (s.setWave w).dev = s.dev := rfl
@[simp] theorem State.setCtx_ctl (s : State) (c : Ctx) : (s.setCtx c).ctl = s.ctl := rfl
@[simp] theorem State.setCtx_mem (s : State) (c : Ctx) : (s.setCtx c).mem = s.mem := rfl
@[simp] theorem State.setCtx_tasks (s : State) (c : Ctx) : (s.setCtx c).tasks = s.tasks := rfl
@[simp] theorem State.setCtx_dev (s : State) (c : Ctx) : (s.setCtx c).dev = s.dev := rfl
@[simp] theorem State.setQuad_ctl (s : State) (k q : Nat) (v : Quad) : (s.setQuad k q v).ctl = s.ctl := rfl
@[simp] theorem State.setQuad_mem (s : State) (k q : Nat) (v : Quad) : (s.setQuad k q v).mem = s.mem := rfl
@[simp] theorem State.setQuad_tasks (s : State) (k q : Nat) (v : Quad) : (s.setQuad k q v).tasks = s.tasks := rfl
@[simp] theorem State.setQuad_dev (s : State) (k q : Nat) (v : Quad) : (s.setQuad k q v).dev = s.dev := rfl
@[simp] theorem State.setMem_ctl (s : State) (m : MemSys) : (s.setMem m).ctl = s.ctl := rfl
@[simp] theorem State.setMem_cores (s : State) (m : MemSys) : (s.setMem m).cores = s.cores := rfl
@[simp] theorem State.setMem_tasks (s : State) (m : MemSys) : (s.setMem m).tasks = s.tasks := rfl
@[simp] theorem State.setMem_dev (s : State) (m : MemSys) : (s.setMem m).dev = s.dev := rfl
@[simp] theorem State.setBytes_ctl (s : State) (b : List Host.Cell) : (s.setBytes b).ctl = s.ctl := rfl
@[simp] theorem State.setBytes_cores (s : State) (b : List Host.Cell) : (s.setBytes b).cores = s.cores := rfl
@[simp] theorem State.setBytes_tasks (s : State) (b : List Host.Cell) : (s.setBytes b).tasks = s.tasks := rfl
@[simp] theorem State.setBytes_dev (s : State) (b : List Host.Cell) : (s.setBytes b).dev = s.dev := rfl
@[simp] theorem State.writeMem_ctl (s : State) (a : Nat) (l : List Byte) : (s.writeMem a l).ctl = s.ctl := rfl
@[simp] theorem State.writeMem_cores (s : State) (a : Nat) (l : List Byte) : (s.writeMem a l).cores = s.cores := rfl
@[simp] theorem State.writeMem_tasks (s : State) (a : Nat) (l : List Byte) : (s.writeMem a l).tasks = s.tasks := rfl
@[simp] theorem State.writeMem_dev (s : State) (a : Nat) (l : List Byte) : (s.writeMem a l).dev = s.dev := rfl
@[simp] theorem State.setFrame_ctl (s : State) (m : Nat) (f : Frame) : (s.setFrame m f).ctl = s.ctl := rfl
@[simp] theorem State.setFrame_cores (s : State) (m : Nat) (f : Frame) : (s.setFrame m f).cores = s.cores := rfl
@[simp] theorem State.setFrame_tasks (s : State) (m : Nat) (f : Frame) : (s.setFrame m f).tasks = s.tasks := rfl
@[simp] theorem State.setFrame_dev (s : State) (m : Nat) (f : Frame) : (s.setFrame m f).dev = s.dev := rfl
@[simp] theorem State.stampFrame_ctl (s : State) (m : Nat) : (s.stampFrame m).ctl = s.ctl := rfl
@[simp] theorem State.stampFrame_cores (s : State) (m : Nat) : (s.stampFrame m).cores = s.cores := rfl
@[simp] theorem State.stampFrame_tasks (s : State) (m : Nat) : (s.stampFrame m).tasks = s.tasks := rfl
@[simp] theorem State.stampFrame_dev (s : State) (m : Nat) : (s.stampFrame m).dev = s.dev := rfl
@[simp] theorem State.setCtl_mem (s : State) (c : Control) : (s.setCtl c).mem = s.mem := rfl
@[simp] theorem State.setCtl_cores (s : State) (c : Control) : (s.setCtl c).cores = s.cores := rfl
@[simp] theorem State.setCtl_tasks (s : State) (c : Control) : (s.setCtl c).tasks = s.tasks := rfl
@[simp] theorem State.setCtl_dev (s : State) (c : Control) : (s.setCtl c).dev = s.dev := rfl
@[simp] theorem State.tickFresh_mem (s : State) : (s.tickFresh).mem = s.mem := rfl
@[simp] theorem State.tickFresh_cores (s : State) : (s.tickFresh).cores = s.cores := rfl
@[simp] theorem State.tickFresh_tasks (s : State) : (s.tickFresh).tasks = s.tasks := rfl
@[simp] theorem State.tickFresh_dev (s : State) : (s.tickFresh).dev = s.dev := rfl
@[simp] theorem State.takeSeq_mem (s : State) : (s.takeSeq).mem = s.mem := rfl
@[simp] theorem State.takeSeq_cores (s : State) : (s.takeSeq).cores = s.cores := rfl
@[simp] theorem State.takeSeq_tasks (s : State) : (s.takeSeq).tasks = s.tasks := rfl
@[simp] theorem State.takeSeq_dev (s : State) : (s.takeSeq).dev = s.dev := rfl
@[simp] theorem State.setTasks_ctl (s : State) (t : Tasks) : (s.setTasks t).ctl = s.ctl := rfl
@[simp] theorem State.setTasks_mem (s : State) (t : Tasks) : (s.setTasks t).mem = s.mem := rfl
@[simp] theorem State.setTasks_cores (s : State) (t : Tasks) : (s.setTasks t).cores = s.cores := rfl
@[simp] theorem State.setTasks_dev (s : State) (t : Tasks) : (s.setTasks t).dev = s.dev := rfl
@[simp] theorem State.setLaunch_ctl (s : State) (l : Launch) : (s.setLaunch l).ctl = s.ctl := rfl
@[simp] theorem State.setLaunch_mem (s : State) (l : Launch) : (s.setLaunch l).mem = s.mem := rfl
@[simp] theorem State.setLaunch_cores (s : State) (l : Launch) : (s.setLaunch l).cores = s.cores := rfl
@[simp] theorem State.setLaunch_dev (s : State) (l : Launch) : (s.setLaunch l).dev = s.dev := rfl
@[simp] theorem State.setTenant_ctl (s : State) (t : Tenant) : (s.setTenant t).ctl = s.ctl := rfl
@[simp] theorem State.setTenant_mem (s : State) (t : Tenant) : (s.setTenant t).mem = s.mem := rfl
@[simp] theorem State.setTenant_cores (s : State) (t : Tenant) : (s.setTenant t).cores = s.cores := rfl
@[simp] theorem State.setTenant_dev (s : State) (t : Tenant) : (s.setTenant t).dev = s.dev := rfl
@[simp] theorem State.setDev_ctl (s : State) (d : Device) : (s.setDev d).ctl = s.ctl := rfl
@[simp] theorem State.setDev_mem (s : State) (d : Device) : (s.setDev d).mem = s.mem := rfl
@[simp] theorem State.setDev_cores (s : State) (d : Device) : (s.setDev d).cores = s.cores := rfl
@[simp] theorem State.setDev_tasks (s : State) (d : Device) : (s.setDev d).tasks = s.tasks := rfl
@[simp] theorem State.setMem_self (s : State) (m : MemSys) : (s.setMem m).mem = m := rfl
@[simp] theorem State.setCtl_self (s : State) (c : Control) : (s.setCtl c).ctl = c := rfl
@[simp] theorem State.setTasks_self (s : State) (t : Tasks) : (s.setTasks t).tasks = t := rfl
@[simp] theorem State.setDev_self (s : State) (d : Device) : (s.setDev d).dev = d := rfl
@[simp] theorem State.setWaves_waves (s : State) (l : List Wave) : (s.setWaves l).cores.waves = l := rfl
@[simp] theorem State.setWaves_ctxs (s : State) (l : List Wave) : (s.setWaves l).cores.ctxs = s.cores.ctxs := rfl
@[simp] theorem State.setWaves_quads (s : State) (l : List Wave) : (s.setWaves l).cores.quads = s.cores.quads := rfl
@[simp] theorem State.setWave_ctxs (s : State) (w : Wave) : (s.setWave w).cores.ctxs = s.cores.ctxs := rfl
@[simp] theorem State.setWave_quads (s : State) (w : Wave) : (s.setWave w).cores.quads = s.cores.quads := rfl
@[simp] theorem State.setQuad_waves (s : State) (k q : Nat) (v : Quad) : (s.setQuad k q v).cores.waves = s.cores.waves := rfl
@[simp] theorem State.setQuad_ctxs (s : State) (k q : Nat) (v : Quad) : (s.setQuad k q v).cores.ctxs = s.cores.ctxs := rfl
@[simp] theorem State.setCtx_waves (s : State) (c : Ctx) : (s.setCtx c).cores.waves = s.cores.waves := rfl
@[simp] theorem State.setCtx_quads (s : State) (c : Ctx) : (s.setCtx c).cores.quads = s.cores.quads := rfl
@[simp] theorem State.setLaunch_tenants (s : State) (l : Launch) : (s.setLaunch l).tasks.tenants = s.tasks.tenants := rfl
@[simp] theorem State.setTenant_launches (s : State) (t : Tenant) : (s.setTenant t).tasks.launches = s.tasks.launches := rfl
@[simp] theorem State.setBytes_bytes (s : State) (b : List Host.Cell) : (s.setBytes b).mem.bytes = b := rfl
@[simp] theorem State.setFrame_bytes (s : State) (m : Nat) (f : Frame) : (s.setFrame m f).mem.bytes = s.mem.bytes := rfl
@[simp] theorem State.stampFrame_bytes (s : State) (m : Nat) : (s.stampFrame m).mem.bytes = s.mem.bytes := rfl
@[simp] theorem State.writeMem_bytes (s : State) (a : Nat) (l : List Byte) :
    (s.writeMem a l).mem.bytes = cellSetMany 0 s.mem.bytes a l := rfl
@[simp] theorem State.tickFresh_cycle (s : State) : s.tickFresh.ctl.cycle = s.ctl.cycle := rfl
@[simp] theorem State.takeSeq_cycle (s : State) : s.takeSeq.ctl.cycle = s.ctl.cycle := rfl
@[simp] theorem State.takeSeq_seq (s : State) : s.takeSeq.ctl.seq = (s.ctl.seq + 1) % 2 ^ 64 := rfl
@[simp] theorem State.tickFresh_seq (s : State) : s.tickFresh.ctl.seq = s.ctl.seq := rfl
@[simp] theorem State.takeSeq_focus (s : State) : s.takeSeq.ctl.focus = s.ctl.focus := rfl
@[simp] theorem State.tickFresh_focus (s : State) : s.tickFresh.ctl.focus = s.ctl.focus := rfl

/-! ### A wave's registers -/

@[simp] theorem Wave.setVreg_core (w : Wave) (r i : Nat) (v : Word) : (w.setVreg r i v).core = w.core := rfl
@[simp] theorem Wave.setVreg_slot (w : Wave) (r i : Nat) (v : Word) : (w.setVreg r i v).slot = w.slot := rfl
@[simp] theorem Wave.setVreg_launch (w : Wave) (r i : Nat) (v : Word) : (w.setVreg r i v).launch = w.launch := rfl
@[simp] theorem Wave.setVreg_tenant (w : Wave) (r i : Nat) (v : Word) : (w.setVreg r i v).tenant = w.tenant := rfl
@[simp] theorem Wave.setVreg_wid (w : Wave) (r i : Nat) (v : Word) : (w.setVreg r i v).wid = w.wid := rfl
@[simp] theorem Wave.setVreg_mode (w : Wave) (r i : Nat) (v : Word) : (w.setVreg r i v).mode = w.mode := rfl
@[simp] theorem Wave.setVreg_role (w : Wave) (r i : Nat) (v : Word) : (w.setVreg r i v).role = w.role := rfl
@[simp] theorem Wave.setVreg_lanes (w : Wave) (r i : Nat) (v : Word) : (w.setVreg r i v).lanes = w.lanes := rfl
@[simp] theorem Wave.setVreg_sregs (w : Wave) (r i : Nat) (v : Word) : (w.setVreg r i v).sregs = w.sregs := rfl
@[simp] theorem Wave.setVreg_preds (w : Wave) (r i : Nat) (v : Word) : (w.setVreg r i v).preds = w.preds := rfl
@[simp] theorem Wave.setVreg_qpreds (w : Wave) (r i : Nat) (v : Word) : (w.setVreg r i v).qpreds = w.qpreds := rfl
@[simp] theorem Wave.setVreg_base (w : Wave) (r i : Nat) (v : Word) : (w.setVreg r i v).base = w.base := rfl
@[simp] theorem Wave.setVreg_ext (w : Wave) (r i : Nat) (v : Word) : (w.setVreg r i v).ext = w.ext := rfl
@[simp] theorem Wave.setVreg_dropped (w : Wave) (r i : Nat) (v : Word) : (w.setVreg r i v).dropped = w.dropped := rfl
@[simp] theorem Wave.setVreg_tags (w : Wave) (r i : Nat) (v : Word) : (w.setVreg r i v).tags = w.tags := rfl
@[simp] theorem Wave.setVreg_fstat (w : Wave) (r i : Nat) (v : Word) : (w.setVreg r i v).fstat = w.fstat := rfl
@[simp] theorem Wave.setVreg_mstat (w : Wave) (r i : Nat) (v : Word) : (w.setVreg r i v).mstat = w.mstat := rfl
@[simp] theorem Wave.setVreg_trcause (w : Wave) (r i : Nat) (v : Word) : (w.setVreg r i v).trcause = w.trcause := rfl
@[simp] theorem Wave.setVreg_trpc (w : Wave) (r i : Nat) (v : Word) : (w.setVreg r i v).trpc = w.trpc := rfl
@[simp] theorem Wave.setVreg_trmask (w : Wave) (r i : Nat) (v : Word) : (w.setVreg r i v).trmask = w.trmask := rfl
@[simp] theorem Wave.setVreg_traddr (w : Wave) (r i : Nat) (v : Word) : (w.setVreg r i v).traddr = w.traddr := rfl
@[simp] theorem Wave.setVreg_rngctr (w : Wave) (r i : Nat) (v : Word) : (w.setVreg r i v).rngctr = w.rngctr := rfl
@[simp] theorem Wave.setVreg_hangcnt (w : Wave) (r i : Nat) (v : Word) : (w.setVreg r i v).hangcnt = w.hangcnt := rfl
@[simp] theorem Wave.setVreg_hangArmed (w : Wave) (r i : Nat) (v : Word) : (w.setVreg r i v).hangArmed = w.hangArmed := rfl
@[simp] theorem Wave.setVreg_ops (w : Wave) (r i : Nat) (v : Word) : (w.setVreg r i v).ops = w.ops := rfl
@[simp] theorem Wave.setVreg_nextOp (w : Wave) (r i : Nat) (v : Word) : (w.setVreg r i v).nextOp = w.nextOp := rfl
@[simp] theorem Wave.setVreg_cpWords (w : Wave) (r i : Nat) (v : Word) : (w.setVreg r i v).cpWords = w.cpWords := rfl
@[simp] theorem Wave.setVreg_tlWords (w : Wave) (r i : Nat) (v : Word) : (w.setVreg r i v).tlWords = w.tlWords := rfl
@[simp] theorem Wave.setVreg_groups (w : Wave) (r i : Nat) (v : Word) : (w.setVreg r i v).groups = w.groups := rfl
@[simp] theorem Wave.setVreg_hnd (w : Wave) (r i : Nat) (v : Word) : (w.setVreg r i v).hnd = w.hnd := rfl
@[simp] theorem Wave.setVreg_heldAt (w : Wave) (r i : Nat) (v : Word) : (w.setVreg r i v).heldAt = w.heldAt := rfl
@[simp] theorem Wave.setVreg_pinned (w : Wave) (r i : Nat) (v : Word) : (w.setVreg r i v).pinned = w.pinned := rfl
@[simp] theorem Wave.setVreg_adj (w : Wave) (r i : Nat) (v : Word) : (w.setVreg r i v).adj = w.adj := rfl
@[simp] theorem Wave.setVreg_hwAt (w : Wave) (r i : Nat) (v : Word) : (w.setVreg r i v).hwAt = w.hwAt := rfl
@[simp] theorem Wave.setVreg_hwF (w : Wave) (r i : Nat) (v : Word) : (w.setVreg r i v).hwF = w.hwF := rfl
@[simp] theorem Wave.setVreg_hwM (w : Wave) (r i : Nat) (v : Word) : (w.setVreg r i v).hwM = w.hwM := rfl
@[simp] theorem Wave.setVreg_relTags (w : Wave) (r i : Nat) (v : Word) : (w.setVreg r i v).relTags = w.relTags := rfl
@[simp] theorem Wave.setVreg_held (w : Wave) (r i : Nat) (v : Word) : (w.setVreg r i v).held = w.held := rfl
@[simp] theorem Wave.setVreg_pend (w : Wave) (r i : Nat) (v : Word) : (w.setVreg r i v).pend = w.pend := rfl
@[simp] theorem Wave.setVreg_perf (w : Wave) (r i : Nat) (v : Word) : (w.setVreg r i v).perf = w.perf := rfl
@[simp] theorem Wave.setVreg_written (w : Wave) (r i : Nat) (v : Word) : (w.setVreg r i v).written = w.written := rfl
@[simp] theorem Wave.setVreg_corepl (w : Wave) (r i : Nat) (v : Word) : (w.setVreg r i v).corepl = w.corepl := rfl
@[simp] theorem Wave.setVreg_diepl (w : Wave) (r i : Nat) (v : Word) : (w.setVreg r i v).diepl = w.diepl := rfl
@[simp] theorem Wave.setVreg_tlFlags (w : Wave) (r i : Nat) (v : Word) : (w.setVreg r i v).tlFlags = w.tlFlags := rfl
@[simp] theorem Wave.setVreg_wake (w : Wave) (r i : Nat) (v : Word) : (w.setVreg r i v).wake = w.wake := rfl
@[simp] theorem Wave.setVreg_sleepSince (w : Wave) (r i : Nat) (v : Word) : (w.setVreg r i v).sleepSince = w.sleepSince := rfl
@[simp] theorem Wave.setVreg_triedAt (w : Wave) (r i : Nat) (v : Word) : (w.setVreg r i v).triedAt = w.triedAt := rfl
@[simp] theorem Wave.setVreg_acqxDone (w : Wave) (r i : Nat) (v : Word) : (w.setVreg r i v).acqxDone = w.acqxDone := rfl
@[simp] theorem Wave.setVreg_barHold (w : Wave) (r i : Nat) (v : Word) : (w.setVreg r i v).barHold = w.barHold := rfl
@[simp] theorem Wave.setVreg_nextIssue (w : Wave) (r i : Nat) (v : Word) : (w.setVreg r i v).nextIssue = w.nextIssue := rfl
@[simp] theorem Wave.setVreg_lastIssue (w : Wave) (r i : Nat) (v : Word) : (w.setVreg r i v).lastIssue = w.lastIssue := rfl
@[simp] theorem Wave.setVreg_bornAt (w : Wave) (r i : Nat) (v : Word) : (w.setVreg r i v).bornAt = w.bornAt := rfl
@[simp] theorem Wave.setVreg_paths (w : Wave) (r i : Nat) (v : Word) : (w.setVreg r i v).paths = w.paths := rfl
@[simp] theorem Wave.setVreg_markers (w : Wave) (r i : Nat) (v : Word) : (w.setVreg r i v).markers = w.markers := rfl
@[simp] theorem Wave.setVreg_relScope (w : Wave) (r i : Nat) (v : Word) : (w.setVreg r i v).relScope = w.relScope := rfl
@[simp] theorem Wave.setVreg_refusals (w : Wave) (r i : Nat) (v : Word) : (w.setVreg r i v).refusals = w.refusals := rfl
@[simp] theorem Wave.setVreg_stopAsked (w : Wave) (r i : Nat) (v : Word) : (w.setVreg r i v).stopAsked = w.stopAsked := rfl
@[simp] theorem Wave.setVreg_stopped (w : Wave) (r i : Nat) (v : Word) : (w.setVreg r i v).stopped = w.stopped := rfl
@[simp] theorem Wave.setSreg_core (w : Wave) (r : Nat) (v : Word) : (w.setSreg r v).core = w.core := rfl
@[simp] theorem Wave.setSreg_slot (w : Wave) (r : Nat) (v : Word) : (w.setSreg r v).slot = w.slot := rfl
@[simp] theorem Wave.setSreg_launch (w : Wave) (r : Nat) (v : Word) : (w.setSreg r v).launch = w.launch := rfl
@[simp] theorem Wave.setSreg_tenant (w : Wave) (r : Nat) (v : Word) : (w.setSreg r v).tenant = w.tenant := rfl
@[simp] theorem Wave.setSreg_wid (w : Wave) (r : Nat) (v : Word) : (w.setSreg r v).wid = w.wid := rfl
@[simp] theorem Wave.setSreg_mode (w : Wave) (r : Nat) (v : Word) : (w.setSreg r v).mode = w.mode := rfl
@[simp] theorem Wave.setSreg_role (w : Wave) (r : Nat) (v : Word) : (w.setSreg r v).role = w.role := rfl
@[simp] theorem Wave.setSreg_lanes (w : Wave) (r : Nat) (v : Word) : (w.setSreg r v).lanes = w.lanes := rfl
@[simp] theorem Wave.setSreg_vregs (w : Wave) (r : Nat) (v : Word) : (w.setSreg r v).vregs = w.vregs := rfl
@[simp] theorem Wave.setSreg_preds (w : Wave) (r : Nat) (v : Word) : (w.setSreg r v).preds = w.preds := rfl
@[simp] theorem Wave.setSreg_qpreds (w : Wave) (r : Nat) (v : Word) : (w.setSreg r v).qpreds = w.qpreds := rfl
@[simp] theorem Wave.setSreg_base (w : Wave) (r : Nat) (v : Word) : (w.setSreg r v).base = w.base := rfl
@[simp] theorem Wave.setSreg_ext (w : Wave) (r : Nat) (v : Word) : (w.setSreg r v).ext = w.ext := rfl
@[simp] theorem Wave.setSreg_dropped (w : Wave) (r : Nat) (v : Word) : (w.setSreg r v).dropped = w.dropped := rfl
@[simp] theorem Wave.setSreg_tags (w : Wave) (r : Nat) (v : Word) : (w.setSreg r v).tags = w.tags := rfl
@[simp] theorem Wave.setSreg_fstat (w : Wave) (r : Nat) (v : Word) : (w.setSreg r v).fstat = w.fstat := rfl
@[simp] theorem Wave.setSreg_mstat (w : Wave) (r : Nat) (v : Word) : (w.setSreg r v).mstat = w.mstat := rfl
@[simp] theorem Wave.setSreg_trcause (w : Wave) (r : Nat) (v : Word) : (w.setSreg r v).trcause = w.trcause := rfl
@[simp] theorem Wave.setSreg_trpc (w : Wave) (r : Nat) (v : Word) : (w.setSreg r v).trpc = w.trpc := rfl
@[simp] theorem Wave.setSreg_trmask (w : Wave) (r : Nat) (v : Word) : (w.setSreg r v).trmask = w.trmask := rfl
@[simp] theorem Wave.setSreg_traddr (w : Wave) (r : Nat) (v : Word) : (w.setSreg r v).traddr = w.traddr := rfl
@[simp] theorem Wave.setSreg_rngctr (w : Wave) (r : Nat) (v : Word) : (w.setSreg r v).rngctr = w.rngctr := rfl
@[simp] theorem Wave.setSreg_hangcnt (w : Wave) (r : Nat) (v : Word) : (w.setSreg r v).hangcnt = w.hangcnt := rfl
@[simp] theorem Wave.setSreg_hangArmed (w : Wave) (r : Nat) (v : Word) : (w.setSreg r v).hangArmed = w.hangArmed := rfl
@[simp] theorem Wave.setSreg_ops (w : Wave) (r : Nat) (v : Word) : (w.setSreg r v).ops = w.ops := rfl
@[simp] theorem Wave.setSreg_nextOp (w : Wave) (r : Nat) (v : Word) : (w.setSreg r v).nextOp = w.nextOp := rfl
@[simp] theorem Wave.setSreg_cpWords (w : Wave) (r : Nat) (v : Word) : (w.setSreg r v).cpWords = w.cpWords := rfl
@[simp] theorem Wave.setSreg_tlWords (w : Wave) (r : Nat) (v : Word) : (w.setSreg r v).tlWords = w.tlWords := rfl
@[simp] theorem Wave.setSreg_groups (w : Wave) (r : Nat) (v : Word) : (w.setSreg r v).groups = w.groups := rfl
@[simp] theorem Wave.setSreg_hnd (w : Wave) (r : Nat) (v : Word) : (w.setSreg r v).hnd = w.hnd := rfl
@[simp] theorem Wave.setSreg_heldAt (w : Wave) (r : Nat) (v : Word) : (w.setSreg r v).heldAt = w.heldAt := rfl
@[simp] theorem Wave.setSreg_pinned (w : Wave) (r : Nat) (v : Word) : (w.setSreg r v).pinned = w.pinned := rfl
@[simp] theorem Wave.setSreg_adj (w : Wave) (r : Nat) (v : Word) : (w.setSreg r v).adj = w.adj := rfl
@[simp] theorem Wave.setSreg_hwAt (w : Wave) (r : Nat) (v : Word) : (w.setSreg r v).hwAt = w.hwAt := rfl
@[simp] theorem Wave.setSreg_hwF (w : Wave) (r : Nat) (v : Word) : (w.setSreg r v).hwF = w.hwF := rfl
@[simp] theorem Wave.setSreg_hwM (w : Wave) (r : Nat) (v : Word) : (w.setSreg r v).hwM = w.hwM := rfl
@[simp] theorem Wave.setSreg_relTags (w : Wave) (r : Nat) (v : Word) : (w.setSreg r v).relTags = w.relTags := rfl
@[simp] theorem Wave.setSreg_held (w : Wave) (r : Nat) (v : Word) : (w.setSreg r v).held = w.held := rfl
@[simp] theorem Wave.setSreg_pend (w : Wave) (r : Nat) (v : Word) : (w.setSreg r v).pend = w.pend := rfl
@[simp] theorem Wave.setSreg_perf (w : Wave) (r : Nat) (v : Word) : (w.setSreg r v).perf = w.perf := rfl
@[simp] theorem Wave.setSreg_written (w : Wave) (r : Nat) (v : Word) : (w.setSreg r v).written = w.written := rfl
@[simp] theorem Wave.setSreg_corepl (w : Wave) (r : Nat) (v : Word) : (w.setSreg r v).corepl = w.corepl := rfl
@[simp] theorem Wave.setSreg_diepl (w : Wave) (r : Nat) (v : Word) : (w.setSreg r v).diepl = w.diepl := rfl
@[simp] theorem Wave.setSreg_tlFlags (w : Wave) (r : Nat) (v : Word) : (w.setSreg r v).tlFlags = w.tlFlags := rfl
@[simp] theorem Wave.setSreg_wake (w : Wave) (r : Nat) (v : Word) : (w.setSreg r v).wake = w.wake := rfl
@[simp] theorem Wave.setSreg_sleepSince (w : Wave) (r : Nat) (v : Word) : (w.setSreg r v).sleepSince = w.sleepSince := rfl
@[simp] theorem Wave.setSreg_triedAt (w : Wave) (r : Nat) (v : Word) : (w.setSreg r v).triedAt = w.triedAt := rfl
@[simp] theorem Wave.setSreg_acqxDone (w : Wave) (r : Nat) (v : Word) : (w.setSreg r v).acqxDone = w.acqxDone := rfl
@[simp] theorem Wave.setSreg_barHold (w : Wave) (r : Nat) (v : Word) : (w.setSreg r v).barHold = w.barHold := rfl
@[simp] theorem Wave.setSreg_nextIssue (w : Wave) (r : Nat) (v : Word) : (w.setSreg r v).nextIssue = w.nextIssue := rfl
@[simp] theorem Wave.setSreg_lastIssue (w : Wave) (r : Nat) (v : Word) : (w.setSreg r v).lastIssue = w.lastIssue := rfl
@[simp] theorem Wave.setSreg_bornAt (w : Wave) (r : Nat) (v : Word) : (w.setSreg r v).bornAt = w.bornAt := rfl
@[simp] theorem Wave.setSreg_paths (w : Wave) (r : Nat) (v : Word) : (w.setSreg r v).paths = w.paths := rfl
@[simp] theorem Wave.setSreg_markers (w : Wave) (r : Nat) (v : Word) : (w.setSreg r v).markers = w.markers := rfl
@[simp] theorem Wave.setSreg_relScope (w : Wave) (r : Nat) (v : Word) : (w.setSreg r v).relScope = w.relScope := rfl
@[simp] theorem Wave.setSreg_refusals (w : Wave) (r : Nat) (v : Word) : (w.setSreg r v).refusals = w.refusals := rfl
@[simp] theorem Wave.setSreg_stopAsked (w : Wave) (r : Nat) (v : Word) : (w.setSreg r v).stopAsked = w.stopAsked := rfl
@[simp] theorem Wave.setSreg_stopped (w : Wave) (r : Nat) (v : Word) : (w.setSreg r v).stopped = w.stopped := rfl
@[simp] theorem Wave.setLane_core (w : Wave) (i : Nat) (l : Lane) : (w.setLane i l).core = w.core := rfl
@[simp] theorem Wave.setLane_slot (w : Wave) (i : Nat) (l : Lane) : (w.setLane i l).slot = w.slot := rfl
@[simp] theorem Wave.setLane_launch (w : Wave) (i : Nat) (l : Lane) : (w.setLane i l).launch = w.launch := rfl
@[simp] theorem Wave.setLane_tenant (w : Wave) (i : Nat) (l : Lane) : (w.setLane i l).tenant = w.tenant := rfl
@[simp] theorem Wave.setLane_wid (w : Wave) (i : Nat) (l : Lane) : (w.setLane i l).wid = w.wid := rfl
@[simp] theorem Wave.setLane_mode (w : Wave) (i : Nat) (l : Lane) : (w.setLane i l).mode = w.mode := rfl
@[simp] theorem Wave.setLane_role (w : Wave) (i : Nat) (l : Lane) : (w.setLane i l).role = w.role := rfl
@[simp] theorem Wave.setLane_vregs (w : Wave) (i : Nat) (l : Lane) : (w.setLane i l).vregs = w.vregs := rfl
@[simp] theorem Wave.setLane_sregs (w : Wave) (i : Nat) (l : Lane) : (w.setLane i l).sregs = w.sregs := rfl
@[simp] theorem Wave.setLane_preds (w : Wave) (i : Nat) (l : Lane) : (w.setLane i l).preds = w.preds := rfl
@[simp] theorem Wave.setLane_qpreds (w : Wave) (i : Nat) (l : Lane) : (w.setLane i l).qpreds = w.qpreds := rfl
@[simp] theorem Wave.setLane_base (w : Wave) (i : Nat) (l : Lane) : (w.setLane i l).base = w.base := rfl
@[simp] theorem Wave.setLane_ext (w : Wave) (i : Nat) (l : Lane) : (w.setLane i l).ext = w.ext := rfl
@[simp] theorem Wave.setLane_dropped (w : Wave) (i : Nat) (l : Lane) : (w.setLane i l).dropped = w.dropped := rfl
@[simp] theorem Wave.setLane_tags (w : Wave) (i : Nat) (l : Lane) : (w.setLane i l).tags = w.tags := rfl
@[simp] theorem Wave.setLane_fstat (w : Wave) (i : Nat) (l : Lane) : (w.setLane i l).fstat = w.fstat := rfl
@[simp] theorem Wave.setLane_mstat (w : Wave) (i : Nat) (l : Lane) : (w.setLane i l).mstat = w.mstat := rfl
@[simp] theorem Wave.setLane_trcause (w : Wave) (i : Nat) (l : Lane) : (w.setLane i l).trcause = w.trcause := rfl
@[simp] theorem Wave.setLane_trpc (w : Wave) (i : Nat) (l : Lane) : (w.setLane i l).trpc = w.trpc := rfl
@[simp] theorem Wave.setLane_trmask (w : Wave) (i : Nat) (l : Lane) : (w.setLane i l).trmask = w.trmask := rfl
@[simp] theorem Wave.setLane_traddr (w : Wave) (i : Nat) (l : Lane) : (w.setLane i l).traddr = w.traddr := rfl
@[simp] theorem Wave.setLane_rngctr (w : Wave) (i : Nat) (l : Lane) : (w.setLane i l).rngctr = w.rngctr := rfl
@[simp] theorem Wave.setLane_hangcnt (w : Wave) (i : Nat) (l : Lane) : (w.setLane i l).hangcnt = w.hangcnt := rfl
@[simp] theorem Wave.setLane_hangArmed (w : Wave) (i : Nat) (l : Lane) : (w.setLane i l).hangArmed = w.hangArmed := rfl
@[simp] theorem Wave.setLane_ops (w : Wave) (i : Nat) (l : Lane) : (w.setLane i l).ops = w.ops := rfl
@[simp] theorem Wave.setLane_nextOp (w : Wave) (i : Nat) (l : Lane) : (w.setLane i l).nextOp = w.nextOp := rfl
@[simp] theorem Wave.setLane_cpWords (w : Wave) (i : Nat) (l : Lane) : (w.setLane i l).cpWords = w.cpWords := rfl
@[simp] theorem Wave.setLane_tlWords (w : Wave) (i : Nat) (l : Lane) : (w.setLane i l).tlWords = w.tlWords := rfl
@[simp] theorem Wave.setLane_groups (w : Wave) (i : Nat) (l : Lane) : (w.setLane i l).groups = w.groups := rfl
@[simp] theorem Wave.setLane_hnd (w : Wave) (i : Nat) (l : Lane) : (w.setLane i l).hnd = w.hnd := rfl
@[simp] theorem Wave.setLane_held (w : Wave) (i : Nat) (l : Lane) : (w.setLane i l).held = w.held := rfl
@[simp] theorem Wave.setLane_pend (w : Wave) (i : Nat) (l : Lane) : (w.setLane i l).pend = w.pend := rfl
@[simp] theorem Wave.setLane_perf (w : Wave) (i : Nat) (l : Lane) : (w.setLane i l).perf = w.perf := rfl
@[simp] theorem Wave.setLane_written (w : Wave) (i : Nat) (l : Lane) : (w.setLane i l).written = w.written := rfl
@[simp] theorem Wave.setLane_corepl (w : Wave) (i : Nat) (l : Lane) : (w.setLane i l).corepl = w.corepl := rfl
@[simp] theorem Wave.setLane_diepl (w : Wave) (i : Nat) (l : Lane) : (w.setLane i l).diepl = w.diepl := rfl
@[simp] theorem Wave.setLane_hwAt (w : Wave) (i : Nat) (l : Lane) : (w.setLane i l).hwAt = w.hwAt := rfl
@[simp] theorem Wave.setLane_hwF (w : Wave) (i : Nat) (l : Lane) : (w.setLane i l).hwF = w.hwF := rfl
@[simp] theorem Wave.setLane_hwM (w : Wave) (i : Nat) (l : Lane) : (w.setLane i l).hwM = w.hwM := rfl
@[simp] theorem Wave.setLane_adj (w : Wave) (i : Nat) (l : Lane) : (w.setLane i l).adj = w.adj := rfl
@[simp] theorem Wave.setLane_tlFlags (w : Wave) (i : Nat) (l : Lane) : (w.setLane i l).tlFlags = w.tlFlags := rfl
@[simp] theorem Wave.setLane_wake (w : Wave) (i : Nat) (l : Lane) : (w.setLane i l).wake = w.wake := rfl
@[simp] theorem Wave.setLane_sleepSince (w : Wave) (i : Nat) (l : Lane) : (w.setLane i l).sleepSince = w.sleepSince := rfl
@[simp] theorem Wave.setLane_heldAt (w : Wave) (i : Nat) (l : Lane) : (w.setLane i l).heldAt = w.heldAt := rfl
@[simp] theorem Wave.setLane_triedAt (w : Wave) (i : Nat) (l : Lane) : (w.setLane i l).triedAt = w.triedAt := rfl
@[simp] theorem Wave.setLane_pinned (w : Wave) (i : Nat) (l : Lane) : (w.setLane i l).pinned = w.pinned := rfl
@[simp] theorem Wave.setLane_acqxDone (w : Wave) (i : Nat) (l : Lane) : (w.setLane i l).acqxDone = w.acqxDone := rfl
@[simp] theorem Wave.setLane_barHold (w : Wave) (i : Nat) (l : Lane) : (w.setLane i l).barHold = w.barHold := rfl
@[simp] theorem Wave.setLane_nextIssue (w : Wave) (i : Nat) (l : Lane) : (w.setLane i l).nextIssue = w.nextIssue := rfl
@[simp] theorem Wave.setLane_lastIssue (w : Wave) (i : Nat) (l : Lane) : (w.setLane i l).lastIssue = w.lastIssue := rfl
@[simp] theorem Wave.setLane_bornAt (w : Wave) (i : Nat) (l : Lane) : (w.setLane i l).bornAt = w.bornAt := rfl
@[simp] theorem Wave.setLane_paths (w : Wave) (i : Nat) (l : Lane) : (w.setLane i l).paths = w.paths := rfl
@[simp] theorem Wave.setLane_markers (w : Wave) (i : Nat) (l : Lane) : (w.setLane i l).markers = w.markers := rfl
@[simp] theorem Wave.setLane_relTags (w : Wave) (i : Nat) (l : Lane) : (w.setLane i l).relTags = w.relTags := rfl
@[simp] theorem Wave.setLane_relScope (w : Wave) (i : Nat) (l : Lane) : (w.setLane i l).relScope = w.relScope := rfl
@[simp] theorem Wave.setLane_refusals (w : Wave) (i : Nat) (l : Lane) : (w.setLane i l).refusals = w.refusals := rfl
@[simp] theorem Wave.setLane_stopAsked (w : Wave) (i : Nat) (l : Lane) : (w.setLane i l).stopAsked = w.stopAsked := rfl
@[simp] theorem Wave.setLane_stopped (w : Wave) (i : Nat) (l : Lane) : (w.setLane i l).stopped = w.stopped := rfl
@[simp] theorem Wave.mapLanes_core (w : Wave) (p : Nat → Bool) (f : Lane → Lane) : (w.mapLanes p f).core = w.core := rfl
@[simp] theorem Wave.mapLanes_slot (w : Wave) (p : Nat → Bool) (f : Lane → Lane) : (w.mapLanes p f).slot = w.slot := rfl
@[simp] theorem Wave.mapLanes_launch (w : Wave) (p : Nat → Bool) (f : Lane → Lane) : (w.mapLanes p f).launch = w.launch := rfl
@[simp] theorem Wave.mapLanes_tenant (w : Wave) (p : Nat → Bool) (f : Lane → Lane) : (w.mapLanes p f).tenant = w.tenant := rfl
@[simp] theorem Wave.mapLanes_wid (w : Wave) (p : Nat → Bool) (f : Lane → Lane) : (w.mapLanes p f).wid = w.wid := rfl
@[simp] theorem Wave.mapLanes_mode (w : Wave) (p : Nat → Bool) (f : Lane → Lane) : (w.mapLanes p f).mode = w.mode := rfl
@[simp] theorem Wave.mapLanes_role (w : Wave) (p : Nat → Bool) (f : Lane → Lane) : (w.mapLanes p f).role = w.role := rfl
@[simp] theorem Wave.mapLanes_vregs (w : Wave) (p : Nat → Bool) (f : Lane → Lane) : (w.mapLanes p f).vregs = w.vregs := rfl
@[simp] theorem Wave.mapLanes_sregs (w : Wave) (p : Nat → Bool) (f : Lane → Lane) : (w.mapLanes p f).sregs = w.sregs := rfl
@[simp] theorem Wave.mapLanes_preds (w : Wave) (p : Nat → Bool) (f : Lane → Lane) : (w.mapLanes p f).preds = w.preds := rfl
@[simp] theorem Wave.mapLanes_qpreds (w : Wave) (p : Nat → Bool) (f : Lane → Lane) : (w.mapLanes p f).qpreds = w.qpreds := rfl
@[simp] theorem Wave.mapLanes_base (w : Wave) (p : Nat → Bool) (f : Lane → Lane) : (w.mapLanes p f).base = w.base := rfl
@[simp] theorem Wave.mapLanes_ext (w : Wave) (p : Nat → Bool) (f : Lane → Lane) : (w.mapLanes p f).ext = w.ext := rfl
@[simp] theorem Wave.mapLanes_dropped (w : Wave) (p : Nat → Bool) (f : Lane → Lane) : (w.mapLanes p f).dropped = w.dropped := rfl
@[simp] theorem Wave.mapLanes_tags (w : Wave) (p : Nat → Bool) (f : Lane → Lane) : (w.mapLanes p f).tags = w.tags := rfl
@[simp] theorem Wave.mapLanes_fstat (w : Wave) (p : Nat → Bool) (f : Lane → Lane) : (w.mapLanes p f).fstat = w.fstat := rfl
@[simp] theorem Wave.mapLanes_mstat (w : Wave) (p : Nat → Bool) (f : Lane → Lane) : (w.mapLanes p f).mstat = w.mstat := rfl
@[simp] theorem Wave.mapLanes_trcause (w : Wave) (p : Nat → Bool) (f : Lane → Lane) : (w.mapLanes p f).trcause = w.trcause := rfl
@[simp] theorem Wave.mapLanes_trpc (w : Wave) (p : Nat → Bool) (f : Lane → Lane) : (w.mapLanes p f).trpc = w.trpc := rfl
@[simp] theorem Wave.mapLanes_trmask (w : Wave) (p : Nat → Bool) (f : Lane → Lane) : (w.mapLanes p f).trmask = w.trmask := rfl
@[simp] theorem Wave.mapLanes_traddr (w : Wave) (p : Nat → Bool) (f : Lane → Lane) : (w.mapLanes p f).traddr = w.traddr := rfl
@[simp] theorem Wave.mapLanes_rngctr (w : Wave) (p : Nat → Bool) (f : Lane → Lane) : (w.mapLanes p f).rngctr = w.rngctr := rfl
@[simp] theorem Wave.mapLanes_hangcnt (w : Wave) (p : Nat → Bool) (f : Lane → Lane) : (w.mapLanes p f).hangcnt = w.hangcnt := rfl
@[simp] theorem Wave.mapLanes_hangArmed (w : Wave) (p : Nat → Bool) (f : Lane → Lane) : (w.mapLanes p f).hangArmed = w.hangArmed := rfl
@[simp] theorem Wave.mapLanes_ops (w : Wave) (p : Nat → Bool) (f : Lane → Lane) : (w.mapLanes p f).ops = w.ops := rfl
@[simp] theorem Wave.mapLanes_nextOp (w : Wave) (p : Nat → Bool) (f : Lane → Lane) : (w.mapLanes p f).nextOp = w.nextOp := rfl
@[simp] theorem Wave.mapLanes_cpWords (w : Wave) (p : Nat → Bool) (f : Lane → Lane) : (w.mapLanes p f).cpWords = w.cpWords := rfl
@[simp] theorem Wave.mapLanes_tlWords (w : Wave) (p : Nat → Bool) (f : Lane → Lane) : (w.mapLanes p f).tlWords = w.tlWords := rfl
@[simp] theorem Wave.mapLanes_groups (w : Wave) (p : Nat → Bool) (f : Lane → Lane) : (w.mapLanes p f).groups = w.groups := rfl
@[simp] theorem Wave.mapLanes_hnd (w : Wave) (p : Nat → Bool) (f : Lane → Lane) : (w.mapLanes p f).hnd = w.hnd := rfl
@[simp] theorem Wave.mapLanes_held (w : Wave) (p : Nat → Bool) (f : Lane → Lane) : (w.mapLanes p f).held = w.held := rfl
@[simp] theorem Wave.mapLanes_pend (w : Wave) (p : Nat → Bool) (f : Lane → Lane) : (w.mapLanes p f).pend = w.pend := rfl
@[simp] theorem Wave.mapLanes_perf (w : Wave) (p : Nat → Bool) (f : Lane → Lane) : (w.mapLanes p f).perf = w.perf := rfl
@[simp] theorem Wave.mapLanes_written (w : Wave) (p : Nat → Bool) (f : Lane → Lane) : (w.mapLanes p f).written = w.written := rfl
@[simp] theorem Wave.mapLanes_corepl (w : Wave) (p : Nat → Bool) (f : Lane → Lane) : (w.mapLanes p f).corepl = w.corepl := rfl
@[simp] theorem Wave.mapLanes_diepl (w : Wave) (p : Nat → Bool) (f : Lane → Lane) : (w.mapLanes p f).diepl = w.diepl := rfl
@[simp] theorem Wave.mapLanes_hwAt (w : Wave) (p : Nat → Bool) (f : Lane → Lane) : (w.mapLanes p f).hwAt = w.hwAt := rfl
@[simp] theorem Wave.mapLanes_hwF (w : Wave) (p : Nat → Bool) (f : Lane → Lane) : (w.mapLanes p f).hwF = w.hwF := rfl
@[simp] theorem Wave.mapLanes_hwM (w : Wave) (p : Nat → Bool) (f : Lane → Lane) : (w.mapLanes p f).hwM = w.hwM := rfl
@[simp] theorem Wave.mapLanes_adj (w : Wave) (p : Nat → Bool) (f : Lane → Lane) : (w.mapLanes p f).adj = w.adj := rfl
@[simp] theorem Wave.mapLanes_tlFlags (w : Wave) (p : Nat → Bool) (f : Lane → Lane) : (w.mapLanes p f).tlFlags = w.tlFlags := rfl
@[simp] theorem Wave.mapLanes_wake (w : Wave) (p : Nat → Bool) (f : Lane → Lane) : (w.mapLanes p f).wake = w.wake := rfl
@[simp] theorem Wave.mapLanes_sleepSince (w : Wave) (p : Nat → Bool) (f : Lane → Lane) : (w.mapLanes p f).sleepSince = w.sleepSince := rfl
@[simp] theorem Wave.mapLanes_heldAt (w : Wave) (p : Nat → Bool) (f : Lane → Lane) : (w.mapLanes p f).heldAt = w.heldAt := rfl
@[simp] theorem Wave.mapLanes_triedAt (w : Wave) (p : Nat → Bool) (f : Lane → Lane) : (w.mapLanes p f).triedAt = w.triedAt := rfl
@[simp] theorem Wave.mapLanes_pinned (w : Wave) (p : Nat → Bool) (f : Lane → Lane) : (w.mapLanes p f).pinned = w.pinned := rfl
@[simp] theorem Wave.mapLanes_acqxDone (w : Wave) (p : Nat → Bool) (f : Lane → Lane) : (w.mapLanes p f).acqxDone = w.acqxDone := rfl
@[simp] theorem Wave.mapLanes_barHold (w : Wave) (p : Nat → Bool) (f : Lane → Lane) : (w.mapLanes p f).barHold = w.barHold := rfl
@[simp] theorem Wave.mapLanes_nextIssue (w : Wave) (p : Nat → Bool) (f : Lane → Lane) : (w.mapLanes p f).nextIssue = w.nextIssue := rfl
@[simp] theorem Wave.mapLanes_lastIssue (w : Wave) (p : Nat → Bool) (f : Lane → Lane) : (w.mapLanes p f).lastIssue = w.lastIssue := rfl
@[simp] theorem Wave.mapLanes_bornAt (w : Wave) (p : Nat → Bool) (f : Lane → Lane) : (w.mapLanes p f).bornAt = w.bornAt := rfl
@[simp] theorem Wave.mapLanes_paths (w : Wave) (p : Nat → Bool) (f : Lane → Lane) : (w.mapLanes p f).paths = w.paths := rfl
@[simp] theorem Wave.mapLanes_markers (w : Wave) (p : Nat → Bool) (f : Lane → Lane) : (w.mapLanes p f).markers = w.markers := rfl
@[simp] theorem Wave.mapLanes_relTags (w : Wave) (p : Nat → Bool) (f : Lane → Lane) : (w.mapLanes p f).relTags = w.relTags := rfl
@[simp] theorem Wave.mapLanes_relScope (w : Wave) (p : Nat → Bool) (f : Lane → Lane) : (w.mapLanes p f).relScope = w.relScope := rfl
@[simp] theorem Wave.mapLanes_refusals (w : Wave) (p : Nat → Bool) (f : Lane → Lane) : (w.mapLanes p f).refusals = w.refusals := rfl
@[simp] theorem Wave.mapLanes_stopAsked (w : Wave) (p : Nat → Bool) (f : Lane → Lane) : (w.mapLanes p f).stopAsked = w.stopAsked := rfl
@[simp] theorem Wave.mapLanes_stopped (w : Wave) (p : Nat → Bool) (f : Lane → Lane) : (w.mapLanes p f).stopped = w.stopped := rfl
@[simp] theorem Wave.bump_core (w : Wave) (k n : Nat) : (w.bump k n).core = w.core := rfl
@[simp] theorem Wave.bump_slot (w : Wave) (k n : Nat) : (w.bump k n).slot = w.slot := rfl
@[simp] theorem Wave.bump_launch (w : Wave) (k n : Nat) : (w.bump k n).launch = w.launch := rfl
@[simp] theorem Wave.bump_tenant (w : Wave) (k n : Nat) : (w.bump k n).tenant = w.tenant := rfl
@[simp] theorem Wave.bump_wid (w : Wave) (k n : Nat) : (w.bump k n).wid = w.wid := rfl
@[simp] theorem Wave.bump_mode (w : Wave) (k n : Nat) : (w.bump k n).mode = w.mode := rfl
@[simp] theorem Wave.bump_role (w : Wave) (k n : Nat) : (w.bump k n).role = w.role := rfl
@[simp] theorem Wave.bump_lanes (w : Wave) (k n : Nat) : (w.bump k n).lanes = w.lanes := rfl
@[simp] theorem Wave.bump_vregs (w : Wave) (k n : Nat) : (w.bump k n).vregs = w.vregs := rfl
@[simp] theorem Wave.bump_sregs (w : Wave) (k n : Nat) : (w.bump k n).sregs = w.sregs := rfl
@[simp] theorem Wave.bump_preds (w : Wave) (k n : Nat) : (w.bump k n).preds = w.preds := rfl
@[simp] theorem Wave.bump_qpreds (w : Wave) (k n : Nat) : (w.bump k n).qpreds = w.qpreds := rfl
@[simp] theorem Wave.bump_base (w : Wave) (k n : Nat) : (w.bump k n).base = w.base := rfl
@[simp] theorem Wave.bump_ext (w : Wave) (k n : Nat) : (w.bump k n).ext = w.ext := rfl
@[simp] theorem Wave.bump_dropped (w : Wave) (k n : Nat) : (w.bump k n).dropped = w.dropped := rfl
@[simp] theorem Wave.bump_tags (w : Wave) (k n : Nat) : (w.bump k n).tags = w.tags := rfl
@[simp] theorem Wave.bump_fstat (w : Wave) (k n : Nat) : (w.bump k n).fstat = w.fstat := rfl
@[simp] theorem Wave.bump_mstat (w : Wave) (k n : Nat) : (w.bump k n).mstat = w.mstat := rfl
@[simp] theorem Wave.bump_trcause (w : Wave) (k n : Nat) : (w.bump k n).trcause = w.trcause := rfl
@[simp] theorem Wave.bump_trpc (w : Wave) (k n : Nat) : (w.bump k n).trpc = w.trpc := rfl
@[simp] theorem Wave.bump_trmask (w : Wave) (k n : Nat) : (w.bump k n).trmask = w.trmask := rfl
@[simp] theorem Wave.bump_traddr (w : Wave) (k n : Nat) : (w.bump k n).traddr = w.traddr := rfl
@[simp] theorem Wave.bump_rngctr (w : Wave) (k n : Nat) : (w.bump k n).rngctr = w.rngctr := rfl
@[simp] theorem Wave.bump_hangcnt (w : Wave) (k n : Nat) : (w.bump k n).hangcnt = w.hangcnt := rfl
@[simp] theorem Wave.bump_hangArmed (w : Wave) (k n : Nat) : (w.bump k n).hangArmed = w.hangArmed := rfl
@[simp] theorem Wave.bump_ops (w : Wave) (k n : Nat) : (w.bump k n).ops = w.ops := rfl
@[simp] theorem Wave.bump_nextOp (w : Wave) (k n : Nat) : (w.bump k n).nextOp = w.nextOp := rfl
@[simp] theorem Wave.bump_cpWords (w : Wave) (k n : Nat) : (w.bump k n).cpWords = w.cpWords := rfl
@[simp] theorem Wave.bump_tlWords (w : Wave) (k n : Nat) : (w.bump k n).tlWords = w.tlWords := rfl
@[simp] theorem Wave.bump_groups (w : Wave) (k n : Nat) : (w.bump k n).groups = w.groups := rfl
@[simp] theorem Wave.bump_hnd (w : Wave) (k n : Nat) : (w.bump k n).hnd = w.hnd := rfl
@[simp] theorem Wave.bump_held (w : Wave) (k n : Nat) : (w.bump k n).held = w.held := rfl
@[simp] theorem Wave.bump_pend (w : Wave) (k n : Nat) : (w.bump k n).pend = w.pend := rfl
@[simp] theorem Wave.bump_written (w : Wave) (k n : Nat) : (w.bump k n).written = w.written := rfl
@[simp] theorem Wave.bump_corepl (w : Wave) (k n : Nat) : (w.bump k n).corepl = w.corepl := rfl
@[simp] theorem Wave.bump_diepl (w : Wave) (k n : Nat) : (w.bump k n).diepl = w.diepl := rfl
@[simp] theorem Wave.bump_hwAt (w : Wave) (k n : Nat) : (w.bump k n).hwAt = w.hwAt := rfl
@[simp] theorem Wave.bump_hwF (w : Wave) (k n : Nat) : (w.bump k n).hwF = w.hwF := rfl
@[simp] theorem Wave.bump_hwM (w : Wave) (k n : Nat) : (w.bump k n).hwM = w.hwM := rfl
@[simp] theorem Wave.bump_adj (w : Wave) (k n : Nat) : (w.bump k n).adj = w.adj := rfl
@[simp] theorem Wave.bump_tlFlags (w : Wave) (k n : Nat) : (w.bump k n).tlFlags = w.tlFlags := rfl
@[simp] theorem Wave.bump_wake (w : Wave) (k n : Nat) : (w.bump k n).wake = w.wake := rfl
@[simp] theorem Wave.bump_sleepSince (w : Wave) (k n : Nat) : (w.bump k n).sleepSince = w.sleepSince := rfl
@[simp] theorem Wave.bump_heldAt (w : Wave) (k n : Nat) : (w.bump k n).heldAt = w.heldAt := rfl
@[simp] theorem Wave.bump_triedAt (w : Wave) (k n : Nat) : (w.bump k n).triedAt = w.triedAt := rfl
@[simp] theorem Wave.bump_pinned (w : Wave) (k n : Nat) : (w.bump k n).pinned = w.pinned := rfl
@[simp] theorem Wave.bump_acqxDone (w : Wave) (k n : Nat) : (w.bump k n).acqxDone = w.acqxDone := rfl
@[simp] theorem Wave.bump_barHold (w : Wave) (k n : Nat) : (w.bump k n).barHold = w.barHold := rfl
@[simp] theorem Wave.bump_nextIssue (w : Wave) (k n : Nat) : (w.bump k n).nextIssue = w.nextIssue := rfl
@[simp] theorem Wave.bump_lastIssue (w : Wave) (k n : Nat) : (w.bump k n).lastIssue = w.lastIssue := rfl
@[simp] theorem Wave.bump_bornAt (w : Wave) (k n : Nat) : (w.bump k n).bornAt = w.bornAt := rfl
@[simp] theorem Wave.bump_paths (w : Wave) (k n : Nat) : (w.bump k n).paths = w.paths := rfl
@[simp] theorem Wave.bump_markers (w : Wave) (k n : Nat) : (w.bump k n).markers = w.markers := rfl
@[simp] theorem Wave.bump_relTags (w : Wave) (k n : Nat) : (w.bump k n).relTags = w.relTags := rfl
@[simp] theorem Wave.bump_relScope (w : Wave) (k n : Nat) : (w.bump k n).relScope = w.relScope := rfl
@[simp] theorem Wave.bump_refusals (w : Wave) (k n : Nat) : (w.bump k n).refusals = w.refusals := rfl
@[simp] theorem Wave.bump_stopAsked (w : Wave) (k n : Nat) : (w.bump k n).stopAsked = w.stopAsked := rfl
@[simp] theorem Wave.bump_stopped (w : Wave) (k n : Nat) : (w.bump k n).stopped = w.stopped := rfl
@[simp] theorem Wave.setFlags_core (w : Wave) (f : Flags) : (w.setFlags f).core = w.core := rfl
@[simp] theorem Wave.setFlags_slot (w : Wave) (f : Flags) : (w.setFlags f).slot = w.slot := rfl
@[simp] theorem Wave.setFlags_launch (w : Wave) (f : Flags) : (w.setFlags f).launch = w.launch := rfl
@[simp] theorem Wave.setFlags_tenant (w : Wave) (f : Flags) : (w.setFlags f).tenant = w.tenant := rfl
@[simp] theorem Wave.setFlags_wid (w : Wave) (f : Flags) : (w.setFlags f).wid = w.wid := rfl
@[simp] theorem Wave.setFlags_mode (w : Wave) (f : Flags) : (w.setFlags f).mode = w.mode := rfl
@[simp] theorem Wave.setFlags_role (w : Wave) (f : Flags) : (w.setFlags f).role = w.role := rfl
@[simp] theorem Wave.setFlags_lanes (w : Wave) (f : Flags) : (w.setFlags f).lanes = w.lanes := rfl
@[simp] theorem Wave.setFlags_vregs (w : Wave) (f : Flags) : (w.setFlags f).vregs = w.vregs := rfl
@[simp] theorem Wave.setFlags_sregs (w : Wave) (f : Flags) : (w.setFlags f).sregs = w.sregs := rfl
@[simp] theorem Wave.setFlags_preds (w : Wave) (f : Flags) : (w.setFlags f).preds = w.preds := rfl
@[simp] theorem Wave.setFlags_qpreds (w : Wave) (f : Flags) : (w.setFlags f).qpreds = w.qpreds := rfl
@[simp] theorem Wave.setFlags_base (w : Wave) (f : Flags) : (w.setFlags f).base = w.base := rfl
@[simp] theorem Wave.setFlags_ext (w : Wave) (f : Flags) : (w.setFlags f).ext = w.ext := rfl
@[simp] theorem Wave.setFlags_dropped (w : Wave) (f : Flags) : (w.setFlags f).dropped = w.dropped := rfl
@[simp] theorem Wave.setFlags_tags (w : Wave) (f : Flags) : (w.setFlags f).tags = w.tags := rfl
@[simp] theorem Wave.setFlags_mstat (w : Wave) (f : Flags) : (w.setFlags f).mstat = w.mstat := rfl
@[simp] theorem Wave.setFlags_trcause (w : Wave) (f : Flags) : (w.setFlags f).trcause = w.trcause := rfl
@[simp] theorem Wave.setFlags_trpc (w : Wave) (f : Flags) : (w.setFlags f).trpc = w.trpc := rfl
@[simp] theorem Wave.setFlags_trmask (w : Wave) (f : Flags) : (w.setFlags f).trmask = w.trmask := rfl
@[simp] theorem Wave.setFlags_traddr (w : Wave) (f : Flags) : (w.setFlags f).traddr = w.traddr := rfl
@[simp] theorem Wave.setFlags_rngctr (w : Wave) (f : Flags) : (w.setFlags f).rngctr = w.rngctr := rfl
@[simp] theorem Wave.setFlags_hangcnt (w : Wave) (f : Flags) : (w.setFlags f).hangcnt = w.hangcnt := rfl
@[simp] theorem Wave.setFlags_hangArmed (w : Wave) (f : Flags) : (w.setFlags f).hangArmed = w.hangArmed := rfl
@[simp] theorem Wave.setFlags_ops (w : Wave) (f : Flags) : (w.setFlags f).ops = w.ops := rfl
@[simp] theorem Wave.setFlags_nextOp (w : Wave) (f : Flags) : (w.setFlags f).nextOp = w.nextOp := rfl
@[simp] theorem Wave.setFlags_cpWords (w : Wave) (f : Flags) : (w.setFlags f).cpWords = w.cpWords := rfl
@[simp] theorem Wave.setFlags_tlWords (w : Wave) (f : Flags) : (w.setFlags f).tlWords = w.tlWords := rfl
@[simp] theorem Wave.setFlags_groups (w : Wave) (f : Flags) : (w.setFlags f).groups = w.groups := rfl
@[simp] theorem Wave.setFlags_hnd (w : Wave) (f : Flags) : (w.setFlags f).hnd = w.hnd := rfl
@[simp] theorem Wave.setFlags_held (w : Wave) (f : Flags) : (w.setFlags f).held = w.held := rfl
@[simp] theorem Wave.setFlags_pend (w : Wave) (f : Flags) : (w.setFlags f).pend = w.pend := rfl
@[simp] theorem Wave.setFlags_perf (w : Wave) (f : Flags) : (w.setFlags f).perf = w.perf := rfl
@[simp] theorem Wave.setFlags_written (w : Wave) (f : Flags) : (w.setFlags f).written = w.written := rfl
@[simp] theorem Wave.setFlags_corepl (w : Wave) (f : Flags) : (w.setFlags f).corepl = w.corepl := rfl
@[simp] theorem Wave.setFlags_diepl (w : Wave) (f : Flags) : (w.setFlags f).diepl = w.diepl := rfl
@[simp] theorem Wave.setFlags_adj (w : Wave) (f : Flags) : (w.setFlags f).adj = w.adj := rfl
@[simp] theorem Wave.setFlags_tlFlags (w : Wave) (f : Flags) : (w.setFlags f).tlFlags = w.tlFlags := rfl
@[simp] theorem Wave.setFlags_wake (w : Wave) (f : Flags) : (w.setFlags f).wake = w.wake := rfl
@[simp] theorem Wave.setFlags_sleepSince (w : Wave) (f : Flags) : (w.setFlags f).sleepSince = w.sleepSince := rfl
@[simp] theorem Wave.setFlags_heldAt (w : Wave) (f : Flags) : (w.setFlags f).heldAt = w.heldAt := rfl
@[simp] theorem Wave.setFlags_triedAt (w : Wave) (f : Flags) : (w.setFlags f).triedAt = w.triedAt := rfl
@[simp] theorem Wave.setFlags_pinned (w : Wave) (f : Flags) : (w.setFlags f).pinned = w.pinned := rfl
@[simp] theorem Wave.setFlags_acqxDone (w : Wave) (f : Flags) : (w.setFlags f).acqxDone = w.acqxDone := rfl
@[simp] theorem Wave.setFlags_barHold (w : Wave) (f : Flags) : (w.setFlags f).barHold = w.barHold := rfl
@[simp] theorem Wave.setFlags_nextIssue (w : Wave) (f : Flags) : (w.setFlags f).nextIssue = w.nextIssue := rfl
@[simp] theorem Wave.setFlags_lastIssue (w : Wave) (f : Flags) : (w.setFlags f).lastIssue = w.lastIssue := rfl
@[simp] theorem Wave.setFlags_bornAt (w : Wave) (f : Flags) : (w.setFlags f).bornAt = w.bornAt := rfl
@[simp] theorem Wave.setFlags_paths (w : Wave) (f : Flags) : (w.setFlags f).paths = w.paths := rfl
@[simp] theorem Wave.setFlags_markers (w : Wave) (f : Flags) : (w.setFlags f).markers = w.markers := rfl
@[simp] theorem Wave.setFlags_relTags (w : Wave) (f : Flags) : (w.setFlags f).relTags = w.relTags := rfl
@[simp] theorem Wave.setFlags_relScope (w : Wave) (f : Flags) : (w.setFlags f).relScope = w.relScope := rfl
@[simp] theorem Wave.setFlags_refusals (w : Wave) (f : Flags) : (w.setFlags f).refusals = w.refusals := rfl
@[simp] theorem Wave.setFlags_stopAsked (w : Wave) (f : Flags) : (w.setFlags f).stopAsked = w.stopAsked := rfl
@[simp] theorem Wave.setFlags_stopped (w : Wave) (f : Flags) : (w.setFlags f).stopped = w.stopped := rfl
@[simp] theorem Wave.setFlags_hwAt (w : Wave) (f : Flags) : (w.setFlags f).hwAt = w.hwAt := rfl
@[simp] theorem Wave.setFlags_hwF (w : Wave) (f : Flags) : (w.setFlags f).hwF = w.hwF := rfl
@[simp] theorem Wave.setFlags_hwM (w : Wave) (f : Flags) : (w.setFlags f).hwM = w.hwM := rfl

/-- A vector register after a write. -/
theorem Wave.vreg_setVreg (w : Wave) {r i : Nat} (q j : Nat) (v : Word) (hi : i < 32) (hj : j < 32) :
    (w.setVreg r i v).vreg q j = if q = r ∧ j = i then v else w.vreg q j := by
  unfold Wave.setVreg Wave.vreg
  rw [cellGet_cellSet]
  by_cases h : q = r ∧ j = i
  · simp [h.1, h.2]
  · rw [if_neg h, if_neg (by omega)]

@[simp] theorem Wave.vreg_setSreg (w : Wave) (r q i : Nat) (v : Word) : (w.setSreg r v).vreg q i = w.vreg q i := rfl
@[simp] theorem Wave.vreg_setLane (w : Wave) (k q i : Nat) (l : Lane) : (w.setLane k l).vreg q i = w.vreg q i := rfl
@[simp] theorem Wave.vreg_mapLanes (w : Wave) (p : Nat → Bool) (f : Lane → Lane) (q i : Nat) : (w.mapLanes p f).vreg q i = w.vreg q i := rfl
@[simp] theorem Wave.vreg_setFlags (w : Wave) (f : Flags) (q i : Nat) : (w.setFlags f).vreg q i = w.vreg q i := rfl
@[simp] theorem Wave.vreg_bump (w : Wave) (k n q i : Nat) : (w.bump k n).vreg q i = w.vreg q i := rfl
@[simp] theorem Wave.sreg_setVreg (w : Wave) (r i q : Nat) (v : Word) : (w.setVreg r i v).sreg q = w.sreg q := rfl
@[simp] theorem Wave.sreg_setLane (w : Wave) (k q : Nat) (l : Lane) : (w.setLane k l).sreg q = w.sreg q := rfl
@[simp] theorem Wave.sreg_mapLanes (w : Wave) (p : Nat → Bool) (f : Lane → Lane) (q : Nat) : (w.mapLanes p f).sreg q = w.sreg q := rfl
@[simp] theorem Wave.sreg_setFlags (w : Wave) (f : Flags) (q : Nat) : (w.setFlags f).sreg q = w.sreg q := rfl
@[simp] theorem Wave.sreg_bump (w : Wave) (k n q : Nat) : (w.bump k n).sreg q = w.sreg q := rfl
@[simp] theorem Wave.lane_setVreg (w : Wave) (r i k : Nat) (v : Word) : (w.setVreg r i v).lane k = w.lane k := rfl
@[simp] theorem Wave.lane_setSreg (w : Wave) (r k : Nat) (v : Word) : (w.setSreg r v).lane k = w.lane k := rfl
@[simp] theorem Wave.lane_setFlags (w : Wave) (f : Flags) (k : Nat) : (w.setFlags f).lane k = w.lane k := rfl
@[simp] theorem Wave.lane_bump (w : Wave) (j n k : Nat) : (w.bump j n).lane k = w.lane k := rfl

/-- A scalar register after a write. -/
theorem Wave.sreg_setSreg (w : Wave) (r q : Nat) (v : Word) : (w.setSreg r v).sreg q = if q = r then v else w.sreg q :=
  cellGet_cellSet 0 w.sregs r q v

/-- A scalar predicate after a write: q0 reads 1 and takes nothing (R25). -/
theorem Wave.qpred_setQpred (w : Wave) (q j : Nat) (b : Bool) :
    (w.setQpred q b).qpred j = if j = q ∧ q ≠ 0 then b else w.qpred j := by
  unfold Wave.setQpred Wave.qpred
  by_cases h0 : q = 0
  · subst h0; simp
  · by_cases hj : j = 0
    · subst hj; simp [Ne.symm h0]
    · simp [h0, hj, cellGet_cellSet]

/-! ### Finding what was replaced -/

/-- The wave of a slot after that slot's wave was replaced. -/
theorem State.wave?_setWave_self {s : State} {c k : Nat} {w v : Wave} (h : s.wave? c k = some w) (hc : v.core = c) (hk : v.slot = k) :
    (s.setWave v).wave? c k = some v := by
  subst hc hk
  unfold State.wave? at h ⊢
  exact find?_updWhere_self (fun u => u.core == v.core && u.slot == v.slot) v (by simp) h

/-- The waves of other slots are not touched. -/
theorem State.wave?_setWave_other (s : State) (v : Wave) {c k : Nat} (h : ¬(v.core = c ∧ v.slot = k)) :
    (s.setWave v).wave? c k = s.wave? c k := by
  refine find?_updWhere_other _ _ _ (fun z hz => ?_) _
  simp only [Bool.and_eq_true, beq_iff_eq] at hz
  simp only [Bool.and_eq_false_iff, beq_eq_false_iff_ne, hz.1, hz.2]
  exact ⟨by tauto, by tauto⟩

/-- A wave that was found stands in its slot. -/
theorem State.wave?_core {s : State} {c k : Nat} {w : Wave} (h : s.wave? c k = some w) : w.core = c ∧ w.slot = k := by
  simpa using List.find?_some h

@[simp] theorem State.setWaves_wave? (s : State) (l : List Wave) (c k : Nat) :
    (s.setWaves l).wave? c k = l.find? (fun w => w.core == c && w.slot == k) := rfl
@[simp] theorem State.setQuad_wave? (s : State) (k q : Nat) (v : Quad) (c j : Nat) : (s.setQuad k q v).wave? c j = s.wave? c j := rfl
@[simp] theorem State.setCtx_wave? (s : State) (v : Ctx) (c j : Nat) : (s.setCtx v).wave? c j = s.wave? c j := rfl
@[simp] theorem State.setTasks_wave? (s : State) (t : Tasks) (c j : Nat) : (s.setTasks t).wave? c j = s.wave? c j := rfl
@[simp] theorem State.setLaunch_wave? (s : State) (l : Launch) (c j : Nat) : (s.setLaunch l).wave? c j = s.wave? c j := rfl
@[simp] theorem State.setTenant_wave? (s : State) (t : Tenant) (c j : Nat) : (s.setTenant t).wave? c j = s.wave? c j := rfl
@[simp] theorem State.setMem_wave? (s : State) (m : MemSys) (c j : Nat) : (s.setMem m).wave? c j = s.wave? c j := rfl
@[simp] theorem State.setCtl_wave? (s : State) (t : Control) (c j : Nat) : (s.setCtl t).wave? c j = s.wave? c j := rfl
@[simp] theorem State.setDev_wave? (s : State) (d : Device) (c j : Nat) : (s.setDev d).wave? c j = s.wave? c j := rfl
@[simp] theorem State.tickFresh_wave? (s : State) (c j : Nat) : s.tickFresh.wave? c j = s.wave? c j := rfl
@[simp] theorem State.takeSeq_wave? (s : State) (c j : Nat) : s.takeSeq.wave? c j = s.wave? c j := rfl
@[simp] theorem State.setWave_launch (s : State) (w : Wave) (u : Nat) : (s.setWave w).launch u = s.launch u := rfl
@[simp] theorem State.setWave_tenant (s : State) (w : Wave) (t : Nat) : (s.setWave w).tenant t = s.tenant t := rfl
@[simp] theorem State.setTenant_launch (s : State) (t : Tenant) (u : Nat) : (s.setTenant t).launch u = s.launch u := rfl
@[simp] theorem State.setLaunch_tenant (s : State) (l : Launch) (t : Nat) : (s.setLaunch l).tenant t = s.tenant t := rfl

/-! ### Memory -/

/-- A byte after bytes were written. -/
theorem State.byte_writeMem (s : State) (a m : Nat) (l : List Byte) :
    (s.writeMem a l).byte m = if a ≤ m ∧ m < a + l.length then l.getD (m - a) 0 else s.byte m :=
  cellGet_cellSetMany 0 l s.mem.bytes a m

/-- Every byte outside a write stands as it stood. -/
theorem State.byte_writeMem_out (s : State) {a m : Nat} (l : List Byte) (h : m < a ∨ a + l.length ≤ m) :
    (s.writeMem a l).byte m = s.byte m := cellGet_cellSetMany_out 0 l s.mem.bytes h

@[simp] theorem State.setFrame_byte (s : State) (m : Nat) (f : Frame) (a : Nat) : (s.setFrame m f).byte a = s.byte a := rfl
@[simp] theorem State.stampFrame_byte (s : State) (m a : Nat) : (s.stampFrame m).byte a = s.byte a := rfl

/-- A frame-table entry after a write. -/
theorem State.frame_setFrame (s : State) (m n : Nat) (f : Frame) : (s.setFrame m f).frame n = if n = m then f else s.frame n :=
  cellGet_cellSet Frame.free s.mem.frames m n f

end Sys2Proof.Machine
end

