-- ==== Sys2Proof/Laws/Issue.lean ====
section
/-! SUPPORT. What a word of a wave does, said once: a word that is clear of every obstacle runs its effect and is booked (R133, R139,
R142, R154); what the booking leaves unchanged. -/
namespace Sys2Proof.Machine
open Sys2Proof.Safety

/-! ### Lanes -/

theorem mem_readyLanes {w : Wave} {i : Nat} : i ∈ w.readyLanes ↔ i < 32 ∧ w.ready i = true := by
  simp [Wave.readyLanes]

theorem mem_activeAt {w : Wave} {pc : CodeAddr} {i : Nat} :
    i ∈ w.activeAt pc ↔ i < 32 ∧ w.ready i = true ∧ (w.lane i).pc = pc := by
  simp [Wave.activeAt, mem_readyLanes, and_assoc]

theorem execLanes_sub {c : Ctl} {q : Bool} {g : Wave} {l : List Nat} {i : Nat} (h : i ∈ execLanes c q g l) : i ∈ l := by
  unfold execLanes at h
  split at h
  · split at h
    · exact h
    · simp at h
  · exact (List.mem_filter.1 h).1

/-- An executing lane is one of the 32, ready and at the address. -/
theorem execLanes_active {c : Ctl} {q : Bool} {g w : Wave} {pc : CodeAddr} {i : Nat} (h : i ∈ execLanes c q g (w.activeAt pc)) :
    i < 32 ∧ w.ready i = true ∧ (w.lane i).pc = pc := mem_activeAt.1 (execLanes_sub h)

theorem nodup_activeAt (w : Wave) (pc : CodeAddr) : (w.activeAt pc).Nodup :=
  ((List.nodup_range).filter _).filter _

theorem nodup_execLanes {c : Ctl} {q : Bool} {g : Wave} {l : List Nat} (h : l.Nodup) : (execLanes c q g l).Nodup := by
  unfold execLanes
  split
  · split
    · exact h
    · exact List.nodup_nil
  · exact h.filter _

/-- A ready lane stands in the list of lanes. -/
theorem lane_lt_length {w : Wave} {i : Nat} (h : (w.lane i).st = .ready) : i < w.lanes.length := by
  by_contra hn
  rw [Wave.lane, List.getD_eq_default _ _ (Nat.le_of_not_lt hn)] at h
  exact absurd h (by decide)

theorem lane_setLane_self {w : Wave} {i : Nat} (l : Lane) (h : i < w.lanes.length) : (w.setLane i l).lane i = l := by
  simp [Wave.setLane, Wave.lane, h]

theorem lane_setLane_ne {w : Wave} {i j : Nat} (l : Lane) (h : j ≠ i) : (w.setLane i l).lane j = w.lane j := by
  simp [Wave.setLane, Wave.lane, List.getD, List.getElem?_set, Ne.symm h]

/-! ### Pending results -/

theorem mem_pendOf {s : State} {w : Wave} {u : Use} {b : Bool} {p : Pend} :
    p ∈ s.pendOf w u b ↔ p ∈ w.pend ∧ u.names p b = true ∧ p.ready s = false := by
  simp [State.pendOf]

/-- A word with nothing pending among what it names has nothing pending among a part of that. -/
theorem pendOf_sub {s : State} {w : Wave} {u u' : Use} {b b' : Bool} (h : s.pendOf w u b = [])
    (hu : ∀ p, u'.names p b' = true → u.names p b = true) : s.pendOf w u' b' = [] := by
  rw [List.eq_nil_iff_forall_not_mem] at h ⊢
  exact fun p hp => h p (mem_pendOf.2 ⟨(mem_pendOf.1 hp).1, hu p (mem_pendOf.1 hp).2.1, (mem_pendOf.1 hp).2.2⟩)

theorem names_read {u : Use} {p : Pend} (h : u.names p false = true) : u.names p true = true := by
  unfold Use.names at h ⊢
  cases hk : p.kind <;> simp_all

/-- What is ready depends on the cycle only. -/
theorem pendOf_congr {s t : State} (w : Wave) (u : Use) (b : Bool) (h : t.ctl.cycle = s.ctl.cycle) : t.pendOf w u b = s.pendOf w u b := by
  unfold State.pendOf Pend.ready
  rw [h]

/-! ### The wave as a word reads it -/

theorem foldl_setVreg (r : Nat) (g : Nat → Word) (l : List Nat) : ∀ v : Wave,
    l.foldl (fun x i => x.setVreg r i (g i)) v = { v with vregs := l.foldl (fun c i => cellSet 0 c (32 * r + i) (g i)) v.vregs } := by
  induction l with
  | nil => exact fun _ => rfl
  | cons i l ih => intro v; simp only [List.foldl_cons, ih]; rfl

theorem vreg_foldl_same {w : Wave} {r : Nat} {g : Nat → Word} (hg : ∀ i < 32, g i = w.vreg r i) : ∀ (l : List Nat) (v : Wave),
    (∀ i ∈ l, i < 32) → (∀ q, ∀ i < 32, v.vreg q i = w.vreg q i) →
    ∀ q, ∀ i < 32, (l.foldl (fun x i => x.setVreg r i (g i)) v).vreg q i = w.vreg q i := by
  intro l
  induction l with
  | nil => exact fun v _ h => h
  | cons j l ih =>
    intro v hl hv
    refine ih _ (fun i hi => hl i (by simp [hi])) (fun q i hi => ?_)
    rw [Wave.vreg_setVreg v q i (g j) (hl j (by simp)) hi]
    split
    · rename_i h; rw [h.1, h.2, hg j (hl j (by simp))]
    · exact hv q i hi

/-- The latch changes vector registers only, and none where it holds what they hold (R158). -/
theorem seeLatch_eq (s : State) (w : Wave) (u : Use) : ∃ m, s.seeLatch w u = { w with vregs := m } := by
  unfold State.seeLatch
  split
  · exact ⟨w.vregs, rfl⟩
  · generalize (s.quad w.core w.quad).latch.filter _ = l
    suffices h : ∀ v : Wave, ∃ m, l.foldl (fun v e => (List.range 32).foldl (fun x i => x.setVreg e.reg i (e.vals.getD i 0)) v) v
        = { v with vregs := m } from h w
    induction l with
    | nil => exact fun v => ⟨v.vregs, rfl⟩
    | cons e l ih =>
      intro v
      obtain ⟨m, hm⟩ := ih ((List.range 32).foldl (fun x i => x.setVreg e.reg i (e.vals.getD i 0)) v)
      refine ⟨m, ?_⟩
      rw [List.foldl_cons, hm, foldl_setVreg]

theorem seeLatch_vreg {s : State} {w : Wave} (u : Use)
    (h : ∀ e ∈ (s.quad w.core w.quad).latch, e.slot = w.slot → ∀ i < 32, e.vals.getD i 0 = w.vreg e.reg i) :
    ∀ q, ∀ i < 32, (s.seeLatch w u).vreg q i = w.vreg q i := by
  unfold State.seeLatch
  split
  · exact fun _ _ _ => rfl
  · have hl : ∀ e ∈ (s.quad w.core w.quad).latch.filter (fun e => e.slot == w.slot && u.vr.contains e.reg && !w.isDropped e.reg),
        ∀ i < 32, e.vals.getD i 0 = w.vreg e.reg i := by
      intro e he
      simp only [List.mem_filter, Bool.and_eq_true, beq_iff_eq] at he
      exact h e he.1 he.2.1.1
    revert hl
    generalize (s.quad w.core w.quad).latch.filter _ = l
    intro hl
    suffices hh : ∀ v : Wave, (∀ q, ∀ i < 32, v.vreg q i = w.vreg q i) → ∀ q, ∀ i < 32,
        (l.foldl (fun v e => (List.range 32).foldl (fun x i => x.setVreg e.reg i (e.vals.getD i 0)) v) v).vreg q i = w.vreg q i from
      hh w (fun _ _ _ => rfl)
    induction l with
    | nil => exact fun v hv => hv
    | cons e l ih =>
      intro v hv
      rw [List.foldl_cons]
      have h1 := vreg_foldl_same (w := w) (r := e.reg) (g := fun i => e.vals.getD i 0) (hl e (by simp)) (List.range 32) v
        (fun i hi => List.mem_range.1 hi) hv
      generalize (List.range 32).foldl (fun x i => x.setVreg e.reg i (e.vals.getD i 0)) v = v1 at h1 ⊢
      exact ih (fun x hx => hl x (by simp [hx])) v1 h1

/-- With nothing pending and nothing dropped a word reads the wave but for the latch. -/
theorem view_settled {s : State} {w : Wave} {u : Use} (hp : s.pendOf w u false = []) (hd : ∀ r ∈ u.vr, w.isDropped r = false) :
    s.view w u = s.seeLatch w u := by
  obtain ⟨m, hm⟩ := seeLatch_eq s w u
  have h0 : (u.vr.dedup.filter (s.seeLatch w u).isDropped) = [] := by
    rw [hm, List.filter_eq_nil_iff]
    intro r hr
    have e : ({ w with vregs := m } : Wave).isDropped r = w.isDropped r := rfl
    rw [e, hd r (List.mem_dedup.1 hr)]
    simp
  unfold State.view
  rw [hp]
  unfold State.seeReplay
  rw [h0]
  rfl

/-- A guard is read as it stands when nothing it names is pending. -/
theorem view_guards {s : State} {w : Wave} {c : Ctl} {u : Use} (h : s.pendOf w (u.guarded c) true = []) :
    s.view w (guardsOf c u.q) = w := by
  have h1 : s.pendOf w (guardsOf c u.q) false = [] := by
    refine pendOf_sub h (fun p hp => ?_)
    unfold guardsOf Use.guarded at *
    cases hq : u.q <;> cases hk : p.kind <;> simp_all [Use.names] <;> tauto
  have h2 : (guardsOf c u.q).vr = [] := by unfold guardsOf; split <;> rfl
  rw [view_settled h1 (by simp [h2])]
  unfold State.seeLatch
  simp [h2]

/-! ### The checks -/

theorem guarded_fields (u : Use) (c : Ctl) : (u.guarded c).vr = u.vr ∧ (u.guarded c).vw = u.vw ∧ (u.guarded c).touch = u.touch ∧
    (u.guarded c).sw = u.sw ∧ (u.guarded c).q = u.q ∧ (u.guarded c).mode = u.mode ∧ (u.guarded c).roles = u.roles ∧
    (u.guarded c).impure = u.impure ∧ (u.guarded c).illegal = u.illegal ∧ (u.guarded c).badBank = u.badBank ∧
    (u.guarded c).lat = u.lat ∧ (u.guarded c).pair = u.pair ∧ (u.guarded c).pw = u.pw ∧ (u.guarded c).qw = u.qw ∧
    (u.guarded c).named = u.named := by
  unfold Use.guarded; split <;> simp

theorem outOfBlock_none {w : Wave} {u : Use} (h : ∀ r ∈ u.vr ++ u.vw ++ u.touch ++ u.named, r < w.vcount) : w.outOfBlock u = none := by
  unfold Wave.outOfBlock
  rw [List.filter_eq_nil_iff.2]
  · rfl
  · intro r hr; simpa using h r hr

theorem rematerialise_none {s : State} {w : Wave} {u : Use} (h : s.rematReg w u = none) : ∀ n, rematerialise u n s w = .ready w
  | 0 => rfl
  | n + 1 => by simp [rematerialise, h]

/-- A wave has filled no granule since itself. -/
theorem filledSince_self (w : Wave) : w.filledSince w = [] := by
  unfold Wave.filledSince
  rw [List.filter_eq_nil_iff.2]
  · rfl
  · intro k hk; simpa using hk

/-- Without a replay no lane strays (R102). -/
theorem strayLanes_nil (s : State) (w : Wave) (lanes : List Nat) : s.strayLanes w [] lanes = [] := by simp [State.strayLanes]

/-- A word that is clear runs its effect on the wave as it reads it. -/
theorem attempt_clear {u : Use} {body : Ex → Out} {s : State} {w : Wave} {pc : CodeAddr} {active lanes : List Nat} {hnd : Bool}
    (hang : w.hangArmed = false) (hl : lanes ≠ []) (hf : s.strayFetch (s.launch w.launch) pc = false)
    (hill : u.illegal = false ∧ u.badBank = false) (hm : u.mode ≤ w.mode) (hr : w.role ∈ u.roles)
    (hb : w.outOfBlock u = none) (hp : s.pendOf w u true = []) (hd : ∀ r ∈ u.vr, w.isDropped r = false)
    (hk : s.rematReg w u = none) (hpure : (s.launch w.launch).pure = false ∨ u.impure = false) :
    attempt u body s w pc active lanes hnd = (match body ⟨s, s.view w u, pc, active, lanes, hnd⟩ with
      | .hold s1 k => .out (.hold s1 k) w lanes
      | .done s1 r => .out (.done s1 r) w lanes) := by
  have hrep : w.replayed u = [] := by
    unfold Wave.replayed
    rw [List.filter_eq_nil_iff.2 (fun r hr' => by simp [hd r (List.mem_dedup.1 hr')]), List.filterMap_nil]
  have hi : ¬(u.impure = true ∧ (s.launch w.launch).pure = true) := by
    rintro ⟨a, b⟩; rcases hpure with h | h <;> simp_all
  have hrun : runBody' u body s w [] pc active lanes (if u.q then active else lanes) hnd =
      (match body ⟨s, s.view w u, pc, active, lanes, hnd⟩ with
        | .hold s1 k => .out (.hold s1 k) w lanes
        | .done s1 r => .out (.done s1 r) w lanes) := by
    unfold runBody'
    simp only [hrep, List.append_nil, strayLanes_nil, List.find?_nil, Option.map_none, List.filterMap_none, List.filter_nil, List.map_nil,
      ite_self, List.any_nil, Bool.not_false, List.filter_true, ne_eq, not_true_eq_false, and_false, if_false, if_true, List.nil_append, if_neg hi]
    exact (if_neg (by tauto)).trans rfl
  unfold attempt
  have hrole : u.roles.contains w.role = true := by simpa using hr
  have href : s.refilled w w = s := by simp [State.refilled]
  simp only [hang, hl, hf, hill.1, hill.2, Nat.not_lt.2 hm, hrole, hb, hp, rematerialise_none hk, href, filledSince_self, Bool.false_eq_true,
    if_false, false_and, Bool.not_true, ne_eq, not_true_eq_false, and_false, hrun]

/-- A word of a wave's own program that is clear: its effect on the wave as it reads it, then the hold or the booking. -/
theorem word_clear {c : Ctl} {u : Use} {body : Ex → Out} {s : State} {w : Wave} {pc : CodeAddr} (h : Clear c u s w pc) :
    word c u body s = .next (match body ⟨s, s.view w (u.guarded c), pc, w.activeAt pc, execLanes c u.q w (w.activeAt pc), false⟩ with
      | .hold s1 k => held s1 w pc k
      | .done s1 r => finish c (u.guarded c) s1 w pc (w.activeAt pc) (execLanes c u.q w (w.activeAt pc)) r) := by
  obtain ⟨g1, g2, g3, -, -, g6, g7, g8, g9, g10, -, -, -, -, g15⟩ := guarded_fields u c
  have hf : s.strayFetch (s.launch w.launch) pc = false := by
    rcases h.pure with h | h
    · simp [State.strayFetch, h]
    · exact h.2
  unfold word
  rw [h.pos.here]
  simp only [h.pos.own, h.pos.addr]
  unfold issueWord
  rw [view_guards h.settled]
  have hfetched : s.fetched w pc (execLanes c u.q w (w.activeAt pc)) = s := by unfold State.fetched; rw [hf]; simp
  simp only [hfetched]
  rw [attempt_clear h.hang h.some hf (by rw [g9, g10]; exact h.legal) (by rw [g6]; exact h.mode) (by rw [g7]; exact h.role)
    (outOfBlock_none (by rw [g1, g2, g3, g15]; exact h.block)) h.settled (by rw [g1]; exact h.kept.1) h.kept.2
    (by rw [g8]; rcases h.pure with h | h; exacts [.inl h, .inr h.1])]
  cases body ⟨s, s.view w (u.guarded c), pc, w.activeAt pc, execLanes c u.q w (w.activeAt pc), false⟩ <;> rfl

/-! ### The booking -/

/-- What the booking of a word changes in its wave: pending results, tags, the notes of R137, R139, R142, R154 and R168. -/
def Booked (x v : Wave) : Prop :=
  ∃ pd tg wr hc ha pf ni li, v = { x with
    pend := pd, tags := tg, written := wr, held := none, heldAt := none, pinned := [], sleepSince := none, hangcnt := hc, hangArmed := ha,
    perf := pf, nextIssue := ni, lastIssue := li }

/-- What the booking of a word leaves of the state outside its wave; `calm` says that no HANG is due by it (R143). -/
structure BookKept (calm : Prop) (s t : State) (core slot : Nat) : Prop where
  tasks : calm → t.tasks = s.tasks ∧ t.ctl = s.ctl
  mem : t.mem = s.mem
  ctxs : t.cores.ctxs = s.cores.ctxs
  dev : t.dev = s.dev
  cycle : t.ctl.cycle = s.ctl.cycle
  waves : ∀ c k, ¬(c = core ∧ k = slot) → t.wave? c k = s.wave? c k

theorem bookKept_refl (calm : Prop) (s : State) (core slot : Nat) : BookKept calm s s core slot := ⟨fun _ => ⟨rfl, rfl⟩, rfl, rfl, rfl, rfl, fun _ _ _ => rfl⟩

theorem bookKept_trans {calm : Prop} {s t u : State} {core slot : Nat} (h : BookKept calm s t core slot)
    (g : BookKept calm t u core slot) : BookKept calm s u core slot :=
  ⟨fun q => ⟨(g.tasks q).1.trans (h.tasks q).1, (g.tasks q).2.trans (h.tasks q).2⟩, g.mem.trans h.mem, g.ctxs.trans h.ctxs, g.dev.trans h.dev, g.cycle.trans h.cycle, fun c k n => (g.waves c k n).trans (h.waves c k n)⟩

theorem bookKept_setWave (calm : Prop) (s : State) (w : Wave) : BookKept calm s (s.setWave w) w.core w.slot :=
  ⟨fun _ => ⟨rfl, rfl⟩, rfl, rfl, rfl, rfl, fun _ _ n => State.wave?_setWave_other s w (fun e => n ⟨e.1.symm, e.2.symm⟩)⟩

theorem bookKept_setQuad (calm : Prop) (s : State) (k q : Nat) (v : Quad) (core slot : Nat) :
    BookKept calm s (s.setQuad k q v) core slot :=
  ⟨fun _ => ⟨rfl, rfl⟩, rfl, rfl, rfl, rfl, fun _ _ _ => rfl⟩

/-- R142: the wave with its count; where HANGTRAP is 0 a launch flag and an upcall. -/
theorem bookHang_spec {s : State} {w x : Wave} (p : Option Nat) (h : s.wave? w.core w.slot = some x) :
    (∃ hc ha, (s.bookHang w p).wave? w.core w.slot = some { w with hangcnt := hc, hangArmed := ha }) ∧
      BookKept ((s.tenant w.tenant).hanglim = 0 ∨ w.hangcnt + 1 ≤ (s.tenant w.tenant).hanglim) s (s.bookHang w p) w.core w.slot := by
  have put : ∀ hc ha, (s.setWave { w with hangcnt := hc, hangArmed := ha }).wave? w.core w.slot =
      some { w with hangcnt := hc, hangArmed := ha } := fun hc ha => State.wave?_setWave_self h rfl rfl
  unfold State.bookHang
  dsimp only
  split
  · exact ⟨⟨_, _, put _ _⟩, bookKept_setWave _ s _⟩
  · split
    · exact ⟨⟨_, _, put _ _⟩, bookKept_setWave _ s _⟩
    · rename_i hn
      split
      · exact ⟨⟨_, _, put _ _⟩, bookKept_setWave _ s _⟩
      · refine ⟨⟨0, w.hangArmed, put 0 w.hangArmed⟩, bookKept_trans (bookKept_setWave _ s { w with hangcnt := 0 }) ?_⟩
        exact ⟨fun q => absurd (q.imp id (fun h => (Nat.min_le_left ..).trans h)) hn, rfl, rfl, rfl, rfl, fun _ _ _ => rfl⟩

theorem bookWrites_spec {s : State} {old : Wave} {u : Use} (new : Wave) (lanes : List Nat) (base : Nat)
    (h : s.pendOf old u true = []) :
    ∃ pd tg wr, s.bookWrites old new u lanes base = { new with pend := pd, tags := tg, written := wr } := by
  unfold State.bookWrites
  split
  · exact ⟨_, _, _, rfl⟩
  · have hc : s.pendOf old { u with vr := u.vw, sr := u.sw, pr := [], qr := [] } false = [] :=
      pendOf_sub h (fun p hp => by unfold Use.names at *; cases hk : p.kind <;> simp_all)
    have : ∃ pd, s.clash old new u = { new with pend := pd } := by
      unfold State.clash
      rw [hc]
      exact ⟨_, rfl⟩
    obtain ⟨pd, hpd⟩ := this
    rw [hpd]
    exact ⟨_, _, _, rfl⟩

/-- The latch stands in the quadrant. -/
theorem bookLatch_cases (s : State) (w : Wave) (u : Use) : ∃ c, s.bookLatch w u = { s with cores := { s.cores with quads := c } } := by
  unfold State.bookLatch
  dsimp only
  split
  · exact ⟨s.cores.quads, rfl⟩
  · exact ⟨_, rfl⟩

/-- A wave with a lane that has not exited does not end. -/
theorem endWave_live {s : State} {core slot : Nat} {v : Wave} (h : s.wave? core slot = some v) (hl : v.allExited = false) :
    s.endWave core slot = s := by
  unfold State.endWave
  rw [h]
  simp [hl]

/-- The wave after its lanes have parked and advanced. -/
def Done.lanes (r : Done) (w : Wave) (pc : CodeAddr) (active : List Nat) : Wave :=
  (w.parkAll r.faults).advance pc active (r.faults.map Prod.fst) r

theorem park_other (w : Wave) (i c : Nat) (a : Word) : ∃ l, w.park i c a = { w with lanes := l } := by
  unfold Wave.park
  split
  · exact ⟨_, rfl⟩
  · exact ⟨w.lanes, rfl⟩

theorem parkAll_other (l : List (Nat × Nat × Word)) : ∀ w : Wave, ∃ m, w.parkAll l = { w with lanes := m } := by
  induction l with
  | nil => exact fun w => ⟨w.lanes, rfl⟩
  | cons p l ih =>
    intro w
    obtain ⟨a, ha⟩ := park_other w p.1 p.2.1 p.2.2
    obtain ⟨m, hm⟩ := ih (w.park p.1 p.2.1 p.2.2)
    exact ⟨m, by rw [Wave.parkAll, hm, ha]⟩

theorem moveLane_other (pc : CodeAddr) (bad : List Nat) (r : Done) (w : Wave) (i : Nat) :
    ∃ m, w.moveLane pc bad r i = { w with lanes := m } := by
  unfold Wave.moveLane
  split
  · exact ⟨w.lanes, rfl⟩
  · exact ⟨_, rfl⟩

theorem advance_other (pc : CodeAddr) (bad : List Nat) (r : Done) (active : List Nat) : ∀ w : Wave,
    ∃ m, w.advance pc active bad r = { w with lanes := m } := by
  unfold Wave.advance
  induction active with
  | nil => exact fun w => ⟨w.lanes, rfl⟩
  | cons i l ih =>
    intro w
    obtain ⟨a, ha⟩ := moveLane_other pc bad r w i
    obtain ⟨m, hm⟩ := ih (w.moveLane pc bad r i)
    exact ⟨m, by rw [List.foldl_cons, hm, ha]⟩

theorem doneLanes_other (r : Done) (w : Wave) (pc : CodeAddr) (active : List Nat) : ∃ m, r.lanes w pc active = { w with lanes := m } := by
  obtain ⟨a, ha⟩ := parkAll_other r.faults w
  obtain ⟨m, hm⟩ := advance_other pc (r.faults.map Prod.fst) r active (w.parkAll r.faults)
  exact ⟨m, by rw [Done.lanes, hm, ha]⟩

/-- Parking and advancing look at the lanes only. -/
theorem doneLanes_congr (r : Done) (pc : CodeAddr) (active : List Nat) {w x : Wave} (h : w.lanes = x.lanes) :
    (r.lanes w pc active).lanes = (r.lanes x pc active).lanes := by
  have hpark : ∀ (l : List (Nat × Nat × Word)) (w x : Wave), w.lanes = x.lanes → (w.parkAll l).lanes = (x.parkAll l).lanes := by
    intro l
    induction l with
    | nil => exact fun _ _ h => h
    | cons p l ih =>
      intro w x h
      refine ih _ _ ?_
      have hl : w.lane p.1 = x.lane p.1 := by simp [Wave.lane, h]
      unfold Wave.park
      rw [hl]
      split <;> simp [Wave.setLane, h]
  have hadv : ∀ (l : List Nat) (w x : Wave), w.lanes = x.lanes →
      (w.advance pc l (r.faults.map Prod.fst) r).lanes = (x.advance pc l (r.faults.map Prod.fst) r).lanes := by
    intro l
    induction l with
    | nil => exact fun _ _ h => h
    | cons i l ih =>
      intro w x h
      refine ih _ _ ?_
      have hl : w.lane i = x.lane i := by simp [Wave.lane, h]
      unfold Wave.moveLane
      rw [hl]
      split <;> simp [Wave.setLane, h]
  exact hadv _ _ _ (hpark _ _ _ h)

theorem bookHang_mk {s : State} {w x : Wave} (p : Option Nat) (h : s.wave? w.core w.slot = some x) :
    ∃ t hc ha, s.bookHang w p = t ∧ t.wave? w.core w.slot = some { w with hangcnt := hc, hangArmed := ha } ∧
      BookKept ((s.tenant w.tenant).hanglim = 0 ∨ w.hangcnt + 1 ≤ (s.tenant w.tenant).hanglim) s t w.core w.slot := by
  obtain ⟨⟨hc, ha, h1⟩, h2⟩ := bookHang_spec p h
  exact ⟨_, hc, ha, rfl, h1, h2⟩

/-- The last steps of the booking. -/
theorem bookTail {s : State} {w3 x y : Wave} {core slot : Nat} (p : Option Nat) (yld : Bool) (extra : Nat)
    (hc : w3.core = core) (hk : w3.slot = slot) (h : s.wave? core slot = some x) (hl : w3.allExited = false)
    (hy : ∀ hc ha, Booked y { w3 with hangcnt := hc, hangArmed := ha }) :
    ∃ v, (((s.bookHang w3 p).bookQuad w3 yld extra).endWave core slot).wave? core slot = some v ∧ Booked y v ∧
      BookKept ((s.tenant w3.tenant).hanglim = 0 ∨ w3.hangcnt + 1 ≤ (s.tenant w3.tenant).hanglim) s
        (((s.bookHang w3 p).bookQuad w3 yld extra).endWave core slot) core slot := by
  subst hc hk
  obtain ⟨t, a, b, e, h1, h2⟩ := bookHang_mk p h
  rw [e]
  have h3 : (t.bookQuad w3 yld extra).wave? w3.core w3.slot = some { w3 with hangcnt := a, hangArmed := b } := h1
  rw [endWave_live h3 hl]
  exact ⟨_, h3, hy a b, bookKept_trans h2 (bookKept_setQuad _ t _ _ _ _ _)⟩

/-- The end of a word of the wave's own program, with nothing pending among what it names: the wave as its effect left it, its lanes
parked or advanced, and the booking; nothing else changes. -/
theorem finish_live {c : Ctl} {u : Use} {s : State} {old w0 : Wave} {pc : CodeAddr} {active lanes : List Nat} {r : Done}
    (hw : s.wave? old.core old.slot = some w0) (hown : old.hnd = none) (hp : s.pendOf old u true = [])
    (hl : (r.lanes w0 pc active).allExited = false) :
    ∃ v, (finish c u s old pc active lanes r).wave? old.core old.slot = some v ∧ Booked (r.lanes w0 pc active) v ∧
      BookKept ((s.tenant w0.tenant).hanglim = 0 ∨ w0.hangcnt + 1 ≤ (s.tenant w0.tenant).hanglim) s
        (finish c u s old pc active lanes r) old.core old.slot := by
  obtain ⟨hcore, hslot⟩ := State.wave?_core hw
  unfold finish
  rw [hw]
  dsimp only
  rw [hown]
  dsimp only
  generalize hx : s.ctl.cycle + (if u.pair = true ∨ lanes.length = 0 then 0 else
    bankExtra (u.vr.filter (fun x => !(s.quad old.core old.quad).latch.any (fun e => e.slot == old.slot && e.reg == x)))) = base
  obtain ⟨pd, tg, wr, hb⟩ := bookWrites_spec w0 (lanes.filter (fun i => !(r.faults.map Prod.fst).contains i)) base hp
  rw [hb]
  obtain ⟨m, hm⟩ := doneLanes_other r w0 pc active
  obtain ⟨m', hm'⟩ := doneLanes_other r ({ w0 with pend := pd, tags := tg, written := wr } : Wave) pc active
  have hmm : m' = m := by
    have := doneLanes_congr r pc active (w := { w0 with pend := pd, tags := tg, written := wr }) (x := w0) rfl
    rw [hm, hm'] at this
    exact this
  have hlanes : (({ w0 with pend := pd, tags := tg, written := wr } : Wave).parkAll r.faults).advance pc active (r.faults.map Prod.fst) r =
      { w0 with pend := pd, tags := tg, written := wr, lanes := m } := by rw [← hmm]; exact hm'
  rw [hlanes, hp]
  rw [hm] at hl ⊢
  generalize hs1 : (if lanes.length = 0 then s else s.bookLatch old u) = s1
  have h1 : s1.wave? old.core old.slot = some w0 ∧ s1.tasks = s.tasks ∧
      BookKept ((s.tenant w0.tenant).hanglim = 0 ∨ w0.hangcnt + 1 ≤ (s.tenant w0.tenant).hanglim) s s1 old.core old.slot := by
    rw [← hs1]
    split
    · exact ⟨hw, rfl, bookKept_refl _ _ _ _⟩
    · obtain ⟨q, hq⟩ := bookLatch_cases s old u
      rw [hq]
      exact ⟨hw, rfl, ⟨fun _ => ⟨rfl, rfl⟩, rfl, rfl, rfl, rfl, fun _ _ _ => rfl⟩⟩
  rw [if_pos rfl]
  have hrel : ({ w0 with pend := pd, tags := tg, written := wr, lanes := m } : Wave).released old =
      { w0 with pend := pd, tags := tg, written := wr, lanes := m, held := none, heldAt := none, pinned := [], sleepSince := none } := by
    unfold Wave.released
    rw [hown]
  rw [hrel]
  dsimp only [Wave.stamped, Wave.bookPerf, Wave.bump]
  obtain ⟨v, a, b, k⟩ := bookTail (y := { w0 with lanes := m }) (x := w0) (w3 := { w0 with
    lanes := m, pend := pd, tags := tg, written := wr, held := none, heldAt := none, pinned := [], sleepSince := none, nextIssue := _, lastIssue := _, perf := _ })
    _ _ _ hcore hslot h1.1 (by simpa [Wave.allExited] using hl) (fun hc ha => ⟨pd, tg, wr, hc, ha, _, _, _, rfl⟩)
  have ht : ∀ n, s1.tenant n = s.tenant n := fun n => by unfold State.tenant; rw [h1.2.1]
  rw [ht] at k
  exact ⟨v, a, b, bookKept_trans h1.2.2 k⟩

end Sys2Proof.Machine
end

