-- ==== Sys2Proof/Laws/Memory.lean ====
section
/-! SUPPORT. Main memory: reading bytes after writing, what the shared memory operations change, and that each keeps the canonical form of
memory and of the frame table. -/
namespace Sys2Proof.Machine

/-! ### Bytes and numbers -/

@[simp] theorem bytesOf_length (n v : Nat) : (bytesOf n v).length = n := by
  induction n generalizing v with
  | zero => rfl
  | succ n ih => simp [bytesOf, ih]

theorem natOfBytes_bytesOf (n : Nat) : ∀ v, natOfBytes (bytesOf n v) = v % 256 ^ n := by
  induction n with
  | zero => intro v; simp [bytesOf, natOfBytes, Nat.mod_one]
  | succ n ih =>
    intro v
    simp only [bytesOf, natOfBytes, ih, BitVec.toNat_ofNat]
    have h8 : (2 : Nat) ^ 8 = 256 := rfl
    rw [h8, Nat.pow_add_one', Nat.mod_mul]

theorem ofNat_natOfBytes (v : Nat) : BitVec.ofNat 64 (natOfBytes (bytesOf 8 v)) = BitVec.ofNat 64 v := by
  rw [natOfBytes_bytesOf]
  apply BitVec.eq_of_toNat_eq
  simp only [BitVec.toNat_ofNat]
  omega

/-! ### Reading after writing -/

theorem cellGetMany_length {α : Type} (d : α) (c : Cells α) (i n : Nat) : (cellGetMany d c i n).length = n := by simp [cellGetMany]

theorem cellGetMany_cellSetMany {α : Type} [DecidableEq α] (d : α) (c : Cells α) (i : Nat) (l : List α) :
    cellGetMany d (cellSetMany d c i l) i l.length = l := by
  apply List.ext_getElem (by simp [cellGetMany])
  intro k h1 h2
  have hk : i ≤ i + k ∧ i + k < i + l.length := by omega
  simp only [cellGetMany, List.getElem_map, List.getElem_range]
  rw [cellGet_cellSetMany]
  simp [hk, h2]

theorem cellGetMany_congr {α : Type} (d : α) {c e : Cells α} {i n : Nat} (h : ∀ k < n, cellGet d e (i + k) = cellGet d c (i + k)) :
    cellGetMany d e i n = cellGetMany d c i n := by
  apply List.map_congr_left
  intro k hk
  exact h k (List.mem_range.mp hk)

theorem State.readMem_writeMem (s : State) (a : Nat) (l : List Byte) : (s.writeMem a l).readMem a l.length = l :=
  cellGetMany_cellSetMany 0 s.mem.bytes a l

theorem State.readMem_congr {s t : State} {a n : Nat} (h : ∀ k < n, t.byte (a + k) = s.byte (a + k)) : t.readMem a n = s.readMem a n :=
  cellGetMany_congr 0 h

/-! ### What the shared operations change -/

/-- An access of the L2 changes what its ways hold, and nothing else (R245, R246). -/
theorem State.l2Access_eq (s : State) (ma e : Nat) (b : Bool) (k : Option Nat) :
    ∃ l, s.l2Access ma e b k = { s with mem := { s.mem with l2 := l, l2tick := s.mem.l2tick + 1 } } := by
  simp only [State.l2Access]
  cases s.l2Hit ma with
  | some w =>
    cases h : s.l2Way (l2Key ma) w with
    | some x => simp only [h]; exact ⟨_, rfl⟩
    | none => simp only [h]; exact ⟨s.mem.l2, rfl⟩
  | none =>
    cases h : s.l2Victim ma (s.waymask (s.frame (mfnOf ma)).owner (dieOf ma)) with
    | some x => simp only [h]; exact ⟨_, rfl⟩
    | none => simp only [h]; exact ⟨s.mem.l2, rfl⟩

/-- Clearing watch records changes those alone (R318). -/
theorem State.clearWatch_eq (s : State) (ma n : Nat) : ∃ l, s.clearWatch ma n = { s with mem := { s.mem with watch := l } } := by
  unfold State.clearWatch
  generalize List.range ((ma % 32 + n + 31) / 32) = r
  induction r generalizing s with
  | nil => exact ⟨s.mem.watch, rfl⟩
  | cons i r ih =>
    obtain ⟨l, hl⟩ := ih (s.setWatch (ma + 32 * i) none)
    exact ⟨l, by rw [List.foldl_cons, hl]; rfl⟩

/-- What writes leave on bytes is tags and cleared watch records (R303, R318). -/
theorem State.leaveTags_eq (s : State) (l : List (Nat × Nat × Option WTag)) :
    ∃ w k, s.leaveTags l = { s with mem := { s.mem with wtags := w, watch := k } } := by
  unfold State.leaveTags
  induction l generalizing s with
  | nil => exact ⟨s.mem.wtags, s.mem.watch, rfl⟩
  | cons p l ih =>
    rw [List.foldl_cons]
    dsimp only
    split
    · obtain ⟨k, hk⟩ := (s.setTags p.1 p.2.1 p.2.2).clearWatch_eq p.1 p.2.1
      rw [hk]
      obtain ⟨w, x, h⟩ := ih { s.setTags p.1 p.2.1 p.2.2 with mem := { (s.setTags p.1 p.2.1 p.2.2).mem with watch := k } }
      exact ⟨w, x, h⟩
    · obtain ⟨w, x, h⟩ := ih (s.setTags p.1 p.2.1 p.2.2)
      exact ⟨w, x, h⟩

/-- A device's store changes its bytes, their frame's stamp, their tags, their watch records and the L2, and nothing else (R94, R303,
R318). -/
theorem State.deviceStore_eq (s : State) (ma : Nat) (l : List Byte) (tag : Option WTag) :
    ∃ w k n x, s.deviceStore ma l tag = { s with mem := { s.mem with
      bytes := cellSetMany 0 s.mem.bytes ma l, wtags := w, l2 := k, l2tick := n, watch := x,
      frames := cellSet Frame.free s.mem.frames (mfnOf ma) { s.frame (mfnOf ma) with stamp := s.clock (mfnOf ma / 2 ^ 21) } } } := by
  obtain ⟨k, hk⟩ := s.l2Access_eq ma 0 true none
  unfold State.deviceStore
  rw [hk]
  obtain ⟨x, hx⟩ := State.clearWatch_eq ((({ s with mem := { s.mem with l2 := k, l2tick := s.mem.l2tick + 1 } } : State).homeWrite none ma l).setTags
    ma l.length tag) ma l.length
  exact ⟨_, k, s.mem.l2tick + 1, x, hx⟩

theorem State.readMem_deviceStore (s : State) (ma : Nat) (l : List Byte) (tag : Option WTag) :
    (s.deviceStore ma l tag).readMem ma l.length = l := by
  obtain ⟨w, k, n, x, h⟩ := s.deviceStore_eq ma l tag
  rw [h]
  exact cellGetMany_cellSetMany 0 s.mem.bytes ma l

theorem State.byte_deviceStore_out (s : State) (ma : Nat) (l : List Byte) (tag : Option WTag) {m : Nat} (hm : m < ma ∨ ma + l.length ≤ m) :
    (s.deviceStore ma l tag).byte m = s.byte m := by
  obtain ⟨w, k, n, x, h⟩ := s.deviceStore_eq ma l tag
  rw [h]
  exact cellGet_cellSetMany_out 0 l s.mem.bytes hm

theorem State.readWord_deviceStore (s : State) (ma v : Nat) (tag : Option WTag) :
    (s.deviceStore ma (bytesOf 8 v) tag).readWord ma = BitVec.ofNat 64 v := by
  have h := s.readMem_deviceStore ma (bytesOf 8 v) tag
  simp only [bytesOf_length] at h
  simp [State.readWord, h, ofNat_natOfBytes]

theorem State.readWord_congr {s t : State} {a : Nat} (h : ∀ k < 8, t.byte (a + k) = s.byte (a + k)) : t.readWord a = s.readWord a := by
  simp [State.readWord, State.readMem_congr h]

/-! ### The canonical form -/

/-- Main memory and the frame table are in canonical form. -/
def State.memForm (s : State) : Prop := cellWf 0 s.mem.bytes = true ∧ cellWf Frame.free s.mem.frames = true

theorem reset_memForm : State.reset.memForm := ⟨by decide, by decide⟩

theorem memForm_mem {s t : State} (h : s.memForm) (hb : t.mem.bytes = s.mem.bytes) (hf : t.mem.frames = s.mem.frames) : t.memForm := by
  unfold State.memForm
  rw [hb, hf]
  exact h

theorem memForm_writeMem {s : State} (h : s.memForm) (a : Nat) (l : List Byte) : (s.writeMem a l).memForm :=
  ⟨cellWf_cellSetMany l a h.1, h.2⟩

theorem memForm_setFrame {s : State} (h : s.memForm) (m : Nat) (f : Frame) : (s.setFrame m f).memForm := ⟨h.1, cellWf_cellSet m f h.2⟩

theorem memForm_stampFrame {s : State} (h : s.memForm) (m : Nat) : (s.stampFrame m).memForm := memForm_setFrame h m _

theorem memForm_l2Access {s : State} (h : s.memForm) (ma e : Nat) (b : Bool) (k : Option Nat) : (s.l2Access ma e b k).memForm := by
  obtain ⟨l, hl⟩ := s.l2Access_eq ma e b k
  rw [hl]
  exact h

theorem memForm_protWrite {s : State} (h : s.memForm) (k ma : Nat) (l : List Byte) : (s.protWrite k ma l).memForm := by
  unfold State.protWrite
  exact memForm_stampFrame (memForm_writeMem (memForm_writeMem h _ _) _ _) _

theorem memForm_homeWrite {s : State} (h : s.memForm) (k : Option Nat) (ma : Nat) (l : List Byte) : (s.homeWrite k ma l).memForm := by
  unfold State.homeWrite
  cases k with
  | none => exact memForm_stampFrame (memForm_writeMem h ma l) _
  | some k => exact memForm_stampFrame (memForm_protWrite h k ma l) _

theorem memForm_l1Store {s : State} (h : s.memForm) (core ma n : Nat) : (s.l1Store core ma n).memForm := by
  unfold State.l1Store
  split
  · exact h
  · dsimp only
    split
    · exact h
    · split <;> exact h

theorem memForm_leaveTags {s : State} (h : s.memForm) (l : List (Nat × Nat × Option WTag)) : (s.leaveTags l).memForm := by
  obtain ⟨w, k, e⟩ := s.leaveTags_eq l
  rw [e]
  exact h

theorem memForm_l1Fold (l : List (Nat × Nat × Option WTag)) : ∀ {s : State}, s.memForm → ∀ core : Nat,
    (l.foldl (fun t p => t.l1Store core p.1 p.2.1) s).memForm := by
  induction l with
  | nil => exact fun h _ => h
  | cons p l ih => exact fun h core => ih (memForm_l1Store h core p.1 p.2.1) core

theorem memForm_homeDo {s t : State} (h : s.memForm) {core ten e ma n : Nat} {k : Option Nat} {tags : List (Nat × Nat × Option WTag)}
    {new : List Byte → Option (List Byte)} {old : List Byte} (hd : s.homeDo core ten k e ma n tags new = .done t old) : t.memForm := by
  have hl : ∀ b, (s.l2Access ma e b k).memForm := fun b => memForm_l2Access h ma e b k
  have h3 : ∀ l, (((s.l2Access ma e true k).homeWrite k ma l).leaveTags tags).memForm := fun l =>
    memForm_leaveTags (memForm_homeWrite (hl true) k ma l) tags
  simp only [State.homeDo] at hd
  split at hd
  · cases hd
  · split at hd
    · cases hd
    · split at hd
      · cases hd
        exact hl false
      · cases hd
        split
        · exact memForm_l1Store (h3 _) _ _ _
        · exact memForm_l1Fold tags (h3 _) core

/-! ### Tokens and requests (R249, R255) -/

/-- Two states differ in caches, buckets, retries and the count of free values at most. -/
def State.cachesOnly (s t : State) : Prop :=
  t = { s with
    ctl := { s.ctl with fresh := t.ctl.fresh }
    mem := { s.mem with
      netTok := t.mem.netTok, sliceTok := t.mem.sliceTok, retries := t.mem.retries, l1 := t.mem.l1, l2 := t.mem.l2, l2tick := t.mem.l2tick,
      tcache := t.mem.tcache } }

theorem State.cachesOnly.trans {s t u : State} (h : s.cachesOnly t) (k : t.cachesOnly u) : s.cachesOnly u := by
  unfold State.cachesOnly at *
  rw [k, h]

theorem memForm_cachesOnly {s t : State} (h : s.memForm) (k : s.cachesOnly t) : t.memForm :=
  memForm_mem h (congrArg (fun x => x.mem.bytes) k) (congrArg (fun x => x.mem.frames) k)

/-- Tokens taken change the buckets alone. -/
theorem State.takeStops_keeps {s t : State} {ten : Nat} {l : List Nat} (h : s.takeStops ten l = some t) : s.cachesOnly t := by
  unfold State.takeStops at h
  dsimp only at h
  split at h
  · cases h; rfl
  · split at h
    · cases h
    · cases h; rfl

theorem State.takeSlice_keeps {s t : State} {ten ma : Nat} (h : s.takeSlice ten ma = some t) : s.cachesOnly t := by
  unfold State.takeSlice at h
  dsimp only at h
  split at h
  · cases h; rfl
  · split at h
    · cases h
    · cases h; rfl

theorem State.dropRetry_keeps (s : State) (who : Requester) : s.cachesOnly (s.dropRetry who) := by
  unfold State.dropRetry
  split <;> rfl

/-- What a request does, accepted or not: tokens are taken and a retry is noted or dropped. -/
theorem State.request_keeps {s t : State} {stop ten ma n : Nat} {who : Requester}
    (h : s.request stop ten ma who n = .ok t ∨ s.request stop ten ma who n = .error t) : s.cachesOnly t := by
  unfold State.request at h
  by_cases hr : s.retryHolds stop ten ma who
  · simp only [hr, if_true, reduceCtorEq, Except.error.injEq, false_or] at h
    exact h ▸ rfl
  · simp only [hr, if_false, Bool.false_eq_true] at h
    cases h1 : s.takeStops ten (s.stopsFor stop ma n) with
    | none =>
      simp only [h1, reduceCtorEq, Except.error.injEq, false_or] at h
      exact h ▸ rfl
    | some a =>
      have k1 := State.takeStops_keeps h1
      cases h2 : a.takeSlice ten ma with
      | none =>
        simp only [h1, h2, reduceCtorEq, Except.error.injEq, false_or] at h
        exact k1.trans (h ▸ rfl)
      | some b =>
        simp only [h1, h2, Except.ok.injEq, reduceCtorEq, or_false] at h
        exact h ▸ (k1.trans (State.takeSlice_keeps h2)).trans (b.dropRetry_keeps who)

theorem memForm_homeAccess {s t : State} (h : s.memForm) {core ten e ma n : Nat} {who : Requester} {k : Option Nat}
    {tags : List (Nat × Nat × Option WTag)} {new : List Byte → Option (List Byte)} {old : List Byte}
    (hd : s.homeAccess core ten who k e ma n tags new = .done t old) : t.memForm := by
  unfold State.homeAccess at hd
  split at hd
  · cases hd
  · split at hd
    · cases hd
    · rename_i s1 h1
      exact memForm_homeDo (memForm_cachesOnly h (State.request_keeps (.inl h1))) hd

/-- What a fetch leaves changes caches and the count of free values, and nothing else (R222, R226, R245). -/
theorem State.fetchFills_keeps (s : State) (w : Wave) (pc : CodeAddr) : s.cachesOnly (s.fetchFills w pc) := by
  have hc : ∀ e, s.cachesOnly (s.cacheTlb w.core w.tenant e) := by
    intro e; unfold State.cacheTlb; dsimp only; split <;> rfl
  have hf : ∀ (t : State) (ma : Nat), t.cachesOnly ((t.l2Access ma 0 false none).l1Fill w.core ma 0) := by
    intro t ma
    obtain ⟨l, hl⟩ := t.l2Access_eq ma 0 false none
    rw [hl]
    unfold State.l1Fill
    dsimp only
    split <;> rfl
  unfold State.fetchFills
  split
  · rename_i e _ _
    have h2 : s.cachesOnly (match s.fetchFrom w pc with
        | some ma => ((s.cacheTlb w.core w.tenant e).l2Access ma 0 false none).l1Fill w.core ma 0
        | none => s.cacheTlb w.core w.tenant e) := by
      split
      · exact (hc e).trans (hf _ _)
      · exact hc e
    dsimp only
    split
    · split
      · exact h2.trans rfl
      · exact h2
    · exact h2
  · rfl

theorem memForm_fetchFills {s : State} (h : s.memForm) (w : Wave) (pc : CodeAddr) : (s.fetchFills w pc).memForm :=
  memForm_cachesOnly h (s.fetchFills_keeps w pc)

theorem memForm_deviceStore {s : State} (h : s.memForm) (ma : Nat) (l : List Byte) (tag : Option WTag) : (s.deviceStore ma l tag).memForm := by
  unfold State.deviceStore
  obtain ⟨x, hx⟩ := State.clearWatch_eq (((s.l2Access ma 0 true none).homeWrite none ma l).setTags ma l.length tag) ma l.length
  rw [hx]
  exact memForm_homeWrite (memForm_l2Access h ma 0 true none) none ma l

theorem memForm_releaseFrame {s : State} (h : s.memForm) (m : Nat) : (s.releaseFrame m).memForm :=
  by
  have k : ((s.setMem { s.mem with
      bytes := s.mem.bytes.filter (fun c => c.1 / 2 ^ 16 != m),
      wtags := s.mem.wtags.filter (fun c => c.1 / 2 ^ 16 != m),
      watch := s.mem.watch.filter (fun r => 32 * r.sector / 2 ^ 16 != m) }).setFrame m
      { Frame.free with gen := ((s.frame m).gen + 1) % 256, incs := (s.frame m).incs + 1, stamp := (s.frame m).stamp }).memForm :=
    ⟨cellWf_filter _ h.1, cellWf_cellSet m _ h.2⟩
  unfold State.releaseFrame
  dsimp only
  split
  · exact memForm_setFrame k _ _
  · exact k

/-- Entries changed in place, those that become as unlisted ones left out. -/
theorem cellWfFrom_mapFilter {α : Type} [DecidableEq α] {d : α} (f : Nat × α → α) : ∀ {lo : Nat} {c : Cells α},
    cellWfFrom d lo c = true → cellWfFrom d lo ((c.map (fun p => (p.1, f p))).filter (fun p => p.2 != d)) = true
  | _, [], _ => rfl
  | lo, (k, v) :: l, h => by
    simp only [cellWfFrom, Bool.and_eq_true, decide_eq_true_eq] at h
    have ih := cellWfFrom_mapFilter f (c := l) h.2
    by_cases hk : f (k, v) = d
    · simp only [List.map_cons, List.filter_cons, hk]
      simpa using cellWfFrom_mono ih (by omega)
    · simp only [List.map_cons, List.filter_cons]
      simp [hk, cellWfFrom, ih, h.1.1]

theorem cellWf_mapFilter {α : Type} [DecidableEq α] {d : α} {c : Cells α} (f : Nat × α → α) (h : cellWf d c = true) :
    cellWf d ((c.map (fun p => (p.1, f p))).filter (fun p => p.2 != d)) = true := cellWfFrom_mapFilter f h

/-- Entries below a key read as unlisted. -/
theorem cellGet_low {α : Type} [DecidableEq α] {d : α} {lo i : Nat} (hi : i < lo) : ∀ {c : Cells α}, cellWfFrom d lo c = true → cellGet d c i = d
  | [], _ => rfl
  | (k, v) :: l, h => by
    simp only [cellWfFrom, Bool.and_eq_true, decide_eq_true_eq] at h
    have : i ≠ k := by omega
    simp only [cellGet, this, if_false]
    exact cellGet_low (lo := k + 1) (by omega) h.2

theorem cellGet_mapFilter {α : Type} [DecidableEq α] {d : α} (f : Nat × α → α) {i : Nat} :
    ∀ {lo : Nat} {c : Cells α}, cellWfFrom d lo c = true →
      cellGet d ((c.map (fun p => (p.1, f p))).filter (fun p => p.2 != d)) i = if c.any (fun p => p.1 == i) then f (i, cellGet d c i) else d
  | _, [], _ => by simp [cellGet]
  | lo, (k, v) :: l, h => by
    simp only [cellWfFrom, Bool.and_eq_true, decide_eq_true_eq] at h
    have ih := cellGet_mapFilter f (i := i) (c := l) h.2
    have hlow : i = k → cellGet d ((l.map (fun p => (p.1, f p))).filter (fun p => p.2 != d)) i = d := fun e =>
      cellGet_low (by omega) (cellWfFrom_mapFilter f h.2)
    by_cases hik : i = k
    · subst hik
      by_cases hd : f (i, v) = d
      · simpa [hd, cellGet] using hlow rfl
      · simp [hd, cellGet]
    · have hki : (k == i) = false := by simpa using fun e : k = i => hik e.symm
      by_cases hd : f (k, v) = d
      · simp only [List.map_cons, List.filter_cons, hd]
        simp only [List.any_cons, hki, Bool.false_or, cellGet, hik, if_false]
        simpa using ih
      · simp only [List.map_cons, List.filter_cons]
        simp only [List.any_cons, hki, Bool.false_or, cellGet, hik, if_false]
        simpa [hd, cellGet, hik] using ih

/-- The same where the change leaves what an unlisted key reads as. -/
theorem cellGet_change {α : Type} [DecidableEq α] {d : α} (f : Nat × α → α) {i : Nat} {c : Cells α} (h : cellWf d c = true)
    (hd : f (i, d) = d) : cellGet d ((c.map (fun p => (p.1, f p))).filter (fun p => p.2 != d)) i = f (i, cellGet d c i) := by
  rw [cellGet_mapFilter f h]
  split
  · rfl
  · rename_i hn
    have hi : cellGet d c i = d := by
      clear h hd
      induction c with
      | nil => rfl
      | cons p l ih =>
        simp only [List.any_cons, Bool.or_eq_true, beq_iff_eq, not_or] at hn
        have : i ≠ p.1 := fun e => hn.1 e.symm
        simp only [cellGet, this, if_false]
        exact ih hn.2
    rw [hi, hd]

end Sys2Proof.Machine
end

