-- ==== Sys2Proof/Laws/PerInstr.lean ====
section
/-! SUPPORT. For each instruction: the fields of its word fit their places and read back as it (family RoundTrip). -/
namespace Sys2Proof.Laws.RoundTrip

/-- A well-formed instruction's fields fit, and the decoder's reading of them is the instruction. -/
def Statement (i : Instr) : Prop := ∀ f, wellFormed i = true → fieldsOf i = some f → f.Fits ∧ ofFields f = some i

section
set_option Elab.async false

theorem nop (c : Ctl) : Statement (.nop c) := by
  intro f hw hf
  obtain rfl : Fields.reg c 0x000 0 0 0 0 0 0 = f := Option.some.inj hf
  clear hf
  obtain ⟨hc, hw⟩ := ctlFits_of hw
  simp only [List.all_cons, List.all_nil, Bool.and_true] at hw
  have hf : (Fields.reg c 0x000 0 0 0 0 0 0).Fits := Fields.fits_reg hc (by omega) (by omega) (by omega) (by omega) (by omega) (by omega) (by omega)
  refine ⟨hf, ?_⟩
  show some (Instr.nop _) = _
  rw [Option.some.injEq, Instr.nop.injEq]
  exact Fields.ctl_reg hc ..

theorem bra (c : Ctl) (off : Int) (h : Hint) : Statement (.bra c off h) := by
  intro f hw hf
  obtain rfl : Fields.br c 0x001 off h.code = f := Option.some.inj hf
  clear hf
  obtain ⟨hc, hw⟩ := ctlFits_of hw
  simp only [List.all_cons, List.all_nil, Bool.and_true, Bool.and_eq_true, decide_eq_true_eq, WF.broff] at hw
  have k0 := h.code_lt
  have hf : (Fields.br c 0x001 off h.code).Fits := Fields.fits_br hc _ (by omega) (by omega)
  refine ⟨hf, ?_⟩
  show some (Instr.bra _ _ _) = _
  rw [Option.some.injEq, Instr.bra.injEq]
  exact ⟨Fields.ctl_br hc .., Fields.off28_br _ _ _ (by omega), (congrArg Hint.ofCode (show _ = h.code from by dsimp only [Fields.reg, Fields.mem, Fields.br]; omega)).trans (Hint.ofCode_code h)⟩

theorem brx (c : Ctl) (a : Nat) : Statement (.brx c a) := by
  intro f hw hf
  obtain rfl : Fields.reg c 0x002 0 a 0 0 0 0 = f := Option.some.inj hf
  clear hf
  obtain ⟨hc, hw⟩ := ctlFits_of hw
  simp only [List.all_cons, List.all_nil, Bool.and_true, Bool.and_eq_true, decide_eq_true_eq, WF.v] at hw
  have hf : (Fields.reg c 0x002 0 a 0 0 0 0).Fits := Fields.fits_reg hc (by omega) (by omega) (by omega) (by omega) (by omega) (by omega) (by omega)
  refine ⟨hf, ?_⟩
  show some (Instr.brx _ _) = _
  rw [Option.some.injEq, Instr.brx.injEq]
  exact ⟨Fields.ctl_reg hc .., rfl⟩

theorem call (c : Ctl) (off : Int) (h : Hint) : Statement (.call c off h) := by
  intro f hw hf
  obtain rfl : Fields.br c 0x003 off h.code = f := Option.some.inj hf
  clear hf
  obtain ⟨hc, hw⟩ := ctlFits_of hw
  simp only [List.all_cons, List.all_nil, Bool.and_true, Bool.and_eq_true, decide_eq_true_eq, WF.broff] at hw
  have k0 := h.code_lt
  have hf : (Fields.br c 0x003 off h.code).Fits := Fields.fits_br hc _ (by omega) (by omega)
  refine ⟨hf, ?_⟩
  show some (Instr.call _ _ _) = _
  rw [Option.some.injEq, Instr.call.injEq]
  exact ⟨Fields.ctl_br hc .., Fields.off28_br _ _ _ (by omega), (congrArg Hint.ofCode (show _ = h.code from by dsimp only [Fields.reg, Fields.mem, Fields.br]; omega)).trans (Hint.ofCode_code h)⟩

theorem ret (c : Ctl) : Statement (.ret c) := by
  intro f hw hf
  obtain rfl : Fields.reg c 0x004 0 0 0 0 0 0 = f := Option.some.inj hf
  clear hf
  obtain ⟨hc, hw⟩ := ctlFits_of hw
  simp only [List.all_cons, List.all_nil, Bool.and_true] at hw
  have hf : (Fields.reg c 0x004 0 0 0 0 0 0).Fits := Fields.fits_reg hc (by omega) (by omega) (by omega) (by omega) (by omega) (by omega) (by omega)
  refine ⟨hf, ?_⟩
  show some (Instr.ret _) = _
  rw [Option.some.injEq, Instr.ret.injEq]
  exact Fields.ctl_reg hc ..

theorem brau (c : Ctl) (off : Int) (h : Hint) : Statement (.brau c off h) := by
  intro f hw hf
  obtain rfl : Fields.br c 0x005 off h.code = f := Option.some.inj hf
  clear hf
  obtain ⟨hc, hw⟩ := ctlFits_of hw
  simp only [List.all_cons, List.all_nil, Bool.and_true, Bool.and_eq_true, decide_eq_true_eq, WF.broff] at hw
  have k0 := h.code_lt
  have hf : (Fields.br c 0x005 off h.code).Fits := Fields.fits_br hc _ (by omega) (by omega)
  refine ⟨hf, ?_⟩
  show some (Instr.brau _ _ _) = _
  rw [Option.some.injEq, Instr.brau.injEq]
  exact ⟨Fields.ctl_br hc .., Fields.off28_br _ _ _ (by omega), (congrArg Hint.ofCode (show _ = h.code from by dsimp only [Fields.reg, Fields.mem, Fields.br]; omega)).trans (Hint.ofCode_code h)⟩

theorem rcv (c : Ctl) : Statement (.rcv c) := by
  intro f hw hf
  obtain rfl : Fields.reg c 0x006 0 0 0 0 0 0 = f := Option.some.inj hf
  clear hf
  obtain ⟨hc, hw⟩ := ctlFits_of hw
  simp only [List.all_cons, List.all_nil, Bool.and_true] at hw
  have hf : (Fields.reg c 0x006 0 0 0 0 0 0).Fits := Fields.fits_reg hc (by omega) (by omega) (by omega) (by omega) (by omega) (by omega) (by omega)
  refine ⟨hf, ?_⟩
  show some (Instr.rcv _) = _
  rw [Option.some.injEq, Instr.rcv.injEq]
  exact Fields.ctl_reg hc ..

theorem exit (c : Ctl) : Statement (.exit c) := by
  intro f hw hf
  obtain rfl : Fields.reg c 0x007 0 0 0 0 0 0 = f := Option.some.inj hf
  clear hf
  obtain ⟨hc, hw⟩ := ctlFits_of hw
  simp only [List.all_cons, List.all_nil, Bool.and_true] at hw
  have hf : (Fields.reg c 0x007 0 0 0 0 0 0).Fits := Fields.fits_reg hc (by omega) (by omega) (by omega) (by omega) (by omega) (by omega) (by omega)
  refine ⟨hf, ?_⟩
  show some (Instr.exit _) = _
  rw [Option.some.injEq, Instr.exit.injEq]
  exact Fields.ctl_reg hc ..

theorem yield (c : Ctl) : Statement (.yield c) := by
  intro f hw hf
  obtain rfl : Fields.reg c 0x008 0 0 0 0 0 0 = f := Option.some.inj hf
  clear hf
  obtain ⟨hc, hw⟩ := ctlFits_of hw
  simp only [List.all_cons, List.all_nil, Bool.and_true] at hw
  have hf : (Fields.reg c 0x008 0 0 0 0 0 0).Fits := Fields.fits_reg hc (by omega) (by omega) (by omega) (by omega) (by omega) (by omega) (by omega)
  refine ⟨hf, ?_⟩
  show some (Instr.yield _) = _
  rw [Option.some.injEq, Instr.yield.injEq]
  exact Fields.ctl_reg hc ..

theorem wait (c : Ctl) (ld : Nat) (st : Nat) (cp : Nat) (tl : Nat) : Statement (.wait c ld st cp tl) := by
  intro f hw hf
  obtain rfl : Fields.ofImm c 0x009 0 0 (ld + 64 * st + 4096 * cp + 262144 * tl) = f := Option.some.inj hf
  clear hf
  obtain ⟨hc, hw⟩ := ctlFits_of hw
  simp only [List.all_cons, List.all_nil, Bool.and_true, Bool.and_eq_true, decide_eq_true_eq, WF.uimm] at hw
  have hi : (ld + 64 * st + 4096 * cp + 262144 * tl) < 2 ^ 22 := by omega
  have hf : (Fields.ofImm c 0x009 0 0 (ld + 64 * st + 4096 * cp + 262144 * tl)).Fits := Fields.fits_ofImm hc (by omega) (by omega) (by omega) hi
  refine ⟨hf, ?_⟩
  show some (Instr.wait _ _ _ _ _) = _
  rw [Option.some.injEq, Instr.wait.injEq]
  exact ⟨Fields.ctl_ofImm hc .., by rw [Fields.imm_ofImm _ _ _ _ hi]; omega, by rw [Fields.imm_ofImm _ _ _ _ hi]; omega, by rw [Fields.imm_ofImm _ _ _ _ hi]; omega, by rw [Fields.imm_ofImm _ _ _ _ hi]; omega⟩

theorem sleep (c : Ctl) (n : Nat) : Statement (.sleep c n) := by
  intro f hw hf
  obtain rfl : Fields.ofImm c 0x00A 0 0 n = f := Option.some.inj hf
  clear hf
  obtain ⟨hc, hw⟩ := ctlFits_of hw
  simp only [List.all_cons, List.all_nil, Bool.and_true, Bool.and_eq_true, decide_eq_true_eq, WF.uimm] at hw
  have hi : n < 2 ^ 22 := by omega
  have hf : (Fields.ofImm c 0x00A 0 0 n).Fits := Fields.fits_ofImm hc (by omega) (by omega) (by omega) hi
  refine ⟨hf, ?_⟩
  show some (Instr.sleep _ _) = _
  rw [Option.some.injEq, Instr.sleep.injEq]
  exact ⟨Fields.ctl_ofImm hc .., Fields.imm_ofImm _ _ _ _ hi⟩

theorem phint (c : Ctl) (n : Nat) : Statement (.phint c n) := by
  intro f hw hf
  obtain rfl : Fields.ofImm c 0x00B 0 0 n = f := Option.some.inj hf
  clear hf
  obtain ⟨hc, hw⟩ := ctlFits_of hw
  simp only [List.all_cons, List.all_nil, Bool.and_true, Bool.and_eq_true, decide_eq_true_eq, WF.uimm] at hw
  have hi : n < 2 ^ 22 := by omega
  have hf : (Fields.ofImm c 0x00B 0 0 n).Fits := Fields.fits_ofImm hc (by omega) (by omega) (by omega) hi
  refine ⟨hf, ?_⟩
  show some (Instr.phint _ _) = _
  rw [Option.some.injEq, Instr.phint.injEq]
  exact ⟨Fields.ctl_ofImm hc .., Fields.imm_ofImm _ _ _ _ hi⟩

theorem vote (c : Ctl) (d : Nat) (pa : Nat) (k : Vote) : Statement (.vote c d pa k) := by
  intro f hw hf
  obtain rfl : Fields.reg c 0x00C d pa 0 0 k.code 0 = f := Option.some.inj hf
  clear hf
  obtain ⟨hc, hw⟩ := ctlFits_of hw
  simp only [List.all_cons, List.all_nil, Bool.and_true, Bool.and_eq_true, decide_eq_true_eq, WF.v, WF.p] at hw
  have k0 := k.code_lt
  have hf : (Fields.reg c 0x00C d pa 0 0 k.code 0).Fits := Fields.fits_reg hc (by omega) (by omega) (by omega) (by omega) (by omega) (by omega) (by omega)
  refine ⟨hf, ?_⟩
  show some (Instr.vote _ _ _ _) = _
  rw [Option.some.injEq, Instr.vote.injEq]
  exact ⟨Fields.ctl_reg hc .., rfl, rfl, (congrArg Vote.ofCode (show _ = k.code from by dsimp only [Fields.reg, Fields.mem, Fields.br]; omega)).trans (Vote.ofCode_code k)⟩

theorem elect (c : Ctl) (d : Nat) : Statement (.elect c d) := by
  intro f hw hf
  obtain rfl : Fields.reg c 0x00D d 0 0 0 0 0 = f := Option.some.inj hf
  clear hf
  obtain ⟨hc, hw⟩ := ctlFits_of hw
  simp only [List.all_cons, List.all_nil, Bool.and_true, Bool.and_eq_true, decide_eq_true_eq, WF.p] at hw
  have hf : (Fields.reg c 0x00D d 0 0 0 0 0).Fits := Fields.fits_reg hc (by omega) (by omega) (by omega) (by omega) (by omega) (by omega) (by omega)
  refine ⟨hf, ?_⟩
  show some (Instr.elect _ _) = _
  rw [Option.some.injEq, Instr.elect.injEq]
  exact ⟨Fields.ctl_reg hc .., rfl⟩

theorem mfs (c : Ctl) (d : VS) (n : Spec) : Statement (.mfs c d n) := by
  intro f hw hf
  obtain rfl : Fields.ofImm c 0x00E d.num 0 (n.code + 256 * d.sb) = f := Option.some.inj hf
  clear hf
  obtain ⟨hc, hw⟩ := ctlFits_of hw
  have nd : d.num < 128 := VS.num_lt (by simp only [List.all_cons, List.all_nil, Bool.and_eq_true] at hw; simp only [hw])
  simp only [List.all_cons, List.all_nil, Bool.and_true, Bool.and_eq_true] at hw
  have k0 := d.sb_lt
  have k1 := n.code_lt
  have hi : (n.code + 256 * d.sb) < 2 ^ 22 := by omega
  have hf : (Fields.ofImm c 0x00E d.num 0 (n.code + 256 * d.sb)).Fits := Fields.fits_ofImm hc (by omega) (by omega) (by omega) hi
  refine ⟨hf, ?_⟩
  show some (Instr.mfs _ _ _) = _
  rw [Option.some.injEq, Instr.mfs.injEq]
  exact ⟨Fields.ctl_ofImm hc .., (congrArg (fun n => vsOf n _) (show _ = d.sb from by rw [Fields.imm_ofImm _ _ _ _ hi]; omega)).trans (vsOf_num d), (congrArg Spec.ofCode (show _ = n.code from by rw [Fields.imm_ofImm _ _ _ _ hi]; omega)).trans (Spec.ofCode_code n)⟩

theorem mts (c : Ctl) (a : VS) (n : Spec) : Statement (.mts c a n) := by
  intro f hw hf
  obtain rfl : Fields.ofImm c 0x00F 0 a.num (n.code + 256 * a.sb) = f := Option.some.inj hf
  clear hf
  obtain ⟨hc, hw⟩ := ctlFits_of hw
  have na : a.num < 128 := VS.num_lt (by simp only [List.all_cons, List.all_nil, Bool.and_eq_true] at hw; simp only [hw])
  simp only [List.all_cons, List.all_nil, Bool.and_true, Bool.and_eq_true] at hw
  have k0 := a.sb_lt
  have k1 := n.code_lt
  have hi : (n.code + 256 * a.sb) < 2 ^ 22 := by omega
  have hf : (Fields.ofImm c 0x00F 0 a.num (n.code + 256 * a.sb)).Fits := Fields.fits_ofImm hc (by omega) (by omega) (by omega) hi
  refine ⟨hf, ?_⟩
  show some (Instr.mts _ _ _) = _
  rw [Option.some.injEq, Instr.mts.injEq]
  exact ⟨Fields.ctl_ofImm hc .., (congrArg (fun n => vsOf n _) (show _ = a.sb from by rw [Fields.imm_ofImm _ _ _ _ hi]; omega)).trans (vsOf_num a), (congrArg Spec.ofCode (show _ = n.code from by rw [Fields.imm_ofImm _ _ _ _ hi]; omega)).trans (Spec.ofCode_code n)⟩

theorem launch (c : Ctl) (d : Nat) (a : Nat) : Statement (.launch c d a) := by
  intro f hw hf
  obtain rfl : Fields.reg c 0x010 d a 0 0 0 0 = f := Option.some.inj hf
  clear hf
  obtain ⟨hc, hw⟩ := ctlFits_of hw
  simp only [List.all_cons, List.all_nil, Bool.and_true, Bool.and_eq_true, decide_eq_true_eq, WF.v] at hw
  have hf : (Fields.reg c 0x010 d a 0 0 0 0).Fits := Fields.fits_reg hc (by omega) (by omega) (by omega) (by omega) (by omega) (by omega) (by omega)
  refine ⟨hf, ?_⟩
  show some (Instr.launch _ _ _) = _
  rw [Option.some.injEq, Instr.launch.injEq]
  exact ⟨Fields.ctl_reg hc .., rfl, rfl⟩

theorem trap (c : Ctl) (k : Nat) : Statement (.trap c k) := by
  intro f hw hf
  obtain rfl : Fields.ofImm c 0x011 0 0 k = f := Option.some.inj hf
  clear hf
  obtain ⟨hc, hw⟩ := ctlFits_of hw
  simp only [List.all_cons, List.all_nil, Bool.and_true, Bool.and_eq_true, decide_eq_true_eq, WF.uimm] at hw
  have hi : k < 2 ^ 22 := by omega
  have hf : (Fields.ofImm c 0x011 0 0 k).Fits := Fields.fits_ofImm hc (by omega) (by omega) (by omega) hi
  refine ⟨hf, ?_⟩
  show some (Instr.trap _ _) = _
  rw [Option.some.injEq, Instr.trap.injEq]
  exact ⟨Fields.ctl_ofImm hc .., Fields.imm_ofImm _ _ _ _ hi⟩

theorem svc (c : Ctl) (d : Nat) (a : Nat) (k : Nat) (n : Nat) : Statement (.svc c d a k n) := by
  intro f hw hf
  obtain rfl : Fields.ofImm c 0x012 d a (n + 1048576 * k) = f := Option.some.inj hf
  clear hf
  obtain ⟨hc, hw⟩ := ctlFits_of hw
  simp only [List.all_cons, List.all_nil, Bool.and_true, Bool.and_eq_true, decide_eq_true_eq, WF.v2, WF.v4, WF.uimm] at hw
  have hi : (n + 1048576 * k) < 2 ^ 22 := by omega
  have hf : (Fields.ofImm c 0x012 d a (n + 1048576 * k)).Fits := Fields.fits_ofImm hc (by omega) (by omega) (by omega) hi
  refine ⟨hf, ?_⟩
  show some (Instr.svc _ _ _ _ _) = _
  rw [Option.some.injEq, Instr.svc.injEq]
  exact ⟨Fields.ctl_ofImm hc .., rfl, rfl, by rw [Fields.imm_ofImm _ _ _ _ hi]; omega, by rw [Fields.imm_ofImm _ _ _ _ hi]; omega⟩

theorem svcrep (c : Ctl) (d : Nat) (a : Nat) (b : Nat) : Statement (.svcrep c d a b) := by
  intro f hw hf
  obtain rfl : Fields.reg c 0x013 d a b 0 0 0 = f := Option.some.inj hf
  clear hf
  obtain ⟨hc, hw⟩ := ctlFits_of hw
  simp only [List.all_cons, List.all_nil, Bool.and_true, Bool.and_eq_true, decide_eq_true_eq, WF.s] at hw
  have hf : (Fields.reg c 0x013 d a b 0 0 0).Fits := Fields.fits_reg hc (by omega) (by omega) (by omega) (by omega) (by omega) (by omega) (by omega)
  refine ⟨hf, ?_⟩
  show some (Instr.svcrep _ _ _ _) = _
  rw [Option.some.injEq, Instr.svcrep.injEq]
  exact ⟨Fields.ctl_reg hc .., rfl, rfl, rfl⟩

theorem rte (c : Ctl) (a : Nat) : Statement (.rte c a) := by
  intro f hw hf
  obtain rfl : Fields.reg c 0x014 0 a 0 0 0 0 = f := Option.some.inj hf
  clear hf
  obtain ⟨hc, hw⟩ := ctlFits_of hw
  simp only [List.all_cons, List.all_nil, Bool.and_true, Bool.and_eq_true, decide_eq_true_eq, WF.s] at hw
  have hf : (Fields.reg c 0x014 0 a 0 0 0 0).Fits := Fields.fits_reg hc (by omega) (by omega) (by omega) (by omega) (by omega) (by omega) (by omega)
  refine ⟨hf, ?_⟩
  show some (Instr.rte _ _) = _
  rw [Option.some.injEq, Instr.rte.injEq]
  exact ⟨Fields.ctl_reg hc .., rfl⟩

theorem bkpt (c : Ctl) (k : Nat) : Statement (.bkpt c k) := by
  intro f hw hf
  obtain rfl : Fields.ofImm c 0x015 0 0 k = f := Option.some.inj hf
  clear hf
  obtain ⟨hc, hw⟩ := ctlFits_of hw
  simp only [List.all_cons, List.all_nil, Bool.and_true, Bool.and_eq_true, decide_eq_true_eq, WF.uimm] at hw
  have hi : k < 2 ^ 22 := by omega
  have hf : (Fields.ofImm c 0x015 0 0 k).Fits := Fields.fits_ofImm hc (by omega) (by omega) (by omega) hi
  refine ⟨hf, ?_⟩
  show some (Instr.bkpt _ _) = _
  rw [Option.some.injEq, Instr.bkpt.injEq]
  exact ⟨Fields.ctl_ofImm hc .., Fields.imm_ofImm _ _ _ _ hi⟩

theorem rand (c : Ctl) (d : Nat) : Statement (.rand c d) := by
  intro f hw hf
  obtain rfl : Fields.reg c 0x016 d 0 0 0 0 0 = f := Option.some.inj hf
  clear hf
  obtain ⟨hc, hw⟩ := ctlFits_of hw
  simp only [List.all_cons, List.all_nil, Bool.and_true, Bool.and_eq_true, decide_eq_true_eq, WF.v] at hw
  have hf : (Fields.reg c 0x016 d 0 0 0 0 0).Fits := Fields.fits_reg hc (by omega) (by omega) (by omega) (by omega) (by omega) (by omega) (by omega)
  refine ⟨hf, ?_⟩
  show some (Instr.rand _ _) = _
  rw [Option.some.injEq, Instr.rand.injEq]
  exact ⟨Fields.ctl_reg hc .., rfl⟩

theorem perfrd (c : Ctl) (d : Nat) (n : Nat) : Statement (.perfrd c d n) := by
  intro f hw hf
  obtain rfl : Fields.ofImm c 0x017 d 0 n = f := Option.some.inj hf
  clear hf
  obtain ⟨hc, hw⟩ := ctlFits_of hw
  simp only [List.all_cons, List.all_nil, Bool.and_true, Bool.and_eq_true, decide_eq_true_eq, WF.v, WF.uimm] at hw
  have hi : n < 2 ^ 22 := by omega
  have hf : (Fields.ofImm c 0x017 d 0 n).Fits := Fields.fits_ofImm hc (by omega) (by omega) (by omega) hi
  refine ⟨hf, ?_⟩
  show some (Instr.perfrd _ _ _) = _
  rw [Option.some.injEq, Instr.perfrd.injEq]
  exact ⟨Fields.ctl_ofImm hc .., rfl, Fields.imm_ofImm _ _ _ _ hi⟩

theorem acqx (c : Ctl) (d : Nat) (n : Nat) : Statement (.acqx c d n) := by
  intro f hw hf
  obtain rfl : Fields.ofImm c 0x020 d 0 n = f := Option.some.inj hf
  clear hf
  obtain ⟨hc, hw⟩ := ctlFits_of hw
  simp only [List.all_cons, List.all_nil, Bool.and_true, Bool.and_eq_true, decide_eq_true_eq, WF.s, WF.uimm] at hw
  have hi : n < 2 ^ 22 := by omega
  have hf : (Fields.ofImm c 0x020 d 0 n).Fits := Fields.fits_ofImm hc (by omega) (by omega) (by omega) hi
  refine ⟨hf, ?_⟩
  show some (Instr.acqx _ _ _) = _
  rw [Option.some.injEq, Instr.acqx.injEq]
  exact ⟨Fields.ctl_ofImm hc .., rfl, Fields.imm_ofImm _ _ _ _ hi⟩

theorem relx (c : Ctl) (d : Nat) (n : Nat) : Statement (.relx c d n) := by
  intro f hw hf
  obtain rfl : Fields.ofImm c 0x021 d 0 n = f := Option.some.inj hf
  clear hf
  obtain ⟨hc, hw⟩ := ctlFits_of hw
  simp only [List.all_cons, List.all_nil, Bool.and_true, Bool.and_eq_true, decide_eq_true_eq, WF.s, WF.uimm] at hw
  have hi : n < 2 ^ 22 := by omega
  have hf : (Fields.ofImm c 0x021 d 0 n).Fits := Fields.fits_ofImm hc (by omega) (by omega) (by omega) hi
  refine ⟨hf, ?_⟩
  show some (Instr.relx _ _ _) = _
  rw [Option.some.injEq, Instr.relx.injEq]
  exact ⟨Fields.ctl_ofImm hc .., rfl, Fields.imm_ofImm _ _ _ _ hi⟩

theorem rcpdef (c : Ctl) (d : Nat) (a : Nat) (k : Nat) (n : Nat) : Statement (.rcpdef c d a k n) := by
  intro f hw hf
  obtain rfl : Fields.ofImm c 0x022 d a (k + 64 * n) = f := Option.some.inj hf
  clear hf
  obtain ⟨hc, hw⟩ := ctlFits_of hw
  simp only [List.all_cons, List.all_nil, Bool.and_true, Bool.and_eq_true, decide_eq_true_eq, WF.s, WF.uimm] at hw
  have hi : (k + 64 * n) < 2 ^ 22 := by omega
  have hf : (Fields.ofImm c 0x022 d a (k + 64 * n)).Fits := Fields.fits_ofImm hc (by omega) (by omega) (by omega) hi
  refine ⟨hf, ?_⟩
  show some (Instr.rcpdef _ _ _ _ _) = _
  rw [Option.some.injEq, Instr.rcpdef.injEq]
  exact ⟨Fields.ctl_ofImm hc .., rfl, rfl, by rw [Fields.imm_ofImm _ _ _ _ hi]; omega, by rw [Fields.imm_ofImm _ _ _ _ hi]; omega⟩

theorem rcptag (c : Ctl) (d : Nat) (k : Nat) : Statement (.rcptag c d k) := by
  intro f hw hf
  obtain rfl : Fields.ofImm c 0x023 d 0 k = f := Option.some.inj hf
  clear hf
  obtain ⟨hc, hw⟩ := ctlFits_of hw
  simp only [List.all_cons, List.all_nil, Bool.and_true, Bool.and_eq_true, decide_eq_true_eq, WF.v, WF.uimm] at hw
  have hi : k < 2 ^ 22 := by omega
  have hf : (Fields.ofImm c 0x023 d 0 k).Fits := Fields.fits_ofImm hc (by omega) (by omega) (by omega) hi
  refine ⟨hf, ?_⟩
  show some (Instr.rcptag _ _ _) = _
  rw [Option.some.injEq, Instr.rcptag.injEq]
  exact ⟨Fields.ctl_ofImm hc .., rfl, Fields.imm_ofImm _ _ _ _ hi⟩

theorem rcpclr (c : Ctl) (a : Nat) (n : Nat) : Statement (.rcpclr c a n) := by
  intro f hw hf
  obtain rfl : Fields.reg c 0x024 0 a 0 0 (n - 1) 0 = f := Option.some.inj hf
  clear hf
  obtain ⟨hc, hw⟩ := ctlFits_of hw
  simp only [List.all_cons, List.all_nil, Bool.and_true, Bool.and_eq_true, decide_eq_true_eq, WF.v, WF.uimm] at hw
  have hf : (Fields.reg c 0x024 0 a 0 0 (n - 1) 0).Fits := Fields.fits_reg hc (by omega) (by omega) (by omega) (by omega) (by omega) (by omega) (by omega)
  refine ⟨hf, ?_⟩
  show some (Instr.rcpclr _ _ _) = _
  rw [Option.some.injEq, Instr.rcpclr.injEq]
  exact ⟨Fields.ctl_reg hc .., rfl, by dsimp only [Fields.reg, Fields.mem, Fields.br]; omega⟩

theorem rcpq (c : Ctl) (d : Nat) (a : Nat) : Statement (.rcpq c d a) := by
  intro f hw hf
  obtain rfl : Fields.reg c 0x025 d a 0 0 0 0 = f := Option.some.inj hf
  clear hf
  obtain ⟨hc, hw⟩ := ctlFits_of hw
  simp only [List.all_cons, List.all_nil, Bool.and_true, Bool.and_eq_true, decide_eq_true_eq, WF.s] at hw
  have hf : (Fields.reg c 0x025 d a 0 0 0 0).Fits := Fields.fits_reg hc (by omega) (by omega) (by omega) (by omega) (by omega) (by omega) (by omega)
  refine ⟨hf, ?_⟩
  show some (Instr.rcpq _ _ _) = _
  rw [Option.some.injEq, Instr.rcpq.injEq]
  exact ⟨Fields.ctl_reg hc .., rfl, rfl⟩

theorem mov (c : Ctl) (d : Nat) (a : Nat) : Statement (.mov c d a) := by
  intro f hw hf
  obtain rfl : Fields.reg c 0x030 d a 0 0 0 0 = f := Option.some.inj hf
  clear hf
  obtain ⟨hc, hw⟩ := ctlFits_of hw
  simp only [List.all_cons, List.all_nil, Bool.and_true, Bool.and_eq_true, decide_eq_true_eq, WF.v] at hw
  have hf : (Fields.reg c 0x030 d a 0 0 0 0).Fits := Fields.fits_reg hc (by omega) (by omega) (by omega) (by omega) (by omega) (by omega) (by omega)
  refine ⟨hf, ?_⟩
  show some (Instr.mov _ _ _) = _
  rw [Option.some.injEq, Instr.mov.injEq]
  exact ⟨Fields.ctl_reg hc .., rfl, rfl⟩

theorem movi (c : Ctl) (d : Nat) (i : Int) : Statement (.movi c d i) := by
  intro f hw hf
  obtain rfl : Fields.ofImm c 0x031 d 0 (toBits 22 i) = f := Option.some.inj hf
  clear hf
  obtain ⟨hc, hw⟩ := ctlFits_of hw
  simp only [List.all_cons, List.all_nil, Bool.and_true, Bool.and_eq_true, decide_eq_true_eq, WF.v, WF.simm] at hw
  have hi : (toBits 22 i) < 2 ^ 22 := by exact toBits_lt 22 i
  have hf : (Fields.ofImm c 0x031 d 0 (toBits 22 i)).Fits := Fields.fits_ofImm hc (by omega) (by omega) (by omega) hi
  refine ⟨hf, ?_⟩
  show some (Instr.movi _ _ _) = _
  rw [Option.some.injEq, Instr.movi.injEq]
  exact ⟨Fields.ctl_ofImm hc .., rfl, (congrArg (ofBits 22) (Fields.imm_ofImm _ _ _ _ hi)).trans (ofBits_toBits (by decide) (by omega))⟩

theorem movk (c : Ctl) (d : Nat) (n : Nat) (h : Nat) : Statement (.movk c d n h) := by
  intro f hw hf
  obtain rfl : Fields.ofImm c 0x032 d 0 (n + 65536 * h) = f := Option.some.inj hf
  clear hf
  obtain ⟨hc, hw⟩ := ctlFits_of hw
  simp only [List.all_cons, List.all_nil, Bool.and_true, Bool.and_eq_true, decide_eq_true_eq, WF.v, WF.uimm] at hw
  have hi : (n + 65536 * h) < 2 ^ 22 := by omega
  have hf : (Fields.ofImm c 0x032 d 0 (n + 65536 * h)).Fits := Fields.fits_ofImm hc (by omega) (by omega) (by omega) hi
  refine ⟨hf, ?_⟩
  show some (Instr.movk _ _ _ _) = _
  rw [Option.some.injEq, Instr.movk.injEq]
  exact ⟨Fields.ctl_ofImm hc .., rfl, by rw [Fields.imm_ofImm _ _ _ _ hi]; omega, by rw [Fields.imm_ofImm _ _ _ _ hi]; omega⟩

theorem sel (c : Ctl) (d : Nat) (a : Nat) (b : VS) (p : Nat) : Statement (.sel c d a b p) := by
  intro f hw hf
  obtain rfl : Fields.reg c 0x033 d a b.num p (128 * b.sb) 0 = f := Option.some.inj hf
  clear hf
  obtain ⟨hc, hw⟩ := ctlFits_of hw
  have nb : b.num < 128 := VS.num_lt (by simp only [List.all_cons, List.all_nil, Bool.and_eq_true] at hw; simp only [hw])
  simp only [List.all_cons, List.all_nil, Bool.and_true, Bool.and_eq_true, decide_eq_true_eq, WF.v, WF.p] at hw
  have k0 := b.sb_lt
  have hf : (Fields.reg c 0x033 d a b.num p (128 * b.sb) 0).Fits := Fields.fits_reg hc (by omega) (by omega) (by omega) (by omega) (by omega) (by omega) (by omega)
  refine ⟨hf, ?_⟩
  show some (Instr.sel _ _ _ _ _) = _
  rw [Option.some.injEq, Instr.sel.injEq]
  exact ⟨Fields.ctl_reg hc .., rfl, rfl, (congrArg (fun n => vsOf n _) (show _ = b.sb from by dsimp only [Fields.reg, Fields.mem, Fields.br]; omega)).trans (vsOf_num b), rfl⟩

theorem iadd (c : Ctl) (d : Nat) (a : Nat) (b : VS) (t : Ty) (sat : Bool) : Statement (.iadd c d a b t sat) := by
  intro f hw hf
  obtain rfl : Fields.reg c 0x034 d a b.num 0 (128 * b.sb + 8 * t.code + sat.toNat) 0 = f := Option.some.inj hf
  clear hf
  obtain ⟨hc, hw⟩ := ctlFits_of hw
  have nb : b.num < 128 := VS.num_lt (by simp only [List.all_cons, List.all_nil, Bool.and_eq_true] at hw; simp only [hw])
  simp only [List.all_cons, List.all_nil, Bool.and_true, Bool.and_eq_true, decide_eq_true_eq, WF.v, WF.ty] at hw
  have k0 := b.sb_lt
  have k1 := t.code_lt
  have k2 := bool_lt sat
  have hf : (Fields.reg c 0x034 d a b.num 0 (128 * b.sb + 8 * t.code + sat.toNat) 0).Fits := Fields.fits_reg hc (by omega) (by omega) (by omega) (by omega) (by omega) (by omega) (by omega)
  refine ⟨hf, ?_⟩
  show some (Instr.iadd _ _ _ _ _ _) = _
  rw [Option.some.injEq, Instr.iadd.injEq]
  exact ⟨Fields.ctl_reg hc .., rfl, rfl, (congrArg (fun n => vsOf n _) (show _ = b.sb from by dsimp only [Fields.reg, Fields.mem, Fields.br]; omega)).trans (vsOf_num b), (congrArg Ty.ofCode (show _ = t.code from by dsimp only [Fields.reg, Fields.mem, Fields.br]; omega)).trans (Ty.ofCode_code t), (congrArg (fun n => n == 1) (show _ = sat.toNat from by dsimp only [Fields.reg, Fields.mem, Fields.br]; omega)).trans (bool_beq_one sat)⟩

theorem isub (c : Ctl) (d : Nat) (a : Nat) (b : VS) (t : Ty) (sat : Bool) : Statement (.isub c d a b t sat) := by
  intro f hw hf
  obtain rfl : Fields.reg c 0x035 d a b.num 0 (128 * b.sb + 8 * t.code + sat.toNat) 0 = f := Option.some.inj hf
  clear hf
  obtain ⟨hc, hw⟩ := ctlFits_of hw
  have nb : b.num < 128 := VS.num_lt (by simp only [List.all_cons, List.all_nil, Bool.and_eq_true] at hw; simp only [hw])
  simp only [List.all_cons, List.all_nil, Bool.and_true, Bool.and_eq_true, decide_eq_true_eq, WF.v, WF.ty] at hw
  have k0 := b.sb_lt
  have k1 := t.code_lt
  have k2 := bool_lt sat
  have hf : (Fields.reg c 0x035 d a b.num 0 (128 * b.sb + 8 * t.code + sat.toNat) 0).Fits := Fields.fits_reg hc (by omega) (by omega) (by omega) (by omega) (by omega) (by omega) (by omega)
  refine ⟨hf, ?_⟩
  show some (Instr.isub _ _ _ _ _ _) = _
  rw [Option.some.injEq, Instr.isub.injEq]
  exact ⟨Fields.ctl_reg hc .., rfl, rfl, (congrArg (fun n => vsOf n _) (show _ = b.sb from by dsimp only [Fields.reg, Fields.mem, Fields.br]; omega)).trans (vsOf_num b), (congrArg Ty.ofCode (show _ = t.code from by dsimp only [Fields.reg, Fields.mem, Fields.br]; omega)).trans (Ty.ofCode_code t), (congrArg (fun n => n == 1) (show _ = sat.toNat from by dsimp only [Fields.reg, Fields.mem, Fields.br]; omega)).trans (bool_beq_one sat)⟩

theorem imul (c : Ctl) (d : Nat) (a : Nat) (b : VS) (t : Ty) (sat : Bool) : Statement (.imul c d a b t sat) := by
  intro f hw hf
  obtain rfl : Fields.reg c 0x036 d a b.num 0 (128 * b.sb + 8 * t.code + sat.toNat) 0 = f := Option.some.inj hf
  clear hf
  obtain ⟨hc, hw⟩ := ctlFits_of hw
  have nb : b.num < 128 := VS.num_lt (by simp only [List.all_cons, List.all_nil, Bool.and_eq_true] at hw; simp only [hw])
  simp only [List.all_cons, List.all_nil, Bool.and_true, Bool.and_eq_true, decide_eq_true_eq, WF.v, WF.ty] at hw
  have k0 := b.sb_lt
  have k1 := t.code_lt
  have k2 := bool_lt sat
  have hf : (Fields.reg c 0x036 d a b.num 0 (128 * b.sb + 8 * t.code + sat.toNat) 0).Fits := Fields.fits_reg hc (by omega) (by omega) (by omega) (by omega) (by omega) (by omega) (by omega)
  refine ⟨hf, ?_⟩
  show some (Instr.imul _ _ _ _ _ _) = _
  rw [Option.some.injEq, Instr.imul.injEq]
  exact ⟨Fields.ctl_reg hc .., rfl, rfl, (congrArg (fun n => vsOf n _) (show _ = b.sb from by dsimp only [Fields.reg, Fields.mem, Fields.br]; omega)).trans (vsOf_num b), (congrArg Ty.ofCode (show _ = t.code from by dsimp only [Fields.reg, Fields.mem, Fields.br]; omega)).trans (Ty.ofCode_code t), (congrArg (fun n => n == 1) (show _ = sat.toNat from by dsimp only [Fields.reg, Fields.mem, Fields.br]; omega)).trans (bool_beq_one sat)⟩

theorem imulh (c : Ctl) (d : Nat) (a : Nat) (b : VS) (t : Ty) : Statement (.imulh c d a b t) := by
  intro f hw hf
  obtain rfl : Fields.reg c 0x037 d a b.num 0 (128 * b.sb + 8 * t.code) 0 = f := Option.some.inj hf
  clear hf
  obtain ⟨hc, hw⟩ := ctlFits_of hw
  have nb : b.num < 128 := VS.num_lt (by simp only [List.all_cons, List.all_nil, Bool.and_eq_true] at hw; simp only [hw])
  simp only [List.all_cons, List.all_nil, Bool.and_true, Bool.and_eq_true, decide_eq_true_eq, WF.v, WF.ty] at hw
  have k0 := b.sb_lt
  have k1 := t.code_lt
  have hf : (Fields.reg c 0x037 d a b.num 0 (128 * b.sb + 8 * t.code) 0).Fits := Fields.fits_reg hc (by omega) (by omega) (by omega) (by omega) (by omega) (by omega) (by omega)
  refine ⟨hf, ?_⟩
  show some (Instr.imulh _ _ _ _ _) = _
  rw [Option.some.injEq, Instr.imulh.injEq]
  exact ⟨Fields.ctl_reg hc .., rfl, rfl, (congrArg (fun n => vsOf n _) (show _ = b.sb from by dsimp only [Fields.reg, Fields.mem, Fields.br]; omega)).trans (vsOf_num b), (congrArg Ty.ofCode (show _ = t.code from by dsimp only [Fields.reg, Fields.mem, Fields.br]; omega)).trans (Ty.ofCode_code t)⟩

theorem imad (c : Ctl) (d : Nat) (a : Nat) (b : VS) (e : Nat) (t : Ty) (sat : Bool) : Statement (.imad c d a b e t sat) := by
  intro f hw hf
  obtain rfl : Fields.reg c 0x038 d a b.num e (128 * b.sb + 8 * t.code + sat.toNat) 0 = f := Option.some.inj hf
  clear hf
  obtain ⟨hc, hw⟩ := ctlFits_of hw
  have nb : b.num < 128 := VS.num_lt (by simp only [List.all_cons, List.all_nil, Bool.and_eq_true] at hw; simp only [hw])
  simp only [List.all_cons, List.all_nil, Bool.and_true, Bool.and_eq_true, decide_eq_true_eq, WF.v, WF.ty] at hw
  have k0 := b.sb_lt
  have k1 := t.code_lt
  have k2 := bool_lt sat
  have hf : (Fields.reg c 0x038 d a b.num e (128 * b.sb + 8 * t.code + sat.toNat) 0).Fits := Fields.fits_reg hc (by omega) (by omega) (by omega) (by omega) (by omega) (by omega) (by omega)
  refine ⟨hf, ?_⟩
  show some (Instr.imad _ _ _ _ _ _ _) = _
  rw [Option.some.injEq, Instr.imad.injEq]
  exact ⟨Fields.ctl_reg hc .., rfl, rfl, (congrArg (fun n => vsOf n _) (show _ = b.sb from by dsimp only [Fields.reg, Fields.mem, Fields.br]; omega)).trans (vsOf_num b), rfl, (congrArg Ty.ofCode (show _ = t.code from by dsimp only [Fields.reg, Fields.mem, Fields.br]; omega)).trans (Ty.ofCode_code t), (congrArg (fun n => n == 1) (show _ = sat.toNat from by dsimp only [Fields.reg, Fields.mem, Fields.br]; omega)).trans (bool_beq_one sat)⟩

theorem imin (c : Ctl) (d : Nat) (a : Nat) (b : VS) (t : Ty) : Statement (.imin c d a b t) := by
  intro f hw hf
  obtain rfl : Fields.reg c 0x039 d a b.num 0 (128 * b.sb + 8 * t.code) 0 = f := Option.some.inj hf
  clear hf
  obtain ⟨hc, hw⟩ := ctlFits_of hw
  have nb : b.num < 128 := VS.num_lt (by simp only [List.all_cons, List.all_nil, Bool.and_eq_true] at hw; simp only [hw])
  simp only [List.all_cons, List.all_nil, Bool.and_true, Bool.and_eq_true, decide_eq_true_eq, WF.v, WF.ty] at hw
  have k0 := b.sb_lt
  have k1 := t.code_lt
  have hf : (Fields.reg c 0x039 d a b.num 0 (128 * b.sb + 8 * t.code) 0).Fits := Fields.fits_reg hc (by omega) (by omega) (by omega) (by omega) (by omega) (by omega) (by omega)
  refine ⟨hf, ?_⟩
  show some (Instr.imin _ _ _ _ _) = _
  rw [Option.some.injEq, Instr.imin.injEq]
  exact ⟨Fields.ctl_reg hc .., rfl, rfl, (congrArg (fun n => vsOf n _) (show _ = b.sb from by dsimp only [Fields.reg, Fields.mem, Fields.br]; omega)).trans (vsOf_num b), (congrArg Ty.ofCode (show _ = t.code from by dsimp only [Fields.reg, Fields.mem, Fields.br]; omega)).trans (Ty.ofCode_code t)⟩

theorem imax (c : Ctl) (d : Nat) (a : Nat) (b : VS) (t : Ty) : Statement (.imax c d a b t) := by
  intro f hw hf
  obtain rfl : Fields.reg c 0x03A d a b.num 0 (128 * b.sb + 8 * t.code) 0 = f := Option.some.inj hf
  clear hf
  obtain ⟨hc, hw⟩ := ctlFits_of hw
  have nb : b.num < 128 := VS.num_lt (by simp only [List.all_cons, List.all_nil, Bool.and_eq_true] at hw; simp only [hw])
  simp only [List.all_cons, List.all_nil, Bool.and_true, Bool.and_eq_true, decide_eq_true_eq, WF.v, WF.ty] at hw
  have k0 := b.sb_lt
  have k1 := t.code_lt
  have hf : (Fields.reg c 0x03A d a b.num 0 (128 * b.sb + 8 * t.code) 0).Fits := Fields.fits_reg hc (by omega) (by omega) (by omega) (by omega) (by omega) (by omega) (by omega)
  refine ⟨hf, ?_⟩
  show some (Instr.imax _ _ _ _ _) = _
  rw [Option.some.injEq, Instr.imax.injEq]
  exact ⟨Fields.ctl_reg hc .., rfl, rfl, (congrArg (fun n => vsOf n _) (show _ = b.sb from by dsimp only [Fields.reg, Fields.mem, Fields.br]; omega)).trans (vsOf_num b), (congrArg Ty.ofCode (show _ = t.code from by dsimp only [Fields.reg, Fields.mem, Fields.br]; omega)).trans (Ty.ofCode_code t)⟩

theorem iabs (c : Ctl) (d : Nat) (a : Nat) (t : Ty) (sat : Bool) : Statement (.iabs c d a t sat) := by
  intro f hw hf
  obtain rfl : Fields.reg c 0x03B d a 0 0 (8 * t.code + sat.toNat) 0 = f := Option.some.inj hf
  clear hf
  obtain ⟨hc, hw⟩ := ctlFits_of hw
  simp only [List.all_cons, List.all_nil, Bool.and_true, Bool.and_eq_true, decide_eq_true_eq, WF.v, WF.ty] at hw
  have k0 := t.code_lt
  have k1 := bool_lt sat
  have hf : (Fields.reg c 0x03B d a 0 0 (8 * t.code + sat.toNat) 0).Fits := Fields.fits_reg hc (by omega) (by omega) (by omega) (by omega) (by omega) (by omega) (by omega)
  refine ⟨hf, ?_⟩
  show some (Instr.iabs _ _ _ _ _) = _
  rw [Option.some.injEq, Instr.iabs.injEq]
  exact ⟨Fields.ctl_reg hc .., rfl, rfl, (congrArg Ty.ofCode (show _ = t.code from by dsimp only [Fields.reg, Fields.mem, Fields.br]; omega)).trans (Ty.ofCode_code t), (congrArg (fun n => n == 1) (show _ = sat.toNat from by dsimp only [Fields.reg, Fields.mem, Fields.br]; omega)).trans (bool_beq_one sat)⟩

theorem ineg (c : Ctl) (d : Nat) (a : Nat) (t : Ty) (sat : Bool) : Statement (.ineg c d a t sat) := by
  intro f hw hf
  obtain rfl : Fields.reg c 0x03C d a 0 0 (8 * t.code + sat.toNat) 0 = f := Option.some.inj hf
  clear hf
  obtain ⟨hc, hw⟩ := ctlFits_of hw
  simp only [List.all_cons, List.all_nil, Bool.and_true, Bool.and_eq_true, decide_eq_true_eq, WF.v, WF.ty] at hw
  have k0 := t.code_lt
  have k1 := bool_lt sat
  have hf : (Fields.reg c 0x03C d a 0 0 (8 * t.code + sat.toNat) 0).Fits := Fields.fits_reg hc (by omega) (by omega) (by omega) (by omega) (by omega) (by omega) (by omega)
  refine ⟨hf, ?_⟩
  show some (Instr.ineg _ _ _ _ _) = _
  rw [Option.some.injEq, Instr.ineg.injEq]
  exact ⟨Fields.ctl_reg hc .., rfl, rfl, (congrArg Ty.ofCode (show _ = t.code from by dsimp only [Fields.reg, Fields.mem, Fields.br]; omega)).trans (Ty.ofCode_code t), (congrArg (fun n => n == 1) (show _ = sat.toNat from by dsimp only [Fields.reg, Fields.mem, Fields.br]; omega)).trans (bool_beq_one sat)⟩

theorem and (c : Ctl) (d : Nat) (a : Nat) (b : VS) : Statement (.and c d a b) := by
  intro f hw hf
  obtain rfl : Fields.reg c 0x03D d a b.num 0 (128 * b.sb) 0 = f := Option.some.inj hf
  clear hf
  obtain ⟨hc, hw⟩ := ctlFits_of hw
  have nb : b.num < 128 := VS.num_lt (by simp only [List.all_cons, List.all_nil, Bool.and_eq_true] at hw; simp only [hw])
  simp only [List.all_cons, List.all_nil, Bool.and_true, Bool.and_eq_true, decide_eq_true_eq, WF.v] at hw
  have k0 := b.sb_lt
  have hf : (Fields.reg c 0x03D d a b.num 0 (128 * b.sb) 0).Fits := Fields.fits_reg hc (by omega) (by omega) (by omega) (by omega) (by omega) (by omega) (by omega)
  refine ⟨hf, ?_⟩
  show some (Instr.and _ _ _ _) = _
  rw [Option.some.injEq, Instr.and.injEq]
  exact ⟨Fields.ctl_reg hc .., rfl, rfl, (congrArg (fun n => vsOf n _) (show _ = b.sb from by dsimp only [Fields.reg, Fields.mem, Fields.br]; omega)).trans (vsOf_num b)⟩

theorem or (c : Ctl) (d : Nat) (a : Nat) (b : VS) : Statement (.or c d a b) := by
  intro f hw hf
  obtain rfl : Fields.reg c 0x03E d a b.num 0 (128 * b.sb) 0 = f := Option.some.inj hf
  clear hf
  obtain ⟨hc, hw⟩ := ctlFits_of hw
  have nb : b.num < 128 := VS.num_lt (by simp only [List.all_cons, List.all_nil, Bool.and_eq_true] at hw; simp only [hw])
  simp only [List.all_cons, List.all_nil, Bool.and_true, Bool.and_eq_true, decide_eq_true_eq, WF.v] at hw
  have k0 := b.sb_lt
  have hf : (Fields.reg c 0x03E d a b.num 0 (128 * b.sb) 0).Fits := Fields.fits_reg hc (by omega) (by omega) (by omega) (by omega) (by omega) (by omega) (by omega)
  refine ⟨hf, ?_⟩
  show some (Instr.or _ _ _ _) = _
  rw [Option.some.injEq, Instr.or.injEq]
  exact ⟨Fields.ctl_reg hc .., rfl, rfl, (congrArg (fun n => vsOf n _) (show _ = b.sb from by dsimp only [Fields.reg, Fields.mem, Fields.br]; omega)).trans (vsOf_num b)⟩

theorem xor (c : Ctl) (d : Nat) (a : Nat) (b : VS) : Statement (.xor c d a b) := by
  intro f hw hf
  obtain rfl : Fields.reg c 0x03F d a b.num 0 (128 * b.sb) 0 = f := Option.some.inj hf
  clear hf
  obtain ⟨hc, hw⟩ := ctlFits_of hw
  have nb : b.num < 128 := VS.num_lt (by simp only [List.all_cons, List.all_nil, Bool.and_eq_true] at hw; simp only [hw])
  simp only [List.all_cons, List.all_nil, Bool.and_true, Bool.and_eq_true, decide_eq_true_eq, WF.v] at hw
  have k0 := b.sb_lt
  have hf : (Fields.reg c 0x03F d a b.num 0 (128 * b.sb) 0).Fits := Fields.fits_reg hc (by omega) (by omega) (by omega) (by omega) (by omega) (by omega) (by omega)
  refine ⟨hf, ?_⟩
  show some (Instr.xor _ _ _ _) = _
  rw [Option.some.injEq, Instr.xor.injEq]
  exact ⟨Fields.ctl_reg hc .., rfl, rfl, (congrArg (fun n => vsOf n _) (show _ = b.sb from by dsimp only [Fields.reg, Fields.mem, Fields.br]; omega)).trans (vsOf_num b)⟩

theorem not (c : Ctl) (d : Nat) (a : Nat) : Statement (.not c d a) := by
  intro f hw hf
  obtain rfl : Fields.reg c 0x040 d a 0 0 0 0 = f := Option.some.inj hf
  clear hf
  obtain ⟨hc, hw⟩ := ctlFits_of hw
  simp only [List.all_cons, List.all_nil, Bool.and_true, Bool.and_eq_true, decide_eq_true_eq, WF.v] at hw
  have hf : (Fields.reg c 0x040 d a 0 0 0 0).Fits := Fields.fits_reg hc (by omega) (by omega) (by omega) (by omega) (by omega) (by omega) (by omega)
  refine ⟨hf, ?_⟩
  show some (Instr.not _ _ _) = _
  rw [Option.some.injEq, Instr.not.injEq]
  exact ⟨Fields.ctl_reg hc .., rfl, rfl⟩

theorem shl (c : Ctl) (d : Nat) (a : Nat) (b : VS) (t : Ty) (sat : Bool) : Statement (.shl c d a b t sat) := by
  intro f hw hf
  obtain rfl : Fields.reg c 0x041 d a b.num 0 (128 * b.sb + 8 * t.code + sat.toNat) 0 = f := Option.some.inj hf
  clear hf
  obtain ⟨hc, hw⟩ := ctlFits_of hw
  have nb : b.num < 128 := VS.num_lt (by simp only [List.all_cons, List.all_nil, Bool.and_eq_true] at hw; simp only [hw])
  simp only [List.all_cons, List.all_nil, Bool.and_true, Bool.and_eq_true, decide_eq_true_eq, WF.v, WF.ty] at hw
  have k0 := b.sb_lt
  have k1 := t.code_lt
  have k2 := bool_lt sat
  have hf : (Fields.reg c 0x041 d a b.num 0 (128 * b.sb + 8 * t.code + sat.toNat) 0).Fits := Fields.fits_reg hc (by omega) (by omega) (by omega) (by omega) (by omega) (by omega) (by omega)
  refine ⟨hf, ?_⟩
  show some (Instr.shl _ _ _ _ _ _) = _
  rw [Option.some.injEq, Instr.shl.injEq]
  exact ⟨Fields.ctl_reg hc .., rfl, rfl, (congrArg (fun n => vsOf n _) (show _ = b.sb from by dsimp only [Fields.reg, Fields.mem, Fields.br]; omega)).trans (vsOf_num b), (congrArg Ty.ofCode (show _ = t.code from by dsimp only [Fields.reg, Fields.mem, Fields.br]; omega)).trans (Ty.ofCode_code t), (congrArg (fun n => n == 1) (show _ = sat.toNat from by dsimp only [Fields.reg, Fields.mem, Fields.br]; omega)).trans (bool_beq_one sat)⟩

theorem shr (c : Ctl) (d : Nat) (a : Nat) (b : VS) (t : Ty) (sat : Bool) : Statement (.shr c d a b t sat) := by
  intro f hw hf
  obtain rfl : Fields.reg c 0x042 d a b.num 0 (128 * b.sb + 8 * t.code + sat.toNat) 0 = f := Option.some.inj hf
  clear hf
  obtain ⟨hc, hw⟩ := ctlFits_of hw
  have nb : b.num < 128 := VS.num_lt (by simp only [List.all_cons, List.all_nil, Bool.and_eq_true] at hw; simp only [hw])
  simp only [List.all_cons, List.all_nil, Bool.and_true, Bool.and_eq_true, decide_eq_true_eq, WF.v, WF.ty] at hw
  have k0 := b.sb_lt
  have k1 := t.code_lt
  have k2 := bool_lt sat
  have hf : (Fields.reg c 0x042 d a b.num 0 (128 * b.sb + 8 * t.code + sat.toNat) 0).Fits := Fields.fits_reg hc (by omega) (by omega) (by omega) (by omega) (by omega) (by omega) (by omega)
  refine ⟨hf, ?_⟩
  show some (Instr.shr _ _ _ _ _ _) = _
  rw [Option.some.injEq, Instr.shr.injEq]
  exact ⟨Fields.ctl_reg hc .., rfl, rfl, (congrArg (fun n => vsOf n _) (show _ = b.sb from by dsimp only [Fields.reg, Fields.mem, Fields.br]; omega)).trans (vsOf_num b), (congrArg Ty.ofCode (show _ = t.code from by dsimp only [Fields.reg, Fields.mem, Fields.br]; omega)).trans (Ty.ofCode_code t), (congrArg (fun n => n == 1) (show _ = sat.toNat from by dsimp only [Fields.reg, Fields.mem, Fields.br]; omega)).trans (bool_beq_one sat)⟩

theorem sar (c : Ctl) (d : Nat) (a : Nat) (b : VS) (t : Ty) (sat : Bool) : Statement (.sar c d a b t sat) := by
  intro f hw hf
  obtain rfl : Fields.reg c 0x043 d a b.num 0 (128 * b.sb + 8 * t.code + sat.toNat) 0 = f := Option.some.inj hf
  clear hf
  obtain ⟨hc, hw⟩ := ctlFits_of hw
  have nb : b.num < 128 := VS.num_lt (by simp only [List.all_cons, List.all_nil, Bool.and_eq_true] at hw; simp only [hw])
  simp only [List.all_cons, List.all_nil, Bool.and_true, Bool.and_eq_true, decide_eq_true_eq, WF.v, WF.ty] at hw
  have k0 := b.sb_lt
  have k1 := t.code_lt
  have k2 := bool_lt sat
  have hf : (Fields.reg c 0x043 d a b.num 0 (128 * b.sb + 8 * t.code + sat.toNat) 0).Fits := Fields.fits_reg hc (by omega) (by omega) (by omega) (by omega) (by omega) (by omega) (by omega)
  refine ⟨hf, ?_⟩
  show some (Instr.sar _ _ _ _ _ _) = _
  rw [Option.some.injEq, Instr.sar.injEq]
  exact ⟨Fields.ctl_reg hc .., rfl, rfl, (congrArg (fun n => vsOf n _) (show _ = b.sb from by dsimp only [Fields.reg, Fields.mem, Fields.br]; omega)).trans (vsOf_num b), (congrArg Ty.ofCode (show _ = t.code from by dsimp only [Fields.reg, Fields.mem, Fields.br]; omega)).trans (Ty.ofCode_code t), (congrArg (fun n => n == 1) (show _ = sat.toNat from by dsimp only [Fields.reg, Fields.mem, Fields.br]; omega)).trans (bool_beq_one sat)⟩

theorem rot (c : Ctl) (d : Nat) (a : Nat) (b : VS) (t : Ty) (sat : Bool) : Statement (.rot c d a b t sat) := by
  intro f hw hf
  obtain rfl : Fields.reg c 0x044 d a b.num 0 (128 * b.sb + 8 * t.code + sat.toNat) 0 = f := Option.some.inj hf
  clear hf
  obtain ⟨hc, hw⟩ := ctlFits_of hw
  have nb : b.num < 128 := VS.num_lt (by simp only [List.all_cons, List.all_nil, Bool.and_eq_true] at hw; simp only [hw])
  simp only [List.all_cons, List.all_nil, Bool.and_true, Bool.and_eq_true, decide_eq_true_eq, WF.v, WF.ty] at hw
  have k0 := b.sb_lt
  have k1 := t.code_lt
  have k2 := bool_lt sat
  have hf : (Fields.reg c 0x044 d a b.num 0 (128 * b.sb + 8 * t.code + sat.toNat) 0).Fits := Fields.fits_reg hc (by omega) (by omega) (by omega) (by omega) (by omega) (by omega) (by omega)
  refine ⟨hf, ?_⟩
  show some (Instr.rot _ _ _ _ _ _) = _
  rw [Option.some.injEq, Instr.rot.injEq]
  exact ⟨Fields.ctl_reg hc .., rfl, rfl, (congrArg (fun n => vsOf n _) (show _ = b.sb from by dsimp only [Fields.reg, Fields.mem, Fields.br]; omega)).trans (vsOf_num b), (congrArg Ty.ofCode (show _ = t.code from by dsimp only [Fields.reg, Fields.mem, Fields.br]; omega)).trans (Ty.ofCode_code t), (congrArg (fun n => n == 1) (show _ = sat.toNat from by dsimp only [Fields.reg, Fields.mem, Fields.br]; omega)).trans (bool_beq_one sat)⟩

theorem bfx (c : Ctl) (d : Nat) (a : Nat) (b : VS) (t : Ty) : Statement (.bfx c d a b t) := by
  intro f hw hf
  obtain rfl : Fields.reg c 0x045 d a b.num 0 (128 * b.sb + 8 * t.code) 0 = f := Option.some.inj hf
  clear hf
  obtain ⟨hc, hw⟩ := ctlFits_of hw
  have nb : b.num < 128 := VS.num_lt (by simp only [List.all_cons, List.all_nil, Bool.and_eq_true] at hw; simp only [hw])
  simp only [List.all_cons, List.all_nil, Bool.and_true, Bool.and_eq_true, decide_eq_true_eq, WF.v, WF.ty] at hw
  have k0 := b.sb_lt
  have k1 := t.code_lt
  have hf : (Fields.reg c 0x045 d a b.num 0 (128 * b.sb + 8 * t.code) 0).Fits := Fields.fits_reg hc (by omega) (by omega) (by omega) (by omega) (by omega) (by omega) (by omega)
  refine ⟨hf, ?_⟩
  show some (Instr.bfx _ _ _ _ _) = _
  rw [Option.some.injEq, Instr.bfx.injEq]
  exact ⟨Fields.ctl_reg hc .., rfl, rfl, (congrArg (fun n => vsOf n _) (show _ = b.sb from by dsimp only [Fields.reg, Fields.mem, Fields.br]; omega)).trans (vsOf_num b), (congrArg Ty.ofCode (show _ = t.code from by dsimp only [Fields.reg, Fields.mem, Fields.br]; omega)).trans (Ty.ofCode_code t)⟩

theorem bfi (c : Ctl) (d : Nat) (a : Nat) (b : VS) (e : Nat) : Statement (.bfi c d a b e) := by
  intro f hw hf
  obtain rfl : Fields.reg c 0x046 d a b.num e (128 * b.sb) 0 = f := Option.some.inj hf
  clear hf
  obtain ⟨hc, hw⟩ := ctlFits_of hw
  have nb : b.num < 128 := VS.num_lt (by simp only [List.all_cons, List.all_nil, Bool.and_eq_true] at hw; simp only [hw])
  simp only [List.all_cons, List.all_nil, Bool.and_true, Bool.and_eq_true, decide_eq_true_eq, WF.v] at hw
  have k0 := b.sb_lt
  have hf : (Fields.reg c 0x046 d a b.num e (128 * b.sb) 0).Fits := Fields.fits_reg hc (by omega) (by omega) (by omega) (by omega) (by omega) (by omega) (by omega)
  refine ⟨hf, ?_⟩
  show some (Instr.bfi _ _ _ _ _) = _
  rw [Option.some.injEq, Instr.bfi.injEq]
  exact ⟨Fields.ctl_reg hc .., rfl, rfl, (congrArg (fun n => vsOf n _) (show _ = b.sb from by dsimp only [Fields.reg, Fields.mem, Fields.br]; omega)).trans (vsOf_num b), rfl⟩

theorem popc (c : Ctl) (d : Nat) (a : Nat) (t : Ty) : Statement (.popc c d a t) := by
  intro f hw hf
  obtain rfl : Fields.reg c 0x047 d a 0 0 (8 * t.code) 0 = f := Option.some.inj hf
  clear hf
  obtain ⟨hc, hw⟩ := ctlFits_of hw
  simp only [List.all_cons, List.all_nil, Bool.and_true, Bool.and_eq_true, decide_eq_true_eq, WF.v, WF.ty] at hw
  have k0 := t.code_lt
  have hf : (Fields.reg c 0x047 d a 0 0 (8 * t.code) 0).Fits := Fields.fits_reg hc (by omega) (by omega) (by omega) (by omega) (by omega) (by omega) (by omega)
  refine ⟨hf, ?_⟩
  show some (Instr.popc _ _ _ _) = _
  rw [Option.some.injEq, Instr.popc.injEq]
  exact ⟨Fields.ctl_reg hc .., rfl, rfl, (congrArg Ty.ofCode (show _ = t.code from by dsimp only [Fields.reg, Fields.mem, Fields.br]; omega)).trans (Ty.ofCode_code t)⟩

theorem clz (c : Ctl) (d : Nat) (a : Nat) (t : Ty) : Statement (.clz c d a t) := by
  intro f hw hf
  obtain rfl : Fields.reg c 0x048 d a 0 0 (8 * t.code) 0 = f := Option.some.inj hf
  clear hf
  obtain ⟨hc, hw⟩ := ctlFits_of hw
  simp only [List.all_cons, List.all_nil, Bool.and_true, Bool.and_eq_true, decide_eq_true_eq, WF.v, WF.ty] at hw
  have k0 := t.code_lt
  have hf : (Fields.reg c 0x048 d a 0 0 (8 * t.code) 0).Fits := Fields.fits_reg hc (by omega) (by omega) (by omega) (by omega) (by omega) (by omega) (by omega)
  refine ⟨hf, ?_⟩
  show some (Instr.clz _ _ _ _) = _
  rw [Option.some.injEq, Instr.clz.injEq]
  exact ⟨Fields.ctl_reg hc .., rfl, rfl, (congrArg Ty.ofCode (show _ = t.code from by dsimp only [Fields.reg, Fields.mem, Fields.br]; omega)).trans (Ty.ofCode_code t)⟩

theorem brev (c : Ctl) (d : Nat) (a : Nat) (t : Ty) : Statement (.brev c d a t) := by
  intro f hw hf
  obtain rfl : Fields.reg c 0x049 d a 0 0 (8 * t.code) 0 = f := Option.some.inj hf
  clear hf
  obtain ⟨hc, hw⟩ := ctlFits_of hw
  simp only [List.all_cons, List.all_nil, Bool.and_true, Bool.and_eq_true, decide_eq_true_eq, WF.v, WF.ty] at hw
  have k0 := t.code_lt
  have hf : (Fields.reg c 0x049 d a 0 0 (8 * t.code) 0).Fits := Fields.fits_reg hc (by omega) (by omega) (by omega) (by omega) (by omega) (by omega) (by omega)
  refine ⟨hf, ?_⟩
  show some (Instr.brev _ _ _ _) = _
  rw [Option.some.injEq, Instr.brev.injEq]
  exact ⟨Fields.ctl_reg hc .., rfl, rfl, (congrArg Ty.ofCode (show _ = t.code from by dsimp only [Fields.reg, Fields.mem, Fields.br]; omega)).trans (Ty.ofCode_code t)⟩

theorem lea (c : Ctl) (d : Nat) (a : Nat) (b : VS) (t : Ty) (sh : Nat) : Statement (.lea c d a b t sh) := by
  intro f hw hf
  obtain rfl : Fields.reg c 0x04A d a b.num 0 (128 * b.sb + 8 * t.code + sh) 0 = f := Option.some.inj hf
  clear hf
  obtain ⟨hc, hw⟩ := ctlFits_of hw
  have nb : b.num < 128 := VS.num_lt (by simp only [List.all_cons, List.all_nil, Bool.and_eq_true] at hw; simp only [hw])
  simp only [List.all_cons, List.all_nil, Bool.and_true, Bool.and_eq_true, decide_eq_true_eq, WF.v, WF.uimm, WF.ty] at hw
  have k0 := b.sb_lt
  have k1 := t.code_lt
  have hf : (Fields.reg c 0x04A d a b.num 0 (128 * b.sb + 8 * t.code + sh) 0).Fits := Fields.fits_reg hc (by omega) (by omega) (by omega) (by omega) (by omega) (by omega) (by omega)
  refine ⟨hf, ?_⟩
  show some (Instr.lea _ _ _ _ _ _) = _
  rw [Option.some.injEq, Instr.lea.injEq]
  exact ⟨Fields.ctl_reg hc .., rfl, rfl, (congrArg (fun n => vsOf n _) (show _ = b.sb from by dsimp only [Fields.reg, Fields.mem, Fields.br]; omega)).trans (vsOf_num b), (congrArg Ty.ofCode (show _ = t.code from by dsimp only [Fields.reg, Fields.mem, Fields.br]; omega)).trans (Ty.ofCode_code t), by dsimp only [Fields.reg, Fields.mem, Fields.br]; omega⟩

theorem isetp (c : Ctl) (d : Nat) (a : Nat) (b : VS) (t : Ty) (k : Cmp) (any : Bool) : Statement (.isetp c d a b t k any) := by
  intro f hw hf
  obtain rfl : Fields.reg c 0x04B d a b.num 0 (128 * b.sb + 8 * t.code + k.code) any.toNat = f := Option.some.inj hf
  clear hf
  obtain ⟨hc, hw⟩ := ctlFits_of hw
  have nb : b.num < 128 := VS.num_lt (by simp only [List.all_cons, List.all_nil, Bool.and_eq_true] at hw; simp only [hw])
  simp only [List.all_cons, List.all_nil, Bool.and_true, Bool.and_eq_true, decide_eq_true_eq, WF.v, WF.p, WF.ty, WF.md] at hw
  have k0 := b.sb_lt
  have k1 := t.code_lt
  have k2 := k.code_lt
  have k3 := bool_lt any
  have hf : (Fields.reg c 0x04B d a b.num 0 (128 * b.sb + 8 * t.code + k.code) any.toNat).Fits := Fields.fits_reg hc (by omega) (by omega) (by omega) (by omega) (by omega) (by omega) (by omega)
  refine ⟨hf, ?_⟩
  show some (Instr.isetp _ _ _ _ _ _ _) = _
  rw [Option.some.injEq, Instr.isetp.injEq]
  exact ⟨Fields.ctl_reg hc .., rfl, rfl, (congrArg (fun n => vsOf n _) (show _ = b.sb from by dsimp only [Fields.reg, Fields.mem, Fields.br]; omega)).trans (vsOf_num b), (congrArg Ty.ofCode (show _ = t.code from by dsimp only [Fields.reg, Fields.mem, Fields.br]; omega)).trans (Ty.ofCode_code t), (congrArg Cmp.ofCode (show _ = k.code from by dsimp only [Fields.reg, Fields.mem, Fields.br]; omega)).trans (Cmp.ofCode_code k), (congrArg (fun n => n == 1) (show _ = any.toNat from rfl)).trans (bool_beq_one any)⟩

theorem iaddi (c : Ctl) (d : Nat) (a : Nat) (i : Int) : Statement (.iaddi c d a i) := by
  intro f hw hf
  obtain rfl : Fields.ofImm c 0x04C d a (toBits 22 i) = f := Option.some.inj hf
  clear hf
  obtain ⟨hc, hw⟩ := ctlFits_of hw
  simp only [List.all_cons, List.all_nil, Bool.and_true, Bool.and_eq_true, decide_eq_true_eq, WF.v, WF.simm] at hw
  have hi : (toBits 22 i) < 2 ^ 22 := by exact toBits_lt 22 i
  have hf : (Fields.ofImm c 0x04C d a (toBits 22 i)).Fits := Fields.fits_ofImm hc (by omega) (by omega) (by omega) hi
  refine ⟨hf, ?_⟩
  show some (Instr.iaddi _ _ _ _) = _
  rw [Option.some.injEq, Instr.iaddi.injEq]
  exact ⟨Fields.ctl_ofImm hc .., rfl, rfl, (congrArg (ofBits 22) (Fields.imm_ofImm _ _ _ _ hi)).trans (ofBits_toBits (by decide) (by omega))⟩

theorem idot (c : Ctl) (d : Nat) (a : Nat) (b : VS) (e : Nat) (ta : Ty) (tb : Ty) (sat : Bool) : Statement (.idot c d a b e ta tb sat) := by
  intro f hw hf
  obtain rfl : Fields.reg c 0x04D d a b.num e (128 * b.sb + 8 * ta.code + sat.toNat) tb.code = f := Option.some.inj hf
  clear hf
  obtain ⟨hc, hw⟩ := ctlFits_of hw
  have nb : b.num < 128 := VS.num_lt (by simp only [List.all_cons, List.all_nil, Bool.and_eq_true] at hw; simp only [hw])
  simp only [List.all_cons, List.all_nil, Bool.and_true, Bool.and_eq_true, decide_eq_true_eq, WF.v, WF.ty] at hw
  have k0 := b.sb_lt
  have k1 := ta.code_lt
  have k2 := tb.code_lt
  have k3 := bool_lt sat
  have hf : (Fields.reg c 0x04D d a b.num e (128 * b.sb + 8 * ta.code + sat.toNat) tb.code).Fits := Fields.fits_reg hc (by omega) (by omega) (by omega) (by omega) (by omega) (by omega) (by omega)
  refine ⟨hf, ?_⟩
  show some (Instr.idot _ _ _ _ _ _ _ _) = _
  rw [Option.some.injEq, Instr.idot.injEq]
  exact ⟨Fields.ctl_reg hc .., rfl, rfl, (congrArg (fun n => vsOf n _) (show _ = b.sb from by dsimp only [Fields.reg, Fields.mem, Fields.br]; omega)).trans (vsOf_num b), rfl, (congrArg Ty.ofCode (show _ = ta.code from by dsimp only [Fields.reg, Fields.mem, Fields.br]; omega)).trans (Ty.ofCode_code ta), (congrArg Ty.ofCode (show _ = tb.code from rfl)).trans (Ty.ofCode_code tb), (congrArg (fun n => n == 1) (show _ = sat.toNat from by dsimp only [Fields.reg, Fields.mem, Fields.br]; omega)).trans (bool_beq_one sat)⟩

theorem plop (c : Ctl) (d : Nat) (pa : Nat) (pb : Nat) (lut : Nat) : Statement (.plop c d pa pb lut) := by
  intro f hw hf
  obtain rfl : Fields.reg c 0x04E d pa pb 0 0 lut = f := Option.some.inj hf
  clear hf
  obtain ⟨hc, hw⟩ := ctlFits_of hw
  simp only [List.all_cons, List.all_nil, Bool.and_true, Bool.and_eq_true, decide_eq_true_eq, WF.p, WF.uimm] at hw
  have hf : (Fields.reg c 0x04E d pa pb 0 0 lut).Fits := Fields.fits_reg hc (by omega) (by omega) (by omega) (by omega) (by omega) (by omega) (by omega)
  refine ⟨hf, ?_⟩
  show some (Instr.plop _ _ _ _ _) = _
  rw [Option.some.injEq, Instr.plop.injEq]
  exact ⟨Fields.ctl_reg hc .., rfl, rfl, rfl, rfl⟩

theorem lshf (c : Ctl) (d : Nat) (a : Nat) (b : VS) (k : Shf) : Statement (.lshf c d a b k) := by
  intro f hw hf
  obtain rfl : Fields.reg c 0x050 d a b.num 0 (128 * b.sb + k.code) 0 = f := Option.some.inj hf
  clear hf
  obtain ⟨hc, hw⟩ := ctlFits_of hw
  have nb : b.num < 128 := VS.num_lt (by simp only [List.all_cons, List.all_nil, Bool.and_eq_true] at hw; simp only [hw])
  simp only [List.all_cons, List.all_nil, Bool.and_true, Bool.and_eq_true, decide_eq_true_eq, WF.v] at hw
  have k0 := b.sb_lt
  have k1 := k.code_lt
  have hf : (Fields.reg c 0x050 d a b.num 0 (128 * b.sb + k.code) 0).Fits := Fields.fits_reg hc (by omega) (by omega) (by omega) (by omega) (by omega) (by omega) (by omega)
  refine ⟨hf, ?_⟩
  show some (Instr.lshf _ _ _ _ _) = _
  rw [Option.some.injEq, Instr.lshf.injEq]
  exact ⟨Fields.ctl_reg hc .., rfl, rfl, (congrArg (fun n => vsOf n _) (show _ = b.sb from by dsimp only [Fields.reg, Fields.mem, Fields.br]; omega)).trans (vsOf_num b), (congrArg Shf.ofCode (show _ = k.code from by dsimp only [Fields.reg, Fields.mem, Fields.br]; omega)).trans (Shf.ofCode_code k)⟩

theorem lbcast (c : Ctl) (d : Nat) (a : Nat) (b : Nat) (t : Ty) : Statement (.lbcast c d a b t) := by
  intro f hw hf
  obtain rfl : Fields.reg c 0x051 d a b 0 (8 * t.code) 0 = f := Option.some.inj hf
  clear hf
  obtain ⟨hc, hw⟩ := ctlFits_of hw
  simp only [List.all_cons, List.all_nil, Bool.and_true, Bool.and_eq_true, decide_eq_true_eq, WF.v, WF.s, WF.ty] at hw
  have k0 := t.code_lt
  have hf : (Fields.reg c 0x051 d a b 0 (8 * t.code) 0).Fits := Fields.fits_reg hc (by omega) (by omega) (by omega) (by omega) (by omega) (by omega) (by omega)
  refine ⟨hf, ?_⟩
  show some (Instr.lbcast _ _ _ _ _) = _
  rw [Option.some.injEq, Instr.lbcast.injEq]
  exact ⟨Fields.ctl_reg hc .., rfl, rfl, rfl, (congrArg Ty.ofCode (show _ = t.code from by dsimp only [Fields.reg, Fields.mem, Fields.br]; omega)).trans (Ty.ofCode_code t)⟩

theorem lred (c : Ctl) (d : Nat) (a : Nat) (t : Ty) (op : RedOp) : Statement (.lred c d a t op) := by
  intro f hw hf
  obtain rfl : Fields.reg c 0x052 d a 0 0 (8 * t.code + op.code) 0 = f := Option.some.inj hf
  clear hf
  obtain ⟨hc, hw⟩ := ctlFits_of hw
  simp only [List.all_cons, List.all_nil, Bool.and_true, Bool.and_eq_true, decide_eq_true_eq, WF.v, WF.ty, WF.md] at hw
  have k0 := t.code_lt
  have k1 := op.code_lt
  have hf : (Fields.reg c 0x052 d a 0 0 (8 * t.code + op.code) 0).Fits := Fields.fits_reg hc (by omega) (by omega) (by omega) (by omega) (by omega) (by omega) (by omega)
  refine ⟨hf, ?_⟩
  show some (Instr.lred _ _ _ _ _) = _
  rw [Option.some.injEq, Instr.lred.injEq]
  exact ⟨Fields.ctl_reg hc .., rfl, rfl, (congrArg Ty.ofCode (show _ = t.code from by dsimp only [Fields.reg, Fields.mem, Fields.br]; omega)).trans (Ty.ofCode_code t), (congrArg RedOp.ofCode (show _ = op.code from by dsimp only [Fields.reg, Fields.mem, Fields.br]; omega)).trans (RedOp.ofCode_code op)⟩

theorem lscan (c : Ctl) (d : Nat) (a : Nat) (t : Ty) (op : RedOp) (ex : Bool) : Statement (.lscan c d a t op ex) := by
  intro f hw hf
  obtain rfl : Fields.reg c 0x053 d a 0 0 (8 * t.code + op.code) ex.toNat = f := Option.some.inj hf
  clear hf
  obtain ⟨hc, hw⟩ := ctlFits_of hw
  simp only [List.all_cons, List.all_nil, Bool.and_true, Bool.and_eq_true, decide_eq_true_eq, WF.v, WF.ty, WF.md] at hw
  have k0 := t.code_lt
  have k1 := op.code_lt
  have k2 := bool_lt ex
  have hf : (Fields.reg c 0x053 d a 0 0 (8 * t.code + op.code) ex.toNat).Fits := Fields.fits_reg hc (by omega) (by omega) (by omega) (by omega) (by omega) (by omega) (by omega)
  refine ⟨hf, ?_⟩
  show some (Instr.lscan _ _ _ _ _ _) = _
  rw [Option.some.injEq, Instr.lscan.injEq]
  exact ⟨Fields.ctl_reg hc .., rfl, rfl, (congrArg Ty.ofCode (show _ = t.code from by dsimp only [Fields.reg, Fields.mem, Fields.br]; omega)).trans (Ty.ofCode_code t), (congrArg RedOp.ofCode (show _ = op.code from by dsimp only [Fields.reg, Fields.mem, Fields.br]; omega)).trans (RedOp.ofCode_code op), (congrArg (fun n => n == 1) (show _ = ex.toNat from rfl)).trans (bool_beq_one ex)⟩

theorem lperm (c : Ctl) (d : Nat) (a : Nat) (b : Nat) (t : Ty) : Statement (.lperm c d a b t) := by
  intro f hw hf
  obtain rfl : Fields.reg c 0x054 d a b 0 (8 * t.code) 0 = f := Option.some.inj hf
  clear hf
  obtain ⟨hc, hw⟩ := ctlFits_of hw
  simp only [List.all_cons, List.all_nil, Bool.and_true, Bool.and_eq_true, decide_eq_true_eq, WF.v, WF.ty] at hw
  have k0 := t.code_lt
  have hf : (Fields.reg c 0x054 d a b 0 (8 * t.code) 0).Fits := Fields.fits_reg hc (by omega) (by omega) (by omega) (by omega) (by omega) (by omega) (by omega)
  refine ⟨hf, ?_⟩
  show some (Instr.lperm _ _ _ _ _) = _
  rw [Option.some.injEq, Instr.lperm.injEq]
  exact ⟨Fields.ctl_reg hc .., rfl, rfl, rfl, (congrArg Ty.ofCode (show _ = t.code from by dsimp only [Fields.reg, Fields.mem, Fields.br]; omega)).trans (Ty.ofCode_code t)⟩

theorem rdlane (c : Ctl) (d : Nat) (a : Nat) (b : Nat) (t : Ty) : Statement (.rdlane c d a b t) := by
  intro f hw hf
  obtain rfl : Fields.reg c 0x055 d a b 0 (8 * t.code) 0 = f := Option.some.inj hf
  clear hf
  obtain ⟨hc, hw⟩ := ctlFits_of hw
  simp only [List.all_cons, List.all_nil, Bool.and_true, Bool.and_eq_true, decide_eq_true_eq, WF.v, WF.s, WF.ty] at hw
  have k0 := t.code_lt
  have hf : (Fields.reg c 0x055 d a b 0 (8 * t.code) 0).Fits := Fields.fits_reg hc (by omega) (by omega) (by omega) (by omega) (by omega) (by omega) (by omega)
  refine ⟨hf, ?_⟩
  show some (Instr.rdlane _ _ _ _ _) = _
  rw [Option.some.injEq, Instr.rdlane.injEq]
  exact ⟨Fields.ctl_reg hc .., rfl, rfl, rfl, (congrArg Ty.ofCode (show _ = t.code from by dsimp only [Fields.reg, Fields.mem, Fields.br]; omega)).trans (Ty.ofCode_code t)⟩

theorem wrlane (c : Ctl) (d : Nat) (a : Nat) (b : Nat) (t : Ty) : Statement (.wrlane c d a b t) := by
  intro f hw hf
  obtain rfl : Fields.reg c 0x056 d a b 0 (8 * t.code) 0 = f := Option.some.inj hf
  clear hf
  obtain ⟨hc, hw⟩ := ctlFits_of hw
  simp only [List.all_cons, List.all_nil, Bool.and_true, Bool.and_eq_true, decide_eq_true_eq, WF.v, WF.s, WF.ty] at hw
  have k0 := t.code_lt
  have hf : (Fields.reg c 0x056 d a b 0 (8 * t.code) 0).Fits := Fields.fits_reg hc (by omega) (by omega) (by omega) (by omega) (by omega) (by omega) (by omega)
  refine ⟨hf, ?_⟩
  show some (Instr.wrlane _ _ _ _ _) = _
  rw [Option.some.injEq, Instr.wrlane.injEq]
  exact ⟨Fields.ctl_reg hc .., rfl, rfl, rfl, (congrArg Ty.ofCode (show _ = t.code from by dsimp only [Fields.reg, Fields.mem, Fields.br]; omega)).trans (Ty.ofCode_code t)⟩

theorem smov (c : Ctl) (d : Nat) (a : Nat) : Statement (.smov c d a) := by
  intro f hw hf
  obtain rfl : Fields.reg c 0x060 d a 0 0 0 0 = f := Option.some.inj hf
  clear hf
  obtain ⟨hc, hw⟩ := ctlFits_of hw
  simp only [List.all_cons, List.all_nil, Bool.and_true, Bool.and_eq_true, decide_eq_true_eq, WF.s] at hw
  have hf : (Fields.reg c 0x060 d a 0 0 0 0).Fits := Fields.fits_reg hc (by omega) (by omega) (by omega) (by omega) (by omega) (by omega) (by omega)
  refine ⟨hf, ?_⟩
  show some (Instr.smov _ _ _) = _
  rw [Option.some.injEq, Instr.smov.injEq]
  exact ⟨Fields.ctl_reg hc .., rfl, rfl⟩

theorem smovi (c : Ctl) (d : Nat) (i : Int) : Statement (.smovi c d i) := by
  intro f hw hf
  obtain rfl : Fields.ofImm c 0x061 d 0 (toBits 22 i) = f := Option.some.inj hf
  clear hf
  obtain ⟨hc, hw⟩ := ctlFits_of hw
  simp only [List.all_cons, List.all_nil, Bool.and_true, Bool.and_eq_true, decide_eq_true_eq, WF.s, WF.simm] at hw
  have hi : (toBits 22 i) < 2 ^ 22 := by exact toBits_lt 22 i
  have hf : (Fields.ofImm c 0x061 d 0 (toBits 22 i)).Fits := Fields.fits_ofImm hc (by omega) (by omega) (by omega) hi
  refine ⟨hf, ?_⟩
  show some (Instr.smovi _ _ _) = _
  rw [Option.some.injEq, Instr.smovi.injEq]
  exact ⟨Fields.ctl_ofImm hc .., rfl, (congrArg (ofBits 22) (Fields.imm_ofImm _ _ _ _ hi)).trans (ofBits_toBits (by decide) (by omega))⟩

theorem smovk (c : Ctl) (d : Nat) (n : Nat) (h : Nat) : Statement (.smovk c d n h) := by
  intro f hw hf
  obtain rfl : Fields.ofImm c 0x062 d 0 (n + 65536 * h) = f := Option.some.inj hf
  clear hf
  obtain ⟨hc, hw⟩ := ctlFits_of hw
  simp only [List.all_cons, List.all_nil, Bool.and_true, Bool.and_eq_true, decide_eq_true_eq, WF.s, WF.uimm] at hw
  have hi : (n + 65536 * h) < 2 ^ 22 := by omega
  have hf : (Fields.ofImm c 0x062 d 0 (n + 65536 * h)).Fits := Fields.fits_ofImm hc (by omega) (by omega) (by omega) hi
  refine ⟨hf, ?_⟩
  show some (Instr.smovk _ _ _ _) = _
  rw [Option.some.injEq, Instr.smovk.injEq]
  exact ⟨Fields.ctl_ofImm hc .., rfl, by rw [Fields.imm_ofImm _ _ _ _ hi]; omega, by rw [Fields.imm_ofImm _ _ _ _ hi]; omega⟩

theorem sadd (c : Ctl) (d : Nat) (a : Nat) (b : Nat) : Statement (.sadd c d a b) := by
  intro f hw hf
  obtain rfl : Fields.reg c 0x063 d a b 0 0 0 = f := Option.some.inj hf
  clear hf
  obtain ⟨hc, hw⟩ := ctlFits_of hw
  simp only [List.all_cons, List.all_nil, Bool.and_true, Bool.and_eq_true, decide_eq_true_eq, WF.s] at hw
  have hf : (Fields.reg c 0x063 d a b 0 0 0).Fits := Fields.fits_reg hc (by omega) (by omega) (by omega) (by omega) (by omega) (by omega) (by omega)
  refine ⟨hf, ?_⟩
  show some (Instr.sadd _ _ _ _) = _
  rw [Option.some.injEq, Instr.sadd.injEq]
  exact ⟨Fields.ctl_reg hc .., rfl, rfl, rfl⟩

theorem ssub (c : Ctl) (d : Nat) (a : Nat) (b : Nat) : Statement (.ssub c d a b) := by
  intro f hw hf
  obtain rfl : Fields.reg c 0x064 d a b 0 0 0 = f := Option.some.inj hf
  clear hf
  obtain ⟨hc, hw⟩ := ctlFits_of hw
  simp only [List.all_cons, List.all_nil, Bool.and_true, Bool.and_eq_true, decide_eq_true_eq, WF.s] at hw
  have hf : (Fields.reg c 0x064 d a b 0 0 0).Fits := Fields.fits_reg hc (by omega) (by omega) (by omega) (by omega) (by omega) (by omega) (by omega)
  refine ⟨hf, ?_⟩
  show some (Instr.ssub _ _ _ _) = _
  rw [Option.some.injEq, Instr.ssub.injEq]
  exact ⟨Fields.ctl_reg hc .., rfl, rfl, rfl⟩

theorem smul (c : Ctl) (d : Nat) (a : Nat) (b : Nat) : Statement (.smul c d a b) := by
  intro f hw hf
  obtain rfl : Fields.reg c 0x065 d a b 0 0 0 = f := Option.some.inj hf
  clear hf
  obtain ⟨hc, hw⟩ := ctlFits_of hw
  simp only [List.all_cons, List.all_nil, Bool.and_true, Bool.and_eq_true, decide_eq_true_eq, WF.s] at hw
  have hf : (Fields.reg c 0x065 d a b 0 0 0).Fits := Fields.fits_reg hc (by omega) (by omega) (by omega) (by omega) (by omega) (by omega) (by omega)
  refine ⟨hf, ?_⟩
  show some (Instr.smul _ _ _ _) = _
  rw [Option.some.injEq, Instr.smul.injEq]
  exact ⟨Fields.ctl_reg hc .., rfl, rfl, rfl⟩

theorem smad (c : Ctl) (d : Nat) (a : Nat) (b : Nat) (e : Nat) : Statement (.smad c d a b e) := by
  intro f hw hf
  obtain rfl : Fields.reg c 0x066 d a b e 0 0 = f := Option.some.inj hf
  clear hf
  obtain ⟨hc, hw⟩ := ctlFits_of hw
  simp only [List.all_cons, List.all_nil, Bool.and_true, Bool.and_eq_true, decide_eq_true_eq, WF.s] at hw
  have hf : (Fields.reg c 0x066 d a b e 0 0).Fits := Fields.fits_reg hc (by omega) (by omega) (by omega) (by omega) (by omega) (by omega) (by omega)
  refine ⟨hf, ?_⟩
  show some (Instr.smad _ _ _ _ _) = _
  rw [Option.some.injEq, Instr.smad.injEq]
  exact ⟨Fields.ctl_reg hc .., rfl, rfl, rfl, rfl⟩

theorem sand (c : Ctl) (d : Nat) (a : Nat) (b : Nat) : Statement (.sand c d a b) := by
  intro f hw hf
  obtain rfl : Fields.reg c 0x067 d a b 0 0 0 = f := Option.some.inj hf
  clear hf
  obtain ⟨hc, hw⟩ := ctlFits_of hw
  simp only [List.all_cons, List.all_nil, Bool.and_true, Bool.and_eq_true, decide_eq_true_eq, WF.s] at hw
  have hf : (Fields.reg c 0x067 d a b 0 0 0).Fits := Fields.fits_reg hc (by omega) (by omega) (by omega) (by omega) (by omega) (by omega) (by omega)
  refine ⟨hf, ?_⟩
  show some (Instr.sand _ _ _ _) = _
  rw [Option.some.injEq, Instr.sand.injEq]
  exact ⟨Fields.ctl_reg hc .., rfl, rfl, rfl⟩

theorem sor (c : Ctl) (d : Nat) (a : Nat) (b : Nat) : Statement (.sor c d a b) := by
  intro f hw hf
  obtain rfl : Fields.reg c 0x068 d a b 0 0 0 = f := Option.some.inj hf
  clear hf
  obtain ⟨hc, hw⟩ := ctlFits_of hw
  simp only [List.all_cons, List.all_nil, Bool.and_true, Bool.and_eq_true, decide_eq_true_eq, WF.s] at hw
  have hf : (Fields.reg c 0x068 d a b 0 0 0).Fits := Fields.fits_reg hc (by omega) (by omega) (by omega) (by omega) (by omega) (by omega) (by omega)
  refine ⟨hf, ?_⟩
  show some (Instr.sor _ _ _ _) = _
  rw [Option.some.injEq, Instr.sor.injEq]
  exact ⟨Fields.ctl_reg hc .., rfl, rfl, rfl⟩

theorem sxor (c : Ctl) (d : Nat) (a : Nat) (b : Nat) : Statement (.sxor c d a b) := by
  intro f hw hf
  obtain rfl : Fields.reg c 0x069 d a b 0 0 0 = f := Option.some.inj hf
  clear hf
  obtain ⟨hc, hw⟩ := ctlFits_of hw
  simp only [List.all_cons, List.all_nil, Bool.and_true, Bool.and_eq_true, decide_eq_true_eq, WF.s] at hw
  have hf : (Fields.reg c 0x069 d a b 0 0 0).Fits := Fields.fits_reg hc (by omega) (by omega) (by omega) (by omega) (by omega) (by omega) (by omega)
  refine ⟨hf, ?_⟩
  show some (Instr.sxor _ _ _ _) = _
  rw [Option.some.injEq, Instr.sxor.injEq]
  exact ⟨Fields.ctl_reg hc .., rfl, rfl, rfl⟩

theorem sshl (c : Ctl) (d : Nat) (a : Nat) (b : Nat) : Statement (.sshl c d a b) := by
  intro f hw hf
  obtain rfl : Fields.reg c 0x06A d a b 0 0 0 = f := Option.some.inj hf
  clear hf
  obtain ⟨hc, hw⟩ := ctlFits_of hw
  simp only [List.all_cons, List.all_nil, Bool.and_true, Bool.and_eq_true, decide_eq_true_eq, WF.s] at hw
  have hf : (Fields.reg c 0x06A d a b 0 0 0).Fits := Fields.fits_reg hc (by omega) (by omega) (by omega) (by omega) (by omega) (by omega) (by omega)
  refine ⟨hf, ?_⟩
  show some (Instr.sshl _ _ _ _) = _
  rw [Option.some.injEq, Instr.sshl.injEq]
  exact ⟨Fields.ctl_reg hc .., rfl, rfl, rfl⟩

theorem sshr (c : Ctl) (d : Nat) (a : Nat) (b : Nat) : Statement (.sshr c d a b) := by
  intro f hw hf
  obtain rfl : Fields.reg c 0x06B d a b 0 0 0 = f := Option.some.inj hf
  clear hf
  obtain ⟨hc, hw⟩ := ctlFits_of hw
  simp only [List.all_cons, List.all_nil, Bool.and_true, Bool.and_eq_true, decide_eq_true_eq, WF.s] at hw
  have hf : (Fields.reg c 0x06B d a b 0 0 0).Fits := Fields.fits_reg hc (by omega) (by omega) (by omega) (by omega) (by omega) (by omega) (by omega)
  refine ⟨hf, ?_⟩
  show some (Instr.sshr _ _ _ _) = _
  rw [Option.some.injEq, Instr.sshr.injEq]
  exact ⟨Fields.ctl_reg hc .., rfl, rfl, rfl⟩

theorem ssar (c : Ctl) (d : Nat) (a : Nat) (b : Nat) : Statement (.ssar c d a b) := by
  intro f hw hf
  obtain rfl : Fields.reg c 0x06C d a b 0 0 0 = f := Option.some.inj hf
  clear hf
  obtain ⟨hc, hw⟩ := ctlFits_of hw
  simp only [List.all_cons, List.all_nil, Bool.and_true, Bool.and_eq_true, decide_eq_true_eq, WF.s] at hw
  have hf : (Fields.reg c 0x06C d a b 0 0 0).Fits := Fields.fits_reg hc (by omega) (by omega) (by omega) (by omega) (by omega) (by omega) (by omega)
  refine ⟨hf, ?_⟩
  show some (Instr.ssar _ _ _ _) = _
  rw [Option.some.injEq, Instr.ssar.injEq]
  exact ⟨Fields.ctl_reg hc .., rfl, rfl, rfl⟩

theorem ssetq (c : Ctl) (d : Nat) (a : Nat) (b : Nat) (k : Cmp) (u : Bool) : Statement (.ssetq c d a b k u) := by
  intro f hw hf
  obtain rfl : Fields.reg c 0x06D d a b 0 (k.code + 8 * u.toNat) 0 = f := Option.some.inj hf
  clear hf
  obtain ⟨hc, hw⟩ := ctlFits_of hw
  simp only [List.all_cons, List.all_nil, Bool.and_true, Bool.and_eq_true, decide_eq_true_eq, WF.s, WF.p, WF.md] at hw
  have k0 := k.code_lt
  have k1 := bool_lt u
  have hf : (Fields.reg c 0x06D d a b 0 (k.code + 8 * u.toNat) 0).Fits := Fields.fits_reg hc (by omega) (by omega) (by omega) (by omega) (by omega) (by omega) (by omega)
  refine ⟨hf, ?_⟩
  show some (Instr.ssetq _ _ _ _ _ _) = _
  rw [Option.some.injEq, Instr.ssetq.injEq]
  exact ⟨Fields.ctl_reg hc .., rfl, rfl, rfl, (congrArg Cmp.ofCode (show _ = k.code from by dsimp only [Fields.reg, Fields.mem, Fields.br]; omega)).trans (Cmp.ofCode_code k), (congrArg (fun n => n == 1) (show _ = u.toNat from by dsimp only [Fields.reg, Fields.mem, Fields.br]; omega)).trans (bool_beq_one u)⟩

theorem smin (c : Ctl) (d : Nat) (a : Nat) (b : Nat) (u : Bool) : Statement (.smin c d a b u) := by
  intro f hw hf
  obtain rfl : Fields.reg c 0x06E d a b 0 (8 * u.toNat) 0 = f := Option.some.inj hf
  clear hf
  obtain ⟨hc, hw⟩ := ctlFits_of hw
  simp only [List.all_cons, List.all_nil, Bool.and_true, Bool.and_eq_true, decide_eq_true_eq, WF.s] at hw
  have k0 := bool_lt u
  have hf : (Fields.reg c 0x06E d a b 0 (8 * u.toNat) 0).Fits := Fields.fits_reg hc (by omega) (by omega) (by omega) (by omega) (by omega) (by omega) (by omega)
  refine ⟨hf, ?_⟩
  show some (Instr.smin _ _ _ _ _) = _
  rw [Option.some.injEq, Instr.smin.injEq]
  exact ⟨Fields.ctl_reg hc .., rfl, rfl, rfl, by cases u <;> rfl⟩

theorem smax (c : Ctl) (d : Nat) (a : Nat) (b : Nat) (u : Bool) : Statement (.smax c d a b u) := by
  intro f hw hf
  obtain rfl : Fields.reg c 0x06F d a b 0 (8 * u.toNat) 0 = f := Option.some.inj hf
  clear hf
  obtain ⟨hc, hw⟩ := ctlFits_of hw
  simp only [List.all_cons, List.all_nil, Bool.and_true, Bool.and_eq_true, decide_eq_true_eq, WF.s] at hw
  have k0 := bool_lt u
  have hf : (Fields.reg c 0x06F d a b 0 (8 * u.toNat) 0).Fits := Fields.fits_reg hc (by omega) (by omega) (by omega) (by omega) (by omega) (by omega) (by omega)
  refine ⟨hf, ?_⟩
  show some (Instr.smax _ _ _ _ _) = _
  rw [Option.some.injEq, Instr.smax.injEq]
  exact ⟨Fields.ctl_reg hc .., rfl, rfl, rfl, by cases u <;> rfl⟩

theorem fadd (c : Ctl) (d : Nat) (a : Nat) (b : VS) (t : Ty) (r : Rnd) : Statement (.fadd c d a b t r) := by
  intro f hw hf
  obtain rfl : Fields.reg c 0x080 d a b.num 0 (128 * b.sb + 8 * t.code + r.code) 0 = f := Option.some.inj hf
  clear hf
  obtain ⟨hc, hw⟩ := ctlFits_of hw
  have nb : b.num < 128 := VS.num_lt (by simp only [List.all_cons, List.all_nil, Bool.and_eq_true] at hw; simp only [hw])
  simp only [List.all_cons, List.all_nil, Bool.and_true, Bool.and_eq_true, decide_eq_true_eq, WF.v, WF.ty] at hw
  have k0 := b.sb_lt
  have k1 := t.code_lt
  have k2 := r.code_lt
  have hf : (Fields.reg c 0x080 d a b.num 0 (128 * b.sb + 8 * t.code + r.code) 0).Fits := Fields.fits_reg hc (by omega) (by omega) (by omega) (by omega) (by omega) (by omega) (by omega)
  refine ⟨hf, ?_⟩
  show some (Instr.fadd _ _ _ _ _ _) = _
  rw [Option.some.injEq, Instr.fadd.injEq]
  exact ⟨Fields.ctl_reg hc .., rfl, rfl, (congrArg (fun n => vsOf n _) (show _ = b.sb from by dsimp only [Fields.reg, Fields.mem, Fields.br]; omega)).trans (vsOf_num b), (congrArg Ty.ofCode (show _ = t.code from by dsimp only [Fields.reg, Fields.mem, Fields.br]; omega)).trans (Ty.ofCode_code t), (congrArg Rnd.ofCode (show _ = r.code from by dsimp only [Fields.reg, Fields.mem, Fields.br]; omega)).trans (Rnd.ofCode_code r)⟩

theorem fsub (c : Ctl) (d : Nat) (a : Nat) (b : VS) (t : Ty) (r : Rnd) : Statement (.fsub c d a b t r) := by
  intro f hw hf
  obtain rfl : Fields.reg c 0x081 d a b.num 0 (128 * b.sb + 8 * t.code + r.code) 0 = f := Option.some.inj hf
  clear hf
  obtain ⟨hc, hw⟩ := ctlFits_of hw
  have nb : b.num < 128 := VS.num_lt (by simp only [List.all_cons, List.all_nil, Bool.and_eq_true] at hw; simp only [hw])
  simp only [List.all_cons, List.all_nil, Bool.and_true, Bool.and_eq_true, decide_eq_true_eq, WF.v, WF.ty] at hw
  have k0 := b.sb_lt
  have k1 := t.code_lt
  have k2 := r.code_lt
  have hf : (Fields.reg c 0x081 d a b.num 0 (128 * b.sb + 8 * t.code + r.code) 0).Fits := Fields.fits_reg hc (by omega) (by omega) (by omega) (by omega) (by omega) (by omega) (by omega)
  refine ⟨hf, ?_⟩
  show some (Instr.fsub _ _ _ _ _ _) = _
  rw [Option.some.injEq, Instr.fsub.injEq]
  exact ⟨Fields.ctl_reg hc .., rfl, rfl, (congrArg (fun n => vsOf n _) (show _ = b.sb from by dsimp only [Fields.reg, Fields.mem, Fields.br]; omega)).trans (vsOf_num b), (congrArg Ty.ofCode (show _ = t.code from by dsimp only [Fields.reg, Fields.mem, Fields.br]; omega)).trans (Ty.ofCode_code t), (congrArg Rnd.ofCode (show _ = r.code from by dsimp only [Fields.reg, Fields.mem, Fields.br]; omega)).trans (Rnd.ofCode_code r)⟩

theorem fmul (c : Ctl) (d : Nat) (a : Nat) (b : VS) (t : Ty) (r : Rnd) : Statement (.fmul c d a b t r) := by
  intro f hw hf
  obtain rfl : Fields.reg c 0x082 d a b.num 0 (128 * b.sb + 8 * t.code + r.code) 0 = f := Option.some.inj hf
  clear hf
  obtain ⟨hc, hw⟩ := ctlFits_of hw
  have nb : b.num < 128 := VS.num_lt (by simp only [List.all_cons, List.all_nil, Bool.and_eq_true] at hw; simp only [hw])
  simp only [List.all_cons, List.all_nil, Bool.and_true, Bool.and_eq_true, decide_eq_true_eq, WF.v, WF.ty] at hw
  have k0 := b.sb_lt
  have k1 := t.code_lt
  have k2 := r.code_lt
  have hf : (Fields.reg c 0x082 d a b.num 0 (128 * b.sb + 8 * t.code + r.code) 0).Fits := Fields.fits_reg hc (by omega) (by omega) (by omega) (by omega) (by omega) (by omega) (by omega)
  refine ⟨hf, ?_⟩
  show some (Instr.fmul _ _ _ _ _ _) = _
  rw [Option.some.injEq, Instr.fmul.injEq]
  exact ⟨Fields.ctl_reg hc .., rfl, rfl, (congrArg (fun n => vsOf n _) (show _ = b.sb from by dsimp only [Fields.reg, Fields.mem, Fields.br]; omega)).trans (vsOf_num b), (congrArg Ty.ofCode (show _ = t.code from by dsimp only [Fields.reg, Fields.mem, Fields.br]; omega)).trans (Ty.ofCode_code t), (congrArg Rnd.ofCode (show _ = r.code from by dsimp only [Fields.reg, Fields.mem, Fields.br]; omega)).trans (Rnd.ofCode_code r)⟩

theorem ffma (c : Ctl) (d : Nat) (a : Nat) (b : VS) (e : Nat) (t : Ty) (r : Rnd) : Statement (.ffma c d a b e t r) := by
  intro f hw hf
  obtain rfl : Fields.reg c 0x083 d a b.num e (128 * b.sb + 8 * t.code + r.code) 0 = f := Option.some.inj hf
  clear hf
  obtain ⟨hc, hw⟩ := ctlFits_of hw
  have nb : b.num < 128 := VS.num_lt (by simp only [List.all_cons, List.all_nil, Bool.and_eq_true] at hw; simp only [hw])
  simp only [List.all_cons, List.all_nil, Bool.and_true, Bool.and_eq_true, decide_eq_true_eq, WF.v, WF.ty] at hw
  have k0 := b.sb_lt
  have k1 := t.code_lt
  have k2 := r.code_lt
  have hf : (Fields.reg c 0x083 d a b.num e (128 * b.sb + 8 * t.code + r.code) 0).Fits := Fields.fits_reg hc (by omega) (by omega) (by omega) (by omega) (by omega) (by omega) (by omega)
  refine ⟨hf, ?_⟩
  show some (Instr.ffma _ _ _ _ _ _ _) = _
  rw [Option.some.injEq, Instr.ffma.injEq]
  exact ⟨Fields.ctl_reg hc .., rfl, rfl, (congrArg (fun n => vsOf n _) (show _ = b.sb from by dsimp only [Fields.reg, Fields.mem, Fields.br]; omega)).trans (vsOf_num b), rfl, (congrArg Ty.ofCode (show _ = t.code from by dsimp only [Fields.reg, Fields.mem, Fields.br]; omega)).trans (Ty.ofCode_code t), (congrArg Rnd.ofCode (show _ = r.code from by dsimp only [Fields.reg, Fields.mem, Fields.br]; omega)).trans (Rnd.ofCode_code r)⟩

theorem fmin (c : Ctl) (d : Nat) (a : Nat) (b : VS) (t : Ty) : Statement (.fmin c d a b t) := by
  intro f hw hf
  obtain rfl : Fields.reg c 0x084 d a b.num 0 (128 * b.sb + 8 * t.code) 0 = f := Option.some.inj hf
  clear hf
  obtain ⟨hc, hw⟩ := ctlFits_of hw
  have nb : b.num < 128 := VS.num_lt (by simp only [List.all_cons, List.all_nil, Bool.and_eq_true] at hw; simp only [hw])
  simp only [List.all_cons, List.all_nil, Bool.and_true, Bool.and_eq_true, decide_eq_true_eq, WF.v, WF.ty] at hw
  have k0 := b.sb_lt
  have k1 := t.code_lt
  have hf : (Fields.reg c 0x084 d a b.num 0 (128 * b.sb + 8 * t.code) 0).Fits := Fields.fits_reg hc (by omega) (by omega) (by omega) (by omega) (by omega) (by omega) (by omega)
  refine ⟨hf, ?_⟩
  show some (Instr.fmin _ _ _ _ _) = _
  rw [Option.some.injEq, Instr.fmin.injEq]
  exact ⟨Fields.ctl_reg hc .., rfl, rfl, (congrArg (fun n => vsOf n _) (show _ = b.sb from by dsimp only [Fields.reg, Fields.mem, Fields.br]; omega)).trans (vsOf_num b), (congrArg Ty.ofCode (show _ = t.code from by dsimp only [Fields.reg, Fields.mem, Fields.br]; omega)).trans (Ty.ofCode_code t)⟩

theorem fmax (c : Ctl) (d : Nat) (a : Nat) (b : VS) (t : Ty) : Statement (.fmax c d a b t) := by
  intro f hw hf
  obtain rfl : Fields.reg c 0x085 d a b.num 0 (128 * b.sb + 8 * t.code) 0 = f := Option.some.inj hf
  clear hf
  obtain ⟨hc, hw⟩ := ctlFits_of hw
  have nb : b.num < 128 := VS.num_lt (by simp only [List.all_cons, List.all_nil, Bool.and_eq_true] at hw; simp only [hw])
  simp only [List.all_cons, List.all_nil, Bool.and_true, Bool.and_eq_true, decide_eq_true_eq, WF.v, WF.ty] at hw
  have k0 := b.sb_lt
  have k1 := t.code_lt
  have hf : (Fields.reg c 0x085 d a b.num 0 (128 * b.sb + 8 * t.code) 0).Fits := Fields.fits_reg hc (by omega) (by omega) (by omega) (by omega) (by omega) (by omega) (by omega)
  refine ⟨hf, ?_⟩
  show some (Instr.fmax _ _ _ _ _) = _
  rw [Option.some.injEq, Instr.fmax.injEq]
  exact ⟨Fields.ctl_reg hc .., rfl, rfl, (congrArg (fun n => vsOf n _) (show _ = b.sb from by dsimp only [Fields.reg, Fields.mem, Fields.br]; omega)).trans (vsOf_num b), (congrArg Ty.ofCode (show _ = t.code from by dsimp only [Fields.reg, Fields.mem, Fields.br]; omega)).trans (Ty.ofCode_code t)⟩

theorem fsetp (c : Ctl) (d : Nat) (a : Nat) (b : VS) (t : Ty) (k : Cmp) (any : Bool) : Statement (.fsetp c d a b t k any) := by
  intro f hw hf
  obtain rfl : Fields.reg c 0x086 d a b.num 0 (128 * b.sb + 8 * t.code + k.code) any.toNat = f := Option.some.inj hf
  clear hf
  obtain ⟨hc, hw⟩ := ctlFits_of hw
  have nb : b.num < 128 := VS.num_lt (by simp only [List.all_cons, List.all_nil, Bool.and_eq_true] at hw; simp only [hw])
  simp only [List.all_cons, List.all_nil, Bool.and_true, Bool.and_eq_true, decide_eq_true_eq, WF.v, WF.p, WF.ty] at hw
  have k0 := b.sb_lt
  have k1 := t.code_lt
  have k2 := k.code_lt
  have k3 := bool_lt any
  have hf : (Fields.reg c 0x086 d a b.num 0 (128 * b.sb + 8 * t.code + k.code) any.toNat).Fits := Fields.fits_reg hc (by omega) (by omega) (by omega) (by omega) (by omega) (by omega) (by omega)
  refine ⟨hf, ?_⟩
  show some (Instr.fsetp _ _ _ _ _ _ _) = _
  rw [Option.some.injEq, Instr.fsetp.injEq]
  exact ⟨Fields.ctl_reg hc .., rfl, rfl, (congrArg (fun n => vsOf n _) (show _ = b.sb from by dsimp only [Fields.reg, Fields.mem, Fields.br]; omega)).trans (vsOf_num b), (congrArg Ty.ofCode (show _ = t.code from by dsimp only [Fields.reg, Fields.mem, Fields.br]; omega)).trans (Ty.ofCode_code t), (congrArg Cmp.ofCode (show _ = k.code from by dsimp only [Fields.reg, Fields.mem, Fields.br]; omega)).trans (Cmp.ofCode_code k), (congrArg (fun n => n == 1) (show _ = any.toNat from rfl)).trans (bool_beq_one any)⟩

theorem fcvt (c : Ctl) (d : Nat) (a : Nat) (td : Ty) (ts : Ty) (r : Rnd) : Statement (.fcvt c d a td ts r) := by
  intro f hw hf
  obtain rfl : Fields.reg c 0x087 d a 0 0 (8 * td.code + r.code) ts.code = f := Option.some.inj hf
  clear hf
  obtain ⟨hc, hw⟩ := ctlFits_of hw
  simp only [List.all_cons, List.all_nil, Bool.and_true, Bool.and_eq_true, decide_eq_true_eq, WF.v, WF.ty] at hw
  have k0 := td.code_lt
  have k1 := ts.code_lt
  have k2 := r.code_lt
  have hf : (Fields.reg c 0x087 d a 0 0 (8 * td.code + r.code) ts.code).Fits := Fields.fits_reg hc (by omega) (by omega) (by omega) (by omega) (by omega) (by omega) (by omega)
  refine ⟨hf, ?_⟩
  show some (Instr.fcvt _ _ _ _ _ _) = _
  rw [Option.some.injEq, Instr.fcvt.injEq]
  exact ⟨Fields.ctl_reg hc .., rfl, rfl, (congrArg Ty.ofCode (show _ = td.code from by dsimp only [Fields.reg, Fields.mem, Fields.br]; omega)).trans (Ty.ofCode_code td), (congrArg Ty.ofCode (show _ = ts.code from rfl)).trans (Ty.ofCode_code ts), (congrArg Rnd.ofCode (show _ = r.code from by dsimp only [Fields.reg, Fields.mem, Fields.br]; omega)).trans (Rnd.ofCode_code r)⟩

theorem frnd (c : Ctl) (d : Nat) (a : Nat) (t : Ty) (r : Rnd) : Statement (.frnd c d a t r) := by
  intro f hw hf
  obtain rfl : Fields.reg c 0x088 d a 0 0 (8 * t.code + r.code) 0 = f := Option.some.inj hf
  clear hf
  obtain ⟨hc, hw⟩ := ctlFits_of hw
  simp only [List.all_cons, List.all_nil, Bool.and_true, Bool.and_eq_true, decide_eq_true_eq, WF.v, WF.ty, WF.md] at hw
  have k0 := t.code_lt
  have k1 := r.code_lt
  have hf : (Fields.reg c 0x088 d a 0 0 (8 * t.code + r.code) 0).Fits := Fields.fits_reg hc (by omega) (by omega) (by omega) (by omega) (by omega) (by omega) (by omega)
  refine ⟨hf, ?_⟩
  show some (Instr.frnd _ _ _ _ _) = _
  rw [Option.some.injEq, Instr.frnd.injEq]
  exact ⟨Fields.ctl_reg hc .., rfl, rfl, (congrArg Ty.ofCode (show _ = t.code from by dsimp only [Fields.reg, Fields.mem, Fields.br]; omega)).trans (Ty.ofCode_code t), (congrArg Rnd.ofCode (show _ = r.code from by dsimp only [Fields.reg, Fields.mem, Fields.br]; omega)).trans (Rnd.ofCode_code r)⟩

theorem i2f (c : Ctl) (d : Nat) (a : Nat) (td : Ty) (ts : Ty) (r : Rnd) : Statement (.i2f c d a td ts r) := by
  intro f hw hf
  obtain rfl : Fields.reg c 0x089 d a 0 0 (8 * td.code + r.code) ts.code = f := Option.some.inj hf
  clear hf
  obtain ⟨hc, hw⟩ := ctlFits_of hw
  simp only [List.all_cons, List.all_nil, Bool.and_true, Bool.and_eq_true, decide_eq_true_eq, WF.v, WF.ty] at hw
  have k0 := td.code_lt
  have k1 := ts.code_lt
  have k2 := r.code_lt
  have hf : (Fields.reg c 0x089 d a 0 0 (8 * td.code + r.code) ts.code).Fits := Fields.fits_reg hc (by omega) (by omega) (by omega) (by omega) (by omega) (by omega) (by omega)
  refine ⟨hf, ?_⟩
  show some (Instr.i2f _ _ _ _ _ _) = _
  rw [Option.some.injEq, Instr.i2f.injEq]
  exact ⟨Fields.ctl_reg hc .., rfl, rfl, (congrArg Ty.ofCode (show _ = td.code from by dsimp only [Fields.reg, Fields.mem, Fields.br]; omega)).trans (Ty.ofCode_code td), (congrArg Ty.ofCode (show _ = ts.code from rfl)).trans (Ty.ofCode_code ts), (congrArg Rnd.ofCode (show _ = r.code from by dsimp only [Fields.reg, Fields.mem, Fields.br]; omega)).trans (Rnd.ofCode_code r)⟩

theorem f2i (c : Ctl) (d : Nat) (a : Nat) (td : Ty) (ts : Ty) (r : Rnd) : Statement (.f2i c d a td ts r) := by
  intro f hw hf
  obtain rfl : Fields.reg c 0x08A d a 0 0 (8 * td.code + r.code) ts.code = f := Option.some.inj hf
  clear hf
  obtain ⟨hc, hw⟩ := ctlFits_of hw
  simp only [List.all_cons, List.all_nil, Bool.and_true, Bool.and_eq_true, decide_eq_true_eq, WF.v, WF.ty] at hw
  have k0 := td.code_lt
  have k1 := ts.code_lt
  have k2 := r.code_lt
  have hf : (Fields.reg c 0x08A d a 0 0 (8 * td.code + r.code) ts.code).Fits := Fields.fits_reg hc (by omega) (by omega) (by omega) (by omega) (by omega) (by omega) (by omega)
  refine ⟨hf, ?_⟩
  show some (Instr.f2i _ _ _ _ _ _) = _
  rw [Option.some.injEq, Instr.f2i.injEq]
  exact ⟨Fields.ctl_reg hc .., rfl, rfl, (congrArg Ty.ofCode (show _ = td.code from by dsimp only [Fields.reg, Fields.mem, Fields.br]; omega)).trans (Ty.ofCode_code td), (congrArg Ty.ofCode (show _ = ts.code from rfl)).trans (Ty.ofCode_code ts), (congrArg Rnd.ofCode (show _ = r.code from by dsimp only [Fields.reg, Fields.mem, Fields.br]; omega)).trans (Rnd.ofCode_code r)⟩

theorem frcp (c : Ctl) (d : Nat) (a : Nat) (t : Ty) (r : Rnd) : Statement (.frcp c d a t r) := by
  intro f hw hf
  obtain rfl : Fields.reg c 0x08B d a 0 0 (8 * t.code + r.code) 0 = f := Option.some.inj hf
  clear hf
  obtain ⟨hc, hw⟩ := ctlFits_of hw
  simp only [List.all_cons, List.all_nil, Bool.and_true, Bool.and_eq_true, decide_eq_true_eq, WF.v, WF.ty, WF.md] at hw
  have k0 := t.code_lt
  have k1 := r.code_lt
  have hf : (Fields.reg c 0x08B d a 0 0 (8 * t.code + r.code) 0).Fits := Fields.fits_reg hc (by omega) (by omega) (by omega) (by omega) (by omega) (by omega) (by omega)
  refine ⟨hf, ?_⟩
  show some (Instr.frcp _ _ _ _ _) = _
  rw [Option.some.injEq, Instr.frcp.injEq]
  exact ⟨Fields.ctl_reg hc .., rfl, rfl, (congrArg Ty.ofCode (show _ = t.code from by dsimp only [Fields.reg, Fields.mem, Fields.br]; omega)).trans (Ty.ofCode_code t), (congrArg Rnd.ofCode (show _ = r.code from by dsimp only [Fields.reg, Fields.mem, Fields.br]; omega)).trans (Rnd.ofCode_code r)⟩

theorem frsq (c : Ctl) (d : Nat) (a : Nat) (t : Ty) : Statement (.frsq c d a t) := by
  intro f hw hf
  obtain rfl : Fields.reg c 0x08C d a 0 0 (8 * t.code) 0 = f := Option.some.inj hf
  clear hf
  obtain ⟨hc, hw⟩ := ctlFits_of hw
  simp only [List.all_cons, List.all_nil, Bool.and_true, Bool.and_eq_true, decide_eq_true_eq, WF.v, WF.ty] at hw
  have k0 := t.code_lt
  have hf : (Fields.reg c 0x08C d a 0 0 (8 * t.code) 0).Fits := Fields.fits_reg hc (by omega) (by omega) (by omega) (by omega) (by omega) (by omega) (by omega)
  refine ⟨hf, ?_⟩
  show some (Instr.frsq _ _ _ _) = _
  rw [Option.some.injEq, Instr.frsq.injEq]
  exact ⟨Fields.ctl_reg hc .., rfl, rfl, (congrArg Ty.ofCode (show _ = t.code from by dsimp only [Fields.reg, Fields.mem, Fields.br]; omega)).trans (Ty.ofCode_code t)⟩

theorem fsqrt (c : Ctl) (d : Nat) (a : Nat) (t : Ty) (r : Rnd) : Statement (.fsqrt c d a t r) := by
  intro f hw hf
  obtain rfl : Fields.reg c 0x08D d a 0 0 (8 * t.code + r.code) 0 = f := Option.some.inj hf
  clear hf
  obtain ⟨hc, hw⟩ := ctlFits_of hw
  simp only [List.all_cons, List.all_nil, Bool.and_true, Bool.and_eq_true, decide_eq_true_eq, WF.v, WF.ty, WF.md] at hw
  have k0 := t.code_lt
  have k1 := r.code_lt
  have hf : (Fields.reg c 0x08D d a 0 0 (8 * t.code + r.code) 0).Fits := Fields.fits_reg hc (by omega) (by omega) (by omega) (by omega) (by omega) (by omega) (by omega)
  refine ⟨hf, ?_⟩
  show some (Instr.fsqrt _ _ _ _ _) = _
  rw [Option.some.injEq, Instr.fsqrt.injEq]
  exact ⟨Fields.ctl_reg hc .., rfl, rfl, (congrArg Ty.ofCode (show _ = t.code from by dsimp only [Fields.reg, Fields.mem, Fields.br]; omega)).trans (Ty.ofCode_code t), (congrArg Rnd.ofCode (show _ = r.code from by dsimp only [Fields.reg, Fields.mem, Fields.br]; omega)).trans (Rnd.ofCode_code r)⟩

theorem fexp2 (c : Ctl) (d : Nat) (a : Nat) (t : Ty) : Statement (.fexp2 c d a t) := by
  intro f hw hf
  obtain rfl : Fields.reg c 0x08E d a 0 0 (8 * t.code) 0 = f := Option.some.inj hf
  clear hf
  obtain ⟨hc, hw⟩ := ctlFits_of hw
  simp only [List.all_cons, List.all_nil, Bool.and_true, Bool.and_eq_true, decide_eq_true_eq, WF.v, WF.ty] at hw
  have k0 := t.code_lt
  have hf : (Fields.reg c 0x08E d a 0 0 (8 * t.code) 0).Fits := Fields.fits_reg hc (by omega) (by omega) (by omega) (by omega) (by omega) (by omega) (by omega)
  refine ⟨hf, ?_⟩
  show some (ite _ _ (Instr.fexp2 _ _ _ _)) = _
  rw [if_neg (by dsimp only [Fields.reg]; omega), Option.some.injEq, Instr.fexp2.injEq]
  exact ⟨Fields.ctl_reg hc .., rfl, rfl, (congrArg Ty.ofCode (show _ = t.code from by dsimp only [Fields.reg]; omega)).trans (Ty.ofCode_code t)⟩

theorem fexp2Fs (c : Ctl) (d : Nat) (a : Nat) (b : VS) (e : Nat) (t : Ty) : Statement (.fexp2Fs c d a b e t) := by
  intro f hw hf
  obtain rfl : Fields.reg c 0x08E d a b.num e (128 * b.sb + 8 * t.code + 1) 0 = f := Option.some.inj hf
  clear hf
  obtain ⟨hc, hw⟩ := ctlFits_of hw
  have nb : b.num < 128 := VS.num_lt (by simp only [List.all_cons, List.all_nil, Bool.and_eq_true] at hw; simp only [hw])
  simp only [List.all_cons, List.all_nil, Bool.and_true, Bool.and_eq_true, decide_eq_true_eq, WF.v, WF.ty] at hw
  have k0 := b.sb_lt
  have k1 := t.code_lt
  have hf : (Fields.reg c 0x08E d a b.num e (128 * b.sb + 8 * t.code + 1) 0).Fits := Fields.fits_reg hc (by omega) (by omega) (by omega) (by omega) (by omega) (by omega) (by omega)
  refine ⟨hf, ?_⟩
  show some (ite _ (Instr.fexp2Fs _ _ _ _ _ _) _) = _
  rw [if_pos (by dsimp only [Fields.reg]; omega), Option.some.injEq, Instr.fexp2Fs.injEq]
  exact ⟨Fields.ctl_reg hc .., rfl, rfl, (congrArg (fun n => vsOf n _) (show _ = b.sb from by dsimp only [Fields.reg]; omega)).trans (vsOf_num b), rfl, (congrArg Ty.ofCode (show _ = t.code from by dsimp only [Fields.reg]; omega)).trans (Ty.ofCode_code t)⟩

theorem flog2 (c : Ctl) (d : Nat) (a : Nat) (t : Ty) : Statement (.flog2 c d a t) := by
  intro f hw hf
  obtain rfl : Fields.reg c 0x08F d a 0 0 (8 * t.code) 0 = f := Option.some.inj hf
  clear hf
  obtain ⟨hc, hw⟩ := ctlFits_of hw
  simp only [List.all_cons, List.all_nil, Bool.and_true, Bool.and_eq_true, decide_eq_true_eq, WF.v, WF.ty] at hw
  have k0 := t.code_lt
  have hf : (Fields.reg c 0x08F d a 0 0 (8 * t.code) 0).Fits := Fields.fits_reg hc (by omega) (by omega) (by omega) (by omega) (by omega) (by omega) (by omega)
  refine ⟨hf, ?_⟩
  show some (Instr.flog2 _ _ _ _) = _
  rw [Option.some.injEq, Instr.flog2.injEq]
  exact ⟨Fields.ctl_reg hc .., rfl, rfl, (congrArg Ty.ofCode (show _ = t.code from by dsimp only [Fields.reg, Fields.mem, Fields.br]; omega)).trans (Ty.ofCode_code t)⟩

theorem fsin (c : Ctl) (d : Nat) (a : Nat) (t : Ty) : Statement (.fsin c d a t) := by
  intro f hw hf
  obtain rfl : Fields.reg c 0x090 d a 0 0 (8 * t.code) 0 = f := Option.some.inj hf
  clear hf
  obtain ⟨hc, hw⟩ := ctlFits_of hw
  simp only [List.all_cons, List.all_nil, Bool.and_true, Bool.and_eq_true, decide_eq_true_eq, WF.v, WF.ty] at hw
  have k0 := t.code_lt
  have hf : (Fields.reg c 0x090 d a 0 0 (8 * t.code) 0).Fits := Fields.fits_reg hc (by omega) (by omega) (by omega) (by omega) (by omega) (by omega) (by omega)
  refine ⟨hf, ?_⟩
  show some (Instr.fsin _ _ _ _) = _
  rw [Option.some.injEq, Instr.fsin.injEq]
  exact ⟨Fields.ctl_reg hc .., rfl, rfl, (congrArg Ty.ofCode (show _ = t.code from by dsimp only [Fields.reg, Fields.mem, Fields.br]; omega)).trans (Ty.ofCode_code t)⟩

theorem fcos (c : Ctl) (d : Nat) (a : Nat) (t : Ty) : Statement (.fcos c d a t) := by
  intro f hw hf
  obtain rfl : Fields.reg c 0x091 d a 0 0 (8 * t.code) 0 = f := Option.some.inj hf
  clear hf
  obtain ⟨hc, hw⟩ := ctlFits_of hw
  simp only [List.all_cons, List.all_nil, Bool.and_true, Bool.and_eq_true, decide_eq_true_eq, WF.v, WF.ty] at hw
  have k0 := t.code_lt
  have hf : (Fields.reg c 0x091 d a 0 0 (8 * t.code) 0).Fits := Fields.fits_reg hc (by omega) (by omega) (by omega) (by omega) (by omega) (by omega) (by omega)
  refine ⟨hf, ?_⟩
  show some (Instr.fcos _ _ _ _) = _
  rw [Option.some.injEq, Instr.fcos.injEq]
  exact ⟨Fields.ctl_reg hc .., rfl, rfl, (congrArg Ty.ofCode (show _ = t.code from by dsimp only [Fields.reg, Fields.mem, Fields.br]; omega)).trans (Ty.ofCode_code t)⟩

theorem ftanh (c : Ctl) (d : Nat) (a : Nat) (t : Ty) : Statement (.ftanh c d a t) := by
  intro f hw hf
  obtain rfl : Fields.reg c 0x092 d a 0 0 (8 * t.code) 0 = f := Option.some.inj hf
  clear hf
  obtain ⟨hc, hw⟩ := ctlFits_of hw
  simp only [List.all_cons, List.all_nil, Bool.and_true, Bool.and_eq_true, decide_eq_true_eq, WF.v, WF.ty] at hw
  have k0 := t.code_lt
  have hf : (Fields.reg c 0x092 d a 0 0 (8 * t.code) 0).Fits := Fields.fits_reg hc (by omega) (by omega) (by omega) (by omega) (by omega) (by omega) (by omega)
  refine ⟨hf, ?_⟩
  show some (Instr.ftanh _ _ _ _) = _
  rw [Option.some.injEq, Instr.ftanh.injEq]
  exact ⟨Fields.ctl_reg hc .., rfl, rfl, (congrArg Ty.ofCode (show _ = t.code from by dsimp only [Fields.reg, Fields.mem, Fields.br]; omega)).trans (Ty.ofCode_code t)⟩

theorem fdot (c : Ctl) (d : Nat) (a : Nat) (b : VS) (e : Nat) (ta : Ty) (tb : Ty) (r : Rnd) : Statement (.fdot c d a b e ta tb r) := by
  intro f hw hf
  obtain rfl : Fields.reg c 0x093 d a b.num e (128 * b.sb + 8 * ta.code + r.code) tb.code = f := Option.some.inj hf
  clear hf
  obtain ⟨hc, hw⟩ := ctlFits_of hw
  have nb : b.num < 128 := VS.num_lt (by simp only [List.all_cons, List.all_nil, Bool.and_eq_true] at hw; simp only [hw])
  simp only [List.all_cons, List.all_nil, Bool.and_true, Bool.and_eq_true, decide_eq_true_eq, WF.v, WF.v2, WF.ty] at hw
  have k0 := b.sb_lt
  have k1 := ta.code_lt
  have k2 := tb.code_lt
  have k3 := r.code_lt
  have hf : (Fields.reg c 0x093 d a b.num e (128 * b.sb + 8 * ta.code + r.code) tb.code).Fits := Fields.fits_reg hc (by omega) (by omega) (by omega) (by omega) (by omega) (by omega) (by omega)
  refine ⟨hf, ?_⟩
  show some (Instr.fdot _ _ _ _ _ _ _ _) = _
  rw [Option.some.injEq, Instr.fdot.injEq]
  exact ⟨Fields.ctl_reg hc .., rfl, rfl, (congrArg (fun n => vsOf n _) (show _ = b.sb from by dsimp only [Fields.reg, Fields.mem, Fields.br]; omega)).trans (vsOf_num b), rfl, (congrArg Ty.ofCode (show _ = ta.code from by dsimp only [Fields.reg, Fields.mem, Fields.br]; omega)).trans (Ty.ofCode_code ta), (congrArg Ty.ofCode (show _ = tb.code from rfl)).trans (Ty.ofCode_code tb), (congrArg Rnd.ofCode (show _ = r.code from by dsimp only [Fields.reg, Fields.mem, Fields.br]; omega)).trans (Rnd.ofCode_code r)⟩

theorem fclass (c : Ctl) (d : Nat) (a : Nat) (t : Ty) : Statement (.fclass c d a t) := by
  intro f hw hf
  obtain rfl : Fields.reg c 0x094 d a 0 0 (8 * t.code) 0 = f := Option.some.inj hf
  clear hf
  obtain ⟨hc, hw⟩ := ctlFits_of hw
  simp only [List.all_cons, List.all_nil, Bool.and_true, Bool.and_eq_true, decide_eq_true_eq, WF.v, WF.ty] at hw
  have k0 := t.code_lt
  have hf : (Fields.reg c 0x094 d a 0 0 (8 * t.code) 0).Fits := Fields.fits_reg hc (by omega) (by omega) (by omega) (by omega) (by omega) (by omega) (by omega)
  refine ⟨hf, ?_⟩
  show some (Instr.fclass _ _ _ _) = _
  rw [Option.some.injEq, Instr.fclass.injEq]
  exact ⟨Fields.ctl_reg hc .., rfl, rfl, (congrArg Ty.ofCode (show _ = t.code from by dsimp only [Fields.reg, Fields.mem, Fields.br]; omega)).trans (Ty.ofCode_code t)⟩

theorem fscale (c : Ctl) (d : Nat) (a : Nat) (b : VS) (t : Ty) (r : Rnd) : Statement (.fscale c d a b t r) := by
  intro f hw hf
  obtain rfl : Fields.reg c 0x095 d a b.num 0 (128 * b.sb + 8 * t.code + r.code) 0 = f := Option.some.inj hf
  clear hf
  obtain ⟨hc, hw⟩ := ctlFits_of hw
  have nb : b.num < 128 := VS.num_lt (by simp only [List.all_cons, List.all_nil, Bool.and_eq_true] at hw; simp only [hw])
  simp only [List.all_cons, List.all_nil, Bool.and_true, Bool.and_eq_true, decide_eq_true_eq, WF.v, WF.ty] at hw
  have k0 := b.sb_lt
  have k1 := t.code_lt
  have k2 := r.code_lt
  have hf : (Fields.reg c 0x095 d a b.num 0 (128 * b.sb + 8 * t.code + r.code) 0).Fits := Fields.fits_reg hc (by omega) (by omega) (by omega) (by omega) (by omega) (by omega) (by omega)
  refine ⟨hf, ?_⟩
  show some (Instr.fscale _ _ _ _ _ _) = _
  rw [Option.some.injEq, Instr.fscale.injEq]
  exact ⟨Fields.ctl_reg hc .., rfl, rfl, (congrArg (fun n => vsOf n _) (show _ = b.sb from by dsimp only [Fields.reg, Fields.mem, Fields.br]; omega)).trans (vsOf_num b), (congrArg Ty.ofCode (show _ = t.code from by dsimp only [Fields.reg, Fields.mem, Fields.br]; omega)).trans (Ty.ofCode_code t), (congrArg Rnd.ofCode (show _ = r.code from by dsimp only [Fields.reg, Fields.mem, Fields.br]; omega)).trans (Rnd.ofCode_code r)⟩

theorem ldg (c : Ctl) (d : Nat) (a : Nat) (off : Int) (w : Width) (o : Ord) (sc : Scope) (ev : Evict) : Statement (.ldg c d a off w o sc ev) := by
  intro f hw hf
  obtain rfl : Fields.mem c 0x0A0 d a off (64 * o.code + 8 * sc.code + ev.code) w.code = f := Option.some.inj hf
  clear hf
  obtain ⟨hc, hw⟩ := ctlFits_of hw
  simp only [List.all_cons, List.all_nil, Bool.and_true, Bool.and_eq_true, decide_eq_true_eq, WF.v, WF.moff, WF.dataReg] at hw
  have k0 := w.code_lt
  have k1 := o.code_lt
  have k2 := sc.code_lt
  have k3 := ev.code_lt
  have hf : (Fields.mem c 0x0A0 d a off (64 * o.code + 8 * sc.code + ev.code) w.code).Fits := Fields.fits_mem hc _ (by omega) (by omega) (by omega) (by omega) (by omega)
  refine ⟨hf, ?_⟩
  show some (Instr.ldg _ _ _ _ _ _ _ _) = _
  rw [Option.some.injEq, Instr.ldg.injEq]
  exact ⟨Fields.ctl_mem hc .., rfl, rfl, Fields.off14_mem _ _ _ _ _ _ (by omega), (congrArg Width.ofCode (show _ = w.code from rfl)).trans (Width.ofCode_code w), (congrArg Ord.ofCode (show _ = o.code from by dsimp only [Fields.reg, Fields.mem, Fields.br]; omega)).trans (Ord.ofCode_code o), (congrArg Scope.ofCode (show _ = sc.code from by dsimp only [Fields.reg, Fields.mem, Fields.br]; omega)).trans (Scope.ofCode_code sc), (congrArg Evict.ofCode (show _ = ev.code from by dsimp only [Fields.reg, Fields.mem, Fields.br]; omega)).trans (Evict.ofCode_code ev)⟩

theorem stg (c : Ctl) (d : Nat) (a : Nat) (off : Int) (w : Width) (o : Ord) (sc : Scope) (ev : Evict) : Statement (.stg c d a off w o sc ev) := by
  intro f hw hf
  obtain rfl : Fields.mem c 0x0A1 d a off (64 * o.code + 8 * sc.code + ev.code) w.code = f := Option.some.inj hf
  clear hf
  obtain ⟨hc, hw⟩ := ctlFits_of hw
  simp only [List.all_cons, List.all_nil, Bool.and_true, Bool.and_eq_true, decide_eq_true_eq, WF.v, WF.moff, WF.dataReg] at hw
  have k0 := w.code_lt
  have k1 := o.code_lt
  have k2 := sc.code_lt
  have k3 := ev.code_lt
  have hf : (Fields.mem c 0x0A1 d a off (64 * o.code + 8 * sc.code + ev.code) w.code).Fits := Fields.fits_mem hc _ (by omega) (by omega) (by omega) (by omega) (by omega)
  refine ⟨hf, ?_⟩
  show some (Instr.stg _ _ _ _ _ _ _ _) = _
  rw [Option.some.injEq, Instr.stg.injEq]
  exact ⟨Fields.ctl_mem hc .., rfl, rfl, Fields.off14_mem _ _ _ _ _ _ (by omega), (congrArg Width.ofCode (show _ = w.code from rfl)).trans (Width.ofCode_code w), (congrArg Ord.ofCode (show _ = o.code from by dsimp only [Fields.reg, Fields.mem, Fields.br]; omega)).trans (Ord.ofCode_code o), (congrArg Scope.ofCode (show _ = sc.code from by dsimp only [Fields.reg, Fields.mem, Fields.br]; omega)).trans (Scope.ofCode_code sc), (congrArg Evict.ofCode (show _ = ev.code from by dsimp only [Fields.reg, Fields.mem, Fields.br]; omega)).trans (Evict.ofCode_code ev)⟩

theorem ldp (c : Ctl) (d : Nat) (a : Nat) (off : Int) (w : Width) (o : Ord) (sc : Scope) : Statement (.ldp c d a off w o sc) := by
  intro f hw hf
  obtain rfl : Fields.mem c 0x0A2 d a off (64 * o.code + 8 * sc.code) w.code = f := Option.some.inj hf
  clear hf
  obtain ⟨hc, hw⟩ := ctlFits_of hw
  simp only [List.all_cons, List.all_nil, Bool.and_true, Bool.and_eq_true, decide_eq_true_eq, WF.v, WF.moff, WF.dataReg, WF.os] at hw
  have k0 := w.code_lt
  have k1 := o.code_lt
  have k2 := sc.code_lt
  have hf : (Fields.mem c 0x0A2 d a off (64 * o.code + 8 * sc.code) w.code).Fits := Fields.fits_mem hc _ (by omega) (by omega) (by omega) (by omega) (by omega)
  refine ⟨hf, ?_⟩
  show some (Instr.ldp _ _ _ _ _ _ _) = _
  rw [Option.some.injEq, Instr.ldp.injEq]
  exact ⟨Fields.ctl_mem hc .., rfl, rfl, Fields.off14_mem _ _ _ _ _ _ (by omega), (congrArg Width.ofCode (show _ = w.code from rfl)).trans (Width.ofCode_code w), (congrArg Ord.ofCode (show _ = o.code from by dsimp only [Fields.reg, Fields.mem, Fields.br]; omega)).trans (Ord.ofCode_code o), (congrArg Scope.ofCode (show _ = sc.code from by dsimp only [Fields.reg, Fields.mem, Fields.br]; omega)).trans (Scope.ofCode_code sc)⟩

theorem stp (c : Ctl) (d : Nat) (a : Nat) (off : Int) (w : Width) (o : Ord) (sc : Scope) : Statement (.stp c d a off w o sc) := by
  intro f hw hf
  obtain rfl : Fields.mem c 0x0A3 d a off (64 * o.code + 8 * sc.code) w.code = f := Option.some.inj hf
  clear hf
  obtain ⟨hc, hw⟩ := ctlFits_of hw
  simp only [List.all_cons, List.all_nil, Bool.and_true, Bool.and_eq_true, decide_eq_true_eq, WF.v, WF.moff, WF.dataReg, WF.os] at hw
  have k0 := w.code_lt
  have k1 := o.code_lt
  have k2 := sc.code_lt
  have hf : (Fields.mem c 0x0A3 d a off (64 * o.code + 8 * sc.code) w.code).Fits := Fields.fits_mem hc _ (by omega) (by omega) (by omega) (by omega) (by omega)
  refine ⟨hf, ?_⟩
  show some (Instr.stp _ _ _ _ _ _ _) = _
  rw [Option.some.injEq, Instr.stp.injEq]
  exact ⟨Fields.ctl_mem hc .., rfl, rfl, Fields.off14_mem _ _ _ _ _ _ (by omega), (congrArg Width.ofCode (show _ = w.code from rfl)).trans (Width.ofCode_code w), (congrArg Ord.ofCode (show _ = o.code from by dsimp only [Fields.reg, Fields.mem, Fields.br]; omega)).trans (Ord.ofCode_code o), (congrArg Scope.ofCode (show _ = sc.code from by dsimp only [Fields.reg, Fields.mem, Fields.br]; omega)).trans (Scope.ofCode_code sc)⟩

theorem ldk (c : Ctl) (d : Nat) (a : Nat) (off : Int) (w : Width) (ev : Evict) : Statement (.ldk c d a off w ev) := by
  intro f hw hf
  obtain rfl : Fields.mem c 0x0A4 d a off ev.code w.code = f := Option.some.inj hf
  clear hf
  obtain ⟨hc, hw⟩ := ctlFits_of hw
  simp only [List.all_cons, List.all_nil, Bool.and_true, Bool.and_eq_true, decide_eq_true_eq, WF.v, WF.moff, WF.dataReg] at hw
  have k0 := w.code_lt
  have k1 := ev.code_lt
  have hf : (Fields.mem c 0x0A4 d a off ev.code w.code).Fits := Fields.fits_mem hc _ (by omega) (by omega) (by omega) (by omega) (by omega)
  refine ⟨hf, ?_⟩
  show some (Instr.ldk _ _ _ _ _ _) = _
  rw [Option.some.injEq, Instr.ldk.injEq]
  exact ⟨Fields.ctl_mem hc .., rfl, rfl, Fields.off14_mem _ _ _ _ _ _ (by omega), (congrArg Width.ofCode (show _ = w.code from rfl)).trans (Width.ofCode_code w), (congrArg Evict.ofCode (show _ = ev.code from by dsimp only [Fields.reg, Fields.mem, Fields.br]; omega)).trans (Evict.ofCode_code ev)⟩

theorem pref (c : Ctl) (a : Nat) (off : Int) (ev : Evict) : Statement (.pref c a off ev) := by
  intro f hw hf
  obtain rfl : Fields.mem c 0x0A5 0 a off ev.code 0 = f := Option.some.inj hf
  clear hf
  obtain ⟨hc, hw⟩ := ctlFits_of hw
  simp only [List.all_cons, List.all_nil, Bool.and_true, Bool.and_eq_true, decide_eq_true_eq, WF.v, WF.moff] at hw
  have k0 := ev.code_lt
  have hf : (Fields.mem c 0x0A5 0 a off ev.code 0).Fits := Fields.fits_mem hc _ (by omega) (by omega) (by omega) (by omega) (by omega)
  refine ⟨hf, ?_⟩
  show some (Instr.pref _ _ _ _) = _
  rw [Option.some.injEq, Instr.pref.injEq]
  exact ⟨Fields.ctl_mem hc .., rfl, Fields.off14_mem _ _ _ _ _ _ (by omega), (congrArg Evict.ofCode (show _ = ev.code from by dsimp only [Fields.reg, Fields.mem, Fields.br]; omega)).trans (Evict.ofCode_code ev)⟩

theorem cinv (c : Ctl) (a : Nat) (off : Int) : Statement (.cinv c a off) := by
  intro f hw hf
  obtain rfl : Fields.mem c 0x0A6 0 a off 0 0 = f := Option.some.inj hf
  clear hf
  obtain ⟨hc, hw⟩ := ctlFits_of hw
  simp only [List.all_cons, List.all_nil, Bool.and_true, Bool.and_eq_true, decide_eq_true_eq, WF.v, WF.moff] at hw
  have hf : (Fields.mem c 0x0A6 0 a off 0 0).Fits := Fields.fits_mem hc _ (by omega) (by omega) (by omega) (by omega) (by omega)
  refine ⟨hf, ?_⟩
  show some (Instr.cinv _ _ _) = _
  rw [Option.some.injEq, Instr.cinv.injEq]
  exact ⟨Fields.ctl_mem hc .., rfl, Fields.off14_mem _ _ _ _ _ _ (by omega)⟩

theorem pqry (c : Ctl) (d : Nat) (a : Nat) : Statement (.pqry c d a) := by
  intro f hw hf
  obtain rfl : Fields.reg c 0x0A7 d a 0 0 0 0 = f := Option.some.inj hf
  clear hf
  obtain ⟨hc, hw⟩ := ctlFits_of hw
  simp only [List.all_cons, List.all_nil, Bool.and_true, Bool.and_eq_true, decide_eq_true_eq, WF.v] at hw
  have hf : (Fields.reg c 0x0A7 d a 0 0 0 0).Fits := Fields.fits_reg hc (by omega) (by omega) (by omega) (by omega) (by omega) (by omega) (by omega)
  refine ⟨hf, ?_⟩
  show some (Instr.pqry _ _ _) = _
  rw [Option.some.injEq, Instr.pqry.injEq]
  exact ⟨Fields.ctl_reg hc .., rfl, rfl⟩

theorem fence (c : Ctl) (o : Ord) (sc : Scope) : Statement (.fence c o sc) := by
  intro f hw hf
  obtain rfl : Fields.reg c 0x0A8 0 0 0 0 (64 * o.code + 8 * sc.code) 0 = f := Option.some.inj hf
  clear hf
  obtain ⟨hc, hw⟩ := ctlFits_of hw
  simp only [List.all_cons, List.all_nil, Bool.and_true, Bool.and_eq_true, WF.os] at hw
  have k0 := o.code_lt
  have k1 := sc.code_lt
  have hf : (Fields.reg c 0x0A8 0 0 0 0 (64 * o.code + 8 * sc.code) 0).Fits := Fields.fits_reg hc (by omega) (by omega) (by omega) (by omega) (by omega) (by omega) (by omega)
  refine ⟨hf, ?_⟩
  show some (Instr.fence _ _ _) = _
  rw [Option.some.injEq, Instr.fence.injEq]
  exact ⟨Fields.ctl_reg hc .., (congrArg Ord.ofCode (show _ = o.code from by dsimp only [Fields.reg, Fields.mem, Fields.br]; omega)).trans (Ord.ofCode_code o), (congrArg Scope.ofCode (show _ = sc.code from by dsimp only [Fields.reg, Fields.mem, Fields.br]; omega)).trans (Scope.ofCode_code sc)⟩

theorem atom (c : Ctl) (d : Nat) (a : Nat) (b : Nat) (e : Nat) (op : AOp) (o : Ord) (sc : Scope) (w : AWid) : Statement (.atom c d a b e op o sc w) := by
  intro f hw hf
  obtain rfl : Fields.reg c 0x0A9 d a b e (64 * o.code + 8 * sc.code + op.code % 8) (op.code / 8 * 8 + w.code) = f := Option.some.inj hf
  clear hf
  obtain ⟨hc, hw⟩ := ctlFits_of hw
  simp only [List.all_cons, List.all_nil, Bool.and_true, Bool.and_eq_true, decide_eq_true_eq, WF.v, WF.os] at hw
  have k0 := op.code_lt
  have k1 := o.code_lt
  have k2 := sc.code_lt
  have k3 := w.code_lt
  have hf : (Fields.reg c 0x0A9 d a b e (64 * o.code + 8 * sc.code + op.code % 8) (op.code / 8 * 8 + w.code)).Fits := Fields.fits_reg hc (by omega) (by omega) (by omega) (by omega) (by omega) (by omega) (by omega)
  refine ⟨hf, ?_⟩
  show some (Instr.atom _ _ _ _ _ _ _ _ _) = _
  rw [Option.some.injEq, Instr.atom.injEq]
  exact ⟨Fields.ctl_reg hc .., rfl, rfl, rfl, rfl, (congrArg AOp.ofCode (show _ = op.code from by dsimp only [Fields.reg, Fields.mem, Fields.br]; omega)).trans (AOp.ofCode_code op), (congrArg Ord.ofCode (show _ = o.code from by dsimp only [Fields.reg, Fields.mem, Fields.br]; omega)).trans (Ord.ofCode_code o), (congrArg Scope.ofCode (show _ = sc.code from by dsimp only [Fields.reg, Fields.mem, Fields.br]; omega)).trans (Scope.ofCode_code sc), (congrArg AWid.ofCode (show _ = w.code from by dsimp only [Fields.reg, Fields.mem, Fields.br]; omega)).trans (AWid.ofCode_code w)⟩

theorem atomp (c : Ctl) (d : Nat) (a : Nat) (b : Nat) (e : Nat) (op : AOp) (o : Ord) (sc : Scope) (w : AWid) : Statement (.atomp c d a b e op o sc w) := by
  intro f hw hf
  obtain rfl : Fields.reg c 0x0AA d a b e (64 * o.code + 8 * sc.code + op.code % 8) (op.code / 8 * 8 + w.code) = f := Option.some.inj hf
  clear hf
  obtain ⟨hc, hw⟩ := ctlFits_of hw
  simp only [List.all_cons, List.all_nil, Bool.and_true, Bool.and_eq_true, decide_eq_true_eq, WF.v, WF.os] at hw
  have k0 := op.code_lt
  have k1 := o.code_lt
  have k2 := sc.code_lt
  have k3 := w.code_lt
  have hf : (Fields.reg c 0x0AA d a b e (64 * o.code + 8 * sc.code + op.code % 8) (op.code / 8 * 8 + w.code)).Fits := Fields.fits_reg hc (by omega) (by omega) (by omega) (by omega) (by omega) (by omega) (by omega)
  refine ⟨hf, ?_⟩
  show some (Instr.atomp _ _ _ _ _ _ _ _ _) = _
  rw [Option.some.injEq, Instr.atomp.injEq]
  exact ⟨Fields.ctl_reg hc .., rfl, rfl, rfl, rfl, (congrArg AOp.ofCode (show _ = op.code from by dsimp only [Fields.reg, Fields.mem, Fields.br]; omega)).trans (AOp.ofCode_code op), (congrArg Ord.ofCode (show _ = o.code from by dsimp only [Fields.reg, Fields.mem, Fields.br]; omega)).trans (Ord.ofCode_code o), (congrArg Scope.ofCode (show _ = sc.code from by dsimp only [Fields.reg, Fields.mem, Fields.br]; omega)).trans (Scope.ofCode_code sc), (congrArg AWid.ofCode (show _ = w.code from by dsimp only [Fields.reg, Fields.mem, Fields.br]; omega)).trans (AWid.ofCode_code w)⟩

theorem red (c : Ctl) (a : Nat) (b : Nat) (op : AOp) (o : Ord) (sc : Scope) (w : AWid) : Statement (.red c a b op o sc w) := by
  intro f hw hf
  obtain rfl : Fields.reg c 0x0AB 0 a b 0 (64 * o.code + 8 * sc.code + op.code % 8) (op.code / 8 * 8 + w.code) = f := Option.some.inj hf
  clear hf
  obtain ⟨hc, hw⟩ := ctlFits_of hw
  simp only [List.all_cons, List.all_nil, Bool.and_true, Bool.and_eq_true, decide_eq_true_eq, WF.v, WF.md, WF.os] at hw
  have k0 := op.code_lt
  have k1 := o.code_lt
  have k2 := sc.code_lt
  have k3 := w.code_lt
  have hf : (Fields.reg c 0x0AB 0 a b 0 (64 * o.code + 8 * sc.code + op.code % 8) (op.code / 8 * 8 + w.code)).Fits := Fields.fits_reg hc (by omega) (by omega) (by omega) (by omega) (by omega) (by omega) (by omega)
  refine ⟨hf, ?_⟩
  show some (Instr.red _ _ _ _ _ _ _) = _
  rw [Option.some.injEq, Instr.red.injEq]
  exact ⟨Fields.ctl_reg hc .., rfl, rfl, (congrArg AOp.ofCode (show _ = op.code from by dsimp only [Fields.reg, Fields.mem, Fields.br]; omega)).trans (AOp.ofCode_code op), (congrArg Ord.ofCode (show _ = o.code from by dsimp only [Fields.reg, Fields.mem, Fields.br]; omega)).trans (Ord.ofCode_code o), (congrArg Scope.ofCode (show _ = sc.code from by dsimp only [Fields.reg, Fields.mem, Fields.br]; omega)).trans (Scope.ofCode_code sc), (congrArg AWid.ofCode (show _ = w.code from by dsimp only [Fields.reg, Fields.mem, Fields.br]; omega)).trans (AWid.ofCode_code w)⟩

theorem hgath (c : Ctl) (d : Nat) (a : Nat) (b : Nat) (o : Ord) (sc : Scope) (ev : Evict) : Statement (.hgath c d a b o sc ev) := by
  intro f hw hf
  obtain rfl : Fields.reg c 0x0AC d a b 0 (64 * o.code + 8 * sc.code + ev.code) 0 = f := Option.some.inj hf
  clear hf
  obtain ⟨hc, hw⟩ := ctlFits_of hw
  simp only [List.all_cons, List.all_nil, Bool.and_true, Bool.and_eq_true, decide_eq_true_eq, WF.v, WF.v4, WF.os] at hw
  have k0 := o.code_lt
  have k1 := sc.code_lt
  have k2 := ev.code_lt
  have hf : (Fields.reg c 0x0AC d a b 0 (64 * o.code + 8 * sc.code + ev.code) 0).Fits := Fields.fits_reg hc (by omega) (by omega) (by omega) (by omega) (by omega) (by omega) (by omega)
  refine ⟨hf, ?_⟩
  show some (Instr.hgath _ _ _ _ _ _ _) = _
  rw [Option.some.injEq, Instr.hgath.injEq]
  exact ⟨Fields.ctl_reg hc .., rfl, rfl, rfl, (congrArg Ord.ofCode (show _ = o.code from by dsimp only [Fields.reg, Fields.mem, Fields.br]; omega)).trans (Ord.ofCode_code o), (congrArg Scope.ofCode (show _ = sc.code from by dsimp only [Fields.reg, Fields.mem, Fields.br]; omega)).trans (Scope.ofCode_code sc), (congrArg Evict.ofCode (show _ = ev.code from by dsimp only [Fields.reg, Fields.mem, Fields.br]; omega)).trans (Evict.ofCode_code ev)⟩

theorem tbld (c : Ctl) (d : Nat) (a : Nat) (b : Nat) (e : Nat) (arr : Nat) (way : Nat) : Statement (.tbld c d a b e arr way) := by
  intro f hw hf
  obtain rfl : Fields.reg c 0x0B0 d a b e (arr + 4 * way) 0 = f := Option.some.inj hf
  clear hf
  obtain ⟨hc, hw⟩ := ctlFits_of hw
  simp only [List.all_cons, List.all_nil, Bool.and_true, Bool.and_eq_true, decide_eq_true_eq, WF.s, WF.uimm] at hw
  have hf : (Fields.reg c 0x0B0 d a b e (arr + 4 * way) 0).Fits := Fields.fits_reg hc (by omega) (by omega) (by omega) (by omega) (by omega) (by omega) (by omega)
  refine ⟨hf, ?_⟩
  show some (Instr.tbld _ _ _ _ _ _ _) = _
  rw [Option.some.injEq, Instr.tbld.injEq]
  exact ⟨Fields.ctl_reg hc .., rfl, rfl, rfl, rfl, by dsimp only [Fields.reg, Fields.mem, Fields.br]; omega, by dsimp only [Fields.reg, Fields.mem, Fields.br]; omega⟩

theorem tbrd (c : Ctl) (d : Nat) (a : Nat) (arr : Nat) (way : Nat) : Statement (.tbrd c d a arr way) := by
  intro f hw hf
  obtain rfl : Fields.reg c 0x0B1 d a 0 0 (arr + 4 * way) 0 = f := Option.some.inj hf
  clear hf
  obtain ⟨hc, hw⟩ := ctlFits_of hw
  simp only [List.all_cons, List.all_nil, Bool.and_true, Bool.and_eq_true, decide_eq_true_eq, WF.s, WF.uimm] at hw
  have hf : (Fields.reg c 0x0B1 d a 0 0 (arr + 4 * way) 0).Fits := Fields.fits_reg hc (by omega) (by omega) (by omega) (by omega) (by omega) (by omega) (by omega)
  refine ⟨hf, ?_⟩
  show some (Instr.tbrd _ _ _ _ _) = _
  rw [Option.some.injEq, Instr.tbrd.injEq]
  exact ⟨Fields.ctl_reg hc .., rfl, rfl, by dsimp only [Fields.reg, Fields.mem, Fields.br]; omega, by dsimp only [Fields.reg, Fields.mem, Fields.br]; omega⟩

theorem tbinv (c : Ctl) (d : Nat) (a : Nat) (arr : Nat) (all : Bool) : Statement (.tbinv c d a arr all) := by
  intro f hw hf
  obtain rfl : Fields.reg c 0x0B2 d a 0 0 (arr + 32 * all.toNat) 0 = f := Option.some.inj hf
  clear hf
  obtain ⟨hc, hw⟩ := ctlFits_of hw
  simp only [List.all_cons, List.all_nil, Bool.and_true, Bool.and_eq_true, decide_eq_true_eq, WF.s, WF.uimm] at hw
  have k0 := bool_lt all
  have hf : (Fields.reg c 0x0B2 d a 0 0 (arr + 32 * all.toNat) 0).Fits := Fields.fits_reg hc (by omega) (by omega) (by omega) (by omega) (by omega) (by omega) (by omega)
  refine ⟨hf, ?_⟩
  show some (Instr.tbinv _ _ _ _ _) = _
  rw [Option.some.injEq, Instr.tbinv.injEq]
  exact ⟨Fields.ctl_reg hc .., rfl, rfl, by dsimp only [Fields.reg, Fields.mem, Fields.br]; omega, (congrArg (fun n => n == 1) (show _ = all.toNat from by dsimp only [Fields.reg, Fields.mem, Fields.br]; omega)).trans (bool_beq_one all)⟩

theorem frq (c : Ctl) (d : Nat) (a : Nat) : Statement (.frq c d a) := by
  intro f hw hf
  obtain rfl : Fields.reg c 0x0B3 d a 0 0 0 0 = f := Option.some.inj hf
  clear hf
  obtain ⟨hc, hw⟩ := ctlFits_of hw
  simp only [List.all_cons, List.all_nil, Bool.and_true, Bool.and_eq_true, decide_eq_true_eq, WF.s] at hw
  have hf : (Fields.reg c 0x0B3 d a 0 0 0 0).Fits := Fields.fits_reg hc (by omega) (by omega) (by omega) (by omega) (by omega) (by omega) (by omega)
  refine ⟨hf, ?_⟩
  show some (Instr.frq _ _ _) = _
  rw [Option.some.injEq, Instr.frq.injEq]
  exact ⟨Fields.ctl_reg hc .., rfl, rfl⟩

theorem bndq (c : Ctl) (d : Nat) (a : Nat) : Statement (.bndq c d a) := by
  intro f hw hf
  obtain rfl : Fields.reg c 0x0B4 d a 0 0 0 0 = f := Option.some.inj hf
  clear hf
  obtain ⟨hc, hw⟩ := ctlFits_of hw
  simp only [List.all_cons, List.all_nil, Bool.and_true, Bool.and_eq_true, decide_eq_true_eq, WF.s] at hw
  have hf : (Fields.reg c 0x0B4 d a 0 0 0 0).Fits := Fields.fits_reg hc (by omega) (by omega) (by omega) (by omega) (by omega) (by omega) (by omega)
  refine ⟨hf, ?_⟩
  show some (Instr.bndq _ _ _) = _
  rw [Option.some.injEq, Instr.bndq.injEq]
  exact ⟨Fields.ctl_reg hc .., rfl, rfl⟩

theorem revack (c : Ctl) (d : Nat) (a : Nat) (b : Nat) : Statement (.revack c d a b) := by
  intro f hw hf
  obtain rfl : Fields.reg c 0x0B5 d a b 0 0 0 = f := Option.some.inj hf
  clear hf
  obtain ⟨hc, hw⟩ := ctlFits_of hw
  simp only [List.all_cons, List.all_nil, Bool.and_true, Bool.and_eq_true, decide_eq_true_eq, WF.s] at hw
  have hf : (Fields.reg c 0x0B5 d a b 0 0 0).Fits := Fields.fits_reg hc (by omega) (by omega) (by omega) (by omega) (by omega) (by omega) (by omega)
  refine ⟨hf, ?_⟩
  show some (Instr.revack _ _ _ _) = _
  rw [Option.some.injEq, Instr.revack.injEq]
  exact ⟨Fields.ctl_reg hc .., rfl, rfl, rfl⟩

theorem lossack (c : Ctl) (d : Nat) (a : Nat) : Statement (.lossack c d a) := by
  intro f hw hf
  obtain rfl : Fields.reg c 0x0B6 d a 0 0 0 0 = f := Option.some.inj hf
  clear hf
  obtain ⟨hc, hw⟩ := ctlFits_of hw
  simp only [List.all_cons, List.all_nil, Bool.and_true, Bool.and_eq_true, decide_eq_true_eq, WF.s] at hw
  have hf : (Fields.reg c 0x0B6 d a 0 0 0 0).Fits := Fields.fits_reg hc (by omega) (by omega) (by omega) (by omega) (by omega) (by omega) (by omega)
  refine ⟨hf, ?_⟩
  show some (Instr.lossack _ _ _) = _
  rw [Option.some.injEq, Instr.lossack.injEq]
  exact ⟨Fields.ctl_reg hc .., rfl, rfl⟩

theorem rtq (c : Ctl) (d : Nat) (a : Nat) : Statement (.rtq c d a) := by
  intro f hw hf
  obtain rfl : Fields.reg c 0x0B7 d a 0 0 0 0 = f := Option.some.inj hf
  clear hf
  obtain ⟨hc, hw⟩ := ctlFits_of hw
  simp only [List.all_cons, List.all_nil, Bool.and_true, Bool.and_eq_true, decide_eq_true_eq, WF.s] at hw
  have hf : (Fields.reg c 0x0B7 d a 0 0 0 0).Fits := Fields.fits_reg hc (by omega) (by omega) (by omega) (by omega) (by omega) (by omega) (by omega)
  refine ⟨hf, ?_⟩
  show some (Instr.rtq _ _ _) = _
  rw [Option.some.injEq, Instr.rtq.injEq]
  exact ⟨Fields.ctl_reg hc .., rfl, rfl⟩

theorem rtinv (c : Ctl) (d : Nat) (a : Nat) (b : Nat) : Statement (.rtinv c d a b) := by
  intro f hw hf
  obtain rfl : Fields.reg c 0x0B8 d a b 0 0 0 = f := Option.some.inj hf
  clear hf
  obtain ⟨hc, hw⟩ := ctlFits_of hw
  simp only [List.all_cons, List.all_nil, Bool.and_true, Bool.and_eq_true, decide_eq_true_eq, WF.s] at hw
  have hf : (Fields.reg c 0x0B8 d a b 0 0 0).Fits := Fields.fits_reg hc (by omega) (by omega) (by omega) (by omega) (by omega) (by omega) (by omega)
  refine ⟨hf, ?_⟩
  show some (Instr.rtinv _ _ _ _) = _
  rw [Option.some.injEq, Instr.rtinv.injEq]
  exact ⟨Fields.ctl_reg hc .., rfl, rfl, rfl⟩

theorem cpy (c : Ctl) (a : Nat) (b : Nat) (e : Nat) (dp : Bool) (sp : Bool) (q : Nat) : Statement (.cpy c a b e dp sp q) := by
  intro f hw hf
  obtain rfl : Fields.reg c 0x0C0 0 a b e (128 * dp.toNat + 64 * sp.toNat + q) 0 = f := Option.some.inj hf
  clear hf
  obtain ⟨hc, hw⟩ := ctlFits_of hw
  simp only [List.all_cons, List.all_nil, Bool.and_true, Bool.and_eq_true, decide_eq_true_eq, WF.v, WF.uimm] at hw
  have k0 := bool_lt dp
  have k1 := bool_lt sp
  have hf : (Fields.reg c 0x0C0 0 a b e (128 * dp.toNat + 64 * sp.toNat + q) 0).Fits := Fields.fits_reg hc (by omega) (by omega) (by omega) (by omega) (by omega) (by omega) (by omega)
  refine ⟨hf, ?_⟩
  show some (Instr.cpy _ _ _ _ _ _ _) = _
  rw [Option.some.injEq, Instr.cpy.injEq]
  exact ⟨Fields.ctl_reg hc .., rfl, rfl, rfl, (congrArg (fun n => n == 1) (show _ = dp.toNat from by dsimp only [Fields.reg, Fields.mem, Fields.br]; omega)).trans (bool_beq_one dp), (congrArg (fun n => n == 1) (show _ = sp.toNat from by dsimp only [Fields.reg, Fields.mem, Fields.br]; omega)).trans (bool_beq_one sp), by dsimp only [Fields.reg, Fields.mem, Fields.br]; omega⟩

theorem cpyx (c : Ctl) (a : Nat) (b : Nat) (e : Nat) (dp : Bool) (sp : Bool) (q : Nat) : Statement (.cpyx c a b e dp sp q) := by
  intro f hw hf
  obtain rfl : Fields.reg c 0x0C1 0 a b e (128 * dp.toNat + 64 * sp.toNat + q) 0 = f := Option.some.inj hf
  clear hf
  obtain ⟨hc, hw⟩ := ctlFits_of hw
  simp only [List.all_cons, List.all_nil, Bool.and_true, Bool.and_eq_true, decide_eq_true_eq, WF.v, WF.v2, WF.uimm] at hw
  have k0 := bool_lt dp
  have k1 := bool_lt sp
  have hf : (Fields.reg c 0x0C1 0 a b e (128 * dp.toNat + 64 * sp.toNat + q) 0).Fits := Fields.fits_reg hc (by omega) (by omega) (by omega) (by omega) (by omega) (by omega) (by omega)
  refine ⟨hf, ?_⟩
  show some (Instr.cpyx _ _ _ _ _ _ _) = _
  rw [Option.some.injEq, Instr.cpyx.injEq]
  exact ⟨Fields.ctl_reg hc .., rfl, rfl, rfl, (congrArg (fun n => n == 1) (show _ = dp.toNat from by dsimp only [Fields.reg, Fields.mem, Fields.br]; omega)).trans (bool_beq_one dp), (congrArg (fun n => n == 1) (show _ = sp.toNat from by dsimp only [Fields.reg, Fields.mem, Fields.br]; omega)).trans (bool_beq_one sp), by dsimp only [Fields.reg, Fields.mem, Fields.br]; omega⟩

theorem cpym (c : Ctl) (a : Nat) (b : Nat) (e : Nat) (dp : Bool) (q : Nat) : Statement (.cpym c a b e dp q) := by
  intro f hw hf
  obtain rfl : Fields.reg c 0x0C2 0 a b e (128 * dp.toNat + q) 0 = f := Option.some.inj hf
  clear hf
  obtain ⟨hc, hw⟩ := ctlFits_of hw
  simp only [List.all_cons, List.all_nil, Bool.and_true, Bool.and_eq_true, decide_eq_true_eq, WF.v, WF.uimm] at hw
  have k0 := bool_lt dp
  have hf : (Fields.reg c 0x0C2 0 a b e (128 * dp.toNat + q) 0).Fits := Fields.fits_reg hc (by omega) (by omega) (by omega) (by omega) (by omega) (by omega) (by omega)
  refine ⟨hf, ?_⟩
  show some (Instr.cpym _ _ _ _ _ _) = _
  rw [Option.some.injEq, Instr.cpym.injEq]
  exact ⟨Fields.ctl_reg hc .., rfl, rfl, rfl, (congrArg (fun n => n == 1) (show _ = dp.toNat from by dsimp only [Fields.reg, Fields.mem, Fields.br]; omega)).trans (bool_beq_one dp), by dsimp only [Fields.reg, Fields.mem, Fields.br]; omega⟩

theorem cpyd (c : Ctl) (a : Nat) (b : Nat) (e : Nat) (dp : Bool) (sp : Bool) (q : Nat) : Statement (.cpyd c a b e dp sp q) := by
  intro f hw hf
  obtain rfl : Fields.reg c 0x0C3 0 a b e (128 * dp.toNat + 64 * sp.toNat + q) 0 = f := Option.some.inj hf
  clear hf
  obtain ⟨hc, hw⟩ := ctlFits_of hw
  simp only [List.all_cons, List.all_nil, Bool.and_true, Bool.and_eq_true, decide_eq_true_eq, WF.v, WF.uimm] at hw
  have k0 := bool_lt dp
  have k1 := bool_lt sp
  have hf : (Fields.reg c 0x0C3 0 a b e (128 * dp.toNat + 64 * sp.toNat + q) 0).Fits := Fields.fits_reg hc (by omega) (by omega) (by omega) (by omega) (by omega) (by omega) (by omega)
  refine ⟨hf, ?_⟩
  show some (Instr.cpyd _ _ _ _ _ _ _) = _
  rw [Option.some.injEq, Instr.cpyd.injEq]
  exact ⟨Fields.ctl_reg hc .., rfl, rfl, rfl, (congrArg (fun n => n == 1) (show _ = dp.toNat from by dsimp only [Fields.reg, Fields.mem, Fields.br]; omega)).trans (bool_beq_one dp), (congrArg (fun n => n == 1) (show _ = sp.toNat from by dsimp only [Fields.reg, Fields.mem, Fields.br]; omega)).trans (bool_beq_one sp), by dsimp only [Fields.reg, Fields.mem, Fields.br]; omega⟩

theorem srarv (c : Ctl) (ring : Nat) (a : Nat) : Statement (.srarv c ring a) := by
  intro f hw hf
  obtain rfl : Fields.reg c 0x0C4 0 a 0 0 ring 0 = f := Option.some.inj hf
  clear hf
  obtain ⟨hc, hw⟩ := ctlFits_of hw
  simp only [List.all_cons, List.all_nil, Bool.and_true, Bool.and_eq_true, decide_eq_true_eq, WF.s, WF.uimm] at hw
  have hf : (Fields.reg c 0x0C4 0 a 0 0 ring 0).Fits := Fields.fits_reg hc (by omega) (by omega) (by omega) (by omega) (by omega) (by omega) (by omega)
  refine ⟨hf, ?_⟩
  show some (Instr.srarv _ _ _) = _
  rw [Option.some.injEq, Instr.srarv.injEq]
  exact ⟨Fields.ctl_reg hc .., rfl, rfl⟩

theorem srwt (c : Ctl) (ring : Nat) (a : Nat) (ph : Bool) : Statement (.srwt c ring a ph) := by
  intro f hw hf
  obtain rfl : Fields.reg c 0x0C5 0 a 0 0 ring ph.toNat = f := Option.some.inj hf
  clear hf
  obtain ⟨hc, hw⟩ := ctlFits_of hw
  simp only [List.all_cons, List.all_nil, Bool.and_true, Bool.and_eq_true, decide_eq_true_eq, WF.s, WF.uimm] at hw
  have k0 := bool_lt ph
  have hf : (Fields.reg c 0x0C5 0 a 0 0 ring ph.toNat).Fits := Fields.fits_reg hc (by omega) (by omega) (by omega) (by omega) (by omega) (by omega) (by omega)
  refine ⟨hf, ?_⟩
  show some (Instr.srwt _ _ _ _) = _
  rw [Option.some.injEq, Instr.srwt.injEq]
  exact ⟨Fields.ctl_reg hc .., rfl, rfl, (congrArg (fun n => n == 1) (show _ = ph.toNat from rfl)).trans (bool_beq_one ph)⟩

theorem obres (c : Ctl) (d : Nat) (a : Nat) : Statement (.obres c d a) := by
  intro f hw hf
  obtain rfl : Fields.reg c 0x0D0 d a 0 0 0 0 = f := Option.some.inj hf
  clear hf
  obtain ⟨hc, hw⟩ := ctlFits_of hw
  simp only [List.all_cons, List.all_nil, Bool.and_true, Bool.and_eq_true, decide_eq_true_eq, WF.s] at hw
  have hf : (Fields.reg c 0x0D0 d a 0 0 0 0).Fits := Fields.fits_reg hc (by omega) (by omega) (by omega) (by omega) (by omega) (by omega) (by omega)
  refine ⟨hf, ?_⟩
  show some (Instr.obres _ _ _) = _
  rw [Option.some.injEq, Instr.obres.injEq]
  exact ⟨Fields.ctl_reg hc .., rfl, rfl⟩

theorem obrel (c : Ctl) (d : Nat) (a : Nat) : Statement (.obrel c d a) := by
  intro f hw hf
  obtain rfl : Fields.reg c 0x0D1 d a 0 0 0 0 = f := Option.some.inj hf
  clear hf
  obtain ⟨hc, hw⟩ := ctlFits_of hw
  simp only [List.all_cons, List.all_nil, Bool.and_true, Bool.and_eq_true, decide_eq_true_eq, WF.s] at hw
  have hf : (Fields.reg c 0x0D1 d a 0 0 0 0).Fits := Fields.fits_reg hc (by omega) (by omega) (by omega) (by omega) (by omega) (by omega) (by omega)
  refine ⟨hf, ?_⟩
  show some (Instr.obrel _ _ _) = _
  rw [Option.some.injEq, Instr.obrel.injEq]
  exact ⟨Fields.ctl_reg hc .., rfl, rfl⟩

theorem obld (c : Ctl) (a : Nat) (b : Nat) : Statement (.obld c a b) := by
  intro f hw hf
  obtain rfl : Fields.reg c 0x0D2 0 a b 0 0 0 = f := Option.some.inj hf
  clear hf
  obtain ⟨hc, hw⟩ := ctlFits_of hw
  simp only [List.all_cons, List.all_nil, Bool.and_true, Bool.and_eq_true, decide_eq_true_eq, WF.v] at hw
  have hf : (Fields.reg c 0x0D2 0 a b 0 0 0).Fits := Fields.fits_reg hc (by omega) (by omega) (by omega) (by omega) (by omega) (by omega) (by omega)
  refine ⟨hf, ?_⟩
  show some (Instr.obld _ _ _) = _
  rw [Option.some.injEq, Instr.obld.injEq]
  exact ⟨Fields.ctl_reg hc .., rfl, rfl⟩

theorem acca (c : Ctl) (d : Nat) (a : Nat) (b : Nat) : Statement (.acca c d a b) := by
  intro f hw hf
  obtain rfl : Fields.reg c 0x0D3 d a b 0 0 0 = f := Option.some.inj hf
  clear hf
  obtain ⟨hc, hw⟩ := ctlFits_of hw
  simp only [List.all_cons, List.all_nil, Bool.and_true, Bool.and_eq_true, decide_eq_true_eq, WF.s] at hw
  have hf : (Fields.reg c 0x0D3 d a b 0 0 0).Fits := Fields.fits_reg hc (by omega) (by omega) (by omega) (by omega) (by omega) (by omega) (by omega)
  refine ⟨hf, ?_⟩
  show some (Instr.acca _ _ _ _) = _
  rw [Option.some.injEq, Instr.acca.injEq]
  exact ⟨Fields.ctl_reg hc .., rfl, rfl, rfl⟩

theorem accf (c : Ctl) (d : Nat) (a : Nat) : Statement (.accf c d a) := by
  intro f hw hf
  obtain rfl : Fields.reg c 0x0D4 d a 0 0 0 0 = f := Option.some.inj hf
  clear hf
  obtain ⟨hc, hw⟩ := ctlFits_of hw
  simp only [List.all_cons, List.all_nil, Bool.and_true, Bool.and_eq_true, decide_eq_true_eq, WF.s] at hw
  have hf : (Fields.reg c 0x0D4 d a 0 0 0 0).Fits := Fields.fits_reg hc (by omega) (by omega) (by omega) (by omega) (by omega) (by omega) (by omega)
  refine ⟨hf, ?_⟩
  show some (Instr.accf _ _ _) = _
  rw [Option.some.injEq, Instr.accf.injEq]
  exact ⟨Fields.ctl_reg hc .., rfl, rfl⟩

theorem accz (c : Ctl) (a : Nat) (b : Nat) : Statement (.accz c a b) := by
  intro f hw hf
  obtain rfl : Fields.reg c 0x0D5 0 a b 0 0 0 = f := Option.some.inj hf
  clear hf
  obtain ⟨hc, hw⟩ := ctlFits_of hw
  simp only [List.all_cons, List.all_nil, Bool.and_true, Bool.and_eq_true, decide_eq_true_eq, WF.s] at hw
  have hf : (Fields.reg c 0x0D5 0 a b 0 0 0).Fits := Fields.fits_reg hc (by omega) (by omega) (by omega) (by omega) (by omega) (by omega) (by omega)
  refine ⟨hf, ?_⟩
  show some (Instr.accz _ _ _) = _
  rw [Option.some.injEq, Instr.accz.injEq]
  exact ⟨Fields.ctl_reg hc .., rfl, rfl⟩

theorem mma (c : Ctl) (a : Nat) : Statement (.mma c a) := by
  intro f hw hf
  obtain rfl : Fields.reg c 0x0D6 0 a 0 0 0 0 = f := Option.some.inj hf
  clear hf
  obtain ⟨hc, hw⟩ := ctlFits_of hw
  simp only [List.all_cons, List.all_nil, Bool.and_true, Bool.and_eq_true, decide_eq_true_eq, WF.v] at hw
  have hf : (Fields.reg c 0x0D6 0 a 0 0 0 0).Fits := Fields.fits_reg hc (by omega) (by omega) (by omega) (by omega) (by omega) (by omega) (by omega)
  refine ⟨hf, ?_⟩
  show some (Instr.mma _ _) = _
  rw [Option.some.injEq, Instr.mma.injEq]
  exact ⟨Fields.ctl_reg hc .., rfl⟩

theorem mmas (c : Ctl) (a : Nat) : Statement (.mmas c a) := by
  intro f hw hf
  obtain rfl : Fields.reg c 0x0D7 0 a 0 0 0 0 = f := Option.some.inj hf
  clear hf
  obtain ⟨hc, hw⟩ := ctlFits_of hw
  simp only [List.all_cons, List.all_nil, Bool.and_true, Bool.and_eq_true, decide_eq_true_eq, WF.v] at hw
  have hf : (Fields.reg c 0x0D7 0 a 0 0 0 0).Fits := Fields.fits_reg hc (by omega) (by omega) (by omega) (by omega) (by omega) (by omega) (by omega)
  refine ⟨hf, ?_⟩
  show some (Instr.mmas _ _) = _
  rw [Option.some.injEq, Instr.mmas.injEq]
  exact ⟨Fields.ctl_reg hc .., rfl⟩

theorem accrd (c : Ctl) (d : Nat) (a : Nat) : Statement (.accrd c d a) := by
  intro f hw hf
  obtain rfl : Fields.reg c 0x0D8 d a 0 0 0 0 = f := Option.some.inj hf
  clear hf
  obtain ⟨hc, hw⟩ := ctlFits_of hw
  simp only [List.all_cons, List.all_nil, Bool.and_true, Bool.and_eq_true, decide_eq_true_eq, WF.v] at hw
  have hf : (Fields.reg c 0x0D8 d a 0 0 0 0).Fits := Fields.fits_reg hc (by omega) (by omega) (by omega) (by omega) (by omega) (by omega) (by omega)
  refine ⟨hf, ?_⟩
  show some (Instr.accrd _ _ _) = _
  rw [Option.some.injEq, Instr.accrd.injEq]
  exact ⟨Fields.ctl_reg hc .., rfl, rfl⟩

theorem accwr (c : Ctl) (d : Nat) (a : Nat) : Statement (.accwr c d a) := by
  intro f hw hf
  obtain rfl : Fields.reg c 0x0D9 d a 0 0 0 0 = f := Option.some.inj hf
  clear hf
  obtain ⟨hc, hw⟩ := ctlFits_of hw
  simp only [List.all_cons, List.all_nil, Bool.and_true, Bool.and_eq_true, decide_eq_true_eq, WF.v] at hw
  have hf : (Fields.reg c 0x0D9 d a 0 0 0 0).Fits := Fields.fits_reg hc (by omega) (by omega) (by omega) (by omega) (by omega) (by omega) (by omega)
  refine ⟨hf, ?_⟩
  show some (Instr.accwr _ _ _) = _
  rw [Option.some.injEq, Instr.accwr.injEq]
  exact ⟨Fields.ctl_reg hc .., rfl, rfl⟩

theorem drain (c : Ctl) (a : Nat) : Statement (.drain c a) := by
  intro f hw hf
  obtain rfl : Fields.reg c 0x0DA 0 a 0 0 0 0 = f := Option.some.inj hf
  clear hf
  obtain ⟨hc, hw⟩ := ctlFits_of hw
  simp only [List.all_cons, List.all_nil, Bool.and_true, Bool.and_eq_true, decide_eq_true_eq, WF.v] at hw
  have hf : (Fields.reg c 0x0DA 0 a 0 0 0 0).Fits := Fields.fits_reg hc (by omega) (by omega) (by omega) (by omega) (by omega) (by omega) (by omega)
  refine ⟨hf, ?_⟩
  show some (Instr.drain _ _) = _
  rw [Option.some.injEq, Instr.drain.injEq]
  exact ⟨Fields.ctl_reg hc .., rfl⟩

theorem bar (c : Ctl) (g : Nat) : Statement (.bar c g) := by
  intro f hw hf
  obtain rfl : Fields.ofImm c 0x0E0 0 0 g = f := Option.some.inj hf
  clear hf
  obtain ⟨hc, hw⟩ := ctlFits_of hw
  simp only [List.all_cons, List.all_nil, Bool.and_true, Bool.and_eq_true, decide_eq_true_eq, WF.uimm] at hw
  have hi : g < 2 ^ 22 := by omega
  have hf : (Fields.ofImm c 0x0E0 0 0 g).Fits := Fields.fits_ofImm hc (by omega) (by omega) (by omega) hi
  refine ⟨hf, ?_⟩
  show some (Instr.bar _ _) = _
  rw [Option.some.injEq, Instr.bar.injEq]
  exact ⟨Fields.ctl_ofImm hc .., Fields.imm_ofImm _ _ _ _ hi⟩

theorem bara (c : Ctl) (g : Nat) : Statement (.bara c g) := by
  intro f hw hf
  obtain rfl : Fields.ofImm c 0x0E1 0 0 g = f := Option.some.inj hf
  clear hf
  obtain ⟨hc, hw⟩ := ctlFits_of hw
  simp only [List.all_cons, List.all_nil, Bool.and_true, Bool.and_eq_true, decide_eq_true_eq, WF.uimm] at hw
  have hi : g < 2 ^ 22 := by omega
  have hf : (Fields.ofImm c 0x0E1 0 0 g).Fits := Fields.fits_ofImm hc (by omega) (by omega) (by omega) hi
  refine ⟨hf, ?_⟩
  show some (Instr.bara _ _) = _
  rw [Option.some.injEq, Instr.bara.injEq]
  exact ⟨Fields.ctl_ofImm hc .., Fields.imm_ofImm _ _ _ _ hi⟩

theorem barw (c : Ctl) (g : Nat) : Statement (.barw c g) := by
  intro f hw hf
  obtain rfl : Fields.ofImm c 0x0E2 0 0 g = f := Option.some.inj hf
  clear hf
  obtain ⟨hc, hw⟩ := ctlFits_of hw
  simp only [List.all_cons, List.all_nil, Bool.and_true, Bool.and_eq_true, decide_eq_true_eq, WF.uimm] at hw
  have hi : g < 2 ^ 22 := by omega
  have hf : (Fields.ofImm c 0x0E2 0 0 g).Fits := Fields.fits_ofImm hc (by omega) (by omega) (by omega) hi
  refine ⟨hf, ?_⟩
  show some (Instr.barw _ _) = _
  rw [Option.some.injEq, Instr.barw.injEq]
  exact ⟨Fields.ctl_ofImm hc .., Fields.imm_ofImm _ _ _ _ hi⟩

theorem grpq (c : Ctl) (d : Nat) (a : Nat) : Statement (.grpq c d a) := by
  intro f hw hf
  obtain rfl : Fields.reg c 0x0E3 d a 0 0 0 0 = f := Option.some.inj hf
  clear hf
  obtain ⟨hc, hw⟩ := ctlFits_of hw
  simp only [List.all_cons, List.all_nil, Bool.and_true, Bool.and_eq_true, decide_eq_true_eq, WF.v] at hw
  have hf : (Fields.reg c 0x0E3 d a 0 0 0 0).Fits := Fields.fits_reg hc (by omega) (by omega) (by omega) (by omega) (by omega) (by omega) (by omega)
  refine ⟨hf, ?_⟩
  show some (Instr.grpq _ _ _) = _
  rw [Option.some.injEq, Instr.grpq.injEq]
  exact ⟨Fields.ctl_reg hc .., rfl, rfl⟩

theorem chsend (c : Ctl) (ch : Nat) (a : Nat) : Statement (.chsend c ch a) := by
  intro f hw hf
  obtain rfl : Fields.ofImm c 0x0E4 0 a ch = f := Option.some.inj hf
  clear hf
  obtain ⟨hc, hw⟩ := ctlFits_of hw
  simp only [List.all_cons, List.all_nil, Bool.and_true, Bool.and_eq_true, decide_eq_true_eq, WF.v, WF.uimm] at hw
  have hi : ch < 2 ^ 22 := by omega
  have hf : (Fields.ofImm c 0x0E4 0 a ch).Fits := Fields.fits_ofImm hc (by omega) (by omega) (by omega) hi
  refine ⟨hf, ?_⟩
  show some (Instr.chsend _ _ _) = _
  rw [Option.some.injEq, Instr.chsend.injEq]
  exact ⟨Fields.ctl_ofImm hc .., Fields.imm_ofImm _ _ _ _ hi, rfl⟩

theorem chrecv (c : Ctl) (d : Nat) (ch : Nat) : Statement (.chrecv c d ch) := by
  intro f hw hf
  obtain rfl : Fields.ofImm c 0x0E5 d 0 ch = f := Option.some.inj hf
  clear hf
  obtain ⟨hc, hw⟩ := ctlFits_of hw
  simp only [List.all_cons, List.all_nil, Bool.and_true, Bool.and_eq_true, decide_eq_true_eq, WF.v, WF.uimm] at hw
  have hi : ch < 2 ^ 22 := by omega
  have hf : (Fields.ofImm c 0x0E5 d 0 ch).Fits := Fields.fits_ofImm hc (by omega) (by omega) (by omega) hi
  refine ⟨hf, ?_⟩
  show some (Instr.chrecv _ _ _) = _
  rw [Option.some.injEq, Instr.chrecv.injEq]
  exact ⟨Fields.ctl_ofImm hc .., rfl, Fields.imm_ofImm _ _ _ _ hi⟩

theorem chq (c : Ctl) (d : Nat) (ch : Nat) (n : Nat) : Statement (.chq c d ch n) := by
  intro f hw hf
  obtain rfl : Fields.ofImm c 0x0E6 d 0 (ch + 64 * n) = f := Option.some.inj hf
  clear hf
  obtain ⟨hc, hw⟩ := ctlFits_of hw
  simp only [List.all_cons, List.all_nil, Bool.and_true, Bool.and_eq_true, decide_eq_true_eq, WF.v, WF.uimm] at hw
  have hi : (ch + 64 * n) < 2 ^ 22 := by omega
  have hf : (Fields.ofImm c 0x0E6 d 0 (ch + 64 * n)).Fits := Fields.fits_ofImm hc (by omega) (by omega) (by omega) hi
  refine ⟨hf, ?_⟩
  show some (Instr.chq _ _ _ _) = _
  rw [Option.some.injEq, Instr.chq.injEq]
  exact ⟨Fields.ctl_ofImm hc .., rfl, by rw [Fields.imm_ofImm _ _ _ _ hi]; omega, by rw [Fields.imm_ofImm _ _ _ _ hi]; omega⟩

theorem pairWord (h0 : Half) (h1 : Half) (stall1 : Bool) : Statement (.pairWord h0 h1 stall1) := fun _ _ h => by simp [fieldsOf] at h

theorem readyWordStore (t : Nat) (slot : Nat) (value : Word) : Statement (.readyWordStore t slot value) := fun _ _ h => by simp [fieldsOf] at h

theorem pendingSlotQueued (t : Nat) : Statement (.pendingSlotQueued t) := fun _ _ h => by simp [fieldsOf] at h

theorem keyUnsealDone (slot : Nat) : Statement (.keyUnsealDone slot) := fun _ _ h => by simp [fieldsOf] at h

theorem keywaitTimeout (l : Nat) : Statement (.keywaitTimeout l) := fun _ _ h => by simp [fieldsOf] at h

theorem reuseLookup (l : Nat) : Statement (.reuseLookup l) := fun _ _ h => by simp [fieldsOf] at h

theorem digestCacheFill (l : Nat) (region : Nat) : Statement (.digestCacheFill l region) := fun _ _ h => by simp [fieldsOf] at h

theorem reuseHitCopyDone (l : Nat) : Statement (.reuseHitCopyDone l) := fun _ _ h => by simp [fieldsOf] at h

theorem launchAdmitted (l : Nat) (slots : List Nat) (save : Nat) : Statement (.launchAdmitted l slots save) := fun _ _ h => by simp [fieldsOf] at h

theorem reservationTimeout (l : Nat) : Statement (.reservationTimeout l) := fun _ _ h => by simp [fieldsOf] at h

theorem launchRetire (l : Nat) (killed : Bool) : Statement (.launchRetire l killed) := fun _ _ h => by simp [fieldsOf] at h

theorem completionRecordWrite (t : Nat) : Statement (.completionRecordWrite t) := fun _ _ h => by simp [fieldsOf] at h

theorem eventRecordWrite (t : Nat) : Statement (.eventRecordWrite t) := fun _ _ h => by simp [fieldsOf] at h

theorem completionInterruptTimer (t : Nat) : Statement (.completionInterruptTimer t) := fun _ _ h => by simp [fieldsOf] at h

theorem vfRegisterWrite (t : Nat) (r : VfReg) (v : Word) : Statement (.vfRegisterWrite t r v) := fun _ _ h => by simp [fieldsOf] at h

theorem functionLevelReset (t : Nat) : Statement (.functionLevelReset t) := fun _ _ h => by simp [fieldsOf] at h

theorem cxlMemRead (ma : Nat) : Statement (.cxlMemRead ma) := fun _ _ h => by simp [fieldsOf] at h

theorem cxlMemWrite (ma : Nat) (data : List Byte) : Statement (.cxlMemWrite ma data) := fun _ _ h => by simp [fieldsOf] at h

theorem serviceBatchComplete (t : Nat) (cls : Nat) (slot : Nat) : Statement (.serviceBatchComplete t cls slot) := fun _ _ h => by simp [fieldsOf] at h

theorem class1Service (t : Nat) (slot : Nat) : Statement (.class1Service t slot) := fun _ _ h => by simp [fieldsOf] at h

theorem upcallPost (t : Nat) : Statement (.upcallPost t) := fun _ _ h => by simp [fieldsOf] at h

theorem trapTaken (core : Nat) (slot : Nat) : Statement (.trapTaken core slot) := fun _ _ h => by simp [fieldsOf] at h

theorem homeSliceRefusal (core : Nat) (slot : Nat) : Statement (.homeSliceRefusal core slot) := fun _ _ h => by simp [fieldsOf] at h

theorem linkRefusal (core : Nat) (slot : Nat) : Statement (.linkRefusal core slot) := fun _ _ h => by simp [fieldsOf] at h

theorem loadComplete (core : Nat) (slot : Nat) (op : Nat) (part : Option Nat) (l1 : Bool) : Statement (.loadComplete core slot op part l1) := fun _ _ h => by simp [fieldsOf] at h

theorem storeAccepted (core : Nat) (slot : Nat) (op : Nat) (part : Option Nat) : Statement (.storeAccepted core slot op part) := fun _ _ h => by simp [fieldsOf] at h

theorem atomicPerformed (core : Nat) (slot : Nat) (op : Nat) (part : Option Nat) : Statement (.atomicPerformed core slot op part) := fun _ _ h => by simp [fieldsOf] at h

theorem copyJobQueued (core : Nat) (job : Nat) : Statement (.copyJobQueued core job) := fun _ _ h => by simp [fieldsOf] at h

theorem copyEngineBurst (core : Nat) (job : Nat) (burst : Nat) : Statement (.copyEngineBurst core job burst) := fun _ _ h => by simp [fieldsOf] at h

theorem copyJobComplete (core : Nat) (job : Nat) : Statement (.copyJobComplete core job) := fun _ _ h => by simp [fieldsOf] at h

theorem tileOpComplete (core : Nat) (op : Nat) : Statement (.tileOpComplete core op) := fun _ _ h => by simp [fieldsOf] at h

theorem spmetaFault (core : Nat) (op : Nat) : Statement (.spmetaFault core op) := fun _ _ h => by simp [fieldsOf] at h

theorem acqxResolve (core : Nat) (l : Nat) : Statement (.acqxResolve core l) := fun _ _ h => by simp [fieldsOf] at h

theorem granuleWaitServed (core : Nat) (l : Nat) : Statement (.granuleWaitServed core l) := fun _ _ h => by simp [fieldsOf] at h

theorem hangDetect (core : Nat) (slot : Nat) : Statement (.hangDetect core slot) := fun _ _ h => by simp [fieldsOf] at h

theorem sleepTimeout (core : Nat) (slot : Nat) : Statement (.sleepTimeout core slot) := fun _ _ h => by simp [fieldsOf] at h

theorem fenceMarkerAck (core : Nat) (slot : Nat) (p : Path) : Statement (.fenceMarkerAck core slot p) := fun _ _ h => by simp [fieldsOf] at h

theorem sliceTokenRefill (die : Nat) : Statement (.sliceTokenRefill die) := fun _ _ h => by simp [fieldsOf] at h

theorem sliceRetry (core : Nat) (slot : Nat) (op : Nat) : Statement (.sliceRetry core slot op) := fun _ _ h => by simp [fieldsOf] at h

theorem netTokenRefill (die : Nat) : Statement (.netTokenRefill die) := fun _ _ h => by simp [fieldsOf] at h

theorem controlBudgetRefill (die : Nat) : Statement (.controlBudgetRefill die) := fun _ _ h => by simp [fieldsOf] at h

theorem linkFlitReplay (die : Nat) (tag : Nat) : Statement (.linkFlitReplay die tag) := fun _ _ h => by simp [fieldsOf] at h

theorem remoteOwnershipUpdate (die : Nat) (idx : Nat) (e : RotEntry) : Statement (.remoteOwnershipUpdate die idx e) := fun _ _ h => by simp [fieldsOf] at h

theorem waymaskChange (die : Nat) (t : Nat) (waymask : BitVec 16) (slbw : BitVec 8) (netbw : BitVec 8) (netwt : BitVec 32) : Statement (.waymaskChange die t waymask slbw netbw netwt) := fun _ _ h => by simp [fieldsOf] at h

theorem scrubberPass (die : Nat) : Statement (.scrubberPass die) := fun _ _ h => by simp [fieldsOf] at h

theorem writeClockWrap : Statement (.writeClockWrap) := fun _ _ h => by simp [fieldsOf] at h

theorem revocationPost (t : Nat) (k : PlaceKind) (count : Nat) (target : Option Nat) (deadline : Nat) (reqid : Nat) : Statement (.revocationPost t k count target deadline reqid) := fun _ _ h => by simp [fieldsOf] at h

theorem abortEngineSeize (t : Nat) (reqid : Nat) : Statement (.abortEngineSeize t reqid) := fun _ _ h => by simp [fieldsOf] at h

theorem frameHandover (t : Nat) (tfn : Nat) (toHost : Bool) : Statement (.frameHandover t tfn toHost) := fun _ _ h => by simp [fieldsOf] at h

theorem leaseChange (core : Nat) (t : Nat) : Statement (.leaseChange core t) := fun _ _ h => by simp [fieldsOf] at h

theorem stopRequest (l : Nat) (cores : List Nat) (forced : Bool) : Statement (.stopRequest l cores forced) := fun _ _ h => by simp [fieldsOf] at h

theorem graceExpiry (l : Nat) : Statement (.graceExpiry l) := fun _ _ h => by simp [fieldsOf] at h

theorem svcParkTimeout (l : Nat) : Statement (.svcParkTimeout l) := fun _ _ h => by simp [fieldsOf] at h

theorem castleSave (l : Nat) (place : Nat) : Statement (.castleSave l place) := fun _ _ h => by simp [fieldsOf] at h

theorem castleRestore (l : Nat) (place : Nat) (slots : List Nat) : Statement (.castleRestore l place slots) := fun _ _ h => by simp [fieldsOf] at h

theorem tenantSuspend (t : Nat) : Statement (.tenantSuspend t) := fun _ _ h => by simp [fieldsOf] at h

theorem bindingChange (t : Nat) (k : PlaceKind) (place : Nat) (phys : Nat) (prot : Option Nat) : Statement (.bindingChange t k place phys prot) := fun _ _ h => by simp [fieldsOf] at h

theorem dirtyHarvest (t : Nat) : Statement (.dirtyHarvest t) := fun _ _ h => by simp [fieldsOf] at h

theorem tenantMigrate (t : Nat) (remap : List (PlaceKind × Nat × Nat)) (device : Option MigrationTarget) : Statement (.tenantMigrate t remap device) := fun _ _ h => by simp [fieldsOf] at h

theorem certCommit (slot : Nat) (len : Nat) (body : List Byte) : Statement (.certCommit slot len body) := fun _ _ h => by simp [fieldsOf] at h

theorem challengeStart (t : Nat) : Statement (.challengeStart t) := fun _ _ h => by simp [fieldsOf] at h

theorem challengeDone (t : Nat) : Statement (.challengeDone t) := fun _ _ h => by simp [fieldsOf] at h

theorem powerOn (img : BootImage) : Statement (.powerOn img) := fun _ _ h => by simp [fieldsOf] at h

theorem functionReady (idx : Nat) (count : Nat) : Statement (.functionReady idx count) := fun _ _ h => by simp [fieldsOf] at h

theorem functionFail (idx : Nat) : Statement (.functionFail idx) := fun _ _ h => by simp [fieldsOf] at h

theorem thermalStep (die : Nat) (up : Bool) : Statement (.thermalStep die up) := fun _ _ h => by simp [fieldsOf] at h

theorem thermalStop (die : Nat) : Statement (.thermalStop die) := fun _ _ h => by simp [fieldsOf] at h

theorem reservedEncoding (w : Word) : Statement (.reservedEncoding w) := fun _ _ h => by simp [fieldsOf] at h

theorem instructionFetchFault (k : FetchCause) : Statement (.instructionFetchFault k) := fun _ _ h => by simp [fieldsOf] at h

theorem memoryError (ma : Nat) (corrected : Bool) : Statement (.memoryError ma corrected) := fun _ _ h => by simp [fieldsOf] at h

theorem powerOff : Statement (.powerOff) := fun _ _ h => by simp [fieldsOf] at h

theorem remoteAccessAtTarget (dev : Nat) (t : Nat) (ma : Nat) (req : RemoteReq) : Statement (.remoteAccessAtTarget dev t ma req) := fun _ _ h => by simp [fieldsOf] at h

theorem tenantResume (t : Nat) : Statement (.tenantResume t) := fun _ _ h => by simp [fieldsOf] at h

theorem tenantBind (t : Nat) (args : BindArgs) : Statement (.tenantBind t args) := fun _ _ h => by simp [fieldsOf] at h

end

end Sys2Proof.Laws.RoundTrip
end

