-- ==== Sys2Proof/Laws/Words.lean ====
section
/-! SUPPORT. Words that change the registers of their wave: where the lanes go, what the shapes of effects write, and what a clear word
leaves, said once for every shape. -/
namespace Sys2Proof.Machine
open Sys2Proof.Safety

/-! ### Where the lanes go -/

theorem lane_park (w : Wave) (i c : Nat) (a : Word) (j : Nat) :
    (w.park i c a).lane j = if j = i ∧ (w.lane i).st = .ready then { w.lane i with st := .parked c a, atRcv := false } else w.lane j := by
  unfold Wave.park
  split
  · rename_i h
    by_cases hj : j = i
    · subst hj; rw [lane_setLane_self _ (lane_lt_length h)]; simp [h]
    · rw [lane_setLane_ne _ hj]; simp [hj]
  · rename_i h; simp [h]

theorem lane_parkAll (l : List (Nat × Nat × Word)) : ∀ (w : Wave) (j : Nat),
    (w.parkAll l).lane j = if (w.lane j).st = .ready then (match l.find? (fun p => p.1 == j) with
      | some p => { w.lane j with st := .parked p.2.1 p.2.2, atRcv := false }
      | none => w.lane j) else w.lane j := by
  induction l with
  | nil => intro w j; simp [Wave.parkAll]
  | cons p l ih =>
    intro w j
    obtain ⟨i, c, a⟩ := p
    rw [Wave.parkAll, ih, lane_park]
    by_cases hj : j = i
    · subst hj
      by_cases hr : (w.lane j).st = .ready <;> simp [hr]
    · have hij : ¬i = j := fun e => hj e.symm
      simp [hj, hij]

theorem lane_moveLane_ne (pc : CodeAddr) (bad : List Nat) (r : Done) (w : Wave) {i j : Nat} (h : j ≠ i) :
    (w.moveLane pc bad r i).lane j = w.lane j := by
  unfold Wave.moveLane
  split
  · rfl
  · exact lane_setLane_ne _ h

theorem length_moveLane (pc : CodeAddr) (bad : List Nat) (r : Done) (w : Wave) (i : Nat) :
    (w.moveLane pc bad r i).lanes.length = w.lanes.length := by
  unfold Wave.moveLane
  split <;> simp [Wave.setLane]

theorem lane_advance_out (pc : CodeAddr) (bad : List Nat) (r : Done) : ∀ (l : List Nat) (w : Wave) {j : Nat}, j ∉ l →
    (w.advance pc l bad r).lane j = w.lane j := by
  intro l
  induction l with
  | nil => exact fun _ _ _ => rfl
  | cons i l ih =>
    intro w j hj
    simp only [List.mem_cons, not_or] at hj
    exact (ih (w.moveLane pc bad r i) hj.2).trans (lane_moveLane_ne pc bad r w hj.1)

theorem lane_advance (pc : CodeAddr) (bad : List Nat) (r : Done) : ∀ (l : List Nat) (w : Wave) (j : Nat), l.Nodup → j < w.lanes.length →
    j ∈ l → (w.advance pc l bad r).lane j = if j ∈ bad ∨ j ∈ r.stay then w.lane j else { w.lane j with pc := r.nextPc pc j } := by
  intro l
  induction l with
  | nil => intro w j _ _ h; simp at h
  | cons i l ih =>
    intro w j hn hj hm
    have hs : w.advance pc (i :: l) bad r = (w.moveLane pc bad r i).advance pc l bad r := rfl
    rw [hs]
    by_cases hij : j = i
    · subst hij
      rw [lane_advance_out _ _ _ _ _ (List.nodup_cons.1 hn).1]
      unfold Wave.moveLane
      by_cases hb : j ∈ bad ∨ j ∈ r.stay
      · simp [hb]
      · simp only [List.contains_iff_mem, hb, if_false]
        exact lane_setLane_self _ hj
    · have hm' : j ∈ l := by simpa [hij] using hm
      rw [ih _ _ (List.nodup_cons.1 hn).2 (by rw [length_moveLane]; exact hj) hm', lane_moveLane_ne _ _ _ _ hij]

theorem length_parkAll (l : List (Nat × Nat × Word)) : ∀ w : Wave, (w.parkAll l).lanes.length = w.lanes.length := by
  induction l with
  | nil => exact fun _ => rfl
  | cons p l ih =>
    intro w
    rw [Wave.parkAll, ih]
    unfold Wave.park
    split <;> simp [Wave.setLane]

/-- A ready lane after a word: parked where it faulted (R8), where it was where it stays, else at its next address (R133). -/
theorem lane_done (r : Done) (w : Wave) (pc : CodeAddr) {active : List Nat} (hn : active.Nodup) {j : Nat} (hj : (w.lane j).st = .ready)
    (ha : j ∈ active) :
    (r.lanes w pc active).lane j = match r.faults.find? (fun p => p.1 == j) with
      | some p => { w.lane j with st := .parked p.2.1 p.2.2, atRcv := false }
      | none => if j ∈ r.stay then w.lane j else { w.lane j with pc := r.nextPc pc j } := by
  unfold Done.lanes
  rw [lane_advance _ _ _ _ _ _ hn (by rw [length_parkAll]; exact lane_lt_length hj) ha, lane_parkAll, if_pos hj]
  cases hf : r.faults.find? (fun p => p.1 == j) with
  | some p =>
    have : j ∈ r.faults.map Prod.fst := by
      have h1 := List.mem_of_find?_eq_some hf
      have h2 := List.find?_some hf
      simp only [beq_iff_eq] at h2
      exact List.mem_map.2 ⟨p, h1, h2⟩
    rw [if_pos (.inl this)]
  | none =>
    have : j ∉ r.faults.map Prod.fst := by
      intro hm
      obtain ⟨p, hp, e⟩ := List.mem_map.1 hm
      have := List.find?_eq_none.1 hf p hp
      simp [e] at this
    by_cases hs : j ∈ r.stay
    · simp [hs]
    · simp [hs, this]

/-- A lane that is not active stays as it is. -/
theorem lane_done_other (r : Done) (w : Wave) (pc : CodeAddr) {active : List Nat} {j : Nat}
    (hf : ∀ p ∈ r.faults, p.1 ∈ active) (ha : j ∉ active) : (r.lanes w pc active).lane j = w.lane j := by
  have hnone : r.faults.find? (fun p => p.1 == j) = none := by
    rw [List.find?_eq_none]
    intro p hp
    simp only [beq_iff_eq]
    exact fun e => ha (e ▸ hf p hp)
  unfold Done.lanes
  rw [lane_advance_out _ _ _ _ _ ha, lane_parkAll, hnone]
  simp

/-- A wave with a ready or parked lane has not exited. -/
theorem allExited_of_lane {w : Wave} {j : Nat} (hj : j < w.lanes.length) (h : (w.lane j).st ≠ .exited) : w.allExited = false := by
  unfold Wave.allExited
  rw [List.all_eq_false]
  refine ⟨w.lanes[j], List.getElem_mem hj, ?_⟩
  have : w.lane j = w.lanes[j] := by simp [Wave.lane, hj]
  rw [this] at h
  simpa using h

/-- Some active lane is left after a word that lets none exit. -/
theorem doneLanes_live (r : Done) (w : Wave) (pc : CodeAddr) {active : List Nat} (hn : active.Nodup) {j : Nat}
    (hj : (w.lane j).st = .ready) (ha : j ∈ active) : (r.lanes w pc active).allExited = false := by
  have hlen : (r.lanes w pc active).lanes.length = w.lanes.length := by
    obtain ⟨m, hm⟩ := doneLanes_other r w pc active
    have : ∀ (l : List Nat) (v : Wave), (v.advance pc l (r.faults.map Prod.fst) r).lanes.length = v.lanes.length := by
      intro l
      induction l with
      | nil => exact fun _ => rfl
      | cons i l ih => exact fun v => (ih (v.moveLane pc (r.faults.map Prod.fst) r i)).trans (length_moveLane _ _ _ _ _)
    rw [Done.lanes, this, length_parkAll]
  refine allExited_of_lane (j := j) (by rw [hlen]; exact lane_lt_length hj) ?_
  rw [lane_done r w pc hn hj ha]
  split
  · simp
  · split <;> simp [hj]

/-- What a wave holds besides its registers, FSTAT, RNGCTR and the notes of the booking. -/
def Wave.kept (w : Wave) : Wave :=
  { w with
    lanes := [], vregs := [], sregs := [], preds := [], qpreds := [], fstat := 0, rngctr := 0, pend := [], tags := [], written := [],
    held := none, heldAt := none, pinned := [], sleepSince := none, hangcnt := 0, hangArmed := false, perf := [], nextIssue := 0,
    lastIssue := 0 }

theorem specialKept_same {w v : Wave} (h : v.kept = w.kept)
    (hs : v.sleepSince = w.sleepSince ∨ v.sleepSince = none := by first | exact .inr rfl | exact .inl rfl) : SpecialKept w v := by
  simp only [Wave.kept, Wave.mk.injEq] at h
  constructor <;> simp_all

/-! ### A clear word -/

/-- The lanes of a clear word are ready, below 32 and at its address. -/
theorem clear_lane {c : Ctl} {u : Use} {s : State} {w : Wave} {pc : CodeAddr} (h : Clear c u s w pc) :
    ∃ j, j ∈ w.activeAt pc ∧ (w.lane j).st = .ready := by
  obtain ⟨j, hj⟩ := List.exists_mem_of_ne_nil _ h.some
  have := execLanes_active hj
  exact ⟨j, execLanes_sub hj, by have := this.2.1; simp [Wave.ready] at this; exact this.1⟩

theorem activeAt_ready {w : Wave} {pc : CodeAddr} {i : Nat} (h : i ∈ w.activeAt pc) : (w.lane i).st = .ready := by
  have := (mem_activeAt.1 h).2.1
  simp [Wave.ready] at this
  exact this.1

theorem clear_wave {c : Ctl} {u : Use} {s : State} {w : Wave} {pc : CodeAddr} (h : Clear c u s w pc) :
    s.wave? w.core w.slot = some w := by
  have := State.wave?_core h.pos.here
  rw [this.1, this.2]
  exact h.pos.here

/-- What a clear word finds: the wave with its vector registers as they stand. -/
theorem clear_view {c : Ctl} {u : Use} {s : State} {w : Wave} {pc : CodeAddr} (h : Clear c u s w pc) :
    ∃ m, s.view w (u.guarded c) = { w with vregs := m } ∧ ∀ q, ∀ i < 32, (s.view w (u.guarded c)).vreg q i = w.vreg q i := by
  have h1 : s.view w (u.guarded c) = s.seeLatch w (u.guarded c) :=
    view_settled (pendOf_sub h.settled (fun _ hp => names_read hp)) (by rw [(guarded_fields u c).1]; exact h.kept.1)
  obtain ⟨m, hm⟩ := seeLatch_eq s w (u.guarded c)
  exact ⟨m, by rw [h1, hm], by rw [h1]; exact seeLatch_vreg _ h.latch⟩

/-- The context of a clear word. -/
def clearEx (c : Ctl) (u : Use) (s : State) (w : Wave) (pc : CodeAddr) : Ex :=
  ⟨s, s.view w (u.guarded c), pc, w.activeAt pc, execLanes c u.q w (w.activeAt pc), false⟩

section
variable {c : Ctl} {u : Use} {s : State} {w : Wave} {pc : CodeAddr}

theorem clearEx_wave (h : Clear c u s w pc) : (clearEx c u s w pc).wave = w := by
  obtain ⟨m, hm, -⟩ := clear_view h
  unfold Ex.wave clearEx
  rw [hm]
  simp [clear_wave h]

theorem clearEx_v (h : Clear c u s w pc) {q i : Nat} (hi : i < 32) : (clearEx c u s w pc).v q i = w.vreg q i := by
  obtain ⟨m, -, hm⟩ := clear_view h
  exact hm q i hi

theorem clearEx_sc (h : Clear c u s w pc) (q : Nat) : (clearEx c u s w pc).sc q = w.sreg q := by
  obtain ⟨m, hm, -⟩ := clear_view h
  unfold Ex.sc clearEx
  rw [hm]
  rfl

theorem clearEx_b (h : Clear c u s w pc) (o : VS) {i : Nat} (hi : i < 32) :
    (clearEx c u s w pc).b o i = vsVal (fun r => w.vreg r i) w.sreg o := by
  cases o with
  | v r => exact clearEx_v h hi
  | s r => exact clearEx_sc h r

theorem clearEx_w (h : Clear c u s w pc) : ∃ m, (clearEx c u s w pc).w = { w with vregs := m } := by
  obtain ⟨m, hm, -⟩ := clear_view h
  exact ⟨m, hm⟩

theorem clearEx_l (h : Clear c u s w pc) : (clearEx c u s w pc).l = s.launch w.launch := by
  obtain ⟨m, hm⟩ := clearEx_w h
  unfold Ex.l
  rw [hm]
  rfl

/-- A clear word whose effect ends: its wave `w1` as the effect left it, with its lanes moved and booked, and nothing else changed by
the booking. -/
theorem word_done {body : Ex → Out} {s1 : State} {w1 : Wave} {r : Done} (h : Clear c u s w pc)
    (hb : body (clearEx c u s w pc) = .done s1 r) (hw : s1.wave? w.core w.slot = some w1) (hc : s1.ctl.cycle = s.ctl.cycle)
    (hl : (r.lanes w1 pc (w.activeAt pc)).allExited = false) :
    ∃ t v, word c u body s = .next t ∧ t.wave? w.core w.slot = some v ∧ Booked (r.lanes w1 pc (w.activeAt pc)) v ∧
      BookKept (Calm s1 w1) s1 t w.core w.slot := by
  obtain ⟨v, a, b, k⟩ := finish_live (c := c) (u := u.guarded c) (lanes := execLanes c u.q w (w.activeAt pc)) hw h.pos.own
    (by rw [pendOf_congr w _ true hc]; exact h.settled) hl
  refine ⟨_, v, ?_, a, b, k⟩
  rw [word_clear h]
  unfold clearEx at hb
  rw [hb]

/-- A clear word whose effect ends and lets every active lane go on to the next word. -/
theorem word_goes {body : Ex → Out} {s1 : State} {w1 : Wave} (n : Option Nat) (p : Bool) (k : Option Nat) (h : Clear c u s w pc)
    (hb : body (clearEx c u s w pc) = .done s1 { count := n, progress := p, hang := k }) (hw : s1.wave? w.core w.slot = some w1)
    (hc : s1.ctl.cycle = s.ctl.cycle) (hlane : ∀ i < 32, (w1.lane i).st = (w.lane i).st) :
    ∃ t v, word c u body s = .next t ∧ t.wave? w.core w.slot = some v ∧
      (∀ i < 32, v.lane i = if i ∈ w.activeAt pc then { w1.lane i with pc := pc + 8 } else w1.lane i) ∧
      (∃ m, Booked { w1 with lanes := m } v) ∧ BookKept (Calm s1 w1) s1 t w.core w.slot := by
  obtain ⟨j, ha, hj⟩ := clear_lane h
  have hn := nodup_activeAt w pc
  obtain ⟨t, v, e, hv, hbk, hk⟩ := word_done h hb hw hc
    (doneLanes_live _ _ _ hn (by rw [hlane j (mem_activeAt.1 ha).1]; exact hj) ha)
  obtain ⟨m, hm⟩ := doneLanes_other { count := n, progress := p, hang := k } w1 pc (w.activeAt pc)
  have hvl : v.lanes = (Done.lanes { count := n, progress := p, hang := k } w1 pc (w.activeAt pc)).lanes := by
    obtain ⟨_, _, _, _, _, _, _, _, hh⟩ := hbk
    rw [hh]
  refine ⟨t, v, e, hv, fun i hi => ?_, ⟨m, by rw [hm] at hbk; exact hbk⟩, hk⟩
  have : v.lane i = (Done.lanes { count := n, progress := p, hang := k } w1 pc (w.activeAt pc)).lane i := by simp [Wave.lane, hvl]
  rw [this]
  by_cases hi' : i ∈ w.activeAt pc
  · rw [lane_done _ _ _ hn (by rw [hlane i hi]; exact activeAt_ready hi') hi', if_pos hi']
    simp [Done.nextPc]
  · rw [if_neg hi', lane_done_other _ _ _ (by simp) hi']

/-- A clear word whose effect is over and that lets every active lane go on. -/
theorem word_over {body : Ex → Out} {s1 : State} {w1 : Wave} (n : Option Nat) (p : Bool) (k : Option Nat) (h : Clear c u s w pc)
    (hb : body (clearEx c u s w pc) = .done s1 { count := n, progress := p, hang := k }) (hw : s1.wave? w.core w.slot = some w1)
    (hc : s1.ctl.cycle = s.ctl.cycle) (hlane : ∀ i < 32, (w1.lane i).st = (w.lane i).st) :
    ∃ t v, word c u body s = .next t ∧ Over s1 w1 w pc t v := by
  obtain ⟨t, v, e, hv, hl, ⟨_, _, _, _, _, _, _, _, _, rfl⟩, hk⟩ := word_goes n p k h hb hw hc hlane
  exact ⟨t, _, e, hv, hl, ⟨rfl, rfl, rfl, rfl⟩, ⟨rfl, rfl⟩, specialKept_same rfl, hk.tasks, hk.mem, hk.ctxs, hk.dev, hk.waves⟩

/-- A clear word that changes its own wave only, and lets every active lane go on. -/
theorem word_wave {body : Ex → Out} {w1 : Wave} (n : Option Nat) (p : Bool) (k : Option Nat) (h : Clear c u s w pc)
    (hb : body (clearEx c u s w pc) = .done (s.setWave w1) { count := n, progress := p, hang := k }) (hcore : w1.core = w.core)
    (hslot : w1.slot = w.slot) (hlanes : w1.lanes = w.lanes) (htenant : w1.tenant = w.tenant) (hhang : w1.hangcnt = w.hangcnt) :
    ∃ t v, word c u body s = .next t ∧ Went s w pc t v ∧ (∃ m, Booked { w1 with lanes := m } v) ∧ RestKept s t w := by
  have hlane : ∀ i, w1.lane i = w.lane i := fun i => by simp [Wave.lane, hlanes]
  obtain ⟨t, v, e, hv, hl, hbk, hk⟩ := word_goes n p k h hb (State.wave?_setWave_self (clear_wave h) hcore hslot) rfl
    (fun i _ => by rw [hlane])
  refine ⟨t, v, e, ⟨hv, fun i hi => by rw [hl i hi, hlane]⟩, hbk, ⟨fun q => ?_, hk.mem, hk.ctxs, hk.dev, fun a b hab => ?_⟩⟩
  · exact hk.tasks (by unfold Calm at *; rw [htenant, hhang]; exact q)
  rw [hk.waves a b hab]
  exact State.wave?_setWave_other s w1 (fun e => hab ⟨by rw [← hcore]; exact e.1.symm, by rw [← hslot]; exact e.2.symm⟩)

/-- A clear word that changes nothing. -/
theorem word_still {body : Ex → Out} (n : Option Nat) (p : Bool) (k : Option Nat) (h : Clear c u s w pc)
    (hb : body (clearEx c u s w pc) = .done s { count := n, progress := p, hang := k }) :
    ∃ t v, word c u body s = .next t ∧ Went s w pc t v ∧ (∃ m, Booked { w with lanes := m } v) ∧ RestKept s t w := by
  obtain ⟨t, v, e, hv, hl, hbk, hk⟩ := word_goes n p k h hb (clear_wave h) rfl (fun _ _ => rfl)
  exact ⟨t, v, e, ⟨hv, hl⟩, hbk, ⟨hk.tasks, hk.mem, hk.ctxs, hk.dev, fun a b hab => hk.waves a b hab⟩⟩

/-- A clear word whose effect leaves the state `s1` beside its wave, which it leaves as `w1`. -/
theorem word_effect {body : Ex → Out} {s1 : State} {w1 x : Wave} (n : Option Nat) (p : Bool) (k : Option Nat) (h : Clear c u s w pc)
    (hb : body (clearEx c u s w pc) = .done (s1.setWave w1) { count := n, progress := p, hang := k })
    (hw : s1.wave? w.core w.slot = some x) (hcore : w1.core = w.core) (hslot : w1.slot = w.slot)
    (hc : s1.ctl.cycle = s.ctl.cycle) (hlane : ∀ i < 32, (w1.lane i).st = (w.lane i).st) :
    ∃ t v, word c u body s = .next t ∧ Over s1 w1 w pc t v := by
  obtain ⟨t, v, e, o⟩ := word_over n p k h hb (State.wave?_setWave_self hw hcore hslot) hc hlane
  refine ⟨t, v, e, ⟨o.wave, o.lanes, o.regs, o.flags, o.special, o.calm, o.mem, o.ctxs, o.dev, fun a b hab => ?_⟩⟩
  rw [o.waves a b hab]
  exact State.wave?_setWave_other s1 w1 (fun e => hab ⟨by rw [← hcore]; exact e.1.symm, by rw [← hslot]; exact e.2.symm⟩)

end

end Sys2Proof.Machine
end

