-- ==== Sys2Proof/Laws/Shapes.lean ====
section
/-! SUPPORT. The shapes of effects: what a word that works lane by lane, or once for its wave, leaves in its wave. -/
namespace Sys2Proof.Machine
open Sys2Proof.Safety

/-! ### One register written in lanes -/

/-- A vector register written in some lanes. -/
theorem applyLanes_vec (d : Nat) (g : Nat → LaneRes) (x : Nat → Word) (hg : ∀ i, (g i).vw = [(d, x i)] ∧ (g i).pw = [] ∧ (g i).fault = none) :
    ∀ (l : List Nat) (w : Wave), (∀ i ∈ l, i < 32) →
    ∃ m, (l.map (fun i => (i, g i))).foldl (fun v p => v.applyLane p.1 p.2) w = { w with vregs := m } ∧
      ∀ r, ∀ j < 32, cellGet 0 m (32 * r + j) = if r = d ∧ j ∈ l then x j else w.vreg r j := by
  intro l
  induction l with
  | nil => exact fun w _ => ⟨w.vregs, rfl, fun r j _ => by simp [Wave.vreg]⟩
  | cons i l ih =>
    intro w hl
    have h1 : w.applyLane i (g i) = w.setVreg d i (x i) := by
      unfold Wave.applyLane
      rw [(hg i).1, (hg i).2.1, (hg i).2.2]
      rfl
    obtain ⟨m, hm, hv⟩ := ih (w.setVreg d i (x i)) (fun j hj => hl j (by simp [hj]))
    refine ⟨m, ?_, fun r j hj => ?_⟩
    · rw [List.map_cons, List.foldl_cons, h1, hm]; rfl
    · rw [hv r j hj, Wave.vreg_setVreg w r j _ (hl i (by simp)) hj]
      by_cases hd : r = d
      · by_cases hji : j = i
        · subst hji; by_cases hjl : j ∈ l <;> simp [hd, hjl]
        · by_cases hjl : j ∈ l <;> simp [hd, hjl, hji]
      · simp [hd]

theorem orFlags_append (l : List Flags) : ∀ a : Flags, l.foldl (fun a b => a ||| b) a = a ||| orFlags l := by
  unfold orFlags
  induction l with
  | nil => intro a; simp
  | cons b l ih => intro a; rw [List.foldl_cons, ih, List.foldl_cons, ih (0 ||| b)]; simp [BitVec.or_assoc]

theorem orFlags_cons (b : Flags) (l : List Flags) : orFlags (b :: l) = b ||| orFlags l := by
  have : orFlags (b :: l) = l.foldl (fun a b => a ||| b) (0 ||| b) := rfl
  rw [this, orFlags_append]
  simp

theorem orFlags_zero {l : List Flags} (h : ∀ x ∈ l, x = 0) : orFlags l = 0 := by
  induction l with
  | nil => rfl
  | cons b l ih => rw [orFlags_cons, h b (by simp), ih (fun x hx => h x (by simp [hx]))]; rfl

/-- A lane predicate written: p0 takes nothing (R25). -/
theorem pred_setPred (w : Wave) (p q i j : Nat) (b : Bool) (hi : i < 32) (hj : j < 32) :
    (w.setPred p i b).pred q j = if q = p ∧ p ≠ 0 ∧ j = i then b else w.pred q j := by
  unfold Wave.setPred
  by_cases hp : p = 0
  · simp [hp]
  · simp only [hp, if_false]
    unfold Wave.pred Wave.predMask
    by_cases hq : q = 0
    · subst hq; simp [Ne.symm hp]
    · simp only [hq, if_false, hp]
      rw [cellGet_cellSet]
      by_cases hqp : q = p
      · subst hqp
        cases b <;> by_cases hji : j = i <;>
          simp [hji, hi, hj, hq, BitVec.getLsbD_shiftLeft] <;> omega
      · simp [hqp]

/-- A lane predicate written in some lanes. -/
theorem applyLanes_pred (d : Nat) (g : Nat → LaneRes) (x : Nat → Bool) (hg : ∀ i, (g i).vw = [] ∧ (g i).pw = [(d, x i)] ∧ (g i).fault = none) :
    ∀ (l : List Nat) (w : Wave), (∀ i ∈ l, i < 32) →
    ∃ m, (l.map (fun i => (i, g i))).foldl (fun v p => v.applyLane p.1 p.2) w = { w with preds := m } ∧
      ∀ q, ∀ j < 32, ({ w with preds := m } : Wave).pred q j = if q = d ∧ d ≠ 0 ∧ j ∈ l then x j else w.pred q j := by
  intro l
  induction l with
  | nil => exact fun w _ => ⟨w.preds, rfl, fun q j _ => by simp⟩
  | cons i l ih =>
    intro w hl
    have h1 : w.applyLane i (g i) = w.setPred d i (x i) := by
      unfold Wave.applyLane
      rw [(hg i).1, (hg i).2.1, (hg i).2.2]
      rfl
    have h2 : ∃ n, w.setPred d i (x i) = { w with preds := n } := by
      unfold Wave.setPred
      dsimp only
      split
      · exact ⟨w.preds, rfl⟩
      · exact ⟨_, rfl⟩
    obtain ⟨n, hn⟩ := h2
    obtain ⟨m, hm, hv⟩ := ih (w.setPred d i (x i)) (fun j hj => hl j (by simp [hj]))
    have e : ({ w.setPred d i (x i) with preds := m } : Wave) = { w with preds := m } := by rw [hn]
    rw [e] at hm hv
    refine ⟨m, by rw [List.map_cons, List.foldl_cons, h1, hm], fun q j hj => ?_⟩
    rw [hv q j hj, pred_setPred w d q i j _ (hl i (by simp)) hj]
    by_cases hji : j = i
    · subst hji; by_cases hjl : j ∈ l <;> by_cases hq : q = d ∧ d ≠ 0 <;> simp [hjl] <;> tauto
    · by_cases hjl : j ∈ l <;> simp [hjl, hji]

/-! ### Words that are clear, by shape -/

section
variable {c : Ctl} {u : Use} {s : State} {w : Wave} {pc : CodeAddr}

theorem execLanes_lt {c : Ctl} {q : Bool} {g w : Wave} {pc : CodeAddr} : ∀ i ∈ execLanes c q g (w.activeAt pc), i < 32 :=
  fun _ h => (execLanes_active h).1

/-- A clear word that writes one vector register with its events: the register and FSTAT, and nothing else. -/
theorem word_fBody {d : Nat} {f : Ex → Nat → VRes} (h : Clear c u s w pc) :
    ∃ t v, word c u (fBody d f) s = .next t ∧ Went s w pc t v ∧ RestKept s t w ∧
      (∀ i ∈ execLanes c u.q w (w.activeAt pc), v.vreg d i = (f (clearEx c u s w pc) i).val) ∧
      VecKept w v (fun r i => r = d ∧ i ∈ execLanes c u.q w (w.activeAt pc)) ∧ ScalKept w v (fun _ => False) ∧ PredKept w v ∧
      SpecialKept w v ∧ v.rngctr = w.rngctr ∧
      v.fstat = w.fstat ||| orFlags ((execLanes c u.q w (w.activeAt pc)).map (fun i => (f (clearEx c u s w pc) i).fl)) := by
  obtain ⟨m, hm, hv⟩ := applyLanes_vec d (fun i => { vw := [(d, (f (clearEx c u s w pc) i).val)], fl := (f (clearEx c u s w pc) i).fl })
    (fun i => (f (clearEx c u s w pc) i).val) (fun i => ⟨rfl, rfl, rfl⟩) (execLanes c u.q w (w.activeAt pc)) w execLanes_lt
  have hb : fBody d f (clearEx c u s w pc) = .done (s.setWave (({ w with vregs := m } : Wave).setFlags
      (orFlags ((execLanes c u.q w (w.activeAt pc)).map (fun i => (f (clearEx c u s w pc) i).fl))))) { count := none } := by
    have hl : (clearEx c u s w pc).lanes = execLanes c u.q w (w.activeAt pc) := rfl
    have hs : (clearEx c u s w pc).s = s := rfl
    unfold fBody laneBody
    simp only [hl, hs, clearEx_wave h, hm, laneFlags, List.map_map, Function.comp_def, Option.isSome_none, Bool.false_eq_true, if_false,
      List.filterMap_map, Option.map_none, List.filterMap_none]
  obtain ⟨t, v, e, hw, ⟨_, _, _, _, _, _, _, _, _, rfl⟩, hr⟩ := word_wave none false none h hb rfl rfl rfl rfl rfl
  refine ⟨t, _, e, hw, hr, fun i hi => ?_, fun r i hi hn => ?_, fun _ _ => rfl, ⟨rfl, rfl⟩,
    specialKept_same rfl, rfl, rfl⟩
  · exact (hv d i (execLanes_lt i hi)).trans (by simp [hi])
  · exact (hv r i hi).trans (by rw [if_neg hn])

/-- A clear word that writes one vector register. -/
theorem word_vBody {d : Nat} {f : Ex → Nat → Word} (h : Clear c u s w pc) :
    ∃ t v, word c u (vBody d f) s = .next t ∧ Went s w pc t v ∧ RestKept s t w ∧
      (∀ i ∈ execLanes c u.q w (w.activeAt pc), v.vreg d i = f (clearEx c u s w pc) i) ∧
      VecKept w v (fun r i => r = d ∧ i ∈ execLanes c u.q w (w.activeAt pc)) ∧ ScalKept w v (fun _ => False) ∧ PredKept w v ∧
      SpecialKept w v ∧ FlagsKept w v := by
  obtain ⟨t, v, e, a, b, x, y, z, p, q, r, fl⟩ := word_fBody (d := d) (f := fun x i => ⟨f x i, 0⟩) h
  refine ⟨t, v, e, a, b, x, y, z, p, q, ?_, r⟩
  rw [fl, orFlags_zero (by simp)]
  simp

/-- The second of two writes of a wave stands. -/
theorem State.setWave_setWave (s : State) {v x : Wave} (hc : v.core = x.core) (hk : v.slot = x.slot) :
    (s.setWave v).setWave x = s.setWave x := by
  have : ∀ l : List Wave, updWhere (fun u => u.core == x.core && u.slot == x.slot) (fun _ => x)
      (updWhere (fun u => u.core == v.core && u.slot == v.slot) (fun _ => v) l) =
      updWhere (fun u => u.core == x.core && u.slot == x.slot) (fun _ => x) l := by
    intro l
    rw [hc, hk]
    unfold updWhere
    rw [List.map_map]
    refine List.map_congr_left (fun u _ => ?_)
    by_cases hu : u.core = x.core ∧ u.slot = x.slot
    · simp [hu, hc, hk]
    · simp [hu]
  show s.setWaves _ = s.setWaves _
  congr 1
  exact this _

theorem advanceRng_eq (w : Wave) (b : Bool) : w.advanceRng b = { w with rngctr := if b then w.rngctr + 1 else w.rngctr } := by
  cases b <;> rfl

/-- A clear word that writes one vector register with its events, and counts its draw where it draws (R199). -/
theorem word_rBody {d : Nat} {r : Rnd} {f : Ex → Nat → VRes} (h : Clear c u s w pc) :
    ∃ t v, word c u (rBody d r f) s = .next t ∧ Went s w pc t v ∧ RestKept s t w ∧
      (∀ i ∈ execLanes c u.q w (w.activeAt pc), v.vreg d i = (f (clearEx c u s w pc) i).val) ∧
      VecKept w v (fun r i => r = d ∧ i ∈ execLanes c u.q w (w.activeAt pc)) ∧ ScalKept w v (fun _ => False) ∧ PredKept w v ∧
      SpecialKept w v ∧ v.rngctr = (if r == .sr then w.rngctr + 1 else w.rngctr) ∧
      v.fstat = w.fstat ||| orFlags ((execLanes c u.q w (w.activeAt pc)).map (fun i => (f (clearEx c u s w pc) i).fl)) := by
  obtain ⟨m, hm, hv⟩ := applyLanes_vec d (fun i => { vw := [(d, (f (clearEx c u s w pc) i).val)], fl := (f (clearEx c u s w pc) i).fl })
    (fun i => (f (clearEx c u s w pc) i).val) (fun i => ⟨rfl, rfl, rfl⟩) (execLanes c u.q w (w.activeAt pc)) w execLanes_lt
  have hb : rBody d r f (clearEx c u s w pc) = .done (s.setWave { ({ w with vregs := m } : Wave).setFlags
      (orFlags ((execLanes c u.q w (w.activeAt pc)).map (fun i => (f (clearEx c u s w pc) i).fl))) with
      rngctr := if r == .sr then w.rngctr + 1 else w.rngctr }) { count := none } := by
    have hl : (clearEx c u s w pc).lanes = execLanes c u.q w (w.activeAt pc) := rfl
    have hs : (clearEx c u s w pc).s = s := rfl
    obtain ⟨m', hm'⟩ := clearEx_w h
    unfold rBody fBody laneBody
    simp only [hl, hs, clearEx_wave h, hm, laneFlags, List.map_map, Function.comp_def, Option.isSome_none, Bool.false_eq_true, if_false,
      List.filterMap_map, Option.map_none, List.filterMap_none]
    rw [hm']
    dsimp only
    generalize hW : (Wave.setFlags _ _) = W
    have hcw : W.core = w.core := by rw [← hW]; rfl
    have hkw : W.slot = w.slot := by rw [← hW]; rfl
    have hrw : W.rngctr = w.rngctr := by rw [← hW]; rfl
    rw [State.wave?_setWave_self (v := W) (clear_wave h) hcw hkw]
    dsimp only
    rw [advanceRng_eq, hrw, State.setWave_setWave] <;> rfl
  obtain ⟨t, v, e, hw, ⟨_, _, _, _, _, _, _, _, _, rfl⟩, hr⟩ := word_wave none false none h hb rfl rfl rfl rfl rfl
  refine ⟨t, _, e, hw, hr, fun i hi => ?_, fun r i hi hn => ?_, fun _ _ => rfl, ⟨rfl, rfl⟩, specialKept_same rfl, rfl, rfl⟩
  · exact (hv d i (execLanes_lt i hi)).trans (by simp [hi])
  · exact (hv r i hi).trans (by rw [if_neg hn])

/-- A clear word that writes one lane predicate: p0 takes nothing (R25). -/
theorem word_pBody {d : Nat} {f : Ex → Nat → Bool} (h : Clear c u s w pc) :
    ∃ t v, word c u (pBody d f) s = .next t ∧ Went s w pc t v ∧ RestKept s t w ∧
      (∀ q, ∀ i < 32, v.pred q i = if q = d ∧ d ≠ 0 ∧ i ∈ execLanes c u.q w (w.activeAt pc) then f (clearEx c u s w pc) i else w.pred q i) ∧
      VecKept w v (fun _ _ => False) ∧ ScalKept w v (fun _ => False) ∧ v.qpreds = w.qpreds ∧ SpecialKept w v ∧ FlagsKept w v := by
  obtain ⟨m, hm, hv⟩ := applyLanes_pred d (fun i => { pw := [(d, f (clearEx c u s w pc) i)] })
    (fun i => f (clearEx c u s w pc) i) (fun i => ⟨rfl, rfl, rfl⟩) (execLanes c u.q w (w.activeAt pc)) w execLanes_lt
  have hz : orFlags ((execLanes c u.q w (w.activeAt pc)).map (fun _ => (0 : Flags))) = 0 := orFlags_zero (by simp)
  have hb : pBody d f (clearEx c u s w pc) = .done (s.setWave (({ w with preds := m } : Wave).setFlags 0)) { count := none } := by
    have hl : (clearEx c u s w pc).lanes = execLanes c u.q w (w.activeAt pc) := rfl
    have hs : (clearEx c u s w pc).s = s := rfl
    unfold pBody laneBody
    simp only [hl, hs, clearEx_wave h, hm, laneFlags, List.map_map, Function.comp_def, Option.isSome_none, Bool.false_eq_true, if_false,
      List.filterMap_map, Option.map_none, List.filterMap_none, hz]
  obtain ⟨t, v, e, hw, ⟨_, _, _, _, _, _, _, _, _, rfl⟩, hr⟩ := word_wave none false none h hb rfl rfl rfl rfl rfl
  refine ⟨t, _, e, hw, hr, hv, fun _ _ _ _ => rfl, fun _ _ => rfl, rfl,
    specialKept_same rfl, ?_, rfl⟩
  simp [Wave.setFlags]

/-- A clear word that writes one scalar register. -/
theorem word_sBody {d : Nat} {f : Ex → Word} (h : Clear c u s w pc) :
    ∃ t v, word c u (sBody d f) s = .next t ∧ Went s w pc t v ∧ RestKept s t w ∧ v.sreg d = f (clearEx c u s w pc) ∧
      VecKept w v (fun _ _ => False) ∧ ScalKept w v (fun r => r = d) ∧ PredKept w v ∧ SpecialKept w v ∧ FlagsKept w v := by
  have hb : sBody d f (clearEx c u s w pc) = .done (s.setWave (w.setSreg d (f (clearEx c u s w pc)))) { count := none } := by
    unfold sBody waveBody
    rw [clearEx_wave h]
    rfl
  obtain ⟨t, v, e, hw, ⟨_, _, _, _, _, _, _, _, _, rfl⟩, hr⟩ := word_wave none false none h hb rfl rfl rfl rfl rfl
  refine ⟨t, _, e, hw, hr, ?_, fun _ _ _ _ => rfl, fun r hn => ?_, ⟨rfl, rfl⟩,
    specialKept_same rfl, rfl, rfl⟩
  · exact (Wave.sreg_setSreg w d d _).trans (by simp)
  · exact (Wave.sreg_setSreg w d r _).trans (by rw [if_neg hn])

/-- A clear word without an effect of its own. -/
theorem word_nothing {body : Ex → Out} (n : Option Nat) (p : Bool) (k : Option Nat) (h : Clear c u s w pc)
    (hb : body (clearEx c u s w pc) = .done s { count := n, progress := p, hang := k }) :
    ∃ t v, word c u body s = .next t ∧ Went s w pc t v ∧ RestKept s t w ∧ VecKept w v (fun _ _ => False) ∧
      ScalKept w v (fun _ => False) ∧ PredKept w v ∧ SpecialKept w v ∧ FlagsKept w v := by
  obtain ⟨t, v, e, hw, ⟨_, _, _, _, _, _, _, _, _, rfl⟩, hr⟩ := word_still n p k h hb
  exact ⟨t, _, e, hw, hr, fun _ _ _ _ => rfl, fun _ _ => rfl, ⟨rfl, rfl⟩,
    specialKept_same rfl, rfl, rfl⟩

end

end Sys2Proof.Machine
end

