-- ==== Sys2Proof/Laws/Tasks.lean ====
section
/-! SUPPORT. Launches, tenants and what a launch holds on a core: reading after replacing; what ending a launch, a host event, an upcall, a
key's taking and becoming eligible change. -/
namespace Sys2Proof.Machine
open Sys2Proof.Safety

/-! ### Launches -/

theorem launch_ne_blank {s : State} {u : Nat} (h : s.launch u ≠ Launch.blank) : Known s u := by
  cases hf : s.tasks.launches.find? (fun l => l.uid == u) with
  | none => exact absurd (by simp [State.launch, hf]) h
  | some l => exact ⟨l, List.mem_of_find?_eq_some hf, by simpa using List.find?_some hf⟩

theorem launch_uid {s : State} {u : Nat} (h : Known s u) : (s.launch u).uid = u := by
  obtain ⟨l, hl, hu⟩ := h
  cases hf : s.tasks.launches.find? (fun l => l.uid == u) with
  | none => exact absurd hu (by simpa using (List.find?_eq_none.mp hf) l hl)
  | some k => simpa [State.launch, hf] using List.find?_some hf

/-- A launch that is not retired is there. -/
theorem known_of_phase {s : State} {u : Nat} (h : (s.launch u).phase ≠ .retired) : Known s u :=
  launch_ne_blank (fun e => h (by rw [e]; rfl))

theorem launch_setLaunch_self {s : State} {l : Launch} (h : Known s l.uid) : (s.setLaunch l).launch l.uid = l := by
  obtain ⟨k, hk, hu⟩ := h
  cases hf : s.tasks.launches.find? (fun x => x.uid == l.uid) with
  | none => exact absurd hu (by simpa using (List.find?_eq_none.mp hf) k hk)
  | some x =>
    have := find?_updWhere_self (fun x : Launch => x.uid == l.uid) l (by simp) hf
    simp [State.launch, State.setLaunch, State.setTasks, this]

theorem launch_setLaunch_ne (s : State) {l : Launch} {u : Nat} (h : u ≠ l.uid) : (s.setLaunch l).launch u = s.launch u := by
  have := find?_updWhere_other (fun x : Launch => x.uid == l.uid) (fun x => x.uid == u) (fun _ => l)
    (fun z hz => by simp only [beq_iff_eq] at hz; simp [hz, Ne.symm h]) s.tasks.launches
  simp [State.launch, State.setLaunch, State.setTasks, this]

theorem known_setLaunch {s : State} {l : Launch} {u : Nat} (h : Known s u) : Known (s.setLaunch l) u := by
  obtain ⟨k, hk, hu⟩ := h
  by_cases hkl : k.uid = l.uid
  · exact ⟨l, List.mem_map.mpr ⟨k, hk, by simp [hkl]⟩, by omega⟩
  · exact ⟨k, List.mem_map.mpr ⟨k, hk, by simp [hkl]⟩, hu⟩

/-- The first terminating event of a launch (R387). -/
theorem endLaunch_first {s : State} {u : Nat} {e : EndInfo} (h : (s.launch u).endInfo = none) :
    s.endLaunch u e = s.setLaunch { s.launch u with endInfo := some e, phase := .ending, endCycle := some s.ctl.cycle } := by simp [State.endLaunch, h]

/-- Later ones change nothing (R388). -/
theorem endLaunch_later {s : State} {u : Nat} {e f : EndInfo} (h : (s.launch u).endInfo = some f) : s.endLaunch u e = s := by
  simp [State.endLaunch, h]

/-- Ending a launch changes launches alone. -/
theorem endLaunch_launches (s : State) (u : Nat) (e : EndInfo) :
    ∃ l, s.endLaunch u e = { s with tasks := { s.tasks with launches := l } } := by
  cases h : (s.launch u).endInfo with
  | some f => exact ⟨s.tasks.launches, endLaunch_later h⟩
  | none => exact ⟨_, endLaunch_first h⟩

/-! ### Tenants -/

theorem bound_tenant {s : State} {t : Nat} (h : s.bound t = true) : ∃ k, s.tasks.tenants.find? (fun x => x.id == t) = some k := by
  cases hf : s.tasks.tenants.find? (fun x => x.id == t) with
  | none =>
    simp only [State.bound, List.any_eq_true] at h
    obtain ⟨x, hx, he⟩ := h
    exact absurd he (by simpa using (List.find?_eq_none.mp hf) x hx)
  | some k => exact ⟨k, rfl⟩

theorem tenant_id {s : State} {t : Nat} (h : s.bound t = true) : (s.tenant t).id = t := by
  obtain ⟨k, hk⟩ := bound_tenant h
  simpa [State.tenant, hk] using List.find?_some hk

theorem bound_of_ne {s : State} {t : Nat} (h : s.tenant t ≠ Tenant.blank) : s.bound t = true := by
  cases hf : s.tasks.tenants.find? (fun x => x.id == t) with
  | none => exact absurd (by simp [State.tenant, hf]) h
  | some k =>
    exact List.any_eq_true.mpr ⟨k, List.mem_of_find?_eq_some hf, by simpa using List.find?_some hf⟩

theorem tenant_setTenant_self {s : State} {k : Tenant} (h : s.bound k.id = true) : (s.setTenant k).tenant k.id = k := by
  obtain ⟨x, hx⟩ := bound_tenant h
  have := find?_updWhere_self (fun y : Tenant => y.id == k.id) k (by simp) hx
  simp [State.tenant, State.setTenant, State.setTasks, this]

theorem tenant_setTenant_ne (s : State) {k : Tenant} {t : Nat} (h : t ≠ k.id) : (s.setTenant k).tenant t = s.tenant t := by
  have := find?_updWhere_other (fun x : Tenant => x.id == k.id) (fun x => x.id == t) (fun _ => k)
    (fun z hz => by simp only [beq_iff_eq] at hz; simp [hz, Ne.symm h]) s.tasks.tenants
  simp [State.tenant, State.setTenant, State.setTasks, this]

theorem bound_setTenant (s : State) (k : Tenant) (t : Nat) : (s.setTenant k).bound t = s.bound t := by
  simp only [State.bound, State.setTenant, State.setTasks, updWhere, List.any_map]
  congr 1
  funext x
  by_cases hx : x.id = k.id <;> simp [hx]

/-- A tenant replaced by one of its own id: that one is read, every other as before. -/
theorem tenantsKept_setTenant (s : State) {k : Tenant} {t : Nat} (h : k.id = t) : TenantsKept s (s.setTenant k) t :=
  fun _ hu => tenant_setTenant_ne s (by omega)

/-! ### Events for a tenant -/

/-- A host event that the host claims: its record waits, a SEQ is taken (R80, R83). -/
theorem hostEvent_claimed {s : State} {t kind : Nat} {d : Word} (h : s.dev.claimHost.getLsbD kind = true) :
    ∃ b, s.hostEvent t kind d =
      (s.setTenant { s.tenant t with events := (s.tenant t).events ++ [eventOf s kind d], evlost := b }).takeSeq := by
  simp only [State.hostEvent, h]
  exact ⟨_, rfl⟩

/-- One that the host does not claim writes nothing (R81). -/
theorem hostEvent_masked {s : State} {t kind : Nat} {d : Word} (h : s.dev.claimHost.getLsbD kind = false) : s.hostEvent t kind d = s := by
  simp [State.hostEvent, h]

/-! ### Keys and becoming eligible -/

/-- A state that differs in launches, key slots and the launches in KEYWAIT alone. -/
def LaunchesOnly (s t : State) : Prop :=
  ∃ l k q, t = { s with tasks := { s.tasks with launches := l, keySlots := k, keyQueue := q } }

theorem LaunchesOnly.refl (s : State) : LaunchesOnly s s := ⟨s.tasks.launches, s.tasks.keySlots, s.tasks.keyQueue, rfl⟩

theorem LaunchesOnly.trans {s t u : State} (h : LaunchesOnly s t) (g : LaunchesOnly t u) : LaunchesOnly s u := by
  obtain ⟨_, _, _, rfl⟩ := h
  obtain ⟨l, k, q, rfl⟩ := g
  exact ⟨l, k, q, rfl⟩

theorem launchesOnly_setLaunch (s : State) (l : Launch) : LaunchesOnly s (s.setLaunch l) := ⟨_, s.tasks.keySlots, s.tasks.keyQueue, rfl⟩

theorem launchesOnly_endLaunch (s : State) (u : Nat) (e : EndInfo) : LaunchesOnly s (s.endLaunch u e) := by
  obtain ⟨l, h⟩ := endLaunch_launches s u e
  exact ⟨l, s.tasks.keySlots, s.tasks.keyQueue, h⟩

theorem launchesOnly_setKey (s : State) (k : Nat) (v : KeySlot) : LaunchesOnly s (s.setKey k v) :=
  ⟨s.tasks.launches, _, s.tasks.keyQueue, rfl⟩

theorem launchesOnly_holdKey (s : State) (k u : Nat) : LaunchesOnly s (s.holdKey k u) := by
  unfold State.holdKey
  dsimp only
  split
  · exact .refl s
  · exact (launchesOnly_setKey s _ _).trans (launchesOnly_setLaunch _ _)

theorem launchesOnly_keyTake (s : State) (u : Nat) : LaunchesOnly s (s.keyTake u) := by
  unfold State.keyTake
  dsimp only
  split
  · exact .refl s
  · split
    · exact launchesOnly_endLaunch s u _
    · split
      · split
        · exact launchesOnly_holdKey s _ u
        · exact (launchesOnly_setKey s _ _).trans (launchesOnly_setLaunch _ _)
      · split
        · exact (launchesOnly_setKey s _ _).trans (launchesOnly_setLaunch _ _)
        · exact LaunchesOnly.trans ⟨s.tasks.launches, s.tasks.keySlots, _, rfl⟩ (launchesOnly_setLaunch _ _)

theorem launchesOnly_settleOne (s : State) (u : Nat) : LaunchesOnly s (s.settleOne u) := by
  unfold State.settleOne
  simp only
  split
  · exact .refl s
  · split
    · exact launchesOnly_endLaunch s u _
    · split
      · exact (launchesOnly_setLaunch s _).trans (launchesOnly_keyTake _ u)
      · exact launchesOnly_setLaunch s _

theorem launchesOnly_foldl {α : Type} (f : State → α → State) (hf : ∀ s a, LaunchesOnly s (f s a)) : ∀ (l : List α) (s : State),
    LaunchesOnly s (l.foldl f s)
  | [], s => .refl s
  | a :: l, s => (hf s a).trans (launchesOnly_foldl f hf l (f s a))

/-- What becoming eligible changes (R84): launches, key slots and KEYWAIT. -/
theorem launchesOnly_settleEligible (s : State) : LaunchesOnly s s.settleEligible :=
  launchesOnly_foldl State.settleOne launchesOnly_settleOne _ s

theorem launchesOnly_dropKeyWait (s : State) (u : Nat) : LaunchesOnly s (s.dropKeyWait u) := ⟨s.tasks.launches, _, _, rfl⟩

end Sys2Proof.Machine
end

