-- ==== Sys2Proof/Laws/Traps.lean ====
section
/-! SUPPORT. Traps: which lanes the next trap takes and in which order, the mask they make; what a held instruction leaves. -/
namespace Sys2Proof.Machine
open Sys2Proof.Safety

/-! ### A mask from a predicate -/

theorem digits_one_getLsbD (l : List Nat) (hl : ∀ x ∈ l, x < 2) (j : Nat) : (digits 1 l).testBit j = decide (l.getD j 0 = 1) := by
  induction l generalizing j with
  | nil => simp [digits]
  | cons x xs ih =>
    have hx := hl x (by simp)
    have ih := fun j => ih (fun y hy => hl y (by simp [hy])) j
    cases j with
    | zero => simp [digits, Nat.testBit_zero]; omega
    | succ j =>
      rw [Nat.testBit_succ, show digits 1 (x :: xs) / 2 = digits 1 xs by simp [digits]; omega, ih]
      simp

theorem maskOf_bit (p : Nat → Bool) {j : Nat} (hj : j < 32) : (maskOf p).getLsbD j = p j := by
  unfold maskOf
  rw [BitVec.getLsbD_ofNat, digits_one_getLsbD _ (by intro x hx; obtain ⟨i, -, rfl⟩ := List.mem_map.mp hx; cases p i <;> decide)]
  simp [List.getD, hj]

/-! ### The trap set -/

theorem mem_parked {w : Wave} {i : Nat} : i ∈ w.parkedLanes ↔ i < 32 ∧ w.isParked i = true := by
  simp [Wave.parkedLanes]

/-- The next trap takes, of the parked lanes, those at the lowest pc that park for the cause of the lowest lane there. -/
theorem trapSet_spec {w : Wave} (h : w.parkedLanes ≠ []) : ∃ i0, w.trapSet.head? = some i0 ∧ i0 < 32 ∧ w.isParked i0 = true ∧
    (∀ j < 32, w.isParked j = true → (w.lane i0).pc.toNat ≤ (w.lane j).pc.toNat) ∧
    (∀ j < i0, w.isParked j = true → (w.lane j).pc ≠ (w.lane i0).pc) ∧
    ∀ j, j ∈ w.trapSet ↔ j < 32 ∧ w.isParked j = true ∧ (w.lane j).pc = (w.lane i0).pc ∧ w.parkCause j = w.parkCause i0 := by
  have hne : (w.parkedLanes.map (fun i => (w.lane i).pc.toNat)) ≠ [] := by simpa using h
  cases hm : (w.parkedLanes.map (fun i => (w.lane i).pc.toNat)).min? with
  | none => exact absurd (List.min?_eq_none_iff.mp hm) hne
  | some pc =>
    obtain ⟨hin, hle⟩ := List.min?_eq_some_iff.mp hm
    obtain ⟨i1, hi1, hpc1⟩ := List.mem_map.mp hin
    cases hh : (w.parkedLanes.filter (fun i => (w.lane i).pc.toNat == pc)) with
    | nil =>
      have : i1 ∈ w.parkedLanes.filter (fun i => (w.lane i).pc.toNat == pc) := by simp [hi1, hpc1]
      rw [hh] at this; cases this
    | cons i0 rest =>
      have hts : w.trapSet = (i0 :: rest).filter (fun i => w.parkCause i == w.parkCause i0) := by
        simp only [Wave.trapSet, hm, hh, List.head?_cons]
      have hmem : ∀ j, j ∈ i0 :: rest ↔ j < 32 ∧ w.isParked j = true ∧ (w.lane j).pc.toNat = pc := by
        intro j; rw [← hh]; simp [mem_parked, and_assoc]
      have h0 := (hmem i0).mp (by simp)
      have hs : (i0 :: rest).Pairwise (· < ·) := by
        rw [← hh]
        exact (List.pairwise_lt_range.filter _).filter _
      refine ⟨i0, by simp [hts], h0.1, h0.2.1, ?_, ?_, ?_⟩
      · intro j hj hp
        rw [h0.2.2]
        exact hle _ (List.mem_map.mpr ⟨j, mem_parked.mpr ⟨hj, hp⟩, rfl⟩)
      · intro j hj hp he
        have hjm : j ∈ i0 :: rest := (hmem j).mpr ⟨by omega, hp, by rw [he]; exact h0.2.2⟩
        rcases List.mem_cons.mp hjm with e | e
        · omega
        · have := (List.pairwise_cons.mp hs).1 j e
          omega
      · intro j
        rw [hts, List.mem_filter, hmem]
        simp only [beq_iff_eq]
        constructor
        · rintro ⟨⟨a, b, c⟩, d⟩
          exact ⟨a, b, BitVec.eq_of_toNat_eq (by omega), d⟩
        · rintro ⟨a, b, c, d⟩
          exact ⟨⟨a, b, by rw [c]; exact h0.2.2⟩, d⟩

/-- Dropping latched operands touches only the quads. -/
theorem dropLatch_eq (s : State) (core slot : Nat) (p : Nat → Bool) : ∃ q, s.dropLatch core slot p = { s with cores := { s.cores with quads := q } } := by
  unfold State.dropLatch
  simp only
  split
  · exact ⟨_, rfl⟩
  · exact ⟨s.cores.quads, rfl⟩

/-! ### Held instructions -/

theorem word_hold {c : Ctl} {u : Use} {s : State} {w : Wave} {pc : CodeAddr} {body : Ex → Out} {s1 : State} {k : Held} (h : Clear c u s w pc)
    (hb : body (clearEx c u s w pc) = .hold s1 k) : word c u body s = .next (held s1 w pc k) := by
  rw [word_clear h]
  unfold clearEx at hb
  rw [hb]

/-- Holding an instruction changes only its wave. -/
theorem held_spec {s1 : State} {w x : Wave} (pc : CodeAddr) (k : Held) (hx : s1.wave? w.core w.slot = some x) (hn : x.hnd = none) :
    ∃ t v, held s1 w pc k = t ∧ t.wave? w.core w.slot = some v ∧
      v = { x with held := some k, heldAt := some pc, triedAt := s1.ctl.cycle } ∧
      (∀ a b, ¬(a = w.core ∧ b = w.slot) → t.wave? a b = s1.wave? a b) ∧
      t.mem = s1.mem ∧ t.tasks = s1.tasks ∧ t.dev = s1.dev ∧ t.ctl = s1.ctl ∧ t.cores.quads = s1.cores.quads ∧ t.cores.ctxs = s1.cores.ctxs := by
  have hc := State.wave?_core hx
  refine ⟨_, _, rfl, ?_, rfl, ?_⟩
  · simp only [held, hx, hn]
    exact State.wave?_setWave_self hx hc.1 hc.2
  · simp only [held, hx, hn]
    refine ⟨fun a b hab => State.wave?_setWave_other _ _ (fun e => hab ⟨by rw [← e.1]; exact hc.1, by rw [← e.2]; exact hc.2⟩), rfl, rfl, rfl, rfl, rfl, rfl⟩

theorem hold_of {c : Ctl} {u : Use} {s : State} {w : Wave} {pc : CodeAddr} {body : Ex → Out} {s1 : State} {k : Held} {x : Wave} (h : Clear c u s w pc)
    (hb : body (clearEx c u s w pc) = .hold s1 k) (hx : s1.wave? w.core w.slot = some x) (hn : x.hnd = none) :
    ∃ t v x, word c u body s = .next t ∧ s1.wave? w.core w.slot = some x ∧ t.wave? w.core w.slot = some v ∧
      v = { x with held := some k, heldAt := some pc, triedAt := s1.ctl.cycle } ∧
      (∀ a b, ¬(a = w.core ∧ b = w.slot) → t.wave? a b = s1.wave? a b) ∧
      t.mem = s1.mem ∧ t.tasks = s1.tasks ∧ t.dev = s1.dev ∧ t.ctl = s1.ctl ∧ t.cores.quads = s1.cores.quads ∧ t.cores.ctxs = s1.cores.ctxs := by
  obtain ⟨t, v, e, r⟩ := held_spec (w := w) (s1 := s1) pc k hx hn
  exact ⟨t, v, x, by rw [word_hold h hb, e], hx, r⟩

end Sys2Proof.Machine
end

