-- ==== Sys2Proof/Machine/Arbiter.lean ====
section
/-! DEFINITION. The output port of a router of the mesh (spec/15 R252 to R254): its virtual channels, each a queue in order, and which packets it
sends next. The machine's steps perform an access when it arrives, in the order in which requests left on their channel (`State.behind`); of the
arbitration they keep each port's budget (`State.spendCtl`), and the rest decides times alone (log 11). -/
namespace Sys2Proof.Machine

/-- The virtual channels (R253), the four of the round first, in the order of its visits. -/
inductive Vc where
  | q | d | w | b | f | s
  deriving DecidableEq, Repr

/-- The place of a channel in the port's lists; VC-F and VC-S come last in a round that they join (log 11). -/
def Vc.code : Vc → Nat
  | .q => 0 | .d => 1 | .w => 2 | .b => 3 | .f => 4 | .s => 5

/-- What a packet carries over the mesh (R251, R253). -/
inductive Cargo where
  | request | response | write | fence | service | engine
  deriving DecidableEq, Repr

/-- The channel of a packet (R253). -/
def Cargo.vc : Cargo → Vc
  | .request => .q | .response => .d | .write => .w | .fence => .f | .service => .s | .engine => .b

/-- The flits of a packet of some bytes of payload, 64 a flit; a request takes one (R251). -/
def flitsOf (bytes : Nat) : Nat := max 1 ((bytes + 63) / 64)

/-- An output port: for each channel the packets that wait, oldest first, by their flits (R252), its deficit, the channel of the next visit,
and what is left of the budget of VC-F and VC-S (R254). -/
structure OutPort where
  queues : List (List Nat)
  deficits : List Nat
  turn : Nat
  budget : Nat
  deriving DecidableEq, Repr

/-- The weight of a channel in the round: a field of NETWT, or 1 for VC-F and VC-S (R254). -/
def vcWeight (netwt : BitVec 32) (v : Nat) : Nat := if v < 4 then bits netwt.toNat (8 * v + 7) (8 * v) else 1

/-- Whole packets sent while the deficit covers the next one: those sent, those left, and the deficit left; 0 for a channel that empties
(R254). -/
def sendWhole : Nat → List Nat → List Nat × List Nat × Nat
  | _, [] => ([], [], 0)
  | d, n :: rest =>
    if n ≤ d then
      let r := sendWhole (d - n) rest
      (n :: r.1, r.2.1, r.2.2)
    else ([], n :: rest, d)

namespace OutPort

/-- The packets that wait on a channel. -/
def queue (p : OutPort) (v : Nat) : List Nat := p.queues.getD v []

/-- A packet of VC-F or VC-S sent on the budget, a unit for each of its flits while there is one (R254). -/
def onBudget (p : OutPort) (v : Nat) : OutPort :=
  { p with queues := p.queues.set v (p.queue v).tail, budget := p.budget - (p.queue v).headD 0 }

/-- A visit of the round (R254): the channel gains its weight and sends what that covers. -/
def visit (netwt : BitVec 32) (p : OutPort) : List (Nat × Nat) × OutPort :=
  let v := p.turn
  let r := sendWhole (p.deficits.getD v 0 + vcWeight netwt v) (p.queue v)
  (r.1.map (fun n => (v, n)),
    { p with
      queues := p.queues.set v r.2.1, deficits := p.deficits.set v r.2.2
      turn := if v + 1 < (if p.budget = 0 then 6 else 4) then v + 1 else 0 })

/-- What the port sends next, each packet by its channel and flits (R254): a flit of VC-F, then one of VC-S, while the budget is not spent;
else the packets of the next visit of the round. -/
def next (netwt : BitVec 32) (p : OutPort) : List (Nat × Nat) × OutPort :=
  if p.budget ≠ 0 ∧ p.queue 4 ≠ [] then ([(4, (p.queue 4).headD 0)], p.onBudget 4)
  else if p.budget ≠ 0 ∧ p.queue 5 ≠ [] then ([(5, (p.queue 5).headD 0)], p.onBudget 5)
  else p.visit netwt

/-- A boundary of 64 cycles: the budget is 4 again (R254). -/
def refill (p : OutPort) : OutPort := { p with budget := 4 }

/-- A packet that arrives goes behind those of its channel (R252). -/
def push (p : OutPort) (c : Cargo) (flits : Nat) : OutPort := { p with queues := p.queues.set c.vc.code (p.queue c.vc.code ++ [flits]) }

end OutPort

end Sys2Proof.Machine
end

