-- ==== Sys2Proof/Machine/IsbasText.lean ====
section
/-! DEFINITION. The source text of the assembler isbas (spec/03 R44 to R46): lines, identifiers, numbers, expressions, and what an
expression is worth once the symbols have their places. Software on text, which no step of the machine reads (log 12). -/
namespace Sys2Proof.Machine

/-- Source text. -/
abbrev Text := List Char

/-- Text without the blanks at its ends. -/
def trim (t : Text) : Text := ((t.dropWhile Char.isWhitespace).reverse.dropWhile Char.isWhitespace).reverse

/-- A line without its comment (R44). -/
def uncomment : Text → Text
  | [] => []
  | ';' :: _ => []
  | '/' :: '/' :: _ => []
  | c :: l => c :: uncomment l

/-- A character that begins an identifier (R45). -/
def isStart (c : Char) : Bool := c.isAlpha || c == '_'

/-- A character that continues an identifier or a number. -/
def isNamed (c : Char) : Bool := c.isAlphanum || c == '_'

/-- The pieces between separators, without blanks at their ends; none of an empty text. -/
def listed (sep : Char) (t : Text) : List Text := if (trim t).isEmpty then [] else (t.splitOn sep).map trim

/-- The value of a digit. -/
def digitOf (c : Char) : Nat :=
  if c.isDigit then c.toNat - 48 else if 'a' ≤ c ∧ c ≤ 'f' then c.toNat - 87 else if 'A' ≤ c ∧ c ≤ 'F' then c.toNat - 55 else 99

/-- Digits of a base, with underscores between them. -/
def digitsIn (base : Nat) (t : Text) : Option Nat :=
  let l := t.filter (fun c => c != '_')
  if t.head? = some '_' ∨ t.getLast? = some '_' ∨ l.isEmpty ∨ l.any (fun c => decide (base ≤ digitOf c)) then none
  else some (l.foldl (fun n c => n * base + digitOf c) 0)

/-- A number: decimal, hexadecimal or binary. -/
def numberIn : Text → Option Nat
  | '0' :: 'x' :: l => digitsIn 16 l
  | '0' :: 'b' :: l => digitsIn 2 l
  | l => digitsIn 10 l

/-- A letter and a register number below a bound, as it is written (R46). -/
def regIn (letter : Char) (bound : Nat) : Text → Option Nat
  | c :: l => (digitsIn 10 l).filter (fun n => c == letter && decide (n < bound) && (toString n).toList == l)
  | [] => none

/-- A register of any kind. -/
def isRegister (t : Text) : Bool :=
  (regIn 'v' 128 t).isSome || (regIn 's' 64 t).isSome || (regIn 'p' 8 t).isSome || (regIn 'q' 8 t).isSome

/-- An expression: a number and symbols added or taken away; `.` stands for the current address (R45). -/
structure Expr where
  num : Int
  plus : List Text
  minus : List Text
  deriving DecidableEq, Repr

/-- An expression with one more term. -/
def Expr.term (e : Expr) (add : Bool) (w : Text) : Option Expr :=
  match w with
  | [] => none
  | c :: _ =>
    if c.isDigit then (numberIn w).map (fun n => { e with num := if add then e.num + n else e.num - n })
    else if w == ['.'] || (isStart c && w.all isNamed && !isRegister w) then
      some (if add then { e with plus := e.plus ++ [w] } else { e with minus := e.minus ++ [w] })
    else none

/-- The terms of an expression read one by one; a `-` before a number negates it. -/
def termsIn : Nat → Expr → Bool → Text → Option Expr
  | 0, _, _, _ => none
  | n + 1, e, add, t =>
    let u := trim t
    let neg := u.head? = some '-'
    let u := if neg then trim u.tail else u
    let w := u.takeWhile (fun c => isNamed c || c == '.')
    if neg && !(w.head?.any Char.isDigit) then none
    else match e.term (add != neg) w, trim (u.drop w.length) with
      | none, _ => none
      | some f, [] => some f
      | some f, '+' :: r => termsIn n f true r
      | some f, '-' :: r => termsIn n f false r
      | _, _ => none

/-- The expression that a text writes. -/
def exprIn (t : Text) : Option Expr := termsIn (t.length + 1) ⟨0, [], []⟩ true t

/-- A place in a section: the section's kind (Table 3-4) and an offset. -/
structure Spot where
  kind : Nat
  off : Nat
  deriving DecidableEq, Repr

/-- What an expression is worth: a constant, a symbol's address and a distance from it, or the current address and a distance from it. -/
inductive Worth where
  | const (n : Int)
  | addr (sym : Text) (add : Int)
  | here (add : Int)
  deriving DecidableEq, Repr

/-- Where the symbols stand; none for one that this source does not define. -/
abbrev Symbols := List (Text × Spot)

/-- Where a symbol stands, `.` being where the expression stands. -/
def spotOf (l : Symbols) (here : Spot) (t : Text) : Option Spot :=
  if t == ['.'] then some here else (l.find? (fun x => x.1 == t)).map Prod.snd

/-- The symbols taken away, each against one added that lies in its section. -/
def cancel (l : Symbols) (here : Spot) : List Text → List Text → Int → Option (List Text × Int)
  | plus, [], n => some (plus, n)
  | plus, m :: ms, n =>
    match spotOf l here m with
    | none => none
    | some b =>
      match plus.find? (fun p => (spotOf l here p).any (fun a => a.kind == b.kind)) with
      | none => none
      | some p => cancel l here (plus.erase p) ms (n + ((spotOf l here p).getD b).off - b.off)

/-- The worth of an expression (R45); none where no relocation could give it. -/
def Expr.worth (l : Symbols) (here : Spot) (e : Expr) : Option Worth :=
  match cancel l here e.plus e.minus e.num with
  | some ([], n) => some (.const n)
  | some ([x], n) => some (if x == ['.'] then .here n else .addr x n)
  | _ => none

/-- The name of the symbol of type label at offset 0 that isbas makes for a section in which a relocation has to name the current address.
It is no identifier of the source (DESIGN CHOICE, log 57). -/
def sectSymbol (kind : Nat) : Text :=
  (["", ".text", ".data", ".kconst", ".recipe", ".live", ".launch"].getD kind "").toList

/-- The section whose own symbol a name is. -/
def sectOf (t : Text) : Option Nat := [1, 2, 3, 4, 5, 6].find? (fun k => sectSymbol k == t)

/-- A worth as a relocation can give it: the current address from its section's symbol on. -/
def Worth.anchored (here : Spot) : Worth → Worth
  | .here n => .addr (sectSymbol here.kind) (n + here.off)
  | w => w

/-- An expression that is a constant. -/
def Expr.value (l : Symbols) (here : Spot) (e : Expr) : Option Int :=
  match e.worth l here with
  | some (.const n) => some n
  | _ => none

end Sys2Proof.Machine
end

