-- ==== Sys2Proof/Machine/IsbasWords.lean ====
section
/-! DEFINITION. How isbas writes instruction words (spec/03 R44 to R48, spec/10 R174, spec/12, spec/13 Table 13-3, spec/16 R274): the
mnemonics with the suffixes and operands each takes, guards, full words and pairs. A word is written only if the decoder accepts it. -/
namespace Sys2Proof.Machine

/-! ### Suffixes -/

/-- The suffix classes (Tables 3-1, 10-1; R274). -/
inductive Cls where
  | ty | ty2 | ty0 | rnd | cmp | ordLoad | ordStore | ordBoth | scope | evict | width | awid | aop | cas | hint
  | sat | uni | any | u | shf | red | excl | fs | sp | dp | hold | yield | stall
  deriving DecidableEq, Repr

/-- The suffixes of a class, in code order (`ty0` where code 0 is the only type); an empty name is a code no suffix writes. -/
def Cls.names : Cls → List String
  | .ty | .ty2 =>
    ["S64", "Z64", "S32X2", "Z32X2", "S16X4", "Z16X4", "S8X8", "Z8X8", "F64", "F32X2", "F16X4", "BF16X4", "E4M3X8", "E5M2X8", "E2M1X16", "S4X16"]
  | .ty0 => ["S64"]
  | .rnd => ["RNE", "RTZ", "RDN", "RUP", "RNA", "SR"]
  | .cmp => ["EQ", "NE", "LT", "LE", "GT", "GE", "NUM", "NAN"]
  | .ordLoad => ["", "RLX", "ACQ", "SC"]
  | .ordStore => ["", "RLX", "REL", "SC"]
  | .ordBoth => ["", "RLX", "AR", "SC"]
  | .scope => ["WAV", "CORE", "DIE", "DEV", "DOM", "SYS"]
  | .evict => ["", "EF", "EL", "NA", "NS"]
  | .width => ["B8", "B16", "B32", "B64", "B128", "B256"]
  | .awid => ["", "", "B32", "B64"]
  | .aop => ["ADD", "MIN", "MAX", "MINU", "MAXU", "AND", "OR", "XOR", "EXCH", "", "FADD", "FMIN", "FMAX"]
  | .cas => ["", "", "", "", "", "", "", "", "", "CAS"]
  | .hint => ["", "LIKELY", "UNLIKELY"]
  | .sat => ["", "SAT"]
  | .uni => ["", "UNI"]
  | .any => ["", "ANY"]
  | .u => ["", "U"]
  | .shf => ["DN", "UP", "BFLY", "WRAP"]
  | .red => ["ADD", "MIN", "MAX", "AND", "OR", "XOR"]
  | .excl => ["", "EXCL"]
  | .fs => ["", "FS"]
  | .sp => ["", "SP"]
  | .dp => ["", "DP"]
  | .hold => ["", "HA", "HB", "HC"]
  | .yield => ["", "Y"]
  | .stall => ["", "ST1", "ST2", "ST3", "ST4", "ST5", "ST6", "ST7"]

/-- A class's code in its place in the word. -/
def Cls.put (k : Cls) (n : Nat) : Nat :=
  match k with
  | .ty | .ty0 => n * 2 ^ 13
  | .rnd | .cmp | .evict | .hint | .sat | .uni | .shf | .red | .fs => n * 2 ^ 10
  | .ty2 | .width | .awid | .any | .excl => n
  | .aop | .cas => n % 8 * 2 ^ 10 + n / 8 * 8
  | .ordLoad | .ordStore | .ordBoth => n * 2 ^ 16
  | .scope | .u => n * 2 ^ 13
  | .sp => n * 2 ^ 16
  | .dp => n * 2 ^ 17
  | .hold => n * 2 ^ 8
  | .yield => n * 2 ^ 7
  | .stall => n * 2 ^ 4

/-- A class without which the line is refused (R48): a type, a width; the mark of a row that only it selects. -/
def Cls.needed (k : Cls) : Bool := [.ty, .ty2, .width, .cas, .fs].contains k

/-- The code of a suffix in a class. -/
def Cls.code (k : Cls) (t : Text) : Option Nat :=
  if t.isEmpty then none else (List.range k.names.length).find? (fun i => (k.names.getD i "").toList == t)

/-- Suffixes taken one by one, each by the first class left that has it; the classes left over, and the word so far. -/
def suffixes : List Cls → Nat → List Text → Option (List Cls × Nat)
  | l, w, [] => some (l, w)
  | l, w, t :: ts =>
    match l.find? (fun k => (k.code t).isSome) with
    | none => none
    | some k => suffixes (l.erase k) (w + k.put ((k.code t).getD 0)) ts

/-! ### Operands -/

/-- The kinds of operand, each with the place of its field: registers, B with SB, a register of MFS or MTS with SCAL, a special register, a
memory operand with and without an offset, a number less `sub` (its relocation where it may be a symbol), a signed immediate, a branch
target, a liveness record. -/
inductive Opd where
  | v (pos : Nat) | s (pos : Nat) | p (pos : Nat) | q (pos : Nat) | vs | vsc (pos : Nat) | spec | mem | memA
  | num (pos width sub : Nat) | half16 | simm | target | live
  deriving DecidableEq, Repr

/-! ### Forms of full words, and the names that they keep -/

/-- How a mnemonic is written: opcode, suffix classes besides HOLD, YLD and STALL, operands. -/
structure Form where
  name : String
  opc : Nat
  cls : List Cls
  ops : List Opd
  deriving DecidableEq, Repr

/-- Control, registers and recipes (Tables 8-3, 9-1, and the entries of spec/05, spec/21 and spec/23). -/
def formsControl : List Form :=
  [⟨"NOP", 0x000, [], []⟩, ⟨"BRA", 0x001, [.hint], [.target]⟩, ⟨"BRX", 0x002, [], [.v 32]⟩, ⟨"CALL", 0x003, [.hint], [.target]⟩,
   ⟨"RET", 0x004, [], []⟩, ⟨"BRAU", 0x005, [.hint], [.target]⟩, ⟨"RCV", 0x006, [], []⟩, ⟨"EXIT", 0x007, [], []⟩,
   ⟨"YIELD", 0x008, [], []⟩, ⟨"WAIT", 0x009, [], [.num 10 6 0, .num 16 6 0, .num 22 6 0, .num 28 4 0]⟩,
   ⟨"SLEEP", 0x00A, [], [.num 10 22 0]⟩, ⟨"PHINT", 0x00B, [], [.live]⟩, ⟨"VOTE", 0x00C, [], [.v 39, .p 32, .num 10 2 0]⟩,
   ⟨"ELECT", 0x00D, [], [.p 39]⟩, ⟨"MFS", 0x00E, [], [.vsc 39, .spec]⟩, ⟨"MTS", 0x00F, [], [.spec, .vsc 32]⟩,
   ⟨"LAUNCH", 0x010, [], [.v 39, .v 32]⟩, ⟨"TRAP", 0x011, [], [.num 10 16 0]⟩,
   ⟨"SVC", 0x012, [], [.v 39, .v 32, .num 30 2 0, .num 10 16 0]⟩, ⟨"SVCREP", 0x013, [], [.s 39, .s 32, .s 25]⟩,
   ⟨"RTE", 0x014, [], [.s 32]⟩, ⟨"BKPT", 0x015, [], [.num 10 16 0]⟩, ⟨"RAND", 0x016, [], [.v 39]⟩,
   ⟨"PERFRD", 0x017, [], [.v 39, .num 10 3 0]⟩, ⟨"ACQX", 0x020, [], [.s 39, .num 10 4 0]⟩, ⟨"RELX", 0x021, [], [.s 39, .num 10 4 0]⟩,
   ⟨"RCPDEF", 0x022, [], [.s 39, .s 32, .num 10 6 0, .num 16 16 0]⟩, ⟨"RCPTAG", 0x023, [], [.v 39, .num 10 6 0]⟩,
   ⟨"RCPCLR", 0x024, [], [.v 32, .num 10 7 1]⟩, ⟨"RCPQ", 0x025, [], [.s 39, .s 32]⟩]

/-- Operands D, A and B of the vector classes. -/
def dab : List Opd := [.v 39, .v 32, .vs]

/-- Vector integer, cross-lane and scalar (Tables 10-2 to 10-4). -/
def formsInteger : List Form :=
  [⟨"MOV", 0x030, [.ty0], [.v 39, .v 32]⟩, ⟨"MOVI", 0x031, [], [.v 39, .simm]⟩, ⟨"MOVK", 0x032, [], [.v 39, .half16, .num 26 2 0]⟩,
   ⟨"SEL", 0x033, [.ty0], dab ++ [.p 18]⟩, ⟨"IADD", 0x034, [.ty, .sat], dab⟩, ⟨"ISUB", 0x035, [.ty, .sat], dab⟩,
   ⟨"IMUL", 0x036, [.ty, .sat], dab⟩, ⟨"IMULH", 0x037, [.ty], dab⟩, ⟨"IMAD", 0x038, [.ty, .sat], dab ++ [.v 18]⟩,
   ⟨"IMIN", 0x039, [.ty], dab⟩, ⟨"IMAX", 0x03A, [.ty], dab⟩, ⟨"IABS", 0x03B, [.ty, .sat], [.v 39, .v 32]⟩,
   ⟨"INEG", 0x03C, [.ty, .sat], [.v 39, .v 32]⟩, ⟨"AND", 0x03D, [.ty0], dab⟩, ⟨"OR", 0x03E, [.ty0], dab⟩, ⟨"XOR", 0x03F, [.ty0], dab⟩,
   ⟨"NOT", 0x040, [.ty0], [.v 39, .v 32]⟩, ⟨"SHL", 0x041, [.ty, .uni], dab⟩, ⟨"SHR", 0x042, [.ty, .uni], dab⟩,
   ⟨"SAR", 0x043, [.ty, .uni], dab⟩, ⟨"ROT", 0x044, [.ty, .uni], dab⟩, ⟨"BFX", 0x045, [.ty], dab⟩, ⟨"BFI", 0x046, [.ty0], dab ++ [.v 18]⟩,
   ⟨"POPC", 0x047, [.ty], [.v 39, .v 32]⟩, ⟨"CLZ", 0x048, [.ty], [.v 39, .v 32]⟩, ⟨"BREV", 0x049, [.ty], [.v 39, .v 32]⟩,
   ⟨"LEA", 0x04A, [.ty], dab ++ [.num 10 3 0]⟩, ⟨"ISETP", 0x04B, [.ty, .cmp, .any], [.p 39, .v 32, .vs]⟩,
   ⟨"IADDI", 0x04C, [], [.v 39, .v 32, .simm]⟩, ⟨"IDOT", 0x04D, [.ty, .ty2, .sat], dab ++ [.v 18]⟩,
   ⟨"PLOP", 0x04E, [.ty0], [.p 39, .p 32, .p 25, .num 0 4 0]⟩, ⟨"LSHF", 0x050, [.ty0, .shf], dab⟩, ⟨"LBCAST", 0x051, [.ty], [.v 39, .v 32, .s 25]⟩,
   ⟨"LRED", 0x052, [.ty, .red], [.v 39, .v 32]⟩, ⟨"LSCAN", 0x053, [.ty, .red, .excl], [.v 39, .v 32]⟩,
   ⟨"LPERM", 0x054, [.ty], [.v 39, .v 32, .v 25]⟩, ⟨"RDLANE", 0x055, [.ty], [.s 39, .v 32, .s 25]⟩,
   ⟨"WRLANE", 0x056, [.ty], [.v 39, .s 32, .s 25]⟩, ⟨"SMOV", 0x060, [], [.s 39, .s 32]⟩, ⟨"SMOVI", 0x061, [], [.s 39, .simm]⟩,
   ⟨"SMOVK", 0x062, [], [.s 39, .half16, .num 26 2 0]⟩, ⟨"SMAD", 0x066, [], [.s 39, .s 32, .s 25, .s 18]⟩,
   ⟨"SSETQ", 0x06D, [.cmp, .u], [.q 39, .s 32, .s 25]⟩, ⟨"SMIN", 0x06E, [.u], [.s 39, .s 32, .s 25]⟩,
   ⟨"SMAX", 0x06F, [.u], [.s 39, .s 32, .s 25]⟩] ++
  [("SADD", 0x063), ("SSUB", 0x064), ("SMUL", 0x065), ("SAND", 0x067), ("SOR", 0x068), ("SXOR", 0x069), ("SSHL", 0x06A), ("SSHR", 0x06B),
   ("SSAR", 0x06C)].map (fun x => ⟨x.1, x.2, [], [.s 39, .s 32, .s 25]⟩)

/-- Vector float (Table 12-1). -/
def formsFloat : List Form :=
  [⟨"FADD", 0x080, [.ty, .rnd], dab⟩, ⟨"FSUB", 0x081, [.ty, .rnd], dab⟩, ⟨"FMUL", 0x082, [.ty, .rnd], dab⟩,
   ⟨"FFMA", 0x083, [.ty, .rnd], dab ++ [.v 18]⟩, ⟨"FMIN", 0x084, [.ty], dab⟩, ⟨"FMAX", 0x085, [.ty], dab⟩,
   ⟨"FSETP", 0x086, [.ty, .cmp, .any], [.p 39, .v 32, .vs]⟩, ⟨"FCVT", 0x087, [.ty, .ty2, .rnd], [.v 39, .v 32]⟩,
   ⟨"FRND", 0x088, [.ty, .rnd], [.v 39, .v 32]⟩, ⟨"I2F", 0x089, [.ty, .ty2, .rnd], [.v 39, .v 32]⟩,
   ⟨"F2I", 0x08A, [.ty, .ty2, .rnd], [.v 39, .v 32]⟩, ⟨"FRCP", 0x08B, [.ty, .rnd], [.v 39, .v 32]⟩, ⟨"FRSQ", 0x08C, [.ty], [.v 39, .v 32]⟩,
   ⟨"FSQRT", 0x08D, [.ty, .rnd], [.v 39, .v 32]⟩, ⟨"FEXP2", 0x08E, [.ty], [.v 39, .v 32]⟩,
   ⟨"FEXP2", 0x08E, [.ty, .fs], dab ++ [.v 18]⟩, ⟨"FLOG2", 0x08F, [.ty], [.v 39, .v 32]⟩, ⟨"FSIN", 0x090, [.ty], [.v 39, .v 32]⟩,
   ⟨"FCOS", 0x091, [.ty], [.v 39, .v 32]⟩, ⟨"FTANH", 0x092, [.ty], [.v 39, .v 32]⟩, ⟨"FDOT", 0x093, [.ty, .ty2, .rnd], dab ++ [.v 18]⟩,
   ⟨"FCLASS", 0x094, [.ty], [.v 39, .v 32]⟩, ⟨"FSCALE", 0x095, [.ty, .rnd], dab⟩]

/-- Memory, bindings, engines, matrix and synchronisation (Tables 13-5, 19-3, 7-3, 16-3, 17-4, 20-2, 20-4 and the entries of spec/06, 15). -/
def formsSystem : List Form :=
  [⟨"LDG", 0x0A0, [.width, .ordLoad, .scope, .evict], [.v 39, .mem]⟩, ⟨"STG", 0x0A1, [.width, .ordStore, .scope, .evict], [.v 39, .mem]⟩,
   ⟨"LDP", 0x0A2, [.width, .ordLoad, .scope], [.v 39, .mem]⟩, ⟨"STP", 0x0A3, [.width, .ordStore, .scope], [.v 39, .mem]⟩,
   ⟨"LDK", 0x0A4, [.width, .evict], [.v 39, .mem]⟩, ⟨"PREF", 0x0A5, [.evict], [.mem]⟩, ⟨"CINV", 0x0A6, [], [.mem]⟩,
   ⟨"PQRY", 0x0A7, [], [.v 39, .v 32]⟩, ⟨"FENCE", 0x0A8, [.ordBoth, .scope], []⟩,
   ⟨"ATOM", 0x0A9, [.aop, .ordBoth, .scope, .awid], [.v 39, .memA, .v 25]⟩,
   ⟨"ATOM", 0x0A9, [.cas, .ordBoth, .scope, .awid], [.v 39, .memA, .v 25, .v 18]⟩,
   ⟨"ATOMP", 0x0AA, [.aop, .ordBoth, .scope, .awid], [.v 39, .memA, .v 25]⟩,
   ⟨"ATOMP", 0x0AA, [.cas, .ordBoth, .scope, .awid], [.v 39, .memA, .v 25, .v 18]⟩,
   ⟨"RED", 0x0AB, [.aop, .ordBoth, .scope, .awid], [.memA, .v 25]⟩, ⟨"HGATH", 0x0AC, [.ordLoad, .scope, .evict], [.v 39, .v 32, .v 25]⟩,
   ⟨"TBLD", 0x0B0, [], [.s 39, .s 32, .s 25, .s 18, .num 10 2 0, .num 12 3 0]⟩, ⟨"TBRD", 0x0B1, [], [.s 39, .s 32, .num 10 2 0, .num 12 3 0]⟩,
   ⟨"TBINV", 0x0B2, [], [.s 39, .s 32, .num 10 2 0, .num 15 1 0]⟩, ⟨"FRQ", 0x0B3, [], [.s 39, .s 32]⟩, ⟨"BNDQ", 0x0B4, [], [.s 39, .s 32]⟩,
   ⟨"REVACK", 0x0B5, [], [.s 39, .s 32, .s 25]⟩, ⟨"LOSSACK", 0x0B6, [], [.s 39, .s 32]⟩, ⟨"RTQ", 0x0B7, [], [.s 39, .s 32]⟩,
   ⟨"RTINV", 0x0B8, [], [.s 39, .s 32, .s 25]⟩, ⟨"CPY", 0x0C0, [.sp, .dp], [.v 32, .v 25, .v 18, .num 10 6 0]⟩,
   ⟨"CPYX", 0x0C1, [.sp, .dp], [.v 32, .v 25, .v 18, .num 10 6 0]⟩, ⟨"CPYM", 0x0C2, [.dp], [.v 32, .v 25, .v 18, .num 10 6 0]⟩,
   ⟨"CPYD", 0x0C3, [.sp, .dp], [.v 32, .v 25, .v 18, .num 10 6 0]⟩, ⟨"SRARV", 0x0C4, [], [.num 10 4 0, .s 32]⟩,
   ⟨"SRWT", 0x0C5, [], [.num 10 4 0, .s 32, .num 0 1 0]⟩, ⟨"OBRES", 0x0D0, [], [.s 39, .s 32]⟩, ⟨"OBREL", 0x0D1, [], [.s 39, .s 32]⟩,
   ⟨"OBLD", 0x0D2, [], [.v 32, .v 25]⟩, ⟨"ACCA", 0x0D3, [], [.s 39, .s 32, .s 25]⟩, ⟨"ACCF", 0x0D4, [], [.s 39, .s 32]⟩,
   ⟨"ACCZ", 0x0D5, [], [.s 32, .s 25]⟩, ⟨"MMA", 0x0D6, [], [.v 32]⟩, ⟨"MMAS", 0x0D7, [], [.v 32]⟩, ⟨"ACCRD", 0x0D8, [], [.v 39, .v 32]⟩,
   ⟨"ACCWR", 0x0D9, [], [.v 39, .v 32]⟩, ⟨"DRAIN", 0x0DA, [], [.v 32]⟩, ⟨"BAR", 0x0E0, [], [.num 10 8 0]⟩, ⟨"BARA", 0x0E1, [], [.num 10 8 0]⟩,
   ⟨"BARW", 0x0E2, [], [.num 10 8 0]⟩, ⟨"GRPQ", 0x0E3, [], [.v 39, .v 32]⟩, ⟨"CHSEND", 0x0E4, [], [.num 10 6 0, .v 32]⟩,
   ⟨"CHRECV", 0x0E5, [], [.v 39, .num 10 6 0]⟩, ⟨"CHQ", 0x0E6, [], [.v 39, .num 10 6 0, .num 16 4 0]⟩]

/-- Every full word's forms. -/
def allForms : List Form := formsControl ++ formsInteger ++ formsFloat ++ formsSystem

/-- Half mnemonics by opcode (Table 2-11). -/
def halfNames : List String :=
  ["NOP", "MOV", "IADD", "ISUB", "AND", "OR", "XOR", "SHL", "SHR", "SAR", "IMIN", "IMAX", "IADDI", "SHLI", "SHRI", "ANDI", "FADD", "FMUL",
   "FFMA", "FMAX", "FMIN", "SMOV", "SADD", "SADDI"]

/-- A name that the language keeps for itself (R45). -/
def isKept (t : Text) : Bool :=
  isRegister t || allForms.any (fun f => f.name.toList == t) || halfNames.any (fun n => n.toList == t) ||
  ([.ty, .rnd, .cmp, .ordLoad, .ordStore, .ordBoth, .scope, .evict, .width, .aop, .cas, .hint, .sat, .uni, .any, .u, .shf, .excl, .fs, .sp,
    .dp, .hold, .yield, .stall] : List Cls).any (fun k => (k.code t).isSome)

/-- An identifier (R45). -/
def isIdent (t : Text) : Bool := (t.head?.any isStart) && t.all isNamed && !isKept t

/-- An expression of the source (R45): no name in it is one that the language keeps. -/
def exprOf (t : Text) : Option Expr := (exprIn t).filter (fun e => (e.plus ++ e.minus).all (fun w => w == ['.'] || !isKept w))

/-! ### An operand's bits -/

/-- A relocation that a word asks for (Table 3-6). -/
structure Ask where
  type : Nat
  sym : Text
  add : Int
  deriving DecidableEq, Repr

/-- A number in a field. -/
def inField (pos width : Nat) (n : Int) : Option Nat :=
  if 0 ≤ n ∧ n < 2 ^ width then some (n.toNat * 2 ^ pos) else none

/-- A signed number in a field. -/
def inSigned (pos width : Nat) (n : Int) : Option Nat :=
  if -(2 ^ (width - 1)) ≤ n ∧ n < 2 ^ (width - 1) then some (toBits width n * 2 ^ pos) else none

/-- An address in brackets: the register and the text after it. -/
def bracketed (t : Text) : Option (Nat × Text) :=
  if t.head? = some '[' ∧ t.getLast? = some ']' then
    let u := trim (t.tail.dropLast)
    let r := u.takeWhile isNamed
    (regIn 'v' 128 r).map (fun n => (n, trim (u.drop r.length)))
  else none

/-- The worth of an expression as a field of the word, or the relocation that fills it. -/
def immediate (f : Int → Option Nat) (type : Nat) (here : Spot) (w : Option Worth) : Option (Nat × Option Ask) :=
  match w.map (Worth.anchored here) with
  | some (.const n) => (f n).map (fun x => (x, none))
  | some (.addr sym add) => some (0, some ⟨type, sym, add⟩)
  | _ => none

/-- Special registers by name (Table 8-2). -/
def specNames : List String :=
  ["LANEID", "WAVEID", "COREPL", "DIEPL", "QUAD", "MODE", "ROLE", "LINK", "TIME", "FSTAT", "MSTAT", "LOSS", "TRCAUSE", "TRPC", "TRMASK",
   "TRADDR", "RNGCTR", "HANGCNT", "HANGLIM", "CNTLD", "CNTST", "CNTCP", "CNTTL", "TOFS"]

/-- An operand's bits, given the word with its suffixes. -/
def Opd.bits (o : Opd) (l : Symbols) (here : Spot) (w : Nat) (t : Text) : Option (Nat × Option Ask) :=
  let worth := (exprOf t).bind (fun e => e.worth l here)
  let reg := fun (c : Char) (bound pos : Nat) => (regIn c bound t).map (fun n => (n * 2 ^ pos, (none : Option Ask)))
  match o with
  | .v pos => reg 'v' 128 pos
  | .s pos => reg 's' 64 pos
  | .p pos => reg 'p' 8 pos
  | .q pos => reg 'q' 8 pos
  | .vs => (reg 'v' 128 25).or ((regIn 's' 64 t).map (fun n => (n * 2 ^ 25 + 2 ^ 17, none)))
  | .vsc pos => (reg 'v' 128 pos).or ((regIn 's' 64 t).map (fun n => (n * 2 ^ pos + 2 ^ 18, none)))
  | .spec => ((List.range 24).find? (fun i => (specNames.getD i "").toList == t)).map (fun n => (n * 2 ^ 10, none))
  | .memA => (bracketed t).bind (fun x => if x.2.isEmpty then some (x.1 * 2 ^ 32, none) else none)
  | .mem => (bracketed t).bind (fun x =>
      let size : Int := 2 ^ (w % 16)
      let off := if x.2.head? = some '+' then (exprOf x.2.tail).bind (fun e => e.value l here)
        else if x.2.head? = some '-' then ((exprOf x.2.tail).bind (fun e => e.value l here)).map (fun n => -n) else none
      off.bind (fun n => if n % size ≠ 0 then none else (inSigned 18 14 (n / size)).map (fun y => (x.1 * 2 ^ 32 + y, none))))
  | .num pos width sub =>
    if pos = 10 ∧ width = 22 ∧ sub = 0 then immediate (inField 10 22) 4 here worth
    else worth.bind (fun x => match x with
      | .const n => (inField pos width (n - sub)).map (fun y => (y, none))
      | _ => none)
  | .half16 => immediate (inField 10 16) 5 here worth
  | .simm => immediate (inSigned 10 22) 4 here worth
  | .target =>
    let near := fun (d : Int) => if d % 8 ≠ 0 then none else (inSigned 18 28 (d / 8)).map (fun y => (y, (none : Option Ask)))
    match worth with
    | some (.here d) => near d
    | some (.addr sym add) => match spotOf l here sym with
      | some a =>
        if a.kind = here.kind then near ((a.off : Int) + add - here.off) else some (0, some ⟨3, sym, add⟩)
      | none => some (0, some ⟨3, sym, add⟩)
    | _ => none
  | .live => match worth with
    | some (.addr sym add) => match spotOf l here sym with
      | some ⟨5, o⟩ => if add ≠ 0 then none else (inField 10 22 (o / 8)).map (fun y => (y, none))
      | _ => none
    | _ => none

/-! ### Full words -/

/-- One guard (R47) of a kind of predicate. -/
def guardIn (letter : Char) (t : Text) : Option Guard :=
  match t with
  | '!' :: r => (regIn letter 8 (trim r)).map (fun n => ⟨true, n⟩)
  | _ => (regIn letter 8 t).map (fun n => ⟨false, n⟩)

/-- The text in the brackets before a mnemonic, if any, and the rest. -/
def guardText (t : Text) : Option (Option Text × Text) :=
  match t with
  | '(' :: r =>
    let g := r.takeWhile (fun c => c != ')')
    if g.length = r.length then none else some (some g, trim (r.drop (g.length + 1)))
  | _ => some (none, t)

/-- At most `n` guards. -/
def guardsIn (letter : Char) (n : Nat) : Option Text → Option (List Guard)
  | none => some []
  | some t => ((t.splitOn '&').map trim).mapM (guardIn letter) |>.filter (fun l => decide (l.length ≤ n))

/-- The bits of operands added up, with the one relocation they may ask for. -/
def operands (l : Symbols) (here : Spot) : List Opd → List Text → Nat → Option Ask → Option (Nat × Option Ask)
  | [], [], w, a => some (w, a)
  | o :: os, t :: ts, w, a =>
    match o.bits l here w t with
    | none => none
    | some (x, b) => operands l here os ts (w + x) (a.or b)
  | _, _, _, _ => none

/-- A line as a form writes it. -/
def Form.word (f : Form) (l : Symbols) (here : Spot) (guard : Option Text) (sfx ops : List Text) : Option (Nat × Option Ask) :=
  match guardsIn (if qOpcode f.opc then 'q' else 'p') 2 guard, suffixes (f.cls ++ [.hold, .yield, .stall]) 0 sfx with
  | some g, some (rest, w) =>
    if rest.any Cls.needed then none
    else
      let base := f.opc * 2 ^ 54 + (g.getD 0 Guard.always).code * 2 ^ 50 + (g.getD 1 Guard.always).code * 2 ^ 46
      (operands l here f.ops ops (base + w) none).filter (fun r => match decode (BitVec.ofNat 64 r.1) with
        | .ok _ => true
        | .error _ => false)
  | _, _ => none

/-- The mnemonic with its suffixes, and the operands. -/
def splitLine (t : Text) : List Text × List Text :=
  let h := t.takeWhile (fun c => !c.isWhitespace)
  (h.splitOn '.', listed ',' (t.drop h.length))

/-- A full word (R44). -/
def fullWord (l : Symbols) (here : Spot) (t : Text) : Option (Nat × Option Ask) :=
  match guardText t with
  | none => none
  | some (g, r) =>
    let p := splitLine r
    (allForms.filter (fun f => f.name.toList == p.1.headD [])).findSome? (fun f => f.word l here g p.1.tail p.2)

/-! ### Pairs -/

/-- A half's X: absent, a register, a signed imm7 or a count. -/
def halfX (o : HalfOp) (l : Symbols) (here : Spot) (ops : List Text) : Option Nat :=
  let const := (ops[2]?).bind (fun t => (exprOf t).bind (fun e => e.value l here))
  match o with
  | .nop => if ops.isEmpty then some 0 else none
  | .mov | .smov => if ops.length = 2 then some 0 else none
  | .iaddi | .andi | .saddi => if ops.length = 3 then const.bind (inSigned 0 7) else none
  | .shli | .shri => if ops.length = 3 then const.bind (inField 0 5) else none
  | .sadd => if ops.length = 3 then (ops[2]?).bind (regIn 's' 64) else none
  | _ => if ops.length = 3 then (ops[2]?).bind (regIn 'v' 128) else none

/-- A half and its suffixes (R46 to R48). -/
def halfIn (l : Symbols) (here : Spot) (t : Text) : Option (Half × List Text) :=
  match guardText t with
  | none => none
  | some (g, r) =>
    let p := splitLine r
    match (List.range 24).find? (fun i => (halfNames.getD i "").toList == p.1.headD []) with
    | none => none
    | some k =>
      let o := HalfOp.ofCode k
      let reg := fun (i : Nat) => if o == .nop then some 0 else (p.2[i]?).bind (if o.scalar then regIn 's' 64 else regIn 'v' 128)
      match guardsIn (if o.scalar then 'q' else 'p') 1 g, reg 0, reg 1, halfX o l here p.2 with
      | some gs, some d, some s, some x => some (⟨o, gs.getD 0 Guard.always, d, s, x⟩, p.1.tail)
      | _, _, _, _ => none

/-- A pair (R44, R48): no suffix but ST1 on the second half. -/
def pairLine (l : Symbols) (here : Spot) (a b : Text) : Option Nat :=
  match halfIn l here a, halfIn l here b with
  | some (h0, []), some (h1, sfx) =>
    if sfx ≠ [] ∧ sfx ≠ ["ST1".toList] then none
    else
      let i := Instr.pairWord h0 h1 (!sfx.isEmpty)
      if pairBadBank h0 h1 ∨ (checks i).any (fun c => !c.1) then none else encode i
  | _, _ => none

/-- The word of a line of text, with the relocation it asks for. -/
def lineWord (l : Symbols) (here : Spot) (t : Text) : Option (Nat × Option Ask) :=
  match t.splitOn '|' with
  | [one] => fullWord l here (trim one)
  | [a, b] => (pairLine l here (trim a) (trim b)).map (fun w => (w, none))
  | _ => none

end Sys2Proof.Machine
end

