-- ==== Sys2Proof/Machine/Isbas.lean ====
section
/-! DEFINITION. The assembler isbas (spec/03 R44 to R56, spec/04 R72, spec/14 R240, spec/24 R384): directives, sections, liveness and recipe
records, launch templates with their wave and channel tables, relocations, and the code-object file. Software on text, which no step of
the machine reads (log 12). -/
namespace Sys2Proof.Machine

/-! ### What the source gives -/

/-- A symbol of the source: its type and size (R51). -/
structure Defined where
  name : Text
  spot : Spot
  type : Nat
  size : Nat
  deriving DecidableEq, Repr

/-- A `.launch` block as read: fields with their worth still open, roles, groups, rings, channels and regions. -/
structure Block where
  name : Text
  fields : List (Text × Expr)
  roles : List (Nat × Nat)
  groups : List (Nat × Nat)
  rings : List (Nat × Nat)
  chans : List (Nat × Nat)
  regions : List (Nat × Expr × Expr)
  deriving DecidableEq, Repr

/-- What stands at a place of a section. -/
inductive Piece where
  | bytes (l : List Byte)
  | data (n : Nat) (e : Expr)
  | word (t : Text)
  | recipe (l : List Text)
  | launch (b : Block)
  | waves (b : Block)
  | chans (b : Block)
  deriving DecidableEq, Repr

/-- What is open while the lines are read. -/
inductive Opened where
  | none
  | proc (name : Text) (start : Nat)
  | recipe (name : Text) (l : List Text)
  | launch (b : Block)
  deriving DecidableEq, Repr

/-- The assembler between two lines: the symbols that an earlier reading of the source has placed, and whether this reading only guesses what
later ones will know; the section that receives, the sizes and alignments of sections by kind, the sections that hold a line, pieces and symbols
in order, exported names, and what is open. -/
structure Asm where
  known : Symbols
  guess : Bool
  sect : Option Nat
  sizes : Cells Nat
  aligns : Cells Nat
  held : List Nat
  pieces : List (Spot × Piece)
  syms : List Defined
  exported : List Text
  entry : Option Nat
  opened : Opened
  deriving DecidableEq, Repr

/-- Nothing read. -/
def Asm.start : Asm := ⟨[], false, none, [], [], [], [], [], [], none, .none⟩

/-- The size of a section so far. -/
def Asm.size (s : Asm) (kind : Nat) : Nat := cellGet 0 s.sizes kind

/-- Symbols and their places. -/
def Asm.symbols (s : Asm) : Symbols := s.syms.map (fun d => (d.name, d.spot))

/-- A piece of `n` bytes at the end of a section. -/
def Asm.emit (s : Asm) (kind n : Nat) (p : Piece) : Asm :=
  { s with
    pieces := s.pieces ++ [(⟨kind, s.size kind⟩, p)], sizes := cellSet 0 s.sizes kind (s.size kind + n), held := (s.held ++ [kind]).dedup }

/-- A symbol defined where a section ends; a label at the place of the procedure that bears its name is that symbol. -/
def Asm.define (s : Asm) (kind : Nat) (name : Text) (type size : Nat) : Option Asm :=
  let d : Defined := ⟨name, ⟨kind, s.size kind⟩, type, size⟩
  if !isIdent name then none
  else match s.syms.find? (fun x => x.name == name) with
    | none => some { s with syms := s.syms ++ [d], held := (s.held ++ [kind]).dedup }
    | some x => if x.spot = d.spot ∧ x.type = 1 ∧ type = 0 then some s else none

/-- A constant written in a directive: of symbols of the source, defined before it or after (R45). -/
def Asm.const (s : Asm) (t : Text) : Option Int :=
  (exprOf t).bind (fun e => e.value (s.symbols ++ s.known) ⟨s.sect.getD 0, s.size (s.sect.getD 0)⟩)

/-- A constant that is a natural number below a bound. -/
def Asm.natBelow (s : Asm) (bound : Nat) (t : Text) : Option Nat :=
  match s.const t with
  | some n => if 0 ≤ n ∧ n < bound then some n.toNat else none
  | none => if s.guess then some (if bound < 2 ^ 20 then 3 else 128) else none

/-- Padding in a section: the symbols at its end name the word or datum that follows it (R45), and a procedure begun there begins there. -/
def Asm.pad (s : Asm) (kind n : Nat) : Asm :=
  let a := s.size kind
  let go := fun (x : Nat) => if x = a then a + n else x
  { s.emit kind n (.bytes (List.replicate n 0)) with
    syms := s.syms.map (fun d => if d.spot.kind = kind then { d with spot := ⟨kind, go d.spot.off⟩ } else d),
    entry := if kind = 1 then s.entry.map go else s.entry,
    opened := match s.opened with
      | .proc m b => if kind = 1 then .proc m (go b) else s.opened
      | o => o }

/-! ### Liveness records (R54) -/

/-- A liveness record: its low 256 bits and its ranges. -/
structure LiveRec where
  bits : Nat
  ranges : List (Nat × Nat)
  deriving DecidableEq, Repr

/-- Where the registers of a kind begin in a record, and how many there are (Table 3-5). -/
def liveKind (c : Char) : Option (Nat × Nat) :=
  match c with
  | 'v' => some (0, 128)
  | 's' => some (128, 64)
  | 'p' => some (200, 8)
  | 'q' => some (208, 8)
  | _ => none

/-- Registers from one to another, as bits. -/
def liveRegs (t : Text) : Option Nat :=
  match t.head?.bind (fun c => (liveKind c).map (fun k => (c, k))) with
  | none => none
  | some (c, first, count) =>
    match (t.splitOn '-').map trim with
    | [a] => (regIn c count a).map (fun n => 2 ^ (first + n))
    | [a, b] => match regIn c count a, regIn c count b with
      | some m, some n => if m ≤ n then some (((List.range (n - m + 1)).map (fun i => 2 ^ (first + m + i))).foldl (· ||| ·) 0) else none
      | _, _ => none
    | _ => none

/-- The items of a `.live` line. -/
def Asm.liveItems (s : Asm) : List Text → LiveRec → Option LiveRec
  | [], r => some r
  | t :: ts, r =>
    if t.take 4 = "spad".toList ∧ (t.drop 4).head?.any Char.isWhitespace then
      match ts with
      | u :: us => match s.natBelow (2 ^ 20) (t.drop 4), s.natBelow (2 ^ 20 + 1) u with
        | some o, some n =>
          if o % 128 ≠ 0 ∨ n % 128 ≠ 0 ∨ n = 0 ∨ 2 ^ 20 < o + n ∨ 8 ≤ r.ranges.length then none
          else s.liveItems us { r with ranges := r.ranges ++ [(o, n / 128)] }
        | _, _ => none
      | [] => none
    else (liveRegs t).bind (fun b => s.liveItems ts { r with bits := r.bits ||| b })

/-- The 96 bytes of a record. -/
def LiveRec.bytes (r : LiveRec) : List Byte :=
  bytesOf 32 (r.bits + r.ranges.length * 2 ^ 216) ++
    (List.range 8).flatMap (fun i => bytesOf 8 (match r.ranges[i]? with
      | some (o, n) => o + n * 2 ^ 20
      | none => 0))

/-! ### Launch blocks (R50, R72, R240, R384) -/

/-- The fields of a launch record (Table 4-1), by bits. -/
def launchFields : List (String × Nat × Nat) :=
  [("ready", 63, 0), ("pure", 64, 64), ("puretrap", 65, 65), ("prot", 66, 66), ("debug", 67, 67), ("hangtrap", 68, 68), ("rtwave", 69, 69),
   ("prio", 71, 70), ("lid", 127, 96), ("entry", 175, 128), ("codeobj", 239, 192), ("handler", 303, 256), ("nwave", 336, 320),
   ("basereg", 341, 337), ("wpc", 347, 342), ("cbase", 362, 352), ("part", 447, 384), ("wtab", 495, 448), ("ctab", 559, 512),
   ("nchan", 566, 560), ("ringv", 591, 576), ("chbase", 607, 592), ("nin", 611, 608), ("nout", 614, 612), ("nscr", 615, 615),
   ("ringsz", 703, 640)] ++
  [("kcbase", 751, 704), ("kcsize", 767, 752), ("pred0", 799, 768), ("pred1", 831, 800), ("pred2", 863, 832), ("pred3", 895, 864),
   ("keyh", 959, 896), ("keylim", 991, 960), ("grace", 1039, 1024), ("svcth", 1045, 1040), ("svchold", 1071, 1056), ("tag", 1151, 1088),
   ("args", 4095, 3072), ("scratch", 2815, 2688)] ++
  (List.range 8).map (fun i => ("in" ++ toString i, 1279 + 128 * i, 1152 + 128 * i)) ++
  (List.range 4).map (fun i => ("out" ++ toString i, 2303 + 128 * i, 2176 + 128 * i))

/-- The place of a field. -/
def launchField (t : Text) : Option (Nat × Nat) := (launchFields.find? (fun x => x.1.toList == t)).map Prod.snd

/-- The ranges that Table 4-1 gives besides a field's width; isbas refuses a value outside them (DESIGN CHOICE, log 57). -/
def fieldRange (t : Text) (n : Nat) : Bool :=
  if t = "nwave".toList then decide (1 ≤ n ∧ n ≤ 65536) else if t = "basereg".toList then decide (2 ≤ n ∧ n ≤ 16)
  else if t = "wpc".toList then decide (n ≤ 48) else if t = "nchan".toList then decide (n ≤ 64)
  else if t = "nin".toList then decide (n ≤ 8) else if t = "nout".toList then decide (n ≤ 4)
  else if t = "lid".toList then decide (n ≠ 0) else if t = "kcbase".toList then decide (n % 4096 = 0)
  else if t = "wtab".toList then decide (n % 8 = 0) else if t = "ctab".toList then decide (n % 4 = 0) else true

/-- Numbers and ranges, as in `0-3, 7`. -/
def Asm.numbers (s : Asm) (bound : Nat) (l : List Text) : Option (List Nat) :=
  (l.mapM (fun (t : Text) => match (t.splitOn '-').map trim with
    | [a] => (s.natBelow bound a).map (fun n => [n])
    | [a, b] => match s.natBelow bound a, s.natBelow bound b with
      | some m, some n => if m ≤ n then some ((List.range (n - m + 1)).map (fun i => m + i)) else none
      | _, _ => none
    | _ => none)).map List.flatten

/-- Whether a block sets a field itself. -/
def Block.sets (b : Block) (f : String) : Bool := b.fields.any (fun x => x.1 == f.toList)

/-- One more line of a block: one of its own directives with its operands; the others may not stand here (DESIGN CHOICE, log 57). -/
def Block.directive (s : Asm) (b : Block) (name : Text) (ops : List Text) : Option Block :=
  if name = ".role".toList then
    match ["V", "C", "M", "A"].findIdx? (fun r => r.toList == ops.headD []), s.numbers 65536 ops.tail with
    | some r, some ws =>
      if ws.isEmpty ∨ !ws.Nodup ∨ ws.any (fun w => b.roles.any (fun x => x.1 == w)) then none
      else some { b with roles := b.roles ++ ws.map (fun w => (w, r)) }
    | _, _ => none
  else if name = ".group".toList then
    match s.natBelow 256 (ops.headD []), s.numbers 65536 ops.tail with
    | some g, some ws => if ws.isEmpty then none else some { b with groups := b.groups ++ ws.map (fun w => (w, g)) }
    | _, _ => none
  else if name = ".ring".toList then
    match ops.map (s.natBelow 17) with
    | [some n, some k] => if 15 < n ∨ k = 0 ∨ b.rings.any (fun x => x.1 == n) then none else some { b with rings := b.rings ++ [(n, k)] }
    | _ => none
  else if name = ".chan".toList then
    match ops.map (s.natBelow 256) with
    | [some i, some k, some a, some r] =>
      if 63 < i ∨ k = 0 ∨ 64 < k ∨ b.chans.any (fun x => x.1 == i) then none
      else some { b with chans := b.chans ++ [(i, 2 ^ 22 + (k - 1) * 2 ^ 16 + r * 2 ^ 8 + a)] }
    | _ => none
  else if name = ".region".toList then
    match ops with
    | [k, va, n] => match ["IN", "OUT", "SCRATCH"].findIdx? (fun r => r.toList == k), exprOf va, exprOf n with
      | some i, some a, some e =>
        if [8, 4, 1].getD i 0 ≤ (b.regions.filter (fun x => x.1 == i)).length then none else some { b with regions := b.regions ++ [(i, a, e)] }
      | _, _, _ => none
    | _ => none
  else none

/-- A `field = expression` line. -/
def Block.assign (b : Block) (t : Text) : Option Block :=
  match (t.splitOn '=').map trim with
  | [f, e] => (exprOf e).bind (fun x =>
      if (launchField f).isNone ∨ b.fields.any (fun y => y.1 == f) then none else some { b with fields := b.fields ++ [(f, x)] })
  | _ => none

/-- The waves that a block names. -/
def Block.named (b : Block) : List Nat := b.roles.map Prod.fst ++ b.groups.map Prod.fst

/-- NWAVE: as set, or one more than the highest wave named (R72); a block with a `wtab` of its own gets no default (R240). -/
def Block.nwave (b : Block) (l : Symbols) : Nat :=
  match (b.fields.find? (fun x => x.1 == "nwave".toList)).bind (fun x => x.2.value l ⟨6, 0⟩) with
  | some n => n.toNat
  | none => if b.sets "wtab" then 0 else (b.named.map (· + 1)).foldl max 0

/-- The wave table that isbas builds (Table 4-3): a wave given no role takes role A. One named twice for a group
has its number twice (DESIGN CHOICE, log 57). -/
def Block.waveTable (b : Block) (l : Symbols) : List Nat :=
  (List.range (b.nwave l)).map (fun w =>
    let gs := (b.groups.filter (fun x => x.1 == w)).map Prod.snd
    ((b.roles.find? (fun x => x.1 == w)).map Prod.snd).getD 3 * 2 ^ 37 + (2 ^ gs.length - 1) * 2 ^ 32 +
      ((List.range gs.length).map (fun i => gs.getD i 0 * 2 ^ (8 * i))).foldl (· + ·) 0)

/-- The channel table that isbas builds (Table 4-4). -/
def Block.chanTable (b : Block) : List Nat :=
  (List.range ((b.chans.map (fun x => x.1 + 1)).foldl max 0)).map (fun i => ((b.chans.find? (fun x => x.1 == i)).map Prod.snd).getD 0)

/-- What R50, R72, R240 and R384 refuse of a whole block. -/
def Block.refused (b : Block) (l : Symbols) : Bool :=
  (b.sets "wtab" && !b.named.isEmpty) || (b.sets "ctab" && !b.chans.isEmpty) ||
  (!b.chans.isEmpty && b.sets "nchan") || (!b.rings.isEmpty && (b.sets "ringv" || b.sets "ringsz")) ||
  (!b.regions.isEmpty && ((b.fields.find? (fun x => x.1 == "pure".toList)).bind (fun x => x.2.value l ⟨6, 0⟩) != some 1 ||
    b.sets "nin" || b.sets "nout" || b.sets "nscr" || b.sets "scratch" ||
    (List.range 8).any (fun i => b.sets ("in" ++ toString i) || b.sets ("out" ++ toString i)))) ||
  (!b.sets "wtab" && b.named.any (fun w => decide (b.nwave l ≤ w))) ||
  b.named.any (fun w => decide (4 < (b.groups.filter (fun x => x.1 == w)).length))

/-! ### Lines -/

/-- A `.byte`, `.half` or `.word` value fits (R49); one that does not is an error (DESIGN CHOICE, log 57). -/
def fits (n : Nat) (v : Int) : Bool := decide (-(2 ^ (8 * n - 1)) ≤ v ∧ v < 2 ^ (8 * n))

/-- A directive outside a block. `.endproc` takes no name, and `.recipe` and `.launch` stand in no procedure;
no section is taken for granted, and `.` is each value's own address (DESIGN CHOICE, log 57). -/
def Asm.directive (s : Asm) (name : Text) (ops : List Text) : Option Asm :=
  let is := fun (x : String) => decide (name = x.toList)
  let plain := s.opened = .none
  let sel := fun (k : Nat) => if ops.isEmpty then some { s with sect := some k } else none
  if is ".text" then sel 1
  else if is ".data" then sel 2
  else if is ".kconst" then sel 3
  else if is ".global" then
    if ops.isEmpty ∨ !ops.all isIdent then none else some { s with exported := (s.exported ++ ops).dedup }
  else if is ".live" then
    match ops with
    | n :: items => match s.liveItems items ⟨0, []⟩, s.define 5 n 3 96 with
      | some r, some t => some (t.emit 5 96 (.bytes r.bytes))
      | _, _ => none
    | [] => none
  else if is ".recipe" then
    match ops with
    | [n] => if plain ∧ isIdent n then some { s with opened := .recipe n [] } else none
    | _ => none
  else if is ".launch" then
    match ops with
    | [n] => if plain ∧ isIdent n then some { s with opened := .launch ⟨n, [], [], [], [], [], []⟩ } else none
    | _ => none
  else match s.sect with
    | none => none
    | some k =>
      if is ".proc" then
        match ops with
        | [n] => if plain ∧ k = 1 then
            (s.define 1 n 1 0).map (fun t => { t with opened := .proc n (s.size 1), entry := t.entry.or (some (s.size 1)) })
          else none
        | _ => none
      else if is ".endproc" then
        match s.opened with
        | .proc n a => if k = 1 ∧ ops.isEmpty then
            some { s with
              opened := .none, syms := s.syms.map (fun d => if d.name == n then { d with size := s.size 1 - a } else d) }
          else none
        | _ => none
      else if is ".align" then
        match ops.map (s.natBelow 17) with
        | [some n] =>
          if k = 1 ∧ n < 3 then none
          else
            let gap := (2 ^ n - s.size k % 2 ^ n) % 2 ^ n
            some { s.pad k gap with aligns := cellSet 0 s.aligns k (max (cellGet 0 s.aligns k) n) }
        | _ => none
      else if is ".space" then
        match ops.map (s.natBelow (2 ^ 32)) with
        | [some n] => if k = 1 then none else some (s.emit k n (.bytes (List.replicate n 0)))
        | _ => none
      else
        match (if is ".byte" then some 1 else if is ".half" then some 4 else if is ".word" then some 8 else none), ops.mapM exprOf with
        | some n, some es => if es.isEmpty then none else some (es.foldl (fun t e => t.emit k n (.data n e)) s)
        | _, _ => none

/-- A label before the rest of a line (R44, R45). -/
def labelOf (t : Text) : Option Text × Text :=
  let n := t.takeWhile isNamed
  let r := trim (t.drop n.length)
  if !n.isEmpty ∧ r.head? = some ':' then (some n, trim r.tail) else (none, t)

/-- The body of a recipe in words, if it is one of R55 and Table 9-2; its words follow the count at the start of the record. A last word that is
a pair is left to RCPDEF (R164; DESIGN CHOICE, log 57). -/
def recipeBody (l : Symbols) (here : Spot) (body : List Text) : Option (List Nat) :=
  match body.zipIdx.mapM (fun x => lineWord l ⟨here.kind, here.off + 8 + 8 * x.2⟩ x.1) with
  | none => none
  | some ws =>
    let words := ws.map Prod.fst
    if words = [] ∨ 4 < words.length ∨ ws.any (fun x => x.2.isSome) ∨
      (bodyInstrs (words.map (BitVec.ofNat 64))).any (fun i => (i.bind bodyUse).isNone) then none
    else some words

/-- One source line. A recipe's body holds instructions alone, and no label (DESIGN CHOICE, log 57). -/
def Asm.line (s : Asm) (src : Text) : Option Asm :=
  let t := trim (uncomment src)
  let h := t.takeWhile (fun c => !c.isWhitespace)
  let ops := listed ',' (t.drop h.length)
  match s.opened with
  | .launch b =>
    if t.isEmpty then some s
    else if h = ".endlaunch".toList then
      if !ops.isEmpty then none else
      (s.define 6 b.name 4 512).map (fun u => { u.emit 6 512 (.launch b) with opened := .none })
    else if h.head? = some '.' then (b.directive s h ops).map (fun c => { s with opened := .launch c })
    else (b.assign t).map (fun c => { s with opened := .launch c })
  | .recipe n l =>
    if t.isEmpty then some s
    else if h = ".endrecipe".toList then
      if !ops.isEmpty then none else (s.define 4 n 2 64).map (fun u => { u.emit 4 64 (.recipe l) with opened := .none })
    else some { s with opened := .recipe n (l ++ [t]) }
  | _ =>
    let p := labelOf t
    let labelled := match p.1 with
      | none => some s
      | some n => s.sect.bind (fun k => s.define k n 0 0)
    labelled.bind (fun u =>
      if p.2.isEmpty then some u
      else if p.2.head? = some '.' then
        let h := p.2.takeWhile (fun c => !c.isWhitespace)
        u.directive h (listed ',' (p.2.drop h.length))
      else if u.sect = some 1 ∧ u.size 1 % 8 = 0 then some (u.emit 1 8 (.word p.2)) else none)

/-- The source read again and again, each time with the symbols of the reading before, until they stand as they did then. -/
def Asm.passes : Nat → Symbols → List Text → Option Asm
  | 0, _, _ => none
  | n + 1, known, src => match src.foldlM Asm.line { Asm.start with known := known } with
    | none => none
    | some s => if s.symbols = known then some s else passes n s.symbols src

/-- The source read: at once where no directive's constant needs a later symbol, else by as many readings as that takes. -/
def Asm.read (src : List Text) : Option Asm :=
  match src.foldlM Asm.line Asm.start with
  | some s => some s
  | none => (src.foldlM Asm.line { Asm.start with guess := true }).bind (fun s => Asm.passes (src.length + 1) s.symbols src)

/-- All lines, and the tables that the launch blocks ask isbas to build, in .data (R72). `.global` of a name that nothing defines
is an error (DESIGN CHOICE, log 57). -/
def Asm.lines (src : List Text) : Option Asm :=
  match Asm.read src with
  | none => none
  | some s =>
    if s.opened ≠ .none ∨ s.exported.any (fun x => !s.syms.any (fun d => d.name == x)) then none
    else
      let pad := fun (t : Asm) (n : Nat) => t.emit 2 ((n - t.size 2 % n) % n) (.bytes (List.replicate ((n - t.size 2 % n) % n) 0))
      some (s.pieces.foldl (fun t p => match p.2 with
        | .launch b =>
          let t1 := if b.sets "wtab" then t else (pad t 8).emit 2 (8 * b.nwave s.symbols) (.waves b)
          if b.sets "ctab" ∨ b.chans.isEmpty then t1 else (pad t1 4).emit 2 (4 * b.chanTable.length) (.chans b)
        | _ => t) s)

/-! ### Bytes and relocations -/

/-- A relocation of the object (R56): where the word lies, and what it asks. -/
structure Fix where
  spot : Spot
  ask : Ask
  deriving DecidableEq, Repr

/-- Where the table built for a block stands. -/
def Asm.tableAt (s : Asm) (f : Piece → Bool) : Option Nat := (s.pieces.find? (fun p => f p.2)).map (fun p => p.1.off)

/-- A field of the record with its worth: its bits, or a relocation at the foot of a word: CODE48 for 48 bits, ABS64 for a word or more. -/
def fieldBits (at0 : Spot) (hi lo : Nat) (w : Worth) : Option (Nat × List Fix) :=
  match w.anchored at0 with
  | .const n => if 0 ≤ n ∧ n < 2 ^ (hi + 1 - lo) then some (n.toNat * 2 ^ lo, []) else none
  | .addr sym add =>
    if lo % 64 = 0 ∧ (hi = lo + 47 ∨ lo + 63 ≤ hi) then
      some (0, [⟨⟨6, at0.off + lo / 8⟩, ⟨if hi = lo + 47 then 2 else 1, sym, add⟩⟩])
    else none
  | .here _ => none

/-- The record of a block (R50, R72): its fields, what the directives set, and the tables isbas built, named by the template's own symbol
and their distance from it. -/
def Asm.launchRecord (s : Asm) (here : Spot) (b : Block) (place : Spot → Nat) : Option (Nat × List Fix) :=
  let l := s.symbols
  let named := b.fields.mapM (fun x => match launchField x.1, x.2.worth l here with
    | some (hi, lo), some w => match w with
      | .const n => if fieldRange x.1 n.toNat then fieldBits here hi lo w else none
      | _ => fieldBits here hi lo w
    | _, _ => none)
  let table := fun (f : Piece → Bool) (hi lo : Nat) => match s.tableAt f with
    | none => some (0, [])
    | some o => fieldBits here hi lo (.addr b.name ((place ⟨2, o⟩ : Int) - place here))
  let rings := b.rings.foldl (fun n x => n + 2 ^ (576 + x.1) + (x.2 - 1) * 2 ^ (640 + 4 * x.1)) 0
  let count := fun (i : Nat) => (b.regions.filter (fun x => x.1 == i)).length
  let regions := (List.range 3).flatMap (fun i => (b.regions.filter (fun x => x.1 == i)).zipIdx.map (fun x =>
    let lo := [1152, 2176, 2688].getD i 0 + 128 * x.2
    match x.1.2.1.worth l here, x.1.2.2.worth l here with
    | some va, some (.const n) => match fieldBits here (lo + 47) lo va, fieldBits here (lo + 103) (lo + 64) (.const n) with
      | some p, some q => some (p.1 + q.1, p.2)
      | _, _ => none
    | _, _ => none))
  match named, table (fun p => p == .waves b) 495 448, table (fun p => p == .chans b) 559 512, regions.mapM id with
  | some fs, some w, some c, some rs =>
    if b.refused l then none
    else
      let all := fs ++ [w, c] ++ rs
      let more := (if b.sets "nwave" then 0 else b.nwave l * 2 ^ 320) + b.chanTable.length * 2 ^ 560 + rings + count 0 * 2 ^ 608 +
        count 1 * 2 ^ 612 + count 2 * 2 ^ 615
      some ((all.map Prod.fst).foldl (· + ·) more, all.flatMap Prod.snd)
  | _, _, _, _ => none

/-- A piece's bytes and relocations. -/
def Asm.piece (s : Asm) (place : Spot → Nat) (here : Spot) (p : Piece) : Option (List Byte × List Fix) :=
  match p with
  | .bytes l => some (l, [])
  | .data n e => match (e.worth s.symbols here).map (Worth.anchored here) with
    | some (.const v) => if fits n v then some (bytesOf n (toBits (8 * n) v), []) else none
    | some (.addr sym add) => if n = 8 ∧ here.kind ≠ 1 then some (bytesOf 8 0, [⟨here, ⟨1, sym, add⟩⟩]) else none
    | _ => none
  | .word t => (lineWord s.symbols here t).map (fun r => (bytesOf 8 r.1, (r.2.map (fun a => (⟨here, a⟩ : Fix))).toList))
  | .recipe l => (recipeBody s.symbols here l).map (fun ws =>
      (bytesOf 8 ws.length ++ ws.flatMap (bytesOf 8) ++ List.replicate (56 - 8 * ws.length) 0, []))
  | .launch b => (s.launchRecord here b place).map (fun r => (bytesOf 512 r.1, r.2))
  | .waves b => some ((b.waveTable s.symbols).flatMap (bytesOf 8), [])
  | .chans b => some (b.chanTable.flatMap (bytesOf 4), [])

/-- The contents of a section. -/
def Asm.content (s : Asm) (place : Spot → Nat) (kind : Nat) : Option (List Byte × List Fix) :=
  ((s.pieces.filter (fun p => p.1.kind == kind)).mapM (fun p => s.piece place p.1 p.2)).map
    (fun l => (l.flatMap Prod.fst, l.flatMap Prod.snd))

/-! ### The file (R51, R52, R56) -/

/-- The least alignment of a section, as a power of two (Table 3-4, R52). -/
def leastAlign (kind : Nat) : Nat := [0, 3, 16, 0, 6, 5, 3].getD kind 0

/-- Sections laid out one after another, each at the next multiple of its alignment. -/
def layout : List (Nat × Nat × Nat) → Nat → List (Nat × Nat × Nat × Nat)
  | [], _ => []
  | (kind, align, size) :: l, o =>
    let off := (o + 2 ^ align - 1) / 2 ^ align * 2 ^ align
    (kind, align, off, size) :: layout l (off + size)

/-- The sections of the object before the tables of symbols: kinds 1, 3, 4, 5 and 6, then 2. -/
def Asm.loaded (s : Asm) : List (Nat × Nat × Nat) :=
  ([1, 3, 4, 5, 6, 2].filter (fun k => s.held.contains k)).map (fun k => (k, max (leastAlign k) (cellGet 0 s.aligns k), s.size k))

/-- The code object of a source; none where the source has an error. The section table lists the sections in the order of the file,
and lists none where there is none (DESIGN CHOICE, log 57). -/
def assemble (src : List Text) : Option (List Byte) :=
  match Asm.lines src with
  | none => none
  | some s =>
    let parts := s.loaded
    let try1 := fun (extra : Nat) =>
      let lay := layout parts (64 + 32 * (parts.length + extra))
      let place := fun (a : Spot) => ((lay.find? (fun x => x.1 == a.kind)).map (fun x => x.2.2.1 + a.off)).getD 0
      ((parts.map Prod.fst).mapM (s.content place)).map (fun l => (lay, l))
    -- the relocations decide whether .symtab, .strtab and .reltab stand in the table, and the table where the sections begin
    match try1 0 with
    | none => none
    | some (_, first) =>
      let names := ((first.flatMap (fun c => c.2.map (fun f => f.ask.sym))).filter (fun n => !s.syms.any (fun d => d.name == n))).dedup
      let anySym := !s.syms.isEmpty || !names.isEmpty
      let anyRel := first.any (fun c => !c.2.isEmpty)
      match try1 ((if anySym then 2 else 0) + (if anyRel then 1 else 0)) with
      | none => none
      | some (lay, contents) =>
        let index := fun (kind : Nat) => (lay.findIdx? (fun x => x.1 == kind)).getD 255
        let allNames := s.syms.map (fun d => d.name) ++ names
        let strOff := fun (i : Nat) => ((allNames.take i).map (fun n => n.length + 1)).foldl (· + ·) 0
        let entries := s.syms.map (fun d =>
            index d.spot.kind * 2 ^ 32 + d.type * 2 ^ 40 + (if s.exported.contains d.name then 2 ^ 48 else 0) + d.spot.off * 2 ^ 64 +
              d.size * 2 ^ 128) ++ names.map (fun n => ((sectOf n).map index).getD 255 * 2 ^ 32)
        let symtab := entries.zipIdx.flatMap (fun x => bytesOf 32 (x.1 + strOff x.2))
        let strtab := allNames.flatMap (fun n => n.map (fun c => BitVec.ofNat 8 c.toNat) ++ [0])
        let fixes := contents.flatMap Prod.snd
        let reltab := fixes.flatMap (fun f =>
          bytesOf 16 (f.spot.off + index f.spot.kind * 2 ^ 32 + f.ask.type * 2 ^ 40 + (allNames.findIdx? (· == f.ask.sym)).getD 0 * 2 ^ 64 +
            toBits 32 f.ask.add * 2 ^ 96))
        if fixes.any (fun f => decide (f.ask.add < -2147483648 ∨ 2147483647 < f.ask.add)) ∨ contents.any (fun c => decide (2 ^ 32 ≤ c.1.length)) then none
        else
          let last := (lay.getLast?.map (fun x => x.2.2.1 + x.2.2.2)).getD (64 + 32 * ((if anySym then 2 else 0) + (if anyRel then 1 else 0)))
          let tail := layout ((if anySym then [(7, 0, symtab.length), (8, 0, strtab.length)] else []) ++ (if anyRel then [(9, 0, reltab.length)] else []))
            last
          let table := (lay ++ tail).flatMap (fun x => bytesOf 32 (x.1 + x.2.1 * 2 ^ 8 + x.2.2.1 * 2 ^ 64 + x.2.2.2 * 2 ^ 128))
          let header := bytesOf 64 (0x00425349 + 2 ^ 32 + (lay ++ tail).length * 2 ^ 48 + 64 * 2 ^ 64 + s.entry.getD 0 * 2 ^ 128)
          let body := (lay.zip contents).foldl (fun f x => f ++ List.replicate (x.1.2.2.1 - f.length) 0 ++ x.2.1) (header ++ table)
          some (body ++ (if anySym then symtab ++ strtab else []) ++ (if anyRel then reltab else []))

end Sys2Proof.Machine
end

