-- ==== Sys2Proof/Machine/Loader.lean ====
section
/-! DEFINITION. The loader of code objects (spec/03 R51 to R53, R56 to R58; spec/06 R92): what it accepts, the patches it makes, the pages
it maps, and the words it writes one by one until it reports the load complete. It is software of Bishop and of the runtimes: no step of
the machine calls it; its events stand between the machine's steps. -/
namespace Sys2Proof.Machine

/-- A field of a file: `n` bytes from `a` on. -/
def fileNat (f : List Byte) (a n : Nat) : Nat := natOfBytes ((f.drop a).take n)

/-- A section-table entry (R51). -/
structure Section where
  kind : Nat
  align : Nat
  off : Nat
  size : Nat
  deriving DecidableEq, Repr

/-- A symbol: the .strtab offset of its name, its section, whether it is global, and its value. -/
structure Symbol where
  name : Nat
  sect : Nat
  isGlobal : Bool
  value : Nat
  deriving DecidableEq, Repr

/-- A relocation entry (R56). -/
structure Reloc where
  off : Nat
  sect : Nat
  type : Nat
  sym : Nat
  addend : Int
  deriving DecidableEq, Repr

/-- The section table; none where the header or an entry refuses the load (R51, R53). -/
def sectionsIn (f : List Byte) : Option (List Section) :=
  let n := fileNat f 6 2
  let table := fileNat f 8 8
  let entry := fun (i : Nat) => fileNat f (table + 32 * i) 32
  let l := (List.range n).map (fun i => let v := entry i; (⟨bits v 7 0, bits v 15 8, bits v 127 64, bits v 191 128⟩ : Section))
  if fileNat f 0 4 ≠ 0x00425349 ∨ fileNat f 4 2 ≠ 1 ∨ n = 0 ∨ 16 < n ∨ fileNat f 24 24 ≠ 0 then none
  else if (List.range n).any (fun i => bits (entry i) 63 16 != 0 || bits (entry i) 255 192 != 0) then none
  else if l.any (fun x => x.kind == 0 || decide (9 < x.kind)) ∨ (l.map Section.kind).dedup.length ≠ n then none
  else some l

/-- The section of a kind. -/
def sectionFor (l : List Section) (kind : Nat) : Section := (l.find? (fun x => x.kind == kind)).getD ⟨kind, 0, 0, 0⟩

/-- The symbols; none where one refuses the load (R53). Bits [63:49] of an entry, which R51 neither names nor reserves, count as reserved
(DESIGN CHOICE, log 57). -/
def symbolsIn (f : List Byte) (l : List Section) : Option (List Symbol) :=
  let t := sectionFor l 7
  (List.range (t.size / 32)).mapM (fun i =>
    let v := fileNat f (t.off + 32 * i) 32
    let k := bits v 39 32
    if bits v 63 49 ≠ 0 ∨ bits v 255 192 ≠ 0 ∨ (k ≠ 255 ∧ l.length ≤ k) then none
    else some ⟨bits v 31 0, k, v.testBit 48, bits v 127 64⟩)

/-- The relocations; none where a reserved field refuses the load (R53). -/
def relocsIn (f : List Byte) (l : List Section) : Option (List Reloc) :=
  let t := sectionFor l 9
  (List.range (t.size / 16)).mapM (fun i =>
    let v := fileNat f (t.off + 16 * i) 16
    if bits v 63 48 ≠ 0 then none else some ⟨bits v 31 0, bits v 39 32, bits v 47 40, bits v 95 64, ofBits 32 (bits v 127 96)⟩)

/-- A symbol's name: the bytes of .strtab up to the next zero byte. -/
def nameIn (f : List Byte) (l : List Section) (y : Symbol) : List Byte :=
  let t := sectionFor l 8
  (((f.drop t.off).take t.size).drop y.name).takeWhile (fun b => b != 0)

/-- A field of a word replaced. -/
def putBits (w hi lo v : Nat) : Nat := w - bits w hi lo * 2 ^ lo + v * 2 ^ lo

/-- The patch of one relocation (Table 3-6): the word that stands there, S + A, and the word's loaded address; none where it is refused. -/
def relocPatch (type w : Nat) (sa : Int) (p : Nat) : Option Nat :=
  match type with
  | 0 => some w
  | 1 => some (toBits 64 sa)
  | 2 => some (putBits w 47 0 (toBits 48 sa))
  | 3 =>
    let q := (sa - p) / 8
    if (sa - p) % 8 ≠ 0 ∨ q < -134217728 ∨ 134217727 < q then none else some (putBits w 45 18 (toBits 28 q))
  | 4 => if sa < 0 ∨ 4194303 < sa then none else some (putBits w 31 10 sa.toNat)
  | 5 => let h := bits w 27 26; some (putBits w 25 10 (bits (toBits 64 sa) (16 * h + 15) (16 * h)))
  | _ => none

/-- A relocation (but NONE) patches words of .text, or words outside it, by its type (R56). -/
def patchPlace (type kind : Nat) : Bool :=
  if type ≤ 2 then kind != 1 else kind == 1

/-- A symbol's loaded address: in its section, or of a global symbol already loaded for the tenant (R57). -/
def symbolAddr (f : List Byte) (l : List Section) (codeobj : Nat) (known : List (List Byte × Nat)) (y : Symbol) : Option Nat :=
  if y.sect = 255 then (known.find? (fun k => k.1 == nameIn f l y)).map Prod.snd
  else some (codeobj + (l.getD y.sect ⟨0, 0, 0, 0⟩).off + y.value)

/-- One relocation applied to the file. -/
def relocate (l : List Section) (codeobj : Nat) (addrs : List Nat) (f : List Byte) (r : Reloc) : Option (List Byte) :=
  if r.type = 0 then some f
  else match l[r.sect]?, addrs[r.sym]? with
  | some x, some a =>
    let at0 := x.off + r.off
    if !patchPlace r.type x.kind ∨ x.size < r.off + 8 then none
    else (relocPatch r.type (fileNat f at0 8) (a + r.addend) (codeobj + at0)).map (fun v => f.take at0 ++ bytesOf 8 v ++ f.drop (at0 + 8))
  | _, _ => none

/-- The code-object digest (R92): the loaded sections of kinds 1 to 5 in table order. -/
def digestOf (f : List Byte) (l : List Section) : Nat :=
  ox128 (nats ((l.filter (fun x => decide (1 ≤ x.kind ∧ x.kind ≤ 5))).flatMap (fun x => (f.drop x.off).take x.size))) 0

/-- What the loader makes of a file before it writes anything: the image, from the header to the end of the last loaded section (R52,
Table 3-4), relocated; its digest; its sections; and the global symbols it defines with their loaded addresses. -/
structure ObjImage where
  bytes : List Byte
  digest : Nat
  sections : List Section
  globals : List (List Byte × Nat)
  deriving DecidableEq, Repr

/-- The image of a file at CODEOBJ; none where the load is refused (R51 to R53, R56, R57). A section's range is not
held to the file's (DESIGN CHOICE, log 57). -/
def imageFor (f : List Byte) (codeobj : Nat) (known : List (List Byte × Nat)) : Option ObjImage :=
  if codeobj % 2 ^ 16 ≠ 0 then none
  else match sectionsIn f with
    | none => none
    | some l => match symbolsIn f l, relocsIn f l with
      | some ys, some rs => match ys.mapM (symbolAddr f l codeobj known) with
        | none => none
        | some addrs => (rs.foldlM (relocate l codeobj addrs) f).map (fun g =>
            { bytes := g.take (((l.filter (fun x => decide (x.kind ≤ 6))).map (fun x => x.off + x.size)).foldl max 64)
              digest := digestOf g l
              sections := l
              globals := ((ys.zip addrs).filter (fun p => p.1.isGlobal && p.1.sect != 255)).map (fun p => (nameIn f l p.1, p.2)) })
      | _, _ => none

/-- The attributes with which the loader maps the page of the image at an offset (R52): RD and EX before .data, RD and WR from there. -/
def imageAttr (l : List Section) (off : Nat) : Nat :=
  let d := sectionFor l 2
  if 0 < d.size ∧ d.off ≤ off then aRD + aWR else aRD + aEX

/-- The way of the 64 KiB array in which a page stands or may be put: its own, or the lowest that is free;
else way 0 (DESIGN CHOICE, log 12). -/
def Tenant.wayFor (t : Tenant) (va : Nat) : Nat :=
  let l := t.tlb.filter (fun e => e.arr == 0 && e.set == t.setOf 0 va)
  ((l.find? (fun e => e.page == va / 2 ^ 16)).map Tlb.way).getD (((List.range 8).find? (fun w => l.all (fun e => e.way != w))).getD 0)

/-- The image's pages mapped onto the frame places given for them, by what TBLD checks and does (R52, R118); none where a page cannot be. -/
def mapImage (t : Nat) (l : List Section) : Nat → Nat → List Nat → State → Option State
  | _, _, [], s => some s
  | va, off, tfn :: rest, s =>
    match (tbldCheck s (s.tenant t) va tfn (imageAttr l off) 0 ((s.tenant t).wayFor va)).2 with
    | none => none
    | some e => mapImage t l (va + 2 ^ 16) (off + 2 ^ 16) rest (s.loadTlb t e)

/-- The words of a load in the order of their writing: the image, then DIGEST (R57). -/
def ObjImage.words (i : ObjImage) (codeobj : Nat) : List (Nat × List Byte) :=
  (List.range ((i.bytes.length + 7) / 8)).map (fun k => (codeobj + 8 * k, (i.bytes.drop (8 * k)).take 8)) ++
    [(codeobj + 48, bytesOf 8 i.digest), (codeobj + 56, bytesOf 8 (i.digest / 2 ^ 64))]

/-- How far a load is: words to write, the release fence passed, the completion reported. -/
inductive LoadPhase where
  | writing (todo : List (Nat × List Byte))
  | fenced
  | complete
  deriving DecidableEq, Repr

/-- A load: its tenant, where the object stands, its global symbols and how far it is. -/
structure Load where
  tenant : Nat
  codeobj : Nat
  globals : List (List Byte × Nat)
  phase : LoadPhase
  deriving DecidableEq, Repr

/-- The machine with the loads of its loaders beside it. -/
structure Loading where
  machine : State
  loads : List Load
  deriving DecidableEq, Repr

/-- The global symbols of the objects already loaded for a tenant (R57). -/
def Loading.known (x : Loading) (t : Nat) : List (List Byte × Nat) :=
  (x.loads.filter (fun l => l.tenant == t && l.phase == .complete)).flatMap Load.globals

/-- What a loader may do between two steps of the machine: begin a load of a file onto frame places, one for each page; write the next
word of a load; pass the release fence at device scope, once every word is written; report the load complete. -/
inductive LoadEvent where
  | begin (tenant codeobj : Nat) (file : List Byte) (frames : List Nat)
  | word (k : Nat)
  | fence (k : Nat)
  | report (k : Nat)
  deriving DecidableEq, Repr

/-- A load begun: every check and relocation made, and the pages mapped, before the first write (R52, R53, R57). -/
def Loading.begin (x : Loading) (t codeobj : Nat) (f : List Byte) (frames : List Nat) : Option Loading :=
  match imageFor f codeobj (x.known t) with
  | none => none
  | some i =>
    if frames.length ≠ (i.bytes.length + 2 ^ 16 - 1) / 2 ^ 16 then none
    else (mapImage t i.sections codeobj 0 frames x.machine).map (fun s =>
      { machine := s, loads := x.loads ++ [⟨t, codeobj, i.globals, .writing (i.words codeobj)⟩] })

/-- One word of up to 8 bytes written in the frame that the tenant's entry names, whole (R58); none where no page of the tenant's has it. -/
def State.loadWord (s : State) (t va : Nat) (b : List Byte) : Option State :=
  (s.tenantEntry t va 0).bind (fun e => match e.loc va with
    | .mem ma => some (s.deviceStore ma b)
    | _ => none)

/-- One event of a loader; none where it cannot happen. -/
def Loading.next (x : Loading) (e : LoadEvent) : Option Loading :=
  let set := fun (k : Nat) (l : Load) (p : LoadPhase) => x.loads.set k { l with phase := p }
  match e with
  | .begin t c f fr => x.begin t c f fr
  | .word k => (x.loads[k]?).bind (fun l => match l.phase with
      | .writing ((va, b) :: rest) => (x.machine.loadWord l.tenant va b).map (fun s => ⟨s, set k l (.writing rest)⟩)
      | _ => none)
  | .fence k => (x.loads[k]?).bind (fun l => if l.phase = .writing [] then some { x with loads := set k l .fenced } else none)
  | .report k => (x.loads[k]?).bind (fun l => if l.phase = .fenced then some { x with loads := set k l .complete } else none)

end Sys2Proof.Machine
end

