-- ==== Sys2Proof/Tests/Slice0.lean ====
section
/-! SUPPORT. Tests on fixed values, and for every claim with hypotheses a state that meets them: the words decoded are the spec's own
examples or written out from its encoding tables; the values expected are computed by hand from its rules. -/
namespace Sys2Proof.Tests
open Sys2Proof.Machine Sys2Proof.Safety

set_option Elab.async false

/-! ### States to test on -/

/-- A vector register alike in every lane. -/
def alike (r : Nat) (v : Word) : Cells Word := (List.range 32).map (fun i => (32 * r + i, v))

/-- The scratchpad of the test launch: parameter blocks of MMA at 0x8000, of MMAS at 0x8100 and of DRAIN at 0x8200. -/
def blocks : Cells Byte :=
  [(0x8000, 16), (0x8002, 16), (0x8004, 16), (0x8008, 1), (0x8009, 2), (0x8020, 16), (0x8022, 16),
   (0x8100, 16), (0x8102, 16), (0x8104, 32), (0x8108, 1), (0x8109, 2), (0x8120, 16), (0x8122, 16), (0x8129, 0x90),
   (0x8208, 16), (0x820A, 16), (0x820C, 0x59), (0x820D, 1), (0x8211, 0xA0), (0x8218, 64)]

/-- A wave of `n` lanes in a role, at the word where the next step fetches, among all that words can name: a page for reading and writing
at VA 0x20000, a channel with one of its two slots full, a group of one member, a ring, a recipe, two reservations, an accumulator. -/
def stage (role n : Nat) : State :=
  let s := State.reset.place 0
  let s1 := s.setFrame 17 { s.frame 17 with owner := 1 }
  { s1 with
    ctl := { s1.ctl with booted := [0] },
    tasks := { s1.tasks with
      tenants := s1.tasks.tenants.map (fun t => { t with
        places := t.places ++ [⟨.frame, 1, 17, false⟩, ⟨.queue, 0, 3, false⟩, ⟨.chan, 0, 5, false⟩],
        tlb := t.tlb ++ [⟨0, 0, 1, 2, 1, 17, 3⟩], cwbase := 0x100000 }),
      launches := s1.tasks.launches.map (fun l => { l with
        record := ((l.record.set 6 0xFFFFFFFF6AAAAAA9).set 8 (BitVec.ofNat 64 (2 ^ 48))).set 9 1, chans := [⟨0, 2, 1, 1, [List.replicate 32 7], 0, 0⟩],
        groups := [⟨1, [0], 0, 1, 1⟩] }),
      batches := [⟨1, 0, 0, 0, 0, 0, [], false, true, none⟩] },
    cores := { s1.cores with
      ctxs := s1.cores.ctxs.map (fun c => { c with
        pad := blocks, recipes := [(5, [])], resv := [⟨1, 0x100140, 0, []⟩, ⟨2, 0x100140, 16, []⟩],
        handles := [(0, ⟨0, some ⟨16, 16, 1, false, 0, 0, [16], []⟩⟩)] }),
      waves := s1.cores.waves.map (fun w => { w with
        role := role, groups := [⟨1, false, 0⟩], sregs :=
          [(1, 0x100143), (2, 0x100010), (3, 0x100), (5, 0x100000), (6, 1), (8, 0x20000), (10, 1)],
        vregs := alike 10 0x20000 ++ alike 11 0x8000 ++ alike 12 0x8100 ++ alike 13 0x8200 ++ alike 15 0x1000000000001 ++
          alike 17 0xB000 ++ alike 18 128 ++ alike 20 0x200000020 ++ alike 21 0x2000000020,
        lanes := List.replicate n ⟨.ready, BitVec.ofNat 48 placedVa, 0, false⟩ ++ List.replicate (32 - n) Lane.gone }) } }

/-- The stage with its wave changed. -/
def onWave (s : State) (f : Wave → Wave) : State := { s with cores := { s.cores with waves := s.cores.waves.map f } }

/-- The stage with its launch changed. -/
def onLaunch (s : State) (f : Launch → Launch) : State := { s with tasks := { s.tasks with launches := s.tasks.launches.map f } }

/-- The stage with its tenant changed. -/
def onTenant (s : State) (f : Tenant → Tenant) : State := { s with tasks := { s.tasks with tenants := s.tasks.tenants.map f } }

/-- The stage with what its launch holds on the core changed. -/
def onCtx (s : State) (f : Ctx → Ctx) : State := { s with cores := { s.cores with ctxs := s.cores.ctxs.map f } }

/-- The stage with one outstanding operation of its wave. -/
def withOp (o : MemOp) : State := onWave (stage 3 32) (fun w => { w with ops := [o] })

/-- The state that an execution leaves. -/
def after (i : Instr) (s : State) : State :=
  match exec i s with
  | .next t => t
  | _ => s

/-- The wave of the stage at slot 0 of core 1. -/
def theWave (s : State) : Wave := (s.wave? 1 0).getD Wave.blank

/-- A word without guards. -/
abbrev p : Ctl := plainCtl

/-! ### Every word of the tables at a state where it completes -/

/-- One instruction for each constructor of `vecWord`. -/
def vecs : List Instr :=
  [.mov p 1 2, .movi p 1 (-1), .movk p 1 5 3, .sel p 1 2 (.v 3) 4, .iadd p 1 2 (.s 3) .s16x4 true, .isub p 1 2 (.v 3) .z8x8 false,
   .imul p 1 2 (.v 3) .s32x2 false, .imulh p 1 2 (.v 3) .s64, .imad p 1 2 (.v 3) 4 .s4x16 true, .imin p 1 2 (.v 3) .z64,
   .imax p 1 2 (.v 3) .s8x8, .iabs p 1 2 .s16x4 true, .ineg p 1 2 .s16x4 false, .and p 1 2 (.v 3), .or p 1 2 (.s 3), .xor p 1 2 (.v 3),
   .not p 1 2, .shl p 1 2 (.v 3) .z16x4 true, .shr p 1 2 (.v 3) .z32x2 false, .sar p 1 2 (.v 3) .s64 false, .rot p 1 2 (.v 3) .z8x8 false,
   .bfx p 1 2 (.v 3) .s64, .bfi p 1 2 (.v 3) 4, .popc p 1 2 .z64, .clz p 1 2 .z32x2, .brev p 1 2 .z64, .lea p 1 2 (.v 3) .s64 4,
   .iaddi p 1 2 (-5), .idot p 1 2 (.v 3) 4 .s8x8 .z8x8 false, .vote p 1 0 .ballot, .lshf p 1 2 (.v 3) .bfly, .lbcast p 1 2 3 .z16x4,
   .lperm p 1 2 3 .z64, .fmin p 1 2 (.v 3) .f32x2, .fmax p 1 2 (.v 3) .f64, .frnd p 1 2 .f64 .rtz, .fclass p 1 2 .f16x4,
   .mfs p (.v 1) .time, .perfrd p 1 7]

/-- The same of `predWord`. -/
def preds : List Instr :=
  [.elect p 1, .isetp p 1 2 (.v 3) .s32x2 .lt true, .plop p 1 2 3 9, .fsetp p 1 2 (.v 3) .f32x2 .nan false]

/-- The same of `floatWord`. -/
def floats : List Instr :=
  [.fadd p 1 2 (.v 3) .f64 .rne, .fsub p 1 2 (.v 3) .f32x2 .sr, .fmul p 1 2 (.s 3) .f16x4 .rup, .ffma p 1 2 (.v 3) 4 .bf16x4 .rdn,
   .fcvt p 1 2 .f16x4 .f32x2 .rna, .i2f p 1 2 .f32x2 .s32x2 .rtz, .f2i p 1 2 .s32x2 .f32x2 .rne, .fscale p 1 2 (.v 3) .f64 .rne,
   .fdot p 1 2 (.v 3) 4 .e4m3x8 .e5m2x8 .rne, .rand p 1, .frcp p 1 2 .f32x2 .rne, .frsq p 1 2 .f32x2, .fsqrt p 1 2 .f32x2 .rne,
   .fexp2 p 1 2 .f32x2, .fexp2Fs p 1 2 (.v 3) 4 .f32x2, .flog2 p 1 2 .f32x2, .fsin p 1 2 .f32x2, .fcos p 1 2 .f32x2,
   .ftanh p 1 2 .f32x2, .lred p 1 2 .f32x2 .add, .lscan p 1 2 .s64 .max true]

/-- The same of `scalWord`. -/
def scals : List Instr :=
  [.smov p 1 2, .smovi p 1 7, .smovk p 1 7 2, .sadd p 1 2 3, .ssub p 1 2 3, .smul p 1 2 3, .smad p 1 2 3 4, .sand p 1 2 3, .sor p 1 2 3,
   .sxor p 1 2 3, .sshl p 1 2 3, .sshr p 1 2 3, .ssar p 1 2 3, .smin p 1 2 3 true, .smax p 1 2 3 false, .rdlane p 1 2 3 .z64,
   .mfs p (.s 1) .mode, .rcpq p 1 2, .rtq p 1 2, .tbrd p 1 2 0 1, .frq p 1 2, .bndq p 1 2]

theorem witness_VectorWords : ∀ i ∈ vecs, ∃ c u d f s w pc, vecWord i = some (c, u, d, f) ∧ Clear c u s w pc := by
  intro i hi
  have h : vecs.all (fun i => clearAtB ((vecWord i).map (fun x => (x.1, x.2.1))) (stage 3 32)) = true := by decide +kernel
  obtain ⟨c, u, e, k⟩ := clearAt_of (List.all_eq_true.1 h i hi)
  obtain ⟨⟨c, u, d, f⟩, e1, e2⟩ := Option.map_eq_some_iff.1 e
  cases e2
  exact ⟨_, _, d, f, _, _, _, e1, k⟩

theorem witness_PredicateWords : ∀ i ∈ preds, ∃ c u d f s w pc, predWord i = some (c, u, d, f) ∧ Clear c u s w pc := by
  intro i hi
  have h : preds.all (fun i => clearAtB ((predWord i).map (fun x => (x.1, x.2.1))) (stage 3 32)) = true := by decide +kernel
  obtain ⟨c, u, e, k⟩ := clearAt_of (List.all_eq_true.1 h i hi)
  obtain ⟨⟨c, u, d, f⟩, e1, e2⟩ := Option.map_eq_some_iff.1 e
  cases e2
  exact ⟨_, _, d, f, _, _, _, e1, k⟩

theorem witness_FloatWords : ∀ i ∈ floats, ∃ c u d b f s w pc, floatWord i = some (c, u, d, b, f) ∧ Clear c u s w pc := by
  intro i hi
  have h : floats.all (fun i => clearAtB ((floatWord i).map (fun x => (x.1, x.2.1))) (stage 3 32)) = true := by decide +kernel
  obtain ⟨c, u, e, k⟩ := clearAt_of (List.all_eq_true.1 h i hi)
  obtain ⟨⟨c, u, d, b, f⟩, e1, e2⟩ := Option.map_eq_some_iff.1 e
  cases e2
  exact ⟨_, _, d, b, f, _, _, _, e1, k⟩

theorem witness_ScalarWords : ∀ i ∈ scals, ∃ c u d f s w pc, scalWord i = some (c, u, d, f) ∧ Clear c u s w pc := by
  intro i hi
  have h : scals.all (fun i => clearAtB ((scalWord i).map (fun x => (x.1, x.2.1))) (stage 3 32)) = true := by decide +kernel
  obtain ⟨c, u, e, k⟩ := clearAt_of (List.all_eq_true.1 h i hi)
  obtain ⟨⟨c, u, d, f⟩, e1, e2⟩ := Option.map_eq_some_iff.1 e
  cases e2
  exact ⟨_, _, d, f, _, _, _, e1, k⟩

theorem witness_ScalarPredicateAndLaneWrite :
    (∃ c d a b s w pc, Clear c { sr := [a, b], qw := [d], lat := 3, hok := true, q := true } s w pc) ∧
    ∃ c d a b s w pc, Clear c { sr := [a, b], vw := [d], lat := 8, hok := true } s w pc :=
  ⟨⟨p, 0, 1, 2, stage 3 32, _, _, clear_of (by decide +kernel)⟩, ⟨p, 0, 1, 2, stage 3 32, _, _, clear_of (by decide +kernel)⟩⟩

/-- The integer, shift, count and address words; for the register at the top of the block too. -/
theorem witness_IntegerElements : ∃ c d a b e s w pc, Clear c (useABC c d a (some b) none) s w pc ∧
    Clear c (useABC c d a (some b) (some e)) s w pc :=
  ⟨p, 127, 2, .s 63, 4, stage 3 32, _, _, clear_of (by decide +kernel), clear_of (by decide +kernel)⟩

theorem witness_ShiftElements : ∃ c d a b s w pc, Clear c (useABC c d a (some b) none) s w pc :=
  ⟨p, 1, 127, .v 3, stage 3 32, _, _, clear_of (by decide +kernel)⟩

theorem witness_CountAndReverseElements : ∃ c d a s w pc, Clear c (useABC c d a none none) s w pc :=
  ⟨p, 1, 2, stage 3 32, _, _, clear_of (by decide +kernel)⟩

theorem witness_LeaAddress : ∃ c d a b s w pc, Clear c (useABC c d a (some b) none) s w pc :=
  ⟨p, 1, 2, .v 127, stage 3 32, _, _, clear_of (by decide +kernel)⟩

theorem witness_LaneShift : ∃ c d a b s w pc, Clear c { useABC c d a (some b) none with lat := 8 } s w pc :=
  ⟨p, 1, 2, .v 3, stage 3 32, _, _, clear_of (by decide +kernel)⟩

theorem witness_PredicateTable : (∃ c d pa q s w pc, Clear c { pr := [pa, q], pw := [d] } s w pc ∧ d ≠ 0) ∧
    ∃ (x : Word) (c : Ctl) (d pa q n : Nat), decode x = .ok (.plop c d pa q n) :=
  ⟨⟨p, 7, 1, 0, stage 3 32, _, _, clear_of (by decide +kernel), by decide⟩, 0x1380008104000006, p, 1, 1, 2, 6, by decide +kernel⟩

theorem witness_FloatMinMax : ∃ c d a b t s w pc, t ∈ floatTypes ∧ Clear c (useF c d a (some b) none [t] .rne) s w pc :=
  ⟨p, 1, 2, .v 3, .f64, stage 3 32, _, _, by decide, clear_of (by decide +kernel)⟩

theorem witness_PairWord : ∃ h0 h1 s w pc, PairClear h0 h1 s w pc :=
  ⟨⟨.iadd, Guard.always, 7, 5, 6⟩, ⟨.sadd, Guard.always, 8, 3, 6⟩, stage 3 32, _, _, pairClear_of (by decide +kernel)⟩

theorem witness_NopAndYield : ∃ c s w pc, Clear c { hok := true } s w pc := ⟨p, stage 3 32, _, _, clear_of (by decide +kernel)⟩

/-- The words of the tables of effects, each where it has its effect. -/
theorem witness_StillAndHeldWords :
    (∀ i ∈ [Instr.nop p, .yield p, .bkpt p 3, .wait p 0 63 63 15, .rcv p, .phint p 12],
      EffectAt stillWord i (stage 3 32)) ∧
    (∃ s, EffectAt stillWord (.sleep p 5) s) ∧
    ∀ x ∈ [(Instr.sleep p 5, stage 3 32),
        (.wait p 0 63 63 15, onWave (stage 3 32) (fun w => { w with ops := [⟨0, true, .load, 1, 8, [], false, false, false, 0, 0, none, [], false, 0⟩] })),
        (.acqx p 1 16, onWave (onCtx (stage 3 32) (fun c => { c with waits := [⟨5, 1, none⟩] })) (fun w => { w with base := 0 })),
        (.bar p 1, onWave (stage 3 32) (fun w => { w with groups := [⟨1, true, 0⟩] })),
        (.bara p 1, onWave (stage 3 32) (fun w => { w with paths := [.octet 0] })),
        (.barw p 1, onWave (stage 3 32) (fun w => { w with groups := [⟨1, true, 0⟩] })),
        (.chsend p 0 10, onLaunch (stage 3 32) (fun l => { l with chans := l.chans.map (fun c => { c with slots := 1 }) })),
        (.chrecv p 1 0, onLaunch (stage 3 32) (fun l => { l with chans := l.chans.map (fun c => { c with full := [] }) })),
        (.svc p 1 10 0 7, { stage 3 32 with tasks := { (stage 3 32).tasks with
          batches := (List.range 32).map (fun k => ⟨1, 0, k, 0, 0, 0, [], false, true, none⟩) } }),
        (.fence p .sc .dev, onWave (stage 3 32) (fun w => { w with paths := [.octet 0] })),
        (.srwt p 0 0 true, stage 2 32)],
      EffectAt heldWord x.1 x.2 := by
  refine ⟨fun i hi => ?_, ?_, fun x hx => ?_⟩
  · have h : [Instr.nop p, .yield p, .bkpt p 3, .wait p 0 63 63 15, .rcv p, .phint p 12].all
        (fun i => effectB (stillWord i) (stage 3 32)) = true := by decide +kernel
    exact effectAt_of (List.all_eq_true.1 h i hi)
  · exact ⟨onWave (stage 3 32) (fun w => { w with wake := true }), effectAt_of (by decide +kernel)⟩
  · refine effectAt_of ?_
    revert x
    decide +kernel

theorem witness_LaneWords :
    ∀ x ∈ [(Instr.bra p (-24) .likely, stage 3 32), (.brx p 10, stage 3 32), (.call p 8 .none, stage 3 32), (.ret p, stage 3 32),
        (.brau p 0 .none, stage 3 32), (.trap p 0x12, stage 3 32), (.rte p 1, stage 3 32),
        (.exit { p with ga := ⟨false, 1⟩ }, onWave (stage 3 32) (fun w => { w with preds := [(1, 1)] })),
        (.rcv p, onWave (stage 3 32) (fun w => w.setLane 3 { w.lane 3 with st := .parked 8 0 })),
        (.bkpt p 3, onLaunch (stage 3 32) (fun l => { l with record := l.record.set 1 (BitVec.ofNat 64 (2 ^ 32 + 8)) }))],
      EffectAt goWord x.1 x.2 := by
  intro x hx
  refine effectAt_of ?_
  revert x
  decide +kernel

theorem witness_LastExitEndsWave : ∃ c s w pc, Clear c { bubble := true } s w pc ∧
    (∀ i < w.lanes.length, (w.lane i).st = .exited ∨ i ∈ execLanes c false w (w.activeAt pc)) ∧ w.drained = true ∧ w.resident = true ∧
    Known s w.launch ∧ (s.launch w.launch).endInfo = none :=
  ⟨p, stage 3 1, _, _, clear_of (by decide +kernel), by decide +kernel, by decide +kernel, by decide +kernel, by unfold Known; decide +kernel,
    by decide +kernel⟩

theorem witness_SpecialWrites :
    (∀ i ∈ [Instr.mts p (.v 10) .link, .mts p (.s 5) .fstat, .mts p (.s 5) .mstat, .mts p (.s 5) .trcause, .mts p (.s 5) .trpc,
        .mts p (.s 5) .trmask, .mts p (.s 5) .traddr, .mts p (.s 5) .rngctr, .mts p (.v 10) .hanglim, .mts p (.s 5) .laneid],
      EffectAt mtsWord i (stage 3 32)) ∧
    (∃ c a s w pc, Clear c { vr := vsV a, sr := vsS a, hok := (vsV a).isEmpty } s w pc ∧ 1 ≤ w.mode) ∧
    ∀ n ∈ [Spec.laneid, .waveid, .corepl, .diepl, .quad, .mode, .role, .link, .time, .fstat, .mstat, .loss, .trcause, .trpc, .trmask,
        .traddr, .rngctr, .hangcnt, .hanglim, .cntld, .cntst, .cntcp, .cnttl, .tofs], ∀ m ∈ [specMode n, 1, 2], specMode n ≤ m →
      ∃ c a s w pc, Clear c { vr := vsV a, sr := vsS a, mode := specMode n, hok := (vsV a).isEmpty } s w pc ∧ w.mode = m ∧
        w.hwAt ≠ s.ctl.cycle ∧ Calm s w ∧ s.bound w.tenant = true ∧ (s.tenant w.tenant).id = w.tenant := by
  refine ⟨fun i hi => effectAt_of ?_, ⟨p, .v 10, stage 3 32, _, _, clear_of (by decide +kernel), by decide +kernel⟩, fun n hn m hm h =>
    ⟨p, .v 10, onWave (stage 3 32) (fun w => { w with mode := m, hwAt := 7 }), _, _, clear_of ?_, ?_, ?_, .inl ?_, ?_, ?_⟩⟩
  · revert i; decide +kernel
  all_goals revert m n; decide +kernel

theorem witness_GranuleWords :
    (∀ x ∈ [(Instr.acqx p 1 8, onWave (stage 3 32) (fun w => { w with base := 8 })), (.relx p 1 2, stage 3 32),
        (.rcpdef p 1 8 5 0, stage 3 32), (.rcptag p 40 5, stage 3 32), (.rcpclr p 120 8, stage 3 32)],
      EffectAt granuleWord x.1 x.2) ∧
    (∃ c d id body s w pc, Clear c { touch := [d] } s w pc ∧ s.recipe w id = some body ∧ d ∉ (readSet (bodyInstrs body) []).1) ∧
    ∃ c a n s w pc, Clear c { touch := span a n } s w pc := by
  refine ⟨fun x hx => effectAt_of ?_, ⟨p, 40, 5, [], stage 3 32, _, _, clear_of (by decide +kernel), by decide +kernel, by decide⟩,
    p, 120, 8, stage 3 32, _, _, clear_of (by decide +kernel)⟩
  revert x
  decide +kernel

theorem witness_BindingAndServiceWords :
    (∀ i ∈ [Instr.tbld p 1 2 3 5 0 1, .tbinv p 1 8 0 true, .revack p 1 2 3, .lossack p 1 2, .rtinv p 1 2 3],
      EffectAt bindingWord i (stage 3 32)) ∧
    (∃ s, EffectAt replyWord (.svcrep p 1 0 10) s) ∧
    ∃ s, EffectAt launchWord (.launch p 4 10) s := by
  refine ⟨fun x hx => effectAt_of ?_, ?_, ?_⟩
  · revert x
    decide +kernel
  · exact ⟨stage 3 32, effectAt_of (by decide +kernel)⟩
  · exact ⟨stage 3 1, effectAt_of (by decide +kernel)⟩

/-- The stage with an ACCWR of two lanes outstanding. -/
def accwrStage : State :=
  withOp ⟨0, false, .accwr [(0, 0, 15, 14, 7), (31, 0, 0, 0, 8)], 1, 8, [], false, false, false, 0, 0, none, [], false, 0⟩

theorem witness_QueryWords :
    (∀ x ∈ [(Instr.grpq p 1 2, stage 3 32), (.chq p 1 0 2, stage 3 32), (.pqry p 1 11, stage 3 32), (.accrd p 1 16, stage 2 32),
        (.accwr p 1 16, stage 2 32)],
      EffectAt queryWord x.1 x.2) ∧
    (∀ act ∈ [OpAct.grpq [(0, 0), (31, 1)], .chq 0 2 [0, 31], .pqry [(0, 1, 8191), (31, 1, 0)], .accrd [(0, 0, 15, 14), (31, 5, 0, 0)]],
      ∃ (s : State) (w : Wave) (id : Nat) (o : MemOp), s.wave? w.core w.slot = some w ∧ w.allExited = false ∧
        w.op? id = some o ∧ o.act = act ∧ o.parts = [] ∧ w.acqOpen id = false ∧ o.ld = true ∧ Lands w o ∧
        ∀ h ∈ [0, 5], s.tilesOn w id h = false ∧ w.accBefore id h = false) ∧
    ∃ (s : State) (w : Wave) (id : Nat) (o : MemOp) (c : Ctx) (al : Alloc), s.wave? w.core w.slot = some w ∧ w.allExited = false ∧
      w.op? id = some o ∧ o.parts = [] ∧ w.acqOpen id = false ∧ o.ld = false ∧ o.act = .accwr [(0, 0, 15, 14, 7), (31, 0, 0, 0, 8)] ∧
      s.ctx? w.launch w.core = some c ∧ s.tilesOn w id 0 = false ∧ w.accBefore id 0 = false ∧ c.alloc? 0 = some al ∧ 14 + 1 < al.pitch := by
  refine ⟨fun x hx => effectAt_of ?_, fun act ha => ?_,
    accwrStage, accwrStage.cur, 0, _, accwrStage.ctx 1 1, _, rfl, rfl, rfl, rfl, rfl, rfl, rfl, rfl, by decide +kernel, by decide +kernel,
    (Option.some_get (by decide +kernel)).symm, by decide +kernel⟩
  · revert x
    decide +kernel
  · have lands : ∀ o, Lands (withOp o).cur o ↔ o.reg < 128 :=
      fun o => ⟨fun h => h.1, fun h => ⟨h, rfl, fun q hq => by cases hq⟩⟩
    exact ⟨withOp ⟨0, true, act, 1, 8, [], false, false, false, 0, 0, none, [], false, 0⟩, _, 0, _, rfl, rfl, rfl, rfl, rfl, rfl, rfl, (lands _).2 (by simp),
      by revert act; decide +kernel⟩

theorem witness_CacheWords : (∃ c a s w pc, Clear c { vr := [a] } s w pc) ∧
    ∃ s, EffectAt fenceWord (.fence p .sc .sys) s := by
  refine ⟨⟨p, 10, stage 3 32, _, _, clear_of (by decide +kernel)⟩, ?_⟩
  exact ⟨stage 3 32, effectAt_of (by decide +kernel)⟩

theorem witness_BarrierWords :
    (∀ x ∈ [(Instr.bar p 1, stage 3 32), (.bara p 1, stage 3 32), (.barw p 1, stage 3 32)],
      EffectAt barrierWord x.1 x.2) ∧
    ∀ n ∈ [1, 2], ∃ (s : State) (w : Wave) (g : Nat) (x : Group), Known s w.launch ∧
      (s.launch w.launch).groups.find? (fun y => y.gid == g) = some x ∧ x.live ≠ 0 ∧ x.pend = n := by
  refine ⟨fun x hx => effectAt_of ?_, fun n hn => ?_⟩
  · revert x
    decide +kernel
  · refine ⟨onLaunch (stage 3 32) (fun l => { l with groups := [⟨1, [0], 0, 2, n⟩] }), (stage 3 32).cur, 1, ⟨1, [0], 0, 2, n⟩, ?_, rfl, by simp, rfl⟩
    exact ⟨_, List.mem_cons_self .., rfl⟩

theorem witness_ChannelRingAndReservationWords :
    (∀ i ∈ [Instr.chsend p 0 10, .chrecv p 1 0], EffectAt channelWord i (stage 3 32)) ∧
    (∀ i ∈ [Instr.srarv p 0 7, .srwt p 0 7 false], EffectAt ringWord i (stage 2 32)) ∧
    ∀ i ∈ [Instr.obres p 9 1, .obrel p 9 6, .acca p 9 2 3, .accf p 9 4], EffectAt reserveWord i (stage 2 32) := by
  refine ⟨fun x hx => effectAt_of ?_, fun x hx => effectAt_of ?_, fun x hx => effectAt_of ?_⟩ <;> revert x <;> decide +kernel

/-! ### Words turned away, traps, handlers -/

theorem witness_WordsTurnedAway :
    (∃ i c u s w pc, useOf i = some (c, u) ∧ At s w pc ∧ (s.launch w.launch).pure = false ∧ w.hangArmed = true) ∧
    (∃ i c u s w pc, useOf i = some (c, u) ∧ Faces c u s w pc ∧ w.mode < u.mode) ∧
    (∃ i c u s w pc, useOf i = some (c, u) ∧ Faces c u s w pc ∧ u.mode ≤ w.mode ∧ w.role ∉ u.roles) ∧
    ∃ i c u s w pc r, useOf i = some (c, u) ∧ Faces c u s w pc ∧ u.mode ≤ w.mode ∧ w.role ∈ u.roles ∧
      s.pendOf w (u.guarded c) true = [] ∧ r ∈ u.vr ++ u.vw ++ u.touch ++ u.named ∧ w.vcount ≤ r ∧
      ∀ q ∈ u.vr ++ u.vw ++ u.touch ++ u.named, w.vcount ≤ q → r ≤ q := by
  refine ⟨⟨.mov p 1 2, _, _, onWave (stage 3 32) (fun w => { w with hangArmed := true }), _, _, rfl, at_of (by decide +kernel),
      by decide +kernel, by decide +kernel⟩,
    ⟨.tbrd p 1 2 0 1, _, _, onWave (stage 3 32) (fun w => { w with mode := 0 }), _, _, rfl, faces_of (by decide +kernel), by decide +kernel⟩,
    ⟨.srarv p 0 7, _, _, stage 3 32, _, _, rfl, faces_of (by decide +kernel), by decide +kernel, by decide +kernel⟩,
    ⟨.mov p 9 8, _, _, onWave (stage 3 32) (fun w => { w with base := 1 }), _, _, 8, rfl, faces_of (by decide +kernel), by decide +kernel,
      by decide +kernel, by decide +kernel, by decide +kernel, by decide +kernel, by decide +kernel⟩⟩

/-- A word of an opcode that Table 2-14 leaves out, and a pair whose first half opcode is reserved. -/
theorem witness_WordsThatCannotRun :
    (∃ k s w pc, At s w pc ∧ s.fetch w pc = .error k) ∧
    (∃ (x : Word) (s : State) (w : Wave) (pc : CodeAddr), (∀ i, decode x ≠ .ok i) ∧ x.toNat < 2 ^ 63 ∧
      Faces (Fields.ofWord x.toNat).ctl { q := qOpcode (Fields.ofWord x.toNat).opc, illegal := true } s w pc) ∧
    ∃ h0 h1 s w pc, At s w pc ∧ w.hangArmed = false ∧ (s.launch w.launch).pure = false ∧ s.pendOf w (pairGuards h0 h1) true = [] ∧
      (if pairScalar h0 h1 w then w.activeAt pc else pairLanes h0 h1 w (w.activeAt pc)) ≠ [] ∧ w.role ≤ 3 ∧ pairBadBank h0 h1 = true := by
  have bad : ∀ (x : Word), (decode x).isOk = false → ∀ i, decode x ≠ .ok i := fun x h i e => by rw [e] at h; cases h
  exact ⟨⟨.tmiss, onTenant (stage 3 32) (fun t => { t with tlb := [] }), _, _, at_of (by decide +kernel), by decide +kernel⟩,
    ⟨0x0600000000000000, stage 3 32, _, _, bad _ (by decide +kernel), by decide, faces_of (by decide +kernel)⟩,
    ⟨⟨.iadd, Guard.always, 7, 5, 6⟩, ⟨.iadd, Guard.always, 3, 1, 2⟩, stage 3 32, _, _, at_of (by decide +kernel), by decide +kernel,
      by decide +kernel, by decide +kernel, by decide +kernel, by decide +kernel, by decide⟩⟩

theorem witness_UnassignedOpcodesRefused :
    (∀ n ∈ [0x018, 0x01F, 0x026, 0x02F, 0x04F, 0x057, 0x070, 0x096, 0x0AD, 0x0B9, 0x0C6, 0x0DB, 0x0E7, 0x1FF],
      ∃ x : Word, x.toNat < 2 ^ 63 ∧ x.toNat / 2 ^ 54 = n) ∧
    ∃ x : Word, 2 ^ 63 ≤ x.toNat ∧ 0x18 ≤ x.toNat / 2 ^ 57 % 2 ^ 6 := by
  refine ⟨fun n hn => ⟨BitVec.ofNat 64 (n * 2 ^ 54), ?_⟩, 0xB000000000000000, by decide, by decide⟩
  revert n
  decide +kernel

/-- Lanes parked with a cause: lane 0 further on, lanes 1 and 2 at one address. -/
def parkedLanes (cause : Nat) : List Lane :=
  [⟨.parked cause 77, 0x10008, 0, false⟩, ⟨.parked cause 78, 0x10000, 0, false⟩, ⟨.parked cause 79, 0x10000, 0, false⟩] ++
    List.replicate 29 Lane.gone

/-- The stage with three lanes parked, under a launch with a handler or without one. -/
def parkedStage (handler cause : Nat) : State :=
  onLaunch (onWave (stage 3 4) (fun w => { w with lanes := parkedLanes cause }))
    (fun l => { l with record := l.record.set 4 (BitVec.ofNat 64 handler) })

theorem witness_TrapTaking : ∀ x ∈ [(0x10800, cRANGE), (0, cRANGE), (0x10800, cINTEG)],
    ∃ core slot s w, s.wave? core slot = some w ∧ s.trapDue w = true ∧ s.passBar w = s ∧ (s.launch w.launch).handler = x.1 ∧
      w.parkCause 1 = x.2 ∧ Known s w.launch ∧ (s.launch w.launch).endInfo = none := by
  intro x hx
  refine ⟨1, 0, parkedStage x.1 x.2, (parkedStage x.1 x.2).cur, rfl, ?_, rfl, ?_, ?_, ⟨_, List.mem_cons_self .., rfl⟩, rfl⟩ <;>
    revert x <;> decide +kernel

/-- The stage in its handler, lanes 1 and 2 trapped. -/
def handlerStage (action : Nat) : State :=
  onWave (parkedStage 0x10800 cRANGE) (fun w => { w with
    trpc := 0x10000, trcause := 8, trmask := 6, hnd := some ⟨0x10800, 0, 1, 6, false, none⟩, sregs := [(1, BitVec.ofNat 64 action)] })

theorem witness_TrapReturn : ∀ a ∈ [0, 1, 2, 3], ∃ c r s w h, HClear c { q := true, mode := 1, sr := [r], hok := true } s w h ∧
    bits (w.sreg r).toNat 1 0 = a ∧ w.trpc.toNat % 8 = 0 ∧ (w.leaveHandler h a).allExited = false ∧ Known s w.launch ∧ (s.launch w.launch).endInfo = none := by
  intro a ha
  refine ⟨p, 1, handlerStage a, _, _, hclear_of ?_, ?_, ?_, ?_, ⟨_, List.mem_cons_self .., rfl⟩, rfl⟩ <;> revert a <;> decide +kernel

theorem witness_HandlerWords :
    (∃ i c u d f s w h, scalWord i = some (c, u, d, f) ∧ u.hok = true ∧ HClear c u s w h) ∧
    ∃ i c u d f s w h, vecWord i = some (c, u, d, f) ∧ HClear c u s w h ∧ Known s w.launch ∧ (s.launch w.launch).endInfo = none :=
  ⟨⟨.mfs p (.s 1) .mode, _, _, _, _, handlerStage 0, _, _, rfl, rfl, hclear_of (by decide +kernel)⟩,
    ⟨.mov p 1 2, _, _, _, _, handlerStage 0, _, _, rfl, hclear_of (by decide +kernel), ⟨_, List.mem_cons_self .., rfl⟩, rfl⟩⟩

theorem witness_WaveEvents :
    (∀ trap ∈ [true, false], ∃ core slot s w, s.wave? core slot = some w ∧ (s.tenant w.tenant).hanglim ≠ 0 ∧
      (s.tenant w.tenant).hanglim < w.hangcnt ∧ w.hangArmed = false ∧ (s.launch w.launch).endInfo = none ∧ (s.launch w.launch).hangtrap = trap ∧ Known s w.launch ∧
      s.bound w.tenant = true) ∧
    (∃ (core slot : Nat) (s : State) (w : Wave), s.wave? core slot = some w ∧ w.held = some .sleep ∧
      w.sleepSince.any (fun d => decide (d ≤ s.ctl.cycle)) = true) ∧
    (∃ (core slot : Nat) (s : State) (w : Wave) (q : Path), s.wave? core slot = some w ∧ q ∈ w.markers ∧ s.pathClear w q = true) ∧
    ∃ (core slot : Nat) (s : State) (w : Wave), s.wave? core slot = some w ∧ (w.lane 0).st = .ready ∧ w.allExited = false ∧
      w.refusals = [⟨0, cOWNER, 5⟩, ⟨1, cLINK, 6⟩] := by
  refine ⟨fun trap ht => ?_, ⟨1, 0, onWave (stage 3 32) (fun w => { w with held := some .sleep, sleepSince := some 0 }), _, rfl, rfl, by decide +kernel⟩,
    ⟨1, 0, onWave (stage 3 32) (fun w => { w with markers := [.octet 0] }), _, .octet 0, rfl, by decide +kernel, by decide +kernel⟩,
    ⟨1, 0, onWave (stage 3 32) (fun w => { w with refusals := [⟨0, cOWNER, 5⟩, ⟨1, cLINK, 6⟩] }), _, rfl, by decide +kernel, by decide +kernel, rfl⟩⟩
  refine ⟨1, 0, onLaunch (onTenant (onWave (stage 3 32) (fun w => { w with hangcnt := 6 })) (fun t => { t with hanglim := 5 }))
    (fun l => { l with record := l.record.set 1 (BitVec.ofNat 64 (2 ^ 32 + 16 * trap.toNat)) }), _, rfl, ?_, ?_, rfl, rfl, ?_,
    ⟨_, List.mem_cons_self .., rfl⟩, rfl⟩ <;> revert trap <;> decide +kernel

/-! ### Services and granules -/

theorem witness_ServiceCall : ∃ c d a cls s w pc k,
    Clear c { vr := span a 4, vw := span d 2, lat := 0, impure := true, hok := true } s w pc ∧ s.freeSlot w.tenant cls = some k ∧
      releaseSide s w (svcScope cls) = none ∧ cls ≤ 2 ∧ Calm s w :=
  ⟨p, 1, 10, 0, stage 3 32, _, _, 1, clear_of (by decide +kernel), by decide +kernel, by decide +kernel, by decide, .inl (by decide +kernel)⟩

/-- The stage with a batch of lanes 0 and 31 answered: their wave waits. -/
def answered : State :=
  let s := onWave (stage 3 32) (fun w => { w with lanes := w.lanes.mapIdx (fun i l => if i = 0 ∨ i = 31 then { l with st := .service } else l) })
  { s with
    tasks := { s.tasks with batches := [⟨1, 0, 3, 1, 0, 6, [0, 31], false, false, some 1⟩] } }

theorem witness_ServiceEvents :
    (∃ (t cls slot : Nat) (s : State) (b : Batch) (w : Wave), s.batch? t cls slot = some b ∧ cls ≤ 2 ∧ slot < 32 ∧
      b.answered.isSome = true ∧ s.firstAnswered b = true ∧ b.upcall = false ∧ b.hnd = false ∧ b.lanes.Nodup ∧
      (∀ i ∈ b.lanes, i < 32 ∧ i < w.lanes.length) ∧ (s.launch b.launch).endInfo = none ∧
      s.cores.waves.find? (fun x => x.launch == b.launch && x.wid == b.wid) = some w ∧ w.dropped = [] ∧
      s.wave? w.core w.slot = some w ∧ w.launch = b.launch ∧ w.wid = b.wid ∧ (w.lane 31).st = .service) ∧
    ∃ (t : Nat) (s : State) (q : Upcall) (k : Nat), s.bound t = true ∧ (s.tenant t).id = t ∧ (s.tenant t).upcalls = [q] ∧
      s.freeSlot t 0 = some k := by
  refine ⟨⟨1, 0, 3, answered, ⟨1, 0, 3, 1, 0, 6, [0, 31], false, false, some 1⟩, answered.cur, rfl, by decide, by decide, rfl, by decide +kernel, rfl, rfl,
    by decide, by decide +kernel, rfl, rfl, rfl, rfl, rfl, rfl, by decide +kernel⟩,
    1, onTenant (stage 3 32) (fun t => { t with upcalls := [⟨5, 0xFF01, 1, 0⟩] }), ⟨5, 0xFF01, 1, 0⟩, 1, rfl, rfl, rfl, by decide +kernel⟩

/-- The stage whose wave, of 8 granules and one droppable extended one, waits in ACQX. -/
def waiting (drop : Bool) (remat : Option Nat) : State :=
  onCtx (onWave (stage 3 32) (fun w => { w with
      base := 8, ext := 1, held := some (if remat.isSome then .remat else .acqx), tags := if drop then [⟨64, 5, true⟩] else [],
      written := if drop then [64] else [65] }))
    (fun c => { c with waits := [⟨0, 99, remat⟩] })

/-- The same in re-materialisation, in its handler or outside it. -/
def waitingIn (handler : Bool) : State :=
  onWave (waiting false (some 64)) (fun w => if handler then
    { w with trpc := 0x10000, trcause := 8, trmask := 6, hnd := some ⟨0x10800, 0, 1, 6, false, some .remat⟩ } else w)

theorem witness_GranuleWaits :
    (∃ (core l : Nat) (s : State) (g : GranWait) (w : Wave), (s.ctx l core).waitOrder.head? = some g ∧ s.wave? core g.slot = some w ∧
      w.launch = l ∧ g.remat = none ∧ g.n ≤ s.freeGranules l core ∧ (s.ctx? l core).isSome = true) ∧
    (∃ (core l : Nat) (s : State) (w : Wave) (k : Nat), s.allWaiting core l = true ∧ s.canServeOldest core l = false ∧
      youngest ((s.wavesOn l core).filter (fun x => x.topDroppable.isSome)) = some w ∧ w.topDroppable = some k) ∧
    (∃ (core l : Nat) (s : State) (w : Wave), s.allWaiting core l = true ∧ s.canServeOldest core l = false ∧
      youngest ((s.wavesOn l core).filter (fun x => x.topDroppable.isSome)) = none ∧ youngest (s.waiters core l false) = some w) ∧
    ∀ b ∈ [true, false], ∃ (core l : Nat) (s : State) (w : Wave), s.allWaiting core l = true ∧ s.canServeOldest core l = false ∧
      youngest ((s.wavesOn l core).filter (fun x => x.topDroppable.isSome)) = none ∧ youngest (s.waiters core l false) = none ∧
      youngest (s.waiters core l true) = some w ∧ if b then w.hnd.isSome = true else w.hnd = none ∧ w.ownPc.isSome = true := by
  refine ⟨⟨1, 1, onCtx (onWave (stage 3 32) (fun w => { w with base := 8 })) (fun c => { c with waits := [⟨0, 1, none⟩] }), ⟨0, 1, none⟩, _,
      rfl, rfl, rfl, rfl, by decide +kernel, rfl⟩,
    ⟨1, 1, waiting true none, (waiting true none).cur, 0, by decide +kernel, by decide +kernel, by decide +kernel, by decide +kernel⟩,
    ⟨1, 1, waiting false none, (waiting false none).cur, by decide +kernel, by decide +kernel, by decide +kernel, by decide +kernel⟩,
    fun b hb => ⟨1, 1, waitingIn b, (waitingIn b).cur, ?_, ?_, ?_, ?_, ?_, ?_⟩⟩ <;> revert b <;> decide +kernel

/-! ### Memory, copies, matrices -/

theorem witness_MemoryWords :
    ∀ i ∈ [Instr.ldg p 1 10 0 .b256 .acqrel .dev .mru, .stg p 1 10 1 .b32 .plain .wav .ns, .ldp p 1 11 0 .b64 .plain .wav,
        .stp p 1 11 3 .b128 .rlx .core, .ldk p 1 0 0 .b64 .mru, .atom p 1 10 2 3 .cas .sc .sys .w64, .atomp p 1 11 2 3 .add .rlx .core .w32,
        .red p 10 2 .fadd .plain .wav .w32, .hgath p 1 10 0 .plain .wav .el],
      ∃ m s w pc accs, memWord i = some m ∧ Clear m.c m.u s w pc ∧ Accesses m (context m.c m.u s w pc) accs := by
  intro i hi
  have h : memB i (onLaunch (stage 3 32) (fun l => { l with
      record := l.record.set 11 (BitVec.ofNat 64 (0x20000 + 8 * 2 ^ 48)) })) = true := by
    revert i
    decide +kernel
  obtain ⟨m, w, pc, accs, e⟩ := mem_of h
  exact ⟨m, _, w, pc, accs, e⟩

theorem witness_AccessFaultsPark :
    (∃ va : Word, 2 ^ 48 ≤ va.toNat) ∧ (∃ (va : Word) (n : Nat), va.toNat < 2 ^ 48 ∧ va.toNat % n ≠ 0) ∧
    (∃ (s : State) (w : Wave) (va : Word) (n : Nat), va.toNat < 2 ^ 48 ∧ va.toNat % n = 0 ∧ s.translate w.core w.tenant va.toNat = none) ∧
    (∀ need ∈ [aWR, aEX], ∃ (s : State) (w : Wave) (va : Word) (n : Nat) (e : Tlb), va.toNat < 2 ^ 48 ∧ va.toNat % n = 0 ∧
      s.translate w.core w.tenant va.toNat = some e ∧ isProt e.attr = false ∧ (e.attr &&& need = need ↔ need = aWR)) ∧
    ∃ i m s w pc, memWord i = some m ∧ Clear m.c m.u s w pc ∧ (m.rel = true → releaseSide s w m.od.scope = none) ∧
      ∀ k ∈ execLanes m.c m.u.q w (w.activeAt pc), ∃ e, m.check (context m.c m.u s w pc) k = .error e := by
  refine ⟨⟨0x1000000000000, by decide⟩, ⟨0xFFFFFFFFFFFF, 2, by decide, by decide⟩,
    ⟨stage 3 32, (stage 3 32).cur, 0x30000, 8, by decide, by decide, by decide +kernel⟩, fun need hn => ?_,
    ?_⟩
  · refine ⟨stage 3 32, (stage 3 32).cur, 0x2FFF8, 8, ⟨0, 0, 1, 2, 1, 17, 3⟩, by decide, by decide, by decide +kernel, by decide, ?_⟩
    revert need
    decide
  · obtain ⟨m, w, pc, e⟩ := memFail_of (i := .stg p 1 0 1 .b64 .acqrel .dev .mru) (s := stage 3 32) (by decide +kernel)
    exact ⟨_, m, _, w, pc, e⟩

/-- An operation of one part: at the first byte of the page for reading and writing, or at the last word of the scratchpad. -/
def onePart (act : OpAct) (ld : Bool) (loc : Loc) : MemOp :=
  ⟨0, ld, act, 1, 8, [⟨31, 0, 0x20000, loc, 8, 3, 0xFFFFFFFFFFFFFFFF, 0, false, none⟩], false, false, false, 0, 0, none, [], false, 0⟩

/-- Its hypotheses at main memory, where the home slice has a token; at scratchpad; and the token. -/
theorem onePart_of (act : OpAct) (ld : Bool) (loc : Loc)
    (h : (withOp (onePart act ld loc)).cur.mayPerform (onePart act ld loc) 0 = true)
    (first : (withOp (onePart act ld loc)).behind (withOp (onePart act ld loc)).cur (onePart act ld loc) 0 = false) :
    OnePart (withOp (onePart act ld loc)) (withOp (onePart act ld loc)).cur 0 (onePart act ld loc)
      ⟨31, 0, 0x20000, loc, 8, 3, 0xFFFFFFFFFFFFFFFF, 0, false, none⟩ :=
  ⟨rfl, rfl, rfl, rfl, h, first, ⟨rfl, by simp⟩, by simp⟩

theorem witness_LoadPerformed :
    (∃ s w id o q a, OnePart s w id o q ∧ o.act = .load ∧ o.ld = true ∧ Lands w o ∧ AtHome s w o q a) ∧
    ∃ s w id o q c off, OnePart s w id o q ∧ o.act = .load ∧ o.ld = true ∧ Lands w o ∧ AtPad s w q c off :=
  ⟨⟨_, _, 0, _, _, 0x110000, onePart_of .load true (.mem 0x110000) (by decide +kernel) (by decide +kernel), rfl, rfl,
      ⟨by decide +kernel, rfl, fun q hq => by cases hq⟩, ⟨rfl, rfl, by decide, by decide +kernel, by decide +kernel⟩⟩,
    ⟨_, _, 0, _, _, 1, 0xFFFF8, onePart_of .load true (.pad 1 0xFFFF8) (by decide +kernel) (by decide +kernel), rfl, rfl,
      ⟨by decide +kernel, rfl, fun q hq => by cases hq⟩, ⟨rfl, by decide, rfl, by decide +kernel⟩⟩⟩

theorem witness_StorePerformed :
    (∃ s w id o q a, OnePart s w id o q ∧ o.act = .store ∧ o.ld = false ∧ AtHome s w o q a) ∧
    ∃ s w id o q c off, OnePart s w id o q ∧ o.act = .store ∧ o.ld = false ∧ AtPad s w q c off :=
  ⟨⟨_, _, 0, _, _, 0x110000, onePart_of .store false (.mem 0x110000) (by decide +kernel) (by decide +kernel), rfl, rfl,
      ⟨rfl, rfl, by decide, by decide +kernel, by decide +kernel⟩⟩,
    ⟨_, _, 0, _, _, 1, 0xFFFF8, onePart_of .store false (.pad 1 0xFFFF8) (by decide +kernel) (by decide +kernel), rfl, rfl,
      ⟨rfl, by decide, rfl, by decide +kernel⟩⟩⟩

theorem witness_AtomicPerformed : ∀ act ∈ [OpAct.atom .cas .w64, .red .add .w64], ∃ s w id o q op wd a, OnePart s w id o q ∧
    o.act = act ∧ (act = .atom op wd ∨ act = .red op wd) ∧ q.size = wd.bytes ∧ Lands w o ∧ AtHome s w o q a := by
  intro act h
  have hm : (withOp (onePart act true (.mem 0x110000))).cur.mayPerform (onePart act true (.mem 0x110000)) 0 = true := by
    revert act
    decide +kernel
  have first : (withOp (onePart act true (.mem 0x110000))).behind (withOp (onePart act true (.mem 0x110000))).cur
      (onePart act true (.mem 0x110000)) 0 = false := by
    revert act
    decide +kernel
  have one := onePart_of act true (.mem 0x110000) hm first
  have lands : Lands (withOp (onePart act true (.mem 0x110000))).cur (onePart act true (.mem 0x110000)) :=
    ⟨(by decide : 1 < 128), rfl, fun q hq => by cases hq⟩
  simp only [List.mem_cons, List.not_mem_nil, or_false] at h
  rcases h with rfl | rfl
  · exact ⟨_, _, 0, _, _, .cas, .w64, 0x110000, one, rfl, .inl rfl, rfl, lands, rfl, rfl, by decide, by decide +kernel, by decide +kernel⟩
  · exact ⟨_, _, 0, _, _, .add, .w64, 0x110000, one, rfl, .inr rfl, rfl, lands, rfl, rfl, by decide, by decide +kernel, by decide +kernel⟩

theorem witness_CopyWords :
    ∀ i ∈ [Instr.cpy p 10 17 18 true false 0, .cpyx p 17 10 20 false true 0, .cpym p 0 17 18 true 0, .cpyd p 10 17 18 true false 0],
      ∃ c u q f s w pc, ∃ es : List (JobEnd × JobEnd), copyWord i = some (c, u, q, f) ∧ Clear c u s w pc ∧
        (execLanes c u.q w (w.activeAt pc)).map (fun k => jobCheck s w (f w k) q) = es.map .ok ∧
        (∀ k ∈ execLanes c u.q w (w.activeAt pc), (f w k).stray (s.launch w.launch) = none) ∧
        (s.cardsOn w.core).length + (execLanes c u.q w (w.activeAt pc)).length ≤ 64 ∧ w.cntcp < 63 := by
  intro i hi
  have h : (match copyWord i with
      | some (c, u, q, f) => clearB c u (stage 3 32) &&
        ((stage 3 32).curLanes c u).all (fun k => (jobCheck (stage 3 32) (stage 3 32).cur (f (stage 3 32).cur k) q).isOk) &&
        ((stage 3 32).curLanes c u).all (fun k => (f (stage 3 32).cur k).stray ((stage 3 32).launch (stage 3 32).cur.launch) == none) &&
        decide (((stage 3 32).cardsOn (stage 3 32).cur.core).length + ((stage 3 32).curLanes c u).length ≤ 64) &&
        decide ((stage 3 32).cur.cntcp < 63)
      | none => false) = true := by
    revert i
    decide +kernel
  split at h
  · rename_i c u q f e
    simp only [Bool.and_eq_true, decide_eq_true_eq] at h
    obtain ⟨⟨⟨⟨h1, h2⟩, h3⟩, h4⟩, h5⟩ := h
    exact ⟨c, u, q, f, _, _, _, _, e, clear_of h1, map_okOf _ h2, fun k hk => by simpa using List.all_eq_true.1 h3 k hk, h4, h5⟩
  · cases h

theorem witness_TileWords :
    ∀ x ∈ [(Instr.accz p 4 5, stage 2 32), (.obld p 11 15, stage 2 32), (.mma p 11, stage 2 4), (.mmas p 12, stage 2 4),
        (.drain p 13, stage 2 4)],
      ∃ f w pc, ∃ ts : List Tile, tileForm x.1 = some f ∧ Clear f.c f.u x.2 w pc ∧ w.cnttl < 15 ∧
        let y := context f.c f.u x.2 w pc
        let lanes := if f.once then [y.first] else y.lanes
        lanes.map (f.tile y) = ts.map .ok ∧ ∀ k ∈ lanes, f.absent y k = false := by
  intro x hx
  have h : (match tileForm x.1 with
      | some f =>
        let y := context f.c f.u x.2 x.2.cur x.2.curPc
        let lanes := if f.once then [y.first] else y.lanes
        clearB f.c f.u x.2 && decide (x.2.cur.cnttl < 15) && lanes.all (fun k => (f.tile y k).isOk) && lanes.all (fun k => !f.absent y k)
      | none => false) = true := by
    revert x
    decide +kernel
  split at h
  · rename_i f e
    simp only [Bool.and_eq_true, decide_eq_true_eq] at h
    obtain ⟨⟨⟨h1, h2⟩, h3⟩, h4⟩ := h
    exact ⟨f, _, _, _, e, clear_of h1, h2, map_okOf _ h3, fun k hk => by simpa using List.all_eq_true.1 h4 k hk⟩
  · cases h

/-- A card of a CPYM that fills two lines at the end of the test launch's scratchpad. -/
def fillCard (st : JobState) (todo : List Nat) : Card :=
  ⟨7, 0, 3, 0, .cpym, 0, ⟨none, 0, [], false⟩, ⟨some 1, 0xFFF00, [], false⟩, 256, 1, 0, 256, 0x0123456789ABCDEF, [], st, todo, false,
    [0x1FFE, 0x1FFF], 0, 3, []⟩

/-- The stage with one card and its word outstanding. -/
def carded (st : JobState) (todo : List Nat) : State :=
  onCtx (onWave (stage 3 32) (fun w => { w with cpWords := [3] })) (fun c => { c with cards := [fillCard st todo] })

/-- The second burst of a card of two bursts, and the digest of a CPYD that has read its source: the page of the stage as source, the end of
its launch's scratchpad as destination. -/
def jobCard (kind : JobKind) (todo : List Nat) : Card :=
  { fillCard .running todo with
    kind := kind, src := if kind = .cpym then ⟨none, 0, [], false⟩ else ⟨none, 0x20000, [(0x20000, 0x10000, .mem 0x110000, 3)], false⟩,
    srcPitch := 256, absent := [] }

/-- The stage with such a card. -/
def jobStage (kind : JobKind) (todo : List Nat) : State := onCtx (stage 3 32) (fun c => { c with cards := [jobCard kind todo] })

/-- What `MayMove` asks. -/
def mayMoveB (s : State) (c : Ctx) (k : Card) (b : Nat) (todo : List Nat) : Bool :=
  s.served c k && s.turnOf (engineOf k.phys) == some k.phys && s.queueHeld c k && k.take b == some todo

theorem mayMove_of {s : State} {c : Ctx} {k : Card} {b : Nat} {todo : List Nat} (h : mayMoveB s c k b todo = true) : MayMove s c k b todo := by
  simp only [mayMoveB, Bool.and_eq_true, beq_iff_eq] at h
  exact ⟨h.1.1.1, h.1.1.2, h.1.2, h.2⟩

/-- Where the sectors of the second burst of `jobCard` lie. -/
def srcAt (i : Nat) : Place := (none, 0x110000 + 32 * i)
def dstAt (i : Nat) : Place := (some 1, 0xFFF00 + 32 * i)

theorem jobCard_sectors : ∀ kind ∈ [JobKind.cpym, .cpy, .cpyx], (jobCard kind [0, 1]).sectorsOf 1 = [4, 5, 6, 7] := by decide +kernel

theorem ok_of {r : Moved} (h : (match r.1 with | .ok _ _ => true | _ => false) = true) : ∃ s1 l got, r = (.ok s1 l, got) := by
  rcases r with ⟨a, got⟩
  cases a with
  | ok s1 l => exact ⟨s1, l, got, rfl⟩
  | wait s1 => cases h
  | refuse n v => cases h

theorem digest_of {x : Sector} (h : (match x with | .ok _ _ => true | _ => false) = true) : ∃ s1 l, x = .ok s1 l := by
  cases x with
  | ok s1 l => exact ⟨s1, l, rfl⟩
  | wait s1 => cases h
  | refuse n v => cases h

theorem reachable_of {s : State} {launch core a : Nat} (h : (s.ctx? launch core).isSome = true) : Reachable s launch (some core, a) :=
  fun _ e => by cases e; exact h

theorem witness_CopyEvents :
    (∃ (core job : Nat) (s : State) (c : Ctx) (k : Card), s.card? core job = some (c, k) ∧ s.ctx? c.launch c.core = some c ∧
      k.state = .waiting ∧ k.edges = []) ∧
    (∀ kind ∈ [JobKind.cpym, .cpy, .cpyx], ∃ (core job : Nat) (s : State) (c : Ctx) (k : Card) (b : Nat) (todo : List Nat) (s1 : State)
      (l : List Byte) (got : Cells (List Byte)) (sp dp : Nat → Place), s.card? core job = some (c, k) ∧ s.ctx? c.launch c.core = some c ∧
      MayMove s c k b todo ∧ b ≠ digestUnit ∧ k.kind = kind ∧ k.sectorsOf b = [4, 5, 6, 7] ∧
      (k.sectorsOf b).foldl (moveSector c k) (.ok s [], k.got) = (.ok s1 l, got) ∧
      (∀ i ∈ k.sectorsOf b, (k.kind ≠ .cpym → endPlace k.src (k.sector i).1 = some (sp i)) ∧ endPlace k.dst (k.sector i).2 = some (dp i) ∧
        Reachable s c.launch (dp i)) ∧
      ∀ i ∈ k.sectorsOf b, ∀ j ∈ k.sectorsOf b, (i ≠ j → Apart (dp i) (dp j) 32) ∧ (k.kind ≠ .cpym → Apart (sp i) (dp j) 32)) ∧
    (∃ (core job : Nat) (s : State) (c : Ctx) (k : Card) (b : Nat) (todo : List Nat) (s1 : State) (l : List Byte) (got : Cells (List Byte))
      (sp : Nat → Place), s.card? core job = some (c, k) ∧ s.ctx? c.launch c.core = some c ∧ MayMove s c k b todo ∧ b ≠ digestUnit ∧
      k.kind = .cpyd ∧ (k.sectorsOf b).foldl (moveSector c k) (.ok s [], k.got) = (.ok s1 l, got) ∧
      ∀ i ∈ k.sectorsOf b, endPlace k.src (k.sector i).1 = some (sp i)) ∧
    (∃ (core job : Nat) (s : State) (c : Ctx) (k : Card) (s1 : State) (l : List Byte) (dp : Place), s.card? core job = some (c, k) ∧
      s.ctx? c.launch c.core = some c ∧ MayMove s c k digestUnit [] ∧ writeDigest s c k = .ok s1 l ∧ endPlace k.dst 0 = some dp ∧
      Reachable s c.launch dp) ∧
    ∃ (core job : Nat) (s : State) (c : Ctx) (k : Card) (w : Wave), s.card? core job = some (c, k) ∧ s.ctx? c.launch c.core = some c ∧
      k.state = .running ∧ k.todo = [] ∧ s.wave? core k.slot = some w ∧ w.allExited = false ∧ w.cpWords = [k.word] ∧
      ∀ x ∈ c.cards, x.id ≠ job → ¬(x.slot = k.slot ∧ x.word = k.word) := by
  refine ⟨⟨1, 7, carded .waiting [0, 1], _, fillCard .waiting [0, 1], rfl, rfl, rfl, rfl⟩, fun kind hk => ?_, ?_, ?_,
    ⟨1, 7, carded .running [], _, fillCard .running [], _, rfl, rfl, rfl, rfl, rfl, rfl, rfl, fun x hx h => ?_⟩⟩
  · obtain ⟨s1, l, got, e⟩ := ok_of (r := ((jobCard kind [0, 1]).sectorsOf 1).foldl (moveSector ((jobStage kind [0, 1]).ctx 1 1) (jobCard kind [0, 1]))
      (.ok (jobStage kind [0, 1]) [], [])) (by revert kind; decide +kernel)
    refine ⟨1, 7, jobStage kind [0, 1], _, jobCard kind [0, 1], 1, [0], s1, l, got, srcAt, dstAt, rfl, rfl, mayMove_of ?_, by decide, rfl, ?_, e,
      fun i hi => ⟨?_, ?_, reachable_of rfl⟩, fun i hi j hj => ⟨?_, ?_⟩⟩
    · clear e; revert kind; decide +kernel
    · clear e; revert kind; decide +kernel
    all_goals
      clear e
      rw [jobCard_sectors kind hk] at hi
      try rw [jobCard_sectors kind hk] at hj
    · revert i kind; decide +kernel
    · revert i kind; decide +kernel
    · intro h
      unfold Apart
      clear hk
      revert i j; decide +kernel
    · intro _
      exact .inl (by simp [srcAt, dstAt])
  · obtain ⟨s1, l, got, e⟩ := ok_of (r := ((jobCard .cpyd [0, 1, digestUnit]).sectorsOf 1).foldl
      (moveSector ((jobStage .cpyd [0, 1, digestUnit]).ctx 1 1) (jobCard .cpyd [0, 1, digestUnit])) (.ok (jobStage .cpyd [0, 1, digestUnit]) [], []))
      (by decide +kernel)
    refine ⟨1, 7, jobStage .cpyd [0, 1, digestUnit], _, jobCard .cpyd [0, 1, digestUnit], 1, [0, digestUnit], s1, l, got, srcAt, rfl, rfl,
      mayMove_of (by decide +kernel), by decide, rfl, e, ?_⟩
    decide +kernel
  · obtain ⟨s1, l, e⟩ := digest_of (x := writeDigest (jobStage .cpyd [digestUnit]) ((jobStage .cpyd [digestUnit]).ctx 1 1) (jobCard .cpyd [digestUnit]))
      (by decide +kernel)
    exact ⟨1, 7, jobStage .cpyd [digestUnit], _, jobCard .cpyd [digestUnit], s1, l, dstAt 0, rfl, rfl, mayMove_of (by decide +kernel), e,
      by decide +kernel, reachable_of rfl⟩
  · simp only [List.mem_singleton] at hx
    exact absurd (by rw [hx]; rfl) h

/-- The stage with one tile operation. -/
def tiled (k : TileKind) : State :=
  onCtx (onWave (stage 2 4) (fun w => { w with tlWords := [3] })) (fun c => { c with tiles := [⟨9, 0, 3, 0, k, [(1, 1), (1, 2)], [0], 0, 0, 0⟩] })

/-- The same with metadata at 0x9000 that names two kept positions of each group. -/
def sparseStage : State :=
  onCtx (tiled (.mma true (wordsOf 8 ((stage 2 4).readPad 1 1 0x8100 64)))) (fun c => { c with
    pad := c.pad ++ [(0x9000, 0x44), (0x9001, 0x44), (0x9002, 0x44), (0x9003, 0x44)] })

/-- Drains of the accumulator of 16 rows and columns: in F32 with SR to scratchpad, in E4M3 with scale bytes to scratchpad, of two rows in F32
to memory. -/
def drains : List TileKind :=
  [.drain (wordsOf 8 ((stage 2 4).readPad 1 1 0x8200 64)) ⟨some 1, 0xA000, [], false⟩ ⟨none, 0, [], false⟩ 5,
   .drain [0, 0x30C00100010 + 0x8000000000, 0xA000, 0x1000000040, 0xB000] ⟨some 1, 0xA000, [], false⟩ ⟨some 1, 0xB000, [], false⟩ 5,
   .drain [0, 0x900100002, 0x20000, 0x40, 0] ⟨none, 0x20000, [(0x20000, 0x10000, .mem 0x110000, 3)], false⟩ ⟨none, 0, [], false⟩ 5]

/-- The places of some stores. -/
def placesOf (l : List (JobEnd × Nat × List Byte)) : List Place := l.filterMap (fun x => endPlace x.1 x.2.1)

theorem allReachable_of {s : State} {n : Nat} {ps : List Place} (h : ps.all (fun p => p.1.all (fun c => (s.ctx? n c).isSome)) = true) :
    ∀ p ∈ ps, Reachable s n p := by
  intro p hp c hc
  simpa [hc] using List.all_eq_true.mp h p hp

theorem placesOf_some {l : List (JobEnd × Nat × List Byte)} (h : l.all (fun x => (endPlace x.1 x.2.1).isSome) = true) :
    l.map (fun x => endPlace x.1 x.2.1) = (placesOf l).map some := by
  induction l with
  | nil => rfl
  | cons x l ih =>
    simp only [List.all_cons, Bool.and_eq_true] at h
    obtain ⟨p, hp⟩ := Option.isSome_iff_exists.mp h.1
    simp [placesOf, hp, ih h.2]

theorem over_of {r : TileRes} (h : (match r.out with | .over => true | _ => false) = true) : r = ⟨r.s, r.fl, .over⟩ := by
  rcases r with ⟨s, fl, out⟩
  cases out <;> first | rfl | cases h

/-- The metadata at 0x9000 of the MMAS block of the stage: its first byte holds 0, which names the same kept position twice. -/
theorem witness_TileEvents :
    (∀ k ∈ [TileKind.accz 0 15 1, .obld 1 0xB000 2 0 1 [1]], ∃ (core op : Nat) (s : State) (c : Ctx) (u : TileOp), s.tile? core op = some (c, u) ∧
      s.ctx? c.launch c.core = some c ∧ s.tileFree c u = true ∧ u.kind = k ∧ (c.alloc? 0).isSome = true ∧ (c.resv? 1).isSome = true) ∧
    (∀ sparse ∈ [true, false], ∃ (core op : Nat) (s : State) (c : Ctx) (u : TileOp) (l : List Word) (ra rb : Reservation) (al : Alloc) (w : Wave),
      s.tile? core op = some (c, u) ∧ s.ctx? c.launch c.core = some c ∧ s.tileFree c u = true ∧ u.kind = .mma sparse l ∧ s.tileBad c u = none ∧
      let b := MmaBlock.ofWords l
      c.resv? b.rida = some ra ∧ c.resv? b.ridb = some rb ∧ c.alloc? b.handle = some al ∧ b.col0 + b.n ≤ al.pitch ∧
      s.wave? c.core u.slot = some w) ∧
    (∀ k ∈ drains, ∃ (core op : Nat) (s : State) (c : Ctx) (u : TileOp) (l : List Word) (dst sdst : JobEnd) (n : Nat) (al : Alloc) (w : Wave)
      (s1 : State) (fl : Flags), s.tile? core op = some (c, u) ∧ s.ctx? c.launch c.core = some c ∧ s.tileFree c u = true ∧
      u.kind = k ∧ u.kind = .drain l dst sdst n ∧ u.rowsDone = 0 ∧ u.sent = 0 ∧ u.flags = 0 ∧ s.doTile c u = ⟨s1, fl, .over⟩ ∧
      s.wave? c.core u.slot = some w ∧
      let b := DrainBlock.ofWords l
      c.alloc? b.handle = some al ∧ b.col0 + b.cols ≤ al.pitch ∧ b.cols * b.ty.bits % 8 = 0 ∧ b.rowBytes ≤ b.epitch ∧
      (∀ pc, dst.pad = some pc → (s.ctx? c.launch pc).isSome = true ∧ (b.mx = true → sdst.pad = some pc ∧ b.scaleRow ≤ b.spitch ∧
        dst.addr + b.rows * b.epitch ≤ sdst.addr)) ∧
      ∃ ps : List Place,
        let st := (List.range b.rows).flatMap (fun r => drainStores b dst sdst r (drainedRow s c u w.wid n b al r))
        st.map (fun x => endPlace x.1 x.2.1) = ps.map some ∧ (∀ p ∈ ps, Reachable s c.launch p) ∧
        (ps.zip (st.map (fun x => x.2.2))).Pairwise StoresApart) ∧
    ∃ (core op : Nat) (s : State) (c : Ctx) (u : TileOp) (a : Word) (w : Wave), s.tile? core op = some (c, u) ∧ s.ctx? c.launch c.core = some c ∧ s.tileFree c u = true ∧
      s.tileBad c u = some a ∧ s.wave? c.core u.slot = some w ∧ w.launch = c.launch ∧ w.allExited = false := by
  refine ⟨fun k hk => ⟨1, 9, tiled k, _, _, rfl, rfl, ?_, rfl, rfl, rfl⟩, fun sparse hs => ?_, fun k hk => ?_,
    ⟨1, 9, tiled (.mma true (wordsOf 8 ((stage 2 4).readPad 1 1 0x8100 64))), _, _, _, _, rfl, rfl, by decide +kernel,
      (Option.some_get (by decide +kernel)).symm, rfl, rfl, rfl⟩⟩
  · revert k; decide +kernel
  · cases sparse with
    | true => exact ⟨1, 9, sparseStage, _, _, _, _, _, _, _, rfl, rfl, by decide +kernel, rfl, by decide +kernel,
        (Option.some_get (by decide +kernel)).symm, (Option.some_get (by decide +kernel)).symm, (Option.some_get (by decide +kernel)).symm,
        by decide +kernel, rfl⟩
    | false => exact ⟨1, 9, tiled (.mma false (wordsOf 8 ((stage 2 4).readPad 1 1 0x8000 64))), _, _, _, _, _, _, _, rfl, rfl,
        by decide +kernel, rfl, by decide +kernel, (Option.some_get (by decide +kernel)).symm, (Option.some_get (by decide +kernel)).symm,
        (Option.some_get (by decide +kernel)).symm, by decide +kernel, rfl⟩
  · simp only [drains, List.mem_cons, List.not_mem_nil, or_false] at hk
    rcases hk with rfl | rfl | rfl <;>
      exact ⟨1, 9, tiled _, _, _, _, _, _, _, _, _, _, _, rfl, rfl, by decide +kernel, rfl, rfl, rfl, rfl, rfl, over_of (by decide +kernel), rfl,
        (Option.some_get (by decide +kernel)).symm, by decide +kernel, by decide +kernel, by decide +kernel,
        fun pc h => by cases h <;> exact ⟨by decide +kernel, by decide +kernel⟩, _, placesOf_some (by decide +kernel), allReachable_of (by decide +kernel),
        by decide +kernel⟩

/-! ### Steps -/

theorem witness_EncodedInstructionDecodes : ∃ (i : Instr) (x : Nat), wellFormed i = true ∧ encode i = some x :=
  ⟨.bra p (-24) .none, 0x0040_3FFF_FFA0_0000, by decide +kernel, by decide +kernel⟩

theorem witness_DecodedWordIsItsEncoding : ∃ (x : Word) (i : Instr), decode x = .ok i :=
  ⟨0x0040_3FFF_FFA0_0000, .bra p (-24) .none, by decide +kernel⟩

/-- A wave before `IADD.S16X4.SAT v5, v6, s3` (the example of spec/10), with an agenda. -/
def stepStage (l : List Move) : State := (State.reset.place 0x0D00_0286_0602_8400).setAgenda l

/-- The first wave that may issue in quadrant 0 of core 1. -/
def firstWave (s : State) : Wave := (s.candidates 1 0).headD Wave.blank

/-- The instruction at the wave of `stepStage`. -/
def satWord : Instr := .iadd p 5 6 (.s 3) .s16x4 true

theorem error_of {ε α : Type} {x : Except ε α} (h : x.isOk = false) : ∃ e, x = .error e := by
  cases x with
  | error e => exact ⟨e, rfl⟩
  | ok a => cases h

/-- What a fetch leaves when it goes. -/
def fetched (s : State) (w : Wave) (pc : CodeAddr) : State :=
  match s.fetchGoes w pc with
  | .ok g => g
  | .error g => g

theorem fetchGoes_ok {s : State} {w : Wave} {pc : CodeAddr} (h : (s.fetchGoes w pc).isOk = true) : s.fetchGoes w pc = .ok (fetched s w pc) := by
  unfold fetched
  cases e : s.fetchGoes w pc with
  | ok g => rfl
  | error g => rw [e] at h; cases h

/-- The stage where the tenant's bucket at each slice is empty. -/
def dryStage : State := onTenant (stepStage [.issue 1 0]) (fun t => { t with slbw := [(0, 1)] })

theorem witness_StepRunsDecodedInstruction :
    (∃ (s s1 g : State) (core quad : Nat) (rest : List Move) (w : Wave) (others : List Wave) (pc : CodeAddr) (x : Word) (i : Instr),
      s.ctl.power = true ∧ s.ctl.agenda = .issue core quad :: rest ∧ (s.setAgenda rest).boundaries core quad = s1 ∧
      (s1.quad core quad).busyUntil ≤ s1.ctl.cycle ∧ s1.candidates core quad = w :: others ∧ w.nextPc = some pc ∧
      s1.fetch w pc = .ok x ∧ s1.fetchGoes w pc = .ok g ∧ decode x = .ok i) ∧
    (∃ (s s1 g t : State) (w : Wave) (others : List Wave) (pc : CodeAddr) (x : Word) (i : Instr),
      s.ctl.power = true ∧ s.ctl.agenda = [] ∧ s.boundaries s.ctl.focus.core s.ctl.focus.quad = s1 ∧
      (s.quad s.ctl.focus.core s.ctl.focus.quad).busyUntil ≤ s.ctl.cycle ∧
      (s1.quad s.ctl.focus.core s.ctl.focus.quad).busyUntil ≤ s1.ctl.cycle ∧
      s1.candidates s.ctl.focus.core s.ctl.focus.quad = w :: others ∧ w.nextPc = some pc ∧ s1.fetch w pc = .ok x ∧
      s1.fetchGoes w pc = .ok g ∧ decode x = .ok i ∧
      exec i ((g.fetchFills w pc).setFocus w.core w.slot) = .next t ∧ issuedNow w t = true ∧
      s.ctl.cycle < (t.quad s.ctl.focus.core s.ctl.focus.quad).busyUntil) ∧
    ∃ (s s1 g : State) (core quad : Nat) (rest : List Move) (w : Wave) (others : List Wave) (pc : CodeAddr),
      s.ctl.power = true ∧ s.ctl.agenda = .issue core quad :: rest ∧ (s.setAgenda rest).boundaries core quad = s1 ∧
      (s1.quad core quad).busyUntil ≤ s1.ctl.cycle ∧ s1.candidates core quad = w :: others ∧ w.nextPc = some pc ∧
      s1.fetchGoes w pc = .error g := by
  obtain ⟨g, hg⟩ := error_of (x := ((dryStage.setAgenda []).boundaries 1 0).fetchGoes (firstWave (dryStage.setAgenda [])) 0x10000) (by decide +kernel)
  refine ⟨⟨stepStage [.issue 1 0], (stepStage []).boundaries 1 0, _, 1, 0, [], firstWave (stepStage []), [], 0x10000, 0x0D00_0286_0602_8400,
      satWord, ?_, ?_, ?_, ?_, ?_, ?_, ?_, fetchGoes_ok ?_, ?_⟩,
    ⟨stepStage [], (stepStage []).boundaries 1 0, _, after satWord
        (((fetched ((stepStage []).boundaries 1 0) (firstWave (stepStage [])) 0x10000).fetchFills (firstWave (stepStage [])) 0x10000).setFocus 1 0),
      firstWave (stepStage []), [], 0x10000, 0x0D00_0286_0602_8400, satWord, ?_, ?_, ?_, ?_, ?_, ?_, ?_, ?_, fetchGoes_ok ?_, ?_, ?_, ?_, ?_⟩,
    ⟨dryStage, (dryStage.setAgenda []).boundaries 1 0, g, 1, 0, [], firstWave (dryStage.setAgenda []), [], 0x10000, ?_, ?_, ?_, ?_, ?_, ?_, hg⟩⟩ <;>
    first | decide +kernel | rfl

theorem witness_StepRunsEvent :
    (∃ (s : State) (i : Instr) (rest : List Move), (s.ctl.power = true ∨ s.poweringOn = true) ∧ s.ctl.agenda = .event i :: rest ∧ isEvent i = true) ∧
    (∃ (s : State) (n : Nat) (rest : List Move), s.ctl.power = true ∧ s.ctl.agenda = .elapse n :: rest) ∧
    ∃ s : State, s.ctl.power = false ∧ ∀ l rest, s.ctl.agenda ≠ .event (.powerOn l) :: rest :=
  ⟨⟨stepStage [.event (.memoryError 0 true)], _, [], .inl rfl, rfl, by decide +kernel⟩, ⟨stepStage [.elapse 5], 5, [], rfl, rfl⟩,
    ⟨after .powerOff State.reset, rfl, fun l rest h => by cases h⟩⟩

theorem witness_StepKeepsMemoryForm : ∃ s t : State, Memory.wf s.mem.bytes = true ∧ cellWf Frame.free s.mem.frames = true ∧ step s = .next t :=
  ⟨stepStage [.elapse 5], _, by decide +kernel, by decide +kernel, rfl⟩

/-! ### The host, launches and their records -/

/-- A frame of the stage changed. -/
def onFrame (s : State) (m : Nat) (f : Frame → Frame) : State := s.setFrame m (f (s.frame m))

/-- The stage after 16,384 cycles, with the functions of die 0's first memory stack, its cores and the key unit
ready, every host event claimed, and the tenant's command window in frame 16 with HOST set there and in frame 17. -/
def hostStage : State :=
  let s := onFrame (onFrame (stage 3 32) 16 (fun f => { f with host := true })) 17 (fun f => { f with host := true })
  { s with
    ctl := { s.ctl with cycle := 16384 },
    dev := { s.dev with readiness := [(1, 0x8000000000000000), (9, 0x8000000000000000), (33, 0x8000000000000000)], claimHost := 0xFFFF } }

/-- The same with its tenant's frame 17 handed to the host. -/
def handedStage : State := onFrame hostStage 17 (fun f => { f with owner := 0 })

/-- A class-1 batch of two lanes in slot 3 of the tenant's class-1 frame, its code 1 (Table 21-5). -/
def class1Stage : State :=
  let s := (stage 3 32).deviceStore 0x121818 (bytesOf 8 1)
  { s with tasks := { s.tasks with batches := [⟨1, 1, 3, 1, 0, 4, [0, 2], false, false, none⟩] } }

/-- A class-2 batch in slot 0 of the tenant's class-2 frame, which the host may write (R344). -/
def class2Stage : State :=
  let s := onFrame hostStage 19 (fun f => { f with owner := 1, host := true })
  { s with tasks := { s.tasks with batches := [⟨1, 2, 0, 1, 0, 4, [0, 2], false, false, none⟩] } }

theorem witness_HostEvents :
    (∀ x ∈ [(0x100040, true), (0x200040, false)], ∃ (s : State) (ma : Nat), s.hostMay (mfnOf ma) = x.2 ∧ ma = x.1) ∧
    (∀ x ∈ [(0x100040, true, false), (0x200040, false, false), (0x110000, true, true)],
      ∃ (s : State) (ma : Nat), s.hostMay (mfnOf ma) = x.2.1 ∧ s.serviceOnly (mfnOf ma) = x.2.2 ∧ ma = x.1) ∧
    (∃ (s : State) (ma n c k : Nat) (b : Batch), s.hostMay (mfnOf ma) = true ∧ s.serviceOnly (mfnOf ma) = false ∧ s.batch? n c k = some b ∧
      c = 2 ∧ b.answered = none ∧ ma ≤ slotAddr (s.tenant n) 2 k + 0x640 ∧ slotAddr (s.tenant n) 2 k + 0x648 ≤ ma + 64) ∧
    (∃ (s : State) (ma : Nat) (corrected : Bool), (s.frame (mfnOf ma)).owner ≠ 0 ∧ s.bound (s.frame (mfnOf ma)).owner = true ∧
      s.dev.claimHost.getLsbD (if corrected then 1 else 2) = true) ∧
    (∃ (s : State) (t slot : Nat) (b : Batch), s.batch? t 1 slot = some b ∧ b.lanes.length ≤ 32 ∧
      s.readWord (slotAddr (s.tenant t) 1 slot + 0x640) = 0 ∧ bits (s.readWord (slotAddr (s.tenant t) 1 slot + 24)).toNat 15 0 = 1) ∧
    (∀ h ∈ [true, false], ∃ (s : State) (t tfn : Nat) (e : PlaceEntry), (s.tenant t).place? .frame tfn = some e ∧ e.phys < 2 ^ 24 ∧
      (s.frame e.phys).prot = false ∧ (s.frame e.phys).incs < 255 ∧
      (if h then (s.frame e.phys).owner = t else (s.frame e.phys).owner = 0 ∧ (s.frame e.phys).host = true)) ∧
    ∃ s : State, cellWf Frame.free s.mem.frames = true ∧ cellWf (⟨0, 0⟩ : UnitGen) s.cores.gens = true ∧ s.cores.gens ≠ [] := by
  refine ⟨fun x hx => ⟨hostStage, x.1, ?_, rfl⟩, fun x hx => ⟨hostStage, x.1, ?_, ?_, rfl⟩,
    ⟨class2Stage, 0x130640, 1, 2, 0, ⟨1, 2, 0, 1, 0, 4, [0, 2], false, false, none⟩, by decide +kernel, by decide +kernel, by decide +kernel, rfl, rfl,
      by decide +kernel, by decide +kernel⟩,
    ⟨hostStage, 0x100040, true, by decide +kernel, by decide +kernel, by decide +kernel⟩,
    ⟨class1Stage, 1, 3, ⟨1, 1, 3, 1, 0, 4, [0, 2], false, false, none⟩, by decide +kernel, by decide, by decide +kernel, by decide +kernel⟩,
    fun h hh => ⟨if h then hostStage else handedStage, 1, 1, ⟨.frame, 1, 17, false⟩, ?_, ?_, ?_, ?_, ?_⟩,
    ⟨{ hostStage with cores := { hostStage.cores with gens := [(5, ⟨1, 1⟩)] } }, by decide +kernel, by decide +kernel, by decide⟩⟩
  · revert x; decide +kernel
  · revert x; decide +kernel
  · revert x; decide +kernel
  all_goals revert h; decide +kernel

/-- The host's stage with a completion ring, and NEXTSUB, 1, in slot 2 of the command window. -/
def windowStage : State :=
  (onTenant hostStage (fun t => { t with crsize := 8 })).deviceStore 0x100400 (bytesOf 8 1)

/-- The host's stage with its launch ready for admission and nothing on the cores; its tables are checked, or the given words of them are
read. -/
def admitStage (read : Bool) (words : List (Option Word)) : State :=
  let s := onLaunch hostStage (fun l => { l with
    phase := .ready, wavesRead := read, tabWords := words, tstart := 0, eligibleAt := some 3, readySince := some 3 })
  { s with cores := { s.cores with waves := [], ctxs := [] } }

/-- Word 15 of the test launch's record gives KEYLIM 5 (R59); its launch waits for a key since 2 microseconds, and no slot is free. -/
def keywaitStage : State :=
  let s := onLaunch hostStage (fun l => { l with phase := .keywait 2, record := l.record.set 15 5 })
  { s with tasks := { s.tasks with
    keySlots := (List.range 64).map (fun k => (k, { KeySlot.empty with state := .active })), keyQueue := [1] } }

/-- The launch unseals the key of slot 4. -/
def unsealStage : State :=
  let s := onLaunch hostStage (fun l => { l with phase := .keyWaiting 4 })
  { s with tasks := { s.tasks with keySlots := [(4, ⟨.unsealing, 1, 9, [], [], [], 1, [1]⟩)] } }

/-- A launch whose turn has come. -/
structure InTurn (s : State) (uid : Nat) : Prop where
  ready : (s.launch uid).phase = .ready
  going : (s.launch uid).endInfo = none
  awake : (s.tenant (s.launch uid).tenant).suspended = false
  turn : s.turn (s.launch uid) = true

theorem inTurn_of {s : State} (h : ((s.launch 1).phase == .ready && (s.launch 1).endInfo.isNone &&
    !(s.tenant (s.launch 1).tenant).suspended && s.turn (s.launch 1)) = true) : InTurn s 1 := by
  simp only [Bool.and_eq_true, Bool.not_eq_true', beq_iff_eq, Option.isNone_iff_eq_none] at h
  exact ⟨h.1.1.1, h.1.1.2, h.1.2, h.2⟩

/-- The tables of the launch 1 of a state, where they pass. -/
def tablesOf (s : State) : Tables :=
  match s.tablePass (s.launch 1) with
  | .ok t => t
  | .error _ => ⟨[], [], [], []⟩

theorem tablesOf_ok {s : State} (h : (s.tablePass (s.launch 1)).isOk = true) : s.tablePass (s.launch 1) = .ok (tablesOf s) := by
  unfold tablesOf
  cases e : s.tablePass (s.launch 1) with
  | ok t => rfl
  | error n => rw [e] at h; cases h

theorem witness_AdmissionEvents :
    (∀ b ∈ [true, false], ∃ (s : State) (t slot : Nat), s.bound t = true ∧ slot < 128 ∧ s.hostMay (mfnOf (cwSlot (s.tenant t) slot)) = true ∧
      ((s.tenant t).crsize < 6 ↔ b = true)) ∧
    (∃ (s : State) (t i : Nat), s.bound t = true ∧ 6 ≤ (s.tenant t).crsize ∧ (s.tenant t).crsize ≤ 16 ∧ s.qdepth t < 4096 ∧ i < 128 ∧
      (s.readWord (cwSlot (s.tenant t) i)).toNat = (s.tenant t).nextsub ∧
      ∀ j < i, (s.readWord (cwSlot (s.tenant t) j)).toNat ≠ (s.tenant t).nextsub) ∧
    (∀ n ∈ [0, 1], ∃ (s : State) (uid : Nat), InTurn s uid ∧ (s.launch uid).wavesRead = false ∧ (s.launch uid).tablesIn = false ∧
      (s.launch uid).tabWords.length = n) ∧
    (∃ (s : State) (uid n : Nat), InTurn s uid ∧ (s.launch uid).wavesRead = false ∧ (s.launch uid).tablesIn = true ∧
      s.tablePass (s.launch uid) = .error n) ∧
    (∃ (s : State) (uid : Nat) (tb : Tables), InTurn s uid ∧ (s.launch uid).wavesRead = false ∧ (s.launch uid).tablesIn = true ∧
      s.tablePass (s.launch uid) = .ok tb) ∧
    (∃ (s : State) (uid : Nat) (slots : List Nat) (save : Nat), InTurn s uid ∧ (s.launch uid).wavesRead = true ∧ s.fitsNow (s.launch uid) = true ∧
      s.slotsOk (s.launch uid) slots = true ∧ s.saveOk save (placesAt (s.launch uid).waves).length = true ∧ (s.launch uid).tstart = 0 ∧
      (s.launch uid).waves.length = 1) ∧
    (∃ (s : State) (uid e : Nat), (s.launch uid).phase = .ready ∧ (s.tenant (s.launch uid).tenant).reslim ≠ 0 ∧
      (s.launch uid).readySince = some e ∧ 1000 * (s.tenant (s.launch uid).tenant).reslim < s.elapsed (s.launch uid).tenant e) ∧
    (∃ (s : State) (uid since : Nat), (s.launch uid).phase = .keywait since ∧ (s.launch uid).keylim ≠ 0 ∧
      1000 * (s.launch uid).keylim ≤ s.elapsed (s.launch uid).tenant since ∧ s.freeKey = none ∧ (s.launch uid).endInfo = none) ∧
    ∃ (s : State) (k uid : Nat), (s.keySlot k).state = .unsealing ∧ (s.keySlot k).unsealer = uid ∧ (s.keySlot k).waiters = [uid] ∧
      Known s uid ∧ (s.launch uid).endInfo = none ∧ s.tasks.keyQueue = [] := by
  refine ⟨fun b hb => ⟨if b then hostStage else windowStage, 1, 7, ?_, by decide, ?_, ?_⟩,
    ⟨windowStage, 1, 2, by decide +kernel, by decide +kernel, by decide +kernel, by decide +kernel, by decide, by decide +kernel,
      by decide +kernel⟩,
    fun n hn => ⟨admitStage false (List.replicate n (some 0)), 1, inTurn_of ?_, ?_, ?_, ?_⟩,
    ⟨admitStage false [none, some 0], 1, 4, inTurn_of (by decide +kernel), by decide +kernel, by decide +kernel, rfl⟩,
    ⟨admitStage false [some 0, some 0], 1, tablesOf _, inTurn_of (by decide +kernel), by decide +kernel, by decide +kernel,
      tablesOf_ok (by decide +kernel)⟩,
    ⟨admitStage true [], 1, [5], 0x40000000, inTurn_of (by decide +kernel), by decide +kernel, by decide +kernel, by decide +kernel,
      by decide +kernel, by decide +kernel, by decide +kernel⟩,
    ⟨onTenant (admitStage true []) (fun t => { t with reslim := 2 }), 1, 3, by decide +kernel, by decide +kernel, by decide +kernel, by decide +kernel⟩,
    ⟨keywaitStage, 1, 2, by decide +kernel, by decide +kernel, by decide +kernel, by decide +kernel, by decide +kernel⟩,
    ⟨unsealStage, 4, 1, by decide +kernel, by decide +kernel, by decide +kernel, ⟨_, List.mem_cons_self .., rfl⟩, by decide +kernel, rfl⟩⟩
  all_goals first | (revert n; decide +kernel) | (revert b; decide +kernel)

/-- The host's stage with its pure launch queued and eligible: the header of its code object is at
0x20200; it has no channel and no ring; its lookup has stamped it, and words of its tables are read. -/
def pureStage (v0 : List Nat) (words : List (Option Word)) : State :=
  onLaunch hostStage (fun l => { l with
    phase := .queued, wavesRead := false, eligibleAt := some 3, v0 := v0, tabWords := words,
    record := ((((l.record.set 1 0x100000001).set 3 0x20200).set 7 0x20100).set 8 0).set 9 0 })

/-- With its lookup begun and its tables read. -/
def readStage : State := pureStage (List.replicate 8 1) [some 0]

/-- Its launch as it is looked up, and the first eight words of its code object. -/
def pureLaunch (s : State) : Launch := { (s.launch 1).withTables (tablesOf s) with looked := true }

def pureHead (s : State) : Option (List Word) := (s.setLaunch (pureLaunch s)).tenantWords 1 none 0x20200 8

/-- With an entry of the launch's key, valid and with no outputs. -/
def hitStage : State :=
  let s := readStage
  { s with tasks := { s.tasks with reuse := [⟨1, (pureLaunch s).keyOf 0 [0], none, 0, [], 0, List.replicate 8 1⟩] } }

/-- The launch digests input region 0, at `va`. -/
def digestStage (va : Word) : State :=
  onLaunch hostStage (fun l => { l with phase := .digesting [0] [7], record := ((l.record.set 1 0x100000001).set 18 va).set 19 32 })

/-- The launch copies an entry's 32 bytes at 0x20000 to its output at 0x20100. -/
def copyStage : State :=
  onLaunch hostStage (fun l => { l with
    phase := .copying [(0x20000, 0x20100)], hitEntry := some ⟨1, 0, none, 0, [(0x20000, 32)], 0, List.replicate 8 5⟩,
    record := ((l.record.set 9 0x1000000000).set 34 0x20100).set 35 32 })

/-- A launch that its lookup waits for. -/
structure Looks (s : State) (uid : Nat) : Prop where
  queued : (s.launch uid).phase = .queued
  eligible : (s.launch uid).eligibleAt.isSome = true
  pure : (s.launch uid).pure = true
  fresh : (s.launch uid).looked = false
  bare : (s.launch uid).prot = false
  going : (s.launch uid).endInfo = none

theorem pure_looks {s : State} (h : ((s.launch 1).phase == .queued && (s.launch 1).eligibleAt.isSome && (s.launch 1).pure &&
    !(s.launch 1).looked && !(s.launch 1).prot && (s.launch 1).endInfo.isNone) = true) : Looks s 1 := by
  simp only [Bool.and_eq_true, Bool.not_eq_true', beq_iff_eq, Option.isNone_iff_eq_none] at h
  obtain ⟨⟨⟨⟨⟨a, b⟩, c⟩, d⟩, e⟩, f⟩ := h
  exact ⟨a, b, c, d, e, f⟩

theorem witness_ReuseEvents :
    (∃ (s : State) (uid : Nat), Looks s uid ∧ (s.launch uid).v0 = []) ∧
    (∃ (s : State) (uid : Nat), Looks s uid ∧ (s.launch uid).v0 ≠ [] ∧ (s.launch uid).tablesIn = false) ∧
    (∃ (s : State) (uid : Nat) (tb : Tables), Looks s uid ∧ (s.launch uid).v0 ≠ [] ∧ (s.launch uid).tablesIn = true ∧
      s.tablePass (s.launch uid) = .ok tb ∧ (s.launch uid).nin = 0 ∧ s.tasks.reuse = []) ∧
    (∃ (s : State) (uid : Nat) (tb : Tables) (e : Reuse) (h : List Word), Looks s uid ∧ (s.launch uid).v0 ≠ [] ∧
      (s.launch uid).tablesIn = true ∧ s.tablePass (s.launch uid) = .ok tb ∧ (s.launch uid).nin = 0 ∧
      let l := { (s.launch uid).withTables tb with looked := true }
      (s.setLaunch l).tenantWords l.tenant l.slotHeld l.codeobj 8 = some h ∧ s.tasks.reuse = [e] ∧
      (l.outs ++ l.scrs).any (fun r => ((s.setLaunch l).regionFrames l.tenant aRD r).isNone) = false ∧
      e.fits l (l.keyOf (s.tenant l.tenant).salt.toNat [(h.getD 6 0).toNat + 2 ^ 64 * (h.getD 7 0).toNat]) = true ∧
      e.epoch = (s.tenant l.tenant).epoch ∧ e.outs = [] ∧ l.nout = 0) ∧
    (∃ (s : State) (uid n : Nat), Looks s uid ∧ (s.launch uid).v0 ≠ [] ∧ (s.launch uid).tablesIn = true ∧
      s.tablePass (s.launch uid) = .error n) ∧
    (∀ x ∈ [(0x20000, true), (0x70000, false)], ∃ (s : State) (uid r : Nat) (found : List Nat), (s.launch uid).phase = .digesting [r] found ∧
      s.recordEvent.1.tasks.reuse = [] ∧ (s.launch uid).inRegion r = (x.1, 32) ∧
      (streamRegion (s.launch uid).tenant (s.launch uid).slotHeld 1 x.1 s.recordEvent.1 []).isSome = x.2) ∧
    (∃ (s : State) (uid : Nat) (e : Reuse) (a b : Nat) (ea eb : Tlb) (ma mb : Nat), (s.launch uid).phase = .copying [(a, b)] ∧
      (s.launch uid).endInfo = none ∧ (s.launch uid).outs = [(b, 32)] ∧ (s.launch uid).hitEntry = some e ∧ a ≠ b ∧
      s.unwritten (s.launch uid).tenant e.stamps (a, 32) = true ∧
      s.tenantEntry (s.launch uid).tenant a aRD = some ea ∧ isProt ea.attr = false ∧ ea.loc a = .mem ma ∧
      s.tenantEntry (s.launch uid).tenant b aWR = some eb ∧ isProt eb.attr = false ∧ eb.loc b = .mem mb) ∧
    ∃ s : State, s.clockFull = true ∧ cellWf Frame.free s.mem.frames = true := by
  refine ⟨⟨pureStage [] [], 1, pure_looks (by decide +kernel), rfl⟩,
    ⟨pureStage [1] [], 1, pure_looks (by decide +kernel), by decide +kernel, by decide +kernel⟩,
    ⟨readStage, 1, tablesOf _, pure_looks (by decide +kernel), by decide +kernel, by decide +kernel, tablesOf_ok (by decide +kernel),
      by decide +kernel, rfl⟩,
    ⟨hitStage, 1, tablesOf _, _, (pureHead hitStage).getD [], pure_looks (by decide +kernel), by decide +kernel, by decide +kernel,
      tablesOf_ok (by decide +kernel), by decide +kernel, by decide +kernel, rfl, by decide +kernel, by decide +kernel, by decide +kernel,
      rfl, by decide +kernel⟩,
    ⟨pureStage [1] [none], 1, 4, pure_looks (by decide +kernel), by decide +kernel, by decide +kernel, rfl⟩,
    fun x hx => ⟨digestStage (BitVec.ofNat 64 x.1), 1, 0, [7], ?_, ?_, ?_, ?_⟩,
    ⟨copyStage, 1, ⟨1, 0, none, 0, [(0x20000, 32)], 0, List.replicate 8 5⟩, 0x20000, 0x20100, ⟨0, 0, 1, 2, 1, 17, 3⟩, ⟨0, 0, 1, 2, 1, 17, 3⟩,
      0x110000, 0x110100, by decide +kernel, by decide +kernel, by decide +kernel, by decide +kernel, by decide,
      by decide +kernel, by decide +kernel, by decide +kernel, by decide +kernel, by decide +kernel, by decide +kernel, by decide +kernel⟩,
    ⟨{ hostStage with mem := { hostStage.mem with wclock := [1, 0xFFFFFFFFFFFF, 1, 1, 1, 1, 1, 1] } }, by decide +kernel, by decide +kernel⟩⟩
  all_goals revert x; decide +kernel

/-- The tenant of the host's stage with one record of eight words on each list, its completion ring at ring index 70 of 64, and CMODN. -/
def ringStage (crcons evcons cmodn : Nat) : State :=
  onTenant hostStage (fun t => { t with
    crsize := 6, crprod := 70, crcons := crcons, crbase := 0x110000, evsize := 6, evprod := 70, evcons := evcons, evbase := 0x118000,
    cmodn := cmodn, oldestUnsignalled := some 4, records := [⟨[1, 2, 3, 4, 5, 6, 7, 8]⟩], events := [⟨[8, 7, 6, 5, 4, 3, 2, 1]⟩] })

theorem frame_listed (d : Frame) : ∀ (l : Cells Frame) (m : Nat), cellGet d l m = d ∨ ∃ p ∈ l, p.2 = cellGet d l m
  | [], _ => .inl rfl
  | (k, v) :: l, m => by
    by_cases h : m = k
    · exact .inr ⟨(k, v), List.mem_cons_self .., by simp [cellGet, h]⟩
    · rcases frame_listed d l m with e | ⟨p, hp, e⟩
      · exact .inl (by simp [cellGet, h, e])
      · exact .inr ⟨p, List.mem_cons_of_mem _ hp, by simp [cellGet, h, e]⟩

theorem ringStage_plain (m : Nat) : ((ringStage 10 10 2).frame m).prot = false := by
  have all : (ringStage 10 10 2).mem.frames.all (fun p => !p.2.prot) = true := by decide +kernel
  rcases frame_listed Frame.free (ringStage 10 10 2).mem.frames m with e | ⟨p, hp, e⟩
  · exact (congrArg Frame.prot e).trans rfl
  · have := List.all_eq_true.1 all p hp
    rw [← show p.2 = (ringStage 10 10 2).frame m from e]
    simpa using this

theorem witness_RetirementEvents :
    (∃ (s : State) (uid : Nat) (e : EndInfo), (s.launch uid).phase = .ending ∧ (s.launch uid).endInfo = some e ∧ e ≠ endedByReset ∧
      s.launchQuiet uid = true ∧ (s.launch uid).pure = false ∧ (s.launch uid).slotHeld = none ∧ s.bound (s.launch uid).tenant = true) ∧
    (∃ (s : State) (uid : Nat), s.tasks.launches.any (fun l => l.uid == uid) = true ∧ (s.launch uid).endInfo = none) ∧
    (∀ x ∈ [(10, 1, true, true), (10, 0, true, false), (6, 1, false, true)],
      ∃ (s : State) (t : Nat) (r : WaitRec) (rest : List WaitRec), (s.tenant t).records = r :: rest ∧ r.words.length = 8 ∧
        ringOpen (s.tenant t).crsize (s.tenant t).crprod (s.tenant t).crcons = x.2.2.1 ∧
        ((s.tenant t).cmodn ≠ 0 ∧ (s.tenant t).cmodn ≤ (s.tenant t).unsignalled + 1 ↔ x.2.2.2 = true)) ∧
    (∀ x ∈ [(10, true), (6, false)], ∃ (s : State) (t : Nat) (r : WaitRec) (rest : List WaitRec), (s.tenant t).events = r :: rest ∧
      r.words.length = 8 ∧ ringOpen (s.tenant t).evsize (s.tenant t).evprod (s.tenant t).evcons = x.2) ∧
    (∃ (s : State) (t o : Nat), (s.tenant t).cmodn ≠ 0 ∧ (s.tenant t).oldestUnsignalled = some o ∧
      1000 * (s.tenant t).cmodt ≤ s.elapsed t o) ∧
    (∀ r ∈ [VfReg.crbase, .cmodt], ∃ (s : State) (t : Nat), s.bound t = true ∧ r ∉ [VfReg.pfClaim, .go, .cmodn] ∧
      (∀ m, (s.frame m).prot = false) ∧ ∃ m ∈ ringFrames 0x110000 (s.tenant t).crsize, (s.frame m).owner = t) ∧
    (∀ due ∈ [true, false], ∃ (s : State) (t : Nat) (v : Word), s.bound t = true ∧
      let k := { s.tenant t with cmodn := bits v.toNat 15 0 }
      (k.cmodn ≠ 0 ∧ k.oldestUnsignalled.isSome = true ∧ k.cmodn ≤ k.unsignalled ↔ due = true) ∧ v.getLsbD 0 = due) ∧
    (∃ (s : State) (t : Nat) (r : VfReg), s.bound t = false ∧ 0 < t ∧ t < 64 ∧ r ∉ [VfReg.pfClaim, .go, .cmodn]) ∧
    (∃ (s : State) (t : Nat) (b : Batch), s.bound t = true ∧ b ∈ s.tasks.batches ∧ b.tenant = t) ∧
    ∃ (s : State) (t : Nat), s.bound t = false ∧ 0 < t ∧ t < 64 := by
  refine ⟨⟨onLaunch hostStage (fun l => { l with phase := .ending, endInfo := some ⟨0, 0, 0⟩ }), 1, ⟨0, 0, 0⟩, by decide +kernel,
      by decide +kernel, by decide, by decide +kernel, by decide +kernel, by decide +kernel, by decide +kernel⟩,
    ⟨hostStage, 1, by decide +kernel, by decide +kernel⟩,
    fun x hx => ⟨ringStage x.1 10 x.2.1, 1, ⟨[1, 2, 3, 4, 5, 6, 7, 8]⟩, [], ?_, rfl, ?_, ?_⟩,
    fun x hx => ⟨ringStage 10 x.1 0, 1, ⟨[8, 7, 6, 5, 4, 3, 2, 1]⟩, [], ?_, rfl, ?_⟩,
    ⟨ringStage 10 10 2, 1, 4, by decide +kernel, by decide +kernel, by decide +kernel⟩,
    fun r hr => ⟨ringStage 10 10 2, 1, by decide +kernel, by revert r; decide, ringStage_plain, 17, by decide +kernel, by decide +kernel⟩,
    fun due hd => ⟨onTenant (ringStage 10 10 2) (fun t => { t with unsignalled := if due then 1 else 0 }), 1, if due then 1 else 2, ?_, ?_, ?_⟩,
    ⟨hostStage, 63, .crbase, by decide +kernel, by decide, by decide, by decide⟩,
    ⟨hostStage, 1, ⟨1, 0, 0, 0, 0, 0, [], false, true, none⟩, by decide +kernel, List.mem_cons_self .., rfl⟩,
    ⟨hostStage, 63, by decide +kernel, by decide, by decide⟩⟩ <;> first | (revert x; decide +kernel) | (revert due; decide +kernel)

/-! ### The network -/

/-- The host's stage with an entry of die 0's remote table for tenant 4 of device 9: 2 frames from 20, with the given rights. -/
def remoteStage (b : Bool) : State :=
  { hostStage with mem := { hostStage.mem with remote := [(7, some ⟨true, 9, 4, 20, 2, b, b, b⟩)] } }

theorem witness_NetworkEvents :
    (∃ (s : State) (die : Nat), (s.tasks.tenants.map Tenant.id).Nodup ∧ (∀ k ∈ s.tasks.tenants, k.id < 64) ∧ die < 8 ∧
      0 < s.refillPeriods 0 die ∧ 0 < s.refillPeriods 1 die ∧ 0 < s.refillPeriods 2 die ∧
      ∀ k ∈ s.tasks.tenants, cellGet 0 k.slbw die = 3 ∧ cellGet 0 k.netbw die = 3) ∧
    (∃ (s : State) (die : Nat), (s.tasks.tenants.map Tenant.id).Nodup ∧ (∀ k ∈ s.tasks.tenants, k.id < 64) ∧ s.refillPeriods 0 die = 0 ∧
      s.refillPeriods 1 die = 0 ∧ s.refillPeriods 2 die = 0) ∧
    (∃ die idx : Nat, die < 8 ∧ idx < 4096) ∧
    (∃ (s : State) (t die : Nat) (wt : BitVec 32), s.bound t = true ∧ die < 8 ∧ weightsOk wt = true) ∧
    ∀ req ∈ [RemoteReq.read 64, .write [1, 2, 3] none, .write [1, 2, 3] (some (some 3)), .atomic .add .w32 5 0 none], ∀ b ∈ [true, false],
      ∃ (s : State) (dev t ma : Nat), s.remoteGrant dev t ma req = b ∧ ma < 2 ^ 40 ∧ ma % 2 ^ 16 + remoteSize req ≤ 2 ^ 16 ∧
        (s.frame (mfnOf ma)).owner = 0 := by
  refine ⟨⟨onTenant hostStage (fun t => { t with slbw := [(7, 3)], netbw := [(7, 3)] }), 7, by decide +kernel, by decide +kernel, by decide,
      by decide +kernel, by decide +kernel, by decide +kernel, by decide +kernel⟩,
    ⟨stage 3 32, 7, by decide +kernel, by decide +kernel, by decide +kernel, by decide +kernel, by decide +kernel⟩,
    ⟨7, 4095, by decide, by decide⟩, ⟨hostStage, 1, 7, 0xFF010101, by decide +kernel, by decide, by decide⟩,
    fun req hr b hb => ⟨remoteStage b, 9, 4, 0x15FFC0, ?_, by decide, ?_, ?_⟩⟩ <;> revert req b <;> decide +kernel

/-! ### Revocation -/

/-- A tenant with one place of a kind, no infrastructure but frame place 0, a request for it, and nothing on the cores. -/
def seizeStage (k : PlaceKind) : State :=
  let s := onTenant hostStage (fun t => { t with
    places := ⟨.frame, 0, 16, false⟩ :: [⟨k, 0, 5, false⟩], requests := [⟨3, k, 1, none, 4000, [], 0⟩] })
  { s with cores := { s.cores with waves := [], ctxs := [] } }

theorem witness_RevocationEvents :
    (∀ k ∈ [PlaceKind.queue, .core, .quota], ∃ (s : State) (t count : Nat) (target : Option Nat) (deadline reqid ma : Nat),
      s.mayPost t k count target deadline reqid = true ∧ s.tfnAddr t (s.tenant t).revTfn = some ma ∧
      (k = .queue → ∃ p e, target = some p ∧ (s.tenant t).place? k p = some e) ∧ (k = .quota → s.reuseCount t ≤ count)) ∧
    ∀ k ∈ [PlaceKind.core, .bank, .lane, .queue, .chan], ∃ (s : State) (t reqid : Nat) (r : RevReq) (p : Nat),
      (s.tenant t).requests.find? (fun q => q.reqid == reqid) = some r ∧ (s.tenant t).suspended = false ∧ r.deadline ≤ s.time t ∧
      r.kind = k ∧ s.toSeize t r = [p] ∧ s.usersOf t r.kind p = [] ∧ (s.tenant t).losses.length < 256 := by
  refine ⟨fun k hk => ?_, fun k hk => ⟨seizeStage k, 1, 3, ⟨3, k, 1, none, 4000, [], 0⟩, 0, ?_, ?_, ?_, rfl, ?_, ?_, ?_⟩⟩
  · by_cases h : k = .queue
    · exact ⟨hostStage, 1, 1, some 0, 999999, 8, 0x100000, by rw [h]; decide +kernel, by decide +kernel,
        fun _ => ⟨0, ⟨.queue, 0, 3, false⟩, rfl, by rw [h]; decide +kernel⟩, fun _ => by decide +kernel⟩
    · exact ⟨hostStage, 1, 1, none, 999999, 8, 0x100000, by revert h; revert k; decide +kernel, by decide +kernel, fun e => absurd e h, fun _ => by decide +kernel⟩
  all_goals revert k; decide +kernel

/-! ### Stops, save and restore -/

theorem onlyWave_of {s : State} {uid : Nat} {l : List Nat}
    (h : (s.cores.waves.filter (fun x => x.launch == uid && l.contains x.corepl) == [theWave s] &&
      s.wave? (theWave s).core (theWave s).slot == some (theWave s) && (theWave s).resident && (theWave s).stopped.isNone) = true) : OnlyWave s uid l (theWave s) := by
  simp only [Bool.and_eq_true, beq_iff_eq, Option.isNone_iff_eq_none] at h
  exact ⟨h.1.1.1, h.1.1.2, h.1.2, h.2⟩

/-- The host's stage with GRACE 1 in its launch's record, and requests for a stop. -/
def stopStage (l : List StopReq) : State :=
  let s := onLaunch hostStage (fun l => { l with record := l.record.set 16 1 })
  { s with tasks := { s.tasks with stops := l } }

/-- Every lane waits for a service, above SVCTH 1 since 2 microseconds. -/
def serviceStage : State :=
  let s := onWave hostStage (fun w => { w with lanes := w.lanes.map (fun l => { l with st := .service }) })
  onLaunch s (fun l => { l with record := l.record.set 16 0x10000, shareSince := some 2 })

theorem witness_StopEvents :
    (∃ (s : State) (uid : Nat) (places : List Nat) (w : Wave), (s.launch uid).stoppable = true ∧
      places.filter (fun p => (s.residentPlaces uid).contains p) ≠ [] ∧
      OnlyWave s uid (places.filter (fun p => (s.residentPlaces uid).contains p)) w ∧ (s.launch uid).grace ≠ 0 ∧ s.tasks.stops = []) ∧
    (∃ (s : State) (uid : Nat) (places : List Nat), (s.launch uid).justEnded s.ctl.cycle = true ∧
      places.filter (fun p => (s.residentPlaces uid).contains p) ≠ []) ∧
    (∃ (s : State) (uid : Nat) (r : StopReq), s.tasks.stops = [r] ∧ r.launch = uid ∧ r.forced = false ∧
      r.madeAt + 1024 * (s.launch uid).grace ≤ s.ctl.cycle) ∧
    (∃ (s : State) (r : StopReq) (w : Wave), s.tasks.stops = [r] ∧ r.forced = true ∧ OnlyWave s r.launch r.places w) ∧
    (∃ (s : State) (core t : Nat), s.dev.claimHost.getLsbD 5 = true ∧ t ≠ 0 ∧ s.bound t = true ∧ s.coreForTenants core = true ∧
      core ∉ s.cores.leased ∧ ∀ c ∈ s.cores.ctxs, c.core = core → (s.launch c.launch).tenant = t) ∧
    (∀ core ∈ [0, 1536], ∃ s : State, s.coreForTenants core = false) ∧
    (∃ (s : State) (core t : Nat) (c : Ctx), s.dev.claimHost.getLsbD 5 = false ∧ s.coreForTenants core = true ∧ core ∉ s.cores.leased ∧
      s.cores.ctxs.filter (fun x => x.core == core && (s.launch x.launch).tenant != t) = [c] ∧ (s.launch c.launch).stoppable = true) ∧
    ∃ (s : State) (uid p : Nat) (e : Nat), (s.launch uid).stoppable = true ∧ (s.launch uid).rtwave = false ∧
      s.shareLimit (s.launch uid) ≠ 0 ∧ s.shareAbove (s.launch uid) = true ∧ (s.launch uid).shareSince = some e ∧
      1000 * s.shareHold (s.launch uid) ≤ s.elapsed (s.launch uid).tenant e ∧ s.residentPlaces uid = [p] := by
  refine ⟨⟨stopStage [], 1, [0, 4], _, by decide +kernel, by decide +kernel, onlyWave_of (by decide +kernel), by decide +kernel, rfl⟩,
    ⟨onLaunch hostStage (fun l => { l with phase := .ending, endInfo := some ⟨0, 0, 0⟩, endCycle := some 16384 }), 1, [0], by decide +kernel,
      by decide +kernel⟩,
    ⟨stopStage [⟨1, [0], false, 3⟩], 1, ⟨1, [0], false, 3⟩, rfl, rfl, rfl, by decide +kernel⟩,
    ⟨stopStage [⟨1, [0], true, 3⟩], ⟨1, [0], true, 3⟩, _, rfl, rfl, onlyWave_of (by decide +kernel)⟩,
    ⟨hostStage, 1, 1, by decide +kernel, by decide, by decide +kernel, by decide +kernel, by decide +kernel, by decide +kernel⟩,
    fun core hc => ⟨hostStage, ?_⟩,
    ⟨stage 3 32, 1, 2, (stage 3 32).ctx 1 1, by decide +kernel, by decide +kernel, by decide +kernel, by decide +kernel, by decide +kernel⟩,
    ⟨serviceStage, 1, 0, 2, by decide +kernel, by decide +kernel, by decide +kernel, by decide +kernel, by decide +kernel, by decide +kernel,
      by decide +kernel⟩⟩
  revert core
  decide +kernel

/-- The stage stopped by force and ready for its save; one slot of its channel and nothing of the matrix unit is in use. -/
def haltedStage : State :=
  let s := onWave (stopStage [⟨1, [0], true, 3⟩]) (fun w => { w with stopped := some none })
  onCtx s (fun c => { c with resv := [], handles := [] })

/-- A core image of its wave, and nothing of the launch on the cores. -/
def savedStage : State :=
  let s := onLaunch haltedStage (fun l => { l with images := [⟨0, 1, haltedStage.ctx 1 1, [theWave haltedStage]⟩] })
  { s with cores := { s.cores with waves := [], ctxs := [] } }

theorem witness_CastleEvents :
    (∃ (s : State) (uid place : Nat) (c : Ctx) (w : Wave), s.cores.ctxs.find? (fun x => x.launch == uid && x.place == place) = some c ∧
      (s.launch uid).stoppable = true ∧ s.readyToSave uid place c.core = true ∧ (s.launch uid).prot = false ∧
      s.wavesOf uid place = [w] ∧ w.stopped = some none ∧ (∀ k < w.ext, w.droppable k = false) ∧ w.refusals = []) ∧
    ∃ (s : State) (uid place : Nat) (i : Image) (core : Nat) (slots : List Nat) (rs : List Reservation),
      (s.launch uid).images.find? (fun x => x.place == place) = some i ∧ s.coreOf (s.launch uid).tenant place = some core ∧
      (s.launch uid).stoppable = true ∧ (s.tenant (s.launch uid).tenant).suspended = false ∧ s.mayReturn (s.launch uid) core = true ∧
      s.restoreFits (s.launch uid) i core slots = some rs ∧ i.waves.length = 1 := by
  refine ⟨⟨haltedStage, 1, 0, haltedStage.ctx 1 1, theWave haltedStage, by decide +kernel, by decide +kernel, by decide +kernel,
      by decide +kernel, by decide +kernel, by decide +kernel, by decide +kernel, by decide +kernel⟩,
    ⟨savedStage, 1, 0, ⟨0, 1, haltedStage.ctx 1 1, [theWave haltedStage]⟩, 1, [4], [], by decide +kernel, by decide +kernel,
      by decide +kernel, by decide +kernel, by decide +kernel, by decide +kernel, by decide +kernel⟩⟩

/-! ### Tenants and the device -/

/-- The tenant suspended, with no wave on a core. -/
def restStage : State :=
  let s := onTenant hostStage (fun t => { t with suspended := true, quota := 4 })
  { s with cores := { s.cores with waves := [], ctxs := [] } }

theorem witness_TenantEvents :
    (∃ (s : State) (t : Nat) (a : BindArgs), t ≠ 0 ∧ t < 64 ∧ s.bound t = false ∧ a.cwbase % 2 ^ 16 = 0 ∧ a.quota ≤ s.quotaLeft t ∧ ∀ x ∈ s.tasks.vfs, x.id ≠ t) ∧
    (∃ (s : State) (t : Nat), s.bound t = true ∧ (s.tenant t).suspended = false ∧ s.offCores t = true) ∧
    (∃ (s : State) (t : Nat), s.bound t = true ∧ (s.tenant t).suspended = true) ∧
    (∀ x ∈ [(PlaceKind.core, 1, 7), (.bank, 32, 224), (.frame, 2, 200), (.lane, 0, 143), (.queue, 1, 511), (.chan, 1, 6)],
      ∃ (s : State) (t : Nat), s.bound t = true ∧ (s.tenant t).suspended = true ∧
        (s.tenant t).place? x.1 x.2.1 = none ∧ s.unitOk t x.1 x.2.1 x.2.2 = true ∧ s.unitFree t x.1 x.2.2 = true ∧
        (s.tenant t).newPlace x.1 x.2.1 = true ∧
        ({ s.tenant t with places := (s.tenant t).places ++ [⟨x.1, x.2.1, x.2.2, false⟩] } : Tenant).runsWhole = true) ∧
    (∃ (s : State) (t arr base n : Nat), s.bound t = true ∧ (s.tenant t).suspended = true ∧ s.grantOk t arr base n = true ∧ n < 2 ^ 30 ∧
      (s.tenant t).grants.length = 3 ∧ (s.tenant t).grant arr ≠ (base, n)) ∧
    (∃ (s : State) (t q : Nat), s.bound t = true ∧ (s.tenant t).suspended = true ∧ q ≤ s.quotaLeft t ∧ s.reuseCount t ≤ q) ∧
    (∃ (s : State) (t p phys : Nat) (e : PlaceEntry), s.bound t = true ∧ (s.tenant t).suspended = true ∧ s.offCores t = true ∧
      (s.tenant t).place? .queue p = some e ∧ s.unitOk t .queue p phys = true ∧ s.unitFree t .queue phys = true ∧
      s.fitsThere t = true) ∧
    (∃ (s : State) (t : Nat) (x : MigrationTarget), s.bound t = true ∧ (s.tenant t).suspended = true ∧ s.offCores t = true ∧
      s.staysHere t = false ∧ x.devid < 1024 ∧ x.devid ≠ s.dev.devid ∧ (s.elsewhere t x).fitsThere t = true) ∧
    ∀ x ∈ [none, some ⟨9, 5, 7, [], []⟩], ∃ (s : State) (t : Nat) (remap : List (PlaceKind × Nat × Nat)), s.bound t = true ∧
      (s.tenant t).suspended = true ∧ s.offCores t = true ∧
      (((s.migrationStart t x).bind (remapAll t remap)).filter (fun u => u.fitsThere t)).isNone = true := by
  refine ⟨⟨hostStage, 63, ⟨7, 0x100000, 0, 0, 0, 0, 0, 0, 0, 0⟩, by decide, by decide, by decide +kernel, by decide, by decide +kernel,
      by decide +kernel⟩,
    ⟨onTenant restStage (fun t => { t with suspended := false }), 1, by decide +kernel, by decide +kernel, by decide +kernel⟩,
    ⟨restStage, 1, by decide +kernel, by decide +kernel⟩,
    fun x hx => ⟨if x.1 = .bank then onTenant restStage (fun t => { t with places := t.places ++ [⟨.core, 1, 7, false⟩] }) else restStage, 1, ?_, ?_, ?_, ?_, ?_, ?_, ?_⟩,
    ⟨restStage, 1, 2, 1024, 1024, by decide +kernel, by decide +kernel, by decide +kernel, by decide, by decide +kernel, by decide +kernel⟩,
    ⟨restStage, 1, 16384, by decide +kernel, by decide +kernel, by decide +kernel, by decide +kernel⟩,
    ⟨restStage, 1, 0, 8, ⟨.queue, 0, 3, false⟩, by decide +kernel, by decide +kernel, by decide +kernel, by decide +kernel, by decide +kernel,
      by decide +kernel, by decide +kernel⟩,
    ⟨restStage, 1, ⟨9, 5, 7, [], []⟩, by decide +kernel, by decide +kernel, by decide +kernel, by decide +kernel, by decide, by decide +kernel,
      by decide +kernel⟩,
    fun x hx => ⟨restStage, 1, [(.queue, 0, 512)], by decide +kernel, by decide +kernel, by decide +kernel, ?_⟩⟩ <;> revert x <;> decide +kernel

/-- A tenant with a challenge for LID 1, whose launch runs, its report at 0x100400 and its certificate slot 0, of GEN 5. -/
def challengeStage (go : Bool) (gen : Nat) : State :=
  let s := onTenant hostStage (fun t => { t with goBit := go, chStatus := 1, chLid := 1, chReport := 0x100400, asked := ⟨1, 0, gen, 0x100400, []⟩ })
  { s with dev := { s.dev with certs := [(0, ⟨2, 5, [1, 2], [1, 2]⟩)] } }

/-- The stage on a die that has started, its tenant known to be there. -/
def dieStage : State :=
  { hostStage with ctl := { hostStage.ctl with booted := [0, 3] }, dev := { hostStage.dev with pufOk := true, readiness := [(2, 0x8000000000000000)] } }

theorem witness_DeviceEvents :
    (∀ len ∈ [0xFFC0, 0xFFC1], ∃ c : Nat, c < 8 ∧ (len ≤ 0xFFC0 ↔ len = 0xFFC0)) ∧
    (∀ x ∈ [(stage 3 32, false, false, true, false), (hostStage, true, false, true, false),
        (onTenant hostStage (fun t => { t with chLid := 1 }), true, true, true, false),
        (onTenant (challengeStage false 0) (fun t => { t with chReport := 0x100401 }), true, true, false, false),
        (challengeStage false 0, true, true, false, true)],
      ∃ (s : State) (t : Nat), s.bound t = true ∧ (s.tenant t).goBit = false ∧ s.isReady 33 = x.2.1 ∧ (s.challenged t).isSome = x.2.2.1 ∧
        ((s.cert (s.tenant t).cslot).len = 0 ↔ x.2.2.2.1 = true) ∧ s.reportOk t (s.tenant t).chReport = x.2.2.2.2) ∧
    (∀ x ∈ [(4, 1, 0x100400), (5, 2, 0x100400), (5, 1, 0x200400), (5, 1, 0x100400)], ∃ (s : State) (t : Nat), (s.tenant t).chStatus = 1 ∧
      let a := (s.tenant t).asked
      ((s.cert a.cslot).gen ≠ a.gen ↔ x.1 = 4) ∧ ((s.launch a.uid).phase = .running ↔ x.2.1 = 1) ∧ (s.launch a.uid).phase ≠ .ending ∧
      (s.reportOk t a.report = true ↔ x.2.2 = 0x100400)) ∧
    (∃ s : State, s.ctl.power = false) ∧ (∃ s : State, s.ctl.power = true ∧ s.ctl.booted = [] ∧ s.dev.readiness = []) ∧
    (∀ i ∈ [0, 1, 32, 33], ∃ (s : State) (count : Nat), i < 34 ∧ (match functionDie i with
        | some d => s.ctl.booted.contains d
        | none => s.dev.pufOk) = true ∧ s.isReady i = false ∧ s.hasFailed i = false ∧
        0 < s.unitCount i count ∧ s.unitCount i count < 2 ^ 16) ∧
    (∃ (s : State) (i : Nat) (k : Tenant), s.isReady i = true ∧ i < 25 ∧ s.tasks.tenants = [k] ∧ s.dev.claimHost.getLsbD 7 = true) ∧
    (∀ up ∈ [true, false], ∃ (s : State) (die : Nat), if up then s.clockOf die < 1300 else 700 < s.clockOf die) ∧
    (∃ (s : State) (die : Nat), s.hasFailed (1 + die) = false ∧ s.cores.ctxs.filter (fun c => c.core / 192 == die) = []) ∧
    ∃ (s : State) (die : Nat) (c : Ctx), s.hasFailed (1 + die) = false ∧ s.cores.ctxs.filter (fun c => c.core / 192 == die) = [c] ∧
      (s.launch c.launch).stoppable = true := by
  refine ⟨fun len hl => ⟨7, by decide, ?_⟩, fun x hx => ⟨x.1, 1, ?_, ?_, ?_, ?_, ?_, ?_⟩,
    fun x hx => ⟨onTenant (challengeStage true x.1) (fun t => { t with asked := ⟨x.2.1, 0, x.1, x.2.2, []⟩ }), 1, ?_, ?_, ?_, ?_, ?_⟩,
    ⟨after .powerOff State.reset, rfl⟩, ⟨State.reset, rfl, rfl, rfl⟩,
    fun i hi => ⟨if i = 32 then { dieStage with ctl := { dieStage.ctl with booted := [7] } } else dieStage, 65535, ?_, ?_, ?_, ?_, ?_, ?_⟩,
    ⟨hostStage, 9, hostStage.tenant 1, by decide +kernel, by decide, by decide +kernel, by decide +kernel⟩,
    fun up hu => ⟨{ hostStage with dev := { hostStage.dev with clockMHz := [(3, 800)] } }, 3, ?_⟩,
    ⟨hostStage, 3, by decide +kernel, by decide +kernel⟩,
    ⟨hostStage, 0, hostStage.ctx 1 1, by decide +kernel, by decide +kernel, by decide +kernel⟩⟩
  all_goals first | (revert len; decide) | (revert x; decide +kernel) | (revert i; decide +kernel) | (revert up; decide +kernel)

/-! ### Decoding: the spec's own example words, and for every other row a word whose fields are written out from its encoding table -/

/-- The word whose fields are these numbers, each with the place of its lowest bit. -/
def fieldWord (l : List (Nat × Nat)) : Word := BitVec.ofNat 64 (l.foldl (fun n f => n + f.1 * 2 ^ f.2) 0)

/-- GA. -/
def ga (n : Nat) : Ctl := { p with ga := ⟨false, n⟩ }

/-- STALL. -/
def st (n : Nat) : Ctl := { p with stall := n }

/-- Every word of a list decodes to the instruction beside it. -/
def reads (l : List (Word × Instr)) : Bool := l.all (fun x => decodeTableWord 64 x.1.toNat == some x.2)

/-- spec/02, spec/03, spec/08, spec/21 to spec/23, Table 8-3. -/
theorem test_decodes_control : reads
    [(0, .nop p), (0x0040_3FFF_FFA0_0000, .bra p (-24) .none), (0x0044_0000_0010_0000, .bra (ga 1) 4 .none),
     (fieldWord [(2, 54), (9, 32)], .brx p 9), (fieldWord [(3, 54), (2 ^ 28 - 1, 18), (1, 10)], .call p (-1) .likely),
     (fieldWord [(4, 54), (0b1001, 46)], .ret { p with gb := ⟨true, 1⟩ }), (fieldWord [(5, 54), (5, 18), (2, 10)], .brau p 5 .unlikely),
     (fieldWord [(6, 54)], .rcv p), (fieldWord [(7, 54), (1, 7)], .exit { p with yld := true }), (fieldWord [(8, 54), (7, 4)], .yield (st 7)),
     (0x0240_0000_FFFF_0000, .wait p 0 63 63 15), (0x0280_0000_0013_D800, .sleep p 1270), (0x02C0_0000_0000_3000, .phint p 12),
     (fieldWord [(0x00C, 54), (3, 39), (5, 32), (2, 10)], .vote p 3 5 .all), (fieldWord [(0x00D, 54), (6, 39)], .elect p 6),
     (0x0380_0280_0004_2000, .mfs p (.s 5) .time), (0x0380_0180_0000_0000, .mfs p (.v 3) .laneid),
     (fieldWord [(0x00F, 54), (7, 32), (9, 10)], .mts p (.v 7) .fstat), (0x0400_020A_0000_0000, .launch p 4 10),
     (0x0440_0000_0000_4800, .trap p 0x12), (0x0480_0404_8001_0400, .svc p 8 4 2 0x41), (0x04C0_0103_0800_0000, .svcrep p 2 3 4),
     (0x0500_003B_0000_0000, .rte p 59), (0x0504_0019_0000_0000, .rte (ga 1) 25), (0x0540_0000_0000_0C00, .bkpt p 3),
     (fieldWord [(0x016, 54), (9, 39)], .rand p 9), (fieldWord [(0x017, 54), (4, 39), (7, 10)], .perfrd p 4 7)] = true := by decide +kernel

/-- spec/09, Tables 9-2 and 9-3. -/
theorem test_decodes_registers : reads
    [(0x0800_0180_0000_0800, .acqx p 3 2), (fieldWord [(0x021, 54), (4, 39), (14, 10)], .relx p 4 14),
     (0x0880_020A_0001_0C00, .rcpdef p 4 10 3 1), (0x08C0_1400_0000_0C00, .rcptag p 40 3),
     (fieldWord [(0x024, 54), (8, 32), (3, 10)], .rcpclr p 8 4), (fieldWord [(0x025, 54), (4, 39), (5, 32)], .rcpq p 4 5)] = true := by
  decide +kernel

/-- spec/10, Table 10-2. -/
theorem test_decodes_integer : reads
    [(fieldWord [(0x030, 54), (3, 39), (4, 32), (1, 8)], .mov { p with hold := .a } 3 4),
     (fieldWord [(0x031, 54), (3, 39), (0x3FFFFE, 10)], .movi p 3 (-2)), (fieldWord [(0x032, 54), (3, 39), (0x2BEEF, 10)], .movk p 3 0xBEEF 2),
     (fieldWord [(0x033, 54), (3, 39), (4, 32), (5, 25), (6, 18)], .sel p 3 4 (.v 5) 6), (0x0D00_0286_0602_8400, .iadd p 5 6 (.s 3) .s16x4 true),
     (fieldWord [(0x035, 54), (3, 39), (4, 32), (5, 25), (3, 13)], .isub p 3 4 (.v 5) .z32x2 false),
     (fieldWord [(0x036, 54), (3, 39), (4, 32), (5, 25), (2, 13)], .imul p 3 4 (.v 5) .s32x2 false),
     (fieldWord [(0x037, 54), (3, 39), (4, 32), (5, 25), (1, 13)], .imulh p 3 4 (.v 5) .z64),
     (fieldWord [(0x038, 54), (3, 39), (4, 32), (5, 25), (6, 18), (1, 17)], .imad p 3 4 (.s 5) 6 .s64 false),
     (fieldWord [(0x039, 54), (3, 39), (4, 32), (5, 25), (5, 13)], .imin p 3 4 (.v 5) .z16x4),
     (fieldWord [(0x03A, 54), (3, 39), (4, 32), (5, 25), (6, 13)], .imax p 3 4 (.v 5) .s8x8),
     (fieldWord [(0x03B, 54), (3, 39), (4, 32), (15, 13), (1, 10)], .iabs p 3 4 .s4x16 true),
     (fieldWord [(0x03C, 54), (3, 39), (4, 32), (4, 13)], .ineg p 3 4 .s16x4 false), (0x0F40_0182_0A02_0030, .and (st 3) 3 2 (.s 5)),
     (fieldWord [(0x03E, 54), (3, 39), (4, 32), (5, 25), (2, 8)], .or { p with hold := .b } 3 4 (.v 5)),
     (fieldWord [(0x03F, 54), (3, 39), (4, 32), (5, 25)], .xor p 3 4 (.v 5)), (fieldWord [(0x040, 54), (3, 39), (4, 32)], .not p 3 4),
     (fieldWord [(0x041, 54), (3, 39), (4, 32), (5, 25), (7, 13), (1, 10)], .shl p 3 4 (.v 5) .z8x8 true),
     (0x1080_0101_0000_2030, .shr (st 3) 2 1 (.v 0) .z64 false),
     (fieldWord [(0x043, 54), (3, 39), (4, 32), (5, 25), (1, 17)], .sar p 3 4 (.s 5) .s64 false),
     (fieldWord [(0x044, 54), (3, 39), (4, 32), (5, 25), (2, 13)], .rot p 3 4 (.v 5) .s32x2 false),
     (fieldWord [(0x045, 54), (3, 39), (4, 32), (5, 25), (1, 13)], .bfx p 3 4 (.v 5) .z64),
     (fieldWord [(0x046, 54), (3, 39), (4, 32), (5, 25), (6, 18), (3, 8)], .bfi { p with hold := .c } 3 4 (.v 5) 6),
     (fieldWord [(0x047, 54), (3, 39), (4, 32), (7, 13)], .popc p 3 4 .z8x8), (fieldWord [(0x048, 54), (3, 39), (4, 32), (3, 13)], .clz p 3 4 .z32x2),
     (fieldWord [(0x049, 54), (3, 39), (4, 32), (15, 13)], .brev p 3 4 .s4x16),
     (fieldWord [(0x04A, 54), (3, 39), (4, 32), (5, 25), (3, 13), (6, 10)], .lea p 3 4 (.v 5) .z32x2 6),
     (fieldWord [(0x04B, 54), (3, 39), (4, 32), (5, 25), (2, 13), (2, 10), (1, 0)], .isetp p 3 4 (.v 5) .s32x2 .lt true),
     (fieldWord [(0x04C, 54), (3, 39), (4, 32), (0x200000, 10)], .iaddi p 3 4 (-2097152)),
     (0x1340_0504_0A18_C007, .idot p 10 4 (.v 5) 6 .s8x8 .z8x8 false),
     (fieldWord [(0x04E, 54), (3, 39), (4, 32), (5, 25), (0b1110, 0)], .plop p 3 4 5 0b1110)] = true := by decide +kernel

/-- spec/10, Table 10-1 and Table 10-3. -/
theorem test_decodes_lanes_and_scalars : reads
    [(fieldWord [(0x050, 54), (3, 39), (4, 32), (5, 25), (1, 17), (3, 10)], .lshf p 3 4 (.s 5) .wrap),
     (fieldWord [(0x051, 54), (3, 39), (4, 32), (5, 25), (9, 13)], .lbcast p 3 4 5 .f32x2), (0x1480_0383_0001_2000, .lred p 7 3 .f32x2 .add),
     (0x1480_1930_0001_2870, .lred (st 7) 50 48 .f32x2 .max),
     (fieldWord [(0x053, 54), (3, 39), (4, 32), (2, 13), (4, 10), (1, 0)], .lscan p 3 4 .s32x2 .or true),
     (fieldWord [(0x054, 54), (3, 39), (4, 32), (6, 25), (10, 13)], .lperm p 3 4 6 .f16x4),
     (fieldWord [(0x055, 54), (3, 39), (4, 32), (6, 25), (12, 13)], .rdlane p 3 4 6 .e4m3x8),
     (fieldWord [(0x056, 54), (3, 39), (4, 32), (6, 25), (14, 13)], .wrlane p 3 4 6 .e2m1x16),
     (fieldWord [(0x060, 54), (3, 39), (4, 32)], .smov p 3 4), (fieldWord [(0x061, 54), (3, 39), (0x3FFFFF, 10)], .smovi p 3 (-1)),
     (fieldWord [(0x062, 54), (3, 39), (0x31234, 10)], .smovk p 3 0x1234 3), (fieldWord [(0x063, 54), (3, 39), (4, 32), (5, 25)], .sadd p 3 4 5),
     (fieldWord [(0x064, 54), (3, 39), (4, 32), (5, 25)], .ssub p 3 4 5), (fieldWord [(0x065, 54), (3, 39), (4, 32), (5, 25)], .smul p 3 4 5),
     (fieldWord [(0x066, 54), (3, 39), (4, 32), (5, 25), (6, 18)], .smad p 3 4 5 6), (fieldWord [(0x067, 54), (3, 39), (4, 32), (5, 25)], .sand p 3 4 5),
     (fieldWord [(0x068, 54), (3, 39), (4, 32), (5, 25)], .sor p 3 4 5), (fieldWord [(0x069, 54), (3, 39), (4, 32), (5, 25)], .sxor p 3 4 5),
     (fieldWord [(0x06A, 54), (3, 39), (4, 32), (5, 25)], .sshl p 3 4 5), (fieldWord [(0x06B, 54), (3, 39), (4, 32), (5, 25)], .sshr p 3 4 5),
     (fieldWord [(0x06C, 54), (3, 39), (4, 32), (63, 25)], .ssar p 3 4 63), (0x1B40_0104_0A00_2800, .ssetq p 2 4 5 .lt true),
     (fieldWord [(0x06E, 54), (3, 39), (4, 32), (5, 25)], .smin p 3 4 5 false), (fieldWord [(0x06F, 54), (3, 39), (4, 32), (5, 25), (1, 13)], .smax p 3 4 5 true)] =
    true := by decide +kernel

/-- spec/12, Table 12-1. -/
theorem test_decodes_float : reads
    [(0x2006_8604_1201_2200, .fadd ⟨⟨false, 1⟩, ⟨true, 2⟩, .b, false, 0⟩ 12 4 (.v 9) .f32x2 .rne),
     (fieldWord [(0x081, 54), (3, 39), (4, 32), (5, 25), (8, 13), (1, 10)], .fsub p 3 4 (.v 5) .f64 .rtz),
     (fieldWord [(0x082, 54), (3, 39), (4, 32), (5, 25), (10, 13), (5, 10)], .fmul p 3 4 (.v 5) .f16x4 .sr),
     (0x20C0_0283_0213_2040, .ffma (st 4) 5 3 (.s 1) 4 .f32x2 .rne), (fieldWord [(0x084, 54), (3, 39), (4, 32), (5, 25), (11, 13)], .fmin p 3 4 (.v 5) .bf16x4),
     (fieldWord [(0x085, 54), (3, 39), (4, 32), (5, 25), (9, 13)], .fmax p 3 4 (.v 5) .f32x2),
     (fieldWord [(0x086, 54), (3, 39), (4, 32), (5, 25), (9, 13), (7, 10), (1, 0)], .fsetp p 3 4 (.v 5) .f32x2 .nan true),
     (fieldWord [(0x087, 54), (3, 39), (4, 32), (12, 13), (2, 10), (9, 0)], .fcvt p 3 4 .e4m3x8 .f32x2 .rdn),
     (fieldWord [(0x088, 54), (3, 39), (4, 32), (9, 13), (3, 10)], .frnd p 3 4 .f32x2 .rup),
     (fieldWord [(0x089, 54), (3, 39), (4, 32), (9, 13), (4, 10), (2, 0)], .i2f p 3 4 .f32x2 .s32x2 .rna),
     (fieldWord [(0x08A, 54), (3, 39), (4, 32), (1, 13), (1, 10), (8, 0)], .f2i p 3 4 .z64 .f64 .rtz),
     (fieldWord [(0x08B, 54), (3, 39), (4, 32), (9, 13), (3, 10)], .frcp p 3 4 .f32x2 .rup),
     (fieldWord [(0x08C, 54), (3, 39), (4, 32), (10, 13)], .frsq p 3 4 .f16x4), (fieldWord [(0x08D, 54), (3, 39), (4, 32), (11, 13), (1, 10)], .fsqrt p 3 4 .bf16x4 .rtz),
     (fieldWord [(0x08E, 54), (3, 39), (4, 32), (9, 13)], .fexp2 p 3 4 .f32x2), (0x2380_0A04_0C23_2400, .fexp2Fs p 20 4 (.s 6) 8 .f32x2),
     (0x2380_1CB0_52E1_2470, .fexp2Fs (st 7) 57 48 (.v 41) 56 .f32x2), (fieldWord [(0x08F, 54), (3, 39), (4, 32), (9, 13)], .flog2 p 3 4 .f32x2),
     (fieldWord [(0x090, 54), (3, 39), (4, 32), (10, 13)], .fsin p 3 4 .f16x4), (fieldWord [(0x091, 54), (3, 39), (4, 32), (11, 13)], .fcos p 3 4 .bf16x4),
     (fieldWord [(0x092, 54), (3, 39), (4, 32), (9, 13)], .ftanh p 3 4 .f32x2),
     (fieldWord [(0x093, 54), (3, 39), (4, 32), (5, 25), (6, 18), (12, 13), (13, 0)], .fdot p 3 4 (.v 5) 6 .e4m3x8 .e5m2x8 .rne),
     (fieldWord [(0x094, 54), (3, 39), (4, 32), (14, 13)], .fclass p 3 4 .e2m1x16),
     (fieldWord [(0x095, 54), (3, 39), (4, 32), (5, 25), (8, 13), (2, 10)], .fscale p 3 4 (.v 5) .f64 .rdn)] = true := by decide +kernel

/-- spec/13, spec/15 and spec/19. -/
theorem test_decodes_memory : reads
    [(0x282C_0302_000A_6002, .ldg { p with ga := ⟨true, 3⟩ } 6 2 2 .b32 .acqrel .dev .mru), (0x2800_0202_0080_0003, .ldg p 4 2 32 .b64 .plain .wav .mru),
     (0x2848_0015_0000_0003, .stg (ga 2) 0 21 0 .b64 .plain .wav .mru),
     (fieldWord [(0x0A2, 54), (4, 39), (6, 32), (0x3FFF, 18), (1, 16), (1, 13), (5, 0)], .ldp p 4 6 (-1) .b256 .rlx .core),
     (0x28C0_0188_0008_0003, .stp p 3 8 2 .b64 .plain .wav), (fieldWord [(0x0A4, 54), (4, 39), (6, 32), (0x2000, 18), (2, 10), (4, 0)], .ldk p 4 6 (-8192) .b128 .el),
     (fieldWord [(0x0A5, 54), (6, 32), (9, 18), (4, 10)], .pref p 6 9 .ns), (fieldWord [(0x0A6, 54), (6, 32), (9, 18)], .cinv p 6 9),
     (0x29C0_0105_0000_0000, .pqry p 2 5), (0x2A00_0000_0003_6000, .fence p .sc .dev),
     (0x2A40_0202_0C22_640B, .atom p 4 2 6 8 .cas .acqrel .dev .w64), (0x2A80_0185_0E01_2002, .atomp p 3 5 7 0 .add .rlx .core .w32),
     (0x2AC0_0004_0C01_680A, .red p 4 6 .fadd .rlx .dev .w32), (0x2B00_0402_0601_6000, .hgath p 8 2 3 .rlx .dev .mru)] = true := by decide +kernel

/-- spec/06 and spec/07, Table 7-10. -/
theorem test_decodes_bindings : reads
    [(0x2C00_0201_040C_5000, .tbld p 4 1 2 3 0 5), (0x2C00_1114_3658_0000, .tbld p 34 20 27 22 0 0),
     (fieldWord [(0x0B1, 54), (4, 39), (1, 32), (2, 10), (7, 12)], .tbrd p 4 1 2 7), (fieldWord [(0x0B2, 54), (4, 39), (1, 32), (1, 10), (1, 15)], .tbinv p 4 1 1 true),
     (0x2CC0_0307_0000_0000, .frq p 6 7), (fieldWord [(0x0B4, 54), (4, 39), (1, 32)], .bndq p 4 1),
     (fieldWord [(0x0B5, 54), (4, 39), (1, 32), (2, 25)], .revack p 4 1 2), (fieldWord [(0x0B6, 54), (4, 39), (1, 32)], .lossack p 4 1),
     (0x2DC0_0282_0000_0000, .rtq p 5 2), (0x2E00_0088_1200_0000, .rtinv p 1 8 9)] = true := by decide +kernel

/-- spec/16, spec/17 and spec/20. -/
theorem test_decodes_engines_matrix_and_groups : reads
    [(0x3000_0004_0A1A_0C00, .cpy p 4 5 6 true false 3), (0x300C_0004_0A1A_0000, .cpy (ga 3) 4 5 6 true false 0),
     (fieldWord [(0x0C1, 54), (4, 32), (5, 25), (6, 18), (1, 16), (63, 10)], .cpyx p 4 5 6 false true 63),
     (fieldWord [(0x0C2, 54), (4, 32), (5, 25), (6, 18), (1, 17), (2, 10)], .cpym p 4 5 6 true 2),
     (fieldWord [(0x0C3, 54), (4, 32), (5, 25), (6, 18), (3, 16), (1, 10)], .cpyd p 4 5 6 true true 1),
     (0x3100_001E_0000_0000, .srarv p 0 30), (0x3140_0007_0000_0801, .srwt p 2 7 true),
     (fieldWord [(0x0D0, 54), (4, 39), (5, 32)], .obres p 4 5), (fieldWord [(0x0D1, 54), (4, 39), (5, 32)], .obrel p 4 5),
     (0x348C_0005_1A00_0000, .obld (ga 3) 5 13), (0x34C0_0201_0400_0000, .acca p 4 1 2), (fieldWord [(0x0D4, 54), (4, 39), (5, 32)], .accf p 4 5),
     (fieldWord [(0x0D5, 54), (4, 32), (5, 25)], .accz p 4 5), (0x3580_0006_0000_0000, .mma p 6), (fieldWord [(0x0D7, 54), (6, 32)], .mmas p 6),
     (0x3600_0503_0000_0000, .accrd p 10 3), (fieldWord [(0x0D9, 54), (4, 39), (5, 32)], .accwr p 4 5), (0x368C_0006_0000_0000, .drain (ga 3) 6),
     (0x3800_0000_0000_0400, .bar p 1), (fieldWord [(0x0E1, 54), (255, 10)], .bara p 255), (fieldWord [(0x0E2, 54), (16, 10)], .barw p 16),
     (0x38C0_0184_0000_0000, .grpq p 3 4), (0x3900_000C_0000_1400, .chsend p 5 12), (0x3940_0A00_0000_1400, .chrecv p 20 5),
     (fieldWord [(0x0E6, 54), (4, 39), (63, 10), (15, 16)], .chq p 4 63 15)] = true := by decide +kernel

/-- spec/02, Tables 2-9 to 2-11. -/
theorem test_decodes_pairs : reads
    [(0x8401_C286_4804_030C, .pairWord ⟨.iadd, Guard.always, 7, 5, 6⟩ ⟨.ffma, Guard.always, 8, 3, 6⟩ false),
     (fieldWord [(1, 63), (0x17, 57), (1, 56), (2, 53), (3, 46), (4, 39), (127, 32), (0x0E, 26), (5, 15), (6, 8), (31, 1), (1, 0)],
      .pairWord ⟨.saddi, ⟨true, 2⟩, 3, 4, 127⟩ ⟨.shri, Guard.always, 5, 6, 31⟩ true)] = true := by decide +kernel

/-- Words that are none (Table 2-12): a reserved opcode, SB without a use, a type, a rounding, a comparison, a width, a scope and an atomic
operation that the row does not accept, a hint of 11, an odd V2 operand, HOLD on an immediate form, a non-zero X, and all ones. -/
theorem test_refuses : ([0x0600000000000000#64, fieldWord [(0x030, 54), (1, 17)], fieldWord [(0x034, 54), (9, 13)],
    fieldWord [(0x080, 54), (9, 13), (6, 10)], fieldWord [(0x04B, 54), (6, 10)], fieldWord [(0x0A0, 54), (6, 0)],
    fieldWord [(0x0A2, 54), (3, 13)], fieldWord [(0x0AB, 54), (1, 16), (1, 10), (0b1010, 0)], fieldWord [(0x001, 54), (3, 10)],
    fieldWord [(0x0A0, 54), (1, 39), (4, 0)], fieldWord [(0x031, 54), (2, 8)], fieldWord [(0x030, 54), (1, 0)], -1#64].all
    (fun w => !(decode w).isOk)) = true := by decide +kernel

/-! ### Well-formedness: for each check an instruction that fails it alone -/

theorem test_ill_formed : ([(.nop { p with ga := ⟨false, 8⟩ }, Ill.guard), (.nop { p with stall := 8 }, .stall),
    (.nop { p with hold := .a }, .hold), (.mov p 128 0, .reg), (.iadd p 0 0 (.s 64) .s64 false, .srcB), (.iadd p 0 0 (.v 0) .f64 false, .type),
    (.isetp p 0 0 (.v 0) .s64 .nan false, .modifier), (.movi p 0 2097152, .imm), (.bra p 134217728 .none, .offset),
    (.fence p .rlx .dev, .order), (.pairWord ⟨.shli, Guard.always, 0, 0, 32⟩ ⟨.nop, Guard.always, 0, 0, 0⟩ false, .half),
    (.class1Service 64 0, .arg)] : List (Instr × Ill)).all
    (fun x => !wellFormed x.1 && (((checks x.1).filter (fun c => !c.1)).map Prod.snd == [x.2])) = true := by decide +kernel

/-! ### One step: the spec's worked examples, and results computed by hand from its rules -/

/-- What a step leaves. -/
def stepped (s : State) : State :=
  match step s with
  | .next t => t
  | _ => s

/-- The wave of a placed word after one step, its registers set before. -/
def ran (w : Nat) (f : Wave → Wave) : Wave := theWave (stepped (onWave (State.reset.place w) f))

/-- spec/10: the packed sum of its example, saturated and wrapped. -/
def packed (w : Wave) : Wave := { w with vregs := alike 6 0x8300_0064_FFFB_7D00, sregs := [(3, 0x0001_0000_FFFF_1000)] }

theorem test_iadd_sat : (ran 0x0D00_0286_0602_8400 packed).vreg 5 17 = 0x8301_0064_FFFA_7FFF := by decide +kernel

theorem test_iadd_wraps : (ran (0x0D00_0286_0602_8400 - 0x400) packed).vreg 5 17 = 0x8301_0064_FFFA_8D00 := by decide +kernel

/-- spec/10: the example of IDOT. -/
theorem test_idot : (ran 0x1340_0504_0A18_C007 (fun w => { w with
    vregs := alike 4 0x80070605_FC03FE01 ++ alike 5 0xFF030201_281E140A ++ alike 6 0xFFFFFFFF_000003E8 })).vreg 10 3 =
    0xFFFF_80A5_0000_0384 := by decide +kernel

/-- spec/10: the example of SSETQ, unsigned and signed. -/
theorem test_ssetq : ((ran 0x1B40_0104_0A00_2800 (fun w => { w with sregs := [(4, -1), (5, 1)] })).qpred 2,
    (ran (0x1B40_0104_0A00_2800 - 0x2000) (fun w => { w with sregs := [(4, -1), (5, 1)] })).qpred 2) = (false, true) := by decide +kernel

/-- spec/10: the example of LRED: 2^24 + 2 by the tree, and a lane that does not execute keeps v7. -/
theorem test_lred :
    let v := ran 0x1480_0383_0001_2000 (fun w => { w with
      vregs := [(96, 0x4B800000), (97, 0x3F800000), (98, 0x3F800000), (99, 0x3F800000), (231, 9)],
      lanes := w.lanes.take 4 ++ List.replicate 28 Lane.gone })
    (v.vreg 7 3, v.vreg 7 7) = (0x4B800001, 9) := by decide +kernel

/-- spec/12: the example of FCVT, with XS and PE. -/
theorem test_fcvt :
    let v := ran (fieldWord [(0x087, 54), (1, 39), (2, 32), (12, 13), (9, 0)]).toNat (fun w => { w with vregs := alike 2 0x447A0000_40400000 })
    (v.vreg 1 0, v.fstat) = (0x7E44, 0b1010000) := by decide +kernel

/-- spec/12: the example of FEXP2.FS. -/
theorem test_fexp2_fs :
    let v := ran 0x2380_0A04_0C23_2400 (fun w => { w with
      vregs := alike 4 0x40A00000_40400000 ++ alike 8 0x40A00000_40A00000, sregs := [(6, 0x3F00_0000_3F00_0000)] })
    (v.vreg 20 31, v.fstat) = (0x3F80_0000_3F00_0000, 0) := by decide +kernel

/-- spec/12: the example of FDOT. -/
theorem test_fdot :
    let v := ran (fieldWord [(0x093, 54), (10, 39), (4, 32), (5, 25), (6, 18), (12, 13), (12, 0)]).toNat (fun w => { w with
      vregs := alike 4 0x38383838 ++ alike 5 0x38383040 ++ alike 6 0x3F800000 ++ alike 7 0x7F807F7F })
    (v.vreg 10 0, v.fstat) = (0x41200000, 0) := by decide +kernel

/-- spec/08: BRA goes 24 words back from 0x10000 in every lane that executes it, and one that does not goes on. -/
theorem test_bra :
    let v := ran (0x0040_3FFF_FFA0_0000 + 2 ^ 50) (fun w => { w with preds := [(1, 0xFFFFFFFE)] })
    ((v.lane 0).pc, (v.lane 1).pc) = (0x10008, 0xFF40) := by decide +kernel

/-- spec/08: counters 1 and 2 after one word in 31 lanes (R154). -/
theorem test_perf_counters :
    let v := ran 0x0D04_0286_0602_8400 (fun w => { packed w with preds := [(1, 0xFFFFFFFE)] })
    (cellGet 0 v.perf 1, cellGet 0 v.perf 2) = (1, 31) := by decide +kernel

/-- spec/21, R343: TRAP parks with SWTRAP at its own address, and TRADDR is its code. -/
theorem test_trap : (((ran 0x0440_0000_0000_4800 id).lane 4).st, ((ran 0x0440_0000_0000_4800 id).lane 4).pc) =
    (.parked cSWTRAP 0x12, 0x10000) := by decide +kernel

/-- R39: a word that is none parks its lanes with ILLEGAL; TRADDR is 0 (Table 21-1). -/
theorem test_illegal : ((ran 0x0600000000000000 id).lane 0).st = .parked cILLEGAL 0 := by decide +kernel

/-- R223, R221: a load from an unmapped page parks its lanes with TMISS and their addresses. -/
theorem test_ldg_misses :
    let v := ran 0x2800_0202_0080_0003 (fun w => { w with vregs := [(69, 0x70000)] })
    ((v.lane 5).st, (v.lane 5).pc) = (.parked cTMISS 0x70100, 0x10000) := by decide +kernel

/-- R236: a load raises CNTLD and its lanes go on; its register comes with the load's end. -/
theorem test_ldg_goes_on :
    let v := ran 0x2800_0202_0080_0003 (fun w => { w with vregs := alike 2 0x10000 })
    (v.cntld, (v.lane 5).pc) = (1, 0x10008) := by decide +kernel

/-- R25: p0 takes nothing; a write to another predicate is seen lane by lane. -/
theorem test_isetp :
    let v := ran (fieldWord [(0x04B, 54), (3, 39), (4, 32), (5, 25), (1, 13), (2, 10)]).toNat (fun w => { w with
      vregs := [(129, 7), (160, 1), (161, 7)] })
    (v.pred 3 0, v.pred 3 1) = (true, false) := by decide +kernel

/-- R36: both halves of a pair read what was before it: v5 and v6 are exchanged. -/
theorem test_pair_swaps :
    let v := ran (fieldWord [(1, 63), (1, 57), (5, 46), (6, 39), (1, 26), (6, 15), (5, 8)]).toNat (fun w => { w with vregs := alike 5 50 ++ alike 6 60 })
    (v.vreg 5 9, v.vreg 6 9) = (60, 50) := by decide +kernel

/-- R174, R6: the destination may be a source. -/
theorem test_sub_in_place : (ran (fieldWord [(0x035, 54), (5, 39), (6, 32), (5, 25), (1, 13)]).toNat (fun w => { w with
    vregs := alike 5 1 ++ alike 6 0 })).vreg 5 0 = -1 := by decide +kernel

/-- R186: SSAR takes its count mod 64 and fills with the sign. -/
theorem test_ssar : (ran (fieldWord [(0x06C, 54), (3, 39), (4, 32), (5, 25)]).toNat (fun w => { w with sregs := [(4, 0x8000000000000000), (5, 0x7F)] })).sreg 3 =
    -1 := by decide +kernel

/-- The word placed at reset is the one that the next step runs. -/
theorem test_reset_runs_placed_word : ((theWave (stepped (State.reset.withFetchWord 64 0x0D00_0286_0602_8400))).lane 0).pc = 0x10008 := by decide +kernel

/-- The worked example of spec/21, steps 1 and 3: lanes 4 and 6 miss, lane 9 is misaligned, CNTLD is 1, the others go on; the lowest address among
the parked lanes gives TRPC, and its cause TRMASK and TRADDR. -/
def missExample : State :=
  let s := onWave (State.reset.place 0x2800_0302_0000_0003) (fun w => { w with
    vregs := (List.range 32).map (fun i => (64 + i, if i = 9 then 0x1004C else if i = 4 ∨ i = 6 then BitVec.ofNat 64 (0x31000000 + 8 * i) else 0x10000)) })
  stepped (onLaunch s (fun l => { l with record := l.record.set 4 0x10800 }))

theorem test_example_misses :
    let v := theWave missExample
    ((v.lane 4).st, (v.lane 9).st, (v.lane 0).pc, v.cntld) = (.parked cTMISS 0x31000020, .parked cALIGN 0x1004C, 0x10008, 1) := by decide +kernel

/-- With its ready lanes held at an RCV the trap is taken. -/
theorem test_example_trap :
    let v := theWave (after (.trapTaken 1 0) (onWave missExample (fun w => { w with
      lanes := w.lanes.map (fun l => if l.st = .ready then { l with atRcv := true } else l) })))
    (v.trcause, v.trpc, v.trmask, v.traddr) = (0x04, 0x10000, 0x50, 0x31000020) := by decide +kernel

/-- Reset leaves what spec/08 R145 and spec/27 R391 say: time 0, readiness 0; and power-on by a good image starts every die (R390). -/
theorem test_power_on : (after (.powerOn ⟨List.replicate 8 true, 5, [], [], [], [], 0, true, [], [], ⟨0, 0, 0⟩⟩) State.reset).ctl.booted = [0, 1, 2, 3, 4, 5, 6, 7] := by
  decide +kernel

/-- The patch of spec/03: a branch at VA 0x4000_0100 to the symbol at 0x4000_0040. -/
theorem test_br28_patch : relocPatch 3 0x0040_0000_0000_0000 0x4000_0040 0x4000_0100 = some 0x0040_3FFF_FFA0_0000 := by decide

/-- Table 3-6: a distance that is no multiple of 8 refuses the load. -/
theorem test_br28_refused : relocPatch 3 0x0040_0000_0000_0000 0x4000_0044 0x4000_0100 = none := by decide

/-- The line of spec/03: an acquiring load of 32 bits with an offset of 8 bytes. -/
theorem test_isbas_load : (lineWord [] ⟨1, 0⟩ "(!p3) LDG.ACQ.DEV.B32 v6, [v2 + 8]".toList).map Prod.fst = some 0x282C_0302_000A_6002 := by
  decide +kernel

/-- The pair of spec/02. -/
theorem test_isbas_pair : (lineWord [] ⟨1, 0⟩ "IADD v7, v5, v6 | FFMA v8, v3, v6".toList).map Prod.fst = some 0x8401_C286_4804_030C := by
  decide +kernel

/-- R51, R52, R56: a branch to an undefined symbol; .text, .symtab, .strtab and .reltab follow a table of four entries. -/
theorem test_isbas_object :
    (assemble ["        .text".toList, "        BRA done   ; elsewhere".toList]).map (fun f =>
      (f.length, fileNat f 6 2, fileNat f 192 8, fileNat f 237 16)) = some (253, 4, 0x0040_0000_0000_0000, 3 * 2 ^ 40) := by
  decide +kernel

/-- R48: a type is needed where an instruction accepts several; R47: a scalar word has q guards. -/
theorem test_isbas_refuses : ["IADD v1, v2, v3", "(p1) SADD s1, s2, s3", "LDG.B64.REL v1, [v2 + 8]", "ANDI v1, v2, 3"].map (fun t =>
    lineWord [] ⟨1, 0⟩ t.toList) = [none, none, none, none] := by decide +kernel

/-- R45: a forward difference fixes the size of a .space, and a label before an .align names the word after the padding. -/
theorem test_isbas_difference :
    (assemble [".data".toList, ".space e - d".toList, "d: .word 1".toList, "e: .word 2".toList]).map (fun f => fileNat f 80 8) = some 24 ∧
    (assemble [".data".toList, "d: .byte 1".toList, "x:".toList, ".align 3".toList, ".word x - d".toList]).map (fun f => fileNat f 65544 8) = some 8 := by
  decide +kernel

end Sys2Proof.Tests
end

/-! What passing cycles change (R1, R154, R389), and what a step does with an event or a passing of cycles on the agenda. -/
namespace Sys2Proof.Machine

/-! ### Stopping by force changes the cores alone -/

/-- A state that differs from another in its cores alone. -/
def CoresOnly (s t : State) : Prop := ∃ c, t = { s with cores := c }

namespace CoresOnly

theorem refl (s : State) : CoresOnly s s := ⟨s.cores, rfl⟩

theorem trans {s t u : State} (h : CoresOnly s t) (g : CoresOnly t u) : CoresOnly s u := by
  obtain ⟨_, rfl⟩ := h
  obtain ⟨c, rfl⟩ := g
  exact ⟨c, rfl⟩

theorem setWave (s : State) (w : Wave) : CoresOnly s (s.setWave w) := ⟨_, rfl⟩

theorem dropLatch (s : State) (core slot : Nat) (p : Nat → Bool) : CoresOnly s (s.dropLatch core slot p) := by
  obtain ⟨_, h⟩ := dropLatch_eq s core slot p
  exact ⟨_, h⟩

theorem dropWait (s : State) (w : Wave) : CoresOnly s (s.dropWait w) := by
  unfold State.dropWait
  dsimp only
  split
  · exact ⟨_, rfl⟩
  · exact .refl s

theorem foldl {α : Type} {f : State → α → State} (hf : ∀ s a, CoresOnly s (f s a)) : ∀ (l : List α) (s : State), CoresOnly s (l.foldl f s)
  | [], s => .refl s
  | a :: l, s => (hf s a).trans (foldl hf l (f s a))

theorem haltWave (s : State) (w : Wave) : CoresOnly s (s.haltWave w) := by
  unfold State.haltWave
  split
  · exact .refl s
  · exact ((dropWait s w).trans (dropLatch _ _ _ _)).trans (setWave _ _)

theorem haltPlaces (s : State) (uid : Nat) (places : List Nat) : CoresOnly s (s.haltPlaces uid places) := foldl haltWave _ s

theorem haltDue (s : State) : CoresOnly s s.haltDue :=
  foldl (fun t (r : StopReq) => haltPlaces t r.launch r.places) _ s

end CoresOnly

/-- Without a forced request nothing stops. -/
theorem haltDue_of_not_forced {s : State} (h : ∀ r ∈ s.tasks.stops, r.forced = false) : s.haltDue = s := by
  have none_forced : s.tasks.stops.filter StopReq.forced = [] := List.filter_eq_nil_iff.mpr (fun r hr => by simp [h r hr])
  rw [State.haltDue, none_forced, List.foldl_nil]

/-! ### Shares and waits -/

/-- Noting the shares (R351) changes the tasks alone. -/
theorem noteShares_tasks (s : State) : ∃ t, s.noteShares = s.setTasks t := by
  unfold State.noteShares
  dsimp only
  split
  · exact ⟨_, rfl⟩
  · exact ⟨s.tasks, rfl⟩

/-- Counter 6 of a wave over the next `n` cycles (R154): those of them that it stands held at a WAIT are added, none where it does not. -/
def State.bumpWait (s : State) (n : Nat) (w : Wave) : Wave :=
  if (s.setCtl { s.ctl with cycle := max s.ctl.cycle w.nextIssue }).atWait w then w.bump 6 (n - (w.nextIssue - s.ctl.cycle)) else w

theorem countWaits_eq (s : State) (n : Nat) : s.countWaits n = s.setWaves (s.cores.waves.map (s.bumpWait n)) := by
  unfold State.countWaits
  dsimp only
  split
  case isTrue => rfl
  case isFalse none_waits =>
    have unchanged : s.cores.waves.map (s.bumpWait n) = s.cores.waves.map id := List.map_congr_left (fun w hw => by
      simp only [List.any_eq_true, not_exists, not_and] at none_waits
      exact if_neg (none_waits w hw))
    rw [unchanged, List.map_id]
    rfl

/-- Before its waits are counted, a passing of cycles leaves control, memory and the device's registers. -/
theorem haltDue_noteShares_kept (s : State) :
    s.haltDue.noteShares.ctl = s.ctl ∧ s.haltDue.noteShares.mem = s.mem ∧ s.haltDue.noteShares.dev = s.dev ∧
      s.haltDue.noteShares.cores = s.haltDue.cores := by
  obtain ⟨_, hn⟩ := noteShares_tasks s.haltDue
  obtain ⟨_, hh⟩ := CoresOnly.haltDue s
  rw [hn, hh]
  exact ⟨rfl, rfl, rfl, rfl⟩

/-- A passing of `n` cycles in its parts. -/
theorem elapse_eq {s u : State} (n : Nat) (h : s.haltDue.noteShares = u) :
    s.elapse n = (u.setWaves (u.cores.waves.map (u.bumpWait n))).setCtl { u.ctl with cycle := u.ctl.cycle + n } := by
  subst h
  unfold State.elapse
  rw [countWaits_eq]
  rfl

/-! ### The step -/

/-- With power, or where the next move applies it, the step is the next move. -/
theorem step_of_power {s : State} (h : s.ctl.power = true ∨ s.poweringOn = true) : step s = s.advance := by
  unfold step
  rw [if_neg]
  rcases h with h | h <;> simp [h]

theorem advance_cons {s : State} {m : Move} {rest : List Move} (h : s.ctl.agenda = m :: rest) : s.advance = (s.setAgenda rest).move m := by
  simp only [State.advance, h]

/-- A move that does not apply power. -/
theorem poweringOn_eq_false {s : State} (h : ∀ l rest, s.ctl.agenda ≠ .event (.powerOn l) :: rest) : s.poweringOn = false := by
  unfold State.poweringOn
  split
  case h_1 l rest e => exact absurd e (h l rest)
  case h_2 => rfl

theorem step_event {s : State} {i : Instr} {rest : List Move} (hp : s.ctl.power = true ∨ s.poweringOn = true)
    (ha : s.ctl.agenda = .event i :: rest) (hi : isEvent i = true) : step s = exec i (s.setAgenda rest) := by
  rw [step_of_power hp, advance_cons ha]
  exact if_pos hi

theorem step_elapse {s : State} {n : Nat} {rest : List Move} (hp : s.ctl.power = true) (ha : s.ctl.agenda = .elapse n :: rest) :
    step s = .next ((s.setAgenda rest).elapse n) := by
  rw [step_of_power (.inl hp), advance_cons ha]
  rfl

theorem step_powerOff {s : State} (hp : s.ctl.power = false) (h : ∀ l rest, s.ctl.agenda ≠ .event (.powerOn l) :: rest) :
    step s = .fault .powerOff := by
  unfold step
  rw [if_pos]
  simp [hp, poweringOn_eq_false h]

/-- Settles O6: an event by its arm of `State.move`, a passing of cycles by its parts (`elapse_eq`), of which stopping by force changes the
cores alone and noting the shares the tasks alone. -/
theorem stepRunsEvent : Obligations.StepRunsEvent := by
  unfold Obligations.StepRunsEvent
  refine ⟨fun s i rest hp ha hi => step_event hp ha hi, fun s u n rest hp ha hu => ?_, fun s hp h => step_powerOff hp h⟩
  obtain ⟨hctl, hmem, hdev, hcores⟩ := haltDue_noteShares_kept (s.setAgenda rest)
  rw [hu] at hctl hmem hdev hcores
  refine ⟨⟨_, step_elapse hp ha, ?_, ?_, ?_, ?_⟩, fun unforced => ?_⟩
  · rw [elapse_eq n hu, hctl]
    rfl
  · rw [elapse_eq n hu]
    exact hmem
  · rw [elapse_eq n hu]
    exact hdev
  · have same_cycle : u.ctl.cycle = s.ctl.cycle := by rw [hctl]; rfl
    rw [elapse_eq n hu, ← same_cycle]
    rfl
  · rw [hcores, haltDue_of_not_forced (s := s.setAgenda rest) unforced]
    rfl

end Sys2Proof.Machine

/-! Decoding and encoding are inverse (spec/02 R22 to R40): every constructor's fields read back, and a word that decodes is the word of its
instruction. -/
namespace Sys2Proof.Laws.RoundTrip

/-- The fields of every instruction read back (family RoundTrip); an event has none. -/
theorem statement (i : Instr) : Statement i := by
  cases i with
  | nop => apply nop | bra => apply bra | brx => apply brx | call => apply call | ret => apply ret | brau => apply brau
  | rcv => apply rcv | exit => apply exit | yield => apply yield | wait => apply wait | sleep => apply sleep | phint => apply phint
  | vote => apply vote | elect => apply elect | mfs => apply mfs | mts => apply mts | launch => apply launch | trap => apply trap
  | svc => apply svc | svcrep => apply svcrep | rte => apply rte | bkpt => apply bkpt | rand => apply rand | perfrd => apply perfrd
  | acqx => apply acqx | relx => apply relx | rcpdef => apply rcpdef | rcptag => apply rcptag | rcpclr => apply rcpclr
  | rcpq => apply rcpq
  | mov => apply mov | movi => apply movi | movk => apply movk | sel => apply sel | iadd => apply iadd | isub => apply isub
  | imul => apply imul | imulh => apply imulh | imad => apply imad | imin => apply imin | imax => apply imax | iabs => apply iabs
  | ineg => apply ineg | and => apply and | or => apply or | xor => apply xor | not => apply not | shl => apply shl | shr => apply shr
  | sar => apply sar | rot => apply rot | bfx => apply bfx | bfi => apply bfi | popc => apply popc | clz => apply clz
  | brev => apply brev | lea => apply lea | isetp => apply isetp | iaddi => apply iaddi | idot => apply idot | plop => apply plop
  | lshf => apply lshf | lbcast => apply lbcast | lred => apply lred | lscan => apply lscan | lperm => apply lperm
  | rdlane => apply rdlane | wrlane => apply wrlane
  | smov => apply smov | smovi => apply smovi | smovk => apply smovk | sadd => apply sadd | ssub => apply ssub | smul => apply smul
  | smad => apply smad | sand => apply sand | sor => apply sor | sxor => apply sxor | sshl => apply sshl | sshr => apply sshr
  | ssar => apply ssar | ssetq => apply ssetq | smin => apply smin | smax => apply smax
  | fadd => apply fadd | fsub => apply fsub | fmul => apply fmul | ffma => apply ffma | fmin => apply fmin | fmax => apply fmax
  | fsetp => apply fsetp | fcvt => apply fcvt | frnd => apply frnd | i2f => apply i2f | f2i => apply f2i | frcp => apply frcp
  | frsq => apply frsq | fsqrt => apply fsqrt | fexp2 => apply fexp2 | fexp2Fs => apply fexp2Fs | flog2 => apply flog2
  | fsin => apply fsin | fcos => apply fcos | ftanh => apply ftanh | fdot => apply fdot | fclass => apply fclass | fscale => apply fscale
  | ldg => apply ldg | stg => apply stg | ldp => apply ldp | stp => apply stp | ldk => apply ldk | pref => apply pref
  | cinv => apply cinv | pqry => apply pqry | fence => apply fence | atom => apply atom | atomp => apply atomp | red => apply red
  | hgath => apply hgath
  | tbld => apply tbld | tbrd => apply tbrd | tbinv => apply tbinv | frq => apply frq | bndq => apply bndq | revack => apply revack
  | lossack => apply lossack | rtq => apply rtq | rtinv => apply rtinv
  | cpy => apply cpy | cpyx => apply cpyx | cpym => apply cpym | cpyd => apply cpyd | srarv => apply srarv | srwt => apply srwt
  | obres => apply obres | obrel => apply obrel | obld => apply obld | acca => apply acca | accf => apply accf | accz => apply accz
  | mma => apply mma | mmas => apply mmas | accrd => apply accrd | accwr => apply accwr | drain => apply drain
  | bar => apply bar | bara => apply bara | barw => apply barw | grpq => apply grpq | chsend => apply chsend | chrecv => apply chrecv
  | chq => apply chq
  | pairWord => apply pairWord
  | _ => exact fun _ _ h => nomatch h

end Sys2Proof.Laws.RoundTrip

namespace Sys2Proof

/-! ### Decoding -/

/-- A well-formed instruction fails none of its checks. -/
theorem find?_checks {i : Instr} : (checks i).find? (fun p => !p.1) = none ↔ wellFormed i = true := by
  simp [wellFormed, List.find?_eq_none]

/-- What decoding accepts: the well-formed instruction that the fields name, where the word is its encoding (R39, R40). -/
theorem decode_eq_ok_iff {w : Word} {i : Instr} :
    decode w = .ok i ↔ candidate w.toNat = some i ∧ wellFormed i = true ∧ encode i = some w.toNat := by
  unfold decode
  rcases candidate w.toNat with _ | j
  · simp
  · rw [← find?_checks]
    rcases hf : (checks j).find? (fun p => !p.1) with _ | failed
    · by_cases he : encode j = some w.toNat <;> grind
    · grind

/-- A word that no instruction decodes to is refused with some reason. -/
theorem decode_error {x : Word} (h : ∀ i, decode x ≠ .ok i) : ∃ r, decode x = .error r := by
  cases hx : decode x with
  | ok i => exact absurd hx (h i)
  | error r => exact ⟨r, rfl⟩

/-! ### Encoding -/

/-- The word of an instruction: a full word of its fields (R22), or the two halves of a pair with bit 63 (R35). -/
theorem encode_eq_some {i : Instr} {x : Nat} (h : encode i = some x) :
    (∃ f, fieldsOf i = some f ∧ x = f.word) ∨
      ∃ h0 h1 st, i = .pairWord h0 h1 st ∧ x = 2 ^ 63 + h0.word * 2 ^ 32 + h1.word * 2 + st.toNat := by
  unfold encode at h
  split at h
  case h_1 h0 h1 st => exact .inr ⟨h0, h1, st, rfl, (Option.some.inj h).symm⟩
  case h_2 =>
    obtain ⟨f, hf, hx⟩ := Option.map_eq_some_iff.mp h
    exact .inl ⟨f, hf, hx.symm⟩

/-- The halves of a well-formed pair are well formed. -/
theorem halves_of_wellFormed {h0 h1 : Half} {st : Bool} (h : wellFormed (.pairWord h0 h1 st) = true) :
    (WF.half h0).all Prod.fst = true ∧ (WF.half h1).all Prod.fst = true := by
  rwa [wellFormed, checks, List.all_append, Bool.and_eq_true] at h

/-- The word of a well-formed instruction has 64 bits, and its fields name the instruction. -/
theorem candidate_of_encode {i : Instr} {x : Nat} (hw : wellFormed i = true) (he : encode i = some x) :
    x < 2 ^ 64 ∧ candidate x = some i := by
  rcases encode_eq_some he with ⟨f, hf, rfl⟩ | ⟨h0, h1, st, rfl, rfl⟩
  · obtain ⟨fits, names⟩ := Laws.RoundTrip.statement i f hw hf
    have := word_lt fits
    exact ⟨by omega, by rw [candidate_word fits, names]⟩
  · obtain ⟨w0, w1⟩ := halves_of_wellFormed hw
    have b0 := (half_word w0).1
    have b1 := (half_word w1).1
    have := bool_lt st
    exact ⟨by omega, candidate_pair w0 w1⟩

/-- Decoding gives back a well-formed instruction from its word. -/
theorem decode_encode {i : Instr} {x : Nat} (hw : wellFormed i = true) (he : encode i = some x) : decode (BitVec.ofNat 64 x) = .ok i := by
  obtain ⟨hx, hc⟩ := candidate_of_encode hw he
  rw [decode_eq_ok_iff, BitVec.toNat_ofNat, Nat.mod_eq_of_lt hx]
  exact ⟨hc, hw, he⟩

/-- Settles O1: the fields of a full word, or the halves of a pair, read back. -/
theorem encodedInstructionDecodes : Obligations.EncodedInstructionDecodes := by
  unfold Obligations.EncodedInstructionDecodes
  exact fun i x hw he => ⟨(candidate_of_encode hw he).1, decode_encode hw he⟩

/-- Settles O2: decoding asks for the encoding itself, which is one number. -/
theorem decodedWordIsItsEncoding : Obligations.DecodedWordIsItsEncoding := by
  unfold Obligations.DecodedWordIsItsEncoding
  refine ⟨fun x i h => (decode_eq_ok_iff.mp h).2, fun x y i hx hy => ?_⟩
  obtain ⟨-, -, ex⟩ := decode_eq_ok_iff.mp hx
  obtain ⟨-, -, ey⟩ := decode_eq_ok_iff.mp hy
  exact BitVec.eq_of_toNat_eq (Option.some.inj (ex.symm.trans ey))

/-- Settles O3: each word is the encoding of its instruction, which is well formed. -/
theorem exampleWordsDecode : Obligations.ExampleWordsDecode := by
  unfold Obligations.ExampleWordsDecode
  refine ⟨?_, ?_, ?_, ?_, ?_, ?_, ?_, ?_, ?_⟩ <;> exact decode_encode (by decide) (by decide)

/-! ### Reserved opcodes -/

/-- The opcodes of full words that Table 2-13 assigns, as ranges. -/
def assignedOpcodes : List (Nat × Nat) :=
  [(0x000, 0x017), (0x020, 0x025), (0x030, 0x04E), (0x050, 0x056), (0x060, 0x06F), (0x080, 0x095), (0x0A0, 0x0AC),
    (0x0B0, 0x0B8), (0x0C0, 0x0C5), (0x0D0, 0x0DA), (0x0E0, 0x0E6)]

/-- Fields name an instruction only by an assigned opcode. -/
theorem opcode_assigned {f : Fields} {i : Instr} (h : ofFields f = some i) : ∃ r ∈ assignedOpcodes, r.1 ≤ f.opc ∧ f.opc ≤ r.2 := by
  unfold ofFields at h
  split at h
  case h_153 => cases h
  all_goals
    next opcode =>
    rw [opcode]
    decide

/-- A well-formed half has its fields in their places: above them stands its opcode. -/
theorem half_opcode {h : Half} (hw : (WF.half h).all Prod.fst = true) : h.word / 2 ^ 25 = h.op.code := by
  have reads : Half.ofWord h.word = h := by simpa only [Nat.mul_zero, Nat.add_zero] using (half_word hw).2 0
  have guard_lt : h.g.code < 16 := Guard.code_lt (by rw [← reads]; exact Nat.mod_lt _ (by decide))
  have fields_lt : h.d < 128 ∧ h.s < 128 ∧ h.x < 128 := by
    rw [← reads]
    exact ⟨Nat.mod_lt _ (by decide), Nat.mod_lt _ (by decide), Nat.mod_lt _ (by decide)⟩
  unfold Half.word
  omega

/-- Table 2-11 assigns the half opcodes below 0x18. -/
theorem HalfOp.code_lt_reserved (o : HalfOp) : o.code < 0x18 := by cases o <;> decide

/-- Settles O4: a full word that decodes has the opcode of its candidate, a pair the opcodes of its halves; both are assigned. -/
theorem unassignedOpcodesRefused : Obligations.UnassignedOpcodesRefused := by
  unfold Obligations.UnassignedOpcodesRefused
  refine ⟨fun x hx unassigned => decode_error fun i hi => ?_, fun x hx reserved => decode_error fun i hi => ?_⟩
  · obtain ⟨hc, -, -⟩ := decode_eq_ok_iff.mp hi
    rw [candidate, if_neg (by omega)] at hc
    obtain ⟨r, hr, within⟩ := opcode_assigned hc
    refine unassigned r hr ?_
    rwa [Fields.ofWord, Nat.mod_eq_of_lt (by omega)] at within
  · obtain ⟨-, hw, he⟩ := decode_eq_ok_iff.mp hi
    rcases encode_eq_some he with ⟨f, hf, hx'⟩ | ⟨h0, h1, st, rfl, hx'⟩
    · have := word_lt (Laws.RoundTrip.statement i f hw hf).1
      omega
    · obtain ⟨w0, w1⟩ := halves_of_wellFormed hw
      have o0 := half_opcode w0
      have o1 := half_opcode w1
      have b0 := (half_word w0).1
      have b1 := (half_word w1).1
      have := bool_lt st
      have := h0.op.code_lt_reserved
      have := h1.op.code_lt_reserved
      omega

end Sys2Proof

/-! Words that write a lane predicate (spec/02 R25; spec/08 R152; spec/10 R183, R184; spec/12 R209): `ELECT`, `ISETP`, `PLOP` and `FSETP` run `pBody`
with the value that the table `predWord` gives. -/
namespace Sys2Proof.Machine
open Sys2Proof.Safety

/-- A clear word sees the lane predicates as they stand. -/
theorem clearEx_pred {c : Ctl} {u : Use} {s : State} {w : Wave} {pc : CodeAddr} (h : Clear c u s w pc) (p i : Nat) :
    (clearEx c u s w pc).w.pred p i = w.pred p i := by
  obtain ⟨m, hm⟩ := clearEx_w h
  rw [hm]
  rfl

/-- A word of the table runs `pBody`, and its value in an executing lane is the table's. -/
theorem exec_predWord {i : Instr} {c : Ctl} {u : Use} {d : Nat} {f : InLane Bool} (hi : predWord i = some (c, u, d, f)) :
    ∃ g : Ex → Nat → Bool, (∀ s, exec i s = word c u (pBody d g) s) ∧
      ∀ s w pc, Clear c u s w pc → ∀ k < 32, g (clearEx c u s w pc) k = f s w (execLanes c u.q w (w.activeAt pc)) k := by
  unfold predWord at hi
  split at hi
  case h_1 => -- ELECT: the lowest executing lane
    cases hi
    exact ⟨_, fun _ => rfl, fun _ _ _ _ _ _ => rfl⟩
  case h_2 => -- ISETP
    cases hi
    exact ⟨_, fun _ => rfl, fun s w pc h k hk => by rw [clearEx_v h hk, clearEx_b h _ hk]; rfl⟩
  case h_3 => -- PLOP
    cases hi
    exact ⟨_, fun _ => rfl, fun s w pc h k _ => by rw [clearEx_pred h, clearEx_pred h]⟩
  case h_4 => -- FSETP
    cases hi
    exact ⟨_, fun _ => rfl, fun s w pc h k hk => by rw [clearEx_v h hk, clearEx_b h _ hk]; rfl⟩
  case h_5 => cases hi

/-- Settles O10: each word of the table runs `pBody` with the table's value, and `word_pBody` says what that leaves. -/
theorem predicateWords : Obligations.PredicateWords := by
  unfold Obligations.PredicateWords
  intro i c u d f s w pc hi h
  obtain ⟨g, runs, value⟩ := exec_predWord hi
  obtain ⟨t, v, ht, went, rest, pred, kept⟩ := word_pBody (d := d) (f := g) h
  refine ⟨t, v, (runs s).trans ht, went, rest, fun q k hk => ?_, kept⟩
  rw [pred q k hk, value s w pc h k hk]

end Sys2Proof.Machine

/-! Words that are turned away (spec/02 R39, R43; spec/08 R143; spec/09 R156): which check of `attempt` faults first, what the parking of lanes
leaves, and that each word of the tables of `useOf` is a `word` with what its table says it names. -/
namespace Sys2Proof.Machine
open Sys2Proof.Safety

/-! ### Taking back a wait -/

theorem dropWait_waves (s : State) (w : Wave) : (s.dropWait w).cores.waves = s.cores.waves := by
  unfold State.dropWait
  dsimp only
  split <;> rfl

theorem dropWait_wave? (s : State) (w : Wave) (c k : Nat) : (s.dropWait w).wave? c k = s.wave? c k := by
  unfold State.wave?
  rw [dropWait_waves]

/-- Taking back a wait leaves control, memory, tasks and the device's registers. -/
theorem dropWait_kept (s : State) (w : Wave) : (s.dropWait w).ctl = s.ctl ∧ (s.dropWait w).mem = s.mem ∧ (s.dropWait w).tasks = s.tasks ∧
    (s.dropWait w).dev = s.dev := by
  obtain ⟨_, h⟩ := CoresOnly.dropWait s w
  rw [h]
  exact ⟨rfl, rfl, rfl, rfl⟩

/-! ### Parking lanes -/

/-- Faults of some lanes, all alike. -/
def alike (lanes : List Nat) (cause : Nat) (addr : Word) : List (Nat × Nat × Word) := lanes.map (fun i => (i, cause, addr))

/-- The fault of a lane among faults that are all alike. -/
theorem find?_alike (lanes : List Nat) (cause : Nat) (addr : Word) (j : Nat) :
    (alike lanes cause addr).find? (fun p => p.1 == j) = if j ∈ lanes then some (j, cause, addr) else none := by
  induction lanes with
  | nil => rfl
  | cons i l ih =>
    have step : (alike (i :: l) cause addr).find? (fun p => p.1 == j) =
        if i = j then some (i, cause, addr) else (alike l cause addr).find? (fun p => p.1 == j) := by
      by_cases h : i = j <;> simp [alike, h]
    rw [step, ih]
    by_cases h : i = j
    · simp [h]
    · simp [h, Ne.symm h]

/-- The wave at the focus stands in its slot. -/
theorem wave?_of_at {s : State} {w : Wave} {pc : CodeAddr} (h : At s w pc) : s.wave? w.core w.slot = some w := by
  obtain ⟨hc, hk⟩ := State.wave?_core h.here
  rw [hc, hk]
  exact h.here

/-- A word turned away parks the lanes it names, and nothing else takes effect; HANGCNT and its due are as `n` and `due` say. -/
theorem parks_turnedAway {s : State} {w : Wave} {pc : CodeAddr} {lanes : List Nat} (h : At s w pc) (hl : ∀ i ∈ lanes, (w.lane i).st = .ready)
    (cause : Nat) (addr : Word) (n : Nat) (due : Bool) :
    ∃ v, Parks s w lanes cause addr (turnedAway (s.dropWait w) { w with hangArmed := due, hangcnt := n } (alike lanes cause addr)) v ∧
      v.hangArmed = due ∧ v.hangcnt = n := by
  obtain ⟨ctl, mem, tasks, dev⟩ := dropWait_kept s w
  obtain ⟨m, hm⟩ := parkAll_other (alike lanes cause addr) { w with hangArmed := due, hangcnt := n }
  have found : (s.dropWait w).wave? w.core w.slot = some w := (dropWait_wave? ..).trans (wave?_of_at h)
  unfold turnedAway
  dsimp only
  refine ⟨_, ⟨State.wave?_setWave_self found ?_ ?_, fun i hi => ?_, ?_, ?_, ?_, ⟨tasks, ctl, mem, dev, rfl⟩, fun a b hab => ?_⟩, ?_, ?_⟩
  · rw [hm]
  · rw [hm]
  · have same : ({ w with hangArmed := due, hangcnt := n } : Wave).lane i = w.lane i := rfl
    refine (lane_parkAll _ _ i).trans ?_
    rw [find?_alike, same]
    by_cases hil : i ∈ lanes
    · rw [if_pos (hl i hil), if_pos hil, if_pos hil]
      rfl
    · rw [if_neg hil, if_neg hil, ite_self]
  all_goals rw [hm]
  · exact ⟨rfl, rfl, rfl, rfl⟩
  · exact ⟨rfl, rfl⟩
  · exact specialKept_same rfl
  · refine (State.wave?_setWave_other _ _ ?_).trans (dropWait_wave? ..)
    exact fun e => hab ⟨e.1.symm, e.2.symm⟩

/-- The same for a word that does not touch the hang detector. -/
theorem parks_turnedAway_calm {s : State} {w : Wave} {pc : CodeAddr} {lanes : List Nat} (h : At s w pc) (hl : ∀ i ∈ lanes, i ∈ w.activeAt pc)
    (cause : Nat) (addr : Word) : ∃ v, Parks s w lanes cause addr (turnedAway (s.dropWait w) w (alike lanes cause addr)) v := by
  obtain ⟨v, parks, -⟩ := parks_turnedAway h (fun i hi => activeAt_ready (hl i hi)) cause addr w.hangcnt w.hangArmed
  exact ⟨v, parks⟩

/-! ### The first check that fails -/

section
variable {u : Use} {body : Ex → Out} {s : State} {w : Wave} {pc : CodeAddr} {active lanes : List Nat} {hnd : Bool}

/-- A HANG that is due comes before every other check, for the whole active set (R143). -/
theorem attempt_hang (due : w.hangArmed = true) : attempt u body s w pc active lanes hnd = .fault cHANG 0 active := by
  unfold attempt
  exact if_pos due

variable (hang : w.hangArmed = false) (some : lanes ≠ []) (launch : (s.launch w.launch).pure = false)
include hang some launch

/-- A word that some lane executes, with no HANG due and in a launch that is not pure: ILLEGAL comes first of its checks. -/
theorem attempt_illegal (hill : u.illegal = true) :
    attempt u body s w pc active lanes hnd = .fault cILLEGAL 0 (if u.q then active else lanes) := by
  simp [attempt, State.strayFetch, hang, some, launch, hill]

variable (legal : u.illegal = false)
include legal

/-- PRIV comes before ROLE (R39). -/
theorem attempt_priv (low : w.mode < u.mode) : attempt u body s w pc active lanes hnd = .fault cPRIV 0 (if u.q then active else lanes) := by
  simp [attempt, State.strayFetch, hang, some, launch, legal, low]

variable (mode : u.mode ≤ w.mode)
include mode

theorem attempt_role (other : w.role ∉ u.roles) :
    attempt u body s w pc active lanes hnd = .fault cROLE 0 (if u.q then active else lanes) := by
  simp [attempt, State.strayFetch, hang, some, launch, legal, Nat.not_lt.mpr mode, other]

variable (role : w.role ∈ u.roles)
include role

theorem attempt_badBank (bad : u.badBank = true) :
    attempt u body s w pc active lanes hnd = .fault cPAIRBANK 0 (if u.q then active else lanes) := by
  simp [attempt, State.strayFetch, hang, some, launch, legal, Nat.not_lt.mpr mode, role, bad]

/-- RANGE is the last of them, with the register that lies outside the block (R156). -/
theorem attempt_range {r : Nat} (good : u.badBank = false) (out : w.outOfBlock u = .some r) :
    attempt u body s w pc active lanes hnd = .fault cRANGE (BitVec.ofNat 64 r) (if u.q then active else lanes) := by
  simp [attempt, State.strayFetch, hang, some, launch, legal, Nat.not_lt.mpr mode, role, good, out]

end

/-- The least register outside the wave's block is the one reported (R156). -/
theorem outOfBlock_eq_some {w : Wave} {u : Use} {r : Nat} (hr : r ∈ u.vr ++ u.vw ++ u.touch ++ u.named) (out : w.vcount ≤ r)
    (least : ∀ q ∈ u.vr ++ u.vw ++ u.touch ++ u.named, w.vcount ≤ q → r ≤ q) : w.outOfBlock u = some r := by
  unfold Wave.outOfBlock
  rw [List.min?_eq_some_iff]
  simp only [List.mem_filter, decide_eq_true_eq]
  exact ⟨⟨hr, out⟩, fun q hq => least q hq.1 hq.2⟩

/-! ### A word that a check faults -/

section
variable {c : Ctl} {u : Use} {body : Ex → Out} {s : State} {w : Wave} {pc : CodeAddr}

/-- A launch that is not pure fetches nothing astray (R102). -/
theorem fetched_of_not_pure (h : (s.launch w.launch).pure = false) (lanes : List Nat) : s.fetched w pc lanes = s := by
  simp [State.fetched, State.strayFetch, h]

/-- A word that a check faults: its lanes are dealt with as `faulted` says, and the wave waits for no storage. -/
theorem word_fault {cause : Nat} {addr : Word} {l : List Nat} (h : At s w pc) (hpure : (s.launch w.launch).pure = false)
    (hf : attempt (u.guarded c) body s w pc (w.activeAt pc) (execLanes c u.q (s.view w (guardsOf c u.q)) (w.activeAt pc)) false =
      .fault cause addr l) :
    word c u body s = .next (faulted c (u.guarded c) (s.dropWait w) w pc (w.activeAt pc) cause addr l) := by
  unfold word
  rw [h.here]
  simp only [h.own, h.addr]
  unfold issueWord
  simp only [fetched_of_not_pure hpure, hf]

/-- Guards that are settled are read as they stand. -/
theorem view_settled_guards {q : Bool} (h : s.pendOf w (guardsOf c q) true = []) : s.view w (guardsOf c q) = w := by
  cases q with
  | false => exact view_guards (u := { q := false }) h
  | true => exact view_guards (u := { q := true }) h

/-- The same where the word faces its checks, so that its guards are read as they stand. -/
theorem word_fault_of_faces {cause : Nat} {addr : Word} {l : List Nat} (h : Faces c u s w pc)
    (hf : attempt (u.guarded c) body s w pc (w.activeAt pc) (execLanes c u.q w (w.activeAt pc)) false = .fault cause addr l) :
    word c u body s = .next (faulted c (u.guarded c) (s.dropWait w) w pc (w.activeAt pc) cause addr l) :=
  word_fault h.pos h.pure (by rwa [view_settled_guards h.guards])

/-- The lanes that a word turned away parks are active. -/
theorem targets_sub {i : Nat} (h : i ∈ targets c u w pc) : i ∈ w.activeAt pc := by
  unfold targets at h
  split at h
  · exact h
  · exact execLanes_sub h

/-- A cause of R39 turns the word away: its lanes park at it. -/
theorem faulted_beforeIssue {active lanes : List Nat} {cause : Nat} {addr : Word} (h : At s w pc) (hl : ∀ i ∈ lanes, i ∈ w.activeAt pc)
    (hc : beforeIssue cause = true) :
    ∃ v, Parks s w lanes cause addr (faulted c u (s.dropWait w) w pc active cause addr lanes) v := by
  have no_hang : cause ≠ cHANG := by
    rintro rfl
    exact absurd hc (by decide)
  unfold faulted
  rw [if_neg no_hang, if_pos hc]
  exact parks_turnedAway_calm h hl cause addr

/-- HANG due before a word: the whole active set parks at it, and the detector starts again (R143). -/
theorem word_hang (h : At s w pc) (hpure : (s.launch w.launch).pure = false) (due : w.hangArmed = true) :
    ∃ t v, word c u body s = .next t ∧ Parks s w (w.activeAt pc) cHANG 0 t v ∧ v.hangArmed = false ∧ v.hangcnt = 0 := by
  obtain ⟨v, parks⟩ := parks_turnedAway h (fun i hi => activeAt_ready hi) cHANG 0 0 false
  exact ⟨_, v, word_fault h hpure (attempt_hang due), parks⟩

/-- A word that faces its checks and fails one of R39. -/
theorem word_turnedAway {cause : Nat} (h : Faces c u s w pc) (hc : beforeIssue cause = true)
    (hf : attempt (u.guarded c) body s w pc (w.activeAt pc) (execLanes c u.q w (w.activeAt pc)) false = .fault cause 0 (targets c u w pc)) :
    ∃ t v, word c u body s = .next t ∧ Parks s w (targets c u w pc) cause 0 t v := by
  obtain ⟨v, parks⟩ := faulted_beforeIssue (c := c) (u := u.guarded c) (active := w.activeAt pc) (addr := 0) h.pos (fun i => targets_sub) hc
  exact ⟨_, v, word_fault_of_faces h hf, parks⟩

end

/-! ### A word that names a register outside the block (R156) -/

section
variable {c : Ctl} {u : Use} {body : Ex → Out} {s : State} {w : Wave} {pc : CodeAddr}

/-- The end of a word whose effect left the state `s1` and its wave `w1`, some lanes having faulted alike: these park at it, and the other active
lanes go on (R8, R133). -/
theorem ends_finish {s1 : State} {w1 : Wave} {lanes executing : List Nat} {cause : Nat} {addr : Word} {n : Option Nat} (own : w.hnd = none)
    (found : s1.wave? w.core w.slot = some w1) (stand : w1.lanes = w.lanes) (some : w.activeAt pc ≠ [])
    (settled : s1.pendOf w u true = []) (hl : ∀ i ∈ lanes, i ∈ w.activeAt pc) :
    ∃ v, Ends s1 w1 w pc (fun k l => if k ∈ lanes then parked cause addr l else { l with pc := pc + 8 })
      (finish c u s1 w pc (w.activeAt pc) executing { faults := alike lanes cause addr, count := n }) v := by
  have ready : ∀ i ∈ w.activeAt pc, (w1.lane i).st = .ready := fun i hi => by
    rw [Wave.lane, stand]
    exact activeAt_ready hi
  have nodup := nodup_activeAt w pc
  obtain ⟨j, hj⟩ := List.exists_mem_of_ne_nil _ some
  obtain ⟨v, hv, booked, kept⟩ := finish_live (c := c) (lanes := executing) (r := { faults := alike lanes cause addr, count := n }) found own
    settled (doneLanes_live _ w1 pc nodup (ready j hj) hj)
  have lanes_done : ∀ i < 32, v.lane i = if i ∈ w.activeAt pc then
      (if i ∈ lanes then parked cause addr (w1.lane i) else { w1.lane i with pc := pc + 8 }) else w1.lane i := by
    intro i _
    have done : v.lane i = (Done.lanes { faults := alike lanes cause addr, count := n } w1 pc (w.activeAt pc)).lane i := by
      obtain ⟨_, _, _, _, _, _, _, _, rfl⟩ := booked
      rfl
    rw [done]
    by_cases hi : i ∈ w.activeAt pc
    · rw [lane_done _ w1 pc nodup (ready i hi) hi, if_pos hi, find?_alike]
      by_cases hil : i ∈ lanes
      · rw [if_pos hil, if_pos hil]
        rfl
      · rw [if_neg hil, if_neg hil]
        rfl
    · rw [if_neg hi, lane_done_other _ w1 pc (fun p hp => ?_) hi]
      obtain ⟨k, hk, rfl⟩ := List.mem_map.mp hp
      exact hl k hk
  obtain ⟨m, hm⟩ := doneLanes_other { faults := alike lanes cause addr, count := n } w1 pc (w.activeAt pc)
  rw [hm] at booked
  obtain ⟨_, _, _, _, _, _, _, _, rfl⟩ := booked
  exact ⟨_, hv, lanes_done, ⟨rfl, rfl, rfl, rfl⟩, ⟨rfl, rfl⟩, specialKept_same rfl, kept.tasks, kept.mem, kept.ctxs, kept.dev, kept.waves⟩

/-- RANGE is a fault of an issued word: the lanes that execute it park, and the others go on (log 24). -/
theorem word_range {r : Nat} (h : Faces c u s w pc) (settled : s.pendOf w (u.guarded c) true = [])
    (hf : attempt (u.guarded c) body s w pc (w.activeAt pc) (execLanes c u.q w (w.activeAt pc)) false =
      .fault cRANGE (BitVec.ofNat 64 r) (targets c u w pc)) :
    ∃ t v, word c u body s = .next t ∧ Ends (s.dropWait w) w w pc
      (fun k l => if k ∈ targets c u w pc then parked cRANGE (BitVec.ofNat 64 r) l else { l with pc := pc + 8 }) t v := by
  have active : w.activeAt pc ≠ [] := by
    obtain ⟨j, hj⟩ := List.exists_mem_of_ne_nil _ h.some
    exact List.ne_nil_of_mem (execLanes_sub hj)
  have still : (s.dropWait w).pendOf w (u.guarded c) true = [] := by
    rw [pendOf_congr w _ true (congrArg Control.cycle (dropWait_kept s w).1)]
    exact settled
  obtain ⟨v, ends⟩ := ends_finish (c := c) (u := u.guarded c) (executing := []) (cause := cRANGE) (addr := BitVec.ofNat 64 r)
    (n := some ((u.guarded c).counted.getD (if (u.guarded c).q then 0 else (targets c u w pc).length))) h.pos.own
    ((dropWait_wave? ..).trans (wave?_of_at h.pos)) rfl active still (fun i => targets_sub)
  exact ⟨_, v, word_fault_of_faces h hf, ends⟩

end

/-! ### The words of the tables -/

/-- An instruction runs as a word that names what `u` names, and asks for what `u` asks for; it may read registers in other widths (R159). -/
def RunsAs (i : Instr) (c : Ctl) (u : Use) : Prop :=
  u.illegal = false ∧ u.badBank = false ∧
    ∃ ebits widths body, ∀ s, exec i s = word c { u with ebits := ebits, widths := widths } body s

theorem runsAs_vecWord {i : Instr} {c : Ctl} {u : Use} {d : Nat} {f : InLane Word} (h : vecWord i = some (c, u, d, f)) : RunsAs i c u := by
  unfold vecWord at h
  split at h
  all_goals cases h
  all_goals exact ⟨rfl, rfl, _, _, _, fun _ => rfl⟩

theorem runsAs_predWord {i : Instr} {c : Ctl} {u : Use} {d : Nat} {f : InLane Bool} (h : predWord i = some (c, u, d, f)) : RunsAs i c u := by
  unfold predWord at h
  split at h
  all_goals cases h
  all_goals exact ⟨rfl, rfl, _, _, _, fun _ => rfl⟩

theorem runsAs_floatWord {i : Instr} {c : Ctl} {u : Use} {d : Nat} {b : Bool} {f : InLane VRes} (h : floatWord i = some (c, u, d, b, f)) :
    RunsAs i c u := by
  unfold floatWord at h
  split at h
  all_goals cases h
  all_goals exact ⟨rfl, rfl, _, _, _, fun _ => rfl⟩

theorem runsAs_scalWord {i : Instr} {c : Ctl} {u : Use} {d : Nat} {f : State → Wave → List Nat → Word} (h : scalWord i = some (c, u, d, f)) :
    RunsAs i c u := by
  unfold scalWord at h
  split at h
  all_goals cases h
  all_goals exact ⟨rfl, rfl, _, _, _, fun _ => rfl⟩

theorem runsAs_bindingWord {i : Instr} {c : Ctl} {u : Use} {f : Effect} (h : bindingWord i = some (c, u, f)) : RunsAs i c u := by
  unfold bindingWord at h
  split at h
  all_goals cases h
  all_goals exact ⟨rfl, rfl, _, _, _, fun _ => rfl⟩

theorem runsAs_ringWord {i : Instr} {c : Ctl} {u : Use} {f : Effect} (h : ringWord i = some (c, u, f)) : RunsAs i c u := by
  unfold ringWord at h
  split at h
  all_goals cases h
  all_goals exact ⟨rfl, rfl, _, _, _, fun _ => rfl⟩

theorem runsAs_reserveWord {i : Instr} {c : Ctl} {u : Use} {f : Effect} (h : reserveWord i = some (c, u, f)) : RunsAs i c u := by
  unfold reserveWord at h
  split at h
  all_goals cases h
  all_goals exact ⟨rfl, rfl, _, _, _, fun _ => rfl⟩

theorem runsAs_tileForm {i : Instr} {x : TileForm} (h : tileForm i = some x) : RunsAs i x.c x.u := by
  unfold tileForm at h
  split at h
  all_goals cases h
  all_goals exact ⟨rfl, rfl, _, _, _, fun _ => rfl⟩

theorem runsAs_copyWord {i : Instr} {c : Ctl} {u : Use} {q : Nat} {f : Wave → Nat → JobReq} (h : copyWord i = some (c, u, q, f)) :
    RunsAs i c u := by
  unfold copyWord at h
  split at h
  all_goals cases h
  all_goals exact ⟨rfl, rfl, _, _, _, fun _ => rfl⟩

theorem runsAs_mtsWord {i : Instr} {c : Ctl} {u : Use} {f : Effect} (h : mtsWord i = some (c, u, f)) : RunsAs i c u := by
  unfold mtsWord at h
  split at h
  case h_1 c a n =>
    cases h
    cases a <;> exact ⟨rfl, rfl, _, _, _, fun _ => rfl⟩
  case h_2 => cases h

/-- Every word of the tables of `useOf` runs as a word with what its table says. -/
theorem runsAs_useOf {i : Instr} {c : Ctl} {u : Use} (h : useOf i = some (c, u)) : RunsAs i c u := by
  simp only [useOf, Option.or_eq_some_iff, Option.map_eq_some_iff, Prod.mk.injEq] at h
  rcases h with ⟨x, hx, rfl, rfl⟩ | ⟨-, ⟨x, hx, rfl, rfl⟩ | ⟨-, ⟨x, hx, rfl, rfl⟩ | ⟨-, ⟨x, hx, rfl, rfl⟩ | ⟨-, ⟨x, hx, rfl, rfl⟩ |
    ⟨-, ⟨x, hx, rfl, rfl⟩ | ⟨-, ⟨x, hx, rfl, rfl⟩ | ⟨-, ⟨x, hx, rfl, rfl⟩ | ⟨-, ⟨x, hx, rfl, rfl⟩ | ⟨-, ⟨x, hx, rfl, rfl⟩⟩⟩⟩⟩⟩⟩⟩⟩⟩
  exacts [runsAs_vecWord hx, runsAs_predWord hx, runsAs_floatWord hx, runsAs_scalWord hx, runsAs_bindingWord hx, runsAs_ringWord hx,
    runsAs_reserveWord hx, runsAs_tileForm hx, runsAs_copyWord hx, runsAs_mtsWord hx]

/-! ### Words turned away -/

/-- The widths of what a word reads do not bear on what it names. -/
theorem pendOf_widths (s : State) (w : Wave) (c : Ctl) (u : Use) (ebits : Nat) (widths : List (PKind × Nat × Nat)) :
    s.pendOf w (({ u with ebits := ebits, widths := widths } : Use).guarded c) true = s.pendOf w (u.guarded c) true := by
  unfold Use.guarded
  cases u.q <;> rfl

/-- A word of the tables faces its checks in the order HANG, PRIV, ROLE, RANGE. -/
theorem checks_in_order {c : Ctl} {u : Use} {body : Ex → Out} {s : State} {w : Wave} {pc : CodeAddr} (legal : u.illegal = false)
    (good : u.badBank = false) (faces : Faces c u s w pc) :
    (w.mode < u.mode → ∃ t v, word c u body s = .next t ∧ Parks s w (targets c u w pc) cPRIV 0 t v) ∧
    (u.mode ≤ w.mode → w.role ∉ u.roles → ∃ t v, word c u body s = .next t ∧ Parks s w (targets c u w pc) cROLE 0 t v) ∧
    ∀ r, u.mode ≤ w.mode → w.role ∈ u.roles → s.pendOf w (u.guarded c) true = [] → r ∈ u.vr ++ u.vw ++ u.touch ++ u.named →
      w.vcount ≤ r → (∀ q ∈ u.vr ++ u.vw ++ u.touch ++ u.named, w.vcount ≤ q → r ≤ q) → ∃ t v, word c u body s = .next t ∧
        Ends (s.dropWait w) w w pc (fun k l => if k ∈ targets c u w pc then parked cRANGE (BitVec.ofNat 64 r) l else { l with pc := pc + 8 }) t v := by
  obtain ⟨gvr, gvw, gtouch, -, gq, gmode, groles, -, gill, gbank, -, -, -, -, gnamed⟩ := guarded_fields u c
  rw [← gill] at legal
  rw [← gbank] at good
  have parks : (if (u.guarded c).q then w.activeAt pc else execLanes c u.q w (w.activeAt pc)) = targets c u w pc := by rw [gq]; rfl
  rw [← gmode, ← groles, ← gvr, ← gvw, ← gtouch, ← gnamed]
  refine ⟨fun low => word_turnedAway faces rfl ?_, fun mode other => word_turnedAway faces rfl ?_, fun r mode role settled hr out least =>
    word_range faces settled ?_⟩
  · rw [attempt_priv faces.hang faces.some faces.pure legal low, parks]
  · rw [attempt_role faces.hang faces.some faces.pure legal mode other, parks]
  · rw [attempt_range faces.hang faces.some faces.pure legal mode role good (outOfBlock_eq_some hr out least), parks]

/-- Settles O27: each word of the tables is a `word`, whose checks fault in their order. -/
theorem wordsTurnedAway : Obligations.WordsTurnedAway := by
  unfold Obligations.WordsTurnedAway
  intro i c u s w pc hi h hpure
  obtain ⟨legal, good, ebits, widths, body, runs⟩ := runsAs_useOf hi
  rw [runs s, ← pendOf_widths s w c u ebits widths]
  have order := fun (faces : Faces c u s w pc) => checks_in_order (u := { u with ebits := ebits, widths := widths }) (body := body) legal good
    ⟨faces.pos, faces.some, faces.hang, faces.guards, faces.pure⟩
  exact ⟨word_hang h hpure, fun faces => (order faces).1, fun faces => (order faces).2.1, fun r faces => (order faces).2.2 r⟩

end Sys2Proof.Machine

/-! Words that cannot run (spec/02 R21, R38 to R40; spec/13 R225): a word whose fetch fails, a word that is no instruction, and a pair that breaks a
bank rule park their lanes; and how a pair of a wave's own program runs. -/
namespace Sys2Proof.Machine
open Sys2Proof.Safety

/-! ### A pair at the issue address -/

section
variable {h0 h1 : Half} {s : State} {w : Wave} {pc : CodeAddr}

/-- The lanes of a pair: the whole active set where some scalar half's guard holds, else those in which some half counts (R39). -/
def pairExec (h0 h1 : Half) (w : Wave) (pc : CodeAddr) : List Nat :=
  if pairScalar h0 h1 w then w.activeAt pc else pairLanes h0 h1 w (w.activeAt pc)

theorem pairExec_sub {i : Nat} (h : i ∈ pairExec h0 h1 w pc) : i ∈ w.activeAt pc := by
  unfold pairExec at h
  split at h
  · exact h
  · exact List.mem_of_mem_filter h

/-- A pair whose guards are settled reads the wave as it stands: it uses no operand latch (R158). -/
theorem view_pairGuards (h : s.pendOf w (pairGuards h0 h1) true = []) : s.view w (pairGuards h0 h1) = w := by
  rw [view_settled (pendOf_sub h (fun _ => names_read)) (fun _ hr => absurd hr List.not_mem_nil)]
  rfl

/-- What a pair at the issue address asks for; `ill` says that it is no instruction. -/
def pairAsks (ill : Bool) (h0 h1 : Half) (w : Wave) (pc : CodeAddr) : Use :=
  { pairOf h0 h1 w pc with illegal := ill, counted := some (pairLanes h0 h1 w (w.activeAt pc)).length }

/-- A pair of a wave's own program is issued at its address. -/
theorem pairStep_issues (ill st : Bool) (h : At s w pc) :
    ∃ c, pairStep ill h0 h1 st s = .next (issuePair ill h0 h1 c s w pc) := by
  unfold pairStep
  rw [h.here]
  simp only [h.own, h.addr]
  exact ⟨_, rfl⟩

/-- A pair that a check faults, its guards settled and its launch not pure. -/
theorem issuePair_fault {ill : Bool} {c : Ctl} {cause : Nat} {addr : Word} {l : List Nat} (hpure : (s.launch w.launch).pure = false)
    (guards : s.pendOf w (pairGuards h0 h1) true = [])
    (hf : attempt (pairAsks ill h0 h1 w pc) (pairBody h0 h1) s w pc (w.activeAt pc) (pairExec h0 h1 w pc) false = .fault cause addr l) :
    issuePair ill h0 h1 c s w pc = faulted c (pairAsks ill h0 h1 w pc) (s.dropWait w) w pc (w.activeAt pc) cause addr l := by
  unfold pairAsks pairOf pairExec at hf
  unfold issuePair
  simp only [view_pairGuards guards, fetched_of_not_pure hpure, hf]
  rfl

/-- A pair that passes its checks. -/
theorem issuePair_done {ill : Bool} {c : Ctl} {s1 : State} {w1 : Wave} {r : Done} {l : List Nat} (hpure : (s.launch w.launch).pure = false)
    (guards : s.pendOf w (pairGuards h0 h1) true = [])
    (hd : attempt (pairAsks ill h0 h1 w pc) (pairBody h0 h1) s w pc (w.activeAt pc) (pairExec h0 h1 w pc) false = .out (.done s1 r) w1 l) :
    ∃ executing, issuePair ill h0 h1 c s w pc = finish c (pairAsks ill h0 h1 w pc) s1 w1 pc (w.activeAt pc) executing r := by
  unfold pairAsks pairOf pairExec at hd
  unfold issuePair
  simp only [view_pairGuards guards, fetched_of_not_pure hpure, hd]
  exact ⟨_, rfl⟩

/-- A pair that a check of R39 faults parks the lanes that it would act in. -/
theorem pairStep_turnedAway {ill st : Bool} {cause : Nat} (h : At s w pc) (hpure : (s.launch w.launch).pure = false)
    (guards : s.pendOf w (pairGuards h0 h1) true = []) (hc : beforeIssue cause = true)
    (hf : attempt (pairAsks ill h0 h1 w pc) (pairBody h0 h1) s w pc (w.activeAt pc) (pairExec h0 h1 w pc) false =
      .fault cause 0 (pairExec h0 h1 w pc)) :
    ∃ t v, pairStep ill h0 h1 st s = .next t ∧ Parks s w (pairExec h0 h1 w pc) cause 0 t v := by
  obtain ⟨c, issues⟩ := pairStep_issues (h0 := h0) (h1 := h1) ill st h
  obtain ⟨v, parks⟩ := faulted_beforeIssue (c := c) (u := pairAsks ill h0 h1 w pc) (active := w.activeAt pc) (addr := 0) h (fun i => pairExec_sub) hc
  exact ⟨_, v, by rw [issues, issuePair_fault hpure guards hf], parks⟩

/-- The lanes that a pair's faults name are those that it would act in. -/
theorem pairAsks_targets (ill : Bool) :
    (if (pairAsks ill h0 h1 w pc).q then w.activeAt pc else pairExec h0 h1 w pc) = pairExec h0 h1 w pc := by
  show (if pairScalar h0 h1 w then w.activeAt pc else pairExec h0 h1 w pc) = pairExec h0 h1 w pc
  unfold pairExec
  split <;> rfl

end

/-! ### A word that cannot be fetched -/

/-- A fetch that fails parks every lane at the issue address with the cause of the fetch (R225). -/
theorem fetchFault_parks {k : FetchCause} {s : State} {w : Wave} {pc : CodeAddr} (h : At s w pc) (hf : s.fetch w pc = .error k) :
    ∃ t v, exec (.instructionFetchFault k) s = .next t ∧ Parks s w (w.activeAt pc) (fetchCause k) (pc.setWidth 64) t v := by
  have next : w.nextPc = some pc := by
    unfold Wave.nextPc
    rw [h.own]
    exact h.addr
  have runs : exec (.instructionFetchFault k) s =
      .next (turnedAway (s.dropWait w) w (alike (w.activeAt pc) (fetchCause k) (pc.setWidth 64))) := by
    show execInstructionFetchFault k s = _
    unfold execInstructionFetchFault
    rw [h.here]
    simp only [next, hf, h.own, ne_eq, not_true_eq_false, if_false]
    rfl
  obtain ⟨v, parks⟩ := parks_turnedAway_calm h (fun _ hi => hi) (fetchCause k) (pc.setWidth 64)
  exact ⟨_, v, runs, parks⟩

/-! ### A word that is no instruction -/

/-- A full word that is no instruction is a word without a meaning, under the guards of its opcode (R39, R40). -/
theorem exec_reserved_word {x : Word} (h : ∀ i, decode x ≠ .ok i) (full : x.toNat < 2 ^ 63) (s : State) :
    exec (.reservedEncoding x) s = word (Fields.ofWord x.toNat).ctl { q := qOpcode (Fields.ofWord x.toNat).opc, illegal := true }
      execReservedEncoding.nothingDone s := by
  obtain ⟨r, hr⟩ := decode_error h
  show execReservedEncoding x s = _
  unfold execReservedEncoding
  rw [hr]
  exact if_neg (by omega)

/-- A pair that is no instruction is a pair step that raises ILLEGAL. -/
theorem exec_reserved_pair {x : Word} (h : ∀ i, decode x ≠ .ok i) (pair : 2 ^ 63 ≤ x.toNat) (s : State) :
    exec (.reservedEncoding x) s = pairStep true (.ofWord (x.toNat / 2 ^ 32)) (.ofWord (x.toNat / 2)) (x.toNat % 2 == 1) s := by
  obtain ⟨r, hr⟩ := decode_error h
  show execReservedEncoding x s = _
  unfold execReservedEncoding
  rw [hr]
  exact if_pos (by omega)

/-- Where its guards are q guards, a word is executed by the whole active set or by no lane. -/
theorem targets_of_executed {c : Ctl} {u : Use} {w : Wave} {pc : CodeAddr} (h : execLanes c u.q w (w.activeAt pc) ≠ []) :
    targets c u w pc = execLanes c u.q w (w.activeAt pc) := by
  unfold targets
  cases hq : u.q with
  | false => rfl
  | true =>
    rw [hq] at h
    unfold execLanes at h ⊢
    by_cases runs : (w.qguard c.ga && w.qguard c.gb) = true
    · simp [runs]
    · simp [runs] at h

/-- Settles O28: the fetch fault by `fetchFault_parks`, ILLEGAL and PAIRBANK as the checks of a word and of a pair that fault first. -/
theorem wordsThatCannotRun : Obligations.WordsThatCannotRun := by
  unfold Obligations.WordsThatCannotRun
  refine ⟨fun k s w pc h hf => fetchFault_parks h hf, fun x s w pc refused full faces => ?_,
    fun h0 h1 s w pc h hang hpure guards some => ⟨fun x refused pair e0 e1 => ?_, fun st role bad => ?_⟩⟩
  · rw [exec_reserved_word refused full]
    obtain ⟨-, -, -, -, gq, -, -, -, gill, -⟩ := guarded_fields { q := qOpcode (Fields.ofWord x.toNat).opc, illegal := true }
      (Fields.ofWord x.toNat).ctl
    have turned := word_turnedAway (body := execReservedEncoding.nothingDone) faces (cause := cILLEGAL) rfl
      (by rw [attempt_illegal faces.hang faces.some faces.pure gill, gq]; rfl)
    rwa [targets_of_executed faces.some] at turned
  · rw [exec_reserved_pair refused pair, e0, e1]
    refine pairStep_turnedAway h hpure guards rfl ?_
    rw [attempt_illegal (lanes := pairExec h0 h1 w pc) hang some hpure rfl, pairAsks_targets]
  · have asked : w.role ∈ (pairAsks false h0 h1 w pc).roles := by
      show w.role ∈ [0, 1, 2, 3]
      simp only [List.mem_cons, List.not_mem_nil, or_false]
      omega
    refine pairStep_turnedAway h hpure guards rfl ?_
    rw [attempt_badBank (lanes := pairExec h0 h1 w pc) hang some hpure rfl (Nat.zero_le _) asked bad, pairAsks_targets]

end Sys2Proof.Machine

/-! A pair word (spec/02 R36, R37): both halves read what stood before it, and their writes stand together; the bank rule (R38) keeps them apart. -/
namespace Sys2Proof.Machine
open Sys2Proof.Safety

/-! ### Several registers written -/

/-- Several vector registers written in one lane: each written register takes its value, where no two writes are to one register. -/
theorem setVregs_spec {i : Nat} (hi : i < 32) : ∀ (l : List (Nat × Word)) (w : Wave), (l.map Prod.fst).Nodup →
    ∃ m, l.foldl (fun v x => v.setVreg x.1 i x.2) w = { w with vregs := m } ∧
      (∀ p ∈ l, cellGet 0 m (32 * p.1 + i) = p.2) ∧
      ∀ r, ∀ j < 32, ¬(j = i ∧ r ∈ l.map Prod.fst) → cellGet 0 m (32 * r + j) = w.vreg r j := by
  intro l
  induction l with
  | nil => exact fun w _ => ⟨w.vregs, rfl, by simp, fun _ _ _ _ => rfl⟩
  | cons x l ih =>
    intro w hn
    obtain ⟨fresh, hn⟩ := List.nodup_cons.mp hn
    obtain ⟨m, hm, wrote, kept⟩ := ih (w.setVreg x.1 i x.2) hn
    refine ⟨m, by rw [List.foldl_cons, hm]; rfl, fun p hp => ?_, fun r j hj out => ?_⟩
    · rcases List.mem_cons.mp hp with rfl | hp
      · rw [kept p.1 i hi (fun h => fresh h.2), Wave.vreg_setVreg w p.1 i p.2 hi hi, if_pos ⟨rfl, rfl⟩]
      · exact wrote p hp
    · rw [List.map_cons, List.mem_cons, not_and, not_or] at out
      rw [kept r j hj (fun h => (out h.1).2 h.2), Wave.vreg_setVreg w r j x.2 hi hj, if_neg (fun h => (out h.2).1 h.1)]

/-- Lane by lane several vector registers written, where no lane faults. -/
theorem applyLanes_writes (g : Nat → LaneRes) (hg : ∀ i, (g i).pw = [] ∧ (g i).fault = none ∧ ((g i).vw.map Prod.fst).Nodup) :
    ∀ (l : List Nat) (w : Wave), (∀ i ∈ l, i < 32) →
    ∃ m, (l.map (fun i => (i, g i))).foldl (fun v p => v.applyLane p.1 p.2) w = { w with vregs := m } ∧
      (∀ i ∈ l, ∀ p ∈ (g i).vw, cellGet 0 m (32 * p.1 + i) = p.2) ∧
      ∀ r, ∀ j < 32, ¬(j ∈ l ∧ r ∈ (g j).vw.map Prod.fst) → cellGet 0 m (32 * r + j) = w.vreg r j := by
  intro l
  induction l with
  | nil => exact fun w _ => ⟨w.vregs, rfl, by simp, fun _ _ _ _ => rfl⟩
  | cons i l ih =>
    intro w hl
    obtain ⟨no_pred, no_fault, distinct⟩ := hg i
    have hi : i < 32 := hl i List.mem_cons_self
    obtain ⟨n, hn, wrote_i, kept_i⟩ := setVregs_spec hi (g i).vw w distinct
    have one : w.applyLane i (g i) = { w with vregs := n } := by
      unfold Wave.applyLane
      rw [no_fault, no_pred]
      exact hn
    obtain ⟨m, hm, wrote, kept⟩ := ih { w with vregs := n } (fun j hj => hl j (List.mem_cons_of_mem i hj))
    refine ⟨m, by rw [List.map_cons, List.foldl_cons, one, hm], fun k hk p hp => ?_, fun r j hj out => ?_⟩
    · by_cases hkl : k ∈ l
      · exact wrote k hkl p hp
      · obtain rfl : k = i := (List.mem_cons.mp hk).resolve_right hkl
        rw [kept p.1 k hi (fun h => hkl h.1)]
        exact wrote_i p hp
    · rw [List.mem_cons] at out
      rw [kept r j hj (fun h => out ⟨.inr h.1, h.2⟩)]
      refine kept_i r j hj (fun h => ?_)
      obtain ⟨rfl, hr⟩ := h
      exact out ⟨.inl rfl, hr⟩

/-- Lanes without an event add nothing to the flags. -/
theorem orFlags_filter {f : Nat → Flags} {p : Nat → Bool} {l : List Nat} (h : ∀ i ∈ l, p i = false → f i = 0) :
    orFlags ((l.filter p).map f) = orFlags (l.map f) := by
  induction l with
  | nil => rfl
  | cons i l ih =>
    have rest := ih (fun j hj => h j (List.mem_cons_of_mem i hj))
    rw [List.map_cons, orFlags_cons, List.filter_cons]
    cases hp : p i with
    | true => rw [if_pos rfl, List.map_cons, orFlags_cons, rest]
    | false =>
      rw [if_neg (by simp), rest, h i List.mem_cons_self hp]
      simp

/-! ### The writes of both halves -/

/-- Halves that write registers of one kind write different ones, where the pair breaks no bank rule (R38). -/
theorem apart_of_bank {h0 h1 : Half} (bank : pairBadBank h0 h1 = false) :
    (h0.op.scalar = false → h0.op ≠ .nop → h1.op.scalar = false → h1.op ≠ .nop → h0.d ≠ h1.d) ∧
    (h0.op.scalar = true → h1.op.scalar = true → h0.d ≠ h1.d) := by
  unfold pairBadBank at bank
  rw [Bool.or_eq_false_iff, Bool.or_eq_false_iff] at bank
  obtain ⟨⟨-, vectors⟩, scalars⟩ := bank
  refine ⟨fun v0 n0 v1 n1 same => ?_, fun s0 s1 same => ?_⟩
  · simp [halfV, halfWrites, v0, n0, v1, n1, same] at vectors
  · have n0 : h0.op ≠ .nop := fun e => by simp [e, HalfOp.scalar] at s0
    have n1 : h1.op ≠ .nop := fun e => by simp [e, HalfOp.scalar] at s1
    simp [halfS, halfWrites, s0, s1, n0, n1, same] at scalars

/-- A half that acts in a lane is a vector half. -/
theorem halfActs_vector {h : Half} {w : Wave} {i : Nat} (acts : halfActs h w i = true) : h.op.scalar = false ∧ h.op ≠ .nop := by
  unfold halfActs at acts
  simp only [Bool.and_eq_true, Bool.not_eq_true', bne_iff_ne] at acts
  exact acts.1

/-- What one half does in a lane. -/
def halfRes (h : Half) (w : Wave) (i : Nat) : LaneRes :=
  if halfActs h w i then { vw := [(h.d, (halfInLane h w i).val)], fl := (halfInLane h w i).fl } else {}

/-- What a pair does in a lane. -/
def pairRes (h0 h1 : Half) (w : Wave) (i : Nat) : LaneRes :=
  { vw := (halfRes h0 w i).vw ++ (halfRes h1 w i).vw, fl := (halfRes h0 w i).fl ||| (halfRes h1 w i).fl }

section
variable {h0 h1 : Half} {w : Wave}

theorem mem_halfRes {h : Half} {i : Nat} {p : Nat × Word} :
    p ∈ (halfRes h w i).vw ↔ halfActs h w i = true ∧ p = (h.d, (halfInLane h w i).val) := by
  unfold halfRes
  cases halfActs h w i <;> simp

theorem mem_pairRes {i : Nat} {p : Nat × Word} :
    p ∈ (pairRes h0 h1 w i).vw ↔ ∃ h ∈ [h0, h1], halfActs h w i = true ∧ p = (h.d, (halfInLane h w i).val) := by
  simp [pairRes, mem_halfRes]

/-- In a lane a pair writes no register twice. -/
theorem nodup_pairRes (bank : pairBadBank h0 h1 = false) (i : Nat) : ((pairRes h0 h1 w i).vw.map Prod.fst).Nodup := by
  unfold pairRes halfRes
  cases a0 : halfActs h0 w i with
  | false => cases halfActs h1 w i <;> simp
  | true =>
    cases a1 : halfActs h1 w i with
    | false => simp
    | true =>
      obtain ⟨v0, n0⟩ := halfActs_vector a0
      obtain ⟨v1, n1⟩ := halfActs_vector a1
      simpa using (apart_of_bank bank).1 v0 n0 v1 n1

/-- A scalar half that acts writes its register, and no other. -/
theorem halfWave_spec (h : Half) {x : Ex} (hx : x.w = w) (v : Wave) :
    ∃ n, halfWave h x v = { v with sregs := n } ∧
      ∀ r, cellGet 0 n r = if halfActsOnce h w = true ∧ r = h.d then halfOnce h w else v.sreg r := by
  subst hx
  have acts : halfWave h x v = if halfActsOnce h x.w then v.setSreg h.d (halfOnce h x.w) else v := rfl
  rw [acts]
  cases halfActsOnce h x.w with
  | false => exact ⟨v.sregs, rfl, fun r => by simp [Wave.sreg]⟩
  | true => exact ⟨_, rfl, fun r => (Wave.sreg_setSreg v h.d r _).trans (by simp)⟩

/-- The scalar halves of a pair write their registers, and no others. -/
theorem halfWaves_spec {x : Ex} (hx : x.w = w) (bank : pairBadBank h0 h1 = false) (v : Wave) :
    ∃ n, halfWave h1 x (halfWave h0 x v) = { v with sregs := n } ∧
      (∀ h ∈ [h0, h1], halfActsOnce h w = true → cellGet 0 n h.d = halfOnce h w) ∧
      ∀ r, ¬(∃ h ∈ [h0, h1], h.d = r ∧ halfActsOnce h w = true) → cellGet 0 n r = v.sreg r := by
  have apart : halfActsOnce h0 w = true → halfActsOnce h1 w = true → h0.d ≠ h1.d := fun a0 a1 => by
    unfold halfActsOnce at a0 a1
    rw [Bool.and_eq_true] at a0 a1
    exact (apart_of_bank bank).2 a0.1 a1.1
  obtain ⟨n0, e0, get0⟩ := halfWave_spec h0 hx v
  obtain ⟨n1, e1, get1⟩ := halfWave_spec h1 hx { v with sregs := n0 }
  have get : ∀ r, cellGet 0 n1 r = if halfActsOnce h1 w = true ∧ r = h1.d then halfOnce h1 w else
      if halfActsOnce h0 w = true ∧ r = h0.d then halfOnce h0 w else v.sreg r := fun r => by
    rw [get1 r, ← get0 r]
    rfl
  refine ⟨n1, by rw [e0, e1], fun h hh acts => ?_, fun r out => ?_⟩
  · rw [get]
    rcases List.mem_pair.mp hh with rfl | rfl
    · rw [if_neg (fun a => apart acts a.1 a.2), if_pos ⟨acts, rfl⟩]
    · rw [if_pos ⟨acts, rfl⟩]
  · rw [get, if_neg (fun a => out ⟨h1, by simp, a.2.symm, a.1⟩), if_neg (fun a => out ⟨h0, by simp, a.2.symm, a.1⟩)]

end

/-! ### The effect of a pair -/

/-- What the lanes and the wave hold after the effect of a pair: `lanes` act, and `v` differs from `w` in registers and FSTAT alone. -/
structure PairWrote (h0 h1 : Half) (w : Wave) (lanes : List Nat) (v : Wave) : Prop where
  same : ∃ m n f, v = { w with vregs := m, sregs := n, fstat := f }
  value : ∀ h ∈ [h0, h1], ∀ i ∈ lanes, halfActs h w i = true → v.vreg h.d i = (halfInLane h w i).val
  once : ∀ h ∈ [h0, h1], halfActsOnce h w = true → v.sreg h.d = halfOnce h w
  vec : VecKept w v (fun r i => ∃ h ∈ [h0, h1], h.d = r ∧ halfActs h w i = true ∧ i ∈ lanes)
  scal : ScalKept w v (fun r => ∃ h ∈ [h0, h1], h.d = r ∧ halfActsOnce h w = true)
  flags : v.fstat = w.fstat ||| orFlags (lanes.map (fun i => (pairRes h0 h1 w i).fl))

/-- A pair that breaks no bank rule writes both halves' results (R36, R37). -/
theorem pairBody_wrote {h0 h1 : Half} {x : Ex} {w : Wave} (hx : x.w = w) (hw : x.wave = w) (bank : pairBadBank h0 h1 = false)
    (hl : ∀ i ∈ x.lanes, i < 32) :
    ∃ v n, pairBody h0 h1 x = .done (x.s.setWave v) { count := n } ∧ PairWrote h0 h1 w x.lanes v := by
  obtain ⟨m, hm, wrote, kept⟩ := applyLanes_writes (pairRes h0 h1 w) (fun i => ⟨rfl, rfl, nodup_pairRes bank i⟩) x.lanes w hl
  obtain ⟨n, hn, once, scal⟩ := halfWaves_spec hx bank (({ w with vregs := m } : Wave).setFlags
    (orFlags (x.lanes.map (fun i => (pairRes h0 h1 w i).fl))))
  refine ⟨_, some (pairLanes h0 h1 w x.lanes).length, ?_, ⟨m, n, _, rfl⟩, fun h hh i hi acts => ?_, once, fun r i hi out => ?_, scal, rfl⟩
  · have body : pairBody h0 h1 x = .done (x.s.setWave (halfWave h1 x (halfWave h0 x
        (((x.lanes.map (fun i => (i, pairRes h0 h1 x.w i))).foldl (fun v p => v.applyLane p.1 p.2) x.wave).setFlags
          (laneFlags ((x.lanes.map (fun i => (i, pairRes h0 h1 x.w i))).map Prod.snd))))))
        { count := some (pairLanes h0 h1 x.w x.lanes).length } := rfl
    have flags : laneFlags ((x.lanes.map (fun i => (i, pairRes h0 h1 w i))).map Prod.snd) =
        orFlags (x.lanes.map (fun i => (pairRes h0 h1 w i).fl)) := by
      unfold laneFlags
      rw [List.map_map, List.map_map]
      rfl
    rw [body, hx, hw, hm, flags, hn]
    rfl
  · exact wrote i hi _ (mem_pairRes.mpr ⟨h, hh, acts, rfl⟩)
  · refine kept r i hi (fun h => out ?_)
    obtain ⟨hi, hr⟩ := h
    obtain ⟨p, hp, rfl⟩ := List.mem_map.mp hr
    obtain ⟨h, hh, acts, rfl⟩ := mem_pairRes.mp hp
    exact ⟨h, hh, rfl, acts, hi⟩

/-! ### The checks of a pair -/

section
variable {h0 h1 : Half} {s : State} {w : Wave} {pc : CodeAddr}

/-- The guards of a pair are among what the pair names. -/
theorem pairGuards_names {p : Pend} (h : (pairGuards h0 h1).names p true = true) : (pairOf h0 h1 w pc).names p true = true := by
  unfold Use.names at h ⊢
  cases hk : p.kind with
  | vec | scal =>
    rw [hk] at h
    exact absurd h Bool.false_ne_true
  | lpred | spred =>
    rw [hk] at h
    exact h

/-- Some lane is in the pair. -/
theorem pairExec_ne_nil (h : PairClear h0 h1 s w pc) : pairExec h0 h1 w pc ≠ [] := by
  unfold pairExec
  split
  · exact h.lane
  case isFalse once => exact h.some.resolve_left once

/-- A clear pair passes every check, and its effect is that of its halves on the wave as it stands. -/
theorem attempt_pair (h : PairClear h0 h1 s w pc) :
    ∃ v n, attempt (pairAsks false h0 h1 w pc) (pairBody h0 h1) s w pc (w.activeAt pc) (pairExec h0 h1 w pc) false =
        .out (.done (s.setWave v) { count := n }) w (pairExec h0 h1 w pc) ∧
      PairWrote h0 h1 w (pairExec h0 h1 w pc) v := by
  have role : w.role ∈ (pairAsks false h0 h1 w pc).roles := by
    show w.role ∈ [0, 1, 2, 3]
    have := h.role
    simp only [List.mem_cons, List.not_mem_nil, or_false]
    omega
  have stray : s.strayFetch (s.launch w.launch) pc = false := by simp [State.strayFetch, h.pure]
  have block : w.outOfBlock (pairAsks false h0 h1 w pc) = none := by
    refine outOfBlock_none (fun r hr => h.block r ?_)
    have touch : (pairAsks false h0 h1 w pc).touch = [] := rfl
    rwa [touch, List.append_nil] at hr
  have reads : s.view w (pairAsks false h0 h1 w pc) = w :=
    view_settled (u := pairAsks false h0 h1 w pc) (pendOf_sub h.settled (fun _ => names_read)) h.kept.1
  have wave : (⟨s, w, pc, w.activeAt pc, pairExec h0 h1 w pc, false⟩ : Ex).wave = w := by
    unfold Ex.wave
    rw [wave?_of_at h.pos]
    rfl
  obtain ⟨v, n, body, wrote⟩ := pairBody_wrote (x := ⟨s, w, pc, w.activeAt pc, pairExec h0 h1 w pc, false⟩) rfl wave h.bank
    (fun i hi => (mem_activeAt.mp (pairExec_sub hi)).1)
  refine ⟨v, n, ?_, wrote⟩
  rw [attempt_clear h.hang (pairExec_ne_nil h) stray ⟨rfl, h.bank⟩ (Nat.zero_le _) role block h.settled h.kept.1 h.kept.2 (.inl h.pure), reads, body]

/-- A clear pair ends with the writes of its halves. -/
theorem pairWord_ends (st : Bool) (h : PairClear h0 h1 s w pc) :
    ∃ t v v1, exec (.pairWord h0 h1 st) s = .next t ∧ PairWrote h0 h1 w (pairExec h0 h1 w pc) v1 ∧
      Ends (s.setWave v1) v1 w pc (fun _ l => { l with pc := pc + 8 }) t v := by
  have guards : s.pendOf w (pairGuards h0 h1) true = [] := pendOf_sub h.settled (fun _ => pairGuards_names)
  obtain ⟨v1, n, passes, wrote⟩ := attempt_pair h
  obtain ⟨c, issues⟩ := pairStep_issues (h0 := h0) (h1 := h1) false st h.pos
  obtain ⟨executing, done⟩ := issuePair_done (c := c) h.pure guards passes
  have ran : exec (.pairWord h0 h1 st) s = .next (issuePair false h0 h1 c s w pc) := issues
  rw [done] at ran
  obtain ⟨m, k, f, rfl⟩ := wrote.same
  have found := State.wave?_setWave_self (v := { w with vregs := m, sregs := k, fstat := f }) (wave?_of_at h.pos) rfl rfl
  obtain ⟨v, ends⟩ := ends_finish (c := c) (lanes := []) (executing := executing) (cause := 0) (addr := 0) (n := n) h.pos.own found rfl h.lane
    (u := pairAsks false h0 h1 w pc) h.settled (fun i hi => absurd hi List.not_mem_nil)
  simp only [List.not_mem_nil, if_false] at ends
  exact ⟨_, v, _, ran, wrote, ends⟩

/-- The active lanes in which a half acts are lanes of the pair. -/
theorem mem_pairExec_of_acts {h : Half} {i : Nat} (hh : h ∈ [h0, h1]) (hi : i ∈ w.activeAt pc) (acts : halfActs h w i = true) :
    i ∈ pairExec h0 h1 w pc := by
  unfold pairExec
  split
  · exact hi
  · unfold pairLanes
    unfold halfActs at acts
    simp only [Bool.and_eq_true] at acts
    refine List.mem_filter.mpr ⟨hi, ?_⟩
    rcases List.mem_pair.mp hh with rfl | rfl
    · simp [acts]
    · simp [acts]

/-- The events of a half in a lane. -/
theorem halfRes_fl (h : Half) (w : Wave) (i : Nat) : (halfRes h w i).fl = if halfActs h w i then (halfInLane h w i).fl else 0 := by
  unfold halfRes
  split <;> rfl

/-- The events of a pair are those of its halves in all active lanes. -/
theorem pairExec_flags : orFlags ((pairExec h0 h1 w pc).map (fun i => (pairRes h0 h1 w i).fl)) =
    orFlags ((w.activeAt pc).map (fun i =>
      (if halfActs h0 w i then (halfInLane h0 w i).fl else 0) ||| (if halfActs h1 w i then (halfInLane h1 w i).fl else 0))) := by
  have each : (fun i => (pairRes h0 h1 w i).fl) = fun i =>
      (if halfActs h0 w i then (halfInLane h0 w i).fl else 0) ||| (if halfActs h1 w i then (halfInLane h1 w i).fl else 0) :=
    funext (fun i => congrArg₂ (· ||| ·) (halfRes_fl h0 w i) (halfRes_fl h1 w i))
  rw [each]
  unfold pairExec
  split
  · rfl
  · refine orFlags_filter (fun i _ out => ?_)
    have idle : halfActs h0 w i = false ∧ halfActs h1 w i = false := by
      simp only [Bool.or_eq_false_iff, Bool.and_eq_false_iff, Bool.not_eq_false'] at out
      unfold halfActs
      rcases out.1 with a | a <;> rcases out.2 with b | b <;> simp [a, b]
    simp [idle]

end

/-- Settles O21, by the end of a clear pair and what its halves wrote. -/
theorem pairWord : Obligations.PairWord := by
  unfold Obligations.PairWord
  intro h0 h1 st s w pc h
  obtain ⟨t, v, v1, ran, wrote, ends⟩ := pairWord_ends st h
  obtain ⟨vregs, sregs, preds, qpreds⟩ := ends.regs
  obtain ⟨fstat, rngctr⟩ := ends.flags
  have vreg : ∀ r i, v.vreg r i = v1.vreg r i := fun r i => congrArg (fun m => cellGet 0 m (32 * r + i)) vregs
  have sreg : ∀ r, v.sreg r = v1.sreg r := fun r => congrArg (fun m => cellGet 0 m r) sregs
  obtain ⟨⟨m, n, f, rfl⟩, value, once, vec, scal, flags⟩ := wrote
  refine ⟨t, v, ran, ⟨ends.wave, ends.lanes⟩, ⟨ends.calm, ends.mem, ends.ctxs, ends.dev, fun c k other => ?_⟩,
    fun h hh i hi acts => ?_, fun h hh acts => ?_, fun r i hi out => ?_, fun r out => ?_, ⟨preds, qpreds⟩, { ends.special with }, rngctr, ?_⟩
  · rw [ends.waves c k other]
    exact State.wave?_setWave_other s _ (fun e => other ⟨e.1.symm, e.2.symm⟩)
  · rw [vreg]
    exact value h hh i (mem_pairExec_of_acts hh hi acts) acts
  · rw [sreg]
    exact once h hh acts
  · rw [vreg]
    exact vec r i hi (fun ⟨h, hh, hd, acts, hl⟩ => out ⟨h, hh, hd, acts, pairExec_sub hl⟩)
  · rw [sreg]
    exact scal r out
  · rw [fstat, flags, pairExec_flags]

end Sys2Proof.Machine

/-! What reset leaves (spec/05 R83; spec/08 R145; spec/27 R391). -/
namespace Sys2Proof.Machine

/-- Settles O8: each clause is a value of the reset state, and its memory is in canonical form. -/
theorem resetState : Obligations.ResetState := by
  unfold Obligations.ResetState
  obtain ⟨bytes, frames⟩ := reset_memForm
  exact ⟨rfl, rfl, fun _ => rfl, rfl, rfl, rfl, bytes, frames⟩

end Sys2Proof.Machine

/-! What the events of submission share (spec/05): words and records in main memory, launches queued and becoming eligible, and what lists of
sparse entries read as when some are left out. -/
namespace Sys2Proof.Machine
open Sys2Proof.Safety

/-! ### Sparse maps -/

/-- Leaving out entries of other keys changes nothing at a key. -/
theorem cellGet_filter {α : Type} {d : α} {p : Nat × α → Bool} {i : Nat} (h : ∀ v, p (i, v) = true) : ∀ c : Cells α,
    cellGet d (c.filter p) i = cellGet d c i
  | [] => rfl
  | (k, v) :: c => by
    rw [List.filter_cons]
    by_cases e : i = k
    · subst e
      simp [h v, cellGet]
    · split <;> simp [cellGet, e, cellGet_filter h c]

/-- Every listed value changed by a function that keeps the value of unlisted keys. -/
theorem cellGet_map {α : Type} {d : α} {f : α → α} (hd : f d = d) (i : Nat) : ∀ c : Cells α,
    cellGet d (c.map (fun p => (p.1, f p.2))) i = f (cellGet d c i)
  | [] => hd.symm
  | (k, v) :: c => by
    by_cases e : i = k
    · simp [cellGet, e]
    · simp [cellGet, e, cellGet_map hd i c]

/-- Values written at the keys below `n`, one by one. -/
theorem cellGet_foldl_range {α : Type} [DecidableEq α] (d : α) (f : Nat → α) (c : Cells α) (j : Nat) : ∀ n : Nat,
    cellGet d ((List.range n).foldl (fun c i => cellSet d c i (f i)) c) j = if j < n then f j else cellGet d c j
  | 0 => rfl
  | n + 1 => by
    rw [List.range_succ, List.foldl_append, List.foldl_cons, List.foldl_nil, cellGet_cellSet, cellGet_foldl_range d f c j n]
    by_cases e : j = n
    · simp [e]
    · simp only [e, if_false]
      exact if_congr (by omega) rfl rfl

/-! ### Stores of the device -/

/-- A store of the device changes memory alone. -/
theorem deviceStore_mem (s : State) (ma : Nat) (l : List Byte) (tag : Option WTag) : ∃ m, s.deviceStore ma l tag = s.setMem m := by
  obtain ⟨w, k, n, x, h⟩ := s.deviceStore_eq ma l tag
  exact ⟨_, h⟩

section
variable (s : State) (ma : Nat) (l : List Byte) (tag : Option WTag)

@[simp] theorem deviceStore_ctl : (s.deviceStore ma l tag).ctl = s.ctl := by
  obtain ⟨m, h⟩ := deviceStore_mem s ma l tag
  rw [h, State.setMem_ctl]

@[simp] theorem deviceStore_cores : (s.deviceStore ma l tag).cores = s.cores := by
  obtain ⟨m, h⟩ := deviceStore_mem s ma l tag
  rw [h, State.setMem_cores]

@[simp] theorem deviceStore_tasks : (s.deviceStore ma l tag).tasks = s.tasks := by
  obtain ⟨m, h⟩ := deviceStore_mem s ma l tag
  rw [h, State.setMem_tasks]

@[simp] theorem deviceStore_dev : (s.deviceStore ma l tag).dev = s.dev := by
  obtain ⟨m, h⟩ := deviceStore_mem s ma l tag
  rw [h, State.setMem_dev]

/-- A byte after a store of the device. -/
theorem byte_deviceStore (m : Nat) :
    (s.deviceStore ma l tag).byte m = if ma ≤ m ∧ m < ma + l.length then l.getD (m - ma) 0 else s.byte m := by
  obtain ⟨w, k, n, x, h⟩ := s.deviceStore_eq ma l tag
  rw [h]
  exact cellGet_cellSetMany 0 l s.mem.bytes ma m

end

/-! ### Records of a ring (R78, R80) -/

/-- The bytes of a word of a list, at the word's place. -/
theorem wordBytes_getD : ∀ {l : List Word} {i k : Nat}, i < l.length → k < 8 →
    (wordBytes l).getD (8 * i + k) 0 = (bytesOf 8 (l.getD i 0).toNat).getD k 0
  | x :: l, 0, k, _, hk => by simp [wordBytes, List.getD_eq_getElem?_getD, List.getElem?_append, hk]
  | x :: l, i + 1, k, hi, hk => by
    have later : 8 * (i + 1) + k = 8 + (8 * i + k) := by omega
    have rest := wordBytes_getD (Nat.lt_of_succ_lt_succ hi) hk
    simp only [wordBytes, List.getD_eq_getElem?_getD] at rest ⊢
    rw [later, List.flatMap_cons, List.getElem?_append_right (by simp), bytesOf_length, Nat.add_sub_cancel_left, rest, List.getElem?_cons_succ]

theorem wordBytes_length (l : List Word) : (wordBytes l).length = 8 * l.length := by
  simp [wordBytes, List.length_flatMap, Nat.mul_comm]

/-- A word reads as the bytes that stand at its address. -/
theorem readWord_of_bytes {t : State} {a v : Nat} (h : ∀ k < 8, t.byte (a + k) = (bytesOf 8 v).getD k 0) : t.readWord a = BitVec.ofNat 64 v := by
  have stands : ∀ k < 8, t.byte (a + k) = (t.deviceStore a (bytesOf 8 v)).byte (a + k) := fun k hk => by
    rw [h k hk, byte_deviceStore, bytesOf_length, if_pos (by omega), Nat.add_sub_cancel_left]
  rw [State.readWord_congr stands, State.readWord_deviceStore]

/-- The words of a list whose bytes stand at an address. -/
theorem readWord_wordBytes {t : State} {ma : Nat} {l : List Word} (h : ∀ k < 8 * l.length, t.byte (ma + k) = (wordBytes l).getD k 0) {i : Nat}
    (hi : i < l.length) : t.readWord (ma + 8 * i) = l.getD i 0 := by
  rw [readWord_of_bytes (v := (l.getD i 0).toNat) (fun k hk => by rw [Nat.add_assoc, h _ (by omega), wordBytes_getD hi hk])]
  simp

/-- A record written stands at its index with its phase (R78, R80). -/
theorem writeRecord_recordAt (s : State) (base size prod : Nat) {l : List Word} (hl : l.length = 8) :
    RecordAt (s.writeRecord base size prod l) ((base + 64 * (prod % 2 ^ size)) % 2 ^ 40) l ((prod / 2 ^ size + 1) % 2) := by
  have seven : (l.take 7).length = 7 := by simp [hl]
  refine ⟨fun i hi => ?_, State.readWord_deviceStore _ _ _ _⟩
  rw [readWord_wordBytes (l := l.take 7) (fun k hk => ?_) (by omega)]
  · simp [List.getD_eq_getElem?_getD, hi]
  · rw [State.writeRecord, State.byte_deviceStore_out _ _ _ _ (by omega), byte_deviceStore, wordBytes_length, if_pos (by omega),
      Nat.add_sub_cancel_left]

/-- A record written changes its 64 bytes (R78, R80). -/
theorem writeRecord_bytesKept (s : State) (base size prod : Nat) {l : List Word} (hl : l.length = 8) :
    BytesKept s (s.writeRecord base size prod l) ((base + 64 * (prod % 2 ^ size)) % 2 ^ 40) 64 := fun m hm => by
  have seven : (wordBytes (l.take 7)).length = 56 := by simp [wordBytes_length, hl]
  rw [State.writeRecord, State.byte_deviceStore_out _ _ _ _ (by rw [bytesOf_length]; omega),
    State.byte_deviceStore_out _ _ _ _ (by omega)]

/-- A record written changes memory alone. -/
theorem writeRecord_mem (s : State) (base size prod : Nat) (l : List Word) : ∃ m, s.writeRecord base size prod l = s.setMem m := by
  obtain ⟨m, hm⟩ := deviceStore_mem s ((base + 64 * (prod % 2 ^ size)) % 2 ^ 40) (wordBytes (l.take 7)) none
  obtain ⟨m', hm'⟩ := deviceStore_mem (s.setMem m) ((base + 64 * (prod % 2 ^ size)) % 2 ^ 40 + 56)
    (bytesOf 8 ((l.getD 7 0).toNat + (prod / 2 ^ size + 1) % 2)) (deviceRelease 5)
  exact ⟨m', by rw [State.writeRecord, hm, hm']; rfl⟩

/-! ### Launches that become eligible (R84) -/

/-- A launch after it was replaced, where the launches of a state stand. -/
theorem launch_setLaunch_of {s t : State} {l : Launch} {u : Nat} (known : Known s u) (ht : t.tasks.launches = s.tasks.launches) (hu : l.uid = u) :
    (t.setLaunch l).launch u = l := by
  subst hu
  obtain ⟨k, hk, hu⟩ := known
  exact launch_setLaunch_self ⟨k, ht ▸ hk, hu⟩

/-- A launch after its first terminating event (R387). -/
theorem endLaunch_launch {s : State} {u : Nat} {e : EndInfo} (known : Known s u) (going : (s.launch u).endInfo = none) :
    (s.endLaunch u e).launch u = { s.launch u with endInfo := some e, phase := .ending, endCycle := some s.ctl.cycle } := by
  rw [endLaunch_first going]
  exact launch_setLaunch_of known rfl (launch_uid known)

/-- What stays of a launch from its queueing to its admission: its number, its tenant, its record, where it came from. -/
structure SameRecord (l k : Launch) : Prop where
  uid : k.uid = l.uid
  tenant : k.tenant = l.tenant
  record : k.record = l.record
  subno : k.subno = l.subno
  srcLaunch : k.srcLaunch = l.srcLaunch

theorem SameRecord.refl (l : Launch) : SameRecord l l := ⟨rfl, rfl, rfl, rfl, rfl⟩

theorem SameRecord.trans {l k j : Launch} (h : SameRecord l k) (g : SameRecord k j) : SameRecord l j :=
  ⟨g.uid.trans h.uid, g.tenant.trans h.tenant, g.record.trans h.record, g.subno.trans h.subno, g.srcLaunch.trans h.srcLaunch⟩

/-- Two states whose launches differ in one launch at most, which keeps its record. -/
structure OneLaunch (v : Nat) (s t : State) : Prop where
  others : ∀ u, u ≠ v → t.launch u = s.launch u
  same : SameRecord (s.launch v) (t.launch v)
  known : ∀ u, Known s u → Known t u

namespace OneLaunch

theorem refl (v : Nat) (s : State) : OneLaunch v s s := ⟨fun _ _ => rfl, .refl _, fun _ h => h⟩

theorem trans {v : Nat} {s t u : State} (h : OneLaunch v s t) (g : OneLaunch v t u) : OneLaunch v s u :=
  ⟨fun w hw => (g.others w hw).trans (h.others w hw), h.same.trans g.same, fun w hw => g.known w (h.known w hw)⟩

/-- A launch replaced by one of the same record, where the launches of a state stand. -/
theorem setLaunch {v : Nat} {s t : State} {l : Launch} (hv : Known s v) (ht : t.tasks.launches = s.tasks.launches)
    (h : SameRecord (s.launch v) l) : OneLaunch v s (t.setLaunch l) := by
  have same : ∀ u, t.launch u = s.launch u := fun u => by rw [State.launch, State.launch, ht]
  have uid : l.uid = v := h.uid.trans (launch_uid hv)
  refine ⟨fun u hu => (launch_setLaunch_ne t (uid.symm ▸ hu)).trans (same u), ?_,
    fun u ⟨k, hk, hu⟩ => known_setLaunch ⟨k, ht ▸ hk, hu⟩⟩
  rw [launch_setLaunch_of hv ht uid]
  exact h

theorem endLaunch {v : Nat} {s : State} (hv : Known s v) (e : EndInfo) : OneLaunch v s (s.endLaunch v e) := by
  cases h : (s.launch v).endInfo with
  | some f => rw [endLaunch_later h]; exact refl v s
  | none => rw [endLaunch_first h]; exact setLaunch hv rfl ⟨rfl, rfl, rfl, rfl, rfl⟩

theorem holdKey {v : Nat} {s : State} (hv : Known s v) (k : Nat) : OneLaunch v s (s.holdKey k v) := by
  unfold State.holdKey
  dsimp only
  split
  · exact refl v s
  · refine setLaunch hv rfl ?_
    split <;> exact ⟨rfl, rfl, rfl, rfl, rfl⟩

theorem keyTake {v : Nat} {s : State} (hv : Known s v) : OneLaunch v s (s.keyTake v) := by
  unfold State.keyTake
  dsimp only
  split
  · exact refl v s
  · split
    · exact endLaunch hv _
    · split
      · split
        · exact holdKey hv _
        · exact setLaunch hv rfl ⟨rfl, rfl, rfl, rfl, rfl⟩
      · split
        · exact setLaunch hv rfl ⟨rfl, rfl, rfl, rfl, rfl⟩
        · exact setLaunch hv rfl ⟨rfl, rfl, rfl, rfl, rfl⟩

theorem settleOne {v : Nat} {s : State} (hv : Known s v) : OneLaunch v s (s.settleOne v) := by
  unfold State.settleOne
  dsimp only
  split
  · exact refl v s
  · split
    · exact endLaunch hv _
    · split
      · refine (setLaunch hv rfl ?_).trans (keyTake (known_setLaunch hv))
        split <;> exact ⟨rfl, rfl, rfl, rfl, rfl⟩
      · refine setLaunch hv rfl ?_
        split <;> exact ⟨rfl, rfl, rfl, rfl, rfl⟩

end OneLaunch

/-- A launch that is not queued does not become eligible. -/
theorem settleOne_of_not_queued {s : State} {v : Nat} (h : (s.launch v).phase ≠ .queued) : s.settleOne v = s := if_pos (.inl h)

/-- Launches looked at one after another keep their records, and those not queued stay as they are. -/
theorem settleOnes_launch (u : Nat) : ∀ (l : List Nat) {s : State}, (∀ v ∈ l, Known s v) →
    SameRecord (s.launch u) ((l.foldl State.settleOne s).launch u) ∧
      ((s.launch u).phase ≠ .queued → (l.foldl State.settleOne s).launch u = s.launch u)
  | [], _, _ => ⟨.refl _, fun _ => rfl⟩
  | v :: l, s, hl => by
    have one := OneLaunch.settleOne (hl v (List.mem_cons_self ..))
    have ⟨same, stays⟩ := settleOnes_launch u l (fun w hw => one.known w (hl w (List.mem_cons_of_mem _ hw)))
    by_cases hu : u = v
    · subst hu
      refine ⟨one.same.trans same, fun idle => ?_⟩
      rw [List.foldl_cons, settleOne_of_not_queued idle] at *
      exact stays idle
    · rw [one.others u hu] at same stays
      exact ⟨same, stays⟩

/-- A launch keeps its record as others become eligible and as it does itself (R84). -/
theorem settleEligible_sameRecord (s : State) (u : Nat) : SameRecord (s.launch u) (s.settleEligible.launch u) :=
  (settleOnes_launch u _ (fun _ hv => List.mem_map.mp hv)).1

/-- A launch that is not queued stays as it is as others become eligible (R84). -/
theorem settleEligible_launch {s : State} {u : Nat} (h : (s.launch u).phase ≠ .queued) : s.settleEligible.launch u = s.launch u :=
  (settleOnes_launch u _ (fun _ hv => List.mem_map.mp hv)).2 h

end Sys2Proof.Machine

/-! Submission and admission (spec/04 R69 to R71, spec/05 R76, R77, R84 to R86, spec/24 R370): the command window and its watcher, the dispatch of a
launch, the time limits of a launch that waits, the opening of a key slot. -/
namespace Sys2Proof.Machine
open Sys2Proof.Safety

/-! ### The command window (R76, R77) -/

/-- The host's store of a ready word, before the watcher looks. -/
def State.storeReady (s : State) (ma : Nat) (v : Word) : State :=
  let s1 := ((s.l2Access ma 0 true none).homeWrite none ma (bytesOf 8 v.toNat)).setTags ma 8 (some ⟨.host, some 5⟩)
  (s1.setWatch ma none).setDev { s1.dev with hostResp := .written }

theorem storeReady_eq (s : State) (ma : Nat) (v : Word) :
    ∃ m, s.storeReady ma v = { s with mem := m, dev := { s.dev with hostResp := .written } } ∧
      m.bytes = cellSetMany 0 s.mem.bytes ma (bytesOf 8 v.toNat) := by
  obtain ⟨l, hl⟩ := s.l2Access_eq ma 0 true none
  unfold State.storeReady
  rw [hl]
  exact ⟨_, rfl, rfl⟩

theorem byte_storeReady (s : State) (ma : Nat) (v : Word) (m : Nat) :
    (s.storeReady ma v).byte m = if ma ≤ m ∧ m < ma + 8 then (bytesOf 8 v.toNat).getD (m - ma) 0 else s.byte m := by
  obtain ⟨x, h, hx⟩ := storeReady_eq s ma v
  rw [h, State.byte, hx, cellGet_cellSetMany, bytesOf_length]
  rfl

theorem readWord_storeReady (s : State) (ma : Nat) (v : Word) : (s.storeReady ma v).readWord ma = v := by
  rw [readWord_of_bytes (v := v.toNat) (fun k hk => by rw [byte_storeReady, if_pos (by omega), Nat.add_sub_cancel_left])]
  simp

/-- A ready word that the host may store is seen by the watcher. -/
theorem exec_readyWordStore {s : State} {t slot : Nat} {v : Word} (hb : s.bound t = true) (hslot : slot < 128)
    (hm : s.hostMay (mfnOf (cwSlot (s.tenant t) slot)) = true) :
    exec (.readyWordStore t slot v) s = .next ((s.storeReady (cwSlot (s.tenant t) slot) v).watchWindow t) := by
  show execReadyWordStore t slot v s = _
  have taken : ¬(!s.bound t ∨ 128 ≤ slot) := by simp [hb, hslot]
  have may : ¬(!s.hostMay (mfnOf (cwSlot (s.tenant t) slot))) := by simp [hm]
  unfold execReadyWordStore
  dsimp only
  rw [if_neg taken, if_neg may]
  rfl

/-- A ring that takes nothing, or a full queue, keeps the watcher from looking. -/
theorem watchWindow_closed {s : State} {t : Nat} (h : (s.tenant t).crsize < 6 ∨ 16 < (s.tenant t).crsize ∨ 4096 ≤ s.qdepth t) :
    s.watchWindow t = s := if_pos (by tauto)

/-- The state with the record of slot `i` of the window queued and its ready word cleared, before launches become eligible. -/
def State.queueSlot (s : State) (t i : Nat) : State :=
  let k := s.tenant t
  let s1 := s.queueLaunch t (wordsAt s (cwSlot k i) 64) k.nextsub false
  (s1.setTenant { s1.tenant t with nextsub := nextSub k.nextsub }).deviceStore (cwSlot k i) (bytesOf 8 0)

/-- The watcher takes the lowest slot that holds NEXTSUB. -/
theorem watchWindow_found {s : State} {t i : Nat} (hb : s.bound t = true) (h6 : 6 ≤ (s.tenant t).crsize) (h16 : (s.tenant t).crsize ≤ 16)
    (hq : s.qdepth t < 4096) (hi : i < 128) (here : (s.readWord (cwSlot (s.tenant t) i)).toNat = (s.tenant t).nextsub)
    (lowest : ∀ j < i, (s.readWord (cwSlot (s.tenant t) j)).toNat ≠ (s.tenant t).nextsub) :
    s.watchWindow t = (s.queueSlot t i).settleEligible := by
  have looks : ¬((s.tenant t).crsize < 6 ∨ 16 < (s.tenant t).crsize ∨ 4096 ≤ s.qdepth t ∨ (!s.bound t) = true) := by
    rw [hb]; simp; omega
  have first : (List.range 128).find? (fun j => (s.readWord (cwSlot (s.tenant t) j)).toNat == (s.tenant t).nextsub) = some i :=
    List.find?_range_eq_some.mpr ⟨beq_iff_eq.mpr here, List.mem_range.mpr hi, fun j hj => by simpa using lowest j hj⟩
  unfold State.watchWindow
  dsimp only
  rw [if_neg looks, first]
  rfl

/-! ### The queue (R69, R70) -/

/-- The launch of a record as it is queued. -/
def State.queued (s : State) (t : Nat) (rec : List Word) (sub : Nat) (src : Bool) : Launch :=
  { Launch.blank with uid := s.nextUid, tenant := t, record := rec, subno := sub, srcLaunch := src, phase := .queued }

/-- A fold of `max` reaches its start and every element. -/
theorem le_foldl_max {n : Nat} : ∀ (l : List Nat) (a : Nat), n ≤ a ∨ n ∈ l → n ≤ l.foldl max a
  | [], _, h => by simpa using h
  | b :: l, a, h => by
    refine le_foldl_max l (max a b) ?_
    rcases h with h | h
    · exact .inl (le_max_of_le_left h)
    · rcases List.mem_cons.mp h with rfl | h
      · exact .inl (le_max_right a n)
      · exact .inr h

/-- The next launch number is higher than every launch's. -/
theorem lt_nextUid {s : State} {l : Launch} (h : l ∈ s.tasks.launches) : l.uid < s.nextUid :=
  Nat.lt_succ_of_le (le_foldl_max _ 0 (.inr (List.mem_map_of_mem h)))

/-- Queueing a record changes launches alone. -/
theorem queueLaunch_eq (s : State) (t : Nat) (rec : List Word) (sub : Nat) (src : Bool) :
    ∃ l, s.queueLaunch t rec sub src = { s with tasks := { s.tasks with launches := l } } := by
  unfold State.queueLaunch
  dsimp only
  split
  · obtain ⟨l, h⟩ := endLaunch_launches (s.setTasks { s.tasks with launches := s.tasks.launches ++ [s.queued t rec sub src] })
      s.nextUid ⟨1, _, 0⟩
    exact ⟨l, h⟩
  · exact ⟨_, rfl⟩

/-- The record queued is that of the next launch number. -/
theorem queueLaunch_sameRecord (s : State) (t : Nat) (rec : List Word) (sub : Nat) (src : Bool) :
    SameRecord (s.queued t rec sub src) ((s.queueLaunch t rec sub src).launch s.nextUid) := by
  let s1 := s.setTasks { s.tasks with launches := s.tasks.launches ++ [s.queued t rec sub src] }
  have known : Known s1 s.nextUid := ⟨s.queued t rec sub src, List.mem_append_right _ (List.mem_singleton_self _), rfl⟩
  have fresh : s.tasks.launches.find? (fun l => l.uid == s.nextUid) = none :=
    List.find?_eq_none.mpr (fun l hl => by simpa using (lt_nextUid hl).ne)
  have there : s1.launch s.nextUid = s.queued t rec sub src := by
    show ((s.tasks.launches ++ [s.queued t rec sub src]).find? (fun l => l.uid == s.nextUid)).getD Launch.blank = _
    rw [List.find?_append, fresh]
    simp [State.queued]
  rw [← there]
  unfold State.queueLaunch
  dsimp only
  split
  · exact (OneLaunch.endLaunch known _).same
  · exact .refl _

section
variable (s : State) (t i : Nat)

/-- Queueing the record of a slot changes launches, tenants and memory alone. -/
theorem queueSlot_eq : ∃ l k m, s.queueSlot t i = { s with mem := m, tasks := { s.tasks with launches := l, tenants := k } } := by
  obtain ⟨l, hl⟩ := queueLaunch_eq s t (wordsAt s (cwSlot (s.tenant t) i) 64) (s.tenant t).nextsub false
  unfold State.queueSlot
  dsimp only
  rw [hl]
  obtain ⟨m, hm⟩ := deviceStore_mem _ (cwSlot (s.tenant t) i) (bytesOf 8 0) none
  exact ⟨_, _, m, hm⟩

theorem queueSlot_tenant (hb : s.bound t = true) : ((s.queueSlot t i).tenant t).nextsub = nextSub (s.tenant t).nextsub := by
  obtain ⟨l, hl⟩ := queueLaunch_eq s t (wordsAt s (cwSlot (s.tenant t) i) 64) (s.tenant t).nextsub false
  have id : (s.tenant t).id = t := tenant_id hb
  have set := tenant_setTenant_self (s := { s with tasks := { s.tasks with launches := l } })
    (k := { s.tenant t with nextsub := nextSub (s.tenant t).nextsub }) (by rw [id]; exact hb)
  rw [id] at set
  unfold State.queueSlot
  dsimp only
  rw [hl, State.tenant, deviceStore_tasks]
  exact congrArg Tenant.nextsub set

theorem queueSlot_launch : SameRecord (s.queued t (wordsAt s (cwSlot (s.tenant t) i) 64) (s.tenant t).nextsub false)
    ((s.queueSlot t i).launch s.nextUid) := by
  unfold State.queueSlot
  dsimp only
  rw [State.launch, deviceStore_tasks]
  exact queueLaunch_sameRecord s t (wordsAt s (cwSlot (s.tenant t) i) 64) (s.tenant t).nextsub false

theorem queueSlot_readWord : (s.queueSlot t i).readWord (cwSlot (s.tenant t) i) = 0 := State.readWord_deviceStore _ _ 0 none

theorem queueSlot_bytesKept : BytesKept s (s.queueSlot t i) (cwSlot (s.tenant t) i) 8 := fun m hm => by
  obtain ⟨l, hl⟩ := queueLaunch_eq s t (wordsAt s (cwSlot (s.tenant t) i) 64) (s.tenant t).nextsub false
  unfold State.queueSlot
  dsimp only
  rw [State.byte_deviceStore_out _ _ _ _ (by rw [bytesOf_length]; exact hm), hl]
  rfl

end

/-! ### Dispatch (R71, R85) -/

/-- Dropping L1 lines of cores changes the L1 alone. -/
theorem l1DropLines_foldl (l : List Ctx) : ∀ s : State,
    ∃ x, l.foldl (fun t c => t.l1DropLines c.core (fun _ => true)) s = s.setMem { s.mem with l1 := x } := by
  induction l with
  | nil => exact fun s => ⟨s.mem.l1, rfl⟩
  | cons c l ih =>
    intro s
    obtain ⟨x, hx⟩ := ih (s.l1DropLines c.core (fun _ => true))
    exact ⟨x, hx⟩

/-- The waves of a launch as they are dispatched, each with its number and its slot. -/
def State.newWaves (s : State) (l : Launch) (slots : List Nat) : List Wave :=
  ((l.waves.zip slots).mapIdx (fun n p => (n, p.1, (s.coreOf l.tenant p.1.core).getD 0, p.2))).map
    (fun p => s.newWave l p.1 p.2.1 p.2.2.1 p.2.2.2)

/-- What a launch holds on its cores as it is dispatched. -/
def State.newCtxs (s : State) (l : Launch) : List Ctx :=
  (placesAt l.waves).map (fun p => Ctx.fresh l.uid ((s.coreOf l.tenant p).getD 0) p)

/-- Dispatch adds the launch's waves and holdings to those of the cores, and drops L1 lines (R58, R71). -/
theorem dispatchWaves_eq (s : State) (l : Launch) (slots : List Nat) :
    ∃ x, s.dispatchWaves l slots = { s with
      mem := { s.mem with l1 := x },
      cores := { s.cores with waves := s.cores.waves ++ s.newWaves l slots, ctxs := s.cores.ctxs ++ s.newCtxs l } } :=
  l1DropLines_foldl (s.newCtxs l) _

theorem newWaves_length {s : State} {l : Launch} {slots : List Nat} (h : slots.length = l.waves.length) :
    (s.newWaves l slots).length = l.waves.length := by
  simp [State.newWaves, h]

/-- The wave of a table entry and a slot. -/
theorem newWaves_get {s : State} {l : Launch} {slots : List Nat} {n k : Nat} {e : WaveEntry} (he : l.waves[n]? = some e)
    (hk : slots[n]? = some k) : (s.newWaves l slots)[n]? = some (s.newWave l n e ((s.coreOf l.tenant e.core).getD 0) k) := by
  have pair : (l.waves.zip slots)[n]? = some (e, k) := List.getElem?_zip_eq_some.mpr ⟨he, hk⟩
  simp [State.newWaves, List.getElem?_mapIdx, pair]

/-- A launch that fits has a core for each of its places (R85). -/
theorem coreOf_of_fitsNow {s : State} {l : Launch} (h : s.fitsNow l = true) {p : Nat} (hp : p ∈ placesAt l.waves) :
    s.coreOf l.tenant p = some ((s.coreOf l.tenant p).getD 0) := by
  have fits := List.all_eq_true.mp h p hp
  cases hc : s.coreOf l.tenant p with
  | none => rw [hc] at fits; cases fits
  | some c => rfl

theorem core_mem_placesAt {l : List WaveEntry} {n : Nat} {e : WaveEntry} (h : l[n]? = some e) : e.core ∈ placesAt l :=
  List.mem_dedup.mpr (List.mem_map_of_mem (List.mem_of_getElem? h))

/-- The slots chosen are one for each wave. -/
theorem slotsOk_length {s : State} {l : Launch} {slots : List Nat} (h : s.slotsOk l slots = true) : slots.length = l.waves.length := by
  unfold State.slotsOk at h
  simp only [Bool.and_eq_true, beq_iff_eq] at h
  exact h.1.1

section
variable (s : State) (l : Launch) (n core k : Nat) (e : WaveEntry)

/-- The lanes of a new wave stand at ENTRY (R71). -/
theorem newWave_lane {i : Nat} (hi : i < 32) : (s.newWave l n e core k).lane i = ⟨.ready, BitVec.ofNat 48 l.entry, 0, false⟩ :=
  List.getD_replicate (x := (⟨.ready, BitVec.ofNat 48 l.entry, 0, false⟩ : Lane)) (y := Lane.gone) hi

/-- Its first scalar registers are the argument words (R71). -/
theorem newWave_sreg (i : Nat) : (s.newWave l n e core k).sreg i = if i < 16 then l.arg i else 0 :=
  cellGet_foldl_range 0 l.arg [] i 16

/-- Its predicates but p0 and q0 are false (R71). -/
theorem newWave_pred {p : Nat} (hp : p ≠ 0) : (∀ i, (s.newWave l n e core k).pred p i = false) ∧ (s.newWave l n e core k).qpred p = false := by
  simp [Wave.pred, Wave.predMask, Wave.qpred, State.newWave, Wave.blank, cellGet, hp]

end

/-- The state in which a wave starts (R71). -/
theorem newWaves_start {s : State} {l : Launch} {slots : List Nat} (fits : s.fitsNow l = true) {n k : Nat} {e : WaveEntry} {w : Wave}
    (he : l.waves[n]? = some e) (hk : slots[n]? = some k) (hw : (s.newWaves l slots)[n]? = some w) :
    w.wid = n ∧ s.coreOf l.tenant e.core = some w.core ∧ w.slot = k ∧ w.corepl = e.core ∧ w.launch = l.uid ∧ w.role = e.role ∧
      w.mode = e.rtmode.toNat ∧ w.base = l.basereg ∧ (∀ i < 32, w.lane i = ⟨.ready, BitVec.ofNat 48 l.entry, 0, false⟩) ∧
      (∀ i, w.sreg i = if i < 16 then l.arg i else 0) ∧ (∀ r i, w.vreg r i = 0) ∧
      (∀ p, p ≠ 0 → (∀ i, w.pred p i = false) ∧ w.qpred p = false) ∧ w.fstat = 0 ∧ w.mstat = 0 ∧
      w.ops = [] ∧ w.cpWords = [] ∧ w.tlWords = [] ∧ w.hangcnt = 0 ∧ w.ext = 0 ∧ w.tags = [] := by
  cases (newWaves_get he hk).symm.trans hw
  exact ⟨rfl, coreOf_of_fitsNow fits (core_mem_placesAt he), rfl, rfl, rfl, rfl, rfl, rfl, fun i hi => newWave_lane s l n _ k e hi,
    newWave_sreg s l n _ k e, fun _ _ => rfl, fun _ hp => newWave_pred s l n _ k e hp, rfl, rfl, rfl, rfl, rfl, rfl, rfl, rfl⟩

/-- What a launch starts with on its cores: an empty scratchpad, no accumulator, no reservation (R71, R85). -/
theorem newCtxs_start {s : State} {l : Launch} (fits : s.fitsNow l = true) {c : Ctx} (hc : c ∈ s.newCtxs l) :
    c.launch = l.uid ∧ s.coreOf l.tenant c.place = some c.core ∧ c.pad = [] ∧ c.handles = [] ∧ c.resv = [] := by
  obtain ⟨p, hp, rfl⟩ := List.mem_map.mp hc
  exact ⟨rfl, coreOf_of_fitsNow fits hp, rfl, rfl, rfl⟩

theorem newCtxs_place (s : State) (l : Launch) : (s.newCtxs l).map Ctx.place = placesAt l.waves := by
  rw [State.newCtxs, List.map_map]
  exact List.map_id _

/-! ### A launch whose turn has come (R69, R70, R85) -/

/-- A launch as it is admitted. -/
def State.admitted (s : State) (l : Launch) (save : Nat) : Launch :=
  { l with phase := .running, reserving := false, saveArea := save, tstart := if l.tstart = 0 then s.time l.tenant else l.tstart }

/-- The next step towards the tables of a launch: a word read, or the table pass over all of them. -/
def State.readTables (s : State) (uid : Nat) : State :=
  if !(s.launch uid).tablesIn then s.setLaunch (s.readTable (s.launch uid))
  else match s.tablePass (s.launch uid) with
    | .error n => s.endLaunch uid ⟨1, n, 0⟩
    | .ok t => s.setLaunch ((s.launch uid).withTables t)

theorem readTables_reads {s : State} {uid : Nat} (h : (s.launch uid).tablesIn = false) :
    s.readTables uid = s.setLaunch (s.readTable (s.launch uid)) := by
  rw [State.readTables, h]
  rfl

theorem readTables_fails {s : State} {uid n : Nat} (h : (s.launch uid).tablesIn = true) (hp : s.tablePass (s.launch uid) = .error n) :
    s.readTables uid = s.endLaunch uid ⟨1, n, 0⟩ := by
  rw [State.readTables, h, hp]
  rfl

theorem readTables_keeps {s : State} {uid : Nat} {t : Tables} (h : (s.launch uid).tablesIn = true) (hp : s.tablePass (s.launch uid) = .ok t) :
    s.readTables uid = s.setLaunch ((s.launch uid).withTables t) := by
  rw [State.readTables, h, hp]
  rfl

section
variable {s : State} {uid : Nat} {slots : List Nat} {save : Nat} (hr : (s.launch uid).phase = .ready) (he : (s.launch uid).endInfo = none)
  (ha : (s.tenant (s.launch uid).tenant).suspended = false) (ht : s.turn (s.launch uid) = true)
include hr he ha ht

theorem goes_on_of_turn : ¬((s.launch uid).phase ≠ .ready ∨ (s.launch uid).endInfo.isSome ∨ (s.tenant (s.launch uid).tenant).suspended ∨
    !s.turn (s.launch uid)) := by
  simp [hr, he, ha, ht]

/-- A launch whose turn has come has its tables read. -/
theorem exec_launchAdmitted_reads (hw : (s.launch uid).wavesRead = false) :
    exec (.launchAdmitted uid slots save) s = .next (s.readTables uid) :=
  congrArg Host.Outcome.next ((if_neg (goes_on_of_turn hr he ha ht)).trans (if_pos (by simp [hw])))

/-- One whose tables have been read is dispatched where it fits. -/
theorem exec_launchAdmitted_fits (hw : (s.launch uid).wavesRead = true) (hf : s.fitsNow (s.launch uid) = true)
    (hs : s.slotsOk (s.launch uid) slots = true) (hv : s.saveOk save (placesAt (s.launch uid).waves).length = true) :
    exec (.launchAdmitted uid slots save) s = .next ((s.setLaunch (s.admitted (s.launch uid) save)).dispatchWaves (s.launch uid) slots) :=
  congrArg Host.Outcome.next ((if_neg (goes_on_of_turn hr he ha ht)).trans ((if_neg (by simp [hw])).trans (if_pos ⟨hf, hs, hv⟩)))

end

/-- RESLIM over, a launch reserves its cores (R86). -/
theorem exec_reservationTimeout {s : State} {uid e : Nat} (hr : (s.launch uid).phase = .ready)
    (hl : (s.tenant (s.launch uid).tenant).reslim ≠ 0) (since : (s.launch uid).readySince = some e)
    (late : 1000 * (s.tenant (s.launch uid).tenant).reslim < s.elapsed (s.launch uid).tenant e) :
    exec (.reservationTimeout uid) s = .next (s.setLaunch { s.launch uid with reserving := true }) := by
  show execReservationTimeout uid s = _
  have due : (s.launch uid).readySince.any
      (fun e => decide (1000 * (s.tenant (s.launch uid).tenant).reslim < s.elapsed (s.launch uid).tenant e)) = true := by
    rw [since, Option.any_some]
    exact decide_eq_true late
  unfold execReservationTimeout
  dsimp only
  rw [if_pos ⟨hr, hl, due⟩]

/-! ### Keys (R370) -/

/-- A launch that waits no longer stands in the queue or at a slot. -/
theorem dropKeyWait_queue (s : State) (uid : Nat) : uid ∉ (s.dropKeyWait uid).tasks.keyQueue := by
  simp [State.dropKeyWait, State.setTasks]

theorem dropKeyWait_waiters (s : State) (uid k : Nat) : uid ∉ ((s.dropKeyWait uid).keySlot k).waiters := by
  have slot : (s.dropKeyWait uid).keySlot k = { s.keySlot k with waiters := (s.keySlot k).waiters.filter (fun x => x != uid) } :=
    cellGet_map (f := fun v : KeySlot => { v with waiters := v.waiters.filter (fun x => x != uid) }) rfl k s.tasks.keySlots
  rw [slot]
  simp

@[simp] theorem keySlot_setKey_self (s : State) (k : Nat) (v : KeySlot) : (s.setKey k v).keySlot k = v := cellGet_cellSet_self _ _ _ _

/-- KEYLIM over without a free slot, a launch in KEYWAIT ends (R370). -/
theorem exec_keywaitTimeout {s : State} {uid since : Nat} (hp : (s.launch uid).phase = .keywait since) (hl : (s.launch uid).keylim ≠ 0)
    (late : 1000 * (s.launch uid).keylim ≤ s.elapsed (s.launch uid).tenant since) (hf : s.freeKey = none) :
    exec (.keywaitTimeout uid) s = .next ((s.dropKeyWait uid).endLaunch uid ⟨4, 0, 0⟩) := by
  show execKeywaitTimeout uid s = _
  unfold execKeywaitTimeout
  dsimp only
  rw [hp]
  exact congrArg Host.Outcome.next (if_pos ⟨hl, late, hf⟩)

/-- A launch as it becomes a holder of a slot. -/
def State.holding (s : State) (k uid : Nat) : Launch :=
  let l := { s.launch uid with slotHeld := some k }
  if l.pure then { l with phase := .queued } else s.toReady l

theorem holding_uid (s : State) (k uid : Nat) : (s.holding k uid).uid = (s.launch uid).uid := by
  unfold State.holding
  dsimp only
  split <;> rfl

theorem holding_slotHeld (s : State) (k uid : Nat) : (s.holding k uid).slotHeld = some k := by
  unfold State.holding
  dsimp only
  split <;> rfl

theorem holding_phase (s : State) (k uid : Nat) : (s.holding k uid).phase = if (s.launch uid).pure then .queued else .ready := by
  unfold State.holding
  exact apply_ite Launch.phase _ _ _

/-- A launch that goes on becomes a holder (R370). -/
theorem holdKey_eq {s : State} {uid : Nat} (k : Nat) (he : (s.launch uid).endInfo = none) :
    s.holdKey k uid = (s.setKey k { s.keySlot k with holders := (s.keySlot k).holders ++ [uid] }).setLaunch (s.holding k uid) :=
  if_neg (by simp [he])

/-- A slot as it opens, before its waiters hold it. -/
def KeySlot.opened (v : KeySlot) (x m : List Byte) : KeySlot := { v with state := .active, xts := x, mac := m, waiters := [] }

section
variable {s : State} {k uid : Nat} (hs : (s.keySlot k).state = .unsealing) (hu : (s.keySlot k).unsealer = uid)
  (hw : (s.keySlot k).waiters = [uid])
include hs hu hw

/-- A slot that opens has its waiter as a holder (R370). -/
theorem exec_keyUnsealDone_opens {x m : List Byte} (he : (s.launch uid).endInfo = none)
    (ho : s.unseal (s.keySlot k).tenant (s.keySlot k).kid (s.launch uid).keyh = some (x, m)) :
    exec (.keyUnsealDone k) s = .next ((s.setKey k ((s.keySlot k).opened x m)).holdKey k uid) := by
  subst hu
  show execKeyUnsealDone k s = _
  have held : (((s.setKey k ((s.keySlot k).opened x m)).holdKey k (s.keySlot k).unsealer).keySlot k).holders ≠ [] := by
    rw [holdKey_eq (s := s.setKey k _) k he]
    show ((State.setKey _ k _).keySlot k).holders ≠ []
    rw [keySlot_setKey_self]
    simp
  unfold execKeyUnsealDone
  dsimp only
  rw [if_neg (by simp [hs]), ho, hw]
  exact congrArg Host.Outcome.next (if_neg held)

/-- One whose blob fails is empty, and the launch that unsealed it ends (R370). -/
theorem exec_keyUnsealDone_fails (hq : s.tasks.keyQueue = []) (ho : s.unseal (s.keySlot k).tenant (s.keySlot k).kid (s.launch uid).keyh = none) :
    exec (.keyUnsealDone k) s = .next ((s.setKey k KeySlot.empty).endLaunch uid ⟨1, 11, 0⟩) := by
  show execKeyUnsealDone k s = _
  have nobody : ([uid].filter (fun u => u != uid)) = [] := by simp
  obtain ⟨l, hl⟩ := endLaunch_launches (s.setKey k KeySlot.empty) uid ⟨1, 11, 0⟩
  have granted : ((s.setKey k KeySlot.empty).endLaunch uid ⟨1, 11, 0⟩).grantFree = (s.setKey k KeySlot.empty).endLaunch uid ⟨1, 11, 0⟩ := by
    rw [hl]
    show grantKeys s.tasks.keyQueue.length _ = _
    rw [hq]
    rfl
  unfold execKeyUnsealDone
  dsimp only
  rw [if_neg (by simp [hs]), hu, ho, hw, nobody]
  exact congrArg Host.Outcome.next granted

end

/-- Settles O52: what the watcher, the admission, the time limits and the key unit leave, each read off what its event does. -/
theorem admissionEvents : Obligations.AdmissionEvents := by
  unfold Obligations.AdmissionEvents
  refine ⟨?_, ?_, ?_, ?_, ?_, ?_⟩
  · intro s t slot v hb hslot may
    obtain ⟨m, stored, -⟩ := storeReady_eq s (cwSlot (s.tenant t) slot) v
    refine ⟨s.storeReady (cwSlot (s.tenant t) slot) v, _, exec_readyWordStore hb hslot may, rfl, ?_, readWord_storeReady _ _ _, fun a ha => ?_,
      fun closed => watchWindow_closed ?_⟩
    · rw [stored]
    · rw [byte_storeReady, if_neg (by omega)]
    · rw [stored]
      exact closed
  · intro s t i hb h6 h16 hq hi here lowest
    obtain ⟨l, k, m, queued⟩ := queueSlot_eq s t i
    obtain ⟨l', k', q, settled⟩ := launchesOnly_settleEligible (s.queueSlot t i)
    have same := (queueSlot_launch s t i).trans (settleEligible_sameRecord (s.queueSlot t i) s.nextUid)
    refine ⟨(s.queueSlot t i).settleEligible, congrArg Host.Outcome.next (watchWindow_found hb h6 h16 hq hi here lowest), ?_, ?_, ?_,
      same.record, same.tenant, same.subno, same.srcLaunch, ?_, ?_⟩
    · rw [settled]
      exact queueSlot_tenant s t i hb
    · rw [settled]
      exact queueSlot_readWord s t i
    · rw [settled]
      exact queueSlot_bytesKept s t i
    · rw [settled, queued]
    · rw [settled, queued]
  · intro s uid slots save ready going awake turn l
    have known : Known s uid := known_of_phase (by rw [ready]; decide)
    have uid_l : l.uid = uid := launch_uid known
    refine ⟨fun unread missing => ?_, fun n unread all fails => ?_, fun tb unread all passes => ?_, fun read fits chosen saveOk => ?_⟩
    · rw [exec_launchAdmitted_reads ready going awake turn unread, readTables_reads missing]
    · rw [exec_launchAdmitted_reads ready going awake turn unread, readTables_fails all fails, endLaunch_first going]
    · rw [exec_launchAdmitted_reads ready going awake turn unread, readTables_keeps all passes]
    · obtain ⟨x, dispatched⟩ := dispatchWaves_eq (s.setLaunch (s.admitted l save)) l slots
      have runs : ((s.setLaunch (s.admitted l save)).dispatchWaves l slots).launch uid = s.admitted l save := by
        rw [dispatched]
        exact launch_setLaunch_of known rfl uid_l
      refine ⟨_, exec_launchAdmitted_fits ready going awake turn read fits chosen saveOk, ?_, ?_, ?_, fun unstarted => ?_,
        ⟨s.newWaves l slots, ?_, newWaves_length (slotsOk_length chosen), fun n e k w he hk hw => ?_⟩,
        ⟨s.newCtxs l, ?_, newCtxs_place s l, fun c hc => ?_⟩, ?_, ?_, ?_, ?_, ?_⟩
      · rw [runs]; rfl
      · rw [runs]; rfl
      · rw [runs]; rfl
      · rw [runs]; exact if_pos unstarted
      · rw [dispatched]; rfl
      · rw [← uid_l]; exact newWaves_start fits he hk hw
      · rw [dispatched]; rfl
      · rw [← uid_l]; exact newCtxs_start fits hc
      all_goals rw [dispatched]; rfl
  · intro s uid e l ready limited since late
    exact ⟨_, exec_reservationTimeout ready limited since late, rfl⟩
  · intro s uid since l waits limited late none_free going
    have known : Known s uid := known_of_phase (by rw [waits]; nofun)
    have ended := endLaunch_launch (s := s.dropKeyWait uid) (e := ⟨4, 0, 0⟩) known going
    obtain ⟨x, only⟩ := endLaunch_launches (s.dropKeyWait uid) uid ⟨4, 0, 0⟩
    refine ⟨_, exec_keywaitTimeout waits limited late none_free, by rw [ended], by rw [ended], ?_, ?_, ?_⟩
    · rw [only]; exact dropKeyWait_queue s uid
    · rw [only]; exact dropKeyWait_waiters s uid
    · rw [only]; rfl
  · intro s k uid sealed unsealer waiters known going nobody
    cases opens : s.unseal (s.keySlot k).tenant (s.keySlot k).kid (s.launch uid).keyh with
    | some b =>
      obtain ⟨x, m⟩ := b
      have held := holdKey_eq (s := s.setKey k ((s.keySlot k).opened x m)) k going
      have holder : ((s.setKey k ((s.keySlot k).opened x m)).holdKey k uid).launch uid = s.holding k uid := by
        rw [held]
        exact launch_setLaunch_of known rfl ((holding_uid s k uid).trans (launch_uid known))
      refine ⟨_, exec_keyUnsealDone_opens sealed unsealer waiters going opens, ?_, ?_, ?_, ?_⟩
      · rw [held]; rfl
      · rw [held]
        show (State.setKey _ k _).keySlot k = _
        rw [keySlot_setKey_self, keySlot_setKey_self]
        rfl
      · rw [holder, holding_slotHeld]
      · rw [holder, holding_phase]
    | none =>
      obtain ⟨x, only⟩ := endLaunch_launches (s.setKey k KeySlot.empty) uid ⟨1, 11, 0⟩
      have ended := endLaunch_launch (s := s.setKey k KeySlot.empty) (e := ⟨1, 11, 0⟩) known going
      refine ⟨_, exec_keyUnsealDone_fails sealed unsealer waiters nobody opens, ?_, ?_, ?_⟩
      · rw [only]; rfl
      · rw [only]; exact keySlot_setKey_self s k KeySlot.empty
      · rw [ended]

end Sys2Proof.Machine

/-! Retirement, the two rings, and the registers of a virtual function with its reset (spec/05 R75, R78 to R82; spec/07 R114; spec/27 R387 to
R389). -/
namespace Sys2Proof.Machine
open Sys2Proof.Safety

/-! ### What a launch leaves on the cores and in its save area (R111, R360, R387) -/

/-- A frame released keeps the bytes of every other frame (R111). -/
theorem releaseFrame_eq (s : State) (n : Nat) :
    ∃ m, s.releaseFrame n = s.setMem m ∧ ∀ a, a / 2 ^ 16 ≠ n → cellGet 0 m.bytes a = s.byte a := by
  have kept : ∀ a, a / 2 ^ 16 ≠ n → cellGet 0 (s.mem.bytes.filter (fun c => c.1 / 2 ^ 16 != n)) a = s.byte a :=
    fun a ha => cellGet_filter (fun _ => by simpa using ha) s.mem.bytes
  unfold State.releaseFrame
  dsimp only
  split <;> exact ⟨_, rfl, kept⟩

/-- Frames released keep the bytes of every other frame. -/
theorem releaseFrames_eq (base : Nat) : ∀ (l : List Nat) (s : State),
    ∃ m, l.foldl (fun t i => t.releaseFrame (base + i)) s = s.setMem m ∧
      ∀ a, (∀ i ∈ l, a / 2 ^ 16 ≠ base + i) → cellGet 0 m.bytes a = s.byte a
  | [], s => ⟨s.mem, rfl, fun _ _ => rfl⟩
  | i :: l, s => by
    obtain ⟨m, hm, one⟩ := releaseFrame_eq s (base + i)
    obtain ⟨m', hm', rest⟩ := releaseFrames_eq base l (s.setMem m)
    refine ⟨m', by rw [List.foldl_cons, hm, hm']; rfl, fun a ha => ?_⟩
    rw [rest a (fun j hj => ha j (List.mem_cons_of_mem _ hj))]
    exact one a (ha i (List.mem_cons_self ..))

/-- Holdings released move the generations of core resources alone. -/
theorem releaseCtxs_eq : ∀ (l : List Ctx) (s : State), ∃ g, l.foldl State.releaseCtx s = { s with cores := { s.cores with gens := g } }
  | [], s => ⟨s.cores.gens, rfl⟩
  | c :: l, s => by
    obtain ⟨g, hg⟩ := releaseCtxs_eq l (s.releaseCtx c)
    exact ⟨g, hg⟩

/-- Operand latches of waves dropped change the quadrants alone. -/
theorem dropLatches_eq : ∀ (l : List Wave) (s : State),
    ∃ q, l.foldl (fun t w => t.dropLatch w.core w.slot (fun _ => true)) s = { s with cores := { s.cores with quads := q } }
  | [], s => ⟨s.cores.quads, rfl⟩
  | w :: l, s => by
    obtain ⟨q, hq⟩ := dropLatch_eq s w.core w.slot (fun _ => true)
    obtain ⟨q', hq'⟩ := dropLatches_eq l { s with cores := { s.cores with quads := q } }
    exact ⟨q', by rw [List.foldl_cons, hq, hq']⟩

/-- A launch with nothing left of it but its record. -/
def Launch.released (l : Launch) : Launch := { l with images := [], chans := l.chans.map (fun c => { c with full := [] }) }

/-- A byte address lies outside the save area of a launch, or it has none (R360). -/
def Launch.spares (l : Launch) (m : Nat) : Prop :=
  l.tstart = 0 ∨ m / 2 ^ 16 < l.saveArea / 2 ^ 16 ∨ l.saveArea / 2 ^ 16 + saveFrames (placesAt l.waves).length ≤ m / 2 ^ 16

/-- The cores with a launch gone from them. -/
def Cores.without (c : Cores) (uid : Nat) (g : Cells UnitGen) (q : Cells Quad) : Cores :=
  { c with waves := c.waves.filter (fun w => w.launch != uid), ctxs := c.ctxs.filter (fun x => x.launch != uid), gens := g, quads := q }

/-- Releasing a launch's cores takes its waves and holdings off them, and changes no byte outside its save area (R387). -/
theorem releaseCores_eq (s : State) (uid : Nat) :
    ∃ m g q, s.releaseCores uid = { s.setLaunch (s.launch uid).released with
        mem := m, cores := s.cores.without uid g q } ∧
      ∀ a, (s.launch uid).spares a → cellGet 0 m.bytes a = s.byte a := by
  obtain ⟨g, hg⟩ := releaseCtxs_eq (s.cores.ctxs.filter (fun c => c.launch == uid)) s
  obtain ⟨q, hq⟩ := dropLatches_eq (s.cores.waves.filter (fun w => w.launch == uid)) { s with cores := { s.cores with gens := g } }
  unfold State.releaseCores
  dsimp only
  rw [hg, hq]
  by_cases ht : (s.launch uid).tstart = 0
  · rw [if_pos ht]
    exact ⟨s.mem, g, q, rfl, fun _ _ => rfl⟩
  · rw [if_neg ht]
    obtain ⟨m, hm, kept⟩ := releaseFrames_eq ((s.launch uid).saveArea / 2 ^ 16) (List.range (saveFrames (placesAt (s.launch uid).waves).length))
      { s.setLaunch (s.launch uid).released with cores := s.cores.without uid g q }
    refine ⟨m, g, q, hm, fun a ha => kept a (fun i hi => ?_)⟩
    have := List.mem_range.mp hi
    unfold Launch.spares at ha
    omega

/-! ### Retirement (R387 to R389) -/

/-- The launch with what its completion record says of stops (R389). -/
def State.noted (s : State) (uid : Nat) : Launch :=
  { s.launch uid with preemptSat := (s.launch uid).preemptSat || s.tasks.stops.any (fun r => r.launch == uid), reserving := false }

/-- The state in which a launch has left its cores. -/
def State.quitCores (s : State) (uid : Nat) : State :=
  let s0 := s.setLaunch (s.noted uid)
  (s0.setTasks { s0.tasks with stops := s0.tasks.stops.filter (fun r => r.launch != uid) }).releaseCores uid

/-- A launch leaving its cores changes memory, cores, launches and stops (R111, R387). -/
theorem quitCores_eq {s : State} {uid : Nat} (known : Known s uid) :
    ∃ m g q l, s.quitCores uid = { s with
        mem := m
        cores := s.cores.without uid g q
        tasks := { s.tasks with launches := l, stops := s.tasks.stops.filter (fun r => r.launch != uid) } } ∧
      Known (s.quitCores uid) uid ∧ (s.quitCores uid).launch uid = (s.noted uid).released ∧
      ∀ a, (s.launch uid).spares a → cellGet 0 m.bytes a = s.byte a := by
  let s1 := (s.setLaunch (s.noted uid)).setTasks
    { (s.setLaunch (s.noted uid)).tasks with stops := s.tasks.stops.filter (fun r => r.launch != uid) }
  have known1 : Known s1 uid := known_setLaunch known
  have noted : s1.launch uid = s.noted uid := launch_setLaunch_of known rfl (launch_uid known)
  obtain ⟨m, g, q, h, kept⟩ := releaseCores_eq s1 uid
  rw [noted] at h kept
  have left : s.quitCores uid = s1.releaseCores uid := rfl
  rw [left, h]
  exact ⟨m, g, q, _, rfl, known_setLaunch known1, launch_setLaunch_of known1 rfl (launch_uid known), kept⟩

/-- A launch that is not pure leaves no reuse entry (R100). -/
theorem reuseInsert_of_not_pure {s : State} {uid : Nat} (h : (s.launch uid).pure = false) : s.reuseInsert uid = s := if_pos (.inl (by simp [h]))

/-- One that holds no slot releases none (R371). -/
theorem releaseKey_of_none {s : State} {uid : Nat} (h : (s.launch uid).slotHeld = none) : s.releaseKey uid = s := by
  rw [State.releaseKey]
  dsimp only
  rw [h]

/-- The tenant of a launch with the launch's completion record waiting (R78). -/
def State.recorded (s : State) (l : Launch) (e : EndInfo) : Tenant :=
  let t := s.tenant l.tenant
  { t with records := t.records ++ [completionOf l e s.ctl.seq (s.time l.tenant)], crwait := t.crwait || !ringOpen t.crsize t.crprod t.crcons }

theorem complete_eq {s : State} {uid : Nat} {l : Launch} (h : s.launch uid = l) (e : EndInfo) :
    s.complete uid e = (s.setTenant (s.recorded l e)).takeSeq := by
  subst h
  rfl

/-- The state with a launch's record waiting and the launch retired, before others become eligible. -/
def State.recordEnd (s : State) (uid : Nat) (e : EndInfo) : State :=
  (s.complete uid e).setLaunch { (s.complete uid e).launch uid with phase := .retired }

/-- The same from the state in which the launch still is on its cores. -/
def State.retire (s : State) (uid : Nat) (e : EndInfo) : State := ((s.quitCores uid).dropKeyWait uid).recordEnd uid e

section
variable {s : State} {uid : Nat} {e : EndInfo} (hp : (s.launch uid).phase = .ending)
include hp

/-- A launch that has ended and whose work is over retires; what kills it then comes too late (R387, R388). -/
theorem exec_launchRetire {killed : Bool} (he : (s.launch uid).endInfo = some e) (hr : e ≠ endedByReset) (quiet : s.launchQuiet uid = true)
    (bare : (s.launch uid).pure = false) (free : (s.launch uid).slotHeld = none) :
    exec (.launchRetire uid killed) s = .next (s.retire uid e).settleEligible := by
  show execLaunchRetire uid killed s = _
  have late : s.killed uid killed = s := by
    unfold State.killed
    split
    · exact endLaunch_later he
    · rfl
  obtain ⟨m, g, q, l, -, -, left, -⟩ := quitCores_eq (s := s) (uid := uid) (known_of_phase (by rw [hp]; decide))
  have inserts : (s.quitCores uid).reuseInsert uid = s.quitCores uid := reuseInsert_of_not_pure (by rw [left]; exact bare)
  have releases : ((s.quitCores uid).dropKeyWait uid).releaseKey uid = (s.quitCores uid).dropKeyWait uid :=
    releaseKey_of_none ((congrArg Launch.slotHeld left).trans free)
  unfold execLaunchRetire
  dsimp only
  rw [late]
  split
  case h_1 f _ ends =>
    cases he.symm.trans ends
    rw [if_neg (by simp [quiet]), if_neg hr]
    show Host.Outcome.next (((((s.quitCores uid).reuseInsert uid).dropKeyWait uid).releaseKey uid).recordEnd uid e).settleEligible = _
    rw [inserts, releases]
    rfl
  case h_2 other => exact absurd he (other e hp)

omit hp in
/-- A kill that comes first is the launch's terminating event (R79, R387). -/
theorem exec_launchRetire_kills (there : s.tasks.launches.any (fun l => l.uid == uid) = true) (going : (s.launch uid).endInfo = none) :
    exec (.launchRetire uid true) s = exec (.launchRetire uid false) (s.setLaunch { s.launch uid with
      phase := .ending, endInfo := some ⟨5, 0, 0⟩, endCycle := some s.ctl.cycle }) := by
  have kill : s.killed uid true = s.endLaunch uid ⟨5, 0, 0⟩ := if_pos (by simpa using there)
  show execLaunchRetire uid true s = execLaunchRetire uid false _
  unfold execLaunchRetire
  rw [kill, endLaunch_first going]
  rfl

/-- What retiring leaves: the launch retired, its waves and holdings gone, its record waiting with a SEQ of its own. -/
theorem retire_eq (e : EndInfo) :
    ∃ m g q l k kq, s.retire uid e = { s with
        ctl := { s.ctl with seq := (s.ctl.seq + 1) % 2 ^ 64 }
        mem := m
        cores := s.cores.without uid g q
        tasks := { (s.setTenant (s.recorded (s.noted uid) e)).tasks with
          launches := l, keySlots := k, keyQueue := kq, stops := s.tasks.stops.filter (fun r => r.launch != uid) } } ∧
      ((s.retire uid e).launch uid).phase = .retired ∧
      ∀ a, (s.launch uid).spares a → cellGet 0 m.bytes a = s.byte a := by
  obtain ⟨m, g, q, l, quit, known, left, kept⟩ := quitCores_eq (s := s) (uid := uid) (known_of_phase (by rw [hp]; decide))
  have done := complete_eq (s := (s.quitCores uid).dropKeyWait uid) left e
  have known' : Known (((s.quitCores uid).dropKeyWait uid).complete uid e) uid := by rw [done]; exact known
  have retired : (s.retire uid e).launch uid = { (((s.quitCores uid).dropKeyWait uid).complete uid e).launch uid with phase := .retired } :=
    launch_setLaunch_of known' rfl (launch_uid known')
  refine ⟨m, g, q, (s.retire uid e).tasks.launches, (s.retire uid e).tasks.keySlots, (s.retire uid e).tasks.keyQueue, ?_, by rw [retired], kept⟩
  unfold State.retire State.recordEnd
  rw [done, quit]
  rfl

end

/-! ### Tenants -/

/-- A tenant after it was replaced, where the tenants of a state stand. -/
theorem tenant_setTenant_of {s u : State} {k : Tenant} {t : Nat} (hb : s.bound t = true) (hu : u.tasks.tenants = s.tasks.tenants) (hk : k.id = t) :
    (u.setTenant k).tenant t = k := by
  subst hk
  refine tenant_setTenant_self ?_
  rw [State.bound, hu]
  exact hb

/-- Of two replacements of one tenant the later stands. -/
theorem setTenant_setTenant (s : State) {j k : Tenant} (h : j.id = k.id) : (s.setTenant j).setTenant k = s.setTenant k := by
  have later : updWhere (fun x => x.id == k.id) (fun _ => k) (updWhere (fun x => x.id == j.id) (fun _ => j) s.tasks.tenants) =
      updWhere (fun x => x.id == k.id) (fun _ => k) s.tasks.tenants := by
    rw [updWhere, updWhere, updWhere, List.map_map]
    refine List.map_congr_left (fun x _ => ?_)
    by_cases hx : x.id = k.id <;> simp [hx, h]
  show s.setTasks { s.tasks with tenants := _ } = s.setTasks { s.tasks with tenants := _ }
  rw [← later]
  rfl

/-! ### Rings (R78, R80, R82) -/

/-- The count towards vector 0 starts again (R82). -/
def Tenant.signalled (k : Tenant) : Tenant := { k with unsignalled := 0, oldestUnsignalled := none }

/-- Vector 0 fires for a tenant (R82). -/
theorem signal0_eq {s : State} {t : Nat} {k : Tenant} (h : s.tenant t = k) :
    s.signal0 t = (s.setTenant k.signalled).setDev { s.dev with msix := s.dev.msix ++ [⟨t, 0⟩] } := by
  subst h
  rfl

/-- Vector 0 of a tenant that has just been replaced (R82). -/
theorem signal0_setTenant {s u : State} {k : Tenant} {t : Nat} (hb : s.bound t = true) (hu : u.tasks.tenants = s.tasks.tenants) (hk : k.id = t) :
    (u.setTenant k).signal0 t = (u.setTenant k.signalled).setDev { u.dev with msix := u.dev.msix ++ [⟨t, 0⟩] } := by
  rw [signal0_eq (tenant_setTenant_of hb hu hk), setTenant_setTenant u (j := k) (k := k.signalled) rfl]
  rfl

/-- A tenant whose oldest completion record has been written and counted (R78, R82). -/
def Tenant.counted (k : Tenant) (rest : List WaitRec) (now : Nat) : Tenant :=
  { k with
    records := rest, crprod := (k.crprod + 1) % 2 ^ 32, unsignalled := k.unsignalled + 1,
    oldestUnsignalled := k.oldestUnsignalled.or (some now) }

/-- The same with vector 0 fired where the count is reached. -/
def Tenant.completed (k : Tenant) (rest : List WaitRec) (now : Nat) : Tenant :=
  if k.cmodn ≠ 0 ∧ k.cmodn ≤ k.unsignalled + 1 then (k.counted rest now).signalled else k.counted rest now

theorem completed_id (k : Tenant) (rest : List WaitRec) (now : Nat) : (k.completed rest now).id = k.id := by
  unfold Tenant.completed
  split <;> rfl

theorem completed_eq (k : Tenant) (rest : List WaitRec) (now : Nat) :
    let due := k.cmodn ≠ 0 ∧ k.cmodn ≤ k.unsignalled + 1
    k.completed rest now = { k with
      records := rest, crprod := (k.crprod + 1) % 2 ^ 32, unsignalled := if due then 0 else k.unsignalled + 1,
      oldestUnsignalled := if due then none else k.oldestUnsignalled.or (some now) } := by
  intro due
  unfold Tenant.completed
  by_cases h : due
  · rw [if_pos h, if_pos h, if_pos h]; rfl
  · rw [if_neg h, if_neg h, if_neg h]; rfl

section
variable {s : State} {t : Nat} {r : WaitRec} {rest : List WaitRec}

/-- A record that waits is its tenant's, so that the tenant is bound. -/
theorem bound_of_records (h : (s.tenant t).records = r :: rest) : s.bound t = true :=
  bound_of_ne (fun e => by rw [e] at h; cases h)

theorem bound_of_events (h : (s.tenant t).events = r :: rest) : s.bound t = true :=
  bound_of_ne (fun e => by rw [e] at h; cases h)

/-- A full ring takes no completion record (R78). -/
theorem exec_completionRecordWrite_full (h : (s.tenant t).records = r :: rest)
    (full : ringOpen (s.tenant t).crsize (s.tenant t).crprod (s.tenant t).crcons = false) :
    exec (.completionRecordWrite t) s = .next (s.setTenant { s.tenant t with crwait := true }) := by
  show execCompletionRecordWrite t s = _
  unfold execCompletionRecordWrite
  dsimp only
  split
  case h_1 none => cases h.symm.trans none
  case h_2 => rw [if_pos (by simp [full])]

/-- An open one takes the oldest, and vector 0 fires where the count is reached (R78, R82). -/
theorem exec_completionRecordWrite_open (h : (s.tenant t).records = r :: rest)
    (isOpen : ringOpen (s.tenant t).crsize (s.tenant t).crprod (s.tenant t).crcons = true) :
    let k := s.tenant t
    exec (.completionRecordWrite t) s = .next (((s.writeRecord k.crbase k.crsize k.crprod r.words).setTenant (k.completed rest (s.time t))).setDev
      { s.dev with msix := if k.cmodn ≠ 0 ∧ k.cmodn ≤ k.unsignalled + 1 then s.dev.msix ++ [⟨t, 0⟩] else s.dev.msix }) := by
  intro k
  have hb := bound_of_records h
  obtain ⟨m, written⟩ := writeRecord_mem s k.crbase k.crsize k.crprod r.words
  show execCompletionRecordWrite t s = _
  unfold execCompletionRecordWrite
  dsimp only
  split
  case h_1 none => cases h.symm.trans none
  case h_2 r' rest' some =>
    cases h.symm.trans some
    rw [if_neg (by simp [isOpen]), written]
    show Host.Outcome.next (if k.cmodn ≠ 0 ∧ k.cmodn ≤ k.unsignalled + 1 then ((s.setMem m).setTenant (k.counted rest (s.time t))).signal0 t
      else (s.setMem m).setTenant (k.counted rest (s.time t))) = _
    unfold Tenant.completed
    split
    case isTrue =>
      exact congrArg Host.Outcome.next (signal0_setTenant (u := s.setMem m) (k := k.counted rest (s.time t)) hb rfl (tenant_id hb))
    case isFalse => rfl

/-- A full ring takes no event record (R80). -/
theorem exec_eventRecordWrite_full (h : (s.tenant t).events = r :: rest)
    (full : ringOpen (s.tenant t).evsize (s.tenant t).evprod (s.tenant t).evcons = false) :
    exec (.eventRecordWrite t) s = .next (s.setTenant { s.tenant t with evlost := true }) := by
  show execEventRecordWrite t s = _
  unfold execEventRecordWrite
  dsimp only
  split
  case h_1 none => cases h.symm.trans none
  case h_2 => rw [if_pos (by simp [full])]

/-- An open one takes the oldest, and vector 2 fires (R80, R82). -/
theorem exec_eventRecordWrite_open (h : (s.tenant t).events = r :: rest)
    (isOpen : ringOpen (s.tenant t).evsize (s.tenant t).evprod (s.tenant t).evcons = true) :
    let k := s.tenant t
    exec (.eventRecordWrite t) s = .next (((s.writeRecord k.evbase k.evsize k.evprod r.words).setTenant
      { k with events := rest, evprod := (k.evprod + 1) % 2 ^ 32 }).setDev { s.dev with msix := s.dev.msix ++ [⟨t, 2⟩] }) := by
  intro k
  obtain ⟨m, written⟩ := writeRecord_mem s k.evbase k.evsize k.evprod r.words
  show execEventRecordWrite t s = _
  unfold execEventRecordWrite
  dsimp only
  split
  case h_1 none => cases h.symm.trans none
  case h_2 r' rest' some =>
    cases h.symm.trans some
    rw [if_neg (by simp [isOpen]), written]
    rfl

end

/-- What a record written and its tenant replaced leave (R78, R80). -/
theorem recordTaken {s : State} {t base size prod : Nat} {l : List Word} {k : Tenant} (d : Device)
    (hb : s.bound t = true) (hk : k.id = t) (hl : l.length = 8) :
    let u := ((s.writeRecord base size prod l).setTenant k).setDev d
    RecordAt u ((base + 64 * (prod % 2 ^ size)) % 2 ^ 40) l ((prod / 2 ^ size + 1) % 2) ∧
      BytesKept s u ((base + 64 * (prod % 2 ^ size)) % 2 ^ 40) 64 ∧ u.tenant t = k ∧ u.dev = d ∧ TenantsKept s u t ∧ u.cores = s.cores ∧
      u.ctl = s.ctl := by
  intro u
  obtain ⟨m, written⟩ := writeRecord_mem s base size prod l
  have recorded := writeRecord_recordAt s base size prod hl
  have kept := writeRecord_bytesKept s base size prod hl
  refine ⟨recorded, kept, ?_, rfl, fun j hj => ?_, ?_, ?_⟩
  · exact tenant_setTenant_of (u := s.writeRecord base size prod l) hb (by rw [written]; rfl) hk
  · show ((s.writeRecord base size prod l).setTenant k).tenant j = _
    rw [written]
    exact tenantsKept_setTenant (s.setMem m) hk j hj
  · show (s.writeRecord base size prod l).cores = _
    rw [written]
    rfl
  · show (s.writeRecord base size prod l).ctl = _
    rw [written]
    rfl

/-- The count's time over, vector 0 fires (R82). -/
theorem exec_completionInterruptTimer {s : State} {t o : Nat} (on : (s.tenant t).cmodn ≠ 0) (oldest : (s.tenant t).oldestUnsignalled = some o)
    (late : 1000 * (s.tenant t).cmodt ≤ s.elapsed t o) :
    exec (.completionInterruptTimer t) s = .next ((s.setTenant (s.tenant t).signalled).setDev { s.dev with msix := s.dev.msix ++ [⟨t, 0⟩] }) := by
  show execCompletionInterruptTimer t s = _
  have due : (s.tenant t).oldestUnsignalled.any (fun o => decide (1000 * (s.tenant t).cmodt ≤ s.elapsed t o)) = true := by
    rw [oldest, Option.any_some]
    exact decide_eq_true late
  unfold execCompletionInterruptTimer
  dsimp only
  rw [if_pos ⟨on, due⟩]
  rfl

/-! ### Frames of the rings (R75, R114) -/

/-- HOST set for a frame changes the frame table alone (R114, R374). -/
theorem shareFrame_eq (s : State) (m : Nat) (b : Bool) : ∃ f, s.shareFrame m b = s.setMem { s.mem with frames := f } := by
  unfold State.shareFrame
  dsimp only
  split <;> exact ⟨_, rfl⟩

/-- A frame with HOST set. -/
def Frame.shared (f : Frame) : Frame := { f with host := true }

@[simp] theorem shared_owner (f : Frame) : f.shared.owner = f.owner := rfl
@[simp] theorem shared_prot (f : Frame) : f.shared.prot = f.prot := rfl
@[simp] theorem shared_shared (f : Frame) : f.shared.shared = f.shared := rfl

theorem shared_of_host {f : Frame} (h : f.host = true) : f.shared = f := by
  unfold Frame.shared
  rw [← h]

/-- HOST set for a frame that is a tenant's own and has it clear. -/
def State.shareOwn (t : Nat) (s : State) (m : Nat) : State :=
  if (s.frame m).owner = t ∧ !(s.frame m).host then s.shareFrame m true else s

theorem shareOwn_eq (t : Nat) (s : State) (m : Nat) : ∃ f, s.shareOwn t m = s.setMem { s.mem with frames := f } := by
  unfold State.shareOwn
  split
  · exact shareFrame_eq s m true
  · exact ⟨s.mem.frames, rfl⟩

/-- Where the frame is not protected, HOST is set in it alone. -/
theorem frame_shareOwn {t : Nat} {s : State} {m : Nat} (plain : (s.frame m).prot = false) (n : Nat) :
    (s.shareOwn t m).frame n = if (s.frame n).owner = t ∧ n = m then (s.frame n).shared else s.frame n := by
  have alone : s.shareFrame m true = s.setFrame m (s.frame m).shared := by
    unfold State.shareFrame
    exact if_neg (by simp [plain])
  unfold State.shareOwn
  rw [alone]
  by_cases hn : n = m
  · subst hn
    split
    case isTrue h => simp [h, State.frame_setFrame]
    case isFalse h =>
      split
      case isTrue own => exact (shared_of_host (by simpa [own.1] using h)).symm
      case isFalse => rfl
  · split <;> simp [hn, State.frame_setFrame]

/-- HOST set for a list of frames, one after another. -/
theorem shareOwns_eq (t : Nat) : ∀ (l : List Nat) (s : State), ∃ f, l.foldl (State.shareOwn t) s = s.setMem { s.mem with frames := f }
  | [], s => ⟨s.mem.frames, rfl⟩
  | m :: l, s => by
    obtain ⟨f, hf⟩ := shareOwn_eq t s m
    obtain ⟨g, hg⟩ := shareOwns_eq t l (s.setMem { s.mem with frames := f })
    exact ⟨g, by rw [List.foldl_cons, hf, hg]; rfl⟩

theorem frame_shareOwns (t : Nat) : ∀ (l : List Nat) {s : State}, (∀ m, (s.frame m).prot = false) → ∀ n,
    (l.foldl (State.shareOwn t) s).frame n = if (s.frame n).owner = t ∧ n ∈ l then (s.frame n).shared else s.frame n
  | [], s, _, n => by simp
  | m :: l, s, plain, n => by
    have one := frame_shareOwn (t := t) (plain m)
    have still : ∀ k, ((s.shareOwn t m).frame k).prot = false := fun k => by
      rw [one k]
      split
      · exact (shared_prot _).trans (plain k)
      · exact plain k
    rw [List.foldl_cons, frame_shareOwns t l still n, one n]
    by_cases hm : n = m
    · subst hm
      by_cases own : (s.frame n).owner = t <;> simp [own]
    · simp [hm]

/-- The frames of the rings as they stand are shared one after another (R114). -/
theorem shareRings_eq (s : State) (t : Nat) : s.shareRings t =
    (ringFrames (s.tenant t).crbase (s.tenant t).crsize ++ ringFrames (s.tenant t).evbase (s.tenant t).evsize).foldl (State.shareOwn t) s := rfl

/-! ### Registers of a virtual function (R3, R75) -/

theorem write_id (k : Tenant) (r : VfReg) (v : Word) : (k.write r v).id = k.id := by
  cases r with
  | nonce i => unfold Tenant.write; dsimp only; split <;> rfl
  | _ => rfl

theorem page_id (s : State) (t : Nat) : (s.page t).id = t := by
  unfold State.page
  split
  case isTrue hb => exact tenant_id hb
  case isFalse =>
    cases h : s.tasks.vfs.find? (fun k => k.id == t) with
    | none => rfl
    | some k => simpa using List.find?_some h

theorem page_of_bound {s : State} {t : Nat} (h : s.bound t = true) : s.page t = s.tenant t := if_pos h

theorem setPage_of_bound {s : State} {k : Tenant} (h : s.bound k.id = true) : s.setPage k = s.setTenant k := if_pos h

/-- The page of a function without a tenant is kept apart. -/
theorem setPage_of_unbound {s : State} {k : Tenant} (hb : s.bound k.id = false) (h0 : 0 < k.id) (h64 : k.id < 64) :
    s.setPage k = s.setTasks { s.tasks with vfs := s.tasks.vfs.filter (fun x => x.id != k.id) ++ [k] } := by
  unfold State.setPage
  rw [if_neg (by simp [hb]), if_neg (by omega)]

theorem page_setPage_of_unbound {s : State} {k : Tenant} (hb : s.bound k.id = false) (h0 : 0 < k.id) (h64 : k.id < 64) :
    (s.setPage k).page k.id = k := by
  have gone : (s.tasks.vfs.filter (fun x => x.id != k.id)).find? (fun x => x.id == k.id) = none :=
    List.find?_eq_none.mpr (fun x hx => by simpa using (List.mem_filter.mp hx).2)
  have unbound : (s.setPage k).bound k.id = false := by
    rw [setPage_of_unbound hb h0 h64]
    exact hb
  unfold State.page
  rw [if_neg (by simp [unbound]), setPage_of_unbound hb h0 h64]
  show ((s.tasks.vfs.filter (fun x => x.id != k.id) ++ [k]).find? (fun x => x.id == k.id)).getD _ = k
  rw [List.find?_append, gone]
  simp

/-- A page kept apart changes the pages of functions without a tenant alone, and reads as it was set. -/
theorem setPage_unbound {s : State} {k : Tenant} {t : Nat} (hk : k.id = t) (hb : s.bound t = false) (h0 : 0 < t) (h64 : t < 64) :
    (s.setPage k).page t = k ∧ s.setPage k = { s with tasks := { s.tasks with vfs := (s.setPage k).tasks.vfs } } := by
  subst hk
  refine ⟨page_setPage_of_unbound hb h0 h64, ?_⟩
  rw [setPage_of_unbound hb h0 h64]
  rfl

/-- The registers that place the two rings. -/
def ringRegs : List VfReg := [.crbase, .crsize, .evbase, .evsize]

/-- A register that places a ring is written, and Bishop shares the frames of a tenant's rings (R114). -/
theorem exec_vfRegisterWrite_ring {s : State} {t : Nat} {r : VfReg} {v : Word} (h : r ∈ ringRegs) :
    exec (.vfRegisterWrite t r v) s = .next (
      if s.bound t then (s.setPage ((s.page t).write r v)).shareRings t else s.setPage ((s.page t).write r v)) := by
  simp only [ringRegs, List.mem_cons, List.not_mem_nil, or_false] at h
  rcases h with rfl | rfl | rfl | rfl <;> rfl

/-- Any other register but the claim mask, GO and CMODN is written and nothing else happens. -/
theorem exec_vfRegisterWrite_plain {s : State} {t : Nat} {r : VfReg} {v : Word} (h : r ∉ [VfReg.pfClaim, .go, .cmodn]) (hr : r ∉ ringRegs) :
    exec (.vfRegisterWrite t r v) s = .next (s.setPage ((s.page t).write r v)) := by
  cases r <;> simp [ringRegs] at h hr <;> rfl

/-- A 1 written to GO starts a challenge (R379). -/
theorem exec_vfRegisterWrite_go {s : State} {t : Nat} {v : Word} (hb : s.bound t = true) (h : v.getLsbD 0 = true) :
    exec (.vfRegisterWrite t .go v) s = exec (.challengeStart t) s := by
  show execVfRegisterWrite t .go v s = execChallengeStart t s
  unfold execVfRegisterWrite execChallengeStart
  dsimp only
  rw [if_pos h, if_neg (by simp [hb])]

/-- A 0 written to GO clears it. -/
theorem exec_vfRegisterWrite_goClear {s : State} {t : Nat} {v : Word} (hb : s.bound t = true) (h : v.getLsbD 0 = false) :
    exec (.vfRegisterWrite t .go v) s = .next (s.setTenant { s.tenant t with goBit := false }) := by
  show execVfRegisterWrite t .go v s = _
  unfold execVfRegisterWrite
  dsimp only
  rw [if_neg (ne_true_of_eq_false h), page_of_bound hb, setPage_of_bound (by rw [tenant_id hb]; exact hb)]

/-- The fields of a page that the host writes as they are. -/
def plainFields : List (VfReg × (Tenant → Nat) × Nat) :=
  [(.cmodt, Tenant.cmodt, 15), (.cmodn, Tenant.cmodn, 15), (.evcons, Tenant.evcons, 31), (.evbase, Tenant.evbase, 63),
    (.evsize, Tenant.evsize, 7), (.crsize, Tenant.crsize, 7), (.crcons, Tenant.crcons, 31), (.crbase, Tenant.crbase, 63)]

/-- A word of the nonce written changes the nonce alone. -/
theorem write_nonce (k : Tenant) (i : Nat) (v : Word) : ∃ c, k.write (.nonce i) v = { k with chNonce := c } := by
  unfold Tenant.write
  dsimp only
  split
  · exact ⟨_, rfl⟩
  · exact ⟨k.chNonce, rfl⟩

/-- Each such field takes the value written to it, and no other register's (R3). -/
theorem write_plainField (k : Tenant) (r : VfReg) (v : Word) {p : VfReg × (Tenant → Nat) × Nat} (hp : p ∈ plainFields) :
    p.2.1 (k.write r v) = if r = p.1 then bits v.toNat p.2.2 0 else p.2.1 k := by
  simp only [plainFields, List.mem_cons, List.not_mem_nil, or_false] at hp
  cases r with
  | nonce i =>
    obtain ⟨c, h⟩ := write_nonce k i v
    rw [h]
    rcases hp with rfl | rfl | rfl | rfl | rfl | rfl | rfl | rfl <;> rfl
  | _ => rcases hp with rfl | rfl | rfl | rfl | rfl | rfl | rfl | rfl <;> rfl

/-- EVLOST is cleared by a 1 written to it (R3). -/
theorem write_evlost (k : Tenant) (r : VfReg) (v : Word) : (k.write r v).evlost = if r = .evlost then k.evlost && !v.getLsbD 0 else k.evlost := by
  cases r with
  | nonce i =>
    obtain ⟨c, h⟩ := write_nonce k i v
    rw [h]
    rfl
  | _ => rfl

/-- A register that the host may only read keeps its value (R3). -/
theorem write_readOnly (k : Tenant) {r : VfReg} (v : Word)
    (h : r ∈ [VfReg.reslim, .svcth, .svchold, .qdepth, .nextsub, .evprod, .crprod, .cwbase, .status]) : k.write r v = k := by
  simp only [List.mem_cons, List.not_mem_nil, or_false] at h
  rcases h with rfl | rfl | rfl | rfl | rfl | rfl | rfl | rfl | rfl <;> rfl

/-- What a register written leaves of the tenants, where the tenant's page was replaced (R3, R75). -/
theorem registerWritten {s u : State} {t : Nat} {r : VfReg} {v : Word} (hb : s.bound t = true)
    (hu : u.tasks.tenants = (s.setTenant ((s.tenant t).write r v)).tasks.tenants) :
    TenantsKept s u t ∧ u.tenant t = (s.tenant t).write r v ∧
      (∀ p ∈ plainFields, p.2.1 (u.tenant t) = if r = p.1 then bits v.toNat p.2.2 0 else p.2.1 (s.tenant t)) ∧
      ((u.tenant t).evlost = if r = .evlost then (s.tenant t).evlost && !v.getLsbD 0 else (s.tenant t).evlost) ∧
      (r ∈ [VfReg.reslim, .svcth, .svchold, .qdepth, .nextsub, .evprod, .crprod, .cwbase, .status] → u.tenant t = s.tenant t) := by
  have id : ((s.tenant t).write r v).id = t := (write_id _ r v).trans (tenant_id hb)
  have same : ∀ j, u.tenant j = (s.setTenant ((s.tenant t).write r v)).tenant j := fun j => by rw [State.tenant, State.tenant, hu]
  have here : u.tenant t = (s.tenant t).write r v := (same t).trans (tenant_setTenant_of (u := s) hb rfl id)
  refine ⟨fun j hj => (same j).trans (tenantsKept_setTenant s id j hj), here, fun p hp => ?_, ?_, fun ro => ?_⟩
  · rw [here]
    exact write_plainField _ r v hp
  · rw [here]
    exact write_evlost _ r v
  · rw [here]
    exact write_readOnly _ v ro

/-- A CMODN written at or below the count reached lets vector 0 fire (R82). -/
theorem countDue_setTenant {s : State} {k : Tenant} {t : Nat} (hb : s.bound t = true) (hk : k.id = t) :
    let due := k.cmodn ≠ 0 ∧ k.oldestUnsignalled.isSome = true ∧ k.cmodn ≤ k.unsignalled
    (s.setTenant k).countDue t = (s.setTenant (if due then k.signalled else k)).setDev
      { s.dev with msix := if due then s.dev.msix ++ [⟨t, 0⟩] else s.dev.msix } := by
  have bound : (s.setTenant k).bound t = true := (bound_setTenant s k t).trans hb
  unfold State.countDue
  dsimp only
  rw [tenant_setTenant_of hb rfl hk, bound]
  split
  case isTrue due =>
    rw [if_pos due.2, if_pos due.2]
    exact signal0_setTenant hb rfl hk
  case isFalse due =>
    rw [if_neg (fun d => due ⟨rfl, d⟩), if_neg (fun d => due ⟨rfl, d⟩)]
    rfl

/-! ### Reset of a function (R5, R75, R388) -/

/-- Launches that wait for no key any more: key slots and the queue for them change, and nothing else. -/
theorem dropKeyWaits_eq : ∀ (l : List Nat) (s : State),
    ∃ k q, l.foldl State.dropKeyWait s = s.setTasks { s.tasks with keySlots := k, keyQueue := q }
  | [], s => ⟨s.tasks.keySlots, s.tasks.keyQueue, rfl⟩
  | u :: l, s => by
    obtain ⟨k, q, h⟩ := dropKeyWaits_eq l (s.dropKeyWait u)
    exact ⟨k, q, h⟩

/-- Words of zero stored at the addresses of a list, one after another. -/
theorem zeroWords_eq {β : Type} (f : β → Nat) : ∀ (l : List β) (s : State),
    ∃ m, l.foldl (fun u b => u.deviceStore (f b) (bytesOf 8 0)) s = s.setMem m ∧
      (∀ a, (∃ b ∈ l, f b ≤ a ∧ a < f b + 8) → cellGet 0 m.bytes a = 0) ∧
      ∀ a, (∀ b ∈ l, a < f b ∨ f b + 8 ≤ a) → cellGet 0 m.bytes a = s.byte a
  | [], s => ⟨s.mem, rfl, by simp, fun _ _ => rfl⟩
  | b :: l, s => by
    obtain ⟨m, hm⟩ := deviceStore_mem s (f b) (bytesOf 8 0) none
    obtain ⟨m', hm', zero, kept⟩ := zeroWords_eq f l (s.setMem m)
    have first : ∀ a, cellGet 0 m.bytes a = if f b ≤ a ∧ a < f b + 8 then 0 else s.byte a := fun a => by
      have := byte_deviceStore s (f b) (bytesOf 8 0) none a
      rw [hm, bytesOf_length] at this
      refine this.trans (if_congr Iff.rfl ?_ rfl)
      rw [show bytesOf 8 0 = List.replicate 8 0 from rfl, List.getD_eq_getElem?_getD, List.getElem?_replicate]
      split <;> rfl
    refine ⟨m', by rw [List.foldl_cons, hm, hm']; rfl, fun a ha => ?_, fun a ha => ?_⟩
    · by_cases later : ∃ c ∈ l, f c ≤ a ∧ a < f c + 8
      · exact zero a later
      · have out : ∀ c ∈ l, a < f c ∨ f c + 8 ≤ a := fun c hc => by
          by_contra h
          exact later ⟨c, hc, by omega⟩
        obtain ⟨c, hc, inside⟩ := ha
        rcases List.mem_cons.mp hc with rfl | hc
        · exact (kept a out).trans ((first a).trans (if_pos inside))
        · exact absurd ⟨c, hc, inside⟩ later
    · refine (kept a (fun c hc => ha c (List.mem_cons_of_mem _ hc))).trans ((first a).trans (if_neg ?_))
      have := ha b (List.mem_cons_self ..)
      omega

/-- The slots of a tenant's batches have VALID at 0, and its batches are gone (R5). -/
theorem resetSlots_eq (s : State) (t : Nat) :
    ∃ m, s.resetSlots t = { s with mem := m, tasks := { s.tasks with batches := s.tasks.batches.filter (fun b => b.tenant != t) } } ∧
      (∀ b ∈ s.tasks.batches, b.tenant = t → (s.resetSlots t).readWord (slotAddr (s.tenant t) b.cls b.slot + 56) = 0) ∧
      ∀ a, (∀ b ∈ s.tasks.batches, b.tenant = t →
        a < slotAddr (s.tenant t) b.cls b.slot + 56 ∨ slotAddr (s.tenant t) b.cls b.slot + 56 + 8 ≤ a) →
        (s.resetSlots t).byte a = s.byte a := by
  obtain ⟨m, hm, zero, kept⟩ := zeroWords_eq (fun b : Batch => slotAddr (s.tenant t) b.cls b.slot + 56)
    (s.tasks.batches.filter (fun b => b.tenant == t)) s
  have reset : s.resetSlots t = { s with mem := m, tasks := { s.tasks with batches := s.tasks.batches.filter (fun b => b.tenant != t) } } := by
    unfold State.resetSlots
    dsimp only
    rw [hm]
    rfl
  rw [reset]
  refine ⟨m, rfl, fun b hb own => ?_, fun a out => ?_⟩
  · refine readWord_of_bytes (v := 0) (fun k hk => ?_)
    rw [show bytesOf 8 0 = List.replicate 8 0 from rfl, List.getD_replicate (x := (0 : Byte)) (y := 0) hk]
    exact zero _ ⟨b, List.mem_filter.mpr ⟨hb, by simpa using own⟩, by omega, by omega⟩
  · refine kept a (fun b hb => ?_)
    obtain ⟨hb, own⟩ := List.mem_filter.mp hb
    exact out b hb (by simpa using own)

/-- What a function-level reset leaves of its tenant (R5, R75, R388): the page at its Reset values, the slots and launches reset. -/
theorem exec_functionLevelReset {s : State} {t : Nat} (hb : s.bound t = true) :
    ∃ (u : State) (m : MemSys) (k : Cells KeySlot) (q : List Nat), exec (.functionLevelReset t) s = .next u ∧
      u = { s with
        mem := m
        tasks := { (s.setTenant (s.tenant t).flr).tasks with
          keySlots := k, keyQueue := q, batches := s.tasks.batches.filter (fun b => b.tenant != t)
          launches := (s.tasks.launches.filter (fun l => !(l.tenant == t && l.phase == .retired))).map (fun l =>
            if l.tenant = t then l.flr else l) } } ∧
      (∀ b ∈ s.tasks.batches, b.tenant = t → u.readWord (slotAddr (s.tenant t) b.cls b.slot + 56) = 0) ∧
      ∀ a, (∀ b ∈ s.tasks.batches, b.tenant = t →
        a < slotAddr (s.tenant t) b.cls b.slot + 56 ∨ slotAddr (s.tenant t) b.cls b.slot + 56 + 8 ≤ a) → u.byte a = s.byte a := by
  let live := (s.tasks.launches.filter (fun l => l.tenant == t && l.phase != .retired)).map Launch.uid
  obtain ⟨k, q, dropped⟩ := dropKeyWaits_eq live (s.setTenant (s.tenant t).flr)
  let s1 := (s.setTenant (s.tenant t).flr).setTasks { (s.setTenant (s.tenant t).flr).tasks with keySlots := k, keyQueue := q }
  obtain ⟨m, reset, zero, kept⟩ := resetSlots_eq s1 t
  have page : s1.tenant t = (s.tenant t).flr := tenant_setTenant_of hb rfl (tenant_id hb)
  rw [page, reset] at zero kept
  refine ⟨_, m, k, q, ?_, rfl, zero, kept⟩
  show execFunctionLevelReset t s = _
  unfold execFunctionLevelReset
  rw [if_neg (by simp [hb])]
  dsimp only
  rw [dropped, reset]
  rfl

/-- Settles O54, by the state in which each event ends and what that state keeps of tenants, memory and the device's registers. -/
theorem retirementEvents : Obligations.RetirementEvents := by
  unfold Obligations.RetirementEvents
  refine ⟨?_, ?_, ?_, ?_, ?_, ?_, ?_, ?_, ?_, ?_, ?_⟩
  · intro s uid killed e ending ends named quiet bare free hb l
    obtain ⟨m, g, q, ls, k, kq, left, retired, kept⟩ := retire_eq ending e
    obtain ⟨ls', k', kq', settled⟩ := launchesOnly_settleEligible (s.retire uid e)
    have same := settleEligible_launch (s := s.retire uid e) (u := uid) (by rw [retired]; decide)
    have recorded : (s.retire uid e).settleEligible.tenant l.tenant = s.recorded (s.noted uid) e := by
      rw [settled, left]
      exact tenant_setTenant_of (u := s) hb rfl (tenant_id hb)
    refine ⟨_, exec_launchRetire ending ends named quiet bare free, by rw [same, retired], ?_, ?_, ?_, ?_, ?_, ?_, fun j hj => ?_, fun a ha => ?_⟩
    · rw [settled, left]; rfl
    · rw [settled, left]; rfl
    · rw [recorded]; rfl
    · rw [settled, left]
    · rw [settled, left]
    · rw [settled, left]
    · rw [settled, left]
      exact tenantsKept_setTenant s (k := s.recorded (s.noted uid) e) (tenant_id hb) j hj
    · rw [settled, left]
      exact kept a ha
  · intro s uid there going
    exact exec_launchRetire_kills there going
  · intro s t r rest waits hl k ma due
    have hb := bound_of_records waits
    by_cases isOpen : ringOpen k.crsize k.crprod k.crcons = true
    · obtain ⟨recorded, bytes, tenant, dev, kept⟩ := recordTaken (s := s) (base := k.crbase) (size := k.crsize) (prod := k.crprod)
        (k := k.completed rest (s.time t)) { s.dev with msix := if due then s.dev.msix ++ [⟨t, 0⟩] else s.dev.msix } hb
        ((completed_id k rest _).trans (tenant_id hb)) hl
      refine ⟨_, exec_completionRecordWrite_open waits isOpen, ?_⟩
      rw [if_pos isOpen]
      exact ⟨recorded, bytes, tenant.trans (completed_eq k rest (s.time t)), dev, kept⟩
    · refine ⟨_, exec_completionRecordWrite_full waits (by simpa using isOpen), ?_⟩
      rw [if_neg isOpen]
  · intro s t r rest waits hl k ma
    have hb := bound_of_events waits
    by_cases isOpen : ringOpen k.evsize k.evprod k.evcons = true
    · refine ⟨_, exec_eventRecordWrite_open waits isOpen, ?_⟩
      rw [if_pos isOpen]
      exact recordTaken _ hb (tenant_id hb) hl
    · refine ⟨_, exec_eventRecordWrite_full waits (by simpa using isOpen), ?_⟩
      rw [if_neg isOpen]
  · intro s t o on oldest late
    have hb : s.bound t = true := bound_of_ne (fun h => by rw [h] at oldest; cases oldest)
    exact ⟨_, exec_completionInterruptTimer on oldest late, tenant_setTenant_of (u := s) hb rfl (tenant_id hb),
      fun j hj => tenantsKept_setTenant s (k := (s.tenant t).signalled) (tenant_id hb) j hj, rfl⟩
  · exact fun s t v => ⟨_, rfl, rfl⟩
  · intro s t r v hb plain
    have id : ((s.tenant t).write r v).id = t := (write_id _ r v).trans (tenant_id hb)
    let w := s.setTenant ((s.tenant t).write r v)
    have replaced : s.setPage ((s.page t).write r v) = w := by
      rw [page_of_bound hb, setPage_of_bound (by rw [id]; exact hb)]
    by_cases ring : r ∈ ringRegs
    · have runs := exec_vfRegisterWrite_ring (s := s) (t := t) (v := v) ring
      rw [if_pos hb, replaced, shareRings_eq] at runs
      obtain ⟨f, shared⟩ := shareOwns_eq t
        (ringFrames (w.tenant t).crbase (w.tenant t).crsize ++ ringFrames (w.tenant t).evbase (w.tenant t).evsize) w
      rw [shared] at runs
      exact ⟨_, runs, rfl, fun other => absurd ring other,
        fun _ unprotected m => (congrArg (fun u => State.frame u m) shared).symm.trans (frame_shareOwns (s := w) t _ unprotected m),
        registerWritten hb rfl⟩
    · have runs := exec_vfRegisterWrite_plain (s := s) (t := t) (v := v) plain ring
      rw [replaced] at runs
      exact ⟨_, runs, rfl, fun _ => rfl, fun other => absurd other ring, registerWritten hb rfl⟩
  · intro s t v hb k due
    have id : k.id = t := tenant_id hb
    have replaced : s.setPage ((s.page t).write .cmodn v) = s.setTenant k := by
      rw [page_of_bound hb, setPage_of_bound (by rw [write_id, tenant_id hb]; exact hb)]
      rfl
    have id' : (if due then k.signalled else k).id = t := by split <;> exact id
    refine ⟨⟨_, congrArg Host.Outcome.next ((congrArg (fun u => State.countDue u t) replaced).trans (countDue_setTenant hb id)),
      fun j hj => tenantsKept_setTenant s id' j hj, tenant_setTenant_of (u := s) hb rfl id', rfl⟩, exec_vfRegisterWrite_go hb,
      fun clear => ⟨_, exec_vfRegisterWrite_goClear hb clear, rfl⟩⟩
  · intro s t r v hb h0 h64 plain
    have written := setPage_unbound (k := (s.page t).write r v) ((write_id _ r v).trans (page_id s t)) hb h0 h64
    by_cases ring : r ∈ ringRegs
    · have runs := exec_vfRegisterWrite_ring (s := s) (t := t) (v := v) ring
      rw [if_neg (by simp [hb])] at runs
      exact ⟨_, runs, written⟩
    · exact ⟨_, exec_vfRegisterWrite_plain plain ring, written⟩
  · intro s t hb
    obtain ⟨u, m, k, q, runs, left, zero, kept⟩ := exec_functionLevelReset hb
    have id : (s.tenant t).flr.id = t := tenant_id hb
    refine ⟨u, runs, by rw [left], by rw [left], by rw [left], ?_, fun j hj => ?_, by rw [left], zero, kept, by rw [left]⟩
    · rw [left]
      exact tenant_setTenant_of (u := s) hb rfl id
    · rw [left]
      exact tenantsKept_setTenant s id j hj
  · intro s t hb h0 h64
    exact ⟨_, congrArg Host.Outcome.next (if_pos (by simp [hb])), setPage_unbound (k := { (s.page t).flr with id := t }) rfl hb h0 h64⟩

end Sys2Proof.Machine

/-! Words over bindings, the reuse table, service replies and launches (spec/05 R88; spec/06 R107; spec/07 R118, R121, R126, R130; spec/21 R347): what
they do beside their registers keeps the waves and the time, so that each is its table's effect and the booking of a word. -/
namespace Sys2Proof.Machine
open Sys2Proof.Safety

/-! ### What keeps the waves and the time -/

/-- The waves of the second state, its control and its time are those of the first. -/
structure WavesKept (s t : State) : Prop where
  waves : t.cores.waves = s.cores.waves
  ctl : t.ctl = s.ctl

theorem WavesKept.refl (s : State) : WavesKept s s := ⟨rfl, rfl⟩

theorem WavesKept.trans {s t u : State} (h : WavesKept s t) (g : WavesKept t u) : WavesKept s u :=
  ⟨g.waves.trans h.waves, g.ctl.trans h.ctl⟩

theorem WavesKept.wave? {s t : State} (h : WavesKept s t) (core slot : Nat) : t.wave? core slot = s.wave? core slot := by
  rw [State.wave?, State.wave?, h.waves]

theorem LaunchesOnly.wavesKept {s t : State} (h : LaunchesOnly s t) : WavesKept s t := by
  obtain ⟨_, _, _, rfl⟩ := h
  exact ⟨rfl, rfl⟩

theorem wavesKept_dropTlb (s : State) (t : Nat) (p : Tlb → Bool) : WavesKept s (s.dropTlb t p) := by
  unfold State.dropTlb
  dsimp only
  split <;> exact ⟨rfl, rfl⟩

theorem wavesKept_loadTlb (s : State) (t : Nat) (e : Tlb) : WavesKept s (s.loadTlb t e) := ⟨rfl, rfl⟩

theorem wavesKept_releaseFrame (s : State) (n : Nat) : WavesKept s (s.releaseFrame n) := by
  obtain ⟨m, h, -⟩ := releaseFrame_eq s n
  rw [h]
  exact ⟨rfl, rfl⟩

/-- A place taken from a tenant leaves the waves: what binds it is in memory, in the generations and with the tenant (R111). -/
theorem wavesKept_releasePlace (s : State) (t : Nat) (k : PlaceKind) (p : Nat) : WavesKept s (s.releasePlace t k p) := by
  have freed : ∀ e : PlaceEntry, WavesKept s (if e.phys < 2 ^ 24 then s.releaseFrame e.phys else s) := fun e => by
    split
    · exact wavesKept_releaseFrame s _
    · exact .refl s
  have then_tenant : ∀ {u : State} (j : Tenant), WavesKept s u → WavesKept s (u.setTenant j) := fun _ h => ⟨h.waves, h.ctl⟩
  unfold State.releasePlace
  cases k with
  | tset => exact then_tenant _ (wavesKept_dropTlb s t _)
  | quota => exact .refl s
  | lane | queue | chan => exact then_tenant _ (.refl s)
  | frame | core | bank =>
    refine then_tenant _ ?_
    split
    exacts [freed _, ⟨rfl, rfl⟩, ⟨rfl, rfl⟩, .refl s]

theorem wavesKept_retireRequest (s : State) (t : Nat) (r : RevReq) : WavesKept s (s.retireRequest t r) := by
  unfold State.retireRequest
  dsimp only
  split <;> exact ⟨rfl, rfl⟩

/-- REVACK leaves the waves, whatever its status (R126). -/
theorem wavesKept_revack (s : State) (t reqid p : Nat) : WavesKept s (revack s t reqid p).1 := by
  unfold revack
  dsimp only
  split
  · exact .refl s
  · rename_i r _
    have yields := wavesKept_releasePlace s t r.kind p
    split
    · split
      · exact .refl s
      · split
        · exact wavesKept_retireRequest s t r
        · exact .refl s
    · split
      · exact .refl s
      · split
        · exact .refl s
        · split
          · exact .refl s
          · split
            · exact .refl s
            · split
              · exact yields.trans (wavesKept_retireRequest _ t _)
              · exact yields.trans ⟨rfl, rfl⟩

theorem wavesKept_answer (s : State) (t cls k ma : Nat) (l : List Byte) (tag : Option WTag) :
    WavesKept s ((s.deviceStore ma l tag).answer t cls k) := by
  have stored : WavesKept s (s.deviceStore ma l tag) := ⟨by rw [deviceStore_cores], deviceStore_ctl s ma l tag⟩
  exact stored.trans ⟨rfl, rfl⟩

/-- A record queued and the launches it makes eligible leave the waves (R69, R84). -/
theorem wavesKept_queueLaunch (s : State) (t : Nat) (rec : List Word) (sub : Nat) (src : Bool) :
    WavesKept s (s.queueLaunch t rec sub src).settleEligible := by
  obtain ⟨l, h⟩ := queueLaunch_eq s t rec sub src
  rw [h]
  exact .trans (t := { s with tasks := { s.tasks with launches := l } }) ⟨rfl, rfl⟩ (launchesOnly_settleEligible _).wavesKept

/-! ### Words that write their wave beside such a change -/

section
variable {c : Ctl} {u : Use} {s s1 : State} {w w1 : Wave} {pc : CodeAddr}

/-- A clear word whose effect keeps the waves but for its own, whose lanes it keeps. -/
theorem word_beside {body : Ex → Out} (h : Clear c u s w pc) (kept : WavesKept s s1)
    (hb : body (clearEx c u s w pc) = .done (s1.setWave w1) {}) (hcore : w1.core = w.core) (hslot : w1.slot = w.slot)
    (hlane : ∀ i, w1.lane i = w.lane i) : ∃ t v, word c u body s = .next t ∧ Over s1 w1 w pc t v :=
  word_effect none false none h hb ((kept.wave? ..).trans (clear_wave h)) hcore hslot (congrArg Control.cycle kept.ctl)
    (fun i _ => by rw [hlane])

/-- A clear word that reads no vector register sees its wave as it stands. -/
theorem clearEx_of_no_vector (h : Clear c u s w pc) (none : u.vr = []) :
    clearEx c u s w pc = seen s w pc (execLanes c u.q w (w.activeAt pc)) := by
  have settled : s.pendOf w (u.guarded c) false = [] := pendOf_sub h.settled (fun _ hp => names_read hp)
  have reads : (u.guarded c).vr = [] := (guarded_fields u c).1.trans none
  have view : s.view w (u.guarded c) = w := by
    rw [view_settled settled (by simp [reads]), State.seeLatch]
    simp [reads]
  rw [clearEx, view]
  rfl

/-- The wave of a word, as its effect finds it in the state. -/
theorem seen_wave (here : s.wave? w.core w.slot = some w) (lanes : List Nat) : (seen s w pc lanes).wave = w := by
  show (s.wave? w.core w.slot).getD w = w
  rw [here]
  rfl

/-- A clear word that reads no vector register, keeps the waves and writes one scalar register of its own. -/
theorem word_put {body : Ex → Out} {d : Nat} {r : Word} (none : u.vr = []) (h : Clear c u s w pc) (kept : WavesKept s s1)
    (hb : body (seen s w pc (execLanes c u.q w (w.activeAt pc))) =
      .done (s1.setWave (((s1.wave? w.core w.slot).getD w).setSreg d r)) {}) :
    ∃ t v, word c u body s = .next t ∧ Over s1 (w.setSreg d r) w pc t v := by
  refine word_beside h kept ?_ rfl rfl (fun _ => rfl)
  rw [clearEx_of_no_vector h none, hb, kept.wave?, clear_wave h]
  rfl

/-- A clear status word whose effect keeps the waves: its status stands in `d` (R140). -/
theorem statusWord_over {d : Nat} {f : Ex → State × Word} {r : Word} (none : u.vr = [])
    (h : Clear c { u with sw := [d], lat := 0, hok := true, q := true } s w pc)
    (hf : f (seen s w pc (execLanes c true w (w.activeAt pc))) = (s1, r)) (kept : WavesKept s s1) :
    ∃ t v, statusWord c u d f s = .next t ∧ Over s1 (w.setSreg d r) w pc t v :=
  word_put none h kept (by rw [hf]; rfl)

end

/-! ### The words (R107, R118, R121, R126, R130) -/

/-- The words of the table have their effect. -/
theorem hasEffect_bindingWord : HasEffect bindingWord := by
  intro i c u f s w pc s1 w1 hi h hf
  unfold bindingWord at hi
  split at hi
  case h_1 c d a b e arr way => -- TBLD
    cases hi
    show ∃ t v, execTbld c d a b e arr way s = .next t ∧ _
    unfold execTbld
    rcases check : tbldCheck s (s.tenant w.tenant) (w.sreg a).toNat (w.sreg b).toNat (w.sreg e).toNat arr way with ⟨n, o⟩
    dsimp only at hf
    rw [check] at hf
    cases o with
    | none =>
      have left : (s, w.setSreg d (BitVec.ofNat 64 n)) = (s1, w1) := by cases n <;> exact Option.some.inj hf
      cases left
      exact statusWord_over rfl h (by simp only [seen, Ex.sc, check]) (.refl s)
    | some t =>
      cases n with
      | zero =>
        cases hf
        exact statusWord_over rfl h (by simp only [seen, Ex.sc, check]; rfl) (wavesKept_loadTlb s _ t)
      | succ n => cases hf
  case h_2 c d a arr all => -- TBINV
    cases hi
    cases hf
    exact statusWord_over (u := { mode := 1, sr := [a] }) rfl h rfl (wavesKept_dropTlb s _ _)
  case h_3 c d a b => -- REVACK
    cases hi
    show ∃ t v, execRevack c d a b s = .next t ∧ _
    dsimp only at hf
    split at hf
    case isTrue wide =>
      cases hf
      exact statusWord_over (u := { mode := 1, sr := [a, b] }) rfl h (if_pos wide) (.refl s)
    case isFalse wide =>
      cases hf
      exact statusWord_over (u := { mode := 1, sr := [a, b] }) rfl h (if_neg wide) (wavesKept_revack s _ _ _)
  case h_4 c d a => -- LOSSACK
    cases hi
    cases hf
    exact statusWord_over (u := { mode := 1, sr := [a] }) rfl h rfl ⟨rfl, rfl⟩
  case h_5 c d a b => -- RTINV
    cases hi
    cases hf
    exact word_put (u := { mode := 1, sr := [a, b], sw := [d], lat := 3, hok := true, q := true }) rfl h ⟨rfl, rfl⟩ rfl
  case h_6 => cases hi

/-! ### SVCREP (R347) -/

/-- The table's word has its effect: its release side is over where it stores the reply. -/
theorem hasEffect_replyWord : HasEffect replyWord := by
  intro i c u f s w pc s1 w1 hi h hf
  unfold replyWord at hi
  split at hi
  case h_1 c d a b =>
    cases hi
    have here := seen_wave (pc := pc) (clear_wave h) (execLanes c true w (w.activeAt pc))
    show ∃ t v, execSvcrep c d a b s = .next t ∧ _
    dsimp only at hf
    split_ifs at hf with bad zero idle released
    all_goals cases hf
    · exact word_put rfl h (.refl s) (by dsimp only; rw [here]; exact if_pos bad)
    · exact word_put rfl h (.refl s) (by dsimp only; rw [here]; exact (if_neg bad).trans (if_pos zero))
    · exact word_put rfl h (.refl s) (by dsimp only; rw [here]; exact (if_neg bad).trans ((if_neg zero).trans (if_pos idle)))
    · have done : releaseSide (seen s w pc (execLanes c true w (w.activeAt pc))).s w 3 = none :=
        Option.not_isSome_iff_eq_none.mp released
      refine word_put rfl h (wavesKept_answer ..) ?_
      dsimp only
      rw [here, done]
      exact (if_neg bad).trans ((if_neg zero).trans (if_neg idle))
  case h_2 => cases hi

/-! ### LAUNCH (R88) -/

/-- One lane of LAUNCH whose record is read: it is queued, or the queue is full. -/
theorem launchLane_read {x : Ex} {w : Wave} {d a i : Nat} {rec : List Word} (here : x.wave = w)
    (read : x.s.readWords w (x.v a i) 64 = .ok rec) :
    launchLane x d a (x.s, []) i = (if 4096 ≤ x.s.qdepth w.tenant then x.s.setWave (w.setVreg d i 1)
      else (x.s.queueLaunch w.tenant rec 0 true).settleEligible.setWave (w.setVreg d i 0), []) := by
  subst here
  unfold launchLane Ex.wave at *
  dsimp only
  rw [read]
  exact (apply_ite (fun t : State => (t, [])) _ _ _).symm

/-- What LAUNCH names. -/
abbrev launchUse (d a : Nat) : Use := { vr := [a], vw := [d], lat := 0, impure := true }

/-- LAUNCH in one lane whose record is read, with its release side over: `left` says whether the queue took the record. -/
theorem launch_over {c : Ctl} {s s1 : State} {w : Wave} {pc : CodeAddr} {d a i : Nat} {r : Word} {rec : List Word}
    (h : Clear c (launchUse d a) s w pc) (one : execLanes c false w (w.activeAt pc) = [i]) (released : ¬(releaseSide s w 3).isSome = true)
    (read : s.readWords w (w.vreg a i) 64 = .ok rec) (kept : WavesKept s s1)
    (left : (if 4096 ≤ s.qdepth w.tenant then s.setWave (w.setVreg d i 1)
      else (s.queueLaunch w.tenant rec 0 true).settleEligible.setWave (w.setVreg d i 0)) = s1.setWave (w.setVreg d i r)) :
    ∃ t v, execLaunch c d a s = .next t ∧ Over s1 (w.setVreg d i r) w pc t v := by
  have low : i < 32 := execLanes_lt i (one ▸ List.mem_singleton_self i)
  have done : releaseSide (clearEx c (launchUse d a) s w pc).s w 3 = none := Option.not_isSome_iff_eq_none.mp released
  have lanes : (clearEx c (launchUse d a) s w pc).lanes = [i] := one
  have lane := (launchLane_read (d := d) (clearEx_wave h) (by rw [clearEx_v h low]; exact read)).trans (congrArg (·, []) left)
  refine word_beside h kept ?_ rfl rfl (fun _ => rfl)
  dsimp only
  rw [clearEx_wave h, done, lanes]
  dsimp only [List.foldl_cons, List.foldl_nil]
  rw [lane]

/-- The table's word has its effect. -/
theorem hasEffect_launchWord : HasEffect launchWord := by
  intro i c u f s w pc s1 w1 hi h hf
  unfold launchWord at hi
  split at hi
  case h_1 c d a =>
    cases hi
    dsimp only at hf
    split at hf
    case h_1 i one =>
      split at hf
      case isTrue => cases hf
      case isFalse released =>
        split at hf
        case h_1 rec read =>
          split at hf <;> cases hf
          case isTrue full => exact launch_over h one released read (.refl s) (if_pos full)
          case isFalse full => exact launch_over h one released read (wavesKept_queueLaunch ..) (if_neg full)
        case h_2 => cases hf
    case h_2 => cases hf
  case h_2 => cases hi

/-- Settles O37: each table's words run as their effect says, which keeps the waves beside their own. -/
theorem bindingAndServiceWords : Obligations.BindingAndServiceWords := by
  unfold Obligations.BindingAndServiceWords
  exact ⟨hasEffect_bindingWord, hasEffect_replyWord, hasEffect_launchWord⟩

end Sys2Proof.Machine

/-! Pure launches and the reuse table (spec/06 R92 to R100): what a record event, a region streamed and a hit's copy change, how a lookup ends in a
miss or a hit, and what the wrap of the write clocks leaves. -/
namespace Sys2Proof.Machine
open Sys2Proof.Safety

/-! ### Write clocks (R94) -/

/-- Meeting a request changes the quota and the requests alone (R125). -/
theorem settleQuota_eq (k : Tenant) (held : Nat) : ∃ q r, k.settleQuota held = { k with quota := q, requests := r } := by
  unfold Tenant.settleQuota
  split
  · exact ⟨_, _, rfl⟩
  · exact ⟨k.quota, k.requests, rfl⟩

theorem settleQuota_of_none {k : Tenant} (h : ∀ r ∈ k.requests, r.kind ≠ .quota) (held : Nat) : k.settleQuota held = k := by
  have nobody : k.requests.filter (fun r => r.metBy held) = [] :=
    List.filter_eq_nil_iff.mpr (fun r hr => by simp [RevReq.metBy, h r hr])
  unfold Tenant.settleQuota
  rw [nobody]
  rfl

/-- What a function leaves of every tenant is so of the tenant of each id. -/
theorem tenant_of_map {α : Type} {s u : State} {g : Tenant → Tenant} (p : Tenant → α) (hu : u.tasks.tenants = s.tasks.tenants.map g)
    (id : ∀ k, (g k).id = k.id) (hp : ∀ k, p (g k) = p k) (t : Nat) : p (u.tenant t) = p (s.tenant t) := by
  have found : (s.tasks.tenants.map g).find? (fun k => k.id == t) = (s.tasks.tenants.find? (fun k => k.id == t)).map g := by
    rw [List.find?_map]
    simp [id]
  unfold State.tenant
  rw [hu, found]
  cases s.tasks.tenants.find? (fun k => k.id == t) with
  | none => rfl
  | some k => exact hp k

/-- The tenants of a wrap: a harvest begins anew, and a request may be met. -/
def Tenant.wrapped (k : Tenant) : Tenant := Tenant.settleQuota { k with harvest := none } 0

theorem wrapped_eq (k : Tenant) : ∃ q r, k.wrapped = { k with harvest := none, quota := q, requests := r } := settleQuota_eq _ 0

theorem wrapped_epoch (k : Tenant) : k.wrapped.epoch = k.epoch := by
  obtain ⟨q, r, h⟩ := wrapped_eq k
  rw [h]

theorem wrapped_salt (k : Tenant) : k.wrapped.salt = k.salt := by
  obtain ⟨q, r, h⟩ := wrapped_eq k
  rw [h]

theorem wrapped_of_none {k : Tenant} (h : ∀ r ∈ k.requests, r.kind ≠ .quota) : k.wrapped = { k with harvest := none } :=
  settleQuota_of_none (k := { k with harvest := none }) h 0

theorem wrapClocks_eq (s : State) : s.wrapClocks = { s with
    mem := { s.mem with wclock := List.replicate 8 1, frames := s.wrapClocks.mem.frames }
    tasks := { s.tasks with reuse := [], digests := [], tenants := s.tasks.tenants.map Tenant.wrapped } } := by
  have tenants : s.wrapClocks.tasks.tenants = s.tasks.tenants.map Tenant.wrapped := List.map_map
  rw [← tenants]
  rfl

/-- The frames after a wrap: each stamp is 0. -/
theorem frame_wrapClocks {s : State} (wf : cellWf Frame.free s.mem.frames = true) (m : Nat) :
    s.wrapClocks.frame m = { s.frame m with stamp := 0 } :=
  cellGet_change (fun p : Nat × Frame => { p.2 with stamp := 0 }) wf rfl

/-- A record event sets the clocks, and changes frames, tenants and both tables at most. -/
theorem recordEvent_eq (s : State) : ∃ f d r k, s.recordEvent.1 = { s with
    mem := { s.mem with wclock := s.recordEvent.2, frames := f }
    tasks := { s.tasks with digests := d, reuse := r, tenants := k } } := by
  unfold State.recordEvent
  dsimp only
  split
  · exact ⟨_, _, _, _, by rw [wrapClocks_eq]; rfl⟩
  · exact ⟨_, _, _, _, rfl⟩

/-- What a wrap leaves of every tenant, a record event leaves of each. -/
theorem recordEvent_tenant {α : Type} (s : State) (p : Tenant → α) (hp : ∀ k, p k.wrapped = p k) (t : Nat) :
    p (s.recordEvent.1.tenant t) = p (s.tenant t) := by
  unfold State.recordEvent
  dsimp only
  split
  · refine tenant_of_map (g := Tenant.wrapped) p ?_ (fun k => ?_) hp t
    · rw [wrapClocks_eq]; rfl
    · obtain ⟨q, r, h⟩ := wrapped_eq k
      rw [h]
  · rfl

theorem recordEvent_kept (s : State) : s.recordEvent.1.mem.wclock = s.recordEvent.2 ∧ s.recordEvent.1.mem.bytes = s.mem.bytes ∧
    s.recordEvent.1.cores = s.cores ∧ s.recordEvent.1.ctl = s.ctl := by
  obtain ⟨_, _, _, _, h⟩ := recordEvent_eq s
  exact ⟨by rw [h], by rw [h], by rw [h], by rw [h]⟩

/-- A record event keeps the launches. -/
theorem known_recordEvent {s : State} {uid : Nat} (known : Known s uid) :
    Known s.recordEvent.1 uid ∧ s.recordEvent.1.launch uid = s.launch uid := by
  obtain ⟨_, _, _, _, h⟩ := recordEvent_eq s
  rw [h]
  exact ⟨known, rfl⟩

/-! ### What an engine of the device reads and writes (R96, R99) -/

/-- A state that differs in the shared cache alone. -/
def CacheOnly (s t : State) : Prop := ∃ l k, t = { s with mem := { s.mem with l2 := l, l2tick := k } }

theorem CacheOnly.kept {s t : State} (h : CacheOnly s t) :
    t.tasks = s.tasks ∧ t.cores = s.cores ∧ t.ctl = s.ctl ∧ t.mem.wclock = s.mem.wclock ∧ t.mem.bytes = s.mem.bytes := by
  obtain ⟨_, _, rfl⟩ := h
  exact ⟨rfl, rfl, rfl, rfl, rfl⟩

theorem cacheOnly_l2Access (s : State) (ma e : Nat) (b : Bool) (k : Option Nat) : CacheOnly s (s.l2Access ma e b k) := by
  obtain ⟨l, h⟩ := s.l2Access_eq ma e b k
  exact ⟨l, _, h⟩

theorem CacheOnly.trans {s t u : State} (h : CacheOnly s t) (g : CacheOnly t u) : CacheOnly s u := by
  obtain ⟨_, _, rfl⟩ := h
  obtain ⟨l, k, rfl⟩ := g
  exact ⟨l, k, rfl⟩

/-- An access that writes nothing. -/
theorem homeDo_cacheOnly {s u : State} {core t e ma n : Nat} {slot : Option Nat} {tags : List (Nat × Nat × Option WTag)} {l : List Byte}
    (h : s.homeDo core t slot e ma n tags (fun _ => none) = .done u l) : CacheOnly s u := by
  unfold State.homeDo at h
  dsimp only at h
  split_ifs at h
  cases h
  exact cacheOnly_l2Access ..

theorem engineRead_cacheOnly {s u : State} {t va : Nat} {slot : Option Nat} {l : List Byte} (h : s.engineRead t slot va = some (u, l)) :
    CacheOnly s u := by
  unfold State.engineRead at h
  split at h
  case h_1 => cases h
  case h_2 =>
    split at h
    case isTrue => cases h
    case isFalse =>
      split at h
      case h_1 =>
        split at h
        case h_1 read =>
          cases h
          exact homeDo_cacheOnly read
        case h_2 => cases h
      case h_2 => cases h

/-- A region streamed changes the shared cache alone. -/
theorem streamRegion_cacheOnly {t : Nat} {slot : Option Nat} : ∀ (n va : Nat) {s u : State} {acc b : List Byte},
    streamRegion t slot n va s acc = some (u, b) → CacheOnly s u
  | 0, _, s, u, acc, b, h => by
    cases h
    exact ⟨s.mem.l2, s.mem.l2tick, rfl⟩
  | n + 1, va, s, u, acc, b, h => by
    unfold streamRegion at h
    split at h
    · cases h
    · rename_i one
      exact (engineRead_cacheOnly one).trans (streamRegion_cacheOnly n (va + 32) h)

/-- A page that the device finds for a tenant in main memory is the tenant's. -/
theorem owner_of_tenantEntry {s : State} {t va need ma : Nat} {e : Tlb} (h : s.tenantEntry t va need = some e) (at_ : e.loc va = .mem ma) :
    (s.frame (mfnOf ma)).owner = t := by
  have ok := (Option.filter_eq_some_iff.mp h).2
  rw [at_] at ok
  simpa using (Bool.and_eq_true_iff.mp ok).2

/-- A sector of a plain page read by an engine. -/
theorem engineRead_plain {s : State} {t va ma : Nat} {e : Tlb} (slot : Option Nat) (h : s.tenantEntry t va aRD = some e)
    (plain : isProt e.attr = false) (at_ : e.loc va = .mem ma) : s.engineRead t slot va = some (s.l2Access ma 0 false none, s.readMem ma 32) := by
  have own := owner_of_tenantEntry h at_
  unfold State.engineRead State.homeDo
  simp [h, plain, at_, own, State.homeBytes]

theorem l1Store_mem (s : State) (core ma n : Nat) : ∃ l, s.l1Store core ma n = { s with mem := { s.mem with l1 := l } } := by
  unfold State.l1Store
  split
  · exact ⟨s.mem.l1, rfl⟩
  · dsimp only
    split_ifs
    · exact ⟨_, rfl⟩
    · exact ⟨s.mem.l1, rfl⟩
    · exact ⟨_, rfl⟩

/-- A sector of a plain page written by an engine: its bytes, but for the device's own records (R3), and nothing outside memory. -/
theorem engineWrite_plain {s : State} {t va ma : Nat} {e : Tlb} (slot : Option Nat) (l : List Byte) (h : s.tenantEntry t va aWR = some e)
    (plain : isProt e.attr = false) (at_ : e.loc va = .mem ma) :
    ∃ m, s.engineWrite t slot va l = some (s.setMem m) ∧ m.bytes = cellSetMany 0 s.mem.bytes ma (s.keepRecords ma l) := by
  have own := owner_of_tenantEntry h at_
  obtain ⟨k, n, cached⟩ := cacheOnly_l2Access s ma 0 true none
  obtain ⟨w, x, tags⟩ := State.leaveTags_eq ((s.l2Access ma 0 true none).homeWrite none ma (s.keepRecords ma l)) [(ma, 32, none)]
  obtain ⟨y, stored⟩ := l1Store_mem (((s.l2Access ma 0 true none).homeWrite none ma (s.keepRecords ma l)).leaveTags [(ma, 32, none)]) 1536 ma 32
  have runs : s.engineWrite t slot va l = some ((((s.l2Access ma 0 true none).homeWrite none ma (s.keepRecords ma l)).leaveTags
      [(ma, 32, none)]).l1Store 1536 ma 32) := by
    unfold State.engineWrite State.homeDo
    simp [h, plain, at_, own]
  rw [stored, tags, cached] at runs
  exact ⟨_, runs, rfl⟩

/-! ### Misses and hits (R97 to R100) -/

section
variable {s : State} {uid : Nat}

/-- A tenant with one miss more. -/
def Tenant.missOnce (k : Tenant) : Tenant := { k with misses := (k.misses + 1) % 2 ^ 64 }

/-- A tenant with one hit more. -/
def Tenant.hitOnce (k : Tenant) : Tenant := { k with hits := (k.hits + 1) % 2 ^ 64 }

/-- In `u` the launch `l` of `s` has missed: it goes on to admission and its tenant has one miss more; memory, cores, control, the device's
registers and the digests stay (R100, R106). -/
structure Missed (s u : State) (uid : Nat) (l : Launch) (unkeyed : Bool) : Prop where
  launch : u.launch uid = s.toReady { l with looked := true, missed := true, unkeyed := unkeyed, hitEntry := none }
  misses : s.bound l.tenant = true → (u.tenant l.tenant).misses = ((s.tenant l.tenant).misses + 1) % 2 ^ 64
  kept : u.mem = s.mem ∧ u.cores = s.cores ∧ u.ctl = s.ctl ∧ u.dev = s.dev
  digests : u.tasks.digests = s.tasks.digests

theorem missed_spec (known : Known s uid) (b : Bool) : Missed s (s.missed uid b) uid (s.launch uid) b where
  launch := by
    unfold State.missed
    dsimp only
    rw [State.setTenant_launch]
    exact launch_setLaunch_of known rfl (launch_uid known)
  misses hb := congrArg Tenant.misses (tenant_setTenant_of (k := (s.tenant (s.launch uid).tenant).missOnce) hb rfl (tenant_id hb))
  kept := ⟨rfl, rfl, rfl, rfl⟩
  digests := rfl

/-- A launch replaced before it misses changes nothing besides. -/
theorem Missed.before {u : State} {k l : Launch} {b : Bool} (h : Missed (s.setLaunch k) u uid l b) : Missed s u uid l b :=
  ⟨h.launch, h.misses, h.kept, h.digests⟩

theorem missed_setLaunch {l : Launch} (known : Known s uid) (hl : l.uid = uid) (b : Bool) : Missed s ((s.setLaunch l).missed uid b) uid l b := by
  have spec := missed_spec (known_setLaunch (l := l) known) b
  rw [launch_setLaunch_of known rfl hl] at spec
  exact spec.before

/-- The entry of a hit is the most recently used one, if it is still there (R99). -/
def State.reuseUsed (s : State) (e : Reuse) : State :=
  if s.tasks.reuse.contains e then s.setTasks { s.tasks with reuse := e :: s.tasks.reuse.filter (fun x => x != e) } else s

theorem reuseUsed_eq (s : State) (e : Reuse) :
    ∃ r, s.reuseUsed e = { s with tasks := { s.tasks with reuse := r } } ∧ ∀ x, x ∈ r ↔ x ∈ s.tasks.reuse := by
  unfold State.reuseUsed
  split
  case isTrue here =>
    refine ⟨_, rfl, fun x => ?_⟩
    have mem : e ∈ s.tasks.reuse := by simpa using here
    by_cases he : x = e
    · simp [he, mem]
    · simp [he]
  case isFalse => exact ⟨s.tasks.reuse, rfl, fun _ => .rfl⟩

/-- A launch that takes its outputs from an entry. -/
def Launch.reusing (l : Launch) : Launch := { l with reused := true, looked := true }

/-- A hit noted with its entry, its launch and its tenant. -/
def State.hitNoted (s : State) (uid : Nat) (e : Reuse) : State :=
  ((s.reuseUsed e).setLaunch (s.launch uid).reusing).setTenant (s.tenant (s.launch uid).tenant).hitOnce

theorem completeHit_eq (e : Reuse) : s.completeHit uid e = (s.hitNoted uid e).endLaunch uid ⟨0, 0, 0⟩ := rfl

theorem hitNoted_launch (known : Known s uid) (e : Reuse) : (s.hitNoted uid e).launch uid = (s.launch uid).reusing := by
  obtain ⟨r, used, -⟩ := reuseUsed_eq s e
  exact launch_setLaunch_of known (by rw [used]) (launch_uid known)

theorem known_hitNoted (known : Known s uid) (e : Reuse) : Known (s.hitNoted uid e) uid := by
  obtain ⟨r, used, -⟩ := reuseUsed_eq s e
  unfold State.hitNoted
  rw [used]
  exact known_setLaunch (s := { s with tasks := { s.tasks with reuse := r } }) known

/-- In `u` the launch `l` of `s` has hit: it has completed OK, its tenant has one hit more and no entry has come or gone; memory, cores,
control and the device's registers stay (R99, R106). -/
structure Hit (s u : State) (uid : Nat) (l : Launch) : Prop where
  launch : (u.launch uid).reused = true ∧ (u.launch uid).endInfo = some ⟨0, 0, 0⟩ ∧ (u.launch uid).phase = .ending
  hits : s.bound l.tenant = true → (u.tenant l.tenant).hits = ((s.tenant l.tenant).hits + 1) % 2 ^ 64
  entries : ∀ x, x ∈ u.tasks.reuse ↔ x ∈ s.tasks.reuse
  kept : u.mem = s.mem ∧ u.cores = s.cores ∧ u.ctl = s.ctl ∧ u.dev = s.dev

theorem completeHit_spec (known : Known s uid) (going : (s.launch uid).endInfo = none) (e : Reuse) :
    Hit s (s.completeHit uid e) uid (s.launch uid) := by
  obtain ⟨r, used, same⟩ := reuseUsed_eq s e
  obtain ⟨l, ended⟩ := endLaunch_launches (s.hitNoted uid e) uid ⟨0, 0, 0⟩
  have noted := hitNoted_launch known e
  have left := endLaunch_launch (e := ⟨0, 0, 0⟩) (known_hitNoted known e) (by rw [noted]; exact going)
  rw [completeHit_eq]
  refine ⟨by rw [left, noted]; exact ⟨rfl, rfl, rfl⟩, fun hb => ?_, fun x => ?_, ?_⟩
  · rw [ended]
    exact congrArg Tenant.hits
      (tenant_setTenant_of (k := (s.tenant (s.launch uid).tenant).hitOnce) hb (by rw [used]; rfl) (tenant_id hb))
  · rw [ended, State.hitNoted, used]
    exact same x
  · rw [ended, State.hitNoted, used]
    exact ⟨rfl, rfl, rfl, rfl⟩

/-- A launch replaced before it hits changes nothing besides. -/
theorem Hit.before {u : State} {k l : Launch} (h : Hit (s.setLaunch k) u uid l) : Hit s u uid l := ⟨h.launch, h.hits, h.entries, h.kept⟩

/-- A launch with its key (R93). -/
def Launch.withKey (l : Launch) (key : Nat) : Launch := { l with key := key }

/-- A search without an entry misses (R98, R100). -/
theorem search_misses (known : Known s uid) (empty : s.tasks.reuse = []) (key : Nat) :
    Missed s (s.search uid key) uid ((s.launch uid).withKey key) false := by
  have none : (s.setLaunch ((s.launch uid).withKey key)).tasks.reuse = [] := empty
  have runs : s.search uid key = (s.setLaunch ((s.launch uid).withKey key)).missed uid false := by
    unfold State.search
    dsimp only
    unfold Launch.withKey at none
    rw [none]
    rfl
  rw [runs]
  exact missed_setLaunch (l := (s.launch uid).withKey key) known (launch_uid known) false

/-- A search with one entry that fits, current and without outputs, hits (R98, R99). -/
theorem search_hits {e : Reuse} {key : Nat} (known : Known s uid) (going : (s.launch uid).endInfo = none) (one : s.tasks.reuse = [e])
    (fits : e.fits (s.launch uid) key = true) (epoch : e.epoch = (s.tenant (s.launch uid).tenant).epoch) (outs : e.outs = [])
    (nout : (s.launch uid).nout = 0) : Hit s (s.search uid key) uid ((s.launch uid).withKey key) := by
  have found : (s.setLaunch ((s.launch uid).withKey key)).tasks.reuse.find? (fun e => e.fits ((s.launch uid).withKey key) key) = some e := by
    show s.tasks.reuse.find? _ = _
    rw [one]
    exact List.find?_cons_of_pos fits
  have noOuts : ((s.launch uid).withKey key).outs = [] := by
    show (List.range (s.launch uid).nout).map _ = _
    rw [nout]
    rfl
  have runs : s.search uid key = (s.setLaunch ((s.launch uid).withKey key)).completeHit uid e := by
    unfold Launch.withKey at *
    unfold State.search
    dsimp only
    rw [found]
    simp only [outs, noOuts, List.any_nil, List.map_nil, State.setLaunch_tenant, epoch, ne_eq, not_true_eq_false, Bool.false_eq_true,
      or_self, if_false, if_true]
  have self : (s.setLaunch ((s.launch uid).withKey key)).launch uid = (s.launch uid).withKey key :=
    launch_setLaunch_of known rfl (launch_uid known)
  have spec := completeHit_spec (known_setLaunch (l := (s.launch uid).withKey key) known) (by rw [self]; exact going) e
  rw [self] at spec
  rw [runs]
  exact spec.before

end

/-! ### The lookup (R97) -/

/-- A launch whose tables have passed, at its lookup (R70, R97). -/
def Launch.atLookup (l : Launch) (tb : Tables) : Launch := { l.withTables tb with looked := true }

/-- The header of a launch's code object as the lookup reads it (R92). -/
def State.codeHead (s : State) (l : Launch) : Option (List Word) := s.tenantWords l.tenant l.slotHeld l.codeobj 8

/-- A region of a launch is not there, or lies on another device (log 20). -/
def State.regionGone (s : State) (l : Launch) : Bool := (l.outs ++ l.scrs).any (fun r => (s.regionFrames l.tenant aRD r).isNone)

/-- The key of a launch without input regions, by the header of its code object (R92, R93). -/
def State.bareKey (s : State) (l : Launch) (h : List Word) : Nat :=
  l.keyOf (s.tenant l.tenant).salt.toNat [(h.getD 6 0).toNat + 2 ^ 64 * (h.getD 7 0).toNat]

/-- A launch whose turn for its lookup has come: it is pure and unprotected, eligible, and has not looked before (R97). -/
structure LookupDue (l : Launch) : Prop where
  queued : l.phase = .queued
  eligible : l.eligibleAt.isSome = true
  pure : l.pure = true
  first : l.looked = false
  plain : l.prot = false

section
variable {s : State} {uid : Nat} (due : LookupDue (s.launch uid))
include due

theorem LookupDue.known : Known s uid := known_of_phase (by rw [due.queued]; decide)

theorem LookupDue.not_refused : ¬((s.launch uid).phase ≠ .queued ∨ (s.launch uid).eligibleAt.isNone ∨ !(s.launch uid).pure ∨
    (s.launch uid).looked ∨ ((s.launch uid).prot ∧ (s.launch uid).slotHeld.isNone)) := by
  have eligible := due.eligible
  simp [due.queued, due.pure, due.first, due.plain, Option.isSome_iff_ne_none.mp eligible]

theorem exec_reuseLookup_stamps (new : (s.launch uid).v0 = []) :
    exec (.reuseLookup uid) s = .next (s.recordEvent.1.setLaunch { s.launch uid with v0 := s.recordEvent.2 }) :=
  congrArg Host.Outcome.next ((if_neg due.not_refused).trans (if_pos new))

variable (stamped : (s.launch uid).v0 ≠ [])
include stamped

theorem exec_reuseLookup_reads (more : (s.launch uid).tablesIn = false) :
    exec (.reuseLookup uid) s = .next (s.setLaunch (s.readTable (s.launch uid))) :=
  congrArg Host.Outcome.next ((if_neg due.not_refused).trans ((if_neg stamped).trans (if_pos (by simp [more]))))

variable (read : (s.launch uid).tablesIn = true)
include read

theorem exec_reuseLookup_fails {n : Nat} (fails : s.tablePass (s.launch uid) = .error n) :
    exec (.reuseLookup uid) s = .next ((s.setLaunch { s.launch uid with looked := true }).endLaunch uid ⟨1, n, 0⟩) := by
  refine congrArg Host.Outcome.next ((if_neg due.not_refused).trans ((if_neg stamped).trans ((if_neg (by simp [read])).trans ?_)))
  rw [fails]

variable {tb : Tables} (passed : s.tablePass (s.launch uid) = .ok tb) (nin : (s.launch uid).nin = 0)
include passed nin

/-- Without a header of the code object, or with a region that is not there or lies on another device, the launch is unkeyed (R100). -/
theorem exec_reuseLookup_unkeyed {u : State} (hu : u = s.setLaunch ((s.launch uid).atLookup tb))
    (lacks : ((u.codeHead (s.launch uid)).isNone || u.regionGone (s.launch uid)) = true) :
    exec (.reuseLookup uid) s = .next (u.missed uid true) := by
  have ins : (s.launch uid).ins = [] := by rw [Launch.ins, nin]; rfl
  refine congrArg Host.Outcome.next ((if_neg due.not_refused).trans ((if_neg stamped).trans ((if_neg (by simp [read])).trans ?_)))
  subst hu
  rw [passed, ins, List.nil_append]
  dsimp only
  split
  case h_1 => rfl
  case h_2 h head =>
    have headed : (State.codeHead (s.setLaunch ((s.launch uid).atLookup tb)) (s.launch uid)).isNone = false := by
      rw [State.codeHead, Launch.atLookup, head]
      rfl
    rw [headed, Bool.false_or] at lacks
    exact if_pos lacks

/-- With both, the search follows with the key of the record and the code object (R92, R93). -/
theorem exec_reuseLookup_keyed {u : State} (hu : u = s.setLaunch ((s.launch uid).atLookup tb)) {h : List Word}
    (head : u.codeHead (s.launch uid) = some h) (there : u.regionGone (s.launch uid) = false) :
    exec (.reuseLookup uid) s = .next (u.search uid (s.bareKey ((s.launch uid).atLookup tb) h)) := by
  have ins : (s.launch uid).ins = [] := by rw [Launch.ins, nin]; rfl
  have self : u.launch uid = (s.launch uid).atLookup tb := by rw [hu]; exact launch_setLaunch_of due.known rfl (launch_uid due.known)
  have regions : ¬(u.regionGone (s.launch uid) = true) := by rw [there]; exact Bool.false_ne_true
  refine congrArg Host.Outcome.next ((if_neg due.not_refused).trans ((if_neg stamped).trans ((if_neg (by simp [read])).trans ?_)))
  rw [passed, ins, List.nil_append]
  dsimp only
  rw [nin]
  unfold State.codeHead at head
  unfold Launch.atLookup at hu
  rw [← hu, head]
  refine (if_neg regions).trans ?_
  show u.search uid ((u.launch uid).keyOf (u.tenant (u.launch uid).tenant).salt.toNat _) = _
  rw [self, hu]
  rfl

end

/-! ### Digests (R96) -/

/-- An input region of a launch streamed, after the record event that comes first. -/
def State.streamInput (s : State) (l : Launch) (r : Nat) : Option (State × List Byte) :=
  streamRegion l.tenant l.slotHeld ((l.inRegion r).2 / 32) (l.inRegion r).1 s.recordEvent.1 []

/-- The digest of a region as it was streamed: under the tenant's epoch and salt and the stamps of the record event before it. -/
def State.digestOf (u : State) (l : Launch) (region : Nat × Nat) (stamps : List Nat) (b : List Byte) : Digest :=
  ⟨u.regionDie l.tenant region, l.tenant, region.1, region.2, (u.tenant l.tenant).epoch, stamps, l.slotHeld,
    ox128 (nats b) (u.tenant l.tenant).salt.toNat⟩

/-- The digest of a region streamed after a record event, in terms of the state before it. -/
theorem digestOf_recordEvent {s u : State} (cached : CacheOnly s.recordEvent.1 u) (l : Launch) (region : Nat × Nat) (b : List Byte) :
    (u.digestOf l region s.recordEvent.2 b).epoch = (s.tenant l.tenant).epoch ∧
      (u.digestOf l region s.recordEvent.2 b).digest = ox128 (nats b) (s.tenant l.tenant).salt.toNat := by
  obtain ⟨tasks, -⟩ := cached.kept
  have tenant : u.tenant l.tenant = s.recordEvent.1.tenant l.tenant := by rw [State.tenant, tasks]; rfl
  rw [State.digestOf, tenant]
  exact ⟨recordEvent_tenant s Tenant.epoch wrapped_epoch _,
    congrArg (fun k : Word => ox128 (nats b) k.toNat) (recordEvent_tenant s Tenant.salt wrapped_salt _)⟩

theorem keepDigest_head (s : State) (d : Digest) : (s.keepDigest d).tasks.digests.head? = some d := by
  simp [State.keepDigest]

section
variable {s : State} {uid r : Nat} {found : List Nat} (last : (s.launch uid).phase = .digesting [r] found)
include last

theorem exec_digestCacheFill_fails (fails : s.streamInput (s.launch uid) r = none) :
    exec (.digestCacheFill uid r) s = .next (s.recordEvent.1.missed uid true) := by
  show execDigestCacheFill uid r s = _
  unfold execDigestCacheFill
  unfold State.streamInput at *
  dsimp only
  rw [last]
  dsimp only
  rw [if_neg (not_not_intro rfl), fails]

/-- The last region that a lookup lacks is streamed: its digest is kept, and the search follows. -/
theorem exec_digestCacheFill_searches {u : State} {b : List Byte}
    (streamed : s.streamInput (s.launch uid) r = some (u, b)) :
    ∃ key, exec (.digestCacheFill uid r) s =
      .next ((u.keepDigest (u.digestOf (s.launch uid) ((s.launch uid).inRegion r) s.recordEvent.2 b)).search uid key) := by
  show ∃ key, execDigestCacheFill uid r s = _
  unfold execDigestCacheFill
  unfold State.streamInput at *
  dsimp only
  rw [last]
  dsimp only
  rw [if_neg (not_not_intro rfl), streamed]
  exact ⟨_, rfl⟩

end

/-! ### The copy of a hit (R99) -/

/-- The bytes after a store into main memory: those of the device's own records stay, and so does every byte outside (R3). -/
theorem stored_getD {s : State} {m : MemSys} {ma : Nat} {l : List Byte} (h : m.bytes = cellSetMany 0 s.mem.bytes ma (s.keepRecords ma l))
    (launch : Nat) : (∀ n < l.length, cellGet 0 m.bytes (ma + n) = storedByte s launch (none, ma) n (l.getD n 0)) ∧
      ∀ a, a < ma ∨ ma + l.length ≤ a → cellGet 0 m.bytes a = s.byte a := by
  have length : (s.keepRecords ma l).length = l.length := List.length_mapIdx
  refine ⟨fun n hn => ?_, fun a ha => ?_⟩
  · rw [h, cellGet_cellSetMany, length, if_pos (by omega), Nat.add_sub_cancel_left]
    simp [State.keepRecords, storedByte, placeByte, List.getD_eq_getElem?_getD, hn]
  · rw [h, cellGet_cellSetMany, length, if_neg (by omega)]
    rfl

theorem readMem_getD (s : State) (a : Nat) {k n : Nat} (h : n < k) : (s.readMem a k).getD n 0 = s.byte (a + n) := by
  simp [State.readMem, cellGetMany, State.byte, h, List.getD_eq_getElem?_getD]

/-- One sector copied between plain pages, where no frame of its source was written since the entry's stamps. -/
theorem hitCopies_sector {s : State} {t a b ma mb : Nat} {slot : Option Nat} {stamps : List Nat} {ea eb : Tlb} (apart : a ≠ b)
    (fresh : s.unwritten t stamps (a, 32) = true) (ha : s.tenantEntry t a aRD = some ea) (pa : isProt ea.attr = false)
    (la : ea.loc a = .mem ma) (hb : s.tenantEntry t b aWR = some eb) (pb : isProt eb.attr = false) (lb : eb.loc b = .mem mb) :
    ∃ m, hitCopies t slot stamps [(a, b, 32)] s = .ok (s.setMem m) ∧
      m.bytes = cellSetMany 0 s.mem.bytes mb (s.keepRecords mb (s.readMem ma 32)) := by
  obtain ⟨l, k, cached⟩ := cacheOnly_l2Access s ma 0 false none
  obtain ⟨m, written, bytes⟩ := engineWrite_plain (s := { s with mem := { s.mem with l2 := l, l2tick := k } }) slot (s.readMem ma 32) hb pb lb
  have one : hitCopy t slot stamps (32 / 32) a b s = .ok (s.setMem m) := by
    simp only [hitCopy, fresh, engineRead_plain slot ha pa la, cached, written, Bool.not_true, Bool.false_eq_true, if_false]
    rfl
  refine ⟨m, ?_, bytes⟩
  rw [hitCopies, if_neg apart, one]
  rfl

/-- A hit whose one output moves is copied and completes. -/
theorem exec_reuseHitCopyDone {s : State} {uid a b n : Nat} {e : Reuse} {u : State} (copying : (s.launch uid).phase = .copying [(a, b)])
    (outs : (s.launch uid).outs = [(b, n)]) (entry : (s.launch uid).hitEntry = some e)
    (copied : hitCopies (s.launch uid).tenant (s.launch uid).slotHeld e.stamps [(a, b, n)] s = .ok u) :
    exec (.reuseHitCopyDone uid) s = .next (u.completeHit uid e) := by
  show execReuseHitCopyDone uid s = _
  unfold execReuseHitCopyDone
  dsimp only
  rw [copying, entry, outs]
  dsimp only [List.map, List.zip, List.zipWith]
  rw [copied]

/-- What a lookup without an entry leaves, keyed or not. -/
theorem lookup_misses {s : State} {uid : Nat} (due : LookupDue (s.launch uid)) (stamped : (s.launch uid).v0 ≠ [])
    (read : (s.launch uid).tablesIn = true) {tb : Tables} (passed : s.tablePass (s.launch uid) = .ok tb) (nin : (s.launch uid).nin = 0)
    (empty : s.tasks.reuse = []) :
    let w := s.setLaunch ((s.launch uid).atLookup tb)
    ∃ u key, exec (.reuseLookup uid) s = .next u ∧ Missed s u uid (((s.launch uid).atLookup tb).withKey key)
      ((w.codeHead (s.launch uid)).isNone || w.regionGone (s.launch uid)) := by
  intro w
  have uid_eq : ((s.launch uid).atLookup tb).uid = uid := launch_uid due.known
  cases lacks : (w.codeHead (s.launch uid)).isNone || w.regionGone (s.launch uid) with
  | true =>
    exact ⟨_, _, exec_reuseLookup_unkeyed due stamped read passed nin rfl lacks,
      missed_setLaunch (l := ((s.launch uid).atLookup tb).withKey _) due.known uid_eq true⟩
  | false =>
    obtain ⟨headed, there⟩ := Bool.or_eq_false_iff.mp lacks
    obtain ⟨h, head⟩ := Option.isSome_iff_exists.mp (Option.isNone_eq_false_iff.mp headed)
    have spec := search_misses (s := w) (known_setLaunch due.known) empty (s.bareKey ((s.launch uid).atLookup tb) h)
    rw [launch_setLaunch_of due.known rfl uid_eq] at spec
    exact ⟨_, _, exec_reuseLookup_keyed due stamped read passed nin rfl head there, spec.before⟩

/-- What a lookup with one entry of its key leaves, where there is nothing to copy. -/
theorem lookup_hits {s : State} {uid : Nat} (due : LookupDue (s.launch uid)) (going : (s.launch uid).endInfo = none)
    (stamped : (s.launch uid).v0 ≠ []) (read : (s.launch uid).tablesIn = true) {tb : Tables} (passed : s.tablePass (s.launch uid) = .ok tb)
    (nin : (s.launch uid).nin = 0) {w : State} (hw : w = s.setLaunch ((s.launch uid).atLookup tb)) {e : Reuse} {h : List Word}
    (head : w.codeHead (s.launch uid) = some h) (there : w.regionGone (s.launch uid) = false) (one : s.tasks.reuse = [e])
    (fits : e.fits ((s.launch uid).atLookup tb) (s.bareKey ((s.launch uid).atLookup tb) h) = true)
    (epoch : e.epoch = (s.tenant (s.launch uid).tenant).epoch) (outs : e.outs = []) (nout : (s.launch uid).nout = 0) :
    ∃ u, exec (.reuseLookup uid) s = .next u ∧
      Hit s u uid (((s.launch uid).atLookup tb).withKey (s.bareKey ((s.launch uid).atLookup tb) h)) := by
  have self : w.launch uid = (s.launch uid).atLookup tb := by rw [hw]; exact launch_setLaunch_of due.known rfl (launch_uid due.known)
  have known : Known w uid := by rw [hw]; exact known_setLaunch due.known
  refine ⟨_, exec_reuseLookup_keyed due stamped read passed nin hw head there, ?_⟩
  have spec := search_hits known (by rw [self]; exact going) (by rw [hw]; exact one) (by rw [self]; exact fits)
    (by rw [self, hw]; exact epoch) outs (by rw [self]; exact nout)
  rw [self] at spec
  subst hw
  exact spec.before

/-- What a region that cannot be streamed leaves: a record event, and a launch that is unkeyed (R96, R100). -/
theorem digest_misses {s : State} {uid r : Nat} {found : List Nat} (last : (s.launch uid).phase = .digesting [r] found)
    (fails : s.streamInput (s.launch uid) r = none) :
    ∃ u, exec (.digestCacheFill uid r) s = .next u ∧ Missed s.recordEvent.1 u uid (s.launch uid) true := by
  have known : Known s uid := known_of_phase (by rw [last]; exact Phase.noConfusion)
  obtain ⟨known', same⟩ := known_recordEvent known
  exact ⟨_, exec_digestCacheFill_fails last fails, same ▸ missed_spec known' true⟩

/-- What a last region streamed leaves, with no entry in the table: its digest comes first, and the launch goes on to admission (R96, R100). -/
theorem digest_fills {s u : State} {uid r : Nat} {found : List Nat} {b : List Byte} (last : (s.launch uid).phase = .digesting [r] found)
    (empty : s.recordEvent.1.tasks.reuse = [])
    (streamed : s.streamInput (s.launch uid) r = some (u, b)) :
    ∃ v key, exec (.digestCacheFill uid r) s = .next v ∧
      Missed (u.keepDigest (u.digestOf (s.launch uid) ((s.launch uid).inRegion r) s.recordEvent.2 b)) v uid ((s.launch uid).withKey key) false := by
  obtain ⟨known, same⟩ := known_recordEvent (known_of_phase (s := s) (u := uid) (by rw [last]; exact Phase.noConfusion))
  obtain ⟨key, runs⟩ := exec_digestCacheFill_searches last streamed
  obtain ⟨tasks, -⟩ := (streamRegion_cacheOnly _ _ streamed).kept
  have same' : u.launch uid = s.launch uid := by rw [← same, State.launch, tasks]; rfl
  have known' : Known u uid := by rw [Known, tasks]; exact known
  have miss := search_misses (s := u.keepDigest (u.digestOf (s.launch uid) ((s.launch uid).inRegion r) s.recordEvent.2 b)) (uid := uid)
    known' (by rw [← empty, ← tasks]; rfl) key
  exact ⟨_, key, runs, same' ▸ miss⟩

/-- What a lookup whose tables fail leaves: the launch completes with their reason (R69). -/
theorem lookup_fails {s : State} {uid n : Nat} (due : LookupDue (s.launch uid)) (going : (s.launch uid).endInfo = none)
    (stamped : (s.launch uid).v0 ≠ []) (read : (s.launch uid).tablesIn = true) (fails : s.tablePass (s.launch uid) = .error n) :
    ∃ u, exec (.reuseLookup uid) s = .next u ∧ (u.launch uid).endInfo = some ⟨1, n, 0⟩ ∧ u.cores = s.cores ∧ u.mem = s.mem := by
  let w := s.setLaunch { s.launch uid with looked := true }
  have self : w.launch uid = { s.launch uid with looked := true } := launch_setLaunch_of due.known rfl (launch_uid due.known)
  have ended := endLaunch_launch (s := w) (e := ⟨1, n, 0⟩) (known_setLaunch due.known) (by rw [self]; exact going)
  obtain ⟨l, kept⟩ := endLaunch_launches w uid ⟨1, n, 0⟩
  exact ⟨_, exec_reuseLookup_fails due stamped read fails, by rw [ended], by rw [kept]; rfl, by rw [kept]; rfl⟩

/-- Settles O53: the stages of a lookup end in a read, a failure, a miss or a hit; a streamed region, a copied hit and a wrap leave what
their lemmas say. -/
theorem reuseEvents : Obligations.ReuseEvents := by
  unfold Obligations.ReuseEvents
  refine ⟨?_, ?_, ?_, ?_⟩
  · intro s uid k queued eligible pure first plain going
    have due : LookupDue (s.launch uid) := ⟨queued, eligible, pure, first, plain⟩
    refine ⟨exec_reuseLookup_stamps due, exec_reuseLookup_reads due, fun n => lookup_fails due going,
      fun tb stamped read passed nin => ⟨fun empty => ?_, ?_⟩⟩
    · obtain ⟨u, key, runs, miss⟩ := lookup_misses due stamped read passed nin empty
      have left := miss.launch
      exact ⟨u, runs, by rw [left]; rfl, by rw [left]; rfl, by rw [left]; rfl, by rw [left]; rfl, by rw [left]; rfl, by rw [left]; rfl,
        miss.misses, miss.kept⟩
    · intro e h head there one fits epoch outs nout
      obtain ⟨u, runs, hit⟩ := lookup_hits due going stamped read passed nin rfl head there one fits epoch outs nout
      obtain ⟨mem, cores, -, -⟩ := hit.kept
      obtain ⟨reused, ended, phase⟩ := hit.launch
      exact ⟨u, runs, reused, ended, phase, hit.hits, mem, cores⟩
  · intro s uid r found last empty l
    obtain ⟨wclock, bytes, cores, ctl⟩ := recordEvent_kept s
    cases streamed : streamRegion l.tenant l.slotHeld ((l.inRegion r).2 / 32) (l.inRegion r).1 s.recordEvent.1 [] with
    | none =>
      obtain ⟨u, runs, miss⟩ := digest_misses last streamed
      obtain ⟨mem', cores', ctl', -⟩ := miss.kept
      have left := miss.launch
      exact ⟨u, runs, by rw [left]; rfl, by rw [left]; rfl, by rw [mem', wclock], by rw [mem', bytes], cores'.trans cores, ctl'.trans ctl,
        by rw [left]; rfl⟩
    | some p =>
      obtain ⟨u, b⟩ := p
      have cached := streamRegion_cacheOnly _ _ streamed
      obtain ⟨-, cores₁, ctl₁, wclock₁, bytes₁⟩ := cached.kept
      obtain ⟨v, key, runs, miss⟩ := digest_fills last empty streamed
      obtain ⟨mem', cores', ctl', -⟩ := miss.kept
      have left := miss.launch
      obtain ⟨epoch, digest⟩ := digestOf_recordEvent cached l (l.inRegion r) b
      exact ⟨v, runs, by rw [left]; rfl, by rw [left]; rfl, (congrArg MemSys.wclock mem').trans (wclock₁.trans wclock),
        (congrArg MemSys.bytes mem').trans (bytes₁.trans bytes), cores'.trans (cores₁.trans cores), ctl'.trans (ctl₁.trans ctl),
        by rw [left]; rfl, _, by rw [miss.digests]; exact keepDigest_head u _, rfl, rfl, rfl, rfl, epoch, digest⟩
  · intro s uid e a b ea eb ma mb copying going outs entry apart fresh ha pa la hb pb lb
    have known : Known s uid := known_of_phase (by rw [copying]; exact Phase.noConfusion)
    obtain ⟨m, copied, bytes⟩ := hitCopies_sector (slot := (s.launch uid).slotHeld) apart fresh ha pa la hb pb lb
    obtain ⟨inside, outside⟩ := stored_getD bytes 0
    rw [show (s.readMem ma 32).length = 32 from cellGetMany_length ..] at inside outside
    have hit := completeHit_spec (s := s.setMem m) known going e
    obtain ⟨reused, ended, phase⟩ := hit.launch
    obtain ⟨mem, kept⟩ := hit.kept
    have byte : ∀ n, (State.completeHit (s.setMem m) uid e).byte n = cellGet 0 m.bytes n := fun n => by rw [State.byte, mem]; rfl
    exact ⟨_, exec_reuseHitCopyDone copying outs entry copied, fun n hn => by rw [byte, inside n hn, readMem_getD s ma hn],
      fun n hn => (byte n).trans (outside n hn), reused, ended, phase, hit.entries, kept⟩
  · intro s full wf
    refine ⟨_, congrArg Host.Outcome.next (if_pos full), rfl, fun unasked => ?_, frame_wrapClocks wf⟩
    rw [wrapClocks_eq]
    exact List.map_congr_left (fun k hk => wrapped_of_none (unasked k hk))

end Sys2Proof.Machine

/-! The canonical form of memory and of the frame table (spec/07 R111, R113) through the updates of the state that leave both alone. -/
namespace Sys2Proof.Machine
open Sys2Proof.Safety

section
variable (s : State)

/-! ### Updates that leave memory alone -/

@[simp] theorem memForm_setWaves (l : List Wave) : (s.setWaves l).memForm ↔ s.memForm := Iff.rfl
@[simp] theorem memForm_setWave (w : Wave) : (s.setWave w).memForm ↔ s.memForm := Iff.rfl
@[simp] theorem memForm_setCtl (c : Control) : (s.setCtl c).memForm ↔ s.memForm := Iff.rfl
@[simp] theorem memForm_setTasks (t : Tasks) : (s.setTasks t).memForm ↔ s.memForm := Iff.rfl
@[simp] theorem memForm_setDev (d : Device) : (s.setDev d).memForm ↔ s.memForm := Iff.rfl
@[simp] theorem memForm_setLaunch (l : Launch) : (s.setLaunch l).memForm ↔ s.memForm := Iff.rfl
@[simp] theorem memForm_setTenant (t : Tenant) : (s.setTenant t).memForm ↔ s.memForm := Iff.rfl
@[simp] theorem memForm_setReuse (l : List Reuse) : (s.setReuse l).memForm ↔ s.memForm := Iff.rfl
@[simp] theorem memForm_setCtx (c : Ctx) : (s.setCtx c).memForm ↔ s.memForm := Iff.rfl
@[simp] theorem memForm_setQuad (core q : Nat) (v : Quad) : (s.setQuad core q v).memForm ↔ s.memForm := Iff.rfl
@[simp] theorem memForm_bumpUnits (l : List Nat) : (s.bumpUnits l).memForm ↔ s.memForm := Iff.rfl
@[simp] theorem memForm_tickFresh : s.tickFresh.memForm ↔ s.memForm := Iff.rfl
@[simp] theorem memForm_takeSeq : s.takeSeq.memForm ↔ s.memForm := Iff.rfl

/-- A change of caches, buckets and records beside memory. -/
theorem memForm_setMem (m : MemSys) (hb : m.bytes = s.mem.bytes) (hf : m.frames = s.mem.frames) : (s.setMem m).memForm ↔ s.memForm := by
  simp [State.memForm, hb, hf]

theorem memForm_foldl_iff {α : Type} {f : State → α → State} (hf : ∀ s a, (f s a).memForm ↔ s.memForm) (l : List α) :
    (l.foldl f s).memForm ↔ s.memForm := by
  induction l generalizing s with
  | nil => rfl
  | cons a l ih => rw [List.foldl_cons, ih, hf]

theorem memForm_ite {c : Prop} [Decidable c] {a b : State} : (if c then a else b).memForm ↔ if c then a.memForm else b.memForm := by
  split <;> rfl

@[simp] theorem memForm_endLaunch (uid : Nat) (e : EndInfo) : (s.endLaunch uid e).memForm ↔ s.memForm := by
  unfold State.endLaunch
  dsimp only
  split <;> rfl

@[simp] theorem memForm_trapped (uid : Nat) (pc : CodeAddr) (cause : Nat) : (s.trapped uid pc cause).memForm ↔ s.memForm :=
  memForm_endLaunch ..

@[simp] theorem memForm_dropLatch (core slot : Nat) (p : Nat → Bool) : (s.dropLatch core slot p).memForm ↔ s.memForm := by
  unfold State.dropLatch
  dsimp only
  split <;> rfl

@[simp] theorem memForm_takeTrap (w : Wave) : (s.takeTrap w).memForm ↔ s.memForm := by
  unfold State.takeTrap
  dsimp only
  split <;> simp

@[simp] theorem memForm_mapWaves (uid : Nat) (f : Wave → Wave) : (s.mapWaves uid f).memForm ↔ s.memForm := Iff.rfl

@[simp] theorem memForm_settleGroup (uid g : Nat) : (s.settleGroup uid g).memForm ↔ s.memForm := by
  unfold State.settleGroup
  dsimp only
  split
  · rfl
  · split <;> rfl

@[simp] theorem memForm_arrive (w : Wave) (g : Nat) : (s.arrive w g).memForm ↔ s.memForm := memForm_settleGroup ..

@[simp] theorem memForm_endMember (w : Wave) (r : GroupRec) : (s.endMember w r).memForm ↔ s.memForm := memForm_settleGroup ..
end
end Sys2Proof.Machine

/-! The canonical form through what the issue of a word does, whatever its effect: caches, waits, faults, holds and the handler. -/
namespace Sys2Proof.Machine
open Sys2Proof.Safety

section
variable {s t : State}

theorem State.cachesOnly.memForm_iff (h : s.cachesOnly t) : t.memForm ↔ s.memForm := by
  unfold State.cachesOnly at h
  rw [h]
  rfl

/-- What `split` leaves of a state that one of two branches gives. -/
theorem memForm_request_ok {stop ten ma n : Nat} {who : Requester} (e : s.request stop ten ma who n = .ok t) : t.memForm ↔ s.memForm :=
  (State.request_keeps (.inl e)).memForm_iff

theorem memForm_request_error {stop ten ma n : Nat} {who : Requester} (e : s.request stop ten ma who n = .error t) : t.memForm ↔ s.memForm :=
  (State.request_keeps (.inr e)).memForm_iff

theorem memForm_takeStops {ten : Nat} {l : List Nat} (e : s.takeStops ten l = some t) : t.memForm ↔ s.memForm :=
  (State.takeStops_keeps e).memForm_iff

theorem memForm_takeSlice {ten ma : Nat} (e : s.takeSlice ten ma = some t) : t.memForm ↔ s.memForm :=
  (State.takeSlice_keeps e).memForm_iff

@[simp] theorem memForm_dropRetry (s : State) (who : Requester) : (s.dropRetry who).memForm ↔ s.memForm := (s.dropRetry_keeps who).memForm_iff

/-- What an access leaves, whether it waits or is done. -/
theorem memForm_homeAccess_wait {core ten e ma n : Nat} {who : Requester} {k : Option Nat}
    {tags : List (Nat × Nat × Option WTag)} {new : List Byte → Option (List Byte)}
    (hd : s.homeAccess core ten who k e ma n tags new = .wait t) : t.memForm ↔ s.memForm := by
  unfold State.homeAccess at hd
  split at hd
  · cases hd
  · split at hd
    case h_1 s1 h1 =>
      cases hd
      exact memForm_request_error h1
    case h_2 s1 h1 =>
      exfalso
      simp only [State.homeDo] at hd
      split at hd
      · cases hd
      · split at hd
        · cases hd
        · split at hd <;> cases hd
end

section
variable (s : State)

@[simp] theorem memForm_sendFlit (ten die vc : Nat) (load : List Nat) : (s.sendFlit ten die vc load).1.memForm ↔ s.memForm := by
  unfold State.sendFlit
  split <;> rfl

@[simp] theorem memForm_spendCtl (core : Nat) (b : Stop) : (s.spendCtl core b).memForm ↔ s.memForm := Iff.rfl

@[simp] theorem memForm_l2Frame (mfn : Nat) (f : L2Line → L2Line) : (s.l2Frame mfn f).memForm ↔ s.memForm := Iff.rfl

@[simp] theorem memForm_l2Access_iff (ma e : Nat) (b : Bool) (k : Option Nat) : (s.l2Access ma e b k).memForm ↔ s.memForm := by
  obtain ⟨l, hl⟩ := s.l2Access_eq ma e b k
  rw [hl]
  rfl

@[simp] theorem memForm_cacheTlb (core ten : Nat) (e : Tlb) : (s.cacheTlb core ten e).memForm ↔ s.memForm := by
  unfold State.cacheTlb
  dsimp only
  split <;> rfl

@[simp] theorem memForm_l1Fill (core ma evict : Nat) : (s.l1Fill core ma evict).memForm ↔ s.memForm := by
  unfold State.l1Fill
  dsimp only
  split <;> rfl

@[simp] theorem memForm_l1DropLines (core : Nat) (p : Nat → Bool) : (s.l1DropLines core p).memForm ↔ s.memForm := Iff.rfl

@[simp] theorem memForm_l1Drop (core ma : Nat) : (s.l1Drop core ma).memForm ↔ s.memForm := by
  unfold State.l1Drop
  split <;> rfl

@[simp] theorem memForm_setTags (ma n : Nat) (g : Option WTag) : (s.setTags ma n g).memForm ↔ s.memForm := Iff.rfl

@[simp] theorem memForm_setWatch (ma : Nat) (r : Option Watch) : (s.setWatch ma r).memForm ↔ s.memForm := Iff.rfl

@[simp] theorem memForm_acquire (core scope : Nat) : (s.acquire core scope).memForm ↔ s.memForm := by
  unfold State.acquire
  split <;> rfl

@[simp] theorem memForm_consume (w : Wave) (r : GroupRec) : (s.consume w r).memForm ↔ s.memForm := memForm_acquire ..

@[simp] theorem memForm_queueWait (w : Wave) (n : Nat) (r : Option Nat) : (s.queueWait w n r).memForm ↔ s.memForm := by
  unfold State.queueWait
  dsimp only
  split <;> rfl

@[simp] theorem memForm_dropWait (w : Wave) : (s.dropWait w).memForm ↔ s.memForm := by
  unfold State.dropWait
  dsimp only
  split <;> rfl

@[simp] theorem memForm_dropRemat (w : Wave) : (s.dropRemat w).memForm ↔ s.memForm := by
  unfold State.dropRemat
  dsimp only
  split <;> rfl

@[simp] theorem memForm_refilled (w v : Wave) : (s.refilled w v).memForm ↔ s.memForm := by
  unfold State.refilled
  split <;> simp

@[simp] theorem memForm_impure (uid : Nat) : (s.impure uid).memForm ↔ s.memForm := by
  unfold State.impure
  dsimp only
  split <;> rfl

@[simp] theorem memForm_fetched (w : Wave) (pc : CodeAddr) (lanes : List Nat) : (s.fetched w pc lanes).memForm ↔ s.memForm := by
  unfold State.fetched
  split <;> simp

@[simp] theorem memForm_moveOut (w : Wave) (n : Nat) : (s.moveOut w n).memForm ↔ s.memForm := Iff.rfl

@[simp] theorem memForm_leaveWave (w : Wave) : (s.leaveWave w).memForm ↔ s.memForm :=
  memForm_foldl_iff s (fun t r => memForm_endMember t w r) w.groups

@[simp] theorem memForm_endWave (core slot : Nat) : (s.endWave core slot).memForm ↔ s.memForm := by
  unfold State.endWave
  split
  · rfl
  · dsimp only
    split
    · rfl
    · simp only [memForm_ite, memForm_endLaunch, memForm_setLaunch, memForm_leaveWave, memForm_moveOut, memForm_dropLatch, memForm_dropWait, ite_self]

@[simp] theorem memForm_bookLatch (w : Wave) (u : Use) : (s.bookLatch w u).memForm ↔ s.memForm := by
  unfold State.bookLatch
  dsimp only
  split <;> rfl

@[simp] theorem memForm_upcall (ten code lid wid : Nat) : (s.upcall ten code lid wid).memForm ↔ s.memForm := Iff.rfl

@[simp] theorem memForm_bookHang (w : Wave) (p : Option Nat) : (s.bookHang w p).memForm ↔ s.memForm := by
  unfold State.bookHang
  dsimp only
  split
  · rfl
  · simp [memForm_ite]

@[simp] theorem memForm_bookQuad (w : Wave) (yld : Bool) (extra : Nat) : (s.bookQuad w yld extra).memForm ↔ s.memForm := Iff.rfl

@[simp] theorem memForm_finish (c : Ctl) (u : Use) (old : Wave) (pc : CodeAddr) (active lanes : List Nat) (r : Done) :
    (finish c u s old pc active lanes r).memForm ↔ s.memForm := by
  unfold finish
  dsimp only
  split
  · rfl
  · simp [memForm_ite]

@[simp] theorem memForm_turnedAway (w : Wave) (faults : List (Nat × Nat × Word)) : (turnedAway s w faults).memForm ↔ s.memForm := Iff.rfl

@[simp] theorem memForm_faulted (c : Ctl) (u : Use) (w : Wave) (pc : CodeAddr) (active : List Nat) (cause : Nat) (addr : Word) (lanes : List Nat) :
    (faulted c u s w pc active cause addr lanes).memForm ↔ s.memForm := by
  unfold faulted
  simp [memForm_ite]

@[simp] theorem memForm_held (w : Wave) (pc : CodeAddr) (k : Held) : (held s w pc k).memForm ↔ s.memForm := by
  unfold held
  split <;> rfl

end

/-! ### A word of a wave -/

/-- The state that a word's effect leaves, whether it holds its wave or is done. -/
def Out.after : Out → State
  | .hold s _ => s
  | .done s _ => s

/-- The state in which the checks of a word and its effect end. -/
def Att.after (s : State) : Att → State
  | .out o _ _ => o.after
  | _ => s

/-- An effect that keeps the canonical form. -/
def KeepsForm (body : Ex → Out) : Prop := ∀ x : Ex, x.s.memForm → (body x).after.memForm

section
variable {c : Ctl} {u : Use} {body : Ex → Out} {s : State} {w : Wave} {pc : CodeAddr} {active lanes : List Nat} {hnd : Bool}

/-- A purity violation noted or not. -/
theorem memForm_noted {p : Prop} [Decidable p] (uid : Nat) {t : State} (h : s.memForm) (ht : t.memForm) :
    (if p then s.impure uid else t).memForm := by
  split
  · exact (memForm_impure s uid).2 h
  · exact ht

theorem memForm_runBody' {filled : List RTag} {targets : List Nat} (keeps : KeepsForm body) (h : s.memForm) (t : State) :
    ((runBody' u body s w filled pc active lanes targets hnd).after t).memForm := by
  unfold runBody'
  extract_lets l tags stray t failing bad good faults s1
  have ht : t.memForm := by
    unfold t
    split
    · exact h
    · exact (memForm_impure s _).2 h
  split
  · exact (memForm_impure t _).2 ht
  · have h1 : s1.memForm := memForm_noted _ ht ht
    split
    · exact h1
    · have done := keeps ⟨s1, t.view w u, pc, active, good, hnd⟩ h1
      split
      next e => rwa [e] at done
      next e => rwa [e] at done

theorem memForm_attempt (keeps : KeepsForm body) (h : s.memForm) : ((attempt u body s w pc active lanes hnd).after s).memForm := by
  unfold attempt
  extract_lets l targets hz
  iterate 7 (split; · exact h)
  split
  · exact h
  · split
    · exact h
    · split
      · exact (memForm_queueWait ..).2 ((memForm_refilled ..).2 h)
      · exact h
      · exact memForm_runBody' keeps ((memForm_refilled ..).2 h) _

/-- A word of the wave's lanes keeps the form where its effect does. -/
theorem memForm_issueWord (keeps : KeepsForm body) (h : s.memForm) : (issueWord c u body s w pc).memForm := by
  unfold issueWord
  extract_lets active lanes u1 t
  have ht : t.memForm := (memForm_fetched ..).2 h
  have tried := memForm_attempt (u := u1) (w := w) (pc := pc) (active := active) (lanes := lanes) (hnd := false) keeps ht
  split
  next => simpa using h
  next => simpa using ht
  next e => simpa [e, Att.after, Out.after] using tried
  next e => simpa [e, Att.after, Out.after] using tried

theorem memForm_nestedFault (after : State) (hd : Handler) (cause : Nat) (h : s.memForm) : (nestedFault s after w hd cause).memForm := by
  unfold nestedFault
  simpa using memForm_noted _ h h

theorem memForm_handlerWord (keeps : KeepsForm body) (hd : Handler) (h : s.memForm) : (handlerWord c u body s w hd).memForm := by
  unfold handlerWord
  extract_lets g runs u1 t
  have ht : t.memForm := (memForm_fetched ..).2 h
  have tried := memForm_attempt (u := u1) (w := w) (pc := hd.pc) (active := [hd.lane]) (lanes := if runs then [hd.lane] else []) (hnd := true)
    keeps ht
  have nested := fun (a : State) (n : Nat) => memForm_nestedFault (w := w) a hd n h
  split
  next => exact nested ..
  next =>
    split
    · simpa using h
    · exact nested ..
  next e =>
    split
    · simpa [e, Att.after, Out.after] using tried
    · exact nested ..
  next e =>
    split
    · exact nested ..
    · split
      · simpa [e, Att.after, Out.after] using tried
      · exact nested ..

/-- An outcome whose state, if there is one, is in canonical form. -/
def Formed (r : Res1) : Prop := ∀ t, r = .next t → t.memForm

theorem formed_next {t : State} : Formed (.next t) ↔ t.memForm := by simp [Formed]

/-- A word keeps the form where its effect does. -/
theorem formed_word (keeps : KeepsForm body) (h : s.memForm) : Formed (word c u body s) := by
  unfold word
  rw [formed_next]
  split
  · exact h
  · split
    · split
      · exact h
      · exact memForm_handlerWord keeps _ h
    · split
      · exact h
      · exact memForm_issueWord keeps h

/-! ### Effects on the wave alone -/

theorem keepsForm_laneBody (f : Ex → Nat → LaneRes) : KeepsForm (laneBody f) := fun _ h => h
theorem keepsForm_waveBody (f : Ex → Wave → Wave) : KeepsForm (waveBody f) := fun _ h => h

end
end Sys2Proof.Machine

/-! The canonical form through the parts of an access (spec/13, spec/20) and through what launches and keys queue for. -/
namespace Sys2Proof.Machine
open Sys2Proof.Safety

section
variable (s : State)

/-! ### Records, queueing and key slots -/

@[simp] theorem memForm_hostEvent (ten kind : Nat) (detail : Word) : (s.hostEvent ten kind detail).memForm ↔ s.memForm := by
  unfold State.hostEvent
  dsimp only
  split <;> rfl

@[simp] theorem memForm_queueLaunch (ten : Nat) (rec : List Word) (sub : Nat) (src : Bool) :
    (s.queueLaunch ten rec sub src).memForm ↔ s.memForm := by
  unfold State.queueLaunch
  dsimp only
  split <;> simp

@[simp] theorem memForm_setKey (k : Nat) (v : KeySlot) : (s.setKey k v).memForm ↔ s.memForm := Iff.rfl

@[simp] theorem memForm_holdKey (k uid : Nat) : (s.holdKey k uid).memForm ↔ s.memForm := by
  unfold State.holdKey
  dsimp only
  split <;> rfl

@[simp] theorem memForm_keyTake (uid : Nat) : (s.keyTake uid).memForm ↔ s.memForm := by
  unfold State.keyTake
  extract_lets l
  split
  · rfl
  · split
    · simp
    · extract_lets kid
      split
      · simp only [memForm_ite, memForm_holdKey, memForm_setLaunch, memForm_setKey, ite_self]
      · split <;> rfl

theorem memForm_grantKeys : ∀ (n : Nat) (s : State), (grantKeys n s).memForm ↔ s.memForm
  | 0, _ => Iff.rfl
  | n + 1, s => by
    unfold grantKeys
    split
    · rw [memForm_grantKeys n]
      simp
    · rfl

@[simp] theorem memForm_grantFree : s.grantFree.memForm ↔ s.memForm := memForm_grantKeys ..

@[simp] theorem memForm_retireKey (k : Nat) : (s.retireKey k).memForm ↔ s.memForm := by
  unfold State.retireKey
  rw [memForm_grantFree, memForm_foldl_iff _ memForm_keyTake]
  rfl

@[simp] theorem memForm_releaseKey (uid : Nat) : (s.releaseKey uid).memForm ↔ s.memForm := by
  unfold State.releaseKey
  extract_lets l
  split
  · rfl
  · simp [memForm_ite]

@[simp] theorem memForm_dropKeyWait (uid : Nat) : (s.dropKeyWait uid).memForm ↔ s.memForm := Iff.rfl

@[simp] theorem memForm_settleOne (uid : Nat) : (s.settleOne uid).memForm ↔ s.memForm := by
  unfold State.settleOne
  simp [memForm_ite]

@[simp] theorem memForm_settleEligible : s.settleEligible.memForm ↔ s.memForm := memForm_foldl_iff _ memForm_settleOne _

/-! ### Accesses performed -/

@[simp] theorem memForm_acquireOf (w : Wave) (o : MemOp) : (s.acquireOf w o).memForm ↔ s.memForm := by
  unfold State.acquireOf
  split <;> simp

@[simp] theorem memForm_bindLoad (w : Wave) (o : MemOp) (js : List Nat) (base : Nat) (l : List Byte) :
    (s.bindLoad w o js base l).memForm ↔ s.memForm := Iff.rfl

@[simp] theorem memForm_bindAll (w : Wave) (o : MemOp) (l : List (Nat × Word)) : (s.bindAll w o l).memForm ↔ s.memForm := Iff.rfl

@[simp] theorem memForm_writePad (launch core off : Nat) (l : List Byte) (tag : Option WTag) :
    (s.writePad launch core off l tag).memForm ↔ s.memForm := Iff.rfl
end

section
variable {s : State} {w : Wave} {o : MemOp}

theorem memForm_sendRemote {js : List Nat} {p : Part} {f : State → State} (hf : ∀ t, t.memForm → (f t).memForm) (h : s.memForm) :
    (s.sendRemote w o js p f).memForm := by
  unfold State.sendRemote
  split
  · exact h
  · split
    next => exact h
    next e => exact hf _ ((memForm_takeStops e).2 h)

theorem memForm_sendPad {core : Nat} {f : State → State} (hf : ∀ t, t.memForm → (f t).memForm) (h : s.memForm) :
    (s.sendPad w core f).memForm := by
  unfold State.sendPad
  split
  next => exact h
  next e => exact hf _ ((memForm_takeStops e).2 h)

theorem memForm_performLoad (k : Nat) (l1 : Bool) (h : s.memForm) : (s.performLoad w o k l1).memForm := by
  unfold State.performLoad
  extract_lets p js
  split
  · exact memForm_sendPad (fun t ht => by simpa using ht) h
  · exact memForm_sendRemote (fun t ht => by simpa using ht) h
  · extract_lets base
    split
    · simpa using h
    · split
      next e => exact (memForm_homeAccess_wait e).2 h
      next => exact h
      next e => simpa [memForm_ite] using memForm_homeAccess h e

theorem memForm_performProt (k a : Nat) (h : s.memForm) : (s.performProt w o k a).memForm := by
  unfold State.performProt
  extract_lets js base old slot
  split
  · split
    next e => exact (memForm_homeAccess_wait e).2 h
    next => exact h
    next e => simpa using memForm_homeAccess h e
  · split
    next e => exact (memForm_homeAccess_wait e).2 h
    next => exact h
    next e => simpa using memForm_homeAccess h e

theorem memForm_performStore (k : Nat) (h : s.memForm) : (s.performStore w o k).memForm := by
  unfold State.performStore
  extract_lets p js w1
  split
  · exact memForm_sendPad (fun t ht => by simpa using ht) h
  · exact memForm_sendRemote (fun t ht => by simpa using ht) h
  · split
    · exact memForm_performProt _ _ h
    · split
      next e => exact (memForm_homeAccess_wait e).2 h
      next => exact h
      next e => simpa using memForm_homeAccess h e

theorem memForm_performAtom (k : Nat) (op : AOp) (wd : AWid) (ret : Bool) (h : s.memForm) : (s.performAtom w o k op wd ret).memForm := by
  unfold State.performAtom
  extract_lets p new finish
  have hfin : ∀ t tags old, t.memForm → (finish t tags old).memForm := fun t _ _ ht => (memForm_acquireOf t w o).2 ht
  split
  · exact memForm_sendPad (fun t ht => hfin _ _ _ ht) h
  · exact memForm_sendRemote (fun t ht => hfin _ _ _ ht) h
  · split
    next e => exact (memForm_homeAccess_wait e).2 h
    next => exact h
    next e => exact hfin _ _ _ ((memForm_l1Drop ..).2 (memForm_homeAccess h e))

theorem memForm_performPart (k : Nat) (l1 : Bool) (h : s.memForm) : (s.performPart w o k l1).memForm := by
  unfold State.performPart
  extract_lets c
  split
  · exact memForm_performLoad _ _ h
  · exact memForm_performLoad _ _ h
  · exact memForm_performStore _ h
  · exact memForm_performAtom _ _ _ _ h
  · exact memForm_performAtom _ _ _ _ h
  · exact h
  · exact h
  · exact h
  · split <;> exact h
  · split <;> exact h

theorem memForm_performAt (core slot id k : Nat) (l1 : Bool) (h : s.memForm) : (s.performAt core slot id k l1).memForm := by
  unfold State.performAt
  split
  · exact h
  · split
    · exact h
    · split
      · split
        · exact h
        · exact memForm_performPart _ _ h
      · exact h

/-- A fold over states in canonical form. -/
theorem memForm_foldl {α : Type} {f : State → α → State} (hf : ∀ s a, s.memForm → (f s a).memForm) : ∀ (l : List α) {s : State},
    s.memForm → (l.foldl f s).memForm
  | [], _, h => h
  | a :: l, _, h => memForm_foldl hf l (hf _ a h)

theorem memForm_performOp (core slot id : Nat) (part : Option Nat) (l1 : Bool) (h : s.memForm) :
    (s.performOp core slot id part l1).memForm := by
  unfold State.performOp
  extract_lets n ks s1
  have h1 : s1.memForm := memForm_foldl (fun t k => memForm_performAt core slot id k l1) ks h
  split <;> exact h1

/-! ### Words that access memory -/

theorem memForm_releaseSide {t : State} {scope : Nat} (e : releaseSide s w scope = some t) : t.memForm ↔ s.memForm := by
  unfold releaseSide at e
  split at e
  · cases e
  · split at e
    · split at e
      · cases e
      · cases e
        rfl
    · split at e
      · cases e
        exact memForm_foldl_iff s (fun t p => memForm_spendCtl t w.core _) w.paths
      · split at e
        · cases e
          rfl
        · cases e

theorem memForm_sendPart (act : OpAct) (q : State × List Part) (p : Part) : (State.sendPart w act q p).1.memForm ↔ q.1.memForm := by
  unfold State.sendPart
  split
  · split
    · rfl
    · exact memForm_sendFlit ..
  · rfl

theorem memForm_sendParts (act : OpAct) : ∀ (l : List Part) (q : State × List Part),
    (l.foldl (State.sendPart w act) q).1.memForm ↔ q.1.memForm
  | [], _ => Iff.rfl
  | p :: l, q => (memForm_sendParts act l _).trans (memForm_sendPart act q p)

theorem memForm_startOp {x : Ex} {act : OpAct} {ld : Bool} {reg : Nat} {regs : List Nat} {width : Nat} {od : Order} {acq rel : Bool}
    {accs : List Acc} {parts : List Part} : (startOp x act ld reg regs width od acq rel accs parts).memForm ↔ x.s.memForm := by
  unfold startOp
  extract_lets w sent op w1 s1 s2
  have h1 : s1.memForm ↔ x.s.memForm := memForm_sendParts act parts (x.s, [])
  have h2 : s2.memForm ↔ s1.memForm := memForm_foldl_iff s1 (fun t a => by split <;> simp) accs
  split
  · rw [memForm_impure, h2, h1]
  · rw [h2, h1]

theorem memForm_settleWatch {id : Nat} {od : Order} {store : Bool} {accs : List Acc} (h : s.memForm) :
    (settleWatch s w id od store accs).memForm := by
  unfold settleWatch
  extract_lets hot s1 s2
  have h1 : s1.memForm := by
    unfold s1
    split
    · exact h
    · exact memForm_foldl (fun t k ht => by split <;> [exact memForm_performAt _ _ _ _ _ ht; exact ht]) _ h
  have h2 : s2.memForm := by
    unfold s2
    split <;> exact h1
  split
  · exact h
  · split
    · exact h2
    · refine memForm_foldl (fun t a ht => ?_) hot h2
      split
      · split <;> exact ht
      · exact ht

theorem after_ite {p : Prop} [Decidable p] {a b : Out} (ha : a.after.memForm) (hb : b.after.memForm) : (if p then a else b).after.memForm := by
  split <;> assumption

theorem after_accessWord {x : Ex} {od : Order} {act : OpAct} {ld store cards acq rel : Bool} {n reg : Nat} {regs : List Nat}
    {lanes : List (Nat × Except (Nat × Word) Acc)} {mk : Acc → List Part} (h : x.s.memForm) :
    (accessWord x od act ld store cards acq rel n reg regs lanes mk).after.memForm := by
  unfold accessWord
  extract_lets w y l ok absent s1
  split
  next t e =>
    split at e
    · exact (memForm_releaseSide e).2 h
    · cases e
  next =>
    have hy : y.s.memForm := by
      unfold y
      split
      · exact (memForm_impure ..).2 h
      · exact h
    exact after_ite hy (after_ite h (after_ite h (after_ite h (memForm_settleWatch (memForm_startOp.2 hy)))))

theorem memForm_tryPref (x : Prefetch) : (s.tryPref x).memForm ↔ s.memForm := by
  unfold State.tryPref
  extract_lets gone
  have hg : ∀ t, (gone t).memForm ↔ t.memForm := fun t => Iff.rfl
  split
  · rw [hg, memForm_dropRetry]
  · split
    next e => exact memForm_request_error e
    next e =>
      extract_lets s2
      have h2 : s2.memForm ↔ s.memForm := by
        rw [hg, memForm_l2Access_iff, memForm_request_ok e]
      split
      · rw [memForm_foldl_iff _ (fun t k => memForm_l1Fill t _ _ _), h2]
      · exact h2

@[simp] theorem memForm_tryPrefs (s : State) : s.tryPrefs.memForm ↔ s.memForm := memForm_foldl_iff s (fun _ x => memForm_tryPref x) _

theorem memForm_prefetch (ev ma : Nat) : (s.prefetch w ev ma).memForm ↔ s.memForm := by
  unfold State.prefetch
  extract_lets x _ s1
  have h1 : s1.memForm ↔ s.memForm := Iff.rfl
  split
  · exact h1
  · rw [memForm_tryPref, h1]
end
end Sys2Proof.Machine

/-! The canonical form through launches, service batches and copy jobs (spec/05, spec/15, spec/21). -/
namespace Sys2Proof.Machine
open Sys2Proof.Safety

section
variable {s : State}

/-! ### Launching and services -/

theorem memForm_launchLane (x : Ex) (d a : Nat) (p : State × List (Nat × Nat × Word)) (i : Nat) :
    (launchLane x d a p i).1.memForm ↔ p.1.memForm := by
  unfold launchLane
  extract_lets s w
  split
  · rfl
  · rfl
  · split
    · rfl
    · simp [s]

theorem memForm_launchLanes (x : Ex) (d a : Nat) : ∀ (l : List Nat) (p : State × List (Nat × Nat × Word)),
    (l.foldl (launchLane x d a) p).1.memForm ↔ p.1.memForm
  | [], _ => Iff.rfl
  | i :: l, p => (memForm_launchLanes x d a l _).trans (memForm_launchLane x d a p i)

theorem formed_execLaunch (c : Ctl) (d a : Nat) (h : s.memForm) : Formed (execLaunch c d a s) := by
  refine formed_word (fun x hx => ?_) h
  dsimp only
  split
  next e => exact (memForm_releaseSide e).2 hx
  next => exact (memForm_launchLanes x d a x.lanes (x.s, [])).2 hx

@[simp] theorem memForm_wakeRuntime (s : State) (t : Nat) : (s.wakeRuntime t).memForm ↔ s.memForm := by
  unfold State.wakeRuntime
  apply memForm_foldl_iff
  exact fun u l => memForm_mapWaves ..

theorem memForm_writeBatch (t cls k hdr : Nat) (args : List (List Word)) (tag : Option WTag) (h : s.memForm) :
    (s.writeBatch t cls k hdr args tag).memForm := by
  unfold State.writeBatch
  extract_lets ma s1
  have h1 : s1.memForm := memForm_foldl (fun u p hu => memForm_deviceStore hu _ _ _) _ h
  exact memForm_deviceStore (memForm_deviceStore (memForm_deviceStore h1 _ _ _) _ _ _) _ _ _

@[simp] theorem memForm_postBatch (s : State) (w : Wave) (cls k : Nat) : (s.postBatch w cls k).memForm ↔ s.memForm := by
  unfold State.postBatch
  extract_lets s1
  split
  · exact memForm_wakeRuntime ..
  · rfl
  · rfl

theorem formed_execSvc (c : Ctl) (d a cls code : Nat) (h : s.memForm) : Formed (execSvc c d a cls code s) := by
  refine formed_word (fun x hx => ?_) h
  dsimp only
  split
  · exact hx
  · split
    next e => exact (memForm_releaseSide e).2 hx
    next => exact (memForm_postBatch ..).2 ((memForm_setWave ..).2 ((memForm_setTasks ..).2 ((memForm_takeSeq _).2 (memForm_writeBatch _ _ _ _ _ _ hx))))

@[simp] theorem memForm_answer (s : State) (t cls k : Nat) : (s.answer t cls k).memForm ↔ s.memForm := Iff.rfl

theorem formed_execSvcrep (c : Ctl) (d a b : Nat) (h : s.memForm) : Formed (execSvcrep c d a b s) := by
  refine formed_word (fun x hx => ?_) h
  extract_lets w cls k ma put
  have hput : ∀ t v, t.memForm → (put t v).after.memForm := fun t v ht => ht
  refine after_ite (hput _ _ hx) (after_ite (hput _ _ hx) (after_ite (hput _ _ hx) ?_))
  split
  next e => exact (memForm_releaseSide e).2 hx
  next => exact hput _ _ ((memForm_answer ..).2 (memForm_deviceStore hx _ _ _))

theorem memForm_deliver {t : State} {b : Batch} {get : Nat → Word × Word} (e : s.deliver b get = some t) : t.memForm ↔ s.memForm := by
  unfold State.deliver at e
  split at e
  · obtain ⟨v, -, rfl⟩ := Option.map_eq_some_iff.1 e
    rfl
  · split at e
    · cases e
      rfl
    · obtain ⟨v, -, rfl⟩ := Option.map_eq_some_iff.1 e
      rfl

theorem formed_execServiceBatchComplete (t cls slot : Nat) (h : s.memForm) : Formed (execServiceBatchComplete t cls slot s) := by
  unfold execServiceBatchComplete
  rw [formed_next]
  split
  · exact h
  next b _ =>
    extract_lets ma get live
    split
    · exact h
    · split
      next => exact h
      next s1 e =>
        have h1 : s1.memForm := by
          split at e
          · cases e
            exact h
          · exact (memForm_deliver e).2 h
        refine (memForm_setTasks ..).2 (memForm_deviceStore (memForm_deviceStore ?_ _ _ _) _ _ _)
        split
        · split
          · exact (memForm_acquire ..).2 h1
          · exact h1
        · exact h1

theorem formed_execUpcallPost (t : Nat) (h : s.memForm) : Formed (execUpcallPost t s) := by
  unfold execUpcallPost
  rw [formed_next]
  extract_lets ten
  split
  · exact (memForm_wakeRuntime ..).2 ((memForm_setTasks ..).2 (memForm_writeBatch _ _ _ _ _ _ ((memForm_setTenant ..).2 h)))
  · exact h

/-! ### Copy jobs -/

@[simp] theorem memForm_addCard (s : State) (w : Wave) (word lane q : Nat) (j : JobReq) (a b : JobEnd) :
    (s.addCard w word lane q j a b).memForm ↔ s.memForm := by
  unfold State.addCard
  extract_lets c id lines card s1
  split <;> rfl

theorem memForm_jobLane (q word : Nat) (req : Nat → JobReq) (x : Ex) (p : State × List (Nat × Nat × Word) × Bool) (i : Nat) :
    (jobLane q word req x p i).1.memForm ↔ p.1.memForm := by
  unfold jobLane
  extract_lets s w j
  split
  · rfl
  · split
    · split <;> simp [s]
    · exact memForm_addCard ..

theorem memForm_jobLanes (q word : Nat) (req : Nat → JobReq) (x : Ex) : ∀ (l : List Nat) (p : State × List (Nat × Nat × Word) × Bool),
    (l.foldl (jobLane q word req x) p).1.memForm ↔ p.1.memForm
  | [], _ => Iff.rfl
  | i :: l, p => (memForm_jobLanes q word req x l _).trans (memForm_jobLane q word req x p i)

theorem keepsForm_copyBody (q : Nat) (req : Ex → Nat → JobReq) : KeepsForm (copyBody q req) := by
  intro x hx
  unfold copyBody
  extract_lets w r
  have hr : r.1.memForm := (memForm_jobLanes _ _ _ _ x.lanes (x.s, [], false)).2 hx
  refine after_ite hx (after_ite hx ?_)
  show State.memForm (if _ then _ else _)
  split <;> exact hr

/-- What a sector of a job meets keeps the form. -/
def Sector.Formed : Sector → Prop
  | .wait s | .ok s _ => s.memForm
  | .refuse _ _ => True

theorem formed_memSector (c : Ctx) (k : Card) (ma attr va n : Nat) (new : Option (List Byte)) (h : s.memForm) :
    (memSector s c k ma attr va n new).Formed := by
  unfold memSector
  extract_lets la w
  split
  · trivial
  · split
    next e => exact (memForm_homeAccess_wait e).2 h
    next => trivial
    next e => simpa [Sector.Formed, memForm_ite] using memForm_homeAccess h e

theorem formed_remoteSector (stop t vc dev ma va n : Nat) (new : Option (List Byte)) (h : s.memForm) :
    (remoteSector s stop t vc dev ma va n new).Formed := by
  have sent := (memForm_sendFlit s t (stopDie stop) vc (dev :: ma :: (new.getD []).map BitVec.toNat)).2 h
  unfold remoteSector
  split
  next => trivial
  next e =>
    rw [e] at sent
    split
    next => exact h
    next e2 =>
      split
      · trivial
      · exact (memForm_takeStops e2).2 sent

theorem formed_sectorAt (c : Ctx) (k : Card) (e : JobEnd) (up n : Nat) (new : Option (List Byte)) (h : s.memForm) :
    (sectorAt s c k e up n new).Formed := by
  unfold sectorAt
  extract_lets t
  split
  · split
    next => exact h
    next e => exact (memForm_takeStops e).2 h
    next e => exact (memForm_takeStops e).2 h
  · split
    · exact h
    · split
      · exact formed_memSector _ _ _ _ _ _ _ h
      · exact formed_remoteSector _ _ _ _ _ _ _ _ h
      · exact h

theorem formed_moveSector (c : Ctx) (k : Card) {r : Moved} (i : Nat) (h : r.1.Formed) : (moveSector c k r i).1.Formed := by
  unfold moveSector
  split
  next s l e =>
    rw [e] at h
    have hs : s.memForm := h
    have src := formed_sectorAt (s := s) c k k.src (k.sector i).1 32 none hs
    dsimp only
    split
    · exact formed_sectorAt _ _ _ _ _ _ hs
    · split
      next e => rwa [e] at src
      next e => exact src
    · split
      next e =>
        rw [e] at src
        exact formed_sectorAt _ _ _ _ _ _ src
      next e => exact src
    · split
      next e =>
        rw [e] at src
        exact formed_sectorAt _ _ _ _ _ _ src
      next e => exact src
  next => exact h

theorem formed_moveSectors (c : Ctx) (k : Card) : ∀ (l : List Nat) {r : Moved}, r.1.Formed → (l.foldl (moveSector c k) r).1.Formed
  | [], _, h => h
  | i :: l, _, h => formed_moveSectors c k l (formed_moveSector c k i h)

@[simp] theorem memForm_setCard (s : State) (c : Ctx) (k : Card) : (s.setCard c k).memForm ↔ s.memForm := Iff.rfl

@[simp] theorem memForm_passTurn (s : State) (phys : Nat) (whole : Bool) : (s.passTurn phys whole).memForm ↔ s.memForm := Iff.rfl

@[simp] theorem memForm_present (s : State) (launch : Nat) (core : Option Nat) (lines : List Nat) :
    (s.present launch core lines).memForm ↔ s.memForm := by
  unfold State.present
  split <;> rfl

@[simp] theorem memForm_refuseLane (s : State) (c : Ctx) (slot lane cause : Nat) (va : Word) :
    (s.refuseLane c slot lane cause va).memForm ↔ s.memForm := by
  unfold State.refuseLane
  split
  · rfl
  · split <;> rfl

@[simp] theorem memForm_refuseJob (s : State) (c : Ctx) (k : Card) (cause : Nat) (va : Word) :
    (s.refuseJob c k cause va).memForm ↔ s.memForm := by
  unfold State.refuseJob
  simp

theorem memForm_moveUnit (c : Ctx) (k : Card) (u : Nat) (todo : List Nat) (h : s.memForm) : (moveUnit s c k u todo).memForm := by
  unfold moveUnit
  extract_lets r
  have hr : r.1.Formed := by
    unfold r
    split
    · exact formed_sectorAt _ _ _ _ _ _ h
    · exact formed_moveSectors c k _ h
  split
  next => exact h
  next => exact (memForm_refuseJob ..).2 h
  next e =>
    rw [e] at hr
    exact (memForm_present ..).2 hr

theorem formed_execCopyJobQueued (core job : Nat) (h : s.memForm) : Formed (execCopyJobQueued core job s) := by
  unfold execCopyJobQueued
  rw [formed_next]
  split
  · exact h
  · split <;> exact h

theorem formed_execCopyEngineBurst (core job burst : Nat) (h : s.memForm) : Formed (execCopyEngineBurst core job burst s) := by
  unfold execCopyEngineBurst
  rw [formed_next]
  split
  · exact h
  · split
    · exact h
    · split
      · exact (memForm_refuseJob ..).2 h
      · exact memForm_moveUnit _ _ _ _ h

theorem formed_execCopyJobComplete (core job : Nat) (h : s.memForm) : Formed (execCopyJobComplete core job s) := by
  unfold execCopyJobComplete
  rw [formed_next]
  split
  · exact h
  next c k _ =>
    split
    · exact h
    · extract_lets cards s1
      have h1 : s1.memForm := (memForm_present ..).2 h
      split
      · exact h1
      · exact (memForm_endWave ..).2 h1
end
end Sys2Proof.Machine

/-! The canonical form through the binding words, the write clock, the reuse table and the recipes (spec/06, spec/07, spec/09). -/
namespace Sys2Proof.Machine
open Sys2Proof.Safety

section
variable {s : State}

/-! ### Binding words -/

@[simp] theorem memForm_dropTlb (s : State) (t : Nat) (p : Tlb → Bool) : (s.dropTlb t p).memForm ↔ s.memForm := by
  unfold State.dropTlb
  dsimp only
  split <;> rfl

@[simp] theorem memForm_dropFrameTlb (s : State) (t tfn : Nat) : (s.dropFrameTlb t tfn).memForm ↔ s.memForm := by
  unfold State.dropFrameTlb
  extract_lets ten
  split <;> simp

theorem memForm_releasePlace (t : Nat) (k : PlaceKind) (p : Nat) (h : s.memForm) : (s.releasePlace t k p).memForm := by
  unfold State.releasePlace
  split
  · exact (memForm_setTenant ..).2 ((memForm_dropTlb ..).2 h)
  · exact h
  · refine (memForm_setTenant ..).2 ?_
    split
    · split
      · exact memForm_releaseFrame h _
      · exact h
    · exact (memForm_bumpUnits ..).2 h
    · exact (memForm_bumpUnits ..).2 h
    · exact h

@[simp] theorem memForm_retireRequest (s : State) (t : Nat) (r : RevReq) : (s.retireRequest t r).memForm ↔ s.memForm := by
  unfold State.retireRequest
  extract_lets ten t1
  split <;> rfl

@[simp] theorem memForm_loadTlb (s : State) (t : Nat) (e : Tlb) : (s.loadTlb t e).memForm ↔ s.memForm := Iff.rfl

theorem memForm_revack (t reqid p : Nat) (h : s.memForm) : (revack s t reqid p).1.memForm := by
  unfold revack
  extract_lets ten
  split
  · exact h
  next r _ =>
    have released : (s.releasePlace t r.kind p).memForm := memForm_releasePlace _ _ _ h
    split
    · split
      · exact h
      · split
        · exact (memForm_retireRequest ..).2 h
        · exact h
    · iterate 4 (split; · exact h)
      dsimp only
      split
      · exact (memForm_retireRequest ..).2 released
      · exact (memForm_setTenant ..).2 released

/-- A word that writes a status keeps the form where what it does beside does. -/
theorem formed_statusWord {c : Ctl} {u : Use} {d : Nat} {f : Ex → State × Word} (keeps : ∀ x : Ex, x.s.memForm → (f x).1.memForm) (h : s.memForm) :
    Formed (statusWord c u d f s) :=
  formed_word (fun x hx => (memForm_setWave ..).2 (keeps x hx)) h

theorem formed_execTbld (c : Ctl) (d a b e arr way : Nat) (h : s.memForm) : Formed (execTbld c d a b e arr way s) := by
  refine formed_statusWord (fun x hx => ?_) h
  dsimp only
  split
  · exact (memForm_loadTlb ..).2 hx
  · exact hx

theorem formed_execTbinv (c : Ctl) (d a arr : Nat) (all : Bool) (h : s.memForm) : Formed (execTbinv c d a arr all s) :=
  formed_statusWord (fun _ hx => (memForm_dropTlb ..).2 hx) h

theorem formed_execRevack (c : Ctl) (d a b : Nat) (h : s.memForm) : Formed (execRevack c d a b s) := by
  refine formed_statusWord (fun x hx => ?_) h
  split
  · exact hx
  · exact memForm_revack _ _ _ hx

/-! ### Reuse -/

theorem memForm_wrapClocks (h : s.memForm) : s.wrapClocks.memForm := ⟨h.1, cellWf_mapFilter _ h.2⟩

theorem memForm_recordEvent (h : s.memForm) : s.recordEvent.1.memForm := by
  unfold State.recordEvent
  extract_lets s1 v
  have h1 : s1.memForm := by
    unfold s1
    split
    · exact memForm_wrapClocks h
    · exact h
  exact (memForm_setMem s1 _ rfl rfl).2 h1

theorem formed_execWriteClockWrap (h : s.memForm) : Formed (execWriteClockWrap s) := by
  unfold execWriteClockWrap
  rw [formed_next]
  split
  · exact memForm_wrapClocks h
  · exact h

theorem CacheOnly.memForm {s t : State} (h : CacheOnly s t) (hs : s.memForm) : t.memForm := by
  obtain ⟨_, _, rfl⟩ := h
  exact hs

theorem memForm_engineWrite {t : State} {ten va : Nat} {slot : Option Nat} {l : List Byte} (h : s.memForm)
    (e : s.engineWrite ten slot va l = some t) : t.memForm := by
  unfold State.engineWrite at e
  split at e
  · cases e
  · split at e
    · cases e
    · split at e
      · split at e
        next done =>
          cases e
          exact memForm_homeDo h done
        next => cases e
      · cases e

@[simp] theorem memForm_keepDigest (s : State) (d : Digest) : (s.keepDigest d).memForm ↔ s.memForm := Iff.rfl

@[simp] theorem memForm_dropReuse (s : State) (e : Reuse) : (s.dropReuse e).memForm ↔ s.memForm := Iff.rfl

@[simp] theorem memForm_missed (s : State) (uid : Nat) (b : Bool) : (s.missed uid b).memForm ↔ s.memForm := Iff.rfl

@[simp] theorem memForm_completeHit (s : State) (uid : Nat) (e : Reuse) : (s.completeHit uid e).memForm ↔ s.memForm := by
  unfold State.completeHit
  extract_lets l t _ s1
  rw [memForm_endLaunch, memForm_setTenant, memForm_setLaunch]
  show State.memForm (if _ then _ else _) ↔ _
  split <;> rfl

@[simp] theorem memForm_search (s : State) (uid key : Nat) : (s.search uid key).memForm ↔ s.memForm := by
  unfold State.search
  extract_lets _ l s0 t
  have h0 : s0.memForm ↔ s.memForm := Iff.rfl
  split
  · simp [h0]
  · simp [memForm_ite, h0]

theorem memForm_digestOn (uid : Nat) : ∀ (l : List Nat) (s : State) (found : List Nat), (digestOn uid l s found).memForm ↔ s.memForm
  | [], s, found => by
    unfold digestOn
    exact memForm_search ..
  | i :: rest, s, found => by
    unfold digestOn
    extract_lets l
    split
    · rw [memForm_digestOn uid rest, memForm_keepDigest]
    · rfl

theorem formed_execReuseLookup (uid : Nat) (h : s.memForm) : Formed (execReuseLookup uid s) := by
  unfold execReuseLookup
  rw [formed_next]
  extract_lets l
  split
  · exact h
  · split
    · exact (memForm_setLaunch ..).2 (memForm_recordEvent h)
    · split
      · exact (memForm_setLaunch ..).2 h
      · split
        · exact (memForm_endLaunch ..).2 ((memForm_setLaunch ..).2 h)
        · dsimp only
          split
          · exact (memForm_missed ..).2 ((memForm_setLaunch ..).2 h)
          · split
            · exact (memForm_missed ..).2 ((memForm_setLaunch ..).2 h)
            · exact (memForm_digestOn ..).2 ((memForm_setLaunch ..).2 h)

theorem formed_execDigestCacheFill (uid region : Nat) (h : s.memForm) : Formed (execDigestCacheFill uid region s) := by
  unfold execDigestCacheFill
  rw [formed_next]
  extract_lets l
  split
  · split
    · exact h
    · dsimp only
      split
      next => exact (memForm_missed ..).2 (memForm_recordEvent h)
      next e => exact (memForm_digestOn ..).2 ((memForm_keepDigest ..).2 ((streamRegion_cacheOnly _ _ e).memForm (memForm_recordEvent h)))
  · exact h

/-- What a hit copy leaves, wherever it ends. -/
def HitCopy.after : HitCopy → State
  | .ok s | .badSource s | .badDest s => s

theorem memForm_hitCopy (t : Nat) (slot : Option Nat) (stamps : List Nat) : ∀ (n a b : Nat) {s : State}, s.memForm →
    (hitCopy t slot stamps n a b s).after.memForm
  | 0, _, _, _, h => h
  | n + 1, a, b, s, h => by
    unfold hitCopy
    split
    · exact h
    · split
      next => exact h
      next read =>
        have h1 := (engineRead_cacheOnly read).memForm h
        split
        next => exact h1
        next written => exact memForm_hitCopy t slot stamps n _ _ (memForm_engineWrite h1 written)

theorem memForm_hitCopies (t : Nat) (slot : Option Nat) (stamps : List Nat) : ∀ (l : List (Nat × Nat × Nat)) {s : State}, s.memForm →
    (hitCopies t slot stamps l s).after.memForm
  | [], _, h => h
  | (a, b, n) :: rest, s, h => by
    unfold hitCopies
    split
    · exact memForm_hitCopies t slot stamps rest h
    · have copied := memForm_hitCopy t slot stamps (n / 32) a b h
      split
      next e =>
        rw [e] at copied
        exact memForm_hitCopies t slot stamps rest copied
      next => exact copied

theorem formed_execReuseHitCopyDone (uid : Nat) (h : s.memForm) : Formed (execReuseHitCopyDone uid s) := by
  unfold execReuseHitCopyDone
  rw [formed_next]
  extract_lets l
  split
  next todo _ =>
    split
    · exact (memForm_missed ..).2 h
    next e _ =>
      have copied := memForm_hitCopies l.tenant l.slotHeld e.stamps
        ((todo.zip (l.outs.map Prod.snd)).map (fun p => (p.1.1, p.1.2, p.2))) h
      split
      next e => rw [e] at copied; exact (memForm_completeHit ..).2 copied
      next e => rw [e] at copied; exact (memForm_missed ..).2 ((memForm_dropReuse ..).2 copied)
      next e => rw [e] at copied; exact (memForm_missed ..).2 copied
  next => exact h

theorem memForm_reuseInsert (uid : Nat) (h : s.memForm) : (s.reuseInsert uid).memForm := by
  unfold State.reuseInsert
  extract_lets l t
  split
  · exact h
  · split
    · exact h
    · exact (memForm_setTenant ..).2 ((memForm_setReuse ..).2 (memForm_recordEvent h))

/-! ### Admission -/

theorem memForm_watchWindow (t : Nat) (h : s.memForm) : (s.watchWindow t).memForm := by
  unfold State.watchWindow
  extract_lets k
  split
  · exact h
  · split
    · exact h
    · exact (memForm_settleEligible _).2 (memForm_deviceStore ((memForm_setTenant ..).2 ((memForm_queueLaunch ..).2 h)) _ _ _)

theorem formed_execReadyWordStore (t slot : Nat) (value : Word) (h : s.memForm) : Formed (execReadyWordStore t slot value s) := by
  unfold execReadyWordStore
  rw [formed_next]
  extract_lets ma
  split
  · exact h
  · split
    · exact h
    · exact memForm_watchWindow _ ((memForm_setDev ..).2 ((memForm_setWatch ..).2 ((memForm_setTags ..).2
        (memForm_homeWrite ((memForm_l2Access_iff ..).2 h) none _ _))))

theorem formed_execPendingSlotQueued (t : Nat) (h : s.memForm) : Formed (execPendingSlotQueued t s) :=
  formed_next.2 (memForm_watchWindow t h)

theorem formed_execKeyUnsealDone (slot : Nat) (h : s.memForm) : Formed (execKeyUnsealDone slot s) := by
  unfold execKeyUnsealDone
  rw [formed_next]
  extract_lets v failed
  split
  · exact h
  · split
    next x m _ =>
      extract_lets s1 s2
      have h2 : s2.memForm := (memForm_foldl_iff s1 (fun t uid => memForm_holdKey t slot uid) _).2 h
      split
      · exact (memForm_retireKey ..).2 h2
      · exact h2
    next =>
      have hf : failed.memForm := (memForm_endLaunch ..).2 h
      exact (memForm_grantFree _).2 ((memForm_foldl_iff failed memForm_keyTake _).2 hf)

theorem formed_execKeywaitTimeout (uid : Nat) (h : s.memForm) : Formed (execKeywaitTimeout uid s) := by
  unfold execKeywaitTimeout
  rw [formed_next]
  extract_lets l
  split
  · split
    · exact (memForm_endLaunch ..).2 h
    · exact h
  · exact h

@[simp] theorem memForm_releaseCtx (s : State) (c : Ctx) : (s.releaseCtx c).memForm ↔ s.memForm := Iff.rfl

/-! ### Register granules and recipes -/

theorem formed_execAcqx (c : Ctl) (d n : Nat) (h : s.memForm) : Formed (execAcqx c d n s) := by
  refine formed_word (fun x hx => ?_) h
  extract_lets w put
  have hput : ∀ t v r, t.memForm → (put t v r).after.memForm := fun _ _ _ ht => ht
  split
  · exact hput _ _ _ hx
  · refine after_ite (hput _ _ _ ((memForm_dropWait ..).2 hx)) (after_ite (hput _ _ _ ((memForm_dropWait ..).2 hx)) ?_)
    exact (memForm_queueWait ..).2 hx

theorem formed_execRelx (c : Ctl) (d n : Nat) (h : s.memForm) : Formed (execRelx c d n s) :=
  formed_word (fun _ hx => (memForm_setWave ..).2 ((memForm_dropLatch ..).2 hx)) h

theorem formed_execRcpdef (c : Ctl) (d a id idx : Nat) (h : s.memForm) : Formed (execRcpdef c d a id idx s) := by
  refine formed_word (fun x hx => ?_) h
  extract_lets va w stray s0 read r k s1
  have h0 : s0.memForm := memForm_noted _ hx hx
  refine after_ite ((memForm_impure ..).2 hx) ?_
  clear_value read
  split
  · exact after_ite h0 h0
  · have h1 : s1.memForm := by
      unfold s1
      split <;> exact h0
    exact h1

theorem formed_execRcptag (c : Ctl) (d id : Nat) (h : s.memForm) : Formed (execRcptag c d id s) := by
  refine formed_word (fun x hx => ?_) h
  dsimp only
  split
  · exact hx
  · exact after_ite hx hx

@[simp] theorem memForm_serveWait (s : State) (core uid : Nat) : (s.serveWait core uid).memForm ↔ s.memForm := by
  unfold State.serveWait
  split
  · rfl
  · split
    · rfl
    · split
      · rfl
      · split
        · rfl
        · exact memForm_dropWait ..

@[simp] theorem memForm_failRemat (s : State) (core uid : Nat) (w : Wave) : (s.failRemat core uid w).memForm ↔ s.memForm := by
  unfold State.failRemat
  extract_lets reg lanes
  split
  · exact memForm_trapped ..
  · exact memForm_dropWait ..

theorem formed_execAcqxResolve (core l : Nat) (h : s.memForm) : Formed (execAcqxResolve core l s) := by
  unfold execAcqxResolve
  rw [formed_next]
  split
  · exact h
  · split
    · exact (memForm_serveWait ..).2 h
    · split
      · exact h
      · split
        · exact (memForm_dropWait ..).2 h
        · split
          · exact (memForm_failRemat ..).2 h
          · exact h
end
end Sys2Proof.Machine

/-! The canonical form through matrix, barrier and channel words, and through what an access or a hang ends with (spec/16 to spec/19). -/
namespace Sys2Proof.Machine
open Sys2Proof.Safety

section
variable {s : State}

/-! ### Words with a random draw -/

theorem after_done {r : Done} (h : s.memForm) : (Out.done s r).after.memForm := h

theorem keepsForm_rBody (d : Nat) (r : Rnd) (f : Ex → Nat → VRes) : KeepsForm (rBody d r f) := by
  intro x hx
  have lanes := keepsForm_laneBody (fun x i => let r := f x i; { vw := [(d, r.val)], fl := r.fl }) x hx
  unfold rBody
  split
  next e =>
    unfold fBody at e
    rw [e] at lanes
    refine after_done ?_
    split <;> exact lanes
  next e => exact (e _ _ rfl).elim

/-! ### Matrix words -/

theorem after_setS {x : Ex} {t : State} (d : Nat) (v : Word) (h : t.memForm) : (setS x t d v).after.memForm := h

theorem after_faultAll {x : Ex} (cause : Nat) (addr : Word) (h : x.s.memForm) : (faultAll x cause addr).after.memForm := h

theorem formed_execObres (c : Ctl) (d a : Nat) (h : s.memForm) : Formed (execObres c d a s) := by
  refine formed_word (fun x hx => ?_) h
  extract_lets desc k rid
  refine after_ite hx (after_ite hx ?_)
  split <;> exact hx

theorem formed_execObrel (c : Ctl) (d a : Nat) (h : s.memForm) : Formed (execObrel c d a s) :=
  formed_word (fun _ hx => after_ite hx (after_ite hx (after_setS _ _ ((memForm_bumpUnits ..).2 ((memForm_setCtx ..).2 hx))))) h

theorem formed_execAcca (c : Ctl) (d a b : Nat) (h : s.memForm) : Formed (execAcca c d a b s) := by
  refine formed_word (fun x hx => ?_) h
  dsimp only
  refine after_ite hx ?_
  split
  · exact hx
  · exact after_setS _ _ ((memForm_setCtx ..).2 hx)

theorem formed_execAccf (c : Ctl) (d a : Nat) (h : s.memForm) : Formed (execAccf c d a s) :=
  formed_word (fun _ hx => after_ite hx (after_ite hx (after_setS _ _ ((memForm_bumpUnits ..).2 ((memForm_setCtx ..).2 hx))))) h

@[simp] theorem memForm_addTile (s : State) (w : Wave) (word lane : Nat) (t : Tile) : (s.addTile w word lane t).memForm ↔ s.memForm := by
  unfold State.addTile
  extract_lets c id s1
  split
  · exact memForm_impure ..
  · rfl

theorem after_tileWord {x : Ex} {absent : Bool} {lanes : List (Nat × Except (Nat × Word) Tile)} (h : x.s.memForm) :
    (tileWord x absent lanes).after.memForm := by
  unfold tileWord
  extract_lets w ok bad s1
  have h1 : s1.memForm := (memForm_foldl_iff _ (fun t p => memForm_addTile t w w.nextOp p.1 p.2) ok).2 ((memForm_setWave ..).2 h)
  exact after_ite h (after_ite h (after_ite h h1))

theorem formed_execAccz (c : Ctl) (a b : Nat) (h : s.memForm) : Formed (execAccz c a b s) := by
  refine formed_word (fun x hx => ?_) h
  dsimp only
  split
  · exact hx
  · exact after_ite hx (after_ite hx (after_tileWord hx))

theorem formed_execObld (c : Ctl) (a b : Nat) (h : s.memForm) : Formed (execObld c a b s) :=
  formed_word (fun _ hx => after_tileWord hx) h

theorem after_blockWord {x : Ex} {a : Nat} {f : Nat → Word → List Word → Except (Nat × Word) Tile} (h : x.s.memForm) :
    (blockWord x a f).after.memForm := after_tileWord h

theorem formed_execAccrd (c : Ctl) (d a : Nat) (h : s.memForm) : Formed (execAccrd c d a s) :=
  formed_word (fun _ hx => after_ite hx (after_ite hx (after_done (memForm_startOp.2 hx)))) h

theorem formed_execAccwr (c : Ctl) (d a : Nat) (h : s.memForm) : Formed (execAccwr c d a s) :=
  formed_word (fun _ hx => after_ite hx (after_ite hx (after_done (memForm_startOp.2 hx)))) h

theorem formed_execDrain (c : Ctl) (a : Nat) (h : s.memForm) : Formed (execDrain c a s) := by
  refine formed_word (fun x hx => ?_) h
  have block := after_blockWord (a := a) (f := fun _ va l => drainLane x va l) hx
  dsimp only
  split
  next e => rwa [e] at block
  next e =>
    rw [e] at block
    refine after_done ?_
    split
    · refine (memForm_impure ..).2 ?_
      split <;> exact block
    · split <;> exact block

/-! ### Tile operations -/

theorem formed_drainWrite (c : Ctx) (t : TileOp) (w : Wave) (slot : Option Nat) (e : JobEnd) (up : Nat) (l : List Byte) (h : s.memForm) :
    (drainWrite c t w slot s e up l).Formed := by
  unfold drainWrite
  extract_lets la
  split
  · split
    next => exact h
    next e => exact (memForm_takeStops e).2 h
  · split
    · exact h
    · split
      · split
        next e => exact (memForm_homeAccess_wait e).2 h
        next => trivial
        next e =>
          have h1 := memForm_homeAccess h e
          show State.memForm (if _ then _ else _)
          split <;> exact h1
      · exact formed_remoteSector _ _ _ _ _ _ _ _ h
      · exact h

theorem memForm_drainSend (c : Ctx) (t : TileOp) (w : Wave) (slot : Option Nat) : ∀ (l : List (JobEnd × Nat × List Byte)) {s : State},
    s.memForm → (drainSend c t w slot l s).1.memForm
  | [], _, h => h
  | x :: l, s, h => by
    have stored := formed_drainWrite c t w slot x.1 x.2.1 x.2.2 h
    unfold drainSend
    split
    next e => rwa [e] at stored
    next => exact h
    next e =>
      rw [e] at stored
      exact memForm_drainSend c t w slot l stored

theorem memForm_drainRows (c : Ctx) (t : TileOp) (w : Wave) (b : DrainBlock) (slot : Option Nat) (dst sdst : JobEnd) (draw : Nat → Nat) :
    ∀ (n r k : Nat) {s : State} (fl : Flags), s.memForm → (drainRows c t w b slot dst sdst draw n r k s fl).s.memForm
  | 0, _, _, _, _, h => h
  | n + 1, r, k, s, fl, h => by
    unfold drainRows
    split
    · exact h
    next al _ =>
      dsimp only
      have sent := memForm_drainSend c t w slot ((drainStores b dst sdst r (drainRow b (fun i => draw (r * b.cols + i))
        ((List.range b.cols).map (fun j => al.elem (b.row0 + r) (b.col0 + j))))).drop k) h
      split
      next e => rwa [e] at sent
      next e => rwa [e] at sent
      next e =>
        rw [e] at sent
        refine memForm_drainRows c t w b slot dst sdst draw n (r + 1) 0 _ ?_
        split <;> exact sent

theorem memForm_doTile (c : Ctx) (t : TileOp) (h : s.memForm) : (s.doTile c t).s.memForm := by
  unfold State.doTile
  split
  · exact (memForm_foldl_iff s (fun _ _ => memForm_setCtx ..) _).2 h
  · split <;> exact h
  · dsimp only
    split <;> exact h
  · dsimp only
    have rows := fun (b : DrainBlock) (w : Wave) (slot : Option Nat) (dst sdst : JobEnd) (draw : Nat → Nat) (n r k : Nat) (fl : Flags) =>
      memForm_drainRows c t w b slot dst sdst draw n r k fl h
    split
    · split
      · exact rows ..
      · exact rows ..
    · exact rows ..

@[simp] theorem memForm_endTile (s : State) (c : Ctx) (t : TileOp) (fl : Flags) : (s.endTile c t fl).memForm ↔ s.memForm := by
  unfold State.endTile
  extract_lets k tiles s1
  split
  · rfl
  · exact memForm_endWave ..

@[simp] theorem memForm_setTile (s : State) (c : Ctx) (t : TileOp) : (s.setTile c t).memForm ↔ s.memForm := Iff.rfl

theorem formed_execTileOpComplete (core op : Nat) (h : s.memForm) : Formed (execTileOpComplete core op s) := by
  unfold execTileOpComplete
  rw [formed_next]
  split
  · exact h
  next c t _ =>
    have done : (s.doTile c t).s.memForm := memForm_doTile c t h
    split
    · exact h
    · dsimp only
      split
      · exact (memForm_endTile ..).2 done
      · exact (memForm_endTile ..).2 ((memForm_refuseLane ..).2 done)
      · exact done

theorem formed_execSpmetaFault (core op : Nat) (h : s.memForm) : Formed (execSpmetaFault core op s) := by
  unfold execSpmetaFault
  rw [formed_next]
  split
  · exact h
  · split
    · exact h
    · exact (memForm_endTile ..).2 ((memForm_refuseLane ..).2 h)

/-! ### Barriers, groups and channels -/

theorem memForm_takeArrival {t : State} {w : Wave} {r : GroupRec} (e : takeArrival s w r = some t) : t.memForm ↔ s.memForm := by
  unfold takeArrival at e
  split at e
  · cases e
    rfl
  · split at e
    · cases e
      exact memForm_consume ..
    · cases e

theorem keepsForm_arriveBody (g : Nat) (wait : Bool) : KeepsForm (arriveBody g wait) := by
  intro x hx
  unfold arriveBody
  extract_lets w
  split
  · exact hx
  next r _ =>
    split
    next => exact hx
    next s1 e =>
      have h1 : s1.memForm := (memForm_takeArrival e).2 hx
      extract_lets w1 s2
      split
      next e2 => exact (memForm_releaseSide e2).2 h1
      next =>
        have h2 : s2.memForm := (memForm_arrive ..).2 h1
        refine after_done ?_
        split <;> exact h2

theorem formed_execBarw (c : Ctl) (g : Nat) (h : s.memForm) : Formed (execBarw c g s) := by
  refine formed_word (fun x hx => ?_) h
  split
  · exact hx
  · split
    next => exact hx
    next e => exact (memForm_takeArrival e).2 hx

@[simp] theorem memForm_passBar (s : State) (w : Wave) : (s.passBar w).memForm ↔ s.memForm := by
  unfold State.passBar
  split
  · rfl
  · split
    · rfl
    · split
      · rfl
      · split
        · exact memForm_consume ..
        · rfl

theorem formed_execGrpq (c : Ctl) (d a : Nat) (h : s.memForm) : Formed (execGrpq c d a s) :=
  formed_word (fun _ hx => after_ite hx (after_done (memForm_startOp.2 hx))) h

theorem formed_execChsend (c : Ctl) (ch a : Nat) (h : s.memForm) : Formed (execChsend c ch a s) := by
  refine formed_word (fun x hx => ?_) h
  dsimp only
  split
  · exact hx
  · split
    · exact hx
    · refine after_ite hx ?_
      split
      next e => exact (memForm_releaseSide e).2 hx
      next => exact hx

theorem formed_execChrecv (c : Ctl) (d ch : Nat) (h : s.memForm) : Formed (execChrecv c d ch s) := by
  refine formed_word (fun x hx => ?_) h
  dsimp only
  split
  · exact hx
  · split
    · exact hx
    · split
      · exact hx
      · exact (memForm_acquire ..).2 hx

theorem formed_execChq (c : Ctl) (d ch item : Nat) (h : s.memForm) : Formed (execChq c d ch item s) :=
  formed_word (fun _ hx => after_ite hx (after_done (memForm_startOp.2 hx))) h

theorem formed_execPref (c : Ctl) (a : Nat) (off : Int) (ev : Evict) (h : s.memForm) : Formed (execPref c a off ev s) :=
  formed_word (fun x hx => (memForm_foldl_iff x.s (fun _ _ => memForm_prefetch ..) _).2 hx) h

theorem formed_execCinv (c : Ctl) (a : Nat) (off : Int) (h : s.memForm) : Formed (execCinv c a off s) :=
  formed_word (fun x hx => (memForm_foldl_iff x.s (fun _ _ => memForm_l1DropLines ..) _).2 hx) h

theorem formed_execPqry (c : Ctl) (d a : Nat) (h : s.memForm) : Formed (execPqry c d a s) :=
  formed_word (fun _ hx => after_ite hx (after_ite hx (after_done (memForm_startOp.2 hx)))) h

theorem formed_execFence (c : Ctl) (o : Ord) (sc : Scope) (h : s.memForm) : Formed (execFence c o sc s) := by
  refine formed_word (fun x hx => ?_) h
  dsimp only
  split
  next e => exact (memForm_releaseSide e).2 hx
  next => exact (memForm_acquire ..).2 hx

theorem formed_execPhint (c : Ctl) (imm : Nat) (h : s.memForm) : Formed (execPhint c imm s) :=
  formed_word (fun _ hx => after_ite ((memForm_dropLatch ..).2 hx) hx) h

/-! ### What completes -/

theorem memForm_performEvent (core slot op : Nat) (part : Option Nat) (l1 : Bool) (kind : MemOp → Bool) (h : s.memForm) :
    (s.performEvent core slot op part l1 kind).memForm := by
  unfold State.performEvent
  split
  · exact h
  · split
    · exact (memForm_endWave ..).2 (memForm_performOp _ _ _ _ _ h)
    · exact h

@[simp] theorem memForm_takeRefusals (s : State) (core slot : Nat) (p : Nat → Bool) : (s.takeRefusals core slot p).memForm ↔ s.memForm := by
  unfold State.takeRefusals
  split <;> rfl

theorem formed_execLinkRefusal (core slot : Nat) (h : s.memForm) : Formed (execLinkRefusal core slot s) := by
  unfold execLinkRefusal
  rw [formed_next]
  split
  · exact h
  · exact (memForm_endWave ..).2 ((memForm_takeRefusals ..).2 h)

theorem formed_execTrapTaken (core slot : Nat) (h : s.memForm) : Formed (execTrapTaken core slot s) := by
  unfold execTrapTaken
  rw [formed_next]
  split
  · exact h
  next w _ =>
    have passed : (s.passBar w).memForm := (memForm_passBar ..).2 h
    dsimp only
    split
    · exact passed
    · split
      · exact (memForm_takeTrap ..).2 passed
      · exact passed

theorem formed_execHangDetect (core slot : Nat) (h : s.memForm) : Formed (execHangDetect core slot s) := by
  unfold execHangDetect
  rw [formed_next]
  split
  · exact h
  · dsimp only
    split
    · exact h
    · split <;> exact h

theorem formed_execSleepTimeout (core slot : Nat) (h : s.memForm) : Formed (execSleepTimeout core slot s) := by
  unfold execSleepTimeout
  rw [formed_next]
  split
  · exact h
  · split <;> exact h

theorem formed_execFenceMarkerAck (core slot : Nat) (p : Path) (h : s.memForm) : Formed (execFenceMarkerAck core slot p s) := by
  unfold execFenceMarkerAck
  rw [formed_next]
  split
  · exact h
  · split <;> exact h
end
end Sys2Proof.Machine

/-! The canonical form through refills, retirement, the host's accesses, Bishop's services and stops (spec/14, spec/21, spec/22). -/
namespace Sys2Proof.Machine
open Sys2Proof.Safety

section
variable {s : State}

/-! ### The network and the link -/

theorem memForm_refillAt (kind die : Nat) {f : Nat → MemSys} (hb : ∀ n, (f n).bytes = s.mem.bytes) (hf : ∀ n, (f n).frames = s.mem.frames)
    (h : s.memForm) : (s.refillAt kind die f).memForm := by
  unfold State.refillAt
  split
  · exact h
  · exact (memForm_tryPrefs _).2 ((memForm_setMem s _ (hb _) (hf _)).2 h)

theorem formed_execSliceTokenRefill (die : Nat) (h : s.memForm) : Formed (execSliceTokenRefill die s) :=
  formed_next.2 (memForm_refillAt 0 die (fun _ => rfl) (fun _ => rfl) h)

theorem formed_execNetTokenRefill (die : Nat) (h : s.memForm) : Formed (execNetTokenRefill die s) :=
  formed_next.2 (memForm_refillAt 1 die (fun _ => rfl) (fun _ => rfl) h)

theorem formed_execControlBudgetRefill (die : Nat) (h : s.memForm) : Formed (execControlBudgetRefill die s) :=
  formed_next.2 (memForm_refillAt 2 die (fun _ => rfl) (fun _ => rfl) h)

theorem formed_execLinkFlitReplay (die tag : Nat) (h : s.memForm) : Formed (execLinkFlitReplay die tag s) := formed_next.2 h

theorem formed_execRemoteOwnershipUpdate (die idx : Nat) (e : RotEntry) (h : s.memForm) : Formed (execRemoteOwnershipUpdate die idx e s) := by
  unfold execRemoteOwnershipUpdate
  rw [formed_next]
  split <;> exact h

theorem formed_execWaymaskChange (die t : Nat) (mask : BitVec 16) (slbw netbw : BitVec 8) (netwt : BitVec 32) (h : s.memForm) :
    Formed (execWaymaskChange die t mask slbw netbw netwt s) := by
  unfold execWaymaskChange
  rw [formed_next]
  split <;> exact h

theorem formed_execRemoteAccessAtTarget (dev t ma : Nat) (req : RemoteReq) (h : s.memForm) :
    Formed (execRemoteAccessAtTarget dev t ma req s) := by
  unfold execRemoteAccessAtTarget
  rw [formed_next]
  split
  · exact h
  · split
    next e =>
      exfalso
      simp only [State.homeDo] at e
      split at e
      · cases e
      · split at e
        · cases e
        · split at e <;> cases e
    next => exact h
    next e => exact (memForm_setDev ..).2 (memForm_homeDo h e)

/-! ### Retirement -/

theorem memForm_releaseCores (uid : Nat) (h : s.memForm) : (s.releaseCores uid).memForm := by
  unfold State.releaseCores
  extract_lets l s0 s1 _ s2 s3
  have h0 : s0.memForm := (memForm_foldl_iff s memForm_releaseCtx _).2 h
  have h1 : s1.memForm := (memForm_foldl_iff s0 (fun _ _ => memForm_dropLatch ..) _).2 h0
  have h3 : s3.memForm := h1
  split
  · exact h3
  · exact memForm_foldl (fun u i hu => memForm_releaseFrame hu _) _ h3

@[simp] theorem memForm_complete (s : State) (uid : Nat) (e : EndInfo) : (s.complete uid e).memForm ↔ s.memForm := Iff.rfl

@[simp] theorem memForm_killed (s : State) (uid : Nat) (kill : Bool) : (s.killed uid kill).memForm ↔ s.memForm := by
  unfold State.killed
  split
  · exact memForm_endLaunch ..
  · rfl

theorem formed_execLaunchRetire (uid : Nat) (kill : Bool) (h : s.memForm) : Formed (execLaunchRetire uid kill s) := by
  unfold execLaunchRetire
  rw [formed_next]
  extract_lets k l
  have hk : k.memForm := (memForm_killed ..).2 h
  split
  · split
    · exact hk
    · dsimp only
      refine (memForm_settleEligible _).2 ((memForm_setLaunch ..).2 ?_)
      split <;> exact (memForm_releaseKey ..).2 ((memForm_dropKeyWait ..).2 (memForm_reuseInsert _ (memForm_releaseCores _ hk)))
  · exact hk

theorem memForm_writeRecord (base size prod : Nat) (l : List Word) (h : s.memForm) : (s.writeRecord base size prod l).memForm :=
  memForm_deviceStore (memForm_deviceStore h _ _ _) _ _ _

@[simp] theorem memForm_signal (s : State) (t v : Nat) : (s.signal t v).memForm ↔ s.memForm := Iff.rfl
@[simp] theorem memForm_signal0 (s : State) (t : Nat) : (s.signal0 t).memForm ↔ s.memForm := Iff.rfl

theorem formed_execCompletionRecordWrite (t : Nat) (h : s.memForm) : Formed (execCompletionRecordWrite t s) := by
  unfold execCompletionRecordWrite
  rw [formed_next]
  extract_lets k
  split
  · exact h
  · split
    · exact h
    · extract_lets s1 _ s2
      have h2 : s2.memForm := (memForm_setTenant ..).2 (memForm_writeRecord _ _ _ _ h)
      split <;> exact h2

theorem formed_execEventRecordWrite (t : Nat) (h : s.memForm) : Formed (execEventRecordWrite t s) := by
  unfold execEventRecordWrite
  rw [formed_next]
  extract_lets k
  split
  · exact h
  · split
    · exact h
    · exact (memForm_signal ..).2 ((memForm_setTenant ..).2 (memForm_writeRecord _ _ _ _ h))

theorem formed_execCompletionInterruptTimer (t : Nat) (h : s.memForm) : Formed (execCompletionInterruptTimer t s) := by
  unfold execCompletionInterruptTimer
  rw [formed_next]
  extract_lets k
  split <;> exact h

@[simp] theorem memForm_setPage (s : State) (k : Tenant) : (s.setPage k).memForm ↔ s.memForm := by
  unfold State.setPage
  split
  · rfl
  · split <;> rfl

@[simp] theorem memForm_countDue (s : State) (t : Nat) : (s.countDue t).memForm ↔ s.memForm := by
  unfold State.countDue
  extract_lets k
  split <;> rfl

theorem memForm_resetSlots (t : Nat) (h : s.memForm) : (s.resetSlots t).memForm :=
  (memForm_setTasks ..).2 (memForm_foldl (fun _ _ hu => memForm_deviceStore hu _ _ _) _ h)

theorem formed_execFunctionLevelReset (t : Nat) (h : s.memForm) : Formed (execFunctionLevelReset t s) := by
  unfold execFunctionLevelReset
  rw [formed_next]
  split
  · exact (memForm_setPage ..).2 h
  · exact (memForm_setTasks ..).2 (memForm_resetSlots _ ((memForm_foldl_iff _ memForm_dropKeyWait _).2 ((memForm_setTenant ..).2 h)))

/-! ### The host's accesses -/

@[simp] theorem memForm_hostAnswer (s : State) (r : HostResp) : (s.hostAnswer r).memForm ↔ s.memForm := Iff.rfl

@[simp] theorem memForm_hostReplies (s : State) (ma n : Nat) : (s.hostReplies ma n).memForm ↔ s.memForm :=
  memForm_foldl_iff s (fun _ _ => memForm_answer ..) _

theorem formed_execCxlMemRead (ma : Nat) (h : s.memForm) : Formed (execCxlMemRead ma s) := by
  unfold execCxlMemRead
  rw [formed_next]
  split
  · exact (memForm_hostAnswer ..).2 ((memForm_l2Access_iff ..).2 h)
  · exact h

theorem memForm_clearWatch (s : State) (ma n : Nat) : (s.clearWatch ma n).memForm ↔ s.memForm := by
  obtain ⟨_, e⟩ := s.clearWatch_eq ma n
  rw [e]
  rfl

theorem formed_execCxlMemWrite (ma : Nat) (data : List Byte) (h : s.memForm) : Formed (execCxlMemWrite ma data s) := by
  unfold execCxlMemWrite
  rw [formed_next]
  split
  · exact (memForm_hostAnswer ..).2 ((memForm_hostReplies ..).2 ((memForm_clearWatch ..).2 ((memForm_setTags ..).2
      (memForm_homeWrite ((memForm_l2Access_iff ..).2 h) none _ _))))
  · exact h

@[simp] theorem memForm_hostEventFree (s : State) (t kind : Nat) : (s.hostEventFree t kind).memForm ↔ s.memForm :=
  memForm_hostEvent ..

theorem formed_execMemoryError (ma : Nat) (corrected : Bool) (h : s.memForm) : Formed (execMemoryError ma corrected s) := by
  unfold execMemoryError
  rw [formed_next]
  extract_lets t
  split
  · exact (memForm_hostEventFree ..).2 h
  · exact h

theorem memForm_shareFrame (mfn : Nat) (b : Bool) (h : s.memForm) : (s.shareFrame mfn b).memForm := by
  unfold State.shareFrame
  extract_lets f s1
  have h1 : s1.memForm := memForm_setFrame h _ _
  split
  · exact memForm_setFrame h1 _ _
  · exact h1

theorem memForm_shareRings (t : Nat) (h : s.memForm) : (s.shareRings t).memForm := by
  unfold State.shareRings
  extract_lets k
  refine memForm_foldl (fun u m hu => ?_) _ h
  split
  · exact memForm_shareFrame _ _ hu
  · exact hu

theorem memForm_flip (t tfn mfn : Nat) (toHost : Bool) (h : s.memForm) : (s.flip t tfn mfn toHost).memForm :=
  (memForm_dropFrameTlb ..).2 ((memForm_l2Frame ..).2 (memForm_setFrame h _ _))

theorem formed_execFrameHandover (t tfn : Nat) (toHost : Bool) (h : s.memForm) : Formed (execFrameHandover t tfn toHost s) := by
  unfold execFrameHandover
  rw [formed_next]
  split
  · exact h
  · extract_lets f
    split
    · exact h
    · split
      · split
        · exact memForm_flip _ _ _ _ h
        · exact h
      · split
        · exact memForm_flip _ _ _ _ h
        · exact h

theorem memForm_class1 (t code a b : Nat) (h : s.memForm) : (s.class1 t code a b).1.memForm := by
  unfold State.class1
  split
  · exact h
  · split
    · split
      · exact memForm_shareFrame _ _ h
      · exact h
    · split
      · split
        · split
          · exact memForm_shareFrame _ _ h
          · exact h
        · exact h
      · split
        · split <;> exact h
        · exact h

theorem memForm_serveEntries (t code ma : Nat) : ∀ (n j : Nat) {s : State}, s.memForm → (serveEntries t code ma n j s).memForm
  | 0, _, _, h => h
  | n + 1, _, _, h => memForm_serveEntries t code ma n _ (memForm_deviceStore (memForm_class1 _ _ _ _ h) _ _ _)

theorem formed_execClass1Service (t slot : Nat) (h : s.memForm) : Formed (execClass1Service t slot s) := by
  unfold execClass1Service
  rw [formed_next]
  split
  · exact h
  · extract_lets ma
    split
    · exact h
    · exact (memForm_answer ..).2 (memForm_deviceStore (memForm_serveEntries _ _ _ _ _ h) _ _ _)

/-- A frame-table entry as the scrubber of a die leaves it (R112). -/
def scrubbed (die : Nat) (p : Nat × Frame) : Frame := if p.1 / 2 ^ 21 = die then { p.2 with incs := 0 } else p.2

theorem formed_execScrubberPass (die : Nat) (h : s.memForm) : Formed (execScrubberPass die s) := by
  have entrywise : (fun p : Nat × Frame => if p.1 / 2 ^ 21 = die then (p.1, { p.2 with incs := 0 }) else p) =
      fun p => (p.1, scrubbed die p) := by
    funext p
    unfold scrubbed
    split <;> rfl
  refine formed_next.2 ⟨h.1, ?_⟩
  show cellWf Frame.free ((s.mem.frames.map (fun p => if p.1 / 2 ^ 21 = die then (p.1, { p.2 with incs := 0 }) else p)).filter
    (fun p => p.2 != Frame.free)) = true
  rw [entrywise]
  exact cellWf_mapFilter _ h.2

/-! ### Stops -/

@[simp] theorem memForm_haltDue (s : State) : s.haltDue.memForm ↔ s.memForm := by
  obtain ⟨_, e⟩ := CoresOnly.haltDue s
  rw [e]
  rfl

@[simp] theorem memForm_stop (s : State) (uid : Nat) (places : List Nat) (forced : Bool) : (s.stop uid places forced).memForm ↔ s.memForm := by
  unfold State.stop
  extract_lets l here left named new
  split
  · rfl
  · split
    · split <;> rfl
    · split
      · rfl
      · split <;> rfl

@[simp] theorem memForm_stopOnCore (s : State) (core : Nat) (p : Launch → Bool) : (s.stopOnCore core p).memForm ↔ s.memForm :=
  memForm_foldl_iff s (fun _ _ => memForm_stop ..) _

theorem formed_execLeaseChange (core t : Nat) (h : s.memForm) : Formed (execLeaseChange core t s) := by
  unfold execLeaseChange
  rw [formed_next]
  extract_lets old _ s1 s2 s3
  have h2 : s2.memForm := (memForm_stopOnCore ..).2 h
  have h3 : s3.memForm := by
    unfold s3
    split
    · exact (memForm_hostEventFree ..).2 h2
    · exact h2
  split
  · exact h
  · split
    · exact (memForm_hostEventFree ..).2 h3
    · exact h3

@[simp] theorem memForm_noteShares (s : State) : s.noteShares.memForm ↔ s.memForm := by
  obtain ⟨_, e⟩ := noteShares_tasks s
  rw [e]
  rfl

theorem formed_execSvcParkTimeout (uid : Nat) (h : s.memForm) : Formed (execSvcParkTimeout uid s) := by
  unfold execSvcParkTimeout
  rw [formed_next]
  extract_lets l
  split
  · exact h
  · exact (memForm_stop ..).2 ((memForm_setLaunch ..).2 h)
end
end Sys2Proof.Machine

/-! The canonical form through revocation, saves and restores, binding changes, migration and attestation (spec/07, spec/23, spec/24). -/
namespace Sys2Proof.Machine
open Sys2Proof.Safety

section
variable {s : State}

/-! ### Revocation and the abort engine -/

theorem memForm_markRevoking (t : Nat) (k : PlaceKind) (p : Nat) (h : s.memForm) : (s.markRevoking t k p).memForm := by
  unfold State.markRevoking
  extract_lets ten s1
  have h1 : s1.memForm := h
  split
  · split
    · exact memForm_setFrame h1 _ _
    · exact h1
  · exact h1

theorem formed_execRevocationPost (t : Nat) (k : PlaceKind) (count : Nat) (target : Option Nat) (deadline reqid : Nat) (h : s.memForm) :
    Formed (execRevocationPost t k count target deadline reqid s) := by
  unfold execRevocationPost
  rw [formed_next]
  extract_lets ten words phase s1 _ s2 s3
  have h1 : s1.memForm := by
    unfold s1
    split
    · exact memForm_deviceStore (memForm_deviceStore h _ _ _) _ _ _
    · exact h
  have h2 : s2.memForm := (memForm_setTenant ..).2 h1
  have h3 : s3.memForm := by
    unfold s3
    split
    · exact memForm_markRevoking _ _ _ h2
    · split <;> exact h2
  split
  · exact h
  · exact (memForm_wakeRuntime ..).2 ((memForm_upcall ..).2 ((memForm_takeSeq ..).2 h3))

theorem memForm_repoWrite (t : Nat) : ∀ (n off : Nat) (l : List Byte) {s : State}, s.memForm → (repoWrite t n off l s).memForm
  | 0, _, _, _, h => h
  | n + 1, off, l, s, h => by
    unfold repoWrite
    extract_lets ten s1
    refine memForm_repoWrite t n _ _ ?_
    unfold s1
    split
    · exact memForm_deviceStore h _ _ _
    · exact h

theorem memForm_repossess {u : State} {t : Nat} {l : List Byte} (h : s.memForm) (e : s.repossess t l = some u) : u.memForm := by
  unfold State.repossess at e
  extract_lets ten s1 at e
  split at e
  · cases e
  · cases e
    exact (memForm_setTenant ..).2 (memForm_repoWrite _ _ _ _ h)

theorem memForm_noteLoss (t : Nat) (k : PlaceKind) (place len off : Nat) (nosave : Bool) (h : s.memForm) :
    (s.noteLoss t k place len off nosave).memForm := by
  unfold State.noteLoss
  extract_lets ten t1 v s1
  split
  · exact h
  · refine (memForm_takeSeq _).2 ((memForm_setTenant ..).2 ?_)
    unfold s1
    split
    · exact memForm_deviceStore (memForm_deviceStore h _ _ _) _ _ _
    · exact h

theorem memForm_seize (t : Nat) (k : PlaceKind) (p : Nat) (h : s.memForm) : (s.seize t k p).memForm := by
  have dropped : ∀ u : State, u.memForm →
      (match k with
        | .frame => (u.dropFrameTlb t p).releasePlace t k p
        | _ => u.releasePlace t k p).memForm := by
    intro u hu
    split
    · exact memForm_releasePlace _ _ _ ((memForm_dropFrameTlb ..).2 hu)
    · exact memForm_releasePlace _ _ _ hu
  unfold State.seize
  dsimp only
  split
  · exact memForm_noteLoss _ _ _ _ _ _ (dropped _ h)
  · exact memForm_noteLoss _ _ _ _ _ _ (dropped _ h)
  · split
    next e => exact memForm_noteLoss _ _ _ _ _ _ (dropped _ (memForm_repossess h e))
    · exact memForm_noteLoss _ _ _ _ _ _ (dropped _ h)

@[simp] theorem memForm_awaitUnit (s : State) (uid : Nat) (k : PlaceKind) (p : Nat) : (s.awaitUnit uid k p).memForm ↔ s.memForm := by
  unfold State.awaitUnit
  extract_lets l
  split <;> rfl

theorem formed_execAbortEngineSeize (t reqid : Nat) (h : s.memForm) : Formed (execAbortEngineSeize t reqid s) := by
  unfold execAbortEngineSeize
  rw [formed_next]
  extract_lets ten
  split
  · exact h
  next r _ =>
    extract_lets n ps users
    split
    · exact h
    · split
      · split
        · exact (memForm_retireRequest ..).2 h
        · exact (memForm_retireRequest ..).2 (memForm_noteLoss _ _ _ _ _ _ h)
      · split
        · refine (memForm_foldl_iff s ?_ _).2 h
          exact fun u x => (memForm_awaitUnit ..).trans (memForm_stop ..)
        · exact (memForm_retireRequest ..).2 (memForm_foldl (fun _ _ hu => memForm_seize _ _ _ hu) _ h)

theorem formed_execGraceExpiry (uid : Nat) (h : s.memForm) : Formed (execGraceExpiry uid s) := formed_next.2 h

/-! ### Castle -/

theorem memForm_saveStore (l : Launch) (ma : Nat) (b : List Byte) (h : s.memForm) : (s.saveStore l ma b).memForm :=
  memForm_foldl (fun _ _ hu => memForm_stampFrame hu _) _ (memForm_writeMem h _ _)

@[simp] theorem memForm_unload (s : State) (uid place core : Nat) : (s.unload uid place core).memForm ↔ s.memForm := by
  unfold State.unload
  extract_lets s0 s1
  have h1 : s1.memForm ↔ s.memForm := memForm_foldl_iff _ (fun _ _ => memForm_dropLatch ..) _
  exact h1

theorem formed_execCastleSave (uid place : Nat) (h : s.memForm) : Formed (execCastleSave uid place s) := by
  unfold execCastleSave
  rw [formed_next]
  extract_lets l
  split
  · exact h
  · extract_lets i s1 s2
    have h2 : s2.memForm := (memForm_unload ..).2 (memForm_saveStore _ _ _ h)
    split
    · exact h
    · split
      · exact memForm_saveStore _ _ _ h2
      · exact h2

theorem formed_execCastleRestore (uid place : Nat) (slots : List Nat) (h : s.memForm) : Formed (execCastleRestore uid place slots s) := by
  unfold execCastleRestore
  rw [formed_next]
  extract_lets l
  split
  · split
    · exact h
    · split
      · exact h
      · exact (memForm_acquire ..).2 h
  · exact h

/-! ### Tenants -/

theorem formed_execTenantBind (t : Nat) (a : BindArgs) (h : s.memForm) : Formed (execTenantBind t a s) := by
  unfold execTenantBind
  rw [formed_next]
  split <;> exact h

theorem formed_execTenantSuspend (t : Nat) (h : s.memForm) : Formed (execTenantSuspend t s) := by
  unfold execTenantSuspend
  rw [formed_next]
  dsimp only
  split <;> exact h

theorem formed_execTenantResume (t : Nat) (h : s.memForm) : Formed (execTenantResume t s) := by
  unfold execTenantResume
  rw [formed_next]
  dsimp only
  split <;> exact h

theorem memForm_logBinding (t kind place old new : Nat) (colour : Bool) (h : s.memForm) : (s.logBinding t kind place old new colour).memForm := by
  unfold State.logBinding
  extract_lets k v s1
  refine (memForm_takeSeq _).2 ((memForm_setTenant ..).2 ?_)
  unfold s1
  split
  · exact memForm_deviceStore h _ _ _
  · exact h

theorem memForm_bindFrame (t mfn : Nat) (prot : Option Nat) (h : s.memForm) : (s.bindFrame t mfn prot).memForm := by
  unfold State.bindFrame
  extract_lets _ u
  have hu : u.memForm := memForm_stampFrame (memForm_setFrame h _ _) _
  split
  · exact memForm_setFrame hu _ _
  · exact hu

theorem memForm_moveFrame (t old new : Nat) (h : s.memForm) : (s.moveFrame t old new).memForm :=
  memForm_releaseFrame (memForm_writeMem (memForm_setFrame (memForm_bindFrame _ _ _ h) _ _) _ _) _

@[simp] theorem memForm_refreshTlb (s : State) (t : Nat) : (s.refreshTlb t).memForm ↔ s.memForm := Iff.rfl

theorem memForm_repoint (t : Nat) (e : PlaceEntry) (phys : Nat) (h : s.memForm) : (s.repoint t e phys).memForm := by
  unfold State.repoint
  extract_lets s1 t1 s2
  refine memForm_logBinding _ _ _ _ _ _ ((memForm_refreshTlb ..).2 ((memForm_setTenant ..).2 ?_))
  unfold s1
  split
  · exact memForm_moveFrame _ _ _ h
  all_goals exact h

theorem memForm_bindUnit {u : State} {t p phys : Nat} {k : PlaceKind} {prot : Option Nat} (h : s.memForm)
    (e : s.bindUnit t k p phys prot = some u) : u.memForm := by
  unfold State.bindUnit at e
  extract_lets ten s1 t1 banks at e
  split at e
  · cases e
  · split at e
    · split at e
      · cases e
      · cases e
        refine memForm_logBinding _ _ _ _ _ _ ((memForm_setTenant ..).2 ?_)
        unfold s1
        split
        · exact memForm_bindFrame _ _ _ h
        · exact h
    · split at e
      · cases e
      · cases e
        exact memForm_foldl (fun _ _ hu => memForm_repoint _ _ _ hu) _ (memForm_repoint _ _ _ h)

theorem memForm_bindWhole {u : State} {t p phys : Nat} {k : PlaceKind} {prot : Option Nat} (h : s.memForm)
    (e : s.bindWhole t k p phys prot = some u) : u.memForm :=
  memForm_bindUnit h (Option.eq_some_of_filter_eq_some e)

theorem memForm_bindGrant {u : State} {t arr base n : Nat} (h : s.memForm) (e : s.bindGrant t arr base n = some u) : u.memForm := by
  unfold State.bindGrant at e
  extract_lets ten old s1 t1 s2 was at e
  have h1 : s1.memForm := by
    unfold s1
    split
    · exact h
    · exact (memForm_dropTlb ..).2 h
  split at e
  · cases e
  · cases e
    exact memForm_foldl (fun _ _ hu => memForm_logBinding _ _ _ _ _ _ hu) _ ((memForm_refreshTlb ..).2 ((memForm_setTenant ..).2 h1))

theorem memForm_getD {o : Option State} (h : s.memForm) (ho : ∀ u, o = some u → u.memForm) : (o.getD s).memForm := by
  cases o with
  | none => exact h
  | some u => exact ho u rfl

theorem formed_execBindingChange (t : Nat) (k : PlaceKind) (place phys : Nat) (prot : Option Nat) (h : s.memForm) :
    Formed (execBindingChange t k place phys prot s) := by
  unfold execBindingChange
  rw [formed_next]
  extract_lets ten
  split
  · exact h
  · split
    · exact memForm_getD h (fun _ => memForm_bindGrant h)
    · split
      · exact memForm_logBinding _ _ _ _ _ _ h
      · exact h
    · exact memForm_getD h (fun _ => memForm_bindWhole h)

theorem formed_execDirtyHarvest (t : Nat) (h : s.memForm) : Formed (execDirtyHarvest t s) := by
  unfold execDirtyHarvest
  rw [formed_next]
  split
  · exact h
  · exact (memForm_setDev ..).2 ((memForm_setTenant ..).2 (memForm_recordEvent h))

@[simp] theorem memForm_dropCarried (s : State) (t : Nat) : (s.dropCarried t).memForm ↔ s.memForm := Iff.rfl

theorem memForm_elsewhere (t : Nat) (x : MigrationTarget) (h : s.memForm) : (s.elsewhere t x).memForm :=
  ⟨cellWf_filter _ h.1, cellWf_filter _ h.2⟩

theorem memForm_migrationStart {u : State} {t : Nat} {device : Option MigrationTarget} (h : s.memForm)
    (e : s.migrationStart t device = some u) : u.memForm := by
  unfold State.migrationStart at e
  split at e
  · cases e
    exact (memForm_dropCarried ..).2 h
  · split at e
    · cases e
    · cases e
      exact memForm_elsewhere _ _ h

theorem memForm_remap {u : State} {t p phys : Nat} {k : PlaceKind} (h : s.memForm) (e : s.remap t k p phys = some u) : u.memForm := by
  unfold State.remap at e
  split at e
  · split at e
    · exact memForm_bindGrant h e
    · cases e
  · split at e
    · cases e
    · exact memForm_bindUnit h e

theorem memForm_remapAll {t : Nat} : ∀ {l : List (PlaceKind × Nat × Nat)} {s u : State}, s.memForm → remapAll t l s = some u → u.memForm
  | [], _, _, h, e => by cases e; exact h
  | _ :: _, _, _, h, e => by
    obtain ⟨_, e1, e2⟩ := Option.bind_eq_some_iff.1 e
    exact memForm_remapAll (memForm_remap h e1) e2

theorem formed_execTenantMigrate (t : Nat) (l : List (PlaceKind × Nat × Nat)) (device : Option MigrationTarget) (h : s.memForm) :
    Formed (execTenantMigrate t l device s) := by
  unfold execTenantMigrate
  rw [formed_next]
  split
  · exact h
  · split
    · exact h
    next e =>
      obtain ⟨_, e1, e2⟩ := Option.bind_eq_some_iff.1 (Option.eq_some_of_filter_eq_some e)
      exact (memForm_setTenant ..).2 (memForm_remapAll (memForm_migrationStart h e1) e2)

/-! ### Certificates and challenges -/

theorem formed_execCertCommit (c len : Nat) (body : List Byte) (h : s.memForm) : Formed (execCertCommit c len body s) := by
  unfold execCertCommit
  rw [formed_next]
  dsimp only
  split <;> exact h

@[simp] theorem memForm_startChallenge (s : State) (t : Nat) : (s.startChallenge t).memForm ↔ s.memForm := by
  unfold State.startChallenge
  extract_lets k
  split
  · rfl
  · split
    · exact memForm_setPage ..
    · rfl

theorem formed_execChallengeStart (t : Nat) (h : s.memForm) : Formed (execChallengeStart t s) := by
  unfold execChallengeStart
  rw [formed_next]
  split
  · exact h
  · exact (memForm_startChallenge ..).2 h

theorem formed_execVfRegisterWrite (t : Nat) (r : VfReg) (v : Word) (h : s.memForm) : Formed (execVfRegisterWrite t r v s) := by
  have written : ∀ k : Tenant, (s.setPage k).memForm := fun k => (memForm_setPage s k).2 h
  have shared : ∀ k : Tenant, (if s.bound t then (s.setPage k).shareRings t else s.setPage k).memForm := by
    intro k
    split
    · exact memForm_shareRings _ (written k)
    · exact written k
  unfold execVfRegisterWrite
  rw [formed_next]
  split
  · exact h
  · split
    · exact (memForm_startChallenge ..).2 h
    · exact written _
  · exact (memForm_countDue ..).2 (written _)
  · exact shared _
  · exact shared _
  · exact shared _
  · exact shared _
  · exact written _

theorem formed_execChallengeDone (t : Nat) (h : s.memForm) : Formed (execChallengeDone t s) := by
  unfold execChallengeDone
  rw [formed_next]
  extract_lets k l
  iterate 4 (split; · exact h)
  exact (memForm_setTenant ..).2 ((memForm_takeSeq _).2 (memForm_deviceStore h _ _ _))
end
end Sys2Proof.Machine

/-! The canonical form through control and pair words, fetching, power and admission (spec/05, spec/08, spec/13, spec/27). -/
namespace Sys2Proof.Machine
open Sys2Proof.Safety

section
variable {s : State}

/-! ### Control words -/

theorem after_branchTo {x : Ex} (l : List (Nat × CodeAddr)) (h : x.s.memForm) : (branchTo x l).after.memForm := h

theorem formed_execRcv (c : Ctl) (h : s.memForm) : Formed (execRcv c s) :=
  formed_word (fun _ hx => after_ite hx hx) h

theorem formed_execWait (c : Ctl) (ld st cp tl : Nat) (h : s.memForm) : Formed (execWait c ld st cp tl s) :=
  formed_word (fun _ hx => after_ite hx hx) h

theorem formed_execSleep (c : Ctl) (n : Nat) (h : s.memForm) : Formed (execSleep c n s) :=
  formed_word (fun _ hx => after_ite hx (after_ite hx hx)) h

theorem formed_execMfs (c : Ctl) (d : VS) (n : Spec) (h : s.memForm) : Formed (execMfs c d n s) := by
  cases d with
  | v r => exact formed_word (keepsForm_laneBody _) h
  | s r => exact formed_word (keepsForm_waveBody _) h

@[simp] theorem memForm_stewardWrite (s : State) (w : Wave) (n : Spec) (v : Word) : (stewardWrite s w n v).memForm ↔ s.memForm := by
  unfold stewardWrite
  split <;> rfl

@[simp] theorem memForm_writeSpec (s : State) (w : Wave) (n : Spec) (v : Word) : (writeSpec s w n v).memForm ↔ s.memForm := by
  unfold writeSpec
  split
  case h_8 => split <;> rfl
  case h_10 =>
    split
    · exact memForm_stewardWrite ..
    · rfl
  all_goals rfl

theorem keepsForm_mtsBody (n : Spec) (val : Ex → Nat → Word) : KeepsForm (mtsBody n val) := by
  intro x hx
  unfold mtsBody
  split
  · exact hx
  · exact after_ite hx hx
  · exact after_ite hx hx
  · exact (memForm_writeSpec ..).2 hx

theorem formed_execMts (c : Ctl) (a : VS) (n : Spec) (h : s.memForm) : Formed (execMts c a n s) := by
  cases a with
  | v r => exact formed_word (keepsForm_mtsBody n _) h
  | s r => exact formed_word (keepsForm_mtsBody n _) h

theorem formed_execTrap (c : Ctl) (code : Nat) (h : s.memForm) : Formed (execTrap c code s) :=
  formed_word (fun _ hx => after_faultAll _ _ hx) h

theorem formed_execBkpt (c : Ctl) (code : Nat) (h : s.memForm) : Formed (execBkpt c code s) :=
  formed_word (fun _ hx => after_ite (after_faultAll _ _ hx) hx) h

theorem formed_execRte (c : Ctl) (a : Nat) (h : s.memForm) : Formed (execRte c a s) := by
  refine formed_word (fun x hx => ?_) h
  dsimp only
  split
  · exact after_faultAll _ _ hx
  · exact after_ite ((memForm_hostEvent ..).2 ((memForm_trapped ..).2 hx)) hx

/-! ### Words on bindings and the reuse table -/

theorem formed_execLossack (c : Ctl) (d a : Nat) (h : s.memForm) : Formed (execLossack c d a s) :=
  formed_statusWord (fun _ hx => hx) h

theorem formed_execRtinv (c : Ctl) (d a b : Nat) (h : s.memForm) : Formed (execRtinv c d a b s) :=
  formed_word (fun _ hx => hx) h

/-! ### Stage rings -/

theorem formed_execSrarv (c : Ctl) (ring a : Nat) (h : s.memForm) : Formed (execSrarv c ring a s) :=
  formed_word (fun _ hx => after_ite (after_faultAll _ _ hx) (after_ite hx hx)) h

theorem formed_execSrwt (c : Ctl) (ring a : Nat) (ph : Bool) (h : s.memForm) : Formed (execSrwt c ring a ph s) :=
  formed_word (fun _ hx => after_ite (after_faultAll _ _ hx) (after_ite hx ((memForm_acquire ..).2 hx))) h

/-! ### Pair words and words that are none -/

theorem keepsForm_pairBody (h0 h1 : Half) : KeepsForm (pairBody h0 h1) := fun _ h => h

theorem memForm_issuePair (ill : Bool) (h0 h1 : Half) (c : Ctl) (w : Wave) (pc : CodeAddr) (h : s.memForm) :
    (issuePair ill h0 h1 c s w pc).memForm := by
  unfold issuePair
  extract_lets active g q _ u lanes t
  have ht : t.memForm := (memForm_fetched ..).2 h
  have tried := memForm_attempt (u := u) (w := w) (pc := pc) (active := active) (lanes := lanes) (hnd := false)
    (keepsForm_pairBody h0 h1) ht
  split
  next => simpa using h
  next => simpa using ht
  next e => simpa [e, Att.after, Out.after] using tried
  next e => simpa [e, Att.after, Out.after] using tried

theorem formed_pairStep (ill : Bool) (h0 h1 : Half) (stall1 : Bool) (h : s.memForm) : Formed (pairStep ill h0 h1 stall1 s) := by
  unfold pairStep
  dsimp only
  rw [formed_next]
  split
  · exact h
  · split
    · split
      · exact h
      · exact memForm_handlerWord (keepsForm_pairBody h0 h1) _ h
    · split
      · exact h
      · exact memForm_issuePair _ _ _ _ _ _ h

theorem formed_execReservedEncoding (x : Word) (h : s.memForm) : Formed (execReservedEncoding x s) := by
  unfold execReservedEncoding
  split
  · exact formed_next.2 h
  · dsimp only
    split
    · exact formed_pairStep _ _ _ _ h
    · exact formed_word (fun _ hx => hx) h

theorem formed_execInstructionFetchFault (k : FetchCause) (h : s.memForm) : Formed (execInstructionFetchFault k s) := by
  unfold execInstructionFetchFault
  rw [formed_next]
  split
  · exact h
  · split
    · exact h
    · split
      · exact h
      · split
        · exact h
        · split
          · exact (memForm_trapped ..).2 h
          · exact (memForm_turnedAway ..).2 ((memForm_dropWait ..).2 h)

/-! ### Fetching -/

theorem memForm_fetchGoes_ok {t : State} {w : Wave} {pc : CodeAddr} (h : s.memForm) (e : s.fetchGoes w pc = .ok t) : t.memForm := by
  unfold State.fetchGoes at e
  split at e
  · exact (memForm_request_ok e).2 h
  · split at e
    · split at e
      next e1 =>
        cases e
        exact (memForm_sendFlit ..).2 ((memForm_takeStops e1).2 h)
      · cases e
    · cases e
      exact h

theorem memForm_fetchGoes_error {t : State} {w : Wave} {pc : CodeAddr} (h : s.memForm) (e : s.fetchGoes w pc = .error t) : t.memForm := by
  unfold State.fetchGoes at e
  split at e
  · exact (memForm_request_error e).2 h
  · split at e
    · split at e
      · cases e
      · cases e
        exact h
    · cases e

/-! ### Power -/

@[simp] theorem memForm_setReady (s : State) (i : Nat) (v : Word) : (s.setReady i v).memForm ↔ s.memForm := Iff.rfl

theorem memForm_eventAll (s : State) (p : Tenant → Bool) {f : State → Nat → State} (hf : ∀ u t, (f u t).memForm ↔ u.memForm) :
    (s.eventAll p f).memForm ↔ s.memForm := memForm_foldl_iff s hf _

theorem memForm_fresh (s : State) : s.fresh.memForm := reset_memForm

@[simp] theorem memForm_fail (s : State) (i : Nat) : (s.fail i).memForm ↔ s.memForm :=
  (memForm_eventAll _ _ (fun _ _ => memForm_hostEvent ..)).trans (memForm_setReady ..)

theorem formed_execPowerOn (img : BootImage) (h : s.memForm) : Formed (execPowerOn img s) := by
  unfold execPowerOn
  rw [formed_next]
  split
  · exact h
  · have h0 : s.fresh.memForm := memForm_fresh s
    generalize s.fresh = s0 at h0 ⊢
    exact (memForm_foldl_iff _ memForm_fail _).2 h0

theorem formed_execFunctionReady (i count : Nat) (h : s.memForm) : Formed (execFunctionReady i count s) := by
  unfold execFunctionReady
  rw [formed_next]
  extract_lets started
  split
  · exact h
  · split
    · exact (memForm_fail ..).2 h
    · exact (memForm_setReady ..).2 h

theorem formed_execFunctionFail (i : Nat) (h : s.memForm) : Formed (execFunctionFail i s) := by
  unfold execFunctionFail
  rw [formed_next]
  split
  · exact h
  · extract_lets s1
    have h1 : s1.memForm := (memForm_fail ..).2 h
    split
    · exact (memForm_eventAll _ _ (fun _ _ => memForm_hostEventFree ..)).2 h1
    · exact h1

theorem formed_execThermalStep (die : Nat) (up : Bool) (h : s.memForm) : Formed (execThermalStep die up s) := by
  unfold execThermalStep
  rw [formed_next]
  extract_lets c
  split
  · exact h
  · exact (memForm_eventAll _ _ (fun _ _ => memForm_hostEventFree ..)).2 h

theorem formed_execThermalStop (die : Nat) (h : s.memForm) : Formed (execThermalStop die s) := by
  unfold execThermalStop
  rw [formed_next]
  extract_lets here s1
  have h1 : s1.memForm := (memForm_foldl_iff s (fun _ _ => memForm_stop ..) _).2 h
  split
  · exact h1
  · exact (memForm_fail ..).2 ((memForm_eventAll _ _ (fun _ _ => memForm_hostEventFree ..)).2 h1)

theorem formed_execPowerOff (s : State) : Formed (execPowerOff s) := formed_next.2 (memForm_fresh s)

/-! ### Admission -/

@[simp] theorem memForm_dispatchWaves (s : State) (l : Launch) (slots : List Nat) : (s.dispatchWaves l slots).memForm ↔ s.memForm := by
  unfold State.dispatchWaves
  extract_lets here ctxs _ s1
  have h1 : s1.memForm ↔ s.memForm := Iff.rfl
  exact (memForm_foldl_iff s1 (fun _ _ => memForm_l1DropLines ..) _).trans h1

theorem formed_execLaunchAdmitted (uid : Nat) (slots : List Nat) (save : Nat) (h : s.memForm) : Formed (execLaunchAdmitted uid slots save s) := by
  unfold execLaunchAdmitted
  rw [formed_next]
  extract_lets l
  split
  · exact h
  · split
    · split
      · exact h
      · split
        · exact (memForm_endLaunch ..).2 h
        · exact h
    · split
      · exact (memForm_dispatchWaves ..).2 h
      · exact h

theorem formed_execReservationTimeout (uid : Nat) (h : s.memForm) : Formed (execReservationTimeout uid s) := by
  unfold execReservationTimeout
  rw [formed_next]
  extract_lets l lim
  split <;> exact h
end
end Sys2Proof.Machine

/-! Every step keeps the canonical form of memory and of the frame table (spec/07 R111, R113): each arm of the dispatch, then what moves next. -/
namespace Sys2Proof.Machine
open Sys2Proof.Safety

section
variable {s : State}

/-! ### What an instruction or an event does -/

/-- Every word and every event: a word by what its effect keeps, an event by its own lemma. -/
theorem formed_exec (i : Instr) (h : s.memForm) : Formed (exec i s) := by
  cases i
  case nop | bra | call | brau | exit | yield => exact formed_word (fun _ hx => hx) h
  case brx | ret => exact formed_word (fun _ hx => after_branchTo _ hx) h
  case rcv => exact formed_execRcv _ h
  case wait => exact formed_execWait _ _ _ _ _ h
  case sleep => exact formed_execSleep _ _ h
  case phint => exact formed_execPhint _ _ h
  case mfs => exact formed_execMfs _ _ _ h
  case mts => exact formed_execMts _ _ _ h
  case launch => exact formed_execLaunch _ _ _ h
  case trap => exact formed_execTrap _ _ h
  case svc => exact formed_execSvc _ _ _ _ _ h
  case svcrep => exact formed_execSvcrep _ _ _ _ h
  case rte => exact formed_execRte _ _ h
  case bkpt => exact formed_execBkpt _ _ h
  case acqx => exact formed_execAcqx _ _ _ h
  case relx => exact formed_execRelx _ _ _ h
  case rcpdef => exact formed_execRcpdef _ _ _ _ _ h
  case rcptag => exact formed_execRcptag _ _ _ h
  case vote | elect | perfrd | mov | movi | movk | sel | iadd | isub | imul | imulh | imad | imin | imax | iabs | ineg | and | or | xor | not |
      shl | shr | sar | rot | bfx | bfi | popc | clz | brev | lea | isetp | iaddi | idot | plop | lshf | lbcast | lred | lscan | lperm | fsetp |
      fclass | fmin | fmax | frnd | frcp | frsq | fsqrt | fexp2 | fexp2Fs | flog2 | fsin | fcos | ftanh =>
    exact formed_word (keepsForm_laneBody _) h
  case rcpclr | rcpq | rdlane | wrlane | smov | smovi | smovk | sadd | ssub | smul | smad | sand | sor | sxor | sshl | sshr | ssar | ssetq |
      smin | smax | rtq =>
    exact formed_word (keepsForm_waveBody _) h
  case rand | fadd | fsub | fmul | ffma | fcvt | i2f | f2i | fdot | fscale => exact formed_word (keepsForm_rBody _ _ _) h
  case ldg | stg | ldp | stp | ldk | atom | atomp | red | hgath => exact formed_word (fun _ hx => after_accessWord hx) h
  case pref => exact formed_execPref _ _ _ _ h
  case cinv => exact formed_execCinv _ _ _ h
  case pqry => exact formed_execPqry _ _ _ h
  case fence c o sc => exact formed_execFence c o sc h
  case tbld => exact formed_execTbld _ _ _ _ _ _ _ h
  case tbrd | frq | bndq => exact formed_statusWord (fun _ hx => hx) h
  case tbinv => exact formed_execTbinv _ _ _ _ _ h
  case revack => exact formed_execRevack _ _ _ _ h
  case lossack => exact formed_execLossack _ _ _ h
  case rtinv => exact formed_execRtinv _ _ _ _ h
  case cpy | cpyx | cpym | cpyd => exact formed_word (keepsForm_copyBody _ _) h
  case srarv => exact formed_execSrarv _ _ _ h
  case srwt => exact formed_execSrwt _ _ _ _ h
  case obres => exact formed_execObres _ _ _ h
  case obrel => exact formed_execObrel _ _ _ h
  case obld => exact formed_execObld _ _ _ h
  case acca => exact formed_execAcca _ _ _ _ h
  case accf => exact formed_execAccf _ _ _ h
  case accz => exact formed_execAccz _ _ _ h
  case mma | mmas => exact formed_word (fun _ hx => after_blockWord hx) h
  case accrd => exact formed_execAccrd _ _ _ h
  case accwr => exact formed_execAccwr _ _ _ h
  case drain => exact formed_execDrain _ _ h
  case bar | bara => exact formed_word (keepsForm_arriveBody _ _) h
  case barw => exact formed_execBarw _ _ h
  case grpq => exact formed_execGrpq _ _ _ h
  case chsend => exact formed_execChsend _ _ _ h
  case chrecv => exact formed_execChrecv _ _ _ h
  case chq => exact formed_execChq _ _ _ _ h
  case pairWord => exact formed_pairStep _ _ _ _ h
  case readyWordStore => exact formed_execReadyWordStore _ _ _ h
  case pendingSlotQueued => exact formed_execPendingSlotQueued _ h
  case keyUnsealDone => exact formed_execKeyUnsealDone _ h
  case keywaitTimeout => exact formed_execKeywaitTimeout _ h
  case reuseLookup => exact formed_execReuseLookup _ h
  case digestCacheFill => exact formed_execDigestCacheFill _ _ h
  case reuseHitCopyDone => exact formed_execReuseHitCopyDone _ h
  case launchAdmitted => exact formed_execLaunchAdmitted _ _ _ h
  case reservationTimeout => exact formed_execReservationTimeout _ h
  case launchRetire => exact formed_execLaunchRetire _ _ h
  case completionRecordWrite => exact formed_execCompletionRecordWrite _ h
  case eventRecordWrite => exact formed_execEventRecordWrite _ h
  case completionInterruptTimer => exact formed_execCompletionInterruptTimer _ h
  case vfRegisterWrite => exact formed_execVfRegisterWrite _ _ _ h
  case functionLevelReset => exact formed_execFunctionLevelReset _ h
  case cxlMemRead => exact formed_execCxlMemRead _ h
  case cxlMemWrite => exact formed_execCxlMemWrite _ _ h
  case serviceBatchComplete => exact formed_execServiceBatchComplete _ _ _ h
  case class1Service => exact formed_execClass1Service _ _ h
  case upcallPost => exact formed_execUpcallPost _ h
  case trapTaken => exact formed_execTrapTaken _ _ h
  case homeSliceRefusal => exact formed_next.2 ((memForm_takeRefusals ..).2 h)
  case linkRefusal => exact formed_execLinkRefusal _ _ h
  case loadComplete | storeAccepted | atomicPerformed | sliceRetry => exact formed_next.2 (memForm_performEvent _ _ _ _ _ _ h)
  case copyJobQueued => exact formed_execCopyJobQueued _ _ h
  case copyEngineBurst => exact formed_execCopyEngineBurst _ _ _ h
  case copyJobComplete => exact formed_execCopyJobComplete _ _ h
  case tileOpComplete => exact formed_execTileOpComplete _ _ h
  case spmetaFault => exact formed_execSpmetaFault _ _ h
  case acqxResolve => exact formed_execAcqxResolve _ _ h
  case granuleWaitServed => exact formed_next.2 ((memForm_serveWait ..).2 h)
  case hangDetect => exact formed_execHangDetect _ _ h
  case sleepTimeout => exact formed_execSleepTimeout _ _ h
  case fenceMarkerAck => exact formed_execFenceMarkerAck _ _ _ h
  case sliceTokenRefill => exact formed_execSliceTokenRefill _ h
  case netTokenRefill => exact formed_execNetTokenRefill _ h
  case controlBudgetRefill => exact formed_execControlBudgetRefill _ h
  case linkFlitReplay => exact formed_execLinkFlitReplay _ _ h
  case remoteOwnershipUpdate => exact formed_execRemoteOwnershipUpdate _ _ _ h
  case waymaskChange => exact formed_execWaymaskChange _ _ _ _ _ _ h
  case scrubberPass => exact formed_execScrubberPass _ h
  case writeClockWrap => exact formed_execWriteClockWrap h
  case revocationPost => exact formed_execRevocationPost _ _ _ _ _ _ h
  case abortEngineSeize => exact formed_execAbortEngineSeize _ _ h
  case frameHandover => exact formed_execFrameHandover _ _ _ h
  case leaseChange => exact formed_execLeaseChange _ _ h
  case stopRequest => exact formed_next.2 ((memForm_stop ..).2 h)
  case graceExpiry => exact formed_execGraceExpiry _ h
  case svcParkTimeout => exact formed_execSvcParkTimeout _ h
  case castleSave => exact formed_execCastleSave _ _ h
  case castleRestore => exact formed_execCastleRestore _ _ _ h
  case tenantSuspend => exact formed_execTenantSuspend _ h
  case bindingChange => exact formed_execBindingChange _ _ _ _ _ h
  case dirtyHarvest => exact formed_execDirtyHarvest _ h
  case tenantMigrate => exact formed_execTenantMigrate _ _ _ h
  case certCommit => exact formed_execCertCommit _ _ _ h
  case challengeStart => exact formed_execChallengeStart _ h
  case challengeDone => exact formed_execChallengeDone _ h
  case powerOn => exact formed_execPowerOn _ h
  case functionReady => exact formed_execFunctionReady _ _ h
  case functionFail => exact formed_execFunctionFail _ h
  case thermalStep => exact formed_execThermalStep _ _ h
  case thermalStop => exact formed_execThermalStop _ h
  case reservedEncoding => exact formed_execReservedEncoding _ h
  case instructionFetchFault => exact formed_execInstructionFetchFault _ h
  case memoryError => exact formed_execMemoryError _ _ h
  case powerOff => exact formed_execPowerOff s
  case remoteAccessAtTarget => exact formed_execRemoteAccessAtTarget _ _ _ _ h
  case tenantResume => exact formed_execTenantResume _ h
  case tenantBind => exact formed_execTenantBind _ _ h

/-! ### The schedule -/

theorem formed_issueAt (core slot : Nat) (h : s.memForm) : Formed (s.issueAt core slot) := by
  unfold State.issueAt
  split
  · exact formed_next.2 h
  · split
    · exact formed_next.2 h
    · split
      next e => exact formed_next.2 (memForm_fetchGoes_error h e)
      next e => exact formed_exec _ ((memForm_setCtl ..).2 (memForm_fetchFills (memForm_fetchGoes_ok h e) _ _))

theorem memForm_trapIfDue (w : Wave) (h : s.memForm) : (s.trapIfDue w).memForm := by
  unfold State.trapIfDue
  split
  · exact h
  · split
    · exact (memForm_takeTrap ..).2 h
    · split
      · split
        next e =>
          split
          · split
            · exact (memForm_takeTrap ..).2 (formed_issueAt _ _ h _ e)
            · exact h
          · exact h
        · exact h
      · exact h

@[simp] theorem memForm_settleHold (s : State) (core slot : Nat) : (s.settleHold core slot).memForm ↔ s.memForm := by
  unfold State.settleHold
  split
  · rfl
  · split
    · rfl
    · split
      · rfl
      · exact (memForm_setWave ..).trans (memForm_dropWait ..)

theorem memForm_boundary (core slot : Nat) (h : s.memForm) : (s.boundary core slot).memForm := by
  unfold State.boundary
  split
  · exact h
  · split
    · exact h
    · extract_lets s1 s2
      have h1 : s1.memForm := (memForm_passBar ..).2 h
      have h2 : s2.memForm := by
        refine (memForm_settleHold ..).2 ?_
        split
        · exact h1
        · exact (memForm_takeRefusals ..).2 h1
      split
      · exact memForm_trapIfDue _ h2
      · exact h2

theorem memForm_boundaries (core quad : Nat) (h : s.memForm) : (s.boundaries core quad).memForm :=
  memForm_foldl (fun _ _ hu => memForm_boundary _ _ hu) _ h

@[simp] theorem memForm_passOver (before s : State) (w : Wave) : (State.passOver before s w).memForm ↔ s.memForm := by
  unfold State.passOver
  split <;> rfl

theorem formed_choose : ∀ (l : List Wave) {s : State}, s.memForm → Formed (choose l s)
  | [], _, h => formed_next.2 h
  | w :: rest, s, h => by
    have issued := formed_issueAt w.core w.slot h
    unfold choose
    split
    next t e =>
      have ht := issued t e
      split
      · exact formed_next.2 ((memForm_foldl_iff t (fun _ _ => memForm_passOver ..) _).2 ht)
      · exact formed_choose rest ht
    · exact issued

theorem formed_issueQuad (core quad : Nat) (h : s.memForm) : Formed (s.issueQuad core quad) := by
  unfold State.issueQuad
  extract_lets s1
  have h1 : s1.memForm := memForm_boundaries _ _ h
  split
  · exact formed_next.2 h1
  · exact formed_choose _ h1

@[simp] theorem memForm_elapse (s : State) (n : Nat) : (s.elapse n).memForm ↔ s.memForm := by
  rw [elapse_eq n rfl]
  exact (memForm_noteShares _).trans (memForm_haltDue s)

theorem memForm_firstThat (h : s.memForm) : ∀ {l : List Instr} {t : State}, firstThat s l = some t → t.memForm
  | [], _, e => nomatch e
  | i :: l, _, e => by
    unfold firstThat at e
    split at e
    next e1 =>
      split at e
      · exact memForm_firstThat h e
      · cases e
        exact formed_exec i h _ e1
    · exact memForm_firstThat h e

theorem formed_idle (h : s.memForm) : Formed s.idle := by
  have issued := formed_issueQuad s.ctl.focus.core s.ctl.focus.quad h
  unfold State.idle
  extract_lets f
  split
  next t e =>
    have ht := issued t e
    split
    · exact formed_next.2 ht
    · split
      next e1 => exact formed_next.2 (memForm_firstThat ht e1)
      · exact formed_next.2 ((memForm_elapse ..).2 ht)
  · exact issued

theorem formed_move (m : Move) (h : s.memForm) : Formed (s.move m) := by
  cases m with
  | event i =>
    show Formed (if isEvent i then exec i s else .next s)
    split
    · exact formed_exec i h
    · exact formed_next.2 h
  | issue core quad => exact formed_issueQuad core quad h
  | elapse n => exact formed_next.2 ((memForm_elapse ..).2 h)

theorem formed_advance (h : s.memForm) : Formed s.advance := by
  unfold State.advance
  split
  · exact formed_idle h
  · exact formed_move _ h

theorem formed_step (h : s.memForm) : Formed (step s) := by
  unfold step
  split
  · exact fun t e => nomatch e
  · exact formed_advance h
end

/-- Settles O7: the next move keeps the form, an event or a word by its arm (`formed_exec`), a quadrant's issue by what comes before it and
the words it tries, and a passing of cycles because it leaves memory. -/
theorem stepKeepsMemoryForm : Obligations.StepKeepsMemoryForm := by
  unfold Obligations.StepKeepsMemoryForm
  exact fun s t hb hf e => formed_step ⟨hb, hf⟩ t e
end Sys2Proof.Machine

/-! A grant of translation sets given again as it stands (spec/07 R109, R116). -/
namespace Sys2Proof.Machine
open Sys2Proof.Safety

/-- A suspended tenant that holds one set of array 0, its binding-change count past the 64 bits of the counter. -/
def pastCountTenant : Tenant :=
  { Tenant.blank with id := 1, suspended := true, grants := [(0, 1), (0, 0), (0, 0)], bindCount := 2 ^ 64 }

/-- The machine at reset with that tenant alone. -/
def pastCount : State := { State.reset with tasks := { State.reset.tasks with tenants := [pastCountTenant] } }

/-- The grant given again as it stands changes no set place, so no record is written and the count stays. -/
theorem bindCount_regrant : ∃ u, exec (.bindingChange 1 .tset 1 0 none) pastCount = .next u ∧ (u.tenant 1).bindCount = 2 ^ 64 :=
  ⟨_, rfl, rfl⟩

/-- Refutes O59, by its clause on grants: one given again as it stands changes no set place and writes no record, which leaves the count as
it is. In a state whose count stands at 2^64, outside its 64 bits, the clause asks for the count modulo 2^64, which is 0. -/
theorem not_tenantEvents : ¬ Obligations.TenantEvents := by
  unfold Obligations.TenantEvents
  rintro ⟨-, -, -, -, regrant, -⟩
  obtain ⟨u, run, -, -, count, -⟩ := regrant pastCount 1 0 0 1 rfl rfl (by decide) (by decide) rfl
  obtain ⟨v, run', unreduced⟩ := bindCount_regrant
  cases run.symm.trans run'
  rw [unreduced] at count
  exact absurd count (by decide)
end Sys2Proof.Machine

/-! A revocation posted (spec/07 R124, R125): its record, its request, what it does at once, and its upcall. -/
namespace Sys2Proof.Machine
open Sys2Proof.Safety

/-! ### Seven words and a phase -/

/-- Seven words stored at an address, and a phase after them (R124). -/
def State.storeRecord (s : State) (a : Nat) (l : List Word) (phase : Nat) : State :=
  (s.deviceStore a (wordBytes l)).deviceStore (a + 56) (bytesOf 8 phase)

theorem recordAt_of_bytes {u v : State} {a phase : Nat} {l : List Word} (same : ∀ m, v.byte m = u.byte m) (h : RecordAt u a l phase) :
    RecordAt v a l phase := by
  have words : ∀ b, v.readWord b = u.readWord b := fun b => State.readWord_congr (fun k _ => same (b + k))
  exact ⟨fun i hi => (words _).trans (h.1 i hi), (words _).trans h.2⟩

section
variable (s : State) (a phase : Nat) {l : List Word}

theorem storeRecord_mem (l : List Word) : ∃ m, s.storeRecord a l phase = s.setMem m := by
  obtain ⟨m, hm⟩ := deviceStore_mem s a (wordBytes l) none
  obtain ⟨m', hm'⟩ := deviceStore_mem (s.setMem m) (a + 56) (bytesOf 8 phase) none
  exact ⟨m', by rw [State.storeRecord, hm, hm']; rfl⟩

theorem storeRecord_recordAt (hl : l.length = 7) : RecordAt (s.storeRecord a l phase) a l phase := by
  refine ⟨fun i hi => readWord_wordBytes (fun k hk => ?_) (by omega), ?_⟩
  · rw [State.storeRecord, State.byte_deviceStore_out _ _ _ _ (by omega), byte_deviceStore, wordBytes_length, if_pos (by omega),
      Nat.add_sub_cancel_left]
  · have absent : l.getD 7 0 = 0 := by simp [List.getD_eq_getElem?_getD, hl]
    rw [absent, State.storeRecord, State.readWord_deviceStore]
    simp

theorem storeRecord_bytesKept (hl : l.length = 7) : BytesKept s (s.storeRecord a l phase) a 64 := fun m hm => by
  rw [State.storeRecord, State.byte_deviceStore_out _ _ _ _ (by rw [bytesOf_length]; omega),
    State.byte_deviceStore_out _ _ _ _ (by rw [wordBytes_length]; omega)]
end

/-! ### The tenant of a post (R124, R125) -/

/-- A request of a tenant and its count (R124). -/
def Tenant.withRequest (k : Tenant) (r : RevReq) : Tenant := { k with revCount := (k.revCount + 1) % 2 ^ 64, requests := k.requests ++ [r] }

/-- A place of a tenant marked REVOKING (R125). -/
def Tenant.marked (k : Tenant) (j : PlaceKind) (p : Nat) : Tenant :=
  { k with places := updWhere (fun e => e.kind == j && e.place == p) (fun e => { e with revoking := true }) k.places }

/-- What a post does at once beside its record: its target is marked, or a quota that is met changes (R125). -/
def Tenant.afterPost (k : Tenant) (kind : PlaceKind) (target : Option Nat) (held : Nat) : Tenant :=
  match target with
  | some p => k.marked kind p
  | none => if kind == .quota then k.settleQuota held else k

/-- The same in the state. -/
def State.markTarget (s : State) (t : Nat) (k : PlaceKind) (target : Option Nat) : State :=
  match target with
  | some p => s.markRevoking t k p
  | none => if k == .quota then s.setReuse s.tasks.reuse else s

theorem settleQuota_id (k : Tenant) (held : Nat) : (k.settleQuota held).id = k.id := by
  obtain ⟨q, r, h⟩ := settleQuota_eq k held
  rw [h]

theorem afterPost_eq (k : Tenant) (kind : PlaceKind) (target : Option Nat) (held : Nat) :
    ∃ p q r, k.afterPost kind target held = { k with places := p, quota := q, requests := r } := by
  unfold Tenant.afterPost
  split
  · exact ⟨_, k.quota, k.requests, rfl⟩
  · split
    · obtain ⟨q, r, h⟩ := settleQuota_eq k held
      exact ⟨k.places, q, r, h⟩
    · exact ⟨k.places, k.quota, k.requests, rfl⟩

theorem afterPost_requests {k : Tenant} {kind : PlaceKind} (target : Option Nat) (held : Nat) (h : kind ≠ .quota) :
    (k.afterPost kind target held).requests = k.requests := by
  cases target with
  | some p => rfl
  | none => rw [Tenant.afterPost, if_neg (by simpa using h)]

/-- A quota within which the holdings are changes at once (R125). -/
theorem afterPost_quota {k : Tenant} {r : RevReq} {held : Nat} (h : r.metBy held = true) :
    ((k.withRequest r).afterPost .quota none held).quota = r.count := by
  have last : ((k.withRequest r).requests.filter (fun q => q.metBy held)).getLast? = some r := by
    show ((k.requests ++ [r]).filter (fun q => q.metBy held)).getLast? = some r
    rw [List.filter_append, List.filter_singleton, h]
    simp
  show ((k.withRequest r).settleQuota held).quota = r.count
  rw [Tenant.settleQuota, last]

/-- Finding an element where those of the searched kind have been changed and stay of that kind. -/
theorem find?_updWhere {α : Type} {p : α → Bool} {f : α → α} (stays : ∀ x, p x = true → p (f x) = true) :
    ∀ l : List α, (updWhere p f l).find? p = (l.find? p).map f
  | [] => rfl
  | x :: l => by
    have rest := find?_updWhere stays l
    by_cases hx : p x = true
    · simp [updWhere, hx, stays x hx]
    · simpa [updWhere, hx] using rest

theorem place?_marked (k : Tenant) (j : PlaceKind) (p : Nat) :
    (k.marked j p).place? j p = (k.place? j p).map (fun e => { e with revoking := true }) :=
  find?_updWhere (p := fun e : PlaceEntry => e.kind == j && e.place == p) (f := fun e => { e with revoking := true }) (fun _ h => h) k.places

/-- Marking changes frames and tenants alone. -/
theorem markTarget_eq (s : State) (t : Nat) (k : PlaceKind) (target : Option Nat) : ∃ f j, s.markTarget t k target =
    { s with mem := { s.mem with frames := f }, tasks := { s.tasks with tenants := j } } := by
  unfold State.markTarget
  split
  · unfold State.markRevoking
    extract_lets ten s1
    split
    · split
      · exact ⟨_, _, rfl⟩
      · exact ⟨s.mem.frames, _, rfl⟩
    · exact ⟨s.mem.frames, _, rfl⟩
  · split
    · exact ⟨s.mem.frames, _, rfl⟩
    · exact ⟨s.mem.frames, s.tasks.tenants, rfl⟩

/-- The tenants where a place is marked. -/
theorem tenants_markRevoking (s : State) (t : Nat) (k : PlaceKind) (p : Nat) :
    (s.markRevoking t k p).tasks = (s.setTenant ((s.tenant t).marked k p)).tasks := by
  unfold State.markRevoking
  extract_lets ten s1
  split
  · split <;> rfl
  · rfl

theorem tenant_of_tasks {u v : State} (h : u.tasks = v.tasks) (t : Nat) : u.tenant t = v.tenant t := by
  rw [State.tenant, State.tenant, h]

section
variable {s : State} {t : Nat}

theorem tenant_markTarget (hb : s.bound t = true) (k : PlaceKind) (target : Option Nat) :
    (s.markTarget t k target).tenant t = (s.tenant t).afterPost k target (s.reuseCount t) := by
  cases target with
  | some p =>
    rw [State.markTarget, tenant_of_tasks (tenants_markRevoking s t k p)]
    exact tenant_setTenant_of hb rfl (tenant_id hb)
  | none =>
    rw [State.markTarget, Tenant.afterPost]
    split
    · obtain ⟨k, found⟩ := bound_tenant hb
      have id : k.id = t := by simpa using List.find?_some found
      simp only [State.tenant, State.setReuse, State.setTasks, List.find?_map, Function.comp_def, settleQuota_id, found, Option.map_some,
        Option.getD_some, id, State.reuseCount]
    · rfl

theorem bound_markTarget (k : PlaceKind) (target : Option Nat) : (s.markTarget t k target).bound t = s.bound t := by
  cases target with
  | some p =>
    rw [State.markTarget, State.bound, tenants_markRevoking s t k p]
    exact bound_setTenant s ((s.tenant t).marked k p) t
  | none =>
    rw [State.markTarget]
    split
    · simp only [State.bound, State.setReuse, State.setTasks, List.any_map, Function.comp_def, settleQuota_id]
    · rfl

theorem tenantsKept_markTarget (hb : s.bound t = true) {k : PlaceKind} (hk : k ≠ .quota) (target : Option Nat) :
    TenantsKept s (s.markTarget t k target) t := by
  intro j hj
  cases target with
  | some p =>
    rw [State.markTarget, tenant_of_tasks (tenants_markRevoking s t k p)]
    exact tenantsKept_setTenant s (k := (s.tenant t).marked k p) (tenant_id hb) j hj
  | none => rw [State.markTarget, if_neg (by simpa using hk)]

/-! ### Upcalls and the runtime's wake (R346) -/

theorem tenant_upcall (hb : s.bound t = true) (code lid wid : Nat) :
    (s.upcall t code lid wid).tenant t = { s.tenant t with upcalls := (s.tenant t).upcalls ++ [⟨s.ctl.seq, code, lid, wid⟩] } :=
  tenant_setTenant_of (u := s) hb rfl (tenant_id hb)

theorem tenantsKept_upcall (hb : s.bound t = true) (code lid wid : Nat) : TenantsKept s (s.upcall t code lid wid) t :=
  tenantsKept_setTenant s (k := { s.tenant t with upcalls := (s.tenant t).upcalls ++ [⟨s.ctl.seq, code, lid, wid⟩] }) (tenant_id hb)

end

/-- Waking the runtime changes waves and launches alone. -/
theorem wakeRuntime_eq (s : State) (t : Nat) : ∃ w l, s.wakeRuntime t =
    { s with cores := { s.cores with waves := w }, tasks := { s.tasks with launches := l } } := by
  unfold State.wakeRuntime
  generalize s.tasks.launches.filter _ = L
  induction L generalizing s with
  | nil => exact ⟨_, _, rfl⟩
  | cons l L ih =>
    obtain ⟨w, k, h⟩ := ih (s.mapWaves l.uid (fun w => { w with wake := true }))
    exact ⟨w, k, h⟩

/-- A wave where every wave of a launch may have been woken. -/
theorem wave?_mapWaves_wake {s : State} {c i : Nat} {w : Wave} (uid : Nat) (h : s.wave? c i = some w) :
    ∃ b, (s.mapWaves uid (fun w => { w with wake := true })).wave? c i = some { w with wake := b } := by
  have found : (s.mapWaves uid (fun w => { w with wake := true })).wave? c i =
      (s.wave? c i).map (fun w => if w.launch == uid then { w with wake := true } else w) := by
    have place : (fun v : Wave => v.core == c && v.slot == i) ∘ (fun v => if v.launch == uid then { v with wake := true } else v) =
        fun v => v.core == c && v.slot == i := by
      funext v
      rw [Function.comp]
      split <;> rfl
    show (s.cores.waves.map _).find? _ = _
    rw [List.find?_map, place]
    rfl
  rw [found, h, Option.map_some]
  split
  · exact ⟨true, rfl⟩
  · exact ⟨w.wake, rfl⟩

theorem wave?_wakeRuntime {s : State} {c i : Nat} {w : Wave} (t : Nat) (h : s.wave? c i = some w) :
    ∃ b, (s.wakeRuntime t).wave? c i = some { w with wake := b } := by
  unfold State.wakeRuntime
  generalize s.tasks.launches.filter _ = L
  induction L generalizing s w with
  | nil => exact ⟨w.wake, h⟩
  | cons l L ih =>
    obtain ⟨b, woken⟩ := wave?_mapWaves_wake l.uid h
    obtain ⟨b', kept⟩ := ih woken
    exact ⟨b', kept⟩

/-- What is left of a post once its record and its request stand: what it does at once, and its upcall (R125). -/
def State.announce (s : State) (t : Nat) (k : PlaceKind) (target : Option Nat) : State :=
  (((s.markTarget t k target).takeSeq).upcall t 0xFF02 0 0).wakeRuntime t

section
variable {s : State} {t : Nat} (k : PlaceKind) (target : Option Nat)

theorem announce_kept : (s.announce t k target).mem.bytes = s.mem.bytes ∧ (s.announce t k target).dev = s.dev ∧
    (s.announce t k target).ctl = { s.ctl with seq := (s.ctl.seq + 2) % 2 ^ 64 } := by
  obtain ⟨f, j, marked⟩ := markTarget_eq s t k target
  obtain ⟨w, l, woken⟩ := wakeRuntime_eq (((s.markTarget t k target).takeSeq).upcall t 0xFF02 0 0) t
  have twice : ((s.ctl.seq + 1) % 2 ^ 64 + 1) % 2 ^ 64 = (s.ctl.seq + 2) % 2 ^ 64 := by omega
  rw [State.announce, woken, marked]
  refine ⟨rfl, rfl, ?_⟩
  rw [← twice]
  rfl

theorem tenant_announce (hb : s.bound t = true) :
    let j := (s.tenant t).afterPost k target (s.reuseCount t)
    (s.announce t k target).tenant t = { j with upcalls := j.upcalls ++ [⟨(s.ctl.seq + 1) % 2 ^ 64, 0xFF02, 0, 0⟩] } := by
  intro j
  obtain ⟨w, l, woken⟩ := wakeRuntime_eq (((s.markTarget t k target).takeSeq).upcall t 0xFF02 0 0) t
  obtain ⟨f, ts, marked⟩ := markTarget_eq s t k target
  have seq : (s.markTarget t k target).takeSeq.ctl.seq = (s.ctl.seq + 1) % 2 ^ 64 := by rw [marked]; rfl
  have called := tenant_upcall (s := (s.markTarget t k target).takeSeq) (t := t) ((bound_markTarget k target).trans hb) 0xFF02 0 0
  have here : (s.markTarget t k target).takeSeq.tenant t = j := tenant_markTarget hb k target
  rw [seq, here] at called
  rw [State.announce, woken]
  exact called

theorem tenantsKept_announce (hb : s.bound t = true) (hk : k ≠ .quota) : TenantsKept s (s.announce t k target) t := by
  intro j hj
  obtain ⟨w, l, woken⟩ := wakeRuntime_eq (((s.markTarget t k target).takeSeq).upcall t 0xFF02 0 0) t
  rw [State.announce, woken]
  exact (tenantsKept_upcall (s := (s.markTarget t k target).takeSeq) ((bound_markTarget k target).trans hb) 0xFF02 0 0 j hj).trans
    (tenantsKept_markTarget hb hk target j hj)

theorem wave?_announce {c i : Nat} {w : Wave} (h : s.wave? c i = some w) : ∃ b, (s.announce t k target).wave? c i = some { w with wake := b } := by
  obtain ⟨f, j, marked⟩ := markTarget_eq s t k target
  refine wave?_wakeRuntime t ?_
  rw [marked]
  exact h
end

/-! ### Posting a revocation -/

section
variable {s : State} {t count deadline reqid ma : Nat} {k : PlaceKind} {target : Option Nat}

theorem bound_of_mayPost (h : s.mayPost t k count target deadline reqid = true) : s.bound t = true := by
  simp only [State.mayPost, Bool.and_eq_true] at h
  exact h.1.1.1.1.1.1

theorem target_of_mayPost_quota (h : s.mayPost t .quota count target deadline reqid = true) : target = none := by
  simp only [State.mayPost, Bool.and_eq_true, Option.isNone_iff_eq_none] at h
  exact h.2.1

/-- A post: its record, its request, what it does at once, and its upcall (R124, R125). -/
theorem exec_revocationPost (may : s.mayPost t k count target deadline reqid = true) (held : s.tfnAddr t (s.tenant t).revTfn = some ma) :
    exec (.revocationPost t k count target deadline reqid) s = .next (((s.storeRecord (ma + 64 * ((s.tenant t).revCount % 64))
      ((recordWords (revRecord s.ctl.seq reqid k.code count deadline target)).take 7) (((s.tenant t).revCount / 64 + 1) % 2)).setTenant
        ((s.tenant t).withRequest ⟨reqid, k, count, target, deadline, [], s.time t⟩)).announce t k target) := by
  show execRevocationPost t k count target deadline reqid s = _
  unfold execRevocationPost
  dsimp only
  rw [if_neg (by simp [may]), held]
  dsimp only
  obtain ⟨m, stored⟩ := storeRecord_mem s (ma + 64 * ((s.tenant t).revCount % 64)) (((s.tenant t).revCount / 64 + 1) % 2)
    ((recordWords (revRecord s.ctl.seq reqid k.code count deadline target)).take 7)
  rw [stored]
  unfold State.storeRecord at stored
  rw [stored]
  rfl

/-- What a record stored and its tenant replaced leave (R124). -/
theorem recordStored {a phase : Nat} {l : List Word} {j : Tenant} (hb : s.bound t = true) (hj : j.id = t) (hl : l.length = 7) :
    let u := (s.storeRecord a l phase).setTenant j
    RecordAt u a l phase ∧ BytesKept s u a 64 ∧ u.tenant t = j ∧ u.bound t = true ∧ TenantsKept s u t ∧ u.reuseCount t = s.reuseCount t ∧
      u.ctl = s.ctl ∧ u.dev = s.dev ∧ u.cores = s.cores := by
  intro u
  obtain ⟨m, stored⟩ := storeRecord_mem s a phase l
  have u_eq : u = (s.setMem m).setTenant j := by rw [← stored]
  refine ⟨storeRecord_recordAt s a phase hl, storeRecord_bytesKept s a phase hl, ?_⟩
  rw [u_eq]
  exact ⟨tenant_setTenant_of (u := s.setMem m) hb rfl hj, (bound_setTenant ..).trans hb, tenantsKept_setTenant (s.setMem m) hj, rfl, rfl, rfl, rfl⟩

/-- A revocation posted (R124, R125). -/
theorem revocationPosted (may : s.mayPost t k count target deadline reqid = true) (held : s.tfnAddr t (s.tenant t).revTfn = some ma) :
    let ten := s.tenant t
    let a := ma + 64 * (ten.revCount % 64)
    ∃ u, exec (.revocationPost t k count target deadline reqid) s = .next u ∧
      RecordAt u a ((recordWords (revRecord s.ctl.seq reqid k.code count deadline target)).take 7) ((ten.revCount / 64 + 1) % 2) ∧
      BytesKept s u a 64 ∧ (u.tenant t).revCount = (ten.revCount + 1) % 2 ^ 64 ∧
      (u.tenant t).upcalls = ten.upcalls ++ [⟨(s.ctl.seq + 1) % 2 ^ 64, 0xFF02, 0, 0⟩] ∧
      u.ctl = { s.ctl with seq := (s.ctl.seq + 2) % 2 ^ 64 } ∧ u.dev = s.dev ∧
      (k ≠ .quota → TenantsKept s u t ∧
        (u.tenant t).requests = ten.requests ++ [⟨reqid, k, count, target, deadline, [], s.time t⟩]) ∧
      (k = .quota → s.reuseCount t ≤ count → (u.tenant t).quota = count) ∧ (∀ p e, k = .queue → target = some p → ten.place? k p = some e →
        (u.tenant t).place? k p = some { e with revoking := true }) ∧
      ∀ c i w, s.wave? c i = some w → ∃ b, u.wave? c i = some { w with wake := b } := by
  dsimp only
  have hb := bound_of_mayPost may
  have posted := exec_revocationPost may held
  obtain ⟨record, bytes2, ten2, hb2, kept2, count2, ctl2, dev2, cores2⟩ :=
    recordStored (s := s) (t := t) (a := ma + 64 * ((s.tenant t).revCount % 64))
      (phase := ((s.tenant t).revCount / 64 + 1) % 2)
      (l := (recordWords (revRecord s.ctl.seq reqid k.code count deadline target)).take 7)
      (j := (s.tenant t).withRequest ⟨reqid, k, count, target, deadline, [], s.time t⟩) hb (tenant_id hb) (by simp [recordWords])
  generalize State.setTenant _ ((s.tenant t).withRequest ⟨reqid, k, count, target, deadline, [], s.time t⟩) = s2 at *
  obtain ⟨bytes, dev, ctl⟩ := announce_kept (s := s2) (t := t) k target
  have here := tenant_announce k target hb2
  rw [ten2, count2, ctl2] at here
  obtain ⟨places, quota, requests, after⟩ :=
    afterPost_eq ((s.tenant t).withRequest ⟨reqid, k, count, target, deadline, [], s.time t⟩) k target (s.reuseCount t)
  have same : ∀ n, (s2.announce t k target).byte n = s2.byte n := fun n => congrArg (fun b => cellGet 0 b n) bytes
  refine ⟨s2.announce t k target, posted, recordAt_of_bytes same record, fun n hn => (same n).trans (bytes2 n hn), ?_, ?_,
    ctl.trans (by rw [ctl2]), dev.trans dev2, fun hk => ⟨fun j hj => (tenantsKept_announce k target hb2 hk j hj).trans (kept2 j hj), ?_⟩,
    fun hk met => ?_, fun p e _ ht hp => ?_, fun c i w hw => wave?_announce k target ?_⟩
  · rw [here, after]
    rfl
  · rw [here, after]
    rfl
  · rw [here]
    exact afterPost_requests target _ hk
  · subst hk
    have none := target_of_mayPost_quota may
    subst none
    rw [here]
    exact afterPost_quota (by simp [RevReq.metBy, met])
  · subst ht
    rw [here]
    show (((s.tenant t).withRequest _).marked k p).place? k p = _
    rw [place?_marked]
    show ((s.tenant t).place? k p).map _ = _
    rw [hp]
    rfl
  · rw [State.wave?, cores2]
    exact hw
end
end Sys2Proof.Machine

/-! The abort engine at a deadline (spec/07 R127, R129): a place without contents seized and noted. -/
namespace Sys2Proof.Machine
open Sys2Proof.Safety

/-! ### A place taken from a tenant (R127) -/

/-- The kinds of places that hold no contents (Table 7-7) and are counted one by one. -/
def BareKind (k : PlaceKind) : Prop := k ∈ [PlaceKind.core, .bank, .lane, .queue, .chan]

theorem bareKind_iff {k : PlaceKind} : BareKind k ↔ k = .core ∨ k = .bank ∨ k = .lane ∨ k = .queue ∨ k = .chan := by
  simp [BareKind]

theorem BareKind.ne {k : PlaceKind} (h : BareKind k) : k ≠ .frame ∧ k ≠ .tset ∧ k ≠ .quota := by
  rcases bareKind_iff.1 h with rfl | rfl | rfl | rfl | rfl <;> decide

/-- A tenant without a place. -/
def Tenant.without (k : Tenant) (j : PlaceKind) (p : Nat) : Tenant :=
  Tenant.settleDies { k with places := k.places.filter (fun e => !(e.kind == j && e.place == p)) }

theorem settleDies_eq (k : Tenant) : ∃ d, k.settleDies = { k with diePlaces := d } := ⟨_, rfl⟩

theorem place?_settleDies (k : Tenant) (j : PlaceKind) (p : Nat) : k.settleDies.place? j p = k.place? j p := rfl

theorem place?_without_self (k : Tenant) (j : PlaceKind) (p : Nat) : (k.without j p).place? j p = none := by
  rw [Tenant.without, place?_settleDies]
  refine List.find?_eq_none.mpr (fun e he => ?_)
  have kept := (List.mem_filter.mp he).2
  rw [Bool.not_eq_true, ← Bool.not_eq_true']
  exact kept

theorem place?_without_other (k : Tenant) {j i : PlaceKind} {p q : Nat} (h : ¬(i = j ∧ q = p)) : (k.without j p).place? i q = k.place? i q := by
  have apart : ∀ e : PlaceEntry, (!(e.kind == j && e.place == p) && (e.kind == i && e.place == q)) = (e.kind == i && e.place == q) := by
    intro e
    by_cases he : (e.kind == i && e.place == q) = true
    · have other : (e.kind == j && e.place == p) = false := by
        simp only [Bool.and_eq_true, beq_iff_eq] at he
        rw [he.1, he.2, Bool.and_eq_false_iff, beq_eq_false_iff_ne, beq_eq_false_iff_ne, ← not_and_or]
        exact h
      rw [other, Bool.not_false, Bool.true_and]
    · rw [Bool.not_eq_true] at he
      rw [he, Bool.and_false]
  rw [Tenant.without, place?_settleDies]
  show (List.filter _ k.places).find? _ = k.places.find? _
  rw [List.find?_filter]
  congr 1
  funext e
  rw [Bool.eq_iff_iff, decide_eq_true_iff, ← Bool.and_eq_true, apart e]

section
variable {s : State} {t p : Nat} {k : PlaceKind}

/-- Such a place released: the tenant's, and a unit's generation where there is one (R111). -/
theorem releasePlace_eq (h : BareKind k) : ∃ g, s.releasePlace t k p =
    ({ s with cores := { s.cores with gens := g } } : State).setTenant ((s.tenant t).without k p) := by
  unfold State.releasePlace
  rcases bareKind_iff.1 h with rfl | rfl | rfl | rfl | rfl
  case inl =>
    dsimp only
    cases (s.tenant t).place? .core p <;> exact ⟨_, rfl⟩
  case inr.inl =>
    dsimp only
    cases (s.tenant t).place? .bank p <;> exact ⟨_, rfl⟩
  case inr.inr.inl | inr.inr.inr.inl | inr.inr.inr.inr => exact ⟨_, rfl⟩

/-- A tenant with a loss noted (R129). -/
def Tenant.lost (k : Tenant) (j : PlaceKind) (seq : Nat) : Tenant :=
  { k with
    loss := k.loss ||| (1#8 <<< j.code), lossCount := (k.lossCount + 1) % 2 ^ 64, losses := k.losses ++ [⟨seq, j.code⟩] }

/-- A loss noted while there is room for its entry: the entry's 32 bytes alone change (R129). -/
theorem noteLoss_eq (k : PlaceKind) (place len off : Nat) (nosave : Bool) (room : (s.tenant t).losses.length < 256) :
    ∃ m, s.noteLoss t k place len off nosave = ((s.setMem m).setTenant ((s.tenant t).lost k s.ctl.seq)).takeSeq ∧
      ∀ n, (∀ ma, s.tfnAddr t (s.tenant t).lossTfn = some ma →
        n < ma + 32 * ((s.tenant t).lossCount % 256) ∨ ma + 32 * ((s.tenant t).lossCount % 256) + 32 ≤ n) →
        (s.setMem m).byte n = s.byte n := by
  unfold State.noteLoss
  dsimp only
  rw [if_neg (by omega)]
  split
  next ma held =>
    generalize lossEntry s.ctl.seq k.code place len off nosave + fieldAt 255 (((s.tenant t).lossCount / 256 + 1) % 2) = v
    obtain ⟨m, hm⟩ := deviceStore_mem s (ma + 32 * ((s.tenant t).lossCount % 256)) (bytesOf 24 v) none
    obtain ⟨m', hm'⟩ := deviceStore_mem (s.setMem m) (ma + 32 * ((s.tenant t).lossCount % 256) + 24) (bytesOf 8 (v / 2 ^ 192)) none
    refine ⟨m', by rw [hm, hm']; rfl, fun n outside => ?_⟩
    have beyond := outside ma held
    show ((s.setMem m).setMem m').byte n = s.byte n
    rw [← hm', State.byte_deviceStore_out _ _ _ _ (by rw [bytesOf_length]; omega), ← hm,
      State.byte_deviceStore_out _ _ _ _ (by rw [bytesOf_length]; omega)]
  next => exact ⟨s.mem, rfl, fun _ _ => rfl⟩

/-- A place without contents seized: released and noted (R127, R129). -/
theorem seize_eq (h : BareKind k) : s.seize t k p = (s.releasePlace t k p).noteLoss t k p 0 0 false := by
  rcases bareKind_iff.1 h with rfl | rfl | rfl | rfl | rfl <;> rfl

/-- A tenant without the requests of an id. -/
def Tenant.withoutRequest (k : Tenant) (reqid : Nat) : Tenant := { k with requests := k.requests.filter (fun q => q.reqid != reqid) }

/-- A request for such places retired. -/
theorem retireRequest_eq {r : RevReq} (h : BareKind r.kind) :
    s.retireRequest t r = s.setTenant ((s.tenant t).withoutRequest r.reqid) := by
  unfold State.retireRequest
  dsimp only
  split
  next e => exact absurd e h.ne.2.1
  next e => exact absurd e h.ne.2.2
  next => rfl

/-- The deadline of a request for one such place that no launch uses (R127). -/
theorem exec_abortEngineSeize_one {reqid : Nat} {r : RevReq} (asked : (s.tenant t).requests.find? (fun q => q.reqid == reqid) = some r)
    (runs : (s.tenant t).suspended = false) (due : r.deadline ≤ s.time t) (h : BareKind r.kind) (one : s.toSeize t r = [p])
    (unused : s.usersOf t r.kind p = []) :
    exec (.abortEngineSeize t reqid) s = .next (((s.releasePlace t r.kind p).noteLoss t r.kind p 0 0 false).retireRequest t r) := by
  have quota : r.kind ≠ .quota := h.ne.2.2
  show execAbortEngineSeize t reqid s = _
  unfold execAbortEngineSeize
  dsimp only
  split
  next none => cases none.symm.trans asked
  next r' found =>
    cases found.symm.trans asked
    rw [if_neg (by simp [runs, due]), if_neg quota, one, if_neg (by simp [unused]), ← seize_eq h]
    rfl

/-- What a release leaves of where a tenant's frames lie. -/
theorem tfnAddr_without {u : State} (h : BareKind k) (released : u.tenant t = (s.tenant t).without k p) (tfn : Nat) :
    u.tfnAddr t tfn = s.tfnAddr t tfn := by
  have frame : ¬(PlaceKind.frame = k ∧ tfn = p) := fun e => h.ne.1 e.1.symm
  show ((u.tenant t).place? .frame tfn).map _ = ((s.tenant t).place? .frame tfn).map _
  rw [released, place?_without_other _ frame]

/-- A seizure at the deadline (R127, R129). -/
theorem placeSeized {reqid : Nat} {r : RevReq} (asked : (s.tenant t).requests.find? (fun q => q.reqid == reqid) = some r)
    (runs : (s.tenant t).suspended = false) (due : r.deadline ≤ s.time t) (h : BareKind r.kind) (one : s.toSeize t r = [p])
    (unused : s.usersOf t r.kind p = []) (room : (s.tenant t).losses.length < 256) :
    ∃ u, exec (.abortEngineSeize t reqid) s = .next u ∧ (u.tenant t).place? r.kind p = none ∧
      (∀ k q, ¬(k = r.kind ∧ q = p) → (u.tenant t).place? k q = (s.tenant t).place? k q) ∧
      (u.tenant t).loss = (s.tenant t).loss ||| (1#8 <<< r.kind.code) ∧
      (u.tenant t).losses = (s.tenant t).losses ++ [⟨s.ctl.seq, r.kind.code⟩] ∧ (∀ q ∈ (u.tenant t).requests, q.reqid ≠ reqid) ∧
      (∀ m, (∀ ma, s.tfnAddr t (s.tenant t).lossTfn = some ma →
        m < ma + 32 * ((s.tenant t).lossCount % 256) ∨ ma + 32 * ((s.tenant t).lossCount % 256) + 32 ≤ m) → u.byte m = s.byte m) ∧
      u.cores = { s.cores with gens := u.cores.gens } ∧ u.dev = s.dev ∧ TenantsKept s u t := by
  have hb : s.bound t = true := bound_of_ne (fun e => by rw [e] at asked; cases asked)
  have id : r.reqid = reqid := by simpa using List.find?_some asked
  obtain ⟨g, released⟩ := releasePlace_eq (s := s) (t := t) (p := p) h
  have freed : (s.releasePlace t r.kind p).tenant t = (s.tenant t).without r.kind p := by
    rw [released]
    exact tenant_setTenant_of hb rfl (tenant_id hb)
  have hb1 : (s.releasePlace t r.kind p).bound t = true := by
    rw [released]
    exact (bound_setTenant ..).trans hb
  obtain ⟨m, noted, outside⟩ := noteLoss_eq (s := s.releasePlace t r.kind p) (t := t) r.kind p 0 0 false (by rw [freed]; exact room)
  have seq : (s.releasePlace t r.kind p).ctl.seq = s.ctl.seq := by rw [released]; rfl
  rw [freed, seq] at noted
  have after : ((s.releasePlace t r.kind p).noteLoss t r.kind p 0 0 false).tenant t = ((s.tenant t).without r.kind p).lost r.kind s.ctl.seq := by
    rw [noted]
    exact tenant_setTenant_of (u := (s.releasePlace t r.kind p).setMem m) hb1 rfl (tenant_id hb)
  have retired := retireRequest_eq (s := (s.releasePlace t r.kind p).noteLoss t r.kind p 0 0 false) (t := t) h
  rw [after, noted] at retired
  refine ⟨_, exec_abortEngineSeize_one asked runs due h one unused, ?_⟩
  have here : (((s.releasePlace t r.kind p).noteLoss t r.kind p 0 0 false).retireRequest t r).tenant t =
      (((s.tenant t).without r.kind p).lost r.kind s.ctl.seq).withoutRequest r.reqid := by
    rw [noted, retired]
    refine tenant_setTenant_of (s := ((s.releasePlace t r.kind p).setMem m).setTenant (((s.tenant t).without r.kind p).lost r.kind s.ctl.seq))
      ((bound_setTenant ..).trans hb1) rfl (tenant_id hb)
  refine ⟨?_, fun k q other => ?_, ?_, ?_, fun q hq => ?_, fun n away => ?_, ?_, ?_, fun j hj => ?_⟩
  · rw [here]
    exact place?_without_self ..
  · rw [here]
    exact place?_without_other _ other
  · rw [here]
    rfl
  · rw [here]
    rfl
  · rw [here] at hq
    simpa [id] using (List.mem_filter.mp hq).2
  · rw [noted, retired]
    refine (outside n ?_).trans (by rw [released]; rfl)
    rw [freed, tfnAddr_without h freed]
    exact away
  · rw [noted, retired, released]
    rfl
  · rw [noted, retired, released]
    rfl
  · have kept : TenantsKept s (s.releasePlace t r.kind p) t := by
      rw [released]
      exact tenantsKept_setTenant ({ s with cores := { s.cores with gens := g } } : State) (k := (s.tenant t).without r.kind p) (tenant_id hb)
    rw [noted, retired, tenant_setTenant_ne _ (k := (((s.tenant t).without r.kind p).lost r.kind s.ctl.seq).withoutRequest r.reqid)
      (fun e => hj (e.trans (tenant_id hb)))]
    exact (tenantsKept_setTenant ((s.releasePlace t r.kind p).setMem m) (k := ((s.tenant t).without r.kind p).lost r.kind s.ctl.seq)
      (tenant_id hb) j hj).trans (kept j hj)
end

/-- Settles O56: a post is its record, its request and its announcement (`revocationPosted`); a seizure is a release, a loss noted and the
request retired (`placeSeized`). -/
theorem revocationEvents : Obligations.RevocationEvents := by
  unfold Obligations.RevocationEvents
  exact ⟨fun _ _ _ _ _ _ _ _ may held => revocationPosted may held,
    fun _ _ _ _ _ asked runs due kind one unused room => placeSeized asked runs due kind one unused room⟩
end Sys2Proof.Machine

/-! One step that issues a word (spec/08 R132, R136, R137; spec/13 R225): a chosen wave stands in its slot of the quadrant, its issue is `exec` of the
instruction that it has fetched, and a fetch that finds no token issues nothing. -/
namespace Sys2Proof.Machine

/-! ### The waves that may issue -/

theorem mem_insertBy {α : Type} {before : α → α → Bool} {x y : α} : ∀ {l : List α}, x ∈ insertBy before y l → x = y ∨ x ∈ l
  | [], h => .inl (by simpa [insertBy] using h)
  | z :: l, h => by
    unfold insertBy at h
    split at h
    · simpa using h
    · rcases List.mem_cons.mp h with rfl | h
      · exact .inr (List.mem_cons_self ..)
      · exact (mem_insertBy h).imp_right (List.mem_cons_of_mem z)

theorem mem_sortBy {α : Type} {before : α → α → Bool} {x : α} : ∀ {l : List α}, x ∈ sortBy before l → x ∈ l
  | y :: _, h => (mem_insertBy h).elim (· ▸ List.mem_cons_self ..) (fun h => List.mem_cons_of_mem y (mem_sortBy h))

/-- A candidate of a quadrant stands in one of its slots, and its launch and its own holds let it issue (R11, R136). -/
theorem candidate_spec {s : State} {core quad : Nat} {w : Wave} (h : w ∈ s.candidates core quad) :
    s.wave? w.core w.slot = some w ∧ w.core = core ∧ w.quad = quad ∧ s.mayTry w = true := by
  have found : w ∈ ((slotsOf quad).filterMap (s.wave? core)).filter s.mayTry := by
    rcases List.mem_append.mp h with h | h
    · exact (List.mem_filter.mp h).1
    · exact (List.mem_filter.mp (mem_sortBy h)).1
  obtain ⟨resident, tries⟩ := List.mem_filter.mp found
  obtain ⟨slot, in_quad, here⟩ := List.mem_filterMap.mp resident
  obtain ⟨rfl, rfl⟩ := State.wave?_core here
  simp only [slotsOf, List.mem_map, List.mem_range] at in_quad
  refine ⟨here, rfl, ?_, tries⟩
  unfold Wave.quad
  omega

/-- The launch of a wave that may issue has not ended. -/
theorem endInfo_of_mayTry {s : State} {w : Wave} (h : s.mayTry w = true) : (s.launch w.launch).endInfo = none := by
  simp only [State.mayTry, Launch.stoppable, Bool.and_eq_true, Option.isNone_iff_eq_none] at h
  tauto

/-! ### The fetch -/

/-- A fetch that finds no token leaves all but buckets and retries as it was. -/
theorem fetchGoes_error_keeps {s g : State} {w : Wave} {pc : CodeAddr} (h : s.fetchGoes w pc = .error g) : s.cachesOnly g := by
  unfold State.fetchGoes at h
  split at h
  · exact State.request_keeps (.inr h)
  · split at h
    · split at h
      · cases h
      · cases h
        rfl
    · cases h

/-! ### The issue of a candidate -/

section
variable {s g : State} {w : Wave} {others : List Wave} {pc : CodeAddr} {x : Word} {i : Instr}

/-- A wave whose fetch goes issues the instruction that it has fetched. -/
theorem issueAt_fetched (here : s.wave? w.core w.slot = some w) (next : w.nextPc = some pc) (fetched : s.fetch w pc = .ok x)
    (goes : s.fetchGoes w pc = .ok g) (decoded : decode x = .ok i) :
    s.issueAt w.core w.slot = exec i ((g.fetchFills w pc).setFocus w.core w.slot) := by
  simp only [State.issueAt, here, next, goes, State.nextInstr, fetched, decoded]

/-- A wave whose fetch finds no token issues nothing. -/
theorem issueAt_waits (here : s.wave? w.core w.slot = some w) (next : w.nextPc = some pc) (waits : s.fetchGoes w pc = .error g) :
    s.issueAt w.core w.slot = .next g := by
  simp only [State.issueAt, here, next, waits]

/-- The quadrant of a wave whose fetch waits is as free as before, and its launch has not ended. -/
theorem issuedNow_waits (waits : s.fetchGoes w pc = .error g) (free : (s.quad w.core w.quad).busyUntil ≤ s.ctl.cycle)
    (going : (s.launch w.launch).endInfo = none) : issuedNow w g = false := by
  rw [fetchGoes_error_keeps waits]
  exact Bool.or_eq_false_iff.mpr ⟨decide_eq_false (Nat.not_lt.mpr free), congrArg Option.isSome going⟩

/-- A free quadrant whose first candidate has fetched its instruction runs it; where it is held the next candidate is tried (R136, R137). -/
theorem issueQuad_runs {core quad : Nat} {s0 : State} (before : s0.boundaries core quad = s)
    (free : (s.quad core quad).busyUntil ≤ s.ctl.cycle) (chosen : s.candidates core quad = w :: others) (next : w.nextPc = some pc)
    (fetched : s.fetch w pc = .ok x) (goes : s.fetchGoes w pc = .ok g) (decoded : decode x = .ok i) :
    s0.issueQuad core quad = match exec i ((g.fetchFills w pc).setFocus w.core w.slot) with
      | .next t => if issuedNow w t then .next ((s.othersIn w).foldl (State.passOver s) t) else choose others t
      | r => r := by
  have here : s.wave? w.core w.slot = some w := (candidate_spec (chosen ▸ List.mem_cons_self ..)).1
  simp only [State.issueQuad, before, if_neg (Nat.not_lt.mpr free), chosen, choose, issueAt_fetched here next fetched goes decoded]
  rfl

/-- A free quadrant whose first candidate finds no token for its fetch tries the next one (log 11). -/
theorem issueQuad_waits {core quad : Nat} {s0 : State} (before : s0.boundaries core quad = s)
    (free : (s.quad core quad).busyUntil ≤ s.ctl.cycle) (chosen : s.candidates core quad = w :: others) (next : w.nextPc = some pc)
    (waits : s.fetchGoes w pc = .error g) : s0.issueQuad core quad = choose others g := by
  obtain ⟨here, rfl, rfl, tries⟩ := candidate_spec (chosen ▸ List.mem_cons_self ..)
  simp only [State.issueQuad, before, if_neg (Nat.not_lt.mpr free), chosen, choose, issueAt_waits here next waits,
    issuedNow_waits waits free (endInfo_of_mayTry tries), Bool.false_eq_true, if_false]

end

/-! ### The step -/

/-- Telling the waves that were passed over (R154) touches no quadrant. -/
theorem passOver_quads (before s : State) (w : Wave) : (State.passOver before s w).cores.quads = s.cores.quads := by
  unfold State.passOver
  split
  · rfl
  · rfl

theorem passOvers_quad (before : State) (core quad : Nat) : ∀ (l : List Wave) (s : State),
    (l.foldl (State.passOver before) s).quad core quad = s.quad core quad
  | [], _ => rfl
  | w :: l, s => (passOvers_quad before core quad l _).trans (by unfold State.quad; rw [passOver_quads])

theorem step_issue {s : State} {core quad : Nat} {rest : List Move} (hp : s.ctl.power = true) (ha : s.ctl.agenda = .issue core quad :: rest) :
    step s = (s.setAgenda rest).issueQuad core quad := by
  rw [step_of_power (.inl hp), advance_cons ha]
  rfl

/-- With nothing on the agenda an issue at the focus is the step. -/
theorem step_idle_issues {s t : State} (hp : s.ctl.power = true) (ha : s.ctl.agenda = [])
    (issues : s.issueQuad s.ctl.focus.core s.ctl.focus.quad = .next t)
    (free : (s.quad s.ctl.focus.core s.ctl.focus.quad).busyUntil ≤ s.ctl.cycle)
    (taken : s.ctl.cycle < (t.quad s.ctl.focus.core s.ctl.focus.quad).busyUntil) : step s = .next t := by
  rw [step_of_power (.inl hp)]
  simp only [State.advance, ha, State.idle, issues, free, taken, and_self, if_true]

/-- Settles O5: an issue on the agenda, or at the focus with nothing on it, is `issueQuad`, which runs the instruction of the first candidate
(`issueQuad_runs`) or passes to the next where its fetch waits (`issueQuad_waits`). -/
theorem stepRunsDecodedInstruction : Obligations.StepRunsDecodedInstruction := by
  unfold Obligations.StepRunsDecodedInstruction
  refine ⟨fun s s1 g core quad rest w others pc x i hp ha before free chosen next fetched goes decoded => ?_,
    fun s s1 g t w others pc x i hp ha before free free1 chosen next fetched goes decoded ran issued taken => ?_,
    fun s s1 g core quad rest w others pc hp ha before free chosen next waits => ?_⟩
  · exact (step_issue hp ha).trans (issueQuad_runs before free chosen next fetched goes decoded)
  · refine step_idle_issues hp ha ?_ free (by rwa [passOvers_quad])
    rw [issueQuad_runs before free1 chosen next fetched goes decoded, ran]
    exact if_pos issued
  · exact (step_issue hp ha).trans (issueQuad_waits before free chosen next waits)

end Sys2Proof.Machine

/-! What reaches a wave from outside its words (spec/07 R115; spec/08 R143, R151; spec/15 R261; spec/19 R313): each event is the one update of the
wave that its conditions ask for. -/
namespace Sys2Proof.Machine
open Sys2Proof.Safety

section
variable {s : State} {core slot : Nat} {w : Wave}

/-! ### Timeouts and markers -/

/-- HANG with HANGTRAP comes due in the wave (R143). -/
theorem exec_hangDetect_arms (here : s.wave? core slot = some w) (lim : (s.tenant w.tenant).hanglim ≠ 0)
    (above : (s.tenant w.tenant).hanglim < w.hangcnt) (unarmed : w.hangArmed = false) (going : (s.launch w.launch).endInfo = none)
    (trap : (s.launch w.launch).hangtrap = true) : exec (.hangDetect core slot) s = .next (s.setWave { w with hangArmed := true }) := by
  show execHangDetect core slot s = _
  simp [execHangDetect, here, lim, Nat.not_le.mpr above, unarmed, going, trap]

/-- HANG without HANGTRAP is told to the tenant's runtime wave, and the count starts again (R143). -/
theorem exec_hangDetect_tells (here : s.wave? core slot = some w) (lim : (s.tenant w.tenant).hanglim ≠ 0)
    (above : (s.tenant w.tenant).hanglim < w.hangcnt) (unarmed : w.hangArmed = false) (going : (s.launch w.launch).endInfo = none)
    (trap : (s.launch w.launch).hangtrap = false) : exec (.hangDetect core slot) s =
      .next (((s.setWave { w with hangcnt := 0 }).setLaunch { s.launch w.launch with hang := true }).upcall w.tenant 0xFF01
        (s.launch w.launch).lid w.wid) := by
  show execHangDetect core slot s = _
  simp [execHangDetect, here, lim, Nat.not_le.mpr above, unarmed, going, trap]

/-- An upcall is queued behind those that the tenant's runtime wave has (R350). -/
theorem upcalls_upcall {s : State} {t : Nat} (bound : s.bound t = true) (code lid wid : Nat) :
    ((s.upcall t code lid wid).tenant t).upcalls = (s.tenant t).upcalls ++ [⟨s.ctl.seq, code, lid, wid⟩] := by
  rw [tenant_upcall bound]

theorem exec_sleepTimeout (here : s.wave? core slot = some w) (sleeps : w.held = some .sleep)
    (late : w.sleepSince.any (fun d => decide (d ≤ s.ctl.cycle)) = true) :
    exec (.sleepTimeout core slot) s = .next (s.setWave { w with held := none }) := by
  show execSleepTimeout core slot s = _
  simp only [execSleepTimeout, here, sleeps, late, and_self, if_true]

theorem exec_fenceMarkerAck {p : Path} (here : s.wave? core slot = some w) (out : p ∈ w.markers) (clear : s.pathClear w p = true) :
    exec (.fenceMarkerAck core slot p) s = .next (s.setWave { w with markers := w.markers.filter (fun q => q != p) }) := by
  show execFenceMarkerAck core slot p s = _
  simp [execFenceMarkerAck, here, out, clear]

/-! ### Refusals -/

/-- Taking refusals changes the lanes and the refusals that are left: all but the taken ones, of which a lane that awaits a service has none. -/
theorem takeRefusals_other (w : Wave) (p : Nat → Bool) : w.takeRefusals p =
    { w with lanes := (w.takeRefusals p).lanes,
             refusals := w.refusals.filter (fun r => !(p r.cause && (w.lane r.lane).st != .service)) } := by
  obtain ⟨m, hm⟩ := parkAll_other ((w.refusals.filter (fun r => p r.cause && (w.lane r.lane).st != .service)).map
    (fun r => (r.lane, r.cause, r.addr))) w
  unfold Wave.takeRefusals
  dsimp only
  rw [hm]

/-- The first refusal of a ready lane among those taken. -/
theorem find?_taken (w : Wave) (p : Nat → Bool) {j : Nat} (ready : (w.lane j).st = .ready) :
    ((w.refusals.filter (fun r => p r.cause && (w.lane r.lane).st != .service)).map (fun r => (r.lane, r.cause, r.addr))).find?
        (fun q => q.1 == j) =
      (w.refusals.find? (fun r => p r.cause && r.lane == j)).map (fun r => (r.lane, r.cause, r.addr)) := by
  rw [List.find?_map, List.find?_filter]
  congr 2
  funext r
  by_cases hr : r.lane = j
  · simp [hr, ready]
  · simp [hr]

/-- A ready lane for which a refusal is taken parks with its cause and address (R115, R261); every other lane stays as it is. -/
theorem lane_takeRefusals (w : Wave) (p : Nat → Bool) (j : Nat) : (w.takeRefusals p).lane j =
    if (w.lane j).st = .ready then
      (match w.refusals.find? (fun r => p r.cause && r.lane == j) with
       | some r => parked r.cause r.addr (w.lane j)
       | none => w.lane j)
    else w.lane j := by
  refine (lane_parkAll _ w j).trans ?_
  by_cases ready : (w.lane j).st = .ready
  · rw [if_pos ready, if_pos ready, find?_taken w p ready]
    cases w.refusals.find? (fun r => p r.cause && r.lane == j) <;> rfl
  · rw [if_neg ready, if_neg ready]

/-- Parking lets no lane exit. -/
theorem allExited_takeRefusals (p : Nat → Bool) (live : w.allExited = false) : (w.takeRefusals p).allExited = false := by
  simp only [Wave.allExited, List.all_eq_false, beq_iff_eq] at live
  obtain ⟨l, hl, stays⟩ := live
  obtain ⟨j, hj, rfl⟩ := List.getElem_of_mem hl
  have same : w.lane j = w.lanes[j] := by simp [Wave.lane, hj]
  refine allExited_of_lane (j := j) (by rw [show (w.takeRefusals p).lanes.length = _ from length_parkAll _ w]; exact hj) ?_
  rw [lane_takeRefusals, same]
  split
  · split
    · exact fun e => nomatch e
    · exact stays
  · exact stays

theorem exec_homeSliceRefusal (here : s.wave? core slot = some w) :
    exec (.homeSliceRefusal core slot) s = .next (s.setWave (w.takeRefusals (fun k => k != cLINK))) := by
  show execHomeSliceRefusal core slot s = _
  simp only [execHomeSliceRefusal, State.takeRefusals, here]

/-- A link refusal that is known of parks lanes; the wave, which has lanes left, goes on (R134, R261). -/
theorem exec_linkRefusal (here : s.wave? core slot = some w) (live : w.allExited = false)
    (known : w.refusals.any (fun r => r.cause == cLINK) = true) :
    exec (.linkRefusal core slot) s = .next (s.setWave (w.takeRefusals (fun k => k == cLINK))) := by
  obtain ⟨rfl, rfl⟩ := State.wave?_core here
  have taken := takeRefusals_other w (fun k => k == cLINK)
  have hc : (w.takeRefusals (fun k => k == cLINK)).core = w.core := by rw [taken]
  have hk : (w.takeRefusals (fun k => k == cLINK)).slot = w.slot := by rw [taken]
  have again : (s.setWave w).setWave (w.takeRefusals (fun k => k == cLINK)) = s.setWave (w.takeRefusals (fun k => k == cLINK)) :=
    State.setWave_setWave s hc.symm hk.symm
  show execLinkRefusal w.core w.slot s = _
  simp only [execLinkRefusal, here, known, if_true, State.takeRefusals, State.wave?_setWave_self here rfl rfl, again]
  rw [endWave_live (State.wave?_setWave_self here hc hk) (allExited_takeRefusals _ live)]

end

/-- Settles O32: each event's conditions hold, so that it is its one update of the wave; refusals park ready lanes (`lane_takeRefusals`). -/
theorem waveEvents : Obligations.WaveEvents := by
  unfold Obligations.WaveEvents
  intro core slot s w here
  refine ⟨fun lim above unarmed going => ⟨fun trap => ⟨_, exec_hangDetect_arms here lim above unarmed going trap, rfl⟩,
      fun trap known bound => ⟨_, _, exec_hangDetect_tells here lim above unarmed going trap, ?_, rfl, ?_, rfl, rfl, rfl, ?_⟩⟩,
    fun sleeps late => ⟨_, exec_sleepTimeout here sleeps late, rfl⟩, fun p out clear => ⟨_, exec_fenceMarkerAck here out clear, rfl⟩,
    fun e he may => ?_⟩
  · obtain ⟨rfl, rfl⟩ := State.wave?_core here
    exact State.wave?_setWave_self here rfl rfl
  · exact launch_setLaunch_of (t := s.setWave { w with hangcnt := 0 }) known rfl (launch_uid known)
  · exact upcalls_upcall (s := (s.setWave { w with hangcnt := 0 }).setLaunch { s.launch w.launch with hang := true }) bound _ _ _
  · simp only [List.mem_cons, List.not_mem_nil, or_false] at he
    rcases he with rfl | rfl
    · exact ⟨_, _, exec_homeSliceRefusal here, rfl, takeRefusals_other w _, fun j _ => lane_takeRefusals w _ j⟩
    · obtain ⟨live, known⟩ := may rfl
      exact ⟨_, _, exec_linkRefusal here live known, rfl, takeRefusals_other w _, fun j _ => lane_takeRefusals w _ j⟩

end Sys2Proof.Machine

/-! How a word that is over is booked (spec/08 R137, R139, R142): the last steps of `finish`, said once with the wave and the state they find, so
that the quadrant, HANGCNT and the tenant after a word can be read. -/
namespace Sys2Proof.Machine
open Sys2Proof.Safety

/-- A state that differs from another in its quadrants alone. -/
def QuadsOnly (s t : State) : Prop := ∃ q, t = { s with cores := { s.cores with quads := q } }

/-- The wave of a word that is over, before HANGCNT counts it: `x` but for pending results, tags and the notes of R137, R139, R154 and R168. -/
def Stamped (x v : Wave) : Prop :=
  ∃ pd tg wr pf ni li, v = { x with
    pend := pd, tags := tg, written := wr, held := none, heldAt := none, pinned := [], sleepSince := none,
    perf := pf, nextIssue := ni, lastIssue := li }

/-- What HANGCNT takes from a word that is over: 0 after a progress event, or the value that an MTS gives (R142, R153). -/
def Done.newCount (r : Done) : Option Nat := if r.progress then some 0 else r.hang

/-- The end of a word of the wave's own program, with nothing pending among what it names, up to the end of its wave: HANGCNT (R142), then the
quadrant (R137). -/
theorem finish_steps {c : Ctl} {u : Use} {s : State} {old w0 : Wave} {pc : CodeAddr} {active lanes : List Nat} {r : Done}
    (hw : s.wave? old.core old.slot = some w0) (own : old.hnd = none) (settled : s.pendOf old u true = []) :
    ∃ s1 w3 extra, QuadsOnly s s1 ∧ Stamped (r.lanes w0 pc active) w3 ∧ finish c u s old pc active lanes r =
      ((s1.bookHang w3 r.newCount).bookQuad w3 (c.yld || (u.yields && lanes.length != 0)) extra).endWave old.core old.slot := by
  unfold finish
  simp only [hw, own, settled, if_true]
  generalize hb : s.bookWrites old w0 u _ _ = w1
  obtain ⟨pd, tg, wr, hw1⟩ := hb ▸ bookWrites_spec w0 _ _ settled
  obtain ⟨m, hm⟩ := doneLanes_other r w0 pc active
  obtain ⟨m', hm'⟩ := doneLanes_other r w1 pc active
  have same : m' = m := by
    have := doneLanes_congr r pc active (w := w1) (x := w0) (by rw [hw1])
    rwa [hm, hm'] at this
  have moved : (w1.parkAll r.faults).advance pc active (r.faults.map Prod.fst) r = { w1 with lanes := m } := same ▸ hm'
  refine ⟨_, _, _, ?_, ?_, rfl⟩
  · split
    · exact ⟨s.cores.quads, rfl⟩
    · exact bookLatch_cases s old u
  · rw [moved, hm, hw1]
    simp only [Wave.released, own]
    exact ⟨_, _, _, _, _, _, rfl⟩

/-! ### The quadrant -/

/-- The quadrant after a word (R137). -/
theorem quad_bookQuad (s : State) (w : Wave) (yld : Bool) (extra : Nat) : ((s.bookQuad w yld extra).quad w.core w.quad).yielded = yld := by
  unfold State.bookQuad State.quad State.setQuad
  dsimp only
  rw [cellGet_cellSet, if_pos rfl]

/-- A word's guards do not bear on whether it yields. -/
theorem yields_guarded (u : Use) (c : Ctl) : (u.guarded c).yields = u.yields := by
  unfold Use.guarded
  split <;> rfl

section
variable {c : Ctl} {u : Use} {s : State} {w : Wave} {pc : CodeAddr}

/-- A clear word whose effect ends: its booking, step by step, up to the end of its wave. -/
theorem word_booked {body : Ex → Out} {s1 : State} {w1 : Wave} {r : Done} (h : Clear c u s w pc)
    (hb : body (clearEx c u s w pc) = .done s1 r) (hw : s1.wave? w.core w.slot = some w1) (hc : s1.ctl.cycle = s.ctl.cycle) :
    ∃ s2 w3 extra, QuadsOnly s1 s2 ∧ Stamped (r.lanes w1 pc (w.activeAt pc)) w3 ∧ w3.core = w.core ∧ w3.slot = w.slot ∧
      word c u body s = .next (((s2.bookHang w3 r.newCount).bookQuad w3 (c.yld || u.yields) extra).endWave w.core w.slot) := by
  have settled : s1.pendOf w (u.guarded c) true = [] := by rw [pendOf_congr w _ true hc]; exact h.settled
  obtain ⟨s2, w3, extra, quads, stamped, e⟩ := finish_steps (c := c) (u := u.guarded c) (lanes := execLanes c u.q w (w.activeAt pc)) (pc := pc)
    (active := w.activeAt pc) (r := r) hw h.pos.own settled
  have runs : (execLanes c u.q w (w.activeAt pc)).length != 0 := by simpa using h.some
  rw [yields_guarded, runs, Bool.and_true] at e
  obtain ⟨core, slot⟩ := State.wave?_core hw
  have spot : w3.core = w.core ∧ w3.slot = w.slot := by
    obtain ⟨m, hm⟩ := doneLanes_other r w1 pc (w.activeAt pc)
    obtain ⟨_, _, _, _, _, _, rfl⟩ := stamped
    rw [hm]
    exact ⟨core, slot⟩
  refine ⟨s2, w3, extra, quads, stamped, spot.1, spot.2, ?_⟩
  unfold clearEx at hb
  rw [word_clear h, hb]
  exact congrArg _ e

/-- The same where a lane is left that has not exited: its wave does not end. -/
theorem word_steps {body : Ex → Out} {s1 : State} {w1 : Wave} {r : Done} (h : Clear c u s w pc)
    (hb : body (clearEx c u s w pc) = .done s1 r) (hw : s1.wave? w.core w.slot = some w1) (hc : s1.ctl.cycle = s.ctl.cycle)
    (live : (r.lanes w1 pc (w.activeAt pc)).allExited = false) :
    ∃ s2 w3 extra, QuadsOnly s1 s2 ∧ Stamped (r.lanes w1 pc (w.activeAt pc)) w3 ∧ w3.core = w.core ∧ w3.slot = w.slot ∧
      word c u body s = .next ((s2.bookHang w3 r.newCount).bookQuad w3 (c.yld || u.yields) extra) := by
  obtain ⟨s2, w3, extra, quads, stamped, core, slot, e⟩ := word_booked h hb hw hc
  have stays : w3.allExited = false := by
    obtain ⟨_, _, _, _, _, _, rfl⟩ := stamped
    exact live
  have found : s2.wave? w3.core w3.slot = some w1 := by
    obtain ⟨_, rfl⟩ := quads
    rw [core, slot]
    exact hw
  obtain ⟨⟨hc, ha, counted⟩, -⟩ := bookHang_spec r.newCount found
  refine ⟨s2, w3, extra, quads, stamped, core, slot, e.trans ?_⟩
  rw [← core, ← slot]
  exact congrArg _ (endWave_live (v := { w3 with hangcnt := hc, hangArmed := ha }) counted stays)

/-- A clear word whose effect ends tells its quadrant whether it counts as YLD = 1 (R137, R147). -/
theorem word_yielded {body : Ex → Out} {s1 t : State} {w1 : Wave} {r : Done} (h : Clear c u s w pc)
    (hb : body (clearEx c u s w pc) = .done s1 r) (hw : s1.wave? w.core w.slot = some w1) (hc : s1.ctl.cycle = s.ctl.cycle)
    (live : (r.lanes w1 pc (w.activeAt pc)).allExited = false) (ht : word c u body s = .next t) :
    (t.quad w.core w.quad).yielded = (c.yld || u.yields) := by
  obtain ⟨s2, w3, extra, -, -, core, slot, e⟩ := word_steps h hb hw hc live
  cases ht.symm.trans e
  rw [Wave.quad, ← core, ← slot]
  exact quad_bookQuad ..

end

/-! ### NOP and YIELD (R147) -/

/-- YLD set by YIELD is YLD set in the word. -/
theorem finish_yields (c : Ctl) (u : Use) (s : State) (w : Wave) (pc : CodeAddr) (active : List Nat) {lanes : List Nat} (r : Done)
    (some : lanes ≠ []) :
    finish c { u with yields := true } s w pc active lanes r = finish { c with yld := true } u s w pc active lanes r := by
  obtain ⟨i, l, rfl⟩ := List.exists_cons_of_ne_nil some
  obtain ⟨ga, gb, hold, yld, stall⟩ := c
  cases yld <;> rfl

section
variable {c : Ctl} {u : Use} {s : State} {w : Wave} {pc : CodeAddr}

/-- A clear word that does nothing of its own is over, and its quadrant knows whether it yields. -/
theorem word_nothing_over (h : Clear c u s w pc) :
    ∃ t v, word c u nothing s = .next t ∧ Over s w w pc t v ∧ (t.quad w.core w.quad).yielded = (c.yld || u.yields) := by
  have done : nothing (clearEx c u s w pc) = .done s {} := rfl
  obtain ⟨j, active, ready⟩ := clear_lane h
  obtain ⟨t, v, e, done_over⟩ := word_over none false none h done (clear_wave h) rfl (fun _ _ => rfl)
  exact ⟨t, v, e, done_over, word_yielded h done (clear_wave h) rfl (doneLanes_live _ w pc (nodup_activeAt w pc) ready active) e⟩

/-- What a word names does not depend on whether it yields, by YLD or as YIELD does. -/
theorem guarded_yields (u : Use) (c : Ctl) (yld yields : Bool) :
    ({ u with yields := yields } : Use).guarded { c with yld := yld } = { u.guarded c with yields := yields } := by
  unfold Use.guarded
  split <;> rfl

/-- A clear word stays clear where it yields. -/
theorem clear_yields (h : Clear c u s w pc) (yld yields : Bool) : Clear { c with yld := yld } { u with yields := yields } s w pc := by
  obtain ⟨pos, some, hang, legal, mode, role, block, settled, kept, latch, pure⟩ := h
  refine ⟨pos, some, hang, legal, mode, role, block, ?_, ⟨kept.1, ?_⟩, latch, pure⟩
  · rw [guarded_yields]
    exact settled
  · rw [guarded_yields]
    exact kept.2

/-- YIELD is NOP with YLD set. -/
theorem word_yields_eq (h : Clear c u s w pc) : word c { u with yields := true } nothing s = word { c with yld := true } u nothing s := by
  rw [word_clear (clear_yields h c.yld true), word_clear (clear_yields h true u.yields)]
  have guarded := guarded_yields u c c.yld true
  exact congrArg _ ((congrArg (fun g => finish c g s w pc _ _ {}) guarded).trans (finish_yields c (u.guarded c) s w pc _ {} h.some))

end

/-- Settles O22: both words do nothing of their own (`word_nothing_over`), and YIELD books what NOP with YLD books (`word_yields_eq`). -/
theorem nopAndYield : Obligations.NopAndYield := by
  unfold Obligations.NopAndYield
  intro c s w pc h
  obtain ⟨t, v, e, done_over, yielded⟩ := word_nothing_over h
  obtain ⟨t', v', e', done_over', yielded'⟩ := word_nothing_over (clear_yields h c.yld true)
  exact ⟨⟨t, v, e, done_over, yielded.trans (Bool.or_false _)⟩, t', v', e', done_over', yielded'.trans (Bool.or_true _),
    (word_yields_eq h).symm.trans e'⟩

end Sys2Proof.Machine

/-! Words that move lanes (spec/08 R133, R148, R149; spec/21 R340, R343): where each active lane of a branch, a call, a return, an RCV, an EXIT or a
trapping word stands after it. -/
namespace Sys2Proof.Machine
open Sys2Proof.Safety

/-! ### What is listed for a lane -/

/-- The entry of a lane in a list with one for each of some lanes. -/
theorem find?_tagged {α : Type} (f : Nat → α) (j : Nat) : ∀ l : List Nat,
    (l.map (fun i => (i, f i))).find? (fun p => p.1 == j) = if j ∈ l then some (j, f j) else none
  | [] => rfl
  | i :: l => by
    rw [List.map_cons, List.find?_cons, find?_tagged f j l]
    by_cases h : i = j
    · simp [h]
    · simp [beq_false_of_ne h, Ne.symm h]

/-- The same where only the lanes that pass a test have an entry. -/
theorem find?_tagged_filter {α : Type} (f : Nat → α) (p : α → Bool) (j : Nat) (l : List Nat) :
    ((l.map (fun i => (i, f i))).filter (fun q => p q.2)).find? (fun q => q.1 == j) = if j ∈ l ∧ p (f j) = true then some (j, f j) else none := by
  have sifted : (l.map (fun i => (i, f i))).filter (fun q => p q.2) = (l.filter (fun i => p (f i))).map (fun i => (i, f i)) := by
    rw [List.filter_map]
    rfl
  simp only [sifted, find?_tagged, List.mem_filter]

/-! ### The lanes after a word -/

section
variable {c : Ctl} {u : Use} {s : State} {w : Wave} {pc : CodeAddr}

/-- A clear word that changes no more than the lanes of its wave, and leaves one that has not exited: where it sends each active lane. -/
theorem word_moves {body : Ex → Out} {s1 : State} {m : List Lane} {r : Done} {go : Nat → Lane → Lane} (h : Clear c u s w pc)
    (hb : body (clearEx c u s w pc) = .done s1 r) (kept : BookKept True s s1 w.core w.slot)
    (hw : s1.wave? w.core w.slot = some { w with lanes := m })
    (live : (r.lanes { w with lanes := m } pc (w.activeAt pc)).allExited = false)
    (sends : ∀ i < 32, (r.lanes { w with lanes := m } pc (w.activeAt pc)).lane i = if i ∈ w.activeAt pc then go i (w.lane i) else w.lane i) :
    ∃ t v, word c u body s = .next t ∧ Ends s w w pc go t v := by
  obtain ⟨t, v, e, hv, booked, k⟩ := word_done h hb hw kept.cycle live
  obtain ⟨tasks, ctl⟩ := kept.tasks trivial
  obtain ⟨m', hm'⟩ := doneLanes_other r { w with lanes := m } pc (w.activeAt pc)
  have lanes : ∀ i, v.lane i = (r.lanes { w with lanes := m } pc (w.activeAt pc)).lane i := fun i => by
    obtain ⟨_, _, _, _, _, _, _, _, rfl⟩ := booked
    rfl
  have calm : Calm s w → Calm s1 { w with lanes := m } := fun q => by
    unfold Calm State.tenant at *
    rw [tasks]
    exact q
  rw [hm'] at booked
  obtain ⟨_, _, _, _, _, _, _, _, rfl⟩ := booked
  exact ⟨t, _, e, hv, fun i hi => (lanes i).trans (sends i hi), ⟨rfl, rfl, rfl, rfl⟩, ⟨rfl, rfl⟩, specialKept_same rfl,
    fun q => ⟨(k.tasks (calm q)).1.trans tasks, (k.tasks (calm q)).2.trans ctl⟩, k.mem.trans kept.mem, k.ctxs.trans kept.ctxs,
    k.dev.trans kept.dev, fun a b hab => (k.waves a b hab).trans (kept.waves a b hab)⟩

/-- What a word makes of a lane: it parks where it faulted (R8), stays where it is told to, and else goes on (R133). -/
def Done.sends (r : Done) (pc : CodeAddr) (i : Nat) (l : Lane) : Lane :=
  match r.faults.find? (fun p => p.1 == i) with
  | some p => parked p.2.1 p.2.2 l
  | none => if i ∈ r.stay then l else { l with pc := r.nextPc pc i }

/-- Lanes that are as ready as they were after a word. -/
theorem lane_sends {r : Done} {v : Wave} (faults : ∀ p ∈ r.faults, p.1 ∈ w.activeAt pc)
    (ready : ∀ i ∈ w.activeAt pc, (v.lane i).st = .ready) (i : Nat) :
    (r.lanes v pc (w.activeAt pc)).lane i = if i ∈ w.activeAt pc then r.sends pc i (v.lane i) else v.lane i := by
  by_cases active : i ∈ w.activeAt pc
  · rw [if_pos active]
    exact lane_done r v pc (nodup_activeAt w pc) (ready i active) active
  · rw [if_neg active]
    exact lane_done_other r v pc faults active

/-- A clear word that changes nothing but where its lanes stand. -/
theorem word_sends {body : Ex → Out} {r : Done} {go : Nat → Lane → Lane} (h : Clear c u s w pc)
    (hb : body (clearEx c u s w pc) = .done s r) (faults : ∀ p ∈ r.faults, p.1 ∈ w.activeAt pc)
    (sends : ∀ i ∈ w.activeAt pc, r.sends pc i (w.lane i) = go i (w.lane i)) :
    ∃ t v, word c u body s = .next t ∧ Ends s w w pc go t v := by
  obtain ⟨j, active, ready⟩ := clear_lane h
  refine word_moves (m := w.lanes) h hb (bookKept_refl ..) (clear_wave h) (doneLanes_live r w pc (nodup_activeAt w pc) ready active)
    (fun i _ => (lane_sends faults (fun i => activeAt_ready) i).trans ?_)
  split
  · exact sends i ‹_›
  · rfl

/-- A lane of the executing ones that a word changes, and every other lane. -/
theorem lane_mapLanes {lanes : List Nat} (f : Lane → Lane) (standing : ∀ i ∈ lanes, i < w.lanes.length) (i : Nat) :
    (w.mapLanes (fun i => lanes.contains i) f).lane i = if i ∈ lanes then f (w.lane i) else w.lane i := by
  unfold Wave.mapLanes Wave.lane
  by_cases here : i < w.lanes.length
  · simp [here]
  · have gone : i ∉ lanes := fun hi => here (standing i hi)
    simp [here, gone]

/-- The executing lanes of a word stand among the wave's. -/
theorem execLanes_standing {q : Bool} : ∀ i ∈ execLanes c q w (w.activeAt pc), i < w.lanes.length :=
  fun _ hi => lane_lt_length (activeAt_ready (execLanes_sub hi))

/-- Lanes after a word that faults none of them. -/
theorem lane_sends_of_no_fault {r : Done} {v : Wave} (faults : r.faults = []) (same : v.lanes.length = w.lanes.length) (i : Nat) :
    (r.lanes v pc (w.activeAt pc)).lane i = if i ∈ w.activeAt pc then r.sends pc i (v.lane i) else v.lane i := by
  unfold Done.lanes Done.sends
  rw [faults]
  by_cases active : i ∈ w.activeAt pc
  · have standing : i < v.lanes.length := same ▸ lane_lt_length (activeAt_ready active)
    rw [if_pos active]
    refine (lane_advance pc [] r _ v i (nodup_activeAt w pc) standing active).trans ?_
    simp
  · rw [if_neg active]
    exact lane_advance_out pc [] r _ v active

/-- A word that faults no lane lets none exit. -/
theorem sends_st {r : Done} (faults : r.faults = []) (i : Nat) (l : Lane) : (r.sends pc i l).st = l.st := by
  unfold Done.sends
  rw [faults]
  dsimp only [List.find?_nil]
  split <;> rfl

/-- A lane that has not exited is one of the wave's. -/
theorem allExited_of_st {v : Wave} {j : Nat} (stays : (v.lane j).st ≠ .exited) : v.allExited = false := by
  refine allExited_of_lane (j := j) ?_ stays
  by_contra out
  rw [Wave.lane, List.getD_eq_default _ _ (Nat.le_of_not_lt out)] at stays
  exact stays rfl

/-- A clear word that changes its executing lanes, by `f`, of which one is left that has not exited, and moves them; the others go on. -/
theorem word_maps {body : Ex → Out} {r : Done} {f g : Lane → Lane} (h : Clear c u s w pc)
    (hb : body (clearEx c u s w pc) = .done (s.setWave (w.mapLanes (fun i => (execLanes c u.q w (w.activeAt pc)).contains i) f)) r)
    (faults : r.faults = []) (live : ∃ j, (if j ∈ execLanes c u.q w (w.activeAt pc) then f (w.lane j) else w.lane j).st ≠ .exited)
    (runs : ∀ i ∈ execLanes c u.q w (w.activeAt pc), ∀ l, r.sends pc i (f l) = g l)
    (passes : ∀ i, i ∉ execLanes c u.q w (w.activeAt pc) → ∀ l, r.sends pc i l = { l with pc := pc + 8 }) :
    ∃ t v, word c u body s = .next t ∧
      Ends s w w pc (fun i l => if i ∈ execLanes c u.q w (w.activeAt pc) then g l else { l with pc := pc + 8 }) t v := by
  have lanes := lane_sends_of_no_fault (r := r) (pc := pc) (w := w)
    (v := w.mapLanes (fun i => (execLanes c u.q w (w.activeAt pc)).contains i) f) faults (List.length_mapIdx ..)
  have mapped := lane_mapLanes f (execLanes_standing (c := c) (q := u.q) (w := w) (pc := pc))
  refine word_moves h hb (bookKept_setWave True s _) (State.wave?_setWave_self (clear_wave h) rfl rfl) ?_ (fun i _ => (lanes i).trans ?_)
  · obtain ⟨j, hj⟩ := live
    refine allExited_of_st (j := j) ?_
    rw [← mapped j] at hj
    refine (congrArg Lane.st (lanes j)).trans_ne ?_
    split
    · rw [sends_st faults]
      exact hj
    · exact hj
  · by_cases active : i ∈ w.activeAt pc
    · rw [if_pos active, if_pos active, mapped]
      by_cases runs_it : i ∈ execLanes c u.q w (w.activeAt pc)
      · rw [if_pos runs_it, if_pos runs_it, runs i runs_it]
      · rw [if_neg runs_it, if_neg runs_it, passes i runs_it]
    · rw [if_neg active, if_neg active, mapped, if_neg (fun hi => active (execLanes_sub hi))]

end

/-! ### Branches and returns (R148) -/

section
variable {c : Ctl} {u : Use} {s : State} {w : Wave} {pc : CodeAddr} {lanes : List Nat}

/-- A word that gives some lanes a target: these go there, and the others go on. -/
theorem sends_targets (target : Nat → CodeAddr) (i : Nat) (l : Lane) :
    ({ pcs := lanes.map (fun i => (i, target i)) } : Done).sends pc i l =
      if i ∈ lanes then { l with pc := target i } else { l with pc := pc + 8 } := by
  unfold Done.sends Done.nextPc
  rw [find?_tagged target]
  by_cases hi : i ∈ lanes <;> simp [hi]

/-- A word that faults some lanes alike: these park at it, and the others go on (R8). -/
theorem sends_alike (cause : Nat) (addr : Word) (i : Nat) (l : Lane) :
    ({ faults := alike lanes cause addr } : Done).sends pc i l = if i ∈ lanes then parked cause addr l else { l with pc := pc + 8 } := by
  unfold Done.sends Done.nextPc
  rw [find?_alike]
  by_cases hi : i ∈ lanes <;> simp [hi]

/-- A word that sends some lanes to addresses: one that is not a multiple of 8 faults (R21), the others go there. -/
theorem branchTo_sends (x : Ex) (target : Nat → CodeAddr) : ∃ r, branchTo x (lanes.map (fun i => (i, target i))) = .done x.s r ∧
    (∀ p ∈ r.faults, p.1 ∈ lanes) ∧ ∀ i l, r.sends pc i l = if i ∈ lanes then sent (target i) l else { l with pc := pc + 8 } := by
  refine ⟨_, rfl, fun p hp => ?_, fun i l => ?_⟩
  · simp only [List.mem_map, List.mem_filter] at hp
    obtain ⟨q, ⟨⟨i, hi, rfl⟩, -⟩, rfl⟩ := hp
    exact hi
  · unfold Done.sends Done.nextPc sent
    dsimp only
    rw [List.find?_map]
    have odd := find?_tagged_filter target (fun a => a.toNat % 8 != 0) i lanes
    have even := find?_tagged_filter target (fun a => a.toNat % 8 == 0) i lanes
    rw [show ((fun p : Nat × Nat × Word => p.1 == i) ∘ fun p : Nat × CodeAddr => (p.1, cALIGN, p.2.setWidth 64)) = fun q => q.1 == i from rfl,
      odd, even]
    by_cases hi : i ∈ lanes
    · by_cases h8 : (target i).toNat % 8 = 0 <;> simp [hi, h8]
    · simp [hi]

end
/-! ### The words of the table -/

section
variable {c : Ctl} {u : Use} {s : State} {w : Wave} {pc : CodeAddr}

/-- A clear word that gives lanes their targets and does nothing else. -/
theorem word_targets {body : Ex → Out} {lanes : List Nat} {target : Nat → CodeAddr} {go : Nat → Lane → Lane} (h : Clear c u s w pc)
    (hb : body (clearEx c u s w pc) = .done s { pcs := lanes.map (fun i => (i, target i)) })
    (sends : ∀ i ∈ w.activeAt pc, ∀ l, (if i ∈ lanes then { l with pc := target i } else { l with pc := pc + 8 }) = go i l) :
    ∃ t v, word c u body s = .next t ∧ Ends s w w pc go t v :=
  word_sends h hb (fun _ hp => absurd hp List.not_mem_nil) (fun i hi => (sends_targets target i _).trans (sends i hi _))

/-- A clear word that sends its executing lanes to addresses of their own. -/
theorem word_branchTo {body : Ex → Out} {target : Nat → CodeAddr} {go : Nat → Lane → Lane} (h : Clear c u s w pc)
    (hb : body (clearEx c u s w pc) =
      branchTo (clearEx c u s w pc) ((execLanes c u.q w (w.activeAt pc)).map (fun i => (i, target i))))
    (sends : ∀ i, (if i ∈ execLanes c u.q w (w.activeAt pc) then sent (target i) (w.lane i) else { w.lane i with pc := pc + 8 }) =
      go i (w.lane i)) :
    ∃ t v, word c u body s = .next t ∧ Ends s w w pc go t v := by
  obtain ⟨r, hr, faults, moves⟩ := branchTo_sends (pc := pc) (lanes := execLanes c u.q w (w.activeAt pc)) (clearEx c u s w pc) target
  exact word_sends h (hb.trans hr) (fun p hp => execLanes_sub (faults p hp)) (fun i _ => (moves i _).trans (sends i))

/-- A clear word that faults its executing lanes alike. -/
theorem word_faultAll {body : Ex → Out} {cause : Nat} {addr : Word} (h : Clear c u s w pc)
    (hb : body (clearEx c u s w pc) = faultAll (clearEx c u s w pc) cause addr) :
    ∃ t v, word c u body s = .next t ∧ Ends s w w pc
      (fun i l => if i ∈ execLanes c u.q w (w.activeAt pc) then parked cause addr l else { l with pc := pc + 8 }) t v := by
  refine word_sends (r := { faults := alike (execLanes c u.q w (w.activeAt pc)) cause addr }) h hb (fun p hp => ?_)
    (fun i _ => sends_alike cause addr i _)
  obtain ⟨i, hi, rfl⟩ := List.mem_map.mp hp
  exact execLanes_sub hi

/-- Some executing lane has not exited, whatever a word makes of it that leaves it ready. -/
theorem live_of_ready (h : Clear c u s w pc) (f : Lane → Lane) (st : ∀ l, (f l).st = l.st) :
    ∃ j, (if j ∈ execLanes c u.q w (w.activeAt pc) then f (w.lane j) else w.lane j).st ≠ .exited := by
  obtain ⟨j, -, ready⟩ := clear_lane h
  refine ⟨j, ?_⟩
  split
  · rw [st, ready]
    exact LaneSt.noConfusion
  · rw [ready]
    exact LaneSt.noConfusion

/-- A lane is left where not all that have not exited execute the word. -/
theorem live_of_not_allLeft {lanes : List Nat} (left : allLeft w lanes = false) (f : Lane → Lane) :
    ∃ j, (if j ∈ lanes then f (w.lane j) else w.lane j).st ≠ .exited := by
  simp only [allLeft, List.all_eq_false, Bool.not_eq_true, Bool.or_eq_false_iff, beq_eq_false_iff_ne] at left
  obtain ⟨j, -, stays, out⟩ := left
  refine ⟨j, ?_⟩
  rw [if_neg (by simpa using out)]
  exact stays

end

/-- Settles O24: by the table, each word gives its lanes targets, sends them to addresses of their own, faults them alike, or changes them and
moves them on. -/
theorem laneWords : Obligations.LaneWords := by
  unfold Obligations.LaneWords
  intro i c u f s w pc go hi h hgo
  unfold goWord at hi
  split at hi
  case h_1 => -- BRA
    cases hi
    cases hgo
    exact word_targets (target := fun _ => targetOf pc _) h rfl (fun _ _ _ => rfl)
  case h_2 => -- BRAU: the whole active set
    cases hi
    cases hgo
    exact word_targets (target := fun _ => targetOf pc _) h rfl (fun _ active _ => if_pos active)
  case h_3 => -- CALL: LINK, then the target
    cases hi
    cases hgo
    exact word_maps (u := { bubble := true }) h (by rw [clearEx_wave h]; rfl) rfl
      (live_of_ready h (fun l => { l with link := pc + 8 }) (fun _ => rfl))
      (fun i hi l => (sends_targets _ i _).trans (if_pos hi)) (fun i hi l => (sends_targets _ i l).trans (if_neg hi))
  case h_4 => -- BRX
    cases hi
    cases hgo
    refine word_branchTo (u := { vr := [_], bubble := true }) (target := fun i => (w.vreg _ i).setWidth 48) h
      (congrArg _ (List.map_congr_left (fun i hi => ?_))) (fun _ => rfl)
    rw [clearEx_v h (execLanes_lt (c := c) (q := false) (w := w) (pc := pc) i hi)]
  case h_5 => -- RET
    cases hi
    cases hgo
    exact word_branchTo (target := fun i => (w.lane i).link) h (by rw [clearEx_wave h]; rfl) (fun _ => rfl)
  case h_6 => -- RCV beside parked lanes: the executing ones are held at it
    cases hi
    dsimp only at hgo
    split at hgo
    case isTrue => cases hgo
    case isFalse beside =>
      cases hgo
      refine word_maps (u := {}) (r := { stay := execLanes c false w (w.activeAt pc), progress := true }) h ?_ rfl
        (live_of_ready h (fun l => { l with atRcv := true }) (fun _ => rfl)) (fun i hi l => if_pos hi) (fun i hi l => if_neg hi)
      rw [clearEx_wave h]
      exact if_neg (by simpa using beside)
  case h_7 => -- EXIT that leaves a lane
    cases hi
    dsimp only at hgo
    split at hgo
    case isTrue => cases hgo
    case isFalse left =>
      cases hgo
      exact word_maps (u := { bubble := true }) (r := { progress := true }) h (by rw [clearEx_wave h]; rfl) rfl
        (live_of_not_allLeft (Bool.eq_false_of_not_eq_true left) (fun l => { l with st := .exited })) (fun i hi l => rfl) (fun i hi l => rfl)
  case h_8 => -- TRAP
    cases hi
    cases hgo
    exact word_faultAll h rfl
  case h_9 => -- BKPT with DEBUG
    cases hi
    dsimp only at hgo
    split at hgo
    case isTrue debug =>
      cases hgo
      refine word_faultAll h (if_pos ?_)
      rw [clearEx_l h]
      exact debug
    case isFalse => cases hgo
  case h_10 => -- RTE outside a handler
    cases hi
    cases hgo
    refine word_faultAll h ?_
    rw [clearEx_wave h]
    dsimp only
    rw [h.pos.own]
  case h_11 => cases hi

end Sys2Proof.Machine

/-! Words that go on without a register, and words that hold their wave (spec/08 R136, R147, R149 to R151; spec/21 R343; spec/23 R356): by their
tables, what each body answers for a clear word. -/
namespace Sys2Proof.Machine
open Sys2Proof.Safety

/-- A clear word finds the state as it stands. -/
theorem clearEx_s (c : Ctl) (u : Use) (s : State) (w : Wave) (pc : CodeAddr) : (clearEx c u s w pc).s = s := rfl

/-! ### Words that go on -/

/-- WAIT whose counts are reached only makes registers ready that it waited for (R150, R236). -/
theorem word_waits_over {c : Ctl} {s : State} {w : Wave} {pc : CodeAddr} {ld st cp tl : Nat} (h : Clear c {} s w pc)
    (reached : w.countsAt ld st cp tl = true) : ∃ t v, exec (.wait c ld st cp tl) s = .next t ∧ Over s w w pc t v := by
  obtain ⟨t, v, e, went, ⟨m, _, _, _, _, _, _, _, _, rfl⟩, rest⟩ := word_wave (w1 := w.readyOps) (body := fun x =>
    if x.wave.countsAt ld st cp tl then .done (x.s.setWave x.wave.readyOps) {} else .hold x.s (.wait ld st cp tl)) none false none h
    (by rw [clearEx_wave h]; exact if_pos reached) rfl rfl rfl rfl rfl
  exact ⟨t, _, e, went.wave, went.lanes, ⟨rfl, rfl, rfl, rfl⟩, ⟨rfl, rfl⟩, specialKept_same rfl, rest.calm, rest.mem, rest.ctxs, rest.dev,
    rest.waves⟩

/-- Each word of the table that has its effect is over with it. -/
theorem hasEffect_stillWord : HasEffect stillWord := by
  intro i c u f s w pc s1 w1 hi h hf
  unfold stillWord at hi
  split at hi
  case h_1 => -- NOP
    cases hi
    cases hf
    exact word_over none false none h rfl (clear_wave h) rfl (fun _ _ => rfl)
  case h_2 => -- YIELD
    cases hi
    cases hf
    exact word_over none false none h rfl (clear_wave h) rfl (fun _ _ => rfl)
  case h_3 => -- BKPT without DEBUG
    cases hi
    dsimp only at hf
    split at hf
    case isTrue => cases hf
    case isFalse plain =>
      cases hf
      refine word_over none false none h (if_neg ?_) (clear_wave h) rfl (fun _ _ => rfl)
      rw [clearEx_l h]
      exact plain
  case h_4 => -- WAIT whose counts are reached
    cases hi
    dsimp only at hf
    split at hf
    case isTrue reached =>
      cases hf
      exact word_waits_over h reached
    case isFalse => cases hf
  case h_5 => -- RCV with no lane parked
    cases hi
    dsimp only at hf
    split at hf
    case isTrue none_parked =>
      cases hf
      refine word_over none true none h ?_ (clear_wave h) rfl (fun _ _ => rfl)
      rw [clearEx_wave h, none_parked]
      rfl
    case isFalse => cases hf
  case h_6 => -- SLEEP that is over
    cases hi
    dsimp only at hf
    split at hf
    case isTrue slept =>
      cases hf
      refine word_effect none false none h ?_ (clear_wave h) rfl rfl rfl (fun _ _ => rfl)
      rw [clearEx_wave h]
      exact if_pos slept
    case isFalse => cases hf
  case h_7 => -- PHINT: the wave stops where it was asked to and none of its lanes is elsewhere
    cases hi
    dsimp only at hf
    split at hf
    case isTrue asked =>
      cases hf
      obtain ⟨q, hq⟩ := dropLatch_eq s w.core w.slot (fun _ => true)
      have found : (s.dropLatch w.core w.slot (fun _ => true)).wave? w.core w.slot = some w := by
        rw [hq]
        exact (clear_wave h :)
      refine word_effect none false none h ?_ found rfl rfl (by rw [hq]) (fun _ _ => rfl)
      rw [clearEx_wave h]
      exact if_pos asked
    case isFalse unasked =>
      cases hf
      refine word_over none false none h ?_ (clear_wave h) rfl (fun _ _ => rfl)
      rw [clearEx_wave h]
      exact if_neg unasked
  case h_8 => cases hi

/-! ### Words that hold -/

/-- Fence markers leave the waves as they are. -/
theorem spendCtls_wave? (f : State → Path → Stop) (core a b : Nat) : ∀ (l : List Path) (s : State),
    (l.foldl (fun t p => t.spendCtl core (f t p)) s).wave? a b = s.wave? a b
  | [], _ => rfl
  | _ :: l, _ => (spendCtls_wave? f core a b l _).trans rfl

/-- A word held at its release side leaves its wave in its slot, and in no handler (R310, R313). -/
theorem releaseSide_wave {s t : State} {w : Wave} {scope : Nat} (here : s.wave? w.core w.slot = some w) (own : w.hnd = none)
    (e : releaseSide s w scope = some t) : ∃ x, t.wave? w.core w.slot = some x ∧ x.hnd = none := by
  unfold releaseSide at e
  split at e
  · cases e
  · split at e
    · split at e
      · cases e
      · cases e
        exact ⟨w, here, own⟩
    · split at e
      · cases e
        exact ⟨_, State.wave?_setWave_self ((spendCtls_wave? ..).trans here) rfl rfl, own⟩
      · split at e
        · cases e
          exact ⟨w, here, own⟩
        · cases e

section
variable {c : Ctl} {u : Use} {s t : State} {w : Wave} {pc : CodeAddr} {g : Nat} {r : GroupRec} {wait : Bool}

/-- BAR and BARA wait for an earlier arrival of their wave that is not complete (R324). -/
theorem arriveBody_waits (h : Clear c u s w pc) (rec : w.grec g = some r) (arrived : r.arr = true) (open_ : ¬s.arrived w.launch r = true) :
    arriveBody g wait (clearEx c u s w pc) = .hold s .bar := by
  have incomplete : takeArrival s w r = none := by simp [takeArrival, arrived, open_]
  simp only [arriveBody, clearEx_wave h, rec]
  rw [clearEx_s, incomplete]

/-- Their release side comes before the arrival (R324). -/
theorem arriveBody_releases (h : Clear c u s w pc) (rec : w.grec g = some r) (new : ¬r.arr = true) (side : releaseSide s w 3 = some t) :
    arriveBody g wait (clearEx c u s w pc) = .hold t .release := by
  have none_before : takeArrival s w r = some s := by simp [takeArrival, new]
  simp only [arriveBody, clearEx_wave h, rec]
  rw [clearEx_s, none_before]
  dsimp only
  rw [clear_wave h]
  dsimp only [Option.getD_some]
  rw [side]

end

/-- A wait for storage leaves the waves as they are. -/
theorem queueWait_wave? (s : State) (w : Wave) (n : Nat) (remat : Option Nat) (a b : Nat) : (s.queueWait w n remat).wave? a b = s.wave? a b := by
  unfold State.queueWait
  dsimp only
  split <;> rfl

/-- A clear word that the table says is held answers with the hold that the table gives, and leaves its wave in its slot and in no handler. -/
theorem heldWord_holds {i : Instr} {c : Ctl} {u : Use} {f : State → Wave → CodeAddr → List Nat → Option (State × Held)} {s s1 : State}
    {w : Wave} {pc : CodeAddr} {k : Held} (hi : heldWord i = some (c, u, f)) (h : Clear c u s w pc)
    (hf : f s w pc (execLanes c u.q w (w.activeAt pc)) = some (s1, k)) :
    ∃ body, (∀ s, exec i s = word c u body s) ∧ body (clearEx c u s w pc) = .hold s1 k ∧
      ∃ x, s1.wave? w.core w.slot = some x ∧ x.hnd = none := by
  have still : ∃ x, s.wave? w.core w.slot = some x ∧ x.hnd = none := ⟨w, clear_wave h, h.pos.own⟩
  have released : ∀ {t : State} {scope : Nat}, releaseSide s w scope = some t → ∃ x, t.wave? w.core w.slot = some x ∧ x.hnd = none :=
    releaseSide_wave (clear_wave h) h.pos.own
  unfold heldWord at hi
  split at hi
  all_goals cases hi
  all_goals dsimp only at hf
  case h_1 => -- WAIT
    split at hf
    case isTrue => cases hf
    case isFalse more =>
      cases hf
      refine ⟨_, fun _ => rfl, ?_, still⟩
      rw [clearEx_wave h]
      exact if_neg more
  case h_2 => -- SLEEP: its deadline is set where it begins
    split at hf
    case isTrue => cases hf
    case isFalse awake =>
      split at hf
      case isTrue sleeps =>
        cases hf
        refine ⟨_, fun _ => rfl, ?_, still⟩
        rw [clearEx_wave h]
        exact (if_neg awake).trans (if_pos sleeps)
      case isFalse begins =>
        cases hf
        refine ⟨_, fun _ => rfl, ?_, _, State.wave?_setWave_self (clear_wave h) rfl rfl, h.pos.own⟩
        rw [clearEx_wave h]
        exact (if_neg awake).trans (if_neg begins)
  case h_3 => -- ACQX
    split at hf
    case isTrue => cases hf
    case isFalse asks =>
      cases hf
      simp only [not_or] at asks
      obtain ⟨undone, small, fits, unserved⟩ := asks
      refine ⟨_, fun _ => rfl, ?_, w, ?_, h.pos.own⟩
      · rw [clearEx_wave h]
        dsimp only
        rw [Option.not_isSome_iff_eq_none.mp undone]
        exact (if_neg (not_or.mpr ⟨small, fits⟩)).trans (if_neg unserved)
      · exact (queueWait_wave? ..).trans (clear_wave h)
  case h_4 | h_5 => -- BAR and BARA
    split at hf
    case h_1 rec =>
      split at hf
      case isTrue arrived =>
        split at hf
        case isTrue => cases hf
        case isFalse incomplete =>
          cases hf
          exact ⟨_, fun _ => rfl, arriveBody_waits h rec arrived incomplete, still⟩
      case isFalse new =>
        obtain ⟨t, side, e⟩ := Option.map_eq_some_iff.mp hf
        cases e
        exact ⟨_, fun _ => rfl, arriveBody_releases h rec new side, released side⟩
    case h_2 => cases hf
  case h_6 => -- BARW
    split at hf
    case h_1 r rec =>
      split at hf
      case isTrue waits =>
        cases hf
        refine ⟨_, fun _ => rfl, ?_, still⟩
        have incomplete : takeArrival s w r = none := by simp [takeArrival, waits]
        rw [clearEx_wave h, rec]
        dsimp only
        rw [clearEx_s, incomplete]
      case isFalse => cases hf
    case h_2 => cases hf
  case h_7 => -- CHSEND
    split at hf
    case h_1 k chan =>
      split at hf
      case isTrue => cases hf
      case isFalse sound =>
        have no_fault := Option.not_isSome_iff_eq_none.mp sound
        split at hf
        case isTrue full =>
          cases hf
          refine ⟨_, fun _ => rfl, ?_, still⟩
          rw [clearEx_wave h, clearEx_l h]
          dsimp only
          rw [clearEx_s, no_fault]
          dsimp only
          rw [chan]
          exact if_pos full
        case isFalse room =>
          obtain ⟨t, side, e⟩ := Option.map_eq_some_iff.mp hf
          cases e
          refine ⟨_, fun _ => rfl, ?_, released side⟩
          rw [clearEx_wave h, clearEx_l h]
          dsimp only
          rw [clearEx_s, no_fault]
          dsimp only
          rw [chan]
          refine (if_neg room).trans ?_
          rw [side]
    case h_2 => cases hf
  case h_8 => -- CHRECV
    split at hf
    case h_1 k chan =>
      split at hf
      case isTrue empty =>
        cases hf
        refine ⟨_, fun _ => rfl, ?_, still⟩
        rw [clearEx_wave h, clearEx_l h]
        dsimp only
        rw [clearEx_s, empty.2]
        dsimp only
        rw [chan]
        dsimp only
        rw [empty.1]
      case isFalse => cases hf
    case h_2 => cases hf
  case h_9 => -- SVC
    split at hf
    case isTrue taken =>
      cases hf
      refine ⟨_, fun _ => rfl, ?_, still⟩
      rw [clearEx_wave h]
      dsimp only
      rw [clearEx_s, taken]
    case isFalse => cases hf
  case h_10 => -- FENCE
    obtain ⟨t, side, e⟩ := Option.map_eq_some_iff.mp hf
    cases e
    refine ⟨_, fun _ => rfl, ?_, released side⟩
    rw [clearEx_wave h]
    dsimp only
    rw [clearEx_s, side]
  case h_11 => -- SRWT
    split at hf
    case isTrue waits =>
      cases hf
      refine ⟨_, fun _ => rfl, ?_, still⟩
      rw [clearEx_wave h, clearEx_sc h, clearEx_l h]
      dsimp only
      rw [if_neg (by simp [waits.1])]
      exact if_pos (bne_iff_ne.mpr waits.2)
    case isFalse => cases hf

/-- Each word of the table is held as the table says (R136). -/
theorem isHeld_heldWord : IsHeld heldWord := by
  intro i c u f s w pc s1 k hi h hf
  obtain ⟨body, runs, holds, x, found, own⟩ := heldWord_holds hi h hf
  obtain ⟨t, v, x, ht, rest⟩ := hold_of h holds found own
  exact ⟨t, v, x, (runs s).trans ht, rest⟩

/-- Settles O23: by the two tables (`hasEffect_stillWord`, `isHeld_heldWord`). -/
theorem stillAndHeldWords : Obligations.StillAndHeldWords := ⟨hasEffect_stillWord, isHeld_heldWord⟩

end Sys2Proof.Machine

/-! The end of a wave (spec/08 R134; spec/27 R387): what the groups of an ending wave are told, and what an EXIT of its last lanes leaves. -/
namespace Sys2Proof.Machine
open Sys2Proof.Safety

/-! ### Groups are told (R322) -/

/-- What stays when the groups of a wave of launch `u` are told of its end: memory, the device's registers, and how far the launch is. -/
structure GroupsTold (u : Nat) (s t : State) : Prop where
  mem : t.mem = s.mem
  dev : t.dev = s.dev
  known : Known t u
  ended : (t.launch u).ended = (s.launch u).ended
  endInfo : (t.launch u).endInfo = (s.launch u).endInfo
  nwave : (t.launch u).nwave = (s.launch u).nwave

namespace GroupsTold

variable {u : Nat} {s t : State}

theorem refl (known : Known s u) : GroupsTold u s s := ⟨rfl, rfl, known, rfl, rfl, rfl⟩

theorem trans {r : State} (h : GroupsTold u s t) (g : GroupsTold u t r) : GroupsTold u s r :=
  ⟨g.mem.trans h.mem, g.dev.trans h.dev, g.known, g.ended.trans h.ended, g.endInfo.trans h.endInfo, g.nwave.trans h.nwave⟩

/-- The launch replaced by one that is as far, where memory, the device's registers and the launches stand. -/
theorem setLaunch {l : Launch} (known : Known s u) (stays : t.mem = s.mem ∧ t.dev = s.dev ∧ t.tasks.launches = s.tasks.launches)
    (uid : l.uid = (s.launch u).uid) (far : l.ended = (s.launch u).ended ∧ l.endInfo = (s.launch u).endInfo ∧ l.nwave = (s.launch u).nwave) :
    GroupsTold u s (t.setLaunch l) := by
  obtain ⟨mem, dev, launches⟩ := stays
  obtain ⟨k, hk, hu⟩ := known
  have still : Known t u := ⟨k, launches ▸ hk, hu⟩
  have now : (t.setLaunch l).launch u = l := launch_setLaunch_of still rfl (uid.trans (launch_uid ⟨k, hk, hu⟩))
  exact ⟨mem, dev, known_setLaunch still, by rw [now, far.1], by rw [now, far.2.1], by rw [now, far.2.2]⟩

/-- A group of the launch replaced. -/
theorem setGroup (known : Known s u) (x : Group) : GroupsTold u s (s.setLaunch ((s.launch u).setGroup x)) :=
  setLaunch known ⟨rfl, rfl, rfl⟩ rfl ⟨rfl, rfl, rfl⟩

/-- The waves of a launch changed, resident or saved. -/
theorem mapWaves (known : Known s u) (f : Wave → Wave) : GroupsTold u s (s.mapWaves u f) :=
  setLaunch known ⟨rfl, rfl, rfl⟩ rfl ⟨rfl, rfl, rfl⟩

theorem settleGroup (known : Known s u) (g : Nat) : GroupsTold u s (s.settleGroup u g) := by
  unfold State.settleGroup
  dsimp only
  split
  · exact (setGroup known _).trans (mapWaves (known_setLaunch known) _)
  · split
    · exact setGroup known _
    · exact refl known

theorem endMember {w : Wave} (known : Known s w.launch) (r : GroupRec) : GroupsTold w.launch s (s.endMember w r) :=
  (setGroup known _).trans (settleGroup (known_setLaunch known) _)

/-- All groups of a wave. -/
theorem foldl {w : Wave} : ∀ (l : List GroupRec) {s : State}, Known s w.launch → GroupsTold w.launch s (l.foldl (fun t r => t.endMember w r) s)
  | [], _, known => refl known
  | r :: l, _, known => (endMember known r).trans (foldl l (endMember known r).known)

theorem leaveWave {w : Wave} (known : Known s w.launch) : GroupsTold w.launch s (s.leaveWave w) := by
  obtain ⟨mem, dev, still, ended, endInfo, nwave⟩ := foldl (w := w) w.groups known
  exact ⟨mem, dev, still, ended, endInfo, nwave⟩

end GroupsTold

/-- A wave gone has left its slot. -/
theorem wave?_leaveWave (s : State) (w : Wave) : (s.leaveWave w).wave? w.core w.slot = none := by
  refine List.find?_eq_none.mpr fun v hv => ?_
  have away := (List.mem_filter.mp hv).2
  simpa [imp_iff_not_or] using away

/-! ### The end of a wave (R134) -/

/-- A state that has lost a wave of launch `u` with number `wid` from a slot: what R134 says of the launch, and what stays. -/
structure WaveEnded (s t : State) (core slot u wid : Nat) : Prop where
  gone : t.wave? core slot = none
  ended : (t.launch u).ended = (s.launch u).ended ++ [wid]
  endInfo : (s.launch u).endInfo = none →
    (t.launch u).endInfo = if (s.launch u).nwave ≤ (s.launch u).ended.length + 1 then some ⟨0, 0, 0⟩ else none
  mem : t.mem = s.mem
  dev : t.dev = s.dev

/-- The launch notes the wave that has left. -/
theorem launch_noted {s : State} {u : Nat} (known : Known s u) (wid : Nat) :
    (s.setLaunch { s.launch u with ended := (s.launch u).ended ++ [wid] }).launch u = { s.launch u with ended := (s.launch u).ended ++ [wid] } :=
  launch_setLaunch_of known rfl (launch_uid known)

/-- A wave that has left its slot, noted by its launch, which completes with its last wave. -/
theorem waveEnded_noted {s t : State} {core slot u wid : Nat} (told : GroupsTold u s t) (gone : t.wave? core slot = none) :
    WaveEnded s
      (if (t.launch u).nwave ≤ (t.launch u).ended.length + 1 then
        (t.setLaunch { t.launch u with ended := (t.launch u).ended ++ [wid] }).endLaunch u ⟨0, 0, 0⟩
      else t.setLaunch { t.launch u with ended := (t.launch u).ended ++ [wid] }) core slot u wid := by
  obtain ⟨mem, dev, known, ended, endInfo, nwave⟩ := told
  have noted := launch_noted known wid
  generalize hl : ({ t.launch u with ended := (t.launch u).ended ++ [wid] } : Launch) = l at noted ⊢
  have notes : l.ended = (s.launch u).ended ++ [wid] := by rw [← hl, ← ended]
  have going_on : l.endInfo = (s.launch u).endInfo := by rw [← hl, ← endInfo]
  rw [nwave, ended]
  split
  case isFalse more =>
    exact ⟨gone, by rw [noted, notes], fun going => by rw [noted, going_on, going, if_neg more], mem, dev⟩
  case isTrue last =>
    have still : Known (t.setLaunch l) u := known_setLaunch known
    obtain ⟨k, only⟩ := endLaunch_launches (t.setLaunch l) u ⟨0, 0, 0⟩
    refine ⟨by rw [only]; exact gone, ?_, fun going => ?_, by rw [only]; exact mem, by rw [only]; exact dev⟩
    · cases before : ((t.setLaunch l).launch u).endInfo with
      | some f => rw [endLaunch_later before, noted, notes]
      | none => rw [endLaunch_launch still before, noted, notes]
    · rw [endLaunch_launch still (by rw [noted, going_on, going]), if_pos last]

/-- A resident wave all of whose lanes have exited, with nothing outstanding, ends. -/
theorem endWave_ends {s : State} {core slot : Nat} {w : Wave} (found : s.wave? core slot = some w) (exited : w.allExited = true)
    (drained : w.drained = true) (resident : w.resident = true) (known : Known s w.launch) :
    WaveEnded s (s.endWave core slot) core slot w.launch w.wid := by
  obtain ⟨rfl, rfl⟩ := State.wave?_core found
  obtain ⟨c, cores⟩ := (CoresOnly.dropWait s w).trans (CoresOnly.dropLatch _ w.core w.slot (fun _ => true))
  have told : GroupsTold w.launch s (((s.dropWait w).dropLatch w.core w.slot (fun _ => true)).leaveWave w) := by
    rw [cores]
    obtain ⟨mem, dev, still, ended, endInfo, nwave⟩ := GroupsTold.leaveWave (w := w) (s := { s with cores := c }) known
    exact ⟨mem, dev, still, ended, endInfo, nwave⟩
  unfold State.endWave
  simp only [found, exited, resident, drained, Bool.not_true, Bool.false_eq_true, if_true, if_false]
  exact waveEnded_noted told (wave?_leaveWave _ w)

/-! ### EXIT of the last lanes -/

/-- A wave has exited where every lane has. -/
theorem allExited_of_lanes {w : Wave} (h : ∀ i < w.lanes.length, (w.lane i).st = .exited) : w.allExited = true := by
  refine List.all_eq_true.mpr fun l hl => ?_
  obtain ⟨i, hi, rfl⟩ := List.getElem_of_mem hl
  have st := h i hi
  rw [Wave.lane, List.getD_eq_getElem _ _ hi] at st
  exact beq_iff_eq.mpr st

/-- What EXIT makes of a wave: its executing lanes have exited. -/
def Wave.exiting (w : Wave) (c : Ctl) (pc : CodeAddr) : Wave :=
  w.mapLanes (fun i => (execLanes c false w (w.activeAt pc)).contains i) (fun l => { l with st := .exited })

/-- After an EXIT of the last lanes every lane has exited. -/
theorem lane_exiting {c : Ctl} {w : Wave} {pc : CodeAddr}
    (left : ∀ i < w.lanes.length, (w.lane i).st = .exited ∨ i ∈ execLanes c false w (w.activeAt pc)) (i : Nat) :
    ((w.exiting c pc).lane i).st = .exited := by
  rw [Wave.exiting, lane_mapLanes _ execLanes_standing]
  split
  · rfl
  · by_cases hi : i < w.lanes.length
    · exact (left i hi).resolve_right ‹_›
    · rw [Wave.lane, List.getD_eq_default _ _ (Nat.le_of_not_lt hi)]
      rfl

/-- And so it has once the active lanes have gone on. -/
theorem allExited_exiting {c : Ctl} {w : Wave} {pc : CodeAddr} {r : Done} (faults : r.faults = [])
    (left : ∀ i < w.lanes.length, (w.lane i).st = .exited ∨ i ∈ execLanes c false w (w.activeAt pc)) :
    (r.lanes (w.exiting c pc) pc (w.activeAt pc)).allExited = true := by
  refine allExited_of_lanes fun i _ => ?_
  rw [lane_sends_of_no_fault faults (List.length_mapIdx ..)]
  split
  · rw [sends_st faults, lane_exiting left]
  · exact lane_exiting left i

/-- EXIT, step by step: it is a progress event, so HANGCNT is 0 after it (R142). -/
theorem exec_exit_booked {c : Ctl} {s : State} {w : Wave} {pc : CodeAddr} (h : Clear c { bubble := true } s w pc) :
    ∃ (s4 : State) (v : Wave), exec (.exit c) s = .next (s4.endWave w.core w.slot) ∧ s4.wave? w.core w.slot = some v ∧
      Stamped { ({ progress := true } : Done).lanes (w.exiting c pc) pc (w.activeAt pc) with hangcnt := 0 } v ∧
      s4.mem = s.mem ∧ s4.dev = s.dev ∧ s4.tasks = s.tasks := by
  have found : (s.setWave (w.exiting c pc)).wave? w.core w.slot = some (w.exiting c pc) := State.wave?_setWave_self (clear_wave h) rfl rfl
  obtain ⟨s2, w3, extra, ⟨q, rfl⟩, stamped, core, slot, e⟩ := word_booked (u := { bubble := true }) (r := { progress := true }) h
    (body := fun x => .done (x.s.setWave (x.wave.mapLanes (fun i => x.lanes.contains i) (fun l => { l with st := .exited }))) { progress := true })
    (by rw [clearEx_wave h]; rfl) found rfl
  refine ⟨_, { w3 with hangcnt := 0 }, e, State.wave?_setWave_self (w := w.exiting c pc) (v := { w3 with hangcnt := 0 }) found core slot, ?_,
    rfl, rfl, rfl⟩
  obtain ⟨_, _, _, _, _, _, rfl⟩ := stamped
  exact ⟨_, _, _, _, _, _, rfl⟩

/-- Settles O25: the word is booked with every lane exited (`exec_exit_booked`), and its wave ends (`endWave_ends`). -/
theorem lastExitEndsWave : Obligations.LastExitEndsWave := by
  unfold Obligations.LastExitEndsWave
  intro c s w pc h left drained resident known
  obtain ⟨s4, v, e, found, stamped, mem, dev, tasks⟩ := exec_exit_booked h
  have exited := allExited_exiting (r := { progress := true }) (pc := pc) rfl left
  obtain ⟨m, hm⟩ := doneLanes_other { progress := true } (w.exiting c pc) pc (w.activeAt pc)
  rw [hm] at stamped exited
  obtain ⟨_, _, _, _, _, _, rfl⟩ := stamped
  have same : ∀ u, s4.launch u = s.launch u := fun u => by rw [State.launch, tasks]; rfl
  obtain ⟨gone, ended, endInfo, mem', dev'⟩ := endWave_ends found exited drained resident (by rw [Known, tasks]; exact known)
  rw [same] at ended endInfo
  exact ⟨_, e, gone, ended, endInfo, mem'.trans mem, dev'.trans dev⟩

end Sys2Proof.Machine

/-! MTS (spec/08 R144, R153): what a write of a special register leaves of the wave, its lanes and its tenant, and what the word counts. -/
namespace Sys2Proof.Machine
open Sys2Proof.Safety

/-! ### What a word counts (R142) -/

/-- An upcall leaves HANGLIM and TOFS of its tenant. -/
theorem limits_upcall {s : State} {t : Nat} (bound : s.bound t = true) (code lid wid : Nat) :
    ((s.upcall t code lid wid).tenant t).hanglim = (s.tenant t).hanglim ∧ ((s.upcall t code lid wid).tenant t).tofs = (s.tenant t).tofs := by
  rw [tenant_upcall bound]
  exact ⟨rfl, rfl⟩

/-- The tenant of a wave after HANGCNT was counted: an upcall adds to its upcalls only (R143). -/
theorem tenant_bookHang {s : State} {w : Wave} (k : Option Nat) (bound : s.bound w.tenant = true) :
    ((s.bookHang w k).tenant w.tenant).hanglim = (s.tenant w.tenant).hanglim ∧
      ((s.bookHang w k).tenant w.tenant).tofs = (s.tenant w.tenant).tofs := by
  unfold State.bookHang
  dsimp only
  split
  · exact ⟨rfl, rfl⟩
  · split
    · exact ⟨rfl, rfl⟩
    · split
      · exact ⟨rfl, rfl⟩
      · exact limits_upcall (s := (s.setWave { w with hangcnt := 0 }).setLaunch { s.launch w.launch with hang := true }) bound _ _ _

/-- What a word that is over leaves of HANGCNT and of its tenant, where its effect left the state `s1` and its wave `w1`: `k` is the value an MTS
gives to HANGCNT. -/
structure Counted (k : Option Nat) (s1 : State) (w1 : Wave) (t : State) (v : Wave) : Prop where
  given : ∀ m, k = some m → v.hangcnt = m
  counts : k = none → Calm s1 w1 → v.hangcnt = min (w1.hangcnt + 1) (2 ^ 48 - 1)
  tenant : s1.bound w1.tenant = true → (t.tenant w1.tenant).hanglim = (s1.tenant w1.tenant).hanglim ∧
    (t.tenant w1.tenant).tofs = (s1.tenant w1.tenant).tofs

/-- HANGCNT as it is counted. -/
theorem counted_bookHang {k : Option Nat} {s : State} {w x : Wave} (found : s.wave? w.core w.slot = some x) :
    ∃ v, (s.bookHang w k).wave? w.core w.slot = some v ∧ Counted k s w (s.bookHang w k) v := by
  have put : ∀ n, (s.setWave { w with hangcnt := n }).wave? w.core w.slot = some { w with hangcnt := n } :=
    fun n => State.wave?_setWave_self found rfl rfl
  have tenant := fun bound => tenant_bookHang (s := s) (w := w) k bound
  cases k with
  | some m => exact ⟨_, put m, fun _ h => Option.some.inj h, fun h => (nomatch h), tenant⟩
  | none =>
    by_cases calm : Calm s w
    · have counted : s.bookHang w none = s.setWave { w with hangcnt := min (w.hangcnt + 1) (2 ^ 48 - 1) } :=
        if_pos (calm.imp id (fun h => (Nat.min_le_left ..).trans h))
      rw [counted]
      exact ⟨_, put _, fun _ h => (nomatch h), fun _ _ => rfl, fun _ => ⟨rfl, rfl⟩⟩
    · obtain ⟨⟨hc, ha, counted⟩, -⟩ := bookHang_spec none found
      exact ⟨_, counted, fun _ h => (nomatch h), fun _ h => absurd h calm, tenant⟩

/-- A clear word that is over with its effect, and what it counts. -/
theorem word_over_counted {c : Ctl} {u : Use} {s s1 : State} {w w1 : Wave} {pc : CodeAddr} {body : Ex → Out} (k : Option Nat)
    (h : Clear c u s w pc) (hb : body (clearEx c u s w pc) = .done s1 { hang := k }) (hw : s1.wave? w.core w.slot = some w1)
    (hc : s1.ctl.cycle = s.ctl.cycle) (hlane : ∀ i < 32, (w1.lane i).st = (w.lane i).st) :
    ∃ t v, word c u body s = .next t ∧ Over s1 w1 w pc t v ∧ Counted k s1 w1 t v := by
  obtain ⟨t, v, e, done_over⟩ := word_over none false k h hb hw hc hlane
  obtain ⟨j, active, ready⟩ := clear_lane h
  obtain ⟨s2, w3, extra, ⟨q, rfl⟩, stamped, core, slot, e'⟩ := word_steps h hb hw hc
    (doneLanes_live _ _ _ (nodup_activeAt w pc) (by rw [hlane j (mem_activeAt.1 active).1]; exact ready) active)
  cases e.symm.trans e'
  refine ⟨_, v, e, done_over, ?_⟩
  obtain ⟨v', found, counted⟩ := counted_bookHang (k := k) (w := w3) (x := w1)
    (s := { s1 with cores := { s1.cores with quads := q } }) (by rw [core, slot]; exact hw)
  have same : v' = v := by
    rw [core, slot] at found
    exact Option.some.inj (found.symm.trans done_over.wave)
  obtain ⟨m, hm⟩ := doneLanes_other { hang := k } w1 pc (w.activeAt pc)
  rw [hm] at stamped
  obtain ⟨_, _, _, _, _, _, rfl⟩ := stamped
  subst same
  exact ⟨counted.given, counted.counts, counted.tenant⟩

/-- The same where the effect changes the wave alone. -/
theorem word_wave_counted {c : Ctl} {u : Use} {s : State} {w w1 : Wave} {pc : CodeAddr} {body : Ex → Out} (h : Clear c u s w pc)
    (hb : body (clearEx c u s w pc) = .done (s.setWave w1) {}) (hcore : w1.core = w.core) (hslot : w1.slot = w.slot)
    (hlane : ∀ i < 32, (w1.lane i).st = (w.lane i).st) :
    ∃ t v, word c u body s = .next t ∧ Over s w1 w pc t v ∧ Counted none s w1 t v := by
  obtain ⟨t, v, e, o, counted⟩ := word_over_counted none h hb (State.wave?_setWave_self (clear_wave h) hcore hslot) rfl hlane
  refine ⟨t, v, e, ⟨o.wave, o.lanes, o.regs, o.flags, o.special, o.calm, o.mem, o.ctxs, o.dev, fun a b other => ?_⟩,
    ⟨counted.given, counted.counts, counted.tenant⟩⟩
  exact (o.waves a b other).trans (State.wave?_setWave_other s w1 (fun e => other ⟨e.1.symm.trans hcore, e.2.symm.trans hslot⟩))

/-! ### What MTS leaves -/

/-- A wave with one of the registers written that every mode may write, or a handler (R144, R153). -/
def Wave.specWritten (w : Wave) (s : State) (n : Spec) (x : Word) : Wave :=
  { w with
    fstat := if n = .fstat then w.stickyWrite s fstatBits w.fstat w.hwF x else w.fstat
    mstat := if n = .mstat then w.stickyWrite s mstatBits w.mstat w.hwM x else w.mstat
    trcause := if n = .trcause then x.setWidth 8 else w.trcause
    trpc := if n = .trpc then x.setWidth 48 else w.trpc
    trmask := if n = .trmask then x.setWidth 32 else w.trmask
    traddr := if n = .traddr then x else w.traddr
    rngctr := if n = .rngctr then x else w.rngctr }

/-- Two waves that differ in what only steward software writes of the other registers at most (R144). -/
def Renamed (x v : Wave) : Prop :=
  ∃ wid corepl diepl mode role adj, v = { x with wid := wid, corepl := corepl, diepl := diepl, mode := mode, role := role, adj := adj }

/-- What an MTS of `y` to the register `n` leaves of its state and of its wave. -/
structure MtsLeft (n : Spec) (s : State) (w : Wave) (lanes : List Nat) (y : Nat → Word) (s1 : State) (w1 : Wave) : Prop where
  mem : s1.mem = s.mem
  dev : s1.dev = s.dev
  links : ∀ i < 32, w1.lane i = if n = .link ∧ i ∈ lanes then { w.lane i with link := (y i).setWidth 48 } else w.lane i
  regs : Renamed { w.specWritten s n (y (lanes.headD 0)) with lanes := w1.lanes } w1
  names : w.mode ≠ 2 → w1 = { w.specWritten s n (y (lanes.headD 0)) with lanes := w1.lanes }
  bound : s1.bound w.tenant = s.bound w.tenant
  limit : n ≠ .hanglim → (s1.tenant w.tenant).hanglim = (s.tenant w.tenant).hanglim
  hanglim : n = .hanglim → s.bound w.tenant = true →
    (s1.tenant w.tenant).hanglim = if 1 ≤ w.mode then bits (y (lanes.headD 0)).toNat 47 0 else (s.tenant w.tenant).hanglim
  tofs : n = .tofs → s.bound w.tenant = true → (s1.tenant w.tenant).tofs = (y (lanes.headD 0)).toNat
  offset : n ≠ .tofs → n ≠ .time → (s1.tenant w.tenant).tofs = (s.tenant w.tenant).tofs

namespace MtsLeft

variable {n : Spec} {s s1 : State} {w w1 : Wave} {lanes : List Nat} {y : Nat → Word}

/-- A write that leaves the tenants. -/
theorem of_tasks (mem : s1.mem = s.mem) (dev : s1.dev = s.dev) (tasks : s1.tasks = s.tasks) (lim : n = .hanglim → w.mode = 0) (off : n ≠ .tofs)
    (hlanes : ∀ i < 32, w1.lane i = if n = .link ∧ i ∈ lanes then { w.lane i with link := (y i).setWidth 48 } else w.lane i)
    (regs : Renamed { w.specWritten s n (y (lanes.headD 0)) with lanes := w1.lanes } w1)
    (names : w.mode ≠ 2 → w1 = { w.specWritten s n (y (lanes.headD 0)) with lanes := w1.lanes }) : MtsLeft n s w lanes y s1 w1 := by
  have same := tenant_of_tasks tasks w.tenant
  exact ⟨mem, dev, hlanes, regs, names, by rw [State.bound, tasks]; rfl, fun _ => by rw [same],
    fun e _ => by rw [same, lim e]; rfl, fun e => absurd e off, fun _ _ => by rw [same]⟩

/-- A write of the wave by which its lanes stay. -/
theorem of_wave (kept : s1.mem = s.mem ∧ s1.dev = s.dev ∧ s1.tasks = s.tasks) (link : n ≠ .link) (lim : n = .hanglim → w.mode = 0)
    (off : n ≠ .tofs) (regs : Renamed (w.specWritten s n (y (lanes.headD 0))) w1)
    (names : w.mode ≠ 2 → w1 = w.specWritten s n (y (lanes.headD 0))) : MtsLeft n s w lanes y s1 w1 := by
  obtain ⟨mem, dev, tasks⟩ := kept
  have stay : w1.lanes = w.lanes := by
    obtain ⟨_, _, _, _, _, _, rfl⟩ := regs
    rfl
  refine of_tasks mem dev tasks lim off (fun i _ => ?_) ?_ (fun h => ?_)
  · rw [if_neg (fun h => link h.1), Wave.lane, stay, ← Wave.lane]
  · rw [stay]
    exact regs
  · rw [stay]
    exact names h

end MtsLeft

/-- What is read of the tenant of a wave after it was replaced by one alike in that. -/
theorem tenant_setTenant_alike {α : Type} (f : Tenant → α) {s : State} {t : Nat} {k : Tenant} (id : k.id = (s.tenant t).id)
    (alike : f k = f (s.tenant t)) : f ((s.setTenant k).tenant t) = f (s.tenant t) := by
  cases bound : s.bound t with
  | true => rw [tenant_setTenant_of bound rfl (id.trans (tenant_id bound)), alike]
  | false =>
    by_cases own : t = k.id
    · have blank : ∀ u : State, u.bound t = false → u.tenant t = Tenant.blank := fun u hu => by
        by_contra other
        rw [bound_of_ne other] at hu
        exact nomatch hu
      rw [blank s bound, blank _ ((bound_setTenant ..).trans bound)]
    · rw [tenant_setTenant_ne s own]

/-- A write of the tenant. -/
theorem MtsLeft.of_tenant {n : Spec} {s : State} {w : Wave} {lanes : List Nat} {y : Nat → Word} {k : Tenant} (link : n ≠ .link)
    (id : k.id = (s.tenant w.tenant).id) (same : w = w.specWritten s n (y (lanes.headD 0)))
    (limit : n ≠ .hanglim → k.hanglim = (s.tenant w.tenant).hanglim)
    (hanglim : n = .hanglim → k.hanglim = if 1 ≤ w.mode then bits (y (lanes.headD 0)).toNat 47 0 else (s.tenant w.tenant).hanglim)
    (tofs : n = .tofs → k.tofs = (y (lanes.headD 0)).toNat) (offset : n ≠ .tofs → n ≠ .time → k.tofs = (s.tenant w.tenant).tofs) :
    MtsLeft n s w lanes y (s.setTenant k) w := by
  have now : s.bound w.tenant = true → (s.setTenant k).tenant w.tenant = k := fun bound =>
    tenant_setTenant_of bound rfl (id.trans (tenant_id bound))
  refine ⟨rfl, rfl, fun i _ => (if_neg (fun h => link h.1)).symm, ?_, fun _ => ?_, bound_setTenant .., fun h => ?_, fun h bound => ?_,
    fun h bound => ?_, fun h h' => ?_⟩
  · rw [← same]
    exact ⟨_, _, _, _, _, _, rfl⟩
  · rw [← same]
  · exact tenant_setTenant_alike Tenant.hanglim id (limit h)
  · rw [now bound, hanglim h]
  · rw [now bound, tofs h]
  · exact tenant_setTenant_alike Tenant.tofs id (offset h h')

/-- What only steward software writes (R144): a register of the wave that mirrors the machine, or one of the tenant. -/
theorem stewardWrite_left {n : Spec} {s : State} {w : Wave} {lanes : List Nat} {y : Nat → Word} (found : s.wave? w.core w.slot = some w)
    (steward : w.mode = 2) (link : n ≠ .link) (tofs : n ≠ .tofs) (lim : n ≠ .hanglim) (same : w.specWritten s n (y (lanes.headD 0)) = w) :
    ∃ w1, (stewardWrite s w n (y (lanes.headD 0))).wave? w.core w.slot = some w1 ∧
      MtsLeft n s w lanes y (stewardWrite s w n (y (lanes.headD 0))) w1 := by
  have put : ∀ v, v.core = w.core → v.slot = w.slot → Renamed w v →
      ∃ w1, (s.setWave v).wave? w.core w.slot = some w1 ∧ MtsLeft n s w lanes y (s.setWave v) w1 := fun v core slot regs =>
    ⟨v, State.wave?_setWave_self found core slot,
      .of_wave ⟨rfl, rfl, rfl⟩ link (absurd · lim) tofs (same.symm ▸ regs) (absurd steward)⟩
  unfold stewardWrite
  split
  case h_7 => exact ⟨w, found, .of_tenant link rfl same.symm (fun _ => rfl) (absurd · lim) (absurd · tofs) (fun _ h => absurd rfl h)⟩
  case h_8 => exact ⟨w, found, .of_tenant link rfl same.symm (fun _ => rfl) (absurd · lim) (absurd · tofs) (fun _ _ => rfl)⟩
  case h_13 =>
    exact ⟨w, found, .of_wave ⟨rfl, rfl, rfl⟩ link (absurd · lim) tofs (same.symm ▸ ⟨_, _, _, _, _, _, rfl⟩) (absurd steward)⟩
  all_goals exact put _ rfl rfl ⟨_, _, _, _, _, _, rfl⟩

/-- A register that only steward software writes, or that has no bits of its own here: in any other mode the write is ignored. -/
theorem writeSpec_left_steward {n : Spec} {s : State} {w : Wave} {lanes : List Nat} {y : Nat → Word} (found : s.wave? w.core w.slot = some w)
    (writes : writeSpec s w n (y (lanes.headD 0)) = if w.mode = 2 then stewardWrite s w n (y (lanes.headD 0)) else s)
    (link : n ≠ .link) (tofs : n ≠ .tofs) (lim : n ≠ .hanglim) (same : w.specWritten s n (y (lanes.headD 0)) = w) :
    ∃ w1, (writeSpec s w n (y (lanes.headD 0))).wave? w.core w.slot = some w1 ∧
      MtsLeft n s w lanes y (writeSpec s w n (y (lanes.headD 0))) w1 := by
  rw [writes]
  split
  · exact stewardWrite_left found ‹_› link tofs lim same
  · exact ⟨w, found, .of_wave ⟨rfl, rfl, rfl⟩ link (absurd · lim) tofs (same.symm ▸ ⟨_, _, _, _, _, _, rfl⟩) (fun _ => same.symm)⟩

/-- Every register that MTS writes once for the wave, but HANGCNT. -/
theorem writeSpec_left {n : Spec} {s : State} {w : Wave} (lanes : List Nat) (y : Nat → Word) (found : s.wave? w.core w.slot = some w)
    (link : n ≠ .link) (laneid : n ≠ .laneid) (hangcnt : n ≠ .hangcnt) :
    ∃ w1, (writeSpec s w n (y (lanes.headD 0))).wave? w.core w.slot = some w1 ∧
      MtsLeft n s w lanes y (writeSpec s w n (y (lanes.headD 0))) w1 := by
  cases n
  case link => exact absurd rfl link
  case laneid => exact absurd rfl laneid
  case hangcnt => exact absurd rfl hangcnt
  case fstat | mstat | trcause | trpc | trmask | traddr | rngctr =>
    exact ⟨_, State.wave?_setWave_self found rfl rfl,
      .of_wave ⟨rfl, rfl, rfl⟩ Spec.noConfusion Spec.noConfusion Spec.noConfusion ⟨_, _, _, _, _, _, rfl⟩ (fun _ => rfl)⟩
  case tofs => exact ⟨w, found, .of_tenant link rfl rfl (fun _ => rfl) Spec.noConfusion (fun _ => rfl) (absurd rfl)⟩
  case hanglim =>
    by_cases user : w.mode = 0
    · rw [show writeSpec s w .hanglim (y (lanes.headD 0)) = s from if_pos user]
      exact ⟨w, found, .of_wave ⟨rfl, rfl, rfl⟩ link (fun _ => user) Spec.noConfusion ⟨_, _, _, _, _, _, rfl⟩ (fun _ => rfl)⟩
    · rw [show writeSpec s w .hanglim (y (lanes.headD 0)) = s.setTenant { s.tenant w.tenant with hanglim := bits (y (lanes.headD 0)).toNat 47 0 }
        from if_neg user]
      exact ⟨w, found, .of_tenant link rfl rfl (absurd rfl) (fun _ => (if_pos (Nat.pos_of_ne_zero user)).symm) Spec.noConfusion
        (fun _ _ => rfl)⟩
  case waveid | corepl | diepl | quad | mode | role | time | loss | cntld | cntst | cntcp | cnttl =>
    exact writeSpec_left_steward found rfl Spec.noConfusion Spec.noConfusion Spec.noConfusion rfl

/-! ### MTS as it runs -/

/-- LINK written in some lanes. -/
theorem foldl_link (x : Nat → CodeAddr) : ∀ (lanes : List Nat) (w : Wave), (∀ i ∈ lanes, i < w.lanes.length) →
    (∃ m, lanes.foldl (fun v i => v.setLane i { v.lane i with link := x i }) w = { w with lanes := m }) ∧
      ∀ i, (lanes.foldl (fun v i => v.setLane i { v.lane i with link := x i }) w).lane i =
        if i ∈ lanes then { w.lane i with link := x i } else w.lane i
  | [], w, _ => ⟨⟨w.lanes, rfl⟩, fun i => (if_neg List.not_mem_nil).symm⟩
  | j :: lanes, w, standing => by
    have here : j < w.lanes.length := standing j List.mem_cons_self
    obtain ⟨⟨m, hm⟩, links⟩ := foldl_link x lanes (w.setLane j { w.lane j with link := x j })
      (fun i hi => (standing i (List.mem_cons_of_mem _ hi)).trans_eq (List.length_set ..).symm)
    refine ⟨⟨m, hm⟩, fun i => (links i).trans ?_⟩
    by_cases own : i = j
    · subst own
      simp [lane_setLane_self _ here]
    · simp [lane_setLane_ne _ own, own]

/-- LANEID written in some lanes. -/
theorem foldl_adjust (x : Nat → Word) : ∀ (lanes : List Nat) (w : Wave),
    ∃ a, lanes.foldl (fun v i => v.adjust i 5 i (x i)) w = { w with adj := a }
  | [], w => ⟨w.adj, rfl⟩
  | j :: lanes, w => by
    obtain ⟨a, ha⟩ := foldl_adjust x lanes (w.adjust j 5 j (x j))
    exact ⟨a, ha⟩

section
variable {c : Ctl} {u : Use} {s : State} {w : Wave} {pc : CodeAddr} {a : VS} {n : Spec}

/-- The word of an MTS. -/
theorem exec_mts (c : Ctl) (a : VS) (n : Spec) (s : State) : exec (.mts c a n) s =
    word c { vr := vsV a, sr := vsS a, mode := specMode n, hok := (vsV a).isEmpty } (mtsBody n (fun x => x.b a)) s := by
  cases a <;> rfl

/-- The source of a clear MTS in an executing lane. -/
theorem clearEx_operand (h : Clear c u s w pc) (a : VS) {i : Nat} (hi : i ∈ execLanes c u.q w (w.activeAt pc)) :
    (clearEx c u s w pc).b a i = operand w a i :=
  clearEx_b h a (execLanes_lt i hi)

/-- The lowest executing lane executes the word. -/
theorem first_mem (h : Clear c u s w pc) : (execLanes c u.q w (w.activeAt pc)).headD 0 ∈ execLanes c u.q w (w.activeAt pc) := by
  obtain ⟨i, l, e⟩ := List.exists_cons_of_ne_nil h.some
  rw [e]
  exact List.mem_cons_self

/-- The mode a clear word reads. -/
theorem clearEx_mode (h : Clear c u s w pc) : (clearEx c u s w pc).w.mode = w.mode := by
  obtain ⟨m, hm⟩ := clearEx_w h
  rw [hm]

/-- LINK is written in the executing lanes. -/
theorem mtsBody_link (h : Clear c u s w pc) (a : VS) : mtsBody .link (fun x => x.b a) (clearEx c u s w pc) =
    .done (s.setWave ((execLanes c u.q w (w.activeAt pc)).foldl (fun v i => v.setLane i { v.lane i with link := (operand w a i).setWidth 48 }) w))
      {} := by
  simp only [mtsBody, clearEx_wave h]
  exact congrArg (fun v => Out.done (s.setWave v) {}) (List.foldl_ext _ _ w fun v i hi => by rw [clearEx_operand h a hi])

/-- LANEID is written in the executing lanes, by steward software. -/
theorem mtsBody_laneid (h : Clear c u s w pc) (a : VS) (steward : w.mode = 2) : mtsBody .laneid (fun x => x.b a) (clearEx c u s w pc) =
    .done (s.setWave ((execLanes c u.q w (w.activeAt pc)).foldl (fun v i => v.adjust i 5 i (operand w a i)) w)) {} := by
  simp only [mtsBody, clearEx_wave h, clearEx_mode h, steward, if_true]
  exact congrArg (fun v => Out.done (s.setWave v) {}) (List.foldl_ext _ _ w fun v i hi => by rw [clearEx_operand h a hi])

/-- In any other mode the write of LANEID is ignored. -/
theorem mtsBody_laneid_ignored (h : Clear c u s w pc) (a : VS) (other : w.mode ≠ 2) :
    mtsBody .laneid (fun x => x.b a) (clearEx c u s w pc) = .done s {} := by
  simp only [mtsBody, clearEx_mode h, other, if_false]
  rfl

/-- HANGCNT takes the value after the word, in a mode that may write it. -/
theorem mtsBody_hangcnt (h : Clear c u s w pc) (a : VS) : mtsBody .hangcnt (fun x => x.b a) (clearEx c u s w pc) =
    .done s { hang := if 1 ≤ w.mode then some (bits (operand w a ((execLanes c u.q w (w.activeAt pc)).headD 0)).toNat 47 0) else none } := by
  rw [← clearEx_operand h a (first_mem h)]
  simp only [mtsBody, clearEx_mode h]
  by_cases user : w.mode = 0
  · rw [if_pos user, if_neg (by omega)]
    rfl
  · rw [if_neg user, if_pos (Nat.one_le_iff_ne_zero.mpr user)]
    rfl

/-- Any other register is written once for the wave. -/
theorem mtsBody_once (h : Clear c u s w pc) (a : VS) (link : n ≠ .link) (laneid : n ≠ .laneid) (hangcnt : n ≠ .hangcnt) :
    mtsBody n (fun x => x.b a) (clearEx c u s w pc) =
      .done (writeSpec s w n (operand w a ((execLanes c u.q w (w.activeAt pc)).headD 0))) {} := by
  rw [← clearEx_operand h a (first_mem h)]
  unfold mtsBody
  split
  · exact absurd rfl link
  · exact absurd rfl laneid
  · exact absurd rfl hangcnt
  · rw [clearEx_wave h]
    rfl

/-- A write of a register of the wave or the tenant keeps the cycle. -/
theorem writeSpec_cycle (s : State) (w : Wave) (n : Spec) (x : Word) : (writeSpec s w n x).ctl.cycle = s.ctl.cycle := by
  have steward : (stewardWrite s w n x).ctl = s.ctl := by
    unfold stewardWrite
    split <;> rfl
  unfold writeSpec
  split
  case h_8 => split <;> rfl
  case h_10 =>
    split
    · rw [steward]
    · rfl
  all_goals rfl

/-- What an MTS of its table leaves: it is over with it, and counts as any word. -/
theorem mts_runs {f : Effect} (hi : mtsWord (.mts c a n) = some (c, u, f)) (h : Clear c u s w pc) (hangcnt : n ≠ .hangcnt) :
    ∃ s1 w1 t v, f s w pc (execLanes c u.q w (w.activeAt pc)) = some (s1, w1) ∧ exec (.mts c a n) s = .next t ∧ Over s1 w1 w pc t v ∧
      Counted none s1 w1 t v ∧ MtsLeft n s w (execLanes c u.q w (w.activeAt pc)) (operand w a) s1 w1 := by
  cases hi
  have found := clear_wave h
  rw [exec_mts]
  by_cases link : n = .link
  · subst link
    have ⟨⟨m, hm⟩, links⟩ := foldl_link (fun i => (operand w a i).setWidth 48) _ w (execLanes_standing (c := c) (q := false) (pc := pc))
    obtain ⟨t, v, e, done_over, counted⟩ := word_wave_counted h (mtsBody_link h a) (by rw [hm]) (by rw [hm]) (fun i _ => by
      rw [links]
      split <;> rfl)
    refine ⟨s, _, t, v, rfl, e, done_over, counted, .of_tasks rfl rfl rfl Spec.noConfusion Spec.noConfusion (fun i _ => ?_) ?_ (fun _ => ?_)⟩
    · rw [links]
      simp
    · rw [hm]
      exact ⟨_, _, _, _, _, _, rfl⟩
    · rw [hm]
      rfl
  · by_cases laneid : n = .laneid
    · subst laneid
      by_cases steward : w.mode = 2
      · obtain ⟨b, hb⟩ := foldl_adjust (operand w a) (execLanes c false w (w.activeAt pc)) w
        obtain ⟨t, v, e, done_over, counted⟩ := word_wave_counted h (mtsBody_laneid h a steward) (by rw [hb]) (by rw [hb])
          (fun i _ => by rw [hb]; rfl)
        refine ⟨s, _, t, v, congrArg (fun x => some (s, x)) (if_pos steward), e, done_over, counted,
          .of_wave ⟨rfl, rfl, rfl⟩ link Spec.noConfusion Spec.noConfusion ?_ (absurd steward)⟩
        rw [hb]
        exact ⟨_, _, _, _, _, _, rfl⟩
      · obtain ⟨t, v, e, done_over, counted⟩ := word_over_counted none h (mtsBody_laneid_ignored h a steward) found rfl (fun _ _ => rfl)
        exact ⟨s, w, t, v, congrArg (fun x => some (s, x)) (if_neg steward), e, done_over, counted,
          .of_wave ⟨rfl, rfl, rfl⟩ link Spec.noConfusion Spec.noConfusion ⟨_, _, _, _, _, _, rfl⟩ (fun _ => rfl)⟩
    · obtain ⟨w1, found1, left⟩ := writeSpec_left (execLanes c false w (w.activeAt pc)) (operand w a) found link laneid hangcnt
      obtain ⟨t, v, e, done_over, counted⟩ := word_over_counted none h (mtsBody_once h a link laneid hangcnt) found1 (writeSpec_cycle ..)
        (fun i hi => by rw [left.links i hi, if_neg (fun both => link both.1)])
      refine ⟨_, w1, t, v, ?_, e, done_over, counted, left⟩
      dsimp only
      split
      · exact absurd rfl hangcnt
      · exact absurd rfl link
      · exact absurd rfl laneid
      · rw [found1]
        rfl

/-- MTS of HANGCNT: no register of the wave changes, and HANGCNT takes the value in a mode that may write it (R142, R144). -/
theorem mts_hangcnt (h : Clear c { vr := vsV a, sr := vsS a, hok := (vsV a).isEmpty } s w pc) :
    ∃ t v, exec (.mts c a .hangcnt) s = .next t ∧ Over s w w pc t v ∧
      Counted (if 1 ≤ w.mode then some (bits (operand w a ((execLanes c false w (w.activeAt pc)).headD 0)).toNat 47 0) else none) s w t v := by
  rw [exec_mts]
  exact word_over_counted _ h (mtsBody_hangcnt h a) (clear_wave h) rfl (fun _ _ => rfl)

/-- HANGCNT is none of the wave's own registers here. -/
theorem mtsLeft_hangcnt (s : State) (w : Wave) (lanes : List Nat) (y : Nat → Word) : MtsLeft .hangcnt s w lanes y s w :=
  .of_wave ⟨rfl, rfl, rfl⟩ Spec.noConfusion Spec.noConfusion Spec.noConfusion ⟨_, _, _, _, _, _, rfl⟩ (fun _ => rfl)

/-- What an MTS leaves of any register, and what it counts. -/
theorem mts_left (h : Clear c { vr := vsV a, sr := vsS a, mode := specMode n, hok := (vsV a).isEmpty } s w pc) :
    ∃ s1 w1 t v, exec (.mts c a n) s = .next t ∧ Over s1 w1 w pc t v ∧
      Counted (if n = .hangcnt ∧ 1 ≤ w.mode then some (bits (operand w a ((execLanes c false w (w.activeAt pc)).headD 0)).toNat 47 0) else none)
        s1 w1 t v ∧
      MtsLeft n s w (execLanes c false w (w.activeAt pc)) (operand w a) s1 w1 := by
  by_cases hangcnt : n = .hangcnt
  · subst hangcnt
    obtain ⟨t, v, e, done_over, counted⟩ := mts_hangcnt h
    simp only [true_and]
    exact ⟨s, w, t, v, e, done_over, counted, mtsLeft_hangcnt ..⟩
  · obtain ⟨s1, w1, t, v, -, e, done_over, counted, left⟩ := mts_runs rfl h hangcnt
    rw [if_neg (fun both => hangcnt both.1)]
    exact ⟨s1, w1, t, v, e, done_over, counted, left⟩

end

/-! ### The clauses -/

section
variable {n : Spec} {s s1 t : State} {w w1 v : Wave} {pc : CodeAddr} {lanes : List Nat} {y : Nat → Word} {k : Option Nat}

/-- What MTS leaves of the wave in any mode, written out. -/
theorem MtsLeft.shape (left : MtsLeft n s w lanes y s1 w1) : ∃ m wid corepl diepl mode role adj,
    w1 = { w.specWritten s n (y (lanes.headD 0)) with
      lanes := m, wid := wid, corepl := corepl, diepl := diepl, mode := mode, role := role, adj := adj } := by
  obtain ⟨_, _, _, _, _, _, h⟩ := left.regs
  exact ⟨_, _, _, _, _, _, _, h⟩

/-- FSTAT and MSTAT after a write where hardware sets no bit of them: each bit that is 0 in the source is cleared (R153); in steward mode they
take the bits they have (R144, R4). -/
theorem stickyWrite_calm {have' old new : BitVec 8} (x : Word) (calm : w.hwAt ≠ s.ctl.cycle) :
    w.stickyWrite s have' old new x = if w.mode = 2 then x.setWidth 8 &&& have' else old &&& x.setWidth 8 := by
  unfold Wave.stickyWrite rwsWrite
  simp [calm]

/-- The lanes after an MTS: each active one goes on, LINK written where the word executes. -/
theorem mts_lanes (left : MtsLeft n s w lanes y s1 w1) (o : Over s1 w1 w pc t v) (i : Nat)
    (hi : i < 32) : v.lane i =
      let l := if n = .link ∧ i ∈ lanes then { w.lane i with link := (y i).setWidth 48 } else w.lane i
      if i ∈ w.activeAt pc then { l with pc := pc + 8 } else l := by
  rw [o.lanes i hi, left.links i hi]

/-- The registers that an MTS does not name, and those it writes. -/
theorem mts_regs (left : MtsLeft n s w lanes y s1 w1) (o : Over s1 w1 w pc t v) :
    VecKept w v (fun _ _ => False) ∧ ScalKept w v (fun _ => False) ∧ PredKept w v := by
  obtain ⟨vregs, sregs, preds, qpreds⟩ := o.regs
  obtain ⟨_, _, _, _, _, _, _, rfl⟩ := left.shape
  exact ⟨fun r i _ _ => congrArg (fun m => cellGet 0 m (32 * r + i)) vregs, fun r _ => congrArg (fun m => cellGet 0 m r) sregs, preds, qpreds⟩

/-- The registers of the wave that MTS writes in every mode, or for a handler. -/
theorem mts_written (left : MtsLeft n s w lanes y s1 w1) (o : Over s1 w1 w pc t v) :
    v.trcause = (w.specWritten s n (y (lanes.headD 0))).trcause ∧ v.trpc = (w.specWritten s n (y (lanes.headD 0))).trpc ∧
      v.trmask = (w.specWritten s n (y (lanes.headD 0))).trmask ∧ v.traddr = (w.specWritten s n (y (lanes.headD 0))).traddr ∧
      v.rngctr = (w.specWritten s n (y (lanes.headD 0))).rngctr ∧ v.fstat = (w.specWritten s n (y (lanes.headD 0))).fstat ∧
      v.mstat = (w.specWritten s n (y (lanes.headD 0))).mstat := by
  obtain ⟨fstat, rngctr⟩ := o.flags
  obtain ⟨trcause, trpc, trmask, traddr⟩ := o.special.trap
  have mstat := o.special.mstat
  obtain ⟨_, _, _, _, _, _, _, rfl⟩ := left.shape
  exact ⟨trcause, trpc, trmask, traddr, rngctr, fstat, mstat⟩

/-- What other modes than steward only read stays. -/
theorem mts_names (left : MtsLeft n s w lanes y s1 w1) (o : Over s1 w1 w pc t v) (other : w.mode ≠ 2) :
    v.mode = w.mode ∧ v.role = w.role ∧ v.wid = w.wid ∧ v.corepl = w.corepl ∧ v.diepl = w.diepl ∧ v.adj = w.adj := by
  have names := left.names other
  obtain ⟨-, -, wid, corepl, diepl⟩ := o.special.names
  rw [o.special.mode, o.special.role, wid, corepl, diepl, o.special.added, names]
  exact ⟨rfl, rfl, rfl, rfl, rfl, rfl⟩

/-- HANGCNT after a word that gives it no value, and the tenant's HANGLIM that it is held against (R142). -/
theorem mts_counts (left : MtsLeft n s w lanes y s1 w1) (counted : Counted none s1 w1 t v) (lim : n ≠ .hanglim) (calm : Calm s w) :
    v.hangcnt = min (w.hangcnt + 1) (2 ^ 48 - 1) := by
  have same := left.limit lim
  have counts := counted.counts rfl
  obtain ⟨_, _, _, _, _, _, _, rfl⟩ := left.shape
  refine counts ?_
  unfold Calm at *
  dsimp only [Wave.specWritten]
  rw [same]
  exact calm

/-- The tenant's HANGLIM and TOFS after an MTS. -/
theorem mts_tenant (left : MtsLeft n s w lanes y s1 w1) (counted : Counted k s1 w1 t v) (bound : s.bound w.tenant = true) :
    (t.tenant w.tenant).hanglim =
        (if n = .hanglim ∧ 1 ≤ w.mode then bits (y (lanes.headD 0)).toNat 47 0 else (s.tenant w.tenant).hanglim) ∧
      (n = .tofs → (t.tenant w.tenant).tofs = (y (lanes.headD 0)).toNat) ∧
      (n ≠ .tofs → n ≠ .time → (t.tenant w.tenant).tofs = (s.tenant w.tenant).tofs) := by
  have tenant : (t.tenant w.tenant).hanglim = (s1.tenant w.tenant).hanglim ∧ (t.tenant w.tenant).tofs = (s1.tenant w.tenant).tofs := by
    have kept := counted.tenant
    obtain ⟨_, _, _, _, _, _, _, rfl⟩ := left.shape
    exact kept (left.bound.trans bound)
  rw [tenant.1, tenant.2]
  refine ⟨?_, fun h => left.tofs h bound, left.offset⟩
  by_cases lim : n = .hanglim
  · simp only [left.hanglim lim bound, lim, true_and]
  · rw [left.limit lim, if_neg (fun both => lim both.1)]

/-- FSTAT and MSTAT after an MTS: unchanged unless named, and written as RWS registers are. -/
theorem mts_flags (left : MtsLeft n s w lanes y s1 w1) (o : Over s1 w1 w pc t v) :
    (n ≠ .fstat → v.fstat = w.fstat) ∧ (n ≠ .mstat → v.mstat = w.mstat) ∧
      (w.mode ≠ 2 → w.hwAt ≠ s.ctl.cycle →
        (n = .fstat → v.fstat = w.fstat &&& (y (lanes.headD 0)).setWidth 8) ∧
        (n = .mstat → v.mstat = w.mstat &&& (y (lanes.headD 0)).setWidth 8)) ∧
      (w.mode = 2 → w.hwAt ≠ s.ctl.cycle →
        (n = .fstat → v.fstat = (y (lanes.headD 0)).setWidth 8 &&& 0x7F) ∧ (n = .mstat → v.mstat = (y (lanes.headD 0)).setWidth 8 &&& 1)) := by
  obtain ⟨-, -, -, -, -, fstat, mstat⟩ := mts_written left o
  refine ⟨fun h => fstat.trans (if_neg h), fun h => mstat.trans (if_neg h), fun other calm => ⟨fun h => ?_, fun h => ?_⟩,
    fun steward calm => ⟨fun h => ?_, fun h => ?_⟩⟩
  · exact (fstat.trans (if_pos h)).trans ((stickyWrite_calm _ calm).trans (if_neg other))
  · exact (mstat.trans (if_pos h)).trans ((stickyWrite_calm _ calm).trans (if_neg other))
  · exact (fstat.trans (if_pos h)).trans ((stickyWrite_calm _ calm).trans (if_pos steward))
  · exact (mstat.trans (if_pos h)).trans ((stickyWrite_calm _ calm).trans (if_pos steward))

end

/-- Each word of the table is over with the effect that the table gives. -/
theorem hasEffect_mtsWord : HasEffect mtsWord := by
  intro i c u f s w pc s1 w1 hi h hf
  cases i with
  | mts c' a n =>
    obtain rfl : c' = c := by
      cases hi
      rfl
    by_cases hangcnt : n = .hangcnt
    · subst hangcnt
      cases hi
      exact nomatch hf
    · obtain ⟨s2, w2, t, v, hf', e, done_over, -⟩ := mts_runs hi h hangcnt
      cases hf.symm.trans hf'
      exact ⟨t, v, e, done_over⟩
  | _ => exact nomatch hi

/-- Settles O26: by `mts_runs` for the table, by `mts_hangcnt` for HANGCNT, and by what `mts_left` says of any register. -/
theorem specialWrites : Obligations.SpecialWrites := by
  unfold Obligations.SpecialWrites
  refine ⟨hasEffect_mtsWord, fun c a s w pc h user => ?_, fun c a n s w pc h => ?_⟩
  · obtain ⟨t, v, e, o, counted⟩ := mts_hangcnt h
    obtain ⟨vec, scal, pred⟩ := mts_regs (mtsLeft_hangcnt s w (execLanes c false w (w.activeAt pc)) (operand w a)) o
    exact ⟨t, v, e, ⟨o.wave, o.lanes⟩, o.mem, o.dev, counted.given _ (if_pos user), vec, scal, pred, o.special, o.flags⟩
  · obtain ⟨s1, w1, t, v, e, o, counted, left⟩ := mts_left h
    obtain ⟨vec, scal, pred⟩ := mts_regs left o
    obtain ⟨trcause, trpc, trmask, traddr, rngctr, -, -⟩ := mts_written left o
    obtain ⟨fstat, mstat, sticky, plain⟩ := mts_flags left o
    refine ⟨t, v, e, o.wave, o.mem.trans left.mem, o.dev.trans left.dev, mts_lanes left o, vec, scal, pred, trcause, trpc, trmask, traddr, rngctr,
      fstat, mstat, sticky, plain, mts_names left o, fun h1 h2 => counted.given _ (if_pos ⟨h1, h2⟩), fun lim none calm => ?_,
      fun bound _ => mts_tenant left counted bound⟩
    rw [if_neg none] at counted
    exact mts_counts left counted lim calm

end Sys2Proof.Machine

/-! Words over granules and recipes (spec/09 R161, R165 to R167, R170): that each is its table's effect and the booking of a word, and which tags
stand after it. -/
namespace Sys2Proof.Machine
open Sys2Proof.Safety

/-! ### What keeps the waves and the time -/

theorem wavesKept_dropWait (s : State) (w : Wave) : WavesKept s (s.dropWait w) := ⟨dropWait_waves s w, (dropWait_kept s w).1⟩

theorem wavesKept_dropLatch (s : State) (core slot : Nat) (p : Nat → Bool) : WavesKept s (s.dropLatch core slot p) := by
  obtain ⟨q, hq⟩ := dropLatch_eq s core slot p
  rw [hq]
  exact ⟨rfl, rfl⟩

/-- The operand latch is no part of what a word that is over leaves. -/
theorem over_dropLatch {s t : State} {w1 w v : Wave} {pc : CodeAddr} {core slot : Nat} {p : Nat → Bool}
    (h : Over (s.dropLatch core slot p) w1 w pc t v) : Over s w1 w pc t v := by
  obtain ⟨q, hq⟩ := dropLatch_eq s core slot p
  rw [hq] at h
  exact ⟨h.wave, h.lanes, h.regs, h.flags, h.special, h.calm, h.mem, h.ctxs, h.dev, h.waves⟩

section
variable {c : Ctl} {u : Use} {s s1 : State} {w w1 : Wave} {pc : CodeAddr}

/-- A clear word that reads no vector register and whose effect keeps the waves but for its own, whose lanes it keeps. -/
theorem word_beside_seen {body : Ex → Out} (none : u.vr = []) (h : Clear c u s w pc) (kept : WavesKept s s1)
    (hb : body (seen s w pc (execLanes c u.q w (w.activeAt pc))) = .done (s1.setWave w1) {}) (hcore : w1.core = w.core)
    (hslot : w1.slot = w.slot) (hlane : ∀ i, w1.lane i = w.lane i) : ∃ t v, word c u body s = .next t ∧ Over s1 w1 w pc t v :=
  word_beside h kept (by rw [clearEx_of_no_vector h none]; exact hb) hcore hslot hlane

end

/-! ### Registers to re-materialise (R167, R169) -/

/-- A word that writes no more than another ends no more tags. -/
theorem endedTags_mono {s : State} {w : Wave} {u u' : Use} (vw : u'.vw ⊆ u.vw) (sw : u'.sw ⊆ u.sw) (touch : u'.touch ⊆ u.touch) :
    s.endedTags w u' ⊆ s.endedTags w u := by
  intro g hg
  simp only [State.endedTags, List.mem_filter, Bool.or_eq_true, List.contains_iff_mem, List.any_eq_true] at hg ⊢
  obtain ⟨tag, ends⟩ := hg
  refine ⟨tag, ends.imp (Or.imp (@vw _) (@touch _)) (Or.imp ?_ ?_)⟩
  · exact fun ⟨r, hr, read⟩ => ⟨r, vw hr, read⟩
  · exact fun ⟨r, hr, read⟩ => ⟨r, sw hr, read⟩

/-- A word re-materialises nothing where nothing is dropped, or nothing of what it writes, touches or ends the tag of. -/
theorem rematReg_eq_none {s : State} {w : Wave} {u : Use} : s.rematReg w u = none ↔
    w.dropped = [] ∨ ∀ r ∈ u.vw ++ u.touch ++ (s.endedTags w u).map RTag.reg, w.isDropped r = false := by
  unfold State.rematReg
  by_cases full : w.dropped = []
  · simp [full]
  · simp only [List.isEmpty_iff, full, if_false, List.head?_eq_none_iff, List.filter_eq_nil_iff, Bool.not_eq_true, false_or]

/-- A word that writes no more than another re-materialises no more. -/
theorem rematReg_none_mono {s : State} {w : Wave} {u u' : Use} (vw : u'.vw ⊆ u.vw) (sw : u'.sw ⊆ u.sw) (touch : u'.touch ⊆ u.touch)
    (h : s.rematReg w u = none) : s.rematReg w u' = none := by
  rw [rematReg_eq_none] at h ⊢
  refine h.imp id (fun kept r hr => kept r ?_)
  have ended := List.map_subset RTag.reg (endedTags_mono (s := s) (w := w) vw sw touch)
  simp only [List.mem_append] at hr ⊢
  exact hr.imp (Or.imp (@vw _) (@touch _)) (@ended _)

/-! ### RCPTAG names its register (R166) -/

section
variable {c : Ctl} {s : State} {w : Wave} {pc : CodeAddr} {d id : Nat} {body : List Word}

/-- A register touched is a register named: a word that may touch it may name it. -/
theorem clear_named (h : Clear c { touch := [d] } s w pc) : Clear c { named := [d] } s w pc := by
  obtain ⟨pos, some, hang, legal, mode, role, block, settled, kept, latch, pure⟩ := h
  refine ⟨pos, some, hang, legal, mode, role, block, settled, ⟨kept.1, ?_⟩, latch, pure⟩
  exact rematReg_none_mono (u := ({ touch := [d] } : Use).guarded c) (List.Subset.refl _) (List.Subset.refl _) (List.nil_subset _) kept.2

/-- RCPTAG touches its register where it makes a tag, and names it where the recipe reads it. -/
theorem rcptagUse_eq (here : s.wave? s.ctl.focus.core s.ctl.focus.slot = some w) (defined : s.recipe w id = some body) :
    rcptagUse s d id = if (readSet (bodyInstrs body) []).1.contains d then { named := [d] } else { touch := [d] } := by
  unfold rcptagUse
  rw [here]
  dsimp only
  rw [defined]

/-- A wave with a register tagged anew: the tag before is replaced (R166). -/
def Wave.tagged (w : Wave) (d id : Nat) (full : Bool) : Wave := { w with tags := w.tags.filter (fun t => t.reg != d) ++ [⟨d, id, full⟩] }

/-- The effect of RCPTAG, as `execRcptag` gives it to the word. -/
def rcptagBody (d id : Nat) (x : Ex) : Out :=
  match x.s.recipe x.w id with
  | none => faultAll x cRANGE (BitVec.ofNat 64 (2 ^ 63 + id))
  | some body =>
    if (readSet (bodyInstrs body) []).1.contains d then .done x.s {}
    else .done (x.s.setWave (x.wave.tagged d id (x.lanes.length == 32))) {}

theorem exec_rcptag (c : Ctl) (d id : Nat) (s : State) : exec (.rcptag c d id) s = pWord c (rcptagUse s d id) (rcptagBody d id) s := rfl

/-- RCPTAG of a register outside the read set is a word that touches it and tags it. -/
theorem exec_rcptag_tags (h : Clear c { touch := [d] } s w pc) (defined : s.recipe w id = some body)
    (outside : ¬(readSet (bodyInstrs body) []).1.contains d = true) :
    exec (.rcptag c d id) s = word c { touch := [d] } (rcptagBody d id) s ∧ rcptagBody d id (clearEx c { touch := [d] } s w pc) =
      .done (s.setWave (w.tagged d id ((execLanes c false w (w.activeAt pc)).length == 32))) {} := by
  constructor
  · rw [exec_rcptag, rcptagUse_eq h.pos.here defined, if_neg outside]
    rfl
  · rw [clearEx_of_no_vector h rfl, rcptagBody, seen_wave (clear_wave h)]
    dsimp only [seen]
    rw [defined]
    exact if_neg outside

/-- RCPTAG of a register of the read set is a word that names it and does nothing. -/
theorem exec_rcptag_still (h : Clear c { touch := [d] } s w pc) (defined : s.recipe w id = some body)
    (inside : (readSet (bodyInstrs body) []).1.contains d = true) :
    exec (.rcptag c d id) s = word c { named := [d] } (rcptagBody d id) s ∧
      rcptagBody d id (clearEx c { named := [d] } s w pc) = .done s {} := by
  constructor
  · rw [exec_rcptag, rcptagUse_eq h.pos.here defined, if_pos inside]
    rfl
  · rw [clearEx_of_no_vector (clear_named h) rfl, rcptagBody]
    dsimp only [seen]
    rw [defined]
    exact if_pos inside

end

/-! ### RCPCLR clears a range (R170) -/

/-- A wave with the tags of a range of registers cleared. -/
def Wave.untagged (w : Wave) (a n : Nat) : Wave := { w with tags := w.tags.filter (fun t => decide (t.reg < a ∨ a + n ≤ t.reg)) }

theorem exec_rcpclr (c : Ctl) (a n : Nat) (s : State) :
    exec (.rcpclr c a n) s = word c { touch := span a n } (waveBody (fun _ w => w.untagged a n)) s := rfl

theorem rcpclr_body {c : Ctl} {a n : Nat} {s : State} {w : Wave} {pc : CodeAddr} (h : Clear c { touch := span a n } s w pc) :
    waveBody (fun _ w => w.untagged a n) (clearEx c { touch := span a n } s w pc) = .done (s.setWave (w.untagged a n)) {} := by
  rw [waveBody, clearEx_wave h]
  rfl

/-! ### RCPDEF defines a recipe (R165) -/

/-- A launch's core with a recipe defined, or as it is where none is (R165). -/
def State.withRecipe (s : State) (w : Wave) (id : Nat) : Option (List Word) → State
  | none => s
  | some body => s.setCtx { s.ctx w.launch w.core with
      recipes := (s.ctx w.launch w.core).recipes.filter (fun p => p.1 != id) ++ [(id, body)] }

theorem wavesKept_withRecipe (s : State) (w : Wave) (id : Nat) (r : Option (List Word)) : WavesKept s (s.withRecipe w id r) := by
  cases r with
  | none => exact .refl s
  | some body => exact ⟨rfl, rfl⟩

/-- The context of a word that acts once for its wave, as its effect sees it. -/
abbrev seenOnce (c : Ctl) (s : State) (w : Wave) (pc : CodeAddr) : Ex := seen s w pc (execLanes c true w (w.activeAt pc))

/-- The address of the record that RCPDEF reads: number `idx` of the section at `base`. -/
def recordAt (base : Word) (idx : Nat) : Word := base + BitVec.ofNat 64 (64 * idx)

/-- What RCPDEF reads: a section that is not aligned to 64 is not read. -/
def rcpdefReads (s : State) (w : Wave) (base : Word) (idx : Nat) : Words :=
  if base.toNat % 64 ≠ 0 then .fault cALIGN (recordAt base idx) else s.readWords w (recordAt base idx) 8

/-- What RCPDEF makes of what it has read. -/
def rcpdefGives (d id : Nat) (x : Ex) (s : State) (w : Wave) (read : Words) : Out :=
  match read with
  | .refused k m =>
    if k = cOWNER then .done (s.setWave (w.setSreg d 4)) {}
    else .done (s.setWave { w with refusals := w.refusals ++ x.lanes.map (fun i => ⟨i, k, m⟩) }) {}
  | _ => .done ((s.withRecipe w id (x.rcpdef id read).2).setWave (w.setSreg d (BitVec.ofNat 64 (x.rcpdef id read).1))) {}

/-- The effect of RCPDEF, as `execRcpdef` gives it to the word. -/
def rcpdefBody (d a id idx : Nat) (x : Ex) : Out :=
  if x.strayRecipe (recordAt (x.sc a) idx).toNat ∧ x.l.puretrap then
    .done (x.s.impure x.wave.launch) { faults := x.lanes.map (fun i => (i, cPERM, recordAt (x.sc a) idx)) }
  else rcpdefGives d id x (if x.strayRecipe (recordAt (x.sc a) idx).toNat then x.s.impure x.wave.launch else x.s) x.wave
    (rcpdefReads x.s x.wave (x.sc a) idx)

theorem exec_rcpdef (c : Ctl) (d a id idx : Nat) (s : State) : exec (.rcpdef c d a id idx) s =
    word c { sr := [a], sw := [d], lat := 3, hok := true, q := true } (rcpdefBody d a id idx) s := rfl

section
variable {c : Ctl} {s : State} {w : Wave} {pc : CodeAddr} {d a id idx : Nat}
  (h : Clear c { sr := [a], sw := [d], lat := 3, hok := true, q := true } s w pc)
  (within : ¬(seenOnce c s w pc).strayRecipe (recordAt ((seenOnce c s w pc).sc a) idx).toNat = true)
include h within

/-- A clear RCPDEF whose record is not stray ends with its status and the recipe it defines. -/
theorem rcpdef_over {r : Nat × Option (List Word)} (gives : rcpdefGives d id (seenOnce c s w pc) s w (rcpdefReads s w (w.sreg a) idx) =
      .done ((s.withRecipe w id r.2).setWave (w.setSreg d (BitVec.ofNat 64 r.1))) {}) :
    ∃ t v, exec (.rcpdef c d a id idx) s = .next t ∧ Over (s.withRecipe w id r.2) (w.setSreg d (BitVec.ofNat 64 r.1)) w pc t v := by
  rw [exec_rcpdef]
  refine word_beside_seen rfl h (wavesKept_withRecipe s w id r.2) (Eq.trans ?_ gives) rfl rfl (fun _ => rfl)
  rw [rcpdefBody, if_neg (fun e => within e.1), if_neg within, seen_wave (clear_wave h)]
  rfl

/-- One that cannot read its record gives NOREAD and changes nothing. -/
theorem rcpdef_noread {read : Words} (reads : rcpdefReads s w (w.sreg a) idx = read)
    (gives : rcpdefGives d id (seenOnce c s w pc) s w read = .done (s.setWave (w.setSreg d 4)) {}) :
    ∃ t v, exec (.rcpdef c d a id idx) s = .next t ∧ Over s (w.setSreg d 4) w pc t v :=
  rcpdef_over (r := (4, none)) h within (reads ▸ gives)

end

/-! ### The words -/

/-- The words of the table have their effect. -/
theorem hasEffect_granuleWord : HasEffect granuleWord := by
  intro i c u f s w pc s1 w1 hi h hf
  unfold granuleWord at hi
  split at hi
  case h_1 c d n => -- ACQX
    cases hi
    have here := seen_wave (pc := pc) (clear_wave h) (execLanes c true w (w.activeAt pc))
    show ∃ t v, execAcqx c d n s = .next t ∧ _
    unfold execAcqx
    dsimp only at hf
    split at hf
    case h_1 r answered =>
      cases hf
      refine word_beside_seen rfl h (.refl s) ?_ rfl rfl (fun _ => rfl)
      dsimp only
      rw [here, answered]
      rfl
    case h_2 waiting =>
      split_ifs at hf with limit free
      all_goals cases hf
      all_goals refine word_beside_seen rfl h (wavesKept_dropWait s w) ?_ rfl rfl (fun _ => rfl)
      all_goals dsimp only; rw [here, waiting]
      · exact if_pos limit
      · exact (if_neg limit).trans (if_pos free)
  case h_2 c d n => -- RELX
    cases hi
    cases hf
    have here := seen_wave (pc := pc) (clear_wave h) (execLanes c true w (w.activeAt pc))
    suffices done : ∃ t v, execRelx c d n s = .next t ∧
        Over (s.dropLatch w.core w.slot (fun r => decide ((w.shrink (min n w.ext)).vcount ≤ r))) _ w pc t v by
      obtain ⟨t, v, e, done_over⟩ := done
      exact ⟨t, v, e, over_dropLatch done_over⟩
    refine word_beside_seen rfl h (wavesKept_dropLatch ..) ?_ rfl rfl (fun _ => rfl)
    dsimp only
    rw [here]
    rfl
  case h_3 c d a id idx => -- RCPDEF
    cases hi
    dsimp only at hf
    split_ifs at hf with stray unaligned
    case pos =>
      cases hf
      exact rcpdef_noread h stray (if_pos unaligned) rfl
    case neg =>
      have reads : rcpdefReads s w (w.sreg a) idx = s.readWords w (recordAt (w.sreg a) idx) 8 := if_neg unaligned
      split at hf
      case h_1 rec read =>
        cases hf
        exact rcpdef_over h stray (congrArg (rcpdefGives d id (seenOnce c s w pc) s w) (reads.trans read))
      case h_2 k m read =>
        cases hf
        exact rcpdef_noread h stray (reads.trans read) rfl
      case h_3 cause m read =>
        split_ifs at hf with owner
        cases hf
        exact rcpdef_noread h stray (reads.trans read) (if_pos owner)
  case h_4 c d id => -- RCPTAG
    cases hi
    dsimp only at hf
    split at hf
    case h_1 => cases hf
    case h_2 body defined =>
      split at hf <;> cases hf
      case isTrue inside =>
        obtain ⟨e, still⟩ := exec_rcptag_still h defined inside
        rw [e]
        exact word_over none false none (clear_named h) still (clear_wave h) rfl (fun _ _ => rfl)
      case isFalse outside =>
        obtain ⟨e, tags⟩ := exec_rcptag_tags h defined outside
        rw [e]
        exact word_beside h (.refl s) tags rfl rfl (fun _ => rfl)
  case h_5 c a n => -- RCPCLR
    cases hi
    cases hf
    exact word_beside h (.refl s) (rcpclr_body h) rfl rfl (fun _ => rfl)
  case h_6 => cases hi

/-! ### The tags after a word (R166, R167, R170) -/

section
variable {c : Ctl} {u : Use} {s : State} {old new w w1 : Wave} {pc : CodeAddr} {active lanes : List Nat}

/-- With nothing pending among what a word names, no earlier write competes with its own (R159). -/
theorem clash_settled (new : Wave) (settled : s.pendOf old u true = []) : ∃ pd, s.clash old new u = { new with pend := pd } := by
  have among : s.pendOf old { u with vr := u.vw, sr := u.sw, pr := [], qr := [] } false = [] := by
    refine pendOf_sub settled (fun p names => ?_)
    unfold Use.names at *
    cases kind : p.kind <;> simp_all
  unfold State.clash
  rw [among]
  exact ⟨_, rfl⟩

/-- The tags that a word leaves: those its effect left, but for those it ends by what it writes. A register that it only touches keeps its tag. -/
theorem mem_tags_bookWrites (settled : s.pendOf old u true = []) (runs : lanes ≠ []) (base : Nat) (g : RTag) :
    g ∈ (s.bookWrites old new u lanes base).tags ↔ g ∈ new.tags ∧ (g ∈ s.endedTags old u → g.reg ∈ u.touch) := by
  obtain ⟨pd, hpd⟩ := clash_settled new settled
  rw [State.bookWrites, if_neg runs, hpd]
  by_cases untouched : s.endedTags old u = []
  · simp [untouched]
  · simp [untouched, imp_iff_not_or]

/-- The last steps of the booking of a wave that goes on: HANGCNT apart, it is as they find it (R137, R142). -/
theorem wave?_booked (found : s.wave? w.core w.slot = some w1) (live : w.allExited = false) (p : Option Nat) (yld : Bool) (extra : Nat) :
    ∃ hc ha, (((s.bookHang w p).bookQuad w yld extra).endWave w.core w.slot).wave? w.core w.slot =
      some { w with hangcnt := hc, hangArmed := ha } := by
  obtain ⟨⟨hc, ha, counted⟩, -⟩ := bookHang_spec p found
  have kept : ((s.bookHang w p).bookQuad w yld extra).wave? w.core w.slot = some { w with hangcnt := hc, hangArmed := ha } := counted
  exact ⟨hc, ha, by rw [endWave_live kept live, kept]⟩

/-- Lanes move alike whatever is pending, tagged or written. -/
theorem doneLanes_notes (r : Done) (w : Wave) (pc : CodeAddr) (active : List Nat) (pd : List Pend) (tg : List RTag) (wr : List Nat) :
    r.lanes { w with pend := pd, tags := tg, written := wr } pc active =
      { r.lanes w pc active with pend := pd, tags := tg, written := wr } := by
  have same := doneLanes_congr r pc active (w := { w with pend := pd, tags := tg, written := wr }) (x := w) rfl
  obtain ⟨m, hm⟩ := doneLanes_other r w pc active
  obtain ⟨m', hm'⟩ := doneLanes_other r { w with pend := pd, tags := tg, written := wr } pc active
  rw [hm, hm'] at same ⊢
  exact congrArg (fun l => ({ w with pend := pd, tags := tg, written := wr, lanes := l } : Wave)) same

/-- The end of a word of the wave's own program that faults no lane, as `finish_steps` has it, with the tags. -/
theorem finish_tagged (found : s.wave? old.core old.slot = some w) (own : old.hnd = none) (settled : s.pendOf old u true = [])
    (runs : lanes ≠ []) : ∃ s1 w3 extra, QuadsOnly s s1 ∧ Stamped (Done.lanes {} w pc active) w3 ∧
      (∀ g, g ∈ w3.tags ↔ g ∈ w.tags ∧ (g ∈ s.endedTags old u → g.reg ∈ u.touch)) ∧ finish c u s old pc active lanes {} =
        ((s1.bookHang w3 none).bookQuad w3 (c.yld || (u.yields && lanes.length != 0)) extra).endWave old.core old.slot := by
  have all : lanes.filter (fun i => !(List.map Prod.fst ({} : Done).faults).contains i) = lanes := List.filter_true lanes
  unfold finish
  simp only [found, own, settled, all, if_true]
  generalize hb : s.bookWrites old w u lanes _ = w1
  have tags := fun g => hb ▸ mem_tags_bookWrites (new := w) settled runs _ g
  obtain ⟨pd, tg, wr, rfl⟩ := hb ▸ bookWrites_spec w lanes _ settled
  have moved := doneLanes_notes {} w pc active pd tg wr
  generalize Done.lanes {} w pc active = y at moved
  rw [Done.lanes] at moved
  rw [moved]
  simp only [Wave.released, own, Wave.stamped, Wave.bookPerf, Wave.bump]
  refine ⟨_, _, _, ?_, ⟨_, _, _, _, _, _, rfl⟩, tags, rfl⟩
  split
  · exact ⟨s.cores.quads, rfl⟩
  · exact bookLatch_cases s old u

/-- A clear word that changes its own wave only: of the tags its effect leaves, those it ends by what it writes are gone (R167). -/
theorem word_tags {body : Ex → Out} (h : Clear c u s w pc) (hb : body (clearEx c u s w pc) = .done (s.setWave w1) {})
    (hcore : w1.core = w.core) (hslot : w1.slot = w.slot) (hlane : ∀ i, w1.lane i = w.lane i) :
    ∃ t v, word c u body s = .next t ∧ t.wave? w.core w.slot = some v ∧
      ∀ g, g ∈ v.tags ↔ g ∈ w1.tags ∧ (g ∈ (s.setWave w1).endedTags w (u.guarded c) → g.reg ∈ u.touch) := by
  have found : (s.setWave w1).wave? w.core w.slot = some w1 := State.wave?_setWave_self (clear_wave h) hcore hslot
  obtain ⟨j, active, ready⟩ := clear_lane h
  have live := doneLanes_live {} w1 pc (nodup_activeAt w pc) (by rw [hlane]; exact ready) active
  obtain ⟨s2, w3, extra, ⟨q, rfl⟩, stamped, tags, e⟩ := finish_tagged (c := c) (pc := pc) (active := w.activeAt pc) found h.pos.own
    ((pendOf_congr w (u.guarded c) true rfl).trans h.settled) h.some
  rw [(guarded_fields u c).2.2.1] at tags
  obtain ⟨m, hm⟩ := doneLanes_other {} w1 pc (w.activeAt pc)
  have spot : w3.core = w.core ∧ w3.slot = w.slot ∧ w3.allExited = false := by
    rw [hm] at stamped live
    obtain ⟨_, _, _, _, _, _, rfl⟩ := stamped
    exact ⟨hcore, hslot, live⟩
  obtain ⟨core, slot, live⟩ := spot
  rw [← core, ← slot] at found e ⊢
  obtain ⟨hc, ha, booked⟩ := wave?_booked (s := { s.setWave w1 with cores := { (s.setWave w1).cores with quads := q } }) found live none _ extra
  refine ⟨_, _, ?_, (congrArg (fun t : State => t.wave? w3.core w3.slot) e).trans booked, tags⟩
  unfold clearEx at hb
  rw [word_clear h, hb]

end

/-- The tag that RCPTAG sets is the only one of its register. -/
theorem rcptag_only {c : Ctl} {d id : Nat} {body : List Word} {s : State} {w : Wave} {pc : CodeAddr} (h : Clear c { touch := [d] } s w pc)
    (defined : s.recipe w id = some body) (outside : d ∉ (readSet (bodyInstrs body) []).1) :
    ∃ t v, exec (.rcptag c d id) s = .next t ∧ t.wave? w.core w.slot = some v ∧
      ∀ g, g ∈ v.tags ∧ g.reg = d ↔ g = ⟨d, id, (execLanes c false w (w.activeAt pc)).length == 32⟩ := by
  obtain ⟨e, makes⟩ := exec_rcptag_tags h defined (by simpa using outside)
  obtain ⟨t, v, e', found, tags⟩ := word_tags h makes rfl rfl (fun _ => rfl)
  refine ⟨t, v, e.trans e', found, fun g => ?_⟩
  rw [tags g, Wave.tagged]
  constructor
  · rintro ⟨⟨made, -⟩, reg⟩
    simpa [reg] using made
  · rintro rfl
    simp

/-- RCPCLR leaves no tag in its range. -/
theorem rcpclr_clears {c : Ctl} {a n : Nat} {s : State} {w : Wave} {pc : CodeAddr} (h : Clear c { touch := span a n } s w pc) :
    ∃ t v, exec (.rcpclr c a n) s = .next t ∧ t.wave? w.core w.slot = some v ∧ ∀ g ∈ v.tags, g.reg < a ∨ a + n ≤ g.reg := by
  obtain ⟨t, v, e, found, tags⟩ := word_tags h (rcpclr_body h) rfl rfl (fun _ => rfl)
  refine ⟨t, v, (exec_rcpclr ..).trans e, found, fun g hg => ?_⟩
  simpa using (List.mem_filter.1 ((tags g).1 hg).1).2

/-- Settles O35, by the table (`hasEffect_granuleWord`) and the tags that stand after RCPTAG and RCPCLR. -/
theorem granuleWords : Obligations.GranuleWords := by
  unfold Obligations.GranuleWords
  exact ⟨hasEffect_granuleWord, fun _ _ _ _ _ _ _ h defined outside => rcptag_only h defined outside, fun _ _ _ _ _ _ h => rcpclr_clears h⟩

end Sys2Proof.Machine

/-! Waits for granules (spec/09 R161, R162; spec/21 R339): the grant of the oldest ACQX, and the three steps in which a deadlock is resolved. -/
namespace Sys2Proof.Machine
open Sys2Proof.Safety

/-! ### What a launch holds on a core -/

theorem ctx?_key {s : State} {l core : Nat} {c : Ctx} (h : s.ctx? l core = some c) : c.launch = l ∧ c.core = core := by
  simpa using List.find?_some h

/-- What a launch holds on a core, after it was replaced. -/
theorem ctx_setCtx_self {s : State} {l core : Nat} {c k : Ctx} (h : s.ctx? l core = some c) (hl : k.launch = l) (hc : k.core = core) :
    (s.setCtx k).ctx l core = k := by
  subst hl hc
  have found := find?_updWhere_self (fun x : Ctx => x.launch == k.launch && x.core == k.core) k (by simp) h
  exact congrArg (fun o : Option Ctx => o.getD (Ctx.fresh k.launch k.core 0)) found

/-- A wave whose waits are taken back waits no more. -/
theorem waits_dropWait {s : State} {w : Wave} (h : (s.ctx? w.launch w.core).isSome = true) :
    ∀ x ∈ ((s.dropWait w).ctx w.launch w.core).waits, x.slot ≠ w.slot := by
  obtain ⟨c, hc⟩ := Option.isSome_iff_exists.1 h
  have here : s.ctx w.launch w.core = c := by rw [State.ctx, hc]; rfl
  obtain ⟨key, place⟩ := ctx?_key hc
  unfold State.dropWait
  rw [here]
  dsimp only
  intro x hx
  split at hx
  case isTrue =>
    rw [ctx_setCtx_self (k := { c with waits := c.waits.filter (fun x => x.slot != w.slot) }) hc key place] at hx
    simpa using (List.mem_filter.1 hx).2
  case isFalse others =>
    rw [here] at hx
    exact fun slot => others (List.any_eq_true.2 ⟨x, hx, by simpa using slot⟩)

/-! ### The oldest wait (R161) -/

section
variable {s : State} {core l : Nat} {w : Wave}

/-- A wave whose ACQX is granted `n` granules: it tells how many it has when it is tried again. -/
def Wave.granted (w : Wave) (n : Nat) : Wave :=
  { w.grow n with held := if w.held = some .acqx then none else w.held, acqxDone := some (BitVec.ofNat 64 (w.ext + n)) }

/-- The oldest wait is an ACQX for which there are granules: it is granted. -/
theorem granuleWaitServed_grants {g : GranWait} (oldest : (s.ctx l core).waitOrder.head? = some g) (here : s.wave? core g.slot = some w)
    (acqx : g.remat = none) (free : g.n ≤ s.freeGranules l core) :
    exec (.granuleWaitServed core l) s = .next ((s.dropWait w).setWave (w.granted g.n)) := by
  show execGranuleWaitServed core l s = _
  simp only [execGranuleWaitServed, State.serveWait, oldest, here, Nat.not_lt.2 free, if_false, acqx]
  rfl

/-! ### A deadlock (R162) -/

/-- The waves of a launch on a core that have a droppable granule. -/
def State.droppers (s : State) (core l : Nat) : List Wave := (s.wavesOn l core).filter (fun w => w.topDroppable.isSome)

section
variable (waiting : s.allWaiting core l = true) (stuck : s.canServeOldest core l = false)
include waiting stuck

/-- First the highest droppable granule of the youngest wave that has one is dropped. -/
theorem acqxResolve_drops {k : Nat} (youngest_dropper : youngest (s.droppers core l) = some w) (top : w.topDroppable = some k) :
    exec (.acqxResolve core l) s = .next (s.setWave { w with dropped := w.dropped ++ [k] }) := by
  show execAcqxResolve core l s = _
  unfold State.droppers at youngest_dropper
  simp only [execAcqxResolve, waiting, stuck, youngest_dropper, top]
  rfl

/-- Then the youngest ACQX is refused. -/
theorem acqxResolve_refuses (none_droppable : youngest (s.droppers core l) = none)
    (youngest_acqx : youngest (s.waiters core l false) = some w) :
    exec (.acqxResolve core l) s = .next ((s.dropWait w).setWave { w with held := none, acqxDone := some acqxDeadlock }) := by
  show execAcqxResolve core l s = _
  unfold State.droppers at none_droppable
  simp only [execAcqxResolve, waiting, stuck, none_droppable, youngest_acqx]
  rfl

/-- Then a re-materialisation fails. -/
theorem acqxResolve_fails (none_droppable : youngest (s.droppers core l) = none) (no_acqx : youngest (s.waiters core l false) = none)
    (youngest_remat : youngest (s.waiters core l true) = some w) : exec (.acqxResolve core l) s = .next (s.failRemat core l w) := by
  show execAcqxResolve core l s = _
  unfold State.droppers at none_droppable
  simp only [execAcqxResolve, waiting, stuck, none_droppable, no_acqx, youngest_remat]
  rfl

end

/-- The register being written by the re-materialisation in which a wave waits. -/
def State.rematFor (s : State) (core l : Nat) (w : Wave) : Nat :=
  (((s.ctx l core).waits.find? (fun g => g.slot == w.slot && g.remat.isSome)).bind GranWait.remat).getD 0

/-- A wave that leaves the word that held it, with some lanes parked at it. -/
def Wave.turnedBack (w : Wave) (lanes : List Nat) (cause : Nat) (addr : Word) : Wave :=
  { w.parkAll (alike lanes cause addr) with held := none, heldAt := none, pinned := [] }

/-- A re-materialisation of the handler that fails is a nested fault (R339). -/
theorem failRemat_nested {h : Handler} (inside : w.hnd = some h) : s.failRemat core l w = s.trapped w.launch h.pc cRECIPE := by
  simp only [State.failRemat, inside]

/-- One of the wave's own program parks the active lanes with RECIPE and the register being written. -/
theorem failRemat_parks {pc : CodeAddr} (own : w.hnd = none) (stands : w.ownPc = some pc) : s.failRemat core l w =
    (s.dropWait w).setWave (w.turnedBack (w.activeAt pc) cRECIPE (BitVec.ofNat 64 (s.rematFor core l w))) := by
  simp only [State.failRemat, own, stands]
  rfl

end

/-- An active lane of a wave turned back is parked. -/
theorem lane_turnedBack (w : Wave) (pc : CodeAddr) (cause : Nat) (addr : Word) {i : Nat} (active : i ∈ w.activeAt pc) :
    (w.turnedBack (w.activeAt pc) cause addr).lane i = parked cause addr (w.lane i) := by
  refine (lane_parkAll _ w i).trans ?_
  rw [if_pos (activeAt_ready active), find?_alike, if_pos active]
  rfl

/-- Settles O36, by what the grant of the oldest ACQX and each of the three steps leave. -/
theorem granuleWaits : Obligations.GranuleWaits := by
  unfold Obligations.GranuleWaits
  refine ⟨fun core l s g w oldest here mine acqx free known => ?_, fun core l s waiting stuck =>
    ⟨fun w k dropper top => ⟨_, acqxResolve_drops waiting stuck dropper top, rfl⟩,
      fun w none_droppable last => ⟨_, acqxResolve_refuses waiting stuck none_droppable last, rfl⟩,
      fun w none_droppable no_acqx last => ?_⟩⟩
  · obtain ⟨rfl, slot⟩ := State.wave?_core here
    subst mine
    obtain ⟨-, mem, tasks, dev⟩ := dropWait_kept s w
    refine ⟨_, _, granuleWaitServed_grants oldest here acqx free, ?_, rfl, ?_, mem, tasks, dev⟩
    · exact State.wave?_setWave_self ((dropWait_wave? ..).trans here) rfl slot
    · rw [← slot]
      exact waits_dropWait known
  · have fails := acqxResolve_fails waiting stuck none_droppable no_acqx last
    exact ⟨fun h inside => ⟨_, fails, failRemat_nested inside⟩, fun pc own stands =>
      ⟨_, _, fails, failRemat_parks own stands, rfl, fun i active => lane_turnedBack w pc _ _ active⟩⟩

end Sys2Proof.Machine

/-! Elements of a register (spec/00 R2, Table 0-2): a register built element by element reads back, and every element fits its width. -/
namespace Sys2Proof.Machine

/-- The elements of a type fill the register (R2). -/
theorem bits_mul_count (t : Ty) : t.bits * t.count = 64 := by cases t <;> decide

theorem elemBits_lt (v : Word) (n i : Nat) : elemBits v n i < 2 ^ n := Nat.mod_lt _ (Nat.two_pow_pos n)

theorem wrap_lt (x : Int) (n : Nat) : wrap x n < 2 ^ n := by
  have pos : (0 : Int) < 2 ^ n := by positivity
  unfold wrap
  rw [Int.toNat_lt (Int.emod_nonneg _ pos.ne')]
  exact_mod_cast Int.emod_lt_of_pos x pos

theorem digits_lt (n : Nat) (l : List Nat) : digits n l < 2 ^ (n * l.length) := by
  induction l with
  | nil => exact Nat.one_pos
  | cons x l ih =>
    have low : x % 2 ^ n < 2 ^ n := Nat.mod_lt _ (Nat.two_pow_pos n)
    calc digits n (x :: l) < 2 ^ n * (digits n l + 1) := by rw [digits]; linarith
      _ ≤ 2 ^ n * 2 ^ (n * l.length) := Nat.mul_le_mul_left _ ih
      _ = 2 ^ (n * (x :: l).length) := by rw [List.length_cons, Nat.mul_succ, Nat.add_comm, pow_add]

/-- A digit of a number is the list's entry at its place. -/
theorem digits_div_mod (n : Nat) (l : List Nat) : ∀ j, digits n l / 2 ^ (n * j) % 2 ^ n = l.getD j 0 % 2 ^ n := by
  induction l with
  | nil => simp [digits]
  | cons x l ih =>
    rintro (_ | j)
    · simp [digits]
    · have rest : digits n (x :: l) / 2 ^ n = digits n l := by
        rw [digits, Nat.add_mul_div_left _ _ (Nat.two_pow_pos n), Nat.div_eq_of_lt (Nat.mod_lt _ (Nat.two_pow_pos n)), Nat.zero_add]
      rw [Nat.mul_succ, Nat.add_comm, pow_add, ← Nat.div_div_eq_div_mul, rest, ih, List.getD_cons_succ]

/-- An element of a register built element by element, where what is built fits. -/
theorem elemBits_build {t : Ty} {f : Nat → Nat} {j : Nat} (hj : j < t.count) (fits : f j < 2 ^ t.bits) : elemBits (build t f) t.bits j = f j := by
  have whole : digits t.bits ((List.range t.count).map f) < 2 ^ 64 := by
    simpa only [List.length_map, List.length_range, bits_mul_count] using digits_lt t.bits ((List.range t.count).map f)
  have entry : ((List.range t.count).map f).getD j 0 = f j := by simp [List.getD, hj]
  rw [elemBits, build, pack, BitVec.toNat_ofNat, Nat.mod_eq_of_lt whole, digits_div_mod, entry, Nat.mod_eq_of_lt fits]

/-! ### Integer words (R175) -/

section
variable {t : Ty} {j : Nat} (hj : j < t.count)
include hj

theorem elemBits_int2 (z : Bool) (f : Int → Int → Int) (a b : Word) :
    elemBits (int2 t z f a b) t.bits j = narrow t z (f (elemInt a t j) (elemInt b t j)) :=
  elemBits_build hj (wrap_lt _ _)

theorem elemBits_int3 (z : Bool) (f : Int → Int → Int → Int) (a b e : Word) :
    elemBits (int3 t z f a b e) t.bits j = narrow t z (f (elemInt a t j) (elemInt b t j) (elemInt e t j)) :=
  elemBits_build hj (wrap_lt _ _)

/-- An element of a shift (R179): the reduction to its width stands in the word itself. -/
theorem elemBits_shiftWith (u : Bool) (f : Nat → Nat → Nat) (a b : Word) :
    elemBits (shiftWith t u f a b) t.bits j = f (elemBits a t.bits j) (shiftCount t u b j) % 2 ^ t.bits :=
  elemBits_build hj (Nat.mod_lt _ (Nat.two_pow_pos _))

theorem elemBits_shrVal (u : Bool) (a b : Word) :
    elemBits (shrVal t u a b) t.bits j = elemBits a t.bits j / 2 ^ shiftCount t u b j :=
  (elemBits_shiftWith hj ..).trans (Nat.mod_eq_of_lt (Nat.div_lt_of_lt (elemBits_lt ..)))

theorem elemBits_sarVal (u : Bool) (a b : Word) :
    elemBits (sarVal t u a b) t.bits j = wrap (sext (elemBits a t.bits j) t.bits / 2 ^ shiftCount t u b j) t.bits :=
  (elemBits_shiftWith hj ..).trans (Nat.mod_eq_of_lt (wrap_lt ..))

theorem elemBits_bits1 {f : Nat → Nat} {a : Word} (fits : f (elemBits a t.bits j) < 2 ^ t.bits) :
    elemBits (bits1 t f a) t.bits j = f (elemBits a t.bits j) :=
  elemBits_build hj fits

end

/-! ### Counting and reversing bits (R181) -/

theorem popCount_eq_length (n : Nat) : ∀ x, popCount n x = ((List.range n).filter x.testBit).length := by
  induction n with
  | zero => exact fun _ => rfl
  | succ n ih =>
    intro x
    have shifted : (x.testBit ∘ Nat.succ) = (x / 2).testBit := funext fun i => Nat.testBit_succ x i
    rw [popCount, ih, List.range_succ_eq_map, List.filter_cons, List.filter_map, shifted, Nat.testBit_zero]
    rcases Nat.mod_two_eq_zero_or_one x with h | h <;> simp [h, Nat.add_comm]

theorem popCount_lt (n x : Nat) : popCount n x < 2 ^ n := by
  rw [popCount_eq_length]
  calc ((List.range n).filter x.testBit).length ≤ (List.range n).length := List.length_filter_le _ _
    _ = n := List.length_range
    _ < 2 ^ n := Nat.lt_two_pow_self

theorem leadZeros_le (n x : Nat) : leadZeros n x ≤ n := by
  unfold leadZeros
  split <;> omega

/-- Above the leading zeros' place nothing stands, and at it a 1 unless the element is zero. -/
theorem leadZeros_spec {n x : Nat} (hx : x < 2 ^ n) :
    x < 2 ^ (n - leadZeros n x) ∧ (leadZeros n x < n → x.testBit (n - 1 - leadZeros n x) = true) := by
  unfold leadZeros
  by_cases zero : x = 0
  · simp [zero]
  · have top : x.log2 < n := (Nat.log2_lt zero).mpr hx
    rw [if_neg zero, show n - (n - 1 - x.log2) = x.log2 + 1 by omega, show n - 1 - (n - 1 - x.log2) = x.log2 by omega]
    exact ⟨Nat.lt_log2_self, fun _ => Nat.testBit_log2 zero⟩

theorem revBits_lt (n : Nat) : ∀ x, revBits n x < 2 ^ n := by
  induction n with
  | zero => exact fun _ => Nat.one_pos
  | succ n ih =>
    intro x
    have rest := ih (x / 2)
    rw [revBits]
    rcases Nat.mod_two_eq_zero_or_one x with h | h <;> rw [h, pow_succ] <;> omega

theorem testBit_revBits (n : Nat) : ∀ x, ∀ k < n, (revBits n x).testBit k = x.testBit (n - 1 - k) := by
  induction n with
  | zero => exact fun _ k hk => absurd hk (Nat.not_lt_zero k)
  | succ n ih =>
    intro x k hk
    rw [revBits, Nat.mul_comm, Nat.testBit_two_pow_mul_add _ (revBits_lt n _)]
    by_cases low : k < n
    · rw [if_pos low, ih _ k low, ← Nat.testBit_succ]
      congr 1
      omega
    · obtain rfl : k = n := by omega
      simp [Nat.testBit_zero]

/-! ### Addresses and lanes (R182, R187, R189) -/

/-- A signed word and an unsigned one are alike in an address. -/
theorem wrap_add_mul_toInt (a : Nat) (b : Word) (n : Int) : wrap (a + b.toInt * n) 64 = wrap (a + (b.toNat : Int) * n) 64 := by
  have same : b.toInt ≡ b.toNat [ZMOD 2 ^ 64] := by
    rw [BitVec.toInt_eq_toNat_bmod]
    exact Int.bmod_emod
  exact congrArg Int.toNat ((same.mul_right n).add_left a)

/-- The index that LEA takes from its second operand (R182). -/
def leaIndex (t : Ty) (b : Word) : Int :=
  match t with
  | .s32x2 => sext (bits b.toNat 31 0) 32
  | .z32x2 => ((bits b.toNat 31 0 : Nat) : Int)
  | _ => b.toInt

/-- LEA adds its scaled index mod 2^64. -/
theorem toNat_leaVal {t : Ty} (ht : t ∈ [Ty.s64, .s32x2, .z32x2]) (sh : Nat) (a b : Word) :
    (leaVal t sh a b).toNat = wrap (a.toNat + leaIndex t b * 2 ^ sh) 64 := by
  have sum (x : Int) : (BitVec.ofInt 64 x).toNat = wrap x 64 := BitVec.toNat_ofInt x
  simp only [List.mem_cons, List.not_mem_nil, or_false] at ht
  rcases ht with rfl | rfl | rfl
  · exact (sum _).trans (wrap_add_mul_toInt ..).symm
  · exact sum _
  · exact sum _

theorem leaLane_lt (a : Nat) : leaLane a < 32 := Nat.mod_lt _ (by decide)

theorem bits_4_0 (x : Nat) : bits x 4 0 = x % 32 := congrArg (· % 32) (Nat.div_one x)

/-- The lane that LSHF's mode and count name from lane `i`, be there such a lane or not (R189). -/
def shiftedLane (k : Shf) (i n : Nat) : Int :=
  match k with
  | .dn => (i : Int) + n
  | .up => (i : Int) - n
  | .bfly => ((i ^^^ n : Nat) : Int)
  | .wrap => (((i + n) % 32 : Nat) : Int)

/-- A number as a lane, where it is one. -/
def laneAt (x : Int) : Option Nat := if 0 ≤ x ∧ x ≤ 31 then some x.toNat else none

theorem laneAt_natCast {n : Nat} (h : n < 32) : laneAt n = some n := by
  rw [laneAt, if_pos (by omega), Int.toNat_natCast]

theorem laneAt_eq_none {x : Int} (h : x < 0 ∨ 32 ≤ x) : laneAt x = none := if_neg (by omega)

theorem lt_of_laneAt {x : Int} {n : Nat} (h : laneAt x = some n) : n < 32 := by
  unfold laneAt at h
  split at h
  case isTrue inside =>
    cases h
    omega
  case isFalse => cases h

/-- LSHF has a source lane exactly where the lane that it names is one of the 32. -/
theorem lshfSource_eq (k : Shf) {i n : Nat} (hi : i < 32) (hn : n < 32) : lshfSource k i n = laneAt (shiftedLane k i n) := by
  cases k with
  | dn =>
    rw [lshfSource, shiftedLane, ← Nat.cast_add]
    by_cases inside : i + n < 32
    · rw [if_pos inside, laneAt_natCast inside]
    · rw [if_neg inside, laneAt_eq_none (by omega)]
  | up =>
    rw [lshfSource, shiftedLane]
    by_cases inside : n ≤ i
    · rw [if_pos inside, ← Nat.cast_sub inside, laneAt_natCast (by omega)]
    · rw [if_neg inside, laneAt_eq_none (by omega)]
  | bfly =>
    have inside : i ^^^ n < 32 := Nat.xor_lt_two_pow (n := 5) hi hn
    rw [lshfSource, shiftedLane, Nat.mod_eq_of_lt inside, laneAt_natCast inside]
  | wrap => rw [lshfSource, shiftedLane, laneAt_natCast (Nat.mod_lt _ (by decide))]

end Sys2Proof.Machine

/-! Words that write one register (spec/08 R152 to R154; spec/10 R173 to R192; spec/12 R208): what a word reads, that a word of `vecWord` or
`scalWord` runs `vBody` or `sBody` with the table's value, and the two words that write something else once, SSETQ and WRLANE. -/
namespace Sys2Proof.Machine
open Sys2Proof.Safety

section
variable {c : Ctl} {u : Use} {s : State} {w : Wave} {pc : CodeAddr}

/-- The widths of what a word reads (R159) do not bear on whether it is clear. -/
theorem clear_withWidths (h : Clear c u s w pc) (ebits : Nat) (widths : List (PKind × Nat × Nat)) :
    Clear c { u with ebits := ebits, widths := widths } s w pc := by
  obtain ⟨pos, some, hang, legal, mode, role, block, settled, ⟨read, whole⟩, latch, pure⟩ := h
  refine ⟨pos, some, hang, legal, mode, role, block, ?_, ⟨read, ?_⟩, latch, pure⟩
  · rw [pendOf_widths]
    exact settled
  · have same : s.rematReg w (({ u with ebits := ebits, widths := widths } : Use).guarded c) = s.rematReg w (u.guarded c) := by
      unfold Use.guarded
      cases u.q <;> rfl
    rw [same]
    exact whole

end

/-! ### What a word reads -/

/-- What LSHF gives a lane: the register of its source lane, or where it has none the lane's own (R189). -/
def sourceReg (source : Option Nat) (reg : Nat → Word) (i : Nat) : Word :=
  match source with
  | some j => reg j
  | none => reg i

theorem sourceReg_laneAt (x : Int) (reg : Nat → Word) (i : Nat) :
    sourceReg (laneAt x) reg i = if 0 ≤ x ∧ x ≤ 31 then reg x.toNat else reg i := by
  unfold laneAt
  split <;> rfl

/-- What TBRD reads of a tenant's translation: nothing of a place that is not granted or that no entry fills (R120). -/
def tbrdOf (t : Tenant) (arr way va : Nat) : Word :=
  if (t.grant arr).2 = 0 then 0
  else match t.tlb.find? (fun e => e.arr == arr && e.set == t.setOf arr va && e.way == way) with
    | some e => tbrdVal e va
    | none => 0

/-- A word reads a wave of a state as it stands, its executing lanes given. -/
structure Reads (x : Ex) (s : State) (w : Wave) (lanes : List Nat) : Prop where
  state : x.s = s
  wave : x.wave = w
  lanes : x.lanes = lanes
  tenant : x.w.tenant = w.tenant
  vec : ∀ r, ∀ k < 32, x.v r k = w.vreg r k
  operand : ∀ o, ∀ k < 32, x.b o k = Safety.operand w o k
  scal : ∀ r, x.sc r = w.sreg r
  pred : ∀ p k, x.w.pred p k = w.pred p k

theorem reads_clearEx {c : Ctl} {u : Use} {s : State} {w : Wave} {pc : CodeAddr} (h : Clear c u s w pc) :
    Reads (clearEx c u s w pc) s w (execLanes c u.q w (w.activeAt pc)) where
  state := rfl
  wave := clearEx_wave h
  lanes := rfl
  tenant := by
    obtain ⟨m, hm⟩ := clearEx_w h
    rw [hm]
  vec r k hk := clearEx_v h hk
  operand o k hk := clearEx_b h o hk
  scal r := clearEx_sc h r
  pred p k := clearEx_pred h p k

section
variable {x : Ex} {s : State} {w : Wave} {lanes : List Nat} (r : Reads x s w lanes)
include r

theorem Reads.ballot (p : Nat) : x.ballot p = Safety.ballot w lanes p := by
  simp only [Ex.ballot, Safety.ballot, r.lanes, r.pred]

/-- The element at a lane-element address (R187). -/
theorem Reads.elemAt (a : Nat) (t : Ty) (addr : Nat) : x.at a t addr = elemBits (w.vreg a (leaLane addr)) t.bits (leaElem addr t.count) := by
  rw [Ex.at, r.vec a _ (leaLane_lt addr)]

theorem Reads.sourceReg (k : Shf) (a : Nat) (b : VS) {i : Nat} (hi : i < 32) :
    sourceReg (lshfSource k i (bits (x.b b i).toNat 4 0)) (x.v a) i =
      Machine.sourceReg (lshfSource k i (bits (Safety.operand w b i).toNat 4 0)) (w.vreg a) i := by
  rw [r.operand b i hi]
  cases source : lshfSource k i (bits (Safety.operand w b i).toNat 4 0) with
  | none => exact r.vec a i hi
  | some j =>
    rw [bits_4_0, lshfSource_eq k hi (Nat.mod_lt _ (by decide))] at source
    exact r.vec a j (lt_of_laneAt source)

end

section
variable {c : Ctl} {u : Use} {s : State} {w : Wave} {pc : CodeAddr}

/-! ### What a clear word leaves -/

/-- A clear word that writes one vector register raises no event and draws nothing. -/
theorem wroteVec_vBody {d : Nat} {g : Ex → Nat → Word} {x : Nat → Word} (h : Clear c u s w pc)
    (value : ∀ i < 32, g (clearEx c u s w pc) i = x i) :
    ∃ t v, word c u (vBody d g) s = .next t ∧ WroteVec s w pc (execLanes c u.q w (w.activeAt pc)) d x 0 false t v := by
  obtain ⟨t, v, ht, went, rest, val, vec, scal, pred, special, fstat, rngctr⟩ := word_vBody (d := d) (f := g) h
  refine ⟨t, v, ht, went, rest, fun i hi => ?_, vec, scal, pred, special, ?_, rngctr⟩
  · rw [val i hi, value i (execLanes_lt i hi)]
  · rw [fstat]
    exact (BitVec.or_zero).symm

theorem wroteScal_sBody {d : Nat} {g : Ex → Word} {x : Word} (h : Clear c u s w pc) (value : g (clearEx c u s w pc) = x) :
    ∃ t v, word c u (sBody d g) s = .next t ∧ WroteScal s w pc d x t v := by
  obtain ⟨t, v, ht, went, rest, val, vec, scal, pred, special, flags⟩ := word_sBody (d := d) (f := g) h
  exact ⟨t, v, ht, went, rest, val.trans value, vec, scal, pred, special, flags⟩

end

/-! ### The tables -/

/-- A word of the table runs `vBody`, perhaps reading in other widths, and its value in a lane is the table's. -/
theorem exec_vecWord {i : Instr} {c : Ctl} {u : Use} {d : Nat} {f : InLane Word} (hi : vecWord i = some (c, u, d, f)) :
    ∃ ebits widths, ∃ g : Ex → Nat → Word, (∀ s, exec i s = word c { u with ebits := ebits, widths := widths } (vBody d g) s) ∧
      ∀ x s w lanes, Reads x s w lanes → ∀ k < 32, g x k = f s w lanes k := by
  unfold vecWord at hi
  split at hi
  case h_4 => -- SEL
    cases hi
    exact ⟨_, _, _, fun _ => rfl, fun x s w lanes r k hk => by simp only [r.pred, r.vec _ k hk, r.operand _ k hk]⟩
  case h_30 c d p mode => -- VOTE
    cases hi
    refine ⟨_, _, _, fun _ => rfl, fun x s w lanes r k _ => ?_⟩
    have holds : x.w.pred p = w.pred p := funext (r.pred p)
    cases mode <;> simp only [r.ballot, r.lanes, holds]
  case h_31 => -- LSHF
    cases hi
    exact ⟨_, _, _, fun _ => rfl, fun x s w lanes r k hk => r.sourceReg _ _ _ hk⟩
  case h_32 => -- LBCAST
    cases hi
    exact ⟨_, _, _, fun _ => rfl, fun x s w lanes r k _ => by simp only [r.elemAt, r.scal]⟩
  case h_33 => -- LPERM
    cases hi
    exact ⟨_, _, _, fun _ => rfl, fun x s w lanes r k hk => by simp only [r.elemAt, r.vec _ k hk]⟩
  case h_38 => -- MFS
    cases hi
    exact ⟨_, _, _, fun _ => rfl, fun x s w lanes r k _ => by simp only [r.state, r.wave]⟩
  case h_39 => -- PERFRD
    cases hi
    exact ⟨_, _, _, fun _ => rfl, fun x s w lanes r k _ => by simp only [r.state, r.wave]⟩
  case h_40 => cases hi
  all_goals -- words that work lane by lane
    cases hi
    exact ⟨_, _, _, fun _ => rfl, fun x s w lanes r k hk => by simp only [r.vec _ k hk, r.operand _ k hk]⟩

/-- A word of the table runs `sBody`, perhaps reading in other widths, and its value is the table's. -/
theorem exec_scalWord {i : Instr} {c : Ctl} {u : Use} {d : Nat} {f : State → Wave → List Nat → Word} (hi : scalWord i = some (c, u, d, f)) :
    ∃ ebits widths, ∃ g : Ex → Word, (∀ s, exec i s = word c { u with ebits := ebits, widths := widths } (sBody d g) s) ∧
      ∀ x s w lanes, Reads x s w lanes → g x = f s w lanes := by
  unfold scalWord at hi
  split at hi
  case h_16 => -- RDLANE
    cases hi
    exact ⟨_, _, _, fun _ => rfl, fun x s w lanes r => by simp only [r.elemAt, r.scal]⟩
  case h_17 => -- MFS
    cases hi
    exact ⟨_, _, _, fun _ => rfl, fun x s w lanes r => by simp only [Ex.first, r.state, r.wave, r.lanes]⟩
  case h_18 => -- RCPQ
    cases hi
    exact ⟨_, _, _, fun _ => rfl, fun x s w lanes r => by simp only [r.state, r.wave, r.scal]⟩
  case h_19 => -- RTQ
    cases hi
    exact ⟨_, _, _, fun _ => rfl, fun x s w lanes r => by simp only [r.state, r.tenant, r.scal]⟩
  case h_20 c d a arr way => -- TBRD
    cases hi
    refine ⟨_, _, fun x => tbrdOf (x.s.tenant x.w.tenant) arr way (x.sc a).toNat, fun _ => rfl, fun x s w lanes r => ?_⟩
    simp only [r.state, r.tenant, r.scal]
    rfl
  case h_21 c d a => -- FRQ
    cases hi
    exact ⟨_, _, fun x => frqVal x.s (x.s.tenant x.w.tenant) (x.sc a).toNat, fun _ => rfl,
      fun x s w lanes r => by simp only [r.state, r.tenant, r.scal]⟩
  case h_22 c d a => -- BNDQ
    cases hi
    exact ⟨_, _, fun x => bndqVal (x.s.tenant x.w.tenant) (x.sc a).toNat, fun _ => rfl,
      fun x s w lanes r => by simp only [r.state, r.tenant, r.scal]⟩
  case h_23 => cases hi
  all_goals -- words over scalar registers
    cases hi
    exact ⟨_, _, _, fun _ => rfl, fun x s w lanes r => by simp only [r.scal]⟩

section
variable {i : Instr} {c : Ctl} {u : Use} {d : Nat} {s : State} {w : Wave} {pc : CodeAddr}

theorem wroteVec_of_vecWord {f : InLane Word} (hi : vecWord i = some (c, u, d, f)) (h : Clear c u s w pc) :
    ∃ t v, exec i s = .next t ∧
      WroteVec s w pc (execLanes c u.q w (w.activeAt pc)) d (f s w (execLanes c u.q w (w.activeAt pc))) 0 false t v := by
  obtain ⟨ebits, widths, g, runs, value⟩ := exec_vecWord hi
  have h' := clear_withWidths h ebits widths
  obtain ⟨t, v, ht, wrote⟩ := wroteVec_vBody (d := d) h' (value _ s w _ (reads_clearEx h'))
  exact ⟨t, v, (runs s).trans ht, wrote⟩

/-- What a word of the table puts into its register, alone. -/
theorem value_of_vecWord {f : InLane Word} (hi : vecWord i = some (c, u, d, f)) (h : Clear c u s w pc) :
    ∃ t v, exec i s = .next t ∧ t.wave? w.core w.slot = some v ∧
      ∀ k ∈ execLanes c u.q w (w.activeAt pc), v.vreg d k = f s w (execLanes c u.q w (w.activeAt pc)) k := by
  obtain ⟨t, v, ht, wrote⟩ := wroteVec_of_vecWord hi h
  exact ⟨t, v, ht, wrote.went.wave, wrote.value⟩

theorem wroteScal_of_scalWord {f : State → Wave → List Nat → Word} (hi : scalWord i = some (c, u, d, f)) (h : Clear c u s w pc) :
    ∃ t v, exec i s = .next t ∧ WroteScal s w pc d (f s w (execLanes c u.q w (w.activeAt pc))) t v := by
  obtain ⟨ebits, widths, g, runs, value⟩ := exec_scalWord hi
  have h' := clear_withWidths h ebits widths
  obtain ⟨t, v, ht, wrote⟩ := wroteScal_sBody (d := d) h' (value _ s w _ (reads_clearEx h'))
  exact ⟨t, v, (runs s).trans ht, wrote⟩

end

/-- Settles O9: each word of the table runs `vBody` with the table's value, read from the registers as they stand. -/
theorem vectorWords : Obligations.VectorWords := by
  unfold Obligations.VectorWords
  exact fun i c u d f s w pc hi h => wroteVec_of_vecWord hi h

/-- Settles O12: each word of the table runs `sBody` with the table's value. -/
theorem scalarWords : Obligations.ScalarWords := by
  unfold Obligations.ScalarWords
  exact fun i c u d f s w pc hi h => wroteScal_of_scalWord hi h

/-! ### SSETQ and WRLANE -/

section
variable {c : Ctl} {s : State} {w : Wave} {pc : CodeAddr}

/-- A scalar predicate written changes the scalar predicates alone. -/
theorem setQpred_eq (w : Wave) (q : Nat) (b : Bool) : ∃ m, w.setQpred q b = { w with qpreds := m } := by
  unfold Wave.setQpred
  split
  · exact ⟨w.qpreds, rfl⟩
  · exact ⟨_, rfl⟩

/-- A clear word that changes its own wave once, by what it reads. -/
theorem word_waveBody {u : Use} {f : Ex → Wave → Wave} {w1 : Wave} (h : Clear c u s w pc) (value : f (clearEx c u s w pc) w = w1)
    (hcore : w1.core = w.core) (hslot : w1.slot = w.slot) (hlanes : w1.lanes = w.lanes) (htenant : w1.tenant = w.tenant)
    (hhang : w1.hangcnt = w.hangcnt) :
    ∃ t v, word c u (waveBody f) s = .next t ∧ Went s w pc t v ∧ (∃ m, Booked { w1 with lanes := m } v) ∧ RestKept s t w := by
  refine word_wave none false none h ?_ hcore hslot hlanes htenant hhang
  rw [waveBody, clearEx_wave h, value]
  rfl

theorem ssetq_writes {d a b : Nat} {k : Cmp} {u : Bool}
    (h : Clear c { sr := [a, b], qw := [d], lat := 3, hok := true, q := true } s w pc) :
    ∃ t v, exec (.ssetq c d a b k u) s = .next t ∧ Went s w pc t v ∧ RestKept s t w ∧
      (∀ q, v.qpred q = if q = d ∧ d ≠ 0 then compareInt k (scalarInt u (w.sreg a)) (scalarInt u (w.sreg b)) else w.qpred q) ∧
      VecKept w v (fun _ _ => False) ∧ ScalKept w v (fun _ => False) ∧ v.preds = w.preds ∧ SpecialKept w v ∧ FlagsKept w v := by
  have r := reads_clearEx h
  obtain ⟨m, hm⟩ := setQpred_eq w d (compareInt k (scalarInt u (w.sreg a)) (scalarInt u (w.sreg b)))
  obtain ⟨t, v, ht, went, ⟨_, _, _, _, _, _, _, _, _, rfl⟩, rest⟩ := word_waveBody (w1 := { w with qpreds := m })
    (f := fun x w => w.setQpred d (compareInt k (scalarInt u (x.sc a)) (scalarInt u (x.sc b)))) h (by simp only [r.scal, hm]) rfl rfl rfl rfl rfl
  refine ⟨t, _, ht, went, rest, fun q => ?_, fun _ _ _ _ => rfl, fun _ _ => rfl, rfl, specialKept_same rfl, rfl, rfl⟩
  rw [← Wave.qpred_setQpred, hm]
  rfl

theorem wrlane_writes {d a b : Nat} {t : Ty} (h : Clear c { sr := [a, b], vw := [d], lat := 8, hok := true } s w pc) :
    ∃ s1 v, exec (.wrlane c d a b t) s = .next s1 ∧
      WroteVec s w pc [leaLane (w.sreg b).toNat] d
        (fun i => setElem (w.vreg d i) t (leaElem (w.sreg b).toNat t.count) ((w.sreg a).toNat % 2 ^ t.bits)) 0 false s1 v := by
  have r := reads_clearEx h
  have lane := leaLane_lt (w.sreg b).toNat
  obtain ⟨s1, v, ht, went, ⟨_, _, _, _, _, _, _, _, _, rfl⟩, rest⟩ := word_waveBody
    (w1 := w.setVreg d (leaLane (w.sreg b).toNat) (setElem (w.vreg d (leaLane (w.sreg b).toNat)) t (leaElem (w.sreg b).toNat t.count)
      ((w.sreg a).toNat % 2 ^ t.bits)))
    (f := fun x w => w.setVreg d (leaLane (x.sc b).toNat)
      (setElem (w.vreg d (leaLane (x.sc b).toNat)) t (leaElem (x.sc b).toNat t.count) ((x.sc a).toNat % 2 ^ t.bits)))
    h (by simp only [r.scal]) rfl rfl rfl rfl rfl
  refine ⟨s1, _, ht, went, rest, fun i hi => ?_, fun q i hi other => ?_, fun _ _ => rfl, ⟨rfl, rfl⟩, specialKept_same rfl,
    (BitVec.or_zero).symm, rfl⟩
  · cases List.mem_singleton.mp hi
    exact (Wave.vreg_setVreg w d _ _ lane lane).trans (if_pos ⟨rfl, rfl⟩)
  · exact (Wave.vreg_setVreg w q i _ lane hi).trans (if_neg fun same => other ⟨same.1, List.mem_singleton.mpr same.2⟩)

end

/-- Settles O13: each word changes its wave once (`word_waveBody`), in one predicate or in one lane of one register. -/
theorem scalarPredicateAndLaneWrite : Obligations.ScalarPredicateAndLaneWrite := by
  unfold Obligations.ScalarPredicateAndLaneWrite
  exact ⟨fun c d a b k u s w pc h => ssetq_writes h, fun c d a b t s w pc h => wrlane_writes h⟩

end Sys2Proof.Machine

/-! What words compute, element by element (spec/10 R175, R179, R181, R182, R184, R189): the table's value of `value_of_vecWord`, and the
elements of that value. -/
namespace Sys2Proof.Machine
open Sys2Proof.Safety

section
variable {c : Ctl} {d a : Nat} {b : Option VS} {e : Option Nat} {s : State} {w : Wave} {pc : CodeAddr}

/-- The width of the elements of a word over A, B and C does not bear on whether it is clear. -/
theorem clear_useABC (n : Nat) (h : Clear c (useABC c d a b e) s w pc) : Clear c (useABC c d a b e n) s w pc := clear_withWidths h n []

/-- The elements that a word of the table leaves are those of the table's value. -/
theorem elements_of_vecWord {i : Instr} {f : InLane Word} {t : Ty} {elem : Nat → Nat → Nat}
    (hi : vecWord i = some (c, useABC c d a b e t.bits, d, f)) (h : Clear c (useABC c d a b e) s w pc)
    (helem : ∀ lanes k, ∀ j < t.count, elemBits (f s w lanes k) t.bits j = elem k j) :
    ∃ s1 v, exec i s = .next s1 ∧ s1.wave? w.core w.slot = some v ∧
      ∀ k ∈ execLanes c false w (w.activeAt pc), ∀ j < t.count, elemBits (v.vreg d k) t.bits j = elem k j := by
  obtain ⟨s1, v, hs, hv, value⟩ := value_of_vecWord hi (clear_useABC t.bits h)
  refine ⟨s1, v, hs, hv, fun k hk j hj => ?_⟩
  rw [value k hk, helem _ k j hj]

end

/-- Settles O14: the exact result of each element, clamped with SAT and wrapped (`elemBits_int2`, `elemBits_int3`). -/
theorem integerElements : Obligations.IntegerElements := by
  unfold Obligations.IntegerElements
  intro t _ z c d a b e s w pc h
  simp only [List.forall_mem_cons, List.not_mem_nil, false_implies, implies_true, and_true]
  exact ⟨⟨elements_of_vecWord rfl h fun _ _ _ hj => elemBits_int2 hj .., elements_of_vecWord rfl h fun _ _ _ hj => elemBits_int2 hj ..,
    elements_of_vecWord rfl h fun _ _ _ hj => elemBits_int2 hj ..⟩, fun h => elements_of_vecWord rfl h fun _ _ _ hj => elemBits_int3 hj ..⟩

/-- Settles O15: an element is shifted by its count; SHL and ROT reduce it to its width, SHR and SAR keep it there. -/
theorem shiftElements : Obligations.ShiftElements := by
  unfold Obligations.ShiftElements
  intro t _ u c d a b s w pc h
  simp only [List.forall_mem_cons, List.not_mem_nil, false_implies, implies_true, and_true]
  exact ⟨elements_of_vecWord rfl h fun _ _ _ hj => elemBits_shiftWith hj .., elements_of_vecWord rfl h fun _ _ _ hj => elemBits_shrVal hj ..,
    elements_of_vecWord rfl h fun _ _ _ hj => elemBits_sarVal hj .., elements_of_vecWord rfl h fun _ _ _ hj => elemBits_shiftWith hj ..⟩

/-- Settles O16: what a count or a reversal leaves fits its element, and is what R181 says (`popCount_eq_length`, `leadZeros_spec`,
`testBit_revBits`). -/
theorem countAndReverseElements : Obligations.CountAndReverseElements := by
  unfold Obligations.CountAndReverseElements
  intro t _ c d a s w pc h
  simp only [List.forall_mem_cons, List.not_mem_nil, false_implies, implies_true, and_true]
  refine ⟨?_, ?_, ?_⟩
  · obtain ⟨s1, v, hs, hv, elems⟩ := elements_of_vecWord (i := .popc c d a t) rfl h
      fun _ _ _ hj => elemBits_bits1 hj (popCount_lt ..)
    refine ⟨s1, v, hs, hv, fun i hi j hj => ?_⟩
    rw [elems i hi j hj, popCount_eq_length]
  · obtain ⟨s1, v, hs, hv, elems⟩ := elements_of_vecWord (i := .clz c d a t) rfl h
      fun _ _ _ hj => elemBits_bits1 hj ((leadZeros_le ..).trans_lt Nat.lt_two_pow_self)
    refine ⟨s1, v, hs, hv, fun i hi j hj => ?_⟩
    rw [elems i hi j hj]
    exact ⟨leadZeros_le .., leadZeros_spec (elemBits_lt ..)⟩
  · obtain ⟨s1, v, hs, hv, elems⟩ := elements_of_vecWord (i := .brev c d a t) rfl h
      fun _ _ _ hj => elemBits_bits1 hj (revBits_lt ..)
    refine ⟨s1, v, hs, hv, fun i hi j hj => ?_⟩
    rw [elems i hi j hj]
    exact testBit_revBits _ _

/-- Settles O17: LEA's sum mod 2^64 (`toNat_leaVal`). -/
theorem leaAddress : Obligations.LeaAddress := by
  unfold Obligations.LeaAddress
  intro t ht sh c d a b s w pc h
  obtain ⟨s1, v, hs, hv, value⟩ := value_of_vecWord (i := .lea c d a b t sh) rfl (clear_useABC t.bits h)
  refine ⟨s1, v, hs, hv, fun i hi => ?_⟩
  rw [value i hi]
  exact toNat_leaVal ht sh _ _

/-- Settles O18: LSHF's source lane is the lane that its mode names, where there is such a lane (`lshfSource_eq`). -/
theorem laneShift : Obligations.LaneShift := by
  unfold Obligations.LaneShift
  intro k c d a b s w pc h
  obtain ⟨s1, v, ht, hv, value⟩ := value_of_vecWord (i := .lshf c d a b k) rfl h
  refine ⟨s1, v, ht, hv, fun i hi => ?_⟩
  have given : v.vreg d i = sourceReg (lshfSource k i (bits (operand w b i).toNat 4 0)) (w.vreg a) i := value i hi
  rw [given, bits_4_0, lshfSource_eq k (execLanes_lt i hi) (Nat.mod_lt _ (by decide)), sourceReg_laneAt]
  rfl

/-- The M field of a word that decodes to PLOP is zero (Table 2-12). -/
theorem field_m_of_plop {x : Word} {c : Ctl} {d p q n : Nat} (h : decode x = .ok (.plop c d p q n)) : x.toNat / 2 ^ 10 % 2 ^ 8 = 0 := by
  obtain ⟨-, formed, encoded⟩ := decode_eq_ok_iff.mp h
  rcases encode_eq_some encoded with ⟨f, fields, hx⟩ | ⟨h0, h1, st, other, -⟩
  · have fits := (Laws.RoundTrip.statement _ f formed fields).1
    cases fields
    rw [hx]
    exact congrArg Fields.m (ofWord_word fits)
  · cases other

/-- Settles O19: the value that the table `predWord` gives PLOP, and the fields of its encoding. -/
theorem predicateTable : Obligations.PredicateTable := by
  unfold Obligations.PredicateTable
  refine ⟨fun c d p q n s w pc h => ?_, fun x c d p q n h => field_m_of_plop h⟩
  obtain ⟨t, v, ht, went, -, pred, -⟩ := predicateWords (.plop c d p q n) _ _ _ _ s w pc rfl h
  refine ⟨t, v, ht, went.wave, fun i hi writes => ?_⟩
  rw [pred d i (execLanes_lt i hi), if_pos ⟨rfl, writes, hi⟩]
  rfl

end Sys2Proof.Machine

/-! Words with events of FSTAT (spec/10 R191; spec/11 R199, R200; spec/12): what a word that draws reads, that a word of `floatWord` runs `fBody`
or `rBody` with the table's value, and what such a word leaves. -/
namespace Sys2Proof.Machine
open Sys2Proof.Safety

/-! ### What a word that draws reads (R199) -/

/-- What `Reads` says, and that draws are those of the wave's launch, of the wave and of its RNGCTR. -/
structure ReadsDraws (x : Ex) (s : State) (w : Wave) (lanes : List Nat) : Prop extends Reads x s w lanes where
  launch : x.l = s.launch w.launch
  wid : x.w.wid = w.wid
  rngctr : x.w.rngctr = w.rngctr

theorem readsDraws_clearEx {c : Ctl} {u : Use} {s : State} {w : Wave} {pc : CodeAddr} (h : Clear c u s w pc) :
    ReadsDraws (clearEx c u s w pc) s w (execLanes c u.q w (w.activeAt pc)) := by
  obtain ⟨m, hm⟩ := clearEx_w h
  exact ⟨reads_clearEx h, clearEx_l h, by rw [hm], by rw [hm]⟩

section
variable {x : Ex} {s : State} {w : Wave} {lanes : List Nat}

theorem ReadsDraws.draw (r : ReadsDraws x s w lanes) (rnd : Rnd) (k : Nat) : x.draw rnd k = draws s w rnd k := by
  funext j
  rw [Ex.draw, draws, r.launch, r.wid, r.rngctr]

/-- A reduction takes only registers of the wave's 32 lanes (R191). -/
theorem Reads.reduce (r : Reads x s w lanes) (a : Nat) (t : Ty) (op : RedOp) (set : List Nat) :
    x.reduce a t op set = reduction w a t op set := by
  have leaf : ∀ e, ((List.range 32).map fun i => if set.contains i then some (⟨redLeaf t (elemBits (x.v a i) t.bits e), 0⟩ : Res) else none) =
      (List.range 32).map fun i => if set.contains i then some ⟨redLeaf t (elemBits (w.vreg a i) t.bits e), 0⟩ else none :=
    fun e => List.map_congr_left fun i hi => by rw [r.vec a i (List.mem_range.mp hi)]
  simp only [Ex.reduce, reduction, leaf]

end

/-! ### What a clear word leaves -/

/-- The bodies of words that write the vector register `d` with `g` and its events: without a draw, and with one where the rounding is
stochastic (R199, R205). -/
inductive FloatBody (d : Nat) (g : Ex → Nat → VRes) : Bool → (Ex → Out) → Prop
  | plain : FloatBody d g false (fBody d g)
  | rounded (r : Rnd) : FloatBody d g (r == .sr) (rBody d r g)

/-- A clear word with such a body leaves its values, the events of its lanes together, and RNGCTR counted where it draws. -/
theorem wroteVec_floatBody {c : Ctl} {u : Use} {s : State} {w : Wave} {pc : CodeAddr} {d : Nat} {b : Bool} {g : Ex → Nat → VRes}
    {body : Ex → Out} {y : Nat → VRes} (h : Clear c u s w pc) (shape : FloatBody d g b body) (value : ∀ k < 32, g (clearEx c u s w pc) k = y k) :
    ∃ t v, word c u body s = .next t ∧ WroteVec s w pc (execLanes c u.q w (w.activeAt pc)) d (fun k => (y k).val)
      (orFlags ((execLanes c u.q w (w.activeAt pc)).map fun k => (y k).fl)) b t v := by
  have same : ∀ k ∈ execLanes c u.q w (w.activeAt pc), g (clearEx c u s w pc) k = y k := fun k hk => value k (execLanes_lt k hk)
  have events : (execLanes c u.q w (w.activeAt pc)).map (fun k => (g (clearEx c u s w pc) k).fl) =
      (execLanes c u.q w (w.activeAt pc)).map fun k => (y k).fl := List.map_congr_left fun k hk => by rw [same k hk]
  rw [← events]
  cases shape with
  | plain =>
    obtain ⟨t, v, ht, went, rest, val, vec, scal, pred, special, rngctr, fstat⟩ := word_fBody (d := d) (f := g) h
    exact ⟨t, v, ht, went, rest, fun k hk => (val k hk).trans (by rw [same k hk]), vec, scal, pred, special, fstat, rngctr⟩
  | rounded r =>
    obtain ⟨t, v, ht, went, rest, val, vec, scal, pred, special, rngctr, fstat⟩ := word_rBody (d := d) (r := r) (f := g) h
    exact ⟨t, v, ht, went, rest, fun k hk => (val k hk).trans (by rw [same k hk]), vec, scal, pred, special, fstat, rngctr⟩

/-! ### The table -/

/-- A word of the table has a float body, perhaps reading in other widths, and its value in a lane is the table's. -/
theorem exec_floatWord {i : Instr} {c : Ctl} {u : Use} {d : Nat} {b : Bool} {f : InLane VRes} (hi : floatWord i = some (c, u, d, b, f)) :
    ∃ ebits widths body, ∃ g : Ex → Nat → VRes, (∀ s, exec i s = word c { u with ebits := ebits, widths := widths } body s) ∧
      FloatBody d g b body ∧ ∀ x s w lanes, ReadsDraws x s w lanes → ∀ k < 32, g x k = f s w lanes k := by
  unfold floatWord at hi
  split at hi
  case h_10 => -- RAND
    cases hi
    exact ⟨_, _, _, _, fun _ => rfl, .rounded .sr, fun x s w lanes r k _ => by simp only [r.launch, r.wid, r.rngctr]⟩
  case h_20 => -- LRED
    cases hi
    exact ⟨_, _, _, _, fun _ => rfl, .plain, fun x s w lanes r k _ => by simp only [r.reduce, r.lanes]⟩
  case h_21 => -- LSCAN
    cases hi
    exact ⟨_, _, _, _, fun _ => rfl, .plain, fun x s w lanes r k _ => by simp only [r.reduce, r.lanes]⟩
  case h_22 => cases hi
  case h_1 | h_2 | h_3 | h_4 | h_5 | h_6 | h_7 | h_8 | h_9 => -- words that round as they are told
    cases hi
    exact ⟨_, _, _, _, fun _ => rfl, .rounded _, fun x s w lanes r k hk => by simp only [r.draw, r.vec _ k hk, r.operand _ k hk]⟩
  all_goals -- words of their lane's registers alone
    cases hi
    exact ⟨_, _, _, _, fun _ => rfl, .plain, fun x s w lanes r k hk => by simp only [r.vec _ k hk, r.operand _ k hk]⟩

/-- Settles O11: each word of the table has a float body (`exec_floatWord`), which leaves the table's values and their events
(`wroteVec_floatBody`). -/
theorem floatWords : Obligations.FloatWords := by
  unfold Obligations.FloatWords
  intro i c u d b f s w pc hi h
  obtain ⟨ebits, widths, body, g, runs, shape, value⟩ := exec_floatWord hi
  have h' := clear_withWidths h ebits widths
  obtain ⟨t, v, ht, wrote⟩ := wroteVec_floatBody h' shape (value _ s w _ (readsDraws_clearEx h'))
  exact ⟨t, v, (runs s).trans ht, wrote⟩

end Sys2Proof.Machine

/-! FMIN and FMAX (spec/12 R208): the order with −0 below +0 is asymmetric, what `fpick` returns in each case of R208, and that the element it
returns fits, so that it stands in the destination bit for bit. -/
namespace Sys2Proof.Machine
open Sys2Proof.Safety

/-! ### The order of values -/

theorem Dy.lt_asymm {x y : Dy} (h : x.lt y = true) : y.lt x = false := by
  simp only [Dy.lt, decide_eq_true_eq, decide_eq_false_iff_not] at h ⊢
  rw [min_comm]
  exact h.asymm

theorem FVal.lt_asymm {p q : FVal} (h : p.lt q = true) : q.lt p = false := by
  cases p <;> cases q
  case inf.inf | inf.nan | inf.fin | nan.inf | fin.inf => simp_all [FVal.lt]
  all_goals
    simp only [FVal.lt] at h ⊢
    exact Dy.lt_asymm h

theorem FVal.isZero_iff {p : FVal} : p.isZero = true ↔ ∃ s e, p = .fin s 0 e := by
  unfold FVal.isZero
  split <;> simp_all

/-- Zeros are equal in the order without signs, whatever their signs and exponents. -/
theorem FVal.lt_of_isZero {p q : FVal} (hp : p.isZero = true) (hq : q.isZero = true) : p.lt q = false := by
  obtain ⟨s, e, rfl⟩ := FVal.isZero_iff.mp hp
  obtain ⟨s', e', rfl⟩ := FVal.isZero_iff.mp hq
  simp [FVal.lt, FVal.dy, Dy.lt, Dy.at]

/-- R208's order is asymmetric: the signs of zeros settle only what the order without them leaves equal. -/
theorem FVal.ltZ_asymm {p q : FVal} (h : p.ltZ q = true) : q.ltZ p = false := by
  simp only [FVal.ltZ, Bool.or_eq_true, Bool.and_eq_true, Bool.not_eq_true'] at h
  rcases h with below | ⟨⟨⟨hp, hq⟩, negative⟩, positive⟩
  · have tie : (q.isZero && p.isZero) = false := by
      by_contra zeros
      simp only [Bool.not_eq_false, Bool.and_eq_true] at zeros
      simp [FVal.lt_of_isZero zeros.2 zeros.1] at below
    simp [FVal.ltZ, FVal.lt_asymm below, tie]
  · simp [FVal.ltZ, FVal.lt_of_isZero hq hp, positive]

/-! ### The operand that is picked -/

/-- What R208 says of the result `r` for the operands `x` and `y`, where `less` says which of two values is to be returned. -/
def Picked (f : Fmt) (less : FVal → FVal → Bool) (x y r : Nat) : Prop :=
  let p := f.read x
  let q := f.read y
  (p.isNan = true → q.isNan = true → r = f.nanBits) ∧ (p.isNan = true → q.isNan = false → r = y) ∧
  (p.isNan = false → q.isNan = true → r = x) ∧
  (p.isNan = false → q.isNan = false → (less p q = true → r = x) ∧ (less q p = true → r = y) ∧ (r = x ∨ r = y))

theorem picked_fpick (f : Fmt) {less : FVal → FVal → Bool} (asymm : ∀ {p q}, less p q = true → less q p = false) (x y : Nat) :
    Picked f less x y (fpick f less x y) := by
  refine ⟨fun hp hq => by simp [fpick, hp, hq], fun hp hq => by simp [fpick, hp, hq], fun hp hq => by simp [fpick, hp, hq],
    fun hp hq => ?_⟩
  have pick : fpick f less x y = if less (f.read y) (f.read x) then y else x := by simp [fpick, hp, hq]
  rw [pick]
  refine ⟨fun first => if_neg (by simp [asymm first]), fun second => if_pos second, ?_⟩
  split
  · exact .inr rfl
  · exact .inl rfl

theorem nanBits_lt (t : Ty) : (fmtOf t).nanBits < 2 ^ t.bits := by cases t <;> decide

/-- What is picked is an operand or the default NaN. -/
theorem fpick_lt {t : Ty} {x y : Nat} (less : FVal → FVal → Bool) (hx : x < 2 ^ t.bits) (hy : y < 2 ^ t.bits) :
    fpick (fmtOf t) less x y < 2 ^ t.bits := by
  unfold fpick
  extract_lets p q
  split_ifs
  exacts [nanBits_lt t, hy, hx, hy, hx]

theorem elemBits_fpick {t : Ty} {j : Nat} (hj : j < t.count) (less : FVal → FVal → Bool) (x y : Word) :
    elemBits (build t (fun j => fpick (fmtOf t) less (elemBits x t.bits j) (elemBits y t.bits j))) t.bits j =
      fpick (fmtOf t) less (elemBits x t.bits j) (elemBits y t.bits j) :=
  elemBits_build (f := fun j => fpick (fmtOf t) less (elemBits x t.bits j) (elemBits y t.bits j)) hj
    (fpick_lt less (elemBits_lt ..) (elemBits_lt ..))

/-! ### The words -/

/-- A clear word of the table whose elements are picked from A and B leaves FSTAT as it was, and in each executing lane what R208 says. -/
theorem picked_of_vecWord {i : Instr} {c : Ctl} {u : Use} {d a : Nat} {b : VS} {t : Ty} {less : FVal → FVal → Bool} {s : State} {w : Wave}
    {pc : CodeAddr} (asymm : ∀ {p q}, less p q = true → less q p = false)
    (hi : vecWord i = some (c, u, d, fun _ w _ k =>
      build t (fun j => fpick (fmtOf t) less (elemBits (w.vreg a k) t.bits j) (elemBits (operand w b k) t.bits j))))
    (h : Clear c u s w pc) :
    ∃ s1 v, exec i s = .next s1 ∧ s1.wave? w.core w.slot = some v ∧ v.fstat = w.fstat ∧
      ∀ k ∈ execLanes c u.q w (w.activeAt pc), ∀ j < t.count,
        Picked (fmtOf t) less (elemBits (w.vreg a k) t.bits j) (elemBits (operand w b k) t.bits j) (elemBits (v.vreg d k) t.bits j) := by
  obtain ⟨s1, v, hs, wrote⟩ := wroteVec_of_vecWord hi h
  refine ⟨s1, v, hs, wrote.went.wave, wrote.flags.trans BitVec.or_zero, fun k hk j hj => ?_⟩
  rw [wrote.value k hk, elemBits_fpick hj]
  exact picked_fpick _ asymm _ _

/-- Settles O20: both words pick by `fpick`, FMIN by R208's order and FMAX by its converse, each asymmetric (`FVal.ltZ_asymm`). -/
theorem floatMinMax : Obligations.FloatMinMax := by
  unfold Obligations.FloatMinMax
  intro t _ c d a b s w pc h
  simp only [List.forall_mem_cons, List.not_mem_nil, false_implies, implies_true, and_true]
  exact ⟨picked_of_vecWord (i := .fmin c d a b t) FVal.ltZ_asymm rfl h,
    picked_of_vecWord (i := .fmax c d a b t) (less := fun x y => y.ltZ x) FVal.ltZ_asymm rfl h⟩

end Sys2Proof.Machine

/-! Words over the caches (spec/13 R237; spec/19 R303, R312): what a request for a sector takes, what a prefetch leaves, which lines a CINV drops, and
the acquire side of a FENCE. -/
namespace Sys2Proof.Machine
open Sys2Proof.Safety

/-! ### What a request takes (R249, R255) -/

/-- Two states differ in buckets and retries at most. -/
def TokensOnly (s t : State) : Prop := ∃ net slice again, t = { s with mem := { s.mem with netTok := net, sliceTok := slice, retries := again } }

theorem TokensOnly.refl (s : State) : TokensOnly s s := ⟨_, _, _, rfl⟩

theorem TokensOnly.trans {s t u : State} (h : TokensOnly s t) (g : TokensOnly t u) : TokensOnly s u := by
  obtain ⟨_, _, _, rfl⟩ := h
  obtain ⟨net, slice, again, rfl⟩ := g
  exact ⟨net, slice, again, rfl⟩

theorem tokensOnly_takeStops {s t : State} {ten : Nat} {l : List Nat} (h : s.takeStops ten l = some t) : TokensOnly s t := by
  unfold State.takeStops at h
  dsimp only at h
  split at h
  · cases h
    exact .refl s
  · split at h
    · cases h
    · cases h
      exact ⟨_, _, _, rfl⟩

theorem tokensOnly_takeSlice {s t : State} {ten ma : Nat} (h : s.takeSlice ten ma = some t) : TokensOnly s t := by
  unfold State.takeSlice at h
  dsimp only at h
  split at h
  · cases h
    exact .refl s
  · split at h
    · cases h
    · cases h
      exact ⟨_, _, _, rfl⟩

theorem tokensOnly_dropRetry (s : State) (who : Requester) : TokensOnly s (s.dropRetry who) := by
  unfold State.dropRetry
  split
  · exact ⟨_, _, _, rfl⟩
  · exact .refl s

/-- What a request takes, accepted or not. -/
theorem tokensOnly_request {s t : State} {stop ten ma n : Nat} {who : Requester}
    (h : s.request stop ten ma who n = .ok t ∨ s.request stop ten ma who n = .error t) : TokensOnly s t := by
  unfold State.request at h
  split at h
  · obtain h | h := h <;> cases h
    exact .refl s
  · split at h
    · obtain h | h := h <;> cases h
      exact .refl s
    · rename_i stops
      split at h
      · obtain h | h := h <;> cases h
        exact (tokensOnly_takeStops stops).trans ⟨_, _, _, rfl⟩
      · rename_i slice
        obtain h | h := h <;> cases h
        exact ((tokensOnly_takeStops stops).trans (tokensOnly_takeSlice slice)).trans (tokensOnly_dropRetry ..)

/-! ### What a prefetch leaves (R237) -/

/-- Two states differ at most in the caches, in the tokens taken, and in what waits for one. -/
def PrefetchOnly (s t : State) : Prop := ∃ l1 l2 tick slice net again prefs,
  t = { s with mem := { s.mem with l1 := l1, l2 := l2, l2tick := tick, sliceTok := slice, netTok := net, retries := again, prefs := prefs } }

theorem PrefetchOnly.refl (s : State) : PrefetchOnly s s := ⟨_, _, _, _, _, _, _, rfl⟩

theorem PrefetchOnly.trans {s t u : State} (h : PrefetchOnly s t) (g : PrefetchOnly t u) : PrefetchOnly s u := by
  obtain ⟨_, _, _, _, _, _, _, rfl⟩ := h
  obtain ⟨l1, l2, tick, slice, net, again, prefs, rfl⟩ := g
  exact ⟨l1, l2, tick, slice, net, again, prefs, rfl⟩

theorem PrefetchOnly.wavesKept {s t : State} (h : PrefetchOnly s t) : WavesKept s t := by
  obtain ⟨_, _, _, _, _, _, _, rfl⟩ := h
  exact ⟨rfl, rfl⟩

theorem TokensOnly.prefetchOnly {s t : State} (h : TokensOnly s t) : PrefetchOnly s t := by
  obtain ⟨net, slice, again, rfl⟩ := h
  exact ⟨_, _, _, slice, net, again, _, rfl⟩

theorem CacheOnly.prefetchOnly {s t : State} (h : CacheOnly s t) : PrefetchOnly s t := by
  obtain ⟨l, k, rfl⟩ := h
  exact ⟨_, l, k, _, _, _, _, rfl⟩

theorem prefetchOnly_l1Fill (s : State) (core ma evict : Nat) : PrefetchOnly s (s.l1Fill core ma evict) := by
  unfold State.l1Fill
  dsimp only
  split
  · exact .refl s
  · exact ⟨_, _, _, _, _, _, _, rfl⟩

/-- Steps that each keep to a prefetch's changes keep to them together. -/
theorem prefetchOnly_foldl {α : Type} {f : State → α → State} (step : ∀ s a, PrefetchOnly s (f s a)) :
    ∀ (l : List α) (s : State), PrefetchOnly s (l.foldl f s)
  | [], s => .refl s
  | a :: l, s => (step s a).trans (prefetchOnly_foldl step l (f s a))

theorem prefetchOnly_tryPref (s : State) (x : Prefetch) : PrefetchOnly s (s.tryPref x) := by
  have gone : ∀ t : State, PrefetchOnly t (t.setMem { t.mem with prefs := t.mem.prefs.filter (fun y => y.id != x.id) }) :=
    fun t => ⟨_, _, _, _, _, _, _, rfl⟩
  unfold State.tryPref
  dsimp only
  split
  · exact (tokensOnly_dropRetry ..).prefetchOnly.trans (gone _)
  · split
    · rename_i waits
      exact (tokensOnly_request (.inr waits)).prefetchOnly
    · rename_i s1 accepted
      have brought : PrefetchOnly s _ := ((tokensOnly_request (.inl accepted)).prefetchOnly.trans
        (cacheOnly_l2Access s1 x.ma x.evict false none).prefetchOnly).trans (gone _)
      split
      · exact brought.trans (prefetchOnly_foldl (fun u k => prefetchOnly_l1Fill ..) _ _)
      · exact brought

theorem prefetchOnly_prefetch (s : State) (w : Wave) (ev ma : Nat) : PrefetchOnly s (s.prefetch w ev ma) := by
  have queued : ∀ x, PrefetchOnly s (s.setMem { s.mem with prefs := s.mem.prefs ++ [x] }) := fun x => ⟨_, _, _, _, _, _, _, rfl⟩
  unfold State.prefetch
  dsimp only
  split
  · exact queued _
  · exact (queued _).trans (prefetchOnly_tryPref ..)

/-! ### The lines that lanes name (R237) -/

section
variable {c : Ctl} {u : Use} {s : State} {w : Wave} {pc : CodeAddr}

/-- The checks of a global address ask nothing of the registers. -/
theorem clearEx_checkVa (h : Clear c u s w pc) (t : State) (va : Word) (n need : Nat) :
    t.checkVa (clearEx c u s w pc).w va n need = t.checkVa w va n need := by
  obtain ⟨m, hm⟩ := clearEx_w h
  rw [hm]
  rfl

/-- A line is named where an executing lane names it by an address that passes R221. -/
theorem mem_linesAt (h : Clear c u s w pc) {a ma : Nat} {off : Int} : ma ∈ (clearEx c u s w pc).linesAt a off ↔
    ∃ i ∈ execLanes c u.q w (w.activeAt pc), ∃ x, s.checkVa w (vaOf (w.vreg a i) off 1) 1 aRD = .ok x ∧
      x.loc (vaOf (w.vreg a i) off 1).toNat = .mem ma := by
  unfold Ex.linesAt
  rw [List.mem_filterMap]
  refine exists_congr fun i => and_congr_right fun hi => ?_
  dsimp only
  rw [clearEx_checkVa h, clearEx_v h (execLanes_lt i hi)]
  show (match s.checkVa w (vaOf (w.vreg a i) off 1) 1 aRD with
    | .error _ => none
    | .ok e => match e.loc (vaOf (w.vreg a i) off 1).toNat with
      | .mem ma => some ma
      | _ => none) = some ma ↔ _
  cases s.checkVa w (vaOf (w.vreg a i) off 1) 1 aRD with
  | error e => simp
  | ok e => cases at_ : e.loc (vaOf (w.vreg a i) off 1).toNat <;> simp [at_]

end

/-- Lines dropped one after another: the state differs in the L1 alone, which keeps what none of them names. -/
theorem foldl_l1DropLines (core : Nat) : ∀ (l : List Nat) (s : State),
    ∃ l1, l.foldl (fun t ma => t.l1DropLines core (fun k => k == ma / 128)) s = { s with mem := { s.mem with l1 := l1 } } ∧
      ∀ e, e ∈ l1 ↔ e ∈ s.mem.l1 ∧ ¬(e.core = core ∧ ∃ ma ∈ l, e.line = ma / 128)
  | [], s => ⟨s.mem.l1, rfl, fun e => by simp⟩
  | ma :: l, s => by
    obtain ⟨l1, left, kept⟩ := foldl_l1DropLines core l (s.l1DropLines core (fun k => k == ma / 128))
    refine ⟨l1, left, fun e => ?_⟩
    rw [kept e]
    by_cases mine : e.core = core <;> simp [State.l1DropLines, State.setMem, mine, and_assoc]

/-! ### The words -/

/-- A clear word that keeps every wave. -/
theorem word_aside {c : Ctl} {u : Use} {s s1 : State} {w : Wave} {pc : CodeAddr} {body : Ex → Out} (h : Clear c u s w pc)
    (kept : WavesKept s s1) (hb : body (clearEx c u s w pc) = .done s1 {}) : ∃ t v, word c u body s = .next t ∧ Over s1 w w pc t v :=
  word_over none false none h hb ((kept.wave? ..).trans (clear_wave h)) (congrArg Control.cycle kept.ctl) (fun _ _ => rfl)

/-- FENCE with its release side complete: the acquire side, and the strong reads judged (R303, R312). -/
theorem hasEffect_fenceWord : HasEffect fenceWord := by
  intro i c u f s w pc s1 w1 hi h hf
  unfold fenceWord at hi
  split at hi
  case h_2 => cases hi
  case h_1 c o sc =>
    cases hi
    dsimp only at hf
    split at hf
    case isTrue => cases hf
    case isFalse released =>
      cases hf
      have done : releaseSide s w sc.code = none := Option.not_isSome_iff_eq_none.mp released
      have kept : WavesKept s (s.acquire w.core sc.code) := by
        unfold State.acquire
        split <;> exact ⟨rfl, rfl⟩
      refine word_beside (u := { impure := decide (4 ≤ sc.code) }) h kept ?_ ?_ ?_ ?_
      · dsimp only
        rw [clearEx_wave h, clearEx_of_no_vector h rfl]
        dsimp only [seen]
        rw [done]
      all_goals
        unfold Wave.hwSticky
        split <;> intros <;> rfl

/-- Settles O44: a prefetch keeps to the caches, the tokens and what waits; a CINV drops the lines its lanes name, one after another; a FENCE
is over with its acquire side. -/
theorem cacheWords : Obligations.CacheWords := by
  refine ⟨fun c a off ev s w pc h => ?_, fun c a off s w pc h => ?_, hasEffect_fenceWord⟩
  · have left : PrefetchOnly s (((clearEx c { vr := [a] } s w pc).linesAt a off).foldl
        (fun t ma => t.prefetch (clearEx c { vr := [a] } s w pc).w ev.code ma) s) :=
      prefetchOnly_foldl (fun t ma => prefetchOnly_prefetch ..) _ s
    obtain ⟨t, v, e, ends⟩ : ∃ t v, exec (.pref c a off ev) s = .next t ∧ Over _ w w pc t v := word_aside h left.wavesKept rfl
    obtain ⟨l1, l2, tick, slice, net, again, prefs, left⟩ := left
    rw [left] at ends
    refine ⟨t, v, e, ?_⟩
    rw [ends.mem]
    exact ends
  · obtain ⟨l1, left, kept⟩ := foldl_l1DropLines (clearEx c { vr := [a] } s w pc).w.core ((clearEx c { vr := [a] } s w pc).linesAt a off) s
    obtain ⟨t, v, e, ends⟩ : ∃ t v, exec (.cinv c a off) s = .next t ∧ Over { s with mem := { s.mem with l1 := l1 } } w w pc t v :=
      word_aside h ⟨rfl, rfl⟩ (congrArg (Out.done · {}) left)
    refine ⟨t, v, e, by rw [ends.mem]; exact ends, fun x => ?_⟩
    have core : (clearEx c { vr := [a] } s w pc).w.core = w.core := by
      obtain ⟨m, hm⟩ := clearEx_w h
      rw [hm]
    rw [ends.mem]
    refine (kept x).trans ?_
    rw [core]
    simp only [mem_linesAt h]
    refine and_congr_right fun _ => not_congr (and_congr_right fun _ => ⟨?_, ?_⟩)
    · rintro ⟨ma, ⟨i, hi, y, ok, at_⟩, line⟩
      exact ⟨i, hi, y, ma, ok, at_, line⟩
    · rintro ⟨i, hi, y, ma, ok, at_, line⟩
      exact ⟨ma, ⟨i, hi, y, ok, at_⟩, line⟩

end Sys2Proof.Machine

/-! Words that access memory (spec/13 R221, R233 to R239; spec/15 R262, R263; spec/19 R315): one effect for every memory form, what its lanes' checks
read, and the lanes that fail them. -/
namespace Sys2Proof.Machine
open Sys2Proof.Safety

/-! ### The effect of a memory form -/

/-- Lanes, each with what its checks say. -/
def tagged (f : Nat → Except (Nat × Word) Acc) (lanes : List Nat) : List (Nat × Except (Nat × Word) Acc) := lanes.map (fun k => (k, f k))

/-- The effect of a memory form's word. -/
def accessBody (m : MemForm) (x : Ex) : Out :=
  accessWord x m.od m.act m.ld m.store m.cards m.acq m.rel m.n m.reg m.regs (tagged (m.check x) x.lanes) (m.parts x)

theorem exec_memWord {i : Instr} {m : MemForm} (hi : memWord i = some m) (s : State) : exec i s = word m.c m.u (accessBody m) s := by
  unfold memWord at hi
  split at hi
  all_goals cases hi
  all_goals rfl

section
variable {c : Ctl} {u : Use} {s : State} {w : Wave} {pc : CodeAddr}

theorem context_v (r k : Nat) : (context c u s w pc).v r k = w.vreg r k := rfl

/-! What a lane's checks ask of the wave is the same whatever its registers hold. -/

theorem globalAcc_clearEx (h : Clear c u s w pc) (o : Order) (n need : Nat) (store never noProt : Bool) (k : Nat) (va : Word) :
    globalAcc (clearEx c u s w pc) o n need store never noProt k va = globalAcc (context c u s w pc) o n need store never noProt k va := by
  obtain ⟨r, hr⟩ := clearEx_w h
  simp only [globalAcc, Ex.l, hr]
  rfl

theorem padAcc_clearEx (h : Clear c u s w pc) (n k : Nat) (a : Word) :
    padAcc (clearEx c u s w pc) n k a = padAcc (context c u s w pc) n k a := by
  obtain ⟨r, hr⟩ := clearEx_w h
  simp only [padAcc, hr]
  rfl

theorem ldkAcc_clearEx (h : Clear c u s w pc) (n : Nat) (off : Int) (k : Nat) (a : Word) :
    ldkAcc (clearEx c u s w pc) n off k a = ldkAcc (context c u s w pc) n off k a := by
  obtain ⟨r, hr⟩ := clearEx_w h
  simp only [ldkAcc, Ex.l, hr]
  rfl

theorem gathAcc_clearEx (h : Clear c u s w pc) (o : Order) (k : Nat) (base idx : Word) :
    gathAcc (clearEx c u s w pc) o k base idx = gathAcc (context c u s w pc) o k base idx := by
  unfold gathAcc
  rw [globalAcc_clearEx h, clearEx_l h]
  rfl

end

section
variable {i : Instr} {m : MemForm} {s : State} {w : Wave} {pc : CodeAddr} (hi : memWord i = some m) (h : Clear m.c m.u s w pc)
include hi h

/-- A lane's checks read its registers as they stand. -/
theorem check_clearEx {k : Nat} (hk : k < 32) : m.check (clearEx m.c m.u s w pc) k = m.check (context m.c m.u s w pc) k := by
  unfold memWord at hi
  split at hi
  all_goals cases hi
  all_goals simp only [clearEx_v h hk, context_v, globalAcc_clearEx h, padAcc_clearEx h, ldkAcc_clearEx h, gathAcc_clearEx h]

/-- So do the parts of its access. -/
theorem parts_clearEx {a : Acc} (ha : a.lane < 32) : m.parts (clearEx m.c m.u s w pc) a = m.parts (context m.c m.u s w pc) a := by
  unfold memWord at hi
  split at hi
  all_goals cases hi
  all_goals simp only [atomParts, gathParts, clearEx_v h ha, context_v]

end

/-! ### Lanes that fail their checks (R8, R239) -/

section
variable {f : Nat → Except (Nat × Word) Acc} {lanes : List Nat}

theorem okLanes_of_all_fail (fail : ∀ k ∈ lanes, ∃ e, f k = .error e) : okLanes (tagged f lanes) = [] := by
  refine List.filterMap_eq_nil_iff.mpr fun p hp => ?_
  obtain ⟨k, hk, rfl⟩ := List.mem_map.mp hp
  obtain ⟨e, he⟩ := fail k hk
  dsimp only
  rw [he]

theorem mem_of_mem_badLanes {p : Nat × Nat × Word} (hp : p ∈ badLanes (tagged f lanes)) : p.1 ∈ lanes ∧ f p.1 = .error p.2 := by
  obtain ⟨q, hq, bad⟩ := List.mem_filterMap.mp hp
  obtain ⟨k, hk, rfl⟩ := List.mem_map.mp hq
  dsimp only at bad
  split at bad
  · rename_i e he
    cases bad
    exact ⟨hk, he⟩
  · cases bad

theorem mem_badLanes {k : Nat} {e : Nat × Word} (hk : k ∈ lanes) (he : f k = .error e) : (k, e) ∈ badLanes (tagged f lanes) := by
  refine List.mem_filterMap.mpr ⟨(k, f k), List.mem_map_of_mem hk, ?_⟩
  dsimp only
  rw [he]

/-- The entry of a lane among those that fault, and its cause and address. -/
theorem find?_badLanes {k : Nat} {e : Nat × Word} (hk : k ∈ lanes) (he : f k = .error e) :
    (badLanes (tagged f lanes)).find? (fun p => p.1 == k) = some (k, e) := by
  cases found : (badLanes (tagged f lanes)).find? (fun p => p.1 == k) with
  | none => exact absurd (List.find?_eq_none.mp found _ (mem_badLanes hk he)) (by simp)
  | some p =>
    obtain ⟨j, e'⟩ := p
    have same : j = k := by simpa using List.find?_some found
    subst same
    have cause := (mem_of_mem_badLanes (List.mem_of_find?_eq_some found)).2
    rw [he] at cause
    cases cause
    rfl

theorem find?_badLanes_other {k : Nat} (hk : k ∉ lanes) : (badLanes (tagged f lanes)).find? (fun p => p.1 == k) = none := by
  refine List.find?_eq_none.mpr fun p hp => ?_
  have := (mem_of_mem_badLanes hp).1
  simp only [beq_iff_eq]
  rintro rfl
  exact hk this

/-- A word parks the lanes that fault, and sends the others on (R8, R133). -/
theorem sends_badLanes {pc : CodeAddr} {k : Nat} {e : Nat × Word} (l : Lane) (hk : k ∈ lanes) (he : f k = .error e) :
    Done.sends { faults := badLanes (tagged f lanes) } pc k l = parked e.1 e.2 l := by
  unfold Done.sends
  rw [find?_badLanes hk he]

theorem sends_badLanes_other {pc : CodeAddr} {k : Nat} (l : Lane) (hk : k ∉ lanes) :
    Done.sends { faults := badLanes (tagged f lanes) } pc k l = { l with pc := pc + 8 } := by
  unfold Done.sends
  rw [find?_badLanes_other hk]
  rfl

/-- A lane that failed its checks stays so through the checks of purity, cards and watched sectors. -/
theorem raceCheck_error (x : Ex) (o : Order) (n : Nat) (store cards : Bool) (at' : Acc → List (Word × Loc)) (k : Nat) (e : Nat × Word) :
    raceCheck x o n store cards at' (trapPure x (k, .error e)) = (k, .error e) := rfl

theorem map_raceCheck_of_all_fail (x : Ex) (o : Order) (n : Nat) (store cards : Bool) (at' : Acc → List (Word × Loc))
    (fail : ∀ k ∈ lanes, ∃ e, f k = .error e) :
    (tagged f lanes).map (fun p => raceCheck x o n store cards at' (trapPure x p)) = tagged f lanes := by
  refine (List.map_congr_left (g := id) fun p hp => ?_).trans (List.map_id _)
  obtain ⟨k, hk, rfl⟩ := List.mem_map.mp hp
  obtain ⟨e, he⟩ := fail k hk
  rw [he]
  exact raceCheck_error x o n store cards at' k e

end

/-- An access that every executing lane fails: the lanes fault, and nothing else takes effect. -/
theorem accessWord_of_all_fail {x : Ex} {o : Order} {act : OpAct} {ld store cards acq rel : Bool} {n reg : Nat} {regs : List Nat}
    {f : Nat → Except (Nat × Word) Acc} {mk : Acc → List Part} (fail : ∀ k ∈ x.lanes, ∃ e, f k = .error e)
    (released : rel = true → releaseSide x.s x.wave o.scope = none) :
    accessWord x o act ld store cards acq rel n reg regs (tagged f x.lanes) mk = .done x.s { faults := badLanes (tagged f x.lanes) } := by
  have open_ : (if rel then releaseSide x.s x.wave o.scope else none) = none := by
    split
    · exact released ‹_›
    · rfl
  have pure : ¬(x.l.puretrap ∧ anyImpure (okLanes (tagged f x.lanes)) = true) := by simp [okLanes_of_all_fail fail, anyImpure]
  unfold accessWord
  dsimp only
  rw [open_]
  dsimp only
  rw [if_neg pure]
  simp only [map_raceCheck_of_all_fail x o n store cards _ fail, okLanes_of_all_fail fail, if_true]

/-- The checks of a global address in their order (R221). -/
theorem checkVa_order (s : State) (w : Wave) (va : Word) (n need : Nat) :
    (2 ^ 48 ≤ va.toNat → s.checkVa w va n need = .error (cRANGE, va)) ∧
    (va.toNat < 2 ^ 48 → va.toNat % n ≠ 0 → s.checkVa w va n need = .error (cALIGN, va)) ∧
    (va.toNat < 2 ^ 48 → va.toNat % n = 0 →
      (s.translate w.core w.tenant va.toNat = none → s.checkVa w va n need = .error (cTMISS, va)) ∧
      ∀ e, s.translate w.core w.tenant va.toNat = some e →
        (e.attr &&& need ≠ need → s.checkVa w va n need = .error (cPERM, va)) ∧
        (e.attr &&& need = need → isProt e.attr = false → s.checkVa w va n need = .ok e)) := by
  unfold State.checkVa
  refine ⟨fun high => if_pos high, fun low off => ?_, fun low on => ⟨fun miss => ?_, fun e hit => ⟨fun short => ?_, fun full plain => ?_⟩⟩⟩
  · rw [if_neg (Nat.not_le.mpr low), if_pos off]
  all_goals rw [if_neg (Nat.not_le.mpr low), if_neg (not_not.mpr on)]
  · rw [miss]
  · rw [hit]
    exact if_pos (.inl short)
  · rw [hit]
    exact if_neg (by simp [full, plain])

/-- Settles O39: the checks come in their order, and a word that every executing lane fails does no more than park them. -/
theorem accessFaultsPark : Obligations.AccessFaultsPark := by
  refine ⟨checkVa_order, fun i m s w pc hi h released fail => ?_⟩
  have checks : ∀ k ∈ execLanes m.c m.u.q w (w.activeAt pc),
      ∃ e, m.check (context m.c m.u s w pc) k = .error e ∧ m.check (clearEx m.c m.u s w pc) k = .error e := fun k hk => by
    obtain ⟨e, he⟩ := fail k hk
    exact ⟨e, he, (check_clearEx hi h (execLanes_lt k hk)).trans he⟩
  rw [exec_memWord hi]
  refine word_sends h (accessWord_of_all_fail (fun k hk => ?_) (by rw [clearEx_wave h]; exact released)) (fun p hp => ?_) (fun k active => ?_)
  · obtain ⟨e, -, he⟩ := checks k hk
    exact ⟨e, he⟩
  · exact execLanes_sub (mem_of_mem_badLanes hp).1
  · by_cases hk : k ∈ execLanes m.c m.u.q w (w.activeAt pc)
    · obtain ⟨e, he, he'⟩ := checks k hk
      rw [if_pos hk, he]
      exact sends_badLanes _ hk he'
    · rw [if_neg hk]
      exact sends_badLanes_other _ hk

end Sys2Proof.Machine

/-! The operation that a memory word leaves outstanding (spec/13 R236; spec/15 R257, R259; spec/19 R313). -/
namespace Sys2Proof.Machine
open Sys2Proof.Safety

/-! ### Parts that leave their core (R257, R259) -/

/-- Two states differ in the sequence numbers of the links and the flits on them at most. -/
def FlitsOnly (s t : State) : Prop := ∃ sent flits, t = { s with mem := { s.mem with linkSent := sent, flits := flits } }

theorem FlitsOnly.refl (s : State) : FlitsOnly s s := ⟨_, _, rfl⟩

theorem FlitsOnly.trans {s t u : State} (h : FlitsOnly s t) (g : FlitsOnly t u) : FlitsOnly s u := by
  obtain ⟨_, _, rfl⟩ := h
  obtain ⟨sent, flits, rfl⟩ := g
  exact ⟨sent, flits, rfl⟩

theorem FlitsOnly.wavesKept {s t : State} (h : FlitsOnly s t) : WavesKept s t := by
  obtain ⟨_, _, rfl⟩ := h
  exact ⟨rfl, rfl⟩

theorem flitsOnly_sendFlit (s : State) (t die vc : Nat) (load : List Nat) : FlitsOnly s (s.sendFlit t die vc load).1 := by
  unfold State.sendFlit
  split
  · exact ⟨_, _, rfl⟩
  · exact .refl s

/-- A part sent stands behind those before it, where it lay. -/
theorem sendPart_left (w : Wave) (act : OpAct) (q : State × List Part) (p : Part) :
    FlitsOnly q.1 (State.sendPart w act q p).1 ∧ (State.sendPart w act q p).2.map Part.loc = q.2.map Part.loc ++ [p.loc] := by
  unfold State.sendPart
  split
  · dsimp only
    split
    · exact ⟨.refl q.1, by simp⟩
    · exact ⟨flitsOnly_sendFlit .., by simp⟩
  · exact ⟨.refl q.1, by simp⟩

theorem sendParts_left (w : Wave) (act : OpAct) : ∀ (l : List Part) (q : State × List Part),
    FlitsOnly q.1 (l.foldl (State.sendPart w act) q).1 ∧
      (l.foldl (State.sendPart w act) q).2.map Part.loc = q.2.map Part.loc ++ l.map Part.loc
  | [], q => ⟨.refl q.1, by simp⟩
  | p :: l, q => by
    obtain ⟨first, at_⟩ := sendPart_left w act q p
    obtain ⟨rest, all⟩ := sendParts_left w act l (State.sendPart w act q p)
    exact ⟨first.trans rest, by rw [List.foldl_cons, all, at_]; simp⟩

/-! ### The paths used (R313) -/

theorem usePaths_eq (w : Wave) (s : State) (l : List Loc) : w.usePaths s l = { w with paths := (w.usePaths s l).paths } := by
  unfold Wave.usePaths
  dsimp only
  split <;> rfl

/-- A wave that accesses some places has used the paths to them. -/
theorem mem_usePaths {w : Wave} {s : State} {l : List Loc} {at_ : Loc} {p : Path} (hl : at_ ∈ l) (hp : p ∈ s.pathsOf w.tenant w.die at_) :
    p ∈ (w.usePaths s l).paths := by
  have named : p ∈ (l.flatMap (s.pathsOf w.tenant w.die)).dedup := List.mem_dedup.mpr (List.mem_flatMap.mpr ⟨at_, hl, hp⟩)
  unfold Wave.usePaths
  dsimp only
  split
  · rename_i same
    have := List.filter_eq_nil_iff.mp same p named
    simpa using this
  · simp only [List.mem_append, List.mem_filter]
    by_cases known : p ∈ w.paths
    · exact .inl (.inl known)
    · exact .inl (.inr ⟨named, by simpa using known⟩)

/-! ### What a word leaves behind (R222, R236) -/

/-- Translations cached change the core's cache of them alone. -/
theorem cacheTlb_eq (s : State) (core t : Nat) (e : Tlb) : ∃ l, s.cacheTlb core t e = { s with mem := { s.mem with tcache := l } } := by
  unfold State.cacheTlb
  dsimp only
  split
  · exact ⟨_, rfl⟩
  · exact ⟨_, rfl⟩

/-- The translations of some accesses cached. -/
def cacheAll (w : Wave) (accs : List Acc) (s : State) : State :=
  accs.foldl (fun s a => match a.tlb with
    | some e => s.cacheTlb w.core w.tenant e
    | none => s) s

theorem cacheAll_eq (w : Wave) : ∀ (accs : List Acc) (s : State), ∃ l, cacheAll w accs s = { s with mem := { s.mem with tcache := l } }
  | [], s => ⟨s.mem.tcache, rfl⟩
  | a :: accs, s => by
    unfold cacheAll
    rw [List.foldl_cons]
    cases a.tlb with
    | none => exact cacheAll_eq w accs s
    | some e =>
      obtain ⟨l, first⟩ := cacheTlb_eq s w.core w.tenant e
      dsimp only
      rw [first]
      exact cacheAll_eq w accs { s with mem := { s.mem with tcache := l } }

/-- The wave of a word with the operation that it leaves outstanding, and the paths to some places. -/
def Wave.withOp (w : Wave) (s : State) (op : MemOp) (regs : List Nat) (at_ : List Loc) : Wave :=
  Wave.usePaths s { w with ops := w.ops ++ [op], nextOp := w.nextOp + 1, pend := w.pend ++ opPends w regs w.nextOp } at_

theorem withOp_eq (w : Wave) (s : State) (op : MemOp) (regs : List Nat) (at_ : List Loc) :
    ∃ used, w.withOp s op regs at_ =
        { w with ops := w.ops ++ [op], nextOp := w.nextOp + 1, pend := w.pend ++ opPends w regs w.nextOp, paths := used } ∧
      ∀ l ∈ at_, ∀ p ∈ s.pathsOf w.tenant w.die l, p ∈ used :=
  ⟨_, usePaths_eq .., fun _ hl _ hp => mem_usePaths hl hp⟩

/-- A word that leaves an operation and breaks no purity: the parts leave, then the wave holds the operation, and the translations are cached. -/
theorem startOp_eq {x : Ex} {act : OpAct} {ld : Bool} {reg : Nat} {regs : List Nat} {width : Nat} {o : Order} {acq rel : Bool} {accs : List Acc}
    {parts : List Part} (pure : anyImpure accs = false) :
    startOp x act ld reg regs width o acq rel accs parts =
      cacheAll x.wave accs ((parts.foldl (State.sendPart x.wave act) (x.s, [])).1.setWave (x.wave.withOp x.s
        ⟨x.wave.nextOp, ld, act, reg, width, (parts.foldl (State.sendPart x.wave act) (x.s, [])).2, o.strong, acq, rel, o.scope, o.evict,
          x.wave.relScope, [], false, x.s.ctl.cycle⟩ regs (parts.map Part.loc))) := by
  unfold startOp
  simp only [pure, Bool.false_eq_true, if_false]
  rfl

/-- A word is over that leaves an operation outstanding: its wave holds it and the paths to its places, and the parts have left. -/
theorem over_startOp {c : Ctl} {u : Use} {s s1 : State} {w : Wave} {pc : CodeAddr} {body : Ex → Out} {op : MemOp} {regs : List Nat}
    {at_ : List Loc} {accs : List Acc} {progress : Bool} (h : Clear c u s w pc) (sent : FlitsOnly s s1)
    (hb : body (clearEx c u s w pc) = .done (cacheAll w accs (s1.setWave (w.withOp s op regs at_))) { progress := progress }) :
    ∃ t v, word c u body s = .next t ∧
      Over { s1 with mem := { s1.mem with tcache := t.mem.tcache } }
        { w with ops := w.ops ++ [op], nextOp := w.nextOp + 1, paths := v.paths } w pc t v ∧
      ∀ l ∈ at_, ∀ p ∈ s.pathsOf w.tenant w.die l, p ∈ v.paths := by
  obtain ⟨cached, left⟩ := cacheAll_eq w accs (s1.setWave (w.withOp s op regs at_))
  obtain ⟨used, held, paths⟩ := withOp_eq w s op regs at_
  have kept := sent.wavesKept
  rw [left, held] at hb
  obtain ⟨t, v, e, ends⟩ := word_over none progress none h hb
    (State.wave?_setWave_self ((kept.wave? ..).trans (clear_wave h)) rfl rfl) (congrArg Control.cycle kept.ctl) (fun _ _ => rfl)
  have own : v.paths = used := ends.special.order.1
  refine ⟨t, v, e, ?_, own ▸ paths⟩
  rw [own, ends.mem]
  exact { ends with
    special := { ends.special with }
    waves := fun a b hab => (ends.waves a b hab).trans (State.wave?_setWave_other s1 _ (fun e => hab ⟨e.1.symm, e.2.symm⟩)) }

/-! ### Lanes that pass their checks -/

theorem okLanes_of_all_pass {f : Nat → Except (Nat × Word) Acc} {lanes : List Nat} {accs : List Acc} (pass : lanes.map f = accs.map .ok) :
    okLanes (tagged f lanes) = accs ∧ badLanes (tagged f lanes) = [] := by
  induction lanes generalizing accs with
  | nil =>
    cases accs with
    | nil => exact ⟨rfl, rfl⟩
    | cons a accs => cases pass
  | cons k lanes ih =>
    cases accs with
    | nil => cases pass
    | cons a accs =>
      simp only [List.map_cons, List.cons.injEq] at pass
      obtain ⟨ok, bad⟩ := ih pass.2
      simp only [okLanes, badLanes, tagged] at ok bad
      simp [okLanes, badLanes, tagged, pass.1, ok, bad]

/-- A lane that races with nothing keeps its access. -/
theorem raceCheck_ok {x : Ex} {o : Order} {n : Nat} {store cards : Bool} (at' : Acc → List (Word × Loc)) (k : Nat) {a : Acc}
    (pure : a.impure = none) (free : o.strong = true ∨ cards = false ∨ cardRace x a.va n store = false) (cold : a.watched o = false) :
    raceCheck x o n store cards at' (trapPure x (k, .ok a)) = (k, .ok a) := by
  have quiet : (!o.strong && cards && cardRace x a.va n store) = false := by
    rcases free with h | h | h <;> simp [h]
  unfold trapPure
  dsimp only
  rw [pure]
  simp [raceCheck, quiet, cold]

/-- No access of a list is a plain one to a watched frame: the word does not wait for any (R319). -/
theorem settleWatch_of_cold {s : State} {w : Wave} {id : Nat} {o : Order} {store : Bool} {accs : List Acc} (cold : ∀ a ∈ accs, a.watched o = false) :
    settleWatch s w id o store accs = s ∧ watchBusy s w id o accs = false := by
  have none_hot : accs.filter (fun a => a.watched o) = [] := List.filter_eq_nil_iff.mpr fun a ha => by simp [cold a ha]
  have none_due : ∀ q : Part, (!q.done && accs.any (fun a => a.watched o && a.lane == q.lane)) = false := fun q => by
    have : accs.any (fun a => a.watched o && a.lane == q.lane) = false := List.any_eq_false.mpr fun a ha => by simp [cold a ha]
    rw [this, Bool.and_false]
  constructor
  · unfold settleWatch
    simp only [none_hot, if_true]
  · unfold watchBusy
    simp only [none_due]
    cases (s.wave? w.core w.slot).bind (fun v => v.op? id) <;> simp

/-- An access whose executing lanes all pass their checks: the operation is left outstanding. -/
theorem accessWord_of_all_pass {x : Ex} {o : Order} {act : OpAct} {ld store cards acq rel : Bool} {n reg : Nat} {regs : List Nat}
    {f : Nat → Except (Nat × Word) Acc} {mk : Acc → List Part} {accs : List Acc} (some : x.lanes ≠ []) (pass : x.lanes.map f = accs.map .ok)
    (pure : ∀ a ∈ accs, a.impure = none) (released : rel = true → releaseSide x.s x.wave o.scope = none)
    (race : ∀ a ∈ accs, (o.strong = true ∨ cards = false ∨ cardRace x a.va n store = false) ∧ a.watched o = false)
    (present : ∀ a ∈ accs, ∀ core off, a.loc = .pad core off → x.s.padPresent x.wave.launch core off n = true)
    (room : (if ld then x.wave.cntld else x.wave.cntst) < 63) :
    accessWord x o act ld store cards acq rel n reg regs (tagged f x.lanes) mk =
      .done (startOp x act ld reg regs n o acq rel accs (accs.flatMap mk)) { progress := store } := by
  obtain ⟨ok, bad⟩ := okLanes_of_all_pass pass
  have open_ : (if rel then releaseSide x.s x.wave o.scope else none) = none := by
    split
    · exact released ‹_›
    · rfl
  have clean : anyImpure accs = false := List.any_eq_false.mpr fun a ha => by simp [pure a ha]
  have same : (tagged f x.lanes).map (fun p => raceCheck x o n store cards (fun a => (mk a).map (fun q => (q.va, q.loc))) (trapPure x p)) =
      tagged f x.lanes := by
    refine (List.map_congr_left (g := id) fun p hp => ?_).trans (List.map_id _)
    obtain ⟨k, hk, rfl⟩ := List.mem_map.mp hp
    obtain ⟨a, ha, e⟩ := List.mem_map.mp (pass ▸ List.mem_map_of_mem hk)
    rw [← e]
    exact raceCheck_ok _ k (pure a ha) (race a ha).1 (race a ha).2
  have some_acc : accs ≠ [] := by
    rintro rfl
    exact some (List.map_eq_nil_iff.mp pass)
  obtain ⟨still, idle⟩ := settleWatch_of_cold (s := startOp x act ld reg regs n o acq rel accs (accs.flatMap mk)) (w := x.wave)
    (id := x.wave.nextOp) (store := store) (fun a ha => (race a ha).2)
  unfold accessWord
  dsimp only
  rw [open_]
  dsimp only
  rw [same, ok, bad, clean, if_neg (fun both : _ ∧ false = true => Bool.false_ne_true both.2), if_neg some_acc]
  refine (if_neg ?_).trans ?_
  · rw [Bool.not_eq_true, List.any_eq_false]
    intro a ha
    cases at_ : a.loc with
    | pad c off => simp [present a ha c off at_]
    | _ => simp
  · rw [if_neg (Nat.not_le.mpr room), still, idle, if_neg Bool.false_ne_true]

/-- An access that passed its checks is its lane's. -/
theorem lane_of_check {i : Instr} {m : MemForm} {x : Ex} {k : Nat} {a : Acc} (hi : memWord i = some m) (ok : m.check x k = .ok a) : a.lane = k := by
  have global : ∀ {od n need store never noProt va a}, globalAcc x od n need store never noProt k va = .ok a → a.lane = k := by
    intro od n need store never noProt va a ok
    unfold globalAcc at ok
    split at ok
    · cases ok
    · dsimp only at ok
      split at ok <;> cases ok
      rfl
  have pad : ∀ {n va a}, padAcc x n k va = .ok a → a.lane = k := by
    intro n va a ok
    unfold padAcc at ok
    split at ok <;> cases ok
    rfl
  unfold memWord at hi
  split at hi
  all_goals cases hi
  case h_1 | h_2 | h_6 | h_8 => exact global ok
  case h_3 | h_4 | h_7 => exact pad ok
  case h_5 => -- LDK
    dsimp only [ldkAcc] at ok
    split at ok <;> cases ok
    rfl
  case h_9 => -- HGATH
    dsimp only [gathAcc] at ok
    split at ok
    · cases ok
    · rename_i b base
      split at ok
      · cases ok
      · split at ok <;> cases ok
        · exact global (a := b) base
        · exact global base

/-- Settles O38: the lanes' parts leave, and the wave holds the operation with them. -/
theorem memoryWords : Obligations.MemoryWords := by
  intro i m s w pc accs hi h acc x
  have lane : ∀ a ∈ accs, a.lane < 32 := fun a ha => by
    obtain ⟨k, hk, e⟩ := List.mem_map.mp (acc.ok ▸ List.mem_map_of_mem (f := Except.ok) ha)
    rw [lane_of_check hi e]
    exact execLanes_lt k hk
  have pass : (clearEx m.c m.u s w pc).lanes.map (m.check (clearEx m.c m.u s w pc)) = accs.map .ok :=
    (List.map_congr_left fun k hk => check_clearEx hi h (execLanes_lt k hk)).trans acc.ok
  have parts : accs.flatMap (m.parts (clearEx m.c m.u s w pc)) = accs.flatMap (m.parts x) :=
    List.flatMap_congr fun a ha => parts_clearEx hi h (lane a ha)
  have own := clearEx_wave h
  have card : ∀ va n store, cardRace (clearEx m.c m.u s w pc) va n store = cardRace x va n store := fun va n store => by
    obtain ⟨r, hr⟩ := clearEx_w h
    unfold cardRace
    rw [hr]
    rfl
  have effect := accessWord_of_all_pass (mk := m.parts (clearEx m.c m.u s w pc)) (act := m.act) (acq := m.acq) (reg := m.reg) (regs := m.regs)
    h.some pass acc.pure (by rw [own]; exact acc.release) (by simpa only [card] using acc.race) (by rw [own]; exact acc.present)
    (by rw [own]; exact acc.room)
  rw [startOp_eq (List.any_eq_false.mpr fun a ha => by simp [acc.pure a ha]), own, parts] at effect
  obtain ⟨flits, at_⟩ := sendParts_left w m.act (accs.flatMap (m.parts x)) (s, [])
  obtain ⟨t, v, e, ends, used⟩ := over_startOp (body := accessBody m) h flits effect
  refine ⟨t, v, (exec_memWord hi s).trans e, ends, fun q hq p hp => used q.loc ?_ p hp⟩
  rw [← List.nil_append ((accs.flatMap (m.parts x)).map Part.loc), ← List.map_nil (f := Part.loc), ← at_]
  exact List.mem_map_of_mem hq

end Sys2Proof.Machine

/-! One step of an outstanding operation, and the event that makes it (spec/13 R236): the wave whose registers its values land in (R167, R169), the part
or the whole performed, and the operation retired. -/
namespace Sys2Proof.Machine
open Sys2Proof.Safety

/-! ### The wave that values land in (R159, R167, R169) -/

/-- Two waves differ in their tags and in the notes of what is written at most. -/
def Landed (w v : Wave) : Prop := ∃ tags written, v = { w with tags := tags, written := written }

/-- Values land at once where nothing is dropped, or where none come. -/
theorem landing_of_undropped {s : State} {w : Wave} {regs : List Nat} (h : w.dropped = [] ∨ regs = []) :
    ∃ v, s.landing w regs = some v ∧ Landed w v := by
  have ready : s.rematReg w { vw := regs.filter (fun r => decide (r < w.vcount)) } = none := by
    refine rematReg_eq_none.mpr (h.imp id ?_)
    rintro rfl r hr
    simp [State.endedTags] at hr
  unfold State.landing
  simp only [rematerialise_none ready]
  exact ⟨_, rfl, _, _, rfl⟩

theorem landReg_eq (s : State) (w : Wave) (id reg lane : Nat) (v : Word) : ∃ m, s.landReg w id reg lane v = { w with vregs := m } := by
  unfold State.landReg
  dsimp only
  split
  · exact ⟨w.vregs, rfl⟩
  · exact ⟨_, rfl⟩

/-- A value lands in a register that is the wave's and that no later word has overtaken. -/
theorem landReg_lands {s : State} {w : Wave} {id reg : Nat} (lane : Nat) (v : Word) (held : reg < w.vcount)
    (kept : ∀ q ∈ w.pend, q.due = .op id → q.clob = false) : s.landReg w id reg lane v = w.setVreg reg lane v := by
  have free : (w.pend.any (fun p => p.kind == .vec && p.idx == reg && p.due == .op id && p.clob)) = false := by
    rw [List.any_eq_false]
    intro q hq
    by_cases due : q.due = .op id
    · simp [kept q hq due]
    · simp [due]
  unfold State.landReg
  simp [free, Nat.not_le.mpr held]

/-! ### Operations that are finished leave (R236) -/

/-- The operations all of whose parts are performed. -/
def Wave.finished (w : Wave) : List Nat := (w.ops.filter (fun o => o.parts != [] && !o.open')).map MemOp.id

theorem retireOps_eq (w : Wave) : w.retireOps = { w with ops := w.ops.filter (fun o => !w.finished.contains o.id) } := by
  unfold Wave.retireOps
  dsimp only
  split
  · rename_i none_gone
    have none_gone : w.finished = [] := none_gone
    simp [none_gone]
  · rfl

theorem op?_retireOps {w : Wave} {id : Nat} (h : w.op? id = none ∨ id ∈ w.finished) : w.retireOps.op? id = none := by
  rw [retireOps_eq, Wave.op?, List.find?_eq_none]
  intro o ho
  obtain ⟨listed, stays⟩ := List.mem_filter.mp ho
  rintro same
  have same : o.id = id := by simpa using same
  rcases h with none | gone
  · exact absurd (List.find?_eq_none.mp none o listed) (by simp [same])
  · simp [same, gone] at stays

/-! ### One step, and its event -/

section
variable {s : State} {w : Wave} {core slot id k : Nat} {o : MemOp} {l1 : Bool} {part : Option Nat} {kind : MemOp → Bool}

/-- A step of an operation that may be performed now, and whose values land in `v`. -/
theorem performAt_of_may {v : Wave} (here : s.wave? core slot = some w) (op : w.op? id = some o)
    (may : (o.parts = [] ∧ w.acqOpen id = false) ∨ (w.mayPerform o k = true ∧ s.behind w o k = false))
    (land : s.landing w (o.brings k) = some v) : s.performAt core slot id k l1 = s.performPart v o k l1 := by
  have now : (o.parts = [] ∧ !w.acqOpen id) ∨ (w.mayPerform o k ∧ ((s.l1Serves w o (o.part k) l1).isSome ∨ !s.behind w o k)) := by
    rcases may with ⟨none, closed⟩ | ⟨may, first⟩
    · exact .inl ⟨none, by simp [closed]⟩
    · exact .inr ⟨may, .inr (by simp [first])⟩
  unfold State.performAt
  simp only [here, op, if_pos now, land]

/-- The event of an operation of one part, or of none: its one step, after which it leaves if it is finished. -/
theorem performEvent_once {v : Wave} (here : s.wave? core slot = some w) (op : w.op? id = some o) (one : o.parts.length ≤ 1)
    (which : part = none ∨ part = some 0) (fits : kind o = true) (left : (s.performAt core slot id 0 l1).wave? core slot = some v)
    (live : v.allExited = false) : s.performEvent core slot id part l1 kind = (s.performAt core slot id 0 l1).setWave v.retireOps := by
  obtain ⟨hcore, hslot⟩ := State.wave?_core left
  have found : ((s.performAt core slot id 0 l1).setWave v.retireOps).wave? core slot = some v.retireOps :=
    State.wave?_setWave_self left (by rw [retireOps_eq]; exact hcore) (by rw [retireOps_eq]; exact hslot)
  have steps : s.performOp core slot id part l1 = (s.performAt core slot id 0 l1).setWave v.retireOps := by
    unfold State.performOp
    rcases which with rfl | rfl
    all_goals simp [here, op, Nat.max_eq_left one, List.range_one, left]
  unfold State.performEvent
  simp only [here, Option.bind_some, op, fits, if_true, steps]
  exact endWave_live found (by rw [retireOps_eq]; exact live)

end

end Sys2Proof.Machine

/-! Operations without parts (spec/13 R236, R238; spec/17 R293; spec/20 R326, R333): the words that leave them, and what each is over with at the one
step that performs it (log 36). -/
namespace Sys2Proof.Machine
open Sys2Proof.Safety

/-! ### Values bound to a register at one instant -/

/-- Registers written lane by lane: a lane holds the value that every entry for it gives. -/
theorem foldl_landReg {s : State} {id reg : Nat} : ∀ (l : List (Nat × Word)) (w : Wave), reg < w.vcount →
    (∀ q ∈ w.pend, q.due = .op id → q.clob = false) → (∀ x ∈ l, x.1 < 32) →
    ∃ m, l.foldl (fun v x => s.landReg v id reg x.1 x.2) w = { w with vregs := m } ∧
      ∀ i < 32, ∀ b, (∀ x ∈ l, x.1 = i → x.2 = b) → (w.vreg reg i = b ∨ ∃ x ∈ l, x.1 = i) → { w with vregs := m }.vreg reg i = b
  | [], w, _, _, _ => ⟨w.vregs, rfl, fun i _ b _ found => found.elim (fun h => h) (by simp)⟩
  | x :: l, w, held, kept, low => by
    obtain ⟨m, left, value⟩ := foldl_landReg (s := s) (id := id) l (w.setVreg reg x.1 x.2) held kept (fun y hy => low y (List.mem_cons_of_mem _ hy))
    refine ⟨m, ?_, fun i hi b all found => value i hi b (fun y hy => all y (List.mem_cons_of_mem _ hy)) ?_⟩
    · rw [List.foldl_cons, landReg_lands x.1 x.2 held kept, left]
      rfl
    · rw [Wave.vreg_setVreg w reg i x.2 (low x List.mem_cons_self) hi]
      by_cases mine : x.1 = i
      · exact .inl (by rw [if_pos ⟨rfl, mine.symm⟩]; exact all x List.mem_cons_self mine)
      · rw [if_neg (fun e => mine e.2.symm)]
        refine found.imp (fun h => h) ?_
        rintro ⟨y, hy, lane⟩
        rcases List.mem_cons.mp hy with rfl | hy
        · exact absurd lane mine
        · exact ⟨y, hy, lane⟩

/-- Only registers are written so. -/
theorem foldl_landReg_eq (s : State) (id reg : Nat) : ∀ (l : List (Nat × Word)) (w : Wave),
    ∃ m, l.foldl (fun v x => s.landReg v id reg x.1 x.2) w = { w with vregs := m }
  | [], w => ⟨w.vregs, rfl⟩
  | x :: l, w => by
    obtain ⟨_, first⟩ := landReg_eq s w id reg x.1 x.2
    obtain ⟨m, rest⟩ := foldl_landReg_eq s id reg l (s.landReg w id reg x.1 x.2)
    exact ⟨m, by rw [List.foldl_cons, rest, first]⟩

section
variable {s s1 : State} {w : Wave} {id : Nat} {o : MemOp} {kind : MemOp → Bool} {l : List (Nat × Word)}

/-- The event of an operation without parts, whose values are bound beside a change of the state. -/
theorem event_bindAll (here : s.wave? w.core w.slot = some w) (live : w.allExited = false) (op : w.op? id = some o) (parts : o.parts = [])
    (closed : w.acqOpen id = false) (fits : kind o = true) (undropped : w.dropped = [] ∨ o.brings 0 = [])
    (does : ∀ v, Landed w v → s.performPart v o 0 false = s1.bindAll v o l) (kept : s1.wave? w.core w.slot = some w) :
    ∃ v0 t v, Landed w v0 ∧ s.performEvent w.core w.slot id none false kind = t ∧ t.wave? w.core w.slot = some v ∧ v.op? id = none ∧
      v.vregs = (l.foldl (fun v x => s1.landReg v o.id o.reg x.1 x.2) v0).vregs ∧ t.mem = s1.mem ∧ t.cores.ctxs = s1.cores.ctxs := by
  obtain ⟨v0, land, landed⟩ := landing_of_undropped (s := s) undropped
  have step := (performAt_of_may (l1 := false) here op (.inl ⟨parts, closed⟩) land).trans (does v0 landed)
  obtain ⟨m, bound⟩ := foldl_landReg_eq s1 o.id o.reg l v0
  obtain ⟨tags, written, rfl⟩ := landed
  unfold State.bindAll at step
  rw [bound] at step
  have same : o.id = id := by simpa using List.find?_some op
  have left := step ▸ State.wave?_setWave_self (s := s1.tickFresh)
    (v := { w with tags := tags, written := written, vregs := m, ops := w.ops.filter (fun x => x.id != o.id) }) kept rfl rfl
  refine ⟨_, _, _, ⟨tags, written, rfl⟩, performEvent_once here op (by simp [parts]) (.inl rfl) fits left live,
    State.wave?_setWave_self left (by rw [retireOps_eq]) (by rw [retireOps_eq]), op?_retireOps (.inl ?_), ?_, ?_, ?_⟩
  · rw [Wave.op?, List.find?_eq_none]
    intro x hx
    simpa [same] using (List.mem_filter.mp hx).2
  · rw [retireOps_eq, bound]
  · rw [step]
    rfl
  · rw [step]
    rfl

/-- A query performed: a lane's register holds the value of every entry for it, and no memory changes. -/
theorem query_bindAll {α : Type} {entries : List α} {lane : α → Nat} {value : α → Word} (here : s.wave? w.core w.slot = some w)
    (live : w.allExited = false) (op : w.op? id = some o) (parts : o.parts = []) (closed : w.acqOpen id = false) (loads : o.ld = true)
    (lands : Lands w o) (function : o.isAtomic = false) (low : ∀ x ∈ entries, lane x < 32)
    (alike : ∀ x ∈ entries, ∀ y ∈ entries, lane y = lane x → value y = value x)
    (does : ∀ v, Landed w v → s.performPart v o 0 false = s.bindAll v o (entries.map (fun x => (lane x, value x)))) :
    ∃ t v, exec (.loadComplete w.core w.slot id none false) s = .next t ∧ t.wave? w.core w.slot = some v ∧ v.op? id = none ∧
      (∀ x ∈ entries, v.vreg o.reg (lane x) = value x) ∧ t.mem = s.mem := by
  obtain ⟨held, undropped, kept⟩ := lands
  obtain ⟨v0, t, v, landed, e, hv, gone, vregs, mem, -⟩ := event_bindAll (kind := fun o => o.ld && !o.isAtomic) here live op parts closed
    (by simp [loads, function]) (.inl undropped) does here
  obtain ⟨tags, written, rfl⟩ := landed
  obtain ⟨m, bound, stands⟩ := foldl_landReg (s := s) (id := o.id) (entries.map (fun x => (lane x, value x)))
    { w with tags := tags, written := written } held kept (by simpa using low)
  refine ⟨t, v, congrArg Host.Outcome.next e, hv, gone, fun x hx => ?_, mem⟩
  rw [← stands (lane x) (low x hx) (value x) (by simpa using alike x hx) (.inr ⟨_, List.mem_map_of_mem hx, rfl⟩)]
  unfold Wave.vreg
  rw [vregs, bound]

end

/-! ### Elements of an accumulator (R280, R293) -/

/-- A handle names an allocation by its whole number: another handle names another, or none. -/
theorem alloc?_setAlloc {c : Ctx} {h : Nat} {a : Alloc} (named : c.alloc? h = some a) (b : Alloc) (g : Nat) :
    (c.setAlloc h b).alloc? g = if g = h then some b else c.alloc? g := by
  have numbers : h < 2 ^ 16 ∧ bits h 7 5 = 0 ∧ (cellGet ⟨0, none⟩ c.handles (h % 32)).seq = bits h 15 8 := by
    unfold Ctx.alloc? at named
    dsimp only at named
    split at named
    · cases named
    · rename_i whole
      simpa [not_or] using whole
  obtain ⟨low, mid, seq⟩ := numbers
  unfold Ctx.alloc? Ctx.setAlloc
  dsimp only
  rw [cellGet_cellSet]
  by_cases same : g = h
  · subst same
    simp [mid, seq]
    omega
  · rw [if_neg same]
    by_cases place : g % 32 = h % 32
    · rw [if_pos place, place]
      by_cases whole : 2 ^ 16 ≤ g ∨ bits g 7 5 ≠ 0 ∨ (cellGet ⟨0, none⟩ c.handles (h % 32)).seq ≠ bits g 15 8
      · rw [if_pos whole, if_pos whole]
      · simp only [not_or, not_le, ne_eq, not_not, seq] at whole
        simp only [bits] at whole mid
        omega
    · rw [if_neg place]

/-- Two adjacent elements of an allocation written, from the halves of a register. -/
def writePair (a : Alloc) (x : Nat × Nat × Word) : Alloc :=
  (a.setElem x.1 x.2.1 (x.2.2.setWidth 32)).setElem x.1 (x.2.1 + 1) ((x.2.2 >>> 32).setWidth 32)

/-- What one lane of an ACCWR does: nothing where its handle is stale. -/
def accStep (d : Ctx) (x : Nat × Nat × Nat × Nat × Word) : Ctx :=
  match d.alloc? x.2.1 with
  | none => d
  | some a => d.setAlloc x.2.1 (writePair a x.2.2)

theorem accStep_key (d : Ctx) (x : Nat × Nat × Nat × Nat × Word) : (accStep d x).launch = d.launch ∧ (accStep d x).core = d.core := by
  unfold accStep
  split <;> exact ⟨rfl, rfl⟩

theorem foldl_accStep_key : ∀ (l : List (Nat × Nat × Nat × Nat × Word)) (d : Ctx),
    (l.foldl accStep d).launch = d.launch ∧ (l.foldl accStep d).core = d.core
  | [], _ => ⟨rfl, rfl⟩
  | x :: l, d => by
    obtain ⟨launch, core⟩ := foldl_accStep_key l (accStep d x)
    obtain ⟨launch', core'⟩ := accStep_key d x
    exact ⟨launch.trans launch', core.trans core'⟩

/-- The pairs that the lanes of an ACCWR write to the allocation of a handle. -/
def pairsOf (h : Nat) (l : List (Nat × Nat × Nat × Nat × Word)) : List (Nat × Nat × Word) :=
  (l.filter (fun x => x.2.1 == h)).map (fun x => x.2.2)

theorem mem_pairsOf {h : Nat} {l : List (Nat × Nat × Nat × Nat × Word)} {p : Nat × Nat × Word} :
    p ∈ pairsOf h l ↔ ∃ x ∈ l, x.2.1 = h ∧ x.2.2 = p := by
  simp [pairsOf, and_assoc]

/-- The lanes that name a handle write to its allocation, and no others do. -/
theorem alloc?_foldl_accStep {h : Nat} : ∀ (l : List (Nat × Nat × Nat × Nat × Word)) (d : Ctx) (a : Alloc), d.alloc? h = some a →
    (l.foldl accStep d).alloc? h = some ((pairsOf h l).foldl writePair a)
  | [], _, _, named => named
  | x :: l, d, a, named => by
    rw [List.foldl_cons]
    by_cases mine : x.2.1 = h
    · have next : (accStep d x).alloc? h = some (writePair a x.2.2) := by
        unfold accStep
        rw [mine, named]
        exact (alloc?_setAlloc named _ h).trans (if_pos rfl)
      rw [alloc?_foldl_accStep l _ _ next]
      simp [pairsOf, mine]
    · have next : (accStep d x).alloc? h = some a := by
        unfold accStep
        split
        · exact named
        · rename_i other
          exact (alloc?_setAlloc other _ h).trans ((if_neg (Ne.symm mine)).trans named)
      rw [alloc?_foldl_accStep l _ _ next]
      simp [pairsOf, mine]

theorem elem_setElem {a : Alloc} {r c i j : Nat} (v : BitVec 32) (hc : c < a.pitch) (hj : j < a.pitch) :
    (a.setElem r c v).elem i j = if i = r ∧ j = c then v else a.elem i j := by
  have row : ∀ n k, k < a.pitch → (n * a.pitch + k) / a.pitch = n := fun n k hk => by
    rw [Nat.mul_comm, Nat.mul_add_div (by omega), Nat.div_eq_of_lt hk, Nat.add_zero]
  have same : i * a.pitch + j = r * a.pitch + c ↔ i = r ∧ j = c := by
    refine ⟨fun e => ?_, by rintro ⟨rfl, rfl⟩; rfl⟩
    have rows : i = r := by rw [← row i j hj, e, row r c hc]
    subst rows
    exact ⟨rfl, by omega⟩
  show cellGet 0 (cellSet 0 a.elems (r * a.pitch + c) v) (i * a.pitch + j) = _
  rw [cellGet_cellSet]
  by_cases at_ : i = r ∧ j = c
  · rw [if_pos at_, if_pos (same.mpr at_)]
  · rw [if_neg at_, if_neg (mt same.mp at_)]
    rfl

theorem elem_writePair {a : Alloc} {i j : Nat} {x : Nat × Nat × Word} (hx : x.2.1 + 1 < a.pitch) (hj : j < a.pitch) :
    (writePair a x).elem i j = if i = x.1 ∧ j = x.2.1 + 1 then x.2.2.extractLsb' 32 32
      else if i = x.1 ∧ j = x.2.1 then x.2.2.extractLsb' 0 32 else a.elem i j := by
  unfold writePair
  rw [elem_setElem (a := a.setElem x.1 x.2.1 (x.2.2.setWidth 32)) _ hx hj, elem_setElem _ (Nat.lt_of_succ_lt hx) hj]
  congr 1

/-- An element after some pairs are written: what every pair that meets it writes there, or what stood there where none does. -/
theorem elem_foldl_writePair {i j : Nat} (b : BitVec 32) : ∀ (l : List (Nat × Nat × Word)) (a : Alloc), j < a.pitch →
    (∀ x ∈ l, x.2.1 + 1 < a.pitch) →
    (∀ x ∈ l, x.1 = i → (x.2.1 = j → x.2.2.extractLsb' 0 32 = b) ∧ (x.2.1 + 1 = j → x.2.2.extractLsb' 32 32 = b)) →
    (a.elem i j = b ∨ ∃ x ∈ l, x.1 = i ∧ (x.2.1 = j ∨ x.2.1 + 1 = j)) → (l.foldl writePair a).elem i j = b
  | [], _, _, _, _, stood => stood.elim (fun h => h) (by simp)
  | x :: l, a, hj, fits, all, stood => by
    have first := all x List.mem_cons_self
    refine elem_foldl_writePair b l (writePair a x) hj (fun y hy => fits y (List.mem_cons_of_mem _ hy))
      (fun y hy => all y (List.mem_cons_of_mem _ hy)) ?_
    rw [elem_writePair (fits x List.mem_cons_self) hj]
    split
    · rename_i here
      exact .inl ((first here.1.symm).2 here.2.symm)
    · split
      · rename_i here
        exact .inl ((first here.1.symm).1 here.2.symm)
      · rename_i above below
        refine stood.imp (fun h => h) ?_
        rintro ⟨y, hy, row, col⟩
        rcases List.mem_cons.mp hy with rfl | hy
        · exact absurd col (by rintro (e | e) <;> simp_all)
        · exact ⟨y, hy, row, col⟩

/-! ### The words that leave an operation without parts -/

section
variable {c : Ctl} {u : Use} {s s1 : State} {w w1 : Wave} {pc : CodeAddr} {lanes regs : List Nat} {act : OpAct} {ld : Bool} {reg : Nat}

/-- An operation is left by what the context holds of its wave, whatever the word reads. -/
theorem startOp_congr {x y : Ex} (state : x.s = y.s) (wave : x.wave = y.wave) (width : Nat) (od : Order) (acq rel : Bool) (accs : List Acc)
    (parts : List Part) : startOp x act ld reg regs width od acq rel accs parts = startOp y act ld reg regs width od acq rel accs parts := by
  unfold startOp
  rw [state, wave]

/-- An operation without parts changes its wave alone, whose lanes stand. -/
theorem startOp_bare (x : Ex) (width : Nat) (od : Order) (acq rel : Bool) :
    ∃ v, startOp x act ld reg regs width od acq rel [] [] = x.s.setWave v ∧ v.core = x.wave.core ∧ v.slot = x.wave.slot ∧
      v.lanes = x.wave.lanes := by
  obtain ⟨used, held, -⟩ := withOp_eq x.wave x.s ⟨x.wave.nextOp, ld, act, reg, width, [], od.strong, acq, rel, od.scope, od.evict,
    x.wave.relScope, [], false, x.s.ctl.cycle⟩ regs []
  exact ⟨_, (startOp_eq rfl).trans (congrArg x.s.setWave held), rfl, rfl, rfl⟩

/-- A word reads a wave as it stands, and of its context nothing but the registers stands otherwise. -/
structure Sees (x : Ex) (s : State) (w : Wave) (lanes : List Nat) : Prop extends Reads x s w lanes where
  held : ∃ m, x.w = { w with vregs := m }

/-- A clear word whose effect is an operation without parts. -/
theorem word_begun {body : Ex → Out} (h : Clear c u s w pc)
    (hf : begun s w pc (execLanes c u.q w (w.activeAt pc)) act ld reg regs = some (s1, w1))
    (hb : ∀ x, Sees x s w (execLanes c u.q w (w.activeAt pc)) → ¬63 ≤ (if ld then w.cntld else w.cntst) →
      body x = .done (startOp x act ld reg regs 8 (order .plain .wav .mru) false false [] []) {}) :
    ∃ t v, word c u body s = .next t ∧ Over s1 w1 w pc t v := by
  have here := clear_wave h
  have wave := seen_wave (pc := pc) here (execLanes c u.q w (w.activeAt pc))
  obtain ⟨v, left, core, slot, stand⟩ := startOp_bare (act := act) (ld := ld) (reg := reg) (regs := regs)
    (seen s w pc (execLanes c u.q w (w.activeAt pc))) 8
    (order .plain .wav .mru) false false
  rw [wave] at core slot stand
  have found : (s.setWave v).wave? w.core w.slot = some v := State.wave?_setWave_self here core slot
  unfold begun at hf
  by_cases full : 63 ≤ (if ld then w.cntld else w.cntst)
  · rw [if_pos full] at hf
    cases hf
  · rw [if_neg full] at hf
    dsimp only at hf
    rw [left, show (seen s w pc (execLanes c u.q w (w.activeAt pc))).s.setWave v = s.setWave v from rfl, found] at hf
    cases hf
    refine word_over none false none h ((hb _ ⟨reads_clearEx h, clearEx_w h⟩ full).trans ?_) found rfl (fun i _ => by simp [Wave.lane, stand])
    rw [startOp_congr (x := clearEx c u s w pc) (y := seen s w pc (execLanes c u.q w (w.activeAt pc))) rfl ((clearEx_wave h).trans wave.symm), left]
    rfl

end

/-! ### What their lanes name -/

section
variable {x : Ex} {s : State} {w : Wave} {lanes : List Nat} (r : Sees x s w lanes)
include r

theorem Sees.padHome (a : Word) : x.s.padHome x.w a = s.padHome w a := by
  obtain ⟨m, hm⟩ := r.held
  rw [r.state, hm]
  rfl

theorem Sees.accCheck (pc : CodeAddr) (a : Word) : Machine.accCheck x a = Machine.accCheck (seen s w pc lanes) a := by
  obtain ⟨m, hm⟩ := r.held
  simp only [Machine.accCheck, Ex.l, r.state, hm]
  rfl

end

/-- Lanes that all name a pool (R231, R238). -/
theorem filterMap_homes {lanes : List Nat} {f : Nat → Option Nat} {g : Nat → Nat} (all : ∀ i ∈ lanes, (f i).isNone = false) :
    (lanes.map (fun i => (i, f i))).filterMap (fun p => p.2.map (fun k => (p.1, k, g p.1))) = lanes.map (fun i => (i, (f i).getD 0, g i)) := by
  rw [List.filterMap_map, ← List.filterMap_eq_map]
  refine List.filterMap_congr fun i hi => ?_
  cases found : f i with
  | none => simpa [found] using all i hi
  | some k => simp [found]

theorem filterMap_homeless {lanes : List Nat} {f : Nat → Option Nat} {g : Nat → Nat × Word} (all : ∀ i ∈ lanes, (f i).isNone = false) :
    (lanes.map (fun i => (i, f i))).filterMap (fun p => if p.2.isNone then some (p.1, g p.1) else none) = [] := by
  rw [List.filterMap_eq_nil_iff]
  intro p hp
  obtain ⟨i, hi, rfl⟩ := List.mem_map.mp hp
  simp [all i hi]

/-- Lanes that all pass the checks of R293, each with whether its handle is stale. -/
theorem accOk_of_all_pass {lanes : List Nat} {f : Nat → Except (Nat × Word) Bool} {stale : Nat → Bool}
    (pass : ∀ i ∈ lanes, f i = .ok (stale i)) :
    accOk (lanes.map (fun i => (i, f i))) = lanes.map (fun i => (i, stale i)) ∧ accBad (lanes.map (fun i => (i, f i))) = [] := by
  constructor
  · rw [accOk, List.filterMap_map, ← List.filterMap_eq_map]
    exact List.filterMap_congr fun i hi => by simp [pass i hi]
  · rw [accBad, List.filterMap_map, List.filterMap_eq_nil_iff]
    exact fun i hi => by simp [pass i hi]

/-- The effects of PQRY, ACCRD and ACCWR. -/
def pqryBody (d a : Nat) (x : Ex) : Out :=
  let l := x.lanes.map (fun i => (i, x.s.padHome x.w (x.v a i)))
  let bad := l.filterMap (fun p => if p.2.isNone then some (p.1, cRANGE, x.v a p.1) else none)
  let ok := l.filterMap (fun p => p.2.map (fun k => (p.1, k, bits (x.v a p.1).toNat 19 7)))
  if ok = [] then .done x.s { faults := bad }
  else if 63 ≤ x.wave.cntld then .hold x.s .count
  else .done (startOp x (.pqry ok) true d [d] 8 (order .plain .wav .mru) false false [] []) { faults := bad }

@[inherit_doc pqryBody] def accrdBody (d a : Nat) (x : Ex) : Out :=
  let ok := accOk (accLanes x a)
  if ok = [] then .done x.s { faults := accBad (accLanes x a) }
  else if 63 ≤ x.wave.cntld then .hold x.s .count
  else .done (startOp x (.accrd (ok.map (fun p => (p.1, if p.2 then 2 ^ 16 else aHANDLE (x.v a p.1), aROW (x.v a p.1), aCOL (x.v a p.1)))))
    true d [d] 8 (order .plain .wav .mru) false false [] []) { faults := accBad (accLanes x a) }

@[inherit_doc pqryBody] def accwrBody (d a : Nat) (x : Ex) : Out :=
  let ok := accOk (accLanes x a)
  if ok = [] then .done x.s { faults := accBad (accLanes x a) }
  else if 63 ≤ x.wave.cntst then .hold x.s .count
  else .done (startOp x (.accwr ((ok.filter (fun p => !p.2)).map (fun p =>
    (p.1, aHANDLE (x.v a p.1), aROW (x.v a p.1), aCOL (x.v a p.1), x.v d p.1)))) false 0 [] 8 (order .plain .wav .mru) false false [] [])
    { faults := accBad (accLanes x a) }

theorem exec_pqry (c : Ctl) (d a : Nat) (s : State) : exec (.pqry c d a) s = word c (useLoad d 1 [a]) (pqryBody d a) s := rfl

theorem exec_accrd (c : Ctl) (d a : Nat) (s : State) : exec (.accrd c d a) s =
    word c { useLoad d 1 [a] with roles := [0, 2, 3], hold := holdReg c (some a) none none } (accrdBody d a) s := rfl

theorem exec_accwr (c : Ctl) (d a : Nat) (s : State) : exec (.accwr c d a) s =
    word c { roles := [0, 2, 3], vr := [d, a], hold := holdReg c (some a) none none } (accwrBody d a) s := rfl

section
variable {x : Ex} {s : State} {w : Wave} {lanes : List Nat} (r : Sees x s w lanes) (low : ∀ i ∈ lanes, i < 32) (some : lanes ≠ [])
include r low

include some in
/-- PQRY where every lane names a pool. -/
theorem pqryBody_eq (d a : Nat) (homes : ∀ i ∈ lanes, (s.padHome w (w.vreg a i)).isNone = false) (room : ¬63 ≤ w.cntld) :
    pqryBody d a x = .done (startOp x (.pqry (lanes.map (fun i => (i, (s.padHome w (w.vreg a i)).getD 0, bits (w.vreg a i).toNat 19 7))))
      true d [d] 8 (order .plain .wav .mru) false false [] []) {} := by
  have named : x.lanes.map (fun i => (i, x.s.padHome x.w (x.v a i))) = lanes.map (fun i => (i, s.padHome w (w.vreg a i))) := by
    rw [r.lanes]
    exact List.map_congr_left fun i hi => by rw [r.vec a i (low i hi), r.padHome]
  have places : lanes.map (fun i => (i, (s.padHome w (w.vreg a i)).getD 0, bits (x.v a i).toNat 19 7)) =
      lanes.map (fun i => (i, (s.padHome w (w.vreg a i)).getD 0, bits (w.vreg a i).toNat 19 7)) :=
    List.map_congr_left fun i hi => by rw [r.vec a i (low i hi)]
  unfold pqryBody
  simp only [named, r.wave, filterMap_homeless (g := fun i => (cRANGE, x.v a i)) homes, filterMap_homes (g := fun i => bits (x.v a i).toNat 19 7) homes, places]
  rw [if_neg (by simpa using some), if_neg room]

variable {stale : Nat → Bool} {a : Nat} (pass : ∀ i ∈ lanes, accCheck x (w.vreg a i) = .ok (stale i))
include pass

theorem accLanes_of_all_pass : accOk (accLanes x a) = lanes.map (fun i => (i, stale i)) ∧ accBad (accLanes x a) = [] := by
  unfold accLanes
  rw [r.lanes]
  exact accOk_of_all_pass (f := fun i => accCheck x (x.v a i)) fun i hi => by rw [r.vec a i (low i hi)]; exact pass i hi

include some in
/-- ACCRD where every lane passes: a stale handle goes by a number that no handle has. -/
theorem accrdBody_eq (d : Nat) (room : ¬63 ≤ w.cntld) :
    accrdBody d a x = .done (startOp x (.accrd (lanes.map (fun i =>
      (i, if stale i then 2 ^ 16 else aHANDLE (w.vreg a i), aROW (w.vreg a i), aCOL (w.vreg a i)))))
      true d [d] 8 (order .plain .wav .mru) false false [] []) {} := by
  obtain ⟨ok, bad⟩ := accLanes_of_all_pass r low pass
  have places : (lanes.map (fun i => (i, stale i))).map (fun p =>
      (p.1, if p.2 then 2 ^ 16 else aHANDLE (x.v a p.1), aROW (x.v a p.1), aCOL (x.v a p.1))) =
      lanes.map (fun i => (i, if stale i then 2 ^ 16 else aHANDLE (w.vreg a i), aROW (w.vreg a i), aCOL (w.vreg a i))) := by
    rw [List.map_map]
    exact List.map_congr_left fun i hi => by simp only [Function.comp, r.vec a i (low i hi)]
  unfold accrdBody
  simp only [ok, bad, r.wave, places]
  rw [if_neg (by simpa using some), if_neg room]

include some in
/-- ACCWR where every lane passes: a stale handle's lane has nothing to write. -/
theorem accwrBody_eq (d : Nat) (room : ¬63 ≤ w.cntst) :
    accwrBody d a x = .done (startOp x (.accwr ((lanes.filter (fun i => !stale i)).map (fun i =>
      (i, aHANDLE (w.vreg a i), aROW (w.vreg a i), aCOL (w.vreg a i), w.vreg d i))))
      false 0 [] 8 (order .plain .wav .mru) false false [] []) {} := by
  obtain ⟨ok, bad⟩ := accLanes_of_all_pass r low pass
  have places : ((lanes.map (fun i => (i, stale i))).filter (fun p => !p.2)).map (fun p =>
      (p.1, aHANDLE (x.v a p.1), aROW (x.v a p.1), aCOL (x.v a p.1), x.v d p.1)) =
      (lanes.filter (fun i => !stale i)).map (fun i => (i, aHANDLE (w.vreg a i), aROW (w.vreg a i), aCOL (w.vreg a i), w.vreg d i)) := by
    rw [List.filter_map, List.map_map]
    refine List.map_congr_left fun i hi => ?_
    have hi := low i (List.mem_of_mem_filter hi)
    simp only [Function.comp, r.vec a i hi, r.vec d i hi]
  unfold accwrBody
  simp only [ok, bad, r.wave, places]
  rw [if_neg (by simpa using some), if_neg room]

end

/-- What the checks of a lane say that passes them. -/
def staleOf (r : Except (Nat × Word) Bool) : Bool :=
  match r with
  | .ok b => b
  | .error _ => false

theorem ok_staleOf {r : Except (Nat × Word) Bool} (sound : ¬(r matches .error _) = true) : r = .ok (staleOf r) := by
  cases r with
  | ok b => rfl
  | error e => exact absurd rfl sound

theorem ite_staleOf (r : Except (Nat × Word) Bool) (n k : Nat) : (if staleOf r then n else k) = if r matches .ok true then n else k := by
  rcases r with e | b
  · rfl
  · cases b <;> rfl

theorem not_staleOf (r : Except (Nat × Word) Bool) : r = .ok (staleOf r) → (!staleOf r) = (r matches .ok false) := by
  rcases r with e | b
  · exact nofun
  · cases b <;> exact fun _ => rfl

/-- The words of the table leave their operation. -/
theorem hasEffect_queryWord : HasEffect queryWord := by
  intro i c u f s w pc s1 w1 hi h hf
  have low := fun k (hk : k ∈ execLanes c u.q w (w.activeAt pc)) => execLanes_lt k hk
  have some_lane := h.some
  unfold queryWord at hi
  split at hi
  case h_1 c d a => -- GRPQ
    cases hi
    refine word_begun h hf fun x r room => ?_
    rw [r.wave, r.lanes, if_neg (show ¬63 ≤ w.cntld from room)]
    refine congrArg (fun l => Out.done (startOp _ (.grpq l) _ _ _ _ _ _ _ _ _) {}) (List.map_congr_left fun k hk => ?_)
    rw [r.vec a k (low k hk)]
  case h_2 c d ch item => -- CHQ
    cases hi
    refine word_begun h hf fun x r room => ?_
    rw [r.wave, r.lanes, if_neg (show ¬63 ≤ w.cntld from room)]
    rfl
  case h_3 c d a => -- PQRY
    cases hi
    dsimp only at hf
    split at hf
    case isTrue => cases hf
    case isFalse homes =>
      have homes := fun k hk => Bool.not_eq_true _ |>.mp (List.any_eq_false.mp (Bool.not_eq_true _ |>.mp homes) k hk)
      rw [exec_pqry]
      exact word_begun h hf fun x r room => pqryBody_eq r low some_lane d a homes room
  case h_4 c d a => -- ACCRD
    cases hi
    dsimp only at hf
    split at hf
    case isTrue => cases hf
    case isFalse sound =>
      have pass := fun k hk => ok_staleOf (List.any_eq_false.mp (Bool.not_eq_true _ |>.mp sound) k hk)
      rw [exec_accrd]
      refine word_begun h hf fun x r room => ?_
      have passes := fun k hk => (r.accCheck pc _).trans (pass k hk)
      refine (accrdBody_eq r low some_lane passes d room).trans ?_
      refine congrArg (fun l => Out.done (startOp _ (.accrd l) _ _ _ _ _ _ _ _ _) {}) (List.map_congr_left fun k hk => ?_)
      exact Prod.ext rfl (Prod.ext (ite_staleOf ..) rfl)
  case h_5 c d a => -- ACCWR
    cases hi
    dsimp only at hf
    split at hf
    case isTrue => cases hf
    case isFalse sound =>
      have pass := fun k hk => ok_staleOf (List.any_eq_false.mp (Bool.not_eq_true _ |>.mp sound) k hk)
      rw [exec_accwr]
      refine word_begun h hf fun x r room => ?_
      have passes := fun k hk => (r.accCheck pc _).trans (pass k hk)
      rw [accwrBody_eq r low some_lane passes d room, List.filter_congr fun k hk => not_staleOf _ (pass k hk)] <;> rfl
  case h_6 => cases hi

/-! ### What the queries read -/

/-- A bit of a register built from flags. -/
theorem getLsbD_pack_flags (p : Nat → Bool) {k : Nat} (hk : k < 64) : (pack 1 ((List.range 64).map (fun i => (p i).toNat))).getLsbD k = p k := by
  unfold pack
  rw [BitVec.getLsbD_ofNat, digits_one_getLsbD _ (fun x hx => ?_)]
  · simp [List.getD, hk]
  · obtain ⟨i, -, rfl⟩ := List.mem_map.mp hx
    exact Bool.toNat_lt _

/-- Two elements make a register, the first in its low half (R293). -/
theorem ofNat_pair (lo hi : BitVec 32) : BitVec.ofNat 64 (lo.toNat + 2 ^ 32 * hi.toNat) = hi ++ lo := by
  refine BitVec.eq_of_toNat_eq ?_
  rw [BitVec.toNat_append, ← Nat.shiftLeft_add_eq_or_of_lt lo.isLt, Nat.shiftLeft_eq, BitVec.toNat_ofNat]
  omega

section
variable {s : State} {w : Wave} {id : Nat} {o : MemOp}

/-- Entries of different lanes: one for each lane. -/
theorem same_of_same_lane {α β : Type} {lane : α → Nat} {value : α → β} {l : List α} (apart : (l.map lane).Nodup) :
    ∀ x ∈ l, ∀ y ∈ l, lane y = lane x → value y = value x :=
  fun _ hx _ hy e => congrArg value (List.inj_on_of_nodup_map apart hy hx e)

/-- Nothing of the wave on the handles that lanes name comes before (R282). -/
theorem none_before {α : Type} {handle : α → Nat} {l : List α} (free : ∀ x ∈ l, s.tilesOn w id (handle x) = false ∧ w.accBefore id (handle x) = false) :
    l.any (fun x => s.tilesOn w id (handle x) || w.accBefore id (handle x)) = false :=
  List.any_eq_false.mpr fun x hx => by simp [free x hx]

theorem id_of_op? (op : w.op? id = some o) : o.id = id := by simpa using List.find?_some op

/-- ACCWR performed: two elements for each lane, and no other. -/
theorem accwr_performed {c : Ctx} {l : List (Nat × Nat × Nat × Nat × Word)} (here : s.wave? w.core w.slot = some w) (live : w.allExited = false)
    (op : w.op? id = some o) (parts : o.parts = []) (closed : w.acqOpen id = false) (stores : o.ld = false) (act : o.act = .accwr l)
    (held : s.ctx? w.launch w.core = some c) (free : ∀ x ∈ l, s.tilesOn w id x.2.1 = false ∧ w.accBefore id x.2.1 = false) :
    ∃ t v, exec (.storeAccepted w.core w.slot id none) s = .next t ∧ t.wave? w.core w.slot = some v ∧ v.op? id = none ∧
      v.vregs = w.vregs ∧ t.mem = s.mem ∧ t.ctx w.launch w.core = l.foldl accStep c := by
  obtain ⟨launch, core⟩ := ctx?_key held
  obtain ⟨launch', core'⟩ := foldl_accStep_key l c
  have stands : s.ctx w.launch w.core = c := by rw [State.ctx, held]; rfl
  obtain ⟨v0, t, v, landed, e, hv, gone, vregs, mem, ctxs⟩ := event_bindAll (kind := fun o => !o.ld && !o.isAtomic)
    (s1 := s.setCtx (l.foldl accStep c)) (l := []) here live op parts closed (by simp [stores, MemOp.isAtomic, act])
    (.inr (by simp [MemOp.brings, act])) (fun v landed => by
      obtain ⟨tags, written, rfl⟩ := landed
      unfold State.performPart
      simp only [act, id_of_op? op, stands]
      exact if_neg (Bool.eq_false_iff.mp (none_before free))) here
  obtain ⟨tags, written, rfl⟩ := landed
  refine ⟨t, v, congrArg Host.Outcome.next e, hv, gone, vregs, mem, ?_⟩
  rw [← ctx_setCtx_self held (launch'.trans launch) (core'.trans core)]
  unfold State.ctx State.ctx?
  rw [ctxs]

end

/-- Settles O43: the words leave their operation, and each is over at the one step that performs it: the queries bind their lanes' values to the
register, and ACCWR writes its lanes' pairs, one after another. -/
theorem queryWords : Obligations.QueryWords := by
  refine ⟨hasEffect_queryWord, fun s w id o here live op parts closed loads lands =>
    ⟨fun l act apart low => ?_, fun ch item l act low => ?_, fun l act apart low => ?_, fun l act apart low free => ?_⟩,
    fun s w id o c l here live op parts closed stores act held free fits => ?_⟩
  case refine_1 => -- GRPQ
    exact query_bindAll (lane := Prod.fst) (value := fun x => grpqVal (s.launch w.launch) w x.2) here live op parts closed loads lands
      (by simp [MemOp.isAtomic, act]) low (same_of_same_lane apart) (fun v landed => by
        obtain ⟨tags, written, rfl⟩ := landed
        unfold State.performPart
        simp only [act]
        rfl)
  case refine_2 => -- CHQ
    exact query_bindAll (lane := fun i => i) (value := fun _ => chqVal (s.launch w.launch) ch item) here live op parts closed loads lands
      (by simp [MemOp.isAtomic, act]) low (fun _ _ _ _ _ => rfl) (fun v landed => by
        obtain ⟨tags, written, rfl⟩ := landed
        unfold State.performPart
        simp only [act])
  case refine_3 => -- PQRY
    obtain ⟨t, v, e, hv, gone, vregs, mem⟩ := query_bindAll (lane := Prod.fst) (value := fun x => presenceMask s w.launch x.2.1 x.2.2)
      here live op parts closed loads lands (by simp [MemOp.isAtomic, act]) low (same_of_same_lane apart) (fun v landed => by
        obtain ⟨tags, written, rfl⟩ := landed
        unfold State.performPart
        simp only [act])
    refine ⟨t, v, e, hv, gone, fun x hx k hk => ?_, mem⟩
    rw [vregs x hx]
    exact getLsbD_pack_flags _ hk
  case refine_4 => -- ACCRD
    obtain ⟨t, v, e, hv, gone, vregs, mem⟩ := query_bindAll (lane := Prod.fst)
      (value := fun x => accPair (s.ctx w.launch w.core) x.2.1 x.2.2.1 x.2.2.2)
      here live op parts closed loads lands (by simp [MemOp.isAtomic, act]) low (same_of_same_lane apart) (fun v landed => by
        obtain ⟨tags, written, rfl⟩ := landed
        unfold State.performPart
        simp only [act, id_of_op? op]
        exact if_neg (Bool.eq_false_iff.mp (none_before free)))
    refine ⟨t, v, e, hv, gone, fun x hx => (vregs x hx).trans ?_, mem⟩
    unfold accPair
    cases (s.ctx w.launch w.core).alloc? x.2.1 with
    | none => rfl
    | some al => exact ofNat_pair _ _
  case refine_5 => -- ACCWR
    obtain ⟨t, v, e, hv, gone, vregs, mem, ctx⟩ := accwr_performed here live op parts closed stores act held free
    refine ⟨t, v, e, hv, gone, vregs, mem, fun h al named => ?_⟩
    have pairs_fit : ∀ p ∈ pairsOf h l, p.2.1 + 1 < al.pitch := fun p hp => by
      obtain ⟨y, hy, hy', rfl⟩ := mem_pairsOf.mp hp
      exact fits y hy al (hy' ▸ named)
    refine ⟨_, ctx ▸ alloc?_foldl_accStep l c al named, ?_, ?_⟩
    · intro x hx mine alone
      have fit := fits x hx al (mine ▸ named)
      have only : ∀ p ∈ pairsOf h l, p.1 = x.2.2.1 → p.2.1 < x.2.2.2.1 + 2 → x.2.2.2.1 < p.2.1 + 2 → p = x.2.2 := fun p hp row near near' => by
        obtain ⟨y, hy, hy', rfl⟩ := mem_pairsOf.mp hp
        rw [alone y hy hy' row near near']
      have own : x.2.2 ∈ pairsOf h l := mem_pairsOf.mpr ⟨x, hx, mine, rfl⟩
      constructor
      · refine elem_foldl_writePair _ _ _ (by omega) pairs_fit (fun p hp row => ⟨fun at_ => ?_, fun at_ => ?_⟩) (.inr ⟨_, own, rfl, .inl rfl⟩)
        · rw [only p hp row (by omega) (by omega)]
        · have := only p hp row (by omega) (by omega)
          subst this
          omega
      · refine elem_foldl_writePair _ _ _ fit pairs_fit (fun p hp row => ⟨fun at_ => ?_, fun at_ => ?_⟩) (.inr ⟨_, own, rfl, .inr rfl⟩)
        · have := only p hp row (by omega) (by omega)
          subst this
          omega
        · rw [only p hp row (by omega) (by omega)]
    · intro i j inside apart
      refine elem_foldl_writePair _ _ _ inside pairs_fit (fun p hp row => ?_) (.inl rfl)
      obtain ⟨y, hy, hy', rfl⟩ := mem_pairsOf.mp hp
      obtain ⟨low, high⟩ := apart y hy hy' row
      exact ⟨fun e => absurd e.symm low, fun e => absurd e.symm high⟩

end Sys2Proof.Machine

/-! One part performed (spec/13 R227, R230, R236; spec/15 R249): the request of its sector and the access at its home, what a load brings, and what a
store leaves. -/
namespace Sys2Proof.Machine
open Sys2Proof.Safety

/-! ### What changes in caches alone -/

/-- Two states differ in the L1 at most. -/
def L1Only (s t : State) : Prop := ∃ l, t = { s with mem := { s.mem with l1 := l } }

theorem L1Only.refl (s : State) : L1Only s s := ⟨_, rfl⟩

theorem L1Only.trans {s t u : State} (h : L1Only s t) (g : L1Only t u) : L1Only s u := by
  obtain ⟨_, rfl⟩ := h
  obtain ⟨l, rfl⟩ := g
  exact ⟨l, rfl⟩

theorem L1Only.kept {s t : State} (h : L1Only s t) : t.cores = s.cores ∧ t.mem.bytes = s.mem.bytes := by
  obtain ⟨_, rfl⟩ := h
  exact ⟨rfl, rfl⟩

theorem l1Only_acquireOf (s : State) (w : Wave) (o : MemOp) : L1Only s (s.acquireOf w o) := by
  unfold State.acquireOf State.acquire
  split
  · split
    · exact ⟨_, rfl⟩
    · exact .refl s
  · exact .refl s

theorem l1Only_l1Fill (s : State) (core ma evict : Nat) : L1Only s (s.l1Fill core ma evict) := by
  unfold State.l1Fill
  dsimp only
  split
  · exact .refl s
  · exact ⟨_, rfl⟩

theorem l1Only_l1Stores (core : Nat) : ∀ (l : List (Nat × Nat × Option WTag)) (s : State),
    L1Only s (l.foldl (fun t p => t.l1Store core p.1 p.2.1) s)
  | [], s => .refl s
  | p :: l, s => L1Only.trans (l1Store_mem s core p.1 p.2.1) (l1Only_l1Stores core l _)

/-! ### An access of an unprotected frame at its home (R115, R249) -/

section
variable {s s1 : State} {core tenant evict ma n : Nat} {tags : List (Nat × Nat × Option WTag)} {new : List Byte → Option (List Byte)}

/-- An access whose request is accepted is performed. -/
theorem homeAccess_of_accepted {who : Requester} (owner : (s.frame (mfnOf ma)).owner = tenant)
    (accepted : s.request core tenant (ma / 32 * 32) who = .ok s1) :
    s.homeAccess core tenant who none evict ma n tags new = s1.homeDo core tenant none evict ma n tags new := by
  unfold State.homeAccess
  rw [if_neg (not_not_intro owner), accepted]

theorem homeDo_read (owner : (s.frame (mfnOf ma)).owner = tenant) :
    ∃ u, s.homeDo core tenant none evict ma n tags (fun _ => none) = .done u (s.readMem ma n) ∧ CacheOnly s u := by
  refine ⟨_, ?_, cacheOnly_l2Access s ma evict false none⟩
  unfold State.homeDo
  rw [if_neg (not_not_intro owner)]
  rfl

/-- A write changes nothing outside memory, and of the bytes none of the device's own records (R3). -/
theorem homeDo_write {l : List Byte} (owner : (s.frame (mfnOf ma)).owner = tenant) (makes : new (s.readMem ma n) = some l) :
    ∃ m, s.homeDo core tenant none evict ma n tags new = .done (s.setMem m) (s.readMem ma n) ∧
      m.bytes = cellSetMany 0 s.mem.bytes ma (s.keepRecords ma l) := by
  obtain ⟨k, tick, cached⟩ := cacheOnly_l2Access s ma evict true none
  obtain ⟨t, x, tagged⟩ := State.leaveTags_eq ((s.l2Access ma evict true none).homeWrite none ma (s.keepRecords ma l)) tags
  obtain ⟨y, stored⟩ := l1Only_l1Stores core tags (((s.l2Access ma evict true none).homeWrite none ma (s.keepRecords ma l)).leaveTags tags)
  have runs : s.homeDo core tenant none evict ma n tags new = .done (tags.foldl (fun t p => t.l1Store core p.1 p.2.1)
      (((s.l2Access ma evict true none).homeWrite none ma (s.keepRecords ma l)).leaveTags tags)) (s.readMem ma n) := by
    unfold State.homeDo
    rw [if_neg (not_not_intro owner), if_neg (by simp)]
    have makes : new (s.homeBytes none ma n) = some l := makes
    simp only [makes]
    rfl
  rw [stored, tagged, cached] at runs
  exact ⟨_, runs, rfl⟩

end

/-! ### An operation of one part -/

section
variable {s : State} {w : Wave} {id : Nat} {o : MemOp} {p : Part}

/-- The operation with its one part performed. -/
def MemOp.settled (o : MemOp) (p : Part) : MemOp := { o with parts := [{ p with done := true }] }

/-- A wave holds the operation with its one part performed, and is otherwise `x`. -/
def Wave.settles (x : Wave) (o : MemOp) (p : Part) : Wave := x.setOp (o.settled p)

theorem part_of_one (one : OnePart s w id o p) : o.part 0 = p ∧ p.done = false := by
  have only : o.part 0 = p := by simp [MemOp.part, one.parts]
  have may := one.may
  simp only [Wave.mayPerform, only, Bool.and_eq_true, Bool.not_eq_true'] at may
  exact ⟨only, may.1.1.1⟩

theorem batch_of_one (one : OnePart s w id o p) : o.batch 0 = [0] := by
  obtain ⟨only, open_⟩ := part_of_one one
  unfold MemOp.batch
  simp [one.parts, List.range_one, only, open_]

theorem mark_of_one (one : OnePart s w id o p) : o.mark (fun j _ => ([0] : List Nat).contains j) = o.settled p := by
  unfold MemOp.mark MemOp.settled
  simp [one.parts]

/-- The operation is finished. -/
theorem finished_settles {x : Wave} (op : x.op? id = some o) : id ∈ (x.settles o p).finished := by
  have same : o.id = id := by simpa using List.find?_some op
  have listed : o.settled p ∈ (x.settles o p).ops :=
    List.mem_map.mpr ⟨o, List.mem_of_find?_eq_some op, by simp [MemOp.settled]⟩
  exact List.mem_map.mpr ⟨_, List.mem_filter.mpr ⟨listed, by simp [MemOp.settled, MemOp.open']⟩, same⟩

/-- The events of an operation of one part, which take its one step: `x` is the wave as that leaves it, but for the operation, and `u` the state
beside it. -/
theorem event_of_one {kind : MemOp → Bool} {part : Option Nat} {P : State → Wave → Prop} (one : OnePart s w id o p) (fits : kind o = true)
    (which : part = none ∨ part = some 0) (undropped : w.dropped = [] ∨ o.brings 0 = [])
    (does : ∀ v, Landed w v → ∃ u x, s.performPart v o 0 false = u.setWave (x.settles o p) ∧ u.cores.waves = s.cores.waves ∧ P u x ∧
      x.core = v.core ∧ x.slot = v.slot ∧ x.lanes = v.lanes ∧ x.ops = v.ops) :
    ∃ u x t v, P u x ∧ s.performEvent w.core w.slot id part false kind = t ∧ t.wave? w.core w.slot = some v ∧ v.op? id = none ∧
      v.vregs = x.vregs ∧ v.sregs = x.sregs ∧ v.lanes = w.lanes ∧ t.mem = u.mem ∧ t.cores.ctxs = u.cores.ctxs := by
  obtain ⟨v0, land, landed⟩ := landing_of_undropped (s := s) undropped
  obtain ⟨u, x, performs, waves, holds, core, slot, stand, ops⟩ := does v0 landed
  have step := (performAt_of_may (l1 := false) one.here one.op (.inr ⟨one.may, one.first⟩) land).trans performs
  obtain ⟨tags, written, rfl⟩ := landed
  have here : u.wave? w.core w.slot = some w := by
    rw [State.wave?, waves]
    exact one.here
  have left := step ▸ State.wave?_setWave_self here (v := x.settles o p) core slot
  have op : x.op? id = some o := by
    rw [Wave.op?, ops]
    exact one.op
  have live : (x.settles o p).allExited = false := by
    show x.lanes.all _ = false
    rw [stand]
    exact one.live
  refine ⟨u, x, _, _, holds, performEvent_once one.here one.op (by simp [one.parts]) which fits left live,
    State.wave?_setWave_self left (by rw [retireOps_eq]; exact core) (by rw [retireOps_eq]; exact slot),
    op?_retireOps (.inr (finished_settles op)), ?_, ?_, ?_, by rw [step]; rfl, by rw [step]; rfl⟩
  all_goals rw [retireOps_eq]
  · rfl
  · rfl
  · exact stand

/-- The events that perform an operation: its own for the whole or for a part, and SLICE_RETRY (R249). -/
theorem event_runs {kind : MemOp → Bool} {event : Option Nat → Instr} {e : Instr} (fits : kind o = true)
    (runs : ∀ part, exec (event part) s = .next (s.performEvent w.core w.slot id part false kind))
    (he : e ∈ [event none, event (some 0), .sliceRetry w.core w.slot id]) : ∃ kind part, kind o = true ∧ (part = none ∨ part = some 0) ∧
      exec e s = .next (s.performEvent w.core w.slot id part false kind) := by
  simp only [List.mem_cons, List.not_mem_nil, or_false] at he
  rcases he with rfl | rfl | rfl
  · exact ⟨kind, none, fits, .inl rfl, runs none⟩
  · exact ⟨kind, some 0, fits, .inr rfl, runs (some 0)⟩
  · exact ⟨fun _ => true, none, rfl, .inl rfl, rfl⟩

end

end Sys2Proof.Machine

/-! Loads and stores performed (spec/13 R227, R230, R236; spec/15 R249; spec/19 R300): the bytes that a load brings from its home or its pool, and
those that a store leaves there. -/
namespace Sys2Proof.Machine
open Sys2Proof.Safety

/-! ### Bytes in a sector -/

/-- A range cut out of a longer one. -/
theorem cellGetMany_cut {α : Type} (d : α) (c : Cells α) (i : Nat) {n k m : Nat} (inside : k + m ≤ n) :
    ((cellGetMany d c i n).drop k).take m = cellGetMany d c (i + k) m := by
  refine List.ext_getElem (by simp [cellGetMany]; omega) fun j _ _ => ?_
  simp [cellGetMany, Nat.add_assoc]

theorem getD_patch (d l : List Byte) {k : Nat} (inside : k + l.length ≤ d.length) (i : Nat) :
    (patch d k l).getD i 0 = if k ≤ i ∧ i < k + l.length then l.getD (i - k) 0 else d.getD i 0 := by
  have head : (d.take k).length = k := by simp; omega
  unfold patch
  by_cases below : i < k
  · rw [if_neg (by omega), List.append_assoc, List.getD_append _ _ _ _ (by omega)]
    simp [List.getD_eq_getElem?_getD, below]
  · by_cases within : i < k + l.length
    · rw [if_pos (by omega), List.append_assoc, List.getD_append_right _ _ _ _ (by omega), head, List.getD_append _ _ _ _ (by omega)]
    · rw [if_neg (by omega), List.getD_append_right _ _ _ _ (by simp; omega)]
      simp only [List.length_append, head, List.getD_eq_getElem?_getD, List.getElem?_drop]
      congr 2
      omega

/-- A byte of a number, the least significant first (R1). -/
theorem getD_bytesOf : ∀ (n v : Nat) {i : Nat}, i < n → (bytesOf n v).getD i 0 = BitVec.ofNat 8 (v / 256 ^ i)
  | n + 1, v, 0, _ => by simp [bytesOf]
  | n + 1, v, i + 1, h => by
    rw [bytesOf, List.getD_cons_succ, getD_bytesOf n (v / 256) (by omega), Nat.div_div_eq_div_mul, Nat.pow_succ']

theorem getD_bytesOf_val (v : Word) {n i : Nat} (h : i < n) : (bytesOf n v.toNat).getD i 0 = v.extractLsb' (8 * i) 8 := by
  rw [getD_bytesOf n _ h]
  refine BitVec.eq_of_toNat_eq ?_
  rw [BitVec.extractLsb'_toNat, BitVec.toNat_ofNat, Nat.shiftRight_eq_div_pow, Nat.pow_mul]

/-- A sector stored with some of its bytes replaced: these stand where no record of the device does (R3), and all others as they were. -/
theorem stored_patch {s : State} {m : MemSys} {ma k : Nat} {l : List Byte} (inside : k + l.length ≤ 32)
    (h : m.bytes = cellSetMany 0 s.mem.bytes ma (s.keepRecords ma (patch (s.readMem ma 32) k l))) :
    (∀ n < l.length, cellGet 0 m.bytes (ma + k + n) = if s.inRecord (ma + k + n) then s.byte (ma + k + n) else l.getD n 0) ∧
      ∀ b, b < ma + k ∨ ma + k + l.length ≤ b → cellGet 0 m.bytes b = s.byte b := by
  have length : (s.readMem ma 32).length = 32 := cellGetMany_length ..
  have whole : (patch (s.readMem ma 32) k l).length = 32 := by simp [patch, length]; omega
  obtain ⟨here, out⟩ := stored_getD h 0
  rw [whole] at here out
  refine ⟨fun n hn => ?_, fun b hb => ?_⟩
  · have now := here (k + n) (by omega)
    rw [getD_patch _ _ (by omega), if_pos (by omega), Nat.add_sub_cancel_left] at now
    rw [Nat.add_assoc, now]
    simp [storedByte, placeByte]
  · by_cases sector : ma ≤ b ∧ b < ma + 32
    · have now := here (b - ma) (by omega)
      rw [getD_patch _ _ (by omega), if_neg (by omega), readMem_getD s ma (by omega), show ma + (b - ma) = b by omega] at now
      rw [now]
      simp [storedByte, placeByte, show ma + (b - ma) = b by omega]
    · exact out b (by omega)

/-! ### Bytes in a pool -/

theorem padByte_congr {s t : State} (h : t.cores.ctxs = s.cores.ctxs) (q k m : Nat) : padByte t q k m = padByte s q k m := by
  unfold padByte State.ctx State.ctx?
  rw [h]

theorem ctx_setCtx_other (s : State) {c : Ctx} {l core : Nat} (other : ¬(l = c.launch ∧ core = c.core)) : (s.setCtx c).ctx l core = s.ctx l core := by
  have same := find?_updWhere_other (fun x : Ctx => x.launch == c.launch && x.core == c.core) (fun x => x.launch == l && x.core == core) (fun _ => c)
    (fun x hx => by
      simp only [Bool.and_eq_true, beq_iff_eq] at hx
      simp only [Bool.and_eq_false_iff, beq_eq_false_iff_ne, ne_eq]
      rw [hx.1, hx.2]
      have : ¬c.launch = l ∨ ¬c.core = core := by
        by_contra both
        simp only [not_or, not_not] at both
        exact other ⟨both.1.symm, both.2.symm⟩
      exact ⟨this, this⟩) s.cores.ctxs
  exact congrArg (fun x : Option Ctx => x.getD (Ctx.fresh l core 0)) same

/-- A byte of a pool after some are written. -/
theorem padByte_writePad {s : State} {launch core : Nat} (there : (s.ctx? launch core).isSome = true) (off : Nat) (l : List Byte) (tag : Option WTag)
    (q k m : Nat) : padByte (s.writePad launch core off l tag) q k m =
      if (q = launch ∧ k = core) ∧ off ≤ m ∧ m < off + l.length then l.getD (m - off) 0 else padByte s q k m := by
  obtain ⟨c, hc⟩ := Option.isSome_iff_exists.mp there
  obtain ⟨key, place⟩ := ctx?_key hc
  have stands : s.ctx launch core = c := by rw [State.ctx, hc]; rfl
  unfold State.writePad padByte
  dsimp only
  rw [stands]
  by_cases mine : q = launch ∧ k = core
  · obtain ⟨rfl, rfl⟩ := mine
    rw [ctx_setCtx_self (k := { c with
      pad := cellSetMany 0 c.pad off l, padTags := cellSetMany none c.padTags off (List.replicate l.length tag) }) hc key place, stands]
    dsimp only
    rw [cellGet_cellSetMany]
    simp
  · rw [ctx_setCtx_other s (by rw [key, place]; exact mine), if_neg (fun h => mine h.1)]

/-! ### Parts lie inside their sector, or their word of a pool -/

theorem part_fits {n a : Nat} (size : n ∈ [1, 2, 4, 8]) (aligned : a % n = 0) : a % 8 + n ≤ 8 ∧ a % 32 + n ≤ 32 := by
  simp only [List.mem_cons, List.not_mem_nil, or_false] at size
  rcases size with rfl | rfl | rfl | rfl <;> omega

section
variable {s : State} {w : Wave} {id : Nat} {o : MemOp} {p : Part}

/-- The request of a part that lies at its home is accepted, and finds the frame its tenant's. -/
theorem accepted_atHome {a : Nat} (home : AtHome s w o p a) : ∃ s1, TokensOnly s s1 ∧ (s.frame (mfnOf (a / 32 * 32))).owner = w.tenant ∧
    s.request w.core w.tenant (a / 32 * 32 / 32 * 32) (w.asker o 0) = .ok s1 := by
  have frame : mfnOf (a / 32 * 32) = mfnOf a := by
    unfold mfnOf
    omega
  have sector : a / 32 * 32 / 32 * 32 = a / 32 * 32 := by omega
  rw [sector, frame]
  cases sent : s.request w.core w.tenant (a / 32 * 32) (w.asker o 0) with
  | error t =>
    have := home.accepted
    rw [sent] at this
    cases this
  | ok s1 => exact ⟨s1, tokensOnly_request (.inl sent), home.owner, rfl⟩

/-- The flits of a part to a pool go. -/
theorem sends_atPad {c off : Nat} (pad : AtPad s w p c off) : ∃ s1, TokensOnly s s1 ∧ ∀ v f, Landed w v → s.sendPad v c f = f s1 := by
  obtain ⟨s1, goes⟩ := Option.isSome_iff_exists.mp pad.goes
  refine ⟨s1, tokensOnly_takeStops goes, ?_⟩
  rintro v f ⟨tags, written, rfl⟩
  unfold State.sendPad
  dsimp only
  rw [goes]

end

/-! ### A store -/

section
variable {s : State} {w : Wave} {id : Nat} {o : MemOp} {p : Part}

/-- A store of one part at its home: the bytes of its sector are stored with its own put in. -/
theorem performStore_atHome {a : Nat} (one : OnePart s w id o p) (act : o.act = .store) (home : AtHome s w o p a) {v : Wave} (landed : Landed w v) :
    ∃ u : State, s.performPart v o 0 false = u.setWave (v.settles o p) ∧ u.cores = s.cores ∧
      u.mem.bytes = cellSetMany 0 s.mem.bytes (a / 32 * 32) (s.keepRecords (a / 32 * 32)
        (patch (s.readMem (a / 32 * 32) 32) (a % 32) (bytesOf p.size p.val.toNat))) := by
  obtain ⟨only, -⟩ := part_of_one one
  obtain ⟨s1, ⟨net, slice, again, rfl⟩, owner, accepted⟩ := accepted_atHome home
  have makes : ∀ old, some (o.merged [0] old) = some (patch old (a % 32) (bytesOf p.size p.val.toNat)) := fun old => by
    simp [MemOp.merged, only, home.loc, Loc.addr]
  obtain ⟨m, done, bytes⟩ := homeDo_write (s := { s with mem := { s.mem with netTok := net, sliceTok := slice, retries := again } })
    (core := w.core) (tenant := w.tenant) (evict := o.evict) (ma := a / 32 * 32) (n := 32) (tags := o.ranges [0] v)
    (new := fun l => some (o.merged [0] l)) owner (makes _)
  obtain ⟨tags, written, rfl⟩ := landed
  obtain ⟨cores, stand⟩ := (l1Only_acquireOf { s with mem := m } { w with tags := tags, written := written } o).kept
  have plain : s.slotFor { w with tags := tags, written := written } p.attr = none := by simp [State.slotFor, home.plain]
  have met := (homeAccess_of_accepted (evict := o.evict) (n := 32) (tags := o.ranges [0] { w with tags := tags, written := written })
    (new := fun l => some (o.merged [0] l)) owner accepted).trans done
  refine ⟨_, ?_, cores, stand.trans bytes⟩
  unfold State.performPart State.performStore
  simp only [act, only, home.loc, batch_of_one one, mark_of_one one, plain, Option.isSome_none, Bool.false_eq_true, if_false]
  rw [show ({ w with tags := tags, written := written } : Wave).asker o 0 = w.asker o 0 from rfl, met]
  rfl

/-- A store of one part at a pool. -/
theorem performStore_atPad {c off : Nat} (one : OnePart s w id o p) (act : o.act = .store) (pad : AtPad s w p c off) {v : Wave}
    (landed : Landed w v) :
    ∃ u : State, s.performPart v o 0 false = ((u.writePad w.launch c off (bytesOf p.size p.val.toNat) (o.tag v)).setWave (v.settles o p)) ∧
      u.cores = s.cores ∧ u.mem.bytes = s.mem.bytes := by
  obtain ⟨only, -⟩ := part_of_one one
  obtain ⟨s1, ⟨net, slice, again, rfl⟩, sends⟩ := sends_atPad pad
  obtain ⟨cores, stand⟩ := (l1Only_acquireOf { s with mem := { s.mem with netTok := net, sliceTok := slice, retries := again } } v o).kept
  refine ⟨_, ?_, cores, stand⟩
  unfold State.performPart State.performStore
  simp only [act, only, pad.loc, batch_of_one one, mark_of_one one, sends v _ landed]
  obtain ⟨tags, written, rfl⟩ := landed
  rfl

/-- Settles O41: a store of one part puts its bytes into its sector, or its pool, and nothing else. -/
theorem storePerformed : Obligations.StorePerformed := by
  intro s w id o p one act stores e he
  obtain ⟨kind, part, fits, which, runs⟩ := event_runs (s := s) (o := o) (event := fun part => .storeAccepted w.core w.slot id part)
    (kind := fun o => !o.ld && !o.isAtomic) (by simp [stores, MemOp.isAtomic, act]) (fun _ => rfl) he
  have none_come : o.brings 0 = [] := by simp [MemOp.brings, act]
  refine ⟨fun a home => ?_, fun c off pad => ?_⟩
  · obtain ⟨u, x, t, v, ⟨bytes, vregs, sregs⟩, left, hv, gone, vregs', sregs', stand, mem, -⟩ := event_of_one (P := fun u x =>
        u.mem.bytes = cellSetMany 0 s.mem.bytes (a / 32 * 32) (s.keepRecords (a / 32 * 32)
          (patch (s.readMem (a / 32 * 32) 32) (a % 32) (bytesOf p.size p.val.toNat))) ∧ x.vregs = w.vregs ∧ x.sregs = w.sregs)
      one fits which (.inr none_come) (fun v landed => by
        obtain ⟨u, performs, cores, bytes⟩ := performStore_atHome one act home landed
        obtain ⟨tags, written, rfl⟩ := landed
        exact ⟨u, _, performs, by rw [cores], ⟨bytes, rfl, rfl⟩, rfl, rfl, rfl, rfl⟩)
    rw [← mem] at bytes
    obtain ⟨-, inside⟩ := part_fits one.size home.aligned
    obtain ⟨here, out⟩ := stored_patch (by simpa using inside) bytes
    rw [bytesOf_length, show a / 32 * 32 + a % 32 = a by omega] at here out
    refine ⟨t, v, by rw [runs, left], hv, gone, fun n hn => (here n hn).trans ?_, out, vregs'.trans vregs, sregs'.trans sregs, stand⟩
    rw [getD_bytesOf_val p.val hn]
  · obtain ⟨u, x, t, v, ⟨bytes, pads, vregs, sregs⟩, left, hv, gone, vregs', sregs', stand, mem, ctxs⟩ := event_of_one (P := fun u x =>
        u.mem.bytes = s.mem.bytes ∧ (∀ q k m, padByte u q k m = if (q = w.launch ∧ k = c) ∧ off ≤ m ∧ m < off + p.size then
          (bytesOf p.size p.val.toNat).getD (m - off) 0 else padByte s q k m) ∧ x.vregs = w.vregs ∧ x.sregs = w.sregs)
      one fits which (.inr none_come) (fun v landed => by
        obtain ⟨u, performs, cores, bytes⟩ := performStore_atPad one act pad landed
        have there : (u.ctx? w.launch c).isSome = true := by
          rw [State.ctx?, cores]
          exact pad.there
        refine ⟨_, v, performs, show u.cores.waves = s.cores.waves by rw [cores], ⟨bytes, fun q k m => ?_, ?_, ?_⟩, rfl, rfl, rfl, rfl⟩
        · rw [padByte_writePad there, bytesOf_length, padByte_congr (congrArg Cores.ctxs cores)]
        all_goals
          obtain ⟨tags, written, rfl⟩ := landed
          rfl)
    have reads : ∀ q k m, padByte t q k m = _ := fun q k m => (padByte_congr ctxs q k m).trans (pads q k m)
    refine ⟨t, v, by rw [runs, left], hv, gone, fun n hn => ?_, fun q k m out => ?_, by rw [mem, bytes], vregs'.trans vregs, sregs'.trans sregs, stand⟩
    · rw [reads, if_pos ⟨⟨rfl, rfl⟩, by omega, by omega⟩, Nat.add_sub_cancel_left, getD_bytesOf_val p.val hn]
    · rw [reads, if_neg (fun h => out ⟨h.1.1, h.1.2, h.2.1, h.2.2⟩)]

end

end Sys2Proof.Machine

/-! Loads performed (spec/13 R227, R230, R236; spec/15 R249; spec/19 R301, R303): the bytes at a part's place brought to its lane's register. -/
namespace Sys2Proof.Machine
open Sys2Proof.Safety

/-- What a strong read's tags do in a wave: flags and the releases met change, and nothing else (R301, R303). -/
theorem readTags_eq (w : Wave) (now : Nat) (o : MemOp) (tags : List WTag) : ∃ met f m at_ hf hm, w.readTags now o tags =
    { w with relTags := met, fstat := f, mstat := m, hwAt := at_, hwF := hf, hwM := hm } := by
  unfold Wave.readTags
  split
  · exact ⟨_, _, _, _, _, _, rfl⟩
  · unfold Wave.hwSticky
    dsimp only
    split_ifs <;> exact ⟨_, _, _, _, _, _, rfl⟩

section
variable {s : State} {w : Wave} {id : Nat} {o : MemOp} {p : Part} {e : Instr}

/-- A load's batch of one part bound: its value stands in its lane's register. -/
theorem bindLoad_of_one (one : OnePart s w id o p) (lands : Lands w o) {v : Wave} (landed : Landed w v) (u : State) (tags : List WTag) (base : Nat)
    (l : List Byte) : u.bindLoad (v.readTags s.ctl.cycle o tags) o [0] base l =
      u.tickFresh.setWave (((v.readTags s.ctl.cycle o tags).setVreg o.reg p.lane (p.cut base l)).settles o p) := by
  obtain ⟨held, -, kept⟩ := lands
  obtain ⟨only, -⟩ := part_of_one one
  have value : u.landReg (v.readTags s.ctl.cycle o tags) o.id (o.reg + p.k) p.lane (p.cut base l) =
      (v.readTags s.ctl.cycle o tags).setVreg o.reg p.lane (p.cut base l) := by
    rw [one.lane.1]
    refine landReg_lands _ _ ?_ ?_
    all_goals
      obtain ⟨_, _, _, _, _, _, same⟩ := readTags_eq v s.ctl.cycle o tags
      obtain ⟨_, _, rfl⟩ := landed
      rw [same]
    · exact held
    · exact kept
  unfold State.bindLoad
  rw [List.foldl_cons, List.foldl_nil, only, value, mark_of_one one]
  rfl

/-- The step of an operation of one part binds `value` to it, and changes no core's holdings and no byte of memory. -/
def Binds (s : State) (w : Wave) (o : MemOp) (p : Part) (value : Word) : Prop :=
  ∀ v, Landed w v → ∃ (u : State) (tags : List WTag) (base : Nat) (l : List Byte),
    s.performPart v o 0 false = u.bindLoad (v.readTags s.ctl.cycle o tags) o [0] base l ∧ p.cut base l = value ∧ u.cores = s.cores ∧
      u.mem.bytes = s.mem.bytes

/-- A load of one part that binds `value`: it stands in the register, and no memory and no pool changes. -/
theorem load_performed {value : Word} (one : OnePart s w id o p) (act : o.act = .load) (loads : o.ld = true) (lands : Lands w o)
    (he : e ∈ [Instr.loadComplete w.core w.slot id none false, .loadComplete w.core w.slot id (some 0) false, .sliceRetry w.core w.slot id])
    (binds : Binds s w o p value) :
    ∃ t v, exec e s = .next t ∧ t.wave? w.core w.slot = some v ∧ v.vreg o.reg p.lane = value ∧ v.op? id = none ∧
      VecKept w v (fun r i => r = o.reg ∧ i = p.lane) ∧ v.sregs = w.sregs ∧ v.lanes = w.lanes ∧ t.mem.bytes = s.mem.bytes ∧
      t.cores.ctxs = s.cores.ctxs := by
  obtain ⟨kind, part, fits, which, runs⟩ := event_runs (s := s) (o := o) (event := fun part => .loadComplete w.core w.slot id part false)
    (kind := fun o => o.ld && !o.isAtomic) (by simp [loads, MemOp.isAtomic, act]) (fun _ => rfl) he
  obtain ⟨u, x, t, v, ⟨vregs, sregs, bytes, ctxs⟩, left, hv, gone, vregs', sregs', stand, mem, ctxs'⟩ := event_of_one
    (P := fun u x => x.vregs = (w.setVreg o.reg p.lane value).vregs ∧ x.sregs = w.sregs ∧ u.mem.bytes = s.mem.bytes ∧
      u.cores.ctxs = s.cores.ctxs) one fits which (.inl lands.2.1) (fun v landed => by
    obtain ⟨u, tags, base, l, performs, cut, cores, bytes⟩ := binds v landed
    have bound := performs.trans (bindLoad_of_one one lands landed u tags base l)
    obtain ⟨_, _, _, _, _, _, same⟩ := readTags_eq v s.ctl.cycle o tags
    obtain ⟨_, _, rfl⟩ := landed
    rw [same, cut] at bound
    exact ⟨_, _, bound, show u.cores.waves = s.cores.waves by rw [cores], ⟨rfl, rfl, bytes, show u.cores.ctxs = s.cores.ctxs by rw [cores]⟩,
      rfl, rfl, rfl, rfl⟩)
  have reads : ∀ r, ∀ i < 32, v.vreg r i = if r = o.reg ∧ i = p.lane then value else w.vreg r i := fun r i hi => by
    rw [← Wave.vreg_setVreg w r i value one.lane.2 hi]
    unfold Wave.vreg
    rw [vregs', vregs]
  refine ⟨t, v, by rw [runs, left], hv, (reads _ _ one.lane.2).trans (if_pos ⟨rfl, rfl⟩), gone, fun r i hi other => ?_, sregs'.trans sregs, stand,
    by rw [mem, bytes], ctxs'.trans ctxs⟩
  exact (reads r i hi).trans (if_neg other)

/-- A load of one part at its home binds the bytes of its sector. -/
theorem binds_atHome {a : Nat} (one : OnePart s w id o p) (act : o.act = .load) (home : AtHome s w o p a) :
    Binds s w o p (BitVec.ofNat 64 (natOfBytes (s.readMem a p.size))) := by
  rintro _ ⟨tags, written, rfl⟩
  obtain ⟨only, -⟩ := part_of_one one
  obtain ⟨-, inside⟩ := part_fits one.size home.aligned
  obtain ⟨s1, ⟨net, slice, again, rfl⟩, owner, accepted⟩ := accepted_atHome home
  obtain ⟨s2, done, cached⟩ := homeDo_read (s := { s with mem := { s.mem with netTok := net, sliceTok := slice, retries := again } })
    (core := w.core) (tenant := w.tenant) (evict := o.evict) (ma := a / 32 * 32) (n := 32) (tags := []) owner
  obtain ⟨-, cores, -, -, bytes⟩ := cached.kept
  have met := (homeAccess_of_accepted (evict := o.evict) (n := 32) (tags := []) (new := fun _ => none) owner accepted).trans done
  obtain ⟨cores', bytes'⟩ := ((l1Only_acquireOf s2 { w with tags := tags, written := written } o).trans
    (l1Only_l1Fill _ w.core a (if o.scope ≤ 1 then o.evict else 3))).kept
  have plain : s.slotFor { w with tags := tags, written := written } p.attr = none := by simp [State.slotFor, home.plain]
  have missed : s.l1Serves { w with tags := tags, written := written } o p false = none := by simp [State.l1Serves, home.loc]
  refine ⟨_, o.tagsBy [0] s.tagsAt, a / 32 * 32, s.readMem (a / 32 * 32) 32, ?_, ?_, cores'.trans cores, bytes'.trans bytes⟩
  · unfold State.performPart State.performLoad
    simp only [act, only, home.loc, batch_of_one one, plain, missed]
    rw [show ({ w with tags := tags, written := written } : Wave).asker o 0 = w.asker o 0 from rfl, met]
    rfl
  · have sector : ((s.readMem (a / 32 * 32) 32).drop (a - a / 32 * 32)).take p.size = s.readMem (a / 32 * 32 + (a - a / 32 * 32)) p.size :=
      cellGetMany_cut 0 s.mem.bytes _ (by omega)
    unfold Part.cut
    rw [home.loc, Loc.addr, sector, show a / 32 * 32 + (a - a / 32 * 32) = a by omega]

/-- A load of one part at a pool binds the bytes of its word there. -/
theorem binds_atPad {c off : Nat} (one : OnePart s w id o p) (act : o.act = .load) (pad : AtPad s w p c off) :
    Binds s w o p (BitVec.ofNat 64 (natOfBytes (s.readPad w.launch c off p.size))) := by
  intro v landed
  obtain ⟨only, -⟩ := part_of_one one
  obtain ⟨inside, -⟩ := part_fits one.size pad.aligned
  obtain ⟨s1, ⟨net, slice, again, rfl⟩, sends⟩ := sends_atPad pad
  obtain ⟨cores, bytes⟩ := (l1Only_acquireOf { s with mem := { s.mem with netTok := net, sliceTok := slice, retries := again } } v o).kept
  refine ⟨_, o.tagsBy [0] (s.padTagsAt w.launch c), off / 8 * 8, s.readPad w.launch c (off / 8 * 8) 8, ?_, ?_, cores, bytes⟩
  · unfold State.performPart State.performLoad
    simp only [act, only, pad.loc, batch_of_one one, sends v _ landed]
    obtain ⟨_, _, rfl⟩ := landed
    rfl
  · have word : ((s.readPad w.launch c (off / 8 * 8) 8).drop (off - off / 8 * 8)).take p.size =
        s.readPad w.launch c (off / 8 * 8 + (off - off / 8 * 8)) p.size := cellGetMany_cut 0 (s.ctx w.launch c).pad _ (by omega)
    unfold Part.cut
    rw [pad.loc, Loc.addr, word, show off / 8 * 8 + (off - off / 8 * 8) = off by omega]

end

/-- Settles O40: a load of one part binds the bytes at its home, or in its pool, to its lane's register. -/
theorem loadPerformed : Obligations.LoadPerformed := by
  intro s w id o p one act loads lands e he
  refine ⟨fun a home => ?_, fun c off pad => ?_⟩
  · obtain ⟨t, v, runs, hv, value, gone, vec, sregs, stand, bytes, -⟩ := load_performed one act loads lands he (binds_atHome one act home)
    exact ⟨t, v, runs, hv, value, gone, vec, sregs, stand, bytes⟩
  · obtain ⟨t, v, runs, hv, value, gone, vec, -, -, bytes, ctxs⟩ := load_performed one act loads lands he (binds_atPad one act pad)
    exact ⟨t, v, runs, hv, value, gone, vec, bytes, padByte_congr ctxs⟩

end Sys2Proof.Machine

/-! Atomics performed (spec/13 R236; spec/15 R262; spec/19 R316, R317): the bytes that an atomic leaves at its home, and the old value in its lane's
register. -/
namespace Sys2Proof.Machine
open Sys2Proof.Safety

section
variable {s : State} {w : Wave} {id : Nat} {o : MemOp} {p : Part} {op : AOp} {wd : AWid}

theorem l1Only_l1Drop (s : State) (core ma : Nat) : L1Only s (s.l1Drop core ma) := by
  unfold State.l1Drop
  split
  · exact .refl s
  · exact ⟨_, rfl⟩

/-- The wave as an atomic's tags and, where it brings one, its old value leave it. -/
def Wave.takesOld (v : Wave) (now : Nat) (o : MemOp) (tags : List WTag) (ret : Bool) (lane : Nat) (old : Word) : Wave :=
  if ret then (v.readTags now o tags).setVreg o.reg lane old else v.readTags now o tags

theorem takesOld_eq (v : Wave) (now : Nat) (o : MemOp) (tags : List WTag) (ret : Bool) (lane : Nat) (old : Word) : ∃ met f m at_ hf hm,
    v.takesOld now o tags ret lane old = { v with
      vregs := if ret then (v.setVreg o.reg lane old).vregs else v.vregs, relTags := met, fstat := f, mstat := m, hwAt := at_, hwF := hf, hwM := hm } := by
  obtain ⟨met, f, m, at_, hf, hm, same⟩ := readTags_eq v now o tags
  refine ⟨met, f, m, at_, hf, hm, ?_⟩
  unfold Wave.takesOld
  rw [same]
  cases ret <;> rfl

/-- The bytes that an atomic function makes of the old ones (R316). -/
def Part.atomBytes (p : Part) (op : AOp) (wd : AWid) (old : List Byte) : List Byte :=
  bytesOf wd.bytes (atomNew op wd (natOfBytes old) p.val.toNat p.cmp.toNat)

/-- An atomic of one part at its home: its bytes are replaced, and its register takes the old value where it returns one. -/
theorem performAtom_atHome {a : Nat} (one : OnePart s w id o p) (lands : Lands w o) (home : AtHome s w o p a) (ret : Bool) {v : Wave}
    (landed : Landed w v) : ∃ (u : State) (tags : List WTag), s.performAtom v o 0 op wd ret =
      u.setWave ((v.takesOld s.ctl.cycle o tags ret p.lane (BitVec.ofNat 64 (natOfBytes (s.readMem a wd.bytes)))).settles o p) ∧
      u.cores = s.cores ∧
      u.mem.bytes = cellSetMany 0 s.mem.bytes a (s.keepRecords a (p.atomBytes op wd (s.readMem a wd.bytes))) := by
  obtain ⟨held, -, kept⟩ := lands
  obtain ⟨only, -⟩ := part_of_one one
  obtain ⟨s1, tokens, -, accepted⟩ := accepted_atHome home
  rw [Nat.div_mul_cancel (Nat.dvd_mul_left 32 (a / 32))] at accepted
  obtain ⟨net, slice, again, rfl⟩ := tokens
  obtain ⟨m, done, bytes⟩ := homeDo_write (s := { s with mem := { s.mem with netTok := net, sliceTok := slice, retries := again } })
    (core := w.core) (tenant := w.tenant) (evict := o.evict) (ma := a) (n := wd.bytes) (tags := [(a, wd.bytes, o.tag v)])
    (new := fun l => some (p.atomBytes op wd l)) home.owner rfl
  have met := (homeAccess_of_accepted (evict := o.evict) (n := wd.bytes) (tags := [(a, wd.bytes, o.tag v)])
    (new := fun l => some (p.atomBytes op wd l)) home.owner accepted).trans done
  have marked : o.mark (fun j _ => j == 0) = o.settled p := by
    unfold MemOp.mark MemOp.settled
    simp [one.parts]
  have takes : (if ret then s.landReg (v.readTags s.ctl.cycle o (s.tagsAt a wd.bytes)) o.id o.reg p.lane
      (BitVec.ofNat 64 (natOfBytes (s.readMem a wd.bytes))) else v.readTags s.ctl.cycle o (s.tagsAt a wd.bytes)) =
      v.takesOld s.ctl.cycle o (s.tagsAt a wd.bytes) ret p.lane (BitVec.ofNat 64 (natOfBytes (s.readMem a wd.bytes))) := by
    unfold Wave.takesOld
    congr 1
    refine landReg_lands _ _ ?_ ?_
    all_goals
      obtain ⟨_, _, _, _, _, _, same⟩ := readTags_eq v s.ctl.cycle o (s.tagsAt a wd.bytes)
      obtain ⟨_, _, rfl⟩ := landed
      rw [same]
    · exact held
    · exact kept
  obtain ⟨cores, stand⟩ := ((l1Only_l1Drop { s with mem := m } w.core a).trans (l1Only_acquireOf _ v o)).kept
  obtain ⟨tags, written, rfl⟩ := landed
  refine ⟨_, s.tagsAt a wd.bytes, ?_, show (State.tickFresh _).cores = s.cores from cores,
    show (State.tickFresh _).mem.bytes = _ from stand.trans bytes⟩
  unfold State.performAtom
  simp only [only, home.loc, marked]
  rw [show ({ w with tags := tags, written := written } : Wave).asker o 0 = w.asker o 0 from rfl]
  have met : s.homeAccess w.core w.tenant (w.asker o 0) none o.evict a wd.bytes
      [(a, wd.bytes, o.tag ({ w with tags := tags, written := written } : Wave))]
      (fun l => some (bytesOf wd.bytes (atomNew op wd (natOfBytes l) p.val.toNat p.cmp.toNat))) =
      .done { s with mem := m } (s.readMem a wd.bytes) := met
  simp only [met]
  rw [← takes]
  rfl

/-- Settles O42: an atomic of one part replaces its bytes by what it makes of them, and its register takes the old value. -/
theorem atomicPerformed : Obligations.AtomicPerformed := by
  intro s w id o p op wd a one act size lands home e he
  obtain ⟨ret, performs⟩ : ∃ ret : Bool, (∀ v, s.performPart v o 0 false = s.performAtom v o 0 op wd ret) ∧
      (o.act = .atom op wd → ret = true) ∧ (o.act = .red op wd → ret = false) := by
    rcases act with act | act
    · exact ⟨true, fun v => by unfold State.performPart; rw [act], by simp, by simp [act]⟩
    · exact ⟨false, fun v => by unfold State.performPart; rw [act], by simp [act], by simp⟩
  obtain ⟨performs, atoms, reds⟩ := performs
  have fits : o.isAtomic = true := by rcases act with act | act <;> simp [MemOp.isAtomic, act]
  obtain ⟨kind, part, fits, which, runs⟩ := event_runs (s := s) (o := o) (event := fun part => .atomicPerformed w.core w.slot id part)
    (kind := MemOp.isAtomic) fits (fun _ => rfl) he
  obtain ⟨u, x, t, v, ⟨bytes, vregs, sregs⟩, left, hv, gone, vregs', sregs', stand, mem, -⟩ := event_of_one (P := fun u x =>
      u.mem.bytes = cellSetMany 0 s.mem.bytes a (s.keepRecords a (p.atomBytes op wd (s.readMem a wd.bytes))) ∧
      x.vregs = (if ret then (w.setVreg o.reg p.lane (BitVec.ofNat 64 (natOfBytes (s.readMem a wd.bytes)))).vregs else w.vregs) ∧ x.sregs = w.sregs)
    one fits which (.inl lands.2.1) (fun v landed => by
      obtain ⟨u, tags, does, cores, bytes⟩ := performAtom_atHome (op := op) (wd := wd) one lands home ret landed
      obtain ⟨_, _, _, _, _, _, same⟩ := takesOld_eq v s.ctl.cycle o tags ret p.lane (BitVec.ofNat 64 (natOfBytes (s.readMem a wd.bytes)))
      obtain ⟨_, _, rfl⟩ := landed
      rw [same] at does
      exact ⟨u, _, (performs _).trans does, by rw [cores], ⟨bytes, rfl, rfl⟩, rfl, rfl, rfl, rfl⟩)
  rw [← mem] at bytes
  have length : (p.atomBytes op wd (s.readMem a wd.bytes)).length = wd.bytes := bytesOf_length ..
  obtain ⟨here, out⟩ := stored_getD bytes 0
  rw [length] at here out
  refine ⟨t, v, by rw [runs, left], hv, gone, fun n hn => (here n hn).trans ?_, out, fun atom => ?_, fun red => ?_, sregs'.trans sregs, stand⟩
  · rw [Part.atomBytes, getD_bytesOf _ _ hn]
    simp [storedByte, placeByte]
  · have reads : ∀ r, ∀ i < 32, v.vreg r i =
        if r = o.reg ∧ i = p.lane then BitVec.ofNat 64 (natOfBytes (s.readMem a wd.bytes)) else w.vreg r i := fun r i hi => by
      rw [← Wave.vreg_setVreg w r i _ one.lane.2 hi]
      unfold Wave.vreg
      rw [vregs', vregs, atoms atom]
      rfl
    exact ⟨(reads _ _ one.lane.2).trans (if_pos ⟨rfl, rfl⟩), fun r i hi other => (reads r i hi).trans (if_neg other)⟩
  · rw [vregs', vregs, reds red]
    rfl

end

end Sys2Proof.Machine

/-! Traps taken (spec/21 R336, R338, R341): the lanes trapped, what the trap registers say of them, and where the handler starts or how the launch
ends. -/
namespace Sys2Proof.Machine
open Sys2Proof.Safety

section
variable {s : State} {w : Wave} {core slot : Nat}

theorem exec_trapTaken (here : s.wave? core slot = some w) (due : s.trapDue w = true) (passed : s.passBar w = s) :
    exec (.trapTaken core slot) s = .next (s.takeTrap w) := by
  show execTrapTaken core slot s = _
  unfold execTrapTaken
  simp only [here, passed, due, if_true]

theorem parkedLanes_of_trapDue (due : s.trapDue w = true) : w.parkedLanes ≠ [] := by
  unfold State.trapDue Wave.trapWaits at due
  intro none
  simp [none] at due

/-- The trap's mask has the trapped lanes. -/
theorem trmask_writeTrap {i0 j : Nat} (hj : j < 32)
    (trapped : j ∈ w.trapSet ↔ j < 32 ∧ w.isParked j = true ∧ (w.lane j).pc = (w.lane i0).pc ∧ w.parkCause j = w.parkCause i0) :
    (w.writeTrap w.trapSet).trmask.getLsbD j = (w.isParked j && (w.lane j).pc == (w.lane i0).pc && w.parkCause j == w.parkCause i0) := by
  refine (maskOf_bit _ hj).trans ?_
  rw [Bool.eq_iff_iff]
  simpa [hj, and_assoc] using trapped

/-- A trap without a handler, or for INTEG, ends the launch; the wave has the trap in its registers. -/
theorem takeTrap_ends (ends : (s.launch w.launch).handler = 0 ∨ (w.writeTrap w.trapSet).trcause.toNat = cINTEG) : s.takeTrap w =
    (s.setWave (w.writeTrap w.trapSet)).trapped w.launch (w.writeTrap w.trapSet).trpc (w.writeTrap w.trapSet).trcause.toNat := by
  unfold State.takeTrap
  exact if_pos ends

/-- Any other trap starts the handler in the lowest trapped lane. -/
theorem takeTrap_handles (handles : ¬((s.launch w.launch).handler = 0 ∨ (w.writeTrap w.trapSet).trcause.toNat = cINTEG)) : s.takeTrap w =
    (s.dropLatch w.core w.slot (fun _ => true)).setWave { s.unstall (w.writeTrap w.trapSet) with
      mode := 1, nextIssue := s.ctl.cycle,
      hnd := some ⟨BitVec.ofNat 48 (s.launch w.launch).handler, w.mode, w.trapSet.headD 0, (w.writeTrap w.trapSet).trmask, false, none⟩ } := by
  unfold State.takeTrap
  exact if_neg handles

/-- DETAIL of a trap is that of its registers (Table 5-2). -/
theorem trapDetail_byte (pc : CodeAddr) (cause : BitVec 8) : trapDetail pc cause.toNat = BitVec.ofNat 64 (pc.toNat * 256 + cause.toNat) := by
  unfold trapDetail
  rw [Nat.mod_eq_of_lt cause.isLt]

end

/-- Settles O29: `trapSet_spec` says which lanes a trap takes, and by `takeTrap_ends` and `takeTrap_handles` it ends the launch or starts the
handler. -/
theorem trapTaking : Obligations.TrapTaking := by
  intro core slot s w here due passed
  obtain ⟨rfl, rfl⟩ := State.wave?_core here
  obtain ⟨i0, head, lt, parked, least, lowest, trapped⟩ := trapSet_spec (parkedLanes_of_trapDue due)
  have first : w.trapSet.headD 0 = i0 := by rw [List.headD_eq_head?_getD, head]; rfl
  have cause : (w.writeTrap w.trapSet).trcause = BitVec.ofNat 8 (w.parkCause i0) := by rw [← first]; rfl
  have pc : (w.writeTrap w.trapSet).trpc = (w.lane i0).pc := by rw [← first]; rfl
  have addr : (w.writeTrap w.trapSet).traddr = w.parkAddr i0 := by rw [← first]; rfl
  have mask := fun j (hj : j < 32) => trmask_writeTrap hj (trapped j)
  by_cases ends : (s.launch w.launch).handler = 0 ∨ (w.writeTrap w.trapSet).trcause.toNat = cINTEG
  · obtain ⟨l, taken⟩ := endLaunch_launches (s.setWave (w.writeTrap w.trapSet)) w.launch
      ⟨2, 0, trapDetail (w.writeTrap w.trapSet).trpc (w.writeTrap w.trapSet).trcause.toNat⟩
    refine ⟨_, w.writeTrap w.trapSet, i0, (exec_trapTaken here due passed).trans (congrArg _ (takeTrap_ends ends)), ?_, lt, parked, least, lowest,
      pc, cause, addr, mask, rfl, rfl, rfl, ⟨rfl, rfl⟩, ⟨rfl, rfl⟩, rfl, ?_⟩
    · rw [State.trapped, taken]
      exact State.wave?_setWave_self here rfl rfl
    rw [if_pos ends, State.trapped]
    refine ⟨by rw [taken]; rfl, by rw [taken]; rfl, by rw [taken]; rfl, fun a b other => ?_, rfl, rfl, fun known going => ?_⟩
    · rw [taken]
      exact State.wave?_setWave_other s (w.writeTrap w.trapSet) (fun same => other ⟨same.1.symm, same.2.symm⟩)
    · rw [trapDetail_byte, endLaunch_launch (s := s.setWave _) known going]
  · obtain ⟨q, dropped⟩ := dropLatch_eq s w.core w.slot (fun _ => true)
    have here' : (s.dropLatch w.core w.slot (fun _ => true)).wave? w.core w.slot = some w := by rw [dropped]; exact here
    refine ⟨_, _, i0, (exec_trapTaken here due passed).trans (congrArg _ (takeTrap_handles ends)), State.wave?_setWave_self here' rfl rfl, lt, parked,
      least, lowest, pc, cause, addr, mask, rfl, rfl, rfl, ⟨rfl, rfl⟩, ⟨rfl, rfl⟩, rfl, by rw [dropped]; rfl, by rw [dropped]; rfl,
      by rw [dropped]; rfl, fun a b other => ?_, ?_⟩
    · refine (State.wave?_setWave_other _ _ (fun same => other ⟨by exact same.1.symm, by exact same.2.symm⟩)).trans ?_
      rw [dropped]
      rfl
    · refine (if_neg ends).mpr ⟨rfl, ?_, by rw [dropped]; rfl⟩
      rw [first]
      rfl

end Sys2Proof.Machine

/-! Words of a handler (spec/21 R338 to R340): each executes once for the handler lane; RTE leaves the handler, a scalar word goes on in it, and a word
that it may not issue ends the launch. -/
namespace Sys2Proof.Machine
open Sys2Proof.Safety

/-! ### The end of a word of the handler -/

/-- The wave of a word of the handler that is over, before HANGCNT counts it: `x` but for pending results, tags, the hold of the handler's own word and
the notes of R139, R154 and R168. -/
def HStamped (x v : Wave) : Prop :=
  ∃ pd tg wr pf ni li, v = { x with
    pend := pd, tags := tg, written := wr, hnd := x.hnd.map (fun h => { h with held := none }), pinned := [],
    perf := pf, nextIssue := ni, lastIssue := li }

/-- The end of a word of the handler, with nothing pending among what it names, up to the end of its wave. -/
theorem finish_handler {c : Ctl} {u : Use} {s : State} {old w0 : Wave} {h : Handler} {pc : CodeAddr} {active lanes : List Nat} {r : Done}
    (hw : s.wave? old.core old.slot = some w0) (own : old.hnd = some h) (settled : s.pendOf old u true = []) :
    ∃ s1 w3 yld extra, QuadsOnly s s1 ∧ HStamped (w0.handlerNext h r) w3 ∧ finish c u s old pc active lanes r =
      ((s1.bookHang w3 r.newCount).bookQuad w3 yld extra).endWave old.core old.slot := by
  unfold finish
  simp only [hw, own, settled, if_true]
  generalize hb : s.bookWrites old w0 u _ _ = w1
  obtain ⟨pd, tg, wr, rfl⟩ := hb ▸ bookWrites_spec w0 _ _ settled
  refine ⟨_, _, _, _, ?_, ?_, rfl⟩
  · split
    · exact ⟨s.cores.quads, rfl⟩
    · exact bookLatch_cases s old u
  · simp only [Wave.released, own]
    exact ⟨_, _, _, _, _, _, rfl⟩

/-- A host event changes tenants and SEQ at most (R80, R81, R83). -/
theorem hostEvent_eq (s : State) (t kind : Nat) (d : Word) :
    ∃ l q, s.hostEvent t kind d = { s with ctl := { s.ctl with seq := q }, tasks := { s.tasks with tenants := l } } := by
  cases claimed : s.dev.claimHost.getLsbD kind with
  | false => exact ⟨s.tasks.tenants, s.ctl.seq, hostEvent_masked claimed⟩
  | true =>
    obtain ⟨b, told⟩ := hostEvent_claimed (t := t) (d := d) claimed
    exact ⟨_, _, told⟩

/-- What HANGCNT makes of a launch: its flag of R143 at most. -/
theorem launch_bookHang {s : State} {w : Wave} (k : Option Nat) (known : Known s w.launch) :
    ∃ b, (s.bookHang w k).launch w.launch = { s.launch w.launch with hang := b } := by
  unfold State.bookHang
  dsimp only
  split
  · exact ⟨_, rfl⟩
  · split_ifs
    · exact ⟨_, rfl⟩
    · exact ⟨_, rfl⟩
    · exact ⟨true, launch_setLaunch_of known rfl (launch_uid known)⟩

section
variable {c : Ctl} {u : Use} {s : State} {w : Wave} {h : Handler}

/-! ### A word of the handler runs -/

theorem hclear_wave (hc : HClear c u s w h) : s.wave? w.core w.slot = some w := by
  obtain ⟨core, slot⟩ := State.wave?_core hc.here
  rw [core, slot]
  exact hc.here

/-- What a word of the handler finds. -/
def hclearEx (c : Ctl) (u : Use) (s : State) (w : Wave) (h : Handler) : Ex := ⟨s, s.view w (u.guarded c), h.pc, [h.lane], [h.lane], true⟩

/-- A word of the handler that meets no obstacle reads the wave as it stands, but for the latch, which holds what the registers hold. -/
theorem hclear_view (hc : HClear c u s w h) :
    ∃ m, s.view w (u.guarded c) = { w with vregs := m } ∧ ∀ q, ∀ i < 32, (s.view w (u.guarded c)).vreg q i = w.vreg q i := by
  have seen : s.view w (u.guarded c) = s.seeLatch w (u.guarded c) :=
    view_settled (pendOf_sub hc.settled (fun _ hp => names_read hp)) (by rw [(guarded_fields u c).1]; exact hc.kept.1)
  obtain ⟨m, hm⟩ := seeLatch_eq s w (u.guarded c)
  exact ⟨m, by rw [seen, hm], by rw [seen]; exact seeLatch_vreg _ hc.latch⟩

theorem reads_hclearEx (hc : HClear c u s w h) : Reads (hclearEx c u s w h) s w [h.lane] := by
  obtain ⟨m, view, vreg⟩ := hclear_view hc
  have same : (hclearEx c u s w h).w = { w with vregs := m } := view
  refine ⟨rfl, ?_, rfl, by rw [same], vreg, fun o k hk => ?_, fun r => ?_, fun p k => ?_⟩
  · unfold Ex.wave
    rw [same]
    exact congrArg (fun x : Option Wave => x.getD _) (hclear_wave hc)
  · cases o with
    | v r => exact vreg r k hk
    | s r =>
      show (hclearEx c u s w h).w.sreg r = _
      rw [same]
      rfl
  · unfold Ex.sc
    rw [same]
    rfl
  · rw [same]
    rfl

/-- A word of the handler that meets no obstacle runs its effect; what comes then depends on whether it faults, and whether the handler may issue it. -/
theorem word_hclear {body : Ex → Out} {s1 : State} {r : Done} (hc : HClear c u s w h) (faults : r.faults = [])
    (hb : body (hclearEx c u s w h) = .done s1 r) :
    word c u body s = .next (if u.hok then finish c (u.guarded c) s1 w h.pc [h.lane] [h.lane] r else nestedFault s s1 w h cILLEGAL) := by
  obtain ⟨vr, vw, touch, -, q, mode, roles, impure, illegal, badBank, -, -, -, -, named⟩ := guarded_fields u c
  have runs : (if u.q then w.qguard c.ga && w.qguard c.gb else w.guardAt c.ga h.lane && w.guardAt c.gb h.lane) = true := by
    have holds := hc.runs
    split at holds <;> simp_all
  have straight : s.strayFetch (s.launch w.launch) h.pc = false := by simp [State.strayFetch, hc.pure]
  have tried : attempt (u.guarded c) body s w h.pc [h.lane] [h.lane] true = .out (.done s1 r) w [h.lane] := by
    rw [attempt_clear hc.hang (by simp) straight (by rw [illegal, badBank]; exact hc.legal) (by rw [mode]; exact hc.mode)
      (by rw [roles]; exact hc.role) (outOfBlock_none (by rw [vr, vw, touch, named]; exact hc.block)) hc.settled (by rw [vr]; exact hc.kept.1)
      hc.kept.2 (.inl hc.pure), show body ⟨s, _, _, _, _, _⟩ = _ from hb]
  unfold word handlerWord
  simp only [hc.here, hc.own, hc.free, Bool.false_eq_true, if_false, view_guards hc.settled, runs, if_true, fetched_of_not_pure hc.pure, tried, faults,
    List.head?_nil]

/-- A word that the handler may issue is over: its wave as the effect left it, the handler at its next word, and the booking. -/
theorem hword_over {body : Ex → Out} {s1 : State} {w1 : Wave} {r : Done} (hc : HClear c u s w h) (may : u.hok = true) (faults : r.faults = [])
    (hb : body (hclearEx c u s w h) = .done s1 r) (here : s1.wave? w.core w.slot = some w1) (cycle : s1.ctl.cycle = s.ctl.cycle)
    (live : w1.allExited = false) :
    ∃ s2 w3 yld extra hc ha t, QuadsOnly s1 s2 ∧ HStamped (w1.handlerNext h r) w3 ∧ word c u body s = .next t ∧
      t = (s2.bookHang w3 r.newCount).bookQuad w3 yld extra ∧ t.wave? w.core w.slot = some { w3 with hangcnt := hc, hangArmed := ha } ∧
      BookKept ((s1.tenant w3.tenant).hanglim = 0 ∨ w3.hangcnt + 1 ≤ (s1.tenant w3.tenant).hanglim) s1 t w.core w.slot := by
  have settled : s1.pendOf w (u.guarded c) true = [] := by rw [pendOf_congr w _ true cycle]; exact hc.settled
  obtain ⟨s2, w3, yld, extra, ⟨q, rfl⟩, stamped, e⟩ := finish_handler (c := c) (pc := h.pc) (active := [h.lane]) (lanes := [h.lane]) (r := r)
    here hc.own settled
  obtain ⟨core, slot⟩ := State.wave?_core here
  obtain ⟨spot, stays⟩ : (w3.core = w.core ∧ w3.slot = w.slot) ∧ w3.allExited = false := by
    obtain ⟨_, _, _, _, _, _, rfl⟩ := stamped
    exact ⟨⟨core, slot⟩, live⟩
  obtain ⟨core, slot⟩ := spot
  rw [← core, ← slot] at here e ⊢
  have found : State.wave? { s1 with cores := { s1.cores with quads := q } } w3.core w3.slot = some w1 := here
  obtain ⟨⟨hc', ha, counted⟩, kept⟩ := bookHang_spec r.newCount found
  refine ⟨_, w3, yld, extra, hc', ha, _, ⟨q, rfl⟩, stamped, ?_, rfl, counted,
    bookKept_trans (bookKept_trans ?_ kept) (bookKept_setQuad _ _ _ _ _ _ _)⟩
  · rw [word_hclear hc faults hb, if_pos may, e]
    exact congrArg _ (endWave_live (v := { w3 with hangcnt := hc', hangArmed := ha }) counted stays)
  · exact ⟨fun _ => ⟨rfl, rfl⟩, rfl, rfl, rfl, rfl, fun _ _ _ => rfl⟩

end

/-! ### RTE (R340) -/

/-- A lane after RTE, as its actions 0 to 2 say. -/
def Wave.rteLane (w : Wave) (h : Handler) (act i : Nat) : Lane :=
  if i ∈ w.rteSet h then
    (if act = 2 then { w.lane i with st := .exited, atRcv := false } else { w.lane i with st := .ready, atRcv := false, pc := w.rtePc act })
  else { w.lane i with atRcv := false }

theorem lane_leaveHandler (w : Wave) (h : Handler) (act : Nat) {i : Nat} (hi : i < w.lanes.length) :
    (w.leaveHandler h act).lane i = w.rteLane h act i := by
  unfold Wave.leaveHandler Wave.mapLanes Wave.lane Wave.rteLane
  simp only [List.getD_eq_getElem?_getD, List.getElem?_mapIdx, List.contains_iff_mem, hi, List.getElem?_eq_getElem, Option.map_some, Option.getD_some,
    if_true, Wave.lane]
  split_ifs <;> rfl

/-- An address that is a multiple of 8 has its bits [2:0] clear (R21). -/
theorem and_mask_of_aligned {a : CodeAddr} (aligned : a.toNat % 8 = 0) : a &&& 0xFFFFFFFFFFF8#48 = a := by
  refine BitVec.eq_of_getLsbD_eq fun i hi => ?_
  have mask : (0xFFFFFFFFFFF8#48 : CodeAddr) = BitVec.allOnes 48 <<< 3 := by decide
  have eighth : a.toNat = 2 ^ 3 * (a.toNat / 8) := by omega
  have bit : a.getLsbD i = (decide (3 ≤ i) && (a.toNat / 8).testBit (i - 3)) := by
    rw [← Nat.testBit_two_pow_mul, ← eighth]
    rfl
  rw [mask, BitVec.getLsbD_and, BitVec.getLsbD_shiftLeft, BitVec.getLsbD_allOnes, bit]
  by_cases low : i < 3
  · simp [low, Nat.not_le.mpr low]
  · simp [low, hi, show i - 3 < 48 by omega]

/-- Where TRPC is a multiple of 8, RTE sends its lanes there or to the word behind it. -/
theorem rtePc_of_aligned {w : Wave} (aligned : w.trpc.toNat % 8 = 0) : w.rtePc 0 = w.trpc ∧ w.rtePc 1 = w.trpc + 8 := by
  refine ⟨and_mask_of_aligned aligned, and_mask_of_aligned ?_⟩
  show (w.trpc + 8).toNat % 8 = 0
  rw [BitVec.toNat_add]
  simp
  omega

section
variable {c : Ctl} {a : Nat} {s : State} {w : Wave} {h : Handler}

/-- What RTE does in the wave that holds its handler (R340). -/
def rteBody (a : Nat) (x : Ex) : Out :=
  let w := x.wave
  match w.hnd with
  | none => faultAll x cRANGE 0
  | some h =>
    let act := bits (x.sc a).toNat 1 0
    if act = 3 then .done ((x.s.trapped w.launch w.trpc w.trcause.toNat).hostEvent w.tenant 6 (trapDetail w.trpc w.trcause.toNat)) {}
    else .done (x.s.setWave (w.leaveHandler h act)) { progress := act == 2 && w.rteSet h != [] }

theorem exec_rte (c : Ctl) (a : Nat) (s : State) : exec (.rte c a) s = word c { q := true, mode := 1, sr := [a], hok := true } (rteBody a) s := rfl

/-- RTE with an action 0 to 2 leaves the handler. -/
theorem exec_rte_leaves (hc : HClear c { q := true, mode := 1, sr := [a], hok := true } s w h) {act : Nat} (is : bits (w.sreg a).toNat 1 0 = act)
    (leaves : act ≠ 3) (live : (w.leaveHandler h act).allExited = false) :
    ∃ t v, exec (.rte c a) s = .next t ∧ t.wave? w.core w.slot = some v ∧
      (∃ pd tg wr hg ha pf ni li, v = { w.leaveHandler h act with
        pend := pd, tags := tg, written := wr, pinned := [], hangcnt := hg, hangArmed := ha, perf := pf, nextIssue := ni, lastIssue := li }) ∧
      t.mem = s.mem ∧ t.dev = s.dev ∧ ∀ x y, ¬(x = w.core ∧ y = w.slot) → t.wave? x y = s.wave? x y := by
  have r := reads_hclearEx hc
  have here := hclear_wave hc
  obtain ⟨s2, w3, yld, extra, hg, ha, t, -, stamped, runs, -, left, kept⟩ := hword_over (body := rteBody a)
    (s1 := s.setWave (w.leaveHandler h act)) (w1 := w.leaveHandler h act) (r := { progress := act == 2 && w.rteSet h != [] })
    hc rfl rfl (by simp only [rteBody, r.wave, r.state, r.scal, hc.own, is, if_neg leaves])
    (State.wave?_setWave_self here rfl rfl) rfl live
  obtain ⟨pd, tg, wr, pf, ni, li, rfl⟩ := stamped
  refine ⟨t, _, runs, left, ⟨pd, tg, wr, hg, ha, pf, ni, li, rfl⟩, kept.mem, kept.dev, fun x y other => (kept.waves x y other).trans ?_⟩
  exact State.wave?_setWave_other s (w.leaveHandler h act) (fun same => other ⟨same.1.symm, same.2.symm⟩)

/-- RTE with action 3 ends the launch TRAPPED. -/
theorem exec_rte_ends (hc : HClear c { q := true, mode := 1, sr := [a], hok := true } s w h) (is : bits (w.sreg a).toNat 1 0 = 3)
    (known : Known s w.launch) (going : (s.launch w.launch).endInfo = none) :
    ∃ t, exec (.rte c a) s = .next t ∧ t.mem = s.mem ∧ (t.launch w.launch).endInfo = some ⟨2, 0, trapDetail w.trpc w.trcause.toNat⟩ := by
  have r := reads_hclearEx hc
  have here := hclear_wave hc
  have done : rteBody a (hclearEx c { q := true, mode := 1, sr := [a], hok := true } s w h) =
      .done ((s.trapped w.launch w.trpc w.trcause.toNat).hostEvent w.tenant 6 (trapDetail w.trpc w.trcause.toNat)) {} := by
    simp only [rteBody, r.wave, r.state, r.scal, hc.own, is, if_true]
  obtain ⟨l, ended⟩ := endLaunch_launches s w.launch ⟨2, 0, trapDetail w.trpc w.trcause.toNat⟩
  obtain ⟨k, q, told⟩ := hostEvent_eq (s.trapped w.launch w.trpc w.trcause.toNat) w.tenant 6 (trapDetail w.trpc w.trcause.toNat)
  have info : (State.launch { s with tasks := { s.tasks with launches := l } } w.launch).endInfo = some ⟨2, 0, trapDetail w.trpc w.trcause.toNat⟩ := by
    rw [← ended, endLaunch_launch known going]
  have stays : Known { s with tasks := { s.tasks with launches := l } } w.launch :=
    launch_ne_blank (fun blank => by rw [blank] at info; cases info)
  rw [told, State.trapped, ended] at done
  obtain ⟨s2, w3, yld, extra, hg, ha, t, ⟨quads, rfl⟩, stamped, runs, rfl, -, kept⟩ := hword_over (w1 := w) hc rfl rfl done here rfl hc.live
  obtain ⟨pd, tg, wr, pf, ni, li, rfl⟩ := stamped
  refine ⟨_, runs, kept.mem, ?_⟩
  obtain ⟨b, flagged⟩ := launch_bookHang (w := { w.handlerNext h {} with
    pend := pd, tags := tg, written := wr, hnd := (w.handlerNext h {}).hnd.map (fun h => { h with held := none }), pinned := [],
    perf := pf, nextIssue := ni, lastIssue := li }) (s := { s with
      ctl := { s.ctl with seq := q }, cores := { s.cores with quads := quads }, tasks := { s.tasks with launches := l, tenants := k } })
    (Done.newCount {}) stays
  exact (congrArg Launch.endInfo flagged).trans info

end

/-- Settles O30: RTE replaces its wave by the one that has left the handler, or ends the launch. -/
theorem trapReturn : Obligations.TrapReturn := by
  intro c a s w h hc
  refine ⟨fun leaves live => ?_, exec_rte_ends hc⟩
  obtain ⟨t, _, runs, left, ⟨pd, tg, wr, hg, ha, pf, ni, li, rfl⟩, mem, dev, waves⟩ := exec_rte_leaves hc rfl leaves live
  exact ⟨t, _, runs, left, rfl, rfl, fun i hi => lane_leaveHandler w h _ hi, rtePc_of_aligned, rfl, rfl, ⟨rfl, rfl⟩, ⟨rfl, rfl⟩,
    specialKept_same rfl (.inl rfl), mem, dev, waves⟩

/-! ### Scalar and vector words in a handler (R338, R339) -/

section
variable {c : Ctl} {u : Use} {s : State} {w : Wave} {h : Handler}

/-- The widths of what a word reads (R159) do not bear on whether it meets an obstacle. -/
theorem hclear_withWidths (hc : HClear c u s w h) (ebits : Nat) (widths : List (PKind × Nat × Nat)) :
    HClear c { u with ebits := ebits, widths := widths } s w h := by
  obtain ⟨here, own, free, live, runs, lane, hang, legal, mode, role, block, settled, ⟨read, whole⟩, latch, pure⟩ := hc
  refine ⟨here, own, free, live, runs, lane, hang, legal, mode, role, block, ?_, ⟨read, ?_⟩, latch, pure⟩
  · rw [pendOf_widths]
    exact settled
  · have same : s.rematReg w (({ u with ebits := ebits, widths := widths } : Use).guarded c) = s.rematReg w (u.guarded c) := by
      unfold Use.guarded
      cases u.q <;> rfl
    rw [same]
    exact whole

/-- A word of the handler that writes one scalar register: the handler goes on (R338). -/
theorem hword_sBody {d : Nat} {g : Ex → Word} {x : Word} (hc : HClear c u s w h) (may : u.hok = true) (value : g (hclearEx c u s w h) = x) :
    ∃ t v, word c u (sBody d g) s = .next t ∧ t.wave? w.core w.slot = some v ∧ v.sreg d = x ∧
      v.hnd = some { h with pc := h.pc + 8, held := none } ∧ v.lanes = w.lanes ∧ VecKept w v (fun _ _ => False) ∧ ScalKept w v (fun r => r = d) ∧
      PredKept w v ∧ FlagsKept w v ∧ SpecialKept { w with hnd := v.hnd } v ∧ RestKept s t w := by
  have here := hclear_wave hc
  obtain ⟨s2, w3, yld, extra, hg, ha, t, -, ⟨pd, tg, wr, pf, ni, li, rfl⟩, runs, -, left, kept⟩ := hword_over (body := sBody d g)
    (s1 := s.setWave (w.setSreg d x)) (w1 := w.setSreg d x) (r := {}) hc may rfl
    (by rw [sBody, waveBody, (reads_hclearEx hc).wave, value]; rfl) (State.wave?_setWave_self here rfl rfl) rfl hc.live
  refine ⟨t, _, runs, left, ?_, ?_, rfl, fun _ _ _ _ => rfl, fun r other => ?_, ⟨rfl, rfl⟩, ⟨rfl, rfl⟩, specialKept_same rfl (.inl rfl), kept.tasks,
    kept.mem, kept.ctxs, kept.dev, fun a b other => (kept.waves a b other).trans ?_⟩
  · exact (Wave.sreg_setSreg w d d x).trans (if_pos rfl)
  · simp [Wave.handlerNext, Wave.setSreg, hc.own]
  · exact (Wave.sreg_setSreg w d r x).trans (if_neg other)
  · exact State.wave?_setWave_other s (w.setSreg d x) (fun same => other ⟨same.1.symm, same.2.symm⟩)

/-- No vector word of the table is one that a handler may issue. -/
theorem hok_of_vecWord {i : Instr} {d : Nat} {f : InLane Word} (hi : vecWord i = some (c, u, d, f)) : u.hok = false := by
  unfold vecWord at hi
  split at hi
  case h_40 => cases hi
  all_goals
    cases hi
    rfl

/-- A word that writes one vector register faults in no lane. -/
theorem vBody_done (d : Nat) (g : Ex → Nat → Word) (x : Ex) : ∃ w1, vBody d g x = .done (x.s.setWave w1) {} := by
  have faults : (x.lanes.map (fun i => (i, ({ vw := [(d, g x i)] } : LaneRes)))).filterMap (fun p => p.2.fault.map (fun e => (p.1, e.1, e.2))) = [] := by
    simp [List.filterMap_map]
  unfold vBody laneBody
  dsimp only
  rw [faults]
  exact ⟨_, rfl⟩

/-- A word that the handler may not issue ends the launch TRAPPED with ILLEGAL (R339). -/
theorem hword_illegal {body : Ex → Out} {w1 : Wave} (hc : HClear c u s w h) (not : u.hok = false)
    (hb : body (hclearEx c u s w h) = .done (s.setWave w1) {}) :
    ∃ t, word c u body s = .next t ∧ t.mem = s.mem ∧ t.cores = s.cores ∧ t.dev = s.dev ∧
      (Known s w.launch → (s.launch w.launch).endInfo = none → (t.launch w.launch).endInfo = some ⟨2, 0, trapDetail h.pc cILLEGAL⟩) := by
  have runs := word_hclear hc rfl hb
  rw [not, if_neg (by decide)] at runs
  have clean : (if ((s.setWave w1).launch w.launch).purity then s.impure w.launch else s) = s := by
    by_cases noted : (s.launch w.launch).purity = true <;> simp [State.impure, noted]
  obtain ⟨l, ended⟩ := endLaunch_launches s w.launch ⟨2, 0, trapDetail h.pc cILLEGAL⟩
  refine ⟨_, runs, ?_⟩
  unfold nestedFault State.trapped
  rw [clean]
  exact ⟨by rw [ended], by rw [ended], by rw [ended], fun known going => by rw [endLaunch_launch known going]⟩

end

/-- Settles O31: a scalar word runs `sBody` once for the handler (`hword_sBody`); a vector word is none that a handler may issue (`hword_illegal`). -/
theorem handlerWords : Obligations.HandlerWords := by
  refine ⟨fun i c u d f s w h hi may hc => ?_, fun i c u d f s w h hi hc => ?_⟩
  · obtain ⟨ebits, widths, g, runs, value⟩ := exec_scalWord hi
    have hc' := hclear_withWidths hc ebits widths
    obtain ⟨t, v, ht, rest⟩ := hword_sBody (d := d) hc' may (value _ s w _ (reads_hclearEx hc'))
    exact ⟨t, v, (runs s).trans ht, rest⟩
  · obtain ⟨ebits, widths, g, runs, value⟩ := exec_vecWord hi
    have hc' := hclear_withWidths hc ebits widths
    obtain ⟨w1, done⟩ := vBody_done d g (hclearEx c { u with ebits := ebits, widths := widths } s w h)
    obtain ⟨t, ht, rest⟩ := hword_illegal hc' (show u.hok = false from hok_of_vecWord hi) done
    exact ⟨t, (runs s).trans ht, rest⟩

end Sys2Proof.Machine

/-! Barriers, channels, rings and reservations (spec/16 R275, R276; spec/17 R280, R286, R287; spec/20 R322, R324, R329): each word has the effect of its
entry, and what an arrival does to its group. -/
namespace Sys2Proof.Machine
open Sys2Proof.Safety

/-! ### Arrivals (R322) -/

/-- The waves of a launch changed: each stays in its slot. -/
theorem wave?_mapWaves (s : State) (uid : Nat) {f : Wave → Wave} (stays : ∀ w, (f w).core = w.core ∧ (f w).slot = w.slot) (c k : Nat) :
    (s.mapWaves uid f).wave? c k = (s.wave? c k).map (fun w => if w.launch == uid then f w else w) := by
  have place : (fun v : Wave => v.core == c && v.slot == k) ∘ (fun v => if v.launch == uid then f v else v) =
      fun v => v.core == c && v.slot == k := by
    funext v
    rw [Function.comp]
    split
    · rw [(stays v).1, (stays v).2]
    · rfl
  show (s.cores.waves.map _).find? _ = _
  rw [List.find?_map, place]
  rfl

theorem lanes_settleGroup {s : State} {uid g c k : Nat} {w : Wave} (here : s.wave? c k = some w) :
    ∃ v, (s.settleGroup uid g).wave? c k = some v ∧ v.lanes = w.lanes ∧ v.core = w.core ∧ v.slot = w.slot := by
  unfold State.settleGroup
  dsimp only
  split
  · rw [wave?_mapWaves _ _ (fun w => by split <;> exact ⟨rfl, rfl⟩), State.setLaunch_wave?, here]
    refine ⟨_, rfl, ?_⟩
    dsimp only
    split_ifs <;> exact ⟨rfl, rfl, rfl⟩
  · split <;> exact ⟨w, here, rfl, rfl, rfl⟩

/-- An arrival leaves its wave in its slot, with its lanes. -/
theorem lanes_arrive {s : State} {w x : Wave} (g : Nat) (here : s.wave? w.core w.slot = some x) :
    ∃ v, (s.arrive w g).wave? w.core w.slot = some v ∧ v.lanes = w.lanes ∧ v.core = w.core ∧ v.slot = w.slot :=
  lanes_settleGroup (w := w.setGrec ⟨g, true, ((s.launch w.launch).group g).epoch⟩)
    ((State.setLaunch_wave? ..).trans (State.wave?_setWave_self here rfl rfl))

theorem cycle_settleGroup (s : State) (uid g : Nat) : (s.settleGroup uid g).ctl = s.ctl := by
  unfold State.settleGroup
  dsimp only
  split
  · rfl
  · split <;> rfl

theorem ctl_arrive (s : State) (w : Wave) (g : Nat) : (s.arrive w g).ctl = s.ctl := cycle_settleGroup _ _ _

theorem find?_setGroup {l : Launch} {g : Nat} {x y : Group} (listed : l.groups.find? (fun z => z.gid == g) = some x) (same : y.gid = g) :
    (l.setGroup y).groups.find? (fun z => z.gid == g) = some y := by
  subst same
  exact find?_updWhere_self _ y (by simp) listed

theorem group_of_listed {l : Launch} {g : Nat} {x : Group} (listed : l.groups.find? (fun z => z.gid == g) = some x) : l.group g = x := by
  rw [Launch.group, listed]
  rfl

/-- Changing the waves of a launch keeps its groups. -/
theorem group_mapWaves {s : State} {uid : Nat} (f : Wave → Wave) (g : Nat) (known : Known s uid) :
    ((s.mapWaves uid f).launch uid).group g = (s.launch uid).group g := by
  refine (congrArg (Launch.group · g) (launch_setLaunch_of (s := s) (l := _) known rfl ?_)).trans rfl
  exact launch_uid known

/-- What an arrival does to its group: one less is pending, and the last one starts the next epoch (R322). -/
theorem group_arrive {s : State} {w : Wave} {g : Nat} {x : Group} (known : Known s w.launch)
    (listed : (s.launch w.launch).groups.find? (fun y => y.gid == g) = some x) (live : x.live ≠ 0) :
    ((s.arrive w g).launch w.launch).group g =
      if x.pend ≤ 1 then { x with epoch := (x.epoch + 1) % 2 ^ 48, pend := x.live } else { x with pend := x.pend - 1 } := by
  have same : x.gid = g := by simpa using List.find?_some listed
  have stands := group_of_listed listed
  have uid := launch_uid known
  have one_less := find?_setGroup (y := { x with pend := x.pend - 1 }) listed same
  have now := group_of_listed one_less
  have taken : State.launch ((s.setWave (w.setGrec ⟨g, true, x.epoch⟩)).setLaunch ((s.launch w.launch).setGroup { x with pend := x.pend - 1 })) w.launch =
      (s.launch w.launch).setGroup { x with pend := x.pend - 1 } := launch_setLaunch_of known rfl uid
  unfold State.arrive
  simp only [stands]
  generalize arrived : (s.setWave (w.setGrec ⟨g, true, x.epoch⟩)).setLaunch ((s.launch w.launch).setGroup { x with pend := x.pend - 1 }) = t at taken ⊢
  have there : Known t w.launch := arrived ▸ known_setLaunch known
  unfold State.settleGroup
  simp only [taken, now]
  by_cases last : x.pend ≤ 1
  · rw [if_pos last, if_pos ⟨by omega, live⟩, group_mapWaves _ _ (known_setLaunch there)]
    have renewed := group_of_listed (find?_setGroup (y := { x with epoch := (x.epoch + 1) % 2 ^ 48, pend := x.live }) one_less same)
    refine Eq.trans ?_ renewed
    exact congrArg (Launch.group · g) (launch_setLaunch_of there rfl uid)
  · rw [if_neg last, if_neg (by omega), if_neg (by omega), taken, now]

section
variable {c : Ctl} {s : State} {w : Wave} {pc : CodeAddr} {g : Nat}

/-- An arrival takes the wave's earlier arrival first, if there is one (R324). -/
theorem arrival_takes {s1 : State} {w1 : Wave} (here : s.wave? w.core w.slot = some w) (own : arrival s w g = some (s1, w1)) :
    ∃ r s0 w0, w.grec g = some r ∧ takeArrival s w r = some s0 ∧ s0.wave? w.core w.slot = some w0 ∧ s0.ctl = s.ctl ∧
      (w0.lanes = w.lanes ∧ w0.core = w.core ∧ w0.slot = w.slot) ∧ releaseSide s0 w0 3 = none ∧ s1 = s0.arrive w0 g ∧
      w1 = ((s0.arrive w0 g).wave? w.core w.slot).getD w0 := by
  unfold arrival at own
  cases rec : w.grec g with
  | none =>
    rw [rec] at own
    cases own
  | some r =>
    simp only [rec] at own
    by_cases arr : r.arr = true
    · simp only [arr, true_and, if_true] at own
      split_ifs at own with waits held
      cases own
      exact ⟨r, s.consume w r, w.setGrec { r with arr := false }, rfl, by simp [takeArrival, arr, Bool.not_eq_false _ ▸ waits],
        State.wave?_setWave_self here rfl rfl, rfl, ⟨rfl, rfl, rfl⟩, by simpa [State.consume] using held, rfl, rfl⟩
    · simp only [arr, Bool.false_eq_true, false_and, if_false] at own
      split_ifs at own with held
      cases own
      exact ⟨r, s, w, rfl, by simp [takeArrival, arr], here, rfl, ⟨rfl, rfl, rfl⟩, by simpa using held, rfl, rfl⟩

/-- BAR and BARA that arrive (R324). -/
theorem arriveBody_arrives {lanes : List Nat} {s1 : State} {w1 : Wave} (here : s.wave? w.core w.slot = some w) (own : arrival s w g = some (s1, w1))
    (wait : Bool) : ∃ p, arriveBody g wait (seen s w pc lanes) = .done (if wait then s1.setWave { w1 with barHold := some g } else s1) { progress := p } := by
  obtain ⟨r, s0, w0, rec, takes, left, -, -, free, rfl, rfl⟩ := arrival_takes here own
  refine ⟨(((s0.arrive w0 g).launch w.launch).group g).epoch != ((s0.launch w.launch).group g).epoch, ?_⟩
  unfold arriveBody
  simp only [seen_wave here, rec]
  rw [show (seen s w pc lanes).s = s from rfl, takes]
  simp only [left, Option.getD_some, free]

/-- An arrival leaves the wave of its word in its slot, with its lanes, and no time passes. -/
theorem arrival_wave {s1 : State} {w1 : Wave} (here : s.wave? w.core w.slot = some w) (own : arrival s w g = some (s1, w1)) :
    s1.wave? w.core w.slot = some w1 ∧ s1.ctl = s.ctl ∧ w1.lanes = w.lanes ∧ w1.core = w.core ∧ w1.slot = w.slot := by
  obtain ⟨r, s0, w0, -, -, left, ctl, ⟨lanes, core, slot⟩, -, rfl, rfl⟩ := arrival_takes here own
  rw [← core, ← slot] at left
  obtain ⟨v, found, lanes', core', slot'⟩ := lanes_arrive g left
  rw [core, slot] at found
  rw [found]
  exact ⟨rfl, (ctl_arrive s0 w0 g).trans ctl, lanes'.trans lanes, core'.trans core, slot'.trans slot⟩

theorem lane_of_lanes {w v : Wave} (same : v.lanes = w.lanes) (i : Nat) : v.lane i = w.lane i := by
  unfold Wave.lane
  rw [same]

/-- BARA goes on after its arrival; BAR lets its wave wait for the completion. -/
theorem barWord_over (wait : Bool) {s1 : State} {w1 : Wave} (h : Clear c {} s w pc) (own : arrival s w g = some (s1, w1)) :
    ∃ t v, pWord c {} (arriveBody g wait) s = .next t ∧ Over s1 (if wait then { w1 with barHold := some g } else w1) w pc t v := by
  have here := clear_wave h
  obtain ⟨left, ctl, lanes, core, slot⟩ := arrival_wave here own
  obtain ⟨p, does⟩ := arriveBody_arrives (pc := pc) (lanes := execLanes c false w (w.activeAt pc)) here own wait
  rw [← clearEx_of_no_vector h rfl] at does
  cases wait with
  | false => exact word_over none p none h does left (congrArg Control.cycle ctl) (fun i _ => congrArg Lane.st (lane_of_lanes (v := w1) lanes i))
  | true =>
    exact word_effect none p none h does left core slot (congrArg Control.cycle ctl)
      (fun i _ => congrArg Lane.st (lane_of_lanes (v := { w1 with barHold := some g }) lanes i))

/-- BAR, BARA and BARW. -/
theorem hasEffect_barrierWord : HasEffect barrierWord := by
  intro i c u f s w pc s1 w1 hi h hf
  have here := clear_wave h
  unfold barrierWord at hi
  split at hi
  case h_4 => cases hi
  case h_1 c g => -- BAR
    cases hi
    dsimp only at hf
    obtain ⟨⟨s2, w2⟩, own, e⟩ := Option.map_eq_some_iff.mp hf
    cases e
    exact barWord_over true h own
  case h_2 c g => -- BARA
    cases hi
    exact barWord_over false h hf
  case h_3 c g => -- BARW
    cases hi
    dsimp only at hf
    split at hf
    · cases hf
    next r rec =>
      have body : ∀ s0, takeArrival s w r = some s0 → _ := fun s0 takes => (show (match (clearEx c {} s w pc).wave.grec g with
          | none => faultAll (clearEx c {} s w pc) cRANGE (BitVec.ofNat 64 g)
          | some r => match takeArrival (clearEx c {} s w pc).s (clearEx c {} s w pc).wave r with
            | none => .hold (clearEx c {} s w pc).s .bar
            | some s1 => .done s1 {}) = .done s0 {} by
        rw [clearEx_wave h, rec]
        show (match takeArrival s w r with
            | none => Out.hold s .bar
            | some s1 => .done s1 {}) = _
        rw [takes])
      split at hf
      next fresh =>
        cases hf
        exact word_over none false none h (body s (by simp [takeArrival, fresh])) here rfl (fun _ _ => rfl)
      next arrived =>
        split at hf
        next complete =>
          cases hf
          exact word_effect none false none h (body _ (by simp [takeArrival, arrived, complete]; rfl)) here rfl rfl rfl (fun _ _ => rfl)
        · cases hf

end

/-- Settles O49: each word arrives or consumes as `arrival` says, and an arrival is what `group_arrive` says. -/
theorem barrierWords : Obligations.BarrierWords :=
  ⟨hasEffect_barrierWord, fun _ _ _ _ known listed live => group_arrive known listed live⟩


end Sys2Proof.Machine

/-! Channels, rings and reservations as words (spec/16 R275, R276; spec/17 R280, R286, R287; spec/20 R329). -/
namespace Sys2Proof.Machine
open Sys2Proof.Safety

/-- A clear word whose body is `setS`: its register, and a state that keeps the waves. -/
theorem setS_over {c : Ctl} {u : Use} {s s1 : State} {w : Wave} {pc : CodeAddr} {body : Ex → Out} {d : Nat} {r : Word} (none : u.vr = [])
    (h : Clear c u s w pc) (kept : WavesKept s s1)
    (hb : body (seen s w pc (execLanes c u.q w (w.activeAt pc))) = setS (seen s w pc (execLanes c u.q w (w.activeAt pc))) s1 d r) :
    ∃ t v, word c u body s = .next t ∧ Over s1 (w.setSreg d r) w pc t v :=
  word_beside_seen none h kept (hb.trans (by rw [setS, seen_wave (clear_wave h)])) rfl rfl (fun _ => rfl)

/-- CHSEND and CHRECV (R329). -/
theorem hasEffect_channelWord : HasEffect channelWord := by
  intro i c u f s w pc s1 w1 hi h hf
  have here := clear_wave h
  unfold channelWord at hi
  split at hi
  case h_3 => cases hi
  case h_1 c ch a => -- CHSEND
    cases hi
    dsimp only at hf
    split at hf
    · cases hf
    next k has =>
      split_ifs at hf with stops
      cases hf
      obtain ⟨clean, room, released⟩ : chanFault s w ch true = none ∧ ¬k.slots ≤ k.full.length ∧ releaseSide s w 3 = none := by
        simpa [not_or] using stops
      have item : (List.range 32).map (fun i => if (execLanes c false w (w.activeAt pc)).contains i then (clearEx c { vr := [a] } s w pc).v a i else 0) =
          (List.range 32).map (fun i => if i ∈ execLanes c false w (w.activeAt pc) then w.vreg a i else 0) :=
        List.map_congr_left fun i low => by simp [clearEx_v h (List.mem_range.1 low)]
      refine word_over none true none h ?_ (State.setLaunch_wave? .. |>.trans (clear_wave h)) rfl (fun _ _ => rfl)
      dsimp only
      rw [clearEx_wave h, clearEx_l h, clearEx_s, clean, has]
      simp only [room, if_false, released]
      exact congrArg (fun l => Out.done (s.setLaunch ((s.launch w.launch).setChan { k with full := k.full ++ [l], sends := _ })) _) item
  case h_2 c d ch => -- CHRECV
    cases hi
    dsimp only at hf
    split at hf
    · cases hf
    next k has =>
      split at hf
      · cases hf
      next item rest full =>
        split_ifs at hf with clean
        cases hf
        have takes := foldl_setVreg d (fun i => item.getD i 0) (execLanes c false w (w.activeAt pc)) w
        refine word_effect none true none h ?_ (x := w) here (by rw [takes]) (by rw [takes])
          rfl (fun _ _ => by rw [takes]; rfl)
        rw [clearEx_of_no_vector h rfl]
        dsimp only
        rw [seen_wave (clear_wave h), show (seen s w pc (execLanes c false w (w.activeAt pc))).s = s from rfl,
          Option.not_isSome_iff_eq_none.mp clean, show (seen s w pc (execLanes c false w (w.activeAt pc))).l = s.launch w.launch from rfl, has]
        dsimp only
        rw [full]
        rfl

/-- SRARV and SRWT (R275, R276). -/
theorem hasEffect_ringWord : HasEffect ringWord := by
  intro i c u f s w pc s1 w1 hi h hf
  have here := clear_wave h
  unfold ringWord at hi
  split at hi
  case h_3 => cases hi
  case h_1 c ring a => -- SRARV
    cases hi
    dsimp only at hf
    split_ifs at hf with stops
    cases hf
    obtain ⟨good, idle, copies, tiles⟩ : ringBad (s.launch w.launch) ring ((w.sreg a).toNat % 16) = false ∧ w.ops = [] ∧ w.cpWords = [] ∧
      w.tlWords = [] := by simpa [not_or] using stops
    refine word_over none false none h ?_ here rfl (fun _ _ => rfl)
    rw [clearEx_of_no_vector h rfl]
    dsimp only
    rw [seen_wave (clear_wave h)]
    refine (if_neg (by simpa [seen, Ex.sc, Ex.l] using good)).trans (if_neg ?_)
    simp [Wave.drained, idle, copies, tiles]
  case h_2 c ring a ph => -- SRWT
    cases hi
    dsimp only at hf
    split_ifs at hf with stops
    cases hf
    obtain ⟨good, phase⟩ : ringBad (s.launch w.launch) ring ((w.sreg a).toNat % 16) = false ∧
      ((s.ctx w.launch w.core).ring ring).testBit ((w.sreg a).toNat % 16) = ph := by simpa [not_or] using stops
    refine word_over none false none h ?_ here rfl (fun _ _ => rfl)
    rw [clearEx_of_no_vector h rfl]
    dsimp only
    rw [seen_wave (clear_wave h)]
    exact (if_neg (by simpa [seen, Ex.sc, Ex.l] using good)).trans (if_neg (by simpa [seen, Ex.sc] using phase))

/-- OBRES, OBREL, ACCA and ACCF (R280, R286, R287). -/
theorem hasEffect_reserveWord : HasEffect reserveWord := by
  intro i c u f s w pc s1 w1 hi h hf
  unfold reserveWord at hi
  split at hi
  case h_1 c d a => -- OBRES
    cases hi
    dsimp only at hf
    split_ifs at hf with bad taken
    · cases hf
      exact setS_over rfl h (.refl s) (if_pos bad)
    · cases hf
      exact setS_over rfl h (.refl s) ((if_neg bad).trans (if_pos taken))
    · split at hf <;> cases hf
      next rows => exact setS_over rfl h (.refl s) ((if_neg bad).trans ((if_neg taken).trans (by simp only [seen, Ex.sc, rows])))
      next rows => exact setS_over rfl h ⟨rfl, rfl⟩ ((if_neg bad).trans ((if_neg taken).trans (by simp only [seen, Ex.sc, rows])))
  case h_2 c d a => -- OBREL
    cases hi
    dsimp only at hf
    split_ifs at hf with bad busy <;> cases hf
    · exact setS_over rfl h (.refl s) (if_pos bad)
    · exact setS_over rfl h ⟨rfl, rfl⟩ ((if_neg bad).trans (if_neg busy))
  case h_3 c d a b => -- ACCA
    cases hi
    dsimp only at hf
    split_ifs at hf with bad full
    · cases hf
      exact setS_over rfl h (.refl s) (if_pos bad)
    · cases hf
      exact setS_over rfl h (.refl s) ((if_neg bad).trans (by simp only [seen, Ex.sc, Ex.l, full, if_true]))
    · split at hf <;> cases hf
      next entry => exact setS_over rfl h (.refl s) ((if_neg bad).trans (by simp only [seen, Ex.sc, Ex.l, full, if_false, entry]))
      next entry => exact setS_over rfl h ⟨rfl, rfl⟩ ((if_neg bad).trans (by simp only [seen, Ex.sc, Ex.l, full, if_false, entry]))
  case h_4 c d a => -- ACCF
    cases hi
    dsimp only at hf
    split_ifs at hf with bad busy <;> cases hf
    · exact setS_over rfl h (.refl s) (if_pos bad)
    · exact setS_over rfl h ⟨rfl, rfl⟩ ((if_neg bad).trans (if_neg busy))
  case h_5 => cases hi

/-- Settles O50: every word of the three tables runs as its effect says. -/
theorem channelRingAndReservationWords : Obligations.ChannelRingAndReservationWords :=
  ⟨hasEffect_channelWord, hasEffect_ringWord, hasEffect_reserveWord⟩

end Sys2Proof.Machine

/-! Copy words (spec/16 R265, R270, R271, R274): the cards of the lanes are added one after another, and adding one leaves the checks of the lanes
behind it. -/
namespace Sys2Proof.Machine
open Sys2Proof.Safety

/-! ### What adding a card leaves -/

/-- The second state is the first but for what launches hold on cores, and something is held wherever it was. -/
structure CtxsOnly (s t : State) : Prop where
  only : ∃ l, t = { s with cores := { s.cores with ctxs := l } }
  held : ∀ launch core, (t.ctx? launch core).isSome = (s.ctx? launch core).isSome

theorem CtxsOnly.refl (s : State) : CtxsOnly s s := ⟨⟨_, rfl⟩, fun _ _ => rfl⟩

theorem CtxsOnly.trans {s t u : State} (h : CtxsOnly s t) (g : CtxsOnly t u) : CtxsOnly s u := by
  obtain ⟨⟨l, rfl⟩, same⟩ := h
  obtain ⟨⟨k, rfl⟩, still⟩ := g
  exact ⟨⟨k, rfl⟩, fun a b => (still a b).trans (same a b)⟩

theorem CtxsOnly.wavesKept {s t : State} (h : CtxsOnly s t) : WavesKept s t := by
  obtain ⟨⟨l, rfl⟩, -⟩ := h
  exact ⟨rfl, rfl⟩

theorem ctxsOnly_setCtx (s : State) (c : Ctx) : CtxsOnly s (s.setCtx c) := by
  refine ⟨⟨_, rfl⟩, fun launch core => ?_⟩
  unfold State.ctx? State.setCtx updWhere
  dsimp only
  rw [List.isSome_find?, List.isSome_find?, List.any_map]
  congr 1
  funext k
  rw [Function.comp]
  split
  next same =>
    simp only [Bool.and_eq_true, beq_iff_eq] at same
    rw [same.1, same.2]
  · rfl

theorem ctxsOnly_addCard (s : State) (w : Wave) (word lane q : Nat) (j : JobReq) (a b : JobEnd) : CtxsOnly s (s.addCard w word lane q j a b) := by
  unfold State.addCard
  dsimp only
  cases b.pad with
  | none => exact ctxsOnly_setCtx ..
  | some core => exact (ctxsOnly_setCtx ..).trans (ctxsOnly_setCtx ..)

/-! ### The checks of R271 -/

section
variable {s t : State} (w : Wave)

theorem padHome_ctxsOnly (h : CtxsOnly s t) (a : Word) : t.padHome w a = s.padHome w a := by
  obtain ⟨⟨l, rfl⟩, held⟩ := h
  unfold State.padHome
  simp only [held]
  rfl

theorem walkPages_ctxsOnly (h : CtxsOnly s t) (need stop : Nat) : ∀ fuel va : Nat, walkPages t w need stop fuel va = walkPages s w need stop fuel va
  | 0, va => rfl
  | fuel + 1, va => by
    have check : ∀ a, t.checkVa w a 1 need = s.checkVa w a 1 need := fun a => by
      obtain ⟨⟨l, rfl⟩, -⟩ := h
      rfl
    simp only [walkPages, check, walkPages_ctxsOnly h need stop fuel]

/-- What launches hold on cores takes no part in the checks, but for where they hold anything. -/
theorem jobCheck_ctxsOnly (h : CtxsOnly s t) (j : JobReq) (q : Nat) : jobCheck t w j q = jobCheck s w j q := by
  have launch : ∀ n, t.launch n = s.launch n := fun n => by
    obtain ⟨⟨l, rfl⟩, -⟩ := h
    rfl
  have queue : queueOk t w q = queueOk s w q := by
    obtain ⟨⟨l, rfl⟩, -⟩ := h
    rfl
  have range : ∀ a n, padRangeBad t w a n = padRangeBad s w a n := fun a n => by
    simp only [padRangeBad, padHome_ctxsOnly w h, launch]
  have ends : ∀ pad a n need, jobEnd t w pad a n need = jobEnd s w pad a n need := fun pad a n need => by
    simp only [jobEnd, padHome_ctxsOnly w h, walkPages_ctxsOnly w h]
  simp only [jobCheck, regionBad, range, queue, ends]

end

/-! ### The lanes of a word -/

/-- The cards of the lanes whose jobs pass, added in the order of the lanes. -/
def State.addCards (s : State) (w : Wave) (q : Nat) (f : Wave → Nat → JobReq) (l : List (Nat × JobEnd × JobEnd)) : State :=
  l.foldl (fun u p => u.addCard w w.nextOp p.1 q (f w p.1) p.2.1 p.2.2) s

theorem ctxsOnly_addCards (w : Wave) (q : Nat) (f : Wave → Nat → JobReq) : ∀ (l : List (Nat × JobEnd × JobEnd)) (s : State),
    CtxsOnly s (s.addCards w q f l)
  | [], s => .refl s
  | _ :: l, s => (ctxsOnly_addCard s ..).trans (ctxsOnly_addCards w q f l _)

/-- A word whose lanes' jobs pass in the state at its issue: every lane's card is added, and none faults. -/
theorem foldl_jobLane {s : State} {w : Wave} {q : Nat} {f : Wave → Nat → JobReq} {x : Ex} {req : Nat → JobReq} (here : s.wave? x.w.core x.w.slot = some w)
    (limits : x.l = s.launch w.launch) (lanes : List Nat) : ∀ (es : List (JobEnd × JobEnd)) (t : State) (b : Bool), CtxsOnly s t →
      (∀ k ∈ lanes, req k = f w k) → lanes.map (fun k => jobCheck s w (f w k) q) = es.map .ok →
      (∀ k ∈ lanes, (f w k).stray (s.launch w.launch) = none) →
      lanes.foldl (jobLane q w.nextOp req x) (t, [], b) = (t.addCards w q f (lanes.zip es), [], b || !lanes.isEmpty) := by
  induction lanes with
  | nil =>
    intro es t b _ _ _ _
    cases b <;> rfl
  | cons k lanes ih =>
    intro es t b only asks pass inside
    cases es with
    | nil => cases pass
    | cons e es =>
      obtain ⟨passes, rest⟩ := List.cons.inj pass
      have own : t.wave? x.w.core x.w.slot = some w := (only.wavesKept.wave? ..).trans here
      have first : jobLane q w.nextOp req x (t, [], b) k = (t.addCard w w.nextOp k q (f w k) e.1 e.2, [], true) := by
        unfold jobLane
        simp only [own, Option.getD_some, asks k List.mem_cons_self, jobCheck_ctxsOnly w only, passes, limits, inside k List.mem_cons_self]
      rw [List.foldl_cons, first, ih es _ true (only.trans (ctxsOnly_addCard ..))
        (fun k hk => asks k (List.mem_cons_of_mem _ hk)) rest (fun k hk => inside k (List.mem_cons_of_mem _ hk))]
      cases b <;> rfl

/-! ### The words -/

/-- A clear copy word whose lanes pass: `ask` makes the job of a lane from its registers. -/
theorem copyWord_over (ask : (Nat → Word) → JobReq) {c : Ctl} {u : Use} {q : Nat} {s : State} {w : Wave} {pc : CodeAddr}
    {es : List (JobEnd × JobEnd)} (h : Clear c { u with q := false } s w pc)
    (pass : (execLanes c false w (w.activeAt pc)).map (fun k => jobCheck s w (ask (fun r => w.vreg r k)) q) = es.map .ok)
    (inside : ∀ k ∈ execLanes c false w (w.activeAt pc), (ask (fun r => w.vreg r k)).stray (s.launch w.launch) = none)
    (cards : (s.cardsOn w.core).length + (execLanes c false w (w.activeAt pc)).length ≤ 64) (words : w.cntcp < 63) :
    ∃ t v, pWord c u (copyBody q (fun x i => ask (fun r => x.v r i))) s = .next t ∧
      Over (s.addCards w q (fun w i => ask (fun r => w.vreg r i)) ((execLanes c false w (w.activeAt pc)).zip es))
      { w with cpWords := w.cpWords ++ [w.nextOp], nextOp := w.nextOp + 1 } w pc t v := by
  generalize lanes_eq : execLanes c false w (w.activeAt pc) = lanes at pass inside cards ⊢
  have here := clear_wave h
  have only := ctxsOnly_addCards w q (fun w i => ask (fun r => w.vreg r i)) (lanes.zip es) s
  have left := (only.wavesKept.wave? ..).trans here
  have spot : (clearEx c { u with q := false } s w pc).w.core = w.core ∧ (clearEx c { u with q := false } s w pc).w.slot = w.slot := by
    obtain ⟨m, hm⟩ := clearEx_w h
    rw [hm]
    exact ⟨rfl, rfl⟩
  have asks : ∀ k ∈ lanes, ask (fun r => (clearEx c { u with q := false } s w pc).v r k) = ask (fun r => w.vreg r k) := fun k hk => by
    simp only [clearEx_v h (execLanes_lt k (lanes_eq ▸ hk))]
  have adds := foldl_jobLane (q := q) (f := fun w i => ask (fun r => w.vreg r i)) (x := clearEx c { u with q := false } s w pc)
    (req := fun i => ask (fun r => (clearEx c { u with q := false } s w pc).v r i)) (by rw [spot.1, spot.2]; exact here)
    (clearEx_l h) lanes es s false (.refl s) asks pass inside
  have some_lane : lanes.isEmpty = false := by simpa [← lanes_eq] using h.some
  refine word_effect none true none h ?_ left rfl rfl (congrArg Control.cycle only.wavesKept.ctl) (fun _ _ => rfl)
  unfold copyBody
  rw [clearEx_wave h, clearEx_s, show (clearEx c { u with q := false } s w pc).lanes = lanes from lanes_eq, if_neg (by omega), adds]
  simp only [some_lane, left, Option.getD_some]
  rw [if_neg (by omega)]
  rfl

/-- Settles O45: the table's words are copy words, and each passes as `copyWord_over` says. -/
theorem copyWords : Obligations.CopyWords := by
  intro i c u q f s w pc es hi h lanes pass inside cards words
  unfold copyWord at hi
  split at hi
  case h_1 c a b e dp sp q => -- CPY
    cases hi
    exact copyWord_over (fun r => jobLinear .cpy sp dp (r a) (r b) (r e)) h pass inside cards words
  case h_2 c a b e dp sp q => -- CPYX
    cases hi
    exact copyWord_over (fun r => jobRows sp dp (r a) (r b) (r e) (r (e + 1))) h pass inside cards words
  case h_3 c a b e dp q => -- CPYM
    cases hi
    exact copyWord_over (fun r => jobLinear .cpym false dp (r a) (r b) (r e)) h pass inside cards words
  case h_4 c a b e dp sp q => -- CPYD
    cases hi
    exact copyWord_over (fun r => jobLinear .cpyd sp dp (r a) (r b) (r e)) h pass inside cards words
  case h_5 => cases hi

end Sys2Proof.Machine

/-! Tile words (spec/17 R282; spec/12 R199): the operations of the lanes are added one after another, with one count for the word. -/
namespace Sys2Proof.Machine
open Sys2Proof.Safety

/-! ### Adding tile operations -/

/-- The tile operations of the lanes, added in their order. -/
def State.addTiles (s : State) (w : Wave) (l : List (Nat × Tile)) : State := l.foldl (fun u p => u.addTile w w.nextOp p.1 p.2) s

theorem wavesKept_addTile (s : State) (w : Wave) (word lane : Nat) (t : Tile) : WavesKept s (s.addTile w word lane t) := by
  unfold State.addTile State.impure
  dsimp only
  split_ifs <;> exact ⟨rfl, rfl⟩

theorem impure_setWave (s : State) (v : Wave) (uid : Nat) : (s.setWave v).impure uid = (s.impure uid).setWave v := by
  unfold State.impure
  simp only [show (s.setWave v).launch uid = s.launch uid from rfl]
  split <;> rfl

theorem addTile_setWave (s : State) (v w : Wave) (word lane : Nat) (t : Tile) :
    (s.setWave v).addTile w word lane t = (s.addTile w word lane t).setWave v := by
  unfold State.addTile
  dsimp only
  cases t.impure with
  | true => exact impure_setWave (s.setCtx _) v w.launch
  | false => rfl

theorem wavesKept_addTiles (w : Wave) : ∀ (l : List (Nat × Tile)) (s : State), WavesKept s (s.addTiles w l)
  | [], s => .refl s
  | _ :: l, s => (wavesKept_addTile s ..).trans (wavesKept_addTiles w l _)

theorem addTiles_setWave (v w : Wave) : ∀ (l : List (Nat × Tile)) (s : State), (s.setWave v).addTiles w l = (s.addTiles w l).setWave v
  | [], _ => rfl
  | p :: l, s => (congrArg (State.addTiles · w l) (addTile_setWave s v w w.nextOp p.1 p.2)).trans (addTiles_setWave v w l _)

/-! ### The lanes of a word -/

/-- The wave of a tile word that is over, with its count. -/
def Wave.tileCounted (w : Wave) : Wave := { w with tlWords := w.tlWords ++ [w.nextOp], nextOp := w.nextOp + 1 }

/-- Of lanes that all pass, what each leaves. -/
theorem filterMap_passing {α : Type} {lanes : List Nat} {g : Nat → Except (Nat × Word) α} {ts : List α} (pass : lanes.map g = ts.map .ok)
    (f : Nat × Except (Nat × Word) α → Option (Nat × α)) (takes : ∀ i t, f (i, .ok t) = some (i, t)) :
    (lanes.map (fun i => (i, g i))).filterMap f = lanes.zip ts := by
  induction lanes generalizing ts with
  | nil => rfl
  | cons i lanes ih =>
    cases ts with
    | nil => cases pass
    | cons t ts =>
      obtain ⟨passes, rest⟩ := List.cons.inj pass
      simp [passes, takes, ih rest]

/-- Of lanes that all pass, no fault is left. -/
theorem filterMap_faults {α β : Type} {lanes : List Nat} {g : Nat → Except (Nat × Word) α} {ts : List α} (pass : lanes.map g = ts.map .ok)
    (f : Nat × Except (Nat × Word) α → Option β) (leaves : ∀ i t, f (i, .ok t) = none) : (lanes.map (fun i => (i, g i))).filterMap f = [] := by
  rw [List.filterMap_eq_nil_iff]
  intro p hp
  obtain ⟨i, hi, rfl⟩ := List.mem_map.mp hp
  obtain ⟨t, -, passes⟩ := List.mem_map.mp (pass ▸ List.mem_map_of_mem hi)
  rw [← passes]
  exact leaves i t

/-- A tile word whose lanes all pass. -/
theorem tileWord_of_pass {x : Ex} {w : Wave} {lanes : List Nat} {g : Nat → Except (Nat × Word) Tile} {ts : List Tile} (wave : x.wave = w)
    (pass : lanes.map g = ts.map .ok) (some_lane : lanes ≠ []) (room : w.cnttl < 15) :
    tileWord x false (lanes.map (fun i => (i, g i))) = .done ((x.s.addTiles w (lanes.zip ts)).setWave w.tileCounted) {} := by
  have filled : lanes.zip ts ≠ [] := by
    have same : lanes.length = ts.length := by simpa using congrArg List.length pass
    cases lanes with
    | nil => exact absurd rfl some_lane
    | cons i l =>
      cases ts with
      | nil => cases same
      | cons t ts => simp
  rw [tileWord]
  dsimp only
  rw [filterMap_passing pass _ (fun _ _ => rfl), filterMap_faults pass _ (fun _ _ => rfl), wave, if_neg Bool.false_ne_true, if_neg filled,
    if_neg (by omega)]
  exact congrArg (Out.done · {}) (addTiles_setWave w.tileCounted w (lanes.zip ts) x.s)

/-! ### What a lane's checks read -/

/-- A context with the registers of its wave read elsewhere. -/
def Ex.withRegs (x : Ex) (m : Cells Word) : Ex := { x with w := { x.w with vregs := m } }

theorem block_withRegs (x : Ex) (m : Cells Word) (a : Word) : (x.withRegs m).block a = x.block a := rfl
theorem obldLane_withRegs (x : Ex) (m : Cells Word) (a d : Word) : obldLane (x.withRegs m) a d = obldLane x a d := rfl
theorem mmaLane_withRegs (x : Ex) (m : Cells Word) (sparse : Bool) (va : Word) (l : List Word) :
    mmaLane (x.withRegs m) sparse va l = mmaLane x sparse va l := rfl
theorem drainLane_withRegs (x : Ex) (m : Cells Word) (va : Word) (l : List Word) : drainLane (x.withRegs m) va l = drainLane x va l := rfl

theorem clearEx_withRegs {c : Ctl} {u : Use} {s : State} {w : Wave} {pc : CodeAddr} (h : Clear c u s w pc) :
    ∃ m, clearEx c u s w pc = (context c u s w pc).withRegs m := by
  obtain ⟨m, view, -⟩ := clear_view h
  exact ⟨m, by rw [clearEx, view]; rfl⟩

/-! ### The words -/

section
variable {c : Ctl} {u : Use} {s : State} {w : Wave} {pc : CodeAddr}

/-- A register of a clear word's lane, as the lane's checks read it. -/
theorem clearEx_v_context (h : Clear c u s w pc) (a : Nat) {i : Nat} (hi : i ∈ execLanes c u.q w (w.activeAt pc)) :
    (clearEx c u s w pc).v a i = (context c u s w pc).v a i := clearEx_v h (execLanes_lt i hi)

/-- A clear tile word whose lanes all pass, up to what it draws. -/
theorem tileWord_over {body : Ex → Out} {ts : List Tile} {lanes : List Nat} (h : Clear c u s w pc) (draws : Bool)
    (hb : body (clearEx c u s w pc) = .done ((s.addTiles w (lanes.zip ts)).setWave (w.tileCounted.advanceRng draws)) {}) :
    ∃ t v, word c u body s = .next t ∧ Over (s.addTiles w (lanes.zip ts))
      { w with tlWords := w.tlWords ++ [w.nextOp], nextOp := w.nextOp + 1, rngctr := if draws = true then w.rngctr + 1 else w.rngctr } w pc t v := by
  refine word_beside h (wavesKept_addTiles w _ s) (hb.trans ?_) rfl rfl (fun _ => rfl)
  cases draws <;> rfl

/-- A word whose lanes read blocks is the tile word of what its lanes make of them. -/
theorem blockWord_eq (x : Ex) (a : Nat) (f : Ex → Word → List Word → Except (Nat × Word) Tile) :
    blockWord x a (fun _ va l => f x va l) = tileWord x (x.lanes.any (blockAbsent a x)) (x.lanes.map (fun i => (i, blockTile f a x i))) := by
  rw [blockWord, List.map_map, List.any_map]
  congr 1
  · congr 1
    funext i
    simp only [Function.comp, blockAbsent]
    cases x.block (x.v a i) <;> rfl

/-- Such a word where every lane passes and no block is absent. -/
theorem blockWord_of_pass {a : Nat} {f : Ex → Word → List Word → Except (Nat × Word) Tile} {ts : List Tile} (h : Clear c u s w pc)
    (same : ∀ x m va l, f (x.withRegs m) va l = f x va l)
    (pass : (execLanes c u.q w (w.activeAt pc)).map (blockTile f a (context c u s w pc)) = ts.map .ok)
    (there : ∀ k ∈ execLanes c u.q w (w.activeAt pc), blockAbsent a (context c u s w pc) k = false) (room : w.cnttl < 15) :
    blockWord (clearEx c u s w pc) a (fun _ va l => f (clearEx c u s w pc) va l) =
      .done ((s.addTiles w ((execLanes c u.q w (w.activeAt pc)).zip ts)).setWave w.tileCounted) {} := by
  obtain ⟨m, hm⟩ := clearEx_withRegs h
  have reads : ∀ i ∈ execLanes c u.q w (w.activeAt pc), (clearEx c u s w pc).block ((clearEx c u s w pc).v a i) =
      (context c u s w pc).block ((context c u s w pc).v a i) := fun i hi => by
    rw [clearEx_v_context h a hi, hm, block_withRegs]
  have present : (clearEx c u s w pc).lanes.any (blockAbsent a (clearEx c u s w pc)) = false := by
    rw [List.any_eq_false]
    intro k hk
    have here := there k hk
    unfold blockAbsent at here ⊢
    rw [reads k hk, here]
    exact Bool.false_ne_true
  have tiles : ∀ i ∈ execLanes c u.q w (w.activeAt pc), blockTile f a (clearEx c u s w pc) i = blockTile f a (context c u s w pc) i := by
    intro i hi
    unfold blockTile
    rw [reads i hi, clearEx_v_context h a hi, hm]
    simp only [same]
  rw [blockWord_eq, present]
  exact tileWord_of_pass (clearEx_wave h) ((List.map_congr_left tiles).trans pass) h.some room

end

section
variable (a b : Nat)

/-- The operation of ACCZ, as its table has it. -/
def acczTile (x : Ex) : Except (Nat × Word) Tile :=
  let h := (x.sc a).toNat
  let q := x.sc b
  let r := bits q.toNat 15 0
  let n := bits q.toNat 31 16
  match (if 2 ^ 16 ≤ h then none else (x.s.ctx x.w.launch x.w.core).alloc? h) with
  | none => .error (cRANGE, q)
  | some al =>
    if n = 0 ∨ al.rows < r + n ∨ bits q.toNat 63 32 ≠ 0 then .error (cRANGE, q)
    else if !x.l.mayRow al x.w.wid r n then .error (cBAND, q)
    else .ok ⟨.accz h r n, [], [h], false⟩

/-- The effect of ACCZ. -/
def acczBody (x : Ex) : Out :=
  let h := (x.sc a).toNat
  let q := x.sc b
  let r := bits q.toNat 15 0
  let n := bits q.toNat 31 16
  match (if 2 ^ 16 ≤ h then none else (x.s.ctx x.w.launch x.w.core).alloc? h) with
  | none => faultAll x cRANGE q
  | some al =>
    if n = 0 ∨ al.rows < r + n ∨ bits q.toNat 63 32 ≠ 0 then faultAll x cRANGE q
    else if !x.l.mayRow al x.w.wid r n then faultAll x cBAND q
    else tileWord x false [(x.first, .ok ⟨.accz h r n, [], [h], false⟩)]

theorem exec_accz (c : Ctl) (s : State) : exec (.accz c a b) s = word c (useMat [a, b] []) (acczBody a b) s := rfl

/-- ACCZ whose checks pass leaves one operation. -/
theorem acczBody_of_pass {x : Ex} {t : Tile} (passes : acczTile a b x = .ok t) : acczBody a b x = tileWord x false [(x.first, acczTile a b x)] := by
  unfold acczTile acczBody at *
  dsimp only at *
  split at passes
  next => cases passes
  next al held =>
    split_ifs at passes with bad band
    rw [if_neg bad, if_neg band, if_neg bad, if_neg band]

end

/-- A form whose word is one for each executing lane. -/
theorem blockForm_over {c : Ctl} {u : Use} {s : State} {w : Wave} {pc : CodeAddr} {a : Nat} {f : Ex → Word → List Word → Except (Nat × Word) Tile}
    {ts : List Tile} (h : Clear c u s w pc) (same : ∀ x m va l, f (x.withRegs m) va l = f x va l)
    (pass : (execLanes c u.q w (w.activeAt pc)).map (blockTile f a (context c u s w pc)) = ts.map .ok)
    (there : ∀ k ∈ execLanes c u.q w (w.activeAt pc), blockAbsent a (context c u s w pc) k = false) (room : w.cnttl < 15) :
    ∃ t v, word c u (fun x => blockWord x a (fun _ va l => f x va l)) s = .next t ∧
      Over (s.addTiles w ((execLanes c u.q w (w.activeAt pc)).zip ts))
        { w with tlWords := w.tlWords ++ [w.nextOp], nextOp := w.nextOp + 1, rngctr := if false = true then w.rngctr + 1 else w.rngctr } w pc t v :=
  tileWord_over h false (blockWord_of_pass h same pass there room)

/-- OBLD whose lanes all pass. -/
theorem obld_of_pass {c : Ctl} {u : Use} {s : State} {w : Wave} {pc : CodeAddr} {a b : Nat} {ts : List Tile} (h : Clear c u s w pc)
    (pass : (execLanes c u.q w (w.activeAt pc)).map (fun i => obldLane (context c u s w pc) ((context c u s w pc).v a i) ((context c u s w pc).v b i)) =
      ts.map .ok)
    (there : ∀ k ∈ execLanes c u.q w (w.activeAt pc), tileAbsent (context c u s w pc)
      (obldLane (context c u s w pc) ((context c u s w pc).v a k) ((context c u s w pc).v b k)) = false) (room : w.cnttl < 15) :
    (fun x : Ex => let l := x.lanes.map (fun i => (i, obldLane x (x.v a i) (x.v b i))); tileWord x (l.any (fun p => tileAbsent x p.2)) l)
      (clearEx c u s w pc) = .done ((s.addTiles w ((execLanes c u.q w (w.activeAt pc)).zip ts)).setWave w.tileCounted) {} := by
  obtain ⟨m, hm⟩ := clearEx_withRegs h
  have tiles : ∀ i ∈ execLanes c u.q w (w.activeAt pc), obldLane (clearEx c u s w pc) ((clearEx c u s w pc).v a i) ((clearEx c u s w pc).v b i) =
      obldLane (context c u s w pc) ((context c u s w pc).v a i) ((context c u s w pc).v b i) := fun i hi => by
    rw [clearEx_v_context h a hi, clearEx_v_context h b hi, hm, obldLane_withRegs]
  dsimp only
  have present : ((clearEx c u s w pc).lanes.map (fun i => (i, obldLane (clearEx c u s w pc) ((clearEx c u s w pc).v a i)
      ((clearEx c u s w pc).v b i)))).any (fun p => tileAbsent (clearEx c u s w pc) p.2) = false := by
    rw [List.any_map, List.any_eq_false]
    intro k hk
    rw [Function.comp, tiles k hk, hm]
    exact fun h => Bool.false_ne_true ((there k hk).symm.trans h)
  rw [present]
  exact tileWord_of_pass (clearEx_wave h) ((List.map_congr_left tiles).trans pass) h.some room

/-- Whether a lane's block has its DRAIN draw (R199). -/
def drawsAt (x : Ex) (a i : Nat) : Bool :=
  match x.block (x.v a i) with
  | .ok b => (DrainBlock.ofWords b.2).rndCode == 5
  | .error _ => false

/-- The effect of DRAIN behind the word of its blocks: the draw counted, and a purity fault noted. -/
def drainRest (a : Nat) (x : Ex) (s1 : State) (r : Done) : Out :=
  let stray := x.l.pure && x.l.puretrap && r.faults.any (fun p => match x.block (x.v a p.1) with
    | .ok b => p.2.1 == cPERM && (drainStray x.l (DrainBlock.ofWords b.2)) == some p.2.2
    | .error _ => false)
  let s2 := match s1.wave? x.w.core x.w.slot with
    | some w => s1.setWave (w.advanceRng (x.lanes.any (fun i => !(r.faults.any (fun p => p.1 == i)) && drawsAt x a i)))
    | none => s1
  .done (if stray then s2.impure x.w.launch else s2) r

/-- A word without faults. -/
theorem drainRest_of_pass {a : Nat} {x : Ex} {s1 : State} {v : Wave} (left : s1.wave? x.w.core x.w.slot = some v) :
    drainRest a x s1 {} = .done (s1.setWave (v.advanceRng (x.lanes.any (drawsAt x a)))) {} := by
  unfold drainRest
  simp only [left, List.any_nil, Bool.and_false, Bool.not_false, Bool.true_and, Bool.false_eq_true, if_false]

/-- DRAIN whose lanes all pass: the word of its blocks, and the draw counted (R199). -/
theorem drain_over {c : Ctl} {s : State} {w : Wave} {pc : CodeAddr} {a : Nat} {ts : List Tile} {u : Use}
    (names : u = { roles := [0, 2, 3], vr := [a], hold := holdReg c (some a) none none }) (h : Clear c u s w pc)
    (pass : (execLanes c u.q w (w.activeAt pc)).map (blockTile drainLane a (context c u s w pc)) = ts.map .ok)
    (there : ∀ k ∈ execLanes c u.q w (w.activeAt pc), blockAbsent a (context c u s w pc) k = false) (room : w.cnttl < 15) :
    ∃ t v, exec (.drain c a) s = .next t ∧ Over (s.addTiles w ((execLanes c u.q w (w.activeAt pc)).zip ts))
      { w with
        tlWords := w.tlWords ++ [w.nextOp], nextOp := w.nextOp + 1,
        rngctr := if (context c u s w pc).lanes.any (drawsAt (context c u s w pc) a) = true then w.rngctr + 1 else w.rngctr } w pc t v := by
  obtain ⟨m, hm⟩ := clearEx_withRegs h
  have draws : (clearEx c u s w pc).lanes.any (drawsAt (clearEx c u s w pc) a) = (context c u s w pc).lanes.any (drawsAt (context c u s w pc) a) := by
    rw [Bool.eq_iff_iff, List.any_eq_true, List.any_eq_true]
    refine exists_congr fun i => and_congr_right fun hi => ?_
    unfold drawsAt
    rw [clearEx_v_context h a hi, hm, block_withRegs]
  have spot : (clearEx c u s w pc).w.core = w.core ∧ (clearEx c u s w pc).w.slot = w.slot := by
    rw [hm]
    exact ⟨rfl, rfl⟩
  have left : ((s.addTiles w ((execLanes c u.q w (w.activeAt pc)).zip ts)).setWave w.tileCounted).wave? (clearEx c u s w pc).w.core
      (clearEx c u s w pc).w.slot = some w.tileCounted := by
    rw [spot.1, spot.2]
    exact State.wave?_setWave_self (((wavesKept_addTiles w _ s).wave? ..).trans (clear_wave h)) rfl rfl
  have blocks := blockWord_of_pass h (fun x m va l => drainLane_withRegs x m va l) pass there room
  subst names
  refine tileWord_over (body := fun x => match blockWord x a (fun _ va l => drainLane x va l) with
    | .hold s1 k => .hold s1 k
    | .done s1 r => drainRest a x s1 r) h _ ?_
  dsimp only
  rw [blocks]
  dsimp only
  rw [drainRest_of_pass left, draws, State.setWave_setWave] <;> rw [advanceRng_eq]

/-- Settles O47: each form's word passes as its lemma says. -/
theorem tileWords : Obligations.TileWords := by
  intro i f s w pc ts hi h x lanes pass there room
  unfold tileForm at hi
  split at hi
  case h_1 c a b => -- ACCZ
    cases hi
    refine tileWord_over h false ?_
    rw [clearEx_of_no_vector h rfl]
    obtain ⟨t, -, passes⟩ := List.mem_map.mp (pass ▸ List.mem_map_of_mem (List.mem_singleton_self _))
    exact (acczBody_of_pass a b passes.symm).trans (tileWord_of_pass (seen_wave (clear_wave h) _) pass (List.cons_ne_nil _ _) room)
  case h_2 c a b => -- OBLD
    cases hi
    exact tileWord_over h false (obld_of_pass h pass there room)
  case h_3 c a => -- MMA
    cases hi
    exact blockForm_over h (fun _ _ _ _ => rfl) pass there room
  case h_4 c a => -- MMAS
    cases hi
    exact blockForm_over h (fun _ _ _ _ => rfl) pass there room
  case h_5 c a => -- DRAIN
    cases hi
    exact drain_over rfl h pass there room
  case h_6 => cases hi

end Sys2Proof.Machine

/-! Service calls (spec/21 R345, R346, R350): what a batch written leaves in its slot, what SVC posts, and what its reply does. -/
namespace Sys2Proof.Machine
open Sys2Proof.Safety

/-! ### A batch in its slot -/

/-- The arguments of a batch stored. -/
def State.storeArgs (s : State) (ma : Nat) (args : List (List Word)) : State :=
  (args.zipIdx).foldl (fun u p => u.deviceStore (ma + 0x40 + 32 * p.2) (wordBytes p.1)) s

theorem storeArgs_append (s : State) (ma : Nat) (args : List (List Word)) (l : List Word) :
    s.storeArgs ma (args ++ [l]) = (s.storeArgs ma args).deviceStore (ma + 0x40 + 32 * args.length) (wordBytes l) := by
  simp [State.storeArgs, List.zipIdx_append]

theorem storeArgs_mem (s : State) (ma : Nat) (args : List (List Word)) : ∃ m, s.storeArgs ma args = s.setMem m := by
  induction args using List.reverseRecOn with
  | nil => exact ⟨s.mem, rfl⟩
  | append_singleton args l ih =>
    obtain ⟨m, h⟩ := ih
    obtain ⟨m', h'⟩ := deviceStore_mem (s.setMem m) (ma + 0x40 + 32 * args.length) (wordBytes l) none
    exact ⟨m', by rw [storeArgs_append, h, h']; rfl⟩

/-- The arguments of each entry stand at its place, and no other byte changes. -/
theorem byte_storeArgs (s : State) (ma : Nat) {args : List (List Word)} (four : ∀ l ∈ args, l.length = 4) :
    (∀ m, m < ma + 0x40 ∨ ma + 0x40 + 32 * args.length ≤ m → (s.storeArgs ma args).byte m = s.byte m) ∧
      ∀ (j : Nat) (l : List Word), args[j]? = some l → ∀ k < 32, (s.storeArgs ma args).byte (ma + 0x40 + 32 * j + k) = (wordBytes l).getD k 0 := by
  induction args using List.reverseRecOn with
  | nil => exact ⟨fun _ _ => rfl, fun j l h => by simp at h⟩
  | append_singleton args l ih =>
    obtain ⟨out, stands⟩ := ih (fun x hx => four x (List.mem_append_left _ hx))
    have size : (wordBytes l).length = 32 := by rw [wordBytes_length, four l (by simp)]
    rw [storeArgs_append]
    refine ⟨fun m hm => ?_, fun j x hj k hk => ?_⟩
    · rw [List.length_append, List.length_singleton] at hm
      rw [byte_deviceStore, if_neg (by omega), out m (by omega)]
    · rw [byte_deviceStore, size]
      rcases Nat.lt_trichotomy j args.length with before | last | behind
      · rw [if_neg (by omega)]
        exact stands j x (by rwa [List.getElem?_append_left before] at hj) k hk
      · subst last
        rw [List.getElem?_append_right (Nat.le_refl _), Nat.sub_self] at hj
        cases hj
        rw [if_pos (by omega)]
        congr 1
        omega
      · rw [List.getElem?_eq_none (by simp; omega)] at hj
        cases hj

theorem getD_zeros (n m : Nat) : (List.replicate n (0 : Byte)).getD m 0 = 0 := by
  simp [List.getD_eq_getElem?_getD, List.getElem?_replicate]
  split <;> rfl

section
variable (s : State) (t cls k hdr : Nat) (args : List (List Word)) (tag : Option WTag)

theorem writeBatch_eq : s.writeBatch t cls k hdr args tag =
    (((s.storeArgs (slotAddr (s.tenant t) cls k) args).deviceStore (slotAddr (s.tenant t) cls k + 0x640) (List.replicate 448 0)).deviceStore
      (slotAddr (s.tenant t) cls k) (bytesOf 64 hdr)).deviceStore (slotAddr (s.tenant t) cls k + 56) (bytesOf 8 1) tag := rfl

/-- A batch written changes memory alone. -/
theorem writeBatch_mem : ∃ m, s.writeBatch t cls k hdr args tag = s.setMem m := by
  obtain ⟨m, h⟩ := storeArgs_mem s (slotAddr (s.tenant t) cls k) args
  rw [writeBatch_eq, h]
  obtain ⟨m1, h1⟩ := deviceStore_mem (s.setMem m) (slotAddr (s.tenant t) cls k + 0x640) (List.replicate 448 0) none
  obtain ⟨m2, h2⟩ := deviceStore_mem (s.setMem m1) (slotAddr (s.tenant t) cls k) (bytesOf 64 hdr) none
  obtain ⟨m3, h3⟩ := deviceStore_mem (s.setMem m2) (slotAddr (s.tenant t) cls k + 56) (bytesOf 8 1) tag
  exact ⟨m3, by rw [h1, show (s.setMem m).setMem m1 = s.setMem m1 from rfl, h2, show (s.setMem m1).setMem m2 = s.setMem m2 from rfl, h3]; rfl⟩

variable (four : ∀ l ∈ args, l.length = 4) (many : args.length ≤ 32)
include four many

/-- A slot whose batch is written: VALID, a zero reply word, the arguments, and no byte outside it changed. -/
theorem writeBatch_slot : let ma := slotAddr (s.tenant t) cls k
    (s.writeBatch t cls k hdr args tag).readWord (ma + 56) = 1 ∧ (s.writeBatch t cls k hdr args tag).readWord (ma + 0x640) = 0 ∧
      (∀ j l, args[j]? = some l → ∀ n < 4, (s.writeBatch t cls k hdr args tag).readWord (ma + 0x40 + 32 * j + 8 * n) = l.getD n 0) ∧
      ∀ m, m < ma ∨ ma + 0x800 ≤ m → (s.writeBatch t cls k hdr args tag).byte m = s.byte m := by
  intro ma
  obtain ⟨out, stands⟩ := byte_storeArgs s ma four
  have byte : ∀ m, (s.writeBatch t cls k hdr args tag).byte m =
      if ma + 56 ≤ m ∧ m < ma + 56 + 8 then (bytesOf 8 1).getD (m - (ma + 56)) 0
      else if ma ≤ m ∧ m < ma + 64 then (bytesOf 64 hdr).getD (m - ma) 0
      else if ma + 0x640 ≤ m ∧ m < ma + 0x640 + 448 then (List.replicate 448 (0 : Byte)).getD (m - (ma + 0x640)) 0
      else (s.storeArgs ma args).byte m := fun m => by
    rw [writeBatch_eq, byte_deviceStore, byte_deviceStore, byte_deviceStore, bytesOf_length, bytesOf_length, List.length_replicate]
  refine ⟨?_, ?_, fun j l hj n hn => ?_, fun m hm => ?_⟩
  · rw [writeBatch_eq]
    exact State.readWord_deviceStore ..
  · refine readWord_of_bytes (v := 0) (fun n hn => ?_)
    rw [byte, if_neg (by omega), if_neg (by omega), if_pos (by omega)]
    rw [getD_zeros, getD_bytesOf 8 0 hn, Nat.zero_div]
    rfl
  · have size : l.length = 4 := four l (List.mem_of_getElem? hj)
    have low : j < args.length := (List.getElem?_eq_some_iff.mp hj).1
    refine readWord_wordBytes (l := l) (fun m hm => ?_) (by omega)
    rw [byte, if_neg (by omega), if_neg (by omega), if_neg (by omega)]
    exact stands j l hj m (by omega)
  · rw [byte, if_neg (by omega), if_neg (by omega), if_neg (by omega), out m (by omega)]

end

/-! ### SVC (R345) -/

/-- What posting a batch leaves: it may wake waves, and stores nothing. -/
structure Posted (s t : State) : Prop where
  bytes : t.mem.bytes = s.mem.bytes
  ctl : t.ctl = s.ctl
  batches : t.tasks.batches = s.tasks.batches
  tenants : t.tasks.tenants = s.tasks.tenants
  waves : ∀ c k v, s.wave? c k = some v → ∃ b, t.wave? c k = some { v with wake := b }

theorem posted_wakeRuntime (s : State) (t : Nat) : Posted s (s.wakeRuntime t) := by
  obtain ⟨w, l, h⟩ := wakeRuntime_eq s t
  exact ⟨by rw [h], by rw [h], by rw [h], by rw [h], fun _ _ _ => wave?_wakeRuntime t⟩

theorem Posted.trans {s t u : State} (h : Posted s t) (g : Posted t u) : Posted s u where
  bytes := g.bytes.trans h.bytes
  ctl := g.ctl.trans h.ctl
  batches := g.batches.trans h.batches
  tenants := g.tenants.trans h.tenants
  waves := fun c k v here => by
    obtain ⟨b, woken⟩ := h.waves c k v here
    obtain ⟨b', kept⟩ := g.waves c k _ woken
    exact ⟨b', kept⟩

theorem posted_spendCtl (s : State) (core : Nat) (b : Stop) : Posted s (s.spendCtl core b) :=
  ⟨rfl, rfl, rfl, rfl, fun _ _ v here => ⟨v.wake, here⟩⟩

theorem posted_setDev (s : State) (d : Device) : Posted s (s.setDev d) := ⟨rfl, rfl, rfl, rfl, fun _ _ v here => ⟨v.wake, here⟩⟩

theorem posted_postBatch (s : State) (w : Wave) (cls k : Nat) : Posted s (s.postBatch w cls k) := by
  unfold State.postBatch
  dsimp only
  split
  · exact (posted_spendCtl ..).trans (posted_wakeRuntime ..)
  · exact (posted_spendCtl ..).trans (posted_setDev ..)
  · exact posted_spendCtl ..

/-- What SVC names. -/
abbrev svcUse (a d : Nat) : Use := { vr := span a 4, vw := span d 2, lat := 0, impure := true, hok := true }

/-- The header that SVC writes. -/
def Ex.svcHeader (x : Ex) (w : Wave) (cls code : Nat) : Nat :=
  batchHeader x.s.ctl.seq x.l.lid w.wid code x.lanes.length cls x.hnd.toNat 0 (maskOf (fun i => x.lanes.contains i)).toNat w.corepl x.pc.toNat
    (x.s.time w.tenant)

/-- A wave whose lanes wait for a service (R345). -/
def Wave.serving (w : Wave) (lanes : List Nat) : Wave := w.mapLanes (fun i => lanes.contains i) (fun l => { l with st := .service })

/-- The state with the batch of a call in its slot, and the wave waiting. -/
def State.called (s : State) (w : Wave) (d cls k hdr : Nat) (lanes : List Nat) (args : List (List Word)) : State :=
  let s1 := (s.writeBatch w.tenant cls k hdr args (some (w.releaseTag (svcScope cls)))).takeSeq
  (s1.setTasks { s1.tasks with batches := s1.tasks.batches ++ [⟨w.tenant, cls, k, w.launch, w.wid, d, lanes, false, false, none⟩] }).setWave
    (w.serving lanes)

theorem called_mem (s : State) (w : Wave) (d cls k hdr : Nat) (lanes : List Nat) (args : List (List Word)) :
    (s.called w d cls k hdr lanes args).mem = (s.writeBatch w.tenant cls k hdr args (some (w.releaseTag (svcScope cls)))).mem := rfl

section
variable {c : Ctl} {s : State} {w : Wave} {pc : CodeAddr} {d a cls k : Nat}

/-- The effect of SVC. -/
theorem svcBody_posts (code : Nat) (h : Clear c (svcUse a d) s w pc) (free : s.freeSlot w.tenant cls = some k)
    (released : releaseSide s w (svcScope cls) = none) :
    ∃ hdr body, exec (.svc c d a cls code) s = word c (svcUse a d) body s ∧
      body (clearEx c (svcUse a d) s w pc) = .done ((s.called w d cls k hdr (execLanes c false w (w.activeAt pc))
        ((execLanes c false w (w.activeAt pc)).map (fun i => (span a 4).map (fun r => w.vreg r i)))).postBatch w cls k)
        { stay := execLanes c false w (w.activeAt pc) } := by
  refine ⟨(clearEx c (svcUse a d) s w pc).svcHeader w cls code, _, rfl, ?_⟩
  dsimp only
  rw [clearEx_wave h, clearEx_s, free]
  dsimp only
  rw [released]
  have args : (clearEx c (svcUse a d) s w pc).lanes.map (fun i => (span a 4).map (fun r => (clearEx c (svcUse a d) s w pc).v r i)) =
      (execLanes c false w (w.activeAt pc)).map (fun i => (span a 4).map (fun r => w.vreg r i)) :=
    List.map_congr_left fun i hi => by
      have low : i < 32 := execLanes_lt (c := c) (q := false) i hi
      simp only [clearEx_v h low]
  rw [args]
  rfl

/-- The wave of a call, with its lanes as they are sent: those that call stay, the others go on. -/
theorem lane_serving (b : Bool) (i : Nat) :
    (Done.lanes { stay := execLanes c false w (w.activeAt pc) } { w.serving (execLanes c false w (w.activeAt pc)) with wake := b } pc
      (w.activeAt pc)).lane i = if i ∈ execLanes c false w (w.activeAt pc) then { w.lane i with st := .service }
        else if i ∈ w.activeAt pc then { w.lane i with pc := pc + 8 } else w.lane i := by
  have mapped := lane_mapLanes (fun l => { l with st := .service }) (execLanes_standing (c := c) (q := false) (w := w) (pc := pc)) i
  change ({ w.serving (execLanes c false w (w.activeAt pc)) with wake := b } : Wave).lane i = _ at mapped
  rw [lane_sends_of_no_fault rfl (List.length_mapIdx ..), mapped]
  by_cases calls : i ∈ execLanes c false w (w.activeAt pc)
  · simp [calls, execLanes_sub calls, Done.sends]
  · simp [calls, Done.sends, Done.nextPc]

end

/-- Settles O33: the slot is what `writeBatch_slot` says, and the lanes what `lane_serving` says. -/
theorem serviceCall : Obligations.ServiceCall := by
  intro c d a cls code s w pc k h free released _ lanes ma
  obtain ⟨hdr, body, is, posts⟩ := svcBody_posts (cls := cls) code h free released
  have here := clear_wave h
  set args := (execLanes c false w (w.activeAt pc)).map (fun i => (span a 4).map (fun r => w.vreg r i)) with hargs
  obtain ⟨m, written⟩ := writeBatch_mem s w.tenant cls k hdr args (some (w.releaseTag (svcScope cls)))
  have post := posted_postBatch (s.called w d cls k hdr lanes args) w cls k
  have called : (s.called w d cls k hdr lanes args).wave? w.core w.slot = some (w.serving lanes) := by
    unfold State.called
    rw [written]
    exact State.wave?_setWave_self here rfl rfl
  obtain ⟨b, woken⟩ := post.waves _ _ _ called
  have cycle : ((s.called w d cls k hdr lanes args).postBatch w cls k).ctl.cycle = s.ctl.cycle := by
    rw [post.ctl, State.called, written]
    rfl
  have sent := lane_serving (c := c) (w := w) (pc := pc) b
  obtain ⟨j, active, ready⟩ := clear_lane h
  have live : (Done.lanes { stay := lanes } { w.serving lanes with wake := b } pc (w.activeAt pc)).allExited = false := by
    refine allExited_of_st (j := j) ?_
    rw [sent j]
    split_ifs <;> simp [ready]
  obtain ⟨t, v, e, hv, booked, kept⟩ := word_done h posts woken cycle live
  obtain ⟨m', moved⟩ := doneLanes_other { stay := lanes } { w.serving lanes with wake := b } pc (w.activeAt pc)
  have byte : ∀ m, t.byte m = (s.writeBatch w.tenant cls k hdr args (some (w.releaseTag (svcScope cls)))).byte m := fun m => by
    rw [State.byte, State.byte, kept.mem, post.bytes, called_mem]
  have four : ∀ l ∈ args, l.length = 4 := fun l hl => by
    obtain ⟨i, -, rfl⟩ := List.mem_map.mp hl
    rw [List.length_map, span, List.length_map, List.length_range]
  have many : args.length ≤ 32 := by
    rw [hargs, List.length_map]
    exact (List.length_filter_le ..).trans ((List.length_filter_le ..).trans ((List.length_filter_le ..).trans List.length_range.le))
  obtain ⟨valid, reply, entries, outside⟩ := writeBatch_slot s w.tenant cls k hdr args (some (w.releaseTag (svcScope cls))) four many
  have calm : Calm s w → Calm ((s.called w d cls k hdr lanes args).postBatch w cls k) { w.serving lanes with wake := b } := fun quiet => by
    unfold Calm State.tenant at *
    rw [post.tenants, State.called, written]
    exact quiet
  have lane : ∀ i, v.lane i = (Done.lanes { stay := lanes } { w.serving lanes with wake := b } pc (w.activeAt pc)).lane i := fun i => by
    obtain ⟨_, _, _, _, _, _, _, _, rfl⟩ := booked
    rfl
  refine ⟨t, v, (congrArg (· = _) is).mpr e, hv, fun i _ => (lane i).trans (sent i), ?_⟩
  rw [moved] at booked
  obtain ⟨_, _, _, _, _, _, _, _, rfl⟩ := booked
  refine ⟨rfl, rfl, ⟨rfl, rfl⟩, ⟨rfl, rfl⟩, specialKept_same rfl, fun quiet => ?_, ?_, ?_, fun j n hn i hi => ?_, fun m hm => ?_⟩
  · obtain ⟨tasks, ctl⟩ := kept.tasks (calm quiet)
    rw [tasks, ctl, post.batches, post.ctl, State.called, written]
    exact ⟨rfl, rfl⟩
  · exact (State.readWord_congr fun n _ => byte _).trans valid
  · exact (State.readWord_congr fun n _ => byte _).trans reply
  · rw [State.readWord_congr fun m _ => byte _, entries j ((span a 4).map (fun r => w.vreg r i)) (by simp [args, lanes, hi]) n hn]
    simp [span, List.getD_eq_getElem?_getD, hn]
  · exact (byte m).trans (outside m hm)

end Sys2Proof.Machine

/-! What the end of a batch does (spec/21 R346, R350): its wave's lanes take their replies, and its slot is free; and an upcall that takes one. -/
namespace Sys2Proof.Machine
open Sys2Proof.Safety

/-! ### Replies -/

/-- The replies of one lane: each register that the wave still holds takes its own (R155). -/
theorem takeReply_eq (w : Wave) (r i : Nat) (x y : Word) (low : i < 32) : ∃ m, w.takeReply r i x y = { w with vregs := m } ∧
    ∀ q, ∀ j < 32, (w.takeReply r i x y).vreg q j =
      if q = r + 1 ∧ j = i ∧ q < w.vcount then y else if q = r ∧ j = i ∧ q < w.vcount then x else w.vreg q j := by
  unfold Wave.takeReply
  dsimp only
  by_cases first : w.vcount ≤ r <;> by_cases second : w.vcount ≤ r + 1
  all_goals simp only [first, second, if_true, if_false]
  · refine ⟨_, rfl, fun q j hj => ?_⟩
    rw [if_neg (by omega), if_neg (by omega)]
  · omega
  · refine ⟨_, rfl, fun q j hj => ?_⟩
    rw [if_neg (by omega), Wave.vreg_setVreg _ _ _ _ low hj]
    exact if_congr (by omega) rfl rfl
  · refine ⟨_, rfl, fun q j hj => ?_⟩
    rw [Wave.vreg_setVreg _ _ _ _ low hj, Wave.vreg_setVreg _ _ _ _ low hj]
    refine if_congr (by omega) rfl (if_congr (by omega) rfl rfl)

/-- One entry of a batch of lanes given its replies, where its lane waits for them. -/
def Batch.reply (b : Batch) (get : Nat → Word × Word) (v : Wave) (p : Nat × Nat) : Wave :=
  if (v.lane p.1).st = .service then wakeLane b.reg p.1 (get p.2).1 (get p.2).2 v else v

/-- What the replies of some entries leave: of each lane that waits its two registers and where it goes on, and nothing else. -/
structure Replied (b : Batch) (get : Nat → Word × Word) (l : List (Nat × Nat)) (w v : Wave) : Prop where
  same : ∃ m n, v = { w with vregs := m, lanes := n }
  length : v.lanes.length = w.lanes.length
  lanes : ∀ i, (∀ p ∈ l, p.1 ≠ i) → v.lane i = w.lane i
  regs : ∀ q, ∀ i < 32, ¬((q = b.reg ∨ q = b.reg + 1) ∧ q < w.vcount ∧ ∃ p ∈ l, p.1 = i) → v.vreg q i = w.vreg q i
  replies : ∀ p ∈ l, (w.lane p.1).st = .service → v.lane p.1 = { w.lane p.1 with st := .ready, pc := (w.lane p.1).pc + 8 } ∧
    (b.reg < w.vcount → v.vreg b.reg p.1 = (get p.2).1) ∧ (b.reg + 1 < w.vcount → v.vreg (b.reg + 1) p.1 = (get p.2).2)

theorem replied_one (b : Batch) (get : Nat → Word × Word) {w : Wave} {p : Nat × Nat} (low : p.1 < 32) (stands : p.1 < w.lanes.length) :
    Replied b get [p] w (b.reply get w p) := by
  unfold Batch.reply
  split
  case isFalse idle =>
    exact ⟨⟨_, _, rfl⟩, rfl, fun _ _ => rfl, fun _ _ _ _ => rfl, fun q hq waits => absurd (List.mem_singleton.mp hq ▸ waits) idle⟩
  case isTrue waits =>
    obtain ⟨m, takes, value⟩ := takeReply_eq w b.reg p.1 (get p.2).1 (get p.2).2 low
    unfold wakeLane
    dsimp only
    refine ⟨?_, ?_, fun i other => ?_, fun q i hi other => ?_, fun q hq _ => ?_⟩
    · rw [takes]
      exact ⟨_, _, rfl⟩
    · rw [takes]
      exact List.length_set
    · rw [lane_setLane_ne _ (fun e => other p List.mem_cons_self e.symm), takes]
      rfl
    · rw [Wave.vreg_setLane, value q i hi, if_neg, if_neg]
      · exact fun ⟨eq, lane, held⟩ => other ⟨.inl eq, held, p, List.mem_cons_self, lane.symm⟩
      · exact fun ⟨eq, lane, held⟩ => other ⟨.inr eq, held, p, List.mem_cons_self, lane.symm⟩
    · cases List.mem_singleton.mp hq
      refine ⟨?_, fun held => ?_, fun held => ?_⟩
      · rw [lane_setLane_self _ (by rw [takes]; exact stands), takes]
        rfl
      · rw [Wave.vreg_setLane, value _ _ low, if_neg (by omega), if_pos ⟨rfl, rfl, held⟩]
      · rw [Wave.vreg_setLane, value _ _ low, if_pos ⟨rfl, rfl, held⟩]

theorem Replied.cons {b : Batch} {get : Nat → Word × Word} {l : List (Nat × Nat)} {w u v : Wave} {p : Nat × Nat} (low : p.1 < 32)
    (first : Replied b get [p] w u) (rest : Replied b get l u v) (apart : ∀ q ∈ l, q.1 ≠ p.1) :
    Replied b get (p :: l) w v := by
  obtain ⟨⟨m, n, rfl⟩, size, stays, keeps, gives⟩ := first
  obtain ⟨same, size', stays', keeps', gives'⟩ := rest
  have only : ∀ i, i ≠ p.1 → ∀ q ∈ [p], q.1 ≠ i := fun i ne q hq e => ne (by rw [← e, List.mem_singleton.mp hq])
  refine ⟨?_, size'.trans size, fun i other => ?_, fun q i hi other => ?_, fun q hq waits => ?_⟩
  · obtain ⟨m', n', rfl⟩ := same
    exact ⟨m', n', rfl⟩
  · rw [stays' i (fun q hq => other q (List.mem_cons_of_mem _ hq)), stays i (fun q hq => other q (List.mem_singleton.mp hq ▸ List.mem_cons_self))]
  · rw [keeps' q i hi (fun ⟨reg, held, x, hx, lane⟩ => other ⟨reg, held, x, List.mem_cons_of_mem _ hx, lane⟩),
      keeps q i hi (fun ⟨reg, held, x, hx, lane⟩ => other ⟨reg, held, x, List.mem_singleton.mp hx ▸ List.mem_cons_self, lane⟩)]
  · rcases List.mem_cons.mp hq with rfl | later
    · obtain ⟨lane, one, two⟩ := gives q List.mem_cons_self waits
      refine ⟨(stays' _ (fun x hx => apart x hx)).trans lane, fun held => ?_, fun held => ?_⟩
      · rw [keeps' _ _ low (fun ⟨_, _, x, hx, e⟩ => apart x hx e), one held]
      · rw [keeps' _ _ low (fun ⟨_, _, x, hx, e⟩ => apart x hx e), two held]
    · have lane := stays q.1 (only q.1 (apart q later))
      have answers := gives' q later (by rw [lane]; exact waits)
      rw [lane] at answers
      exact answers

/-- The entries of a batch, each of a lane of its own, given their replies one after another. -/
theorem replied_foldl (b : Batch) (get : Nat → Word × Word) (l : List (Nat × Nat)) (w : Wave) (distinct : (l.map Prod.fst).Nodup)
    (low : ∀ p ∈ l, p.1 < 32 ∧ p.1 < w.lanes.length) : Replied b get l w (l.foldl (b.reply get) w) := by
  induction l generalizing w with
  | nil => exact ⟨⟨_, _, rfl⟩, rfl, fun _ _ => rfl, fun _ _ _ _ => rfl, fun _ h => by cases h⟩
  | cons p l ih =>
    obtain ⟨fresh, distinct⟩ := List.nodup_cons.mp distinct
    obtain ⟨here, stands⟩ := low p List.mem_cons_self
    have first := replied_one b get here stands
    have rest := ih (b.reply get w p) distinct fun q hq =>
      ⟨(low q (List.mem_cons_of_mem _ hq)).1, first.length ▸ (low q (List.mem_cons_of_mem _ hq)).2⟩
    exact first.cons here rest (fun q hq e => fresh (List.mem_map.mpr ⟨q, hq, e⟩))

/-- Replies leave the wave in its slot. -/
theorem foldl_reply_spot (b : Batch) (get : Nat → Word × Word) : ∀ (l : List (Nat × Nat)) (w : Wave),
    (l.foldl (b.reply get) w).core = w.core ∧ (l.foldl (b.reply get) w).slot = w.slot
  | [], _ => ⟨rfl, rfl⟩
  | p :: l, w => by
    obtain ⟨core, slot⟩ := foldl_reply_spot b get l (b.reply get w p)
    have spot : (b.reply get w p).core = w.core ∧ (b.reply get w p).slot = w.slot := by
      unfold Batch.reply wakeLane Wave.takeReply
      dsimp only
      split_ifs <;> exact ⟨rfl, rfl⟩
    exact ⟨core.trans spot.1, slot.trans spot.2⟩

/-- What a batch of lanes does to its wave. -/
theorem apply_eq (b : Batch) (get : Nat → Word × Word) (w : Wave) (lanes : b.hnd = false) :
    ∃ n, b.apply get w = { b.lanes.zipIdx.foldl (b.reply get) w with wake := true, hangcnt := n } := by
  refine ⟨if b.lanes = [] then (b.lanes.zipIdx.foldl (b.reply get) w).hangcnt else 0, ?_⟩
  unfold Batch.apply
  simp only [lanes, Bool.false_eq_true, if_false]
  rfl

/-! ### A batch that is over (R346) -/

/-- A wave of a launch changed, where it stands. -/
theorem wave?_mapWave {s : State} {w : Wave} {c k uid wid : Nat} {f : Wave → Wave} (here : s.wave? c k = some w) (launch : w.launch = uid)
    (own : w.wid = wid) (stays : ∀ w, (f w).core = w.core ∧ (f w).slot = w.slot) : (s.mapWave uid wid f).wave? c k = some (f w) := by
  unfold State.mapWave
  rw [wave?_mapWaves s uid (fun w => by split; exacts [stays w, ⟨rfl, rfl⟩]), here, Option.map_some, launch, own]
  simp

/-- The replies given to the wave of a batch (R346). -/
theorem deliver_some {s : State} {b : Batch} {w : Wave} (get : Nat → Word × Word)
    (found : s.cores.waves.find? (fun x => x.launch == b.launch && x.wid == b.wid) = some w) (here : s.wave? w.core w.slot = some w)
    (undropped : w.dropped = []) (lanes : b.hnd = false) (distinct : b.lanes.Nodup) (low : ∀ i ∈ b.lanes, i < 32 ∧ i < w.lanes.length) :
    ∃ s1 x v n tags written, s.deliver b get = some s1 ∧ s1.wave? w.core w.slot = some { v with wake := true, hangcnt := n } ∧
      x = { w with tags := tags, written := written } ∧ Replied b get b.lanes.zipIdx x v ∧ s1.mem = s.mem ∧
      s1.tasks.batches = s.tasks.batches ∧ s1.tasks.tenants = s.tasks.tenants := by
  obtain ⟨x, lands, tags, written, rfl⟩ := landing_of_undropped (s := s) (regs := b.regs) (.inl undropped)
  obtain ⟨launch, wid⟩ : w.launch = b.launch ∧ w.wid = b.wid := by simpa using List.find?_some found
  obtain ⟨n, applied⟩ := apply_eq b get { w with tags := tags, written := written } lanes
  have replied := replied_foldl b get b.lanes.zipIdx { w with tags := tags, written := written }
    (by rw [List.zipIdx_map_fst]; exact distinct) (fun p hp => low p.1 (List.fst_mem_of_mem_zipIdx hp))
  have stays : ∀ v : Wave, (b.apply get v).core = v.core ∧ (b.apply get v).slot = v.slot := fun v => by
    obtain ⟨n, applied⟩ := apply_eq b get v lanes
    rw [applied]
    exact foldl_reply_spot b get b.lanes.zipIdx v
  refine ⟨(s.setWave { w with tags := tags, written := written }).mapWave b.launch b.wid (b.apply get), _, _, n, tags, written, ?_, ?_, rfl, replied, ?_, ?_, ?_⟩
  · unfold State.deliver
    rw [found]
    dsimp only
    rw [lands]
    rfl
  · rw [← applied]
    exact wave?_mapWave (State.wave?_setWave_self here rfl rfl) launch wid stays
  all_goals rfl

/-- The slot of a batch freed: its reply word and VALID are zero. -/
def State.freeSlotAt (s : State) (ma : Nat) : State := (s.deviceStore (ma + 0x640) (bytesOf 8 0)).deviceStore (ma + 56) (bytesOf 8 0)

theorem freeSlotAt_mem (s : State) (ma : Nat) : ∃ m, s.freeSlotAt ma = s.setMem m := by
  obtain ⟨m, h⟩ := deviceStore_mem s (ma + 0x640) (bytesOf 8 0) none
  obtain ⟨m', h'⟩ := deviceStore_mem (s.setMem m) (ma + 56) (bytesOf 8 0) none
  exact ⟨m', by rw [State.freeSlotAt, h, h']; rfl⟩

theorem slot_freeSlotAt (s : State) (ma : Nat) : (s.freeSlotAt ma).readWord (ma + 0x640) = 0 ∧ (s.freeSlotAt ma).readWord (ma + 56) = 0 ∧
    ∀ m, m < ma ∨ ma + 0x800 ≤ m → (s.freeSlotAt ma).byte m = s.byte m := by
  refine ⟨?_, State.readWord_deviceStore .., fun m hm => ?_⟩
  · refine (State.readWord_congr fun n hn => ?_).trans (State.readWord_deviceStore s (ma + 0x640) 0 none)
    rw [State.freeSlotAt, byte_deviceStore, bytesOf_length, if_neg (by omega)]
  · rw [State.freeSlotAt, byte_deviceStore, byte_deviceStore, bytesOf_length, if_neg (by omega), if_neg (by omega)]

/-- The two replies of an entry. -/
def State.repliesAt (s : State) (ma j : Nat) : Word × Word := (s.readWord (ma + 0x440 + 16 * j), s.readWord (ma + 0x448 + 16 * j))

/-- The event of a batch whose replies are given. -/
theorem exec_serviceBatchComplete {s s1 : State} {t cls slot : Nat} {b : Batch} (there : s.batch? t cls slot = some b)
    (answered : b.answered.isSome = true) (first : s.firstAnswered b = true) (call : b.upcall = false)
    (live : (s.launch b.launch).endInfo = none) (gives : s.deliver b (s.repliesAt (slotAddr (s.tenant t) cls slot)) = some s1) :
    ∃ s2 u, L1Only s1 s2 ∧ exec (.serviceBatchComplete t cls slot) s = .next u ∧ u = (s2.freeSlotAt (slotAddr (s.tenant t) cls slot)).setTasks
      { (s2.freeSlotAt (slotAddr (s.tenant t) cls slot)).tasks with
        batches := (s2.freeSlotAt (slotAddr (s.tenant t) cls slot)).tasks.batches.filter (fun x => x != b) } := by
  have acquires : ∀ core, L1Only s1 (s1.acquire core (svcScope cls)) := fun core => by
    unfold State.acquire
    split
    · exact ⟨_, rfl⟩
    · exact .refl s1
  refine ⟨match (s1.cores.waves.find? (fun w => w.launch == b.launch && w.wid == b.wid)) with
    | some w => s1.acquire w.core (svcScope cls)
    | none => s1, _, ?_, ?_, rfl⟩
  · split
    · exact acquires _
    · exact .refl s1
  · refine congrArg Host.Outcome.next ?_
    have waits : ¬(b.answered.isNone || !s.firstAnswered b) = true := by
      rw [first, ← Option.not_isSome, answered]
      simp
    have goes : ¬(b.upcall = true ∨ (!(s.launch b.launch).endInfo.isNone) = true) := by simp [call, live]
    rw [there]
    dsimp only
    rw [if_neg waits, if_neg goes]
    change (match s.deliver b (s.repliesAt (slotAddr (s.tenant t) cls slot)) with
      | none => s
      | some s1 => _) = _
    rw [gives]
    simp only [live, Option.isNone_none, if_true]
    rfl

/-- The header of an upcall's batch (R350). -/
def upcallHeader (s : State) (t : Nat) (p : Upcall) : Nat := batchHeader p.seq p.lid p.wid p.code 0 0 0 1 0 0 0 (s.time t)

/-- The oldest upcall of a tenant in a slot. -/
def State.upcallTaken (s : State) (t k : Nat) (p : Upcall) (rest : List Upcall) : State :=
  let s1 := (s.setTenant { s.tenant t with upcalls := rest }).writeBatch t 0 k (upcallHeader s t p) [] (deviceRelease 3)
  s1.setTasks { s1.tasks with batches := s1.tasks.batches ++ [⟨t, 0, k, 0, 0, 0, [], false, true, none⟩] }

theorem upcallTaken_mem (s : State) (t k : Nat) (p : Upcall) (rest : List Upcall) : (s.upcallTaken t k p rest).mem =
    ((s.setTenant { s.tenant t with upcalls := rest }).writeBatch t 0 k (upcallHeader s t p) [] (deviceRelease 3)).mem := rfl

/-- Settles O34: the replies are what `replied_foldl` says, and the slots what `slot_freeSlotAt` and `writeBatch_slot` say. -/
theorem serviceEvents : Obligations.ServiceEvents := by
  constructor
  · intro t cls slot s b w there _ _ answered first call lanes distinct low live found undropped here ma
    obtain ⟨s1, x, v, n, tags, written, gives, left, rfl, replied, mem, batches, -⟩ := deliver_some (s.repliesAt ma) found here undropped lanes
      distinct low
    obtain ⟨s2, u, ⟨l1, acquired⟩, e, rfl⟩ := exec_serviceBatchComplete there answered first call live gives
    obtain ⟨m, freed⟩ := freeSlotAt_mem s2 ma
    obtain ⟨reply, valid, outside⟩ := slot_freeSlotAt s2 ma
    obtain ⟨⟨regs, ls, same⟩, -, stay, keep, take⟩ := replied
    have waves : s2.cores = s1.cores := (L1Only.kept ⟨l1, acquired⟩).1
    refine ⟨_, { v with wake := true, hangcnt := n }, e, ?_, rfl, fun j i entry waits => ?_, fun r i hi other => ?_, fun i hi other => ?_, ?_, ?_, ?_, ?_, reply, valid, fun m hm => ?_⟩
    · refine Eq.trans ?_ left
      rw [freed, State.wave?, State.wave?, ← waves]
      rfl
    · exact take (i, j) (List.mem_zipIdx_iff_getElem?.mpr entry) waits
    · refine keep r i hi fun ⟨reg, held, p, hp, lane⟩ => other ⟨reg, held, ?_⟩
      exact lane ▸ List.fst_mem_of_mem_zipIdx hp
    · exact stay i fun p hp lane => other (lane ▸ List.fst_mem_of_mem_zipIdx hp)
    · rw [same]
    · rw [same]
      exact ⟨rfl, rfl⟩
    · rw [same]
      exact ⟨rfl, rfl⟩
    · exact fun mem => by simpa using (List.mem_filter.mp mem).2
    · refine (outside m hm).trans ?_
      have bytes : s2.mem.bytes = s.mem.bytes := (L1Only.kept ⟨l1, acquired⟩).2.trans (congrArg MemSys.bytes mem)
      rw [State.byte, bytes]
      rfl
  · intro t s p rest k bound id waits free ma
    have tenant : (s.setTenant { s.tenant t with upcalls := rest }).tenant t = { s.tenant t with upcalls := rest } :=
      tenant_setTenant_of bound rfl id
    have place : slotAddr ((s.setTenant { s.tenant t with upcalls := rest }).tenant t) 0 k = ma := by rw [tenant]; rfl
    obtain ⟨m, written⟩ := writeBatch_mem (s.setTenant { s.tenant t with upcalls := rest }) t 0 k (upcallHeader s t p) [] (deviceRelease 3)
    obtain ⟨valid, reply, -, outside⟩ := writeBatch_slot (s.setTenant { s.tenant t with upcalls := rest }) t 0 k (upcallHeader s t p) []
      (deviceRelease 3) (fun _ h => nomatch h) (Nat.zero_le _)
    rw [place] at valid reply outside
    have posted := posted_wakeRuntime (s.upcallTaken t k p rest) t
    have byte : ∀ m, ((s.upcallTaken t k p rest).wakeRuntime t).byte m =
        ((s.setTenant { s.tenant t with upcalls := rest }).writeBatch t 0 k (upcallHeader s t p) [] (deviceRelease 3)).byte m := fun m => by
      rw [State.byte, State.byte, posted.bytes, upcallTaken_mem]
    refine ⟨(s.upcallTaken t k p rest).wakeRuntime t, ?_, ?_, posted.batches.trans ?_, ?_, ?_, fun m hm => (byte m).trans (outside m hm)⟩
    · exact congrArg Host.Outcome.next (by dsimp only; rw [waits, free]; rfl)
    · rw [State.tenant, posted.tenants, State.upcallTaken, written]
      exact congrArg Tenant.upcalls tenant
    · rw [State.upcallTaken, written]
      rfl
    · exact (State.readWord_congr fun n _ => byte _).trans valid
    · exact (State.readWord_congr fun n _ => byte _).trans reply

end Sys2Proof.Machine

/-! The network's events (spec/15 R247 to R261; spec/13 R237): buckets and budgets at a boundary, what Bishop's changes leave, and remote requests at
their home. -/
namespace Sys2Proof.Machine
open Sys2Proof.Safety

/-! ### Buckets (R249, R255) -/

/-- A bucket after one or more refills, of which more than two are as two. -/
theorem refilled_iterate {r n : Nat} (old : Nat) (some_period : 0 < n) :
    (refilled r)^[min n 2] old = min (2 * r) (old + n * r) := by
  obtain rfl | more : n = 1 ∨ 2 ≤ n := by omega
  · simp [refilled]
  · have plenty : 2 * r ≤ n * r := Nat.mul_le_mul_right r more
    rw [Nat.min_eq_right more]
    simp only [Function.iterate_succ, Function.iterate_zero, Function.comp, id, refilled]
    omega

/-- Each of some buckets, none named twice, is refilled, and no other. -/
theorem cellGet_refillKeys (r n : Nat) (keys : List Nat) (c : Cells Nat) (distinct : keys.Nodup) (j : Nat) :
    cellGet 0 (refillKeys r n keys c) j = if j ∈ keys then (refilled r)^[n] (cellGet 0 c j) else cellGet 0 c j := by
  induction keys generalizing c with
  | nil => rfl
  | cons k keys ih =>
    obtain ⟨fresh, distinct⟩ := List.nodup_cons.mp distinct
    refine (ih _ distinct).trans ?_
    rw [cellGet_cellSet]
    by_cases here : j = k
    · subst here
      simp [fresh]
    · simp [here]

/-- The buckets of some places for each tenant of a list, refilled at the tenant's rate. -/
def refillTenants (rate : Tenant → Nat) (n : Nat) (places : List Nat) (l : List Tenant) (c : Cells Nat) : Cells Nat :=
  l.foldl (fun c t => let r := rate t; if r = 0 then c else refillKeys r n (places.map (fun x => x * 64 + t.id)) c) c

section
variable {rate : Tenant → Nat} {n : Nat} {places : List Nat} (distinct : places.Nodup)
include distinct

/-- One tenant's refill leaves the buckets of every other. -/
theorem cellGet_refillTenant (t : Tenant) (c : Cells Nat) (x id : Nat) (low : id < 64) (low' : t.id < 64) :
    cellGet 0 (refillTenants rate n places [t] c) (x * 64 + id) =
      if id = t.id ∧ x ∈ places ∧ rate t ≠ 0 then (refilled (rate t))^[n] (cellGet 0 c (x * 64 + id)) else cellGet 0 c (x * 64 + id) := by
  show cellGet 0 (if rate t = 0 then c else _) _ = _
  by_cases none : rate t = 0
  · rw [if_pos none, if_neg (fun h => h.2.2 none)]
  · have apart : (places.map (fun x => x * 64 + t.id)).Nodup := distinct.map fun a b h => by omega
    rw [if_neg none, cellGet_refillKeys _ _ _ _ apart]
    refine if_congr ?_ rfl rfl
    rw [List.mem_map]
    constructor
    · rintro ⟨y, hy, e⟩
      obtain ⟨rfl, rfl⟩ : y = x ∧ t.id = id := by omega
      exact ⟨rfl, hy, none⟩
    · rintro ⟨rfl, hx, -⟩
      exact ⟨x, hx, rfl⟩

/-- The buckets of each tenant after a refill of all. -/
theorem cellGet_refillTenants (l : List Tenant) (c : Cells Nat) (own : (l.map Tenant.id).Nodup) (low : ∀ t ∈ l, t.id < 64) {x : Nat}
    (place : x ∈ places) : (∀ id < 64, (∀ t ∈ l, t.id ≠ id) → cellGet 0 (refillTenants rate n places l c) (x * 64 + id) = cellGet 0 c (x * 64 + id)) ∧
      ∀ k ∈ l, cellGet 0 (refillTenants rate n places l c) (x * 64 + k.id) =
        if rate k = 0 then cellGet 0 c (x * 64 + k.id) else (refilled (rate k))^[n] (cellGet 0 c (x * 64 + k.id)) := by
  induction l generalizing c with
  | nil => exact ⟨fun _ _ _ => rfl, fun _ h => nomatch h⟩
  | cons t l ih =>
    obtain ⟨fresh, own⟩ := List.nodup_cons.mp own
    obtain ⟨others, mine⟩ := ih (refillTenants rate n places [t] c) own (fun k hk => low k (List.mem_cons_of_mem _ hk))
    have low' := low t List.mem_cons_self
    have one := fun id (h : id < 64) => cellGet_refillTenant (rate := rate) (n := n) distinct t c x id h low'
    refine ⟨fun id hid other => (others id hid (fun k hk => other k (List.mem_cons_of_mem _ hk))).trans ?_, fun k hk => ?_⟩
    · rw [one id hid, if_neg (fun h => other t List.mem_cons_self h.1.symm)]
    · rcases List.mem_cons.mp hk with rfl | later
      · refine (others k.id low' (fun y hy e => fresh (List.mem_map.mpr ⟨y, hy, e⟩))).trans ?_
        rw [one k.id low']
        by_cases none : rate k = 0 <;> simp [none, place]
      · refine (mine k later).trans ?_
        have other : k.id ≠ t.id := fun e => fresh (List.mem_map.mpr ⟨k, later, e⟩)
        rw [one k.id (low k hk), if_neg (show ¬(k.id = t.id ∧ x ∈ places ∧ rate t ≠ 0) from fun h => other h.1)]

end

/-- Cores, engines and bridges stand before the link ports. -/
theorem stop_lt_linkNo {die a : Nat} (low : die < 8) (stands : ((∃ i < 192, die * 192 + i = a) ∨ ∃ i < 4, 1536 + die * 4 + i = a) ∨
    ∃ j < if die = 0 then 10 else 11, bridgeNo die j = a) : a < linkNo die := by
  unfold linkNo
  rcases stands with (⟨i, hi, rfl⟩ | ⟨i, hi, rfl⟩) | ⟨j, hj, rfl⟩
  · omega
  · omega
  · have : j < 11 := by split at hj <;> omega
    unfold bridgeNo
    omega

/-- The stops of a die are named once each. -/
theorem nodup_stopsOn {die : Nat} (low : die < 8) : (stopsOn die).Nodup := by
  unfold stopsOn bridgesOn
  simp only [List.nodup_append, List.mem_append, List.mem_map, List.mem_range, List.mem_singleton]
  refine ⟨⟨⟨⟨?_, ?_, ?_⟩, ?_, ?_⟩, ?_, ?_⟩, ?_, ?_⟩
  · exact List.nodup_range.map fun a b h => by omega
  · exact List.nodup_range.map fun a b h => by omega
  · rintro _ ⟨i, hi, rfl⟩ _ ⟨j, hj, rfl⟩
    omega
  · exact List.nodup_range.map fun a b h => by
      unfold bridgeNo at h
      omega
  · rintro _ (⟨i, hi, rfl⟩ | ⟨i, hi, rfl⟩) _ ⟨j, hj, rfl⟩
    all_goals
      unfold bridgeNo
      omega
  · simp
  · rintro a stands _ rfl
    exact Nat.ne_of_lt (stop_lt_linkNo low stands)
  · split <;> simp
  · intro a stands b host
    have before : a < hostNo := by
      rcases stands with stands | rfl
      · exact (stop_lt_linkNo low stands).trans (by unfold linkNo hostNo; omega)
      · unfold linkNo hostNo
        omega
    split at host
    · rw [List.mem_singleton] at host
      omega
    · cases host

/-- The buckets of a die's slices, as its refill finds them. -/
theorem sliceKeys_eq (die id : Nat) : (List.range 384).map (fun i => (die * 384 + i) * 64 + id) =
    ((List.range 384).map (fun i => die * 384 + i)).map (fun x => x * 64 + id) := by
  rw [List.map_map]
  rfl

theorem nodup_slices (die : Nat) : ((List.range 384).map (fun i => die * 384 + i)).Nodup :=
  List.nodup_range.map fun _ _ h => Nat.add_left_cancel h

/-- A refill at a boundary leaves none to be made. -/
theorem refillPeriods_made (s : State) (kind die : Nat) (m : MemSys) :
    (s.setMem { m with refills := cellSet 0 s.mem.refills (refillKey kind die) (s.ctl.cycle / 64) }).refillPeriods kind die = 0 := by
  show s.ctl.cycle / 64 - cellGet 0 (cellSet 0 s.mem.refills (refillKey kind die) (s.ctl.cycle / 64)) (refillKey kind die) = 0
  rw [cellGet_cellSet_self, Nat.sub_self]

/-- A refill while none is due. -/
theorem refillAt_early {s : State} {kind die : Nat} (f : Nat → MemSys) (early : s.refillPeriods kind die = 0) : s.refillAt kind die f = s :=
  if_pos early

/-- A refill that is due. -/
theorem refillAt_due {s : State} {kind die : Nat} (f : Nat → MemSys) (due : 0 < s.refillPeriods kind die) : s.refillAt kind die f =
    (s.setMem { f (s.refillPeriods kind die) with
      refills := cellSet 0 s.mem.refills (refillKey kind die) (s.ctl.cycle / 64) }).tryPrefs :=
  if_neg (Nat.pos_iff_ne_zero.mp due)

/-- Entries dropped read as the default. -/
theorem cellGet_filter_out {α : Type} {d : α} {p : Nat × α → Bool} {i : Nat} (out : ∀ v, p (i, v) = false) : ∀ c : Cells α, cellGet d (c.filter p) i = d
  | [] => rfl
  | (k, v) :: c => by
    rw [List.filter_cons]
    by_cases e : i = k
    · subst e
      rw [out v]
      exact cellGet_filter_out out c
    · split
      · rw [cellGet, if_neg e]
        exact cellGet_filter_out out c
      · exact cellGet_filter_out out c

section
variable (s : State) (die : Nat)

theorem sliceRefill_due (own : (s.tasks.tenants.map Tenant.id).Nodup) (low : ∀ k ∈ s.tasks.tenants, k.id < 64) (due : 0 < s.refillPeriods 0 die) :
    ∃ t : State, exec (.sliceTokenRefill die) s = .next t.tryPrefs ∧ t.refillPeriods 0 die = 0 ∧
      t = { s with mem := { s.mem with sliceTok := t.mem.sliceTok, refills := t.mem.refills } } ∧
      ∀ k ∈ s.tasks.tenants, ∀ i < 384, cellGet 0 t.mem.sliceTok ((die * 384 + i) * 64 + k.id) =
        if cellGet 0 k.slbw die = 0 then cellGet 0 s.mem.sliceTok ((die * 384 + i) * 64 + k.id)
        else min (2 * cellGet 0 k.slbw die) (cellGet 0 s.mem.sliceTok ((die * 384 + i) * 64 + k.id) + s.refillPeriods 0 die * cellGet 0 k.slbw die) := by
  refine ⟨_, congrArg Host.Outcome.next (refillAt_due _ due), refillPeriods_made .., rfl, fun k hk i hi => ?_⟩
  refine Eq.trans ?_ ((cellGet_refillTenants (rate := fun k => cellGet 0 k.slbw die) (n := min (s.refillPeriods 0 die) 2) (nodup_slices die)
    s.tasks.tenants s.mem.sliceTok own low (List.mem_map.mpr ⟨i, List.mem_range.mpr hi, rfl⟩)).2 k hk |>.trans ?_)
  · simp only [refillTenants, sliceKeys_eq]
    rfl
  · rw [refilled_iterate _ due]

theorem netRefill_due (own : (s.tasks.tenants.map Tenant.id).Nodup) (low : ∀ k ∈ s.tasks.tenants, k.id < 64) (here : die < 8)
    (due : 0 < s.refillPeriods 1 die) :
    ∃ t : State, exec (.netTokenRefill die) s = .next t.tryPrefs ∧ t.refillPeriods 1 die = 0 ∧
      t = { s with mem := { s.mem with netTok := t.mem.netTok, refills := t.mem.refills } } ∧
      ∀ k ∈ s.tasks.tenants, ∀ stop ∈ stopsOn die, cellGet 0 t.mem.netTok (State.stopKey stop k.id) =
        if cellGet 0 k.netbw die = 0 then cellGet 0 s.mem.netTok (State.stopKey stop k.id)
        else min (2 * cellGet 0 k.netbw die) (cellGet 0 s.mem.netTok (State.stopKey stop k.id) + s.refillPeriods 1 die * cellGet 0 k.netbw die) := by
  refine ⟨_, congrArg Host.Outcome.next (refillAt_due _ due), refillPeriods_made .., rfl, fun k hk stop hs => ?_⟩
  have refills := (cellGet_refillTenants (rate := fun k => cellGet 0 k.netbw die) (n := min (s.refillPeriods 1 die) 2) (nodup_stopsOn here)
    s.tasks.tenants s.mem.netTok own low hs).2 k hk
  rw [refilled_iterate _ due] at refills
  exact refills

end

/-! ### Remote requests (R260, R261) -/

/-- What the link port answers to a request that is performed. -/
def remoteAnswer (req : RemoteReq) (old : List Byte) : LinkResp :=
  match req with
  | .write _ _ => .done
  | _ => .data old

section
variable {s : State} {dev t ma : Nat} {req : RemoteReq}

theorem exec_remoteAccess_refused (off : s.remoteGrant dev t ma req = false) :
    exec (.remoteAccessAtTarget dev t ma req) s = .next (s.linkAnswer .refused) :=
  congrArg Host.Outcome.next (if_pos (by simp [off]))

/-- A request that the table grants is performed at its home. -/
theorem exec_remoteAccess_granted (low : ma < 2 ^ 40) (inside : ma % 2 ^ 16 + remoteSize req ≤ 2 ^ 16) (granted : s.remoteGrant dev t ma req = true)
    {u : State} {old : List Byte}
    (does : s.homeDo (linkNo (dieOf ma)) 0 none 0 ma (remoteSize req) [(ma, remoteSize req, remoteTag dev req)] (remoteNew req) = .done u old) :
    exec (.remoteAccessAtTarget dev t ma req) s = .next (u.linkAnswer (remoteAnswer req old)) := by
  refine congrArg Host.Outcome.next ((if_neg ?_).trans ?_)
  · rw [granted]
    simp only [Bool.not_true, Bool.false_eq_true, or_false]
    omega
  · rw [does]
    cases req <;> rfl

/-- A request that writes: its bytes stand at its place, but for the device's own records (R3), and no other byte changes. -/
theorem remoteWrite_bytes {m : MemSys} {l : List Byte} (bytes : m.bytes = cellSetMany 0 s.mem.bytes ma (s.keepRecords ma l)) (r : LinkResp) :
    BytesKept s ((s.setMem m).linkAnswer r) ma l.length ∧
      ∀ n < l.length, ((s.setMem m).linkAnswer r).byte (ma + n) = storedByte s 0 (none, ma) n (l.getD n 0) := by
  obtain ⟨here, out⟩ := stored_getD bytes 0
  exact ⟨out, here⟩

end

/-- A remote request at its target. -/
theorem remoteAccess (s : State) (dev t ma : Nat) (req : RemoteReq) : ∃ u, exec (.remoteAccessAtTarget dev t ma req) s = .next u ∧
    (s.remoteGrant dev t ma req = false → u = { s with dev := { s.dev with linkResp := .refused } }) ∧
    (ma < 2 ^ 40 → ma % 2 ^ 16 + remoteSize req ≤ 2 ^ 16 → s.remoteGrant dev t ma req = true → (s.frame (mfnOf ma)).owner = 0 →
      u = { s with mem := u.mem, dev := { s.dev with linkResp := u.dev.linkResp } } ∧
      match req with
      | .read n => u.dev.linkResp = .data (s.readMem ma n) ∧ u.mem.bytes = s.mem.bytes
      | .write l _ => u.dev.linkResp = .done ∧ BytesKept s u ma l.length ∧
        ∀ n < l.length, u.byte (ma + n) = storedByte s 0 (none, ma) n (l.getD n 0)
      | .atomic op w b c _ => u.dev.linkResp = .data (s.readMem ma w.bytes) ∧ BytesKept s u ma w.bytes ∧
        ∀ n < w.bytes, u.byte (ma + n) = storedByte s 0 (none, ma) n
          ((bytesOf w.bytes (atomNew op w (natOfBytes (s.readMem ma w.bytes)) b.toNat c.toNat)).getD n 0)) := by
  cases granted : s.remoteGrant dev t ma req with
  | false => exact ⟨_, exec_remoteAccess_refused granted, fun _ => rfl, fun _ _ h => nomatch h⟩
  | true =>
    by_cases fits : ma < 2 ^ 40 ∧ ma % 2 ^ 16 + remoteSize req ≤ 2 ^ 16 ∧ (s.frame (mfnOf ma)).owner = 0
    case neg => 
      refine ⟨_, rfl, (fun h => nomatch h), fun low inside _ owner => absurd ⟨low, inside, owner⟩ fits⟩
    case pos =>
      obtain ⟨low, inside, owner⟩ := fits
      cases req with
      | read n =>
        obtain ⟨u, does, l2, tick, rfl⟩ := homeDo_read (core := linkNo (dieOf ma)) (evict := 0) (n := n)
          (tags := [(ma, n, remoteTag dev (.read n))]) owner
        exact ⟨_, exec_remoteAccess_granted low inside granted does, (fun h => nomatch h), fun _ _ _ _ => ⟨rfl, rfl, rfl⟩⟩
      | write l o =>
        obtain ⟨m, does, bytes⟩ := homeDo_write (core := linkNo (dieOf ma)) (evict := 0) (n := l.length)
          (tags := [(ma, l.length, remoteTag dev (.write l o))]) (new := remoteNew (.write l o)) owner rfl
        obtain ⟨kept, stands⟩ := remoteWrite_bytes bytes .done
        exact ⟨_, exec_remoteAccess_granted low inside granted does, (fun h => nomatch h), fun _ _ _ _ => ⟨rfl, rfl, kept, stands⟩⟩
      | atomic op w b c rel =>
        obtain ⟨m, does, bytes⟩ := homeDo_write (core := linkNo (dieOf ma)) (evict := 0) (n := w.bytes)
          (tags := [(ma, w.bytes, remoteTag dev (.atomic op w b c rel))]) (new := remoteNew (.atomic op w b c rel)) owner rfl
        obtain ⟨kept, stands⟩ := remoteWrite_bytes bytes (.data (s.readMem ma w.bytes))
        rw [bytesOf_length] at kept stands
        exact ⟨_, exec_remoteAccess_granted low inside granted does, (fun h => nomatch h), fun _ _ _ _ => ⟨rfl, rfl, kept, stands⟩⟩

/-- Settles O55: buckets as `cellGet_refillTenants` says, remote requests as `remoteAccess` says, and the cells that each change sets. -/
theorem networkEvents : Obligations.NetworkEvents := by
  refine ⟨fun s die own low => ⟨fun early => ?_, fun early => ?_, fun due => sliceRefill_due s die own low due,
    fun here due => netRefill_due s die own low here due⟩, fun s die => ⟨fun early => ?_, fun due => ?_⟩, fun s die tag => ?_,
    fun s die idx e low inside => ?_, fun s die t mask sl nb wt bound low ok => ?_, fun s dev t ma req => ?_⟩
  · exact congrArg Host.Outcome.next (refillAt_early _ early)
  · exact congrArg Host.Outcome.next (refillAt_early _ early)
  · exact congrArg Host.Outcome.next (refillAt_early _ early)
  · refine ⟨_, congrArg Host.Outcome.next (refillAt_due _ due), refillPeriods_made .., rfl, fun port => ?_⟩
    show cellGet 4 (s.mem.ctlBudget.filter (fun p => p.1 / portNo 192 0 != die)) port = _
    split
    next mine => exact cellGet_filter_out (fun _ => by simp [mine]) _
    next other => exact cellGet_filter (fun _ => by simp [other]) _
  · exact ⟨_, rfl, rfl, fun d => cellGet_cellSet ..⟩
  · exact ⟨_, congrArg Host.Outcome.next (if_pos ⟨low, inside⟩), rfl, fun n => cellGet_cellSet none s.mem.remote (die * 4096 + idx) n (some e)⟩
  · have accepted : ¬((!s.bound t) = true ∨ 8 ≤ die ∨ (!weightsOk wt) = true) := by simp [bound, ok, low]
    have takes := tenant_setTenant_of (u := s) (k := { s.tenant t with
      waymask := cellSet 65535 (s.tenant t).waymask die mask.toNat, slbw := cellSet 0 (s.tenant t).slbw die sl.toNat,
      netbw := cellSet 0 (s.tenant t).netbw die nb.toNat }) bound rfl (tenant_id bound)
    refine ⟨_, congrArg Host.Outcome.next (if_neg accepted), rfl, fun k other => ?_, ?_, fun d => ?_⟩
    · exact tenant_setTenant_ne s (by rw [tenant_id bound]; exact other)
    · have fields : ∀ k : Tenant, k = { s.tenant t with
          waymask := cellSet 65535 (s.tenant t).waymask die mask.toNat, slbw := cellSet 0 (s.tenant t).slbw die sl.toNat,
          netbw := cellSet 0 (s.tenant t).netbw die nb.toNat } →
          k = { s.tenant t with waymask := k.waymask, slbw := k.slbw, netbw := k.netbw } := fun k is => by rw [is]
      exact fields _ takes
    · exact ⟨(congrArg (fun k : Tenant => cellGet 65535 k.waymask d) takes).trans (cellGet_cellSet ..),
        (congrArg (fun k : Tenant => cellGet 0 k.slbw d) takes).trans (cellGet_cellSet ..),
        (congrArg (fun k : Tenant => cellGet 0 k.netbw d) takes).trans (cellGet_cellSet ..), cellGet_cellSet ..⟩
  · exact remoteAccess s dev t ma req

end Sys2Proof.Machine

/-! Stops by force (spec/23 R358): halting a wave discards its entries of the operand latch, in a quadrant whose number is kept under one key with
the numbers past the last quadrant of the core before. -/
namespace Sys2Proof.Machine
open Sys2Proof.Safety

/-- A wave in slot 0 of core 1. -/
def haltWave0 : Wave := { Wave.blank with core := 1, slot := 0, launch := 1, corepl := 0, stopped := none }

/-- An operand of that wave in the latch of its quadrant. -/
def haltEntry : LatchEnt := ⟨0, 0, [], 1⟩

/-- The wave alone, with an operand in the latch, under a forced request. -/
def haltState : State :=
  { State.reset with
    cores := { State.reset.cores with waves := [haltWave0], quads := [(4, { Quad.idle with latch := [haltEntry] })] }
    tasks := { State.reset.tasks with stops := [⟨1, [0], true, 0⟩] } }

/-- The request names that wave alone. -/
theorem onlyWave_haltState : OnlyWave haltState 1 [0] haltWave0 := ⟨rfl, rfl, rfl, rfl⟩

/-- Quadrant 4 of core 0 has the key of quadrant 0 of core 1. -/
theorem latch_haltState : (haltState.quad 0 4).latch = [haltEntry] ∧ (haltState.haltDue.quad 0 4).latch = [] := ⟨rfl, rfl⟩

/-- Refutes O57: halting a wave is said to leave every `(c, q)` but its own quadrant, of every number `q`, and quadrant 4 of core 0 is kept under
the key of quadrant 0 of core 1, from whose latch the halted wave's entry goes. -/
theorem not_stopEvents : ¬ Obligations.StopEvents := by
  intro h
  obtain ⟨-, -, -, halts, -⟩ := h
  obtain ⟨⟨left, -, -⟩, -⟩ := halts haltState ⟨1, [0], true, 0⟩ haltWave0 rfl rfl onlyWave_haltState
  have same : haltState.haltDue.quad 0 4 = haltState.quad 0 4 := left.quads 0 4 (by decide)
  obtain ⟨before, behind⟩ := latch_haltState
  rw [same, before] at behind
  exact List.cons_ne_nil _ _ behind

end Sys2Proof.Machine

/-! Castle's save and restore (spec/23 R355, R358, R359, R362): what a save's stores and releases leave alone, what an image keeps of a wave that
was stopped by force, and a wave back from its image. -/
namespace Sys2Proof.Machine
open Sys2Proof.Safety

/-! ### Saving -/

/-- Frames stamped one after another change memory's records alone, and no byte. -/
theorem stampFrames_eq (at_ : Nat → Nat) : ∀ (l : List Nat) (s : State),
    ∃ m, l.foldl (fun t i => t.stampFrame (at_ i)) s = s.setMem m ∧ m.bytes = s.mem.bytes
  | [], s => ⟨s.mem, rfl, rfl⟩
  | i :: l, s => by
    obtain ⟨m, hm, hb⟩ := stampFrames_eq at_ l (s.stampFrame (at_ i))
    exact ⟨m, hm, hb⟩

/-- A store to the save area of an unprotected launch changes memory alone, and of its bytes those that it stores. -/
theorem saveStore_eq {l : Launch} (plain : l.prot = false) (s : State) (a : Nat) (b : List Byte) :
    ∃ m, s.saveStore l a b = s.setMem m ∧ ∀ x, x < a ∨ a + b.length ≤ x → (s.setMem m).byte x = s.byte x := by
  obtain ⟨m, hm, hb⟩ := stampFrames_eq (fun i => mfnOf a + i) (List.range ((a + b.length - 1) / 2 ^ 16 + 1 - mfnOf a)) (s.writeMem a b)
  refine ⟨m, ?_, fun x out => (congrArg (fun c => cellGet 0 c x) hb).trans (s.byte_writeMem_out b out)⟩
  cases held : l.slotHeld <;> simpa [State.saveStore, held, plain] using! hm

/-- A launch's part of a core gone from the machine's records of cores. -/
def Cores.unloaded (c : Cores) (uid place core : Nat) (g : Cells UnitGen) (q : Cells Quad) : Cores :=
  { c with waves := c.waves.filter (fun w => !(w.launch == uid && w.corepl == place)),
           ctxs := c.ctxs.filter (fun x => !(x.launch == uid && x.core == core)), gens := g, quads := q }

theorem unload_eq (s : State) (uid place core : Nat) :
    ∃ g q, s.unload uid place core = { s with cores := s.cores.unloaded uid place core g q } := by
  obtain ⟨q, hq⟩ := dropLatches_eq (s.wavesOf uid place) (s.releaseCtx (s.ctx uid core))
  refine ⟨(s.releaseCtx (s.ctx uid core)).cores.gens, q, ?_⟩
  unfold State.unload
  dsimp only
  rw [hq]
  rfl

/-- Every droppable granule dropped changes nothing of a wave that has none. -/
theorem dropAll_of_none {w : Wave} (none : ∀ k < w.ext, w.droppable k = false) : w.dropAll = w := by
  have nil : (List.range w.ext).filter w.droppable = [] :=
    List.filter_eq_nil_iff.2 fun k hk => by simp [none k (List.mem_range.1 hk)]
  simp [Wave.dropAll, nil]

theorem takeRefusals_of_none {w : Wave} (none : w.refusals = []) (p : Nat → Bool) : w.takeRefusals p = w := by
  cases w
  cases none
  rfl

/-- What a save keeps of a wave stopped by force that has no refusal and no droppable granule (R358, R359, log 41). -/
theorem savedWave_of_forced {s : State} {w : Wave} (forced : w.stopped = some none) (full : ∀ k < w.ext, w.droppable k = false)
    (taken : w.refusals = []) : ∃ p, s.savedWave w = { w with
      perf := p, held := none, heldAt := none, pinned := [], pend := [], paths := [], markers := [], stopAsked := false, sleepSince := none,
      bornAt := s.ctl.cycle } := by
  have record : s.liveRecord w = none := by unfold State.liveRecord; rw [forced]
  have same : ((s.unstall w).takeRefusals (fun _ => true)).dropAll = s.unstall w := by
    rw [takeRefusals_of_none (w := s.unstall w) taken]
    exact dropAll_of_none (w := s.unstall w) full
  unfold State.savedWave
  simp only [record, same]
  exact ⟨_, rfl⟩

/-- A wave as its image keeps it holds the registers, predicates, lanes and trap registers that it held. -/
theorem imageOf_forced {s : State} {uid place core : Nat} {w : Wave} (only : s.wavesOf uid place = [w]) (forced : w.stopped = some none)
    (full : ∀ k < w.ext, w.droppable k = false) (taken : w.refusals = []) :
    ∃ v, (s.imageOf uid place core).1.waves = [v] ∧ v.vregs = w.vregs ∧ v.sregs = w.sregs ∧ PredKept w v ∧ FlagsKept w v ∧
      v.lanes = w.lanes ∧ v.hnd = w.hnd ∧ v.mode = w.mode ∧ v.trcause = w.trcause ∧ v.trpc = w.trpc ∧ v.trmask = w.trmask ∧
      v.traddr = w.traddr ∧ v.paths = [] ∧ v.markers = [] := by
  have waves : (s.imageOf uid place core).1.waves = [s.savedWave w] := by
    unfold State.imageOf
    simp only [only]
    rfl
  obtain ⟨p, hp⟩ := savedWave_of_forced (s := s) forced full taken
  refine ⟨_, waves, ?_⟩
  rw [hp]
  exact ⟨rfl, rfl, ⟨rfl, rfl⟩, ⟨rfl, rfl⟩, rfl, rfl, rfl, rfl, rfl, rfl, rfl, rfl, rfl⟩

/-- A launch that may be stopped is one that the machine knows. -/
theorem known_of_stoppable {s : State} {uid : Nat} (may : (s.launch uid).stoppable = true) : Known s uid :=
  known_of_phase fun retired => by simp [Launch.stoppable, retired] at may

/-- A core image written and the launch's part of the core gone (R355, R358): before the launch section. -/
def State.savedPart (s : State) (uid place core : Nat) : State :=
  let l := s.launch uid
  let i := s.imageOf uid place core
  let s1 := ((s.saveStore l (imageAt l place) i.2).unload uid place core).setLaunch { l with images := l.images ++ [i.1], preempted := true }
  s1.setStops (dropStop uid place s1.tasks.stops)

/-- What saving a part of an unprotected launch changes. -/
structure PartSaved (s t : State) (uid place core : Nat) : Prop where
  waves : t.cores.waves = s.cores.waves.filter (fun w => !(w.launch == uid && w.corepl == place))
  ctxs : t.cores.ctxs = s.cores.ctxs.filter (fun x => !(x.launch == uid && x.core == core))
  launch : t.launch uid =
    { s.launch uid with images := (s.launch uid).images ++ [(s.imageOf uid place core).1], preempted := true }
  byte : ∀ m, m < imageAt (s.launch uid) place ∨ imageAt (s.launch uid) place + (s.imageOf uid place core).2.length ≤ m → t.byte m = s.byte m
  dev : t.dev = s.dev
  ctl : t.ctl = s.ctl
  tenants : t.tasks.tenants = s.tasks.tenants

theorem savedPart_saved {s : State} {uid place core : Nat} (may : (s.launch uid).stoppable = true) (plain : (s.launch uid).prot = false) :
    PartSaved s (s.savedPart uid place core) uid place core := by
  obtain ⟨m, hm, hb⟩ := saveStore_eq plain s (imageAt (s.launch uid) place) (s.imageOf uid place core).2
  obtain ⟨g, q, hu⟩ := unload_eq (s.setMem m) uid place core
  have known := known_of_stoppable may
  unfold State.savedPart
  dsimp only
  rw [hm, hu]
  exact ⟨rfl, rfl, launch_setLaunch_of known rfl (launch_uid known), hb, rfl, rfl, rfl⟩

/-- A stopped launch's part of a core saved, with the launch section where it was the last (R355, R358, R359, R360). -/
theorem exec_castleSave {s : State} {uid place : Nat} {c : Ctx}
    (here : s.cores.ctxs.find? (fun x => x.launch == uid && x.place == place) = some c) (may : (s.launch uid).stoppable = true)
    (ready : s.readyToSave uid place c.core = true) :
    exec (.castleSave uid place) s = .next (
      if (s.savedPart uid place c.core).cores.waves.all (fun w => w.launch != uid || !w.resident) then
        (s.savedPart uid place c.core).saveStore (s.launch uid) (s.launch uid).saveArea (launchBytes (s.launch uid))
      else s.savedPart uid place c.core) := by
  show execCastleSave uid place s = _
  unfold execCastleSave
  rw [here]
  exact congrArg Host.Outcome.next (if_neg (by simp [may, ready]))

theorem castleSave_saved {s : State} {uid place : Nat} {c : Ctx}
    (here : s.cores.ctxs.find? (fun x => x.launch == uid && x.place == place) = some c) (may : (s.launch uid).stoppable = true)
    (ready : s.readyToSave uid place c.core = true) (plain : (s.launch uid).prot = false) :
    ∃ t, exec (.castleSave uid place) s = .next t ∧
      t.cores.waves = s.cores.waves.filter (fun w => !(w.launch == uid && w.corepl == place)) ∧
      t.cores.ctxs = s.cores.ctxs.filter (fun x => !(x.launch == uid && x.core == c.core)) ∧
      t.launch uid = { s.launch uid with
        images := (s.launch uid).images ++ [(s.imageOf uid place c.core).1], preempted := true } ∧
      (∀ m, m < imageAt (s.launch uid) place ∨ imageAt (s.launch uid) place + (s.imageOf uid place c.core).2.length ≤ m →
        m < (s.launch uid).saveArea ∨ (s.launch uid).saveArea + (launchBytes (s.launch uid)).length ≤ m → t.byte m = s.byte m) ∧
      t.dev = s.dev ∧ t.ctl = s.ctl ∧ t.tasks.tenants = s.tasks.tenants := by
  have part := savedPart_saved (place := place) (core := c.core) may plain
  refine ⟨_, exec_castleSave here may ready, ?_⟩
  split
  · obtain ⟨m, hm, hb⟩ := saveStore_eq plain (s.savedPart uid place c.core) (s.launch uid).saveArea (launchBytes (s.launch uid))
    rw [hm]
    exact ⟨part.waves, part.ctxs, part.launch, fun a image area => (hb a area).trans (part.byte a image), part.dev, part.ctl, part.tenants⟩
  · exact ⟨part.waves, part.ctxs, part.launch, fun a image _ => part.byte a image, part.dev, part.ctl, part.tenants⟩

/-! ### Restoring -/

/-- The holdings of an image on the core that takes them (R284, R362). -/
def Image.backCtx (i : Image) (l : Launch) (core place : Nat) (rs : List Reservation) : Ctx :=
  { i.ctx with
    core := core, place := place, resv := rs, handles := placeBanks ((List.range 32).filter (fun b => l.bankCode b == 3)) i.ctx.handles }

/-- The launch with the image of a place back on a core. -/
def Launch.taken (l : Launch) (i : Image) (core place : Nat) : Launch :=
  let left := l.images.filter (fun j => j.place != place)
  { l with
    images := left, migrated := l.migrated || i.fromCore != core, parkedOff := l.parkedOff && left != [],
    awaits := if left = [] then [] else l.awaits }

/-- The waves of an image, each in the slot chosen for it. -/
def State.backWaves (s : State) (i : Image) (core : Nat) (slots : List Nat) : List Wave :=
  (i.waves.zip slots).map (fun (p : Wave × Nat) => s.backWave core p.2 p.1)

/-- The state with the image of a place back on a core, before the core's cache is acquired. -/
def State.restored (s : State) (uid place : Nat) (i : Image) (core : Nat) (slots : List Nat) (rs : List Reservation) : State :=
  let s1 := s.setLaunch ((s.launch uid).taken i core place)
  { s1 with cores := { s1.cores with
    waves := s1.cores.waves ++ s1.backWaves i core slots, ctxs := s1.cores.ctxs ++ [i.backCtx (s.launch uid) core place rs] } }

theorem exec_castleRestore {s : State} {uid place core : Nat} {i : Image} {slots : List Nat} {rs : List Reservation}
    (saved : (s.launch uid).images.find? (fun x => x.place == place) = some i) (target : s.coreOf (s.launch uid).tenant place = some core)
    (may : (s.launch uid).stoppable = true) (awake : (s.tenant (s.launch uid).tenant).suspended = false)
    (returns : s.mayReturn (s.launch uid) core = true) (fits : s.restoreFits (s.launch uid) i core slots = some rs) :
    exec (.castleRestore uid place slots) s = .next ((s.restored uid place i core slots rs).acquire core 5) := by
  show execCastleRestore uid place slots s = _
  unfold execCastleRestore
  dsimp only
  rw [saved, target]
  refine congrArg Host.Outcome.next ((if_neg (by simp [may, awake, returns])).trans ?_)
  rw [fits]
  rfl

/-- An image fits only with a slot for each of its waves. -/
theorem slots_of_restoreFits {s : State} {l : Launch} {i : Image} {core : Nat} {slots : List Nat} {rs : List Reservation}
    (fits : s.restoreFits l i core slots = some rs) : slots.length = i.waves.length := by
  unfold State.restoreFits at fits
  split at fits
  next ok => exact ok.1
  next => nomatch fits

/-- Each wave of an image is back in the slot chosen for it, with all that the image kept of it (R362). -/
theorem backWaves_getElem? {s : State} {i : Image} {core n k : Nat} {slots : List Nat} {w v : Wave} (saved : i.waves[n]? = some w)
    (chosen : slots[n]? = some k) (back : (s.backWaves i core slots)[n]? = some v) : v = s.backWave core k w := by
  have zipped : (i.waves.zip slots)[n]? = some (w, k) := List.getElem?_zip_eq_some.2 ⟨saved, chosen⟩
  unfold State.backWaves at back
  rw [List.getElem?_map, zipped] at back
  exact (Option.some.inj back).symm

/-- Settles O58: a save stores its image and the launch section and takes the launch's part off the core; a restore appends the waves and
holdings of the image. -/
theorem castleEvents : Obligations.CastleEvents := by
  unfold Obligations.CastleEvents
  refine ⟨fun s uid place c here may ready plain => ?_, fun s uid place i core slots rs saved target may awake returns fits => ?_⟩
  · obtain ⟨t, ht, waves, ctxs, launch, byte, dev, ctl, tenants⟩ := castleSave_saved here may ready plain
    exact ⟨t, ht, waves, ctxs, launch, rfl, rfl, fun w only forced full taken => imageOf_forced only forced full taken, byte, dev, ctl, tenants⟩
  · have known := known_of_stoppable may
    have launch : ((s.restored uid place i core slots rs).acquire core 5).launch uid = (s.launch uid).taken i core place :=
      launch_setLaunch_of (s := s) (t := s) known rfl (launch_uid known)
    refine ⟨_, exec_castleRestore saved target may awake returns fits, ⟨_, rfl, ?_, ?_⟩, ⟨_, rfl, rfl, rfl, rfl, rfl, rfl, rfl⟩,
      congrArg Launch.images launch, congrArg Launch.migrated launch, rfl, fun e mem => ?_, rfl, rfl⟩
    · simp [State.backWaves, slots_of_restoreFits fits]
    · intro n w k v wave chosen back
      rw [backWaves_getElem? wave chosen back]
      exact ⟨rfl, rfl, rfl, rfl, rfl, ⟨rfl, rfl⟩, ⟨rfl, rfl⟩, rfl, rfl, rfl, rfl, rfl, rfl, rfl⟩
    · obtain ⟨old, other⟩ := List.mem_filter.1 mem
      exact ⟨old, fun same => by simp [same] at other⟩

end Sys2Proof.Machine

/-! The device as a whole (spec/24 R378 to R381, spec/27 R390 to R393): readiness words, events that tell tenants, certificates, challenges, power
and heat. -/
namespace Sys2Proof.Machine
open Sys2Proof.Safety

/-! ### Events for tenants -/

/-- A state that differs in tenants, in SEQ and in the count of free values alone: events were written. -/
def Told (s t : State) : Prop :=
  ∃ l q f, t = { s with ctl := { s.ctl with seq := q, fresh := f }, tasks := { s.tasks with tenants := l } }

theorem Told.refl (s : State) : Told s s := ⟨s.tasks.tenants, s.ctl.seq, s.ctl.fresh, rfl⟩

theorem Told.trans {s t u : State} (h : Told s t) (g : Told t u) : Told s u := by
  obtain ⟨_, _, _, rfl⟩ := h
  obtain ⟨l, q, f, rfl⟩ := g
  exact ⟨l, q, f, rfl⟩

theorem told_hostEvent (s : State) (t kind : Nat) (d : Word) : Told s (s.hostEvent t kind d) := by
  obtain ⟨l, q, h⟩ := hostEvent_eq s t kind d
  exact ⟨l, q, s.ctl.fresh, h⟩

theorem told_hostEventFree (s : State) (t kind : Nat) : Told s (s.hostEventFree t kind) := by
  obtain ⟨l, q, h⟩ := hostEvent_eq s t kind (s.free kind)
  exact ⟨l, q, s.ctl.fresh + 1, by unfold State.hostEventFree; rw [h]; rfl⟩

theorem told_foldl {f : State → Nat → State} (one : ∀ u t, Told u (f u t)) : ∀ (l : List Nat) (s : State), Told s (l.foldl f s)
  | [], s => Told.refl s
  | t :: l, s => (one s t).trans (told_foldl one l (f s t))

theorem told_eventAll (s : State) (p : Tenant → Bool) {f : State → Nat → State} (one : ∀ u t, Told u (f u t)) : Told s (s.eventAll p f) :=
  told_foldl one _ s

/-! ### Readiness words -/

/-- A readiness word as the sum of its four fields (Table 27-1). -/
theorem readyWord_toNat (ready fail : Bool) (count us : Nat) :
    (readyWord ready fail count us).toNat =
      ready.toNat * 2 ^ 63 + fail.toNat * 2 ^ 62 + count % 2 ^ 16 * 2 ^ 32 + us % 2 ^ 32 := by
  unfold readyWord fieldAt
  rw [BitVec.toNat_ofNat]
  cases ready <;> cases fail <;> simp only [Bool.toNat_true, Bool.toNat_false] <;> omega

theorem readyWord_ready (ready fail : Bool) (count us : Nat) : (readyWord ready fail count us).getLsbD 63 = ready := by
  rw [← BitVec.testBit_toNat, Nat.testBit_eq_decide_div_mod_eq, readyWord_toNat]
  cases ready <;> cases fail <;> simp only [Bool.toNat_true, Bool.toNat_false, decide_eq_true_eq, decide_eq_false_iff_not] <;> omega

theorem readyWord_fail (ready fail : Bool) (count us : Nat) : (readyWord ready fail count us).getLsbD 62 = fail := by
  rw [← BitVec.testBit_toNat, Nat.testBit_eq_decide_div_mod_eq, readyWord_toNat]
  cases ready <;> cases fail <;> simp only [Bool.toNat_true, Bool.toNat_false, decide_eq_true_eq, decide_eq_false_iff_not] <;> omega

theorem readyWord_count (ready fail : Bool) {count : Nat} (us : Nat) (small : count < 2 ^ 16) :
    bits (readyWord ready fail count us).toNat 47 32 = count := by
  rw [readyWord_toNat]
  unfold bits
  cases ready <;> cases fail <;> simp only [Bool.toNat_true, Bool.toNat_false] <;> omega

theorem readyWord_us (ready fail : Bool) (count us : Nat) : bits (readyWord ready fail count us).toNat 31 0 = us % 2 ^ 32 := by
  rw [readyWord_toNat]
  unfold bits
  cases ready <;> cases fail <;> simp only [Bool.toNat_true, Bool.toNat_false] <;> omega

/-- A readiness word after one was written. -/
theorem readiness_setReady (s : State) (i j : Nat) (v : Word) :
    (cellGet 0 (s.setReady i v).dev.readiness j : Word) = if j = i then v else cellGet 0 s.dev.readiness j :=
  cellGet_cellSet 0 s.dev.readiness i j v

/-- The readiness word of a function that fails (R392). -/
def State.failWord (s : State) (i : Nat) : Word := readyWord false true (bits (cellGet 0 s.dev.readiness i : Word).toNat 47 32) s.us

/-- A failure writes a readiness word and tells tenants. -/
theorem told_fail (s : State) (i : Nat) : Told (s.setReady i (s.failWord i)) (s.fail i) :=
  told_eventAll _ _ fun u t => told_hostEvent u t 7 _

theorem dev_fail (s : State) (i : Nat) : (s.fail i).dev = { s.dev with readiness := cellSet 0 s.dev.readiness i (s.failWord i) } := by
  obtain ⟨_, _, _, h⟩ := told_fail s i
  rw [h]
  rfl

theorem readiness_fail (s : State) (i j : Nat) :
    (cellGet 0 (s.fail i).dev.readiness j : Word) = if j = i then s.failWord i else cellGet 0 s.dev.readiness j := by
  rw [dev_fail]
  exact cellGet_cellSet 0 s.dev.readiness i j _

theorem isReady_fail (s : State) (i : Nat) : (s.fail i).isReady i = false := by
  unfold State.isReady
  rw [readiness_fail, if_pos rfl]
  exact readyWord_ready ..

theorem hasFailed_fail (s : State) (i : Nat) : (s.fail i).hasFailed i = true := by
  unfold State.hasFailed
  rw [readiness_fail, if_pos rfl]
  exact readyWord_fail ..

theorem isReady_fail_ne (s : State) {i j : Nat} (other : j ≠ i) : (s.fail i).isReady j = s.isReady j := by
  unfold State.isReady
  rw [readiness_fail, if_neg other]

theorem hasFailed_fail_ne (s : State) {i j : Nat} (other : j ≠ i) : (s.fail i).hasFailed j = s.hasFailed j := by
  unfold State.hasFailed
  rw [readiness_fail, if_neg other]

/-! ### Certificates and challenges -/

theorem certCommit_done {c len : Nat} {body : List Byte} (s : State) (slot : c < 8) :
    let b := body.take 0xFFC0 ++ (s.cert c).body.drop (min body.length 0xFFC0)
    ∃ t, exec (.certCommit c len body) s = .next t ∧ t = { s with dev := { s.dev with certs := t.dev.certs } } ∧
      (t.cert c).body = b ∧ (∀ k, k ≠ c → t.cert k = s.cert k) ∧
      if len ≤ 0xFFC0 then
        (t.cert c).len = len ∧ (t.cert c).gen = ((s.cert c).gen + 1) % 2 ^ 64 ∧
        (t.cert c).cert = b.take len ++ List.replicate (len - b.length) 0
      else (t.cert c).len = (s.cert c).len ∧ (t.cert c).gen = (s.cert c).gen ∧ (t.cert c).cert = (s.cert c).cert := by
  intro b
  let new : Cert := if 0xFFC0 < len then { s.cert c with body := b } else ⟨len, ((s.cert c).gen + 1) % 2 ^ 64, b, padTo len b⟩
  let t := s.setDev { s.dev with certs := cellSet Cert.empty s.dev.certs c new }
  have own : t.cert c = new := cellGet_cellSet_self ..
  refine ⟨t, congrArg Host.Outcome.next (if_neg (by omega)), rfl, ?_, fun k other => (cellGet_cellSet ..).trans (if_neg other), ?_⟩
  · rw [own]
    unfold new
    split <;> rfl
  · rw [own]
    split
    next short => rw [show new = _ from if_neg (by omega)]; exact ⟨rfl, rfl, rfl⟩
    next long => rw [show new = _ from if_pos (by omega)]; exact ⟨rfl, rfl, rfl⟩

/-- GO written for a bound tenant that has no challenge under way: it ends at once with the status that the check found, or it is sampled
(R379). -/
theorem exec_challengeStart {s : State} {t : Nat} (bound : s.bound t = true) (free : (s.tenant t).goBit = false) :
    exec (.challengeStart t) s = .next (s.setTenant (match s.challengeCheck t with
      | some n => { s.tenant t with chStatus := n }
      | none => { s.tenant t with goBit := true, chStatus := 1, asked := s.ask t })) := by
  have id := tenant_id bound
  refine congrArg Host.Outcome.next ((if_neg (by simp [bound])).trans ?_)
  unfold State.startChallenge
  dsimp only
  rw [page_of_bound bound, if_neg (by simp [free]), if_pos bound]
  cases s.challengeCheck t with
  | none => rfl
  | some n =>
    have same : ∀ k : Tenant, k.id = t → ({ k with id := t, chStatus := n } : Tenant) = { k with chStatus := n } := fun _ is => by rw [← is]
    have known : s.bound ({ s.tenant t with chStatus := n } : Tenant).id = true := id.symm ▸ bound
    show s.setPage _ = s.setTenant _
    rw [same _ id, setPage_of_bound known]

theorem challengeStart_done {s : State} {t : Nat} (bound : s.bound t = true) (free : (s.tenant t).goBit = false) :
    exec (.challengeStart t) s = .next (s.setTenant
      (if s.isReady 33 = false then { s.tenant t with chStatus := 7 }
       else if s.challenged t = none then { s.tenant t with chStatus := 3 }
       else if (s.cert (s.tenant t).cslot).len = 0 then { s.tenant t with chStatus := 4 }
       else if s.reportOk t (s.tenant t).chReport = false then { s.tenant t with chStatus := 6 }
       else { s.tenant t with goBit := true, chStatus := 1, asked := s.ask t })) := by
  rw [exec_challengeStart bound free]
  refine congrArg (fun k => Host.Outcome.next (s.setTenant k)) ?_
  unfold State.challengeCheck
  simp only [Bool.not_eq_true', Option.isNone_iff_eq_none]
  split_ifs <;> rfl

theorem bound_of_asked {s : State} {t : Nat} (pending : (s.tenant t).chStatus = 1) : s.bound t = true := by
  unfold State.bound
  unfold State.tenant at pending
  cases found : s.tasks.tenants.find? (fun k => k.id == t) with
  | none => rw [found] at pending; nomatch pending
  | some k => exact List.any_eq_true.2 ⟨k, List.mem_of_find?_eq_some found, List.find?_some (p := fun k : Tenant => k.id == t) found⟩

theorem challengeDone_done {s : State} {t : Nat} (pending : (s.tenant t).chStatus = 1) :
    let a := (s.tenant t).asked
    let l := s.launch a.uid
    ∃ u, exec (.challengeDone t) s = .next u ∧
      if (s.cert a.cslot).gen ≠ a.gen then u = s.setTenant { s.tenant t with goBit := false, chStatus := 5 }
      else if l.phase ≠ .running ∧ l.phase ≠ .ending then u = s.setTenant { s.tenant t with goBit := false, chStatus := 3 }
      else if s.reportOk t a.report = false then u = s.setTenant { s.tenant t with goBit := false, chStatus := 6 }
      else
        u.readMem a.report (s.report t l).length = s.report t l ∧ BytesKept s u a.report (s.report t l).length ∧
        u.tenant t = { s.tenant t with goBit := false, chStatus := 2 } ∧ TenantsKept s u t ∧
        u.ctl = { s.ctl with seq := (s.ctl.seq + 1) % 2 ^ 64 } ∧ u.cores = s.cores ∧ u.dev = s.dev := by
  intro a l
  refine ⟨_, congrArg Host.Outcome.next (if_neg (not_not_intro pending)), ?_⟩
  split
  next => rfl
  next =>
    split
    next => rfl
    next =>
      split
      next bad => rw [if_pos (by simpa using bad)]; rfl
      next good =>
        have bound := bound_of_asked pending
        obtain ⟨m, hm⟩ := deviceStore_mem s a.report (s.report t l) none
        have stored := State.readMem_deviceStore s a.report (s.report t l) none
        have kept := fun b => State.byte_deviceStore_out s a.report (s.report t l) none (m := b)
        rw [hm] at stored kept
        rw [if_neg (by simpa using good), hm]
        have id : ((s.setMem m).takeSeq.tenant t).id = t := tenant_id bound
        exact ⟨stored, kept, tenant_setTenant_of (s := s) bound rfl id, fun k other => tenant_setTenant_ne _ (by rw [id]; exact other),
          rfl, rfl, rfl⟩

/-! ### Power -/

/-- With no tenant bound an event tells nobody. -/
theorem eventAll_nobody {s : State} (nobody : s.tasks.tenants = []) (p : Tenant → Bool) (f : State → Nat → State) : s.eventAll p f = s := by
  unfold State.eventAll
  rw [nobody]
  rfl

theorem setReady_tasks (s : State) (i : Nat) (v : Word) : (s.setReady i v).tasks = s.tasks := rfl

theorem setReady_mem (s : State) (i : Nat) (v : Word) : (s.setReady i v).mem = s.mem := rfl

theorem setReady_cores (s : State) (i : Nat) (v : Word) : (s.setReady i v).cores = s.cores := rfl

theorem setReady_setDev (s : State) (i : Nat) (v : Word) (r : Cells Word) :
    (s.setReady i v).setDev { (s.setReady i v).dev with readiness := r } = s.setDev { s.dev with readiness := r } := rfl

/-- Functions that fail while no tenant is bound: their readiness words change, and nothing else. -/
theorem fail_untold {s : State} (nobody : s.tasks.tenants = []) (i : Nat) : s.fail i = s.setReady i (s.failWord i) :=
  eventAll_nobody (by rw [setReady_tasks]; exact nobody) _ _

theorem fails_untold : ∀ (l : List Nat) (s : State), s.tasks.tenants = [] → ∃ r, l.foldl State.fail s = s.setDev { s.dev with readiness := r }
  | [], s, _ => ⟨s.dev.readiness, rfl⟩
  | i :: l, s, nobody => by
    rw [List.foldl_cons, fail_untold nobody]
    obtain ⟨r, hr⟩ := fails_untold l (s.setReady i (s.failWord i)) (by rw [setReady_tasks]; exact nobody)
    exact ⟨r, hr.trans (setReady_setDev ..)⟩

/-- Of functions of which none was ready or failed, those that fail report it. -/
theorem fails_report (j : Nat) : ∀ (l : List Nat) (s : State), s.isReady j = false →
    (l.foldl State.fail s).isReady j = false ∧ (l.foldl State.fail s).hasFailed j = (s.hasFailed j || l.contains j)
  | [], s, idle => ⟨idle, by simp⟩
  | i :: l, s, idle => by
    by_cases own : j = i
    · subst own
      obtain ⟨ready, failed⟩ := fails_report j l (s.fail j) (isReady_fail s j)
      exact ⟨ready, by rw [List.foldl_cons, failed, hasFailed_fail]; simp⟩
    · obtain ⟨ready, failed⟩ := fails_report j l (s.fail i) ((isReady_fail_ne s own).trans idle)
      exact ⟨ready, by rw [List.foldl_cons, failed, hasFailed_fail_ne s own, List.contains_cons, beq_false_of_ne own, Bool.false_or]⟩

/-- A function belongs to one die (Table 27-2). -/
theorem functionDie_of_mem {d i : Nat} (low : d < 8) (here : i ∈ functionsOf d) : functionDie i = some d := by
  revert i
  revert low
  revert d
  decide

/-- The functions of the dies whose flash fails its check. -/
theorem mem_badFunctions {bad : List Nat} {d i : Nat} (low : ∀ e ∈ bad, e < 8) (small : d < 8) (here : i ∈ functionsOf d) :
    (bad.flatMap functionsOf).contains i = bad.contains d := by
  rw [Bool.eq_iff_iff, List.contains_iff_mem, List.contains_iff_mem, List.mem_flatMap]
  refine ⟨fun ⟨e, he, hi⟩ => ?_, fun hd => ⟨d, hd, here⟩⟩
  have same := (functionDie_of_mem (low e he) hi).symm.trans (functionDie_of_mem small here)
  exact Option.some.inj same ▸ he

/-- The dies whose flash passes its check. -/
def goodDies (img : BootImage) : List Nat := (List.range 8).filter (fun d => img.dieOk.getD d false)

/-- The dies whose flash fails it. -/
def badDies (img : BootImage) : List Nat := (List.range 8).filter (fun d => !(goodDies img).contains d)

theorem mem_goodDies {img : BootImage} {d : Nat} (low : d < 8) : d ∈ goodDies img ↔ img.dieOk.getD d false = true := by
  simp [goodDies, low]

theorem badDies_contains {img : BootImage} {d : Nat} (low : d < 8) : (badDies img).contains d = !img.dieOk.getD d false := by
  rw [Bool.eq_iff_iff, List.contains_iff_mem]
  simp [badDies, goodDies, low]

/-- The state with power on, before the functions of the dies that fail report it (R390). -/
def State.powered (s : State) (img : BootImage) : State :=
  let s0 := s.fresh
  let s1 := (s0.setCtl { s0.ctl with booted := goodDies img }).setMem { s0.mem with
    failedBridges := img.failedBridges, spareBridges := sparesOf img.failedBridges img.spareBridges }
  s1.setDev { s1.dev with
    devid := img.devid % 1024, badCores := img.badCores, badBanks := img.badBanks, claimBishop := img.claim,
    pufOk := img.pufOk && goodDies img != [], puf := img.puf, hbmTraining := img.hbmTraining, thermal := img.thermal }

theorem exec_powerOn {s : State} (img : BootImage) (off : s.ctl.power = false ∨ s.ctl.booted = [] ∧ s.dev.readiness = []) :
    exec (.powerOn img) s = .next (((badDies img).flatMap functionsOf).foldl State.fail (s.powered img)) :=
  congrArg Host.Outcome.next (if_neg fun ⟨on, twice⟩ => by
    rcases off with off | ⟨booted, idle⟩
    · simp [off] at on
    · exact twice.elim (fun h => h booted) (fun h => h idle))

theorem powerOn_done {s : State} (img : BootImage) (off : s.ctl.power = false ∨ s.ctl.booted = [] ∧ s.dev.readiness = []) :
    ∃ t, exec (.powerOn img) s = .next t ∧ t.ctl.power = true ∧ t.ctl.seq = 1 ∧ t.ctl.cycle = 0 ∧ t.cores = Cores.reset ∧
      t.tasks = Tasks.reset ∧ t.mem.bytes = [] ∧ t.mem.frames = [] ∧ t.dev.devid = img.devid % 1024 ∧ t.dev.badCores = img.badCores ∧
      t.dev.badBanks = img.badBanks ∧ t.dev.puf = img.puf ∧ t.dev.hbmTraining = img.hbmTraining ∧ t.dev.thermal = img.thermal ∧
      t.mem.failedBridges = img.failedBridges ∧ t.mem.spareBridges = sparesOf img.failedBridges img.spareBridges ∧
      t.dev.claimBishop = img.claim ∧
      ∀ d < 8, (d ∈ t.ctl.booted ↔ img.dieOk.getD d false = true) ∧
        ∀ i ∈ functionsOf d, t.isReady i = false ∧ t.hasFailed i = !img.dieOk.getD d false := by
  have blank : (s.powered img).dev.readiness = [] := rfl
  have word : ∀ i, (cellGet 0 (s.powered img).dev.readiness i : Word) = 0 := fun i => by rw [blank]; rfl
  have idle : ∀ i, (s.powered img).isReady i = false := fun i => by unfold State.isReady; rw [word]; decide
  have works : ∀ i, (s.powered img).hasFailed i = false := fun i => by unfold State.hasFailed; rw [word]; decide
  have report := fun i => fails_report i ((badDies img).flatMap functionsOf) (s.powered img) (idle i)
  refine ⟨_, exec_powerOn img off, ?_⟩
  obtain ⟨r, hr⟩ := fails_untold ((badDies img).flatMap functionsOf) (s.powered img) rfl
  rw [hr] at report ⊢
  refine ⟨rfl, rfl, rfl, rfl, rfl, rfl, rfl, rfl, rfl, rfl, rfl, rfl, rfl, rfl, rfl, rfl, fun d low => ⟨mem_goodDies low, fun i here => ?_⟩⟩
  obtain ⟨ready, failed⟩ := report i
  refine ⟨ready, failed.trans ?_⟩
  have dies : ∀ e ∈ badDies img, e < 8 := fun e he => List.mem_range.1 (List.mem_filter.1 he).1
  rw [works, Bool.false_or, mem_badFunctions dies low here, badDies_contains low]

/-! ### Functions -/

theorem exec_functionReady {s : State} {i count : Nat} (low : i < 34) (started : ∀ d, functionDie i = some d → s.ctl.booted.contains d = true)
    (keys : functionDie i = none → s.dev.pufOk = true) (idle : s.isReady i = false) (works : s.hasFailed i = false)
    (units : 0 < s.unitCount i count) :
    exec (.functionReady i count) s = .next (s.setReady i (readyWord true false (s.unitCount i count) s.us)) := by
  show execFunctionReady i count s = _
  unfold execFunctionReady
  cases die : functionDie i with
  | none => simp [keys die, idle, works, Nat.not_le.2 low, units.ne']
  | some d =>
    have on := started d die
    simp [List.contains_iff_mem.1 on, idle, works, Nat.not_le.2 low, units.ne']

/-- A ready function fails, which is no link port (R392). -/
theorem exec_functionFail {s : State} {i : Nat} (ready : s.isReady i = true) (noLink : i < 25) :
    exec (.functionFail i) s = .next (s.fail i) :=
  congrArg Host.Outcome.next ((if_neg (by simp [ready])).trans (if_neg (by omega)))

/-- With one tenant bound an event tells that one. -/
theorem eventAll_one {s : State} {k : Tenant} (only : s.tasks.tenants = [k]) (f : State → Nat → State) :
    s.eventAll (fun _ => true) f = f s k.id := by
  unfold State.eventAll
  rw [only]
  rfl

/-- An event for a bound tenant that the host claims joins those that wait (R80). -/
theorem events_hostEvent {s : State} {t kind : Nat} {d : Word} (claimed : s.dev.claimHost.getLsbD kind = true) (bound : s.bound t = true) :
    ((s.hostEvent t kind d).tenant t).events = (s.tenant t).events ++ [eventOf s kind d] := by
  obtain ⟨lost, hears⟩ := hostEvent_claimed (t := t) (d := d) claimed
  rw [hears]
  exact congrArg Tenant.events (tenant_setTenant_of (u := s)
    (k := { s.tenant t with events := (s.tenant t).events ++ [eventOf s kind d], evlost := lost }) bound rfl (tenant_id bound))

theorem events_setReady_hostEvent {s : State} {t kind : Nat} {d : Word} (i : Nat) (v : Word) (claimed : s.dev.claimHost.getLsbD kind = true)
    (bound : s.bound t = true) :
    (((s.setReady i v).hostEvent t kind d).tenant t).events = (s.tenant t).events ++ [eventOf s kind d] :=
  events_hostEvent (s := s.setReady i v) claimed bound

/-- The one tenant of a device hears of a failure that the host claims (R392, log 23). -/
theorem events_fail {s : State} {k : Tenant} {i : Nat} (only : s.tasks.tenants = [k]) (claimed : s.dev.claimHost.getLsbD 7 = true) :
    ((s.fail i).tenant k.id).events = k.events ++ [eventOf s 7 (BitVec.ofNat 64 i)] := by
  have here : s.tenant k.id = k := by unfold State.tenant; rw [only]; simp
  have bound : s.bound k.id = true := by unfold State.bound; rw [only]; simp
  have told : s.fail i = (s.setReady i (s.failWord i)).hostEvent k.id 7 (BitVec.ofNat 64 i) :=
    eventAll_one (by rw [setReady_tasks]; exact only) _
  rw [told, events_setReady_hostEvent i _ claimed bound, here]

theorem Told.kept {s t : State} (h : Told s t) : t.mem = s.mem ∧ t.cores = s.cores ∧ t.tasks.stops = s.tasks.stops := by
  obtain ⟨_, _, _, rfl⟩ := h
  exact ⟨rfl, rfl, rfl⟩

/-- A failure leaves memory, the cores and the requests to stop as they are. -/
theorem fail_kept (s : State) (i : Nat) : (s.fail i).mem = s.mem ∧ (s.fail i).cores = s.cores ∧ (s.fail i).tasks.stops = s.tasks.stops := by
  obtain ⟨mem, cores, stops⟩ := (told_fail s i).kept
  exact ⟨mem.trans (setReady_mem ..), cores.trans (setReady_cores ..), stops.trans (congrArg Tasks.stops (setReady_tasks ..))⟩

/-! ### Heat -/

/-- A die's clock a step lower or higher, within its bounds (R393). -/
theorem exec_thermalStep {s : State} {die : Nat} {up : Bool} (may : if up then s.clockOf die < 1300 else 700 < s.clockOf die) :
    exec (.thermalStep die up) s = .next ((s.setDev { s.dev with
      clockMHz := cellSet 1300 s.dev.clockMHz die (if up then s.clockOf die + 100 else s.clockOf die - 100) }).eventAll
        (fun t => t.onDie die) (fun u t => u.hostEventFree t 3)) := by
  refine congrArg Host.Outcome.next (if_neg ?_)
  cases up with
  | true =>
    have below : s.clockOf die < 1300 := may
    simp [Nat.not_le.2 below]
  | false =>
    have above : 700 < s.clockOf die := may
    simp [Nat.not_le.2 above]

theorem thermalStep_done {s : State} {die : Nat} {up : Bool} (may : if up then s.clockOf die < 1300 else 700 < s.clockOf die) :
    ∃ t, exec (.thermalStep die up) s = .next t ∧ t.clockOf die = (if up then s.clockOf die + 100 else s.clockOf die - 100) ∧
      (∀ d, d ≠ die → t.clockOf d = s.clockOf d) ∧ t.mem = s.mem ∧ t.cores = s.cores ∧ t.tasks.launches = s.tasks.launches := by
  refine ⟨_, exec_thermalStep may, ?_⟩
  obtain ⟨_, _, _, h⟩ := told_eventAll (s.setDev { s.dev with
    clockMHz := cellSet 1300 s.dev.clockMHz die (if up then s.clockOf die + 100 else s.clockOf die - 100) })
    (fun t => t.onDie die) (f := fun u t => u.hostEventFree t 3) (fun u t => told_hostEventFree u t 3)
  rw [h]
  exact ⟨cellGet_cellSet_self .., fun d other => (cellGet_cellSet ..).trans (if_neg other), rfl, rfl, rfl⟩

/-- A stop by force of the one place on which a launch may be stopped is asked for (R354). -/
theorem stop_forced {s : State} {uid place : Nat} (may : (s.launch uid).stoppable = true) (here : place ∈ s.residentPlaces uid) :
    ∃ l, s.stop uid [place] true = s.setStops (l ++ [⟨uid, [place], true, s.ctl.cycle⟩]) := by
  have all : [place].filter (fun p => (s.residentPlaces uid).contains p) = [place] := by simp [here]
  unfold State.stop
  simp only [all, may]
  exact ⟨_, rfl⟩

/-- The stop of a die that has not failed: its launches are asked to stop by force, its tenants hear, and its cores' function fails (R393). -/
theorem exec_thermalStop {s t : State} {die : Nat} (works : s.hasFailed (1 + die) = false)
    (asked : (s.cores.ctxs.filter (fun c => c.core / 192 == die)).foldl (fun u c => u.stop c.launch [c.place] true) s = t) (dev : t.dev = s.dev) :
    exec (.thermalStop die) s = .next ((t.eventAll (fun t => t.onDie die) (fun u t => u.hostEventFree t 3)).fail (1 + die)) := by
  have same : t.hasFailed (1 + die) = false := by unfold State.hasFailed; rw [dev]; exact works
  show execThermalStop die s = _
  unfold execThermalStop
  dsimp only
  rw [asked, if_neg (by simp [same])]

theorem thermalStop_fails (s : State) (die : Nat) : ∃ t, (s.eventAll (fun t => t.onDie die) (fun u t => u.hostEventFree t 3)).fail (1 + die) = t ∧
    t.hasFailed (1 + die) = true ∧ t.isReady (1 + die) = false ∧ t.cores = s.cores ∧ t.mem = s.mem ∧ t.tasks.stops = s.tasks.stops := by
  obtain ⟨mem0, cores0, stops0⟩ :=
    (told_eventAll s (fun t => t.onDie die) (f := fun u t => u.hostEventFree t 3) (fun u t => told_hostEventFree u t 3)).kept
  refine ⟨_, rfl, hasFailed_fail .., isReady_fail .., ?_⟩
  obtain ⟨mem, cores, stops⟩ := fail_kept (s.eventAll (fun t => t.onDie die) (fun u t => u.hostEventFree t 3)) (1 + die)
  exact ⟨cores.trans cores0, mem.trans mem0, stops.trans stops0⟩

/-- Settles O60, clause by clause: what each event writes, and that the events for tenants change tenants and SEQ alone. -/
theorem deviceEvents : Obligations.DeviceEvents := by
  unfold Obligations.DeviceEvents
  refine ⟨fun s c len body slot => certCommit_done s slot, fun s t bound free => ⟨_, challengeStart_done bound free, rfl⟩,
    fun s t pending => challengeDone_done pending, fun s img off => powerOn_done img off,
    fun s i count low started idle works units small => ?_, fun s i k ready low only claimed => ?_, fun s die up may => thermalStep_done may,
    fun s die works => ⟨fun none_ => ?_, fun c one may => ?_⟩, fun s => ⟨_, rfl, rfl, rfl, rfl, rfl, rfl⟩⟩
  · refine ⟨_, exec_functionReady low (fun d die => by rw [die] at started; exact started) (fun keys => by rw [keys] at started; exact started)
      idle works units, rfl, ?_, ?_, ?_, fun least most => if_pos ⟨least, most⟩, ?_, fun j other => ?_⟩
    · unfold State.isReady
      rw [readiness_setReady, if_pos rfl, readyWord_ready]
    · unfold State.hasFailed
      rw [readiness_setReady, if_pos rfl, readyWord_fail]
    · rw [readiness_setReady, if_pos rfl, readyWord_count _ _ _ small]
    · rw [readiness_setReady, if_pos rfl, readyWord_us]
    · rw [readiness_setReady, if_neg other]
  · obtain ⟨mem, cores, -⟩ := fail_kept s i
    exact ⟨_, exec_functionFail ready low, isReady_fail .., hasFailed_fail .., fun j other => (readiness_fail ..).trans (if_neg other),
      events_fail only claimed, mem, cores⟩
  · obtain ⟨t, ht, failed, off, cores, mem, -⟩ := thermalStop_fails s die
    exact ⟨t, (exec_thermalStop works (by rw [none_]; rfl) rfl).trans (congrArg _ ht), failed, off, cores, mem⟩
  · have listed : c ∈ s.cores.ctxs ∧ (c.core / 192 == die) = true := List.mem_filter.1 (one ▸ List.mem_singleton_self c)
    have here : c.place ∈ s.residentPlaces c.launch := by
      unfold State.residentPlaces
      exact List.mem_dedup.2 (List.mem_map_of_mem (List.mem_filter.2 ⟨listed.1, beq_self_eq_true _⟩))
    obtain ⟨l, asks⟩ := stop_forced may here
    obtain ⟨t, ht, failed, -, cores, mem, stops⟩ := thermalStop_fails (s.setStops (l ++ [⟨c.launch, [c.place], true, s.ctl.cycle⟩])) die
    have done := exec_thermalStop (t := s.setStops (l ++ [⟨c.launch, [c.place], true, s.ctl.cycle⟩])) works (by rw [one]; exact asks) rfl
    refine ⟨t, done.trans (congrArg _ ht), failed, cores, mem, ?_⟩
    rw [stops]
    exact List.mem_append_right _ (List.mem_singleton_self _)

end Sys2Proof.Machine

/-! What stores into memory and into pools leave (spec/13 R227, R231, R268, R295; R3): the bytes they store, every other byte, and the records of the
machine that stores do not touch. -/
namespace Sys2Proof.Machine
open Sys2Proof.Safety

/-! ### Holdings replaced -/

/-- A launch's holdings on a core after some were replaced. -/
theorem ctx?_setCtx (s : State) (d : Ctx) (q k : Nat) :
    (s.setCtx d).ctx? q k = if q = d.launch ∧ k = d.core then (s.ctx? q k).map (fun _ => d) else s.ctx? q k := by
  have keeps : (fun x : Ctx => x.launch == q && x.core == k) ∘ (fun x : Ctx => if x.launch == d.launch && x.core == d.core then d else x) =
      fun x : Ctx => x.launch == q && x.core == k := by
    funext x
    simp only [Function.comp_apply]
    split
    next same =>
      simp only [Bool.and_eq_true, beq_iff_eq] at same
      rw [same.1, same.2]
    next => rfl
  have found : (s.setCtx d).ctx? q k =
      (s.ctx? q k).map (fun x : Ctx => if x.launch == d.launch && x.core == d.core then d else x) := by
    unfold State.ctx? State.setCtx updWhere
    dsimp only
    rw [List.find?_map, keeps]
  rw [found]
  cases here : s.ctx? q k with
  | none => split <;> rfl
  | some c =>
    obtain ⟨rfl, rfl⟩ := ctx?_key here
    simp only [Option.map_some, Bool.and_eq_true, beq_iff_eq]
    split <;> rfl

/-- What a launch holds on a core, blank or not, is kept under that key. -/
theorem ctx_key (s : State) (l k : Nat) : (s.ctx l k).launch = l ∧ (s.ctx l k).core = k := by
  unfold State.ctx
  cases here : s.ctx? l k with
  | none => exact ⟨rfl, rfl⟩
  | some c => exact ctx?_key here

theorem ctx_of_ctx? {s : State} {l k : Nat} {c : Ctx} (here : s.ctx? l k = some c) : s.ctx l k = c := by rw [State.ctx, here]; rfl

theorem ctx_setCtx (s : State) (d : Ctx) (q k : Nat) :
    (s.setCtx d).ctx q k = if (q = d.launch ∧ k = d.core) ∧ (s.ctx? q k).isSome = true then d else s.ctx q k := by
  unfold State.ctx
  rw [ctx?_setCtx]
  by_cases key : q = d.launch ∧ k = d.core
  · rw [if_pos key]
    cases s.ctx? q k with
    | none => simp
    | some c => simp [key]
  · rw [if_neg key, if_neg (fun h => key h.1)]

/-- A card of a core stands in the first holdings of its key. -/
structure HasCard (s : State) (core job : Nat) (c : Ctx) : Prop where
  found : s.cores.ctxs.find? (fun c => c.core == core && c.cards.any (fun k => k.id == job)) = some c
  first : s.ctx? c.launch c.core = some c

/-- Holdings replaced by some that hold a card where the old ones do: a card of the core stands in them or where it stood. -/
theorem hasCard_setCtx {s : State} {core job : Nat} {c d : Ctx} (has : HasCard s core job c)
    (own : c.launch = d.launch → c.core = d.core → d.cards.any (fun k => k.id == job) = true)
    (other : ¬(c.launch = d.launch ∧ c.core = d.core) → ∀ x, s.ctx? d.launch d.core = some x → d.cards = x.cards) :
    HasCard (s.setCtx d) core job (if c.launch = d.launch ∧ c.core = d.core then d else c) := by
  obtain ⟨holds, as, bs, split_, before⟩ := List.find?_eq_some_iff_append.1 has.found
  simp only [Bool.and_eq_true, beq_iff_eq] at holds
  have listed : (s.setCtx d).cores.ctxs = as.map (fun x => if x.launch == d.launch && x.core == d.core then d else x) ++
      (if c.launch = d.launch ∧ c.core = d.core then d else c) ::
        bs.map (fun x => if x.launch == d.launch && x.core == d.core then d else x) := by
    show updWhere _ _ s.cores.ctxs = _
    rw [split_]
    unfold updWhere
    simp
  have later : ∀ a ∈ as, ∀ q k, a.launch = q → a.core = k → ∃ x, s.ctx? q k = some x ∧ x ∈ as ∧ x.core = k := fun a ha q k hq hk => by
    obtain ⟨x, hx⟩ := Option.isSome_iff_exists.1 (List.find?_isSome (p := fun a : Ctx => a.launch == q && a.core == k).2
      ⟨a, ha, by simp [hq, hk]⟩)
    have key := List.find?_some hx
    simp only [Bool.and_eq_true, beq_iff_eq] at key
    refine ⟨x, ?_, List.mem_of_find?_eq_some hx, key.2⟩
    unfold State.ctx?
    rw [split_, List.find?_append, hx]
    rfl
  have none_ : ∀ a ∈ as.map (fun x : Ctx => if x.launch == d.launch && x.core == d.core then d else x),
      ¬(a.core == core && a.cards.any (fun k => k.id == job)) = true := by
    intro a ha
    obtain ⟨b, hb, rfl⟩ := List.mem_map.1 ha
    split
    next key =>
      simp only [Bool.and_eq_true, beq_iff_eq] at key
      obtain ⟨x, hx, inAs, at_⟩ := later b hb d.launch d.core key.1 key.2
      have notX := before x inAs
      by_cases same : c.launch = d.launch ∧ c.core = d.core
      · have is : c = x := Option.some.inj ((has.first.symm.trans (by rw [same.1, same.2])).trans hx)
        subst is
        simp [holds] at notX
      · rw [other same x hx, ← at_]
        simpa only [Bool.not_eq_true', Bool.not_eq_true] using notX
    next => simpa only [Bool.not_eq_true', Bool.not_eq_true] using before b hb
  refine ⟨?_, ?_⟩
  · rw [listed]
    refine List.find?_eq_some_iff_append.2 ⟨?_, _, _, rfl, fun a ha => by simpa only [Bool.not_eq_true', Bool.not_eq_true] using none_ a ha⟩
    split
    next key => simp [own key.1 key.2, ← key.2, holds.1]
    next => simpa using holds
  · split
    next key => rw [ctx?_setCtx, if_pos ⟨rfl, rfl⟩, ← key.1, ← key.2, has.first]; rfl
    next key => rw [ctx?_setCtx, if_neg key, has.first]

/-! ### What a store leaves -/

/-- Two states differ in memory at most, in no byte of it and in the owner of no frame. -/
structure Quiet (s t : State) : Prop where
  only : ∃ m, t = s.setMem m
  bytes : t.mem.bytes = s.mem.bytes
  owners : ∀ n, (t.frame n).owner = (s.frame n).owner

theorem Quiet.refl (s : State) : Quiet s s := ⟨⟨s.mem, rfl⟩, rfl, fun _ => rfl⟩

theorem Quiet.trans {s t u : State} (h : Quiet s t) (g : Quiet t u) : Quiet s u := by
  obtain ⟨⟨m, rfl⟩, bytes, owners⟩ := h
  obtain ⟨⟨n, rfl⟩, bytes', owners'⟩ := g
  exact ⟨⟨n, rfl⟩, bytes'.trans bytes, fun n => (owners' n).trans (owners n)⟩

theorem TokensOnly.quiet {s t : State} (h : TokensOnly s t) : Quiet s t := by
  obtain ⟨_, _, _, rfl⟩ := h
  exact ⟨⟨_, rfl⟩, rfl, fun _ => rfl⟩

theorem CacheOnly.quiet {s t : State} (h : CacheOnly s t) : Quiet s t := by
  obtain ⟨_, _, rfl⟩ := h
  exact ⟨⟨_, rfl⟩, rfl, fun _ => rfl⟩

theorem L1Only.quiet {s t : State} (h : L1Only s t) : Quiet s t := by
  obtain ⟨_, rfl⟩ := h
  exact ⟨⟨_, rfl⟩, rfl, fun _ => rfl⟩

theorem quiet_setWatch (s : State) (ma : Nat) (r : Option Watch) : Quiet s (s.setWatch ma r) := ⟨⟨_, rfl⟩, rfl, fun _ => rfl⟩

theorem quiet_leaveTags (s : State) (l : List (Nat × Nat × Option WTag)) : Quiet s (s.leaveTags l) := by
  obtain ⟨_, _, h⟩ := State.leaveTags_eq s l
  rw [h]
  exact ⟨⟨_, rfl⟩, rfl, fun _ => rfl⟩

/-- The records of the device lie where they lay while tenants and the owners of frames stand (R3). -/
theorem inRecord_congr {s t : State} (tenants : t.tasks.tenants = s.tasks.tenants) (owners : ∀ n, (t.frame n).owner = (s.frame n).owner) (m : Nat) :
    t.inRecord m = s.inRecord m := by
  unfold State.inRecord State.recordOf State.tfnAddr State.tenant
  simp only [tenants, owners]

/-- Between two states waves stand, and of what launches hold on cores only bytes of pools have changed. -/
structure PadsOnly (s t : State) : Prop where
  waves : t.cores.waves = s.cores.waves
  ctxs : ∀ q k, ∃ p g, t.ctx? q k = (s.ctx? q k).map (fun c => { c with pad := p, padTags := g })

theorem PadsOnly.of_cores {s t : State} (same : t.cores = s.cores) : PadsOnly s t := by
  refine ⟨by rw [same], fun q k => ⟨(s.ctx q k).pad, (s.ctx q k).padTags, ?_⟩⟩
  have stands : t.ctx? q k = s.ctx? q k := by unfold State.ctx?; rw [same]
  rw [stands]
  unfold State.ctx
  cases s.ctx? q k <;> rfl

theorem PadsOnly.trans {s t u : State} (h : PadsOnly s t) (g : PadsOnly t u) : PadsOnly s u := by
  refine ⟨g.waves.trans h.waves, fun q k => ?_⟩
  obtain ⟨_, _, first⟩ := h.ctxs q k
  obtain ⟨p, x, second⟩ := g.ctxs q k
  refine ⟨p, x, second.trans ?_⟩
  rw [first]
  cases s.ctx? q k <;> rfl

theorem PadsOnly.isSome {s t : State} (h : PadsOnly s t) (q k : Nat) : (t.ctx? q k).isSome = (s.ctx? q k).isSome := by
  obtain ⟨_, _, e⟩ := h.ctxs q k
  rw [e, Option.isSome_map]

theorem PadsOnly.ctx {s t : State} (h : PadsOnly s t) (q k : Nat) : ∃ p g, t.ctx q k = { s.ctx q k with pad := p, padTags := g } := by
  obtain ⟨p, g, e⟩ := h.ctxs q k
  unfold State.ctx
  rw [e]
  cases s.ctx? q k with
  | none => exact ⟨[], [], rfl⟩
  | some c => exact ⟨p, g, rfl⟩

theorem padsOnly_writePad (s : State) (launch core off : Nat) (l : List Byte) (tag : Option WTag) : PadsOnly s (s.writePad launch core off l tag) := by
  obtain ⟨key, place⟩ := ctx_key s launch core
  refine ⟨rfl, fun q k => ?_⟩
  unfold State.writePad
  dsimp only
  rw [ctx?_setCtx]
  cases here : s.ctx? q k with
  | none => exact ⟨[], [], by split <;> rfl⟩
  | some c =>
    split
    next same =>
      obtain ⟨rfl, rfl⟩ : q = launch ∧ k = core := ⟨same.1.trans key, same.2.trans place⟩
      rw [ctx_of_ctx? here]
      exact ⟨_, _, rfl⟩
    next => exact ⟨c.pad, c.padTags, rfl⟩

/-- Between two states a store of an engine has been made, perhaps: tasks stand and so do the device's records, of memory and of pools only bytes
have changed, and every card stands where it stood. -/
structure Beside (s t : State) : Prop where
  pads : PadsOnly s t
  tasks : t.tasks = s.tasks
  records : ∀ m, t.inRecord m = s.inRecord m
  cards : ∀ core job c, HasCard s core job c → ∃ p g, HasCard t core job { c with pad := p, padTags := g }

theorem Beside.trans {s t u : State} (h : Beside s t) (g : Beside t u) : Beside s u := by
  refine ⟨h.pads.trans g.pads, g.tasks.trans h.tasks, fun m => (g.records m).trans (h.records m), fun core job c has => ?_⟩
  obtain ⟨_, _, there⟩ := h.cards core job c has
  obtain ⟨p, x, then_⟩ := g.cards core job _ there
  exact ⟨p, x, then_⟩

theorem Quiet.beside {s t : State} (h : Quiet s t) : Beside s t := by
  obtain ⟨⟨m, rfl⟩, _, owners⟩ := h
  exact ⟨PadsOnly.of_cores rfl, rfl, inRecord_congr rfl owners, fun core job c has => ⟨c.pad, c.padTags, has.found, has.first⟩⟩

theorem Quiet.placeByte {s t : State} (h : Quiet s t) (launch : Nat) (q : Place) (n : Nat) : placeByte t launch q n = placeByte s launch q n := by
  obtain ⟨⟨m, rfl⟩, bytes, _⟩ := h
  unfold Safety.placeByte State.byte
  rw [bytes]
  rfl

theorem beside_writePad (s : State) (launch core off : Nat) (l : List Byte) (tag : Option WTag) : Beside s (s.writePad launch core off l tag) := by
  refine ⟨padsOnly_writePad s launch core off l tag, rfl, fun _ => rfl, fun c0 job c has => ?_⟩
  obtain ⟨key, place⟩ := ctx_key s launch core
  have kept := hasCard_setCtx (d := { s.ctx launch core with
    pad := cellSetMany 0 (s.ctx launch core).pad off l, padTags := cellSetMany none (s.ctx launch core).padTags off (List.replicate l.length tag) })
    has (fun hl hc => ?_) (fun _ x hx => ?_)
  · split at kept
    next same =>
      have is : s.ctx launch core = c := ctx_of_ctx? (by rw [← has.first, same.1, same.2, key, place])
      rw [is] at kept
      exact ⟨_, _, by unfold State.writePad; dsimp only; rw [is]; exact kept⟩
    next => exact ⟨c.pad, c.padTags, kept⟩
  · have is : s.ctx launch core = c := ctx_of_ctx? (by rw [← has.first, hl, hc, key, place])
    have holds := List.find?_some has.found
    simp only [Bool.and_eq_true] at holds
    rw [is]
    exact holds.2
  · dsimp only at hx
    rw [key, place] at hx
    rw [ctx_of_ctx? hx]

/-- A store covers a place. -/
def Covers (x : Place × List Byte) (q : Place) : Prop := x.1.1 = q.1 ∧ x.1.2 ≤ q.2 ∧ q.2 < x.1.2 + x.2.length

/-- Between two states some bytes are stored at a place of a launch, and no other byte of main memory and of pools has changed. -/
structure Put (s t : State) (launch : Nat) (x : Place × List Byte) : Prop where
  here : Reachable s launch x.1 → ∀ q, Covers x q → placeByte t launch q 0 = storedByte s launch q 0 (x.2.getD (q.2 - x.1.2) 0)
  apart : ∀ q, ¬Covers x q → placeByte t launch q 0 = placeByte s launch q 0
  others : ∀ q k m, q ≠ launch → padByte t q k m = padByte s q k m
  beside : Beside s t

theorem storedByte_congr {s t : State} {launch : Nat} {q : Place} (records : ∀ m, t.inRecord m = s.inRecord m)
    (same : placeByte t launch q 0 = placeByte s launch q 0) (v : Byte) : storedByte t launch q 0 v = storedByte s launch q 0 v := by
  unfold storedByte
  rw [records, same]

theorem Put.of_quiet {s t u : State} {launch : Nat} {x : Place × List Byte} (h : Quiet s t) (g : Put t u launch x) : Put s u launch x := by
  have same := h.placeByte launch
  obtain ⟨⟨m, rfl⟩, _, _⟩ := id h
  exact ⟨fun reach q cov => (g.here reach q cov).trans (storedByte_congr h.beside.records (same q 0) _),
    fun q away => (g.apart q away).trans (same q 0), g.others, h.beside.trans g.beside⟩

theorem Put.then_quiet {s t u : State} {launch : Nat} {x : Place × List Byte} (g : Put s t launch x) (h : Quiet t u) : Put s u launch x := by
  have same := h.placeByte launch
  refine ⟨fun reach q cov => (same q 0).trans (g.here reach q cov), fun q away => (same q 0).trans (g.apart q away), fun q k m other => ?_,
    g.beside.trans h.beside⟩
  obtain ⟨⟨m', rfl⟩, _, _⟩ := h
  exact g.others q k m other

/-- Bytes of a pool written (R231). -/
theorem put_writePad (s : State) (launch core off : Nat) (l : List Byte) (tag : Option WTag) :
    Put s (s.writePad launch core off l tag) launch ((some core, off), l) := by
  have beside := beside_writePad s launch core off l tag
  by_cases there : (s.ctx? launch core).isSome = true
  · refine ⟨fun _ q cov => ?_, fun q away => ?_, fun q k m other => ?_, beside⟩
    · obtain ⟨at_, low, high⟩ := cov
      obtain ⟨k, m⟩ := q
      obtain rfl : some core = k := at_
      have now := padByte_writePad there off l tag launch core m
      rw [if_pos ⟨⟨rfl, rfl⟩, low, high⟩] at now
      simpa [storedByte, Safety.placeByte] using now
    · obtain ⟨k, m⟩ := q
      cases k with
      | none => rfl
      | some k =>
        refine (padByte_writePad there off l tag launch k m).trans (if_neg fun ⟨at_, low, high⟩ => away ⟨?_, low, high⟩)
        exact congrArg some at_.2.symm
    · exact (padByte_writePad there off l tag q k m).trans (if_neg fun at_ => other at_.1.1)
  · have stands : ∀ q k m, padByte (s.writePad launch core off l tag) q k m = padByte s q k m := fun q k m => by
      unfold padByte State.writePad
      dsimp only
      rw [ctx_setCtx, if_neg]
      rintro ⟨⟨hq, hk⟩, some_⟩
      obtain ⟨key, place⟩ := ctx_key s launch core
      dsimp only at hq hk
      rw [hq, hk, key, place] at some_
      exact there some_
    refine ⟨fun reach => absurd (reach core rfl) there, fun q _ => ?_, fun q k m _ => stands q k m, beside⟩
    obtain ⟨k, m⟩ := q
    cases k with
    | none => rfl
    | some k => exact stands launch k m

/-- Bytes of main memory stored, but for the device's own records (R3). -/
theorem put_bytes {s : State} {m : MemSys} {ma : Nat} {l : List Byte} (stored : m.bytes = cellSetMany 0 s.mem.bytes ma (s.keepRecords ma l))
    (owners : ∀ n, ((s.setMem m).frame n).owner = (s.frame n).owner) (launch : Nat) : Put s (s.setMem m) launch ((none, ma), l) := by
  obtain ⟨here, out⟩ := stored_getD stored launch
  refine ⟨fun _ q cov => ?_, fun q away => ?_, fun _ _ _ _ => rfl,
    ⟨PadsOnly.of_cores rfl, rfl, inRecord_congr rfl owners, fun core job c has => ⟨c.pad, c.padTags, has.found, has.first⟩⟩⟩
  · obtain ⟨at_, low, high⟩ := cov
    obtain ⟨k, a⟩ := q
    obtain rfl : none = k := at_
    dsimp only at low high ⊢
    have now := here (a - ma) (by omega)
    rw [show ma + (a - ma) = a by omega] at now
    refine Eq.trans now ?_
    unfold storedByte Safety.placeByte
    simp [show ma + (a - ma) = a by omega]
  · obtain ⟨k, a⟩ := q
    cases k with
    | some k => rfl
    | none => exact out a (by by_contra within; exact away ⟨rfl, by dsimp only; omega, by dsimp only; omega⟩)

/-! ### Stores one after another -/

/-- Between two states neither waves, tasks nor bytes change, nor where pools and the device's records lie. -/
structure Still (s t : State) : Prop where
  bytes : ∀ launch q, placeByte t launch q 0 = placeByte s launch q 0
  records : ∀ m, t.inRecord m = s.inRecord m
  pools : ∀ q k, (t.ctx? q k).isSome = (s.ctx? q k).isSome

/-- Between two states a list of stores has been made in order, with steps that change no byte between them. -/
inductive Puts (launch : Nat) : State → State → List (Place × List Byte) → Prop
  | nil (s : State) : Puts launch s s []
  | still {s t u : State} {l : List (Place × List Byte)} : Still s t → Puts launch t u l → Puts launch s u l
  | put {s t u : State} {x : Place × List Byte} {l : List (Place × List Byte)} : Put s t launch x → Puts launch t u l → Puts launch s u (x :: l)

theorem Quiet.still {s t : State} (h : Quiet s t) : Still s t :=
  ⟨fun launch q => h.placeByte launch q 0, h.beside.records, h.beside.pads.isSome⟩

theorem Puts.append {launch : Nat} {s t u : State} {l k : List (Place × List Byte)} (h : Puts launch s t l) (g : Puts launch t u k) :
    Puts launch s u (l ++ k) := by
  induction h with
  | nil => exact g
  | still quiet _ ih => exact .still quiet (ih g)
  | put stored _ ih => exact .put stored (ih g)

/-- A byte that no store covers stands. -/
theorem Puts.stands {launch : Nat} {s t : State} {l : List (Place × List Byte)} (h : Puts launch s t l) {q : Place}
    (away : ∀ x ∈ l, ¬Covers x q) : placeByte t launch q 0 = placeByte s launch q 0 := by
  induction h with
  | nil => rfl
  | still quiet _ ih => exact (ih away).trans (quiet.bytes launch q)
  | put stored _ ih =>
    exact (ih fun x hx => away x (List.mem_cons_of_mem _ hx)).trans (stored.apart q (away _ (List.mem_cons_self ..)))

/-- A byte of another launch's pools stands. -/
theorem Puts.others {launch : Nat} {s t : State} {l : List (Place × List Byte)} (h : Puts launch s t l) {q : Nat} (k m : Nat) (other : q ≠ launch) :
    padByte t q k m = padByte s q k m := by
  induction h with
  | nil => rfl
  | still quiet _ ih => exact ih.trans (quiet.bytes q (some k, m))
  | put stored _ ih => exact ih.trans (stored.others q k m other)

theorem reachable_congr {s t : State} {launch : Nat} {p : Place} (pools : ∀ q k, (t.ctx? q k).isSome = (s.ctx? q k).isSome)
    (h : Reachable s launch p) : Reachable t launch p := fun core at_ => (pools launch core).trans (h core at_)

/-- A byte that stores cover, each with the same byte for it, is that byte then, where no record of the device stands (R3). -/
theorem Puts.holds {launch : Nat} {s t : State} {l : List (Place × List Byte)} (h : Puts launch s t l) {q : Place} {v : Byte}
    (reach : ∀ x ∈ l, Reachable s launch x.1) (agree : ∀ x ∈ l, Covers x q → x.2.getD (q.2 - x.1.2) 0 = v) (some_ : ∃ x ∈ l, Covers x q) :
    placeByte t launch q 0 = storedByte s launch q 0 v := by
  induction h with
  | nil => obtain ⟨_, none_, _⟩ := some_; simp at none_
  | still quiet _ ih =>
    exact (ih (fun x hx => reachable_congr quiet.pools (reach x hx)) agree some_).trans (storedByte_congr quiet.records (quiet.bytes launch q) v)
  | @put s u t x l stored rest ih =>
    have reachX := reach x (List.mem_cons_self ..)
    have own : Covers x q → placeByte u launch q 0 = storedByte s launch q 0 v := fun cov => by
      rw [stored.here reachX q cov, agree x (List.mem_cons_self ..) cov]
    by_cases later : ∃ y ∈ l, Covers y q
    · refine (ih (fun y hy => reachable_congr stored.beside.pads.isSome (reach y (List.mem_cons_of_mem _ hy)))
        (fun y hy => agree y (List.mem_cons_of_mem _ hy)) later).trans ?_
      by_cases cov : Covers x q
      · unfold storedByte
        rw [stored.beside.records, own cov]
        unfold storedByte
        split <;> rfl
      · exact storedByte_congr stored.beside.records (stored.apart q cov) v
    · have away : ∀ y ∈ l, ¬Covers y q := fun y hy cov => later ⟨y, hy, cov⟩
      obtain ⟨y, hy, cov⟩ := some_
      rcases List.mem_cons.1 hy with rfl | hy
      · exact (rest.stands away).trans (own cov)
      · exact absurd cov (away y hy)

/-- Stores that do not meet are all there in the end, and no other byte has changed. -/
theorem Puts.stored {launch : Nat} {s t : State} {l : List (Place × List Byte)} (h : Puts launch s t l) (reach : ∀ x ∈ l, Reachable s launch x.1)
    (apart : l.Pairwise StoresApart) : Stored s t launch l := by
  refine ⟨fun x hx n hn => ?_, fun m away => ?_, fun q k m away => ?_⟩
  · have covers : Covers x (x.1.1, x.1.2 + n) := ⟨rfl, by dsimp only; omega, by dsimp only; omega⟩
    have only : ∀ y ∈ l, Covers y (x.1.1, x.1.2 + n) → y.2.getD (x.1.2 + n - y.1.2) 0 = x.2.getD n 0 := fun y hy cov => by
      by_cases same : y = x
      · rw [same, Nat.add_sub_cancel_left]
      · obtain ⟨at_, low, high⟩ := cov
        have : Std.Symm (α := Place × List Byte) StoresApart :=
          ⟨fun _ _ g => by rcases g with g | g | g; exacts [.inl (Ne.symm g), .inr (.inr g), .inr (.inl g)]⟩
        have sides := apart.forall hy hx same
        dsimp only at at_ low high
        rcases sides with g | g | g
        · exact absurd at_ g
        · omega
        · omega
    have now := h.holds reach only ⟨x, hx, covers⟩
    simpa [storedByte, Safety.placeByte] using now
  · refine h.stands (q := (none, m)) fun x hx ⟨at_, low, high⟩ => ?_
    have := away x hx at_
    dsimp only at low high
    omega
  · by_cases mine : q = launch
    · subst mine
      refine h.stands (q := (some k, m)) fun x hx ⟨at_, low, high⟩ => ?_
      have := away rfl x hx at_
      dsimp only at low high
      omega
    · exact h.others k m mine

/-! ### An access at its home -/

/-- A sector read brings what stands there and changes no byte (R115, R249). -/
theorem homeAccess_reads {s u : State} {stop ten e ma n : Nat} {who : Requester} {tags : List (Nat × Nat × Option WTag)} {old : List Byte}
    (h : s.homeAccess stop ten who none e ma n tags (fun _ => none) = .done u old) : Quiet s u ∧ old = s.readMem ma n := by
  unfold State.homeAccess at h
  split at h
  · cases h
  · split at h
    · cases h
    next s1 sent =>
      have quiet := (tokensOnly_request (.inl sent)).quiet
      obtain ⟨⟨m, rfl⟩, bytes, _⟩ := id quiet
      have cached := homeDo_cacheOnly h
      unfold State.homeDo at h
      dsimp only at h
      split_ifs at h
      cases h
      refine ⟨quiet.trans cached.quiet, ?_⟩
      unfold State.homeBytes State.readMem
      rw [bytes]

/-- The owner of a frame stands while bytes of an unprotected frame are written. -/
theorem owner_homeWrite (s : State) (ma : Nat) (l : List Byte) (n : Nat) : ((s.homeWrite none ma l).frame n).owner = (s.frame n).owner := by
  show (((s.writeMem ma l).setFrame (mfnOf ma) { s.frame (mfnOf ma) with stamp := _ }).frame n).owner = _
  rw [State.frame_setFrame]
  split
  next same => rw [same]
  next => rfl

/-- The owner of a frame stands while an access of an unprotected frame writes. -/
theorem owner_homeDo {s u : State} {stop ten e ma n : Nat} {tags : List (Nat × Nat × Option WTag)} {old l : List Byte}
    (h : s.homeDo stop ten none e ma n tags (fun _ => some l) = .done u old) (k : Nat) : (u.frame k).owner = (s.frame k).owner := by
  unfold State.homeDo at h
  rw [if_neg (show ¬((none : Option Nat).any (fun k => !s.macOk k ma)) = true by simp)] at h
  split at h
  · cases h
  · cases h
    exact ((l1Only_l1Stores ..).quiet.owners k).trans (((quiet_leaveTags ..).owners k).trans
      ((owner_homeWrite ..).trans ((cacheOnly_l2Access ..).quiet.owners k)))

/-- Bytes stored at their home (R115, R249): there, but for the device's own records, and no other byte changes. -/
theorem homeDo_stores {s u : State} {stop ten e ma n : Nat} {tags : List (Nat × Nat × Option WTag)} {old l : List Byte}
    (h : s.homeDo stop ten none e ma n tags (fun _ => some l) = .done u old) (launch : Nat) :
    Put s u launch ((none, ma), l) ∧ old = s.readMem ma n := by
  by_cases owner : (s.frame (mfnOf ma)).owner = ten
  · obtain ⟨m, runs, bytes⟩ := homeDo_write (core := stop) (evict := e) (tags := tags) (new := fun _ => some l) (n := n) owner rfl
    obtain ⟨rfl, rfl⟩ : s.setMem m = u ∧ s.readMem ma n = old := by simpa [h] using runs.symm
    exact ⟨put_bytes bytes (owner_homeDo h) launch, rfl⟩
  · unfold State.homeDo at h
    rw [if_pos owner] at h
    cases h

theorem homeAccess_stores {s u : State} {stop ten e ma n : Nat} {who : Requester} {tags : List (Nat × Nat × Option WTag)} {old l : List Byte}
    (h : s.homeAccess stop ten who none e ma n tags (fun _ => some l) = .done u old) (launch : Nat) : Put s u launch ((none, ma), l) := by
  unfold State.homeAccess at h
  split at h
  · cases h
  · split at h
    · cases h
    next s1 sent => exact .of_quiet (tokensOnly_request (.inl sent)).quiet (homeDo_stores h launch).1

end Sys2Proof.Machine

/-! Copy jobs in their queues (spec/16 R264, R267, R268, R270, R274): a card queued, a unit of it moved, and its end. -/
namespace Sys2Proof.Machine
open Sys2Proof.Safety

/-! ### A sector of an end -/

/-- An offset of an end that lies in a pool, or on a plain page of this device. -/
theorem endPlace_cases {e : JobEnd} {up : Nat} {p : Place} (at_ : endPlace e up = some p) :
    (∃ core, e.pad = some core ∧ p = (some core, e.addr + up)) ∨
      e.pad = none ∧ ∃ base n loc attr ma, e.pageAt (e.addr + up) = some (base, n, loc, attr) ∧ loc.plus (e.addr + up - base) = .mem ma ∧
        isProt attr = false ∧ p = (none, ma) := by
  unfold endPlace at at_
  split at at_
  next core pad => exact .inl ⟨core, pad, (Option.some.inj at_).symm⟩
  next pad =>
    obtain ⟨⟨base, n, loc, attr⟩, page, place⟩ := Option.bind_eq_some_iff.1 at_
    dsimp only at place
    split at place
    next ma lies =>
      split at place
      · cases place
      next plain => exact .inr ⟨pad, base, n, loc, attr, ma, page, lies, by simpa using plain, (Option.some.inj place).symm⟩
    next => cases place

/-- The bytes from a place on. -/
def bytesAt (s : State) (launch : Nat) (p : Place) (n : Nat) : List Byte := (List.range n).map (placeByte s launch p)

theorem sectorAt_reads {s u : State} {c : Ctx} {k : Card} {e : JobEnd} {up n : Nat} {l : List Byte} {p : Place}
    (h : sectorAt s c k e up n none = .ok u l) (at_ : endPlace e up = some p) : Quiet s u ∧ l = bytesAt s c.launch p n := by
  unfold sectorAt at h
  rcases endPlace_cases at_ with ⟨core, pad, rfl⟩ | ⟨pad, base, m, loc, attr, ma, page, lies, plain, rfl⟩
  · simp only [pad] at h
    split at h
    next => cases h
    next s1 sent _ =>
      cases h
      have quiet := (tokensOnly_takeStops sent).quiet
      refine ⟨quiet, ?_⟩
      obtain ⟨⟨_, rfl⟩, _, _⟩ := quiet
      rfl
    next => rename_i none_; cases none_
  · simp only [pad, page, lies] at h
    unfold memSector at h
    dsimp only at h
    split at h
    · cases h
    · rw [plain] at h
      split at h
      · cases h
      · cases h
      next s1 old done =>
        cases h
        obtain ⟨quiet, rfl⟩ := homeAccess_reads done
        exact ⟨by simpa using quiet, rfl⟩

theorem sectorAt_stores {s u : State} {c : Ctx} {k : Card} {e : JobEnd} {up n : Nat} {l l' : List Byte} {p : Place}
    (h : sectorAt s c k e up n (some l) = .ok u l') (at_ : endPlace e up = some p) : Put s u c.launch (p, l) := by
  unfold sectorAt at h
  rcases endPlace_cases at_ with ⟨core, pad, rfl⟩ | ⟨pad, base, m, loc, attr, ma, page, lies, plain, rfl⟩
  · simp only [pad] at h
    split at h
    next => cases h
    next => rename_i none_; cases none_
    next s1 _ sent new =>
      cases h
      cases new
      exact .of_quiet (tokensOnly_takeStops sent).quiet (put_writePad ..)
  · simp only [pad, page, lies] at h
    unfold memSector at h
    dsimp only at h
    split at h
    · cases h
    · rw [plain] at h
      split at h
      · cases h
      · cases h
      next s1 old done =>
        cases h
        have put := (homeAccess_stores done c.launch).then_quiet (l1Only_l1Drop s1 c.core ma).quiet
        dsimp only [Option.isSome_some, if_true]
        split
        · exact put.then_quiet (quiet_setWatch ..)
        · exact put

/-! ### Sectors moved -/

/-- What a sector of a job that is no CPYD stores (R274). -/
def Card.data (k : Card) (s : State) (launch : Nat) (p : Place) : List Byte :=
  if k.kind = .cpym then
    let b := bytesOf 8 k.pattern.toNat
    b ++ b ++ b ++ b
  else bytesAt s launch p 32

theorem length_data (k : Card) (s : State) (launch : Nat) (p : Place) : (k.data s launch p).length = 32 := by
  unfold Card.data bytesAt
  split <;> simp

theorem getD_data (k : Card) (s : State) (launch : Nat) (p : Place) {n : Nat} (hn : n < 32) : (k.data s launch p).getD n 0 =
    if k.kind = .cpym then k.pattern.extractLsb' (8 * (n % 8)) 8 else placeByte s launch p n := by
  unfold Card.data
  split
  · have eight : (bytesOf 8 k.pattern.toNat).length = 8 := bytesOf_length ..
    have again : (bytesOf 8 k.pattern.toNat ++ bytesOf 8 k.pattern.toNat ++ bytesOf 8 k.pattern.toNat ++ bytesOf 8 k.pattern.toNat).getD n 0 =
        (bytesOf 8 k.pattern.toNat).getD (n % 8) 0 := by
      simp only [List.getD_eq_getElem?_getD, List.getElem?_append, List.length_append, eight]
      split_ifs <;> congr 2 <;> omega
    exact again.trans (getD_bytesOf_val _ (Nat.mod_lt _ (by decide)))
  · simp [bytesAt, hn, List.getD_eq_getElem?_getD]

/-- The bytes from a place on stand while no store covers one of them. -/
theorem bytesAt_congr {s t : State} {launch n : Nat} {p : Place} (same : ∀ i < n, placeByte t launch p i = placeByte s launch p i) :
    bytesAt t launch p n = bytesAt s launch p n := List.map_congr_left fun i hi => same i (List.mem_range.1 hi)

theorem data_congr {k : Card} {s t : State} {launch : Nat} {p : Place}
    (same : k.kind ≠ .cpym → ∀ i < 32, placeByte t launch p i = placeByte s launch p i) : k.data t launch p = k.data s launch p := by
  unfold Card.data
  split
  · rfl
  next kind => exact bytesAt_congr (same kind)

/-- A store leaves the bytes of a range of the same length that it does not meet. -/
theorem Put.placeByte_apart {s t : State} {launch n i : Nat} {p q : Place} {l : List Byte} (h : Put s t launch (q, l)) (length : l.length = n)
    (away : Apart p q n) (inside : i < n) : placeByte t launch p i = placeByte s launch p i := by
  refine h.apart (p.1, p.2 + i) fun ⟨at_, low, high⟩ => ?_
  dsimp only at at_ low high
  rcases away with g | g | g
  · exact g at_.symm
  · omega
  · omega

/-- A sector of a job that is no CPYD moved: it is stored at its destination. -/
theorem moveSector_stores {s u : State} {c : Ctx} {k : Card} {i : Nat} {l l' : List Byte} {g g' : Cells (List Byte)} {sp dp : Place}
    (kind : k.kind ≠ .cpyd) (h : moveSector c k (.ok s l, g) i = (.ok u l', g')) (source : k.kind ≠ .cpym → endPlace k.src (k.sector i).1 = some sp)
    (dest : endPlace k.dst (k.sector i).2 = some dp) : Put s u c.launch (dp, k.data s c.launch sp) := by
  have copies : k.kind ≠ .cpym → (match sectorAt s c k k.src (k.sector i).1 32 none with
      | .ok s1 l => (sectorAt s1 c k k.dst (k.sector i).2 32 (some l), g)
      | q => (q, g)) = ((.ok u l', g') : Moved) → Put s u c.launch (dp, k.data s c.launch sp) := fun notPattern moved => by
    split at moved
    next s1 new read =>
      obtain ⟨quiet, rfl⟩ := sectorAt_reads read (source notPattern)
      have stores := sectorAt_stores (congrArg Prod.fst moved) dest
      rw [Card.data, if_neg notPattern]
      exact .of_quiet quiet stores
    next q bad => exact absurd (congrArg Prod.fst moved) (bad _ _)
  unfold moveSector at h
  dsimp only at h
  split at h
  next pattern =>
    have stores := sectorAt_stores (congrArg Prod.fst h) dest
    rw [Card.data, if_pos pattern]
    exact stores
  next digest => exact absurd digest kind
  next plain => exact copies (by rw [plain]; decide) h
  next rows => exact copies (by rw [rows]; decide) h

/-- A job stopped at a sector moves no further. -/
theorem moveSectors_stopped (c : Ctx) (k : Card) : ∀ (l : List Nat) (r : Moved), (∀ s b, r.1 ≠ .ok s b) → l.foldl (moveSector c k) r = r
  | [], _, _ => rfl
  | i :: l, r, stopped => by
    have stays : moveSector c k r i = r := by
      unfold moveSector
      split
      next s b ok => exact absurd ok (stopped s b)
      next => rfl
    rw [List.foldl_cons, stays]
    exact moveSectors_stopped c k l r stopped

/-- A run of sectors that ends well begins with one that went well. -/
theorem moveSectors_cons {s t : State} {c : Ctx} {k : Card} {i : Nat} {l : List Nat} {b b' : List Byte} {g g' : Cells (List Byte)}
    (h : (i :: l).foldl (moveSector c k) (.ok s b, g) = (.ok t b', g')) :
    ∃ u d x, moveSector c k (.ok s b, g) i = (.ok u d, x) ∧ l.foldl (moveSector c k) (.ok u d, x) = (.ok t b', g') := by
  rw [List.foldl_cons] at h
  obtain ⟨⟨q, x⟩, one⟩ : ∃ r, moveSector c k (.ok s b, g) i = r := ⟨_, rfl⟩
  rw [one] at h
  cases q with
  | ok u d => exact ⟨u, d, x, one, h⟩
  | wait u =>
    rw [moveSectors_stopped c k l _ (by simp)] at h
    cases h
  | refuse cause va =>
    rw [moveSectors_stopped c k l _ (by simp)] at h
    cases h

/-- Sectors of a job that is no CPYD moved: each stands at its destination as its source stood before all of them, where no destination meets a
source. -/
theorem moveSectors_store {c : Ctx} {k : Card} {sp dp : Nat → Place} (kind : k.kind ≠ .cpyd) : ∀ (l : List Nat) {s t : State} {b b' : List Byte}
    {g g' : Cells (List Byte)}, l.foldl (moveSector c k) (.ok s b, g) = (.ok t b', g') →
    (∀ i ∈ l, (k.kind ≠ .cpym → endPlace k.src (k.sector i).1 = some (sp i)) ∧ endPlace k.dst (k.sector i).2 = some (dp i)) →
    (∀ i ∈ l, ∀ j ∈ l, k.kind ≠ .cpym → Apart (sp i) (dp j) 32) →
    Puts c.launch s t (l.map (fun i => (dp i, k.data s c.launch (sp i)))) ∧ Beside s t
  | [], s, t, b, b', g, g', h, _, _ => by
    cases h
    exact ⟨.nil s, (Quiet.refl s).beside⟩
  | i :: l, s, t, b, b', g, g', h, ends, apart => by
    obtain ⟨u, d, x, one, rest⟩ := moveSectors_cons h
    obtain ⟨source, dest⟩ := ends i (List.mem_cons_self ..)
    have put := moveSector_stores kind one source dest
    obtain ⟨puts, beside⟩ := moveSectors_store kind l rest (fun j hj => ends j (List.mem_cons_of_mem _ hj))
      (fun j hj m hm => apart j (List.mem_cons_of_mem _ hj) m (List.mem_cons_of_mem _ hm))
    have same : l.map (fun j => (dp j, k.data u c.launch (sp j))) = l.map (fun j => (dp j, k.data s c.launch (sp j))) :=
      List.map_congr_left fun j hj => by
        rw [data_congr fun plain n hn => put.placeByte_apart (length_data ..) (apart j (List.mem_cons_of_mem _ hj) i (List.mem_cons_self ..) plain) hn]
    exact ⟨.put put (same ▸ puts), put.beside.trans beside⟩

/-- A sector of a CPYD moved: it is read and kept. -/
theorem moveSector_reads {s u : State} {c : Ctx} {k : Card} {i : Nat} {l l' : List Byte} {g g' : Cells (List Byte)} {sp : Place}
    (kind : k.kind = .cpyd) (h : moveSector c k (.ok s l, g) i = (.ok u l', g')) (source : endPlace k.src (k.sector i).1 = some sp) :
    Quiet s u ∧ g' = cellSet [] g i (bytesAt s c.launch sp 32) := by
  unfold moveSector at h
  simp only [kind] at h
  split at h
  next s1 new read =>
    cases h
    obtain ⟨quiet, rfl⟩ := sectorAt_reads read source
    exact ⟨quiet, rfl⟩
  next q bad => exact absurd (congrArg Prod.fst h) (bad _ _)

theorem moveSectors_read {c : Ctx} {k : Card} {sp : Nat → Place} (kind : k.kind = .cpyd) : ∀ (l : List Nat) {s t : State} {b b' : List Byte}
    {g g' : Cells (List Byte)}, l.foldl (moveSector c k) (.ok s b, g) = (.ok t b', g') → (∀ i ∈ l, endPlace k.src (k.sector i).1 = some (sp i)) →
    Quiet s t ∧ ∀ i, cellGet [] g' i = if i ∈ l then bytesAt s c.launch (sp i) 32 else cellGet [] g i
  | [], s, t, b, b', g, g', h, _ => by
    cases h
    exact ⟨.refl s, fun _ => rfl⟩
  | i :: l, s, t, b, b', g, g', h, ends => by
    obtain ⟨u, d, x, one, rest⟩ := moveSectors_cons h
    obtain ⟨quiet, rfl⟩ := moveSector_reads kind one (ends i (List.mem_cons_self ..))
    obtain ⟨later, got⟩ := moveSectors_read kind l rest (fun j hj => ends j (List.mem_cons_of_mem _ hj))
    refine ⟨quiet.trans later, fun j => (got j).trans ?_⟩
    rw [bytesAt_congr fun n _ => quiet.placeByte c.launch (sp j) n, cellGet_cellSet]
    by_cases own : j = i
    · simp [own]
    · simp [own]

/-! ### A unit moved -/

theorem exec_copyEngineBurst {s : State} {c : Ctx} {k : Card} {core job b : Nat} {todo : List Nat} (card : s.card? core job = some (c, k))
    (may : MayMove s c k b todo) :
    exec (.copyEngineBurst core job b) s = .next ((moveUnit s c k b todo).passTurn k.phys (wholeBurst b todo)) := by
  show execCopyEngineBurst core job b s = _
  unfold execCopyEngineBurst
  simp [card, may.served, may.turn, may.left, may.held]

/-- The state after a unit whose accesses were all accepted. -/
def State.unitDone (s : State) (c : Ctx) (k : Card) (lines : List Nat) (whole : Bool) : State :=
  (((s.setCard c k).present c.launch k.dst.pad lines).tickFresh).passTurn k.phys whole

theorem moveUnit_ok {s s1 : State} {c : Ctx} {k : Card} {b : Nat} {todo : List Nat} {l : List Byte} {got : Cells (List Byte)}
    (moved : (if b = digestUnit then (writeDigest s c k, k.got) else (k.sectorsOf b).foldl (moveSector c k) (.ok s [], k.got) : Moved) =
      (.ok s1 l, got)) (whole : Bool) : ∃ absent lines, (moveUnit s c k b todo).passTurn k.phys whole =
        s1.unitDone c { k with state := .running, todo := todo, absent := absent, got := got } lines whole := by
  unfold moveUnit
  dsimp only
  rw [moved]
  exact ⟨_, _, rfl⟩

theorem hasCard_of_card? {s : State} {core job : Nat} {c : Ctx} {k : Card} (card : s.card? core job = some (c, k))
    (first : s.ctx? c.launch c.core = some c) : HasCard s core job c ∧ c.cards.find? (fun k => k.id == job) = some k ∧ c.core = core ∧ k.id = job := by
  unfold State.card? at card
  obtain ⟨d, found, rest⟩ := Option.bind_eq_some_iff.1 card
  obtain ⟨x, named, pair⟩ := Option.map_eq_some_iff.1 rest
  obtain ⟨rfl, rfl⟩ := Prod.mk.inj pair
  have place := List.find?_some found
  have id := List.find?_some named
  simp only [Bool.and_eq_true, beq_iff_eq] at place id
  exact ⟨⟨found, first⟩, named, place.1, id⟩

theorem card?_of_hasCard {s : State} {core job : Nat} {c : Ctx} {k : Card} (has : HasCard s core job c)
    (named : c.cards.find? (fun k => k.id == job) = some k) : s.card? core job = some (c, k) := by
  unfold State.card?
  rw [has.found, Option.bind_some, named]
  rfl

/-- Replaced holdings with the same bytes of the pool change no byte. -/
theorem still_setCtx {s : State} {d : Ctx} (pad : d.pad = (s.ctx d.launch d.core).pad) : Still s (s.setCtx d) := by
  refine ⟨fun launch q => ?_, fun _ => rfl, fun q k => ?_⟩
  · obtain ⟨k, m⟩ := q
    cases k with
    | none => rfl
    | some k =>
      show cellGet 0 ((s.setCtx d).ctx launch k).pad _ = cellGet 0 (s.ctx launch k).pad _
      rw [ctx_setCtx]
      split
      next same => rw [pad, same.1.1, same.1.2]
      next => rfl
  · rw [ctx?_setCtx]
    split
    · exact Option.isSome_map ..
    · rfl

theorem Still.trans {s t u : State} (h : Still s t) (g : Still t u) : Still s u :=
  ⟨fun launch q => (g.bytes launch q).trans (h.bytes launch q), fun m => (g.records m).trans (h.records m),
    fun q k => (g.pools q k).trans (h.pools q k)⟩

theorem still_setCard (s : State) (c : Ctx) (k : Card) : Still s (s.setCard c k) := by
  obtain ⟨key, place⟩ := ctx_key s c.launch c.core
  refine still_setCtx ?_
  dsimp only
  rw [key, place]

theorem still_present (s : State) (launch : Nat) (core : Option Nat) (lines : List Nat) : Still s (s.present launch core lines) := by
  cases core with
  | none => exact (Quiet.refl s).still
  | some k =>
    obtain ⟨key, place⟩ := ctx_key s launch k
    refine still_setCtx ?_
    dsimp only
    rw [key, place]

theorem still_unitDone (s : State) (c : Ctx) (k : Card) (lines : List Nat) (whole : Bool) : Still s (s.unitDone c k lines whole) := by
  obtain ⟨bytes, records, pools⟩ := (still_setCard s c k).trans (still_present (s.setCard c k) c.launch k.dst.pad lines)
  exact ⟨bytes, records, pools⟩

/-- A card replaced by one of its number stands on its core. -/
theorem hasCard_setCard {s : State} {core job : Nat} {c d : Ctx} {k k' : Card} (has : HasCard s core job d) (launch : d.launch = c.launch)
    (place : d.core = c.core) (named : d.cards.find? (fun k => k.id == job) = some k) (id : k'.id = job) :
    HasCard (s.setCard c k') core job { d with cards := updWhere (fun x => x.id == k'.id) (fun _ => k') d.cards } ∧
      (updWhere (fun x => x.id == k'.id) (fun _ => k') d.cards).find? (fun k => k.id == job) = some k' := by
  have is : s.ctx c.launch c.core = d := ctx_of_ctx? (by rw [← launch, ← place]; exact has.first)
  have again : (updWhere (fun x : Card => x.id == k'.id) (fun _ => k') d.cards).find? (fun k => k.id == job) = some k' := by
    rw [id]
    exact find?_updWhere_self (fun x : Card => x.id == job) k' (by simp [id]) named
  have put := hasCard_setCtx (d := { d with cards := updWhere (fun x => x.id == k'.id) (fun _ => k') d.cards }) has
    (fun _ _ => List.any_eq_true.2 ⟨k', List.mem_of_find?_eq_some again, by simp [id]⟩) (fun other => absurd ⟨rfl, rfl⟩ other)
  rw [if_pos ⟨rfl, rfl⟩] at put
  refine ⟨?_, again⟩
  unfold State.setCard
  rw [is]
  exact put

theorem hasCard_present {s : State} {core job : Nat} {c : Ctx} (has : HasCard s core job c) (launch : Nat) (pool : Option Nat) (lines : List Nat) :
    ∃ a, HasCard (s.present launch pool lines) core job { c with absent := a } := by
  cases pool with
  | none => exact ⟨c.absent, has.found, has.first⟩
  | some k =>
    obtain ⟨key, place⟩ := ctx_key s launch k
    let h := s.ctx launch k
    have same : c.launch = launch → c.core = k → h = c := fun hl hk => ctx_of_ctx? (by rw [← hl, ← hk]; exact has.first)
    have holds := List.find?_some has.found
    simp only [Bool.and_eq_true] at holds
    have put := hasCard_setCtx (d := { h with absent := h.absent.filter (fun l => !lines.contains l) }) has
      (fun hl hk => by rw [same (hl.trans key) (hk.trans place)]; exact holds.2)
      (fun _ x hx => by
        dsimp only at hx
        rw [show h.launch = launch from key, show h.core = k from place] at hx
        show h.cards = x.cards
        rw [show h = x from ctx_of_ctx? hx])
    split at put
    next mine =>
      have is := same (mine.1.trans key) (mine.2.trans place)
      rw [is] at put
      exact ⟨_, by unfold State.present; dsimp only; rw [show s.ctx launch k = c from is]; exact put⟩
    next => exact ⟨c.absent, put.found, put.first⟩

theorem card?_unitDone {s : State} {core job : Nat} {c d : Ctx} {k k' : Card} (has : HasCard s core job d) (launch : d.launch = c.launch)
    (place : d.core = c.core) (named : d.cards.find? (fun k => k.id == job) = some k) (id : k'.id = job) (lines : List Nat) (whole : Bool) :
    ∃ c', (s.unitDone c k' lines whole).card? core job = some (c', k') := by
  obtain ⟨set, again⟩ := hasCard_setCard has launch place named id
  obtain ⟨a, shown⟩ := hasCard_present set c.launch k'.dst.pad lines
  exact ⟨_, card?_of_hasCard (s := s.unitDone c k' lines whole) ⟨shown.found, shown.first⟩ again⟩

section
variable {s s1 : State} {c : Ctx} {k : Card} {core job b : Nat} {todo : List Nat} {l : List Byte} {got : Cells (List Byte)}

/-- A unit whose accesses were all accepted leaves its card with the rest, and the bytes that its sectors left. -/
theorem copyEngineBurst_ok (card : s.card? core job = some (c, k)) (first : s.ctx? c.launch c.core = some c) (may : MayMove s c k b todo)
    (moved : (if b = digestUnit then (writeDigest s c k, k.got) else (k.sectorsOf b).foldl (moveSector c k) (.ok s [], k.got) : Moved) =
      (.ok s1 l, got)) (beside : Beside s s1) :
    ∃ t c' k', exec (.copyEngineBurst core job b) s = .next t ∧ t.card? core job = some (c', k') ∧ k'.todo = todo ∧ k'.state = .running ∧
      k'.got = got ∧ Still s1 t := by
  obtain ⟨has, named, -, id⟩ := hasCard_of_card? card first
  obtain ⟨p, g, there⟩ := beside.cards core job c has
  obtain ⟨absent, lines, done⟩ := moveUnit_ok (todo := todo) moved (wholeBurst b todo)
  obtain ⟨c', stands⟩ := card?_unitDone (c := c) (k' := { k with state := .running, todo := todo, absent := absent, got := got }) there rfl rfl named id lines
    (wholeBurst b todo)
  exact ⟨_, c', _, (exec_copyEngineBurst card may).trans (congrArg _ done), stands, rfl, rfl, rfl, still_unitDone ..⟩

/-- Stores of `n` bytes each that do not meet, as the statements of moves have them. -/
theorem onlyAt_of_stored {s t : State} {launch n : Nat} {α : Type} {is : List α} {dp : α → Place} {data : α → List Byte}
    (h : Stored s t launch (is.map (fun i => (dp i, data i)))) (length : ∀ i ∈ is, (data i).length = n) : OnlyAt s t launch n (is.map dp) := by
  refine ⟨fun m away => h.mem m fun x hx none_ => ?_, fun q core m away => h.pad q core m fun mine x hx at_ => ?_⟩
  · obtain ⟨i, hi, rfl⟩ := List.mem_map.1 hx
    rw [length i hi]
    exact away _ (List.mem_map_of_mem hi) none_
  · obtain ⟨i, hi, rfl⟩ := List.mem_map.1 hx
    rw [length i hi]
    exact away mine _ (List.mem_map_of_mem hi) at_

theorem nodup_sectorsOf (k : Card) (b : Nat) : (k.sectorsOf b).Nodup := by
  unfold Card.sectorsOf
  split
  · simp
  · split
    · simp
    · exact (List.nodup_range.map fun _ _ h => by omega).filter _

/-- Steps after stores that change no byte. -/
theorem Puts.then_still {launch : Nat} {s t u : State} {l : List (Place × List Byte)} (h : Puts launch s t l) (g : Still t u) : Puts launch s u l := by
  have := h.append (.still g (.nil u))
  rwa [List.append_nil] at this

/-- A unit of a CPY, a CPYX or a CPYM moved (R268, R274). -/
theorem copyEngineBurst_stores {sp dp : Nat → Place} (card : s.card? core job = some (c, k)) (first : s.ctx? c.launch c.core = some c)
    (may : MayMove s c k b todo) (sectors : b ≠ digestUnit) (kind : k.kind ≠ .cpyd)
    (moved : (k.sectorsOf b).foldl (moveSector c k) (.ok s [], k.got) = (.ok s1 l, got))
    (ends : ∀ i ∈ k.sectorsOf b, (k.kind ≠ .cpym → endPlace k.src (k.sector i).1 = some (sp i)) ∧ endPlace k.dst (k.sector i).2 = some (dp i) ∧
      Reachable s c.launch (dp i))
    (apart : ∀ i ∈ k.sectorsOf b, ∀ j ∈ k.sectorsOf b, (i ≠ j → Apart (dp i) (dp j) 32) ∧ (k.kind ≠ .cpym → Apart (sp i) (dp j) 32)) :
    ∃ t c' k', exec (.copyEngineBurst core job b) s = .next t ∧ t.card? core job = some (c', k') ∧ k'.todo = todo ∧ k'.state = .running ∧
      (∀ i ∈ k.sectorsOf b, ∀ n < 32, placeByte t c.launch (dp i) n = storedByte s c.launch (dp i) n
        (if k.kind = .cpym then k.pattern.extractLsb' (8 * (n % 8)) 8 else placeByte s c.launch (sp i) n)) ∧
      OnlyAt s t c.launch 32 ((k.sectorsOf b).map dp) := by
  obtain ⟨puts, beside⟩ := moveSectors_store (sp := sp) (dp := dp) kind _ moved (fun i hi => ⟨(ends i hi).1, (ends i hi).2.1⟩)
    (fun i hi j hj => (apart i hi j hj).2)
  obtain ⟨t, c', k', runs, stands, rest, running, -, still⟩ := copyEngineBurst_ok card first may ((if_neg sectors).trans moved) beside
  have stored := (puts.then_still still).stored
    (fun x hx => by obtain ⟨i, hi, rfl⟩ := List.mem_map.1 hx; exact (ends i hi).2.2)
    (List.pairwise_map.2 ((nodup_sectorsOf k b).imp_of_mem fun {i j} hi hj ne => by
      have sides := (apart i hi j hj).1 ne
      simpa only [StoresApart, Apart, length_data] using sides))
  refine ⟨t, c', k', runs, stands, rest, running, fun i hi n hn => ?_, onlyAt_of_stored stored fun i _ => length_data ..⟩
  rw [← getD_data k s c.launch (sp i) hn]
  exact stored.written _ (List.mem_map_of_mem hi) n (by rw [length_data]; exact hn)

/-- A unit of a CPYD moved: what it read is kept (R274). -/
theorem copyEngineBurst_reads {sp : Nat → Place} (card : s.card? core job = some (c, k)) (first : s.ctx? c.launch c.core = some c)
    (may : MayMove s c k b todo) (sectors : b ≠ digestUnit) (kind : k.kind = .cpyd)
    (moved : (k.sectorsOf b).foldl (moveSector c k) (.ok s [], k.got) = (.ok s1 l, got))
    (ends : ∀ i ∈ k.sectorsOf b, endPlace k.src (k.sector i).1 = some (sp i)) :
    ∃ t c' k', exec (.copyEngineBurst core job b) s = .next t ∧ t.card? core job = some (c', k') ∧ k'.todo = todo ∧
      (∀ i ∈ k.sectorsOf b, ∀ n < 32, (cellGet [] k'.got i).getD n 0 = placeByte s c.launch (sp i) n) ∧ OnlyAt s t c.launch 32 [] := by
  obtain ⟨quiet, kept⟩ := moveSectors_read kind _ moved ends
  obtain ⟨t, c', k', runs, stands, rest, -, has, still⟩ := copyEngineBurst_ok card first may ((if_neg sectors).trans moved) quiet.beside
  have same := (quiet.still.trans still).bytes
  refine ⟨t, c', k', runs, stands, rest, fun i hi n hn => ?_, fun m _ => same 0 (none, m), fun q k m _ => same q (some k, m)⟩
  rw [has, kept, if_pos hi]
  simp [bytesAt, hn, List.getD_eq_getElem?_getD]

end

/-- The digest of what a CPYD has read, as it is stored (R91, R274). -/
def Card.digest (k : Card) : List Byte :=
  bytes8 (oxBytes (ox128 (nats ((List.range (k.rowBytes / 32)).flatMap (fun i => cellGet [] k.got i))) 0))

theorem length_digest (k : Card) : k.digest.length = 16 := by
  simp [Card.digest, bytes8, oxBytes, leBytes]

section
variable {s s1 : State} {c : Ctx} {k : Card} {core job : Nat} {l : List Byte}

/-- The digest of a CPYD stored (R91, R274). -/
theorem copyEngineBurst_digest {dp : Place} (card : s.card? core job = some (c, k)) (first : s.ctx? c.launch c.core = some c)
    (may : MayMove s c k digestUnit []) (moved : writeDigest s c k = .ok s1 l) (dest : endPlace k.dst 0 = some dp) (reach : Reachable s c.launch dp) :
    ∃ t c' k', exec (.copyEngineBurst core job digestUnit) s = .next t ∧ t.card? core job = some (c', k') ∧ k'.todo = [] ∧
      (∀ n < 16, placeByte t c.launch dp n = storedByte s c.launch dp n (k.digest.getD n 0)) ∧ OnlyAt s t c.launch 16 [dp] := by
  have put : Put s s1 c.launch (dp, k.digest) := sectorAt_stores moved dest
  obtain ⟨t, c', k', runs, stands, rest, -, -, still⟩ :=
    copyEngineBurst_ok card first may ((if_pos rfl).trans (by rw [moved])) put.beside
  have stored := ((Puts.put put (.nil s1)).then_still still).stored (fun x hx => by rw [List.mem_singleton.1 hx]; exact reach) (List.pairwise_singleton ..)
  refine ⟨t, c', k', runs, stands, rest, fun n hn => stored.written _ (List.mem_singleton_self _) n (by rw [length_digest]; exact hn), ?_⟩
  exact onlyAt_of_stored (is := [()]) (dp := fun _ => dp) (data := fun _ => k.digest) stored fun _ _ => length_digest k

/-! ### The end of a card -/

/-- The cards of a core without one that is over, and without edges to it (R267). -/
def cardsWithout (job : Nat) (l : List Card) : List Card :=
  (l.filter (fun x => x.id != job)).map (fun x => { x with edges := x.edges.filter (fun e => e != job) })

theorem cardsWithout_gone {job : Nat} {l : List Card} {x : Card} (h : x ∈ cardsWithout job l) : x.id ≠ job ∧ job ∉ x.edges := by
  obtain ⟨y, hy, rfl⟩ := List.mem_map.1 h
  have other := (List.mem_filter.1 hy).2
  exact ⟨by simpa using other, fun edge => by simpa using (List.mem_filter.1 edge).2⟩

/-- No card of a word is left. -/
theorem cardsWithout_word {job slot word : Nat} {l : List Card} (none_ : ∀ x ∈ l, x.id ≠ job → ¬(x.slot = slot ∧ x.word = word)) :
    (cardsWithout job l).any (fun x => x.slot == slot && x.word == word) = false := by
  refine List.any_eq_false.2 fun x hx => ?_
  obtain ⟨y, hy, rfl⟩ := List.mem_map.1 hx
  obtain ⟨listed, other⟩ := List.mem_filter.1 hy
  simpa using none_ y listed (by simpa using other)

/-- The state without a card that is over, its lines present (R232). -/
def State.cardOver (s : State) (c : Ctx) (k : Card) (job : Nat) : State :=
  (s.setCtx { c with cards := cardsWithout job c.cards }).present c.launch k.dst.pad k.absent

theorem present_only (s : State) (launch : Nat) (pool : Option Nat) (lines : List Nat) :
    ∃ l, s.present launch pool lines = { s with cores := { s.cores with ctxs := l } } := by
  cases pool with
  | none => exact ⟨s.cores.ctxs, rfl⟩
  | some k => exact ⟨_, rfl⟩

/-- Lines set present leave cards, and every other holding but the presence bits. -/
theorem cards_present (s : State) (launch : Nat) (pool : Option Nat) (lines : List Nat) (q k : Nat) :
    ((s.present launch pool lines).ctx q k).cards = (s.ctx q k).cards := by
  cases pool with
  | none => rfl
  | some core =>
    obtain ⟨key, place⟩ := ctx_key s launch core
    show ((s.setCtx _).ctx q k).cards = _
    rw [ctx_setCtx]
    split
    next same =>
      dsimp only at same ⊢
      rw [same.1.1, same.1.2, key, place]
    next => rfl

theorem absent_present {s : State} {launch core : Nat} (there : (s.ctx? launch core).isSome = true) {lines : List Nat} {x : Nat} (mem : x ∈ lines) :
    x ∉ ((s.present launch (some core) lines).ctx launch core).absent := by
  obtain ⟨key, place⟩ := ctx_key s launch core
  show x ∉ ((s.setCtx _).ctx launch core).absent
  rw [ctx_setCtx, if_pos ⟨⟨key.symm, place.symm⟩, there⟩]
  intro kept
  simpa [mem] using (List.mem_filter.1 kept).2

/-- A card whose units are done is over (R232, R267, R270). -/
theorem exec_copyJobComplete {w : Wave} (card : s.card? core job = some (c, k)) (running : k.state = .running) (done : k.todo = [])
    (here : s.wave? core k.slot = some w) :
    exec (.copyJobComplete core job) s = .next (((s.cardOver c k job).setWave { w with
      cpWords := dropDone (fun word => (cardsWithout job c.cards).any (fun x => x.slot == k.slot && x.word == word)) w.cpWords }).endWave
        core k.slot) := by
  have found : (s.cardOver c k job).wave? core k.slot = some w := by
    obtain ⟨_, only⟩ := present_only (s.setCtx { c with cards := cardsWithout job c.cards }) c.launch k.dst.pad k.absent
    unfold State.cardOver
    rw [only]
    exact here
  show execCopyJobComplete core job s = _
  unfold execCopyJobComplete
  rw [card]
  dsimp only
  rw [if_neg (by simp [running, done])]
  unfold State.cardOver at found
  unfold cardsWithout at found
  rw [found]
  rfl

theorem copyJobComplete_over {w : Wave} (card : s.card? core job = some (c, k)) (first : s.ctx? c.launch c.core = some c)
    (running : k.state = .running) (done : k.todo = []) (here : s.wave? core k.slot = some w) (live : w.allExited = false)
    (only : w.cpWords = [k.word]) (none_ : ∀ x ∈ c.cards, x.id ≠ job → ¬(x.slot = k.slot ∧ x.word = k.word)) :
    ∃ t v, exec (.copyJobComplete core job) s = .next t ∧ (∀ x ∈ (t.ctx c.launch c.core).cards, x.id ≠ job ∧ job ∉ x.edges) ∧
      (∀ pc, k.dst.pad = some pc → (s.ctx? c.launch pc).isSome = true → ∀ l ∈ k.absent, l ∉ (t.ctx c.launch pc).absent) ∧
      t.wave? core k.slot = some v ∧ v.cpWords = [] ∧ v.vregs = w.vregs ∧ t.mem = s.mem ∧ t.tasks = s.tasks := by
  let v : Wave := { w with
    cpWords := dropDone (fun word => (cardsWithout job c.cards).any (fun x => x.slot == k.slot && x.word == word)) w.cpWords }
  obtain ⟨l, shown⟩ := present_only (s.setCtx { c with cards := cardsWithout job c.cards }) c.launch k.dst.pad k.absent
  have gone : s.cardOver c k job = { s with cores := { s.cores with ctxs := l } } := shown
  have found : (s.cardOver c k job).wave? core k.slot = some w := by rw [gone]; exact here
  obtain ⟨rfl, slot⟩ := State.wave?_core here
  have own : ((s.cardOver c k job).setWave v).wave? w.core k.slot = some v := State.wave?_setWave_self found rfl slot
  have runs := exec_copyJobComplete card running done here
  rw [endWave_live own live] at runs
  refine ⟨_, v, runs, fun x hx => cardsWithout_gone (job := job) (l := c.cards) ?_, fun pc pad there x hx => ?_, own, ?_, rfl, ?_, ?_⟩
  · have same := cards_present (s.setCtx { c with cards := cardsWithout job c.cards }) c.launch k.dst.pad k.absent c.launch c.core
    rw [ctx_setCtx, if_pos ⟨⟨rfl, rfl⟩, by rw [first]; rfl⟩] at same
    have hx : x ∈ ((s.cardOver c k job).ctx c.launch c.core).cards := hx
    exact (congrArg (x ∈ ·) same).mp hx
  · show x ∉ ((s.cardOver c k job).ctx c.launch pc).absent
    unfold State.cardOver
    rw [pad]
    refine absent_present ?_ hx
    rw [ctx?_setCtx]
    split
    · exact (Option.isSome_map ..).trans there
    · exact there
  · show dropDone _ w.cpWords = []
    rw [only]
    simp [dropDone, cardsWithout_word none_]
  · rw [gone]; rfl
  · rw [gone]; rfl

end

/-! ### A card queued -/

/-- The order number of the last card that entered a queue. -/
def State.lastEntered (s : State) : Nat := (s.cores.ctxs.flatMap (fun d => d.cards.map Card.entered)).foldl max 0

theorem exec_copyJobQueued {s : State} {c : Ctx} {k : Card} {core job : Nat} (card : s.card? core job = some (c, k)) (waiting : k.state = .waiting)
    (free : k.edges = []) : exec (.copyJobQueued core job) s = .next (s.setCard c { k with state := .queued, entered := s.lastEntered + 1 }) := by
  show execCopyJobQueued core job s = _
  unfold execCopyJobQueued
  simp [card, waiting, free, State.lastEntered]

theorem entered_le {s : State} {d : Ctx} {x : Card} (hd : d ∈ s.cores.ctxs) (hx : x ∈ d.cards) : x.entered < s.lastEntered + 1 :=
  Nat.lt_succ_of_le (le_foldl_max _ 0 (.inr (List.mem_flatMap.2 ⟨d, hd, List.mem_map_of_mem hx⟩)))

/-- Settles O46, event by event: the sectors of a unit are stores at their places, the rest of a card's life touches no byte. -/
theorem copyEvents : Obligations.CopyEvents := by
  unfold Obligations.CopyEvents
  intro core job s c k card first
  refine ⟨fun waiting free => ⟨_, _, exec_copyJobQueued card waiting free, rfl, fun d hd x hx => entered_le hd hx⟩, fun b todo s1 l got sp dp may sectors kind moved ends apart =>
      copyEngineBurst_stores card first may sectors kind moved ends apart,
    fun b todo s1 l got sp may sectors kind moved ends => copyEngineBurst_reads card first may sectors kind moved ends,
    fun s1 l dp may moved dest reach => copyEngineBurst_digest card first may moved dest reach,
    fun w running done here live only none_ => copyJobComplete_over card first running done here live only none_⟩

end Sys2Proof.Machine

/-! Tile operations (spec/17 R282, R283, R287, R288, R291, R292): what the end of one leaves alone, and what an ACCZ, an OBLD and an MMA make of
accumulators and of the operand buffer. -/
namespace Sys2Proof.Machine
open Sys2Proof.Safety

/-! ### What launches hold on cores while a wave ends -/

/-- What tile operations read and write of a launch's holdings on a core, and which of them are to be performed. -/
def Ctx.held (c : Ctx) : Cells Byte × Cells HandleEntry × List Reservation × List Nat := (c.pad, c.handles, c.resv, c.tiles.map TileOp.id)

/-- Memory stands, and so does what tile operations read and write of every launch's holdings. -/
structure HeldKept (s t : State) : Prop where
  mem : t.mem = s.mem
  held : ∀ q k, (t.ctx q k).held = (s.ctx q k).held

theorem HeldKept.refl (s : State) : HeldKept s s := ⟨rfl, fun _ _ => rfl⟩

theorem HeldKept.trans {s t u : State} (h : HeldKept s t) (g : HeldKept t u) : HeldKept s u :=
  ⟨g.mem.trans h.mem, fun q k => (g.held q k).trans (h.held q k)⟩

theorem HeldKept.of_ctxs {s t : State} (mem : t.mem = s.mem) (ctxs : t.cores.ctxs = s.cores.ctxs) : HeldKept s t :=
  ⟨mem, fun q k => by unfold State.ctx State.ctx?; rw [ctxs]⟩

section
variable {s t : State} (h : HeldKept s t) (q k : Nat)
include h

theorem HeldKept.pad : (t.ctx q k).pad = (s.ctx q k).pad := congrArg Prod.fst (h.held q k)

theorem HeldKept.handles : (t.ctx q k).handles = (s.ctx q k).handles := congrArg (fun x => x.2.1) (h.held q k)

theorem HeldKept.resv : (t.ctx q k).resv = (s.ctx q k).resv := congrArg (fun x => x.2.2.1) (h.held q k)

theorem HeldKept.tiles : (t.ctx q k).tiles.map TileOp.id = (s.ctx q k).tiles.map TileOp.id := congrArg (fun x => x.2.2.2) (h.held q k)

theorem HeldKept.alloc? (g : Nat) : (t.ctx q k).alloc? g = (s.ctx q k).alloc? g := by
  unfold Ctx.alloc?
  rw [h.handles]

theorem HeldKept.resv? (r : Nat) : (t.ctx q k).resv? r = (s.ctx q k).resv? r := by
  unfold Ctx.resv?
  rw [h.resv]

theorem HeldKept.padByte (m : Nat) : padByte t q k m = padByte s q k m := by
  unfold Safety.padByte
  rw [h.pad]

end

theorem heldKept_setCtx {s : State} {d : Ctx} (same : d.held = (s.ctx d.launch d.core).held) : HeldKept s (s.setCtx d) := by
  refine ⟨rfl, fun q k => ?_⟩
  rw [ctx_setCtx]
  split
  next mine => rw [same, mine.1.1, mine.1.2]
  next => rfl

theorem heldKept_dropWait (s : State) (w : Wave) : HeldKept s (s.dropWait w) := by
  obtain ⟨key, place⟩ := ctx_key s w.launch w.core
  unfold State.dropWait
  dsimp only
  split
  · refine heldKept_setCtx ?_
    dsimp only
    rw [key, place]
    rfl
  · exact .refl s

theorem heldKept_moveOut (s : State) (w : Wave) (n : Nat) : HeldKept s (s.moveOut w n) := by
  obtain ⟨key, place⟩ := ctx_key s w.launch w.core
  let go := fun (k : Nat) => if k = w.slot then n else k
  have moved : HeldKept s (s.setCtx { s.ctx w.launch w.core with
      cards := (s.ctx w.launch w.core).cards.map (fun k => { k with slot := go k.slot }),
      tiles := (s.ctx w.launch w.core).tiles.map (fun t => { t with slot := go t.slot }) }) := by
    refine heldKept_setCtx ?_
    dsimp only
    rw [key, place]
    simp [Ctx.held, Function.comp_def]
  exact moved.trans (.of_ctxs rfl rfl)

theorem heldKept_settleGroup (s : State) (u g : Nat) : HeldKept s (s.settleGroup u g) := by
  unfold State.settleGroup
  dsimp only
  split
  · exact .of_ctxs rfl rfl
  · split
    · exact .of_ctxs rfl rfl
    · exact .refl s

theorem heldKept_endMember (s : State) (w : Wave) (r : GroupRec) : HeldKept s (s.endMember w r) := by
  unfold State.endMember
  dsimp only
  refine HeldKept.trans (HeldKept.of_ctxs ?_ ?_) (heldKept_settleGroup (s.setLaunch _) _ _) <;> rfl

theorem heldKept_leaveWave (s : State) (w : Wave) : HeldKept s (s.leaveWave w) := by
  have members : ∀ (l : List GroupRec) (s : State), HeldKept s (l.foldl (fun t r => t.endMember w r) s) := by
    intro l
    induction l with
    | nil => exact .refl
    | cons r l ih =>
      intro s
      exact (heldKept_endMember s w r).trans (ih (s.endMember w r))
  exact (members w.groups s).trans (.of_ctxs rfl rfl)

theorem heldKept_endLaunch (s : State) (u : Nat) (e : EndInfo) : HeldKept s (s.endLaunch u e) := by
  unfold State.endLaunch
  dsimp only
  split
  · exact .refl s
  · exact .of_ctxs rfl rfl

/-- The end of a wave touches no memory, no pool, no accumulator and no reservation (R134). -/
theorem heldKept_endWave (s : State) (core slot : Nat) : HeldKept s (s.endWave core slot) := by
  unfold State.endWave
  split
  next => exact .refl s
  next w _ =>
    extract_lets s1 s2 l s3
    have one : HeldKept s s1 := (heldKept_dropWait s w).trans (by
      obtain ⟨q, hq⟩ := dropLatch_eq (s.dropWait w) core slot (fun _ => true)
      show HeldKept _ ((s.dropWait w).dropLatch core slot (fun _ => true))
      rw [hq]
      exact .of_ctxs rfl rfl)
    have two : HeldKept s s2 := by
      unfold s2
      split
      · exact one.trans (heldKept_leaveWave s1 w)
      · exact one.trans (heldKept_moveOut ..)
    have three : HeldKept s s3 := two.trans (.of_ctxs rfl rfl)
    split
    · exact .refl s
    · split
      · split
        · exact three.trans (heldKept_endLaunch ..)
        · exact three
      · split
        · exact heldKept_leaveWave s w
        · exact .refl s

/-! ### The end of a tile operation (R282, R283) -/

theorem exec_tileOpComplete {s : State} {c : Ctx} {u : TileOp} {core op : Nat} (found : s.tile? core op = some (c, u)) (free : s.tileFree c u = true)
    (good : s.tileBad c u = none) (ends : (s.doTile c u).out = .over) :
    exec (.tileOpComplete core op) s = .next ((s.doTile c u).s.endTile c u (s.doTile c u).fl) := by
  show execTileOpComplete core op s = _
  unfold execTileOpComplete
  rw [found]
  dsimp only
  rw [if_neg (by simp [free, good]), ends]

theorem hwSticky_fstat (w : Wave) (now : Nat) (f : Flags) : (w.hwSticky now f 0).fstat = w.fstat ||| f := by
  unfold Wave.hwSticky
  split
  next none_ => simp [none_.1]
  next => rfl

theorem hwSticky_other (w : Wave) (now : Nat) (f : Flags) : ∃ a b d e g, w.hwSticky now f 0 =
    { w with fstat := a, mstat := b, hwAt := d, hwF := e, hwM := g } := by
  unfold Wave.hwSticky
  split
  · exact ⟨w.fstat, w.mstat, w.hwAt, w.hwF, w.hwM, rfl⟩
  · exact ⟨_, _, _, _, _, rfl⟩

/-- The state without a tile operation, before the wave learns of it. -/
def State.tileGone (s : State) (c : Ctx) (u : TileOp) : State :=
  s.setCtx { s.ctx c.launch c.core with tiles := (s.ctx c.launch c.core).tiles.filter (fun x => x.id != u.id) }

/-- The wave of a tile operation that is over, its flags noted. -/
def Wave.tileEnded (w : Wave) (left : List TileOp) (u : TileOp) (fl : Flags) (now : Nat) : Wave :=
  let words := dropDone (fun word => left.any (fun x => x.slot == u.slot && x.word == word)) w.tlWords
  let flags := w.tlFlags ++ [(u.word, fl)]
  { w with tlWords := words, tlFlags := flags.filter (fun (p : Nat × Flags) => words.contains p.1) }.hwSticky now
    (orFlags ((flags.filter (fun (p : Nat × Flags) => !words.contains p.1)).map Prod.snd)) 0

theorem endTile_of_wave {s : State} {c : Ctx} {u : TileOp} {fl : Flags} {w : Wave} (here : s.wave? c.core u.slot = some w) :
    s.endTile c u fl = ((s.tileGone c u).setWave
      (w.tileEnded ((s.ctx c.launch c.core).tiles.filter (fun x => x.id != u.id)) u fl s.ctl.cycle)).endWave c.core u.slot := by
  have found : (s.tileGone c u).wave? c.core u.slot = some w := here
  unfold State.endTile
  dsimp only
  unfold State.tileGone at found
  rw [found]
  rfl

theorem endTile_of_none {s : State} {c : Ctx} {u : TileOp} {fl : Flags} (nobody : s.wave? c.core u.slot = none) :
    s.endTile c u fl = s.tileGone c u := by
  have found : (s.tileGone c u).wave? c.core u.slot = none := nobody
  unfold State.endTile
  dsimp only
  unfold State.tileGone at found
  rw [found]
  rfl

/-- After its end a tile operation is gone; all else that launches hold and memory stand as they stood without it. -/
theorem heldKept_endTile (s : State) (c : Ctx) (u : TileOp) (fl : Flags) : HeldKept (s.tileGone c u) (s.endTile c u fl) := by
  cases here : s.wave? c.core u.slot with
  | none => rw [endTile_of_none here]; exact .refl _
  | some w =>
    rw [endTile_of_wave here]
    refine HeldKept.trans (HeldKept.of_ctxs ?_ ?_) (heldKept_endWave ((s.tileGone c u).setWave _) _ _) <;> rfl

/-- A tile operation taken out leaves pools, accumulators and reservations. -/
theorem ctx_tileGone (s : State) (c : Ctx) (u : TileOp) (q k : Nat) : ∃ l, (s.tileGone c u).ctx q k = { s.ctx q k with tiles := l } := by
  obtain ⟨key, place⟩ := ctx_key s c.launch c.core
  unfold State.tileGone
  rw [ctx_setCtx]
  split
  next mine =>
    dsimp only at mine
    rw [mine.1.1, mine.1.2, key, place]
    exact ⟨_, rfl⟩
  next => exact ⟨_, rfl⟩

/-- What a state holds after the end of a tile operation, in terms of what it held before. -/
structure Ended (s t : State) : Prop where
  mem : t.mem = s.mem
  alloc? : ∀ q k h, (t.ctx q k).alloc? h = (s.ctx q k).alloc? h
  handles : ∀ q k, (t.ctx q k).handles = (s.ctx q k).handles
  resv : ∀ q k, (t.ctx q k).resv = (s.ctx q k).resv
  padByte : ∀ q k m, padByte t q k m = padByte s q k m

theorem ended_endTile (s : State) (c : Ctx) (u : TileOp) (fl : Flags) : Ended s (s.endTile c u fl) := by
  have kept := heldKept_endTile s c u fl
  have gone := fun q k => ctx_tileGone s c u q k
  refine ⟨kept.mem, fun q k h => (kept.alloc? q k h).trans ?_, fun q k => (kept.handles q k).trans ?_, fun q k => (kept.resv q k).trans ?_,
    fun q k m => (kept.padByte q k m).trans ?_⟩
  all_goals obtain ⟨l, same⟩ := gone q k
  · rw [same]; rfl
  · rw [same]
  · rw [same]
  · unfold Safety.padByte; rw [same]

/-- The end of a tile operation, performed in a state with the same waves and the same tile operations (R282, R283). -/
theorem tileOver_endTile {s r : State} {c : Ctx} {u : TileOp} (fl : Flags) (waves : r.cores.waves = s.cores.waves)
    (there : (r.ctx? c.launch c.core).isSome = true) (tiles : (r.ctx c.launch c.core).tiles = c.tiles) :
    TileOver s c u fl (r.endTile c u fl) := by
  obtain ⟨key, place⟩ := ctx_key r c.launch c.core
  refine ⟨fun x hx => ?_, fun w here live words noFlags others => ?_⟩
  · have ids := (heldKept_endTile r c u fl).tiles c.launch c.core
    have left : ((r.tileGone c u).ctx c.launch c.core).tiles = (r.ctx c.launch c.core).tiles.filter (fun x => x.id != u.id) := by
      unfold State.tileGone
      rw [ctx_setCtx, if_pos ⟨⟨key.symm, place.symm⟩, there⟩]
    have listed : x.id ∈ ((r.ctx c.launch c.core).tiles.filter (fun x => x.id != u.id)).map TileOp.id := by
      rw [← left, ← ids]
      exact List.mem_map_of_mem hx
    obtain ⟨y, hy, same⟩ := List.mem_map.1 listed
    rw [← same]
    simpa using (List.mem_filter.1 hy).2
  · have here' : r.wave? c.core u.slot = some w := by unfold State.wave? at here ⊢; rw [waves]; exact here
    have none_ : (c.tiles.filter (fun x => x.id != u.id)).any (fun x => x.slot == u.slot && x.word == u.word) = false := by
      refine List.any_eq_false.2 fun x hx => ?_
      obtain ⟨listed, other⟩ := List.mem_filter.1 hx
      simpa using others x listed (by simpa using other)
    obtain ⟨core, slot⟩ := State.wave?_core here
    let left := c.tiles.filter (fun x => x.id != u.id)
    have ended : ∃ f a, w.tileEnded left u fl r.ctl.cycle = Wave.hwSticky { w with tlWords := [], tlFlags := f } r.ctl.cycle a 0 ∧ a = fl := by
      unfold Wave.tileEnded
      rw [words, noFlags]
      simp only [dropDone, show left.any (fun x => x.slot == u.slot && x.word == u.word) = false from none_]
      exact ⟨_, _, rfl, by simp [orFlags]⟩
    obtain ⟨f, _, ended, is⟩ := ended
    rw [is] at ended
    obtain ⟨_, _, _, _, _, other⟩ := hwSticky_other { w with tlWords := [], tlFlags := f } r.ctl.cycle fl
    have own : ((r.tileGone c u).setWave (w.tileEnded left u fl r.ctl.cycle)).wave? c.core u.slot = some (w.tileEnded left u fl r.ctl.cycle) :=
      State.wave?_setWave_self (w := w) here' (by rw [ended, other]; exact core) (by rw [ended, other]; exact slot)
    have stands : (w.tileEnded left u fl r.ctl.cycle).allExited = false := by rw [ended, other]; exact live
    refine ⟨w.tileEnded left u fl r.ctl.cycle, ?_, ?_, ?_, ?_⟩
    · rw [endTile_of_wave here', tiles, endWave_live own stands]
      exact own
    · rw [ended, other]
    · rw [ended, hwSticky_fstat]
    · rw [ended, other]

end Sys2Proof.Machine

/-! What an ACCZ, an OBLD, an MMA and an MMAS whose metadata fails leave (spec/17 R287, R288, R291, R292). -/
namespace Sys2Proof.Machine
open Sys2Proof.Safety

/-! ### Elements written -/

section
variable {α : Type} {row col : α → Nat} {val : α → BitVec 32}

/-- An element that some of the writes reach, each with the same value, holds that value; any other element stands. -/
theorem elem_foldl_setElem {i j : Nat} : ∀ (l : List α) (a : Alloc), j < a.pitch → (∀ x ∈ l, col x < a.pitch) →
    (∀ v, (∀ x ∈ l, row x = i → col x = j → val x = v) → (∃ x ∈ l, row x = i ∧ col x = j) →
      (l.foldl (fun a x => a.setElem (row x) (col x) (val x)) a).elem i j = v) ∧
    ((∀ x ∈ l, ¬(row x = i ∧ col x = j)) → (l.foldl (fun a x => a.setElem (row x) (col x) (val x)) a).elem i j = a.elem i j)
  | [], a, _, _ => ⟨fun _ _ none_ => by simp at none_, fun _ => rfl⟩
  | x :: l, a, hj, fits => by
    obtain ⟨reached, missed⟩ := elem_foldl_setElem (i := i) (j := j) l (a.setElem (row x) (col x) (val x)) hj
      (fun y hy => fits y (List.mem_cons_of_mem _ hy))
    have one := elem_setElem (a := a) (r := row x) (i := i) (val x) (fits x (List.mem_cons_self ..)) hj
    refine ⟨fun v agree some_ => ?_, fun away => ?_⟩
    · by_cases later : ∃ y ∈ l, row y = i ∧ col y = j
      · exact reached v (fun y hy => agree y (List.mem_cons_of_mem _ hy)) later
      · obtain ⟨y, hy, at_⟩ := some_
        rcases List.mem_cons.1 hy with rfl | hy
        · refine (missed fun z hz at' => later ⟨z, hz, at'⟩).trans (one.trans ?_)
          rw [if_pos ⟨at_.1.symm, at_.2.symm⟩, agree y (List.mem_cons_self ..) at_.1 at_.2]
        · exact absurd ⟨y, hy, at_⟩ later
    · refine (missed fun y hy => away y (List.mem_cons_of_mem _ hy)).trans (one.trans (if_neg fun at_ => ?_))
      exact away x (List.mem_cons_self ..) ⟨at_.1.symm, at_.2.symm⟩

end

/-- The rows that an ACCZ names are zero, and no others change (R287). -/
theorem elem_zeroRows {al : Alloc} {r n i j : Nat} (hj : j < al.pitch) :
    ((List.range (n * al.pitch)).foldl (fun a x => a.setElem (r + x / al.pitch) (x % al.pitch) 0) al).elem i j =
      if r ≤ i ∧ i < r + n then 0 else al.elem i j := by
  have width : 0 < al.pitch := Nat.zero_lt_of_lt hj
  obtain ⟨reached, missed⟩ := elem_foldl_setElem (row := fun x => r + x / al.pitch) (col := fun x => x % al.pitch) (val := fun _ => 0) (i := i)
    (List.range (n * al.pitch)) al hj (fun x _ => Nat.mod_lt x width)
  split
  next within =>
    refine reached 0 (fun _ _ _ _ => rfl) ⟨(i - r) * al.pitch + j, List.mem_range.2 ?_, ?_, ?_⟩
    · calc (i - r) * al.pitch + j < (i - r) * al.pitch + al.pitch := by omega
        _ = (i - r + 1) * al.pitch := by ring
        _ ≤ n * al.pitch := Nat.mul_le_mul_right _ (by omega)
    · rw [Nat.mul_comm, Nat.mul_add_div width, Nat.div_eq_of_lt hj]
      omega
    · rw [Nat.mul_comm, Nat.mul_add_mod, Nat.mod_eq_of_lt hj]
  next outside =>
    refine missed fun x hx at_ => outside ?_
    obtain ⟨hr, -⟩ : r + x / al.pitch = i ∧ x % al.pitch = j := at_
    have low := Nat.zero_le (x / al.pitch)
    have := Nat.div_lt_of_lt_mul (show x < al.pitch * n by rw [Nat.mul_comm]; exact List.mem_range.1 hx)
    omega

/-! ### An accumulator replaced -/

section
variable {s : State} {c : Ctx} {u : TileOp}

/-- The end of an operation that has replaced an allocation of its core. -/
theorem setAlloc_over {h : Nat} {al : Alloc} (first : s.ctx? c.launch c.core = some c) (named : c.alloc? h = some al) (b : Alloc) (fl : Flags) :
    (((s.setCtx (c.setAlloc h b)).endTile c u fl).ctx c.launch c.core).alloc? h = some b ∧
      TileOver s c u fl ((s.setCtx (c.setAlloc h b)).endTile c u fl) ∧ ((s.setCtx (c.setAlloc h b)).endTile c u fl).mem = s.mem := by
  have own : (s.setCtx (c.setAlloc h b)).ctx c.launch c.core = c.setAlloc h b := ctx_setCtx_self first rfl rfl
  have ended := ended_endTile (s.setCtx (c.setAlloc h b)) c u fl
  refine ⟨?_, tileOver_endTile fl rfl ?_ ?_, ended.mem⟩
  · rw [ended.alloc?, own, alloc?_setAlloc named, if_pos rfl]
  · rw [ctx?_setCtx, first]
    split <;> rfl
  · rw [own]
    rfl

/-- Only an MMAS has metadata to fail (R292). -/
theorem tileBad_of_kind (other : ∀ l, u.kind ≠ .mma true l) : s.tileBad c u = none := by
  unfold State.tileBad
  split
  next l _ kind _ => exact absurd kind (other l)
  next => rfl

variable {core op : Nat}

/-- An ACCZ performed (R287). -/
theorem tileOpComplete_accz {h r n : Nat} {al : Alloc} (found : s.tile? core op = some (c, u)) (first : s.ctx? c.launch c.core = some c)
    (free : s.tileFree c u = true) (kind : u.kind = .accz h r n) (named : c.alloc? h = some al) :
    ∃ t al', exec (.tileOpComplete core op) s = .next t ∧ (t.ctx c.launch c.core).alloc? h = some al' ∧
      (∀ i j, j < al.pitch → al'.elem i j = if r ≤ i ∧ i < r + n then 0 else al.elem i j) ∧ TileOver s c u 0 t ∧ t.mem = s.mem := by
  have does : s.doTile c u = ⟨s.setCtx (c.setAlloc h ((List.range (n * al.pitch)).foldl (fun a i =>
      a.setElem (r + i / al.pitch) (i % al.pitch) 0) al)), 0, .over⟩ := by
    unfold State.doTile
    simp only [kind, named]
  have runs := exec_tileOpComplete found free (tileBad_of_kind (by rw [kind]; exact fun _ h => nomatch h)) (by rw [does])
  rw [does] at runs
  obtain ⟨stands, gone, mem⟩ := setAlloc_over (u := u) first named
    ((List.range (n * al.pitch)).foldl (fun a i => a.setElem (r + i / al.pitch) (i % al.pitch) 0) al) 0
  exact ⟨_, _, runs, stands, fun i j hj => elem_zeroRows hj, gone, mem⟩

/-! ### Products -/

/-- A fold of pairs whose halves do not meet. -/
theorem foldl_pair {α β γ : Type} (f : β → α → β) (g : γ → α → γ) (l : List α) (b : β) (x : γ) :
    l.foldl (fun p a => (f p.1 a, g p.2 a)) (b, x) = (l.foldl f b, l.foldl g x) := by
  induction l generalizing b x with
  | nil => rfl
  | cons a l ih => exact ih (f b a) (g x a)

/-- The product on an allocation: each element of its rows and columns, no other, and the flags of all (R291). -/
theorem mmaRun_elem (b : MmaBlock) (ra rb : Reservation) (sparse : Bool) (bytes : Nat → Nat) (al : Alloc) (fits : b.col0 + b.n ≤ al.pitch) :
    let e := fun i j => mmaElem b ra rb sparse bytes (al.elem (b.row0 + i) (b.col0 + j)) i j
    (mmaRun b ra rb sparse bytes al).2 = orFlags ((List.range (b.m * b.n)).map (fun x => (e (x / b.n) (x % b.n)).2)) ∧
      ∀ i j, j < al.pitch → (mmaRun b ra rb sparse bytes al).1.elem i j =
        if b.row0 ≤ i ∧ i < b.row0 + b.m ∧ b.col0 ≤ j ∧ j < b.col0 + b.n then BitVec.ofNat 32 (e (i - b.row0) (j - b.col0)).1
        else al.elem i j := by
  intro e
  have halves : mmaRun b ra rb sparse bytes al =
      ((List.range (b.m * b.n)).foldl (fun a x =>
          a.setElem (b.row0 + x / b.n) (b.col0 + x % b.n) (BitVec.ofNat 32 (e (x / b.n) (x % b.n)).1)) al,
        (List.range (b.m * b.n)).foldl (fun fl x => fl ||| (e (x / b.n) (x % b.n)).2) 0) :=
    foldl_pair (fun (a : Alloc) (x : Nat) => a.setElem (b.row0 + x / b.n) (b.col0 + x % b.n) (BitVec.ofNat 32 (e (x / b.n) (x % b.n)).1))
      (fun (fl : Flags) (x : Nat) => fl ||| (e (x / b.n) (x % b.n)).2) (List.range (b.m * b.n)) al 0
  rw [halves]
  refine ⟨by rw [orFlags, List.foldl_map], fun i j hj => ?_⟩
  have width : ∀ x, x ∈ List.range (b.m * b.n) → 0 < b.n := fun x hx =>
    Nat.pos_of_ne_zero fun zero => by simp [zero] at hx
  obtain ⟨reached, missed⟩ := elem_foldl_setElem (row := fun x => b.row0 + x / b.n) (col := fun x => b.col0 + x % b.n)
    (val := fun x => BitVec.ofNat 32 (e (x / b.n) (x % b.n)).1) (i := i) (List.range (b.m * b.n)) al hj
    (fun x hx => by have := Nat.mod_lt x (width x hx); omega)
  split
  next within =>
    obtain ⟨top, bottom, left, right⟩ := within
    refine reached _ (fun x _ hr hc => ?_) ⟨(i - b.row0) * b.n + (j - b.col0), List.mem_range.2 ?_, ?_, ?_⟩
    · rw [show i - b.row0 = x / b.n by omega, show j - b.col0 = x % b.n by omega]
    · calc (i - b.row0) * b.n + (j - b.col0) < (i - b.row0) * b.n + b.n := by omega
        _ = (i - b.row0 + 1) * b.n := by ring
        _ ≤ b.m * b.n := Nat.mul_le_mul_right _ (by omega)
    · rw [Nat.mul_comm, Nat.mul_add_div (by omega), Nat.div_eq_of_lt (show j - b.col0 < b.n by omega)]
      omega
    · rw [Nat.mul_comm, Nat.mul_add_mod, Nat.mod_eq_of_lt (show j - b.col0 < b.n by omega)]
      omega
  next outside =>
    refine missed fun x hx at_ => outside ?_
    have high := Nat.div_lt_of_lt_mul (show x < b.n * b.m by rw [Nat.mul_comm]; exact List.mem_range.1 hx)
    have wide := Nat.mod_lt x (width x hx)
    obtain ⟨hr, hc⟩ : b.row0 + x / b.n = i ∧ b.col0 + x % b.n = j := at_
    generalize x / b.n = q at high hr
    generalize x % b.n = p at wide hc
    omega

/-- An MMA, or an MMAS whose metadata passes, performed (R291, R292). -/
theorem tileOpComplete_mma {sparse : Bool} {l : List Word} {ra rb : Reservation} {al : Alloc} {w : Wave} (found : s.tile? core op = some (c, u))
    (first : s.ctx? c.launch c.core = some c) (free : s.tileFree c u = true) (kind : u.kind = .mma sparse l) (good : s.tileBad c u = none)
    (hra : c.resv? (MmaBlock.ofWords l).rida = some ra) (hrb : c.resv? (MmaBlock.ofWords l).ridb = some rb)
    (named : c.alloc? (MmaBlock.ofWords l).handle = some al) (fits : (MmaBlock.ofWords l).col0 + (MmaBlock.ofWords l).n ≤ al.pitch)
    (here : s.wave? c.core u.slot = some w) :
    let b := MmaBlock.ofWords l
    let bytes := metaByte b (s.metaBytes c w b sparse (b.metaLen (s.launch c.launch).prot ra.ty))
    let e := fun i j => mmaElem b ra rb sparse bytes (al.elem (b.row0 + i) (b.col0 + j)) i j
    ∃ t al', exec (.tileOpComplete core op) s = .next t ∧ (t.ctx c.launch c.core).alloc? b.handle = some al' ∧
      (∀ i j, j < al.pitch → al'.elem i j =
        if b.row0 ≤ i ∧ i < b.row0 + b.m ∧ b.col0 ≤ j ∧ j < b.col0 + b.n then BitVec.ofNat 32 (e (i - b.row0) (j - b.col0)).1
        else al.elem i j) ∧
      TileOver s c u (orFlags ((List.range (b.m * b.n)).map (fun x => (e (x / b.n) (x % b.n)).2))) t ∧ t.mem = s.mem := by
  intro b bytes e
  have does : s.doTile c u =
      ⟨s.setCtx (c.setAlloc b.handle (mmaRun b ra rb sparse bytes al).1), (mmaRun b ra rb sparse bytes al).2, .over⟩ := by
    unfold State.doTile
    simp only [kind, hra, hrb, named, here]
    rfl
  have runs := exec_tileOpComplete found free good (by rw [does])
  rw [does] at runs
  obtain ⟨flags, elems⟩ := mmaRun_elem b ra rb sparse bytes al fits
  obtain ⟨stands, gone, mem⟩ := setAlloc_over (u := u) first named (mmaRun b ra rb sparse bytes al).1 (mmaRun b ra rb sparse bytes al).2
  exact ⟨_, _, runs, stands, elems, flags ▸ gone, mem⟩

/-! ### Metadata that fails -/

theorem tileEnded_other (w : Wave) (left : List TileOp) (u : TileOp) (fl : Flags) (now : Nat) : ∃ words flags a b d e g,
    w.tileEnded left u fl now = { w with tlWords := words, tlFlags := flags, fstat := a, mstat := b, hwAt := d, hwF := e, hwM := g } := by
  unfold Wave.tileEnded Wave.hwSticky
  dsimp only
  split
  · exact ⟨_, _, w.fstat, w.mstat, w.hwAt, w.hwF, w.hwM, rfl⟩
  · exact ⟨_, _, _, _, _, _, _, rfl⟩

theorem exec_spmetaFault {a : Word} (found : s.tile? core op = some (c, u)) (free : s.tileFree c u = true) (bad : s.tileBad c u = some a) :
    exec (.spmetaFault core op) s = .next ((s.refuseLane c u.slot u.lane cSPMETA a).endTile c u 0) := by
  show execSpmetaFault core op s = _
  unfold execSpmetaFault
  rw [found]
  dsimp only
  rw [if_pos free, bad]

theorem tile_id (found : s.tile? core op = some (c, u)) : u.id = op := by
  unfold State.tile? at found
  obtain ⟨d, _, rest⟩ := Option.bind_eq_some_iff.1 found
  obtain ⟨x, named, pair⟩ := Option.map_eq_some_iff.1 rest
  obtain ⟨rfl, rfl⟩ := Prod.mk.inj pair
  simpa using List.find?_some named

/-- An MMAS whose metadata fails: its lane learns of it, and nothing is written (R292). -/
theorem spmetaFault_done {a : Word} {w : Wave} (found : s.tile? core op = some (c, u)) (first : s.ctx? c.launch c.core = some c)
    (free : s.tileFree c u = true) (bad : s.tileBad c u = some a) (here : s.wave? c.core u.slot = some w) (own : w.launch = c.launch)
    (live : w.allExited = false) :
    ∃ t v, exec (.spmetaFault core op) s = .next t ∧ t.wave? c.core u.slot = some v ∧
      v.refusals = w.refusals ++ [⟨u.lane, cSPMETA, a⟩] ∧ (t.ctx c.launch c.core).handles = c.handles ∧
      (t.ctx c.launch c.core).resv = c.resv ∧ (∀ x ∈ (t.ctx c.launch c.core).tiles, x.id ≠ op) ∧ t.mem = s.mem := by
  obtain ⟨place, slot⟩ := State.wave?_core here
  let x : Wave := { w with refusals := w.refusals ++ [⟨u.lane, cSPMETA, a⟩] }
  have told : s.refuseLane c u.slot u.lane cSPMETA a = s.setWave x := by
    unfold State.refuseLane
    rw [here]
    exact if_pos own
  have there : (s.setWave x).wave? c.core u.slot = some x := State.wave?_setWave_self here place slot
  have stays : (s.setWave x).ctx c.launch c.core = c := ctx_of_ctx? first
  let v := x.tileEnded (((s.setWave x).ctx c.launch c.core).tiles.filter (fun y => y.id != u.id)) u 0 (s.setWave x).ctl.cycle
  obtain ⟨_, _, _, _, _, _, _, other⟩ := tileEnded_other x (((s.setWave x).ctx c.launch c.core).tiles.filter (fun y => y.id != u.id)) u 0
    (s.setWave x).ctl.cycle
  have ends : v = _ := other
  have own : (((s.setWave x).tileGone c u).setWave v).wave? c.core u.slot = some v :=
    State.wave?_setWave_self (w := x) there (by rw [ends]; exact place) (by rw [ends]; exact slot)
  have over_ : (s.setWave x).endTile c u 0 = ((s.setWave x).tileGone c u).setWave v := by
    rw [endTile_of_wave there, endWave_live own (by rw [ends]; exact live)]
  have ended := ended_endTile (s.setWave x) c u 0
  refine ⟨(s.setWave x).endTile c u 0, v, (exec_spmetaFault found free bad).trans (by rw [told]), by rw [over_]; exact own, by rw [ends],
    (ended.handles ..).trans (by rw [stays]), (ended.resv ..).trans (by rw [stays]), fun y hy => ?_, ended.mem⟩
  rw [← tile_id found]
  exact (tileOver_endTile (s := s.setWave x) (c := c) (u := u) 0 rfl (by rw [show (s.setWave x).ctx? c.launch c.core = some c from first]; rfl)
    (by rw [stays])).gone y hy

end

end Sys2Proof.Machine

/-! An OBLD performed (spec/17 R288): the rows that it loads into its reservation on each target core. -/
namespace Sys2Proof.Machine
open Sys2Proof.Safety

/-- Between two states, where a list of cores is loaded with rows of a reservation, nothing else has changed of memory, of waves and of what launches
hold. -/
structure Loaded (s t : State) (launch rid row : Nat) (l : List Byte) (ks : List Nat) : Prop where
  waves : t.cores.waves = s.cores.waves
  mem : t.mem = s.mem
  ctx? : ∀ q k, ∃ rs, t.ctx? q k = (s.ctx? q k).map (fun c => { c with resv := rs })
  other : ∀ q k g, ¬(q = launch ∧ k ∈ ks ∧ g = rid) → (t.ctx q k).resv? g = (s.ctx q k).resv? g
  rows : ∀ k ∈ ks, ∀ x, (s.ctx launch k).resv? rid = some x → ∃ y, (t.ctx launch k).resv? rid = some y ∧ y.desc = x.desc ∧
    ∀ m, y.byte m = if 128 * row ≤ m ∧ m < 128 * row + l.length then (l.getD (m - 128 * row) 0).toNat else x.byte m

/-- A reservation with some of its bytes loaded. -/
def Reservation.loaded (r : Reservation) (row : Nat) (l : List Byte) : Reservation := { r with rows := cellSetMany 0 r.rows (128 * row) l }

theorem byte_loaded (r : Reservation) (row : Nat) (l : List Byte) (m : Nat) : (r.loaded row l).byte m =
    if 128 * row ≤ m ∧ m < 128 * row + l.length then (l.getD (m - 128 * row) 0).toNat else r.byte m := by
  unfold Reservation.byte Reservation.loaded
  dsimp only
  rw [cellGet_cellSetMany]
  split <;> rfl

theorem resv?_loadRows (c : Ctx) (rid row : Nat) (l : List Byte) (g : Nat) :
    (c.loadRows rid row l).resv? g = if g = rid then (c.resv? g).map (fun r => r.loaded row l) else c.resv? g := by
  have keeps : (fun r : Reservation => r.rid == g) ∘ (fun r : Reservation => if r.rid == rid then r.loaded row l else r) =
      fun r : Reservation => r.rid == g := by
    funext r
    simp only [Function.comp_apply]
    split <;> rfl
  have found : (c.loadRows rid row l).resv? g = (c.resv? g).map (fun r : Reservation => if r.rid == rid then r.loaded row l else r) := by
    show (c.resv.map (fun r => if r.rid == rid then r.loaded row l else r)).find? (fun r => r.rid == g) = _
    rw [List.find?_map, keeps]
    rfl
  rw [found]
  cases here : c.resv? g with
  | none => split <;> rfl
  | some r =>
    have is : r.rid = g := by simpa using List.find?_some here
    simp only [Option.map_some, is, beq_iff_eq]
    split <;> rfl

/-- The rows loaded on one core. -/
theorem loaded_one (s : State) (launch rid row k : Nat) (l : List Byte) :
    Loaded s (s.setCtx ((s.ctx launch k).loadRows rid row l)) launch rid row l [k] := by
  obtain ⟨key, place⟩ := ctx_key s launch k
  have at_ : ∀ q j, (s.setCtx ((s.ctx launch k).loadRows rid row l)).ctx q j =
      if (q = launch ∧ j = k) ∧ (s.ctx? q j).isSome = true then (s.ctx launch k).loadRows rid row l else s.ctx q j := fun q j => by
    rw [ctx_setCtx, show ((s.ctx launch k).loadRows rid row l).launch = launch from key,
      show ((s.ctx launch k).loadRows rid row l).core = k from place]
  refine ⟨rfl, rfl, fun q j => ?_, fun q j g away => ?_, fun j hj x hx => ?_⟩
  · rw [ctx?_setCtx]
    split
    next mine =>
      obtain ⟨rfl, rfl⟩ : q = launch ∧ j = k := ⟨mine.1.trans key, mine.2.trans place⟩
      refine ⟨((s.ctx q j).loadRows rid row l).resv, ?_⟩
      cases here : s.ctx? q j with
      | none => rfl
      | some c => rw [ctx_of_ctx? here]; rfl
    next => exact ⟨(s.ctx q j).resv, by unfold State.ctx; cases s.ctx? q j <;> rfl⟩
  · rw [at_]
    split
    next mine =>
      obtain ⟨⟨rfl, rfl⟩, -⟩ := mine
      rw [resv?_loadRows, if_neg fun same => away ⟨rfl, List.mem_singleton_self _, same⟩]
    next => rfl
  · obtain rfl := List.mem_singleton.1 hj
    have there : (s.ctx? launch j).isSome = true := by
      unfold State.ctx at hx
      cases here : s.ctx? launch j with
      | none => rw [here] at hx; nomatch hx
      | some c => rfl
    rw [at_, if_pos ⟨⟨rfl, rfl⟩, there⟩, resv?_loadRows, if_pos rfl, hx]
    exact ⟨_, rfl, rfl, byte_loaded x row l⟩

/-- The rows loaded on one core after another. -/
theorem loaded_foldl (launch rid row : Nat) (l : List Byte) : ∀ (ks : List Nat) (s : State),
    Loaded s (ks.foldl (fun u k => u.setCtx ((u.ctx launch k).loadRows rid row l)) s) launch rid row l ks
  | [], s => ⟨rfl, rfl, fun q k => ⟨(s.ctx q k).resv, by show s.ctx? q k = _; unfold State.ctx; cases s.ctx? q k <;> rfl⟩, fun _ _ _ _ => rfl,
      fun _ none_ => by simp at none_⟩
  | k :: ks, s => by
    have one := loaded_one s launch rid row k l
    have rest := loaded_foldl launch rid row l ks (s.setCtx ((s.ctx launch k).loadRows rid row l))
    refine ⟨rest.waves.trans one.waves, rest.mem.trans one.mem, fun q j => ?_, fun q j g away => ?_, fun j hj x hx => ?_⟩
    · obtain ⟨_, first⟩ := one.ctx? q j
      obtain ⟨rs, second⟩ := rest.ctx? q j
      exact ⟨rs, by rw [List.foldl_cons, second, first]; cases s.ctx? q j <;> rfl⟩
    · refine (rest.other q j g fun ⟨hq, hj, hg⟩ => away ⟨hq, List.mem_cons_of_mem _ hj, hg⟩).trans (one.other q j g fun ⟨hq, hj, hg⟩ => ?_)
      exact away ⟨hq, List.mem_cons.2 (.inl (List.mem_singleton.1 hj)), hg⟩
    · by_cases own : j = k
      · obtain ⟨y, hy, desc, bytes⟩ := one.rows j (List.mem_singleton.2 own) x hx
        by_cases again : j ∈ ks
        · obtain ⟨z, hz, desc', bytes'⟩ := rest.rows j again y hy
          refine ⟨z, hz, desc'.trans desc, fun m => (bytes' m).trans ?_⟩
          rw [bytes]
          split <;> rfl
        · exact ⟨y, (rest.other launch j rid fun ⟨_, hj, _⟩ => again hj).trans hy, desc, bytes⟩
      · have later : j ∈ ks := (List.mem_cons.1 hj).resolve_left own
        have same := one.other launch j rid fun ⟨_, hj, _⟩ => own (List.mem_singleton.1 hj)
        exact rest.rows j later x (same.trans hx)

section
variable {s : State} {c : Ctx} {u : TileOp} {core op : Nat}

/-- An OBLD performed (R288). -/
theorem tileOpComplete_obld {src off n row rid : Nat} {ks : List Nat} (found : s.tile? core op = some (c, u))
    (first : s.ctx? c.launch c.core = some c) (free : s.tileFree c u = true) (kind : u.kind = .obld src off n row rid ks) :
    ∃ t, exec (.tileOpComplete core op) s = .next t ∧ TileOver s c u 0 t ∧ t.mem = s.mem ∧ OnlyAt s t c.launch 0 [] ∧
      (∀ k ∈ ks, ∀ d x, s.ctx? c.launch k = some d → d.resv? rid = some x →
        ∃ y, (t.ctx c.launch k).resv? rid = some y ∧ y.desc = x.desc ∧ ∀ m, y.byte m =
          if 128 * row ≤ m ∧ m < 128 * (row + n) then (padByte s c.launch src (off + (m - 128 * row))).toNat else x.byte m) ∧
      ∀ q k rid', ¬(q = c.launch ∧ k ∈ ks ∧ rid' = rid) → (t.ctx q k).resv? rid' = (s.ctx q k).resv? rid' := by
  let l := s.readPad c.launch src off (128 * n)
  let r := ks.foldl (fun u k => u.setCtx ((u.ctx c.launch k).loadRows rid row l)) s
  have does : s.doTile c u = ⟨r, 0, .over⟩ := by
    unfold State.doTile
    simp only [kind]
    rfl
  have runs := exec_tileOpComplete found free (tileBad_of_kind (by rw [kind]; exact fun _ h => nomatch h)) (by rw [does])
  rw [does] at runs
  have loaded : Loaded s r c.launch rid row l ks := loaded_foldl c.launch rid row l ks s
  have length : l.length = 128 * n := cellGetMany_length ..
  have ended := ended_endTile r c u 0
  have resv? : ∀ q k g, ((r.endTile c u 0).ctx q k).resv? g = (r.ctx q k).resv? g := fun q k g => by unfold Ctx.resv?; rw [ended.resv]
  have pads : ∀ q k m, padByte (r.endTile c u 0) q k m = padByte s q k m := fun q k m => (ended.padByte q k m).trans (by
    obtain ⟨rs, same⟩ := loaded.ctx? q k
    unfold padByte State.ctx
    rw [same]
    cases s.ctx? q k <;> rfl)
  obtain ⟨rs, here⟩ := loaded.ctx? c.launch c.core
  rw [first] at here
  refine ⟨_, runs, tileOver_endTile 0 loaded.waves (by rw [here]; rfl) (by rw [ctx_of_ctx? here]), ended.mem.trans loaded.mem,
    ⟨fun m _ => ?_, fun q k m _ => pads q k m⟩, fun k hk d x hd hx => ?_, fun q k g away => (resv? q k g).trans (loaded.other q k g away)⟩
  · unfold State.byte
    rw [ended.mem, loaded.mem]
  · obtain ⟨y, hy, desc, bytes⟩ := loaded.rows k hk x (by rw [ctx_of_ctx? hd]; exact hx)
    refine ⟨y, (resv? ..).trans hy, desc, fun m => (bytes m).trans ?_⟩
    rw [length, Nat.mul_add]
    split
    next within =>
      have inside : m - 128 * row < 128 * n := by omega
      refine congrArg BitVec.toNat ?_
      show (cellGetMany 0 (s.ctx c.launch src).pad off (128 * n)).getD (m - 128 * row) 0 = _
      simp [cellGetMany, inside, List.getD_eq_getElem?_getD, padByte]
    next => rfl

end

end Sys2Proof.Machine

/-! DRAINs (spec/17 R294, R295; spec/11 R202): the stores of a drained row, the run of the rows, and what it leaves in pools, memory and the
accumulator. -/
namespace Sys2Proof.Machine
open Sys2Proof.Safety

/-! ### One store -/

theorem Quiet.cores {s t : State} (h : Quiet s t) : t.cores = s.cores := by
  obtain ⟨⟨m, rfl⟩, _, _⟩ := h
  rfl

theorem cores_homeWrite (s : State) (slot : Option Nat) (ma : Nat) (l : List Byte) : (s.homeWrite slot ma l).cores = s.cores := by
  unfold State.homeWrite
  rw [State.stampFrame_cores]
  cases slot with
  | none => rfl
  | some k =>
    show (s.protWrite k ma l).cores = s.cores
    unfold State.protWrite
    dsimp only
    rw [State.stampFrame_cores, State.writeMem_cores, State.writeMem_cores]

/-- What is written into memory at its home touches no core but its L1 (R115). -/
theorem cores_homeDo {s u : State} {stop ten e ma n : Nat} {slot : Option Nat} {tags : List (Nat × Nat × Option WTag)}
    {new : List Byte → Option (List Byte)} {old : List Byte} (h : s.homeDo stop ten slot e ma n tags new = .done u old) : u.cores = s.cores := by
  unfold State.homeDo at h
  split at h
  · cases h
  · split at h
    · cases h
    · dsimp only at h
      split at h
      next => cases h; exact (cacheOnly_l2Access ..).quiet.cores
      next l _ =>
        cases h
        have written : ∀ l', (((s.l2Access ma e true slot).homeWrite slot ma l').leaveTags tags).cores = s.cores := fun l' =>
          (quiet_leaveTags ..).cores.trans ((cores_homeWrite ..).trans (cacheOnly_l2Access ..).quiet.cores)
        split
        · obtain ⟨_, stored⟩ := l1Store_mem (((s.l2Access ma e true slot).homeWrite slot ma l).leaveTags tags) stop (ma / 32 * 32) 32
          rw [stored]
          exact written l
        · exact (l1Only_l1Stores ..).quiet.cores.trans (written _)

theorem cores_homeAccess {s u : State} {stop ten e ma n : Nat} {who : Requester} {slot : Option Nat}
    {tags : List (Nat × Nat × Option WTag)} {new : List Byte → Option (List Byte)} {old : List Byte}
    (h : s.homeAccess stop ten who slot e ma n tags new = .done u old) : u.cores = s.cores := by
  unfold State.homeAccess at h
  split at h
  · cases h
  · split at h
    · cases h
    next sent => exact (cores_homeDo h).trans (tokensOnly_request (.inl sent)).quiet.cores

theorem cores_remoteSector {s u : State} {stop t vc dev ma va n : Nat} {new : Option (List Byte)} {l : List Byte}
    (h : remoteSector s stop t vc dev ma va n new = .ok u l) : u.cores = s.cores := by
  obtain ⟨_, _, flit⟩ := flitsOnly_sendFlit s t (stopDie stop) vc (dev :: ma :: (new.getD []).map BitVec.toNat)
  unfold remoteSector at h
  split at h
  · cases h
  next s1 _ sent =>
    rw [sent] at flit
    dsimp only at flit
    split at h
    · cases h
    next s2 goes =>
      split at h
      · cases h
      · cases h
        exact (tokensOnly_takeStops goes).quiet.cores.trans (by rw [flit])

section
variable {c : Ctx} {t : TileOp} {w : Wave} {slot : Option Nat} {s u : State} {e : JobEnd} {up : Nat} {l l' : List Byte}

/-- A store of a DRAIN changes bytes of pools at most of what launches hold. -/
theorem drainWrite_pads (h : drainWrite c t w slot s e up l = .ok u l') : PadsOnly s u := by
  unfold drainWrite at h
  dsimp only at h
  split at h
  · split at h
    · cases h
    next s1 sent =>
      cases h
      exact (PadsOnly.of_cores (tokensOnly_takeStops sent).quiet.cores).trans (padsOnly_writePad ..)
  · split at h
    · cases h
      exact .of_cores rfl
    · split at h
      · split at h
        · cases h
        · cases h
        next s1 _ done =>
          cases h
          refine .of_cores (Eq.trans ?_ (cores_homeAccess done))
          split <;> rfl
      · exact .of_cores (cores_remoteSector h)
      · cases h
        exact .of_cores rfl

/-- A store of a DRAIN into a pool or on a plain page of this device (R295). -/
theorem drainWrite_stores {p : Place} (h : drainWrite c t w slot s e up l = .ok u l') (at_ : endPlace e up = some p) : Put s u c.launch (p, l) := by
  unfold drainWrite at h
  rcases endPlace_cases at_ with ⟨core, pad, rfl⟩ | ⟨pad, base, m, loc, attr, ma, page, lies, plain, rfl⟩
  · simp only [pad] at h
    split at h
    · cases h
    next s1 sent =>
      cases h
      exact .of_quiet (tokensOnly_takeStops sent).quiet (put_writePad ..)
  · simp only [pad, page, lies, plain] at h
    split at h
    · cases h
    · cases h
    next s1 _ done =>
      cases h
      have put := homeAccess_stores done c.launch
      split
      · exact put.then_quiet (quiet_setWatch ..)
      · exact put

/-- A store into a pool leaves main memory. -/
theorem drainWrite_bytes (h : drainWrite c t w slot s e up l = .ok u l') (pad : e.pad.isSome = true) : u.mem.bytes = s.mem.bytes := by
  obtain ⟨core, pad⟩ := Option.isSome_iff_exists.1 pad
  unfold drainWrite at h
  simp only [pad] at h
  split at h
  · cases h
  next s1 sent =>
    cases h
    exact (tokensOnly_takeStops sent).quiet.bytes

end

/-! ### The stores of a row -/

/-- A list of stores of a DRAIN: by their ends, offsets and bytes. -/
abbrev Drains := List (JobEnd × Nat × List Byte)

/-- What stores of a DRAIN leave, where each was made. -/
structure Sent (c : Ctx) (l : Drains) (s t : State) : Prop where
  pads : PadsOnly s t
  puts : ∀ ps : List Place, l.map (fun x => endPlace x.1 x.2.1) = ps.map some → Puts c.launch s t (ps.zip (l.map (fun x => x.2.2)))
  bytes : (∀ x ∈ l, x.1.pad.isSome = true) → t.mem.bytes = s.mem.bytes

theorem drainSend_sent {c : Ctx} {t : TileOp} {w : Wave} {slot : Option Nat} : ∀ (l : Drains) {s u : State} {m : Nat},
    drainSend c t w slot l s = (u, m, none) → Sent c l s u
  | [], s, u, m, h => by
    cases h
    refine ⟨.of_cores rfl, fun ps none_ => ?_, fun _ => rfl⟩
    rw [List.map_eq_nil_iff.1 none_.symm]
    exact .nil s
  | x :: l, s, u, m, h => by
    unfold drainSend at h
    split at h
    next => cases h
    next => cases h
    next s1 _ one =>
      obtain ⟨⟨u', m', e'⟩, rest⟩ : ∃ r, drainSend c t w slot l s1 = r := ⟨_, rfl⟩
      rw [rest] at h
      cases h
      obtain ⟨pads, puts, bytes⟩ := drainSend_sent l rest
      refine ⟨(drainWrite_pads one).trans pads, fun ps ends => ?_, fun pools => ?_⟩
      · cases ps with
        | nil => cases ends
        | cons p ps =>
          obtain ⟨at_, ends⟩ := List.cons.inj ends
          exact .put (drainWrite_stores one at_) (puts ps ends)
      · exact (bytes fun y hy => pools y (List.mem_cons_of_mem _ hy)).trans (drainWrite_bytes one (pools x (List.mem_cons_self ..)))

/-! ### Rows one after another -/

/-- What row `r` of a drain gives, by the draws of its elements (R202, R295). -/
def DrainBlock.drained (b : DrainBlock) (draw : Nat → Nat) (al : Alloc) (r : Nat) : List Nat × List Nat × Flags :=
  drainRow b (fun i => draw (r * b.cols + i)) ((List.range b.cols).map (fun j => al.elem (b.row0 + r) (b.col0 + j)))

theorem drained_congr {b : DrainBlock} {draw : Nat → Nat} {al al' : Alloc} {r : Nat}
    (same : ∀ j < b.cols, al'.elem (b.row0 + r) (b.col0 + j) = al.elem (b.row0 + r) (b.col0 + j)) : b.drained draw al' r = b.drained draw al r := by
  unfold DrainBlock.drained
  rw [List.map_congr_left fun j hj => same j (List.mem_range.1 hj)]

/-- The elements of a row that a DRAIN zeroes. -/
def DrainBlock.zeroRow (b : DrainBlock) (al : Alloc) (r : Nat) : Alloc :=
  (List.range b.cols).foldl (fun a j => a.setElem (b.row0 + r) (b.col0 + j) 0) al

theorem pitch_foldl_setElem {α : Type} {row col : α → Nat} {val : α → BitVec 32} : ∀ (l : List α) (a : Alloc),
    (l.foldl (fun a x => a.setElem (row x) (col x) (val x)) a).pitch = a.pitch
  | [], _ => rfl
  | x :: l, a => pitch_foldl_setElem l (a.setElem (row x) (col x) (val x))

theorem elem_zeroRow {b : DrainBlock} {al : Alloc} {r i j : Nat} (fits : b.col0 + b.cols ≤ al.pitch) (hj : j < al.pitch) :
    (b.zeroRow al r).elem i j = if i = b.row0 + r ∧ b.col0 ≤ j ∧ j < b.col0 + b.cols then 0 else al.elem i j := by
  obtain ⟨reached, missed⟩ := elem_foldl_setElem (row := fun _ => b.row0 + r) (col := fun x => b.col0 + x) (val := fun _ => 0) (i := i)
    (List.range b.cols) al hj (fun x hx => by have := List.mem_range.1 hx; omega)
  split
  next within => exact reached 0 (fun _ _ _ _ => rfl) ⟨j - b.col0, List.mem_range.2 (by omega), by omega, by omega⟩
  next outside =>
    refine missed fun x hx at_ => outside ?_
    obtain ⟨hr, hc⟩ : b.row0 + r = i ∧ b.col0 + x = j := at_
    have := List.mem_range.1 hx
    omega

/-- What a run of rows of a drain leaves, where it is over: `row` says what each gives. -/
structure DrainRun (c : Ctx) (b : DrainBlock) (dst sdst : JobEnd) (row : Nat → List Nat × List Nat × Flags) (r n : Nat) (a : Alloc) (s t : State)
    (fl0 fl : Flags) : Prop where
  waves : t.cores.waves = s.cores.waves
  there : (t.ctx? c.launch c.core).isSome = (s.ctx? c.launch c.core).isSome
  tiles : (t.ctx c.launch c.core).tiles = (s.ctx c.launch c.core).tiles
  flags : fl = fl0 ||| orFlags ((List.range' r n).map (fun i => (row i).2.2))
  alloc : ∃ a', (t.ctx c.launch c.core).alloc? b.handle = some a' ∧ ∀ i j, j < a.pitch → a'.elem i j =
    if b.zero = true ∧ b.row0 + r ≤ i ∧ i < b.row0 + r + n ∧ b.col0 ≤ j ∧ j < b.col0 + b.cols then 0 else a.elem i j
  puts : ∀ ps : List Place, ((List.range' r n).flatMap (fun i => drainStores b dst sdst i (row i))).map (fun x => endPlace x.1 x.2.1) = ps.map some →
    Puts c.launch s t (ps.zip (((List.range' r n).flatMap (fun i => drainStores b dst sdst i (row i))).map (fun x => x.2.2)))
  bytes : (∀ x ∈ (List.range' r n).flatMap (fun i => drainStores b dst sdst i (row i)), x.1.pad.isSome = true) → t.mem.bytes = s.mem.bytes

/-- The row's elements zeroed where the block says so. -/
def State.zeroed (s : State) (c : Ctx) (b : DrainBlock) (a : Alloc) : State :=
  if b.zero then s.setCtx ((s.ctx c.launch c.core).setAlloc b.handle a) else s

theorem still_zeroed (s : State) (c : Ctx) (b : DrainBlock) (a : Alloc) : Still s (s.zeroed c b a) := by
  obtain ⟨key, place⟩ := ctx_key s c.launch c.core
  unfold State.zeroed
  split
  · refine still_setCtx ?_
    show (s.ctx c.launch c.core).pad = (s.ctx (s.ctx c.launch c.core).launch (s.ctx c.launch c.core).core).pad
    rw [key, place]
  · exact (Quiet.refl s).still

theorem ctx_zeroed {s : State} {c : Ctx} (b : DrainBlock) (a : Alloc) (there : (s.ctx? c.launch c.core).isSome = true) :
    (s.zeroed c b a).ctx c.launch c.core = if b.zero then (s.ctx c.launch c.core).setAlloc b.handle a else s.ctx c.launch c.core := by
  obtain ⟨key, place⟩ := ctx_key s c.launch c.core
  unfold State.zeroed
  split
  · rw [ctx_setCtx, if_pos ⟨⟨key.symm, place.symm⟩, there⟩]
  · rfl

theorem mem_zeroed (s : State) (c : Ctx) (b : DrainBlock) (a : Alloc) : (s.zeroed c b a).mem = s.mem ∧ (s.zeroed c b a).cores.waves = s.cores.waves := by
  unfold State.zeroed
  split <;> exact ⟨rfl, rfl⟩

theorem drainRows_run {c : Ctx} {t : TileOp} {w : Wave} {b : DrainBlock} {slot : Option Nat} {dst sdst : JobEnd} {draw : Nat → Nat} {al : Alloc} :
    ∀ (n : Nat) {r : Nat} {a : Alloc} {s u : State} {fl0 fl : Flags}, drainRows c t w b slot dst sdst draw n r 0 s fl0 = ⟨u, fl, .over⟩ →
      (s.ctx? c.launch c.core).isSome = true → (s.ctx c.launch c.core).alloc? b.handle = some a → b.col0 + b.cols ≤ a.pitch →
      (∀ i, r ≤ i → ∀ j < b.cols, a.elem (b.row0 + i) (b.col0 + j) = al.elem (b.row0 + i) (b.col0 + j)) →
      DrainRun c b dst sdst (b.drained draw al) r n a s u fl0 fl
  | 0, r, a, s, u, fl0, fl, h, _, named, _, _ => by
    cases h
    refine ⟨rfl, rfl, rfl, by simp [orFlags], ⟨a, named, fun i j _ => (if_neg (by omega)).symm⟩, fun ps none_ => ?_, fun _ => rfl⟩
    rw [List.map_eq_nil_iff.1 none_.symm]
    exact .nil s
  | n + 1, r, a, s, u, fl0, fl, h, there, named, fits, same => by
    unfold drainRows at h
    rw [named] at h
    dsimp only at h
    have here : drainRow b (fun i => draw (r * b.cols + i)) ((List.range b.cols).map (fun j => a.elem (b.row0 + r) (b.col0 + j))) =
      b.drained draw al r := drained_congr (same r (Nat.le_refl r))
    rw [here, List.drop_zero] at h
    split at h
    next => cases h
    next => cases h
    next s1 m sent =>
      obtain ⟨pads, puts, bytes⟩ := drainSend_sent _ sent
      let a2 : Alloc := if b.zero then b.zeroRow a r else a
      obtain ⟨p, g, held⟩ := pads.ctx c.launch c.core
      have there1 : (s1.ctx? c.launch c.core).isSome = true := (pads.isSome ..).trans there
      have still := still_zeroed s1 c b (b.zeroRow a r)
      have there2 : ((s1.zeroed c b (b.zeroRow a r)).ctx? c.launch c.core).isSome = true := (still.pools ..).trans there1
      have named1 : (s1.ctx c.launch c.core).alloc? b.handle = some a := by rw [held]; exact named
      have named2 : ((s1.zeroed c b (b.zeroRow a r)).ctx c.launch c.core).alloc? b.handle = some a2 := by
        rw [ctx_zeroed b _ there1]
        unfold a2
        split
        · rw [alloc?_setAlloc named1, if_pos rfl]
        · exact named1
      have pitch : a2.pitch = a.pitch := by
        unfold a2
        split
        · exact pitch_foldl_setElem (row := fun _ => b.row0 + r) (col := fun x => b.col0 + x) (val := fun _ => 0) (List.range b.cols) a
        · rfl
      have elem2 : ∀ i j, j < a.pitch → a2.elem i j =
          if b.zero = true ∧ i = b.row0 + r ∧ b.col0 ≤ j ∧ j < b.col0 + b.cols then 0 else a.elem i j := fun i j hj => by
        unfold a2
        cases b.zero with
        | true => simpa using elem_zeroRow (i := i) fits hj
        | false => simp
      have rest := drainRows_run n (r := r + 1) (a := a2) (al := al) h there2 named2 (by rw [pitch]; exact fits) (fun i hi j hj => by
        rw [elem2 _ _ (by omega), if_neg (by omega)]
        exact same i (by omega) j hj)
      refine ⟨?_, ?_, ?_, ?_, ?_, fun ps ends => ?_, fun pools => ?_⟩
      · exact rest.waves.trans ((mem_zeroed ..).2.trans pads.waves)
      · exact rest.there.trans (there2.trans there.symm)
      · refine rest.tiles.trans ?_
        show ((s1.zeroed c b (b.zeroRow a r)).ctx c.launch c.core).tiles = _
        rw [ctx_zeroed b _ there1]
        have tiles : (s1.ctx c.launch c.core).tiles = (s.ctx c.launch c.core).tiles := by rw [held]
        split <;> exact tiles
      · rw [rest.flags, List.range'_succ, List.map_cons, orFlags_cons, BitVec.or_assoc]
      · obtain ⟨a', named', elems⟩ := rest.alloc
        refine ⟨a', named', fun i j hj => ?_⟩
        rw [elems i j (by rw [pitch]; exact hj), elem2 i j hj]
        by_cases zero : b.zero = true
        · by_cases first : i = b.row0 + r ∧ b.col0 ≤ j ∧ j < b.col0 + b.cols
          · rw [if_neg (by omega), if_pos ⟨zero, first⟩, if_pos ⟨zero, by omega, by omega, first.2⟩]
          · rw [if_neg (c := b.zero = true ∧ i = _ ∧ _) (fun at_ => first at_.2)]
            refine if_congr ⟨fun at_ => ?_, fun at_ => ?_⟩ rfl rfl
            · exact ⟨zero, by omega, by omega, at_.2.2.2⟩
            · exact ⟨zero, by omega, by omega, at_.2.2.2⟩
        · rw [if_neg fun at_ => zero at_.1, if_neg fun at_ => zero at_.1, if_neg fun at_ => zero at_.1]
      · rw [List.range'_succ, List.flatMap_cons] at ends ⊢
        rw [List.map_append] at ends
        obtain ⟨ps1, ps2, rfl, ends1, ends2⟩ := List.append_eq_map_iff.1 ends
        rw [List.map_append, List.zip_append]
        · exact (puts ps1 ends1.symm).append (.still still (rest.puts ps2 ends2.symm))
        · have := congrArg List.length ends1
          simpa using this
      · rw [List.range'_succ, List.flatMap_cons] at pools
        exact (rest.bytes fun x hx => pools x (List.mem_append_right _ hx)).trans
          ((congrArg MemSys.bytes (mem_zeroed ..).1).trans (bytes fun x hx => pools x (List.mem_append_left _ hx)))

end Sys2Proof.Machine

/-! What a DRAIN whose stores are all accepted leaves (spec/17 R295), and all that tile operations leave. -/
namespace Sys2Proof.Machine
open Sys2Proof.Safety

/-! ### What a row drains to -/

/-- Lists made of the chunks of a list, each as long as its chunk, are as long as the chunks together. -/
theorem length_flatMap_mapIdx {α β γ : Type} (h : β → List γ) : ∀ (l : List (List α)) (g : Nat → List α → β),
    (∀ i x, (h (g i x)).length = x.length) → ((l.mapIdx g).flatMap h).length = (l.map List.length).sum
  | [], _, _ => rfl
  | x :: l, g, same => by
    rw [List.mapIdx_cons, List.flatMap_cons, List.length_append, same, List.map_cons, List.sum_cons,
      length_flatMap_mapIdx h l (fun i => g (i + 1)) fun i => same (i + 1)]

theorem length_chunks_sum {α : Type} {n : Nat} : ∀ (k : Nat) {l : List α}, l.length ≤ n * k → ((chunks n k l).map List.length).sum = l.length
  | 0, l, short => by simp at short; simp [short, chunks]
  | k + 1, l, short => by
    have rest : (l.drop n).length ≤ n * k := by
      rw [List.length_drop]
      have : n * (k + 1) = n * k + n := by ring
      omega
    rw [chunks, List.map_cons, List.sum_cons, length_chunks_sum k rest, List.length_take, List.length_drop]
    omega

theorem length_chunks {α : Type} (n : Nat) : ∀ (k : Nat) (l : List α), (chunks n k l).length = k
  | 0, _ => rfl
  | k + 1, l => by rw [chunks, List.length_cons, length_chunks n k]

theorem length_requantise (t : Ty) (r : Rnd) (u : Nat → Nat) (vs : List FVal) : (requantise t r u vs).2.1.length = vs.length := by
  unfold requantise
  split <;> simp

section
variable {b : DrainBlock} (u : Nat → Nat) {row : List (BitVec 32)}

/-- A row drains to one value for each of its elements. -/
theorem length_drainRow_elems (width : row.length = b.cols) : (drainRow b u row).2.1.length = b.cols := by
  unfold drainRow
  split
  · dsimp only
    rw [length_flatMap_mapIdx (fun p : Nat × List Res × Flags => p.2.1.map Res.bits) (chunks 32 (ceilDiv b.cols 32) row) _ (fun i x => by
      rw [List.length_map, length_requantise, List.length_map]), length_chunks_sum _ (by rw [width, ceilDiv]; omega), width]
  · simp [width]

/-- A row of an MX format has a scale for each of its blocks; another has none. -/
theorem length_drainRow_scales : (drainRow b u row).1.length = b.scaleRow := by
  unfold drainRow DrainBlock.scaleRow
  split
  · simp [length_chunks]
  · rfl

end

/-- A type of another width than four bits fills whole bytes. -/
theorem bits_whole {t : Ty} (other : t.bits ≠ 4) : 8 ∣ t.bits := by
  revert other
  cases t <;> decide

/-- The elements of a row packed into whole bytes (R2). -/
theorem length_packBytes {b : DrainBlock} {l : List Nat} (whole : b.cols * b.ty.bits % 8 = 0) (width : l.length = b.cols) :
    (packBytes b.ty l).length = b.rowBytes := by
  have pieces : ∀ (n : Nat) (l : List Nat), (l.flatMap (fun x => bytesOf n x)).length = l.length * n := fun n l => by
    simp [List.length_flatMap, bytesOf_length]
  unfold packBytes DrainBlock.rowBytes
  split
  next half =>
    rw [half] at whole ⊢
    rw [List.length_map, length_chunks, width]
    omega
  next other =>
    rw [pieces, width, Nat.mul_div_assoc _ (bits_whole other)]

/-! ### Pieces of a row -/

/-- A piece of a row lies within it and holds its bytes. -/
theorem mem_cutSectors {e : JobEnd} {up : Nat} {l : List Byte} {p : Nat × List Byte} (h : p ∈ cutSectors e up l) :
    up ≤ p.1 ∧ p.1 + p.2.length ≤ up + l.length ∧ ∀ n < p.2.length, p.2.getD n 0 = l.getD (p.1 - up + n) 0 := by
  unfold cutSectors at h
  dsimp only at h
  split at h
  · simp at h
  next some_ =>
    obtain ⟨i, hi, rfl⟩ := List.mem_map.1 h
    have long : 0 < l.length := List.length_pos_of_ne_nil some_
    have last := List.mem_range.1 hi
    unfold ceilDiv at last
    dsimp only
    rw [List.length_take, List.length_drop]
    refine ⟨by omega, by omega, fun n hn => ?_⟩
    rw [Nat.add_sub_cancel_left]
    have inside : n < 32 * (i + 1) - (e.addr + up) % 32 - (32 * i - (e.addr + up) % 32) := by omega
    simp [List.getD_eq_getElem?_getD, inside]

/-- Every byte of a row lies in a piece of it. -/
theorem cutSectors_covers (e : JobEnd) (up : Nat) {l : List Byte} {j : Nat} (inside : j < l.length) :
    ∃ p ∈ cutSectors e up l, p.1 ≤ up + j ∧ up + j < p.1 + p.2.length := by
  unfold cutSectors
  dsimp only
  rw [if_neg (by rintro rfl; simp at inside)]
  refine ⟨_, List.mem_map_of_mem (a := ((e.addr + up) % 32 + j) / 32) (List.mem_range.2 ?_), ?_, ?_⟩
  · unfold ceilDiv
    omega
  · dsimp only
    omega
  · dsimp only
    rw [List.length_take, List.length_drop]
    omega

/-- The stores of a row: its scale bytes, and the pieces of its elements. -/
theorem mem_drainStores {b : DrainBlock} {dst sdst : JobEnd} {r : Nat} {q : List Nat × List Nat × Flags} {x : JobEnd × Nat × List Byte} :
    x ∈ drainStores b dst sdst r q ↔ (∃ i < q.1.length, x = (sdst, r * b.spitch + i, [BitVec.ofNat 8 (q.1.getD i 0)])) ∨
      ∃ p ∈ cutSectors dst (r * b.epitch) (packBytes b.ty q.2.1), x = (dst, p) := by
  unfold drainStores
  rw [List.mem_append, List.mem_mapIdx, List.mem_map]
  refine or_congr ⟨?_, ?_⟩ ⟨?_, ?_⟩
  · rintro ⟨i, hi, rfl⟩
    exact ⟨i, hi, by simp [hi]⟩
  · rintro ⟨i, hi, rfl⟩
    exact ⟨i, hi, by simp [hi]⟩
  · rintro ⟨p, hp, rfl⟩
    exact ⟨p, hp, rfl⟩
  · rintro ⟨p, hp, rfl⟩
    exact ⟨p, hp, rfl⟩

/-- Rows of a pitch do not meet. -/
theorem rows_apart {e r r' k k' : Nat} (hk : k < e) (hk' : k' < e) (same : r * e + k = r' * e + k') : r = r' ∧ k = k' := by
  have row : ∀ n i, i < e → (n * e + i) / e = n := fun n i hi => by
    rw [Nat.mul_comm, Nat.mul_add_div (by omega), Nat.div_eq_of_lt hi, Nat.add_zero]
  have rows : r = r' := by rw [← row r k hk, same, row r' k' hk']
  subst rows
  exact ⟨rfl, by omega⟩

/-! ### A DRAIN into pools -/

section
variable {c : Ctx} {b : DrainBlock} {dst sdst : JobEnd} {row : Nat → List Nat × List Nat × Flags} {s t : State} {pc qc : Nat}

/-- Where a store of a DRAIN goes that goes to a pool. -/
def drainAt (x : JobEnd × Nat × List Byte) : Place := (x.1.pad, x.1.addr + x.2.1)

/-- The stores of all rows of a drain. -/
def DrainBlock.stores (b : DrainBlock) (dst sdst : JobEnd) (row : Nat → List Nat × List Nat × Flags) : Drains :=
  (List.range b.rows).flatMap (fun r => drainStores b dst sdst r (row r))

/-- Both ends of a drain lie in pools that the launch has, where rows keep their pitch and scales do not meet elements. -/
structure DrainsToPools (s : State) (c : Ctx) (b : DrainBlock) (dst sdst : JobEnd) (row : Nat → List Nat × List Nat × Flags) (pc qc : Nat) : Prop where
  elems : dst.pad = some pc
  pool : (s.ctx? c.launch pc).isSome = true
  pitch : b.rowBytes ≤ b.epitch
  packed : ∀ r, (packBytes b.ty (row r).2.1).length = b.rowBytes
  scales : ∀ r, (row r).1.length = b.scaleRow
  mx : b.mx = true → sdst.pad = some qc ∧ (s.ctx? c.launch qc).isSome = true ∧ b.scaleRow ≤ b.spitch ∧
    (pc ≠ qc ∨ dst.addr + b.rows * b.epitch ≤ sdst.addr ∨ sdst.addr + b.rows * b.spitch ≤ dst.addr)

/-- A place among the elements of a row of a drain. -/
def InElems (b : DrainBlock) (dst : JobEnd) (pc r : Nat) (q : Place) : Prop :=
  q.1 = some pc ∧ dst.addr + r * b.epitch ≤ q.2 ∧ q.2 < dst.addr + r * b.epitch + b.rowBytes

/-- A place among the scales of a row of a drain. -/
def InScales (b : DrainBlock) (sdst : JobEnd) (qc r : Nat) (q : Place) : Prop :=
  q.1 = some qc ∧ sdst.addr + r * b.spitch ≤ q.2 ∧ q.2 < sdst.addr + r * b.spitch + b.scaleRow

/-- A store of a drain that covers a place of a pool: a scale of some row, or a piece of the elements of some row. -/
theorem covers_drain (pools : DrainsToPools s c b dst sdst row pc qc) {x : JobEnd × Nat × List Byte} (hx : x ∈ b.stores dst sdst row) {q : Place}
    (cov : Covers (drainAt x, x.2.2) q) : ∃ r < b.rows,
      (b.mx = true ∧ InScales b sdst qc r q ∧ x.2.2.getD (q.2 - (drainAt x).2) 0 = BitVec.ofNat 8 ((row r).1.getD (q.2 - (sdst.addr + r * b.spitch)) 0)) ∨
      (InElems b dst pc r q ∧ x.2.2.getD (q.2 - (drainAt x).2) 0 = (packBytes b.ty (row r).2.1).getD (q.2 - (dst.addr + r * b.epitch)) 0) := by
  obtain ⟨r, hr, hx⟩ := List.mem_flatMap.1 hx
  refine ⟨r, List.mem_range.1 hr, ?_⟩
  obtain ⟨at_, low, high⟩ := cov
  rcases mem_drainStores.1 hx with ⟨i, hi, rfl⟩ | ⟨p, hp, rfl⟩
  · rw [pools.scales] at hi
    have mx : b.mx = true := by
      by_contra plain
      simp [DrainBlock.scaleRow, plain] at hi
    obtain ⟨pad, -, -, -⟩ := pools.mx mx
    dsimp only [drainAt] at at_ low high ⊢
    rw [List.length_singleton] at high
    refine .inl ⟨mx, ⟨at_.symm.trans pad, by omega, by omega⟩, ?_⟩
    rw [show q.2 - (sdst.addr + (r * b.spitch + i)) = 0 by omega, show q.2 - (sdst.addr + r * b.spitch) = i by omega]
    rfl
  · obtain ⟨start, stop, same⟩ := mem_cutSectors hp
    rw [pools.packed] at stop
    dsimp only [drainAt] at at_ low high ⊢
    refine .inr ⟨⟨at_.symm.trans pools.elems, by omega, by omega⟩, ?_⟩
    rw [same _ (by omega)]
    congr 1
    omega

/-- The rows of a drain's elements and scales do not meet. -/
theorem elems_not_scales (pools : DrainsToPools s c b dst sdst row pc qc) (mx : b.mx = true) {r r' : Nat} (hr : r < b.rows) (hr' : r' < b.rows) {q : Place}
    (elems : InElems b dst pc r q) (scales : InScales b sdst qc r' q) : False := by
  obtain ⟨-, -, pitch, apart⟩ := pools.mx mx
  obtain ⟨hq, low, high⟩ := elems
  obtain ⟨hq', low', high'⟩ := scales
  have narrow := pools.pitch
  have top : (r + 1) * b.epitch ≤ b.rows * b.epitch := Nat.mul_le_mul_right _ hr
  have top' : (r' + 1) * b.spitch ≤ b.rows * b.spitch := Nat.mul_le_mul_right _ hr'
  have next : (r + 1) * b.epitch = r * b.epitch + b.epitch := by ring
  have next' : (r' + 1) * b.spitch = r' * b.spitch + b.spitch := by ring
  rcases apart with other | before | after
  · exact other (Option.some.inj (hq.symm.trans hq'))
  · omega
  · omega

theorem drain_place (pools : DrainsToPools s c b dst sdst row pc qc) {x : JobEnd × Nat × List Byte} (hx : x ∈ b.stores dst sdst row) :
    (drainAt x).1 = some pc ∨ b.mx = true ∧ (drainAt x).1 = some qc := by
  obtain ⟨r, -, hx⟩ := List.mem_flatMap.1 hx
  rcases mem_drainStores.1 hx with ⟨i, hi, rfl⟩ | ⟨p, hp, rfl⟩
  · rw [pools.scales] at hi
    have mx : b.mx = true := by
      by_contra plain
      simp [DrainBlock.scaleRow, plain] at hi
    exact .inr ⟨mx, (pools.mx mx).1⟩
  · exact .inl pools.elems

/-- What a drain into pools leaves there: its rows' elements and scales, and no other byte changes. -/
theorem drain_pools (pools : DrainsToPools s c b dst sdst row pc qc)
    (puts : Puts c.launch s t ((b.stores dst sdst row).map (fun x => (drainAt x, x.2.2)))) :
    (∀ r < b.rows, ∀ k < b.rowBytes, padByte t c.launch pc (dst.addr + r * b.epitch + k) = (packBytes b.ty (row r).2.1).getD k 0) ∧
    (b.mx = true → ∀ r < b.rows, ∀ k < b.scaleRow,
      padByte t c.launch qc (sdst.addr + r * b.spitch + k) = BitVec.ofNat 8 ((row r).1.getD k 0)) ∧
    ∀ q x m, ¬(q = c.launch ∧ ((x = pc ∧ ∃ r < b.rows, dst.addr + r * b.epitch ≤ m ∧ m < dst.addr + r * b.epitch + b.rowBytes) ∨
        (b.mx = true ∧ x = qc ∧ ∃ r < b.rows, sdst.addr + r * b.spitch ≤ m ∧ m < sdst.addr + r * b.spitch + b.scaleRow))) →
      padByte t q x m = padByte s q x m := by
  have reach : ∀ y ∈ (b.stores dst sdst row).map (fun x => (drainAt x, x.2.2)), Reachable s c.launch y.1 := fun y hy core at_ => by
    obtain ⟨x, hx, rfl⟩ := List.mem_map.1 hy
    rcases drain_place pools hx with elems | ⟨mx, scales⟩
    · rw [← Option.some.inj (elems.symm.trans at_)]
      exact pools.pool
    · rw [← Option.some.inj (scales.symm.trans at_)]
      exact (pools.mx mx).2.1
  have narrow := pools.pitch
  refine ⟨fun r hr k hk => ?_, fun mx r hr k hk => ?_, fun q x m away => ?_⟩
  · have mine : InElems b dst pc r (some pc, dst.addr + r * b.epitch + k) := ⟨rfl, by dsimp only; omega, by dsimp only; omega⟩
    refine (puts.holds (q := (some pc, dst.addr + r * b.epitch + k)) (v := (packBytes b.ty (row r).2.1).getD k 0) reach (fun y hy cov => ?_) ?_).trans
      (if_neg (by simp))
    · obtain ⟨x, hx, rfl⟩ := List.mem_map.1 hy
      obtain ⟨r', hr', ⟨mx, scales, -⟩ | ⟨⟨-, low, high⟩, is⟩⟩ := covers_drain pools hx cov
      · exact (elems_not_scales pools mx hr hr' mine scales).elim
      · dsimp only at low high is ⊢
        obtain ⟨rfl, -⟩ := rows_apart (e := b.epitch) (r := r) (r' := r') (k := k) (k' := dst.addr + r * b.epitch + k - (dst.addr + r' * b.epitch))
          (by omega) (by omega) (by omega)
        rw [is, Nat.add_sub_cancel_left]
    · obtain ⟨p, hp, low, high⟩ := cutSectors_covers dst (r * b.epitch) (l := packBytes b.ty (row r).2.1) (j := k) (by rw [pools.packed]; exact hk)
      refine ⟨_, List.mem_map_of_mem (List.mem_flatMap.2 ⟨r, List.mem_range.2 hr, mem_drainStores.2 (.inr ⟨p, hp, rfl⟩)⟩), pools.elems, ?_, ?_⟩
      · dsimp only [drainAt]
        omega
      · dsimp only [drainAt]
        omega
  · obtain ⟨pad, -, pitch, -⟩ := pools.mx mx
    have mine : InScales b sdst qc r (some qc, sdst.addr + r * b.spitch + k) := ⟨rfl, by dsimp only; omega, by dsimp only; omega⟩
    refine (puts.holds (q := (some qc, sdst.addr + r * b.spitch + k)) (v := BitVec.ofNat 8 ((row r).1.getD k 0)) reach (fun y hy cov => ?_) ?_).trans
      (if_neg (by simp))
    · obtain ⟨x, hx, rfl⟩ := List.mem_map.1 hy
      obtain ⟨r', hr', ⟨-, ⟨-, low, high⟩, is⟩ | ⟨elems, -⟩⟩ := covers_drain pools hx cov
      · dsimp only at low high is ⊢
        obtain ⟨rfl, -⟩ := rows_apart (e := b.spitch) (r := r) (r' := r') (k := k) (k' := sdst.addr + r * b.spitch + k - (sdst.addr + r' * b.spitch))
          (by omega) (by omega) (by omega)
        rw [is, Nat.add_sub_cancel_left]
      · exact (elems_not_scales pools mx hr' hr elems mine).elim
    · refine ⟨_, List.mem_map_of_mem (List.mem_flatMap.2 ⟨r, List.mem_range.2 hr,
        mem_drainStores.2 (.inl ⟨k, by rw [pools.scales]; exact hk, rfl⟩)⟩), pad, ?_, ?_⟩
      · dsimp only [drainAt]
        omega
      · dsimp only [drainAt, List.length_singleton]
        omega
  · by_cases own : q = c.launch
    · subst own
      refine puts.stands (q := (some x, m)) fun y hy cov => ?_
      obtain ⟨z, hz, rfl⟩ := List.mem_map.1 hy
      obtain ⟨r, hr, ⟨mx, ⟨at_, low, high⟩, -⟩ | ⟨⟨at_, low, high⟩, -⟩⟩ := covers_drain pools hz cov
      · exact away ⟨rfl, .inr ⟨mx, Option.some.inj at_, r, hr, low, high⟩⟩
      · exact away ⟨rfl, .inl ⟨Option.some.inj at_, r, hr, low, high⟩⟩
    · exact puts.others x m own

end

/-! ### A DRAIN performed -/

section
variable {s s1 : State} {c : Ctx} {u : TileOp} {core op n : Nat} {l : List Word} {dst sdst : JobEnd} {fl : Flags} {w : Wave} {al : Alloc}

/-- A DRAIN from its first row on that runs to its end: its rows, and then the count of free values. -/
theorem doTile_drain (kind : u.kind = .drain l dst sdst n) (rows : u.rowsDone = 0) (sent : u.sent = 0) (flags : u.flags = 0)
    (does : s.doTile c u = ⟨s1, fl, .over⟩) (here : s.wave? c.core u.slot = some w) :
    ∃ r, s1 = r.tickFresh ∧ drainRows c u w (DrainBlock.ofWords l) (s.launch c.launch).slotHeld dst sdst
      (fun i => if (DrainBlock.ofWords l).rndCode = 5 then draw16 (s.launch c.launch).lid w.wid n u.lane i else 0)
      (DrainBlock.ofWords l).rows 0 0 s 0 = ⟨r, fl, .over⟩ := by
  unfold State.doTile at does
  simp only [kind, rows, sent, flags, here, Option.getD_some, Nat.sub_zero] at does
  obtain ⟨⟨r, fl', out⟩, run⟩ : ∃ r, drainRows c u w (DrainBlock.ofWords l) (s.launch c.launch).slotHeld dst sdst
      (fun i => if (DrainBlock.ofWords l).rndCode = 5 then draw16 (s.launch c.launch).lid w.wid n u.lane i else 0)
      (DrainBlock.ofWords l).rows 0 0 s 0 = r := ⟨_, rfl⟩
  rw [run] at does
  obtain ⟨is, rfl, rfl⟩ := TileRes.mk.inj does
  exact ⟨r, is.symm, run⟩

theorem drainedRow_eq (s : State) (c : Ctx) (u : TileOp) (wid n : Nat) (b : DrainBlock) (al : Alloc) : drainedRow s c u wid n b al =
    b.drained (fun i => if b.rndCode = 5 then draw16 (s.launch c.launch).lid wid n u.lane i else 0) al := by
  funext r
  unfold drainedRow DrainBlock.drained
  rfl

theorem drain_run (kind : u.kind = .drain l dst sdst n) (rows : u.rowsDone = 0) (sent : u.sent = 0) (flags : u.flags = 0)
    (does : s.doTile c u = ⟨s1, fl, .over⟩) (here : s.wave? c.core u.slot = some w) (first : s.ctx? c.launch c.core = some c)
    (named : c.alloc? (DrainBlock.ofWords l).handle = some al)
    (fits : (DrainBlock.ofWords l).col0 + (DrainBlock.ofWords l).cols ≤ al.pitch) :
    ∃ r, s1 = r.tickFresh ∧ DrainRun c (DrainBlock.ofWords l) dst sdst (drainedRow s c u w.wid n (DrainBlock.ofWords l) al) 0
      (DrainBlock.ofWords l).rows al s r 0 fl := by
  obtain ⟨r, is, run⟩ := doTile_drain kind rows sent flags does here
  refine ⟨r, is, ?_⟩
  rw [drainedRow_eq]
  exact drainRows_run (al := al) _ run (by rw [first]; rfl) (by rw [ctx_of_ctx? first]; exact named) fits fun _ _ _ _ => rfl

variable {row : Nat → List Nat × List Nat × Flags} {b : DrainBlock} {r : State}

/-- The stores of a run of rows that end at known places. -/
theorem DrainRun.stored (run : DrainRun c b dst sdst row 0 b.rows al s r 0 fl) {ps : List Place}
    (ends : (b.stores dst sdst row).map (fun x => endPlace x.1 x.2.1) = ps.map some) :
    Puts c.launch s r (ps.zip ((b.stores dst sdst row).map (fun x => x.2.2))) := by
  have puts := run.puts
  rw [← List.range_eq_range'] at puts
  exact puts ps ends

/-- The stores of a run of rows into pools. -/
theorem DrainRun.pools {pc qc : Nat} (run : DrainRun c b dst sdst row 0 b.rows al s r 0 fl) (pools : DrainsToPools s c b dst sdst row pc qc) :
    Puts c.launch s r ((b.stores dst sdst row).map (fun x => (drainAt x, x.2.2))) ∧ r.mem.bytes = s.mem.bytes := by
  have pad : ∀ x ∈ b.stores dst sdst row, ∃ core, x.1.pad = some core := fun x hx =>
    (drain_place pools hx).elim (fun h => ⟨pc, h⟩) (fun h => ⟨qc, h.2⟩)
  have ends : (b.stores dst sdst row).map (fun x => endPlace x.1 x.2.1) = ((b.stores dst sdst row).map drainAt).map some := by
    rw [List.map_map]
    refine List.map_congr_left fun x hx => ?_
    obtain ⟨core, is⟩ := pad x hx
    simp [endPlace, drainAt, is]
  have puts := run.stored ends
  rw [List.zip_map'] at puts
  have bytes := run.bytes
  rw [← List.range_eq_range'] at bytes
  exact ⟨puts, bytes fun x hx => Option.isSome_iff_exists.2 (pad x hx)⟩

theorem stored_congr {t : State} {launch : Nat} {st : List (Place × List Byte)} (h : Stored s r launch st)
    (bytes : ∀ m, t.byte m = r.byte m) (pads : ∀ q k m, padByte t q k m = padByte r q k m) : Stored s t launch st := by
  refine ⟨fun x hx n hn => Eq.trans ?_ (h.written x hx n hn), fun m away => (bytes m).trans (h.mem m away),
    fun q k m away => (pads q k m).trans (h.pad q k m away)⟩
  obtain ⟨⟨k, a⟩, y⟩ := x
  cases k with
  | none => exact bytes _
  | some k => exact pads launch k _

end

/-- A row drained gives its block's number of elements and scales. -/
theorem length_drainedRow (s : State) (c : Ctx) (u : TileOp) (wid n : Nat) (b : DrainBlock) (al : Alloc) (r : Nat) :
    (drainedRow s c u wid n b al r).2.1.length = b.cols ∧ (drainedRow s c u wid n b al r).1.length = b.scaleRow :=
  ⟨length_drainRow_elems _ (by simp), length_drainRow_scales _⟩

/-- Settles O48, operation by operation: an ACCZ and a product are writes of elements, an OBLD loads rows, a DRAIN is a run of stores and of rows
zeroed, and the end of an operation touches none of these. -/
theorem tileEvents : Obligations.TileEvents := by
  unfold Obligations.TileEvents
  intro core op s c u found first free
  refine ⟨fun h r n al kind named => tileOpComplete_accz found first free kind named,
    fun src off n row rid ks kind => tileOpComplete_obld found first free kind,
    fun sparse l ra rb al w kind good hra hrb named fits here => tileOpComplete_mma found first free kind good hra hrb named fits here,
    fun l dst sdst n al w s1 fl kind rows sent flags does here named fits whole narrow => ?_,
    fun a w bad here own live => spmetaFault_done found first free bad here own live⟩
  let b := DrainBlock.ofWords l
  let row := drainedRow s c u w.wid n b al
  obtain ⟨r, rfl, run⟩ := drain_run kind rows sent flags does here first named fits
  have runs := exec_tileOpComplete found free (tileBad_of_kind (by rw [kind]; exact fun _ h => nomatch h)) (by rw [does])
  rw [does] at runs
  have ended := ended_endTile r.tickFresh c u fl
  have bytes : ∀ m, (r.tickFresh.endTile c u fl).byte m = r.byte m := fun m => congrArg (fun x : MemSys => cellGet 0 x.bytes m) ended.mem
  have pads : ∀ q k m, padByte (r.tickFresh.endTile c u fl) q k m = padByte r q k m := ended.padByte
  have waves : r.tickFresh.cores.waves = s.cores.waves := run.waves
  refine ⟨fun pc qc hpc pool mx => ?_, fun ps ends reach apart => ⟨_, runs, ?_⟩, ?_⟩
  · have reaches : DrainsToPools s c b dst sdst row pc qc := ⟨hpc, pool, narrow,
      fun i => length_packBytes whole (length_drainedRow s c u w.wid n b al i).1, fun i => (length_drainedRow s c u w.wid n b al i).2, mx⟩
    obtain ⟨puts, same⟩ := run.pools reaches
    obtain ⟨elems, scales, others⟩ := drain_pools reaches puts
    refine ⟨_, runs, (congrArg MemSys.bytes ended.mem).trans same, fun i hi k hk => (pads ..).trans (elems i hi k hk),
      fun hmx i hi k hk => (pads ..).trans (scales hmx i hi k hk), fun q x m away => (pads ..).trans (others q x m away)⟩
  · have zipped := run.stored ends
    exact stored_congr (zipped.stored (fun x hx => reach _ (List.of_mem_zip hx).1) apart) bytes pads
  · obtain ⟨al', stands, elems⟩ := run.alloc
    have flags := run.flags
    rw [← List.range_eq_range', show ∀ f : Flags, 0 ||| f = f from fun f => BitVec.zero_or] at flags
    refine ⟨_, al', runs, (ended.alloc? ..).trans stands, fun i j hj => (elems i j hj).trans ?_, ?_⟩
    · refine if_congr ?_ rfl rfl
      unfold inDrain
      simp
    · rw [← flags]
      exact tileOver_endTile fl waves (run.there.trans (by rw [first]; rfl)) (run.tiles.trans (by rw [ctx_of_ctx? first]))

end Sys2Proof.Machine
